-- ==== Sys2Proof/Word.lean ====
section
/-! DEFINITION. The word types of the Damith AZD-8160 and the shape of a sparse table (INVENTORY.md, '## State'). -/
namespace Sys2Proof

/-- One 8-bit byte of a memory. -/
abbrev Byte := BitVec 8
/-- A 32-bit register word (01 R19). -/
abbrev Word := BitVec 32
/-- A 64-bit value: a register pair (01 R21). -/
abbrev Dword := BitVec 64
/-- One bit per visible lane: a mask register, an enabled set (01 R18, R22). -/
abbrev Mask := BitVec 64
/-- A 57-bit guest address (01 R16). -/
abbrev GAddr := BitVec 57

/-- A sparse table: keys strictly rising; what an unlisted key means is said where the table is used. -/
abbrev Tbl (α : Type) := List (Nat × α)

end Sys2Proof
end

