-- ==== Sys2Proof/Syntax.lean ====
section
/-! DEFINITION. The instructions: one constructor per row of spec/opcode_table.json. The 137 native rows carry the
fields of the operation word (02 R41, R42), the dray rows the fields of the dray word (07 R255); every other row is an
indivisible step of the device (95_what_each_step_holds.md) and names the objects it acts on. -/
namespace Sys2Proof

/-- The three layouts of bits 48:0 of an operation word (02 R42). -/
inductive Fmt where
  /-- F-R: register form. -/
  | fr (d a b c : BitVec 8) (x : BitVec 17)
  /-- F-I: short immediate form. -/
  | fi (d a : BitVec 8) (xs : BitVec 9) (imm : BitVec 24)
  /-- F-L: long immediate form of MOVI, MOVHI, BRA, CALL, SLEEP and TRAP. -/
  | fl (d : BitVec 8) (xs : BitVec 9) (imm : BitVec 32)
  deriving DecidableEq, Repr

/-- The fields of a native operation word other than its major opcode (02 R41). -/
structure NOp where
  /-- SW: the switch marker (02 R50). -/
  sw : Bool
  /-- PM: the predicate mask register (02 R46). -/
  pm : BitVec 4
  /-- PN: invert the predicate (02 R46). -/
  pn : Bool
  fmt : Fmt
  deriving DecidableEq, Repr

/-- Where a Portil request comes from (15 R508). -/
inductive ReqSource where
  /-- The PF0 mailbox: the driver. -/
  | mailbox
  /-- An SPDM secured session on the DOE mailbox of a virtual function. -/
  | vfSession (vf : Nat)
  /-- A model owner's SPDM secured session, by its number. -/
  | ownerSession (session : Nat)
  /-- MCTP on I3C: management. -/
  | mctp
  deriving DecidableEq, Repr

/-- One constructor per row of spec/opcode_table.json; the comment names the row and its rule. The last 33, from
DOORBELL on, are inputs from outside the device, which no step puts on the schedule. -/
inductive Instr where
  | nop (w : NOp)  -- NOP (R153)
  | bra (w : NOp)  -- BRA (R153)
  | brx (w : NOp)  -- BRX (R153)
  | call (w : NOp)  -- CALL (R156)
  | callx (w : NOp)  -- CALLX (R156)
  | ret (w : NOp)  -- RET (R156)
  | join (w : NOp)  -- JOIN (R160)
  | exit (w : NOp)  -- EXIT (R162)
  | sleep (w : NOp)  -- SLEEP (R164)
  | sleepBar (w : NOp)  -- SLEEP_BAR (R164)
  | yield (w : NOp)  -- YIELD (R158)
  | iadd (w : NOp)  -- IADD (R112)
  | isub (w : NOp)  -- ISUB (R112)
  | imul (w : NOp)  -- IMUL (R112)
  | imulh (w : NOp)  -- IMULH (R112)
  | imad (w : NOp)  -- IMAD (R112)
  | iaddc (w : NOp)  -- IADDC (R113)
  | imin (w : NOp)  -- IMIN (R112)
  | imax (w : NOp)  -- IMAX (R112)
  | iabs (w : NOp)  -- IABS (R112)
  | icmp (w : NOp)  -- ICMP (R115)
  | sel (w : NOp)  -- SEL (R117)
  | and (w : NOp)  -- AND (R118)
  | or (w : NOp)  -- OR (R118)
  | xor (w : NOp)  -- XOR (R118)
  | andn (w : NOp)  -- ANDN (R118)
  | shl (w : NOp)  -- SHL (R119)
  | shr (w : NOp)  -- SHR (R119)
  | sar (w : NOp)  -- SAR (R119)
  | rotl (w : NOp)  -- ROTL (R119)
  | bfe (w : NOp)  -- BFE (R120)
  | bfi (w : NOp)  -- BFI (R120)
  | popc (w : NOp)  -- POPC (R121)
  | clz (w : NOp)  -- CLZ (R121)
  | ctz (w : NOp)  -- CTZ (R121)
  | lea (w : NOp)  -- LEA (R124)
  | mov (w : NOp)  -- MOV (R122)
  | movi (w : NOp)  -- MOVI (R123)
  | movhi (w : NOp)  -- MOVHI (R123)
  | iadd64 (w : NOp)  -- IADD64 (R114)
  | imad64 (w : NOp)  -- IMAD64 (R114)
  | idp4 (w : NOp)  -- IDP4 (R114)
  | fadd (w : NOp)  -- FADD (R125)
  | fsub (w : NOp)  -- FSUB (R125)
  | fmul (w : NOp)  -- FMUL (R125)
  | ffma (w : NOp)  -- FFMA (R125)
  | fmin (w : NOp)  -- FMIN (R126)
  | fmax (w : NOp)  -- FMAX (R126)
  | fcmp (w : NOp)  -- FCMP (R116)
  | frnd (w : NOp)  -- FRND (R127)
  | frcp (w : NOp)  -- FRCP (R130)
  | frsq (w : NOp)  -- FRSQ (R130)
  | fsqrt (w : NOp)  -- FSQRT (R130)
  | fexp2 (w : NOp)  -- FEXP2 (R130)
  | flog2 (w : NOp)  -- FLOG2 (R130)
  | fsin (w : NOp)  -- FSIN (R130)
  | fcos (w : NOp)  -- FCOS (R130)
  | fclass (w : NOp)  -- FCLASS (R129)
  | hadd2 (w : NOp)  -- HADD2 (R131)
  | hmul2 (w : NOp)  -- HMUL2 (R131)
  | hfma2 (w : NOp)  -- HFMA2 (R131)
  | hmin2 (w : NOp)  -- HMIN2 (R131)
  | hmax2 (w : NOp)  -- HMAX2 (R131)
  | hdot2 (w : NOp)  -- HDOT2 (R132)
  | fdp4n (w : NOp)  -- FDP4N (R133)
  | cvt (w : NOp)  -- CVT (R134)
  | cvtn (w : NOp)  -- CVTN (R135)
  | pack (w : NOp)  -- PACK (R136)
  | unpack (w : NOp)  -- UNPACK (R136)
  | scalex (w : NOp)  -- SCALEX (R137)
  | rand (w : NOp)  -- RAND (R139)
  | rseed (w : NOp)  -- RSEED (R140)
  | shfl (w : NOp)  -- SHFL (R141)
  | ballot (w : NOp)  -- BALLOT (R142)
  | vote (w : NOp)  -- VOTE (R143)
  | redx (w : NOp)  -- REDX (R144)
  | scanx (w : NOp)  -- SCANX (R144)
  | mop (w : NOp)  -- MOP (R145)
  | mpopc (w : NOp)  -- MPOPC (R146)
  | mfirst (w : NOp)  -- MFIRST (R146)
  | mact (w : NOp)  -- MACT (R147)
  | mmov (w : NOp)  -- MMOV (R148)
  | spr (w : NOp)  -- SPR (R151)
  | sprWr (w : NOp)  -- SPR_WR (R151)
  | ld (w : NOp)  -- LD (R172)
  | st (w : NOp)  -- ST (R172)
  | lds (w : NOp)  -- LDS (R172)
  | sts (w : NOp)  -- STS (R172)
  | ldl (w : NOp)  -- LDL (R174)
  | stl (w : NOp)  -- STL (R174)
  | atom (w : NOp)  -- ATOM (R180)
  | atoms (w : NOp)  -- ATOMS (R180)
  | fence (w : NOp)  -- FENCE (R181)
  | cctl (w : NOp)  -- CCTL (R182)
  | pref (w : NOp)  -- PREF (R183)
  | ipref (w : NOp)  -- IPREF (R184)
  | ipin (w : NOp)  -- IPIN (R184)
  | iunpin (w : NOp)  -- IUNPIN (R184)
  | ldd (w : NOp)  -- LDD (R177)
  | std (w : NOp)  -- STD (R178)
  | bari (w : NOp)  -- BARI (R189)
  | bara (w : NOp)  -- BARA (R190)
  | barw (w : NOp)  -- BARW (R191)
  | bars (w : NOp)  -- BARS (R192)
  | barx (w : NOp)  -- BARX (R193)
  | tbar (w : NOp)  -- TBAR (R194)
  | tlwait (w : NOp)  -- TLWAIT (R195)
  | tlrd (w : NOp)  -- TLRD (R196)
  | cpy (w : NOp)  -- CPY (R198)
  | cpseal (w : NOp)  -- CPSEAL (R200)
  | cpwait (w : NOp)  -- CPWAIT (R200)
  | qctlOpen (w : NOp)  -- QCTL_OPEN (R205)
  | qctlClose (w : NOp)  -- QCTL_CLOSE (R205)
  | qctlDrain (w : NOp)  -- QCTL_DRAIN (R205)
  | mcfg (w : NOp)  -- MCFG (R229)
  | mma (w : NOp)  -- MMA (R238)
  | mloop (w : NOp)  -- MLOOP (R238)
  | mzero (w : NOp)  -- MZERO (R240)
  | mlda (w : NOp)  -- MLDA (R241)
  | msta (w : NOp)  -- MSTA (R241)
  | mprom (w : NOp)  -- MPROM (R240)
  | mverRead (w : NOp)  -- MVER_READ (R243)
  | mverAcq (w : NOp)  -- MVER_ACQ (R243)
  | mverRel (w : NOp)  -- MVER_REL (R243)
  | mverWait (w : NOp)  -- MVER_WAIT (R243)
  | mmeta (w : NOp)  -- MMETA (R236)
  | trap (w : NOp)  -- TRAP (R207)
  | tret (w : NOp)  -- TRET (R411)
  | leaseDecl (w : NOp)  -- LEASE_DECL (R209)
  | leaseMeas (w : NOp)  -- LEASE_MEAS (R209)
  | czopen (w : NOp)  -- CZOPEN (R212)
  | czclose (w : NOp)  -- CZCLOSE (R212)
  | spawn (w : NOp)  -- SPAWN (R216)
  | sysrd (w : NOp)  -- SYSRD (R210)
  | syswr (w : NOp)  -- SYSWR (R210)
  | dbgbrk (w : NOp)  -- DBGBRK (R217)
  | dturn (w : NOp)  -- DTURN (R218)
  | systemPlateOp (w : BitVec 64)  -- SYSTEM_PLATE_OP (R63)
  | guestDecode  -- GUEST_DECODE (R308)
  | longResultReturn (coach slot : Nat)  -- LONG_RESULT_RETURN (R50)
  | returnBufferCommit (coach : Nat)  -- RETURN_BUFFER_COMMIT (R50)
  | sleepWake (coach : Nat)  -- SLEEP_WAKE (R165)
  | tbarWake (tag : Nat)  -- TBAR_WAKE (R194)
  | queuePushComplete (coach : Nat)  -- QUEUE_PUSH_COMPLETE (R202)
  | qfull (coach : Nat)  -- QFULL (R202)
  | queuePopComplete (coach : Nat)  -- QUEUE_POP_COMPLETE (R203)
  | portPushComplete (coach : Nat)  -- PORT_PUSH_COMPLETE (R206)
  | portPopComplete (coach : Nat)  -- PORT_POP_COMPLETE (R206)
  | drayContextStart (rake launch : Nat)  -- DRAY_CONTEXT_START (R260)
  | promiseTimeout (dray : Nat)  -- PROMISE_TIMEOUT (R199)
  | trapEntry (coach : Nat)  -- TRAP_ENTRY (R409)
  | halted (coach : Nat)  -- HALTED (R413)
  | rakeHaltRecord (rake : Nat)  -- RAKE_HALT_RECORD (R414)
  | faultRecordWrite (entry : Nat)  -- FAULT_RECORD_WRITE (R423)
  | matrixOpStart (tile : Nat)  -- MATRIX_OP_START (R224)
  | kStep (core : Nat)  -- K_STEP (R227)
  | matrixOpComplete (tile : Nat)  -- MATRIX_OP_COMPLETE (R224)
  | issueSelect (partition : Nat)  -- ISSUE_SELECT (R384)
  | coachAdmission (pool : Nat)  -- COACH_ADMISSION (R381)
  | longWaitExit (coach : Nat)  -- LONG_WAIT_EXIT (R383)
  | throttleInterval (pool : Nat)  -- THROTTLE_INTERVAL (R383)
  | leaseEstimateUpdate (coach : Nat)  -- LEASE_ESTIMATE_UPDATE (R380)
  | timeSliceExpiry (coach : Nat)  -- TIME_SLICE_EXPIRY (R386)
  | coachEviction (core : Nat)  -- COACH_EVICTION (R386)
  | coachRestore (coach : Nat)  -- COACH_RESTORE (R434)
  | rakePlacement (rake : Nat)  -- RAKE_PLACEMENT (R375)
  | stageRebalance (region : Nat)  -- STAGE_REBALANCE (R377)
  | slotMove (rake : Nat)  -- SLOT_MOVE (R377)
  | ticketTurn (region : Nat)  -- TICKET_TURN (R397)
  | registerLineFill (coach reg : Nat)  -- REGISTER_LINE_FILL (R433)
  | l1DirtyPropagation (l1 line : Nat)  -- L1_DIRTY_PROPAGATION (R336)
  | accessCounterNotify (die counter : Nat)  -- ACCESS_COUNTER_NOTIFY (R427)
  | dramScrub (die : Nat)  -- DRAM_SCRUB (R466)
  | l2Scrub (die line : Nat)  -- L2_SCRUB (R466)
  | flowTagFailure (flow line : Nat) (replayFails : Bool)  -- FLOW_TAG_FAILURE (R445)
  | thermalThrottle (die : Nat)  -- THERMAL_THROTTLE (R502)
  | thermalRecover (die : Nat)  -- THERMAL_RECOVER (R502)
  | thermalFatal  -- THERMAL_FATAL (R502)
  | drayHalt  -- DRAY_HALT (R268)
  | drayAdd (d : BitVec 4) (a : BitVec 4) (b : BitVec 4)  -- DRAY_ADD (R262)
  | draySub (d : BitVec 4) (a : BitVec 4) (b : BitVec 4)  -- DRAY_SUB (R262)
  | drayMul (d : BitVec 4) (a : BitVec 4) (b : BitVec 4)  -- DRAY_MUL (R262)
  | drayAnd (d : BitVec 4) (a : BitVec 4) (b : BitVec 4)  -- DRAY_AND (R262)
  | drayOr (d : BitVec 4) (a : BitVec 4) (b : BitVec 4)  -- DRAY_OR (R262)
  | drayXor (d : BitVec 4) (a : BitVec 4) (b : BitVec 4)  -- DRAY_XOR (R262)
  | drayShl (d : BitVec 4) (a : BitVec 4) (b : BitVec 4)  -- DRAY_SHL (R262)
  | drayShr (d : BitVec 4) (a : BitVec 4) (b : BitVec 4)  -- DRAY_SHR (R262)
  | drayMin (d : BitVec 4) (a : BitVec 4) (b : BitVec 4)  -- DRAY_MIN (R262)
  | drayMax (d : BitVec 4) (a : BitVec 4) (b : BitVec 4)  -- DRAY_MAX (R262)
  | drayAddi (d : BitVec 4) (a : BitVec 4) (i : BitVec 14)  -- DRAY_ADDI (R263)
  | drayLi (d : BitVec 4) (i : BitVec 14)  -- DRAY_LI (R263)
  | drayLui (d : BitVec 4) (a : BitVec 4) (i : BitVec 14)  -- DRAY_LUI (R263)
  | drayLdw (d : BitVec 4) (a : BitVec 4) (z : BitVec 2) (p : BitVec 1) (o : BitVec 11)  -- DRAY_LDW (R264)
  | drayStw (d : BitVec 4) (a : BitVec 4) (z : BitVec 2) (p : BitVec 1) (o : BitVec 11)  -- DRAY_STW (R264)
  | drayBeq (a : BitVec 4) (b : BitVec 4) (i : BitVec 14)  -- DRAY_BEQ (R265)
  | drayBne (a : BitVec 4) (b : BitVec 4) (i : BitVec 14)  -- DRAY_BNE (R265)
  | drayBlt (a : BitVec 4) (b : BitVec 4) (i : BitVec 14)  -- DRAY_BLT (R265)
  | drayBge (a : BitVec 4) (b : BitVec 4) (i : BitVec 14)  -- DRAY_BGE (R265)
  | drayJmp (i : BitVec 14)  -- DRAY_JMP (R267)
  | drayJmpLink (l : BitVec 4) (i : BitVec 14)  -- DRAY_JMP_LINK (R267)
  | drayJmpIndirect (l : BitVec 4) (a : BitVec 4)  -- DRAY_JMP_INDIRECT (R267)
  | drayLoop (a : BitVec 4) (i : BitVec 14)  -- DRAY_LOOP (R266)
  | drayArg (d : BitVec 4) (a : BitVec 4) (i : BitVec 14)  -- DRAY_ARG (R261)
  | drayGset (n : BitVec 2) (a : BitVec 4) (s : BitVec 1) (o : BitVec 13)  -- DRAY_GSET (R272)
  | drayGadv (n : BitVec 2) (a : BitVec 4) (r : BitVec 1)  -- DRAY_GADV (R273)
  | drayXfer (d : BitVec 2) (s : BitVec 2) (n : BitVec 4) (m : BitVec 3) (f : BitVec 4) (u : BitVec 1) (c : BitVec 6)  -- DRAY_XFER (R274)
  | drayGather (d : BitVec 2) (x : BitVec 2) (n : BitVec 4) (t : BitVec 2)  -- DRAY_GATHER (R279)
  | drayScatter (t : BitVec 2) (x : BitVec 2) (n : BitVec 4) (s : BitVec 2)  -- DRAY_SCATTER (R279)
  | drayFill (d : BitVec 2) (v : BitVec 4) (n : BitVec 4) (p : BitVec 2)  -- DRAY_FILL (R280)
  | drayArrive (a : BitVec 4) (c : BitVec 10) (k : BitVec 4)  -- DRAY_ARRIVE (R284)
  | draySignal (a : BitVec 4) (s : BitVec 2) (g : BitVec 3)  -- DRAY_SIGNAL (R285)
  | drayTlw (h : BitVec 4) (n : BitVec 4) (s : BitVec 2) (g : BitVec 3)  -- DRAY_TLW (R286)
  | drayPromise (a : BitVec 4) (i : BitVec 14)  -- DRAY_PROMISE (R288)
  | drayDfence (s : BitVec 2) (g : BitVec 3) (o : BitVec 3)  -- DRAY_DFENCE (R287)
  | drayStat (d : BitVec 4) (s : BitVec 4)  -- DRAY_STAT (R289)
  | drayOpt (a : BitVec 4) (c : BitVec 1) (m : BitVec 1) (n : BitVec 8)  -- DRAY_OPT (R282)
  | drayLoadResult (dray : Nat)  -- DRAY_LOAD_RESULT (R264)
  | drayDataUnit (dray : Nat)  -- DRAY_DATA_UNIT (R271)
  | hallmarkOpen (die port : Nat)  -- HALLMARK_OPEN (R457)
  | hallmarkAbsorb (die port : Nat)  -- HALLMARK_ABSORB (R458)
  | hallmarkClose (die port : Nat)  -- HALLMARK_CLOSE (R459)
  | hallmarkRecordWrite (die session : Nat)  -- HALLMARK_RECORD_WRITE (R464)
  | msgLaunch (ctx q : Nat)  -- MSG_LAUNCH (R363)
  | msgWait (ctx q : Nat)  -- MSG_WAIT (R363)
  | waitPoll (ctx q : Nat)  -- WAIT_POLL (R363)
  | msgSignal (ctx q : Nat)  -- MSG_SIGNAL (R363)
  | msgNote (ctx q : Nat)  -- MSG_NOTE (R363)
  | msgFence (ctx q : Nat)  -- MSG_FENCE (R363)
  | msgPreemptSave (ctx q : Nat)  -- MSG_PREEMPT_SAVE (R363)
  | msgPreemptResume (ctx q : Nat)  -- MSG_PREEMPT_RESUME (R363)
  | invalidationComplete (ctx : Nat)  -- INVALIDATION_COMPLETE (R422)
  | plateLoadComplete (ctx : Nat)  -- PLATE_LOAD_COMPLETE (R331)
  | createWorld (src : ReqSource) (block : List (BitVec 8))  -- CREATE_WORLD (R440)
  | destroyWorld (src : ReqSource) (block : List (BitVec 8))  -- DESTROY_WORLD (R440)
  | assign (src : ReqSource) (block : List (BitVec 8))  -- ASSIGN (R443)
  | reclaim (src : ReqSource) (block : List (BitVec 8))  -- RECLAIM (R443)
  | exportPage (src : ReqSource) (block : List (BitVec 8))  -- EXPORT (R446)
  | importPage (src : ReqSource) (block : List (BitVec 8))  -- IMPORT (R447)
  | loadKey (src : ReqSource) (block : List (BitVec 8))  -- LOAD_KEY (R451)
  | revokeKey (src : ReqSource) (block : List (BitVec 8))  -- REVOKE_KEY (R439)
  | getNonce (src : ReqSource) (block : List (BitVec 8))  -- GET_NONCE (R440)
  | debugUnlock (src : ReqSource) (block : List (BitVec 8))  -- DEBUG_UNLOCK (R453)
  | drayIllegal (w : BitVec 32)  -- DRAY_ILLEGAL (R256)
  | hallmarkBadcmd (die port : Nat)  -- HALLMARK_BADCMD (R456)
  | ctxcmdComplete  -- CTXCMD_COMPLETE (R503)
  | doorbell (ctx q : Nat) (value : BitVec 64)  -- DOORBELL (R361)
  | qerrRearm (ctx q : Nat)  -- QERR_REARM (R495)
  | qerrTeardown (ctx q : Nat)  -- QERR_TEARDOWN (R436)
  | faultrespRetry (ctx : Nat) (seq : BitVec 32)  -- FAULTRESP_RETRY (R426)
  | faultrespFail (ctx : Nat) (seq : BitVec 32)  -- FAULTRESP_FAIL (R426)
  | invcmd (ctx : Nat) (value : BitVec 64)  -- INVCMD (R422)
  | platecmd (ctx : Nat) (value : BitVec 64)  -- PLATECMD (R331)
  | debugWrite (ctx : Nat) (value : BitVec 64)  -- DEBUG_WRITE (R495)
  | rakecmdResume (ctx : Nat) (value : BitVec 64)  -- RAKECMD_RESUME (R505)
  | rakecmdKill (ctx : Nat) (value : BitVec 64)  -- RAKECMD_KILL (R505)
  | featdrvWrite (value : BitVec 128)  -- FEATDRV_WRITE (R500)
  | partcmd (value : BitVec 64)  -- PARTCMD (R499)
  | ctxcmdCreate (value : BitVec 64)  -- CTXCMD_CREATE (R496)
  | ctxcmdReset (value : BitVec 64)  -- CTXCMD_RESET (R435)
  | ctxcmdDestroy (value : BitVec 64)  -- CTXCMD_DESTROY (R503)
  | ctrassignAssign (value : BitVec 64)  -- CTRASSIGN_ASSIGN (R505)
  | ctrassignUnassign (value : BitVec 64)  -- CTRASSIGN_UNASSIGN (R505)
  | portreq (value : BitVec 64)  -- PORTREQ (R508)
  | registerWrite (fn offset : Nat) (value : BitVec 64)  -- REGISTER_WRITE (R494)
  | hostApertureAccess (write : Bool) (offset size : Nat) (value : BitVec 64)  -- HOST_APERTURE_ACCESS (R493)
  | peerAccess (link : Nat) (write : Bool) (pa size : Nat) (value : BitVec 64)  -- PEER_ACCESS (R498)
  | atsInvalidation (first pages : Nat)  -- ATS_INVALIDATION (R498)
  | perstRelease (passed : Bool)  -- PERST_RELEASE (R501)
  | dramTraining (passed : Bool)  -- DRAM_TRAINING (R501)
  | systemPlateLoad (image : List (BitVec 8)) (signed : Bool)  -- SYSTEM_PLATE_LOAD (R323)
  | clusterSelfTest (passed : BitVec 20)  -- CLUSTER_SELF_TEST (R501)
  | extumLinkTraining (up : BitVec 12)  -- EXTUM_LINK_TRAINING (R501)
  | ready  -- READY (R501)
  | spdmRequest (session : Nat) (code : Nat) (transport : Nat)  -- SPDM_REQUEST (R449)
  | tdispRequest (vf world : Nat) (bind : Bool)  -- TDISP_REQUEST (R493)
  | firmwareRotation  -- FIRMWARE_ROTATION (R450)
  | debuggerHaltRequest (rake : Nat)  -- DEBUGGER_HALT_REQUEST (R415)
  | powerCapSet (watts : Nat)  -- POWER_CAP_SET (R502)
  deriving DecidableEq, Repr

end Sys2Proof
end

