-- ==== Sys2Proof/Machine/State.lean ====
section
/-! DEFINITION. The state of the Damith AZD-8160 as plain data, its faults and refusals, and the machine after reset.
INVENTORY.md, '## State', lists every field with the rule that names it. -/
namespace Sys2Proof.Machine

/-- Why a step stops. -/
inductive Fault where
  /-- The device is fatal (12 R470): all issue has stopped and only PERST_RELEASE restores service. Raised by `step`.
  Safe: the spec lets nothing happen. -/
  | deviceFatal
  deriving DecidableEq, Repr

/-- Why a step has no meaning. -/
inductive Refusal where
  /-- The instruction is not modelled. Raised by an arm of `exec` only. Safe. -/
  | notModelled (mnemonic : String)
  deriving DecidableEq, Repr

/-- The lane states of 01 R15. -/
inductive LaneState where
  | running | sleeping | parked | joining | exited | absent
  deriving DecidableEq, Repr

/-- What a sleeping, joining or parked lane waits for (01 R15, 05 R219). -/
inductive Wait where
  | none
  /-- SLEEP n: the counter value to reach (05 R164). -/
  | cycles (target : Nat)
  /-- SLEEP.BAR: the cycle c, BAR, barrier K, target phase, LT (05 R164). -/
  | sleepBar (c : Dword) (bar : Bool) (k : Nat) (t : BitVec 24) (lt : Bool)
  /-- BARW (05 R191). -/
  | barrier (k : Nat) (t : BitVec 24)
  /-- TBAR: tag and epoch (05 R194). -/
  | tbar (tag epoch : Nat)
  /-- TLWAIT: handle, n, agent and storage scope (05 R195). -/
  | timeline (handle : Word) (n : Dword) (agt stg : Nat)
  /-- MVER.WAIT (06 R243). -/
  | version (tile : Nat) (v : BitVec 16)
  /-- MVER.REL (06 R243). -/
  | release (tile : Nat)
  /-- JOIN mK (05 R159). -/
  | join (k : Nat)
  /-- Parked on a page (11 R423): the fault entry that the lane waits on. -/
  | page (entry : Nat)
  /-- The wait is over, but its wake is held until TRET (11 R409). -/
  | woken
  /-- The wait has ended, and the lane wakes once its coach can wake it, with an acquire at this agent scope if any: a phase
  that has gone by (05 R190), an epoch that has closed (05 R194), a SLEEP whose barrier BARX took (05 R193). -/
  | ended (agt : Option Nat)
  /-- BARX has invalidated the barrier on which the lane waited in BARW: it wakes and takes BARMIS (05 R193). -/
  | barx (k : Nat)
  deriving DecidableEq, Repr

/-- One visible lane of a coach. -/
structure Lane where
  state : LaneState
  /-- Guest address of the program counter (01 R16). -/
  ga : GAddr
  /-- Step of the program counter (01 R16). -/
  step : Nat
  /-- Where the lane goes on when its sleep ends: address and step. -/
  nga : GAddr
  nstep : Nat
  wait : Wait
  /-- The operation word on which the lane waits (11 R406). -/
  word : Dword
  /-- ICNT (01 R30) and its value at the start of the guest instruction (08 R314). -/
  icnt : Dword
  icntG : Dword
  /-- The coach's issue order at the start of the guest instruction (08 R314). -/
  orderG : Nat
  /-- RAND draw counter (04 R138). -/
  draw : Word
  /-- Held return-stack entries, newest first (05 R156). -/
  held : List GAddr
  /-- Spill pointer (05 R156). -/
  sp : Nat
  /-- Step of the operation at which the lane parked: in an expansion its program counter is back at step 0 (11 R406). -/
  wstep : Nat := 0
  deriving DecidableEq, Repr

/-- One queue entry (01 R23). -/
inductive Entry where
  | word (w : Word)
  /-- 64 words (unlisted lanes zero) and the validity mask. -/
  | lane (ws : Tbl Word) (valid : Mask)
  deriving DecidableEq, Repr

/-- What an outstanding long operation writes at its commit (02 R50); one record per operation. -/
structure Slot where
  /-- Return-buffer slots it takes (02 R50 step 1), and its issue order (02 R51). -/
  cost : Nat
  order : Nat
  /-- Lanes that the operation enabled (02 R51). -/
  lanes : Mask
  /-- Lane-register words, keyed 64 x register + lane. -/
  vw : Tbl Word
  /-- Scalar-register words. -/
  sw : Tbl Word
  /-- A push whose value comes from the operation: queue register and entry. -/
  push : Option (Nat × Entry)
  /-- A write of FMODE (0x13) or FSTAT (0x14) by SPR (04 R151). -/
  spr : Option (Nat × Word)
  /-- FSTAT flags raised, and the lanes that raised each of bits 5:0 (03 R94). -/
  flags : List Mask
  /-- The results have come back (02 R50 step 1). -/
  returned : Bool
  /-- CPY: launch number k whose results are awaited, and the core that issued the CPY (05 R199). -/
  cpy : Option (Nat × Nat)
  /-- MSTA.REG: tile and expected version whose completion is awaited (06 R241). -/
  tile : Option (Nat × Nat)
  /-- The operation: word, guest address, step (for an FPE frame, 03 R95). -/
  opword : Dword
  opga : GAddr
  opstep : Nat
  deriving DecidableEq, Repr

/-- Why a stalled group's operation cannot proceed (01 R15). -/
inductive StallKind where
  /-- A pop of an empty queue or port (05 R203, R206); `got` is the entry once it has come. -/
  | pop (q : Nat) (got : Option Entry)
  /-- A push to a full queue (05 R202): entry and the core cycle at which QFULL is due. -/
  | push (q : Nat) (e : Entry) (deadline : Nat)
  /-- A push to a full engine port (05 R206). -/
  | portPush (q : Nat) (e : Entry)
  /-- A marker waiting for outstanding slots (02 R50). -/
  | marker
  /-- CPSEAL, CPWAIT (05 R200): waits until at most n sealed batches are unfinished; `last`: the second wait of a CPWAIT,
  which has sealed its batch. -/
  | batches (n : Nat) (last : Bool)
  /-- A full tile queue (06 R225). -/
  | tileQueue (tile : Nat)
  /-- QCTL CLOSE or DRAIN waiting for the engine, or OPEN for a free port (05 R205). -/
  | port (q : Nat)
  | freePort (die : Nat)
  /-- Waiting for the coach's turn, or for room in its bundles (10 R395, R396). -/
  | turn
  | bundleRoom
  /-- An access that faulted on a page while its core's filter or its cluster's merge stage was full (11 R423). -/
  | faultRoom (page : Nat)
  deriving DecidableEq, Repr

/-- A stalled group. -/
structure Stall where
  lanes : Mask
  /-- The program counter at which the group is stalled. -/
  ga : GAddr
  step : Nat
  kind : StallKind
  /-- A push that a commit left (its `lanes` are all ones): the lanes that its operation enabled, and its word (log 73). -/
  opLanes : Mask := 0
  opword : Dword := 0
  deriving DecidableEq, Repr

/-- An open containment zone of a coach (05 R211, 11 R430): handler, number k, depths at CZOPEN. -/
structure Zone where
  handler : GAddr
  k : Nat
  /-- Held entries and spill pointer of each lane at CZOPEN. -/
  rstacks : List (List GAddr × Nat)
  deriving DecidableEq, Repr

/-- A trap that has been raised (11 R402-R408). -/
structure Trap where
  cls : Nat
  sub : Nat
  step : Nat
  tmask : Mask
  /-- The lanes in which the handler runs; none: the running lanes at the entry. -/
  rmask : Option Mask
  /-- Lanes whose program counter moves at the entry, where to, and whether the operation then counts in ICNT. -/
  move : Mask
  moveTo : GAddr
  moveCounts : Bool
  opword : Dword
  opaddr : GAddr
  /-- Cause and operand areas: offset in the frame, byte count, value. -/
  area : List (Nat × Nat × Nat)
  /-- A QFULL of a push that a commit left: no lane stands at its operation (log 73). -/
  commit : Bool := false
  /-- The fault entry of the frame's page, while the coach waits for it (11 R409, R510). -/
  wait : Option Nat := none
  /-- The page of the frame whose fault the core's filter or its cluster's merge stage has no room for yet (11 R423). -/
  room : Option Nat := none
  deriving DecidableEq, Repr

/-- The configuration of a tile (06 R229-R231). -/
structure MCfg where
  a0 : Word
  a1 : Word
  b0 : Word
  b1 : Word
  planeA : Word
  planeB : Word
  fmtw : Word
  meta_ : Word
  deriving DecidableEq, Repr

/-- A staged entry of a deterministic bundle (10 R393, R398). -/
inductive Staged where
  /-- A store of `size` bytes at a virtual address, by a lane; `op` numbers its operation in the bundle. -/
  | store (op va : Nat) (size : Nat) (value : Dword)
  /-- An ATOM without return: operation code, type code, agent scope, operand, comparand. -/
  | atom (va : Nat) (op ty agt : Nat) (b c : Dword)
  /-- A line and descriptor of STD. -/
  | bytes (va : Nat) (data : List Byte)
  | push (q : Nat) (e : Entry)
  | spawn (block args : Nat)
  deriving DecidableEq, Repr

/-- A bundle (10 R394): its number and staged entries; `served` when it ends at a turn-served operation. -/
structure Bundle where
  num : Nat
  entries : List Staged
  served : Bool
  deriving DecidableEq, Repr

/-- Operations that a matrix tile's queue holds (06 R224). -/
inductive MKind where
  /-- MMA, MLOOP: K-steps to run, valid rows and columns, OFF_A, OFF_B, and whether the last step promotes. -/
  | mul (n rows cols offA offB : Nat) (last : Bool)
  | zero
  | prom
  /-- MLDA / MSTA in global memory: address and pitch, and the pages translated at issue with their leaves (06 R242). -/
  | ldG (va pitch : Nat) (pages : List (Nat × Nat × Dword))
  | stG (va pitch : Nat) (pages : List (Nat × Nat × Dword))
  /-- in the scratchpad -/
  | ldS (off pitch : Nat)
  | stS (off pitch : Nat)
  /-- in lane registers: column block; MLDA's words captured at issue, keyed 64 x row + column -/
  | ldR (cb : Nat) (ws : Tbl Word)
  | stR (cb : Nat)
  deriving DecidableEq, Repr

/-- An accepted versioned operation (06 R225, R238). -/
structure MOp where
  v : BitVec 16
  kind : MKind
  cfg : MCfg
  /-- FMT0-FMT15 captured at issue. -/
  fmts : List Word
  /-- Register operands captured at issue, keyed 16 x row + word. -/
  regA : Tbl Word
  regB : Tbl Word
  /-- The coach that issued it. -/
  coach : Nat
  deriving DecidableEq, Repr

/-- One accumulator tile (06 R220). Element (i, j) has key 64 i + j. -/
structure Tile where
  ver : BitVec 16
  t : Tbl Word
  p : Tbl (BitVec 26)
  steps : Tbl Nat
  /-- Elements not listed in `t` read as the free value of this seed; none: they read 0 (log 6). -/
  undef : Option Nat
  holder : Option Nat
  /-- The context whose coach last held it (06 R222). -/
  lastCtx : Option Nat
  queue : List MOp
  /-- The operation that is executing, and the K-steps done. -/
  cur : Option (MOp × Nat)
  deriving DecidableEq, Repr

/-- A launch of a dray context as seen by a batch (05 R200): rake key and launch number. -/
abbrev LaunchRef := Nat × Nat

/-- A sealed batch (05 R200). -/
structure Batch where
  num : Nat
  launches : List LaunchRef
  deriving DecidableEq, Repr

/-- A coach (01 R11-R26). -/
structure Coach where
  ctx : Nat
  fslot : Nat
  /-- Region key, rake key, coach index in the rake. -/
  region : Nat
  rake : Nat
  idx : Nat
  /-- Global core number 0-159, partition 0-3, place 0-15; none: not resident. -/
  place : Option (Nat × Nat × Nat)
  /-- Visible lanes, 64 or 32 (01 R12); protected mode. -/
  width : Nat
  prot : Bool
  /-- Plate slot (08 R298), code version (08 R326). -/
  plate : Nat
  version : Word
  /-- Declared lane registers (01 R20). -/
  nregs : Nat
  /-- Lane registers, keyed 64 x register + lane; unlisted: 0. -/
  v : Tbl Word
  s : Tbl Word
  m : Tbl Mask
  lanes : List Lane
  fmode : Word
  fstat : Word
  seed : Dword
  rbuf : List Slot
  /-- Issue order of the next long operation (02 R51). -/
  orderNext : Nat
  /-- FPEs held until the end of their expansions (08 R313), each with the group that is to pass. -/
  fpeHeld : List (Mask × Trap)
  stalls : List Stall
  /-- Group B of an issued pair, to be issued next (01 R17). -/
  pair : Option Mask
  /-- A group that waited for its turn or for room in its coach's bundles, and the partner that it had: it issues next,
  whatever else has come (10 R395, R396). -/
  resume : Option (Mask × Option Mask)
  /-- Lease (10 R379): granules, measured mode, E, MI, A, VH. -/
  leaseG : Nat
  measured : Bool
  est : Nat
  mi : Nat
  alloc : Nat
  vh : Nat
  /-- Active-set membership, and while outside: waiting since, at the head, held (10 R381, R383). -/
  active : Bool
  admitted : Nat
  waitSince : Nat
  atHead : Bool
  heldBack : Bool
  /-- Core cycle since when no lane could issue (10 R383). -/
  idleSince : Nat
  /-- Cycles for which the coach has been ready since it last issued (10 R384), and, while it is at the head of the admission
  order, the core cycle at which it came back (10 R381). -/
  waited : Nat
  returned : Option Nat
  /-- Register lines that are in the coach image alone (11 R433); the line past the last register is the scalar and mask
  areas. -/
  out : List Nat
  /-- Time slice: start cycle, expired mark (10 R386). -/
  sliceStart : Nat
  sliceExpired : Bool
  openBatch : List LaunchRef
  sealed_ : List Batch
  batchCount : Nat
  cpyCount : Nat
  zones : List Zone
  zoneCount : Nat
  zcause : Word
  zinfo : Dword
  /-- Configurations of held tiles, by tile number 0-7. -/
  cfgs : Tbl MCfg
  /-- Tiles saved with the coach while it is not resident. -/
  savedTiles : Tbl Tile
  /-- Open engine ports: queue register to die x 256 + port. -/
  ports : Tbl Nat
  inHandler : Bool
  /-- RMASK of the handler that is running. -/
  rmask : Mask
  /-- The lanes as the frame shows them, since the handler was entered or the rake halted (11 R411). -/
  entryLanes : List Lane
  /-- Stalls of lanes that run the handler: they go on after TRET (log 40). -/
  heldStalls : List Stall
  /-- The coach's QFULL frame is that of a push that a commit left (log 73). -/
  commitPush : Bool
  trap : Option Trap
  /-- Halted with its rake: the class and subtype of its own frame, and skid. -/
  halted : Option (Nat × Nat)
  /-- The frame of the halt has been written (11 R413, R414). -/
  framed : Bool
  skid : Nat
  /-- Lanes whose shadow differs, by a soft error (01 R13, 12 R469). -/
  shadowDiff : Mask
  /-- Deterministic region: open bundle, ended bundles, remainder of a push, turn granted (10 R394-R398). -/
  bundle : Bundle
  ended : List Bundle
  remainder : List Staged
  turnGranted : Bool
  deriving DecidableEq, Repr

/-- A counted barrier (05 R187). -/
structure Barrier where
  armed : Bool
  inv : Bool
  exp : BitVec 24
  cnt : BitVec 24
  ph : BitVec 24
  deriving DecidableEq, Repr

/-- A CPY launch of a rake (05 R198): slices by coach, code, DRAY and ANY of the leading coach, its zone. -/
structure Launch where
  slices : Tbl (List Word)
  codes : Tbl (Dword × Nat × Bool)
  zones : Tbl Nat
  /-- The dray context it runs in, its generation, and whether it has finished or was cancelled before the start. -/
  dray : Option (Nat × BitVec 8)
  started : Bool
  finished : Bool
  faulted : Bool
  cancelled : Bool
  /-- The handle and promised cycle have been delivered (05 R199). -/
  promise : Option (Option Nat)
  /-- Counters at the start, by core: those of its cluster, and of every core that issued a CPY of it (05 R199, 07 R288). -/
  start : Tbl Nat
  deriving DecidableEq, Repr

/-- A rake (01 R11). -/
structure Rake where
  region : Nat
  idx : Nat
  stage : Nat
  slot : Option Nat
  rslot : Nat
  /-- Cluster 0-19; none while unplaced. -/
  cluster : Option Nat
  /-- Cluster to which it must return (10 R375). -/
  pinned : Option Nat
  created : Bool
  coaches : List Nat
  /-- The scratchpad window: size and bytes (unlisted: 0), poisoned 8-byte words. -/
  window : Nat
  /-- First 16 KiB unit of the window in its cluster's scratchpad (10 R375). -/
  padBase : Nat
  pad : List Host.Cell
  padPoison : List Nat
  barriers : Tbl Barrier
  launches : Tbl Launch
  /-- Zones that have unwound: number k, cause, detail (05 R213). -/
  unwound : List (Nat × Word × Dword)
  /-- The zone inside which each zone was opened; unlisted: none (05 R214). -/
  zoneParent : Tbl Nat
  ended : Bool
  unslotted : Bool
  /-- Rake halt (11 R413): naming coach index, class, subtype, frame FLAGS, virtual address; record written. -/
  halt : Option (Nat × Nat × Nat × Nat × Nat)
  haltRecorded : Bool
  deriving DecidableEq, Repr

/-- A stage queue (05 R202, R509, 10 R367). -/
structure Queue where
  depth : Nat
  lane : Bool
  ovdepth : Nat
  ovaddr : Nat
  entries : List Entry
  /-- Ring positions: entries ever written to the area, and entries that have left it. -/
  ovIn : Nat
  ovOut : Nat
  pending : Option (Nat × Nat)
  deriving DecidableEq, Repr

/-- A stage of a region (10 R366). -/
structure Stage where
  regs : Nat
  entry : GAddr
  min : Nat
  max : Nat
  lease : Nat
  bind : List Nat
  slots : Nat
  deriving DecidableEq, Repr

/-- A region (10 R365-R372). -/
structure Region where
  ctx : Nat
  number : Nat
  parent : Option Nat
  queue : Option Nat
  depth : Nat
  block : Nat
  args : Nat
  version : Word
  plate : Nat
  prio : Nat
  subtree : Bool
  fused : Bool
  prot : Bool
  det : Bool
  coaches : Nat
  cores : Nat
  scratch : Nat
  leasecap : Nat
  rakes : Nat
  tladdr : Nat
  target : Dword
  detarea : Nat
  detsize : Nat
  stages : List Stage
  queues : List Queue
  windows : List (Nat × Nat)
  created : Nat
  lastCluster : Option Nat
  sig : Dword
  completed : Bool
  status : Nat
  /-- Ownership directory: virtual line to rake index (10 R391). -/
  owners : Tbl Nat
  /-- Ticket unit (10 R397): round; members and joiners as rake index, stage and the round in which it joined; the position
  in the walk as member and coach; the coach whose turn-served operation is awaited. -/
  round : Nat
  members : List (Nat × Nat × Nat)
  joiners : List (Nat × Nat × Nat)
  position : Nat × Nat
  turnBusy : Option Nat
  /-- Rebalancing (10 R377): cycles left, and the core and its count when they were last counted. -/
  rebalLeft : Nat
  rebalSeen : Option (Nat × Nat)
  deriving DecidableEq, Repr

/-- A field pattern, plane, template and plate (08 R299-R305). -/
structure Plane where
  mask : Dword
  value : Dword
  tidx : Nat
  pidx : Nat
  lenc : Nat
  deriving DecidableEq, Repr

structure Plate where
  lanes : Nat
  lenrule : Nat
  lpos : Nat
  gunit : Nat
  epat : Nat
  tvbase : Nat
  tvcnt : Nat
  tsbase : Nat
  tscnt : Nat
  needmin : Nat
  sysmin : Nat
  syspat : Nat
  /-- Each pattern: eight field entries. -/
  patterns : List (List Dword)
  planes : List Plane
  /-- Each template: operation word and substitution word. -/
  templates : List (List (Dword × Dword))
  image : List Byte
  deriving DecidableEq, Repr

/-- A hardware queue of a context (10 R361, 15 R495). -/
structure HwQueue where
  base : Nat
  k : Nat
  ridxAddr : Nat
  widx : Word
  ridx : Word
  /-- QERR: state and slot of the last skipped message. -/
  state : Nat
  skipped : Word
  /-- A WAIT that holds the queue: address and N. -/
  waiting : Option (Nat × Dword)
  /-- The queue waits for the driver's answer to a fault on this page (11 R510). -/
  fault : Option Nat
  /-- RIDX has moved and its word is still to be written. -/
  ridxDue : Bool
  /-- Messages at RIDX that a context reset discards (11 R435). -/
  discard : Nat
  deriving DecidableEq, Repr

/-- An open fault entry of a cluster's merge stage (11 R423). -/
structure FaultEntry where
  ctx : Nat
  page : Nat
  die : Nat
  cluster : Nat
  sub : Nat
  access : Nat
  level : Nat
  pte : Dword
  region : Nat
  version : Word
  waiters : Nat
  /-- The cores whose filter holds an entry that joined it. -/
  cores : List Nat
  /-- Cycle at which it opened, on core 0 of its cluster, or on the die's management controller. -/
  opened : Nat
  /-- Sequence number once its record has been written. -/
  seq : Option Word
  deriving DecidableEq, Repr

/-- A context (01 R11, 15 R496). -/
structure Ctx where
  ptroot : Nat
  world : Nat
  part : Nat
  privp : Nat
  tslice : Nat
  tags : BitVec 8
  fbuflog : Nat
  fbufbase : Nat
  imgbase : Nat
  rimgbase : Nat
  rcftbase : Nat
  smapbase : Nat
  privbase : Nat
  fmts : List Word
  trapent : Dword
  emulent : Dword
  framebase : Dword
  dbgen : Bool
  codever : Word
  plates : Tbl Plate
  queues : List HwQueue
  fbufRidx : Word
  fbufWidx : Word
  faultSeq : Word
  invAddr : Dword
  invFirst : Nat
  invCmd : Dword
  invBusy : Bool
  invCount : Nat
  plateCmd : Dword
  plateStat : Nat
  plateBusy : Bool
  rakeStat : Nat
  rakeBusy : Bool
  saved : Bool
  nextRegion : Nat
  /-- The newest code version that a launch of the context has bound (08 R330). -/
  newest : Word
  deriving DecidableEq, Repr

/-- A generator of a dray context (07 R269-R271). -/
structure Gen where
  base : Nat
  len0 : Nat
  rot : Nat
  space : Nat
  dims : Nat
  counts : List Nat
  strides : List Int
  pos : Nat
  deriving DecidableEq, Repr

/-- The data operation that a dray context has in progress (07 R271, R274, R279, R280). -/
inductive DataOp where
  | xfer (d s : Nat) (rm : Nat) (fidx : Nat) (unsealed : Bool) (cvt : Nat)
  | gather (d x t : Nat)
  | scatter (t x s : Nat)
  | fill (d : Nat) (pattern : Dword) (p : Nat)
  deriving DecidableEq, Repr

/-- A dray context (07 R249). -/
structure Dray where
  regs : Tbl Dword
  pc : GAddr
  gens : Tbl Gen
  opts : Tbl Dword
  optM : BitVec 7
  /-- STATE, FCODE and the flag bits 19:0 of the status word (07 R253). -/
  state : Nat
  fcode : Nat
  bits : BitVec 20
  timeline : Dword
  t0 : Dword
  promise : Option Nat
  promised : Bool
  rem : Nat
  nslice : Nat
  gen : BitVec 8
  slices : List Word
  /-- Rake key and launch number; the context that last launched it. -/
  rake : Nat
  launch : Nat
  ctx : Option Nat
  /-- Innermost zone of the leading coach at its CPY (05 R198). -/
  zone : Nat
  start : Nat
  /-- A LDW or GSET result on its way: destination, value, or generator. -/
  load : Option (Nat × Dword)
  loadGen : Option (Nat × Gen)
  data : Option DataOp
  /-- The program counter and registers at that operation, for its precise fault (07 R290). -/
  dataAt : GAddr × Tbl Dword
  /-- TLW: handle, n, agent scope and storage scope. -/
  tlw : Option (Word × Dword × Nat × Nat)
  /-- Plaintext of the sealed block that has begun, from the source's position on (07 R278, 12 R439). -/
  ahead : List Byte
  /-- Parked on this fault entry, and the fetched word whose execution waits for it (07 R259, R291). -/
  parked : Option Nat
  word : Option (BitVec 32)
  /-- The context's next instruction waits for the end of the data operation in progress (07 R281). -/
  drain : Bool
  deriving DecidableEq, Repr

/-- The service of a dray (07 R250): where its rotation of issues and its rotation of data units start, and whether the data
path comes next. -/
structure DrayTurn where
  issue : Nat
  unit : Nat
  dataNext : Bool
  deriving DecidableEq, Repr

/-- A hallmark session (12 R454). -/
structure Session where
  die : Nat
  number : Dword
  ctx : Nat
  world : Nat
  rake : Nat
  zone : Nat
  recAddr : Nat
  alg : Nat
  label : BitVec 24
  debug : Bool
  version : Word
  sig : Dword
  data : List Byte
  /-- Void cause (12 R460); 0: no record could be written, and a CLOSE answers FAULT (12 R461). -/
  void_ : Option Nat
  /-- A CLOSE has been taken: the port that answers it, while it is open, and IGN of its status. -/
  closing : Option (Nat × Bool)
  recorded : Bool
  deriving DecidableEq, Repr

/-- An engine port (05 R206): owning coach, command words, responses. -/
structure Port where
  coach : Nat
  /-- The words pushed, each with the zone that was innermost in the coach (12 R454). -/
  cmds : List (Word × Nat)
  resps : List Word
  /-- Response words due for commands already taken but not yet answered. -/
  due : Nat
  /-- The fault entry on which its command waits, and that the driver failed it (12 R457, R458). -/
  wait : Option Nat
  failed : Bool
  /-- Bytes of the ABSORB in progress that have been absorbed. -/
  done : Nat
  deriving DecidableEq, Repr

/-- A line of an L1 (09 R336) or of an L2 slice (09 R338): the contexts that have used the copy, its 64 bytes (none for the
L2 tag of a DRAM line) and its dirty bytes. -/
structure CLine where
  line : Nat
  ctxs : List Nat
  bytes : List Byte
  dirty : Mask
  /-- An L1 line: the cycle, of its unit's counter, of the first write since it was last clean (09 R336). -/
  since : Nat
  /-- allocated with the hint `.STRM` (05 R170). -/
  strm : Bool
  /-- An L1 line that carries poison (12 R467); the poison of a home copy is in State.poison. -/
  poisoned : Bool := false
  deriving DecidableEq, Repr

/-- A TLB entry (11 R421). -/
structure TlbE where
  ctx : Nat
  /-- virtual base, page size log2, physical base, leaf bits, world of the frame. -/
  va : Nat
  log : Nat
  pa : Nat
  leaf : Dword
  /-- level of the leaf in the tables. -/
  level : Nat
  world : Nat
  /-- The 4 KiB pages inside it whose ownership a fill has checked (12 R442, log 10). -/
  pages : List Nat
  deriving DecidableEq, Repr

/-- An impression (08 R320). -/
structure Impression where
  cluster : Nat
  ctx : Nat
  slot : Nat
  version : Word
  ga : GAddr
  ops : List Dword
  len : Nat
  /-- An EMUL impression holds the raw word and the unpacked fields. -/
  emul : Option (Dword × List Word)
  /-- The operations are an expansion of the system plate (02 R63, 08 R324). -/
  sys : Bool
  pinned : Bool
  /-- Its bytes lie on pages with the CODE bit, or in retired frames (08 R327, R330). -/
  coded : Bool
  /-- A launch of a new version has dropped it, but lanes are inside its expansion: it serves their later steps alone (08 R330). -/
  stale : Bool
  deriving DecidableEq, Repr

/-- A key slot (12 R438). -/
structure KeySlot where
  kind : Nat
  state : Nat
  world : Nat
  epoch : BitVec 16
  /-- MEMORY: the draw number of Config's random key; CONTENT: the 32 unwrapped bytes as a number, lowest first. -/
  key : Nat
  session : Nat
  policy : List (Nat × List Byte)
  deriving DecidableEq, Repr

/-- A page ownership entry (12 R441). -/
structure PotE where
  world : Nat
  poison : Bool
  state : Nat
  deriving DecidableEq, Repr

/-- A confidential world (12 R440). -/
structure World where
  debuggable : Bool
  exports : Nat
  covered : Bool
  slot : Nat
  deriving DecidableEq, Repr

/-- A partition (15 R499). -/
structure Part where
  clusters : BitVec 20
  ceil : Nat
  ceilFused : Nat
  thrLog : Nat
  deriving DecidableEq, Repr

/-- An L2-miss counter (11 R427). -/
structure Ctr where
  extent : Nat
  count : Nat
  deriving DecidableEq, Repr

/-- A tree barrier (05 R194): open epoch, n, count, and closed epochs with the core and cycle of the closing arrival. -/
structure TreeBar where
  epoch : Nat
  n : Nat
  count : Nat
  closed : List (Nat × Nat × Nat)
  deriving DecidableEq, Repr

/-- Portil (12 R449-R453). -/
structure Portil where
  keyid : BitVec 8
  nonce : Option Nat
  nonces : Nat
  keys : Nat
  /-- SPDM sessions whose keys have been exchanged, and those that are secured (R449). -/
  exchanged : List Nat
  sessions : List Nat
  /-- TDISP bindings: virtual function to world. -/
  bindings : Tbl Nat
  /-- Request block read from the mailbox, and its buffer's bus address. -/
  pending : Option (Nat × List Byte)
  responses : List (List Byte)
  exports : List (Nat × Nat)
  /-- Worlds covered by accepted tokens, for measurement 5. -/
  covered : List Nat
  /-- Requests accepted and not yet performed, in order (R440), and the one that is being performed. -/
  queue : List (ReqSource × List Byte)
  taken : Option (ReqSource × List Byte)
  /-- Device resets so far (R454). -/
  resets : Nat
  deriving DecidableEq, Repr

/-- Device registers of PF0 that have no other home (15 R494). -/
structure PfRegs where
  featDev : BitVec 128
  featDrv : BitVec 128
  stage : Nat
  ready : Bool
  fatal : Bool
  sysplateFailed : Bool
  aperbase : Dword
  partcmd : Dword
  ctxcmd : Dword
  ctxstat : Nat
  /-- The context command under way. -/
  ctxPending : Option (Nat × Nat)
  ctrRing : Dword
  ctrWidx : Word
  ctrRidx : Word
  ctrThr : Nat
  errLog : List Dword
  errWidx : List Word
  errLost : List Word
  errRidx : List Word
  /-- Corrected-error counts by die x 16 + SOURCE, and the record threshold. -/
  errCount : Tbl Nat
  errThr : Nat
  portreq : Dword
  portstat : Dword
  portBusy : Bool
  deriving DecidableEq, Repr

/-- The group that the next operation issues for, fixed by the fetch (log 1). -/
structure Iss where
  coach : Nat
  group : Mask
  ga : GAddr
  step : Nat
  /-- Length of the guest instruction; number of operations of its expansion. -/
  len : Nat
  count : Nat
  word : Dword
  /-- GUNIT of the plate whose template holds the operation; 0 outside a template (08 R307). -/
  gunit : Nat
  deriving DecidableEq, Repr

/-- The Damith's own work that waits for the driver's answer to a fault (11 R510). -/
inductive Pend where
  /-- A launch: context, parent, hardware queue, depth, block and argument addresses; the number that a child has taken. -/
  | launch (ctx : Nat) (parent queue : Option Nat) (depth block args : Nat) (number : Option Nat)
  /-- The TARGET read of a launched region, or, with `written`, the REGION write that follows it. -/
  | target (region : Nat) (written : Bool)
  /-- The completion of a region. -/
  | complete (region : Nat)
  /-- The record of a hallmark session. -/
  | record (session : Nat)
  /-- The frame from which a halted coach goes on (R414, 15 R505). -/
  | resume (coach : Nat)
  /-- A LAUNCH that was discarded or came to a torn-down queue: its region completes with a status (11 R435, R436). -/
  | refused (ctx queue block args status : Nat)
  deriving DecidableEq, Repr

/-- A soft error of an on-chip structure that nothing has met yet and that its code cannot correct (12 R465): a register line
of a coach, an accumulator tile, the ownership entry of a frame, a stage queue of a region, a counted barrier of a rake, the
return buffer of a coach, a dray context, the key store, or a line of an L1. -/
inductive Upset where
  | reg (coach reg : Nat)
  | tile (tk : Nat)
  | pot (frame : Nat)
  | queue (region qi : Nat)
  | barrier (rake k : Nat)
  | rbuf (coach : Nat)
  | dray (dk : Nat)
  | keys
  | l1 (unit line : Nat)
  deriving DecidableEq, Repr

/-- The whole device. -/
structure State where
  /-- Steps to take next, first first (log 1). -/
  sched : List Instr
  /-- The coach that ISSUE_SELECT has picked, or whose slot has its second group still to issue; the partition whose slot is
  next; whose turn it is (0 a coach, 1 a dray context, 2 anything else), the dray context that issued last, and the issue
  latch (log 1). -/
  picked : Option Nat
  cur : Nat
  turn : Nat
  dcur : Nat
  iss : Iss
  /-- Counter of the free values (log 6). -/
  free : Nat
  /-- Cycles that every unit has counted, and what each core, cluster or die unit has counted beyond them; unlisted: 0 (01
  R30, log 4). -/
  time : Nat
  cycles : Tbl Nat
  /-- Physical memory; unlisted: 0 (15 R501, log 3). -/
  mem : List Host.Cell
  /-- Poisoned lines, by line number (12 R467). -/
  poison : List Nat
  l1 : Tbl (List CLine)
  fusedClusters : List Nat
  /-- The lines that the L2 slices hold (09 R333, R335, R338). -/
  l2 : List CLine
  victims : Tbl (List Nat)
  tlbs : Tbl (List TlbE)
  /-- Pages of the host window whose ATS completions a die's TLB holds, by frame (15 R498). -/
  ats : Tbl (List Nat)
  imps : List Impression
  /-- Register lines resident in a partition's register cache, last used first: coach, register, and whether the image lacks
  what it holds (11 R433). -/
  rcache : Tbl (List (Nat × Nat × Bool))
  coaches : Tbl Coach
  rakes : Tbl Rake
  regions : Tbl Region
  ctxs : Tbl Ctx
  tiles : Tbl Tile
  /-- Tile served last by each core's array (06 R227). -/
  lastTile : Tbl Nat
  drays : Tbl Dray
  /-- The rotations of each dray (07 R250). -/
  drayTurns : Tbl DrayTurn
  treebars : Tbl TreeBar
  faults : Tbl FaultEntry
  nextFault : Nat
  /-- Contexts that are reset at once, before anything else (11 R429, R510). -/
  resets : List Nat
  /-- Work that waits on a fault entry (11 R510). -/
  pending : List (Nat × Pend)
  sessions : Tbl Session
  ports : Tbl Port
  hallCount : Tbl Nat
  /-- The port at which the rotation of each die's engine starts (12 R456). -/
  hallTurn : Tbl Nat
  /-- Sessions being signed by each die's two units (12 R464). -/
  signing : Tbl (List Nat)
  pot : Tbl PotE
  keys : Tbl KeySlot
  worlds : Tbl World
  portil : Portil
  pf : PfRegs
  parts : Tbl Part
  sysplate : Option Plate
  ctrs : Tbl Ctr
  /-- Pages of the peer windows, by frame, that their peers do not share: an input (15 R498, log 92). -/
  peerRefused : List Nat
  /-- The draw of the flow key, from each device reset to the end of service (12 R445, R470), and the failures of each flow. -/
  flowKey : Option Nat
  flowFails : Tbl (List Nat)
  /-- Last coach issued by each partition, in place order (10 R384). -/
  lastPlace : Tbl Nat
  /-- Victim-tag hits of each pool in the current interval (10 R383). -/
  poolHits : Tbl Nat
  /-- Intervals of 4,096 cycles that each pool has closed (10 R383). -/
  poolIntervals : Tbl Nat
  /-- Core clock of each die in MHz; unlisted: 1,900 (15 R502). -/
  clockMHz : Tbl Nat
  /-- Power cap in watts (15 R502). -/
  powerCap : Nat
  /-- Soft errors that the next scrub finds: line and whether it can be corrected (12 R465). -/
  softErrors : Tbl Bool
  /-- The cycle of the last scrub, of the die's management controller: of DRAM by die, of L2 under 2 + die (12 R466). -/
  scrubbed : Tbl Nat
  /-- Uncorrectable errors of other structures that wait to be met (12 R468, log 13). -/
  upsets : List Upset
  /-- MSI-X vectors raised: function and vector; AER reports (15 R494, R495). -/
  msix : List (Nat × Nat)
  aer : Nat
  /-- What the last host or peer access returned (15 R493, R498). -/
  hostRead : Dword
  deriving DecidableEq, Repr

/-- PF0 registers at device reset (15 R494): of the feature words, MAJOR is 4 (15 R500). -/
def PfRegs.reset : PfRegs :=
  { featDev := 8, featDrv := 8, stage := 0, ready := false, fatal := false, sysplateFailed := false
    aperbase := 0, partcmd := 0, ctxcmd := 0, ctxstat := 0, ctxPending := none, ctrRing := 0, ctrWidx := 0
    ctrRidx := 0, ctrThr := 0, errLog := [0, 0], errWidx := [0, 0], errLost := [0, 0], errRidx := [0, 0]
    errCount := [], errThr := 1, portreq := 0, portstat := 0, portBusy := false }

/-- Portil at device reset (12 R449, log 5). -/
def Portil.reset : Portil :=
  { keyid := 0, nonce := none, nonces := 0, keys := 0, exchanged := [], sessions := [], bindings := [], pending := none
    responses := [], exports := [], covered := [], queue := [], taken := none, resets := 0 }

/-- The issue latch before anything has issued. -/
def Iss.reset : Iss := { coach := 0, group := 0, ga := 0, step := 0, len := 8, count := 1, word := 0, gunit := 0 }

/-- The machine right after device reset, before bring-up (15 R494, R501): no context, region, rake, coach, world or
session exists, every register of 15 R494 holds its reset value, and no memory cell is listed. -/
def State.reset : State :=
  { sched := [], picked := none, cur := 0, turn := 0, dcur := 0, iss := Iss.reset, free := 0, time := 0, cycles := [], mem := []
    poison := [], l1 := [], fusedClusters := [], l2 := [], victims := [], tlbs := [], ats := [], imps := [], rcache := []
    coaches := [], rakes := [], regions := [], ctxs := [], tiles := [], lastTile := [], drays := [], drayTurns := []
    treebars := [], faults := [], nextFault := 0, resets := [], pending := [], sessions := [], ports := [], hallCount := [], hallTurn := [], signing := []
    pot := [], keys := [], worlds := [], portil := Portil.reset, pf := PfRegs.reset, parts := []
    sysplate := none, ctrs := [], peerRefused := [], flowKey := none, flowFails := [], lastPlace := [], poolHits := [], poolIntervals := [], clockMHz := []
    powerCap := 1500, softErrors := [], scrubbed := [], upsets := [], msix := [], aer := 0
    hostRead := 0 }

end Sys2Proof.Machine
end

