-- ==== Sys2Proof/Machine/Table.lean ====
section
/-! DEFINITION. Sparse tables, bytes and bit helpers that every operation uses. -/
namespace Sys2Proof.Machine

/-- The value at a key, if the table lists it. -/
def tget {α : Type} : Tbl α → Nat → Option α
  | [], _ => none
  | (k, v) :: t, j => if k = j then some v else tget t j

/-- The value at a key, `d` where the table lists none. -/
def tgetD {α : Type} (d : α) (t : Tbl α) (j : Nat) : α := (tget t j).getD d

/-- List `v` at key `j`, keeping the keys in order. -/
def tput {α : Type} : Tbl α → Nat → α → Tbl α
  | [], j, v => [(j, v)]
  | (k, w) :: t, j, v =>
    if j < k then (j, v) :: (k, w) :: t
    else if k = j then (j, v) :: t
    else (k, w) :: tput t j v

/-- List nothing at key `j`. -/
def tdel {α : Type} (t : Tbl α) (j : Nat) : Tbl α := t.filter (fun e => e.1 != j)

/-- Make key `j` read as `v` in a table whose unlisted keys read as `d`: no entry ever equals `d`. -/
def tset {α : Type} [DecidableEq α] (d : α) (t : Tbl α) (j : Nat) (v : α) : Tbl α :=
  if v = d then tdel t j else tput t j v

/-- Update the entry at a key, if there is one. -/
def tmod {α : Type} (t : Tbl α) (j : Nat) (f : α → α) : Tbl α :=
  match tget t j with
  | some a => tput t j (f a)
  | none => t

/-- The keys of a table. -/
def tkeys {α : Type} (t : Tbl α) : List Nat := t.map Prod.fst

/-- Keys strictly rising, all above `lo` when there is one. -/
def tsorted {α : Type} : Tbl α → Bool
  | [] => true
  | [_] => true
  | (k, _) :: (j, w) :: t => decide (k < j) && tsorted ((j, w) :: t)

/-- The least number from 0 to `n` that the list does not hold, `n` if it holds all below. -/
def firstFree (n : Nat) (used : List Nat) : Nat :=
  ((List.range n).find? (fun i => !used.contains i)).getD n

/-! Bytes, little-endian (00 R6). -/

/-- The `n` bytes of a number, lowest first. -/
def leBytes : Nat → Nat → List Byte
  | 0, _ => []
  | n + 1, v => BitVec.ofNat 8 v :: leBytes n (v / 256)

/-- The number that bytes, lowest first, hold. -/
def leNat : List Byte → Nat
  | [] => 0
  | b :: t => b.toNat + 256 * leNat t

/-- Field `v<hi:lo>` of a number (00 R5). -/
def field (v hi lo : Nat) : Nat := v / 2 ^ lo % 2 ^ (hi + 1 - lo)

/-- Bit `i` of a number. -/
def bitOf (v i : Nat) : Bool := v.testBit i

/-- Two's-complement reading of the low `w` bits. -/
def sext (w v : Nat) : Int :=
  let u := v % 2 ^ w
  if w ≠ 0 ∧ 2 ^ (w - 1) ≤ u then (u : Int) - (2 ^ w : Nat) else u

/-- `v mod 2^w` as a natural number. -/
def wrapNat (w : Nat) (v : Int) : Nat := (v % ((2 ^ w : Nat) : Int)).toNat

/-- A 64-bit value from its low and high words (01 R21). -/
def pairOf (lo hi : Word) : Dword := hi ++ lo
def loOf (d : Dword) : Word := d.extractLsb' 0 32
def hiOf (d : Dword) : Word := d.extractLsb' 32 32

/-- Split a list into pieces of `n` (n > 0), at most `fuel` of them. -/
def chunks {α : Type} (n : Nat) : Nat → List α → List (List α)
  | 0, _ => []
  | _ + 1, [] => []
  | fuel + 1, a :: l => (a :: l).take n :: chunks n fuel ((a :: l).drop n)

/-- Replace the bytes of a list from position `i`. -/
def patch {α : Type} : List α → Nat → List α → List α
  | [], _, _ => []
  | l, _, [] => l
  | _ :: l, 0, b :: bs => b :: patch l 0 bs
  | a :: l, i + 1, bs => a :: patch l i bs

/-! Lane masks (01 R18, R22). -/

/-- The lanes below a width. -/
def widthMask (w : Nat) : Mask := BitVec.ofNat 64 (2 ^ w - 1)

/-- The lanes of a mask, ascending. -/
def lanesOf (m : Mask) : List Nat := (List.range 64).filter (fun l => m.getLsbD l)

/-- The mask of the lanes below 64 for which `f` holds. -/
def maskOf (f : Nat → Bool) : Mask :=
  BitVec.ofNat 64 ((List.range 64).foldl (fun a l => if f l then a + 2 ^ l else a) 0)

/-- The lowest lane of a mask. -/
def lowLane (m : Mask) : Option Nat := (List.range 64).find? (fun l => m.getLsbD l)

/-- The highest lane of a mask. -/
def highLane (m : Mask) : Option Nat := (List.range 64).reverse.find? (fun l => m.getLsbD l)

/-- The number of lanes of a mask. -/
def countLanes (m : Mask) : Nat := (lanesOf m).length

/-- Apply a function to each element of a list with its index, from index `i`. -/
def mapFrom {α β : Type} (f : Nat → α → β) : Nat → List α → List β
  | _, [] => []
  | i, a :: l => f i a :: mapFrom f (i + 1) l

/-- Replace element `i` of a list. -/
def setAt {α : Type} : List α → Nat → α → List α
  | [], _, _ => []
  | _ :: l, 0, b => b :: l
  | a :: l, i + 1, b => a :: setAt l i b

/-- Update element `i` of a list. -/
def modAt {α : Type} (f : α → α) : List α → Nat → List α
  | [], _ => []
  | a :: l, 0 => f a :: l
  | a :: l, i + 1 => a :: modAt f l i

end Sys2Proof.Machine
end

