-- ==== Sys2Proof/Machine/Flags.lean ====
section
/-! DEFINITION. Number formats, rounding and the flags that they raise (03_number_formats). Every value is exact until
one rounding; a flag set is the six low bits of FSTAT (03 R93). -/
namespace Sys2Proof.Machine

/-- A set of FSTAT flags (03 R93). -/
abbrev Flags := BitVec 6

def flagIV : Flags := 1
def flagDZ : Flags := 2
def flagOF : Flags := 4
def flagUF : Flags := 8
def flagNX : Flags := 16
def flagOV : Flags := 32

/-- The flag when the condition holds. -/
def flagIf (b : Bool) (f : Flags) : Flags := if b then f else 0

/-- An IEEE layout (03 R78): precision with the hidden bit, and exponent bits. -/
structure FFmt where
  p : Nat
  eb : Nat
  deriving DecidableEq, Repr

def fmtF32 : FFmt := { p := 24, eb := 8 }
def fmtF16 : FFmt := { p := 11, eb := 5 }
def fmtBF16 : FFmt := { p := 8, eb := 8 }
/-- The 26-bit partial of 03 R102. -/
def fmtP26 : FFmt := { p := 18, eb := 8 }

/-- An exact value: (-1)^neg x man x 2^exp (man = 0 is a signed zero), an infinity or a NaN. -/
inductive Num where
  | fin (neg : Bool) (man : Nat) (exp : Int)
  | inf (neg : Bool)
  | nan (signalling : Bool)
  deriving DecidableEq, Repr

def Num.isNan : Num → Bool
  | .nan _ => true
  | _ => false

def Num.isSig : Num → Bool
  | .nan sg => sg
  | _ => false

def Num.isInf : Num → Bool
  | .inf _ => true
  | _ => false

def Num.isZero : Num → Bool
  | .fin _ 0 _ => true
  | _ => false

def Num.neg : Num → Num
  | .fin s m e => .fin (!s) m e
  | .inf s => .inf (!s)
  | .nan g => .nan g

def Num.isNeg : Num → Bool
  | .fin s _ _ => s
  | .inf s => s
  | .nan _ => false

def Num.abs : Num → Num
  | .fin _ m e => .fin false m e
  | .inf _ => .inf false
  | .nan g => .nan g

/-- The exponent bias. -/
def FFmt.bias (f : FFmt) : Nat := 2 ^ (f.eb - 1) - 1
/-- Exponent of the least normal number. -/
def FFmt.emin (f : FFmt) : Int := 1 - (f.bias : Int)
/-- The code of +infinity. -/
def FFmt.infCode (f : FFmt) : Nat := (2 ^ f.eb - 1) * 2 ^ (f.p - 1)
/-- The canonical NaN (03 R80). -/
def FFmt.nanCode (f : FFmt) : Nat := f.infCode + 2 ^ (f.p - 2)
/-- The weight of the sign bit. -/
def FFmt.signBit (f : FFmt) : Nat := 2 ^ (f.p - 1 + f.eb)

/-- A code with its sign. -/
def FFmt.signed (f : FFmt) (neg : Bool) (code : Nat) : Nat := if neg then f.signBit + code else code

/-- The value of the bits (03 R78, R80). -/
def FFmt.value (f : FFmt) (bits : Nat) : Num :=
  let frac := bits % 2 ^ (f.p - 1)
  let ef := bits / 2 ^ (f.p - 1) % 2 ^ f.eb
  let s := bits.testBit (f.p - 1 + f.eb)
  if ef = 2 ^ f.eb - 1 then
    if frac = 0 then .inf s else .nan (decide (frac < 2 ^ (f.p - 2)))
  else if ef = 0 then .fin s frac (f.emin - (f.p - 1 : Nat))
  else .fin s (2 ^ (f.p - 1) + frac) ((ef : Int) - f.bias - (f.p - 1 : Nat))

/-- The bits are a subnormal's. -/
def FFmt.isSubnormal (f : FFmt) (bits : Nat) : Bool :=
  bits / 2 ^ (f.p - 1) % 2 ^ f.eb == 0 && bits % 2 ^ (f.p - 1) != 0

/-- A source as an operation reads it: with FTZ a subnormal reads as zero of its sign (03 R92). -/
def FFmt.read (f : FFmt) (ftz : Bool) (bits : Nat) : Num :=
  if ftz && f.isSubnormal bits then .fin (bits.testBit (f.p - 1 + f.eb)) 0 0 else f.value bits

/-- Round man x 2^exp to a multiple n x 2^q (03 R90): `n`, and whether it differs from the value. A tie goes by the parity of
`n`, hidden bit included, also where the format has no mantissa field (log 78). -/
def roundAt (rm : Nat) (neg : Bool) (man : Nat) (exp q : Int) : Nat × Bool :=
  if q ≤ exp then (man <<< (exp - q).toNat, false)
  else
    let sh := (q - exp).toNat
    if man.log2 + 1 < sh then
      -- below half of a unit
      (if man ≠ 0 ∧ ((rm = 2 ∧ neg = false) ∨ (rm = 3 ∧ neg = true)) then 1 else 0, decide (man ≠ 0))
    else
      let n := man >>> sh
      let rest := man - (n <<< sh)
      let unit := 1 <<< sh
      let up :=
        if rm = 0 then decide (unit < 2 * rest ∨ (2 * rest = unit ∧ n % 2 = 1))
        else if rm = 2 then decide (rest ≠ 0) && !neg
        else if rm = 3 then decide (rest ≠ 0) && neg
        else if rm = 4 then decide (unit ≤ 2 * rest)
        else false
      (if up then n + 1 else n, decide (rest ≠ 0))

/-- floor(log2) of a positive man x 2^exp. -/
def floorLog (man : Nat) (exp : Int) : Int := exp + man.log2

/-- Rounding to precision `p` with subnormals below 2^emin and no upper limit: the code magnitude, whether the result is
inexact and whether it is tiny (03 R93). -/
def roundPrec (p : Nat) (emin : Int) (rm : Nat) (neg : Bool) (man : Nat) (exp : Int) : Nat × Bool × Bool :=
  let e := floorLog man exp
  let qmin := emin - (p - 1 : Nat)
  let qu := e - (p - 1 : Nat)
  let q := if qu < qmin then qmin else qu
  let (n, inexact) := roundAt rm neg man exp q
  let tiny :=
    if e < emin then
      -- rounded with an unbounded exponent range, is it below 2^emin?
      let (nu, _) := roundAt rm neg man exp qu
      decide ((e < emin - 1) ∨ nu < 2 ^ p)
    else false
  ((q - qmin).toNat * 2 ^ (p - 1) + n, inexact, tiny)

/-- What an IEEE overflow gives (03 R97): infinity, or the greatest finite value. -/
def overflowCode (f : FFmt) (rm : Nat) (neg : Bool) : Nat :=
  let toInf := rm == 0 || rm == 4 || (rm == 2 && !neg) || (rm == 3 && neg)
  f.signed neg (if toInf then f.infCode else f.infCode - 1)

/-- Round an exact value into an IEEE format (03 R90, R92, R93, R97). A NaN gives the canonical NaN; its IV is the
operation's. -/
def FFmt.round (f : FFmt) (rm : Nat) (ftz : Bool) (x : Num) : Nat × Flags :=
  match x with
  | .nan _ => (f.nanCode, 0)
  | .inf s => (f.signed s f.infCode, 0)
  | .fin s man exp =>
    if man = 0 then (f.signed s 0, 0)
    else
      let (code, inexact, tiny) := roundPrec f.p f.emin rm s man exp
      if f.infCode ≤ code then (overflowCode f rm s, flagOF ||| flagNX)
      else if ftz && decide (0 < code ∧ code < 2 ^ (f.p - 1)) then (f.signed s 0, flagUF ||| flagNX)
      else (f.signed s code, flagIf inexact flagNX ||| flagIf (inexact && tiny) flagUF)

/-! Exact sums and products (03 R99, R102). -/

/-- A value as an integer multiple of 2^q, for q at or below its exponent. -/
def atUnit (q : Int) (s : Bool) (man : Nat) (exp : Int) : Int :=
  let v : Int := (man <<< (exp - q).toNat : Nat)
  if s then -v else v

/-- The least exponent among the non-zero finite terms. -/
def minExp : List Num → Option Int
  | [] => none
  | .fin _ (m + 1) e :: t =>
    match minExp t with
    | some d => some (if e < d then e else d)
    | none => (fun (_ : Nat) => some e) m
  | _ :: t => minExp t

/-- The integer sum of the finite terms in units of 2^q. -/
def sumAt (q : Int) : List Num → Int
  | [] => 0
  | .fin s (m + 1) e :: t => atUnit q s (m + 1) e + sumAt q t
  | _ :: t => sumAt q t

/-- The exact sum of terms, with IV for infinities of both signs. A zero sum of zeros of one sign keeps that sign; any
other exact zero is +0, or -0 under RD (03 R90). NaN terms give a NaN without a flag. -/
def sumExact (rm : Nat) (l : List Num) : Num × Flags :=
  if l.any Num.isNan then (.nan false, 0)
  else
    let pos := l.any (fun x => x.isInf && !x.isNeg)
    let neg := l.any (fun x => x.isInf && x.isNeg)
    if pos && neg then (.nan false, flagIV)
    else if pos then (.inf false, 0)
    else if neg then (.inf true, 0)
    else match minExp l with
      | none =>
        let allNeg := l.all Num.isNeg
        let allPos := l.all (fun x => !x.isNeg)
        (.fin (if allPos then false else if allNeg then true else rm == 3) 0 0, 0)
      | some q =>
        let v := sumAt q l
        if v = 0 then (.fin (rm == 3) 0 0, 0) else (.fin (decide (v < 0)) v.natAbs q, 0)

/-- The exact product, with IV for 0 x infinity. -/
def mulExact (a b : Num) : Num × Flags :=
  match a, b with
  | .nan _, _ => (.nan false, 0)
  | _, .nan _ => (.nan false, 0)
  | .inf s, .inf t => (.inf (s != t), 0)
  | .inf s, .fin t m _ => if m = 0 then (.nan false, flagIV) else (.inf (s != t), 0)
  | .fin s m _, .inf t => if m = 0 then (.nan false, flagIV) else (.inf (s != t), 0)
  | .fin s m e, .fin t n g => (.fin (s != t) (m * n) (e + g), 0)

/-- IV for a signalling NaN among the values. -/
def sigFlag (l : List Num) : Flags := flagIf (l.any Num.isSig) flagIV

/-! The arithmetic of 04 R125-R133. -/

/-- FADD and FSUB. -/
def fAdd (f : FFmt) (rm : Nat) (ftz sub : Bool) (a b : Nat) : Nat × Flags :=
  let x := f.read ftz a
  let y := if sub then (f.read ftz b).neg else f.read ftz b
  let (z, fl) := sumExact rm [x, y]
  let (r, fr) := f.round rm ftz z
  (r, fl ||| fr ||| sigFlag [x, y])

/-- FMUL. -/
def fMul (f : FFmt) (rm : Nat) (ftz : Bool) (a b : Nat) : Nat × Flags :=
  let x := f.read ftz a
  let y := f.read ftz b
  let (z, fl) := mulExact x y
  let (r, fr) := f.round rm ftz z
  (r, fl ||| fr ||| sigFlag [x, y])

/-- FFMA: one rounding; 0 x infinity sets IV even beside a NaN addend. -/
def fFma (f : FFmt) (rm : Nat) (ftz : Bool) (a b c : Nat) : Nat × Flags :=
  let x := f.read ftz a
  let y := f.read ftz b
  let w := f.read ftz c
  let (p, fp) := mulExact x y
  let (z, fl) := sumExact rm [p, w]
  let (r, fr) := f.round rm ftz z
  (r, fp ||| fl ||| fr ||| sigFlag [x, y, w])

/-- a < b for values that are not NaN; zeros are equal. -/
def numLt (a b : Num) : Bool :=
  match a, b with
  | .nan _, _ => false
  | _, .nan _ => false
  | .inf s, .inf t => s && !t
  | .inf s, .fin _ _ _ => s
  | .fin _ _ _, .inf t => !t
  | .fin s m e, .fin t n g =>
    let q := if e < g then e else g
    decide (atUnit q s m e < atUnit q t n g)

/-- a = b for values that are not NaN; zeros are equal. -/
def numEq (a b : Num) : Bool := !a.isNan && !b.isNan && !numLt a b && !numLt b a

/-- FMIN and FMAX (04 R126): minimumNumber and maximumNumber, -0 below +0. -/
def fMinMax (f : FFmt) (ftz max : Bool) (a b : Nat) : Nat × Flags :=
  let x := f.read ftz a
  let y := f.read ftz b
  let fl := sigFlag [x, y]
  let out (n : Num) : Nat := (f.round 0 false n).1
  if x.isNan && y.isNan then (f.nanCode, fl)
  else if x.isNan then (out y, fl)
  else if y.isNan then (out x, fl)
  else
    let aLess := numLt x y || (numEq x y && x.isNeg && !y.isNeg)
    (if aLess != max then out x else out y, fl)

/-- The condition of FCMP (04 R116) and its flags. -/
def fCond (f : FFmt) (ftz : Bool) (cc a b : Nat) : Bool × Flags :=
  let x := f.read ftz a
  let y := f.read ftz b
  let un := x.isNan || y.isNan
  let fl := sigFlag [x, y] ||| flagIf (un && decide (2 ≤ cc ∧ cc ≤ 5)) flagIV
  let t :=
    match cc with
    | 0 => numEq x y
    | 1 => !numEq x y
    | 2 => numLt x y
    | 3 => numLt x y || numEq x y
    | 4 => numLt y x
    | 5 => numLt y x || numEq x y
    | 6 => un
    | _ => !un
  (t, fl)

/-- FRND (04 R127). -/
def fRnd (f : FFmt) (rm : Nat) (ftz : Bool) (a : Nat) : Nat × Flags :=
  match f.read ftz a with
  | .nan sg => (f.nanCode, flagIf sg flagIV)
  | .inf s => (f.signed s f.infCode, 0)
  | .fin s m e =>
    let n := (roundAt rm s m e 0).1
    ((f.round 1 false (.fin s n 0)).1, 0)

/-- FCLASS (04 R129): the bit of the class. -/
def fClass (f : FFmt) (a : Nat) : Nat :=
  match f.value a with
  | .nan sg => if sg then 2 ^ 8 else 2 ^ 9
  | .inf s => if s then 2 ^ 0 else 2 ^ 7
  | .fin s m _ =>
    if m = 0 then (if s then 2 ^ 3 else 2 ^ 4)
    else if f.isSubnormal a then (if s then 2 ^ 2 else 2 ^ 5)
    else (if s then 2 ^ 1 else 2 ^ 6)

/-! Format-table entries and NF formats (03 R81-R84, R98). -/

/-- The fields of a format-table entry (03 R83). -/
structure NfFmt where
  w : Nat
  e : Nat
  bias : Nat
  hasNan : Bool
  cont : Nat
  deriving DecidableEq, Repr

def nfOf (v : Word) : NfFmt :=
  { w := field v.toNat 19 16, e := field v.toNat 15 13, bias := field v.toNat 12 7, hasNan := v.getLsbD 6
    cont := field v.toNat 5 5 }

/-- The mantissa bits. -/
def NfFmt.m (f : NfFmt) : Nat := f.w - 1 - f.e

/-- The entry is valid (03 R84). -/
def fmtValid (v : Word) : Bool :=
  let f := nfOf v
  (if f.cont = 0 then decide (5 ≤ f.w ∧ f.w ≤ 8) else decide (3 ≤ f.w ∧ f.w ≤ 4))
  && decide (1 ≤ f.e ∧ f.e ≤ 6 ∧ f.e ≤ f.w - 1)
  && field v.toNat 31 20 == 0 && field v.toNat 4 0 == 0

/-- The default entries (03 R84). -/
def fmtDefault (k : Nat) : Word := if k < 8 then 0x000883C0 else 0x000440A0

/-- The greatest finite code. -/
def NfFmt.maxCode (f : NfFmt) : Nat := if f.hasNan then 2 ^ (f.e + f.m) - 2 else 2 ^ (f.e + f.m) - 1

/-- nf_value (03 R82). An NF NaN is neither quiet nor signalling. -/
def nfValue (f : NfFmt) (x : Nat) : Num :=
  let s := x.testBit (f.w - 1)
  let ef := x / 2 ^ f.m % 2 ^ f.e
  let mf := x % 2 ^ f.m
  if f.hasNan && decide (ef = 2 ^ f.e - 1 ∧ mf = 2 ^ f.m - 1) then .nan false
  else if ef = 0 then .fin s mf (1 - (f.bias : Int) - f.m)
  else .fin s (2 ^ f.m + mf) ((ef : Int) - f.bias - f.m)

/-- nf_convert (03 R98); ties of a format without a mantissa field as log 78 says. -/
def nfConvert (f : NfFmt) (rm : Nat) (x : Num) : Nat × Flags :=
  let sgn (s : Bool) (c : Nat) : Nat := if s then 2 ^ (f.w - 1) + c else c
  match x with
  | .nan sg =>
    if f.hasNan then (2 ^ (f.e + f.m) - 1, flagIf sg flagIV) else (0, flagIV)
  | .inf s => (sgn s f.maxCode, flagOV ||| flagNX)
  | .fin s man exp =>
    if man = 0 then (sgn s 0, 0)
    else
      let (code, inexact, tiny) := roundPrec (f.m + 1) (1 - (f.bias : Int)) rm s man exp
      let half :=
        match nfValue f f.maxCode with
        | .fin _ mm me => numEq (.fin false man exp) (.fin false (2 * mm + 1) (me - 1))
        | _ => false
      if rm = 0 ∧ half = true then (sgn s f.maxCode, flagNX)
      else if f.maxCode < code then (sgn s f.maxCode, flagOV ||| flagNX)
      else (sgn s code, flagIf inexact flagNX ||| flagIf (inexact && tiny) flagUF)

/-- A value times 2^k; scales beyond +-8192 leave every format and are clamped there. -/
def scaleNum (x : Num) (k : Int) : Num :=
  match x with
  | .fin s m e => .fin s m (e + (if k < -8192 then -8192 else if 8192 < k then 8192 else k))
  | y => y

/-! Described lines (03 R85-R88). -/

/-- Element `i` of a line in the container. -/
def lineElem (nf4 : Bool) (bytes : List Byte) (i : Nat) : Nat :=
  if nf4 then
    let b := ((bytes[i / 2]?).getD 0).toNat
    if i % 2 = 0 then b % 16 else b / 16
  else ((bytes[i]?).getD 0).toNat

/-- A descriptor that makes its line malformed (03 R88). -/
def lineMalformed (fmts : List Word) (nf4 : Bool) (d : Nat) : Bool :=
  let f := nfOf ((fmts[d % 16]?).getD 0)
  field d 7 5 != 0 || (f.cont == 1) != nf4

/-- A reader needs the line's data bytes (03 R511). -/
def lineReadsData (fmts : List Word) (nf4 : Bool) (d : Nat) : Bool :=
  !lineMalformed fmts nf4 d && field d 15 8 != 255 && !bitOf d 4

/-- described_value (03 R88). -/
def describedValue (fmts : List Word) (nf4 : Bool) (bytes : List Byte) (i d : Nat) : Num :=
  if lineMalformed fmts nf4 d then .nan false
  else if field d 15 8 = 255 then .nan false
  else if bitOf d 4 then .fin false 0 0
  else scaleNum (nfValue (nfOf ((fmts[d % 16]?).getD 0)) (lineElem nf4 bytes i)) ((field d 15 8 : Int) - 127)

/-! Conversions (03 R96). -/

/-- Saturate an integer. -/
def clampInt (lo hi v : Int) : Int := if v < lo then lo else if hi < v then hi else v

/-- float to integer: rounded; out of range to the nearer bound and NaN to 0, both with IV. -/
def numToInt (rm : Nat) (lo hi : Int) (x : Num) : Int × Flags :=
  match x with
  | .nan _ => (0, flagIV)
  | .inf s => (if s then lo else hi, flagIV)
  | .fin s m e =>
    let (n, inexact) := roundAt rm s m e 0
    let v : Int := if s then -(n : Int) else n
    if v < lo then (lo, flagIV) else if hi < v then (hi, flagIV) else (v, flagIf inexact flagNX)

/-- An integer as an exact value. -/
def numOfInt (v : Int) : Num := .fin (decide (v < 0)) v.natAbs 0

/-- The first of two BF16 parts of an F32 (03 R104), as bits. -/
def bfHi (v : Nat) : Nat := v / 65536 % 65536

/-- The second: round_BF16_RNE(v - v_hi). -/
def bfLo (v : Nat) : Nat :=
  let x := fmtF32.value v
  let h := fmtBF16.value (bfHi v)
  (fmtBF16.round 0 false (sumExact 0 [x, h.neg]).1).1

end Sys2Proof.Machine
end

