-- ==== Sys2Proof/Machine/Functions.lean ====
section
/-! DEFINITION. The correctly rounded functions of 04 R130. FRCP, FRSQ and FSQRT are computed exactly with a sticky bit.
FEXP2, FLOG2, FSIN and FCOS are irrational outside the listed exact cases: they are enclosed in an interval of
integers, and the precision grows until both ends round to the same bits and flags (log 16). -/
namespace Sys2Proof.Machine

/-- floor(sqrt n), bit by bit from 2^k. -/
def isqrtFrom (n : Nat) : Nat → Nat → Nat
  | 0, r => r
  | k + 1, r => if (r + 2 ^ k) * (r + 2 ^ k) ≤ n then isqrtFrom n k (r + 2 ^ k) else isqrtFrom n k r

def isqrt (n : Nat) : Nat := isqrtFrom n (n.log2 / 2 + 1) 0

/-- 1/x for a non-zero finite x: quotient with a sticky bit. -/
def recipExact (s : Bool) (m : Nat) (e : Int) : Num :=
  let k := m.log2 + 64
  let q := 2 ^ k / m
  .fin s (2 * q + (if q * m = 2 ^ k then 0 else 1)) (-(k : Int) - e - 1)

/-- A positive value with an even exponent. -/
def evenExp (m : Nat) (e : Int) : Nat × Int := if e % 2 = 0 then (m, e) else (2 * m, e - 1)

/-- sqrt x for x > 0. -/
def sqrtExact (m : Nat) (e : Int) : Num :=
  let (n, g) := evenExp m e
  let big := n * 2 ^ 96
  let r := isqrt big
  .fin false (2 * r + (if r * r = big then 0 else 1)) ((g - 96) / 2 - 1)

/-- 1/sqrt x for x > 0. -/
def rsqrtExact (m : Nat) (e : Int) : Num :=
  let (n, g) := evenExp m e
  let r := isqrt (2 ^ 192 / n)
  .fin false (2 * r + (if r * r * n = 2 ^ 192 then 0 else 1)) (-96 - g / 2 - 1)

/-! Fixed-point series at 2^-w. -/

/-- sum of z^(2k+1)/(2k+1), from term power `p` and odd `d`; alternating when `alt`. -/
def oddSeries (w z2 : Nat) (alt : Bool) : Nat → Nat → Nat → Bool → Int → Int
  | 0, _, _, _, acc => acc
  | fuel + 1, p, d, minus, acc =>
    if p = 0 then acc
    else
      let t : Int := (p / d : Nat)
      oddSeries w z2 alt fuel ((p * z2) >>> w) (d + 2) (if alt then !minus else false)
        (if minus then acc - t else acc + t)

/-- atanh(n/d) at 2^-w. -/
def atanhFix (w n d : Nat) : Nat :=
  let z := (n <<< w) / d
  (oddSeries w ((z * z) >>> w) false w z 1 false 0).toNat

/-- atan(1/d) at 2^-w. -/
def atanInv (w d : Nat) : Int :=
  let z := (1 <<< w) / d
  oddSeries w ((z * z) >>> w) true w z 1 false 0

/-- ln 2 at 2^-w. -/
def ln2Fix (w : Nat) : Nat := 2 * atanhFix w 1 3

/-- pi/2 at 2^-w (Machin). -/
def halfPiFix (w : Nat) : Nat := (8 * atanInv w 5 - 2 * atanInv w 239).toNat

/-- sum of y^n/n! from term `t` of index n. -/
def expSeries (w y : Nat) : Nat → Nat → Nat → Nat → Nat
  | 0, _, _, acc => acc
  | fuel + 1, n, t, acc => if t = 0 then acc else expSeries w y fuel (n + 1) (((t * y) >>> w) / n) (acc + t)

/-- The alternating series of sine (from t = r, n = 1) and cosine (from t = 1, n = 0). -/
def trigSeries (w r2 : Nat) : Nat → Nat → Nat → Bool → Int → Int
  | 0, _, _, _, acc => acc
  | fuel + 1, n, t, minus, acc =>
    if t = 0 then acc
    else trigSeries w r2 fuel (n + 2) (((t * r2) >>> w) / ((n + 1) * (n + 2))) (!minus)
      (if minus then acc - (t : Int) else acc + (t : Int))

/-- An approximation v x 2^exp with |v - true| < err. -/
structure Approx where
  v : Int
  err : Nat
  exp : Int

/-- 2^x for a finite x below 4096 in magnitude, with w bits. -/
def approxExp2 (s : Bool) (m : Nat) (e : Int) (w : Nat) : Approx :=
  let x : Int := if 0 ≤ e + w then ((m <<< (e + w).toNat : Nat) : Int) else ((m >>> (-(e + w)).toNat : Nat) : Int)
  let x := if s then -x else x
  let k := x / ((1 <<< w : Nat) : Int)
  let fr := (x % ((1 <<< w : Nat) : Int)).toNat
  let y := (fr * ln2Fix w) >>> w
  { v := (expSeries w y w 1 (1 <<< w) 0 : Nat), err := 16 * w, exp := k - w }

/-- log2 x for x > 0. -/
def approxLog2 (m : Nat) (e : Int) (w : Nat) : Approx :=
  let k := m.log2
  -- m / 2^k lies in [1, 2)
  let ln := 2 * atanhFix w (m - 2 ^ k) (m + 2 ^ k)
  let l := (ln <<< w) / ln2Fix w
  { v := (e + k) * ((1 <<< w : Nat) : Int) + (l : Int), err := 16 * w + 64, exp := -w }

/-- sin x (or cos x) for a finite x, with w bits. -/
def approxTrig (cos : Bool) (s : Bool) (m : Nat) (e : Int) (w : Nat) : Approx :=
  let top := floorLog m e
  let wi := w + top.toNat + 16
  let x := if 0 ≤ e + wi then m <<< (e + wi).toNat else m >>> (-(e + wi)).toNat
  let hp := halfPiFix wi
  let k := x / hp
  let r := (x - k * hp) >>> (wi - w)
  let r2 := (r * r) >>> w
  let sn := trigSeries w r2 w 1 r false 0
  let cs := trigSeries w r2 w 0 (1 <<< w) false 0
  let v :=
    if cos then
      match k % 4 with
      | 0 => cs
      | 1 => -sn
      | 2 => -cs
      | _ => sn
    else
      let v := match k % 4 with
        | 0 => sn
        | 1 => cs
        | 2 => -sn
        | _ => -cs
      if s then -v else v
  { v := v, err := 16 * w + 64, exp := -w }

/-- An end of the interval, marked as inexact. -/
def Approx.endpoint (a : Approx) (d : Int) : Num :=
  let v := a.v + d
  .fin (decide (v < 0)) (2 * v.natAbs + 1) (a.exp - 1)

/-- Round an irrational value: the precision doubles until both ends of its interval round alike. -/
def roundIrrational (f : FFmt) (rm : Nat) (ftz : Bool) (at_ : Nat → Approx) : Nat → Nat → Nat × Flags
  | 0, w => f.round rm ftz ((at_ w).endpoint 0)
  | fuel + 1, w =>
    let a := at_ w
    let lo := f.round rm ftz (a.endpoint (-(a.err : Int)))
    let hi := f.round rm ftz (a.endpoint a.err)
    if lo = hi then lo else roundIrrational f rm ftz at_ fuel (2 * w)

/-- Doublings of the precision before the last one is taken as it stands. -/
def irrationalFuel : Nat := 6

/-- The seven functions. -/
inductive FFun where
  | rcp | rsq | sqrt | exp2 | log2 | sin | cos
  deriving DecidableEq, Repr

/-- FEXP2 of a finite x: exact for integers. -/
def fExp2 (f : FFmt) (rm : Nat) (ftz s : Bool) (m : Nat) (e : Int) : Nat × Flags :=
  if m = 0 then f.round rm ftz (.fin false 1 0)
  else if 12 ≤ floorLog m e then f.round rm ftz (.fin false 3 (if s then -8192 else 8192))
  else
    let (n, inexact) := roundAt 1 s m e 0
    if inexact then roundIrrational f rm ftz (approxExp2 s m e) irrationalFuel 96
    else f.round rm ftz (.fin false 1 (if s then -(n : Int) else n))

/-- FLOG2 of x > 0: exact for powers of two. -/
def fLog2 (f : FFmt) (rm : Nat) (ftz : Bool) (m : Nat) (e : Int) : Nat × Flags :=
  if m = 2 ^ m.log2 then
    let v := e + m.log2
    if v = 0 then (0, 0) else f.round rm ftz (numOfInt v)
  else roundIrrational f rm ftz (approxLog2 m e) irrationalFuel 96

/-- FSIN and FCOS of a non-zero finite x. -/
def fTrig (f : FFmt) (rm : Nat) (ftz cos s : Bool) (m : Nat) (e : Int) : Nat × Flags :=
  roundIrrational f rm ftz (approxTrig cos s m e) irrationalFuel (96 + (-(floorLog m e)).toNat * 2)

/-- The table of 04 R130. -/
def fFun (k : FFun) (f : FFmt) (rm : Nat) (ftz : Bool) (bits : Nat) : Nat × Flags :=
  match f.read ftz bits with
  | .nan sg => (f.nanCode, flagIf sg flagIV)
  | .inf s =>
    match k with
    | .rcp => (f.signed s 0, 0)
    | .rsq => if s then (f.nanCode, flagIV) else (0, 0)
    | .sqrt => if s then (f.nanCode, flagIV) else (f.infCode, 0)
    | .exp2 => if s then (0, 0) else (f.infCode, 0)
    | .log2 => if s then (f.nanCode, flagIV) else (f.infCode, 0)
    | .sin => (f.nanCode, flagIV)
    | .cos => (f.nanCode, flagIV)
  | .fin s m e =>
    match k with
    | .rcp => if m = 0 then (f.signed s f.infCode, flagDZ) else f.round rm ftz (recipExact s m e)
    | .rsq =>
      if m = 0 then (f.signed s f.infCode, flagDZ)
      else if s then (f.nanCode, flagIV) else f.round rm ftz (rsqrtExact m e)
    | .sqrt =>
      if m = 0 then (f.signed s 0, 0)
      else if s then (f.nanCode, flagIV) else f.round rm ftz (sqrtExact m e)
    | .exp2 => fExp2 f rm ftz s m e
    | .log2 =>
      if m = 0 then (f.signed true f.infCode, flagDZ)
      else if s then (f.nanCode, flagIV) else fLog2 f rm ftz m e
    | .sin => if m = 0 then (f.signed s 0, 0) else fTrig f rm ftz false s m e
    | .cos => if m = 0 then f.round rm ftz (.fin false 1 0) else fTrig f rm ftz true s m e

end Sys2Proof.Machine
end

