-- ==== Sys2Proof/Config.lean ====
section
/-! DEFINITION. What an implementation fixes and the free values: constants without a body, of which nothing can be
proved beyond their type. Each is named by an entry of notes/assumptions. -/
namespace Sys2Proof.Config

/-- Word `n` of the contents that a seed stands for: an undefined tile (06 R222, R247; log 6) or poisoned data that a peer
reads (15 R498; log 46). -/
opaque freeWord : Nat → Nat → Word
/-- Byte `n` of an area that holds the listed values in a form that the spec leaves open: a part of a coach image, of a rake
image or of a determinism area, by its tag (10 R390, 11 R430, R432; log 41). -/
opaque areaByte : Nat → List Nat → Nat → Byte
/-- The number of an entry kind in the staging area of a coach image (11 R430; log 41). -/
opaque stagedKind : Nat → Nat
/-- Which of the lines of a full L1 set or L2 slice is replaced (09 R333; log 7). -/
opaque victimWay : Nat → Nat
/-- Random 256-bit keys and nonces that Portil draws, by draw number (12 R440; log 11). -/
opaque randomKey : Nat → BitVec 512
opaque nonce : Nat → BitVec 256
/-- Portil's monotonic reset counter (12 R454; log 11). -/
opaque epoch : BitVec 32
/-- The private hallmark keys of a generation: an ECDSA P-384 key and an Ed25519 seed (12 R450, R463; log 11). -/
opaque hallmarkEcdsa : BitVec 8 → Nat
opaque hallmarkEd25519 : BitVec 8 → BitVec 256
/-- The private device identity key, and the chain of certificate slots 0 and 1 (12 R449; log 11). -/
opaque identityKey : Nat
opaque certificates : Nat → List Byte
/-- What a CHALLENGE signs, the SPDM transcript of the answer with a number (12 R449; log 15). -/
opaque transcript : Nat → List Byte
/-- The SHA-384 digest of the device identity public key (12 R452; log 11). -/
opaque identityKeyDigest : Vector Byte 48
/-- A signature of the debug authority on the bytes of a token, and which others it accepts: signed bytes, signature (12 R452; log
11). -/
opaque tokenSignature : List Byte → Vector Byte 96
opaque tokenOther : List Byte → List Byte → Bool
/-- The shared secret of an SPDM session (12 R451; log 11). -/
opaque sessionSecret : Nat → List Byte
/-- The digest of measurement `index` over the state that it covers (12 R449; log 11). -/
opaque measurement : Nat → List Byte → List Byte
/-- After how many operations of its skid a sibling of a halting rake stops (11 R413; log 44). -/
opaque haltSkid : Nat → Nat
/-- The bytes of the identity digest (12 R452). -/
def identityDigest : List Byte := identityKeyDigest.toList
/-- The debug authority's signature on the bytes is valid (12 R452). Every message has a signature, and may have more than one. -/
def tokenSigned (m sig : List Byte) : Bool := sig == (tokenSignature m).toList || tokenOther m sig
/-- The cycles a step takes where the spec gives no exact figure are one (log 4). -/
def stepCycles : Nat := 1

end Sys2Proof.Config
end

