-- ==== Sys2Proof/Machine/Mem.lean ====
section
/-! DEFINITION. Physical memory (09 R334), poison and soft errors (12 R465-R468), the error log (12 R471, 15 R504) and the
home copies of lines (09 R335, R338). -/
namespace Sys2Proof.Machine

/-! The physical byte memory: strictly rising addresses, no entry equal to the byte 0 that an unlisted address reads. -/

/-- One byte. -/
def memGet (m : List Host.Cell) (a : Nat) : Byte := tgetD 0 m a
/-- Write one byte, keeping the canonical form. -/
def memPut (m : List Host.Cell) (a : Nat) (b : Byte) : List Host.Cell := tset 0 m a b
/-- The `n` bytes from an address. -/
def memRead (m : List Host.Cell) (a : Nat) : Nat → List Byte
  | 0 => []
  | n + 1 => memGet m a :: memRead m (a + 1) n
/-- Write bytes from an address. -/
def memWrite (m : List Host.Cell) (a : Nat) : List Byte → List Host.Cell
  | [] => m
  | b :: bs => memWrite (memPut m a b) (a + 1) bs
/-- No entry equals 0. -/
def memNonZero (m : List Host.Cell) : Bool := m.all (fun e => e.2 != 0)
/-- The canonical form of a byte memory. -/
abbrev Memory.wf (m : List Host.Cell) : Prop := tsorted m = true ∧ memNonZero m = true

/-! The physical map (09 R334, 15 R498). -/

/-- Near or far DRAM. -/
def isDram (pa : Nat) : Bool :=
  decide (pa ≤ 0x17FFFFFFFF) || decide (0x4000000000 ≤ pa ∧ pa ≤ 0xBFFFFFFFFF)
/-- The host or peer windows. -/
def isWindow (pa : Nat) : Bool := decide (0x80000000000 ≤ pa ∧ pa ≤ 0x15FFFFFFFFFF)
/-- The host window. -/
def isHostWindow (pa : Nat) : Bool := decide (0x80000000000 ≤ pa ∧ pa ≤ 0x9FFFFFFFFFF)
/-- The link of a peer window. -/
def peerLink (pa : Nat) : Option Nat :=
  if 0xA0000000000 ≤ pa ∧ pa ≤ 0x15FFFFFFFFFF then some ((pa - 0xA0000000000) / 2 ^ 40) else none
/-- Backed (09 R334). -/
def isBacked (pa : Nat) : Bool := isDram pa || isWindow pa
/-- The home die of a line (09 R335, 15 R498). -/
def homeDie (pa : Nat) : Nat :=
  if pa ≤ 0xBFFFFFFFF then 0
  else if pa ≤ 0x17FFFFFFFF then 1
  else if pa ≤ 0x7FFFFFFFFF then 0
  else if pa ≤ 0xBFFFFFFFFF then 1
  else match peerLink pa with
    | some n => n / 6
    | none => 0

/-! Page ownership (12 R441). -/

/-- An entry that was never written. -/
def PotE.free : PotE := { world := 0, poison := false, state := 0 }
/-- The entry of the frame that holds an address; windows count as world 0, FREE. -/
def potOf (s : State) (pa : Nat) : PotE := if isDram pa then tgetD PotE.free s.pot (pa / 4096) else PotE.free
/-- The entry as an ownership check sees it: one that cannot be read is as an EXPORTED one, and every fill fails (12 R468). -/
def potSeen (s : State) (pa : Nat) : PotE :=
  if s.upsets.contains (.pot (pa / 4096)) then { world := 0, poison := false, state := 2 } else potOf s pa
/-- The window of a link that is down, or a page that its peer does not share: a read gives poisoned data, and a write is
dropped (15 R498, R501). -/
def windowClosed (s : State) (pa : Nat) : Bool :=
  match peerLink pa with
  | some n => !s.pf.featDev.getLsbD (52 + n) || s.peerRefused.contains (pa / 4096)
  | none => false
/-- Change the entry of a frame. -/
def potSet (s : State) (pa : Nat) (e : PotE) : State := { s with pot := tset PotE.free s.pot (pa / 4096) e }

/-! Vectors and the error log. -/

/-- Raise an MSI-X vector of a function: 0 is PF0, n is VFn (15 R493). -/
def raiseVector (s : State) (fn vec : Nat) : State :=
  if s.msix.contains (fn, vec) then s else { s with msix := s.msix ++ [(fn, vec)] }

/-- Cycle count of a unit: cores 0-159; 200 + d the management controller of die d; 300 + n dray n (00 R8, log 4). -/
def cycleOf (s : State) (u : Nat) : Nat := s.time + tgetD 0 s.cycles u
/-- Advance a unit's count. -/
def addCycles (s : State) (u n : Nat) : State := { s with cycles := tset 0 s.cycles u (tgetD 0 s.cycles u + n) }

/-- Run a counter on to a value. -/
def clockTo (s : State) (u t : Nat) : State := if cycleOf s u < t then addCycles s u (t - cycleOf s u) else s
/-- The counter of the dray that a context belongs to. -/
def drayClock (dk : Nat) : Nat := 300 + dk / 8

/-- Write a physical range at the home, without regard to copies (walker, front-end, rings). -/
def physWrite (s : State) (a : Nat) (bs : List Byte) : State := { s with mem := memWrite s.mem a bs }
/-- Read a physical range at the home. -/
def physRead (s : State) (a n : Nat) : List Byte := memRead s.mem a n

/-- Append a record to the error log of a die (12 R471, 15 R504). -/
def logError (s : State) (source sev die : Nat) (pa : Nat) (ctx : Option Nat) (world : Option Nat)
    (cluster : Option Nat) : State :=
  let d := if die = 0 then 0 else 1
  let ring := ((s.pf.errLog[d]?).getD 0).toNat
  let n := ring % 32
  let widx := ((s.pf.errWidx[d]?).getD 0)
  let ridx := ((s.pf.errRidx[d]?).getD 0)
  if n < 4 ∨ 16 < n then s
  else if (widx - ridx).toNat = 2 ^ n then
    let lost := ((s.pf.errLost[d]?).getD 0)
    { s with pf := { s.pf with errLost := setAt s.pf.errLost d (if lost = BitVec.allOnes 32 then lost else lost + 1) } }
  else
    let base := field ring 51 12 * 4096
    let count := tgetD 0 s.pf.errCount (d * 16 + source)
    let rec_ := leBytes 1 source ++ leBytes 1 sev ++ leBytes 1 d ++ leBytes 1 (cluster.getD 255)
      ++ leBytes 4 count ++ leBytes 8 pa ++ leBytes 4 (ctx.getD 0xFFFFFFFF) ++ leBytes 2 (world.getD 0xFFFF)
      ++ leBytes 2 0 ++ leBytes 8 (cycleOf s (200 + d))
    let s := physWrite s (base + 32 * (widx.toNat % 2 ^ n)) rec_
    let pf := { s.pf with errWidx := setAt s.pf.errWidx d (widx + 1), errCount := tset 0 s.pf.errCount (d * 16 + source) 0 }
    raiseVector { s with pf := pf } 0 1

/-- The room of die d's log ring. -/
def logFull (s : State) (d : Nat) : Bool :=
  let n := ((s.pf.errLog[d]?).getD 0).toNat % 32
  (((s.pf.errWidx[d]?).getD 0) - ((s.pf.errRidx[d]?).getD 0)).toNat == 2 ^ n

/-- A corrected error: counted, and logged when its count reaches the threshold; while the ring is full the count
carries on (12 R471, 15 R504). -/
def correctedError (s : State) (source die pa : Nat) : State :=
  let k := die * 16 + source
  let s := { s with pf := { s.pf with errCount := tset 0 s.pf.errCount k (tgetD 0 s.pf.errCount k + 1) } }
  if s.pf.errThr ≤ tgetD 0 s.pf.errCount k && !logFull s die then logError s source 0 die pa none none none else s

/-! Poison (12 R467) and soft errors (12 R465). -/

/-- The line carries poison. -/
def isPoisoned (s : State) (line : Nat) : Bool := s.poison.contains line
/-- Poison a line. -/
def setPoison (s : State) (line : Nat) : State :=
  if s.poison.contains line then s else { s with poison := line :: s.poison }
/-- All 64 bytes are new: the poison is gone, and an error that nothing has met. -/
def clearPoison (s : State) (line : Nat) : State :=
  { s with poison := s.poison.filter (· != line), softErrors := tdel s.softErrors line }

/-- The source number of DRAM and of L1 and L2 lines in the error log: rows of 12 R465. -/
def srcDirty : Nat := 1
def srcClean : Nat := 2
def srcScratch : Nat := 3
def srcRegCache : Nat := 4
def srcTiles : Nat := 5
def srcDram : Nat := 6
def srcQueues : Nat := 7
def srcParity : Nat := 8
def srcKeys : Nat := 9
def srcFlow : Nat := 13

/-- Meeting a soft error in a DRAM line: corrected and written back, or poisoned (12 R465). -/
def meetSoftError (s : State) (line : Nat) : State :=
  match tget s.softErrors line with
  | none => s
  | some ok =>
    let s := { s with softErrors := tdel s.softErrors line }
    if ok then correctedError s srcDram (homeDie (line * 64)) (line * 64)
    else logError (setPoison s line) srcDram 1 (homeDie (line * 64)) (line * 64) none none none

/-! Access counters (11 R427, 15 R505). -/

/-- Count an L2 miss in every counter that is assigned to its extent. -/
def countAccess (s : State) (pa : Nat) : State :=
  let count (c : Ctr) : Ctr :=
    if c.extent = pa / 2 ^ 21 ∧ c.count < 0xFFFFFFFF then { c with count := c.count + 1 } else c
  if s.ctrs.any (fun e => e.2.extent == pa / 2 ^ 21) then { s with ctrs := s.ctrs.map (fun e => (e.1, count e.2)) } else s

/-! The L2 slices (09 R333, R335, R338). An entry of a DRAM line is its tag alone: a DRAM line's bytes have one place, the
memory, whether its slice or its DRAM holds them (log 17). An entry of a window line holds the copy. -/

/-- The home slice of a line within its home die (09 R335). -/
def homeSlice (line : Nat) : Nat :=
  Nat.xor (Nat.xor (line % 64) (line / 64 % 64)) (Nat.xor (line / 4096 % 64) (line / 262144 % 64))

/-- The lines that a slice of 1 MiB holds. -/
def sliceLines : Nat := 16384

/-- The L2 copy of a line. -/
def l2Find (s : State) (line : Nat) : Option CLine := s.l2.find? (fun c => c.line == line)

/-- Put an entry's dirty bytes into the memory or window behind it. -/
def storeDirty (s : State) (c : CLine) : State :=
  let put (m : List Host.Cell) (i : Nat) : List Host.Cell :=
    if c.dirty.getLsbD i then memPut m (c.line * 64 + i) ((c.bytes[i]?).getD 0) else m
  { s with mem := (List.range 64).foldl put s.mem }

/-- Write an L2 copy's dirty bytes to the window that backs it. -/
def l2WriteBack (s : State) (c : CLine) : State := if isWindow (c.line * 64) then storeDirty s c else s

/-- Write an L2 entry back and drop it. -/
def l2Evict (s : State) (c : CLine) : State :=
  let s := l2WriteBack s c
  { s with l2 := s.l2.filter (fun x => x.line != c.line) }

/-- Write a line's L2 copy back and drop it, if there is one. -/
def l2DropLine (s : State) (line : Nat) : State :=
  match l2Find s line with
  | some c => l2Evict s c
  | none => s

/-- Make room for a line in its home slice: a free choice among the slice's lines (log 7). -/
def l2Room (s : State) (line : Nat) : State :=
  let mine := s.l2.filter (fun c => homeDie (c.line * 64) == homeDie (line * 64) && homeSlice c.line == homeSlice line)
  if mine.length < sliceLines then s
  else
    let s := { s with free := s.free + 1 }
    match mine[Config.victimWay s.free % sliceLines]? with
    | some c => l2Evict s c
    | none => s

/-- Bring a line into its home slice; a miss counts (11 R427). -/
def l2Fill (s : State) (line ctx : Nat) : State :=
  match l2Find s line with
  | some _ => s
  | none =>
    let s := l2Room (countAccess s (line * 64)) line
    let bytes := if isWindow (line * 64) then memRead s.mem (line * 64) 64 else []
    { s with l2 := { line := line, ctxs := [ctx], bytes := bytes, dirty := 0, since := 0, strm := false } :: s.l2 }

/-- Read a line at its home slice: an error that nothing has met is met (12 R465), and the slice holds the line. -/
def l2Read (s : State) (line ctx : Nat) : State := l2Fill (meetSoftError s line) line ctx

/-! Home accesses. A cacheable window line may have a copy in its home slice (09 R338); DRAM lines are their home copy. -/

/-- The bytes that a line's home holds. -/
def homeLine (s : State) (line : Nat) : List Byte :=
  if isWindow (line * 64) then
    match l2Find s line with
    | some c => c.bytes
    | none => memRead s.mem (line * 64) 64
  else memRead s.mem (line * 64) 64

/-- Write bytes into the L2 copy of a window line and mark them dirty. -/
def l2Write (s : State) (line off : Nat) (bs : List Byte) : State :=
  let put (c : CLine) : CLine :=
    if c.line = line then { c with bytes := patch c.bytes off bs, dirty := c.dirty ||| (widthMask bs.length <<< off) } else c
  { s with l2 := s.l2.map put }

/-- Write bytes at a line's home: a window line of a cacheable page is held in L2 and marked dirty; an uncached page's
write goes to its window (R338); a DRAM line is written at its slice, whatever its page (11 R418). -/
def homeWriteLine (s : State) (line off : Nat) (bs : List Byte) (ctx : Nat) (cacheable : Bool) : State :=
  if isWindow (line * 64) then
    if cacheable then l2Write (l2Read s line ctx) line off bs else physWrite s (line * 64 + off) bs
  else physWrite (l2Read s line ctx) (line * 64 + off) bs

/-- Read part of a line at its home: an uncached page's read goes to what backs it. -/
def homeRead (s : State) (line off n : Nat) (cacheable : Bool) : List Byte :=
  if cacheable then ((homeLine s line).drop off).take n else memRead s.mem (line * 64 + off) n

/-- Split a range of bytes by lines: (line, offset in the line, count). -/
def linesOf (a n : Nat) : List (Nat × Nat × Nat) :=
  (List.range ((a % 64 + n + 63) / 64)).map (fun i =>
    let start := if i = 0 then a % 64 else 0
    let stop := if (a % 64 + n) < 64 * (i + 1) then a % 64 + n - 64 * i else 64
    (a / 64 + i, start, stop - start))

end Sys2Proof.Machine
end

