-- ==== Sys2Proof/Machine/Trans.lean ====
section
/-! DEFINITION. Address translation: page tables, ownership, code versions and TLBs (11 R416-R421, 12 R442, 08 R327). -/
namespace Sys2Proof.Machine

/-- Kinds of access (11 R420, R424). -/
inductive Acc where
  | read | write | atomic | fetch
  deriving DecidableEq, Repr

/-- The access-type bits of a fault record (11 R424); `walk` is bit 5 and `dray` bit 4. -/
def Acc.bits (a : Acc) (dray walk : Bool) : Nat :=
  (match a with
    | .read => 1
    | .write => 2
    | .atomic => 4
    | .fetch => 8) + (if dray then 16 else 0) + (if walk then 32 else 0)

/-- A failed translation: subtype (11 R425), level, the entry, and whether it failed in the walk. -/
structure XErr where
  sub : Nat
  level : Nat
  pte : Dword
  walk : Bool
  deriving DecidableEq, Repr

/-- XLAT subtypes (11 R425). -/
def xNotMapped : Nat := 1
def xPerm : Nat := 2
def xCow : Nat := 3
def xPa : Nat := 4
def xNode : Nat := 5
def xOwn : Nat := 6
def xRsvd : Nat := 7

/-- What a translation gives. -/
inductive Xlat where
  /-- The physical address and the leaf's bits. -/
  | ok (pa : Nat) (leaf : Dword)
  | fault (e : XErr)
  /-- The walk consumed an uncorrectable error at this physical address, or a poisoned page (12 R448, R468). -/
  | error (pa : Nat) (poisonPage : Bool)
  deriving DecidableEq, Repr

/-- An 8-byte table entry at the home (11 R420: at L2, never L1). -/
def readPte (s : State) (pa : Nat) : Nat := leNat (physRead s pa 8)

/-- The ownership check (12 R442). -/
def ownOk (c : Nat) (e : PotE) (sharedLeaf : Bool) : Bool :=
  if e.state = 2 ∨ e.state = 3 then false
  else if e.world = c then true
  else decide (c ≠ 0) && e.world == 0 && sharedLeaf

/-- Bits that must be zero in a leaf at a level (11 R418). -/
def leafRsvdOk (e level : Nat) : Bool :=
  field e 63 52 == 0 && field e 11 8 == 0
  && (level == 0 || !bitOf e 7)
  && (level == 0 || field e (12 + 9 * level - 1) 12 == 0)

/-- The lines of the sixteen entries of a 64 KiB group. -/
def groupLines (node idx : Nat) : List Nat := let at_ := node + 8 * (idx / 16 * 16); [at_ / 64, at_ / 64 + 1]

/-- The rules of a 64 KiB group (11 R419). -/
def groupOk (s : State) (node idx e : Nat) : Bool :=
  let base := idx / 16 * 16
  let first := readPte s (node + 8 * base)
  field first 51 12 % 16 == 0
  && (List.range 16).all (fun i =>
    let x := readPte s (node + 8 * (base + i))
    bitOf x 7 && field x 11 2 == field e 11 2 && field x 51 12 == field first 51 12 + i)

/-- The walk (11 R420) from a node at a level down. A leaf gives its entry, its page size and the walk's world. -/
def walkFrom (s : State) (world va : Nat) : Nat → Nat → Except Xlat (Nat × Nat)
  | 0, _ => .error (.fault { sub := xRsvd, level := 0, pte := 0, walk := false })
  | n + 1, node =>
    -- levels count down from n
    let level := n
    let idx := va / 2 ^ (12 + 9 * level) % 512
    let at_ := node + 8 * idx
    let e := readPte s at_
    let tbl := bitOf e 1
    let bad (sub : Nat) (walk : Bool) (pte : Nat) : Except Xlat (Nat × Nat) :=
      .error (.fault { sub := sub, level := level, pte := BitVec.ofNat 64 pte, walk := walk })
    if isPoisoned s (at_ / 64) then .error (.error (at_ / 64 * 64) false)
    else if !bitOf e 0 then bad xNotMapped (decide (level ≠ 0) && (tbl || decide (2 < level))) e
    else if tbl then
      if level = 0 ∨ field e 63 54 ≠ 0 ∨ field e 11 2 ≠ 0 then bad xRsvd (decide (level ≠ 0)) e
      else
        let next := field e 51 12 * 4096
        if bitOf e 53 || bitOf e 52 || !isDram next then bad xNode true e
        else if !ownOk world (potSeen s next) false then bad xOwn true e
        else if (potOf s next).poison then .error (.error next true)
        else walkFrom s world va n next
    else if decide (2 < level) || !leafRsvdOk e level then bad xRsvd (decide (2 < level)) e
    else match (if level = 0 ∧ bitOf e 7 = true then (groupLines node idx).find? (isPoisoned s) else none) with
    | some line => .error (.error (line * 64) false)
    | none =>
    if level = 0 ∧ bitOf e 7 = true ∧ groupOk s node idx e = false then bad xRsvd false e
    else .ok (e, if level = 0 ∧ bitOf e 7 = true then 16 else 12 + 9 * level)

/-- The lines that the walk reads, in order, from a node at a level down: it goes no further than an entry that gives no node,
or than a line that is poisoned or has an error that it meets. -/
def walkLines (s : State) (world va : Nat) : Nat → Nat → List Nat
  | 0, _ => []
  | n + 1, node =>
    let idx := va / 2 ^ (12 + 9 * n) % 512
    let line := (node + 8 * idx) / 64
    let e := readPte s (node + 8 * idx)
    if isPoisoned s line || tget s.softErrors line == some false || !bitOf e 0 then [line]
    else if bitOf e 1 then
      let next := field e 51 12 * 4096
      if n ≠ 0 && isDram next && ownOk world (potSeen s next) false && !(potOf s next).poison then
        line :: walkLines s world va n next
      else [line]
    else if n = 0 ∧ bitOf e 7 = true then line :: groupLines node idx
    else [line]

/-- Access rights (11 R420). -/
def permOk (leaf : Nat) : Acc → Bool
  | .read => bitOf leaf 2
  | .write => bitOf leaf 3
  | .atomic => bitOf leaf 2 && bitOf leaf 3
  | .fetch => bitOf leaf 4

/-- The access checks that follow a translation, cached or walked: rights, then copy-on-write (08 R327). -/
def accessCheck (leaf : Nat) (a : Acc) (level : Nat) : Option XErr :=
  if !permOk leaf a then some { sub := xPerm, level := level, pte := 0, walk := false }
  else if (a = .write ∨ a = .atomic) ∧ bitOf leaf 5 = true ∧ bitOf leaf 3 = true then
    some { sub := xCow, level := level, pte := BitVec.ofNat 64 leaf, walk := false }
  else none

/-- The level of a page size. -/
def levelOfLog (log : Nat) : Nat := if log ≤ 16 then 0 else if log = 21 then 1 else 2

/-- The TLB units: core 0-159, cluster 160 + c, die 180 + d (11 R421). -/
def tlbSize (unit : Nat) : Nat := if unit < 160 then 128 else if unit < 180 then 2048 else 4096

/-- Look an address up in a unit: an entry of its page whose ownership has been checked at that address. -/
def tlbFind (s : State) (unit ctx va : Nat) : Option TlbE :=
  (tgetD [] s.tlbs unit).find? (fun e =>
    e.ctx == ctx && va / 2 ^ e.log == e.va / 2 ^ e.log && e.pages.contains (va / 4096))

/-- The same translation, but for the pages that have been checked. -/
def TlbE.sameAs (x e : TlbE) : Bool := { x with pages := [] } == { e with pages := [] }

/-- Fill a unit; the entry that has been held longest leaves a full unit (log 10). An entry of a large page that is filled
again keeps the pages that it has checked. -/
def tlbFill (s : State) (unit : Nat) (e : TlbE) : State :=
  let here := tgetD [] s.tlbs unit
  let known := (here.filter (fun x => x.sameAs e)).flatMap TlbE.pages
  let old := here.filter (fun x => !(x.ctx == e.ctx && x.va == e.va && x.log == e.log))
  { s with tlbs := tput s.tlbs unit (({ e with pages := (e.pages ++ known).eraseDups } :: old).take (tlbSize unit)) }

/-- Fill several units. -/
def tlbFillAll (s : State) (e : TlbE) : List Nat → State
  | [] => s
  | u :: us => tlbFillAll (tlbFill s u e) e us

/-- The page-table root and world of a context. -/
def ctxRoot (s : State) (ctx : Nat) : Nat × Nat :=
  match tget s.ctxs ctx with
  | some c => (c.ptroot, c.world)
  | none => (0, 0)

/-- Walk for a leaf, with the frame and ownership checks (11 R420, 12 R442). -/
def walkLeaf (s : State) (ctx va : Nat) : Except Xlat TlbE :=
  let (root, world) := ctxRoot s ctx
  if !ownOk world (potSeen s root) false then
    .error (.fault { sub := xOwn, level := 4, pte := 0, walk := true })
  else if (potOf s root).poison then .error (.error root true)
  else
    match walkFrom s world va 5 root with
    | .error x => .error x
    | .ok (e, log) =>
      let frame := field e 51 12 * 4096
      let pa := frame / 2 ^ log * 2 ^ log + va % 2 ^ log
      let level := levelOfLog log
      if !isBacked pa then .error (.fault { sub := xPa, level := level, pte := 0, walk := false })
      else
        let pe := potSeen s pa
        if !ownOk world pe (!bitOf e 4) then .error (.fault { sub := xOwn, level := level, pte := 0, walk := false })
        else
          .ok { ctx := ctx, va := va / 2 ^ log * 2 ^ log, log := log, pa := pa / 2 ^ log * 2 ^ log
                leaf := BitVec.ofNat 64 e, level := level, world := pe.world, pages := [va / 4096] }

/-- Look an address up in a chain of TLB units, nearest first: the entry, and the units that missed. An entry that denies the
access is no hit: rights may be added without an invalidation (R422). -/
def tlbLook (s : State) (ctx va : Nat) (a : Acc) : List Nat → List Nat → Option TlbE × List Nat
  | [], seen => (none, seen)
  | u :: us, seen =>
    match tlbFind s u ctx va with
    | some e => if (accessCheck e.leaf.toNat a e.level).isNone then (some e, seen) else tlbLook s ctx va a us (u :: seen)
    | none => tlbLook s ctx va a us (u :: seen)

/-- The walker reads the lines of its walk at their home slices (11 R420, R427). -/
def walkReads (s : State) (ctx va : Nat) : State :=
  let (root, world) := ctxRoot s ctx
  if isDram root && ownOk world (potSeen s root) false && !(potOf s root).poison then
    (walkLines s world va 5 root).foldl (fun s line => l2Read s line ctx) s
  else s

/-- ATS is in effect (15 R500). -/
def atsOn (s : State) : Bool := s.pf.featDev.getLsbD 44 && s.pf.featDrv.getLsbD 44

/-- The die TLB at the end of a chain holds the ATS completion of a page of the host window (15 R498). -/
def atsFill (s : State) (units : List Nat) (pa : Nat) : State :=
  match units.getLast? with
  | some u => if atsOn s && isHostWindow pa then
      { s with ats := tput s.ats (u - 180) ((pa / 4096 :: (tgetD [] s.ats (u - 180)).filter (· != pa / 4096)).take 4096) }
    else s
  | none => s

/-- Translate one address through a chain of TLB units, nearest first; a hit fills the nearer ones. -/
def xlate (s : State) (units : List Nat) (ctx va : Nat) (a : Acc) : Xlat × State :=
  let (hit, miss) := tlbLook s ctx va a units []
  let (e, s) := match hit with
    | some e => (Except.ok e, s)
    | none => let s := walkReads s ctx va; (walkLeaf s ctx va, s)
  match e with
  | .error x => (x, s)
  | .ok e =>
    match accessCheck e.leaf.toNat a e.level with
    | some err => (.fault err, s)
    | none =>
      let pa := e.pa + va % 2 ^ e.log
      let s := atsFill (tlbFillAll s e miss) units pa
      if (potOf s pa).poison then (.error pa true, s) else (.ok pa e.leaf, s)

/-- The TLB chain of a core. -/
def coreUnits (core : Nat) : List Nat := [core, 160 + core / 8, 180 + core / 80]
/-- The TLB chain of a cluster's drays. -/
def clusterUnits (cl : Nat) : List Nat := [160 + cl, 180 + cl / 10]
/-- The TLB of a die, for its front-ends and engines. -/
def dieUnits (d : Nat) : List Nat := [180 + d]

/-! Areas of a context that its program must not access (11 R429, R431, 10 R390): XLAT PERM. -/

/-- The determinism areas of a context's live regions: base and bytes. -/
def detAreas (s : State) (ctx : Nat) : List (Nat × Nat) :=
  s.regions.filterMap (fun e =>
    if e.2.ctx = ctx ∧ e.2.det = true ∧ e.2.completed = false then some (e.2.detarea, e.2.detsize * 4096) else none)

/-- The address lies in one of those areas. -/
def inOwnArea (s : State) (ctx va : Nat) : Bool :=
  match tget s.ctxs ctx with
  | none => false
  | some c =>
    let inside (b n : Nat) : Bool := decide (b ≤ va ∧ va < b + n)
    inside c.imgbase (180224 * 16384) || inside c.rimgbase (9437184 * 2048)
    || inside c.smapbase (64 * c.privp * 16384)
    || (detAreas s ctx).any (fun e => inside e.1 e.2)

/-- A program's access: its own areas are refused, else it translates. -/
def xlateProgram (s : State) (units : List Nat) (ctx va : Nat) (a : Acc) : Xlat × State :=
  if inOwnArea s ctx va then (.fault { sub := xPerm, level := 0, pte := 0, walk := false }, s)
  else xlate s units ctx va a

end Sys2Proof.Machine
end

