-- ==== Sys2Proof/Machine/Cache.lean ====
section
/-! DEFINITION. The L1 caches (09 R333, R336-R338) and the accesses that pass through them. Accesses take effect at issue
(log 8). -/
namespace Sys2Proof.Machine

/-- The L1 unit that serves a core: the core's own (0-159), or 160 + c for the fused L1 of cluster c (09 R337). -/
def l1Unit (s : State) (core : Nat) : Nat :=
  if s.fusedClusters.contains (core / 8) then 160 + core / 8 else core

/-- The set of a line in a unit: 2,048 sets of 16 ways in each slice. DESIGN CHOICE (log 7): the spec names no index bits;
they are the lowest bits of the line number, above the three that pick a fused slice. -/
def l1Set (unit line : Nat) : Nat :=
  if unit < 160 then line % 2048
  else (Nat.xor (line % 8) (line / 64 % 8)) * 2048 + line / 8 % 2048

/-- The copy of a line in a unit. -/
def l1Find (s : State) (unit line : Nat) : Option CLine := (tgetD [] s.l1 unit).find? (fun c => c.line == line)

/-- Drop a line's copy. -/
def l1Drop (s : State) (unit line : Nat) : State :=
  { s with l1 := tput s.l1 unit ((tgetD [] s.l1 unit).filter (fun c => c.line != line)) }

/-- Insert or replace a copy. -/
def l1Put (s : State) (unit : Nat) (c : CLine) : State :=
  { s with l1 := tput s.l1 unit (c :: (tgetD [] s.l1 unit).filter (fun x => x.line != c.line)) }

/-- The bytes of the dirty mask, written at the home one by one (09 R336: only the dirty bytes). Poison goes with them; a
line that is new in all its bytes ends the poison of its home copy (12 R467). -/
def writeDirty (s : State) (c : CLine) : State :=
  let poisonHome (s : State) : State :=
    if c.poisoned then setPoison s c.line
    else if c.dirty = BitVec.allOnes 64 then clearPoison s c.line else s
  if c.dirty = 0 then s
  else if windowClosed s (c.line * 64) then s
  else if isWindow (c.line * 64) then
    let s := l2Fill (poisonHome s) c.line ((c.ctxs.head?).getD 0)
    let mix (old : List Byte) : List Byte :=
      (List.range 64).map (fun i => if c.dirty.getLsbD i then (c.bytes[i]?).getD 0 else (old[i]?).getD 0)
    { s with l2 := s.l2.map (fun x =>
        if x.line = c.line then { x with bytes := mix x.bytes, dirty := x.dirty ||| c.dirty } else x) }
  else storeDirty (poisonHome s) c

/-- Write a line back and keep it clean. -/
def l1Clean (s : State) (unit : Nat) (c : CLine) : State :=
  l1Put (writeDirty s c) unit { c with dirty := 0 }

/-- Evict a line: write it back, drop it, and remember its victim tag (10 R380). -/
def l1Evict (s : State) (unit : Nat) (c : CLine) : State :=
  let s := l1Drop (writeDirty s c) unit c.line
  let cap := if unit < 160 then 8192 else 65536
  { s with victims := tput s.victims unit ((c.line :: tgetD [] s.victims unit).take cap) }

/-- Make room for a line in its set: a line allocated with .STRM goes first, else a free choice (log 7). -/
def l1Room (s : State) (unit line : Nat) : State :=
  let set := (tgetD [] s.l1 unit).filter (fun c => l1Set unit c.line == l1Set unit line)
  if set.length < 16 then s
  else
    match set.reverse.find? (fun c => c.strm) with
    | some c => l1Evict s unit c
    | none =>
      let s := { s with free := s.free + 1 }
      match set[Config.victimWay s.free % 16]? with
      | some c => l1Evict s unit c
      | none => s

/-- The counter of a pool: its core, or core 0 of its cluster. -/
def poolClock (unit : Nat) : Nat := if unit < 160 then unit else (unit - 160) * 8

/-- The intervals that a pool has closed: those that counted no hit closed without effect. -/
def closedIntervals (s : State) (unit : Nat) : Nat :=
  let n := cycleOf s (poolClock unit) / 4096
  if tgetD 0 s.poolIntervals unit < n then n else tgetD 0 s.poolIntervals unit

/-- The counts of a pool and a coach when a line is allocated (10 R380, R383): whether a victim tag was hit. -/
def victimHit (s : State) (unit line : Nat) : Bool × State :=
  let vs := tgetD [] s.victims unit
  if vs.contains line then
    (true, { s with victims := tput s.victims unit (vs.filter (· != line))
                    poolHits := tput s.poolHits unit (tgetD 0 s.poolHits unit + 1)
                    poolIntervals := if tgetD 0 s.poolHits unit = 0 then tput s.poolIntervals unit (closedIntervals s unit)
                                     else s.poolIntervals })
  else (false, s)

/-- An error of an L1 line is met when the line is used, which the first write of a clean line is too: a clean line is
discarded, and its use fetches it again; a dirty one is poisoned (12 R465, R466). -/
def meetL1 (s : State) (unit line : Nat) : State :=
  if !s.upsets.contains (.l1 unit line) then s
  else
    let s := { s with upsets := s.upsets.filter (· != .l1 unit line) }
    match l1Find s unit line with
    | none => s
    | some c =>
      if c.dirty = 0 then l1Drop s unit line
      else
        let cl := if unit < 160 then unit / 8 else unit - 160
        logError (l1Put s unit { c with poisoned := true }) srcDirty 1 (cl / 10) (line * 64) none none (some (cl % 10))

/-- Bring a line into a unit: the copy, whether it was allocated now, and whether that hit a victim tag. A context that
finds a line which only others have used is served from the home first, so that no copy older than its own last acquire
reaches it (log 8). -/
def l1Fill (s : State) (unit line ctx : Nat) (strm : Bool) : CLine × Bool × Bool × State :=
  let s := meetL1 s unit line
  match l1Find s unit line with
  | some c =>
    if c.ctxs.contains ctx then (c, false, false, s)
    else
      let s := l2Read (writeDirty s c) line ctx
      let c := { c with ctxs := ctx :: c.ctxs, bytes := homeLine s line, dirty := 0, poisoned := isPoisoned s line }
      (c, false, false, l1Put s unit c)
  | none =>
    let (hit, s) := victimHit s unit line
    let s := l2Read s line ctx
    let s := l1Room s unit line
    let c : CLine := { line := line, ctxs := [ctx], bytes := homeLine s line, dirty := 0, since := 0, strm := strm
                       poisoned := isPoisoned s line }
    (c, true, hit, l1Put s unit c)

/-- How an access is served. -/
structure Path where
  /-- The L1 unit; none: at the home slice (09 R336-R338). -/
  unit : Option Nat
  ctx : Nat
  /-- A cacheable page (11 R418 UC = 0). -/
  cacheable : Bool
  strm : Bool
  deriving DecidableEq, Repr

/-- Lines allocated and victim tags hit by an access. -/
abbrev Counts := Nat × Nat

/-- Read part of one line. A closed window gives ones that are poisoned (`linePoison`). -/
def readPart (s : State) (p : Path) (line off n : Nat) : List Byte × Counts × State :=
  if windowClosed s (line * 64) then (List.replicate n 0xFF, (0, 0), s)
  else
    match p.unit with
    | some u =>
      let (c, fresh, hit, s) := l1Fill s u line p.ctx p.strm
      ((c.bytes.drop off).take n, (if fresh then 1 else 0, if hit then 1 else 0), s)
    | none =>
      let s := if !p.cacheable && isWindow (line * 64) then meetSoftError s line else l2Read s line p.ctx
      (homeRead s line off n p.cacheable, (0, 0), s)

/-- Write part of one line: it lands in a poisoned line, which stays poisoned (12 R467). -/
def writePart (s : State) (p : Path) (line off : Nat) (bs : List Byte) : Counts × State :=
  if windowClosed s (line * 64) then ((0, 0), s)
  else
    match p.unit with
    | some u =>
      let (c, fresh, hit, s) := l1Fill s u line p.ctx p.strm
      let since := if c.dirty = 0 then cycleOf s (poolClock u) else c.since
      let d := c.dirty ||| (widthMask bs.length <<< off)
      let c := { c with bytes := patch c.bytes off bs, dirty := d, since := since }
      ((if fresh then 1 else 0, if hit then 1 else 0), l1Put s u c)
    | none => ((0, 0), homeWriteLine s line off bs p.ctx p.cacheable)

/-- Read a physical range. -/
def readPath (s : State) (p : Path) (a n : Nat) : List Byte × Counts × State :=
  (linesOf a n).foldl (fun (acc : List Byte × Counts × State) (part : Nat × Nat × Nat) =>
    let (bs, c, s) := readPart acc.2.2 p part.1 part.2.1 part.2.2
    (acc.1 ++ bs, (acc.2.1.1 + c.1, acc.2.1.2 + c.2), s)) ([], (0, 0), s)

/-- Write a physical range. -/
def writePath (s : State) (p : Path) (a : Nat) (bs : List Byte) : Counts × State :=
  let r := (linesOf a bs.length).foldl (fun (acc : List Byte × Counts × State) (part : Nat × Nat × Nat) =>
    let (c, s) := writePart acc.2.2 p part.1 part.2.1 (acc.1.take part.2.2)
    (acc.1.drop part.2.2, (acc.2.1.1 + c.1, acc.2.1.2 + c.2), s)) (bs, (0, 0), s)
  r.2

/-- What a line gives is poisoned: the copy of the L1 that serves it, else the home copy (12 R467), or a closed window (15
R498). -/
def linePoison (s : State) (unit : Option Nat) (line : Nat) : Bool :=
  windowClosed s (line * 64) ||
  (match unit.bind (fun u => l1Find s u line) with
  | some c => c.poisoned
  | none => isPoisoned s line)

/-- A poisoned line in a physical range, as a unit or the home slice serves it. -/
def poisonAt (s : State) (unit : Option Nat) (a n : Nat) : Option Nat :=
  ((linesOf a n).find? (fun p => linePoison s unit p.1)).map (fun p => p.1 * 64)

/-- A poisoned line in a physical range, at the home slices. -/
def poisonIn (s : State) (a n : Nat) : Option Nat := poisonAt s none a n

/-! Lines moved by ordering operations (09 R336-R338) and CCTL (05 R182). -/

/-- Write back the dirty lines of a context in a unit. -/
def l1WriteBackAll (s : State) (unit ctx : Nat) : State :=
  (tgetD [] s.l1 unit).foldl (fun s c => if c.ctxs.contains ctx && c.dirty != 0 then l1Clean s unit c else s) s

/-- A line that an acquire of a context moves: its clean and its partly dirty lines (R336). -/
def acquired (ctx : Nat) (c : CLine) : Bool := c.ctxs.contains ctx && c.dirty != BitVec.allOnes 64

/-- Discard a context's clean lines in a unit; partly dirty ones are written back first. -/
def l1DiscardAll (s : State) (unit ctx : Nat) : State :=
  let s := (tgetD [] s.l1 unit).foldl (fun s c => if acquired ctx c then writeDirty s c else s) s
  { s with l1 := tput s.l1 unit ((tgetD [] s.l1 unit).filter (fun c => !acquired ctx c)) }

/-- Write back and discard one line in every L1 (12 R443, 11 R422). -/
def dropLineEverywhere (s : State) (line : Nat) : State :=
  s.l1.foldl (fun s e =>
    match l1Find s e.1 line with
    | some c => l1Drop (writeDirty s c) e.1 line
    | none => s) s

/-- Write back and invalidate a whole unit (09 R337). -/
def l1Flush (s : State) (unit : Nat) : State :=
  let s := (tgetD [] s.l1 unit).foldl writeDirty s
  { s with l1 := tdel s.l1 unit }

/-- Fuse or unfuse an empty cluster: its L1s are written back and invalidated (09 R337). -/
def setFused (s : State) (cl : Nat) (on : Bool) : State :=
  let units := (List.range 8).map (fun i => cl * 8 + i) ++ [160 + cl]
  let s := units.foldl l1Flush s
  { s with fusedClusters := if on then (if s.fusedClusters.contains cl then s.fusedClusters else cl :: s.fusedClusters)
                            else s.fusedClusters.filter (· != cl) }

/-- Write the L2 copies of window lines of a context back to their windows, and drop the clean copies when asked. -/
def l2System (s : State) (drop : Bool) : State :=
  let s := s.l2.foldl l2WriteBack s
  { s with l2 := if drop then s.l2.filter (fun c => !isWindow (c.line * 64)) else s.l2.map (fun c => { c with dirty := 0 }) }

/-- The release side of an ordering operation over global storage: agent scope `agt` (02 R60). -/
def releaseGlobal (s : State) (unit ctx agt : Nat) : State :=
  let moves := if unit < 160 then decide (1 ≤ agt) else decide (3 ≤ agt)
  let s := if moves then l1WriteBackAll s unit ctx else s
  if agt = 5 then l2System s false else s

/-- The acquire side. -/
def acquireGlobal (s : State) (unit ctx agt : Nat) : State :=
  let moves := if unit < 160 then decide (1 ≤ agt) else decide (3 ≤ agt)
  let s := if moves then l1DiscardAll s unit ctx else s
  if agt = 5 then l2System s true else s

/-- An ordering operation: code (02 R59), agent scope, storage scope 0 global, 1 scratchpad, 2 both. Scratchpad data
passes through no cache, so only the global part moves lines. -/
def orderGlobal (s : State) (unit ctx ord agt stg : Nat) : State :=
  if stg = 1 then s
  else
    let s := if ord = 2 ∨ ord = 3 ∨ ord = 4 then releaseGlobal s unit ctx agt else s
    if ord = 1 ∨ ord = 3 ∨ ord = 4 then acquireGlobal s unit ctx agt else s

end Sys2Proof.Machine
end

