-- ==== Sys2Proof/Machine/Ops.lean ====
section
/-! DEFINITION. The named operations over coaches: registers, lanes, program counters, fault entries, queues, the commit
of the return buffer (02 R50), and taking a trap (11 R402-R413). -/
namespace Sys2Proof.Machine

/-! ### Objects -/

/-- Keys of coaches and regions, rakes, dray contexts and tiles in the tables of `State`. -/
def coachKey (ctx fslot : Nat) : Nat := ctx * 16384 + fslot
def regionKey (ctx number : Nat) : Nat := ctx * 2 ^ 32 + number
def rakeKey (region idx : Nat) : Nat := region * 65536 + idx
def drayKey (die cl dray c : Nat) : Nat := ((die * 10 + cl) * 4 + dray) * 8 + c
def tileKey (core k : Nat) : Nat := core * 8 + k

/-- A lane that no mode shows. -/
def Lane.absent : Lane :=
  { state := .absent, ga := 0, step := 0, nga := 0, nstep := 0, wait := .none, word := 0, icnt := 0, icntG := 0, orderG := 0
    draw := 0, held := [], sp := 0 }

/-- No operation staged. -/
def Bundle.empty : Bundle := { num := 1, entries := [], served := false }

/-- A coach that does not exist. -/
def Coach.none : Coach :=
  { ctx := 0, fslot := 0, region := 0, rake := 0, idx := 0, place := Option.none, width := 64, prot := false
    plate := 0, version := 0, nregs := 0, v := [], s := [], m := [], lanes := [], fmode := 0, fstat := 0, seed := 0
    rbuf := [], orderNext := 0, fpeHeld := [], stalls := [], pair := Option.none, resume := Option.none, leaseG := 8
    measured := true, est := 8, mi := 0, alloc := 0, vh := 0, active := true, admitted := 0, waitSince := 0
    atHead := false, heldBack := false, idleSince := 0, waited := 0, returned := Option.none, out := [], sliceStart := 0, sliceExpired := false
    openBatch := [], sealed_ := [], batchCount := 0, cpyCount := 0, zones := [], zoneCount := 0, zcause := 0
    zinfo := 0, cfgs := [], savedTiles := [], ports := [], inHandler := false, rmask := 0, entryLanes := [], heldStalls := [], commitPush := false, trap := Option.none
    halted := Option.none, framed := false, skid := 0, shadowDiff := 0, bundle := Bundle.empty, ended := [], remainder := []
    turnGranted := false }

/-- The coach of a key; `Coach.none` where there is none. -/
def coachOf (s : State) (k : Nat) : Coach := tgetD Coach.none s.coaches k
/-- Replace a coach. -/
def setCoach (s : State) (k : Nat) (co : Coach) : State := { s with coaches := tput s.coaches k co }
/-- Update a coach that exists. -/
def modCoach (s : State) (k : Nat) (f : Coach → Coach) : State := { s with coaches := tmod s.coaches k f }
def modRake (s : State) (k : Nat) (f : Rake → Rake) : State := { s with rakes := tmod s.rakes k f }
def modRegion (s : State) (k : Nat) (f : Region → Region) : State := { s with regions := tmod s.regions k f }
def modCtx (s : State) (k : Nat) (f : Ctx → Ctx) : State := { s with ctxs := tmod s.ctxs k f }

/-- The core that runs a coach; 0 for one that is not resident. -/
def coreOf (co : Coach) : Nat :=
  match co.place with
  | some (c, _, _) => c
  | Option.none => 0

/-- The region's number and determinism. -/
def isDet (s : State) (co : Coach) : Bool :=
  match tget s.regions co.region with
  | some r => r.det
  | Option.none => false

/-! ### Registers (01 R19-R24) -/

/-- The visible-lane mask. -/
def Coach.all (co : Coach) : Mask := widthMask co.width

def vget (co : Coach) (r l : Nat) : Word := tgetD 0 co.v (64 * r + l)
def vset (co : Coach) (r l : Nat) (w : Word) : Coach := { co with v := tset 0 co.v (64 * r + l) w }
def sget (co : Coach) (r : Nat) : Word := tgetD 0 co.s r
def sset (co : Coach) (r : Nat) (w : Word) : Coach := { co with s := tset 0 co.s r w }
/-- m0 reads all ones within the width; no mask has bits above it (01 R14, R22). -/
def mget (co : Coach) (k : Nat) : Mask := if k = 0 then co.all else tgetD 0 co.m k &&& co.all
/-- Writes to m0 are discarded. -/
def mset (co : Coach) (k : Nat) (v : Mask) : Coach :=
  if k = 0 then co else { co with m := tset 0 co.m k (v &&& co.all) }

/-! ### Lanes -/

def laneOf (co : Coach) (l : Nat) : Lane := (co.lanes[l]?).getD Lane.absent

/-- Update the lanes of a mask. -/
def modLanes (co : Coach) (m : Mask) (f : Nat → Lane → Lane) : Coach :=
  { co with lanes := mapFrom (fun l x => if m.getLsbD l then f l x else x) 0 co.lanes }

/-- The lanes in a state. -/
def lanesIn (co : Coach) (st : LaneState) : Mask :=
  maskOf (fun l => decide ((co.lanes[l]?).map Lane.state = some st))

/-- The active set (01 R15). -/
def activeSet (co : Coach) : Mask := lanesIn co .running

/-- Running lanes at a program counter. -/
def lanesAt (co : Coach) (ga : GAddr) (step : Nat) : Mask :=
  maskOf (fun l => match co.lanes[l]? with
    | some x => x.state = .running && x.ga == ga && x.step == step
    | Option.none => false)

/-- A lane goes to a guest address: step 0, and the guest instruction's counts start there (08 R314). -/
def Lane.goto (x : Lane) (order : Nat) (ga : GAddr) : Lane :=
  { x with ga := ga, step := 0, icntG := x.icnt, orderG := order }

/-- The operation counts in ICNT (01 R30). -/
def Lane.count (x : Lane) : Lane := { x with icnt := x.icnt + 1 }

/-- The program counter after the operation of the latch. -/
def Lane.past (x : Lane) (order : Nat) (i : Iss) : Lane :=
  if i.step + 1 < i.count then { x with step := i.step + 1 }
  else x.goto order (i.ga + BitVec.ofNat 57 i.len)

/-- The program counter that follows the operation of the latch. -/
def Iss.next (i : Iss) : GAddr × Nat :=
  if i.step + 1 < i.count then (i.ga, i.step + 1) else (i.ga + BitVec.ofNat 57 i.len, 0)

/-- The group passes the operation: ICNT counts it and the program counter moves on. -/
def passLanes (co : Coach) (i : Iss) (m : Mask) : Coach := modLanes co m (fun _ x => (x.count.past co.orderNext i))

/-- A lane stops waiting: it runs where it goes on, or keeps the wake until TRET when a handler runs elsewhere
(11 R409). -/
def wakeLane (co : Coach) (l : Nat) (x : Lane) : Lane :=
  if co.inHandler && !co.rmask.getLsbD l then { x with wait := .woken }
  else { x with state := .running, ga := x.nga, step := x.nstep, wait := .none
                icntG := if x.nstep = 0 then x.icnt else x.icntG
                orderG := if x.nstep = 0 then co.orderNext else x.orderG }

/-- Wake the lanes of a mask. -/
def wakeLanes (co : Coach) (m : Mask) : Coach := modLanes co m (wakeLane co)

/-- The lanes of a group that sleep at the operation, to go on after it (01 R15). ICNT counts the operation. -/
def sleepLanes (co : Coach) (i : Iss) (m : Mask) (w : Nat → Wait) : Coach :=
  modLanes co m (fun l x => { x.count with state := .sleeping, wait := w l, word := i.word, nga := i.next.1, nstep := i.next.2 })

/-! ### Fault entries (11 R423) -/

/-- The counter on which an entry's 64 cycles run. -/
def faultClock (die cluster : Nat) : Nat := if cluster < 10 then (die * 10 + cluster) * 8 else 200 + die

/-- The entry of a page in a cluster's merge stage. -/
def faultEntry (s : State) (ctx page die cluster : Nat) : Option (Nat × FaultEntry) :=
  s.faults.find? (fun f => f.2.ctx == ctx && f.2.page == page && f.2.die == die && f.2.cluster == cluster)

/-- A cluster's merge stage, of 128 entries, takes a fault on a page. -/
def mergeRoom (s : State) (ctx page die cluster : Nat) : Bool :=
  (faultEntry s ctx page die cluster).isSome
  || decide ((s.faults.filter (fun f => f.2.die == die && f.2.cluster == cluster)).length < 128)

/-- A core's filter, of 32 entries, and its cluster's merge stage take a fault on a page. -/
def faultRoom (s : State) (ctx page core : Nat) : Bool :=
  mergeRoom s ctx page (core / 80) (core / 8 % 10)
  && (((faultEntry s ctx page (core / 80) (core / 8 % 10)).any (fun f => f.2.cores.contains core))
    || decide ((s.faults.filter (fun f => f.2.cores.contains core)).length < 32))

/-- Join or open the entry of a page in a cluster's merge stage; `waiters` join it. -/
def joinFault (s : State) (ctx page die cluster region : Nat) (version : Word) (e : XErr) (acc waiters : Nat) :
    Nat × State :=
  match faultEntry s ctx page die cluster with
  | some (k, f) =>
    (k, { s with faults := tput s.faults k { f with access := f.access ||| acc, waiters := f.waiters + waiters } })
  | Option.none =>
    let f : FaultEntry :=
      { ctx := ctx, page := page, die := die, cluster := cluster, sub := e.sub, access := acc, level := e.level
        pte := e.pte, region := region, version := version, waiters := waiters, cores := []
        opened := cycleOf s (faultClock die cluster), seq := Option.none }
    (s.nextFault, { s with faults := tput s.faults s.nextFault f, nextFault := s.nextFault + 1 })

/-- The region's number of a coach. -/
def regionNumber (s : State) (region : Nat) : Nat :=
  match tget s.regions region with
  | some r => r.number
  | Option.none => 0

/-- A slot is discarded for some lanes (02 R54, 08 R314): their words, their part of a LANE push, their flags, and a scalar
word or a WORD push that came from the lowest of the lanes. What has no lane left goes whole (log 74). -/
def Slot.without (sl : Slot) (m : Mask) : Slot :=
  let lead := ((lowLane sl.lanes).map (fun l => m.getLsbD l)).getD false
  { sl with lanes := sl.lanes &&& ~~~m, vw := sl.vw.filter (fun w => !m.getLsbD (w.1 % 64))
            sw := if lead then [] else sl.sw, flags := sl.flags.map (· &&& ~~~m)
            push := sl.push.bind (fun p => match p.2 with
              | .word _ => if lead then Option.none else some p
              | .lane ws v => some (p.1, .lane (ws.filter (fun w => !m.getLsbD w.1)) (v &&& ~~~m))) }

/-- A coach's fault on an address joins its core's entry, and its cluster's. -/
def coachFault (s : State) (co : Coach) (va : Nat) (e : XErr) (acc waiters : Nat) : Nat × State :=
  let core := coreOf co
  let (f, s) := joinFault s co.ctx (va / 4096) (core / 80) (core / 8 % 10) (regionNumber s co.region) co.version e
    (acc ||| (if e.walk then 32 else 0)) waiters
  (f, { s with faults := tmod s.faults f (fun f =>
        if f.cores.contains core then f else { f with cores := core :: f.cores }) })

/-- The native word at a lane: that of the latch, when it issued there. -/
def wordAt (s : State) (k : Nat) (x : Lane) : Dword :=
  if s.iss.coach = k ∧ s.iss.ga = x.ga ∧ s.iss.step = x.step then s.iss.word else 0

/-- Lanes of a coach take XLAT on a page (11 R185): they park. In an expansion they go back to (G, 0), their slots of the
expansion are released and ICNT returns to its value there (08 R314). `frame` keeps the program counters (11 R409). An
operation that finds the filter or the merge stage full has no effect in those lanes, and is retried (11 R423). -/
def parkLanes (s : State) (k : Nat) (m : Mask) (va : Nat) (e : XErr) (acc : Nat) (frame : Bool) : State :=
  let co := coachOf s k
  if m = 0 then s
  else if !faultRoom s co.ctx (va / 4096) (coreOf co) then
    -- a push that waits, and the entry of a trap, are made again by themselves
    if frame then s
    else
      let x := laneOf co ((lowLane m).getD 0)
      setCoach s k { co with stalls := co.stalls ++
        [{ lanes := m, ga := x.ga, step := x.step, kind := .faultRoom (va / 4096) }] }
  else
    let (f, s) := coachFault s co va e acc (countLanes m)
    let gone (sl : Slot) : Mask := maskOf (fun l => m.getLsbD l && decide ((laneOf co l).orderG ≤ sl.order))
    let co := if frame then co
      else { co with rbuf := (co.rbuf.map (fun sl => sl.without (gone sl))).filter (fun sl => sl.lanes != 0) }
    let co := modLanes co m (fun _ x =>
      if frame then { x with state := .parked, wait := .page f, nga := x.ga, nstep := x.step, wstep := x.step }
      else { x with state := .parked, wait := .page f, step := 0, nga := x.ga, nstep := 0, icnt := x.icntG
                    word := wordAt s k x, wstep := x.step })
    setCoach s k co

/-! ### Accesses of a coach -/

/-- A coach's translation of one address. -/
def coachXlate (s : State) (co : Coach) (va : Nat) (a : Acc) : Xlat × State :=
  xlateProgram s (coreUnits (coreOf co)) co.ctx va a

/-- The path of a coach's access to a page: L1 unless bypassed, uncached, or not served there. -/
def coachPath (s : State) (co : Coach) (leaf : Dword) (bypass strm : Bool) : Path :=
  let uc := leaf.getLsbD 6
  { unit := if bypass || uc then Option.none else some (l1Unit s (coreOf co)), ctx := co.ctx
    cacheable := !uc, strm := strm }

/-- Before an access at the home slice, the core's own copy of the lines is written back and dropped, so that accesses
of one coach keep its issue order (05 R172). -/
def homeFirst (s : State) (unit a n : Nat) : State :=
  (linesOf a n).foldl (fun s p =>
    match l1Find s unit p.1 with
    | some c => l1Drop (writeDirty s c) unit p.1
    | Option.none => s) s

/-- The acq_rel fence at device scope that a halt, a resumption or a restore makes on a coach's core (09 R355). -/
def coachFence (s : State) (k : Nat) : State :=
  let co := coachOf s k
  if co.place.isNone then s else orderGlobal s (l1Unit s (coreOf co)) co.ctx 3 4 2

/-- Count allocated lines and victim hits for the lease (10 R380). -/
def leaseCounts (s : State) (k : Nat) (c : Counts) : State :=
  if c = (0, 0) then s
  else modCoach s k (fun co => if co.measured then { co with alloc := co.alloc + c.1, vh := co.vh + c.2 } else co)

/-- Read `n` bytes of one line run at a physical address for a coach. -/
def coachRead (s : State) (k : Nat) (pa n : Nat) (leaf : Dword) (bypass strm : Bool) : List Byte × State :=
  let co := coachOf s k
  let p := coachPath s co leaf bypass strm
  let s := if p.unit = Option.none then homeFirst s (l1Unit s (coreOf co)) pa n else s
  let (bs, c, s) := readPath s p pa n
  (bs, leaseCounts s k c)

/-- Write bytes at a physical address for a coach. -/
def coachWrite (s : State) (k : Nat) (pa : Nat) (bs : List Byte) (leaf : Dword) (bypass strm : Bool) : State :=
  let co := coachOf s k
  let p := coachPath s co leaf bypass strm
  let s := if p.unit = Option.none then homeFirst s (l1Unit s (coreOf co)) pa bs.length else s
  let (c, s) := writePath s p pa bs
  leaseCounts s k c

/-- The Damith's own accesses for a context, at the home slice; `uc`: to an uncached page, past the slice (09 R338). -/
def ownRead (s : State) (a n : Nat) (uc : Bool := false) : List Byte :=
  (linesOf a n).flatMap (fun p => homeRead s p.1 p.2.1 p.2.2 (!uc))

def ownWrite (s : State) (ctx a : Nat) (bs : List Byte) (uc : Bool := false) : State :=
  ((linesOf a bs.length).foldl (fun (acc : List Byte × State) p =>
    (acc.1.drop p.2.2, homeWriteLine acc.2 p.1 p.2.1 (acc.1.take p.2.2) ctx (!uc))) (bs, s)).2

/-- Bring the lines of a physical range into their home slices before a read of them. -/
def ownFill (s : State) (ctx a n : Nat) : State := (linesOf a n).foldl (fun s p => l2Read s p.1 ctx) s

/-- A physical piece of a virtual range: address, count, and whether its page is uncached. -/
abbrev OwnPiece := Nat × Nat × Bool

/-- Translate every page of a range for the Damith's own access: the physical pieces, or the first failure and its
address. -/
def ownPieces (s : State) (units : List Nat) (ctx va n : Nat) (a : Acc) : Except (Xlat × Nat) (List OwnPiece) × State :=
  let rec go : Nat → Nat → Nat → State → List OwnPiece → Except (Xlat × Nat) (List OwnPiece) × State
    | 0, _, _, s, acc => (.ok acc.reverse, s)
    | fuel + 1, va, n, s, acc =>
      if n = 0 then (.ok acc.reverse, s)
      else
        let m := if va % 4096 + n ≤ 4096 then n else 4096 - va % 4096
        match xlate s units ctx va a with
        | (.ok pa leaf, s) => go fuel (va + m) (n - m) s ((pa, m, leaf.getLsbD 6) :: acc)
        | (x, s) => (.error (x, va), s)
  go (n / 4096 + 2) va n s []

/-- The bytes of pieces. -/
def readOwn (s : State) (ps : List OwnPiece) : List Byte := ps.flatMap (fun p => ownRead s p.1 p.2.1 p.2.2)

/-- The pieces' lines are read at their home slices, but for uncached window pages (09 R338). -/
def fillOwn (s : State) (ctx : Nat) (ps : List OwnPiece) : State :=
  ps.foldl (fun s p => if p.2.2 && isWindow p.1 then s else ownFill s ctx p.1 p.2.1) s

/-- Write bytes over pieces. -/
def writeOwn (s : State) (ctx : Nat) (ps : List OwnPiece) (bs : List Byte) : State :=
  (ps.foldl (fun (acc : List Byte × State) p =>
    (acc.1.drop p.2.1, ownWrite acc.2 ctx p.1 (acc.1.take p.2.1) p.2.2)) (bs, s)).2

/-- A poisoned line in pieces. -/
def poisonOwn (s : State) (ps : List OwnPiece) : Option Nat := ps.findSome? (fun p => poisonIn s p.1 p.2.1)

/-- Read a virtual range for the Damith. -/
def ownReadV (s : State) (units : List Nat) (ctx va n : Nat) : Except (Xlat × Nat) (List Byte) × State :=
  match ownPieces s units ctx va n .read with
  | (.ok ps, s) => let s := fillOwn s ctx ps; (.ok (readOwn s ps), s)
  | (.error e, s) => (.error e, s)

/-- Write a virtual range for the Damith: all pages translate before any byte lands. -/
def ownWriteV (s : State) (units : List Nat) (ctx va : Nat) (bs : List Byte) : Except (Xlat × Nat) Unit × State :=
  match ownPieces s units ctx va bs.length .write with
  | (.ok ps, s) => (.ok (), writeOwn s ctx ps bs)
  | (.error e, s) => (.error e, s)

/-- The same, where a poisoned line is consumed: an error with its line address (12 R468). -/
def ownReadP (s : State) (units : List Nat) (ctx va n : Nat) : Except (Xlat × Nat) (List Byte) × State :=
  match ownPieces s units ctx va n .read with
  | (.ok ps, s) =>
    let s := fillOwn s ctx ps
    match poisonOwn s ps with
    | some line => (.error (.error line false, va), s)
    | Option.none => (.ok (readOwn s ps), s)
  | (.error e, s) => (.error e, s)

/-- The context is reset at once (11 R510). -/
def markReset (s : State) (ctx : Nat) : State :=
  if s.resets.contains ctx then s else { s with resets := s.resets ++ [ctx] }

/-- An error in the Damith's own state of a context resets it, and is logged (12 R468, R471). -/
def errorReset (s : State) (ctx pa : Nat) : State :=
  markReset (logError s srcDram 4 (homeDie pa) pa (some ctx) ((tget s.ctxs ctx).map Ctx.world) Option.none) ctx

/-- The frames of a confidential context's own areas lie in its world (12 R442). -/
def inOwnWorld (s : State) (ctx : Nat) (ps : List OwnPiece) : Bool :=
  let w := (ctxRoot s ctx).2
  w == 0 || ps.all (fun p => (potOf s p.1).world == w)

/-- The pieces of an area that the driver must keep mapped; none: the context is reset (11 R429, R510). -/
def areaPieces (s : State) (units : List Nat) (ctx va n : Nat) (a : Acc) : Option (List OwnPiece) × State :=
  match ownPieces s units ctx va n a with
  | (.ok ps, s) => if inOwnWorld s ctx ps then (some ps, s) else (Option.none, s)
  | (.error _, s) => (Option.none, s)

/-- A fresh seed of free values (log 6). -/
def freshSeed (s : State) : Nat × State := (s.free + 1, { s with free := s.free + 1 })
/-- `n` bytes of an area that hold the listed values in a form that the spec leaves open (log 41). -/
def savedBytes (tag : Nat) (vals : List Nat) (n : Nat) : List Byte := (List.range n).map (Config.areaByte tag vals)

/-- Write the parts of an area that the driver must keep mapped; when it does not translate, the context is reset instead. -/
def writeArea (s : State) (ctx die base size : Nat) (parts : List (Nat × List Byte)) : State :=
  match areaPieces s (dieUnits die) ctx base size .atomic with
  | (Option.none, s) => markReset s ctx
  | (some _, s) => parts.foldl (fun s p => (ownWriteV s (dieUnits die) ctx (base + p.1) p.2).2) s

/-- The Damith writes `n` bytes at an offset of a deterministic region's area: values in a form that the spec leaves open (10
R390). -/
def detAreaWrite (s : State) (rg off n : Nat) (vals : List Nat) : State :=
  match tget s.regions rg with
  | Option.none => s
  | some r => writeArea s r.ctx 0 (r.detarea + off) n [(0, savedBytes off vals n)]

/-- An unsigned 64-bit word of a context for the Damith. -/
def ownWordV (s : State) (units : List Nat) (ctx va : Nat) : Except (Xlat × Nat) Nat × State :=
  match ownReadP s units ctx va 8 with
  | (.ok bs, s) => (.ok (leNat bs), s)
  | (.error e, s) => (.error e, s)

/-! ### Stage queues (05 R202-R204, R509) -/

/-- Bytes of an entry in the overflow area (02 R76). -/
def entryStride (lane : Bool) : Nat := if lane then 320 else 4

/-- Bytes that an entry holds there. -/
def entrySize (lane : Bool) : Nat := if lane then 264 else 4

/-- The stored bytes of an entry. -/
def entryBytes : Entry → List Byte
  | .word w => leBytes 4 w.toNat
  | .lane ws valid => (List.range 64).flatMap (fun l => leBytes 4 (tgetD 0 ws l).toNat) ++ leBytes 8 valid.toNat

/-- The entry that stored bytes hold. -/
def entryOfBytes (lane : Bool) (bs : List Byte) : Entry :=
  if lane then
    .lane (mapFrom (fun i c => (i, BitVec.ofNat 32 (leNat c))) 0 (chunks 4 64 (bs.take 256))
      |>.filter (fun e => e.2 != 0)) (BitVec.ofNat 64 (leNat ((bs.drop 256).take 8)))
  else .word (BitVec.ofNat 32 (leNat (bs.take 4)))

/-- What a push meets. -/
inductive PushOut where
  | done (s : State)
  | full
  | xlat (e : XErr) (va : Nat) (s : State)

/-- Update one queue of a region. -/
def setQueue (s : State) (region qi : Nat) (q : Queue) : State :=
  modRegion s region (fun r => { r with queues := setAt r.queues qi q })

/-- Move entries from the overflow area into the queue, in push order, while there is room (05 R202, R509); one whose
slot does not translate, or is poisoned, stays (log 84). -/
def refillQueue (s : State) (units : List Nat) (region qi : Nat) : Nat → State
  | 0 => s
  | fuel + 1 =>
    match tget s.regions region with
    | Option.none => s
    | some r =>
      match r.queues[qi]? with
      | Option.none => s
      | some q =>
        if q.entries.length < q.depth ∧ q.ovOut < q.ovIn ∧ q.ovdepth ≠ 0 then
          let va := q.ovaddr + entryStride q.lane * (q.ovOut % q.ovdepth)
          match ownReadP s units r.ctx va (entrySize q.lane) with
          | (.ok bs, s) =>
            let q := { q with entries := q.entries ++ [entryOfBytes q.lane bs], ovOut := q.ovOut + 1 }
            refillQueue (setQueue s region qi q) units region qi fuel
          | (.error _, s) => s
        else s

/-- Push an entry: into the queue, else into its overflow area, else the queue is full. -/
def pushQueue (s : State) (units : List Nat) (region qi : Nat) (e : Entry) : PushOut :=
  let s := refillQueue s units region qi 4096
  match tget s.regions region with
  | Option.none => .full
  | some r =>
    match r.queues[qi]? with
    | Option.none => .full
    | some q =>
      if q.entries.length < q.depth ∧ q.ovIn = q.ovOut then .done (setQueue s region qi { q with entries := q.entries ++ [e] })
      else if q.ovIn - q.ovOut < q.ovdepth then
        let va := q.ovaddr + entryStride q.lane * (q.ovIn % q.ovdepth)
        match ownWriteV s units r.ctx va (entryBytes e) with
        | (.ok _, s) => .done (setQueue s region qi { q with ovIn := q.ovIn + 1 })
        | (.error (.fault x, va), s) => .xlat x va s
        | (.error _, s) => .done (setQueue s region qi { q with ovIn := q.ovIn + 1 })
      else .full

/-- Pop the head entry; entries of the overflow area move up. -/
def popQueue (s : State) (units : List Nat) (region qi : Nat) : Option (Entry × State) :=
  let s := refillQueue s units region qi 4096
  match tget s.regions region with
  | Option.none => Option.none
  | some r =>
    match r.queues[qi]? with
    | Option.none => Option.none
    | some q =>
      match q.entries with
      | [] => Option.none
      | e :: es => some (e, refillQueue (setQueue s region qi { q with entries := es }) units region qi 4096)

/-- The stage queue bound to q0-q7 of a coach (01 R23). -/
def boundQueue (s : State) (co : Coach) (q : Nat) : Option (Nat × Queue) :=
  match tget s.regions co.region, tget s.rakes co.rake with
  | some r, some k =>
    match r.stages[k.stage]? with
    | some st =>
      match st.bind[q]? with
      | some qi => (r.queues[qi]?).map (fun x => (qi, x))
      | Option.none => Option.none
    | Option.none => Option.none
  | _, _ => Option.none

/-- The queue register is bound to a stage queue or to an open port (01 R23). -/
def qBound (s : State) (co : Coach) (q : Nat) : Bool :=
  if q < 8 then (boundQueue s co q).isSome else (tget co.ports q).isSome

/-- Entries of the staging area that a staged operation takes (10 R395). -/
def stagedCost : Staged → Nat
  | .push _ (.lane _ _) => 21
  | .spawn _ _ => 2
  | .bytes _ data => (data.length + 7) / 8
  | _ => 1

/-- Staged entries that a coach holds, and those that its outstanding long operations stage at their commit. -/
def stagedTotal (co : Coach) : Nat :=
  let due := co.rbuf.filterMap (fun sl => match sl.push with
    | some (q, e) => if q < 8 then some (.push q e) else Option.none
    | Option.none => Option.none)
  ((co.bundle.entries ++ co.ended.flatMap Bundle.entries ++ co.remainder ++ due).map stagedCost).foldl (· + ·) 0

/-- There is room for `n` more staged entries, and for an ended bundle when the operation ends one (10 R395). -/
def detRoom (co : Coach) (n : Nat) (ends : Bool) : Bool :=
  decide (stagedTotal co + n ≤ 1024) && (!ends || decide (co.ended.length < 4))

/-- Place entries in the coach's open bundle (10 R393). -/
def stage (s : State) (k : Nat) (es : List Staged) : State :=
  modCoach s k (fun co => { co with bundle := { co.bundle with entries := co.bundle.entries ++ es } })

/-- A bundle end (10 R394): the open bundle ends, and the next one opens. -/
def endBundle (co : Coach) (served : Bool) : Coach :=
  { co with ended := co.ended ++ [{ co.bundle with served := served }]
            bundle := { num := co.bundle.num + 1, entries := [], served := false } }

/-- Push to a queue register: a stage queue, or an engine port of 64 words (05 R206). -/
def pushReg (s : State) (k q : Nat) (e : Entry) : PushOut :=
  let co := coachOf s k
  if q < 8 then
    match boundQueue s co q with
    | some (qi, _) =>
      if isDet s co then .done (stage s k [.push q e])
      else
      let core := coreOf co
      let s := releaseGlobal s (l1Unit s core) co.ctx 4
      pushQueue s (coreUnits core) co.region qi e
    | Option.none => .full
  else
    match tget co.ports q with
    | Option.none => .full
    | some pk =>
      match tget s.ports pk with
      | Option.none => .full
      | some p =>
        if 64 ≤ p.cmds.length then .full
        else
          let w := match e with
            | .word w => w
            | .lane ws _ => tgetD 0 ws 0
          let z := ((co.zones.head?).map Zone.k).getD 0
          .done { s with ports := tput s.ports pk { p with cmds := p.cmds ++ [(w, z)] } }

/-! ### Commit of the return buffer (02 R50-R51) -/

/-- The tile can make no progress (06 R226). -/
def tileStuck (s : State) (tile : Nat) : Bool :=
  match tget s.tiles tile with
  | Option.none => true
  | some t => t.cur.isNone && !(t.queue.any (fun o => o.v == t.ver))

/-- A slot that waits for a tile that can make no progress (06 R226). -/
def slotStuck (s : State) (sl : Slot) : Bool :=
  match sl.tile with
  | some (t, _) => !sl.returned && tileStuck s t
  | Option.none => false

/-- The areas of an ILLEGAL VERSION frame that a tile without progress causes: no operand field failed; the tile and its VER
(06 R226, log 72). -/
def versionArea (s : State) (tk : Nat) : List (Nat × Nat × Nat) :=
  [(64, 1, 0xFF), (65, 1, tk % 8), (66, 2, ((tget s.tiles tk).map (fun t => t.ver.toNat)).getD 0)]

/-- The FSTAT bits of per-flag lane masks, and the lanes that raised a flag enabled in FMODE (03 R91, R95). -/
def flagWord (fl : List Mask) : Nat :=
  (mapFrom (fun i m => if m = (0 : Mask) then 0 else 2 ^ i) 0 fl).foldl (· + ·) 0
def enabledBits (fmode : Word) (fl : List Mask) : Nat := flagWord fl &&& field fmode.toNat 10 5
def enabledLanes (fmode : Word) (fl : List Mask) : Mask :=
  (mapFrom (fun i m => if fmode.getLsbD (5 + i) then m else (0 : Mask)) 0 fl).foldl (· ||| ·) 0

/-- Join two per-flag lane masks. -/
def orFlags (a b : List Mask) : List Mask :=
  (List.range 6).map (fun i => (a[i]?).getD 0 ||| (b[i]?).getD 0)

/-- Write the registers of one slot; a line that it writes is no longer in the image alone (log 75). -/
def commitSlot (co : Coach) (sl : Slot) : Coach :=
  let named (r : Nat) : Bool := sl.vw.any (fun w => w.1 / 64 == r) || (r == co.nregs && !sl.sw.isEmpty)
  let co := { co with out := co.out.filter (fun r => !named r) }
  let co := sl.vw.foldl (fun co w => vset co (w.1 / 64) (w.1 % 64) w.2) co
  let co := sl.sw.foldl (fun co w => sset co w.1 w.2) co
  match sl.spr with
  | some (0x13, w) => { co with fmode := w }
  | some (0x14, w) => { co with fstat := w }
  | _ => co

/-- The wait of a push: only one to a stage queue has a time-out (05 R202, R206). -/
def pushKind (q : Nat) (e : Entry) (now : Nat) : StallKind :=
  if q < 8 then .push q e (now + 8192) else .portPush q e

/-- Commit every slot: registers in issue order, then the flags; pushes enter their queues. A push that finds its queue
full is left as a stall of the whole coach (05 R202). Gives the flags raised and the state. -/
def commitAll (s : State) (k : Nat) : List Mask × State :=
  let co := coachOf s k
  let slots := co.rbuf
  let fl := slots.foldl (fun a sl => orFlags a sl.flags) [0, 0, 0, 0, 0, 0]
  let co := slots.foldl commitSlot co
  let co := { co with rbuf := [], fstat := co.fstat ||| BitVec.ofNat 32 (flagWord fl) }
  let s := setCoach s k co
  let s := slots.foldl (fun s sl =>
    match sl.push with
    | Option.none => s
    | some (q, e) =>
      match pushReg s k q e with
      | .done s => s
      | out =>
        -- an overflow slot that does not translate parks the running lanes where they stand; the push is retried
        let s := match out with
          | .xlat x va s => parkLanes s k (activeSet (coachOf s k)) va x 2 true
          | _ => s
        let kind := pushKind q e (cycleOf s (coreOf (coachOf s k)))
        modCoach s k (fun co =>
          { co with stalls := co.stalls ++ [{ lanes := BitVec.allOnes 64, ga := sl.opga, step := sl.opstep, kind := kind
                                              opLanes := sl.lanes, opword := sl.opword }] })) s
  (fl, s)

/-- A push that a commit left waits, and the whole coach with it (05 R202). -/
def commitWaits (co : Coach) : Bool := co.stalls.any (fun st => st.lanes == BitVec.allOnes 64)

/-- Every outstanding slot has returned. -/
def allReturned (co : Coach) : Bool := co.rbuf.all Slot.returned

/-! ### The trap frame (11 R405-R408) -/

/-- STATE codes of lane entries (11 R407). -/
def stateCode : LaneState → Nat
  | .running => 0
  | .sleeping => 1
  | .parked => 2
  | .joining => 3
  | .exited => 4
  | .absent => 5

/-- The 8-byte entry of a lane. -/
def laneEntry (x : Lane) : Nat :=
  if x.state = .absent then 5 * 2 ^ 61 else stateCode x.state * 2 ^ 61 + x.step % 8 * 2 ^ 57 + x.ga.toNat

/-- The frame's address. -/
def frameAddr (c : Ctx) (co : Coach) : Nat := c.framebase.toNat + 2048 * co.fslot

/-- Bytes 0-1151 of the frame. -/
def frameBytes (co : Coach) (t : Trap) (rmask : Mask) (flags skid : Nat) : List Byte :=
  let head := leBytes 1 t.cls ++ leBytes 1 t.sub ++ leBytes 1 t.step ++ leBytes 1 flags ++ leBytes 2 skid
    ++ leBytes 2 0 ++ leBytes 8 (t.tmask &&& co.all).toNat ++ leBytes 8 (rmask &&& co.all).toNat
    ++ leBytes 8 t.opword.toNat ++ leBytes 8 t.opaddr.toNat
    ++ leBytes 4 (sget co 28).toNat ++ leBytes 4 (sget co 29).toNat ++ leBytes 4 (sget co 30).toNat
    ++ leBytes 4 (sget co 31).toNat ++ leBytes 8 0
  let lanes := (List.range 64).flatMap (fun l => leBytes 8 (laneEntry (laneOf co l)))
  let body := head ++ List.replicate 64 0 ++ lanes ++ List.replicate 512 0
  t.area.foldl (fun b a => patch b a.1 (leBytes a.2.1 a.2.2)) body

/-- The handler's address (11 R409 step 4). -/
def handlerOf (c : Ctx) (cls : Nat) : Dword := if cls = 2 then c.emulent else c.trapent

/-- Classes that only halt the rake (11 R402). -/
def alwaysFatal (cls : Nat) : Bool := cls == 9 || cls == 14 || cls == 13 || cls == 16

/-- FLAGS of the frame when the trap is fatal; none when a handler takes it (11 R410). -/
def fatalFlags (c : Ctx) (co : Coach) (cls : Nat) : Option Nat :=
  if alwaysFatal cls then some (if co.inHandler && cls != 16 then 1 else 0)
  else if co.inHandler then some 1
  else if c.framebase = 0 ∨ handlerOf c cls = 0 then some 4
  else Option.none

/-- The context of a coach, if it exists. -/
def ctxOf (s : State) (co : Coach) : Option Ctx := tget s.ctxs co.ctx

/-- Move the trapping lanes to where the frame shows them (11 R402, 08 R313). -/
def movePcs (co : Coach) (t : Trap) : Coach :=
  modLanes co t.move (fun _ x => (if t.moveCounts then x.count else x).goto co.orderNext t.moveTo)

/-- The leaf bits of a page that matter to where an access is served. -/
def ucLeaf (uc : Bool) : Dword := if uc then 0x40 else 0

/-- Write frame bytes as relaxed stores of the coach. -/
def writeFrame (s : State) (k va : Nat) (bs : List Byte) : Except (Xlat × Nat) Unit × State :=
  let co := coachOf s k
  let units := coreUnits (coreOf co)
  match ownPieces s units co.ctx va bs.length .write with
  | (.error e, s) => (.error e, s)
  | (.ok ps, s) =>
    if !inOwnWorld s co.ctx ps then (.ok (), markReset s co.ctx)
    else
      (.ok (), (ps.foldl (fun (acc : List Byte × State) p =>
        (acc.1.drop p.2.1, coachWrite acc.2 k p.1 (acc.1.take p.2.1) (ucLeaf p.2.2) false false)) (bs, s)).2)

/-- The rake of a coach halts: the coach that first raises a fatal trap names the halt (11 R413). -/
def haltRake (s : State) (k : Nat) (t : Trap) (flags : Nat) : State :=
  let co := coachOf s k
  let va := if t.cls = 9 then (t.area.find? (fun a => a.1 == 72)).map (fun a => a.2.2) |>.getD 0 else 0
  modRake s co.rake (fun r =>
    if r.halt.isSome then r else { r with halt := some (co.idx, t.cls, t.sub, flags, va) })

/-- The coach stops, and its rake halts; `framed`: its frame has been written (11 R413). -/
def beginHalt (s : State) (k : Nat) (t : Trap) (flags : Nat) (framed : Bool) : State :=
  haltRake (modCoach (coachFence s k) k (fun c =>
    { c with trap := Option.none, halted := some (t.cls, t.sub), framed := framed, commitPush := t.commit
             entryLanes := if c.inHandler then c.entryLanes else c.lanes })) k t flags

/-- A coach waits for the page of its frame: its trap stays pending, and `parked` lanes park (11 R409, R510). Where the fault
finds no room, the entry is retried (11 R423). -/
def awaitFrame (s : State) (k : Nat) (t : Trap) (va : Nat) (e : XErr) (parked : Mask) : State :=
  let co := coachOf s k
  if !faultRoom s co.ctx (va / 4096) (coreOf co) then
    modCoach s k (fun c => { c with trap := some { t with wait := Option.none, room := some (va / 4096) } })
  else
    let (f, s) := coachFault s co va e 2 (if parked = 0 then 1 else 0)
    parkLanes (modCoach s k (fun c => { c with trap := some { t with wait := some f, room := Option.none } })) k parked va e 2 true

/-- Set NESTED in the frame of the outer trap (11 R410): FLAGS as they then stand. -/
def nestFrame (s : State) (k va : Nat) : Except (Xlat × Nat) Nat × State :=
  let co := coachOf s k
  match ownPieces s (coreUnits (coreOf co)) co.ctx va 1 .write with
  | (.error e, s) => (.error e, s)
  | (.ok ps, s) =>
    let leaf := ucLeaf ((ps.head?).any (fun p => p.2.2))
    let pa := ((ps.head?).map (fun p => p.1)).getD 0
    let (bs, s) := coachRead s k pa 1 leaf false false
    match poisonAt s (coachPath s co leaf false false).unit pa 1 with
    | some line => (.error (.error line false, va), s)
    | Option.none =>
      let fl := leNat bs ||| 1
      match writeFrame s k va (leBytes 1 fl) with
      | (.ok _, s) => (.ok fl, s)
      | (.error e, s) => (.error e, s)

/-- A fatal trap of a coach whose return buffer is committed: its frame is written and the rake halts. A nested trap
leaves the frame of the outer trap, with NESTED set (11 R410); so does HALTED in a handler (11 R415). A frame that does not
translate is waited for, while the halt goes on in the other coaches (11 R510). -/
def fatalTrap (s : State) (k : Nat) (t : Trap) (flags : Nat) : State :=
  let co := coachOf s k
  match ctxOf s co with
  | Option.none => s
  | some c =>
    let rm := (t.rmask).getD (activeSet co)
    if c.framebase = 0 ∨ (t.cls = 16 ∧ co.inHandler = true) then
      beginHalt (setCoach s k (movePcs co t)) k t flags false
    else
      let va := frameAddr c co
      -- a QFULL frame has QRETRY (11 R411)
      let whole := if t.cls = 8 then flags ||| 2 else flags
      let out : Except (Xlat × Nat) Nat × State :=
        if flags % 2 = 1 then nestFrame s k (va + 3)
        else match writeFrame s k va (frameBytes (movePcs co t) t rm whole (if t.cls = 16 then co.skid else 0)) with
          | (.ok _, s) => (.ok whole, s)
          | (.error e, s) => (.error e, s)
      match out with
      | (.ok fl, s) => beginHalt (modCoach s k (fun c => movePcs c t)) k t fl true
      | (.error (.fault x, va), s) => haltRake (awaitFrame s k { t with rmask := some rm } va x 0) k t whole
      | (.error (.error pa _, _), s) =>
        beginHalt (logError s srcDram 3 (homeDie pa) pa (some co.ctx) (some c.world) (some (coreOf co / 8 % 10))) k t whole false
      | (.error _, s) => beginHalt s k t whole false

/-- A stall whose work cannot be made again by issuing its operation once more: a completed pop, or a push (log 40). -/
def stallKept : StallKind → Bool
  | .pop _ got => got.isSome
  | .push .. => true
  | .portPush .. => true
  | .batches _ last => last
  | _ => false

/-- Enter the handler of a pending trap (11 R409), the return buffer being committed. -/
def enterHandler (s : State) (k : Nat) (t : Trap) : State :=
  let co := coachOf s k
  match ctxOf s co with
  | Option.none => s
  | some c =>
    match fatalFlags c co t.cls with
    | some fl => fatalTrap s k t fl
    | Option.none =>
      let rm := (t.rmask).getD (activeSet co)
      let co' := movePcs co t
      let va := frameAddr c co
      match writeFrame s k va (frameBytes co' t rm (if t.cls = 8 then 2 else 0) 0) with
      | (.error (.fault x, va), s) =>
        awaitFrame s k { t with rmask := some rm } va x rm
      | (.error _, s) => modCoach s k (fun c => { c with trap := some t })
      | (.ok _, s) =>
        let h := (handlerOf c t.cls).extractLsb' 0 57
        modCoach s k (fun co =>
          let co := movePcs co t
          let co := sset co 30 (BitVec.ofNat 32 va)
          let co := sset co 31 (BitVec.ofNat 32 (va / 2 ^ 32))
          let co := sset co 28 (BitVec.ofNat 32 (t.cls + 256 * t.sub + 65536 * t.step))
          let co := sset co 29 0
          let entry := co.lanes
          let co := modLanes co rm (fun _ x => ({ x with state := .running, wait := .none }).goto co.orderNext h)
          let (held, rest) := co.stalls.partition (fun st => st.lanes != BitVec.allOnes 64 && stallKept st.kind)
          let (coach, _) := rest.partition (fun st => st.lanes == BitVec.allOnes 64)
          { co with trap := Option.none, inHandler := true, rmask := rm, entryLanes := entry, commitPush := t.commit
                    heldStalls := held, stalls := coach })

/-- An FPE trap for flags raised in lanes (03 R95, 11 R408). -/
def fpeTrap (bits : Nat) (lanes : Mask) (opword : Dword) (opaddr : GAddr) (step : Nat) : Trap :=
  { cls := 5, sub := 0, step := step, tmask := lanes, rmask := Option.none, move := 0, moveTo := 0
    moveCounts := false, opword := opword, opaddr := opaddr, area := [(64, 1, bits)] }

/-- The FPE that a commit raises, if any (03 R95): it names the oldest slot that raised an enabled flag. -/
def commitFpe (co : Coach) (slots : List Slot) (fl : List Mask) : Option Trap :=
  let bits := enabledBits co.fmode fl
  if bits = 0 then Option.none
  else
    match slots.find? (fun sl => enabledBits co.fmode sl.flags != 0) with
    | Option.none => Option.none
    | some sl => some (fpeTrap bits (enabledLanes co.fmode fl) sl.opword sl.opga sl.opstep)

/-- The trap to enter after the commit of 11 R409 step 1. -/
def afterCommit (t : Trap) (fpe : Option Trap) : Trap :=
  match fpe with
  | Option.none => t
  | some f =>
    if t.cls = 5 then
      let old := (t.area.find? (fun a => a.1 == 64)).map (fun a => a.2.2) |>.getD 0
      let new := (f.area.find? (fun a => a.1 == 64)).map (fun a => a.2.2) |>.getD 0
      { t with area := [(64, 1, old ||| new)], tmask := t.tmask ||| f.tmask }
    else f

/-- Drop the slots whose tile can make no progress (11 R409). -/
def dropStuck (s : State) (co : Coach) : Coach :=
  { co with rbuf := co.rbuf.filter (fun sl => !slotStuck s sl) }

/-- TAKING A TRAP (11 R409, R410): the pending trap of a coach is entered when its return buffer can be committed, pushes
included (log 73); until then it stays pending and the coach issues nothing. -/
def takeTrap (s : State) (k : Nat) : State :=
  let co := coachOf s k
  match co.trap with
  | Option.none => s
  | some t =>
    let co := dropStuck s co
    let s := setCoach s k co
    if !allReturned co || commitWaits co then s
    else
      let slots := co.rbuf
      let (fl, s) := commitAll s k
      let co := coachOf s k
      let fatal := match ctxOf s co with
        | some c => (fatalFlags c co t.cls).isSome
        | Option.none => true
      let t := if fatal then t else afterCommit t (commitFpe co slots fl)
      let s := modCoach s k (fun c => { c with trap := some t })
      if commitWaits co then s else enterHandler s k t

/-- Raise a trap: it becomes pending and is taken at once if it can be. -/
def raiseTrap (s : State) (k : Nat) (t : Trap) : State :=
  takeTrap (modCoach s k (fun c => { c with trap := some t, pair := Option.none, resume := Option.none })) k

/-- A trap of the operation in the latch. `enabled` lanes of an expansion stand at (G, 0) in the frame (08 R313). -/
def opTrap (i : Iss) (cls sub : Nat) (lanes enabled : Mask) (area : List (Nat × Nat × Nat)) : Trap :=
  { cls := cls, sub := sub, step := i.step, tmask := lanes, rmask := Option.none
    move := if i.step = 0 then 0 else enabled, moveTo := i.ga, moveCounts := false
    opword := i.word, opaddr := i.ga, area := area }

/-- ILLEGAL subtypes (11 R403). -/
def iOpcode : Nat := 1
def iFormat : Nat := 2
def iRsvd : Nat := 3
def iType : Nat := 4
def iRound : Nat := 5
def iOrder : Nat := 6
def iScope : Nat := 7
def iOperand : Nat := 8
def iReg : Nat := 9
def iPair : Nat := 10
def iQunbound : Nat := 11
def iHandle : Nat := 12
def iSpr : Nat := 13
def iSprro : Nat := 14
def iRstack : Nat := 15
def iJoin : Nat := 16
def iTret : Nat := 17
def iTile : Nat := 18
def iVersion : Nat := 19
def iMdesc : Nat := 20
def iLease : Nat := 21
def iZone : Nat := 22
def iSysreg : Nat := 23
def iTag : Nat := 24
def iEngine : Nat := 25
def iQempty : Nat := 26
def iNoemul : Nat := 27

/-- Raise ILLEGAL at the operation in the latch: the failing operand field, 0xFF for none (11 R408). A marked operation
under the never predicate has no enabled lane (02 R61): its group takes the trap. -/
def illegal (s : State) (lanes : Mask) (sub fieldNo : Nat) : State :=
  let lanes := if lanes = 0 then s.iss.group else lanes
  raiseTrap s s.iss.coach (opTrap s.iss 1 sub lanes lanes [(64, 1, fieldNo)])

end Sys2Proof.Machine
end

