-- ==== Sys2Proof/Machine/Sha.lean ====
section
/-! DEFINITION. SHA-384, which 01 R31, 12 R458 and 15 R499 name (log 12: the algorithm is that of FIPS 180-4). The constants
are computed from the primes that define them, not listed. -/
namespace Sys2Proof.Machine

/-- The largest r with r ^ e ≤ n that keeps the bits above bit b, found from bit b - 1 down. -/
def rootFrom (e n : Nat) : Nat → Nat → Nat
  | 0, r => r
  | b + 1, r => rootFrom e n b (if (r + 2 ^ b) ^ e ≤ n then r + 2 ^ b else r)

/-- The first 64 bits of the fractional part of the e-th root of a prime below 512. -/
def rootFraction (e p : Nat) : Dword := BitVec.ofNat 64 (rootFrom e (p * 2 ^ (64 * e)) 69 0)

/-- The primes below 410, of which there are 80. -/
def primesBelow410 : List Nat := (List.range 410).filter (fun n => 1 < n && (List.range 20).all (fun d => d < 2 || n ≤ d || n % d != 0))

/-- The round constants, from cube roots; the initial hash value, from square roots of the ninth to the sixteenth prime. -/
def shaK : List Dword := primesBelow410.map (rootFraction 3)
def shaInit : List Dword := ((primesBelow410.drop 8).take 8).map (rootFraction 2)

/-- A big-endian word from eight bytes. -/
def beWord (bs : List Byte) : Dword := BitVec.ofNat 64 (leNat bs.reverse)
/-- The eight bytes of a word, highest first. -/
def beBytes (w : Dword) : List Byte := (leBytes 8 w.toNat).reverse

/-- The exclusive or of the rotations of a word by the listed amounts. -/
def xorRots (amounts : List Nat) (w : Dword) : Dword := amounts.foldl (fun acc n => acc ^^^ w.rotateRight n) 0

/-- The schedule, newest word first: each further word is made of the words 2, 7, 15 and 16 before it. -/
def shaSchedule : Nat → List Dword → List Dword
  | 0, ws => ws
  | n + 1, ws =>
    let back (i : Nat) : Dword := (ws[i - 1]?).getD 0
    let low := xorRots [1, 8] (back 15) ^^^ (back 15 >>> 7)
    let high := xorRots [19, 61] (back 2) ^^^ (back 2 >>> 6)
    shaSchedule n ((back 16 + low + back 7 + high) :: ws)

/-- One round on the eight working words, with the sum of its constant and its schedule word. -/
def shaRound (v : List Dword) (kw : Dword) : List Dword :=
  let at' (i : Nat) : Dword := (v[i]?).getD 0
  let choice := at' 6 ^^^ (at' 4 &&& (at' 5 ^^^ at' 6))
  let major := (at' 0 &&& at' 1) ||| (at' 2 &&& (at' 0 ||| at' 1))
  let t := kw + at' 7 + choice + xorRots [14, 18, 41] (at' 4)
  (t + major + xorRots [28, 34, 39] (at' 0)) :: v.take 3 ++ (at' 3 + t) :: (v.drop 4).take 3

/-- One block of 128 bytes. -/
def shaBlock (h : List Dword) (block : List Byte) : List Dword :=
  let ws := (shaSchedule 64 ((chunks 8 16 block).map beWord).reverse).reverse
  List.zipWith (· + ·) h ((List.zipWith (· + ·) shaK ws).foldl shaRound h)

/-- Padding: 0x80, zeros, and the length in bits as 16 bytes, highest first. -/
def shaPad (m : List Byte) : List Byte :=
  let z := (239 - m.length % 128) % 128
  m ++ [0x80] ++ List.replicate z 0 ++ (leBytes 16 (8 * m.length)).reverse

/-- The 48 digest bytes. -/
def sha384 (m : List Byte) : List Byte :=
  let p := shaPad m
  (((chunks 128 (p.length / 128) p).foldl shaBlock shaInit).flatMap beBytes).take 48

end Sys2Proof.Machine
end

