-- ==== Sys2Proof/Machine/Aes.lean ====
section
/-! DEFINITION. AES-256 and the modes that the spec names: GCM and GMAC (07 R278, 12 R446), XTS (12 R444, R446), RFC 3394
key wrap and HKDF-SHA-384 (12 R446, R451). The spec names the standards; their text is PRESUMED (log 12). -/
namespace Sys2Proof.Machine

/-! ### AES-256 (FIPS 197) -/

/-- Multiplication by x in GF(2^8). -/
def xtime (a : Nat) : Nat := if a < 128 then 2 * a else Nat.xor (2 * a) 0x11B

/-- Multiplication in GF(2^8); `n` bits of `b` are used. -/
def gfMul : Nat → Nat → Nat → Nat
  | 0, _, _ => 0
  | n + 1, a, b => Nat.xor (if b % 2 = 1 then a else 0) (gfMul n (xtime a) (b / 2))

/-- The inverse in GF(2^8): the 254th power. -/
def gfInv (a : Nat) : Nat :=
  let sq (x : Nat) : Nat := gfMul 8 x x
  let a2 := sq a
  let a3 := gfMul 8 a2 a
  let a6 := sq a3
  let a12 := sq a6
  let a15 := gfMul 8 a12 a3
  let a240 := sq (sq (sq (sq a15)))
  gfMul 8 (gfMul 8 a240 a12) a2

/-- The S-box of one byte. -/
def sboxOf (a : Nat) : Nat :=
  let b := gfInv a
  let rot (k : Nat) : Nat := (b * 2 ^ k) % 256 + b / 2 ^ (8 - k)
  Nat.xor (Nat.xor (Nat.xor b (rot 1)) (Nat.xor (rot 2) (rot 3))) (Nat.xor (rot 4) 0x63)

/-- The S-box, and its inverse. -/
def sboxTable : List Nat := (List.range 256).map sboxOf
def invSboxTable : List Nat := (List.range 256).map (fun y => ((List.range 256).find? (fun x => sboxTable[x]? == some y)).getD 0)
def subByte (a : Nat) : Nat := (sboxTable[a]?).getD 0
def invSubByte (a : Nat) : Nat := (invSboxTable[a]?).getD 0

/-- Byte-wise sum of two blocks. -/
def xorBytes (a b : List Nat) : List Nat := List.zipWith Nat.xor a b

/-- The next words of the key schedule; words are four bytes, newest first. -/
def expandKey : Nat → Nat → Nat → List (List Nat) → List (List Nat)
  | 0, _, _, ws => ws
  | fuel + 1, i, rcon, ws =>
    let prev := (ws.head?).getD []
    let old := (ws[7]?).getD []
    let t :=
      if i % 8 = 0 then xorBytes ((prev.drop 1 ++ prev.take 1).map subByte) [rcon, 0, 0, 0]
      else if i % 8 = 4 then prev.map subByte
      else prev
    expandKey fuel (i + 1) (if i % 8 = 0 then xtime rcon else rcon) (xorBytes old t :: ws)

/-- The 15 round keys of a 32-byte key. -/
def roundKeys (key : List Nat) : List (List Nat) :=
  let ws := (expandKey 52 8 1 ((chunks 4 8 key).reverse)).reverse
  (chunks 4 15 ws).map (fun r => r.flatten)

def shiftRows (b : List Nat) : List Nat := (List.range 16).map (fun i => (b[(i + 4 * (i % 4)) % 16]?).getD 0)
def invShiftRows (b : List Nat) : List Nat := (List.range 16).map (fun i => (b[(i + 12 * (i % 4)) % 16]?).getD 0)

/-- Multiply each column by a circulant matrix with this first row. -/
def mixWith (row : List Nat) (b : List Nat) : List Nat :=
  (List.range 16).map (fun i =>
    (List.range 4).foldl (fun a j => Nat.xor a (gfMul 8 ((b[i / 4 * 4 + j]?).getD 0) ((row[(j + 4 - i % 4) % 4]?).getD 0))) 0)

def aesRounds : List (List Nat) → List Nat → List Nat
  | [], b => b
  | [k], b => xorBytes (shiftRows (b.map subByte)) k
  | k :: ks, b => aesRounds ks (xorBytes (mixWith [2, 3, 1, 1] (shiftRows (b.map subByte))) k)

/-- Encrypt one block under round keys. -/
def aesEnc (rk : List (List Nat)) (b : List Nat) : List Nat := aesRounds (rk.drop 1) (xorBytes b ((rk.head?).getD []))

/-- The inverse rounds under round keys from the last but one down to the first. -/
def invRounds : List (List Nat) → List Nat → List Nat
  | [], b => b
  | [k], b => xorBytes ((invShiftRows b).map invSubByte) k
  | k :: ks, b => invRounds ks (mixWith [14, 11, 13, 9] (xorBytes ((invShiftRows b).map invSubByte) k))

/-- Decrypt one block. -/
def aesDec (rk : List (List Nat)) (b : List Nat) : List Nat :=
  let r := rk.reverse
  invRounds (r.drop 1) (xorBytes b ((r.head?).getD []))

/-! ### Blocks as numbers -/

/-- A big-endian number of bytes, and its `n` bytes. -/
def beNat (bs : List Nat) : Nat := bs.foldl (fun a b => a * 256 + b) 0
def beNats (n v : Nat) : List Nat := (List.range n).map (fun i => v / 256 ^ (n - 1 - i) % 256)

/-- Bytes as numbers, and back. -/
def toNats (bs : List Byte) : List Nat := bs.map BitVec.toNat
def toBytes (ns : List Nat) : List Byte := ns.map (BitVec.ofNat 8)

/-! ### GCM (NIST SP 800-38D) -/

/-- Multiplication in the field of GHASH; the first bit of a block is its highest. -/
def ghashMul : Nat → Nat → Nat → Nat → Nat
  | 0, z, _, _ => z
  | n + 1, z, v, x =>
    ghashMul n (if x.testBit n then Nat.xor z v else z)
      (if v % 2 = 1 then Nat.xor (v / 2) (0xE1 * 2 ^ 120) else v / 2) x

/-- Bytes padded with zeros to whole blocks. -/
def padBlocks (bs : List Nat) : List (List Nat) :=
  (chunks 16 (bs.length / 16 + 1) bs).map (fun c => c ++ List.replicate (16 - c.length) 0)

def ghash (h : Nat) (blocks : List (List Nat)) : Nat :=
  blocks.foldl (fun y b => ghashMul 128 0 h (Nat.xor y (beNat b))) 0

/-- The key stream on blocks, from a counter value up. -/
def gcmCtr (rk : List (List Nat)) (iv : List Nat) : Nat → List (List Nat) → List Nat
  | _, [] => []
  | n, b :: bs => xorBytes b (aesEnc rk (iv ++ beNats 4 n)) ++ gcmCtr rk iv (n + 1) bs

/-- The tag of additional data and a ciphertext. -/
def gcmTag (rk : List (List Nat)) (iv aad cipher : List Nat) : List Nat :=
  let h := beNat (aesEnc rk (List.replicate 16 0))
  let y := ghash h (padBlocks aad ++ padBlocks cipher ++ [beNats 8 (8 * aad.length) ++ beNats 8 (8 * cipher.length)])
  xorBytes (beNats 16 y) (aesEnc rk (iv ++ [0, 0, 0, 1]))

/-- Decrypt and authenticate: none when the tag differs. -/
def gcmOpen (key iv aad cipher tag : List Nat) : Option (List Nat) :=
  let rk := roundKeys key
  if gcmTag rk iv aad cipher = tag then some (gcmCtr rk iv 2 (chunks 16 (cipher.length / 16 + 1) cipher)) else none

/-! ### XTS (IEEE 1619) -/

/-- Multiplication of the tweak by its primitive element; the tweak is a little-endian number. -/
def xtsNext (t : Nat) : Nat := if t < 2 ^ 127 then 2 * t else Nat.xor (2 * t - 2 ^ 128) 0x87

/-- The blocks of one data unit under a block cipher and the encrypted tweak. -/
def xtsBlocks (f : List Nat → List Nat) : Nat → List (List Nat) → List Nat
  | _, [] => []
  | t, b :: bs =>
    let tb := (leBytes 16 t).map BitVec.toNat
    xorBytes (f (xorBytes b tb)) tb ++ xtsBlocks f (xtsNext t) bs

/-- The encrypted tweak of a data unit. -/
def xtsTweak (key : List Nat) (unit : Nat) : Nat :=
  leNat (toBytes (aesEnc (roundKeys (key.drop 32)) ((leBytes 16 unit).map BitVec.toNat)))

/-- Encrypt or decrypt a data unit under a 64-byte key pair. -/
def xtsEnc (key : List Nat) (unit : Nat) (bs : List Nat) : List Nat :=
  xtsBlocks (aesEnc (roundKeys (key.take 32))) (xtsTweak key unit) (chunks 16 4 bs)
def xtsDec (key : List Nat) (unit : Nat) (bs : List Nat) : List Nat :=
  xtsBlocks (aesDec (roundKeys (key.take 32))) (xtsTweak key unit) (chunks 16 4 bs)

/-! ### Key wrap (RFC 3394) -/

/-- One step of the unwrap: the check value and the four key words. -/
def unwrapStep (rk : List (List Nat)) (t : Nat) (st : List Nat × List (List Nat)) : List Nat × List (List Nat) :=
  let i := (t - 1) % 4
  let b := aesDec rk (xorBytes st.1 (beNats 8 t) ++ (st.2[i]?).getD [])
  (b.take 8, setAt st.2 i (b.drop 8))

/-- Unwrap a 40-byte key: none when the check value is wrong. -/
def keyUnwrap (kek wrapped : List Nat) : Option (List Nat) :=
  let rk := roundKeys kek
  let parts := chunks 8 5 wrapped
  let st := (List.range 24).foldl (fun st i => unwrapStep rk (24 - i) st) ((parts.head?).getD [], parts.drop 1)
  if st.1 = List.replicate 8 0xA6 then some st.2.flatten else none

/-! ### HKDF-SHA-384 (RFC 5869) -/

/-- HMAC with SHA-384; keys of at most 128 bytes. -/
def hmac384 (key msg : List Nat) : List Nat :=
  let k := key ++ List.replicate (128 - key.length) 0
  let inner := sha384 (toBytes (k.map (Nat.xor 0x36) ++ msg))
  toNats (sha384 (toBytes (k.map (Nat.xor 0x5C) ++ toNats inner)))

/-- 32 bytes of key material with an empty salt. -/
def hkdf384 (ikm info : List Nat) : List Nat :=
  (hmac384 (hmac384 (List.replicate 48 0) ikm) (info ++ [1])).take 32

end Sys2Proof.Machine
end

