-- ==== Sys2Proof/Machine/Sign.lean ====
section
/-! DEFINITION. The signatures of hallmark records (12 R450, R463): ECDSA P-384 with SHA-384 and the nonce of RFC 6979, and pure
Ed25519 (RFC 8032). The spec names the standards; their text is PRESUMED (log 12). The private keys are free values (log 11). -/
namespace Sys2Proof.Machine

/-! ### Numbers modulo a prime -/

/-- b ^ e modulo m; the first argument bounds the bits of e. -/
def powMod (m : Nat) : Nat → Nat → Nat → Nat
  | 0, _, _ => 1 % m
  | n + 1, b, e =>
    let h := powMod m n (b * b % m) (e / 2)
    if e % 2 = 1 then b * h % m else h

/-- The inverse modulo a prime. -/
def invMod (m a : Nat) : Nat := powMod m 640 (a % m) (m - 2)
/-- The difference modulo m. -/
def subMod (m a b : Nat) : Nat := (a + (m - b % m)) % m

/-- The number of big-endian bytes, and back. -/
def beNumber (bs : List Nat) : Nat := bs.foldl (fun a b => a * 256 + b) 0
def beOctets (n v : Nat) : List Nat := (List.range n).map (fun i => v / 256 ^ (n - 1 - i) % 256)

/-! ### P-384 (FIPS 186-5) -/

def p384 : Nat := 2 ^ 384 - 2 ^ 128 - 2 ^ 96 + 2 ^ 32 - 1
def n384 : Nat := 0xFFFFFFFFFFFFFFFFFFFFFFFFFFFFFFFFFFFFFFFFFFFFFFFFC7634D81F4372DDF581A0DB248B0A77AECEC196ACCC52973
def g384 : Nat × Nat × Nat :=
  (0xAA87CA22BE8B05378EB1C71EF320AD746E1D3B628BA79B9859F741E082542A385502F25DBF55296C3A545E3872760AB7,
   0x3617DE4A96262C6F5D9E98BF9292DC29F8F41DBD289A147CE9DA3113B5F0B8C00A60B1CE1D7E819D7A431D7C90EA0E5F, 1)

/-- Twice a point in Jacobian coordinates; Z = 0 is the point at infinity. -/
def double384 (a : Nat × Nat × Nat) : Nat × Nat × Nat :=
  let (x, y, z) := a
  let d := z * z % p384
  let g := y * y % p384
  let b := x * g % p384
  let al := 3 * (subMod p384 x d) * (x + d) % p384
  let x3 := subMod p384 (al * al) (8 * b)
  let z3 := subMod p384 (subMod p384 ((y + z) * (y + z)) g) d
  (x3, subMod p384 (al * subMod p384 (4 * b) x3) (8 * g * g), z3)

/-- The sum of two points. -/
def add384 (a b : Nat × Nat × Nat) : Nat × Nat × Nat :=
  let (x1, y1, z1) := a
  let (x2, y2, z2) := b
  if z1 = 0 then b
  else if z2 = 0 then a
  else
    let u1 := x1 * z2 * z2 % p384
    let u2 := x2 * z1 * z1 % p384
    let s1 := y1 * z2 * z2 * z2 % p384
    let s2 := y2 * z1 * z1 * z1 % p384
    if u1 = u2 then (if s1 = s2 then double384 a else (1, 1, 0))
    else
      let h := subMod p384 u2 u1
      let r := subMod p384 s2 s1
      let h2 := h * h % p384
      let h3 := h2 * h % p384
      let v := u1 * h2 % p384
      let x3 := subMod p384 (subMod p384 (r * r) h3) (2 * v)
      (x3, subMod p384 (r * subMod p384 v x3) (s1 * h3), z1 * z2 * h % p384)

/-- k times a point; the first argument bounds the bits of k. -/
def mul384 (a : Nat × Nat × Nat) : Nat → Nat → Nat × Nat × Nat
  | 0, _ => (1, 1, 0)
  | n + 1, k =>
    let h := double384 (mul384 a n (k / 2))
    if k % 2 = 1 then add384 h a else h

/-- The affine x of a point. -/
def x384 (a : Nat × Nat × Nat) : Nat :=
  let zi := invMod p384 a.2.2
  a.1 * zi * zi % p384

/-! ### ECDSA with the nonce of RFC 6979 -/

/-- A private key from a number: 1 to n - 1. -/
def ecdsaKey (v : Nat) : Nat := v % (n384 - 1) + 1

/-- Search for the nonce from the state K, V: the signature r, s. -/
def ecdsaFrom (d e : Nat) : Nat → List Nat → List Nat → Nat × Nat
  | 0, _, _ => (0, 0)
  | n + 1, k, v =>
    let v := hmac384 k v
    let x := beNumber v
    let r := x384 (mul384 g384 384 x) % n384
    let s := invMod n384 x * (e + r * d) % n384
    if 0 < x ∧ x < n384 ∧ r ≠ 0 ∧ s ≠ 0 then (r, s)
    else
      let k := hmac384 k (v ++ [0])
      ecdsaFrom d e n k (hmac384 k v)

/-- The signature of a message under a private key: r, then s, 48 bytes each, big-endian (12 R462). -/
def ecdsa384 (d : Nat) (msg : List Byte) : List Byte :=
  let e := beNumber (toNats (sha384 msg))
  let seed := beOctets 48 d ++ beOctets 48 (e % n384)
  let v0 := List.replicate 48 1
  let k1 := hmac384 (List.replicate 48 0) (v0 ++ [0] ++ seed)
  let v1 := hmac384 k1 v0
  let k2 := hmac384 k1 (v1 ++ [1] ++ seed)
  let sig := ecdsaFrom d e 64 k2 (hmac384 k2 v1)
  toBytes (beOctets 48 sig.1 ++ beOctets 48 sig.2)

/-! ### Ed25519 (RFC 8032) -/

/-- SHA-512: as SHA-384, from the square roots of the first eight primes, with all 64 digest bytes. -/
def sha512 (m : List Byte) : List Byte :=
  let p := shaPad m
  ((chunks 128 (p.length / 128) p).foldl shaBlock ((primesBelow410.take 8).map (rootFraction 2))).flatMap beBytes

def p25519 : Nat := 2 ^ 255 - 19
def l25519 : Nat := 2 ^ 252 + 27742317777372353535851937790883648493
def d25519 : Nat := subMod p25519 0 (121665 * invMod p25519 121666)
def b25519 : Nat × Nat × Nat :=
  (15112221349535400772501151409588531511454012693041857206046113283949847762202,
   46316835694926478169428394003475163141307993866256225615783033603165251855960, 1)

/-- The sum of two points of the curve in projective coordinates; it is complete. -/
def addEd (d : Nat) (u v : Nat × Nat × Nat) : Nat × Nat × Nat :=
  let (x1, y1, z1) := u
  let (x2, y2, z2) := v
  let a := z1 * z2 % p25519
  let b := a * a % p25519
  let c := x1 * x2 % p25519
  let dd := y1 * y2 % p25519
  let e := d * c % p25519 * dd % p25519
  let f := subMod p25519 b e
  let g := (b + e) % p25519
  (a * f % p25519 * (x1 * y2 + x2 * y1) % p25519, a * g % p25519 * (dd + c) % p25519, f * g % p25519)

/-- k times a point; the first argument bounds the bits of k. -/
def mulEd (d : Nat) (a : Nat × Nat × Nat) : Nat → Nat → Nat × Nat × Nat
  | 0, _ => (0, 1, 1)
  | n + 1, k =>
    let h := mulEd d a n (k / 2)
    let h := addEd d h h
    if k % 2 = 1 then addEd d h a else h

/-- The 32 bytes of a point: y, and the parity of x in the top bit. -/
def encodeEd (a : Nat × Nat × Nat) : List Byte :=
  let zi := invMod p25519 a.2.2
  leBytes 32 (a.2.1 * zi % p25519 + a.1 * zi % p25519 % 2 * 2 ^ 255)

/-- The signature of a message under a 32-byte seed. -/
def ed25519 (seed msg : List Byte) : List Byte :=
  let d := d25519
  let h := sha512 seed
  let a := leNat (h.take 32) % 2 ^ 254 / 8 * 8 + 2 ^ 254
  let prefix_ := h.drop 32
  let pub := encodeEd (mulEd d b25519 256 a)
  let r := leNat (sha512 (prefix_ ++ msg)) % l25519
  let rr := encodeEd (mulEd d b25519 256 r)
  let k := leNat (sha512 (rr ++ pub ++ msg)) % l25519
  rr ++ leBytes 32 ((r + k * a) % l25519)

end Sys2Proof.Machine
end

