-- ==== Sys2Proof/Machine/Records.lean ====
section
/-! DEFINITION. Hallmark records and void sessions (12 R460-R463), and work that waits on a fault (11 R510). -/
namespace Sys2Proof.Machine

/-- The cluster number of a fault entry of the front-ends and engines, which belong to no cluster (log 18). -/
def noCluster : Nat := 255

/-- Open a fault entry for the Damith's own access, and let work wait on it. -/
def waitFault (s : State) (ctx va region die : Nat) (version : Word) (e : XErr) (acc : Nat) : Nat × State :=
  joinFault s ctx (va / 4096) die noCluster region version e (acc ||| (if e.walk then 32 else 0)) 1

/-- Add work that waits on a fault entry. -/
def addPend (s : State) (f : Nat) (p : Pend) : State := { s with pending := s.pending ++ [(f, p)] }

/-- Hallmark sessions by die and COUNT. -/
def sessionKey (die count : Nat) : Nat := die * 2 ^ 32 + count

/-- The world is covered by a debug token (12 R453). -/
def worldCovered (s : State) (w : Nat) : Bool := ((tget s.worlds w).map World.covered).getD false

/-- Bytes 0-159 of a record (12 R462). -/
def recordHead (s : State) (se : Session) (status cause : Nat) (digest : List Byte) : List Byte :=
  leBytes 4 0x4B4C4148 ++ leBytes 1 1 ++ leBytes 1 se.alg ++ leBytes 1 s.portil.keyid.toNat ++ leBytes 1 se.die
  ++ leBytes 8 se.number.toNat ++ leBytes 4 se.ctx ++ leBytes 2 se.world
  ++ leBytes 1 (if se.debug || worldCovered s se.world then 1 else 0) ++ List.replicate 41 0
  ++ leBytes 1 status ++ leBytes 1 cause ++ leBytes 2 0 ++ leBytes 4 se.label.toNat ++ leBytes 8 se.data.length
  ++ leBytes 4 se.version.toNat ++ leBytes 4 0 ++ leBytes 8 se.sig.toNat ++ digest ++ List.replicate 16 0

/-- The whole record: the signature of the current generation fills bytes 160-255, or 160-223 for Ed25519 (12 R450, R462,
R463). -/
def recordBytes (s : State) (se : Session) (status cause : Nat) (digest : List Byte) : List Byte :=
  let head := recordHead s se status cause digest
  head ++ (if se.alg = 1 then ed25519 (leBytes 32 (Config.hallmarkEd25519 s.portil.keyid).toNat) head ++ List.replicate 32 0
    else ecdsa384 (ecdsaKey (Config.hallmarkEcdsa s.portil.keyid)) head)

/-- Forget a session. -/
def forgetSession (s : State) (key : Nat) : State := { s with sessions := tdel s.sessions key }

/-- A response word of a port, if it is still open. -/
def respond (s : State) (port : Option (Nat × Bool)) (w : Word) : State :=
  match port with
  | none => s
  | some (pk, ign) =>
    let w := if ign then w ||| 0x00800000 else w
    { s with ports := tmod s.ports pk (fun p => { p with resps := p.resps ++ [w], due := p.due - 1 }) }

/-- No record can be written (12 R461): a CLOSE being served answers FAULT, and a later CLOSE will. -/
def loseRecord (s : State) (key : Nat) : State :=
  match tget s.sessions key with
  | none => s
  | some se =>
    if se.void_.isSome then { s with sessions := tput s.sessions key { se with void_ := some 0, recorded := true } }
    else forgetSession (respond s se.closing 0x03000007) key

/-- Write the record of a session: SEALED when it is not void, and then the CLOSE is answered; else INCOMPLETE with its
cause. A fault waits for the driver. -/
def writeRecord (s : State) (key : Nat) : State :=
  match tget s.sessions key with
  | none => s
  | some se =>
    let bytes := match se.void_ with
      | none => recordBytes s se 0 0 (sha384 se.data)
      | some cause => recordBytes s se 1 cause (List.replicate 48 0)
    match ownWriteV s (dieUnits se.die) se.ctx se.recAddr bytes with
    | (.ok _, s) =>
      if se.void_.isSome then { s with sessions := tput s.sessions key { se with recorded := true } }
      else forgetSession (respond s se.closing 0x03000000) key
    | (.error (.fault x, va), s) =>
      let (f, s) := waitFault s se.ctx va 0 se.die se.version x 2
      addPend s f (.record key)
    | (.error (.error pa _, _), s) => loseRecord (logError s srcDram 1 (homeDie pa) pa (some se.ctx) (some se.world) none) key
    | (.error _, s) => s

/-- The signing unit of a die that works for a session. -/
def isSigning (s : State) (die key : Nat) : Bool := (tgetD [] s.signing die).contains key

/-- A signature is complete: its unit is free, and the record is written. -/
def finishClose (s : State) (die key : Nat) : State :=
  writeRecord { s with signing := tmod s.signing die (fun l => l.filter (· != key)) } key

/-- A session becomes void at the first event (12 R460): its INCOMPLETE record is written. A session whose CLOSE has been
taken is sealed (12 R461): its record is written by then. -/
def voidSession (s : State) (key cause : Nat) : State :=
  match tget s.sessions key with
  | none => s
  | some se =>
    if se.void_.isSome ∨ se.recorded = true then s
    else if isSigning s se.die key then finishClose s se.die key
    else if s.pending.any (fun p => p.2 == .record key) then s
    else writeRecord { s with sessions := tput s.sessions key { se with void_ := some cause } } key

/-- Void every session that a condition selects. -/
def voidSessions (s : State) (sel : Session → Bool) (cause : Nat) : State :=
  s.sessions.foldl (fun s e => if sel e.2 then voidSession s e.1 cause else s) s

end Sys2Proof.Machine
end

