-- ==== Sys2Proof/Machine/Lifecycle.lean ====
section
/-! DEFINITION. What ends and what errors do: JOIN evaluation (05 R160, R161), waking of waiting lanes (05 R165, R190-R195),
dray halts (07 R268, R290, R294), zone unwinds (05 R213-R215), the ends of coaches, rakes and regions (05 R163, 10 R370),
teardown and reset (10 R373, 11 R435, R436). -/
namespace Sys2Proof.Machine

/-! ### JOIN (05 R159-R161) -/

/-- The JOIN at a program counter with mask register `j` holds. -/
def joinHolds (co : Coach) (ga : GAddr) (step j : Nat) : Bool :=
  let m := mget co j
  (List.range co.width).all (fun l =>
    !m.getLsbD l ||
    (match co.lanes[l]? with
      | none => true
      | some x =>
        x.state = .exited || x.state = .absent || (x.state = .joining && x.ga == ga && x.step == step)))

/-- The JOINs at which lanes wait: program counter and mask register. -/
def joinPoints (co : Coach) : List (GAddr × Nat × Nat) :=
  (co.lanes.filterMap (fun x =>
    match x.state, x.wait with
    | .joining, .join j => some (x.ga, x.step, j)
    | _, _ => none)).eraseDups

/-- The lanes joining at a program counter. -/
def joiningAt (co : Coach) (ga : GAddr) (step : Nat) : Mask :=
  maskOf (fun l => match co.lanes[l]? with
    | some x => x.state = .joining && x.ga == ga && x.step == step
    | none => false)

/-- Evaluate the JOINs that a condition selects: lanes of one that holds leave together. -/
def evalJoins (co : Coach) (sel : GAddr × Nat × Nat → Bool) : Coach :=
  (joinPoints co).foldl (fun co p =>
    if sel p && joinHolds co p.1 p.2.1 p.2.2 then wakeLanes co (joiningAt co p.1 p.2.1) else co) co

/-- Every lane that has not exited is joining, and no JOIN condition holds (05 R161). -/
def joinDeadlock (co : Coach) : Bool :=
  let live := co.lanes.filter (fun x => x.state != .exited && x.state != .absent)
  !live.isEmpty && live.all (fun x => x.state = .joining && x.wait != .woken)
    && (joinPoints co).all (fun p => !joinHolds co p.1 p.2.1 p.2.2)

/-- Raise ILLEGAL JOIN when the coach is deadlocked: it names the JOIN of the lowest joining lane. -/
def checkJoins (s : State) (k : Nat) : State :=
  let co := coachOf s k
  if joinDeadlock co then
    let m := lanesIn co .joining
    match (lowLane m).bind (fun l => co.lanes[l]?) with
    | some x =>
      raiseTrap s k { cls := 1, sub := iJoin, step := x.step, tmask := m, rmask := some m, move := 0, moveTo := 0
                      moveCounts := false, opword := x.word, opaddr := x.ga, area := [(64, 1, 0xFF)] }
    | none => s
  else s

/-! ### Dray contexts: handles and waits (01 R38, R39, 05 R195) -/

/-- A dray context that has never launched. -/
def Dray.none : Dray :=
  { regs := [], pc := 0, gens := [], opts := [], optM := 0, state := 0, fcode := 0, bits := 0, timeline := 0, t0 := 0
    promise := Option.none, promised := false, rem := 0, nslice := 0, gen := 0, slices := [], rake := 0, launch := 0
    ctx := Option.none, zone := 0, start := 0, load := Option.none, loadGen := Option.none, data := Option.none
    dataAt := (0, []), ahead := [], tlw := Option.none, parked := Option.none, word := Option.none, drain := false }

def drayOf (s : State) (dk : Nat) : Dray := tgetD Dray.none s.drays dk

/-- A block of an UNSEAL has been started under the key of a slot and is not finished (12 R439). -/
def blockUnder (s : State) (slot : Nat) : Bool :=
  s.drays.any (fun e => !e.2.ahead.isEmpty && (tgetD 0 e.2.opts 3).toNat == slot)

/-- Slots that are being revoked and under whose key no block is unfinished are cleared; the count of loads stays (12 R439). -/
def clearRevoked (s : State) : State :=
  { s with keys := s.keys.map (fun e =>
      if e.2.state = 3 && !blockUnder s e.1 then
        (e.1, { e.2 with kind := 0, state := 0, world := 0, key := 0, session := 0, policy := [] })
      else e) }
def setDray (s : State) (dk : Nat) (d : Dray) : State := { s with drays := tput s.drays dk d }

/-- The kind 1 handle of a dray context (01 R38). -/
def drayHandle (dk : Nat) (gen : BitVec 8) : Word :=
  BitVec.ofNat 32 (2 ^ 28 + dk / 320 * 2 ^ 27 + dk / 32 % 10 * 2 ^ 22 + dk / 8 % 4 * 2 ^ 20 + dk % 8 * 2 ^ 17 + gen.toNat)

/-- The dray context that a well-formed kind 1 handle names; a kind 2 handle names none (log 77). -/
def handleKey (h : Word) : Option Nat :=
  let v := h.toNat
  if field v 31 28 = 1 ∧ field v 16 8 = 0 ∧ field v 26 22 ≤ 9 then
    some (drayKey (field v 27 27) (field v 26 22) (field v 21 20) (field v 19 17))
  else Option.none

/-- The handle check of 01 R39 for a context: the dray context, or HANDLE. -/
def checkHandle (s : State) (ctx : Nat) (h : Word) : Option Nat :=
  match handleKey h with
  | some dk => if (drayOf s dk).ctx = some ctx then some dk else Option.none
  | Option.none => Option.none

/-- The context has halted, faulted or been cancelled. -/
def Dray.done (d : Dray) : Bool := decide (4 ≤ d.state)

/-- A wait for timeline value n through a handle is over. -/
def timelineMet (s : State) (dk : Nat) (h : Word) (n : Dword) : Bool :=
  let d := drayOf s dk
  h.extractLsb' 0 8 != d.gen || d.done || decide (n.toNat ≤ d.timeline.toNat)

/-- The status word (07 R253). -/
def Dray.status (d : Dray) : Word :=
  BitVec.ofNat 32 (d.state * 2 ^ 28 + d.fcode % 256 * 2 ^ 20 + d.bits.toNat)

/-- The DRAY trap of lanes that waited on a faulted context (07 R292, 11 R408). -/
def drayTrap (s : State) (dk : Nat) (h : Word) (lanes : Mask) (word : Dword) (ga : GAddr) (step : Nat) : Trap :=
  let d := drayOf s dk
  { cls := 15, sub := 0, step := step, tmask := lanes, rmask := Option.none, move := 0, moveTo := 0
    moveCounts := false, opword := word, opaddr := ga
    area := [(64, 4, h.toNat), (68, 4, d.status.toNat), (72, 8, d.timeline.toNat)] }

/-! ### Barriers (05 R187) -/

def Barrier.none : Barrier := { armed := false, inv := false, exp := 0, cnt := 0, ph := 0 }
def barrierOf (s : State) (rake b : Nat) : Barrier :=
  match tget s.rakes rake with
  | some r => tgetD Barrier.none r.barriers b
  | Option.none => Barrier.none
def setBarrier (s : State) (rake b : Nat) (x : Barrier) : State :=
  modRake s rake (fun r => { r with barriers := tput r.barriers b x })
/-- Phase t is reached. -/
def phaseReached (b : Barrier) (t : BitVec 24) : Bool := decide ((b.ph - t).toNat < 2 ^ 23)
/-- BARS.FLAGS reads these bits; lanes waiting are those of BARW and SLEEP.BAR on the barrier. -/
def laneWaitsOn (x : Lane) (b : Nat) : Bool :=
  match x.wait with
  | .barrier k _ => k == b
  | .sleepBar _ bar k _ _ => bar && k == b
  | _ => false
def rakeLanes (s : State) (rake : Nat) : List Lane :=
  match tget s.rakes rake with
  | some r => r.coaches.flatMap (fun k => (coachOf s k).lanes)
  | Option.none => []
def barrierWaited (s : State) (rake b : Nat) : Bool := (rakeLanes s rake).any (fun x => laneWaitsOn x b)
def barrierFlags (s : State) (rake b : Nat) : Nat :=
  let x := barrierOf s rake b
  (if x.armed then 1 else 0) + (if x.inv then 2 else 0) + (if barrierWaited s rake b then 4 else 0)

/-- The BARMIS trap of a counted barrier (05 R189-R193, 11 R408): barrier, major code, and what BARS.FLAGS would read. -/
def barmisTrap (s : State) (rake b : Nat) (lanes : Mask) (word : Dword) (ga : GAddr) (step : Nat) : Trap :=
  { cls := 10, sub := 0, step := step, tmask := lanes, rmask := Option.none, move := 0, moveTo := 0, moveCounts := false
    opword := word, opaddr := ga
    area := [(64, 1, b), (65, 1, word.toNat / 2 ^ 56), (68, 4, barrierFlags s rake b)] }

/-! ### Tiles (06 R220) -/

def Tile.none : Tile :=
  { ver := 0, t := [], p := [], steps := [], undef := Option.none, holder := Option.none, lastCtx := Option.none
    queue := [], cur := Option.none }
def tileOf (s : State) (tk : Nat) : Tile := tgetD Tile.none s.tiles tk
def setTile (s : State) (tk : Nat) (t : Tile) : State := { s with tiles := tput s.tiles tk t }
/-- The version has passed V (06 R243). -/
def versionPassed (t : Tile) (v : BitVec 16) : Bool := decide ((t.ver - v).toNat < 2 ^ 15)
/-- No queued operation can run and none is executing (06 R226). -/
def Tile.idle (t : Tile) : Bool := t.cur.isNone && !t.queue.any (fun o => o.v == t.ver)
/-- The keys of the tiles that a resident coach holds. -/
def heldTiles (s : State) (k : Nat) : List Nat :=
  (s.tiles.filter (fun e => e.2.holder == some k)).map (fun e => e.1)
/-- No context: the last holder of a tile whose context has been destroyed (06 R222, 15 R503). -/
def goneCtx : Nat := 2 ^ 32
/-- The tile's elements become undefined. -/
def undefTile (s : State) (tk : Nat) : State :=
  let (n, s) := freshSeed s
  setTile s tk { tileOf s tk with t := [], p := [], steps := [], undef := some n }

/-! ### Waking lanes (05 R165, R190, R191, R194, R195, 06 R243) -/

/-- What a waiting lane meets. -/
inductive Wakes where
  | no
  | yes
  /-- Wakes and takes a trap: BARMIS after BARX, LATE, or DRAY on a dray context. -/
  | barmis (b : Nat)
  | late (b : Nat) (c : Dword)
  | dray (dk : Nat) (h : Word)
  /-- The tile can make no progress: ILLEGAL VERSION at the waiting operation (06 R226). -/
  | stuck (tile : Nat)
  deriving DecidableEq, Repr

/-- Whether a lane's wait is over. -/
def laneWakes (s : State) (co : Coach) (x : Lane) : Wakes :=
  let now := cycleOf s (coreOf co)
  match x.wait with
  | .cycles t => if t ≤ now then .yes else .no
  | .ended _ => .yes
  | .barx k => .barmis k
  | .sleepBar c bar k t lt =>
    if bar && phaseReached (barrierOf s co.rake k) t then .yes
    else if c.toNat ≤ now then
      (if bar && lt && !isDet s co then .late k c else .yes)
    else .no
  | .barrier k t => if phaseReached (barrierOf s co.rake k) t then .yes else .no
  | .tbar tag epoch =>
    match tget s.treebars (co.ctx * 8 + tag) with
    | some b =>
      match b.closed.find? (fun e => e.1 == epoch) with
      | some (_, core, cyc) => if cyc + 64 ≤ cycleOf s core then .yes else .no
      | none => .no
    | none => .no
  | .timeline h n _ _ =>
    match handleKey h with
    | some dk =>
      if timelineMet s dk h n then
        (if (drayOf s dk).state = 5 ∧ h.extractLsb' 0 8 = (drayOf s dk).gen then .dray dk h else .yes)
      else .no
    | none => .yes
  | .version t v =>
    let tk := tileKey (coreOf co) t
    if versionPassed (tileOf s tk) v then .yes else if (tileOf s tk).idle then .stuck tk else .no
  | .release t =>
    let tl := tileOf s (tileKey (coreOf co) t)
    if tl.cur.isNone && tl.queue.isEmpty then .yes else .no
  | _ => .no

/-- The acquire that a wait makes when it ends. -/
def wakeAcquire (s : State) (co : Coach) (w : Wait) : State :=
  let u := l1Unit s (coreOf co)
  match w with
  | .barrier _ _ => acquireGlobal s u co.ctx 2
  | .tbar _ _ => acquireGlobal s u co.ctx 4
  | .ended (some agt) => acquireGlobal s u co.ctx agt
  | .timeline _ _ agt stg => if stg = 1 then s else acquireGlobal s u co.ctx agt
  | _ => s

/-- Release a tile (06 R243 REL): the configuration goes; VER, T and p stay. -/
def releaseTile (s : State) (k t : Nat) : State :=
  let tk := tileKey (coreOf (coachOf s k)) t
  let tl := tileOf s tk
  let s := setTile s tk { tl with holder := none, lastCtx := some (coachOf s k).ctx }
  modCoach s k (fun co => { co with cfgs := tdel co.cfgs t })

/-- The trap of lanes that wake with one: LATE, BARMIS and DRAY show them past the operation, ILLEGAL VERSION at it, in an
expansion at (G, 0) (11 R402, 08 R313). Only the entry moves them, so an FPE of the commit can take the trap's place, and
it arises again when the operation issues after TRET (11 R409). -/
def wakeTrap (s : State) (rake : Nat) (x : Lane) (m : Mask) (w : Wakes) : Option Trap :=
  let past (t : Trap) : Trap := { t with move := m, moveTo := x.nga, moveCounts := true }
  let plain (cls sub : Nat) (area : List (Nat × Nat × Nat)) : Trap :=
    { cls := cls, sub := sub, step := x.step, tmask := m, rmask := none, move := if x.step = 0 then 0 else m
      moveTo := x.ga, moveCounts := false, opword := x.word, opaddr := x.ga, area := area }
  match w with
  | .stuck tk => some (plain 1 iVersion (versionArea s tk))
  | .barmis b => some (past (barmisTrap s rake b m x.word x.ga x.step))
  | .late b c => some (past (plain 4 0 [(64, 1, b), (72, 8, c.toNat)]))
  | .dray dk h => some (past (drayTrap s dk h m x.word x.ga x.step))
  | _ => none

/-- Wake one lane of a resident coach if its wait is over. A trap that it takes waits while a handler runs elsewhere, and
until TRET (11 R409). -/
def wakeOne (s : State) (k l : Nat) : State :=
  let co := coachOf s k
  match co.lanes[l]? with
  | none => s
  | some x =>
    let held := co.inHandler && !co.rmask.getLsbD l
    let w := laneWakes s co x
    if x.state ≠ .sleeping ∨ co.place.isNone = true ∨ w = .no then s
    else if w ≠ .yes ∧ (held = true ∨ co.trap.isSome = true) then s
    else
      let s := wakeAcquire s co x.wait
      let s := match x.wait with
        | .release t => releaseTile s k t
        | _ => s
      -- lanes of the same operation with the same wait wake together
      let m := maskOf (fun j => match co.lanes[j]? with
        | some y => y.state = .sleeping && y.wait == x.wait && y.ga == x.ga && y.step == x.step
                    && (co.inHandler && !co.rmask.getLsbD j) == held
        | none => false)
      match wakeTrap s co.rake x m w with
      | some t =>
        raiseTrap (modCoach s k (fun co =>
          modLanes co m (fun _ x => { x with state := .running, wait := .none, icnt := x.icnt - 1 }))) k t
      | none => modCoach s k (fun co => wakeLanes co m)

/-- Wake every lane of a coach whose wait is over. -/
def wakeReady (s : State) (k : Nat) : State := (List.range 64).foldl (fun s l => wakeOne s k l) s

/-- Wake lanes of every coach that a condition selects. -/
def wakeCoaches (s : State) (sel : Coach → Bool) : State :=
  (tkeys (s.coaches.filter (fun e => sel e.2))).foldl wakeReady s

/-- Change the waits of every lane of a rake's coaches, resident or not. -/
def mapWaits (s : State) (rake : Nat) (f : Wait → Wait) : State :=
  { s with coaches := s.coaches.map (fun e =>
      if e.2.rake = rake then (e.1, { e.2 with lanes := e.2.lanes.map (fun x => { x with wait := f x.wait }) }) else e) }

/-- A wait on a phase of barrier `b` that one of `n` completions from phase `ph` reaches is over (05 R187, R190). -/
def passPhase (b : Nat) (ph : BitVec 24) (n : Nat) (w : Wait) : Wait :=
  let passed (t : BitVec 24) : Bool := decide ((t - ph).toNat ≤ n)
  match w with
  | .barrier k t => if k = b ∧ passed t = true then .ended (some 2) else w
  | .sleepBar _ bar k t _ => if bar = true ∧ k = b ∧ passed t = true then .ended none else w
  | _ => w

/-- Arrivals at an armed barrier (05 R190): the target, and the state with its waiters woken, those on each phase that was
completed on the way included. -/
def arrive (s : State) (rake b n : Nat) : BitVec 24 × State :=
  let x := barrierOf s rake b
  let e := x.exp.toNat
  let sum := x.cnt.toNat + n
  let target := x.ph + BitVec.ofNat 24 (if n = 0 then 0 else (sum - 1) / e + 1)
  let s := setBarrier s rake b { x with cnt := BitVec.ofNat 24 (sum % e), ph := x.ph + BitVec.ofNat 24 (sum / e) }
  (target, if sum / e = 0 then s
    else wakeCoaches (mapWaits s rake (passPhase b x.ph (sum / e))) (fun co => co.rake == rake))

/-! ### Launches and batches (05 R198-R201) -/

/-- The launch of a reference, while its rake exists. -/
def launchOf (s : State) (r : LaunchRef) : Option Launch := (tget s.rakes r.1).bind (fun k => tget k.launches r.2)
/-- Every dray context of the batch has halted. -/
def batchDone (s : State) (b : Batch) : Bool :=
  b.launches.all (fun r => match launchOf s r with
    | some l => l.finished
    | none => true)
/-- Sealed batches that are unfinished. -/
def unfinished (s : State) (co : Coach) : Nat := (co.sealed_.filter (fun b => !batchDone s b)).length

/-- A launch's results reach the CPY slots of the rake (05 R199): the handle, and the promised cycle in each core's
counter. The slots hold the register offset until then. -/
def deliverPromise (s : State) (rake k : Nat) (c : Option Nat) : State :=
  match tget s.rakes rake with
  | none => s
  | some r =>
    match tget r.launches k with
    | none => s
    | some la =>
      let handle := match la.dray with
        | some (dk, g) => drayHandle dk g
        | none => 0
      let cycleOn (core : Nat) : Nat := match c with
        | some n => (tgetD 0 la.start core + n) % 2 ^ 64
        | none => 2 ^ 64 - 1
      let fill (co : Coach) : Coach :=
        { co with rbuf := co.rbuf.map (fun sl =>
            match sl.cpy with
            | some (j, core) =>
              if j = k then
                let word (j : Word) : Word :=
                  if j = 0 then handle else if j = 1 then 0
                  else if j = 2 then BitVec.ofNat 32 (cycleOn core) else BitVec.ofNat 32 (cycleOn core / 2 ^ 32)
                { sl with vw := sl.vw.map (fun w => (w.1, word w.2)), sw := sl.sw.map (fun w => (w.1, word w.2))
                          returned := true, cpy := none }
              else sl
            | none => sl) }
      let s := modRake s rake (fun r => { r with launches := tput r.launches k { la with promise := some c } })
      r.coaches.foldl (fun s kc => modCoach s kc fill) s

/-! ### Region completion (10 R370) -/

/-- Write STATUS, then raise TL to TARGET: the address of the first failing access, if any. -/
def writeCompletion (s : State) (r : Region) : Option (XErr × Nat × Nat) × State :=
  if r.tladdr = 0 then (none, s)
  else
    match ownWriteV s (dieUnits 0) r.ctx (r.tladdr + 16) (leBytes 4 r.status) with
    | (.error (.fault x, va), s) => (some (x, va, 2), s)
    | (_, s) =>
      match ownPieces s (dieUnits 0) r.ctx r.tladdr 8 .atomic with
      | (.error (.fault x, va), s) => (some (x, va, 4), s)
      | (.error _, s) => (none, s)
      | (.ok ps, s) =>
        let old := leNat (readOwn s ps)
        let new := if old < r.target.toNat then r.target.toNat else old
        (none, l2System (writeOwn s r.ctx ps (leBytes 8 new)) false)

/-- A rake of the region lives. -/
def hasRakes (s : State) (region : Nat) : Bool := s.rakes.any (fun e => e.2.region == region)
/-- A launch that waits for its block is that of a child of a region. -/
def Pend.childOf (p : Pend) (region : Nat) : Bool :=
  match p with
  | .launch _ (some rg) _ _ _ _ _ => rg == region
  | _ => false

/-- A child region lives, or its launch waits for its block. -/
def hasChildren (s : State) (region : Nat) : Bool :=
  s.regions.any (fun e => e.2.parent == some region && !e.2.completed) || s.pending.any (fun p => p.2.childOf region)

/-- The record of a void session of one of the region's rakes still waits for the driver: the region completes after it (12
R460). -/
def recordsDue (s : State) (region : Nat) : Bool :=
  s.sessions.any (fun e => e.2.rake / 65536 == region && s.pending.any (fun p => p.2 == .record e.1))

/-- Complete a region with its status; its parent may then complete. A fault on the record waits for the driver. -/
def completeRegion (s : State) : Nat → Nat → State
  | 0, _ => s
  | fuel + 1, rg =>
    match tget s.regions rg with
    | none => s
    | some r =>
      if r.completed then s
      else
        match writeCompletion s r with
        | (some (x, va, acc), s) =>
          let (f, s) := waitFault s r.ctx va r.number 0 r.version x acc
          addPend s f (.complete rg)
        | (none, s) =>
          let s := setRegion_ s rg { r with completed := true, owners := [] }
          match r.parent with
          | some p =>
            match tget s.regions p with
            | some q =>
              if q.created = q.rakes ∧ hasRakes s p = false ∧ hasChildren s p = false ∧ recordsDue s p = false then
                completeRegion s fuel p
              else s
            | none => s
          | none => s
where
  /-- Replace a region. -/
  setRegion_ (s : State) (k : Nat) (r : Region) : State := { s with regions := tput s.regions k r }

/-- Depth bound of the region tree with the root. -/
def regionFuel : Nat := 18

/-- A region whose rakes and children have all ended completes (10 R370). -/
def checkRegion (s : State) (rg : Nat) : State :=
  match tget s.regions rg with
  | some r =>
    if r.created = r.rakes ∧ r.completed = false ∧ hasRakes s rg = false ∧ hasChildren s rg = false
        ∧ recordsDue s rg = false ∧ s.pending.all (fun p => p.2 != .complete rg) = true then
      completeRegion s regionFuel rg
    else s
  | none => s

/-! ### Rakes (10 R374, R377) -/

/-- The lowest free RSLOT of a context (11 R429); 2,048 when none is free. -/
def freeRslot (s : State) (ctx : Nat) : Nat :=
  firstFree 2048 ((s.rakes.filter (fun e => ((tget s.regions e.2.region).map Region.ctx) == some ctx)).map
    (fun e => e.2.rslot))

/-- A rake that waits to be placed (10 R374). -/
def newRake (region idx stage : Nat) (slot : Option Nat) (rslot window : Nat) : Rake :=
  { region := region, idx := idx, stage := stage, slot := slot, rslot := rslot, cluster := none, pinned := none
    created := false, coaches := [], window := window, padBase := 0, pad := [], padPoison := [], barriers := [], launches := []
    unwound := [], zoneParent := [], ended := false, unslotted := false, halt := none, haltRecorded := false }

/-- RAKE_CREATE: the region's next rake, for a slot of a stage, while fewer than RAKES exist. -/
def createRake (s : State) (rg stage : Nat) (slot : Option Nat) : State :=
  match tget s.regions rg with
  | some r =>
    if r.created < r.rakes ∧ r.completed = false then
      let rk := newRake rg r.created stage slot (freeRslot s r.ctx) (r.scratch * 16384)
      { s with rakes := tput s.rakes (rakeKey rg r.created) rk
               regions := tput s.regions rg { r with created := r.created + 1 } }
    else s
  | none => s

/-- Slots of a stage. -/
def stageSlots (r : Region) (st : Nat) : Nat := ((r.stages[st]?).map Stage.slots).getD 0

/-- The oldest unslotted rake of a stage. -/
def oldestUnslotted (s : State) (rg st : Nat) : Option Nat :=
  (s.rakes.find? (fun e => e.2.region == rg && e.2.stage == st && e.2.unslotted)).map (fun e => e.1)

/-- Every lane of a coach has exited. -/
def lanesOver (co : Coach) : Bool := co.lanes.all (fun x => x.state = .exited || x.state = .absent)

/-- A coach of an unslotted rake can go on: it waits at no pop, or an entry has come for one that it waits at. -/
def coachGoes (s : State) (co : Coach) : Bool :=
  let found (q : Nat) : Bool := (boundQueue s co q).any (fun b => !b.2.entries.isEmpty || b.2.ovIn != b.2.ovOut)
  let pops := co.stalls.filterMap (fun st => match st.kind with
    | .pop q none => some q
    | _ => none)
  !lanesOver co && (pops.isEmpty || pops.any found)

/-- The oldest unslotted rake of a stage that is ready to run (10 R377). -/
def oldestReady (s : State) (rg st : Nat) : Option Nat :=
  (s.rakes.find? (fun e => e.2.region == rg && e.2.stage == st && e.2.unslotted
    && e.2.coaches.any (fun k => coachGoes s (coachOf s k)))).map (fun e => e.1)

/-- The pending moves that take a slot from a stage: queue and the other stage. -/
def pendingFrom (r : Region) (st : Nat) : List (Nat × Nat) :=
  (mapFrom (fun i q => (i, q)) 0 r.queues).filterMap (fun e => match e.2.pending with
    | some (x, y) => if x = st then some (e.1, y) else none
    | none => none)

/-- The move of a slot from stage `x` to `y` would keep MIN and MAX, and `y` can fill it; in a free move, with a rake that is
ready to run or a new one (10 R377). -/
def canMove (s : State) (rg : Nat) (r : Region) (x y : Nat) (free : Bool := false) : Bool :=
  let minX := ((r.stages[x]?).map Stage.min).getD 0
  let maxY := ((r.stages[y]?).map Stage.max).getD 0
  decide (minX < stageSlots r x) && decide (stageSlots r y < maxY)
  && ((if free then oldestReady s rg y else oldestUnslotted s rg y).isSome || decide (r.created < r.rakes))

/-- Give a slot to a stage: its oldest unslotted rake, in a free move one that is ready to run if there is one, else a new
rake. -/
def fillSlot (s : State) (rg st : Nat) (slot : Option Nat) (free : Bool := false) : State :=
  match (if free then (oldestReady s rg st).orElse (fun _ => oldestUnslotted s rg st) else oldestUnslotted s rg st) with
  | some k => modRake s k (fun r => { r with unslotted := false, slot := slot })
  | none => createRake s rg st slot

/-- Count a slot over from one stage to another, and drop the pending move. -/
def shiftSlot (r : Region) (x y qi : Nat) : Region :=
  let st := modAt (fun (a : Stage) => { a with slots := a.slots - 1 }) r.stages x
  { r with stages := modAt (fun (a : Stage) => { a with slots := a.slots + 1 }) st y
           queues := modAt (fun (q : Queue) => { q with pending := none }) r.queues qi }

/-- A rake has ended: its slot goes to a pending move, else to its stage (10 R374, R377). -/
def refillSlot (s : State) (rg st : Nat) (slot : Option Nat) : State :=
  match tget s.regions rg with
  | none => s
  | some r =>
    if r.det then s
    else
      match (pendingFrom r st).find? (fun e => canMove s rg r st e.2) with
      | some (qi, y) => fillSlot (modRegion s rg (fun r => shiftSlot r st y qi)) rg y slot
      | none => fillSlot s rg st slot

/-- Pins are released when no launch of a context on a cluster is bound to their version any more (05 R184). -/
def releasePins (s : State) : State :=
  let bound (i : Impression) : Bool := s.rakes.any (fun e => e.2.cluster == some i.cluster
    && (match tget s.regions e.2.region with
      | some r => r.ctx == i.ctx && r.version == i.version
      | none => false))
  { s with imps := s.imps.map (fun i => if i.pinned && !bound i then { i with pinned := false } else i) }

/-- The record of a session of a rake waits for the driver. -/
def rakeRecordsDue (s : State) (rk : Nat) : Bool :=
  s.sessions.any (fun e => e.2.rake == rk && s.pending.any (fun p => p.2 == .record e.1))

/-- RAKE_END (05 R163): the window and barriers go, open sessions become void, the next rake is created. -/
def endRake (s : State) (rk : Nat) : State :=
  match tget s.rakes rk with
  | none => s
  | some r =>
    let s := voidSessions s (fun se => se.rake == rk) 2
    -- the rake counts as ended once the records of its sessions are written (12 R460)
    if rakeRecordsDue s rk then s
    else
      let s := releasePins { s with sessions := s.sessions.filter (fun e => e.2.rake != rk), rakes := tdel s.rakes rk }
      checkRegion (refillSlot s r.region r.stage r.slot) r.region

/-- The rake ends when its last coach has ended and every dray context that it launched has halted. -/
def checkRake (s : State) (rk : Nat) : State :=
  match tget s.rakes rk with
  | none => s
  | some r =>
    if r.created && r.coaches.isEmpty && r.launches.all (fun l => l.2.finished || l.2.cancelled) then endRake s rk else s

/-- The record of a session has been written, or given up: its rake may end, and a session whose rake has been torn down is
forgotten, and its region may complete (12 R460). -/
def recordDone (s : State) (key : Nat) : State :=
  match tget s.sessions key with
  | none => s
  | some se =>
    if s.pending.any (fun p => p.2 == .record key) then s
    else if (tget s.rakes se.rake).isSome then checkRake s se.rake
    else checkRegion (forgetSession s key) (se.rake / 65536)

/-! ### Dray halts (07 R268, R290, R294) -/

/-- A release of a dray context: its writes are at the home slice, or in the fused L1 of its cluster (09 R337). -/
def drayRelease (s : State) (dk agt : Nat) : State :=
  let cl := dk / 32
  if s.fusedClusters.contains cl then releaseGlobal s (160 + cl) ((drayOf s dk).ctx.getD 0) agt
  else if agt = 5 then l2System s false else s

/-- An acquire of a dray context. -/
def drayAcquire (s : State) (dk agt : Nat) : State :=
  let cl := dk / 32
  if s.fusedClusters.contains cl then acquireGlobal s (160 + cl) ((drayOf s dk).ctx.getD 0) agt
  else if agt = 5 then l2System s true else s

/-- FCODE MEMERR (07 R293). -/
def fcMemerr : Nat := 0x10

/-- A context stops: the release of HALT, the timeline, its state, and those who wait for it: the promise, batches, TLWAIT,
TLW and the end of its rake. -/
def stopDray (s : State) (dk state fcode : Nat) : State :=
  let s := drayRelease s dk 4
  let d := drayOf s dk
  let d' := { d with state := state, fcode := fcode, timeline := d.timeline + 1, data := none, load := none
                     loadGen := none, tlw := none, parked := none, word := none, ahead := [], drain := false }
  let s := clearRevoked (setDray s dk d')
  let s := match launchOf s (d.rake, d.launch) with
    | some la => if la.promise.isNone then deliverPromise s d.rake d.launch none else s
    | none => s
  let s := modRake s d.rake (fun r =>
    { r with launches := tmod r.launches d.launch (fun la =>
        { la with finished := true, faulted := decide (state = 5) }) })
  let s := wakeTlw s dk
  let s := wakeCoaches s (fun co => co.lanes.any (fun x => match x.wait with
    | .timeline h _ _ _ => handleKey h == some dk
    | _ => false))
  checkRake s d.rake
where
  /-- A TLW on this context completes: it acquires at the scopes that it names (07 R286). -/
  wakeTlw (s : State) (dk : Nat) : State :=
    s.drays.foldl (fun s e => match e.2.tlw with
      | some (h, n, agt, stg) =>
        if handleKey h = some dk ∧ timelineMet s dk h n = true then
          let s := if stg = 1 then s else drayAcquire s e.1 agt
          setDray s e.1 { e.2 with state := 1, tlw := none, pc := e.2.pc + 4 }
        else s
      | none => s) s

/-- The contexts that wait for a timeline look again. -/
def timelineMoved (s : State) (dk : Nat) : State :=
  wakeCoaches (stopDray.wakeTlw s dk) (fun co => co.lanes.any (fun x => match x.wait with
    | .timeline h _ _ _ => handleKey h == some dk
    | _ => false))

/-- The launch's dray context is still running it. -/
def drayRuns (s : State) (rk k : Nat) (la : Launch) : Option Nat :=
  match la.dray with
  | some (dk, g) =>
    let d := drayOf s dk
    if d.gen = g ∧ d.done = false ∧ d.rake = rk ∧ d.launch = k then some dk else none
  | none => none

/-- Cancel a launch (05 R201, 07 R294): a running context stops; one that has not started never launches, and its CPY
slots are discarded. -/
def cancelLaunch (s : State) (rk k fcode : Nat) : State :=
  match (tget s.rakes rk).bind (fun r => (tget r.launches k).map (fun la => (r, la))) with
  | none => s
  | some (r, la) =>
    if la.finished then s
    else
      match drayRuns s rk k la with
      | some dk => stopDray s dk 6 (if (drayOf s dk).fcode = fcMemerr then fcMemerr else fcode)
      | none =>
        let s := modRake s rk (fun r => { r with launches := tmod r.launches k (fun la =>
          { la with finished := true, cancelled := true }) })
        r.coaches.foldl (fun s kc => modCoach s kc (fun co =>
          { co with rbuf := co.rbuf.filter (fun sl => sl.cpy.map (fun c => c.1) != some k) })) s

/-! ### Zones (05 R211-R215) -/

/-- Zone `z` is zone `o` or lies inside it. -/
def zoneInside (r : Rake) (o : Nat) : Nat → Nat → Bool
  | 0, _ => false
  | fuel + 1, z =>
    z == o || (match tget r.zoneParent z with
      | some p => zoneInside r o fuel p
      | none => false)

/-- Bound on a chain of nested zones. -/
def zoneFuel (r : Rake) : Nat := r.zoneParent.length + 1

/-- The engine stops the tiles of an unwinding coach (06 R247). -/
def unwindTile (s : State) (k tk : Nat) : State :=
  let t := tileOf s tk
  let ops := (t.queue ++ (t.cur.map (fun c => c.1)).toList).filter (fun o => o.coach == k)
  let far := ops.foldl (fun (m : Option Nat) o =>
    let d := (o.v - t.ver).toNat
    match m with
    | some n => some (if n < d then d else n)
    | none => some d) none
  let ver := match far with
    | some n => t.ver + BitVec.ofNat 16 (n + 1)
    | none => t.ver
  undefTile (setTile s tk { t with queue := [], cur := none, ver := ver }) tk

/-- The same for the saved tiles of a coach that is not resident. -/
def unwindSaved (co : Coach) (seed : Nat) : Coach :=
  { co with savedTiles := co.savedTiles.map (fun e =>
      let t := e.2
      let ops := t.queue ++ (t.cur.map (fun c => c.1)).toList
      let far := ops.foldl (fun m o => if m ≤ (o.v - t.ver).toNat then (o.v - t.ver).toNat + 1 else m) 0
      (e.1, { t with queue := [], cur := none, ver := t.ver + BitVec.ofNat 16 far, t := [], p := [], steps := []
                     undef := some seed })) }

/-- An unwinding coach (05 R214): zone `z` and those inside it close, and its lanes go to the handler. -/
def unwindCoach (s : State) (k z cause info : Nat) : State :=
  let co := coachOf s k
  match co.zones.find? (fun x => x.k == z) with
  | none => s
  | some zn =>
    let s := (heldTiles s k).foldl (fun s tk => unwindTile s k tk) s
    let (seed, s) := freshSeed s
    let lane (l : Nat) (x : Lane) : Lane :=
      if x.state = .exited ∨ x.state = .absent then x
      else
        let st := (zn.rstacks[l]?).getD ([], x.sp)
        ({ x with state := .running, wait := .none, held := st.1, sp := st.2 }).goto co.orderNext zn.handler
    modCoach s k (fun co =>
      let co := unwindSaved co seed
      let rest := (co.zones.dropWhile (fun x => x.k != z)).drop 1
      { co with rbuf := [], zones := rest, lanes := mapFrom lane 0 co.lanes, stalls := [], heldStalls := [], commitPush := false, entryLanes := []
                pair := none, resume := none, trap := none
                fpeHeld := [], inHandler := false, zcause := BitVec.ofNat 32 cause, zinfo := BitVec.ofNat 64 info
                bundle := { co.bundle with entries := [] }, turnGranted := false
                -- the turn-served operation for which an ended bundle waits is gone (10 R399)
                ended := co.ended.map (fun b => { b with served := false }) })

/-- ZONE_UNWIND: every coach that has the zone open unwinds; the others unwind when they open it (05 R213); launches and
sessions made in the zone are cancelled and voided. -/
def unwindZone (s : State) (rk z cause info : Nat) : State :=
  match tget s.rakes rk with
  | none => s
  | some r =>
    let inside (x : Nat) : Bool := zoneInside r z (zoneFuel r) x
    let s := r.coaches.foldl (fun s k => unwindCoach s k z cause info) s
    let s := modRake s rk (fun r =>
      { r with unwound := (z, BitVec.ofNat 32 cause, BitVec.ofNat 64 info) :: r.unwound.filter (fun u => u.1 != z) })
    let zoneOf (la : Launch) : Nat := ((la.zones.head?).map (fun e => e.2)).getD 0
    let s := r.launches.foldl (fun s e => if inside (zoneOf e.2) then cancelLaunch s rk e.1 0x11 else s) s
    voidSessions s (fun se => se.rake == rk && inside se.zone) 1

/-! ### Ends and teardown (05 R163, 10 R373, 11 R435, R436) -/

/-- A port returns to its engine: words and responses are discarded, and no CLOSE answers it any more (05 R206). -/
def dropPort (s : State) (pk : Nat) : State :=
  let stop (se : Session) : Session := if se.closing.map (fun c => c.1) = some pk then { se with closing := none } else se
  { s with ports := tdel s.ports pk, sessions := s.sessions.map (fun e => (e.1, stop e.2)) }

/-- Close the engine ports of a coach (05 R206). -/
def closePorts (s : State) (k : Nat) : State :=
  let co := coachOf s k
  modCoach (co.ports.foldl (fun s e => dropPort s e.2) s) k (fun co => { co with ports := [] })

/-- The tiles of a coach become free; their contents are lost. -/
def dropTiles (s : State) (k : Nat) : State :=
  let ctx := (coachOf s k).ctx
  (heldTiles s k).foldl (fun s tk =>
    undefTile (setTile s tk { tileOf s tk with holder := none, lastCtx := some ctx, queue := [], cur := none }) tk) s

/-- The tiles of an ended coach at which nothing can still run become free; their contents are lost (05 R163). -/
def dropIdle (s : State) (k : Nat) : State :=
  let ctx := (coachOf s k).ctx
  ((heldTiles s k).filter (fun tk => (tileOf s tk).idle)).foldl (fun s tk =>
    undefTile (setTile s tk { tileOf s tk with holder := none, lastCtx := some ctx, queue := [], cur := none }) tk) s

/-- A coach leaves the machine: ports, tiles, lease, place and FSLOT are free. -/
def removeCoach (s : State) (k : Nat) : State :=
  let co := coachOf s k
  let s := dropTiles (closePorts s k) k
  let s := modRake s co.rake (fun r => { r with coaches := r.coaches.filter (· != k) })
  { s with coaches := tdel s.coaches k
           rcache := s.rcache.map (fun e => (e.1, e.2.filter (fun x => x.1 != k))) }

/-- Every lane has exited, nothing of its tiles can still run, and a deterministic coach has nothing left to apply. -/
def coachDone (s : State) (k : Nat) : Bool :=
  let co := coachOf s k
  (tget s.coaches k).isSome
  && lanesOver co
  && (heldTiles s k).all (fun tk => (tileOf s tk).idle)
  && co.savedTiles.all (fun e => e.2.idle)
  && co.ended.isEmpty && co.remainder.isEmpty

/-- COACH_END (05 R163): when the last lane has exited, the coach's ports close and its idle tiles are free, as its lease is
(`poolCoaches`); the coach goes when nothing of it is still to be done. -/
def checkCoach (s : State) (k : Nat) : State :=
  if (tget s.coaches k).isSome && lanesOver (coachOf s k) then
    let s := dropIdle (closePorts s k) k
    if coachDone s k then
      let rk := (coachOf s k).rake
      checkRake (removeCoach s k) rk
    else s
  else s

/-- A region lies in the tree below another, or is it. -/
def regionBelow (s : State) (top : Nat) : Nat → Nat → Bool
  | 0, _ => false
  | fuel + 1, rg =>
    rg == top || (match (tget s.regions rg).bind Region.parent with
      | some p => regionBelow s top fuel p
      | none => false)

/-- The live regions of a tree, deepest first. -/
def regionTree (s : State) (top : Nat) : List Nat :=
  let l := s.regions.filter (fun e => !e.2.completed && regionBelow s top regionFuel e.1)
  (List.range regionFuel).reverse.flatMap (fun d => (l.filter (fun e => e.2.depth == d)).map (fun e => e.1))

/-- End the rakes of a region without saving them: drays are cancelled, sessions voided, coaches discarded. -/
def killRake (s : State) (rk cause : Nat) : State :=
  match tget s.rakes rk with
  | none => s
  | some r =>
    -- the region is marked by its caller, so that no rake is created and nothing completes meanwhile
    let s := r.launches.foldl (fun s e => cancelLaunch s rk e.1 0x11) s
    let s := voidSessions s (fun se => se.rake == rk) cause
    let s := r.coaches.foldl removeCoach s
    let keep (e : Nat × Session) : Bool := e.2.rake != rk || !e.2.recorded
    releasePins { s with sessions := s.sessions.filter keep, rakes := tdel s.rakes rk }

/-- Tear regions down with a status (10 R373, 11 R435): no more rakes are created, and each completes. -/
def tearRegions (s : State) (rgs : List Nat) (status cause : Nat) : State :=
  let s := rgs.foldl (fun s rg => modRegion s rg (fun r => { r with created := r.rakes, status := status })) s
  let s := (tkeys (s.rakes.filter (fun e => rgs.contains e.2.region))).foldl (fun s rk => killRake s rk cause) s
  let drop (p : Nat × Pend) : Bool := match p.2 with
    | .launch _ (some rg) _ _ _ _ _ => rgs.contains rg
    | .target rg _ => rgs.contains rg
    | _ => false
  let s := { s with pending := s.pending.filter (fun p => !drop p) }
  rgs.foldl checkRegion s

/-- A LAUNCH that waits for its block is refused with a status, when `sel` takes its context and queue. -/
def refusePend (sel : Nat → Nat → Bool) (status : Nat) (p : Pend) : Pend :=
  match p with
  | .launch c none (some q) _ block args _ => if sel c q then .refused c q block args status else p
  | .refused c q block args _ => if sel c q then .refused c q block args status else p
  | _ => p

/-- QUEUE_TEARDOWN (11 R436): the regions of the queue end with a status, and the queue stays torn down. -/
def tearQueue (s : State) (ctx q status : Nat) : State :=
  let roots := s.regions.filter (fun e => e.2.ctx == ctx && e.2.queue == some q && e.2.parent.isNone && !e.2.completed)
  let s := roots.foldl (fun s e => tearRegions s (regionTree s e.1) status 4) s
  let pend := s.pending.map (fun p => (p.1, refusePend (fun c j => c == ctx && j == q) status p.2))
  modCtx { s with pending := pend } ctx (fun c =>
    { c with queues := modAt (fun (x : HwQueue) => { x with state := status, waiting := none, fault := none }) c.queues q })

/-- The innermost region of an ancestry whose SUBTREE is on, or the hardware queue of its root. -/
def errorRegion (s : State) : Nat → Nat → Option Nat × Option Nat
  | 0, _ => (none, none)
  | fuel + 1, rg =>
    match tget s.regions rg with
    | none => (none, none)
    | some r =>
      if r.subtree then (some rg, none)
      else match r.parent with
        | some p => errorRegion s fuel p
        | none => (none, r.queue)

/-- An error that no zone takes (10 R373). -/
def uncontained (s : State) (rg : Nat) : State :=
  match errorRegion s regionFuel rg with
  | (some top, _) => tearRegions s (regionTree s top) 7 4
  | (none, some q) => tearQueue s ((tget s.regions rg).map Region.ctx |>.getD 0) q 9
  | (none, none) => s

/-- MEMERR, SHADOW or a poisoned page in a coach (05 R214, R215, 12 R448, R468): its innermost zone unwinds. -/
def coachError (s : State) (k cause info : Nat) : State :=
  let co := coachOf s k
  match co.zones with
  | z :: _ => unwindZone s co.rake z.k cause info
  | [] => uncontained s co.region

/-- A zone of the rake that can still take an error: open in some coach, or not yet opened by some coach. -/
def zoneTakes (s : State) (r : Rake) (z : Nat) : Bool :=
  r.coaches.any (fun k =>
    let co := coachOf s k
    co.zones.any (fun x => x.k == z) || decide (co.zoneCount < z))

/-- The zone that takes an error which arose in zone `z`: itself, or the first that encloses it. -/
def takingZone (s : State) (r : Rake) : Nat → Nat → Option Nat
  | 0, _ => none
  | fuel + 1, z =>
    if z = 0 then none
    else if zoneTakes s r z then some z
    else match tget r.zoneParent z with
      | some p => takingZone s r fuel p
      | none => none

/-- A dray context consumed an error or met a poisoned page (07 R293, 12 R448). -/
def drayError (s : State) (dk cause info : Nat) : State :=
  let d := drayOf s dk
  -- the cancel that the unwind or the teardown brings names MEMERR
  let s := setDray s dk { d with fcode := fcMemerr }
  let s := match tget s.rakes d.rake with
    | none => s
    | some r =>
      match takingZone s r (zoneFuel r) d.zone with
      | some z => unwindZone s d.rake z cause info
      | none => uncontained s r.region
  let d' := drayOf s dk
  if d'.gen = d.gen ∧ d'.rake = d.rake ∧ d'.launch = d.launch ∧ d'.done = false then stopDray s dk 6 fcMemerr else s

/-- Write a context's dirty L1 bytes back (11 R435). -/
def flushCtx (s : State) (ctx : Nat) : State :=
  (tkeys s.l1).foldl (fun s u => l1WriteBackAll s u ctx) s

/-- CONTEXT_RESET (11 R435). Discarded LAUNCHes are completed by the caller's queue walk. -/
def resetCtx (s : State) (ctx : Nat) : State :=
  let rgs := s.regions.filter (fun e => e.2.ctx == ctx && !e.2.completed)
  let order := (List.range regionFuel).reverse.flatMap (fun d =>
    (rgs.filter (fun e => e.2.depth == d)).map (fun e => e.1))
  let s := flushCtx s ctx
  let s := tearRegions s order 8 3
  let s := voidSessions s (fun se => se.ctx == ctx) 3
  { s with sessions := s.sessions.filter (fun e => e.2.ctx != ctx || !e.2.recorded)
           imps := s.imps.filter (fun i => i.ctx != ctx)
           tlbs := s.tlbs.map (fun e => (e.1, e.2.filter (fun t => t.ctx != ctx)))
           treebars := s.treebars.filter (fun e => e.1 / 8 != ctx)
           ctxs := tmod s.ctxs ctx (fun c => { c with rakeBusy := false })
           pending := (s.pending.filter (fun p => match p.2 with
             | .resume k => (coachOf s k).ctx != ctx
             | _ => true)).map (fun p => (p.1, refusePend (fun c _ => c == ctx) 8 p.2)) }

end Sys2Proof.Machine
end

