-- ==== Sys2Proof/WellFormed.lean ====
section
/-! DEFINITION. Well-formed instructions: the ones that some word encodes. A native operation has a format that its
opcode can show (02 R42) and, where one opcode serves several rows, the sub-function of its row; a dray jump has the
register fields of its form (07 R267); DRAY_ILLEGAL holds a word that no other dray row encodes. -/
namespace Sys2Proof

/-- WR of an SPR word (04 R150). -/
def sprWrites (w : NOp) : Bool :=
  match w.fmt with
  | .fr _ _ _ _ x => x.getLsbD 8
  | .fi _ _ xs _ => xs.getLsbD 8
  | .fl .. => false

/-- FN of a QCTL word (05 R205); 0 for a word that is not F-R. -/
def qctlFn (w : NOp) : Nat :=
  match w.fmt with
  | .fr _ _ _ _ x => (x.extractLsb' 4 3).toNat
  | _ => 0

/-- FN of an MVER word (06 R243); 0 for a word that is not F-R. -/
def mverFn (w : NOp) : Nat :=
  match w.fmt with
  | .fr _ _ _ _ x => (x.extractLsb' 0 3).toNat
  | _ => 0

/-- The measured form of LEASE (05 R209). -/
def leaseIsMeas (w : NOp) : Bool :=
  match w.fmt with
  | .fr _ _ _ _ x => x.getLsbD 0
  | .fi _ _ xs _ => xs.getLsbD 0
  | .fl .. => false

/-- The format is F-R or F-I. -/
def shortFmt (w : NOp) : Bool :=
  match w.fmt with
  | .fl .. => false
  | _ => true

/-- The format is F-R or F-L. -/
def longFmt (w : NOp) : Bool :=
  match w.fmt with
  | .fi .. => false
  | _ => true

/-- The format is F-L. -/
def isFl (w : NOp) : Bool :=
  match w.fmt with
  | .fl .. => true
  | _ => false

/-- The format is F-R. -/
def isFr (w : NOp) : Bool :=
  match w.fmt with
  | .fr .. => true
  | _ => false

/-- Some word encodes the instruction, or it is a step without a word. For DRAY_ILLEGAL see `decodeDray`: its word is
checked there. -/
def Instr.wf : Instr → Bool
  | .nop w => shortFmt w
  | .bra w => longFmt w
  | .brx w => shortFmt w
  | .call w => longFmt w
  | .callx w => shortFmt w
  | .ret w => shortFmt w
  | .join w => shortFmt w
  | .exit w => shortFmt w
  | .sleep w => isFl w
  | .sleepBar w => isFr w
  | .yield w => shortFmt w
  | .iadd w => shortFmt w
  | .isub w => shortFmt w
  | .imul w => shortFmt w
  | .imulh w => shortFmt w
  | .imad w => shortFmt w
  | .iaddc w => shortFmt w
  | .imin w => shortFmt w
  | .imax w => shortFmt w
  | .iabs w => shortFmt w
  | .icmp w => shortFmt w
  | .sel w => shortFmt w
  | .and w => shortFmt w
  | .or w => shortFmt w
  | .xor w => shortFmt w
  | .andn w => shortFmt w
  | .shl w => shortFmt w
  | .shr w => shortFmt w
  | .sar w => shortFmt w
  | .rotl w => shortFmt w
  | .bfe w => shortFmt w
  | .bfi w => shortFmt w
  | .popc w => shortFmt w
  | .clz w => shortFmt w
  | .ctz w => shortFmt w
  | .lea w => shortFmt w
  | .mov w => shortFmt w
  | .movi w => longFmt w
  | .movhi w => longFmt w
  | .iadd64 w => shortFmt w
  | .imad64 w => shortFmt w
  | .idp4 w => shortFmt w
  | .fadd w => shortFmt w
  | .fsub w => shortFmt w
  | .fmul w => shortFmt w
  | .ffma w => shortFmt w
  | .fmin w => shortFmt w
  | .fmax w => shortFmt w
  | .fcmp w => shortFmt w
  | .frnd w => shortFmt w
  | .frcp w => shortFmt w
  | .frsq w => shortFmt w
  | .fsqrt w => shortFmt w
  | .fexp2 w => shortFmt w
  | .flog2 w => shortFmt w
  | .fsin w => shortFmt w
  | .fcos w => shortFmt w
  | .fclass w => shortFmt w
  | .hadd2 w => shortFmt w
  | .hmul2 w => shortFmt w
  | .hfma2 w => shortFmt w
  | .hmin2 w => shortFmt w
  | .hmax2 w => shortFmt w
  | .hdot2 w => shortFmt w
  | .fdp4n w => shortFmt w
  | .cvt w => shortFmt w
  | .cvtn w => shortFmt w
  | .pack w => shortFmt w
  | .unpack w => shortFmt w
  | .scalex w => shortFmt w
  | .rand w => shortFmt w
  | .rseed w => shortFmt w
  | .shfl w => shortFmt w
  | .ballot w => shortFmt w
  | .vote w => shortFmt w
  | .redx w => shortFmt w
  | .scanx w => shortFmt w
  | .mop w => shortFmt w
  | .mpopc w => shortFmt w
  | .mfirst w => shortFmt w
  | .mact w => shortFmt w
  | .mmov w => shortFmt w
  | .spr w => shortFmt w && !sprWrites w
  | .sprWr w => shortFmt w && sprWrites w
  | .ld w => shortFmt w
  | .st w => shortFmt w
  | .lds w => shortFmt w
  | .sts w => shortFmt w
  | .ldl w => shortFmt w
  | .stl w => shortFmt w
  | .atom w => shortFmt w
  | .atoms w => shortFmt w
  | .fence w => shortFmt w
  | .cctl w => shortFmt w
  | .pref w => shortFmt w
  | .ipref w => shortFmt w
  | .ipin w => shortFmt w
  | .iunpin w => shortFmt w
  | .ldd w => shortFmt w
  | .std w => shortFmt w
  | .bari w => shortFmt w
  | .bara w => shortFmt w
  | .barw w => shortFmt w
  | .bars w => shortFmt w
  | .barx w => shortFmt w
  | .tbar w => shortFmt w
  | .tlwait w => shortFmt w
  | .tlrd w => shortFmt w
  | .cpy w => shortFmt w
  | .cpseal w => shortFmt w
  | .cpwait w => shortFmt w
  | .qctlOpen w => shortFmt w && qctlFn w == 0
  | .qctlClose w => shortFmt w && qctlFn w == 1
  | .qctlDrain w => shortFmt w && qctlFn w == 2
  | .mcfg w => shortFmt w
  | .mma w => shortFmt w
  | .mloop w => shortFmt w
  | .mzero w => shortFmt w
  | .mlda w => shortFmt w
  | .msta w => shortFmt w
  | .mprom w => shortFmt w
  | .mverRead w => shortFmt w && mverFn w == 0
  | .mverAcq w => shortFmt w && mverFn w == 1
  | .mverRel w => shortFmt w && mverFn w == 2
  | .mverWait w => shortFmt w && mverFn w == 3
  | .mmeta w => shortFmt w
  | .trap w => longFmt w
  | .tret w => shortFmt w
  | .leaseDecl w => shortFmt w && !leaseIsMeas w
  | .leaseMeas w => shortFmt w && leaseIsMeas w
  | .czopen w => shortFmt w
  | .czclose w => shortFmt w
  | .spawn w => shortFmt w
  | .sysrd w => shortFmt w
  | .syswr w => shortFmt w
  | .dbgbrk w => shortFmt w
  | .dturn w => shortFmt w
  | .systemPlateOp w => decide (0xE0 ≤ (w.extractLsb' 56 8).toNat ∧ (w.extractLsb' 56 8).toNat ≤ 0xFE)
  | .drayJmpLink l _ => l != 0
  | .drayJmpIndirect _ a => a != 0
  | _ => true

end Sys2Proof
end

