-- ==== Sys2Proof/Machine/Operands.lean ====
section
/-! DEFINITION. Operand forms of native operations (01 R27, 02 R41-R48), the decode checks of 02 R61, reading sources,
writing destinations, and the issue of one operation: its marker, its pops and its return-buffer slots (02 R49-R54). -/
namespace Sys2Proof.Machine

/-- The outcome of a meaning. -/
abbrev Out := Host.Outcome State Fault Refusal

/-! ### Fields of the word (02 R41, R42, R55) -/

def fD (w : NOp) : Nat :=
  match w.fmt with
  | .fr d _ _ _ _ => d.toNat
  | .fi d _ _ _ => d.toNat
  | .fl d _ _ => d.toNat
def fA (w : NOp) : Nat :=
  match w.fmt with
  | .fr _ a _ _ _ => a.toNat
  | .fi _ a _ _ => a.toNat
  | .fl .. => 0
def fB (w : NOp) : Nat :=
  match w.fmt with
  | .fr _ _ b _ _ => b.toNat
  | _ => 0
def fC (w : NOp) : Nat :=
  match w.fmt with
  | .fr _ _ _ c _ => c.toNat
  | _ => 0
/-- X in F-R. -/
def fX (w : NOp) : Nat :=
  match w.fmt with
  | .fr _ _ _ _ x => x.toNat
  | _ => 0
/-- XS in F-I and F-L. -/
def fXS (w : NOp) : Nat :=
  match w.fmt with
  | .fr .. => 0
  | .fi _ _ xs _ => xs.toNat
  | .fl _ xs _ => xs.toNat
/-- IMM24 or IMM32. -/
def fImm (w : NOp) : Nat :=
  match w.fmt with
  | .fr .. => 0
  | .fi _ _ _ imm => imm.toNat
  | .fl _ _ imm => imm.toNat
/-- The format: 0 F-R, 1 F-I, 2 F-L. -/
def fKind (w : NOp) : Nat :=
  match w.fmt with
  | .fr .. => 0
  | .fi .. => 1
  | .fl .. => 2
/-- F-I: the immediate is source B. -/
def fI (w : NOp) : Bool := fKind w == 1
/-- TY and RM (02 R55). -/
def fTy (w : NOp) : Nat := if fKind w = 0 then field (fX w) 16 13 else field (fXS w) 8 5
def fRm (w : NOp) : Nat := if fKind w = 0 then field (fX w) 12 10 else field (fXS w) 4 2
/-- OPX, or OPXS whose higher bits are zero (04 R107). -/
def fOpx (w : NOp) : Nat := if fKind w = 0 then fX w % 1024 else fXS w % 4
/-- The never predicate (02 R46). -/
def isNever (w : NOp) : Bool := w.pm == 0 && w.pn

/-! ### Type codes (02 R56) -/

def tySigned (ty : Nat) : Bool := ty == 0 || ty == 2 || ty == 4 || ty == 6
/-- SI64 or UI64: a pair. -/
def tyWide (ty : Nat) : Bool := ty == 2 || ty == 3
/-- Bits of the value. -/
def tyBits (ty : Nat) : Nat :=
  if ty = 2 ∨ ty = 3 then 64
  else if ty = 4 ∨ ty = 5 ∨ ty = 11 ∨ ty = 12 then 16
  else if ty = 6 ∨ ty = 7 ∨ ty = 13 then 8
  else if ty = 14 then 4
  else 32
/-- The IEEE layout of F32, F16 and BF16, packed or single. -/
def tyFmt (ty : Nat) : FFmt :=
  if ty = 9 ∨ ty = 11 then fmtF16 else if ty = 10 ∨ ty = 12 then fmtBF16 else fmtF32
/-- The value of an integer source (02 R57). -/
def tyInt (ty : Nat) (d : Dword) : Int :=
  if tySigned ty then sext (tyBits ty) d.toNat else ((d.toNat % 2 ^ tyBits ty : Nat) : Int)
/-- The register form of an integer result: signed types extend their sign (02 R57). -/
def tyOut (ty : Nat) (v : Int) : Dword :=
  let u := wrapNat (tyBits ty) v
  if tyWide ty then BitVec.ofNat 64 u
  else if tySigned ty then BitVec.ofNat 64 (wrapNat 32 (sext (tyBits ty) u))
  else BitVec.ofNat 64 u
/-- The range of an integer type. -/
def tyMin (ty : Nat) : Int := if tySigned ty then -((2 ^ (tyBits ty - 1) : Nat) : Int) else 0
def tyMax (ty : Nat) : Int :=
  if tySigned ty then ((2 ^ (tyBits ty - 1) : Nat) : Int) - 1 else ((2 ^ tyBits ty : Nat) : Int) - 1

/-- IMM24 as source B (02 R45). -/
def immValue (ty imm : Nat) : Dword :=
  match ty with
  | 0 | 4 | 6 => BitVec.ofNat 64 (wrapNat 32 (sext 24 imm))
  | 2 => BitVec.ofNat 64 (wrapNat 64 (sext 24 imm))
  | 8 => BitVec.ofNat 64 (imm * 256)
  | 9 | 10 => BitVec.ofNat 64 (imm % 65536 * 65537)
  | 11 | 12 => BitVec.ofNat 64 (imm % 65536)
  | _ => BitVec.ofNat 64 imm

/-- Bits of IMM24 that must be zero for the packed and 16-bit float types. -/
def immOk (w : NOp) : Bool :=
  !fI w || !(fTy w == 9 || fTy w == 10 || fTy w == 11 || fTy w == 12) || decide (fImm w < 65536)

/-! ### Decode checks (02 R61) -/

/-- What an operand field accepts. -/
inductive Opnd where
  /-- The field must hold 0x00. -/
  | unused
  /-- Accepted classes v, s, q, z; registers named; the number must be a multiple of their count (01 R21). -/
  | cls (v s q z : Bool) (n : Nat) (even : Bool)
  deriving DecidableEq, Repr

def oAny : Opnd := .cls true true true true 1 false
/-- A pair operand (04 R108). -/
def oPair : Opnd := .cls true true false true 2 true
/-- A pair or z. -/
def oPairZ : Opnd := .cls true true false true 2 true
/-- A pair in v or s registers. -/
def oPairVS : Opnd := .cls true true false false 2 true
def oVar (wide : Bool) : Opnd := if wide then oPair else oAny

/-- What an operation accepts; each flag says that its check passes. -/
structure OpSpec where
  fmtOk : Bool
  xOk : Bool := true
  immOk : Bool := true
  tyOk : Bool := true
  rmOk : Bool := true
  ordOk : Bool := true
  scopeOk : Bool := true
  d : Opnd := .unused
  a : Opnd := .unused
  b : Opnd := .unused
  c : Opnd := .unused
  /-- D is a source (a store's value). -/
  dSrc : Bool := false
  /-- The operation is long (02 R49), whatever its sources. -/
  long : Bool := false
  /-- The return-buffer slots that it takes, when the D field does not say (06 R241). -/
  slots : Option Nat := none
  /-- A check of the operation itself that no source decides and that fails: subtype and field. It comes before a pop of
  its sources (04 R150). -/
  own : Option (Nat × Nat) := none
  deriving DecidableEq, Repr

/-- The class and number of an operand code (01 R27). -/
inductive Code where
  | v (n : Nat) | s (n : Nat) | q (n : Nat) | z | bad
  deriving DecidableEq, Repr

def codeOf (c : Nat) : Code :=
  if c < 0xC0 then .v c else if c < 0xE0 then .s (c - 0xC0) else if c < 0xF0 then .q (c - 0xE0)
  else if c = 0xF0 then .z else .bad

def opndUnusedOk : Opnd → Nat → Bool
  | .unused, c => c == 0
  | _, _ => true

def opndClassOk : Opnd → Nat → Bool
  | .unused, _ => true
  | .cls v s q z n _, c =>
    match codeOf c with
    | .v _ => v
    -- a block of eight scalars starts at s0, s8, s16 or s24 (05 R197, 06 R229); the last of a pair or of a block of four is
    -- left to check 10 (R21, 05 R197; for 06 R237 log 71)
    | .s k => s && (n != 8 || k % 8 == 0)
    | .q _ => q
    | .z => z
    | .bad => false

/-- Check 9. A pair or a group at the last declared registers names those after it too, so an odd pair there fails here and
not in check 10 (DEDUCED, log 90). -/
def opndRegOk (nregs : Nat) : Opnd → Nat → Bool
  | .unused, _ => true
  | .cls _ _ _ _ n _, c =>
    match codeOf c with
    | .v k => decide (k + n ≤ nregs)
    | _ => true

def opndPairOk : Opnd → Nat → Bool
  | .unused, _ => true
  | .cls _ _ _ _ n even, c =>
    match codeOf c with
    | .v k => !even || k % n == 0
    | .s k => !even || k % n == 0
    | _ => true

def opndBoundOk (bound : Nat → Bool) : Opnd → Nat → Bool
  | .unused, _ => true
  | _, c =>
    match codeOf c with
    | .q k => bound k
    | _ => true

/-- The operand fields with their numbers in the trap frame (11 R408). In F-I and F-L the word has no B and C. -/
def opnds (sp : OpSpec) (w : NOp) : List (Nat × Opnd × Nat) :=
  match fKind w with
  | 0 => [(0, sp.d, fD w), (1, sp.a, fA w), (2, sp.b, fB w), (3, sp.c, fC w)]
  | 1 => [(0, sp.d, fD w), (1, sp.a, fA w)]
  | _ => [(0, sp.d, fD w)]

/-- The first field that fails a check. -/
def failField (f : Opnd → Nat → Bool) (l : List (Nat × Opnd × Nat)) : Option Nat :=
  (l.find? (fun e => !f e.2.1 e.2.2)).map (fun e => e.1)

/-- The decode checks from the second on, in order: the ILLEGAL subtype and the failing field. -/
def decodeCheck (sp : OpSpec) (w : NOp) (nregs : Nat) (bound : Nat → Bool) : Option (Nat × Nat) :=
  let l := opnds sp w
  let fld (sub : Nat) (o : Option Nat) : Option (Nat × Nat) := o.map (fun n => (sub, n))
  if !sp.fmtOk then some (iFormat, 0xFF)
  else
    match failField opndUnusedOk l with
    | some n => some (iRsvd, n)
    | none =>
      if !sp.xOk then some (iRsvd, 0xFF)
      else if !sp.immOk then some (iRsvd, 4)
      else if !sp.tyOk then some (iType, 0xFF)
      else if !sp.rmOk then some (iRound, 0xFF)
      else if !sp.ordOk then some (iOrder, 0xFF)
      else if !sp.scopeOk then some (iScope, 0xFF)
      else
        match fld iOperand (failField opndClassOk l) with
        | some e => some e
        | none =>
          match fld iReg (failField (opndRegOk nregs) l) with
          | some e => some e
          | none =>
            match fld iPair (failField opndPairOk l) with
            | some e => some e
            | none => fld iQunbound (failField (opndBoundOk bound) l)

/-! ### The operation that issues -/

/-- The operation of the latch: coach, word, group, enabled lanes, popped entries, whether it is long. -/
structure OpCtx where
  k : Nat
  w : NOp
  i : Iss
  grp : Mask
  en : Mask
  q : Tbl Entry
  long : Bool
  /-- The operation has popped at its turn (10 R396): nothing else of it waits for a turn. -/
  turn : Bool
  deriving DecidableEq, Repr

/-- The lanes of a group that a predicate enables (01 R18, 02 R46). -/
def enabledOf (co : Coach) (w : NOp) (grp : Mask) : Mask :=
  let p := mget co w.pm.toNat
  grp &&& (if w.pn then ~~~p else p)

/-- The word that an entry gives a lane (01 R23). -/
def entryLane : Entry → Nat → Word
  | .word w, _ => w
  | .lane ws valid, l => if valid.getLsbD l then tgetD 0 ws l else 0

/-- Register `r` of an operand code in a lane: offset `j` within its run of registers. -/
def readWord (c : OpCtx) (co : Coach) (code j l : Nat) : Word :=
  match codeOf code with
  | .v r => vget co (r + j) l
  | .s r => sget co (r + j)
  | .q r =>
    match tget c.q r with
    | some e => entryLane e l
    | none => 0
  | _ => 0

/-- A source value: one register zero-extended, or a pair. -/
def readOp (c : OpCtx) (co : Coach) (code : Nat) (pair : Bool) (l : Nat) : Dword :=
  if pair then pairOf (readWord c co code 0 l) (readWord c co code 1 l)
  else (readWord c co code 0 l).setWidth 64

/-- Sources A, B and C; B is the immediate in F-I. -/
def srcA (c : OpCtx) (co : Coach) (pair : Bool) (l : Nat) : Dword := readOp c co (fA c.w) pair l
def srcB (c : OpCtx) (co : Coach) (pair : Bool) (imm : Dword) (l : Nat) : Dword :=
  if fI c.w then imm else readOp c co (fB c.w) pair l
def srcC (c : OpCtx) (co : Coach) (pair : Bool) (l : Nat) : Dword := readOp c co (fC c.w) pair l

/-- The rounding mode of the operation: DYN reads FMODE (02 R58). -/
def roundOf (co : Coach) (w : NOp) : Nat := if fRm w = 5 then field co.fmode.toNat 2 0 else fRm w
/-- FTZ of FMODE (03 R91). -/
def ftzOf (co : Coach) : Bool := co.fmode.getLsbD 3

/-! ### Destinations (01 R21, R23, R24) -/

/-- Lane-register words that D receives: `val l j` is word j of lane l. -/
def laneWrites (d n : Nat) (en : Mask) (val : Nat → Nat → Word) : Tbl Word :=
  match codeOf d with
  | .v r => (List.range n).flatMap (fun j => (lanesOf en).map (fun l => (64 * (r + j) + l, val l j)))
  | _ => []

/-- Scalar words: the value of the lowest enabled lane. -/
def scalarWrites (d n : Nat) (en : Mask) (val : Nat → Nat → Word) : Tbl Word :=
  match codeOf d, lowLane en with
  | .s r, some l => (List.range n).map (fun j => (r + j, val l j))
  | _, _ => []

/-- The entry kind of a queue register. -/
def qIsLane (s : State) (co : Coach) (q : Nat) : Bool :=
  match (if q < 8 then boundQueue s co q else none) with
  | some (_, x) => x.lane
  | none => false

/-- The entry that D pushes. -/
def pushEntry (s : State) (co : Coach) (d : Nat) (en : Mask) (val : Nat → Nat → Word) : Option (Nat × Entry) :=
  match codeOf d with
  | .q r =>
    if qIsLane s co r then some (r, .lane ((lanesOf en).map (fun l => (l, val l 0))) en)
    else (lowLane en).map (fun l => (r, .word (val l 0)))
  | _ => none

/-- Write lane and scalar words. -/
def putWords (co : Coach) (vw sw : Tbl Word) : Coach :=
  let co := vw.foldl (fun co w => vset co (w.1 / 64) (w.1 % 64) w.2) co
  sw.foldl (fun co w => sset co w.1 w.2) co

/-! ### Flags of an operation (03 R94, R95, 08 R313) -/

/-- Per-flag masks of lanes from each lane's flags. -/
def laneFlags (en : Mask) (f : Nat → Flags) : List Mask :=
  (List.range 6).map (fun b => maskOf (fun l => en.getLsbD l && (f l).getLsbD b))

/-- No flag. -/
def noFlags : List Mask := [0, 0, 0, 0, 0, 0]

/-- The FPE of two: its lanes and flags are those of both. -/
def mergeFpe (h t : Trap) : Trap :=
  let bits (x : Trap) : Nat := ((x.area.find? (fun a => a.1 == 64)).map (fun a => a.2.2)).getD 0
  { h with tmask := h.tmask ||| t.tmask, area := [(64, 1, bits h ||| bits t)] }

/-- The FPE held for a group at a guest instruction, and the others. -/
def heldFpe (co : Coach) (grp : Mask) (ga : GAddr) : List (Mask × Trap) × List (Mask × Trap) :=
  co.fpeHeld.partition (fun h => h.2.opaddr == ga && (h.1 &&& grp) != 0)

/-- Hold an FPE until the group has passed its guest instruction: with what is held for it already, as one. -/
def holdFpe (co : Coach) (grp : Mask) (t : Trap) : Coach :=
  let (mine, others) := heldFpe co grp t.opaddr
  { co with fpeHeld := mine.foldl (fun a h => (a.1 ||| h.1, mergeFpe h.2 a.2)) (grp, t) :: others }

/-- The operation of the latch is the last of its expansion. -/
def Iss.isLast (i : Iss) : Bool := decide (i.count ≤ i.step + 1)

/-- After the group has passed the last operation of an expansion, take the FPE held for it. -/
def releaseFpe (s : State) (k : Nat) (i : Iss) : State :=
  if !i.isLast then s
  else
    let co := coachOf s k
    match heldFpe co i.group i.ga with
    | ([], _) => s
    | (h :: hs, others) =>
      raiseTrap (setCoach s k { co with fpeHeld := others }) k (hs.foldl (fun t x => mergeFpe t x.2) h.2)

/-- FSTAT takes the flags of a fixed-latency operation, and an enabled one makes an FPE pending for its end. -/
def raiseFlags (co : Coach) (i : Iss) (fl : List Mask) : Coach :=
  let co := { co with fstat := co.fstat ||| BitVec.ofNat 32 (flagWord fl) }
  let bits := enabledBits co.fmode fl
  if bits = 0 then co else holdFpe co i.group (fpeTrap bits (enabledLanes co.fmode fl) i.word i.ga i.step)

/-! ### Completion -/

/-- A wait that must not change which operation the coach issues next: for its turn, and for room in its bundles (10 R395,
R396). -/
def keepsPlace : StallKind → Bool
  | .turn => true
  | .bundleRoom => true
  | _ => false

/-- Add a stall of lanes at the operation of the latch. An operation that has not issued takes its slot's second group
back with it, so that A still comes before B (01 R17); one that waits for its turn or for room keeps its place. -/
def stallLanes (s : State) (k : Nat) (i : Iss) (m : Mask) (kind : StallKind) : State :=
  modCoach s k (fun co =>
    { co with stalls := co.stalls ++ [{ lanes := m, ga := i.ga, step := i.step, kind := kind }]
              pair := if stallKept kind then co.pair else none
              resume := if keepsPlace kind then some (m, co.pair) else co.resume })

/-- The operation waits after its pops: their entries stay with it, and it does not pop again. -/
def stallHolding (c : OpCtx) (s : State) (kind : StallKind) : State :=
  c.q.foldl (fun s e => stallLanes s c.k c.i c.grp (.pop e.1 (some e.2))) (stallLanes s c.k c.i c.grp kind)

/-- The trap of an operation that passes in its whole group (08 R313): nothing but the trap's own entry moves the group,
so an FPE of the commit can take its place (11 R409). -/
def passTrap (k : Nat) (i : Iss) (grp : Mask) (s : State) (t : Trap) : State :=
  raiseTrap s k { t with move := grp, moveTo := i.ga + BitVec.ofNat 57 i.len, moveCounts := true }

/-- The whole group passes the operation, and an FPE due at its end is taken. -/
def finishGroup (c : OpCtx) (s : State) : State :=
  releaseFpe (modCoach s c.k (fun co => passLanes co c.i c.grp)) c.k c.i

/-- A return-buffer slot for the operation of the latch, not yet returned. -/
def slotOf (co : Coach) (c : OpCtx) (cost : Nat) (vw sw : Tbl Word) (fl : List Mask) : Slot :=
  { cost := cost, order := co.orderNext, lanes := c.en, vw := vw, sw := sw, push := none, spr := none, flags := fl
    returned := false, cpy := none, tile := none, opword := c.i.word, opga := c.i.ga, opstep := c.i.step }

/-- Slots for a destination of `n` registers (02 R50). -/
def slotCost (d n : Nat) : Nat :=
  match codeOf d with
  | .v _ => (n + 3) / 4
  | .s _ => (n + 3) / 4
  | _ => 1

/-- Add a slot to the return buffer. -/
def addSlot (co : Coach) (sl : Slot) : Coach := { co with rbuf := co.rbuf ++ [sl], orderNext := co.orderNext + 1 }

/-- Lanes of a protected coach whose shadow disagrees (12 R469). -/
def shadowBad (co : Coach) (lanes : Mask) : Mask := if co.prot then co.shadowDiff &&& lanes else 0

/-- A push of a protected coach whose shadow disagrees: for a WORD the lowest enabled lane's, for a LANE every lane's. -/
def shadowPush (s : State) (co : Coach) (d : Nat) (lanes : Mask) : Bool :=
  match codeOf d with
  | .q r =>
    let bad := shadowBad co lanes
    if qIsLane s co r then bad != 0 else ((lowLane lanes).map (fun l => bad.getLsbD l)).getD false
  | _ => false

/-- SHADOW (12 R469): the mismatch in the lanes is spent (log 13), and the innermost zone unwinds. -/
def shadowError (s : State) (k : Nat) (lanes : Mask) (info : Nat) : State :=
  coachError (modCoach s k (fun co => { co with shadowDiff := co.shadowDiff &&& ~~~lanes })) k 3 info

/-- Put popped entries back: a failing operation has no effect (02 R61). -/
def unpop (c : OpCtx) (s : State) : State :=
  c.q.foldl (fun s e =>
    let co := coachOf s c.k
    if e.1 < 8 then
      match boundQueue s co e.1 with
      | some (qi, x) => setQueue s co.region qi { x with entries := e.2 :: x.entries }
      | none => s
    else
      match (tget co.ports e.1).bind (fun pk => (tget s.ports pk).map (fun p => (pk, p))) with
      | some (pk, p) => { s with ports := tput s.ports pk { p with resps := entryLane e.2 0 :: p.resps } }
      | none => s) s

/-- Deliver a lane operation's results: into a slot when it is long, else into D at once; then the group passes.
`lanes` receive values (enabled lanes, less the ones that a fault has parked). -/
def deliverTo (c : OpCtx) (lanes : Mask) (n : Nat) (val : Nat → Nat → Word) (fl : List Mask) (s : State) : State :=
  let co := coachOf s c.k
  let d := fD c.w
  if shadowPush s co d lanes then shadowError (unpop c s) c.k lanes 0
  else if c.long && lanes == 0 then finishGroup c s
  else if c.long then
    let sl := slotOf co c (slotCost d n) (laneWrites d n lanes val) (scalarWrites d n lanes val) fl
    finishGroup c (setCoach s c.k (addSlot co { sl with lanes := lanes, push := pushEntry s co d lanes val }))
  else
    match pushEntry s co d lanes val with
    | none =>
      finishGroup c (setCoach s c.k
        (raiseFlags (putWords co (laneWrites d n lanes val) (scalarWrites d n lanes val)) c.i fl))
    | some (q, e) =>
      match pushReg s c.k q e with
      | .done s => finishGroup c (modCoach s c.k (fun co => raiseFlags co c.i fl))
      | .xlat x va s =>
        parkLanes (modCoach (unpop c s) c.k (fun co => passLanes co c.i (c.grp &&& ~~~lanes))) c.k lanes va x 2 false
      | .full =>
        -- the enabled lanes wait; the others pass
        let s := modCoach s c.k (fun co =>
          modLanes (raiseFlags (passLanes co c.i (c.grp &&& ~~~lanes)) c.i fl) lanes
            (fun _ x => { x with nga := c.i.next.1, nstep := c.i.next.2, word := c.i.word }))
        stallLanes s c.k c.i lanes
          (pushKind q e (cycleOf s (coreOf co)))

/-- Deliver values of one or two registers in every enabled lane, with flags. -/
def deliver (c : OpCtx) (wide : Bool) (f : Nat → Dword × Flags) (s : State) : State :=
  deliverTo c c.en (if wide then 2 else 1) (fun l j => if j = 0 then loOf (f l).1 else hiOf (f l).1)
    (laneFlags c.en (fun l => (f l).2)) s

/-! ### Pops (01 R23, 05 R203, R206) -/

/-- Queue registers among the sources. -/
def sourceQueues (sp : OpSpec) (w : NOp) : List Nat :=
  let srcs := (opnds sp w).filter (fun e => e.1 != 0 || sp.dSrc)
  (srcs.filterMap (fun e => match e.2.1, codeOf e.2.2 with
    | .cls .., .q r => some r
    | _, _ => none)).eraseDups

/-- What a pop finds. -/
inductive PopState where
  | ready | wait | qempty
  deriving DecidableEq, Repr

/-- The entry that a completed pop holds for the group. -/
def gotEntry (co : Coach) (i : Iss) (q : Nat) : Option Entry :=
  (co.stalls.filterMap (fun st =>
    if st.ga = i.ga ∧ st.step = i.step then
      (match st.kind with
        | .pop r (some e) => if r = q then some e else none
        | _ => none)
    else none)).head?

/-- A response of a port is due for a command already pushed: one that the engine performs, or whose words are all there. -/
def Port.owes (p : Port) : Bool :=
  p.due != 0 || (match p.cmds with
    | [] => false
    | (h, _) :: rest => decide (field h.toNat 19 16 ≤ rest.length))

/-- Whether a pop can proceed. -/
def popState (s : State) (co : Coach) (i : Iss) (q : Nat) : PopState :=
  if (gotEntry co i q).isSome then .ready
  else if q < 8 then
    match boundQueue s co q with
    | some (_, x) => if x.entries.isEmpty && x.ovIn == x.ovOut then .wait else .ready
    | none => .wait
  else
    match (tget co.ports q).bind (fun pk => tget s.ports pk) with
    | some p => if !p.resps.isEmpty then .ready else if p.owes then .wait else .qempty
    | none => .wait

/-- Take the entry of a queue register that is ready: an acquire at device scope (05 R204). -/
def takePop (s : State) (k : Nat) (i : Iss) (q : Nat) : Option (Entry × State) :=
  let co := coachOf s k
  match gotEntry co i q with
  | some e =>
    let keep (st : Stall) : Bool := !(st.ga == i.ga && st.step == i.step && match st.kind with
      | .pop r (some _) => r == q
      | _ => false)
    some (e, setCoach s k { co with stalls := co.stalls.filter keep })
  | none =>
    let core := coreOf co
    if q < 8 then
      match boundQueue s co q with
      | some (qi, _) =>
        match popQueue s (coreUnits core) co.region qi with
        | some (e, s) => some (e, acquireGlobal s (l1Unit s core) co.ctx 4)
        | none => none
      | none => none
    else
      match tget co.ports q with
      | none => none
      | some pk =>
        match tget s.ports pk with
        | some p =>
          match p.resps with
          | [] => none
          | r :: rs =>
            -- the pop acquires the record (09 R358)
            let s := { s with ports := tput s.ports pk { p with resps := rs } }
            some (.word r, acquireGlobal s (l1Unit s core) co.ctx 4)
        | none => none

/-- Take every entry; a pop that fails to read its overflow slot leaves the group where it is. -/
def takePops (s : State) (k : Nat) (i : Iss) : List Nat → Tbl Entry → Option (Tbl Entry × State)
  | [], acc => some (acc, s)
  | q :: qs, acc =>
    match takePop s k i q with
    | some (e, s) => takePops s k i qs (tput acc q e)
    | none => none

/-- A check of the operation itself fails: ILLEGAL, without effect. -/
def reject (c : OpCtx) (s : State) (sub fieldNo : Nat) : State := illegal (unpop c s) c.en sub fieldNo

/-! ### Issue of one operation -/

/-- Outcome of the marker of 02 R50: go on, or the state in which the operation has not issued. -/
inductive Ready where
  | go (s : State)
  | stop (s : State)

/-- Commit before the operation of the latch: wait for slots, commit them, and take an FPE that they raise, or hold it to
the end of an expansion under way (08 R313). -/
def markerCommit (s : State) (k : Nat) (i : Iss) (grp : Mask) : Ready :=
  let co := coachOf s k
  if co.rbuf.isEmpty then .go s
  else if let some sl := co.rbuf.find? (slotStuck s) then
    .stop (raiseTrap s k (opTrap i 1 iVersion grp grp (versionArea s ((sl.tile.map (fun t => t.1)).getD 0))))
  else if !allReturned co then .stop (stallLanes s k i grp .marker)
  else
    let slots := co.rbuf
    let (fl, s) := commitAll s k
    let co := coachOf s k
    let go (s : State) : Ready := if commitWaits co then .stop s else .go s
    match commitFpe co slots fl with
    | some t =>
      if i.step = 0 then .stop (raiseTrap s k t)
      else go (setCoach s k (holdFpe co grp { t with opaddr := i.ga }))
    | none => go s

/-- Whether a word's sources make it long, and its slots. -/
def isLong (sp : OpSpec) (w : NOp) : Bool := sp.long || !(sourceQueues sp w).isEmpty

/-- Registers that D names. -/
def Opnd.count : Opnd → Nat
  | .unused => 1
  | .cls _ _ _ _ n _ => n

/-- Slots in use. -/
def slotsUsed (co : Coach) : Nat := (co.rbuf.map Slot.cost).foldl (· + ·) 0

/-- The slots that the operation will take: none when it writes no register (02 R50 step 1). -/
def costOf (sp : OpSpec) (w : NOp) : Nat :=
  (sp.slots).getD (match sp.d with
    | .unused => 0
    | _ => if sp.dSrc then 0 else slotCost (fD w) sp.d.count)

/-- A turn-served pop ends the bundle and waits for the coach's turn (10 R396). -/
def awaitTurn (s : State) (k : Nat) (i : Iss) (grp : Mask) : State :=
  stallLanes (modCoach s k (fun co => endBundle co true)) k i grp .turn

/-- The operation takes the turn that it was granted. -/
def useTurn (s : State) (k : Nat) : State := modCoach s k (fun co => { co with turnGranted := false })

/-- Room for the push that D makes, in a deterministic region, before the operation issues: a long operation's push is
staged at the commit, and is counted from its issue on (10 R395). -/
def pushRoom (s : State) (co : Coach) (sp : OpSpec) (w : NOp) : Bool :=
  match sp.d, codeOf (fD w) with
  | .cls .., .q r =>
    sp.dSrc || decide (8 ≤ r) || detRoom co (stagedCost (.push r (if qIsLane s co r then .lane [] 0 else .word 0))) false
  | _, _ => true

/-- ISSUE OF A NATIVE OPERATION (02 R46-R54, R61): the decode checks, the commit of a marked operation, the inserted
marker, the pops, and then the operation's own effect, in the enabled lanes of the latch's group; with none enabled the
operation makes no check of its own (log 80). -/
def native (w : NOp) (sp : OpSpec) (body : OpCtx → State → State) (s : State) : State :=
  let i := s.iss
  let k := i.coach
  let co := coachOf s k
  let grp := i.group
  let en := enabledOf co w grp
  match decodeCheck sp w co.nregs (qBound s co) with
  | some (sub, fieldNo) =>
    if en ≠ 0 ∨ (isNever w = true ∧ w.sw = true) then illegal s en sub fieldNo
    else releaseFpe (modCoach s k (fun co => passLanes co i grp)) k i
  | none =>
    match (if w.sw then markerCommit s k i grp else .go s) with
    | .stop s => s
    | .go s =>
      if en = 0 then releaseFpe (modCoach s k (fun co => passLanes co i grp)) k i
      else
        let long := isLong sp w
        let co := coachOf s k
        match (if long && decide (16 < slotsUsed co + costOf sp w) then markerCommit s k i grp else .go s) with
        | .stop s => s
        | .go s =>
          let co := coachOf s k
          let qs := sourceQueues sp w
          let c : OpCtx := { k := k, w := w, i := i, grp := grp, en := en, q := [], long := long, turn := false }
          if isDet s co && !pushRoom s co sp w then stallLanes s k i grp .bundleRoom
          else if qs.isEmpty then body c s
          else if sp.own.isSome then illegal s en ((sp.own).getD (0, 0)).1 ((sp.own).getD (0, 0)).2
          else if qs.any (fun q => popState s co i q == .qempty) then illegal s en iQempty 0xFF
          else if isDet s co && qs.any (fun q => decide (q < 8)) && !co.turnGranted
              && !(qs.all (fun q => (gotEntry co i q).isSome)) then
            if detRoom co 0 true then awaitTurn s k i grp else stallLanes s k i grp .bundleRoom
          else
            match qs.find? (fun q => popState s co i q == .wait) with
            | some q => stallLanes s k i grp (.pop q none)
            | none =>
              match takePops s k i qs [] with
              | some (t, s1) =>
                body { c with q := t, turn := isDet s co && qs.any (fun q => decide (q < 8)) } (if isDet s co then useTurn s1 k else s1)
              | none => stallLanes s k i grp (.pop ((qs.head?).getD 0) none)

/-! ### Function fields -/

/-- Bits of `v` outside the `mask` are zero. -/
def onlyBits (mask v : Nat) : Bool := Nat.land v mask == v

/-- TY is one of a list (02 R57); 0xF never is. -/
def tyIn (w : NOp) (l : List Nat) : Bool := l.contains (fTy w)
/-- The operation does not round: RM is 0 (02 R58). -/
def rmZero (w : NOp) : Bool := fRm w == 0
/-- The operation rounds: RM is 0-5. -/
def rmAny (w : NOp) : Bool := decide (fRm w ≤ 5)
/-- F-R only. -/
def onlyR (w : NOp) : Bool := fKind w == 0
/-- F-R, or F-I whose immediate is a value: not with NF types (02 R45). -/
def valueI (w : NOp) : Bool := fKind w == 0 || (fKind w == 1 && !(fTy w == 13 || fTy w == 14))
/-- F-R or F-I. -/
def shortForm (w : NOp) : Bool := decide (fKind w ≤ 1)

end Sys2Proof.Machine
end

