-- ==== Sys2Proof/Machine/Integer.lean ====
section
/-! DEFINITION. Integer operations, comparison, selection, bitwise operations, moves and addresses (04 R112-R124). -/
namespace Sys2Proof.Machine

/-- A lane operation: `f` gives each enabled lane's result, from the coach as it stands when the sources are read. -/
def laneOp (w : NOp) (sp : OpSpec) (wide : Bool) (f : OpCtx → Coach → Nat → Dword × Flags) (s : State) : State :=
  native w sp (fun c s => deliver c wide (f c (coachOf s c.k)) s) s

/-- A result without a flag. -/
def plain (d : Dword) : Dword × Flags := (d, 0)

/-! ### Arithmetic (R112) -/

/-- SI32, UI32, SI16, UI16, SI8, UI8. -/
def tyInts : List Nat := [0, 1, 4, 5, 6, 7]
/-- SI32, UI32, SI64, UI64. -/
def tyWords : List Nat := [0, 1, 2, 3]

/-- The exact value into the type: clamped with SAT, else wrapped. -/
def intResult (ty : Nat) (sat : Bool) (v : Int) : Dword :=
  tyOut ty (if sat then clampInt (tyMin ty) (tyMax ty) v else v)

/-- Operations of A and B. `satOk` says that OPX<0> is SAT. -/
def intOp2 (w : NOp) (satOk : Bool) (f : Nat → Int → Int → Int) (s : State) : State :=
  let ty := fTy w
  laneOp w { fmtOk := valueI w, xOk := onlyBits (if satOk then 1 else 0) (fOpx w), immOk := immOk w
             tyOk := tyIn w tyInts, rmOk := rmZero w, d := oAny, a := oAny, b := oAny } false
    (fun c co l => plain (intResult ty (satOk && fOpx w % 2 == 1)
      (f ty (tyInt ty (srcA c co false l)) (tyInt ty (srcB c co false (immValue ty (fImm w)) l))))) s

def execIadd (w : NOp) (s : State) : Out := .next (intOp2 w true (fun _ a b => a + b) s)
def execIsub (w : NOp) (s : State) : Out := .next (intOp2 w true (fun _ a b => a - b) s)
def execImul (w : NOp) (s : State) : Out := .next (intOp2 w true (fun _ a b => a * b) s)
/-- The upper half of the product. -/
def execImulh (w : NOp) (s : State) : Out :=
  .next (intOp2 w false (fun ty a b => a * b / ((2 ^ tyBits ty : Nat) : Int)) s)
def execImin (w : NOp) (s : State) : Out := .next (intOp2 w false (fun _ a b => if b < a then b else a) s)
def execImax (w : NOp) (s : State) : Out := .next (intOp2 w false (fun _ a b => if a < b then b else a) s)

def execImad (w : NOp) (s : State) : Out :=
  let ty := fTy w
  .next (laneOp w { fmtOk := onlyR w, xOk := onlyBits 1 (fOpx w), tyOk := tyIn w tyInts, rmOk := rmZero w
                    d := oAny, a := oAny, b := oAny, c := oAny } false
    (fun c co l => plain (intResult ty (fOpx w % 2 == 1)
      (tyInt ty (srcA c co false l) * tyInt ty (srcB c co false 0 l) + tyInt ty (srcC c co false l)))) s)

def execIabs (w : NOp) (s : State) : Out :=
  let ty := fTy w
  .next (laneOp w { fmtOk := onlyR w, xOk := onlyBits 1 (fOpx w), tyOk := tyIn w [0, 4, 6], rmOk := rmZero w
                    d := oAny, a := oAny } false
    (fun c co l => plain (intResult ty (fOpx w % 2 == 1)
      ((tyInt ty (srcA c co false l)).natAbs : Int))) s)

/-- IADDC by OPX<1:0> (R113). -/
def addCarry (fn a b c : Nat) : Nat :=
  match fn with
  | 0 => (a + b + c % 2) % 2 ^ 32
  | 1 => if 2 ^ 32 ≤ a + b + c % 2 then 1 else 0
  | 2 => wrapNat 32 ((a : Int) - b - (c % 2 : Nat))
  | _ => if a < b + c % 2 then 1 else 0

def execIaddc (w : NOp) (s : State) : Out :=
  .next (laneOp w { fmtOk := onlyR w, xOk := onlyBits 3 (fOpx w), tyOk := tyIn w [0, 1], rmOk := rmZero w
                    d := oAny, a := oAny, b := oAny, c := oAny } false
    (fun c co l => plain (BitVec.ofNat 64 (addCarry (fOpx w) (srcA c co false l).toNat (srcB c co false 0 l).toNat
      (srcC c co false l).toNat))) s)

def execIadd64 (w : NOp) (s : State) : Out :=
  let ty := fTy w
  .next (laneOp w { fmtOk := valueI w, xOk := onlyBits 3 (fOpx w), immOk := immOk w, tyOk := tyIn w [2, 3]
                    rmOk := rmZero w, d := oPair, a := oPair, b := oPair } true
    (fun c co l =>
      let a := tyInt ty (srcA c co true l)
      let b := tyInt ty (srcB c co true (immValue ty (fImm w)) l)
      plain (intResult ty (fOpx w % 2 == 1) (if (fOpx w).testBit 1 then a - b else a + b))) s)

def execImad64 (w : NOp) (s : State) : Out :=
  let ty := fTy w
  let half := if ty = 2 then 0 else 1
  .next (laneOp w { fmtOk := onlyR w, xOk := onlyBits 1 (fOpx w), tyOk := tyIn w [2, 3], rmOk := rmZero w
                    d := oPair, a := oAny, b := oAny, c := oPair } true
    (fun c co l => plain (intResult ty (fOpx w % 2 == 1)
      (tyInt half (srcA c co false l) * tyInt half (srcB c co false 0 l) + tyInt ty (srcC c co true l)))) s)

/-- Sum of four byte products; a byte is signed when its flag is set (R114). -/
def dot4 (asgn bsgn : Bool) (a b : Nat) : Int :=
  let byte (sg : Bool) (v i : Nat) : Int :=
    if sg then sext 8 (v / 2 ^ (8 * i)) else ((v / 2 ^ (8 * i) % 256 : Nat) : Int)
  byte asgn a 0 * byte bsgn b 0 + byte asgn a 1 * byte bsgn b 1 + byte asgn a 2 * byte bsgn b 2
    + byte asgn a 3 * byte bsgn b 3

def execIdp4 (w : NOp) (s : State) : Out :=
  .next (laneOp w { fmtOk := onlyR w, xOk := onlyBits 3 (fOpx w), tyOk := tyIn w [0], rmOk := rmZero w
                    d := oAny, a := oAny, b := oAny, c := oAny } false
    (fun c co l => plain (tyOut 0 (tyInt 0 (srcC c co false l)
      + dot4 (fOpx w % 2 == 1) ((fOpx w).testBit 1) (srcA c co false l).toNat (srcB c co false 0 l).toNat))) s)

/-! ### Comparison (R115, R116) -/

/-- Fields of the comparison layout. -/
def cmpCmb (w : NOp) : Nat := field (fX w) 9 8
def cmpMk (w : NOp) : Nat := field (fX w) 7 4
def cmpMsk (w : NOp) : Bool := (fX w).testBit 3
def cmpCc (w : NOp) : Nat := fX w % 8

/-- CMB 3 is reserved; without MSK, MK and CMB must be 0; with it, D must be 0x00. -/
def cmpXOk (w : NOp) (ccOk : Bool) : Bool :=
  ccOk && cmpCmb w != 3 && (cmpMsk w || (cmpCmb w == 0 && cmpMk w == 0))

/-- The new mask of a comparison. -/
def cmpMask (old en t : Mask) (cmb : Nat) : Mask :=
  match cmb with
  | 0 => en &&& t
  | 1 => (old &&& ~~~en) ||| (old &&& en &&& t)
  | _ => old ||| (en &&& t)

/-- A write of a mask register by a fixed-latency operation, or at the commit of a long one, is immediate (R149). A compare
with a queue source writes no register at its commit: it takes no return-buffer slot, and only its flags wait there (02 R50,
DEDUCED, log 90). -/
def deliverMask (c : OpCtx) (mk : Nat) (m : Mask) (fl : List Mask) (s : State) : State :=
  let co := coachOf s c.k
  if c.long then
    -- the sources were popped: flags come at the commit, the mask write is fixed-latency (R149)
    finishGroup c (setCoach s c.k (addSlot (mset co mk m) (slotOf co c 0 [] [] fl)))
  else finishGroup c (setCoach s c.k (raiseFlags (mset co mk m) c.i fl))

/-- A comparison: condition and flags of each lane. -/
def cmpOp (w : NOp) (sp : OpSpec) (f : OpCtx → Coach → Nat → Bool × Flags) (s : State) : State :=
  native w sp (fun c s =>
    let co := coachOf s c.k
    if cmpMsk w then
      let t := maskOf (fun l => c.en.getLsbD l && (f c co l).1)
      deliverMask c (cmpMk w) (cmpMask (mget co (cmpMk w)) c.en t (cmpCmb w))
        (laneFlags c.en (fun l => (f c co l).2)) s
    else deliver c false (fun l => (if (f c co l).1 then 1 else 0, (f c co l).2)) s) s

/-- The condition of ICMP. -/
def intCond (cc : Nat) (a b : Int) : Bool :=
  match cc with
  | 0 => decide (a = b)
  | 1 => decide (a ≠ b)
  | 2 => decide (a < b)
  | 3 => decide (a ≤ b)
  | 4 => decide (b < a)
  | _ => decide (b ≤ a)

def execIcmp (w : NOp) (s : State) : Out :=
  let ty := fTy w
  .next (cmpOp w { fmtOk := onlyR w, xOk := cmpXOk w (decide (cmpCc w < 6)), tyOk := tyIn w (tyInts ++ [2, 3])
                   rmOk := rmZero w, d := if cmpMsk w then .unused else oAny, a := oVar (tyWide ty), b := oVar (tyWide ty) }
    (fun c co l => (intCond (cmpCc w) (tyInt ty (srcA c co (tyWide ty) l)) (tyInt ty (srcB c co (tyWide ty) 0 l)), 0)) s)

/-! ### Selection (R117) and bitwise operations (R118) -/

def execSel (w : NOp) (s : State) : Out :=
  let wide := tyWide (fTy w)
  let ms := (fOpx w).testBit 4
  .next (laneOp w { fmtOk := onlyR w, xOk := onlyBits 31 (fOpx w) && (ms || fOpx w % 16 == 0), tyOk := tyIn w tyWords
                    rmOk := rmZero w, d := oVar wide, a := oVar wide, b := oVar wide, c := if ms then .unused else oAny } wide
    (fun c co l =>
      let t := if ms then (mget co (fOpx w % 16)).getLsbD l else srcC c co false l != 0
      plain (if t then srcA c co wide l else srcB c co wide 0 l)) s)

/-- The four bitwise operations. -/
def bitOp (w : NOp) (f : Dword → Dword → Dword) (s : State) : State :=
  let wide := tyWide (fTy w)
  laneOp w { fmtOk := valueI w, xOk := fOpx w == 0, immOk := immOk w, tyOk := tyIn w tyWords, rmOk := rmZero w
             d := oVar wide, a := oVar wide, b := oVar wide } wide
    (fun c co l => plain (f (srcA c co wide l) (srcB c co wide (immValue (fTy w) (fImm w)) l))) s

def execAnd (w : NOp) (s : State) : Out := .next (bitOp w (fun a b => a &&& b) s)
def execOr (w : NOp) (s : State) : Out := .next (bitOp w (fun a b => a ||| b) s)
def execXor (w : NOp) (s : State) : Out := .next (bitOp w (fun a b => a ^^^ b) s)
def execAndn (w : NOp) (s : State) : Out := .next (bitOp w (fun a b => a &&& ~~~b) s)

/-! ### Shifts (R119) -/

/-- A shift: `f` takes the width, the value's low bits and the amount. F-I zero-extends IMM24. -/
def shiftOp (w : NOp) (f : Nat → Nat → Nat → Nat) (s : State) : State :=
  let wide := tyWide (fTy w)
  let bits := if wide then 64 else 32
  laneOp w { fmtOk := valueI w, xOk := fOpx w == 0, tyOk := tyIn w tyWords, rmOk := rmZero w
             d := oVar wide, a := oVar wide, b := oAny } wide
    (fun c co l => plain (BitVec.ofNat 64 (f bits (srcA c co wide l).toNat
      (srcB c co false (BitVec.ofNat 64 (fImm w)) l).toNat))) s

def shiftLeft (w a n : Nat) : Nat := if w ≤ n then 0 else a * 2 ^ n % 2 ^ w
def shiftRight (w a n : Nat) : Nat := if w ≤ n then 0 else a / 2 ^ n
/-- Arithmetic right shift; a shift by the width or more leaves the sign. -/
def shiftArith (w a n : Nat) : Nat :=
  if w ≤ n then (if a.testBit (w - 1) then 2 ^ w - 1 else 0) else wrapNat w (sext w a / ((2 ^ n : Nat) : Int))
def rotateLeft (w a n : Nat) : Nat :=
  let k := n % w
  Nat.lor (a * 2 ^ k % 2 ^ w) (a / 2 ^ (w - k))

def execShl (w : NOp) (s : State) : Out := .next (shiftOp w shiftLeft s)
def execShr (w : NOp) (s : State) : Out := .next (shiftOp w shiftRight s)
def execSar (w : NOp) (s : State) : Out := .next (shiftOp w shiftArith s)
def execRotl (w : NOp) (s : State) : Out := .next (shiftOp w rotateLeft s)

/-! ### Fields (R120) and counts (R121) -/

/-- The field of A at pos, len. -/
def bitExtract (sg : Bool) (w a pos len : Nat) : Nat :=
  if w ≤ pos ∨ len = 0 then 0
  else
    let n := if w - pos < len then w - pos else len
    let f := a / 2 ^ pos % 2 ^ n
    if sg then wrapNat w (sext n f) else f

/-- `base` with the field at pos, len replaced by the low bits of A. -/
def bitInsert (w base a pos len : Nat) : Nat :=
  if w ≤ pos ∨ len = 0 then base
  else
    let n := if w - pos < len then w - pos else len
    base % 2 ^ pos + a % 2 ^ n * 2 ^ pos + base / 2 ^ (pos + n) * 2 ^ (pos + n)

def execBfe (w : NOp) (s : State) : Out :=
  let ty := fTy w
  let wide := tyWide ty
  .next (laneOp w { fmtOk := valueI w, xOk := fOpx w == 0, tyOk := tyIn w tyWords, rmOk := rmZero w
                    d := oVar wide, a := oVar wide, b := oAny } wide
    (fun c co l =>
      let b := (srcB c co false (BitVec.ofNat 64 (fImm w)) l).toNat
      plain (BitVec.ofNat 64 (bitExtract (tySigned ty) (tyBits ty) (srcA c co wide l).toNat (b % 256) (b / 256 % 256)))) s)

/-- In F-I the base is D's own old value, and D is a v or s register. -/
def execBfi (w : NOp) (s : State) : Out :=
  let ty := fTy w
  let wide := tyWide ty
  let n := if wide then 2 else 1
  .next (laneOp w { fmtOk := valueI w, xOk := fOpx w == 0, tyOk := tyIn w tyWords, rmOk := rmZero w
                    d := if fI w then .cls true true false false n wide else oVar wide
                    a := oVar wide, b := oAny, c := oVar wide } wide
    (fun c co l =>
      let b := (srcB c co false (BitVec.ofNat 64 (fImm w)) l).toNat
      let base := (if fI w then readOp c co (fD w) wide l else srcC c co wide l).toNat
      plain (BitVec.ofNat 64 (bitInsert (tyBits ty) base (srcA c co wide l).toNat (b % 256) (b / 256 % 256)))) s)

/-- A count of A's bits; D is single. -/
def countOp (w : NOp) (f : Nat → Nat → Nat) (s : State) : State :=
  let wide := tyWide (fTy w)
  laneOp w { fmtOk := onlyR w, xOk := fOpx w == 0, tyOk := tyIn w tyWords, rmOk := rmZero w
             d := oAny, a := oVar wide } false
    (fun c co l => plain (BitVec.ofNat 64 (f (tyBits (fTy w)) (srcA c co wide l).toNat))) s

def popCount (w a : Nat) : Nat := ((List.range w).filter (fun i => a.testBit i)).length
def leadZeros (w a : Nat) : Nat := if a = 0 then w else w - 1 - a.log2
def trailZeros (w a : Nat) : Nat := ((List.range w).find? (fun i => a.testBit i)).getD w

def execPopc (w : NOp) (s : State) : Out := .next (countOp w popCount s)
def execClz (w : NOp) (s : State) : Out := .next (countOp w leadZeros s)
def execCtz (w : NOp) (s : State) : Out := .next (countOp w trailZeros s)

/-! ### Moves and addresses (R122-R124) -/

def execMov (w : NOp) (s : State) : Out :=
  let wide := tyWide (fTy w)
  .next (laneOp w { fmtOk := valueI w, xOk := fOpx w == 0, immOk := immOk w, tyOk := tyIn w tyWords, rmOk := rmZero w
                    d := oVar wide, a := if fI w then .unused else oVar wide } wide
    (fun c co l => plain (if fI w then immValue (fTy w) (fImm w) else srcA c co wide l)) s)

def execMovi (w : NOp) (s : State) : Out :=
  .next (laneOp w { fmtOk := fKind w == 2, xOk := fXS w == 0, d := oAny } false
    (fun _ _ _ => plain (BitVec.ofNat 64 (fImm w))) s)

/-- The high register of the pair receives IMM32; the low one is unchanged. -/
def execMovhi (w : NOp) (s : State) : Out :=
  .next (native w { fmtOk := fKind w == 2, xOk := fXS w == 0, d := .cls true true false false 2 true }
    (fun c s =>
      let co := coachOf s c.k
      let val : Nat → Nat → Word := fun _ _ => BitVec.ofNat 32 (fImm w)
      finishGroup c (setCoach s c.k
        (putWords co (laneWrites (fD w + 1) 1 c.en val) (scalarWrites (fD w + 1) 1 c.en val)))) s)

/-- SH is OPX<2:0> in F-R and OPXS<1:0> in F-I. -/
def execLea (w : NOp) (s : State) : Out :=
  .next (laneOp w { fmtOk := valueI w, xOk := onlyBits 7 (fOpx w), immOk := immOk w, tyOk := tyIn w [0, 1], rmOk := rmZero w
                    d := oPair, a := oPair, b := oAny } true
    (fun c co l =>
      let b := tyInt (fTy w) (srcB c co false (immValue (fTy w) (fImm w)) l)
      plain (BitVec.ofNat 64 (wrapNat 64 (((srcA c co true l).toNat : Int) + b * ((2 ^ fOpx w : Nat) : Int))))) s)

end Sys2Proof.Machine
end

