-- ==== Sys2Proof/Machine/Float.lean ====
section
/-! DEFINITION. Floating-point, packed and dot-product operations (04 R125-R133). -/
namespace Sys2Proof.Machine

/-- F32, F16, BF16. -/
def tyFloats : List Nat := [8, 11, 12]
/-- F16X2, BF16X2. -/
def tyPacked : List Nat := [9, 10]

/-- A register result from a code and its flags. -/
def fRes (r : Nat × Flags) : Dword × Flags := (BitVec.ofNat 64 r.1, r.2)

/-- The low bits of a source that hold a float of type TY. -/
def fBits (ty : Nat) (d : Dword) : Nat := d.toNat % 2 ^ tyBits ty

/-- Operations of A and B on one float: format, mode and FTZ from the word and FMODE. -/
def floatOp2 (w : NOp) (rounds : Bool) (f : FFmt → Nat → Bool → Nat → Nat → Nat × Flags) (s : State) : State :=
  let ty := fTy w
  laneOp w { fmtOk := valueI w, xOk := fOpx w == 0, immOk := immOk w, tyOk := tyIn w tyFloats
             rmOk := if rounds then rmAny w else rmZero w, d := oAny, a := oAny, b := oAny } false
    (fun c co l => fRes (f (tyFmt ty) (roundOf co w) (ftzOf co) (fBits ty (srcA c co false l))
      (fBits ty (srcB c co false (immValue ty (fImm w)) l)))) s

def execFadd (w : NOp) (s : State) : Out := .next (floatOp2 w true (fun f rm z a b => fAdd f rm z false a b) s)
def execFsub (w : NOp) (s : State) : Out := .next (floatOp2 w true (fun f rm z a b => fAdd f rm z true a b) s)
def execFmul (w : NOp) (s : State) : Out := .next (floatOp2 w true fMul s)
def execFmin (w : NOp) (s : State) : Out := .next (floatOp2 w false (fun f _ z a b => fMinMax f z false a b) s)
def execFmax (w : NOp) (s : State) : Out := .next (floatOp2 w false (fun f _ z a b => fMinMax f z true a b) s)

def execFfma (w : NOp) (s : State) : Out :=
  let ty := fTy w
  .next (laneOp w { fmtOk := onlyR w, xOk := fOpx w == 0, tyOk := tyIn w tyFloats, rmOk := rmAny w
                    d := oAny, a := oAny, b := oAny, c := oAny } false
    (fun c co l => fRes (fFma (tyFmt ty) (roundOf co w) (ftzOf co) (fBits ty (srcA c co false l))
      (fBits ty (srcB c co false 0 l)) (fBits ty (srcC c co false l)))) s)

/-- FCMP (R116, R128). -/
def execFcmp (w : NOp) (s : State) : Out :=
  let ty := fTy w
  .next (cmpOp w { fmtOk := onlyR w, xOk := cmpXOk w true, tyOk := tyIn w tyFloats, rmOk := rmZero w
                   d := if cmpMsk w then .unused else oAny, a := oAny, b := oAny }
    (fun c co l => fCond (tyFmt ty) (ftzOf co) (cmpCc w) (fBits ty (srcA c co false l))
      (fBits ty (srcB c co false 0 l))) s)

/-- Operations of A alone. -/
def floatOp1 (w : NOp) (rounds long : Bool) (f : FFmt → Nat → Bool → Nat → Nat × Flags) (s : State) : State :=
  let ty := fTy w
  laneOp w { fmtOk := onlyR w, xOk := fOpx w == 0, tyOk := tyIn w tyFloats
             rmOk := if rounds then rmAny w else rmZero w, d := oAny, a := oAny, long := long } false
    (fun c co l => fRes (f (tyFmt ty) (roundOf co w) (ftzOf co) (fBits ty (srcA c co false l)))) s

def execFrnd (w : NOp) (s : State) : Out := .next (floatOp1 w true false fRnd s)
def execFclass (w : NOp) (s : State) : Out := .next (floatOp1 w false false (fun f _ _ a => (fClass f a, 0)) s)

/-! The correctly rounded functions are long (R130). -/

def execFrcp (w : NOp) (s : State) : Out := .next (floatOp1 w true true (fFun .rcp) s)
def execFrsq (w : NOp) (s : State) : Out := .next (floatOp1 w true true (fFun .rsq) s)
def execFsqrt (w : NOp) (s : State) : Out := .next (floatOp1 w true true (fFun .sqrt) s)
def execFexp2 (w : NOp) (s : State) : Out := .next (floatOp1 w true true (fFun .exp2) s)
def execFlog2 (w : NOp) (s : State) : Out := .next (floatOp1 w true true (fFun .log2) s)
def execFsin (w : NOp) (s : State) : Out := .next (floatOp1 w true true (fFun .sin) s)
def execFcos (w : NOp) (s : State) : Out := .next (floatOp1 w true true (fFun .cos) s)

/-! ### Packed operations (R131, 03 R79) -/

/-- Element 0 or 1 of a packed register. -/
def elem2 (d : Dword) (i : Nat) : Nat := d.toNat / 2 ^ (16 * i) % 65536
/-- A register of two elements; their flags are ORed. -/
def pack2 (a b : Nat × Flags) : Dword × Flags := (BitVec.ofNat 64 (a.1 % 65536 + 65536 * (b.1 % 65536)), a.2 ||| b.2)

/-- A packed operation of A and B. -/
def packedOp2 (w : NOp) (rounds : Bool) (mask : Nat) (f : FFmt → Nat → Bool → Nat → Nat → Nat × Flags)
    (s : State) : State :=
  let ty := fTy w
  laneOp w { fmtOk := valueI w, xOk := onlyBits mask (fOpx w), immOk := immOk w, tyOk := tyIn w tyPacked
             rmOk := if rounds then rmAny w else rmZero w, d := oAny, a := oAny, b := oAny } false
    (fun c co l =>
      let a := srcA c co false l
      let b := srcB c co false (immValue ty (fImm w)) l
      let g (i : Nat) : Nat × Flags := f (tyFmt ty) (roundOf co w) (ftzOf co) (elem2 a i) (elem2 b i)
      pack2 (g 0) (g 1)) s

def execHadd2 (w : NOp) (s : State) : Out :=
  .next (packedOp2 w true 1 (fun f rm z a b => fAdd f rm z (fOpx w % 2 == 1) a b) s)
def execHmul2 (w : NOp) (s : State) : Out := .next (packedOp2 w true 0 fMul s)
def execHmin2 (w : NOp) (s : State) : Out := .next (packedOp2 w false 0 (fun f _ z a b => fMinMax f z false a b) s)
def execHmax2 (w : NOp) (s : State) : Out := .next (packedOp2 w false 0 (fun f _ z a b => fMinMax f z true a b) s)

def execHfma2 (w : NOp) (s : State) : Out :=
  let ty := fTy w
  .next (laneOp w { fmtOk := onlyR w, xOk := fOpx w == 0, tyOk := tyIn w tyPacked, rmOk := rmAny w
                    d := oAny, a := oAny, b := oAny, c := oAny } false
    (fun c co l =>
      let a := srcA c co false l
      let b := srcB c co false 0 l
      let d := srcC c co false l
      let g (i : Nat) : Nat × Flags := fFma (tyFmt ty) (roundOf co w) (ftzOf co) (elem2 a i) (elem2 b i) (elem2 d i)
      pack2 (g 0) (g 1)) s)

/-! ### Dot products (R132, R133, 03 R99) -/

/-- The sum of exact products and an addend, rounded once into F32. -/
def dotRound (rm : Nat) (ftz : Bool) (prods : List (Num × Num)) (addend : Num) (sig : Flags) : Nat × Flags :=
  let ps := prods.map (fun p => mulExact p.1 p.2)
  let fp := ps.foldl (fun a p => a ||| p.2) (0 : Flags)
  let (z, fl) := sumExact rm (ps.map (fun p => p.1) ++ [addend])
  let (r, fr) := fmtF32.round rm ftz z
  (r, fp ||| fl ||| fr ||| sig)

def execHdot2 (w : NOp) (s : State) : Out :=
  let ty := fTy w
  .next (laneOp w { fmtOk := onlyR w, xOk := fOpx w == 0, tyOk := tyIn w tyPacked, rmOk := rmAny w
                    d := oAny, a := oAny, b := oAny, c := oAny } false
    (fun c co l =>
      let a := srcA c co false l
      let b := srcB c co false 0 l
      let rd (d : Dword) (i : Nat) : Num := (tyFmt ty).read (ftzOf co) (elem2 d i)
      let x := fmtF32.read (ftzOf co) (fBits 8 (srcC c co false l))
      fRes (dotRound (roundOf co w) (ftzOf co) [(rd a 0, rd b 0), (rd a 1, rd b 1)] x
        (sigFlag [rd a 0, rd b 0, rd a 1, rd b 1, x]))) s)

/-- Format register k of a context (01 R33). -/
def fmtReg (s : State) (ctx k : Nat) : Word :=
  match tget s.ctxs ctx with
  | some c => (c.fmts[k]?).getD 0
  | none => 0

/-- FDP4N of two words of four NF8 elements and an F32 addend. -/
def fDot4 (fa fb : NfFmt) (rm : Nat) (ftz : Bool) (a b c : Nat) : Nat × Flags :=
  if fa.cont = 1 ∨ fb.cont = 1 then (fmtF32.nanCode, flagIV)
  else
    let e (f : NfFmt) (v i : Nat) : Num := nfValue f (v / 2 ^ (8 * i) % 256)
    let x := fmtF32.read ftz c
    dotRound rm ftz ((List.range 4).map (fun i => (e fa a i, e fb b i))) x (sigFlag [x])

def execFdp4n (w : NOp) (s : State) : Out :=
  .next (native w { fmtOk := onlyR w, xOk := onlyBits 0xFF (fOpx w), tyOk := tyIn w [13], rmOk := rmAny w
                    d := oAny, a := oAny, b := oAny, c := oAny }
    (fun c s =>
      let co := coachOf s c.k
      let fa := nfOf (fmtReg s co.ctx (fX w % 16))
      let fb := nfOf (fmtReg s co.ctx (field (fX w) 7 4))
      deliver c false (fun l => fRes (fDot4 fa fb (roundOf co w) (ftzOf co) (fBits 8 (srcA c co false l))
        (fBits 8 (srcB c co false 0 l)) (fBits 8 (srcC c co false l)))) s) s)

end Sys2Proof.Machine
end

