-- ==== Sys2Proof/Decode.lean ====
section
/-! DEFINITION. The decoder of native operation words (02 R41, R42, R62, R63) and of dray words (07 R255, R256), total
and rejecting by name, and after it the encoder. -/
namespace Sys2Proof

/-- What decoding a native word gives: an instruction, or the name of the rejection. -/
inductive Decoded where
  | instr (i : Instr)
  /-- The major code is unassigned (02 R62): ILLEGAL OPCODE. -/
  | unassigned
  /-- A reserved sub-function code of QCTL (05 R205) or MVER (06 R243): ILLEGAL RSVD. -/
  | reservedFunction (w : NOp)
  deriving DecidableEq, Repr

/-- The major codes whose IM = 1 form is F-L (02 R42, R43). -/
def isLongOp (op : Nat) : Bool :=
  op == 0x01 || op == 0x03 || op == 0x08 || op == 0x2A || op == 0x2B || op == 0xD0

/-- The major opcode of a word (02 R41). -/
def opOf (w : BitVec 64) : Nat := (w.extractLsb' 56 8).toNat

/-- The common header and the format fields of a word (02 R41, R42). -/
def NOp.ofWord (w : BitVec 64) : NOp :=
  { sw := w.getLsbD 55, pm := w.extractLsb' 51 4, pn := w.getLsbD 50
    fmt :=
      if w.getLsbD 49 then
        if isLongOp (opOf w) then .fl (w.extractLsb' 41 8) (w.extractLsb' 32 9) (w.extractLsb' 0 32)
        else .fi (w.extractLsb' 41 8) (w.extractLsb' 33 8) (w.extractLsb' 24 9) (w.extractLsb' 0 24)
      else .fr (w.extractLsb' 41 8) (w.extractLsb' 33 8) (w.extractLsb' 25 8) (w.extractLsb' 17 8)
        (w.extractLsb' 0 17) }

/-- SLEEP n is F-L, SLEEP.BAR is F-R (05 R164). -/
def decodeSleep (w : NOp) : Decoded :=
  match w.fmt with
  | .fr .. => .instr (.sleepBar w)
  | _ => .instr (.sleep w)

/-- SPR reads with WR = 0 and writes with WR = 1 (04 R150). -/
def decodeSpr (w : NOp) : Decoded := if sprWrites w then .instr (.sprWr w) else .instr (.spr w)

/-- QCTL by FN (05 R205); its F-I words fail the FORMAT check of OPEN. -/
def decodeQctl (w : NOp) : Decoded :=
  match qctlFn w with
  | 0 => .instr (.qctlOpen w)
  | 1 => .instr (.qctlClose w)
  | 2 => .instr (.qctlDrain w)
  | _ => .reservedFunction w

/-- MVER by FN (06 R243); its F-I words fail the FORMAT check of READ. -/
def decodeMver (w : NOp) : Decoded :=
  match mverFn w with
  | 0 => .instr (.mverRead w)
  | 1 => .instr (.mverAcq w)
  | 2 => .instr (.mverRel w)
  | 3 => .instr (.mverWait w)
  | _ => .reservedFunction w

/-- LEASE.DECL and LEASE.MEAS (05 R209). -/
def decodeLease (w : NOp) : Decoded := if leaseIsMeas w then .instr (.leaseMeas w) else .instr (.leaseDecl w)

/-- The instruction of an assigned major code (02 R62). -/
def decodeOp (op : Nat) (w : NOp) : Decoded :=
  match op with
  | 0x00 => .instr (.nop w)
  | 0x01 => .instr (.bra w)
  | 0x02 => .instr (.brx w)
  | 0x03 => .instr (.call w)
  | 0x04 => .instr (.callx w)
  | 0x05 => .instr (.ret w)
  | 0x06 => .instr (.join w)
  | 0x07 => .instr (.exit w)
  | 0x08 => decodeSleep w
  | 0x09 => .instr (.yield w)
  | 0x10 => .instr (.iadd w)
  | 0x11 => .instr (.isub w)
  | 0x12 => .instr (.imul w)
  | 0x13 => .instr (.imulh w)
  | 0x14 => .instr (.imad w)
  | 0x15 => .instr (.iaddc w)
  | 0x16 => .instr (.imin w)
  | 0x17 => .instr (.imax w)
  | 0x18 => .instr (.iabs w)
  | 0x19 => .instr (.icmp w)
  | 0x1A => .instr (.sel w)
  | 0x1B => .instr (.and w)
  | 0x1C => .instr (.or w)
  | 0x1D => .instr (.xor w)
  | 0x1E => .instr (.andn w)
  | 0x1F => .instr (.shl w)
  | 0x20 => .instr (.shr w)
  | 0x21 => .instr (.sar w)
  | 0x22 => .instr (.rotl w)
  | 0x23 => .instr (.bfe w)
  | 0x24 => .instr (.bfi w)
  | 0x25 => .instr (.popc w)
  | 0x26 => .instr (.clz w)
  | 0x27 => .instr (.ctz w)
  | 0x28 => .instr (.lea w)
  | 0x29 => .instr (.mov w)
  | 0x2A => .instr (.movi w)
  | 0x2B => .instr (.movhi w)
  | 0x2C => .instr (.iadd64 w)
  | 0x2D => .instr (.imad64 w)
  | 0x2E => .instr (.idp4 w)
  | 0x40 => .instr (.fadd w)
  | 0x41 => .instr (.fsub w)
  | 0x42 => .instr (.fmul w)
  | 0x43 => .instr (.ffma w)
  | 0x44 => .instr (.fmin w)
  | 0x45 => .instr (.fmax w)
  | 0x46 => .instr (.fcmp w)
  | 0x47 => .instr (.frnd w)
  | 0x48 => .instr (.frcp w)
  | 0x49 => .instr (.frsq w)
  | 0x4A => .instr (.fsqrt w)
  | 0x4B => .instr (.fexp2 w)
  | 0x4C => .instr (.flog2 w)
  | 0x4D => .instr (.fsin w)
  | 0x4E => .instr (.fcos w)
  | 0x4F => .instr (.fclass w)
  | 0x50 => .instr (.hadd2 w)
  | 0x51 => .instr (.hmul2 w)
  | 0x52 => .instr (.hfma2 w)
  | 0x53 => .instr (.hmin2 w)
  | 0x54 => .instr (.hmax2 w)
  | 0x55 => .instr (.hdot2 w)
  | 0x56 => .instr (.fdp4n w)
  | 0x70 => .instr (.cvt w)
  | 0x71 => .instr (.cvtn w)
  | 0x72 => .instr (.pack w)
  | 0x73 => .instr (.unpack w)
  | 0x74 => .instr (.scalex w)
  | 0x75 => .instr (.rand w)
  | 0x76 => .instr (.rseed w)
  | 0x80 => .instr (.shfl w)
  | 0x81 => .instr (.ballot w)
  | 0x82 => .instr (.vote w)
  | 0x83 => .instr (.redx w)
  | 0x84 => .instr (.scanx w)
  | 0x85 => .instr (.mop w)
  | 0x86 => .instr (.mpopc w)
  | 0x87 => .instr (.mfirst w)
  | 0x88 => .instr (.mact w)
  | 0x89 => .instr (.mmov w)
  | 0x8A => decodeSpr w
  | 0x90 => .instr (.ld w)
  | 0x91 => .instr (.st w)
  | 0x92 => .instr (.lds w)
  | 0x93 => .instr (.sts w)
  | 0x94 => .instr (.ldl w)
  | 0x95 => .instr (.stl w)
  | 0x96 => .instr (.atom w)
  | 0x97 => .instr (.atoms w)
  | 0x98 => .instr (.fence w)
  | 0x99 => .instr (.cctl w)
  | 0x9A => .instr (.pref w)
  | 0x9B => .instr (.ipref w)
  | 0x9C => .instr (.ipin w)
  | 0x9D => .instr (.iunpin w)
  | 0x9E => .instr (.ldd w)
  | 0x9F => .instr (.std w)
  | 0xB0 => .instr (.bari w)
  | 0xB1 => .instr (.bara w)
  | 0xB2 => .instr (.barw w)
  | 0xB3 => .instr (.bars w)
  | 0xB4 => .instr (.barx w)
  | 0xB5 => .instr (.tbar w)
  | 0xB6 => .instr (.tlwait w)
  | 0xB7 => .instr (.tlrd w)
  | 0xB8 => .instr (.cpy w)
  | 0xB9 => .instr (.cpseal w)
  | 0xBA => .instr (.cpwait w)
  | 0xBB => decodeQctl w
  | 0xC0 => .instr (.mcfg w)
  | 0xC1 => .instr (.mma w)
  | 0xC2 => .instr (.mloop w)
  | 0xC3 => .instr (.mzero w)
  | 0xC4 => .instr (.mlda w)
  | 0xC5 => .instr (.msta w)
  | 0xC6 => .instr (.mprom w)
  | 0xC7 => decodeMver w
  | 0xC8 => .instr (.mmeta w)
  | 0xD0 => .instr (.trap w)
  | 0xD1 => .instr (.tret w)
  | 0xD2 => decodeLease w
  | 0xD3 => .instr (.czopen w)
  | 0xD4 => .instr (.czclose w)
  | 0xD5 => .instr (.spawn w)
  | 0xD6 => .instr (.sysrd w)
  | 0xD7 => .instr (.syswr w)
  | 0xD8 => .instr (.dbgbrk w)
  | 0xD9 => .instr (.dturn w)
  | _ => .unassigned

/-- Decode a native word. Codes 0xE0-0xFE go to the system plate (02 R63). -/
def decodeNative (w : BitVec 64) : Decoded :=
  if 0xE0 ≤ opOf w ∧ opOf w ≤ 0xFE then .instr (.systemPlateOp w) else decodeOp (opOf w) (NOp.ofWord w)

/-! Dray words (07 R255). -/

/-- Fields of a dray word. -/
def dOpc (w : BitVec 32) : Nat := (w.extractLsb' 26 6).toNat
def dRd (w : BitVec 32) : BitVec 4 := w.extractLsb' 22 4
def dRa (w : BitVec 32) : BitVec 4 := w.extractLsb' 18 4
def dRb (w : BitVec 32) : BitVec 4 := w.extractLsb' 14 4
def dImm (w : BitVec 32) : BitVec 14 := w.extractLsb' 0 14

/-- The instruction of a dray word whose `zero` fields are zero (07 R255), else DRAY_ILLEGAL. -/
def dWhen (w : BitVec 32) (zero : Bool) (i : Instr) : Instr := if zero then i else .drayIllegal w

/-- JMP has three forms (07 R267). -/
def decodeJmp (w : BitVec 32) : Instr :=
  if dRa w = 0 then
    if dRd w = 0 then .drayJmp (dImm w) else .drayJmpLink (dRd w) (dImm w)
  else dWhen w (dImm w == 0) (.drayJmpIndirect (dRd w) (dRa w))

/-- Decode a dray word: an instruction for every word (07 R256). -/
def decodeDray (w : BitVec 32) : Instr :=
  match dOpc w with
  | 0x00 => dWhen w (w == 0) .drayHalt
  | 0x01 => dWhen w (dImm w == 0) (.drayAdd (dRd w) (dRa w) (dRb w))
  | 0x02 => dWhen w (dImm w == 0) (.draySub (dRd w) (dRa w) (dRb w))
  | 0x03 => dWhen w (dImm w == 0) (.drayMul (dRd w) (dRa w) (dRb w))
  | 0x04 => dWhen w (dImm w == 0) (.drayAnd (dRd w) (dRa w) (dRb w))
  | 0x05 => dWhen w (dImm w == 0) (.drayOr (dRd w) (dRa w) (dRb w))
  | 0x06 => dWhen w (dImm w == 0) (.drayXor (dRd w) (dRa w) (dRb w))
  | 0x07 => dWhen w (dImm w == 0) (.drayShl (dRd w) (dRa w) (dRb w))
  | 0x08 => dWhen w (dImm w == 0) (.drayShr (dRd w) (dRa w) (dRb w))
  | 0x09 => dWhen w (dImm w == 0) (.drayMin (dRd w) (dRa w) (dRb w))
  | 0x0A => dWhen w (dImm w == 0) (.drayMax (dRd w) (dRa w) (dRb w))
  | 0x0B => dWhen w (dRb w == 0) (.drayAddi (dRd w) (dRa w) (dImm w))
  | 0x0C => dWhen w (dRa w == 0 && dRb w == 0) (.drayLi (dRd w) (dImm w))
  | 0x0D => dWhen w (dRb w == 0) (.drayLui (dRd w) (dRa w) (dImm w))
  | 0x0E => dWhen w (dRb w == 0) (.drayLdw (dRd w) (dRa w) (w.extractLsb' 12 2) (w.extractLsb' 11 1) (w.extractLsb' 0 11))
  | 0x0F => dWhen w (dRb w == 0) (.drayStw (dRd w) (dRa w) (w.extractLsb' 12 2) (w.extractLsb' 11 1) (w.extractLsb' 0 11))
  | 0x10 => dWhen w (dRd w == 0) (.drayBeq (dRa w) (dRb w) (dImm w))
  | 0x11 => dWhen w (dRd w == 0) (.drayBne (dRa w) (dRb w) (dImm w))
  | 0x12 => dWhen w (dRd w == 0) (.drayBlt (dRa w) (dRb w) (dImm w))
  | 0x13 => dWhen w (dRd w == 0) (.drayBge (dRa w) (dRb w) (dImm w))
  | 0x14 => dWhen w (dRb w == 0) (decodeJmp w)
  | 0x15 => dWhen w (dRd w == 0 && dRb w == 0) (.drayLoop (dRa w) (dImm w))
  | 0x16 => dWhen w (dRb w == 0) (.drayArg (dRd w) (dRa w) (dImm w))
  | 0x17 => dWhen w (dRb w == 0 && w.extractLsb' 24 2 == 0) (.drayGset (w.extractLsb' 22 2) (dRa w) (w.extractLsb' 13 1) (w.extractLsb' 0 13))
  | 0x18 => dWhen w (dRb w == 0 && w.extractLsb' 24 2 == 0 && w.extractLsb' 1 13 == 0) (.drayGadv (w.extractLsb' 22 2) (dRa w) (w.extractLsb' 0 1))
  | 0x19 => dWhen w (w.extractLsb' 24 2 == 0 && w.extractLsb' 20 2 == 0) (.drayXfer (w.extractLsb' 22 2) (w.extractLsb' 18 2) (dRb w) (w.extractLsb' 11 3) (w.extractLsb' 7 4) (w.extractLsb' 6 1) (w.extractLsb' 0 6))
  | 0x1A => dWhen w (w.extractLsb' 24 2 == 0 && w.extractLsb' 20 2 == 0 && w.extractLsb' 2 12 == 0) (.drayGather (w.extractLsb' 22 2) (w.extractLsb' 18 2) (dRb w) (w.extractLsb' 0 2))
  | 0x1B => dWhen w (w.extractLsb' 24 2 == 0 && w.extractLsb' 20 2 == 0 && w.extractLsb' 2 12 == 0) (.drayScatter (w.extractLsb' 22 2) (w.extractLsb' 18 2) (dRb w) (w.extractLsb' 0 2))
  | 0x1C => dWhen w (w.extractLsb' 24 2 == 0 && w.extractLsb' 2 12 == 0) (.drayFill (w.extractLsb' 22 2) (dRa w) (dRb w) (w.extractLsb' 0 2))
  | 0x1D => dWhen w (dRd w == 0 && dRb w == 0) (.drayArrive (dRa w) (w.extractLsb' 4 10) (w.extractLsb' 0 4))
  | 0x1E => dWhen w (dRd w == 0 && dRb w == 0 && w.extractLsb' 5 9 == 0) (.draySignal (dRa w) (w.extractLsb' 3 2) (w.extractLsb' 0 3))
  | 0x1F => dWhen w (dRd w == 0 && w.extractLsb' 5 9 == 0) (.drayTlw (dRa w) (dRb w) (w.extractLsb' 3 2) (w.extractLsb' 0 3))
  | 0x20 => dWhen w (dRd w == 0 && dRb w == 0) (.drayPromise (dRa w) (dImm w))
  | 0x21 => dWhen w (w.extractLsb' 8 18 == 0) (.drayDfence (w.extractLsb' 6 2) (w.extractLsb' 3 3) (w.extractLsb' 0 3))
  | 0x22 => dWhen w (w.extractLsb' 4 18 == 0) (.drayStat (dRd w) (w.extractLsb' 0 4))
  | 0x23 => dWhen w (dRd w == 0 && dRb w == 0 && w.extractLsb' 10 4 == 0) (.drayOpt (dRa w) (w.extractLsb' 9 1) (w.extractLsb' 8 1) (w.extractLsb' 0 8))
  | _ => .drayIllegal w

/-- The instruction that the decoder reads from a word whose bits are `w`: a 32-bit word is a dray word, a 64-bit word a
native operation word. -/
def decodeTableWord (nbits w : Nat) : Option Instr :=
  if nbits ≤ 32 then some (decodeDray (BitVec.ofNat 32 w))
  else match decodeNative (BitVec.ofNat 64 w) with
    | .instr i => some i
    | _ => none

/-! The encoder, from the same tables. -/

/-- The major opcode and fields of a native instruction (02 R62). -/
def nativeOf : Instr → Option (Nat × NOp)
  | .nop w => some (0x00, w)
  | .bra w => some (0x01, w)
  | .brx w => some (0x02, w)
  | .call w => some (0x03, w)
  | .callx w => some (0x04, w)
  | .ret w => some (0x05, w)
  | .join w => some (0x06, w)
  | .exit w => some (0x07, w)
  | .sleep w => some (0x08, w)
  | .sleepBar w => some (0x08, w)
  | .yield w => some (0x09, w)
  | .iadd w => some (0x10, w)
  | .isub w => some (0x11, w)
  | .imul w => some (0x12, w)
  | .imulh w => some (0x13, w)
  | .imad w => some (0x14, w)
  | .iaddc w => some (0x15, w)
  | .imin w => some (0x16, w)
  | .imax w => some (0x17, w)
  | .iabs w => some (0x18, w)
  | .icmp w => some (0x19, w)
  | .sel w => some (0x1A, w)
  | .and w => some (0x1B, w)
  | .or w => some (0x1C, w)
  | .xor w => some (0x1D, w)
  | .andn w => some (0x1E, w)
  | .shl w => some (0x1F, w)
  | .shr w => some (0x20, w)
  | .sar w => some (0x21, w)
  | .rotl w => some (0x22, w)
  | .bfe w => some (0x23, w)
  | .bfi w => some (0x24, w)
  | .popc w => some (0x25, w)
  | .clz w => some (0x26, w)
  | .ctz w => some (0x27, w)
  | .lea w => some (0x28, w)
  | .mov w => some (0x29, w)
  | .movi w => some (0x2A, w)
  | .movhi w => some (0x2B, w)
  | .iadd64 w => some (0x2C, w)
  | .imad64 w => some (0x2D, w)
  | .idp4 w => some (0x2E, w)
  | .fadd w => some (0x40, w)
  | .fsub w => some (0x41, w)
  | .fmul w => some (0x42, w)
  | .ffma w => some (0x43, w)
  | .fmin w => some (0x44, w)
  | .fmax w => some (0x45, w)
  | .fcmp w => some (0x46, w)
  | .frnd w => some (0x47, w)
  | .frcp w => some (0x48, w)
  | .frsq w => some (0x49, w)
  | .fsqrt w => some (0x4A, w)
  | .fexp2 w => some (0x4B, w)
  | .flog2 w => some (0x4C, w)
  | .fsin w => some (0x4D, w)
  | .fcos w => some (0x4E, w)
  | .fclass w => some (0x4F, w)
  | .hadd2 w => some (0x50, w)
  | .hmul2 w => some (0x51, w)
  | .hfma2 w => some (0x52, w)
  | .hmin2 w => some (0x53, w)
  | .hmax2 w => some (0x54, w)
  | .hdot2 w => some (0x55, w)
  | .fdp4n w => some (0x56, w)
  | .cvt w => some (0x70, w)
  | .cvtn w => some (0x71, w)
  | .pack w => some (0x72, w)
  | .unpack w => some (0x73, w)
  | .scalex w => some (0x74, w)
  | .rand w => some (0x75, w)
  | .rseed w => some (0x76, w)
  | .shfl w => some (0x80, w)
  | .ballot w => some (0x81, w)
  | .vote w => some (0x82, w)
  | .redx w => some (0x83, w)
  | .scanx w => some (0x84, w)
  | .mop w => some (0x85, w)
  | .mpopc w => some (0x86, w)
  | .mfirst w => some (0x87, w)
  | .mact w => some (0x88, w)
  | .mmov w => some (0x89, w)
  | .spr w => some (0x8A, w)
  | .sprWr w => some (0x8A, w)
  | .ld w => some (0x90, w)
  | .st w => some (0x91, w)
  | .lds w => some (0x92, w)
  | .sts w => some (0x93, w)
  | .ldl w => some (0x94, w)
  | .stl w => some (0x95, w)
  | .atom w => some (0x96, w)
  | .atoms w => some (0x97, w)
  | .fence w => some (0x98, w)
  | .cctl w => some (0x99, w)
  | .pref w => some (0x9A, w)
  | .ipref w => some (0x9B, w)
  | .ipin w => some (0x9C, w)
  | .iunpin w => some (0x9D, w)
  | .ldd w => some (0x9E, w)
  | .std w => some (0x9F, w)
  | .bari w => some (0xB0, w)
  | .bara w => some (0xB1, w)
  | .barw w => some (0xB2, w)
  | .bars w => some (0xB3, w)
  | .barx w => some (0xB4, w)
  | .tbar w => some (0xB5, w)
  | .tlwait w => some (0xB6, w)
  | .tlrd w => some (0xB7, w)
  | .cpy w => some (0xB8, w)
  | .cpseal w => some (0xB9, w)
  | .cpwait w => some (0xBA, w)
  | .qctlOpen w => some (0xBB, w)
  | .qctlClose w => some (0xBB, w)
  | .qctlDrain w => some (0xBB, w)
  | .mcfg w => some (0xC0, w)
  | .mma w => some (0xC1, w)
  | .mloop w => some (0xC2, w)
  | .mzero w => some (0xC3, w)
  | .mlda w => some (0xC4, w)
  | .msta w => some (0xC5, w)
  | .mprom w => some (0xC6, w)
  | .mverRead w => some (0xC7, w)
  | .mverAcq w => some (0xC7, w)
  | .mverRel w => some (0xC7, w)
  | .mverWait w => some (0xC7, w)
  | .mmeta w => some (0xC8, w)
  | .trap w => some (0xD0, w)
  | .tret w => some (0xD1, w)
  | .leaseDecl w => some (0xD2, w)
  | .leaseMeas w => some (0xD2, w)
  | .czopen w => some (0xD3, w)
  | .czclose w => some (0xD4, w)
  | .spawn w => some (0xD5, w)
  | .sysrd w => some (0xD6, w)
  | .syswr w => some (0xD7, w)
  | .dbgbrk w => some (0xD8, w)
  | .dturn w => some (0xD9, w)
  | _ => none

/-- The word of a native operation (02 R41, R42). -/
def nativeWord (op : Nat) (w : NOp) : BitVec 64 :=
  let head : BitVec 14 := BitVec.ofNat 8 op ++ BitVec.ofBool w.sw ++ w.pm ++ BitVec.ofBool w.pn
  match w.fmt with
  | .fr d a b c x => (head ++ (0#1 ++ d ++ a ++ b ++ c ++ x) : BitVec 64)
  | .fi d a xs imm => (head ++ (1#1 ++ d ++ a ++ xs ++ imm) : BitVec 64)
  | .fl d xs imm => (head ++ (1#1 ++ d ++ xs ++ imm) : BitVec 64)

/-- The word of a dray instruction from its fields (07 R255). -/
def drayWord (opc : BitVec 6) (rd ra rb : BitVec 4) (imm : BitVec 14) : BitVec 32 := opc ++ rd ++ ra ++ rb ++ imm

/-- The word of a dray instruction (07 R256). -/
def drayOf : Instr → Option (BitVec 32)
  | .drayHalt => some (drayWord 0x00 0 0 0 0)
  | .drayAdd d a b => some (drayWord 0x01 d a b 0)
  | .draySub d a b => some (drayWord 0x02 d a b 0)
  | .drayMul d a b => some (drayWord 0x03 d a b 0)
  | .drayAnd d a b => some (drayWord 0x04 d a b 0)
  | .drayOr d a b => some (drayWord 0x05 d a b 0)
  | .drayXor d a b => some (drayWord 0x06 d a b 0)
  | .drayShl d a b => some (drayWord 0x07 d a b 0)
  | .drayShr d a b => some (drayWord 0x08 d a b 0)
  | .drayMin d a b => some (drayWord 0x09 d a b 0)
  | .drayMax d a b => some (drayWord 0x0A d a b 0)
  | .drayAddi d a i => some (drayWord 0x0B d a 0 i)
  | .drayLi d i => some (drayWord 0x0C d 0 0 i)
  | .drayLui d a i => some (drayWord 0x0D d a 0 i)
  | .drayLdw d a z p o => some (drayWord 0x0E d a 0 (z ++ p ++ o))
  | .drayStw d a z p o => some (drayWord 0x0F d a 0 (z ++ p ++ o))
  | .drayBeq a b i => some (drayWord 0x10 0 a b i)
  | .drayBne a b i => some (drayWord 0x11 0 a b i)
  | .drayBlt a b i => some (drayWord 0x12 0 a b i)
  | .drayBge a b i => some (drayWord 0x13 0 a b i)
  | .drayJmp i => some (drayWord 0x14 0 0 0 i)
  | .drayJmpLink l i => some (drayWord 0x14 l 0 0 i)
  | .drayJmpIndirect l a => some (drayWord 0x14 l a 0 0)
  | .drayLoop a i => some (drayWord 0x15 0 a 0 i)
  | .drayArg d a i => some (drayWord 0x16 d a 0 i)
  | .drayGset n a s o => some (drayWord 0x17 (0#2 ++ n) a 0 (s ++ o))
  | .drayGadv n a r => some (drayWord 0x18 (0#2 ++ n) a 0 (0#13 ++ r))
  | .drayXfer d s n m f u c => some (drayWord 0x19 (0#2 ++ d) (0#2 ++ s) n (m ++ f ++ u ++ c))
  | .drayGather d x n t => some (drayWord 0x1A (0#2 ++ d) (0#2 ++ x) n (0#12 ++ t))
  | .drayScatter t x n s => some (drayWord 0x1B (0#2 ++ t) (0#2 ++ x) n (0#12 ++ s))
  | .drayFill d v n p => some (drayWord 0x1C (0#2 ++ d) v n (0#12 ++ p))
  | .drayArrive a c k => some (drayWord 0x1D 0 a 0 (c ++ k))
  | .draySignal a s g => some (drayWord 0x1E 0 a 0 (0#9 ++ s ++ g))
  | .drayTlw h n s g => some (drayWord 0x1F 0 h n (0#9 ++ s ++ g))
  | .drayPromise a i => some (drayWord 0x20 0 a 0 i)
  | .drayDfence s g o => some (drayWord 0x21 0 0 0 (0#6 ++ s ++ g ++ o))
  | .drayStat d s => some (drayWord 0x22 d 0 0 (0#10 ++ s))
  | .drayOpt a c m n => some (drayWord 0x23 0 a 0 (0#4 ++ c ++ m ++ n))
  | .drayIllegal w => some w
  | _ => none

/-- The words of an instruction: how many bits and which; none for a step that has no word. -/
def encode (i : Instr) : Option (Nat × Nat) :=
  match i with
  | .systemPlateOp w => some (64, w.toNat)
  | i =>
    match nativeOf i with
    | some (op, w) => some (64, (nativeWord op w).toNat)
    | none => (drayOf i).map (fun w => (32, w.toNat))

end Sys2Proof
end

