-- ==== Sys2Proof/Machine/Access.lean ====
section
/-! DEFINITION. The memory accesses of a coach: the checks of 05 R185, the split of a group on XLAT, private words
(01 R36), the scratchpad window, deterministic regions (10 R391, R393) and ordering (09 R336, R347). -/
namespace Sys2Proof.Machine

/-! ### Translation of a group (R185, R186) -/

/-- A lane's access that translates: physical address and leaf. -/
structure Piece where
  lane : Nat
  va : Nat
  pa : Nat
  leaf : Dword
  deriving DecidableEq, Repr

/-- What the lanes of an operation meet: accesses that translate, lanes that park, and the first error. -/
structure Found where
  ok : List Piece
  bad : List (Nat × Nat × XErr)
  /-- A poisoned table line, or a poisoned page: physical and virtual address, and which. -/
  err : Option (Nat × Nat × Bool)
  deriving DecidableEq, Repr

/-- The error that an operation raises: the first, but one on a poisoned page before any other, since it leaves the operation
without effect (12 R448, log 91). -/
def worseError (e : Option (Nat × Nat × Bool)) (x : Nat × Nat × Bool) : Option (Nat × Nat × Bool) :=
  match e with
  | some y => if x.2.2 && !y.2.2 then some x else some y
  | none => some x

/-- Translate a list of lanes and addresses, in order. -/
def findLanes (s : State) (k : Nat) (a : Acc) : List (Nat × Nat) → Found → Found × State
  | [], f => ({ f with ok := f.ok.reverse, bad := f.bad.reverse }, s)
  | (l, va) :: t, f =>
    match coachXlate s (coachOf s k) va a with
    | (.ok pa leaf, s) => findLanes s k a t { f with ok := { lane := l, va := va, pa := pa, leaf := leaf } :: f.ok }
    | (.fault e, s) => findLanes s k a t { f with bad := (l, va, e) :: f.bad }
    | (.error pa page, s) => findLanes s k a t { f with err := worseError f.err (pa, va, page) }

def Found.none : Found := { ok := [], bad := [], err := Option.none }

/-- The lanes of a found list that park. -/
def Found.badMask (f : Found) : Mask := maskOf (fun l => f.bad.any (fun b => b.1 == l))
def Found.okMask (f : Found) : Mask := maskOf (fun l => f.ok.any (fun p => p.lane == l))
/-- An access met a poisoned page: the operation has no effect in any lane (12 R448). -/
def Found.poisoned (f : Found) : Bool := f.err.any (fun e => e.2.2)

/-- Park the lanes that take XLAT. -/
def parkBad (s : State) (k : Nat) (a : Acc) (bad : List (Nat × Nat × XErr)) : State :=
  bad.foldl (fun s b => parkLanes s k (BitVec.ofNat 64 (2 ^ b.1)) b.2.1 b.2.2 (a.bits false false) false) s

/-- The operation without lanes that have left its group. -/
def OpCtx.without (c : OpCtx) (m : Mask) : OpCtx := { c with grp := c.grp &&& ~~~m, en := c.en &&& ~~~m }

/-! ### Checks (R34, R35, R185) -/

/-- A precise trap of an access: the failing field, and each enabled lane's address or offset (11 R408). -/
def accessTrap (c : OpCtx) (s : State) (cls : Nat) (lanes : Mask) (fieldNo : Nat) (addrs : List (Nat × Nat)) : State :=
  raiseTrap (unpop c s) c.k
    (opTrap c.i cls 0 lanes c.en ((64, 1, fieldNo) :: addrs.map (fun a => (640 + 8 * a.1, 8, a.2))))

/-- The lanes whose address satisfies a condition. -/
def lanesWhere (addrs : List (Nat × Nat)) (f : Nat → Bool) : Mask :=
  maskOf (fun l => addrs.any (fun a => a.1 == l && f a.2))

/-- BOUNDS, then ALIGN, over the enabled lanes. -/
def checkAccess (c : OpCtx) (s : State) (addrs : List (Nat × Nat)) (out : Nat → Bool) (n : Nat) : Option State :=
  let b := lanesWhere addrs out
  let a := lanesWhere addrs (fun x => x % n != 0)
  if b ≠ 0 then some (accessTrap c s 7 b 1 addrs)
  else if a ≠ 0 then some (accessTrap c s 6 a 1 addrs)
  else none

/-- An address above 57 bits (R34). -/
def outOfGlobal (a : Nat) : Bool := decide (2 ^ 57 ≤ a)

/-- A protected coach whose shadow disagrees in an enabled lane (12 R469): the zone unwinds, and nothing happens. -/
def shadowStop (c : OpCtx) (s : State) (lanes : Mask) (addrs : List (Nat × Nat)) : Option State :=
  match lowLane (shadowBad (coachOf s c.k) lanes) with
  | none => none
  | some l => some (shadowError (unpop c s) c.k lanes (((addrs.find? (fun a => a.1 == l)).map (fun a => a.2)).getD 0))

/-! ### Deterministic regions (10 R391, R393) -/

/-- Shared windows of a deterministic region. -/
def inWindow (s : State) (co : Coach) (va : Nat) : Bool :=
  match tget s.regions co.region with
  | some r => r.det && r.windows.any (fun w => decide (w.1 ≤ va ∧ va < w.1 + w.2))
  | none => false

/-- DETVIOL (11 R408). -/
def detviol (c : OpCtx) (s : State) (cause : Nat) (lanes : Mask) (owner va : Nat) : State :=
  raiseTrap (unpop c s) c.k (opTrap c.i 9 cause lanes 0 [(64, 1, cause), (66, 2, owner), (72, 8, va)])

/-- The capacity of the ownership directory: 256 entries in each 4 KiB unit after the first (10 R390). -/
def dirCapacity (r : Region) : Nat := (r.detsize - 1) * 256

/-- What the directory says of a write by a rake: cause and owner of a violation. -/
def ownerCheck (r : Region) (rake va : Nat) : Option (Nat × Nat) :=
  match tget r.owners (va / 64) with
  | some o => if o = rake then none else some (1, o)
  | none => if dirCapacity r ≤ r.owners.length then some (2, 0) else none

/-- Record a rake as the owner of a line. -/
def claimLine (r : Region) (rake va : Nat) : Region :=
  if (tget r.owners (va / 64)).isSome then r else { r with owners := tput r.owners (va / 64) rake }

/-- Where an operation's enabled lanes lie: all inside the shared windows, all outside, or mixed. -/
inductive Side where
  | inside | outside | mixed
  deriving DecidableEq, Repr

def sideOf (s : State) (co : Coach) (addrs : List (Nat × Nat)) : Side :=
  if addrs.all (fun a => !inWindow s co a.2) then .outside
  else if addrs.all (fun a => inWindow s co a.2) then .inside
  else .mixed

/-- A private access inside a shared window of a deterministic region is a violation, and one that lies partly inside is a
mixed one (10 R393); else `f`. -/
def privDet (c : OpCtx) (s : State) (addrs : List (Nat × Nat)) (f : State → State) : State :=
  match sideOf s (coachOf s c.k) addrs with
  | .outside => f s
  | .inside => detviol c s 3 c.en 0 0
  | .mixed => detviol c s 4 c.en 0 0

/-- The rake index of a coach. -/
def rakeIdx (s : State) (co : Coach) : Nat := ((tget s.rakes co.rake).map Rake.idx).getD 0

/-- The ownership check of a write outside the windows: the state with DETVIOL raised, or none. Every line is checked
with the lines that this operation would claim before it. Writes alone are checked: no read looks at the owner of its line
(10 R392). -/
def ownerStop (c : OpCtx) (s : State) (addrs : List (Nat × Nat)) : Option State :=
  let co := coachOf s c.k
  match tget s.regions co.region with
  | none => none
  | some r =>
    if !r.det then none
    else
      let me := rakeIdx s co
      let go := addrs.foldl (fun (acc : Region × List (Nat × Nat × Nat × Nat)) a =>
        match ownerCheck acc.1 me a.2 with
        | none => (claimLine acc.1 me a.2, acc.2)
        | some (cause, o) => (acc.1, acc.2 ++ [(a.1, a.2, cause, o)])) (r, [])
      match go.2 with
      | [] => none
      | (_, va, cause, o) :: _ =>
        some (detviol c s cause (maskOf (fun l => go.2.any (fun e => e.1 == l))) o va)

/-- The owners of a deterministic region change: each new entry is 16 bytes of the directory, in the order of the claims (10
R390, log 33). -/
def claimOwners (s : State) (rg : Nat) (f : Region → Region) : State :=
  let owners (s : State) : Nat := ((tget s.regions rg).map (fun r => r.owners.length)).getD 0
  let n := owners s
  let s := modRegion s rg f
  let entry (i : Nat) : List Nat := ((((tget s.regions rg).map Region.owners).getD [])[n + i]?).elim [] (fun e => [e.1, e.2])
  (List.range (owners s - n)).foldl (fun s i => detAreaWrite s rg (4096 + 16 * (n + i)) 16 (entry i)) s

/-- Claim the lines of a write that goes ahead. -/
def claimLines (s : State) (co : Coach) (vas : List Nat) : State :=
  match tget s.regions co.region with
  | none => s
  | some r =>
    if r.det then
      let me := rakeIdx s co
      let out := vas.filter (fun va => !inWindow s co va)
      claimOwners s co.region (fun r => out.foldl (fun r va => claimLine r me va) r)
    else s

/-! ### Ordering -/

/-- The ordering of an access of a coach. -/
def orderCoach (s : State) (k ord agt stg : Nat) : State :=
  let co := coachOf s k
  orderGlobal s (l1Unit s (coreOf co)) co.ctx ord agt stg

/-! ### Data (R172, 12 R467, R468) -/

/-- Read each piece; the first poisoned line stops with the zone's error. -/
def readPieces (s : State) (k n : Nat) (bypass strm : Bool) :
    List Piece → Tbl (List Byte) → Except Nat (Tbl (List Byte)) × State
  | [], acc => (.ok acc, s)
  | p :: ps, acc =>
    let (bs, s) := coachRead s k p.pa n p.leaf bypass strm
    match poisonAt s (coachPath s (coachOf s k) p.leaf bypass strm).unit p.pa n with
    | some line => (.error line, s)
    | none => readPieces s k n bypass strm ps (tput acc p.lane bs)

/-- The copy of a line that a unit or the home slice serves has all its bytes new: its poison is gone. -/
def clearCopy (s : State) (unit : Option Nat) (line : Nat) : State :=
  match unit with
  | none => clearPoison s line
  | some u =>
    match l1Find s u line with
    | some c => l1Put s u { c with poisoned := false }
    | none => clearPoison s line

/-- One operation whose lanes write every byte of a line clears its poison (12 R467). -/
def clearCovered (s : State) (unit : Option Nat) (ws : List (Nat × Nat)) : State :=
  let lines := (ws.map (fun w => w.1 / 64)).eraseDups
  let covered (line : Nat) : Bool :=
    (List.range 64).all (fun i => ws.any (fun w => decide (w.1 ≤ line * 64 + i ∧ line * 64 + i < w.1 + w.2)))
  lines.foldl (fun s line => if linePoison s unit line && covered line then clearCopy s unit line else s) s

/-- Write each piece's bytes in order. -/
def writePieces (s : State) (k : Nat) (bypass strm : Bool) (ps : List (Piece × List Byte)) : State :=
  let s := ps.foldl (fun s p => coachWrite s k p.1.pa p.2 p.1.leaf bypass strm) s
  clearCovered s (ps.head?.bind (fun p => (coachPath s (coachOf s k) p.1.leaf bypass strm).unit))
    (ps.map (fun p => (p.1.pa, p.2.length)))

/-- The structure whose line a coach reads: a dirty line of its L1 or of L2, else DRAM (12 R471, log 91). -/
def lineSource (s : State) (k line : Nat) : Nat :=
  let dirty (c : Option CLine) : Bool := ((c.map (fun c => c.dirty != 0)).getD false)
  if dirty (l1Find s (l1Unit s (coreOf (coachOf s k))) (line / 64)) || dirty (l2Find s (line / 64)) then srcDirty else srcDram

/-- A coach has consumed an error: the record that names it, with the physical address (12 R471). -/
def logConsumed (s : State) (k source die pa : Nat) : State :=
  let co := coachOf s k
  logError s source (if co.zones.isEmpty then 3 else 2) die pa (some co.ctx) ((tget s.ctxs co.ctx).map Ctx.world)
    (some (coreOf co / 8 % 10))

/-- MEMERR into the coach's zone. -/
def memerr (s : State) (k line : Nat) : State :=
  coachError (logConsumed s k (lineSource s k line) (homeDie line) line) k 1 line

/-- The error of a coach whose translation met one: of a line, or of a poisoned page (12 R448, R468). -/
def xlatBad (s : State) (k pa va : Nat) (page : Bool) : State :=
  if page then coachError (logConsumed s k srcDram (homeDie pa) pa) k 4 va else memerr s k pa

/-- An operation that has met an error: its lanes whose pages take XLAT park first (R185), then the zone unwinds. -/
def failFound (s : State) (k : Nat) (a : Acc) (f : Found) (e : Nat × Nat × Bool) : State :=
  xlatBad (parkBad s k a f.bad) k e.1 e.2.1 e.2.2

/-- The one access of an operation of one per coach, translated, or the state after its fault or error: all the enabled lanes
park together (R186). -/
def togetherAt (c : OpCtx) (s : State) (va : Nat) (a : Acc) (f : Piece → State → State) : State :=
  match coachXlate s (coachOf s c.k) va a with
  | (.ok pa leaf, s) => f { lane := 0, va := va, pa := pa, leaf := leaf } s
  | (.fault e, s) =>
    finishGroup (c.without c.en) (parkLanes s c.k c.en va e (a.bits false false) false)
  | (.error pa page, s) => xlatBad s c.k pa va page

/-! ### Private memory (01 R36, 05 R174, R175, 09 R341, R342) -/

/-- The per-lane window P. -/
def privSize (s : State) (co : Coach) : Nat := ((tget s.ctxs co.ctx).map (fun c => 256 * c.privp)).getD 0
/-- privbase(coach). -/
def privBase (s : State) (co : Coach) : Nat :=
  ((tget s.ctxs co.ctx).map (fun c => c.privbase + 64 * (256 * c.privp) * co.fslot)).getD 0
/-- The global address of a private byte. -/
def privAddr (s : State) (co : Coach) (l o : Nat) : Nat := privBase s co + o / 4 * 256 + l * 4 + o % 4
/-- The slot that holds an offset, and its format byte's address. -/
def slotAddr (s : State) (co : Coach) (o : Nat) : Nat := privBase s co + o / 4 * 256
def formatAddr (s : State) (co : Coach) (o : Nat) : Nat :=
  ((tget s.ctxs co.ctx).map (fun c => c.smapbase + 64 * c.privp * co.fslot)).getD 0 + o / 4

/-- Word `l` of a slot whose format byte is `f`, from its 256 stored bytes; none: a reserved format. -/
def slotWord (f : Nat) (bs : List Byte) (l : Nat) : Option Word :=
  let at_ (o n : Nat) : Nat := leNat ((bs.drop o).take n)
  match f with
  | 0 => some (BitVec.ofNat 32 (at_ (4 * l) 4))
  | 1 => some (BitVec.ofNat 32 (at_ 0 4))
  | 2 => some (BitVec.ofNat 32 (wrapNat 32 ((at_ 0 4 : Nat) + sext 8 (at_ (4 + l) 1))))
  | 3 => some (BitVec.ofNat 32 (wrapNat 32 ((at_ 0 4 : Nat) + sext 16 (at_ (4 + 2 * l) 2))))
  | _ => none

/-- The stored form of a line: format byte and bytes (09 R342). -/
def slotForm (ws : List Word) : Nat × List Byte :=
  let base := (ws.head?).getD 0
  let delta (w : Word) : Int := sext 32 (w - base).toNat
  let fits (m : Int) : Bool := ws.all (fun w => decide (-m ≤ delta w ∧ delta w < m))
  if ws.all (fun w => w == base) then (1, leBytes 4 base.toNat)
  else if fits 128 then (2, leBytes 4 base.toNat ++ ws.flatMap (fun w => leBytes 1 (wrapNat 8 (delta w))))
  else if fits 32768 then (3, leBytes 4 base.toNat ++ ws.flatMap (fun w => leBytes 2 (wrapNat 16 (delta w))))
  else (0, ws.flatMap (fun w => leBytes 4 w.toNat))

/-- The 64 words of a line as a writer takes them: positions 32-63 repeat 0-31 outside native width. -/
def lineWords (co : Coach) (r : Nat) : List Word :=
  (List.range 64).map (fun l => vget co r (if co.width = 64 then l else l % 32))

/-! ### The scratchpad window (01 R34, R37, 12 R465) -/

/-- Bytes of the rake's window. -/
def padRead (r : Rake) (o n : Nat) : List Byte := memRead r.pad o n
/-- Write bytes; a write of all 8 bytes of a word clears its poison. -/
def padWrite (r : Rake) (o : Nat) (bs : List Byte) : Rake :=
  let clear (w : Nat) : Bool := decide (o ≤ 8 * w ∧ 8 * w + 8 ≤ o + bs.length)
  { r with pad := memWrite r.pad o bs, padPoison := r.padPoison.filter (fun w => !clear w) }
/-- A poisoned word among bytes of the window. -/
def padBad (r : Rake) (o n : Nat) : Bool := r.padPoison.any (fun w => decide (8 * w < o + n ∧ o < 8 * w + 8))

/-! ### Waiting for the turn and for staging room (10 R395, R396) -/

/-- The operation ends the coach's bundle: false when it must wait for room. -/
def endRoom (s : State) (k : Nat) : Bool := detRoom (coachOf s k) 0 true

/-- End the bundle at an operation that is not turn-served (10 R394), in a deterministic region. -/
def endsBundle (s : State) (k : Nat) : State :=
  if isDet s (coachOf s k) then modCoach s k (fun co => endBundle co false) else s

/-- An operation that ends a bundle first finds room. -/
def withRoom (c : OpCtx) (s : State) (f : State → State) : State :=
  if isDet s (coachOf s c.k) && !endRoom s c.k then stallHolding c s .bundleRoom else f s

/-- An operation that ends its bundle at issue, when there is room; one that has popped has ended it at its pop (10 R394). -/
def endingBundle (c : OpCtx) (s : State) (f : State → State) : State :=
  if c.turn then f s else withRoom c s (fun s => f (endsBundle s c.k))

end Sys2Proof.Machine
end

