-- ==== Sys2Proof/Machine/Control.lean ====
section
/-! DEFINITION. Control flow: branches, calls, JOIN, EXIT, SLEEP and YIELD (05 R153-R166). -/
namespace Sys2Proof.Machine

/-- Enabled lanes go to a target; the rest of the group falls through (R154). ICNT counts the operation. -/
def branchTo (c : OpCtx) (target : Nat → GAddr) (s : State) : State :=
  let s := modCoach s c.k (fun co =>
    let co := passLanes co c.i (c.grp &&& ~~~c.en)
    modLanes co c.en (fun l x => x.count.goto co.orderNext (target l)))
  releaseFpe s c.k c.i

/-- The target of BRA and CALL (02 R45, 08 R307). -/
def branchTarget (i : Iss) (imm : Nat) : GAddr :=
  let d := sext 32 imm
  BitVec.ofNat 57 (wrapNat 57 (if i.gunit = 0 then (i.ga.toNat : Int) + 8 + 8 * d else (i.ga.toNat : Int) + d * i.gunit))

/-- NOP (R153). -/
def execNop (w : NOp) (s : State) : Out :=
  .next (native w { fmtOk := onlyR w, xOk := fX w == 0 } finishGroup s)

/-- BRA (R153, R154). -/
def execBra (w : NOp) (s : State) : Out :=
  .next (native w { fmtOk := fKind w == 2, xOk := fXS w == 0 }
    (fun c s => branchTo c (fun _ => branchTarget c.i (fImm w)) s) s)

/-- The targets of BRX and CALLX, or the BOUNDS trap of lanes whose bits 63:57 are not zero (R154). -/
def indirect (c : OpCtx) (s : State) (f : (Nat → GAddr) → State) : State :=
  let co := coachOf s c.k
  let addrs := (lanesOf c.en).map (fun l => (l, (srcA c co true l).toNat))
  let bad := lanesWhere addrs outOfGlobal
  if bad ≠ 0 then accessTrap c s 7 bad 1 addrs else f (fun l => (srcA c co true l).extractLsb' 0 57)

/-- BRX (R153, R154). -/
def execBrx (w : NOp) (s : State) : Out :=
  .next (native w { fmtOk := onlyR w, xOk := fX w == 0, a := oPairVS }
    (fun c s => indirect c s (fun t => branchTo c t s)) s)

/-! ### The return stack (R155-R157) -/

/-- The return address of a call (R155). -/
def returnAddr (i : Iss) : GAddr := i.ga + BitVec.ofNat 57 i.len

/-- Push in the enabled lanes, then branch; a spill writes raw words (log 81). -/
def callTo (c : OpCtx) (target : Nat → GAddr) (s : State) : State :=
  let co := coachOf s c.k
  let full := maskOf (fun l => c.en.getLsbD l && decide ((laneOf co l).held.length = 8))
  let ovfl := maskOf (fun l => full.getLsbD l && decide ((laneOf co l).sp < 8))
  if ovfl ≠ 0 then
    accessTrap c s 7 ovfl 0xFF ((lanesOf ovfl).map (fun l => (l, wrapNat 64 (((laneOf co l).sp : Int) - 8))))
  else
    let addrs := (lanesOf full).map (fun l => (l, privAddr s co l ((laneOf co l).sp - 8)))
    let words := addrs.flatMap (fun a => [a, (a.1, a.2 + 256)])
    privDet c s words (fun s => (ownerStop c s words).getD (
    let (f, s) := findLanes s c.k .write addrs Found.none
    match f.err with
    | some e => failFound s c.k .write f e
    | none =>
      let s := parkBad s c.k .write f.bad
      let s := claimLines s co (f.ok.flatMap (fun p => [p.va, p.va + 256]))
      let oldest (l : Nat) : Nat := (((laneOf co l).held.getLast?).getD 0).toNat
      let halves (p : Piece) : List (Piece × List Byte) :=
        [(p, leBytes 4 (oldest p.lane)), ({ p with pa := p.pa + 256 }, leBytes 4 (oldest p.lane / 2 ^ 32))]
      let s := writePieces s c.k false false (f.ok.flatMap halves)
      let c := c.without f.badMask
      let ra := returnAddr c.i
      let s := modCoach s c.k (fun co => modLanes co c.en (fun _ x =>
        if x.held.length = 8 then { x with held := ra :: x.held.dropLast, sp := x.sp - 8 }
        else { x with held := ra :: x.held }))
      branchTo c target s))

/-- CALL (R153, R155, R156). -/
def execCall (w : NOp) (s : State) : Out :=
  .next (native w { fmtOk := fKind w == 2, xOk := fXS w == 0 }
    (fun c s => callTo c (fun _ => branchTarget c.i (fImm w)) s) s)

/-- CALLX (R153-R156). -/
def execCallx (w : NOp) (s : State) : Out :=
  .next (native w { fmtOk := onlyR w, xOk := fX w == 0, a := oPairVS }
    (fun c s => indirect c s (fun t => callTo c t s)) s)

/-- RET (R156); lanes with an empty stack trap before any refill (log 82). -/
def execRet (w : NOp) (s : State) : Out :=
  .next (native w { fmtOk := onlyR w, xOk := fX w == 0 }
    (fun c s =>
      let co := coachOf s c.k
      let p := privSize s co
      let empty := maskOf (fun l => c.en.getLsbD l && (laneOf co l).held.isEmpty)
      let none_ := maskOf (fun l => empty.getLsbD l && (laneOf co l).sp == p)
      if none_ ≠ 0 then illegalIn c s none_
      else
        let addrs := (lanesOf empty).map (fun l => (l, privAddr s co l (laneOf co l).sp))
        privDet c s (addrs.flatMap (fun a => [a, (a.1, a.2 + 256)])) (fun s =>
        let (f, s) := findLanes s c.k .read addrs Found.none
        match f.err with
        | some e => failFound s c.k .read f e
        | none =>
          let (lo, s) := readPieces s c.k 4 false false f.ok []
          let (hi, s) := readPieces s c.k 4 false false (f.ok.map (fun p => { p with pa := p.pa + 256 })) []
          match lo, hi with
          | .error line, _ => memerr (parkBad s c.k .read f.bad) c.k line
          | _, .error line => memerr (parkBad s c.k .read f.bad) c.k line
          | .ok lo, .ok hi =>
            let entry (l : Nat) : Nat := leNat (tgetD [] lo l) + 2 ^ 32 * leNat (tgetD [] hi l)
            let bad := maskOf (fun l => f.okMask.getLsbD l && decide (2 ^ 57 ≤ entry l))
            if bad ≠ 0 then illegalIn c s bad
            else
              let s := parkBad s c.k .read f.bad
              let c := c.without f.badMask
              let target (l : Nat) : GAddr :=
                match (laneOf co l).held with
                | a :: _ => a
                | [] => BitVec.ofNat 57 (entry l)
              let s := modCoach s c.k (fun co => modLanes co c.en (fun _ x =>
                if x.held.isEmpty then { x with sp := x.sp + 8 } else { x with held := x.held.drop 1 }))
              branchTo c target s)) s)
where
  /-- ILLEGAL RSTACK names the lanes that raised it; the operation has no effect in any lane. -/
  illegalIn (c : OpCtx) (s : State) (lanes : Mask) : State :=
    raiseTrap s c.k (opTrap c.i 1 iRstack lanes c.en [(64, 1, 0xFF)])

/-- YIELD ends the issue slot (R158): the coach counts as the last one issued, and its partition chooses next (10 R384). In a
deterministic region it is NOP. -/
def execYield (w : NOp) (s : State) : Out :=
  .next (native w { fmtOk := onlyR w, xOk := fX w == 0 }
    (fun c s =>
      let s := finishGroup c s
      let co := coachOf s c.k
      if isDet s co then s
      else
        match co.place with
        | some (core, p, i) =>
          { s with sched := .issueSelect (core * 4 + p) :: s.sched, lastPlace := tput s.lastPlace (core * 4 + p) i }
        | none => s) s)

/-! ### JOIN (R159-R161) -/

/-- JOIN. -/
def execJoin (w : NOp) (s : State) : Out :=
  let j := fX w % 16
  .next (native w { fmtOk := onlyR w, xOk := onlyBits 0xF (fX w) }
    (fun c s =>
      let co := coachOf s c.k
      if mget co j = 0 then
        finishGroup c (modCoach s c.k (fun co => evalJoins co (fun p => p.1 == c.i.ga && p.2.1 == c.i.step)))
      else
        let s := modCoach s c.k (fun co =>
          let co := passLanes co c.i (c.grp &&& ~~~c.en)
          let co := modLanes co c.en (fun _ x => { x.count with state := .joining, wait := .join j, word := c.i.word
                                                                nga := c.i.next.1, nstep := c.i.next.2 })
          evalJoins co (fun p => p.1 == c.i.ga && p.2.1 == c.i.step))
        releaseFpe (checkJoins s c.k) c.k c.i) s)

/-! ### EXIT (R162, R163) -/

/-- An operation that writes every visible lane, whatever the lanes' states: MSTA.REG (06 R241) and LDL.V (R174). -/
def Slot.whole (sl : Slot) : Bool :=
  let op := opOf sl.opword
  let w := NOp.ofWord sl.opword
  op == 0xC5 || op == 0x94 && fKind w == 0 && (fX w).testBit 0

/-- Lanes exit: their slots are discarded for them (log 74), the JOINs that name them are evaluated, and the coach may end. -/
def exitLanes (s : State) (k : Nat) (m : Mask) : State :=
  let s := modCoach s k (fun co =>
    let rbuf := (co.rbuf.map (fun sl => if sl.whole then sl else sl.without m)).filter (fun sl => sl.lanes != 0)
    let co := modLanes { co with rbuf := rbuf } m (fun _ x => { x with state := .exited, wait := .none })
    evalJoins co (fun p => (mget co p.2.2 &&& m) != 0))
  let co := coachOf s k
  let ovfl := lanesOver co
  if ovfl then
    -- the last bundle ends; zones close without unwinding; the coach ends
    let s := modCoach s k (fun co => { co with zones := [] })
    let s := endsBundle s k
    checkCoach s k
  else checkJoins s k

/-- EXIT. -/
def execExit (w : NOp) (s : State) : Out :=
  .next (native w { fmtOk := onlyR w, xOk := fX w == 0 }
    (fun c s => withRoom c s (fun s =>
      let s := modCoach s c.k (fun co =>
        let co := passLanes co c.i (c.grp &&& ~~~c.en)
        modLanes co c.en (fun _ x => x.count))
      exitLanes (releaseFpe s c.k c.i) c.k c.en)) s)

/-! ### SLEEP (R164-R166) -/

/-- Put the enabled lanes to sleep; the others pass. -/
def sleepIn (c : OpCtx) (wt : Wait) (s : State) : State :=
  let s := modCoach s c.k (fun co => sleepLanes (passLanes co c.i (c.grp &&& ~~~c.en)) c.i c.en (fun _ => wt))
  releaseFpe s c.k c.i

/-- SLEEP n. -/
def execSleep (w : NOp) (s : State) : Out :=
  .next (native w { fmtOk := fKind w == 2, xOk := fXS w == 0 }
    (fun c s =>
      if fImm w = 0 then finishGroup c s
      else sleepIn c (.cycles (cycleOf s (coreOf (coachOf s c.k)) + fImm w)) s) s)

/-- SLEEP.BAR and the absolute form of SLEEP. -/
def execSleepBar (w : NOp) (s : State) : Out :=
  let x := fX w
  let lt := x.testBit 5
  let bar := x.testBit 4
  .next (native w { fmtOk := onlyR w, xOk := onlyBits 0x3F x && (bar || onlyBits 0x10 x), a := oPairVS
                    b := if bar then .cls true true false true 1 false else .unused }
    (fun c s =>
      let co := coachOf s c.k
      match lowLane c.en with
      | none => s
      | some l =>
        let t := (srcB c co false 0 l).extractLsb' 0 24
        wakeReady (sleepIn c (.sleepBar (srcA c co true l) bar (x % 16) t lt) s) c.k) s)

end Sys2Proof.Machine
end

