-- ==== Sys2Proof/Machine/Memory.lean ====
section
/-! DEFINITION. Loads, stores, private memory, described lines, atomics, fences and cache control (05 R167-R186). -/
namespace Sys2Proof.Machine

/-! ### Fields (R167-R170) -/

def mTy (w : NOp) : Nat := if fKind w = 0 then field (fX w) 16 13 else field (fXS w) 8 5
def mOrd (w : NOp) : Nat := if fKind w = 0 then field (fX w) 12 10 else 0
def mAgt (w : NOp) : Nat := if fKind w = 0 then field (fX w) 9 7 else 0
def mStg (w : NOp) : Nat := if fKind w = 0 then field (fX w) 6 5 else 0
def mOpm (w : NOp) : Nat := if fKind w = 0 then fX w % 32 else 0
/-- The cache hint. -/
def mCh (w : NOp) : Nat := if fKind w = 0 then field (fX w) 4 3 else field (fXS w) 4 3
/-- Access bytes by TY. -/
def mBytes (w : NOp) : Nat := tyBits (mTy w) / 8
def mWide (w : NOp) : Bool := tyWide (mTy w)

/-- Valid scopes; relaxed accesses that take none need 0 (R168). -/
def scopesOk (w : NOp) (relaxedZero : Bool) : Bool :=
  if relaxedZero && mOrd w == 0 then mAgt w == 0 && mStg w == 0 else decide (mAgt w ≤ 5) && decide (mStg w ≤ 2)

/-- Address A: a pair for global memory, one register otherwise. -/
def oAddr (global : Bool) : Opnd := if global then oPairVS else .cls true true false false 1 false
/-- Offset B of the register form. -/
def oOffset : Opnd := .cls true true false true 1 false
/-- A store's data. -/
def oData (wide : Bool) : Opnd := if wide then oPairZ else .cls true true false true 1 false

/-- The checks of LD, ST, LDS, STS, LDL, STL. `hint`: CH is present; `v`: OPM<0> is V. -/
def memSpec (w : NOp) (store global hint v : Bool) (ords : List Nat) : OpSpec :=
  let wide := mWide w
  let opmOk :=
    if hint then mCh w != 3 && (if fKind w = 0 then mOpm w % 8 == 0 else fXS w % 8 == 0)
    else if v then (if fKind w = 0 then decide (mOpm w < 2) else fXS w % 32 == 0)
    else true
  { fmtOk := shortForm w, xOk := opmOk, tyOk := decide (mTy w < 8), ordOk := ords.contains (mOrd w)
    scopeOk := scopesOk w true, d := if store then oData wide else oVar wide, a := oAddr global
    b := if fKind w = 0 then oOffset else .unused, dSrc := store, long := !store }

/-- The offset that a lane adds. -/
def offsetOf (c : OpCtx) (co : Coach) (l : Nat) : Int :=
  if fI c.w then sext 24 (fImm c.w) else sext 32 (srcB c co false 0 l).toNat

/-- Global addresses of the enabled lanes (R35, R171). -/
def globalAddrs (c : OpCtx) (co : Coach) : List (Nat × Nat) :=
  (lanesOf c.en).map (fun l => (l, wrapNat 64 (((srcA c co true l).toNat : Int) + offsetOf c co l)))
/-- Offsets of the enabled lanes in the window or in private memory. -/
def localAddrs (c : OpCtx) (co : Coach) : List (Nat × Nat) :=
  (lanesOf c.en).map (fun l => (l, wrapNat 32 (((srcA c co false l).toNat : Int) + offsetOf c co l)))

/-- The register value of loaded bytes (02 R57). -/
def loadValue (ty : Nat) (bs : List Byte) : Dword := tyOut ty (leNat bs : Nat)

/-- Deliver loaded bytes to the lanes that read. -/
def deliverLoad (c : OpCtx) (ty : Nat) (t : Tbl (List Byte)) (s : State) : State :=
  deliverTo c c.en (if tyWide ty then 2 else 1)
    (fun l j => let d := loadValue ty (tgetD [] t l); if j = 0 then loOf d else hiOf d) noFlags s

/-- The data of a store: the TY-sized low bytes of D in a lane. -/
def storeBytes (c : OpCtx) (co : Coach) (ty l : Nat) : List Byte :=
  leBytes (tyBits ty / 8) (readOp c co (fD c.w) (tyWide ty) l).toNat

/-! ### Turn-served and staged operations (10 R393, R396) -/

/-- A turn-served operation: lanes that take XLAT park, the rest end the bundle and wait; at the turn `f` performs it. An
operation that has popped is at its turn already: it is one turn-served operation (10 R396). -/
def atTurn (c : OpCtx) (s : State) (a : Acc) (addrs : List (Nat × Nat)) (f : OpCtx → State → State) : State :=
  let co := coachOf s c.k
  if co.turnGranted || c.turn then f c (acquireGlobal (useTurn s c.k) (l1Unit s (coreOf co)) co.ctx 4)
  else if !endRoom s c.k then stallHolding c s .bundleRoom
  else
    let (fd, s) := findLanes s c.k a addrs Found.none
    match fd.err with
    | some e => failFound s c.k a fd e
    | none =>
      let s := parkBad s c.k a fd.bad
      let c := c.without fd.badMask
      if c.en = 0 then finishGroup c s else awaitTurn s c.k c.i c.grp

/-- Stage entries for the lanes that translate, when there is room; the group passes. -/
def stageLanes (c : OpCtx) (s : State) (a : Acc) (addrs : List (Nat × Nat)) (entry : Nat → Nat → Staged) : State :=
  if !detRoom (coachOf s c.k) addrs.length false then stallHolding c s .bundleRoom
  else
    let (fd, s) := findLanes s c.k a addrs Found.none
    match fd.err with
    | some e => failFound s c.k a fd e
    | none =>
      let s := parkBad s c.k a fd.bad
      finishGroup (c.without fd.badMask) (stage s c.k (fd.ok.map (fun p => entry p.lane p.va)))

/-! ### LD and ST (R171, R172) -/

/-- The read of a load: order, translation, data. -/
def loadGlobal (c : OpCtx) (s : State) (addrs : List (Nat × Nat)) : State :=
  let w := c.w
  let (f, s) := findLanes s c.k .read addrs Found.none
  match f.err with
  | some e => failFound s c.k .read f e
  | none =>
    let s := if f.ok.isEmpty then s else orderCoach s c.k (mOrd w) (mAgt w) (mStg w)
    match readPieces s c.k (mBytes w) (mCh w == 2) (mCh w == 1) f.ok [] with
    | (.error line, s) => memerr (parkBad s c.k .read f.bad) c.k line
    | (.ok t, s) => deliverLoad (c.without f.badMask) (mTy w) t (parkBad s c.k .read f.bad)

def execLd (w : NOp) (s : State) : Out :=
  .next (native w (memSpec w false true true false [0, 1, 4])
    (fun c s =>
      let co := coachOf s c.k
      let addrs := globalAddrs c co
      match checkAccess c s addrs outOfGlobal (mBytes w) with
      | some s => s
      | none =>
        match sideOf s co addrs with
        | .mixed => detviol c s 4 c.en 0 0
        | .inside => atTurn c s .read addrs (fun c s => loadGlobal c s addrs)
        | .outside => loadGlobal c s addrs) s)

/-- The writes of a store: translation, data in lane order, then the release. -/
def storeGlobal (c : OpCtx) (s : State) (addrs : List (Nat × Nat)) : State :=
  let w := c.w
  let co := coachOf s c.k
  let (f, s) := findLanes s c.k .write addrs Found.none
  let ok := if f.poisoned then [] else f.ok
  let s := claimLines s co (ok.map (fun p => p.va))
  let s := writePieces s c.k (mCh w == 2) (mCh w == 1) (ok.map (fun p => (p, storeBytes c co (mTy w) p.lane)))
  match f.err with
  | some e => failFound s c.k .write f e
  | none =>
    let s := if f.ok.isEmpty then s else orderCoach s c.k (mOrd w) (mAgt w) (mStg w)
    finishGroup (c.without f.badMask) (parkBad s c.k .write f.bad)

def execSt (w : NOp) (s : State) : Out :=
  .next (native w (memSpec w true true true false [0, 2, 4])
    (fun c s =>
      let co := coachOf s c.k
      let addrs := globalAddrs c co
      match checkAccess c s addrs outOfGlobal (mBytes w) with
      | some s => s
      | none =>
        match shadowStop c s c.en addrs with
        | some s => s
        | none =>
          match sideOf s co addrs with
          | .mixed => detviol c s 4 c.en 0 0
          | .inside => stageLanes c s .write addrs (fun l va =>
              .store co.bundle.entries.length va (mBytes w) (readOp c co (fD w) (mWide w) l))
          | .outside =>
            match ownerStop c s addrs with
            | some s => s
            | none => storeGlobal c s addrs) s)

/-! ### LDS and STS (R171, R172) -/

/-- The window of a coach's rake. -/
def windowOf (s : State) (co : Coach) : Nat := ((tget s.rakes co.rake).map Rake.window).getD 0
/-- An access outside a window of `n` bytes. -/
def outOfLocal (n size o : Nat) : Bool := decide (n < o + size)

/-- A poisoned word met in the window (12 R465, R467): MEMERR, whose line address the window does not have. -/
def padError (s : State) (k : Nat) : State := 
  coachError (logConsumed s k srcScratch (coreOf (coachOf s k) / 80) 0) k 1 0

def execLds (w : NOp) (s : State) : Out :=
  .next (native w (memSpec w false false true false [0, 1, 4])
    (fun c s =>
      let co := coachOf s c.k
      let addrs := localAddrs c co
      match checkAccess c s addrs (outOfLocal (windowOf s co) (mBytes w)) (mBytes w) with
      | some s => s
      | none =>
        match tget s.rakes co.rake with
        | none => s
        | some r =>
          if addrs.any (fun a => padBad r a.2 (mBytes w)) then padError s c.k
          else
            let s := orderCoach s c.k (mOrd w) (mAgt w) (mStg w)
            deliverLoad c (mTy w) (addrs.map (fun a => (a.1, padRead r a.2 (mBytes w)))) s) s)

def execSts (w : NOp) (s : State) : Out :=
  .next (native w (memSpec w true false true false [0, 2, 4])
    (fun c s =>
      let co := coachOf s c.k
      let addrs := localAddrs c co
      match checkAccess c s addrs (outOfLocal (windowOf s co) (mBytes w)) (mBytes w) with
      | some s => s
      | none =>
        match shadowStop c s c.en addrs with
        | some s => s
        | none =>
          let s := modRake s co.rake (fun r =>
            addrs.foldl (fun r a => padWrite r a.2 (storeBytes c co (mTy w) a.1)) r)
          finishGroup c (orderCoach s c.k (mOrd w) (mAgt w) (mStg w))) s)

/-! ### LDL and STL (R174, R175) -/

/-- V: a whole register line. -/
def mV (w : NOp) : Bool := mOpm w % 2 == 1

/-- The checks of LDL and STL; `.V` takes a v register and UI32 or SI32. -/
def localSpec (w : NOp) (store : Bool) : OpSpec :=
  let sp := memSpec w store false false true [0]
  if mV w then { sp with tyOk := decide (mTy w < 2), d := .cls true false false false 1 false } else sp

/-- The private words of an access: two for 8 bytes. -/
def privOffsets (n o : Nat) : List Nat := if n = 8 then [o, o + 4] else [o]

/-- A whole-line access: the offset of the lowest enabled lane, checked. -/
def lineOffset (c : OpCtx) (s : State) (f : Nat → State) : State :=
  let co := coachOf s c.k
  match localAddrs c co with
  | [] => s
  | (_, o) :: _ =>
    if outOfLocal (privSize s co) 4 o then accessTrap c s 7 c.en 1 (localAddrs c co)
    else if o % 4 ≠ 0 then accessTrap c s 6 c.en 1 (localAddrs c co)
    else f o

/-- The format byte of a slot: the slot map is the Damith's own access. -/
def formatOf (s : State) (co : Coach) (o : Nat) : Nat × State :=
  match ownReadV s (coreUnits (coreOf co)) co.ctx (formatAddr s co o) 1 with
  | (.ok bs, s) => (leNat bs, s)
  | (.error _, s) => (0, s)

/-- A format byte of an access that holds an error: its line. -/
def badFormat (s : State) (co : Coach) (offs : List Nat) : Option Nat :=
  offs.findSome? (fun o => match (ownReadP s (coreUnits (coreOf co)) co.ctx (formatAddr s co (4 * o)) 1).1 with
    | .error (.error pa false, _) => some pa
    | _ => none)

/-- The slot-map bytes of an access translate and hold no error; else the context is reset, and the operation has no effect (11
R431, R510, 12 R468). -/
def withMap (c : OpCtx) (s : State) (addrs : List (Nat × Nat)) (a : Acc) (f : State → State) : State :=
  let co := coachOf s c.k
  let offs := (addrs.flatMap (fun x => [x.2 / 4, x.2 / 4 + (if mBytes c.w = 8 then 1 else 0)])).eraseDups
  let go := offs.foldl (fun (acc : Bool × State) o =>
    let (x, s) := areaPieces acc.2 (coreUnits (coreOf co)) co.ctx (formatAddr s co (4 * o)) 1 a
    (acc.1 && x.isSome, s)) (true, s)
  if !go.1 then markReset go.2 co.ctx
  else
    match badFormat go.2 co offs with
    | some pa => errorReset go.2 co.ctx pa
    | none => f go.2

/-- Set the format byte of a slot. -/
def setFormat (s : State) (co : Coach) (o f : Nat) : State :=
  (ownWriteV s (coreUnits (coreOf co)) co.ctx (formatAddr s co o) (leBytes 1 f)).2

/-- The slot of an offset, translated. -/
def slotAt (c : OpCtx) (s : State) (o : Nat) (a : Acc) (f : Piece → State → State) : State :=
  togetherAt c s (slotAddr s (coachOf s c.k) o) a f

/-- LDL.V of the slot at an offset. -/
def loadLine (c : OpCtx) (o : Nat) (s : State) : State :=
  withMap c s [(0, o)] .read (fun s => slotAt c s o .read (fun p s =>
    let co := coachOf s c.k
    let (f, s) := formatOf s co o
    match readPieces s c.k 256 false false [p] [] with
    | (.error line, s) => memerr s c.k line
    | (.ok t, s) =>
      let bs := tgetD [] t 0
      if 3 < f then coachError s c.k 5 o
      else
        let word (l _ : Nat) : Word := (slotWord f bs l).getD 0
        let co := coachOf s c.k
        let sl := slotOf co c 1 (laneWrites (fD c.w) 1 co.all word) [] noFlags
        finishGroup c (setCoach s c.k (addSlot co { sl with lanes := co.all }))))

/-- STL.V of the slot at an offset. -/
def storeLine (c : OpCtx) (o : Nat) (s : State) : State :=
  withMap c s [(0, o)] .atomic (fun s => slotAt c s o .write (fun p s =>
    let co := coachOf s c.k
    let (f, bs) := slotForm (lineWords co (fD c.w))
    let s := writePieces s c.k false false [(p, bs)]
    finishGroup c (setFormat s co o f)))

/-- The addresses of the private words of lanes. -/
def privVas (s : State) (co : Coach) (n : Nat) (addrs : List (Nat × Nat)) : List (Nat × Nat) :=
  addrs.flatMap (fun x => (privOffsets n x.2).map (fun o => (x.1, privAddr s co x.1 o)))

/-- The private words of lanes: translation of each word. -/
def privWords (s : State) (k n : Nat) (a : Acc) (addrs : List (Nat × Nat)) : Found × State :=
  findLanes s k a (privVas s (coachOf s k) n addrs) Found.none

/-- The four lines of a slot, as accesses of one lane. -/
def slotLines (base : Nat) : List (Nat × Nat) := (List.range 4).map (fun i => (0, base + 64 * i))

/-- A plain private load: one lane's word through its slot's format. -/
def privLoadWord (s : State) (k : Nat) (p : Piece) (o : Nat) : Except (Sum Nat Nat) Nat × State :=
  let co := coachOf s k
  let (f, s) := formatOf s co o
  let line := { p with pa := p.pa - (p.lane * 4 + o % 4) }
  let raw := { p with pa := p.pa - o % 4 }
  match readPieces s k (if f = 0 then 4 else 256) false false [if f = 0 then raw else line] [] with
  | (.error line, s) => (.error (.inl line), s)
  | (.ok t, s) =>
    let bs := tgetD [] t p.lane
    if f = 0 then (.ok (leNat (bs.take 4)), s)
    else
      match slotWord f bs p.lane with
      | some w => (.ok w.toNat, s)
      | none => (.error (.inr (o / 4 * 4)), s)

/-- A plain STL first makes the slot raw. -/
def expandSlot (s : State) (k o : Nat) (p : Piece) : Except (Sum Nat Nat) Unit × State :=
  let co := coachOf s k
  let (f, s) := formatOf s co o
  if f = 0 then (.ok (), s)
  else
    let base : Piece := { p with pa := p.pa - (p.lane * 4 + o % 4) }
    match readPieces s k 256 false false [base] [] with
    | (.error line, s) => (.error (.inl line), s)
    | (.ok t, s) =>
      let bs := tgetD [] t p.lane
      let ws := (List.range 64).map (fun l => slotWord f bs l)
      if ws.any Option.isNone then (.error (.inr (o / 4 * 4)), s)
      else
        let raw := ws.flatMap (fun w => leBytes 4 (w.getD 0).toNat)
        (.ok (), setFormat (writePieces s k false false [(base, raw)]) co o 0)

/-- The offset that a piece of a lane stands for: the first or the second word of an 8-byte access. -/
def pieceOffsets (addrs : List (Nat × Nat)) (n : Nat) (ok : List Piece) : List (Piece × Nat) :=
  addrs.flatMap (fun x =>
    let ps := ok.filter (fun p => p.lane == x.1)
    ps.zip (privOffsets n x.2))

/-- Lanes all of whose words translate. -/
def wholeLanes (f : Found) : Found := { f with ok := f.ok.filter (fun p => !f.bad.any (fun b => b.1 == p.lane)) }

/-- The errors of private accesses. -/
def privError (s : State) (k : Nat) : Sum Nat Nat → State
  | .inl line => memerr s k line
  | .inr o => coachError s k 5 o

/-- Read the words of plain private loads, joining the two of an 8-byte access. -/
def privRead (k n : Nat) : List (Piece × Nat) → Tbl Nat → State → Except (Sum Nat Nat) (Tbl Nat) × State
  | [], t, s => (.ok t, s)
  | (p, o) :: ps, t, s =>
    match privLoadWord s k p o with
    | (.error e, s) => (.error e, s)
    | (.ok v, s) =>
      let v := if n < 4 then v / 2 ^ (8 * (o % 4)) % 2 ^ (8 * n) else v
      let v := match tget t p.lane with
        | some lo => lo + 2 ^ 32 * v
        | none => v
      privRead k n ps (tput t p.lane v) s

def execLdl (w : NOp) (s : State) : Out :=
  .next (native w (localSpec w false)
    (fun c s =>
      let co := coachOf s c.k
      let addrs := localAddrs c co
      if mV w then lineOffset c s (fun o => privDet c s (slotLines (slotAddr s co o)) (loadLine c o))
      else
        let n := mBytes w
        match checkAccess c s addrs (outOfLocal (privSize s co) n) n with
        | some s => s
        | none => privDet c s (privVas s co n addrs) (fun s => withMap c s addrs .read (fun s =>
          let (f, s) := privWords s c.k n .read addrs
          match f.err with
          | some e => failFound s c.k .read f e
          | none =>
            let f := wholeLanes f
            match privRead c.k n (pieceOffsets addrs n f.ok) [] s with
            | (.error e, s) => privError (parkBad s c.k .read f.bad) c.k e
            | (.ok t, s) =>
              deliverLoad (c.without f.badMask) (mTy w) (t.map (fun e => (e.1, leBytes n e.2)))
                (parkBad s c.k .read f.bad)))) s)

/-- Expand the slots of plain private stores, and write each word's bytes. -/
def privWrite (k n : Nat) (data : Nat → Nat) : List (Piece × Nat) → State → Except (Sum Nat Nat) Unit × State
  | [], s => (.ok (), s)
  | (p, o) :: ps, s =>
    match expandSlot s k o p with
    | (.error e, s) => (.error e, s)
    | (.ok _, s) =>
      let v := data p.lane
      let high := n == 8 && o % 8 == 4
      let bs := leBytes (if n = 8 then 4 else n) (if high then v / 2 ^ 32 else v)
      privWrite k n data ps (writePieces s k false false [(p, bs)])

def execStl (w : NOp) (s : State) : Out :=
  .next (native w (localSpec w true)
    (fun c s =>
      let co := coachOf s c.k
      let addrs := localAddrs c co
      -- shadow and owner checks of what is stored
      let checked (s : State) (lanes : Mask) (vas owned : List (Nat × Nat)) (f : State → State) : State :=
        privDet c s owned (fun s =>
          match shadowStop c s lanes vas with
          | some s => s
          | none =>
            match ownerStop c s owned with
            | some s => s
            | none => f s)
      if mV w then
        lineOffset c s (fun o =>
          let base := slotAddr s co o
          let lines := slotLines base
          checked s co.all ((lanesOf co.all).map (fun l => (l, base + 4 * l))) lines (fun s =>
            storeLine c o (claimLines s co (lines.map (fun a => a.2)))))
      else
        let n := mBytes w
        let gaddrs := addrs.map (fun a => (a.1, privAddr s co a.1 a.2))
        let words := privVas s co n addrs
        match checkAccess c s addrs (outOfLocal (privSize s co) n) n with
        | some s => s
        | none =>
          checked s c.en gaddrs words (fun s => withMap c s addrs .atomic (fun s =>
            let (f, s) := privWords s c.k n .write addrs
            match f.err with
            | some e => failFound s c.k .write f e
            | none =>
              let f := wholeLanes f
              let s := claimLines s co (f.ok.map (fun p => p.va))
              match privWrite c.k n (fun l => (readOp c co (fD w) (mWide w) l).toNat) (pieceOffsets addrs n f.ok) s with
              | (.error e, s) => privError (parkBad s c.k .write f.bad) c.k e
              | (.ok _, s) => finishGroup (c.without f.badMask) (parkBad s c.k .write f.bad)))) s)

end Sys2Proof.Machine
end

