-- ==== Sys2Proof/Machine/Atomics.lean ====
section
/-! DEFINITION. Described lines, atomics, fences and cache control (05 R176-R183). -/
namespace Sys2Proof.Machine

/-! ### LDD and STD (R176-R178, 03 R85-R89) -/

/-- CONT: 0 NF8, 1 NF4. -/
def lNf4 (w : NOp) : Bool := (fX w).testBit 9
/-- Registers of the group. -/
def lGroup (w : NOp) (width : Nat) : Nat := (if lNf4 w then 128 else 64) / width
/-- An even scalar pair. -/
def oPairS : Opnd := .cls false true false false 2 true

/-- The checks of LDD and STD for a coach's width. -/
def lineSpec (w : NOp) (width : Nat) (store : Bool) : OpSpec :=
  let x := fX w
  { fmtOk := onlyR w, xOk := x % 16 == 0 && (store || field x 8 4 == 0), tyOk := tyIn w tyFloats, rmOk := rmAny w
    d := .cls true false false false (lGroup w width) true, a := oPairS, b := oPairS, c := oPairS, dSrc := store
    long := !store }

/-- LA, and the descriptor's address (03 R86). -/
def lineAddrs (c : OpCtx) (co : Coach) : Nat × Nat × Nat × Nat :=
  let la := (srcA c co true 0).toNat
  let plane := (srcB c co true 0 0).toNat
  let tbase := (srcC c co true 0).toNat
  (la, plane, tbase, (plane + (la - tbase) / 64 * 2) % 2 ^ 64)

/-- BOUNDS and ALIGN of a described line, in every enabled lane. -/
def lineCheck (c : OpCtx) (s : State) : Option State :=
  let (la, plane, tbase, desc) := lineAddrs c (coachOf s c.k)
  let addrs := (lanesOf c.en).map (fun l => (l, la))
  if outOfGlobal la || decide (la < tbase) || outOfGlobal desc then some (accessTrap c s 7 c.en 1 addrs)
  else if la % 64 ≠ 0 ∨ tbase % 64 ≠ 0 ∨ plane % 2 ≠ 0 then
    some (accessTrap c s 6 c.en (if la % 64 ≠ 0 then 1 else if plane % 2 ≠ 0 then 2 else 3) addrs)
  else none

/-- The line and its descriptor translate, or the enabled lanes park together. -/
def lineAt (c : OpCtx) (s : State) (a : Acc) (f : Piece → Piece → State → State) : State :=
  let (la, _, _, desc) := lineAddrs c (coachOf s c.k)
  let (fd, s) := findLanes s c.k a [(0, la), (1, desc)] Found.none
  match fd.err with
  | some (pa, va, page) => xlatBad s c.k pa va page
  | none =>
    match fd.bad with
    | (_, va, e) :: _ => finishGroup (c.without c.en) (parkLanes s c.k c.en va e (a.bits false false) false)
    | [] =>
      match fd.ok with
      | [p, q] => f p q s
      | _ => s

/-- Element numbers by lane and register: element i is in register i div width, lane i mod width. -/
def elemValue (s : State) (ctx : Nat) (nf4 : Bool) (ty rm width : Nat) (bs : List Byte) (d l j : Nat) : Nat × Flags :=
  let fmts := (List.range 16).map (fmtReg s ctx)
  (tyFmt ty).round rm false (describedValue fmts nf4 bs (j * width + l) d)

/-- LDD after its checks. -/
def loadDescribed (c : OpCtx) (s : State) : State :=
  lineAt c s .read (fun p q s =>
    let co := coachOf s c.k
    let w := c.w
    let fmts := (List.range 16).map (fmtReg s co.ctx)
    match readPieces s c.k 2 false false [q] [] with
    | (.error line, s) => memerr s c.k line
    | (.ok t, s) =>
      let d := leNat (tgetD [] t q.lane)
      let out := if lineReadsData fmts (lNf4 w) d then readPieces s c.k 64 false false [p] [] else (.ok [], s)
      match out with
      | (.error line, s) => memerr s c.k line
      | (.ok t, s) =>
        let bs := tgetD [] t p.lane
        let n := lGroup w co.width
        let val := elemValue s co.ctx (lNf4 w) (fTy w) (roundOf co w) co.width bs d
        let fl := laneFlags c.en (fun l =>
          (List.range n).foldl (fun f j => f ||| (val l j).2) (flagIf (lineMalformed fmts (lNf4 w) d) flagIV))
        deliverTo c c.en n (fun l j => BitVec.ofNat 32 (val l j).1) fl s)

def execLdd (w : NOp) (s : State) : Out :=
  .next (native w (lineSpec w (coachOf s s.iss.coach).width false)
    (fun c s =>
      let co := coachOf s c.k
      match lineCheck c s with
      | some s => s
      | none =>
        let (la, _, _, desc) := lineAddrs c co
        match sideOf s co [(0, la), (0, desc)] with
        | .mixed => detviol c s 4 c.en 0 la
        | .inside => atTurn c s .read [] (fun c s => loadDescribed c s)
        | .outside => loadDescribed c s) s)

/-- The least e with |x| <= maxf x 2^e. -/
def leastScale (maxf x : Num) : Int :=
  match maxf, x with
  | .fin _ m e, .fin _ m' e' =>
    let d := floorLog m' e' - floorLog m e
    if numLt (scaleNum maxf d) x.abs then d + 1 else d
  | _, _ => 0

/-- The greatest magnitude among finite non-zero values. -/
def maxMagnitude (vs : List Num) : Option Num :=
  vs.foldl (fun (m : Option Num) v =>
    match v with
    | .fin _ man _ =>
      if man = 0 then m
      else match m with
        | some x => if numLt x v.abs then some v.abs else m
        | none => some v.abs
    | _ => m) none

/-- STD's choice of SCALE (R178). -/
def stdScale (f : NfFmt) (auto : Bool) (vs : List Num) : Nat :=
  if vs ≠ [] ∧ vs.all Num.isNan = true then 255
  else
    match (if auto then maxMagnitude vs else none) with
    | none => 127
    | some m =>
      let e := leastScale (nfValue f f.maxCode) m
      (clampInt 0 254 (127 + e)).toNat

/-- The bytes of a line from its element codes. -/
def lineBytes (nf4 : Bool) (codes : List Nat) : List Byte :=
  if nf4 then (List.range 64).map (fun i =>
    BitVec.ofNat 8 ((codes[2 * i]?).getD 0 % 16 + 16 * ((codes[2 * i + 1]?).getD 0 % 16)))
  else codes.map (BitVec.ofNat 8)

/-- STD's line, descriptor and the flags of each lane. -/
def stdLine (c : OpCtx) (co : Coach) (f : NfFmt) : List Byte × Nat × List Mask :=
  let w := c.w
  let x := fX w
  let n := if lNf4 w then 128 else 64
  let en (i : Nat) : Bool := c.en.getLsbD (i % co.width)
  let src (i : Nat) : Num :=
    (tyFmt (fTy w)).value (fBits (fTy w) ((readWord c co (fD w) (i / co.width) (i % co.width)).setWidth 64))
  let vs := ((List.range n).filter en).map src
  let scale := stdScale f (x.testBit 4) vs
  let conv (i : Nat) : Nat × Flags :=
    if !en i then (0, 0)
    else
      let (code, fl) := nfConvert f (roundOf co w) (scaleNum (src i) (127 - (scale : Int)))
      -- a line of NaNs holds zeros, and its conversions raise their flags
      (if scale = 255 then 0 else code, fl)
  let fl := laneFlags c.en (fun l => (List.range (n / co.width)).foldl (fun a j => a ||| (conv (j * co.width + l)).2) 0)
  (lineBytes (lNf4 w) ((List.range n).map (fun i => (conv i).1)), scale * 256 + field x 8 5, fl)

/-- STD (R176-R178). A format of the other container is refused before the addresses are checked (DESIGN CHOICE, log 90). -/
def execStd (w : NOp) (s : State) : Out :=
  .next (native w (lineSpec w (coachOf s s.iss.coach).width true)
    (fun c s =>
      let co := coachOf s c.k
      let f := nfOf (fmtReg s co.ctx (field (fX w) 8 5))
      if (f.cont == 1) != lNf4 w then reject c s iFormat 0xFF
      else
        match lineCheck c s with
        | some s => s
        | none =>
          let (la, _, _, desc) := lineAddrs c co
          match shadowStop c s co.all ((lanesOf co.all).map (fun l => (l, la))) with
          | some s => s
          | none =>
            let (bs, d, fl) := stdLine c co f
            match sideOf s co [(0, la), (0, desc)] with
            | .mixed => detviol c s 4 c.en 0 la
            | .inside =>
              if !detRoom co 9 false then stallHolding c s .bundleRoom
              else
                lineAt c s .write (fun _ _ s =>
                  let s := stage s c.k [.bytes la bs, .bytes desc (leBytes 2 d)]
                  finishGroup c (modCoach s c.k (fun co => raiseFlags co c.i fl)))
            | .outside =>
              match ownerStop c s ((lanesOf c.en).flatMap (fun l => [(l, la), (l, desc)])) with
              | some s => s
              | none =>
                lineAt c s .write (fun p q s =>
                  let s := claimLines s co [la, desc]
                  let s := writePieces s c.k false false [(p, bs), (q, leBytes 2 d)]
                  finishGroup c (modCoach s c.k (fun co => raiseFlags co c.i fl)))) s)

/-! ### Atomics (R179, R180) -/

/-- The new value of an atomic. -/
def atomValue (op ty : Nat) (o b c : Dword) : Dword :=
  let w := tyBits ty
  let lt (x y : Dword) : Bool := decide (tyInt ty x < tyInt ty y)
  let trim (x : Dword) : Dword := BitVec.ofNat 64 (x.toNat % 2 ^ w)
  let flo (r : Nat × Flags) : Dword := BitVec.ofNat 64 r.1
  match op with
  | 0 => trim (o + b)
  | 1 => if lt b o then b else o
  | 2 => if lt o b then b else o
  | 3 => o &&& b
  | 4 => o ||| b
  | 5 => o ^^^ b
  | 6 => b
  | 7 => if o = c then b else o
  | 8 => if b.toNat ≤ o.toNat then 0 else o + 1
  | 9 => if o = 0 ∨ b.toNat < o.toNat then b else o - 1
  | 10 => flo (fAdd fmtF32 0 false false o.toNat b.toNat)
  | 11 => flo (fMinMax fmtF32 false false o.toNat b.toNat)
  | _ => flo (fMinMax fmtF32 false true o.toNat b.toNat)

/-- OPM<4:1>. -/
def aOp (w : NOp) : Nat := mOpm w / 2
/-- The atomic returns the old value. -/
def aReturns (w : NOp) : Bool := fD w != 0xF0

def atomSpec (w : NOp) (global : Bool) : OpSpec :=
  let wide := mWide w
  let tys := if aOp w < 8 then tyWords else if aOp w < 10 then [1] else [8]
  { fmtOk := onlyR w, xOk := mOpm w % 2 == 0 && decide (aOp w < 13), tyOk := tyIn w tys, ordOk := decide (mOrd w ≤ 4)
    scopeOk := scopesOk w false, d := oVar wide, a := oAddr global, b := oVar wide
    c := if aOp w = 7 then oVar wide else .unused, long := aReturns w }

/-- The operand and the comparand of a lane. -/
def atomB (c : OpCtx) (co : Coach) (l : Nat) : Dword := srcB c co (mWide c.w) 0 l
def atomC (c : OpCtx) (co : Coach) (l : Nat) : Dword := srcC c co (mWide c.w) l

/-- The atomic is performed beyond the link, not at the home slice: every one on a peer window, and a system-scope ADD, EXCH
or CAS on the host window (15 R498). -/
def atomBeyond (op agt pa : Nat) : Bool :=
  (peerLink pa).isSome || (isHostWindow pa && agt == 5 && [0, 6, 7].contains op)

/-- Where an atomic is performed beyond the link, the copies of its line at home and nearer have gone before it, and it passes the
home slice as an uncached access does: the leaf of its access, and the state. -/
def atomWay (s : State) (co : Coach) (op agt pa n : Nat) (leaf : Dword) : Dword × State :=
  if atomBeyond op agt pa then (leaf ||| 0x40, l2DropLine (homeFirst s (l1Unit s (coreOf co)) pa n) (pa / 64)) else (leaf, s)

/-- Perform an atomic in lane order: the old values, or a poisoned line. -/
def atomPieces (c : OpCtx) (co : Coach) (bypass : Bool) : List Piece → Tbl Dword → State → Except Nat (Tbl Dword) × State
  | [], t, s => (.ok t, s)
  | p :: ps, t, s =>
    let n := mBytes c.w
    let (leaf, s) := atomWay s co (aOp c.w) (mAgt c.w) p.pa n p.leaf
    let p := { p with leaf := leaf }
    match readPieces s c.k n bypass false [p] [] with
    | (.error line, s) => (.error line, s)
    | (.ok r, s) =>
      let o : Dword := BitVec.ofNat 64 (leNat (tgetD [] r p.lane))
      let v := atomValue (aOp c.w) (mTy c.w) o (atomB c co p.lane) (atomC c co p.lane)
      atomPieces c co bypass ps (tput t p.lane o) (coachWrite s c.k p.pa (leBytes n v.toNat) p.leaf bypass false)

/-- Deliver old values, or only pass. -/
def deliverOld (c : OpCtx) (t : Tbl Dword) (s : State) : State :=
  deliverTo c c.en (if mWide c.w then 2 else 1)
    (fun l j => let d := tyOut (mTy c.w) (tgetD 0 t l).toNat; if j = 0 then loOf d else hiOf d) noFlags s

/-- ATOM after its checks. A turn-served one is performed at the home slice, so that later turns see it (10 R396); one that
`ends` its bundle ends it where it is performed in a lane, and not where every lane parks (10 R394). -/
def atomGlobal (c : OpCtx) (s : State) (served ends : Bool) (addrs : List (Nat × Nat)) : State :=
  let w := c.w
  let co := coachOf s c.k
  let (f, s) := findLanes s c.k .atomic addrs Found.none
  match f.err with
  | some e => failFound s c.k .atomic f e
  | none =>
    let s := claimLines s co (f.ok.map (fun p => p.va))
    let s := if ends && !f.ok.isEmpty then endsBundle s c.k else s
    let s := if f.ok.isEmpty then s else orderCoach s c.k (mOrd w) (mAgt w) (mStg w)
    match atomPieces c co (served || decide (1 ≤ mAgt w)) f.ok [] s with
    | (.error line, s) => memerr (parkBad s c.k .atomic f.bad) c.k line
    | (.ok t, s) => deliverOld (c.without f.badMask) t (parkBad s c.k .atomic f.bad)

def execAtom (w : NOp) (s : State) : Out :=
  .next (native w (atomSpec w true)
    (fun c s =>
      let co := coachOf s c.k
      let addrs := (lanesOf c.en).map (fun l => (l, (srcA c co true l).toNat))
      match checkAccess c s addrs outOfGlobal (mBytes w) with
      | some s => s
      | none =>
        match shadowStop c s c.en addrs with
        | some s => s
        | none =>
          match sideOf s co addrs with
          | .mixed => detviol c s 4 c.en 0 0
          | .inside =>
            if aReturns w then atTurn c s .atomic addrs (fun c s => atomGlobal c s true false addrs)
            else stageLanes c s .atomic addrs (fun l va => .atom va (aOp w) (mTy w) (mAgt w) (atomB c co l) (atomC c co l))
          | .outside =>
            match ownerStop c s addrs with
            | some s => s
            | none =>
              if aReturns w && !c.turn then withRoom c s (fun s => atomGlobal c s false true addrs)
              else atomGlobal c s false false addrs) s)

/-- Perform an ATOMS in lane order on the window. -/
def atomsPieces (c : OpCtx) (co : Coach) : List (Nat × Nat) → Tbl Dword → Rake → Tbl Dword × Rake
  | [], t, r => (t, r)
  | (l, a) :: ps, t, r =>
    let n := mBytes c.w
    let o : Dword := BitVec.ofNat 64 (leNat (padRead r a n))
    let v := atomValue (aOp c.w) (mTy c.w) o (atomB c co l) (atomC c co l)
    atomsPieces c co ps (tput t l o) (padWrite r a (leBytes n v.toNat))

def execAtoms (w : NOp) (s : State) : Out :=
  .next (native w (atomSpec w false)
    (fun c s =>
      let co := coachOf s c.k
      let addrs := (lanesOf c.en).map (fun l => (l, (srcA c co false l).toNat))
      match checkAccess c s addrs (outOfLocal (windowOf s co) (mBytes w)) (mBytes w) with
      | some s => s
      | none =>
        match shadowStop c s c.en addrs with
        | some s => s
        | none =>
          match tget s.rakes co.rake with
          | none => s
          | some r =>
            if addrs.any (fun a => padBad r a.2 (mBytes w)) then padError s c.k
            else
              let go (s : State) : State :=
                -- an agent scope above cluster acts as cluster
                let s := orderCoach s c.k (mOrd w) (if mAgt w ≤ 2 then mAgt w else 2) (mStg w)
                let (t, r) := atomsPieces c co addrs [] r
                deliverOld c t (modRake s co.rake (fun _ => r))
              if aReturns w then endingBundle c s go else go s) s)

/-! ### FENCE (R181) -/

def execFence (w : NOp) (s : State) : Out :=
  .next (native w { fmtOk := onlyR w, xOk := mOpm w == 0, tyOk := mTy w == 0, ordOk := [1, 2, 3, 4].contains (mOrd w)
                    scopeOk := scopesOk w false }
    (fun c s => finishGroup c (orderCoach s c.k (mOrd w) (mAgt w) (mStg w))) s)

/-! ### CCTL (R182) and PREF (R183) -/

/-- The physical lines of the enabled lanes; an address that does not translate is ignored. -/
def lanesLines (c : OpCtx) (s : State) : List Nat × State :=
  let co := coachOf s c.k
  (lanesOf c.en).foldl (fun (acc : List Nat × State) l =>
    let va := (srcA c co true l).toNat
    if outOfGlobal va || inWindow s co va then acc
    else match coachXlate acc.2 co va .read with
      | (.ok pa _, s) => (acc.1 ++ [pa / 64], s)
      | (_, s) => (acc.1, s)) ([], s)

def execCctl (w : NOp) (s : State) : Out :=
  let cop := mOpm w % 8
  .next (native w { fmtOk := onlyR w, xOk := decide (mOpm w < 4), tyOk := mTy w == 0, ordOk := mOrd w == 0
                    scopeOk := mAgt w == 0 && mStg w == 0, a := if cop = 2 then .unused else oPairVS }
    (fun c s =>
      let co := coachOf s c.k
      let u := l1Unit s (coreOf co)
      if cop = 2 then finishGroup c (l1WriteBackAll s u co.ctx)
      else
        let (lines, s) := lanesLines c s
        finishGroup c (lines.foldl (fun s line =>
          if cop = 3 then
            match l2Find s line with
            | some x => let s := l2WriteBack s x
                        { s with l2 := s.l2.map (fun y => if y.line = line then { y with dirty := 0 } else y) }
            | none => s
          else
            match l1Find s u line with
            | some x => if cop = 0 then l1Clean s u x else l1Drop (writeDirty s x) u line
            | none => s) s)) s)

def execPref (w : NOp) (s : State) : Out :=
  .next (native w { fmtOk := shortForm w, xOk := mCh w != 3 && (if fKind w = 0 then field (mOpm w) 2 1 == 0 else fXS w % 8 == 0)
                    tyOk := decide (mTy w < 8), ordOk := mOrd w == 0, scopeOk := mAgt w == 0 && mStg w == 0
                    a := oPairVS, b := if fKind w = 0 then oOffset else .unused }
    (fun c s =>
      let co := coachOf s c.k
      let l1 := mOpm w % 2 == 0 && mCh w != 2
      let touch (s : State) (va : Nat) : State :=
        if outOfGlobal va || inWindow s co va then s
        else match coachXlate s co va .read with
          | (.ok pa leaf, s) =>
            if leaf.getLsbD 6 then s
            else if l1 then (coachRead s c.k pa 1 leaf false (mCh w == 1)).2
            else l2Read s (pa / 64) co.ctx
          | (_, s) => s
      finishGroup c ((globalAddrs c co).foldl (fun s a =>
        let last := a.2 + mBytes w - 1
        let s := touch s a.2
        if last / 64 = a.2 / 64 then s else touch s last) s)) s)

end Sys2Proof.Machine
end

