-- ==== Sys2Proof/Machine/Convert.lean ====
section
/-! DEFINITION. Conversions, packing, scaling and random numbers (04 R134-R140). -/
namespace Sys2Proof.Machine

/-! ### CVT (R134, 03 R96, R97) -/

/-- The types that CVT converts. -/
def tyCvt : List Nat := [0, 1, 2, 3, 4, 5, 6, 7, 8, 11, 12]
def tyIsFloat (ty : Nat) : Bool := ty == 8 || ty == 11 || ty == 12

/-- One conversion from type `sty` to type `ty`. -/
def convert (sty ty rm : Nat) (ftz : Bool) (d : Dword) : Dword × Flags :=
  if tyIsFloat sty then
    let x := (tyFmt sty).read ftz (fBits sty d)
    if tyIsFloat ty then
      let (r, fl) := (tyFmt ty).round rm ftz x
      (BitVec.ofNat 64 r, fl ||| sigFlag [x])
    else
      let (v, fl) := numToInt rm (tyMin ty) (tyMax ty) x
      (tyOut ty v, fl)
  else
    let v := tyInt sty d
    if tyIsFloat ty then fRes ((tyFmt ty).round rm ftz (numOfInt v))
    else
      let u := clampInt (tyMin ty) (tyMax ty) v
      (tyOut ty u, flagIf (decide (u ≠ v)) flagOV)

def execCvt (w : NOp) (s : State) : Out :=
  let ty := fTy w
  let sty := fOpx w % 16
  .next (laneOp w { fmtOk := onlyR w, xOk := onlyBits 15 (fOpx w), tyOk := tyIn w tyCvt && tyCvt.contains sty
                    rmOk := rmAny w, d := oVar (tyWide ty), a := oVar (tyWide sty) } (tyWide ty)
    (fun c co l => convert sty ty (roundOf co w) (ftzOf co) (srcA c co (tyWide sty) l)) s)

/-! ### CVTN (R135) -/

/-- Encode into, or decode from, an NF format with a scale exponent. -/
def convertNf (f : NfFmt) (dec : Bool) (ty rm : Nat) (a : Dword) (k : Int) : Nat × Flags :=
  if dec then (tyFmt ty).round rm false (scaleNum (nfValue f (a.toNat % 2 ^ f.w)) k)
  else nfConvert f rm (scaleNum ((tyFmt ty).value (fBits ty a)) (-k))

def execCvtn (w : NOp) (s : State) : Out :=
  let ty := fTy w
  let sc := (fX w).testBit 5
  .next (native w { fmtOk := onlyR w, xOk := onlyBits 0x3F (fOpx w), tyOk := tyIn w tyFloats, rmOk := rmAny w
                    d := oAny, a := oAny, b := if sc then oAny else .unused }
    (fun c s =>
      let co := coachOf s c.k
      let f := nfOf (fmtReg s co.ctx (fX w % 16))
      deliver c false (fun l => fRes (convertNf f ((fX w).testBit 4) ty (roundOf co w) (srcA c co false l)
        (if sc then tyInt 0 (srcB c co false 0 l) else 0))) s) s)

/-! ### PACK and UNPACK (R136) -/

def tyNarrow : List Nat := [4, 5, 6, 7, 11, 12, 13, 14]

/-- POS lies within the positions of the width; other types fail the TYPE check. -/
def posOk (w : NOp) : Bool := onlyBits 7 (fOpx w) && (!tyIn w tyNarrow || decide (fOpx w * tyBits (fTy w) < 32))

def execPack (w : NOp) (s : State) : Out :=
  let bits := tyBits (fTy w)
  .next (laneOp w { fmtOk := onlyR w, xOk := posOk w, tyOk := tyIn w tyNarrow, rmOk := rmZero w
                    d := oAny, a := oAny, b := oAny } false
    (fun c co l => plain (BitVec.ofNat 64 (bitInsert 32 (srcB c co false 0 l).toNat (srcA c co false l).toNat
      (bits * (fOpx w % 8)) bits))) s)

def execUnpack (w : NOp) (s : State) : Out :=
  let ty := fTy w
  .next (laneOp w { fmtOk := onlyR w, xOk := posOk w, tyOk := tyIn w tyNarrow, rmOk := rmZero w
                    d := oAny, a := oAny } false
    (fun c co l => plain (tyOut ty ((srcA c co false l).toNat / 2 ^ (tyBits ty * (fOpx w % 8)) : Nat))) s)

/-! ### SCALEX (R137) -/

/-- One element scaled by 2^k. -/
def scaleElem (f : FFmt) (rm : Nat) (ftz : Bool) (a : Nat) (k : Int) : Nat × Flags :=
  let x := f.read ftz a
  let (r, fl) := f.round rm ftz (scaleNum x k)
  (r, fl ||| sigFlag [x])

/-- floor(log2 |a|), with DZ for zero and IV for NaN. -/
def exponentOf (f : FFmt) (ftz : Bool) (a : Nat) : Dword × Flags :=
  match f.read ftz a with
  | .nan _ => (0x7FFFFFFF, flagIV)
  | .inf _ => (0x7FFFFFFF, 0)
  | .fin _ m e => if m = 0 then (0x80000000, flagDZ) else (BitVec.ofNat 64 (wrapNat 32 (floorLog m e)), 0)

/-- SCALEX (04 R137); in F-I the types NF8 and NF4 are refused with FORMAT, with EXPO too (log 79). -/
def execScalex (w : NOp) (s : State) : Out :=
  let ty := fTy w
  let expo := fOpx w % 2 == 1
  .next (laneOp w { fmtOk := valueI w, xOk := onlyBits 1 (fOpx w), immOk := !(fI w && expo) || fImm w == 0
                    tyOk := tyIn w (if expo then tyFloats else tyFloats ++ tyPacked)
                    rmOk := if expo then rmZero w else rmAny w
                    d := oAny, a := oAny, b := if expo then .unused else oAny } false
    (fun c co l =>
      let a := srcA c co false l
      if expo then exponentOf (tyFmt ty) (ftzOf co) (fBits ty a)
      else
        let k := tyInt 0 (srcB c co false (immValue 0 (fImm w)) l)
        if tyPacked.contains ty then
          pack2 (scaleElem (tyFmt ty) (roundOf co w) (ftzOf co) (elem2 a 0) k)
            (scaleElem (tyFmt ty) (roundOf co w) (ftzOf co) (elem2 a 1) k)
        else fRes (scaleElem (tyFmt ty) (roundOf co w) (ftzOf co) (fBits ty a) k)) s)

/-! ### RAND and RSEED (R138-R140) -/

/-- One round of rand_block. -/
def randRound (c : Word × Word × Word × Word) (k0 k1 : Word) : Word × Word × Word × Word :=
  let p0 := (0xD2511F53 : Nat) * c.1.toNat
  let p1 := (0xCD9E8D57 : Nat) * c.2.2.1.toNat
  (BitVec.ofNat 32 (p1 / 2 ^ 32) ^^^ c.2.1 ^^^ k0, BitVec.ofNat 32 p1,
   BitVec.ofNat 32 (p0 / 2 ^ 32) ^^^ c.2.2.2 ^^^ k1, BitVec.ofNat 32 p0)

/-- `n` rounds; the keys advance after each. -/
def randRounds : Nat → Word × Word × Word × Word → Word → Word → Word
  | 0, c, _, _ => c.1
  | n + 1, c, k0, k1 => randRounds n (randRound c k0 k1) (k0 + 0x9E3779B9) (k1 + 0xBB67AE85)

/-- The draw of a lane. -/
def randWord (cnt glane : Word) (seed : Dword) : Word := randRounds 10 (cnt, glane, 0, 0) (loOf seed) (hiOf seed)

/-- GLANE (01 R28). -/
def glaneOf (s : State) (co : Coach) (l : Nat) : Nat :=
  ((tget s.rakes co.rake).map Rake.idx).getD 0 * 2048 + co.idx * 64 + l

/-- The F32 of a draw: (w >> 8) x 2^-24. -/
def randFloat (w : Word) : Nat := (fmtF32.round 0 false (.fin false (w.toNat / 256) (-24))).1

/-- The lanes that took part advance their counters; lanes that a fault has parked at the operation, whose guest address is
`ga`, draw again later. Lanes that have passed it and wait for a trap frame have drawn. -/
def advanceDraws (co : Coach) (ga : GAddr) (en : Mask) : Coach :=
  modLanes co en (fun _ x => if x.state = .parked ∧ x.ga = ga then x else { x with draw := x.draw + 1 })

/-- The lanes that issue again because the fault of their push found no room (11 R423). -/
def turnedAway (sts : List Stall) : Mask :=
  sts.foldl (fun m st => match st.kind with
    | .faultRoom _ => m ||| st.lanes
    | _ => m) 0

def execRand (w : NOp) (s : State) : Out :=
  .next (native w { fmtOk := onlyR w, xOk := fOpx w == 0, tyOk := tyIn w [1, 8], rmOk := rmZero w, d := oAny }
    (fun c s =>
      let co := coachOf s c.k
      let draw (l : Nat) : Word := randWord (laneOf co l).draw (BitVec.ofNat 32 (glaneOf s co l)) co.seed
      let s' := deliver c false (fun l => plain (if fTy w = 8 then BitVec.ofNat 64 (randFloat (draw l))
        else (draw l).setWidth 64)) s
      modCoach s' c.k (fun co' => advanceDraws co' c.i.ga (c.en &&& ~~~(turnedAway (co'.stalls.drop co.stalls.length))))) s)

def execRseed (w : NOp) (s : State) : Out :=
  .next (native w { fmtOk := valueI w, xOk := fOpx w == 0, tyOk := tyIn w [0], rmOk := rmZero w
                    a := oPair, b := .cls true true false true 1 false }
    (fun c s =>
      let co := coachOf s c.k
      let seed := match lowLane c.en with
        | some l => srcA c co true l
        | none => co.seed
      let b (l : Nat) : Word := loOf (srcB c co false (BitVec.ofNat 64 (fImm w)) l)
      finishGroup c (setCoach s c.k (modLanes { co with seed := seed } c.en (fun l x => { x with draw := b l })))) s)

end Sys2Proof.Machine
end

