-- ==== Sys2Proof/Machine/Fetch.lean ====
section
/-! DEFINITION. Fetching and decoding guest instructions: code versions (08 R328), plates (08 R300-R309), impressions
(08 R320, R321), EMUL (08 R316) and the operations on impressions (05 R184). -/
namespace Sys2Proof.Machine

/-! ### Fetching (08 R309, R328) -/

/-- The frame of a retired code page for a code version: the valid entry with the least LASTV at or above it. -/
def retiredFrame (table : List Byte) (vpage version : Nat) : Option Nat :=
  let entries := (chunks 16 4096 table).map leNat
  let fits := entries.filter (fun e => bitOf e 0 && field e 10 1 == 0 && field e 55 11 == vpage
    && decide (version ≤ field e 127 96))
  (fits.foldl (fun (m : Option Nat) e =>
    match m with
    | some x => if field e 127 96 < field x 127 96 then some e else m
    | none => some e) none).map (fun e => field e 95 56)

/-- What fetching or decoding gives instead of bytes. -/
inductive NoFetch where
  | align
  | fault (va : Nat) (e : XErr)
  | error (pa va : Nat) (page : Bool)
  deriving DecidableEq, Repr

/-- Where a code byte lies: its physical address, whether its page is uncached, and whether it is code of the version for good: on
a page with the CODE bit, or in a retired frame (08 R327). -/
structure CodeAt where
  pa : Nat
  uc : Bool
  coded : Bool
  deriving DecidableEq, Repr

/-- The place of a code byte. -/
def codeXlate (s : State) (co : Coach) (va : Nat) : Except NoFetch CodeAt × State :=
  let base := ((tget s.ctxs co.ctx).map Ctx.rcftbase).getD 0
  let (frame, s) :=
    if base = 0 then (.ok none, s)
    else match ownReadP s (coreUnits (coreOf co)) co.ctx base 65536 with
      | (.ok bs, s) => (.ok (retiredFrame bs (va / 4096) co.version.toNat), s)
      | (.error (.error pa page, at_), s) => (Except.error (NoFetch.error pa at_ page), s)
      | (.error _, s) => (.ok none, s)
  match frame with
  | .error e => (.error e, s)
  | .ok (some f) =>
    let pa := f * 4096 + va % 4096
    let world := (ctxRoot s co.ctx).2
    if !isBacked pa then (.error (.fault va { sub := xPa, level := 0, pte := 0, walk := false }), s)
    else if !ownOk world (potSeen s pa) false then (.error (.fault va { sub := xOwn, level := 0, pte := 0, walk := false }), s)
    else if (potOf s pa).poison then (.error (.error pa va true), s)
    else (.ok { pa := pa, uc := false, coded := true }, s)
  | .ok none =>
    match coachXlate s co va .fetch with
    | (.ok pa leaf, s) => (.ok { pa := pa, uc := leaf.getLsbD 6, coded := leaf.getLsbD 5 }, s)
    | (.fault e, s) => (.error (.fault va e), s)
    | (.error pa page, s) => (.error (.error pa va page), s)

/-- Fetch `n` bytes (at most 8) at a guest address: both pages translate before any byte is used (log 9). -/
def fetchBytes (s : State) (co : Coach) (ga n : Nat) : Except NoFetch (List Byte) × State :=
  let n1 := if ga % 4096 + n ≤ 4096 then n else 4096 - ga % 4096
  let read (s : State) (p : CodeAt) (n : Nat) : Except NoFetch (List Byte) × State :=
    let s := fillOwn s co.ctx [(p.pa, n, p.uc)]
    match poisonIn s p.pa n with
    | some line => (.error (.error line ga false), s)
    | none => (.ok (readOwn s [(p.pa, n, p.uc)]), s)
  match codeXlate s co ga with
  | (.error e, s) => (.error e, s)
  | (.ok pa, s) =>
    if n1 = n then read s pa n
    else
      match codeXlate s co ((ga + n1) % 2 ^ 57) with
      | (.error e, s) => (.error e, s)
      | (.ok pb, s) =>
        match read s pa n1 with
        | (.error e, s) => (.error e, s)
        | (.ok a, s) =>
          match read s pb (n - n1) with
          | (.ok b, s) => (.ok (a ++ b), s)
          | (.error e, s) => (.error e, s)

/-! ### Plates (08 R300-R308) -/

/-- The granule of a plate (R300). -/
def granule (p : Plate) : Nat := if p.lenrule = 0 then 4 else if p.lenrule = 1 then 8 else 2
/-- The length of a guest instruction from its first parcel (R300). -/
def guestLen (p : Plate) (h : Nat) : Nat :=
  if p.lenrule = 0 then 4 else if p.lenrule = 1 then 8 else 2 * (field h (p.lpos + 1) p.lpos + 1)

/-- One unpacked field (R302). -/
def unpackField (w e : Nat) : Nat :=
  let npc := field e 63 62
  let pieces := (List.range npc).map (fun i => field e (16 * i + 15) (16 * i))
  let (v, len) := pieces.foldl (fun (acc : Nat × Nat) pc =>
    let pos := pc / 256
    let l := pc % 256
    (acc.1 * 2 ^ l + w / 2 ^ pos % 2 ^ l, acc.2 + l)) (0, 0)
  wrapNat 32 (if bitOf e 61 && decide (0 < len) then sext len v else (v : Int))

/-- f0-f7 of a guest word. -/
def unpack (w : Nat) (pat : List Dword) : List Word := pat.map (fun e => BitVec.ofNat 32 (unpackField w e.toNat))

/-- The code that a transform places in an operand field (R306). -/
def slotCode (tr f : Nat) : Nat :=
  match tr with
  | 1 => if f ≤ 191 then f else 0xFF
  | 2 => if f ≤ 31 then 0xC0 + f else 0xFF
  | 3 => if f ≤ 15 then 0xE0 + f else 0xFF
  | 4 => if f = 0 then 0xF0 else if f ≤ 191 then f else 0xFF
  | _ => if 2 * f ≤ 191 then 2 * f else 0xFF

/-- The value that a transform places in an immediate of `width` bits (R306). -/
def slotImm (tr f width : Nat) : Nat :=
  match tr with
  | 1 => f % 2 ^ width
  | 2 => 4 * f % 2 ^ width
  | 3 => 8 * f % 2 ^ width
  | _ => wrapNat width (-(f : Int))

/-- A template operation with its fields substituted (R305, R308); a substituted field is zero in the word. -/
def buildOp (t : Dword × Dword) (fs : List Word) : Dword :=
  let sub := t.2.toNat
  let slot (hi : Nat) : Nat × Nat := (field sub hi (hi - 3), ((fs[field sub (hi - 5) (hi - 7)]?).getD 0).toNat)
  let put (w : Nat) (hi pos : Nat) : Nat :=
    let (tr, f) := slot hi
    if tr = 0 then w else Nat.lor w (slotCode tr f * 2 ^ pos)
  let w := put (put (put (put t.1.toNat 55 41) 47 33) 39 25) 31 17
  let (tr, f) := slot 23
  let w := if tr = 0 then w else Nat.lor w (slotImm tr f (if isLongOp (opOf t.1) then 32 else 24))
  BitVec.ofNat 64 w

/-- What decoding gives; `sys` marks an expansion of the system plate. -/
inductive Guest where
  | ops (ops : List Dword) (len : Nat) (sys : Bool)
  | emul (w : Nat) (len : Nat) (fs : List Word)
  deriving DecidableEq, Repr

/-- Match a guest word of `n` bytes against the planes, lowest index first (R303, R308). -/
def matchPlanes (p : Plate) (w n : Nat) : Guest :=
  match p.planes.find? (fun e =>
    (e.lenc == 0 || 2 * e.lenc == n) && Nat.land w e.mask.toNat == e.value.toNat) with
  | some e =>
    let fs := unpack w ((p.patterns[e.pidx]?).getD [])
    .ops (((p.templates[e.tidx]?).getD []).map (fun t => buildOp t fs)) n false
  | none => .emul w n (unpack w ((p.patterns[p.epat]?).getD []))

/-- The plate of a coach's decode slot; none for slot 0. -/
def plateOf (s : State) (co : Coach) : Option Plate :=
  if co.inHandler || co.plate == 0 then none else (tget s.ctxs co.ctx).bind (fun c => tget c.plates co.plate)
/-- The decode slot: a handler runs through slot 0 (R319). -/
def decodeSlot (co : Coach) : Nat := if co.inHandler then 0 else co.plate

/-- The system plate's plane for a native word (02 R63, 08 R324). -/
def systemPlane (s : State) (w : Dword) : Option (List Dword) :=
  match s.sysplate with
  | none => none
  | some p =>
    match matchPlanes p w.toNat 8 with
    | .ops ops .. => some ops
    | .emul .. => none

/-- Decode a guest instruction (R308). A code of 0xE0-0xFE without a template stays as it is, one operation. -/
def decodeGuest (s : State) (co : Coach) (ga : Nat) : Except NoFetch Guest × State :=
  match plateOf s co with
  | none =>
    if ga % 8 ≠ 0 then (.error .align, s)
    else
      match fetchBytes s co ga 8 with
      | (.error e, s) => (.error e, s)
      | (.ok bs, s) =>
        let w : Dword := BitVec.ofNat 64 (leNat bs)
        (.ok (match if 0xE0 ≤ opOf w ∧ opOf w ≤ 0xFE then systemPlane s w else none with
          | some ops => .ops ops 8 true
          | none => .ops [w] 8 false), s)
  | some p =>
    if ga % granule p ≠ 0 then (.error .align, s)
    else
      let (first, s) := if p.lenrule = 2 then fetchBytes s co ga 2 else (.ok [], s)
      match first with
      | .error e => (.error e, s)
      | .ok h =>
        let n := guestLen p (leNat h)
        match fetchBytes s co ga n with
        | (.error e, s) => (.error e, s)
        | (.ok bs, s) => (.ok (matchPlanes p (leNat bs) n), s)

/-! ### Impressions (R320, R321) -/

/-- The cluster of a coach, 0-19. -/
def clusterOf (co : Coach) : Nat := coreOf co / 8

/-- The impression of a guest address for a coach, at a step of its expansion. -/
def findImp (s : State) (co : Coach) (ga : GAddr) (step : Nat := 0) : Option Impression :=
  s.imps.find? (fun i => i.cluster == clusterOf co && i.ctx == co.ctx && i.slot == decodeSlot co
    && i.version == co.version && i.ga == ga && (!i.stale || step != 0))

/-- A lane of a coach is inside the impression's expansion. -/
def impInUse (s : State) (i : Impression) : Bool :=
  s.coaches.any (fun e => e.2.ctx == i.ctx && decodeSlot e.2 == i.slot && e.2.version == i.version
    && e.2.lanes.any (fun x => x.ga == i.ga && x.step != 0))

/-- The bytes of a guest instruction are code of the version for good. -/
def codedAt (s : State) (co : Coach) (ga n : Nat) : Bool :=
  [ga, (ga + n - 1) % 2 ^ 57].all (fun a => match (codeXlate s co a).1 with
    | .ok c => c.coded
    | .error _ => false)

/-- Impressions of a cluster. -/
def impsOf (s : State) (cl : Nat) : List Impression := s.imps.filter (fun i => i.cluster == cl)

/-- Keep an impression; a full cache drops the unpinned one that it has held longest, of those that
no lane is inside. -/
def addImp (s : State) (co : Coach) (ga : GAddr) (g : Guest) (pin : Bool) : State :=
  let (ops, len, emul, sys) := match g with
    | .ops ops n sys => (ops, n, none, sys)
    | .emul w n fs => ([], n, some (BitVec.ofNat 64 w, fs), false)
  let i : Impression := { cluster := clusterOf co, ctx := co.ctx, slot := decodeSlot co, version := co.version, ga := ga
                          ops := ops, len := len, emul := emul, sys := sys, pinned := pin
                          coded := codedAt s co ga.toNat len, stale := false }
  let same (x : Impression) : Bool := x.cluster == i.cluster && x.ctx == i.ctx && x.slot == i.slot
    && x.version == i.version && x.ga == i.ga
  let rest := s.imps.filter (fun x => !same x)
  let full := decide (8192 ≤ (rest.filter (fun x => x.cluster == i.cluster)).length)
  let victim := rest.reverse.find? (fun x => x.cluster == i.cluster && !x.pinned && !impInUse s x)
  let rest := match full, victim with
    | true, some v => rest.erase v
    | _, _ => rest
  { s with imps := i :: rest }

/-! ### Traps of fetching and decoding -/

/-- A group's fetch or decode fails. -/
def noFetch (s : State) (k : Nat) (grp : Mask) (ga : GAddr) (e : NoFetch) : State :=
  match e with
  | .align =>
    raiseTrap s k { cls := 6, sub := 0, step := 0, tmask := grp, rmask := none, move := 0, moveTo := 0
                    moveCounts := false, opword := 0, opaddr := ga
                    area := (64, 1, 0xFF) :: (lanesOf grp).map (fun l => (640 + 8 * l, 8, ga.toNat)) }
  | .fault va x =>
    -- no word has been fetched (11 R406)
    parkLanes { s with iss := { s.iss with word := 0 } } k grp va x ((Acc.fetch).bits false false) false
  | .error pa va page => xlatBad s k pa va page

/-- EMUL, or ILLEGAL NOEMUL when EMULENT is 0 (R316, R317). -/
def raiseEmul (s : State) (k : Nat) (grp : Mask) (ga : GAddr) (w : Dword) (len : Nat) (fs : List Word) : State :=
  let co := coachOf s k
  match ctxOf s co with
  | none => s
  | some c =>
    let plate := (plateOf s co).map Plate.epat
    let area := [(64, 8, w.toNat), (72, 1, len), (73, 1, co.plate), (74, 1, plate.getD 0)]
      ++ mapFrom (fun i (f : Word) => (80 + 4 * i, 4, f.toNat)) 0 fs
      ++ [(112, 8, ga.toNat), (120, 8, (ga.toNat + len) % 2 ^ 57)]
    let no := c.emulent = 0
    raiseTrap s k { cls := if no then 1 else 2, sub := if no then iNoemul else 0, step := 0, tmask := grp, rmask := none
                    move := grp, moveTo := ga, moveCounts := false, opword := 0, opaddr := ga, area := area }

/-- The lanes that the header of a word enables (02 R46), for a word without a decoding. -/
def headerLanes (co : Coach) (w : Dword) (grp : Mask) : Mask := enabledOf co (NOp.ofWord w) grp

/-- A word that the decoder rejects by name: ILLEGAL, or a NOP when no lane is enabled (02 R61, R62). -/
def rejectWord (s : State) (sub : Nat) : State :=
  let i := s.iss
  let co := coachOf s i.coach
  let w := NOp.ofWord i.word
  let en := enabledOf co w i.group
  if en ≠ 0 ∨ (isNever w = true ∧ w.sw = true) then illegal s en sub 0xFF
  else releaseFpe (modCoach s i.coach (fun co => passLanes co i i.group)) i.coach i

/-- SYSTEM_PLATE_OP (02 R63, 08 R324): the word's expansion is built; its operations issue next. A code that no system
plate defines raises ILLEGAL OPCODE; so does a word of a defined code that no plane matches (DESIGN CHOICE, log 90). -/
def execSystemPlateOp (w : BitVec 64) (s : State) : Out :=
  let i := s.iss
  .next (match systemPlane s w with
    | some ops => addImp s (coachOf s i.coach) i.ga (.ops ops 8 true) false
    | none => rejectWord { s with iss := { i with word := w } } iOpcode)

/-- GUEST_DECODE (08 R308, R316): the latch's group decodes its guest instruction. Operations that it yields issue next;
an instruction that matches no plane raises EMUL. -/
def execGuestDecode (s : State) : Out :=
  let i := s.iss
  let co := coachOf s i.coach
  .next (match decodeGuest s co i.ga.toNat with
    | (.error e, s) => noFetch s i.coach i.group i.ga e
    | (.ok g, s) =>
      let s := addImp s co i.ga g false
      match g with
      | .ops .. => s
      | .emul w n fs => raiseEmul s i.coach i.group i.ga (BitVec.ofNat 64 w) n fs)

/-! ### IPREF, IPIN, IUNPIN (05 R184) -/

/-- The pinned impressions of a cluster take at most 128 KiB, 64 bytes each. -/
def pinRoom (s : State) (cl : Nat) : Bool := decide (((impsOf s cl).filter Impression.pinned).length < 2048)

/-- Decode a range into the impression cache; untranslatable pages are skipped. IPIN ends when nothing more can be pinned
(log 83). -/
def prefetchCode (co : Coach) (pin : Bool) : Nat → Nat → Nat → State → State
  | 0, _, _, s => s
  | fuel + 1, ga, n, s =>
    if n = 0 then s
    else if pin && !pinRoom s (clusterOf co) then s
    else
      match decodeGuest s co ga with
      | (.ok g, s) =>
        let len := match g with
          | .ops _ l _ => l
          | .emul _ l _ => l
        let at_ : GAddr := BitVec.ofNat 57 ga
        let s := match findImp s co at_ with
          | some i => if pin then { s with imps := s.imps.map (fun x => if x = i then { x with pinned := true } else x) } else s
          | none => addImp s co at_ g pin
        prefetchCode co pin fuel ((ga + len) % 2 ^ 57) (n - len) s
      | (.error .align, s) => s
      | (.error _, s) =>
        let skip := 4096 - ga % 4096
        prefetchCode co pin fuel ((ga + skip) % 2 ^ 57) (n - skip) s

/-- The checks and operands shared by the three: address and length, of the lanes that log 83 names. -/
def codeRange (w : NOp) (f : OpCtx → Nat → Nat → State → State) (s : State) : State :=
  native w { fmtOk := shortForm w, xOk := fX w == 0 && fXS w == 0, a := .cls false true false false 2 true
             b := if fKind w = 0 then .cls true true false true 1 false else .unused }
    (fun c s =>
      let co := coachOf s c.k
      let l := (lowLane c.en).getD 0
      let n := if fI w then fImm w else (srcB c co false 0 l).toNat
      if 65536 < n then reject c s iRsvd (if fI w then 4 else 2)
      else if n = 0 then finishGroup c s
      else finishGroup c (f c ((srcA c co true l).toNat % 2 ^ 57) n s)) s

def execIpref (w : NOp) (s : State) : Out :=
  .next (codeRange w (fun c ga n s => prefetchCode (coachOf s c.k) false n ga n s) s)
def execIpin (w : NOp) (s : State) : Out :=
  .next (codeRange w (fun c ga n s => prefetchCode (coachOf s c.k) true n ga n s) s)
def execIunpin (w : NOp) (s : State) : Out :=
  .next (codeRange w (fun c ga n s =>
    let co := coachOf s c.k
    let sel (i : Impression) : Bool := i.cluster == clusterOf co && i.ctx == co.ctx && i.slot == decodeSlot co
      && i.version == co.version && decide ((i.ga.toNat + 2 ^ 57 - ga) % 2 ^ 57 < n)
    { s with imps := s.imps.map (fun i => if sel i then { i with pinned := false } else i) }) s)

end Sys2Proof.Machine
end

