-- ==== Sys2Proof/Machine/Launch.lean ====
section
/-! DEFINITION. Region blocks and launches (10 R365-R374, 10 R400, 01 R31, 08 R326, R332), partitions (15 R499). -/
namespace Sys2Proof.Machine

/-! ### Partitions (15 R499) -/

/-- A partition's values where no partition has been set. -/
def Part.none : Part := { clusters := 0, ceil := 112, ceilFused := 896, thrLog := 12 }
def partOf (s : State) (p : Nat) : Part := tgetD Part.none s.parts p
/-- The partition that a cluster belongs to. -/
def partOfCluster (s : State) (cl : Nat) : Part :=
  ((s.parts.find? (fun e => e.2.clusters.getLsbD cl)).map (fun e => e.2)).getD Part.none
/-- The clusters of a partition on a die. -/
def partClusters (p : Part) (die : Nat) : Nat := ((List.range 10).filter (fun i => p.clusters.getLsbD (die * 10 + i))).length
/-- The FUSE feature is in effect (15 R500). -/
def fuseOn (s : State) : Bool := s.pf.featDev.getLsbD 41 && s.pf.featDrv.getLsbD 41
/-- The native minor number (15 R500). -/
def deviceMinor (s : State) : Nat := (s.pf.featDev.extractLsb' 8 16).toNat

/-- The partition shape hash. -/
def shapeHash (s : State) (p : Part) : List Byte :=
  (sha384 [BitVec.ofNat 8 (partClusters p 0), BitVec.ofNat 8 (partClusters p 1), 8, if fuseOn s then 1 else 0]).take 32

/-! ### The block (R365-R368) -/

/-- A number of `n` bytes at an offset of a block. -/
def blkNum (b : List Byte) (o n : Nat) : Nat := leNat ((b.drop o).take n)

/-- What the fields marked "inherits" take when they are 0. -/
structure Inherit where
  version : Word
  plate : Nat
  prio : Nat
  subtree : Bool
  fused : Bool
  prot : Bool
  det : Bool
  coaches : Nat
  cores : Nat
  scratch : Nat
  leasecap : Nat
  deriving DecidableEq, Repr

/-- The context defaults. LEASECAP's depends on whether the region is fused: `0` stands for the pool ceiling. -/
def Inherit.ofCtx (s : State) (c : Ctx) : Inherit :=
  let p := partOf s c.part
  { version := c.codever, plate := 0, prio := 8, subtree := false, fused := false, prot := false, det := false, coaches := 1
    cores := 8 * (partClusters p 0 + partClusters p 1), scratch := 1, leasecap := 0 }

/-- A parent's resolved values. -/
def Inherit.ofRegion (r : Region) : Inherit :=
  { version := r.version, plate := r.plate, prio := r.prio, subtree := r.subtree, fused := r.fused, prot := r.prot
    det := r.det, coaches := r.coaches, cores := r.cores, scratch := r.scratch, leasecap := r.leasecap }

/-- A 2-bit flag: 0 inherits, 1 off, 2 on. -/
def flagOf (v : Nat) (inh : Bool) : Bool := if v = 0 then inh else v == 2

/-- One stage entry. -/
def stageOf (b : List Byte) (i : Nat) : Stage :=
  let o := 32 + 12 * i
  let w := blkNum b o 8
  let bind := blkNum b (o + 11) 1
  { regs := 8 * field w 61 57, entry := BitVec.ofNat 57 w, min := blkNum b (o + 8) 1, max := blkNum b (o + 9) 1
    lease := blkNum b (o + 10) 1, bind := (List.range 8).filter (fun k => bitOf bind k), slots := blkNum b (o + 8) 1 }

/-- One queue entry. -/
def queueOf (b : List Byte) (i : Nat) : Queue :=
  let w := blkNum b (128 + 8 * i) 8
  let ov := field w 63 57
  { depth := 2 ^ field w 3 0, lane := bitOf w 4, ovdepth := if ov = 0 then 0 else 2 ^ (ov - 1)
    ovaddr := field w 56 6 * 64, entries := [], ovIn := 0, ovOut := 0, pending := none }

/-- Window entries with pages: base and bytes. -/
def windowsOf (b : List Byte) : List (Nat × Nat) :=
  (List.range 8).filterMap (fun i =>
    let w := blkNum b (192 + 8 * i) 8
    if field w 11 0 = 0 then none else some (field w 56 12 * 4096, field w 11 0 * 4096))

/-- The region that a block describes, with inherited fields resolved. -/
def resolveBlock (part : Part) (inh : Inherit) (b : List Byte) : Region :=
  let fl := blkNum b 7 1
  let or0 (v d : Nat) : Nat := if v = 0 then d else v
  let fused := inh.fused || flagOf (field fl 5 4) inh.fused
  let prio := if blkNum b 5 1 = 0 then inh.prio else blkNum b 5 1 - 1
  let cap := if inh.leasecap = 0 then (if fused then part.ceilFused else part.ceil) else inh.leasecap
  { ctx := 0, number := 0, parent := none, queue := none, depth := 1, block := 0, args := 0
    version := inh.version, plate := if blkNum b 4 1 = 0 then inh.plate else blkNum b 4 1 - 1, prio := prio
    subtree := flagOf (field fl 7 6) inh.subtree, fused := fused
    prot := inh.prot || flagOf (field fl 3 2) inh.prot, det := inh.det || flagOf (field fl 1 0) inh.det
    coaches := or0 (blkNum b 8 1) inh.coaches, cores := or0 (blkNum b 9 1) inh.cores
    scratch := or0 (blkNum b 10 2) inh.scratch, leasecap := or0 (blkNum b 12 2) cap, rakes := blkNum b 14 2
    tladdr := blkNum b 16 8, target := 0, detarea := field (blkNum b 24 8) 56 12 * 4096, detsize := field (blkNum b 24 8) 11 0
    stages := (List.range (blkNum b 6 1 % 16)).map (stageOf b), queues := (List.range (blkNum b 6 1 / 16)).map (queueOf b)
    windows := windowsOf b, created := 0, lastCluster := none, sig := 0, completed := false, status := 0, owners := []
    round := 1, members := [], joiners := [], position := (0, 0), turnBusy := none, rebalLeft := 8192, rebalSeen := none }

/-- Two windows overlap. -/
def overlaps (x y : Nat × Nat) : Bool := decide (x.1 < y.1 + y.2 ∧ y.1 < x.1 + x.2)

/-- No window of a list overlaps a later one. -/
def disjoint : List (Nat × Nat) → Bool
  | [] => true
  | w :: ws => ws.all (fun x => !overlaps w x) && disjoint ws

/-- Check 2 of R371: every field within R365-R368. `gran` is the granule of the plate in the slot, if it holds one. -/
def blockOk (b : List Byte) (r : Region) (gran : Nat) : Bool :=
  let counts := blkNum b 6 1
  let fl := blkNum b 7 1
  let zero (o n : Nat) : Bool := blkNum b o n == 0
  decide (blkNum b 4 1 ≤ 8) && decide (blkNum b 5 1 ≤ 16) && decide (counts / 16 ≤ 8)
  && decide (1 ≤ counts % 16 ∧ counts % 16 ≤ 8)
  && field fl 7 6 != 3 && field fl 5 4 != 3 && field fl 3 2 != 3 && field fl 1 0 != 3
  && decide (blkNum b 8 1 ≤ 32) && decide (blkNum b 9 1 ≤ 160) && decide (blkNum b 10 2 ≤ 512)
  && decide (blkNum b 12 2 ≤ (if r.fused then 1024 else 128)) && decide (1 ≤ r.rakes)
  && r.tladdr % 32 == 0 && decide (r.tladdr < 2 ^ 57)
  && (if r.det then decide (2 ≤ r.detsize) && field (blkNum b 24 8) 63 57 == 0 else zero 24 8)
  && (List.range 8).all (fun i =>
    if i < counts % 16 then
      let st := stageOf b i
      let w := blkNum b (32 + 12 * i) 8
      field w 63 62 == 0 && decide (8 ≤ st.regs ∧ st.regs ≤ 192) && st.entry.toNat % gran == 0
      && decide (1 ≤ st.min ∧ st.min ≤ st.max ∧ st.max ≤ 64) && decide (st.lease ≤ 128)
      && st.bind.all (fun k => decide (k < counts / 16))
    else zero (32 + 12 * i) 12)
  && decide ((r.stages.map Stage.min).foldl (· + ·) 0 ≤ r.rakes)
  && (List.range 8).all (fun i =>
    let w := blkNum b (128 + 8 * i) 8
    if i < counts / 16 then !bitOf w 5 && decide (1 ≤ w % 16 ∧ w % 16 ≤ 12) && decide (field w 63 57 ≤ 31) else w == 0)
  && (List.range 8).all (fun i =>
    let w := blkNum b (192 + 8 * i) 8
    if r.det then field w 63 57 == 0 else w == 0)
  && disjoint r.windows

/-- The plate of a slot of a context; slot 0 is the identity plate. -/
def slotPlate (c : Ctx) (slot : Nat) : Option Plate := tget c.plates slot
/-- The slot holds a plate. -/
def slotHeld (c : Ctx) (slot : Nat) : Bool := slot == 0 || (slotPlate c slot).isSome

/-- The plate checks of R332. -/
def plateOk (s : State) (c : Ctx) (r : Region) : Bool :=
  match slotPlate c r.plate with
  | none => r.plate == 0
  | some p =>
    r.plate == 0 || (r.stages.all (fun st => decide (p.tvbase + p.tvcnt ≤ st.regs)) && decide (p.needmin ≤ deviceMinor s))

/-- Check 6: the parent's remaining cores and its LEASECAP, and FUSE. The parent's values of a LAUNCH are the context
defaults (R365); it has no siblings. -/
def budgetOk (s : State) (part : Part) (parent : Option Nat) (r : Region) : Bool :=
  (!r.fused || fuseOn s)
  && (match parent.bind (fun p => (tget s.regions p).map (fun q => (p, q))) with
    | none =>
      decide (r.cores ≤ 8 * (partClusters part 0 + partClusters part 1))
        && decide (r.leasecap ≤ (if r.fused then part.ceilFused else part.ceil))
    | some (p, q) =>
        let used := (s.regions.filter (fun e => e.2.parent == some p && !e.2.completed)).map (fun e => e.2.cores)
        decide (r.cores + used.foldl (· + ·) 0 ≤ q.cores) && decide (r.leasecap ≤ q.leasecap))

/-- Check 7: every page of the area is mapped and writable. -/
def detMapped (s : State) (ctx : Nat) (r : Region) : Bool × State :=
  match ownPieces s (dieUnits 0) ctx r.detarea (r.detsize * 4096) .write with
  | (.ok _, s) => (true, s)
  | (.error _, s) => (false, s)

/-- The canonical region block (R400). -/
def canonicalBlock (b : List Byte) (r : Region) : List Byte :=
  let fl (x : Bool) : Nat := if x then 2 else 1
  let b := patch b 0 (leBytes 4 r.version.toNat ++ leBytes 1 (r.plate + 1) ++ leBytes 1 (r.prio + 1))
  let b := patch b 7 (leBytes 1 (fl r.subtree * 64 + fl r.fused * 16 + fl r.prot * 4 + fl r.det) ++ leBytes 1 r.coaches
    ++ leBytes 1 r.cores ++ leBytes 2 r.scratch ++ leBytes 2 r.leasecap)
  let det := blkNum b 24 8
  let b := patch b 16 (leBytes 8 0 ++ leBytes 8 (det - field det 56 12 * 4096))
  (List.range 8).foldl (fun b i =>
    let w := blkNum b (128 + 8 * i) 8
    patch b (128 + 8 * i) (leBytes 8 (w - field w 56 6 * 64))) b

/-- The reproducibility signature (01 R31). -/
def sigOf (s : State) (c : Ctx) (r : Region) (b : List Byte) : Dword :=
  let image := if r.plate = 0 then [] else ((slotPlate c r.plate).map Plate.image).getD []
  let digest := sha384 (leBytes 4 r.version.toNat ++ image ++ canonicalBlock b r ++ leBytes 2 (deviceMinor s)
    ++ shapeHash s (partOf s c.part))
  BitVec.ofNat 64 (leNat ((digest.take 8).reverse))

/-- The checks of R371 in order: the STATUS and the region. -/
def checkBlock (s : State) (c : Ctx) (ctx : Nat) (parent : Option Nat) (depth block : Nat) (b : List Byte) : Nat × Region × State :=
  let inh := match parent.bind (fun p => tget s.regions p) with
    | some q => Inherit.ofRegion q
    | none => Inherit.ofCtx s c
  let r := resolveBlock (partOf s c.part) inh b
  -- a child's priority is lowered to its parent's
  let r := match parent with
    | some _ => { r with prio := if inh.prio < r.prio then inh.prio else r.prio }
    | none => r
  let gran := if r.plate = 0 then 8 else ((slotPlate c r.plate).map granule).getD 1
  if block % 256 ≠ 0 then (10, r, s)
  else if !blockOk b r gran then (1, r, s)
  else if blkNum b 0 4 ≠ 0 ∧ blkNum b 0 4 ≠ inh.version.toNat then (2, r, s)
  else if !plateOk s c r then (3, r, s)
  else if 16 < depth then (4, r, s)
  else if !budgetOk s (partOf s c.part) parent r then (5, r, s)
  else if r.det then
    let (ok, s) := detMapped s ctx r
    (if ok then 0 else 6, r, s)
  else (0, r, s)

/-! ### Creating the region (R370, R374) -/

/-- A region with its TARGET read starts: each stage's first rakes, or its completion when a check failed. -/
def startRegion (s : State) (rg : Nat) : State :=
  match tget s.regions rg with
  | none => s
  | some r =>
    if r.status ≠ 0 then completeRegion s regionFuel rg
    else
      let places := (mapFrom (fun i (st : Stage) => List.replicate st.min i) 0 r.stages).flatten
      let s := (mapFrom (fun n st => (n, st)) 0 places).foldl (fun s e => createRake s rg e.2 (some e.1)) s
      modRegion s rg (fun r => { r with members := mapFrom (fun i st => (i, st, 1)) 0 places })

/-- The launch's access to the completion record waits for the driver. -/
def waitTarget (s : State) (rg : Nat) (r : Region) (x : XErr) (va acc : Nat) (written : Bool) : State :=
  let (f, s) := waitFault s r.ctx va r.number 0 r.version x acc
  addPend s f (.target rg written)

/-- REGION is written, and the region starts. A fault waits for the driver. -/
def numberRegion (s : State) (rg : Nat) : State :=
  match tget s.regions rg with
  | none => s
  | some r =>
    match ownWriteV s (dieUnits 0) r.ctx (r.tladdr + 20) (leBytes 4 r.number) with
    | (.error (.fault x, va), s) => waitTarget s rg r x va 2 true
    | (_, s) => startRegion s rg

/-- The launch's part of the completion record: TARGET is read and REGION is written. A fault waits for the driver. -/
def targetRegion (s : State) (rg : Nat) : State :=
  match tget s.regions rg with
  | none => s
  | some r =>
    if r.tladdr = 0 ∨ 2 ^ 57 ≤ r.tladdr ∨ r.tladdr % 32 ≠ 0 then
      startRegion (modRegion s rg (fun r => { r with tladdr := 0 })) rg
    else
      match ownWordV s (dieUnits 0) r.ctx (r.tladdr + 8) with
      | (.error (.fault x, va), s) => waitTarget s rg r x va 1 false
      | (got, s) =>
        let target : Dword := match got with
          | .ok v => BitVec.ofNat 64 v
          | .error _ => 0
        numberRegion (modRegion s rg (fun r => { r with target := target })) rg

/-- A launch whose block cannot be read: its queue, or the region of its spawner, takes the error (12 R468). -/
def launchError (s : State) (ctx : Nat) (parent queue : Option Nat) : State :=
  match parent, queue with
  | some p, _ => uncontained s p
  | none, some q => tearQueue s ctx q 9
  | none, none => s

/-- The number of a region: the one that it has, or the context's next. -/
def takeNumber (s : State) (ctx : Nat) (number : Option Nat) : Nat × State :=
  match number with
  | some n => (n, s)
  | none => (((tget s.ctxs ctx).map Ctx.nextRegion).getD 0, modCtx s ctx (fun c => { c with nextRegion := c.nextRegion + 1 }))

/-- A launch binds a code version that none of the context has bound before: the impressions of pages without the CODE bit go, and
those that lanes are inside serve these alone (08 R330). -/
def bindVersion (s : State) (ctx : Nat) (v : Word) : State :=
  match tget s.ctxs ctx with
  | none => s
  | some c =>
    if v.toNat ≤ c.newest.toNat then s
    else
      let gone (i : Impression) : Bool := i.ctx == ctx && !i.coded
      let s := modCtx s ctx (fun c => { c with newest := v })
      { s with imps := (s.imps.filter (fun i => !gone i || impInUse s i)).map (fun i =>
          if gone i then { i with stale := true } else i) }

/-- LAUNCH or SPAWN: read and check the block, create the region (R371), with the number that a SPAWN has taken. -/
def launchRegion (s : State) (ctx : Nat) (parent queue : Option Nat) (depth block args : Nat) (number : Option Nat := none) : State :=
  match tget s.ctxs ctx with
  | none => s
  | some c =>
    match ownReadP s (dieUnits 0) ctx block 256 with
    | (.error (.fault x, va), s) =>
      let version := match parent.bind (fun p => tget s.regions p) with
        | some q => q.version
        | none => c.codever
      let from_ := match parent with
        | some p => regionNumber s p
        | none => 0
      let (f, s) := waitFault s ctx va from_ 0 version x 1
      addPend s f (.launch ctx parent queue depth block args number)
    | (.error (.error pa _, _), s) =>
      launchError (logError s srcDram 1 (homeDie pa) pa (some ctx) (some c.world) none) ctx parent queue
    | (.error _, s) => s
    | (.ok b, s) =>
      let (status, r, s) := checkBlock s c ctx parent depth block b
      let (n, s) := takeNumber s ctx number
      let r := { r with ctx := ctx, number := n, parent := parent, queue := queue, depth := depth, block := block
                        args := args, status := status, sig := sigOf s c r b, rakes := if status = 0 then r.rakes else 0 }
      let s := if status = 0 then bindVersion s ctx r.version else s
      targetRegion { s with regions := tput s.regions (regionKey ctx n) r } (regionKey ctx n)

/-- SPAWN by a coach's region. The child takes its number at once, so that children are numbered in the order of their SPAWNs
even where a block read waits (R398). -/
def spawnRegion (s : State) (parent block args : Nat) : State :=
  match tget s.regions parent with
  | some r =>
    let (n, s) := takeNumber s r.ctx none
    launchRegion s r.ctx (some parent) none (r.depth + 1) block args (some n)
  | none => s

end Sys2Proof.Machine
end

