-- ==== Sys2Proof/Machine/Sync.lean ====
section
/-! DEFINITION. Barriers, tree barriers, timelines, CPY and its batches, engine ports (05 R187-R206). -/
namespace Sys2Proof.Machine

/-! ### Counted barriers (R187-R193) -/

/-- K. -/
def barNum (w : NOp) : Nat := if fKind w = 0 then fX w % 16 else fXS w % 16
def barXOk (w : NOp) : Bool := if fKind w = 0 then onlyBits 0xF (fX w) else onlyBits 0xF (fXS w)
/-- The operand of a barrier operation: the immediate, or A in the lowest enabled lane. -/
def barValue (c : OpCtx) (co : Coach) : Nat :=
  if fI c.w then fImm c.w else (srcA c co false ((lowLane c.en).getD 0)).toNat

/-- BARMIS at the operation: no effect. -/
def barmis (c : OpCtx) (s : State) (b : Nat) : State :=
  let t := barmisTrap s (coachOf s c.k).rake b c.en c.i.word c.i.ga c.i.step
  raiseTrap (unpop c s) c.k { t with move := if c.i.step = 0 then 0 else c.en, moveTo := c.i.ga }

/-- BARI (R189). -/
def execBari (w : NOp) (s : State) : Out :=
  .next (native w { fmtOk := shortForm w, xOk := barXOk w, immOk := !fI w || fImm w != 0
                    a := if fI w then .unused else .cls true true false false 1 false }
    (fun c s =>
      let co := coachOf s c.k
      let b := barNum w
      let n := barValue c co
      if n = 0 ∨ 2 ^ 24 ≤ n ∨ barrierWaited s co.rake b = true then barmis c s b
      else finishGroup c (setBarrier s co.rake b
        { armed := true, inv := false, exp := BitVec.ofNat 24 n, cnt := 0, ph := 0 })) s)

/-- BARA (R190): a release at cluster scope, then the arrivals. -/
def execBara (w : NOp) (s : State) : Out :=
  .next (native w { fmtOk := shortForm w, xOk := barXOk w, d := .cls true true false true 1 false
                    a := if fI w then .unused else .cls true true false true 1 false }
    (fun c s => withRoom c s (fun s =>
      let co := coachOf s c.k
      let b := barNum w
      let n := barValue c co
      let x := barrierOf s co.rake b
      if x.armed = false ∨ x.inv = true ∨ 2 ^ 24 ≤ n then barmis c s b
      else
        let s := releaseGlobal s (l1Unit s (coreOf co)) co.ctx 2
        let (t, s) := arrive s co.rake b n
        deliver c false (fun _ => (BitVec.ofNat 64 t.toNat, 0)) (endsBundle s c.k))) s)

/-- BARW (R191). -/
def execBarw (w : NOp) (s : State) : Out :=
  .next (native w { fmtOk := shortForm w, xOk := barXOk w
                    a := if fI w then .unused else .cls true true false true 1 false }
    (fun c s =>
      let co := coachOf s c.k
      let b := barNum w
      let x := barrierOf s co.rake b
      if x.armed = false ∨ x.inv = true then barmis c s b
      else
        let t := BitVec.ofNat 24 (barValue c co)
        if phaseReached x t then finishGroup c (acquireGlobal s (l1Unit s (coreOf co)) co.ctx 2)
        else sleepIn c (.barrier b t) s) s)

/-- BARS (R192). -/
def execBars (w : NOp) (s : State) : Out :=
  .next (native w { fmtOk := onlyR w, xOk := onlyBits 0x3F (fX w), d := oAny }
    (fun c s =>
      let rk := (coachOf s c.k).rake
      let x := barrierOf s rk (fX w % 16)
      let v := match field (fX w) 5 4 with
        | 0 => x.ph.toNat
        | 1 => x.cnt.toNat
        | 2 => x.exp.toNat
        | _ => barrierFlags s rk (fX w % 16)
      deliver c false (fun _ => (BitVec.ofNat 64 v, 0)) s) s)

/-- BARX ends the waits on its barrier: those of BARW with BARMIS, those of SLEEP without a trap. -/
def barxWait (b : Nat) (w : Wait) : Wait :=
  match w with
  | .barrier k _ => if k = b then .barx b else w
  | .sleepBar _ bar k _ _ => if bar = true ∧ k = b then .ended none else w
  | _ => w

/-- BARX (R193): the barrier is invalid; its waiters wake. -/
def execBarx (w : NOp) (s : State) : Out :=
  .next (native w { fmtOk := onlyR w, xOk := onlyBits 0xF (fX w) }
    (fun c s =>
      let rk := (coachOf s c.k).rake
      let b := fX w % 16
      let s := setBarrier s rk b { barrierOf s rk b with inv := true, armed := false }
      wakeCoaches (finishGroup c (mapWaits s rk (barxWait b))) (fun co => co.rake == rk)) s)

/-! ### Tree barriers (R194) -/

/-- A route tag in use by a context. -/
def TreeBar.none : TreeBar := { epoch := 0, n := 0, count := 0, closed := [] }

/-- TBAR (R194). Its tag is no counted barrier: the BARS.FLAGS bytes of a BARMIS frame stay 0 (DESIGN CHOICE, log 90). -/
def execTbar (w : NOp) (s : State) : Out :=
  let tag := if fKind w = 0 then fX w % 8 else fXS w % 8
  .next (native w { fmtOk := shortForm w, xOk := if fKind w = 0 then onlyBits 7 (fX w) else onlyBits 7 (fXS w)
                    a := if fI w then .unused else .cls true true false true 1 false }
    (fun c s =>
      let co := coachOf s c.k
      let granted := ((tget s.ctxs co.ctx).map (fun x => x.tags.getLsbD tag)).getD false
      let key := co.ctx * 8 + tag
      let b := tgetD TreeBar.none s.treebars key
      let n := barValue c co
      if !granted then reject c s iTag 0xFF
      else if n = 0 ∨ (0 < b.count ∧ n ≠ b.n) then
        raiseTrap (unpop c s) c.k (opTrap c.i 10 0 c.en c.en [(64, 1, tag), (65, 1, 0xB5)])
      else withRoom c s (fun s =>
        let core := coreOf co
        let s := releaseGlobal s (l1Unit s core) co.ctx 4
        let b' := if b.count + 1 = n then
            { b with epoch := b.epoch + 1, n := 0, count := 0, closed := (b.epoch, core, cycleOf s core) :: b.closed }
          else { b with n := n, count := b.count + 1 }
        let s := endsBundle { s with treebars := tput s.treebars key b' } c.k
        sleepIn c (.tbar tag b.epoch) s)) s)

/-! ### Timelines (R195, R196) -/

/-- The handle in A, in the lowest enabled lane. -/
def handleA (c : OpCtx) (co : Coach) : Word := loOf (srcA c co false ((lowLane c.en).getD 0))

def execTlwait (w : NOp) (s : State) : Out :=
  let x := fX w
  let agt := field x 9 7
  let stg := field x 6 5
  .next (native w { fmtOk := onlyR w, xOk := onlyBits 0x3E0 x, scopeOk := decide (agt ≤ 5) && decide (stg ≤ 2)
                    a := .cls true true false false 1 false, b := oPairVS }
    (fun c s =>
      let co := coachOf s c.k
      let h := handleA c co
      let n := srcB c co true 0 ((lowLane c.en).getD 0)
      match checkHandle s co.ctx h with
      | none => reject c s iHandle 1
      | some dk =>
        if timelineMet s dk h n then
          let s := if stg = 1 then s else acquireGlobal s (l1Unit s (coreOf co)) co.ctx agt
          let d := drayOf s dk
          if d.state = 5 ∧ h.extractLsb' 0 8 = d.gen then
            passTrap c.k c.i c.grp s (drayTrap s dk h c.en c.i.word c.i.ga c.i.step)
          else finishGroup c s
        else sleepIn c (.timeline h n agt stg) s) s)

def execTlrd (w : NOp) (s : State) : Out :=
  let sel := fX w % 2
  .next (native w { fmtOk := onlyR w, xOk := onlyBits 1 (fX w), d := oVar (sel == 0)
                    a := .cls true true false false 1 false, long := true }
    (fun c s =>
      let co := coachOf s c.k
      match checkHandle s co.ctx (handleA c co) with
      | none => reject c s iHandle 1
      | some dk =>
        let d := drayOf s dk
        deliver c (sel == 0) (fun _ => (if sel = 0 then d.timeline else d.status.setWidth 64, 0)) s) s)

/-! ### CPY, CPSEAL, CPWAIT (R197-R201) -/

/-- CPY: this coach's slice of the rake's next launch. -/
def execCpy (w : NOp) (s : State) : Out :=
  let x := fX w
  .next (native w { fmtOk := onlyR w, xOk := onlyBits 7 x && (!x.testBit 2 || x % 4 == 0)
                    d := .cls true true false true 4 true, a := .cls false true false false 8 false, b := oPairS_, long := true }
    (fun c s =>
      let co := coachOf s c.k
      let k := co.cpyCount + 1
      let s := orderGlobal s (l1Unit s (coreOf co)) co.ctx 2 4 0
      let slice := (List.range 8).map (fun j => readWord c co (fA w) j 0)
      let code := srcB c co true 0 0
      let zone := ((co.zones.head?).map Zone.k).getD 0
      let s := modRake s co.rake (fun r =>
        let la := tgetD newLaunch r.launches k
        let codes := tput la.codes co.idx (code, x % 4, x.testBit 2)
        let la := { la with slices := tput la.slices co.idx slice, codes := codes, zones := tput la.zones co.idx zone }
        { r with launches := tput r.launches k la })
      let sl := slotOf co c 1 (laneWrites (fD w) 4 c.en (fun _ j => BitVec.ofNat 32 j))
        (scalarWrites (fD w) 4 c.en (fun _ j => BitVec.ofNat 32 j)) noFlags
      let co := { co with cpyCount := k, openBatch := co.openBatch ++ [(co.rake, k)] }
      -- a launch that its unwinding zone has cancelled never starts, and its slots are discarded (R201)
      let dead := ((launchOf s (co.rake, k)).map Launch.cancelled).getD false
      finishGroup c (setCoach s c.k (if dead then co else addSlot co { sl with cpy := some (k, coreOf co) }))) s)
where
  /-- An even scalar pair. -/
  oPairS_ : Opnd := .cls false true false false 2 true
  /-- A launch without a slice. -/
  newLaunch : Launch :=
    { slices := [], codes := [], zones := [], dray := none, started := false, finished := false, faulted := false
      cancelled := false, promise := none, start := [] }

/-- The current generation's faulted context of a launch (07 R292). -/
def launchFault (s : State) (r : LaunchRef) : Option (Nat × Word) :=
  match (launchOf s r).bind Launch.dray with
  | some (dk, g) => let d := drayOf s dk; if d.gen = g ∧ d.state = 5 then some (dk, drayHandle dk g) else none
  | none => none

/-- Seal the open batch; finished batches without a fault are forgotten. -/
def sealBatch (s : State) (co : Coach) : Coach :=
  let keep (b : Batch) : Bool := !batchDone s b || b.launches.any (fun r => (launchFault s r).isSome)
  { co with openBatch := [], batchCount := co.batchCount + 1
            sealed_ := co.sealed_.filter keep ++ [{ num := co.batchCount + 1, launches := co.openBatch }] }

/-- CPSEAL. -/
def execCpseal (w : NOp) (s : State) : Out :=
  .next (native w { fmtOk := onlyR w, xOk := fX w == 0, d := .cls true true false true 1 false }
    (fun c s =>
      let co := coachOf s c.k
      if 15 ≤ unfinished s co then stallLanes s c.k c.i c.grp (.batches 14 false)
      else
        deliver c false (fun _ => (BitVec.ofNat 64 ((co.batchCount + 1) % 2 ^ 32), 0)) (setCoach s c.k (sealBatch s co))) s)

/-- CPWAIT: seal, wait, acquire; a faulted context of a finished batch then raises DRAY (07 R292). -/
def execCpwait (w : NOp) (s : State) : Out :=
  .next (native w { fmtOk := shortForm w, xOk := fX w == 0 && fXS w == 0
                    a := if fI w then .unused else .cls true true false true 1 false }
    (fun c s =>
      let co := coachOf s c.k
      let n := barValue c co
      -- the group has sealed its batch, and is in the second wait
      let (mine, others) := co.stalls.partition (fun st => st.ga == c.i.ga && st.step == c.i.step
        && (st.lanes &&& c.grp) != 0 && match st.kind with
          | .batches _ last => last
          | _ => false)
      if mine.isEmpty ∧ co.openBatch ≠ [] ∧ 15 ≤ unfinished s co then stallLanes s c.k c.i c.grp (.batches 14 false)
      else
        let co := { co with stalls := others }
        let co := if mine.isEmpty ∧ co.openBatch ≠ [] then sealBatch s co else co
        let s := setCoach s c.k co
        if n < unfinished s co then stallHolding c s (.batches n true)
        else
          let s := acquireGlobal s (l1Unit s (coreOf co)) co.ctx 4
          let bad := (co.sealed_.filter (fun b => batchDone s b)).flatMap (fun b => b.launches)
          let forget (s : State) : State :=
            modCoach s c.k (fun co => { co with sealed_ := co.sealed_.filter (fun b => !batchDone s b) })
          match bad.findSome? (launchFault s) with
          | some (dk, h) =>
            -- the commit of the trap's entry comes first, so that the trap is not put off once its batch is forgotten
            match markerCommit s c.k c.i c.grp with
            | .stop s => s
            | .go s => passTrap c.k c.i c.grp (forget s) (drayTrap s dk h c.en c.i.word c.i.ga c.i.step)
          | none => finishGroup c (forget s)) s)

/-! ### Engine ports (R205, R206) -/

/-- The queue register of a QCTL. -/
def qctlReg (w : NOp) : Nat := 8 + fX w % 8
/-- A port that nothing has used. -/
def newPort (k : Nat) : Port := { coach := k, cmds := [], resps := [], due := 0, wait := none, failed := false, done := 0 }
/-- A free port of a die's engine. -/
def freePort (s : State) (die : Nat) : Nat :=
  firstFree 256 ((s.ports.filter (fun e => e.1 / 256 == die)).map (fun e => e.1 % 256))

/-- QCTL.OPEN (R205): an invalid selector raises ENGINE before an open port raises QUNBOUND (DESIGN CHOICE, log 90). -/
def execQctlOpen (w : NOp) (s : State) : Out :=
  .next (native w { fmtOk := onlyR w, xOk := onlyBits 0x77 (fX w), a := oAny }
    (fun c s =>
      let co := coachOf s c.k
      let q := qctlReg w
      let own := coreOf co / 80
      match (handleA c co).toNat with
      | 0 => openAt c s q own
      | 1 => openAt c s q 0
      | 2 => openAt c s q 1
      | _ => reject c s iEngine 1) s)
where
  /-- Open a port on a die, or wait for a free one. -/
  openAt (c : OpCtx) (s : State) (q die : Nat) : State :=
    let co := coachOf s c.k
    if (tget co.ports q).isSome then reject c s iQunbound 0xFF
    else
      let p := freePort s die
      if 256 ≤ p then stallLanes (unpop c s) c.k c.i c.grp (.freePort die)
      else
        let key := die * 256 + p
        finishGroup c (setCoach { s with ports := tput s.ports key (newPort c.k) } c.k { co with ports := tput co.ports q key })

/-- The engine has consumed every word of a port. -/
def portIdle (s : State) (key : Nat) : Bool :=
  match tget s.ports key with
  | some p => p.cmds.isEmpty
  | none => true

/-- QCTL.CLOSE. -/
def execQctlClose (w : NOp) (s : State) : Out :=
  .next (native w { fmtOk := onlyR w, xOk := onlyBits 0x77 (fX w) }
    (fun c s =>
      let co := coachOf s c.k
      let q := qctlReg w
      match tget co.ports q with
      | none => reject c s iQunbound 0xFF
      | some key =>
        if portIdle s key then
          finishGroup c (setCoach (dropPort s key) c.k { co with ports := tdel co.ports q })
        else stallLanes s c.k c.i c.grp (.port q)) s)

/-- QCTL.DRAIN. -/
def execQctlDrain (w : NOp) (s : State) : Out :=
  .next (native w { fmtOk := onlyR w, xOk := onlyBits 0x77 (fX w) }
    (fun c s =>
      let co := coachOf s c.k
      match tget co.ports (qctlReg w) with
      | none => reject c s iQunbound 0xFF
      | some key => if portIdle s key then finishGroup c s else stallLanes s c.k c.i c.grp (.port (qctlReg w))) s)

end Sys2Proof.Machine
end

