-- ==== Sys2Proof/Machine/Handlers.lean ====
section
/-! DEFINITION. TRAP, and the return from a handler (05 R207, R208, 11 R411, R412); RAKECMD's resume applies the same frame
(11 R414). -/
namespace Sys2Proof.Machine

/-- TRAP (05 R207): TRAPI in the enabled lanes, with each lane's code; the frame shows the group past it (08 R313). -/
def execTrap (w : NOp) (s : State) : Out :=
  .next (native w { fmtOk := fKind w != 1, xOk := if fKind w = 0 then fX w == 0 else fXS w == 0
                    a := .cls true true false true 1 false }
    (fun c s =>
      let co := coachOf s c.k
      let code (l : Nat) : Nat := if fKind w = 2 then fImm w else (srcA c co false l).toNat % 2 ^ 32
      let t := opTrap c.i 3 0 c.en 0 ((lanesOf c.en).map (fun l => (640 + 4 * l, 4, code l)))
      passTrap c.k c.i c.grp s t) s)

/-! ### Applying a frame (11 R411) -/

/-- A lane goes on after the handler at a program counter; its counters stay as the handler left them. -/
def laneBack (co : Coach) (e x : Lane) (ga : GAddr) (step : Nat) : Lane :=
  { x with state := .running, ga := ga, step := step, nga := e.nga, nstep := e.nstep, wait := .none, word := e.word
           icntG := if step = 0 then x.icnt else e.icntG + (x.icnt - e.icnt)
           orderG := if step = 0 then co.orderNext else e.orderG }

/-- A lane joins as it did before the handler. -/
def laneJoins (x e : Lane) : Lane :=
  { x with state := .joining, ga := e.ga, step := e.step, nga := e.nga, nstep := e.nstep, wait := e.wait, word := e.word }

/-- The wake or service held for a lane takes place. -/
def laneSettle (co : Coach) (l : Nat) (x : Lane) : Lane :=
  if x.wait = .woken then wakeLane { co with inHandler := false } l x else x

/-- The lane after TRET: `e` at the entry, `x` now, `v` its entry in the frame; `at_` finds a lane that joins at a guest
address (R412). -/
def laneReturn (co : Coach) (at_ : GAddr → Option Lane) (l : Nat) (e x : Lane) (v : Nat) : Lane :=
  let st := field v 63 61
  let ga : GAddr := BitVec.ofNat 57 v
  let same : Lane :=
    if e.state = .joining then (if x.wait = .woken then laneSettle co l x else laneJoins x e)
    else laneBack co e x e.ga e.step
  match e.state with
  | .running | .joining =>
    if x.state = .exited then x
    else if bitOf v 60 then same
    else if st = 0 then laneBack co e x ga (if ga = e.ga then field v 59 57 else 0)
    else if st = 4 then { x with state := .exited, wait := .none }
    else if st = 3 ∧ ga ≠ e.ga then
      match at_ ga with
      | some j => laneJoins x j
      | none => same
    else same
  | .parked =>
    let x := if ga = e.ga then x else { x with ga := ga, step := 0, nga := ga, nstep := 0 }
    laneSettle co l x
  | _ => laneSettle co l x

/-- Apply the lane entries of a frame to a coach. -/
def applyEntries (co : Coach) (entries : List Nat) : Coach :=
  let at_ (ga : GAddr) : Option Lane := co.entryLanes.find? (fun y => y.state = .joining && y.ga == ga)
  { co with lanes := mapFrom (fun l x =>
      laneReturn co at_ l ((co.entryLanes[l]?).getD x) x ((entries[l]?).getD 0)) 0 co.lanes }

/-- Stalls held during the handler go on for the lanes that stand at their operation again; a completed pop whose lanes
were moved gives its entry back (log 40). -/
def resumeStalls (s : State) (k : Nat) : State :=
  let co := coachOf s k
  let back (s : State) (q : Nat) (e : Entry) : State :=
    match boundQueue s co q with
    | some (qi, x) => setQueue s co.region qi { x with entries := e :: x.entries }
    | none => s
  let s := modCoach s k (fun co => { co with heldStalls := [] })
  co.heldStalls.foldl (fun s st =>
    let m := st.lanes &&& lanesAt co st.ga st.step
    if m ≠ 0 then modCoach s k (fun co => { co with stalls := co.stalls ++ [{ st with lanes := m }] })
    else match st.kind with
      | .pop q (some e) => if q < 8 then back s q e else s
      | _ => s) s

/-- An FPE held for an expansion that no lane is inside any more is taken (08 R313); a lane that another trap has put back to
(G, 0) is inside until its group has passed the last operation. -/
def flushFpe (s : State) (k : Nat) : State :=
  let co := coachOf s k
  let inside (h : Mask × Trap) : Bool := (lanesOf h.1).any (fun l =>
    let x := laneOf co l
    (x.ga == h.2.opaddr && x.state = .running)
      || (x.nga == h.2.opaddr && (x.state = .parked || x.nstep != 0 && (x.state = .sleeping || x.state = .joining))))
  if co.trap.isSome then s
  else
    match co.fpeHeld.find? (fun h => !inside h) with
    | some h => raiseTrap (setCoach s k { co with fpeHeld := co.fpeHeld.filter (fun x => x != h) }) k h.2
    | none => s

/-- The lanes have been set: JOINs are evaluated, the coach ends when no lane is left, and a wake that was put off because it
brings a trap takes place (11 R409). -/
def lanesSet (s : State) (k : Nat) : State :=
  let s := modCoach s k (fun co => evalJoins co (fun _ => true))
  let co := coachOf s k
  if co.lanes.all (fun x => x.state = .exited || x.state = .absent) then exitLanes s k co.all
  else wakeReady (checkJoins s k) k

/-- The bytes of a coach's frame, its lanes' accesses: the bytes, a fault, or a consumed error; a frame outside a confidential
context's world resets it (12 R442). -/
def readFrame (s : State) (k va : Nat) : Except (Xlat × Nat) (List Byte) × State :=
  let co := coachOf s k
  match ownPieces s (coreUnits (coreOf co)) co.ctx va 1152 .read with
  | (.error e, s) => (.error e, s)
  | (.ok ps, s) =>
    if !inOwnWorld s co.ctx ps then (.error (.ok 0 0, va), markReset s co.ctx)
    else
      let r := ps.foldl (fun (acc : List Byte × State) p =>
        let (bs, s) := coachRead acc.2 k p.1 p.2.1 (ucLeaf p.2.2) false false
        (acc.1 ++ bs, s)) ([], s)
      match ps.findSome? (fun p => poisonAt r.2 (coachPath r.2 co (ucLeaf p.2.2) false false).unit p.1 p.2.1) with
      | some line => (.error (.error line false, va), r.2)
      | none => (.ok r.1, r.2)

/-- The lane entries of frame bytes. -/
def frameEntries (bs : List Byte) : List Nat := (List.range 64).map (fun l => leNat ((bs.drop (128 + 8 * l)).take 8))

/-- The push that a QFULL frame holds, if TRET retries it: queue register, entry and lanes. -/
def frameRetry (co : Coach) (bs : List Byte) : Option (Nat × Entry × Mask) :=
  let tm : Mask := BitVec.ofNat 64 (leNat ((bs.drop 8).take 8))
  let es := frameEntries bs
  let unchanged := (lanesOf tm).all (fun l =>
    decide ((es[l]?).getD 0 = laneEntry ((co.entryLanes[l]?).getD Lane.absent)))
  if bitOf (leNat ((bs.drop 3).take 1)) 1 && unchanged && tm != 0 then
    let area := bs.drop 640
    let e : Entry :=
      if leNat ((bs.drop 65).take 1) = 1 then entryOfBytes true area
      else .word (BitVec.ofNat 32 (leNat (area.take 4)))
    some (leNat ((bs.drop 64).take 1) % 8, e, tm)
  else none

/-- The trapping lanes of a retried push pass their operation. -/
def retryPast (co : Coach) (m : Mask) : Coach :=
  modLanes co m (fun _ x => { x.count with ga := x.nga, step := x.nstep
                                           icntG := if x.nstep = 0 then x.icnt + 1 else x.icntG
                                           orderG := if x.nstep = 0 then co.orderNext else x.orderG })

/-- TRET pushes the entry of a QFULL frame: the lanes pass, or wait at the operation (05 R202). -/
def retryPush (s : State) (k q : Nat) (e : Entry) (m : Mask) (opaddr : GAddr) (step : Nat) (word : Dword) : State :=
  let commit := (coachOf s k).commitPush
  let wait (s : State) : State :=
    modCoach s k (fun co => { co with stalls := co.stalls ++
      [{ lanes := if commit then BitVec.allOnes 64 else m, ga := opaddr, step := step
         kind := pushKind q e (cycleOf s (coreOf co)), opLanes := m, opword := word }] })
  match pushReg s k q e with
  | .done s => if commit then s else modCoach s k (fun co => retryPast co m)
  | .full => wait s
  | .xlat x va s => parkLanes (wait s) k (if commit then activeSet (coachOf s k) else m) va x 2 true

/-- The retry of the push of frame bytes, once their lane entries are applied. -/
def retryFrame (s : State) (k : Nat) (bs : List Byte) (retry : Option (Nat × Entry × Mask)) : State :=
  match retry with
  | some (q, e, m) =>
    retryPush s k q e m (BitVec.ofNat 57 (leNat ((bs.drop 32).take 8))) (leNat ((bs.drop 2).take 1))
      (BitVec.ofNat 64 (leNat ((bs.drop 24).take 8)))
  | none => s

/-- The lanes and the push of a frame are applied: stalls go on for the lanes that still stand at their operations. -/
def applyLanes (s : State) (k : Nat) (bs : List Byte) : State :=
  let retry := frameRetry (coachOf s k) bs
  let s := modCoach s k (fun co =>
    let (commit, own) := co.stalls.partition (fun st => st.lanes == BitVec.allOnes 64)
    { applyEntries co (frameEntries bs) with pair := none, resume := none, stalls := commit, heldStalls := co.heldStalls ++ own })
  flushFpe (lanesSet (retryFrame (resumeStalls s k) k bs retry) k) k

/-- The rest of TRET once the frame has been read: the stalls of the handler's own operations are over. -/
def applyFrame (s : State) (k : Nat) (bs : List Byte) : State :=
  let word (o : Nat) : Word := BitVec.ofNat 32 (leNat ((bs.drop o).take 4))
  let s := modCoach s k (fun co =>
    { sset (sset (sset (sset co 28 (word 40)) 29 (word 44)) 30 (word 48)) 31 (word 52) with
      inHandler := false, rmask := 0, stalls := co.stalls.filter (fun st => st.lanes == BitVec.allOnes 64) })
  applyLanes s k bs

/-- TRET (05 R208, 11 R411). -/
def execTret (w : NOp) (s : State) : Out :=
  .next (native w { fmtOk := onlyR w, xOk := fX w == 0 }
    (fun c s =>
      let co := coachOf s c.k
      if !co.inHandler then reject c s iTret 0xFF
      else
        match markerCommit s c.k c.i c.grp with
        | .stop s => s
        | .go s =>
          let co := coachOf s c.k
          let base := ((ctxOf s co).map (fun x => frameAddr x co)).getD 0
          match readFrame s c.k base with
          | (.error (.fault x, va), s) =>
            finishGroup (c.without c.en) (parkLanes s c.k c.en va x 1 false)
          | (.error (.error pa page, va), s) =>
            xlatBad s c.k pa va page
          | (.error _, s) => s
          | (.ok bs, s) =>
            applyFrame (modCoach s c.k (fun co => modLanes co c.grp (fun _ x => x.count))) c.k bs) s)

end Sys2Proof.Machine
end

