-- ==== Sys2Proof/Machine/CrossLane.lean ====
section
/-! DEFINITION. Cross-lane operations, mask operations and special registers (04 R141-R151, 01 R28-R33). -/
namespace Sys2Proof.Machine

/-! ### SHFL, BALLOT, VOTE (R141-R143) -/

/-- The lane that lane `l` reads, of segments of `seg` lanes. -/
def shflLane (mode seg width l n : Nat) : Nat :=
  let i := l % seg
  let k : Int :=
    match mode with
    | 0 => n
    | 1 => (i : Int) - n
    | 2 => (i : Int) + n
    | _ => (Nat.xor i n : Nat)
  if 0 ≤ k ∧ k < seg ∧ (l - i) + k.toNat < width then (l - i) + k.toNat else l

def execShfl (w : NOp) (s : State) : Out :=
  let wide := tyWide (fTy w)
  let lseg := field (fOpx w) 4 2
  .next (laneOp w { fmtOk := valueI w, xOk := onlyBits 31 (fOpx w) && lseg != 7, tyOk := tyIn w tyWords, rmOk := rmZero w
                    d := oVar wide, a := oVar wide, b := oAny } wide
    (fun c co l =>
      let seg := if lseg = 0 then co.width else 2 ^ lseg
      let n := (srcB c co false (BitVec.ofNat 64 (fImm w)) l).toNat
      plain (srcA c co wide (shflLane (fOpx w % 4) seg co.width l n))) s)

def execBallot (w : NOp) (s : State) : Out :=
  let mw := (fX w).testBit 4
  .next (native w { fmtOk := onlyR w, xOk := onlyBits 31 (fX w) && (mw || fX w % 16 == 0), d := oPairZ, a := oAny }
    (fun c s =>
      let co := coachOf s c.k
      let r := maskOf (fun l => c.en.getLsbD l && readOp c co (fA w) false l != 0)
      let s := if mw then setCoach s c.k (mset co (fX w % 16) r) else s
      deliver c true (fun _ => plain r) s) s)

def execVote (w : NOp) (s : State) : Out :=
  .next (laneOp w { fmtOk := onlyR w, xOk := onlyBits 3 (fOpx w) && fOpx w != 3, tyOk := tyIn w [0, 1], rmOk := rmZero w
                    d := oAny, a := oAny } false
    (fun c co _ =>
      let vs := (lanesOf c.en).map (fun l => srcA c co false l)
      let t := match fOpx w with
        | 0 => vs.all (fun v => v != 0)
        | 1 => vs.any (fun v => v != 0)
        | _ => vs.all (fun v => some v == vs.head?)
      plain (if t then 1 else 0)) s)

/-! ### REDX and SCANX (R144, 03 R100) -/

/-- A node of the tree: empty, or a value; with the flags raised so far. -/
abbrev Node := Option Dword

/-- Combine two nodes: an empty one takes the other's value unchanged. -/
def joinNode (op : Dword → Dword → Dword × Flags) (a b : Node) : Node × Flags :=
  match a, b with
  | none, b => (b, 0)
  | a, none => (a, 0)
  | some x, some y =>
    let (r, f) := op x y
    (some r, f)

/-- The next level of the tree, and the flags of its nodes. -/
def nextLevel (op : Dword → Dword → Dword × Flags) : List Node → List Node × Flags
  | a :: b :: t =>
    let (n, f) := joinNode op a b
    let (r, g) := nextLevel op t
    (n :: r, f ||| g)
  | l => (l, 0)

/-- The levels of the tree above the leaves, lowest first, and the flags of every node. -/
def treeLevels (op : Dword → Dword → Dword × Flags) : Nat → List Node → List (List Node) × Flags
  | 0, l => ([l], 0)
  | n + 1, l =>
    let (up, f) := nextLevel op l
    let (r, g) := treeLevels op n up
    (l :: r, f ||| g)

/-- Combine the maximal aligned blocks of [0, n - 1], from the lowest lane up. -/
def scanPrefix (op : Dword → Dword → Dword × Flags) (levels : List (List Node)) (n : Nat) : Node × Flags :=
  let step (acc : Nat × Node × Flags) (j : Nat) : Nat × Node × Flags :=
    if n.testBit j then
      let node := (((levels[j]?).getD [])[acc.1 / 2 ^ j]?).getD none
      let (r, f) := joinNode op acc.2.1 node
      (acc.1 + 2 ^ j, r, acc.2.2 ||| f)
    else acc
  ((List.range 7).reverse.foldl step (0, none, 0)).2

/-- The operation of a node on register values. -/
def redOp (ty fn rm : Nat) (ftz : Bool) (a b : Dword) : Dword × Flags :=
  if tyIsFloat ty then
    let f := tyFmt ty
    match fn with
    | 0 => fRes (fAdd f rm ftz false (fBits ty a) (fBits ty b))
    | 1 => fRes (fMinMax f ftz false (fBits ty a) (fBits ty b))
    | _ => fRes (fMinMax f ftz true (fBits ty a) (fBits ty b))
  else
    let x := tyInt ty a
    let y := tyInt ty b
    plain (match fn with
      | 0 => tyOut ty (x + y)
      | 1 => if y < x then b else a
      | 2 => if x < y then b else a
      | 3 => a &&& b
      | 4 => a ||| b
      | _ => a ^^^ b)

/-- The identity of the operation. -/
def redIdentity (ty fn : Nat) : Dword :=
  if tyIsFloat ty then
    let f := tyFmt ty
    BitVec.ofNat 64 (match fn with
      | 0 => f.signed true 0
      | 1 => f.infCode
      | _ => f.signed true f.infCode)
  else
    match fn with
    | 1 => tyOut ty (tyMax ty)
    | 2 => tyOut ty (tyMin ty)
    | 3 => if tyWide ty then BitVec.allOnes 64 else 0xFFFFFFFF
    | _ => 0

/-- A leaf as the tree reads it: with FTZ a subnormal is zero of its sign (03 R92). -/
def redLeaf (ty : Nat) (ftz : Bool) (v : Dword) : Dword :=
  if tyIsFloat ty then
    let f := tyFmt ty
    let b := fBits ty v
    BitVec.ofNat 64 (if ftz && f.isSubnormal b then f.signed (b.testBit (f.p - 1 + f.eb)) 0 else b)
  else v

/-- A result as it is written: a NaN is canonical, also one that reaches the result without a node (03 R80, log 22). -/
def redOut (ty : Nat) (v : Dword) : Dword :=
  if tyIsFloat ty && ((tyFmt ty).value v.toNat).isNan then BitVec.ofNat 64 (tyFmt ty).nanCode else v

/-- The checks and the tree shared by REDX and SCANX; `pick` gives a lane's node from the levels. -/
def treeOp (w : NOp) (scan : Bool) (s : State) : State :=
  let ty := fTy w
  let wide := tyWide ty
  let fn := fOpx w % 8
  let mask := if scan then 15 else 7
  native w { fmtOk := onlyR w, xOk := onlyBits mask (fOpx w) && decide (fn < 6)
             tyOk := tyIn w (if fn < 3 then tyWords ++ tyFloats else tyWords)
             rmOk := if tyIsFloat ty && fn == 0 then rmAny w else rmZero w
             d := oVar wide, a := oVar wide, long := true }
    (fun c s =>
      let co := coachOf s c.k
      let op := redOp ty fn (roundOf co w) (ftzOf co)
      let leaf (l : Nat) : Node := if c.en.getLsbD l then some (redLeaf ty (ftzOf co) (srcA c co wide l)) else none
      let sig := sigFlag (if tyIsFloat ty then
        (lanesOf c.en).map (fun l => (tyFmt ty).value (fBits ty (srcA c co wide l))) else [])
      let (levels, fl) := treeLevels op (if co.width = 64 then 6 else 5) ((List.range co.width).map leaf)
      let pick (l : Nat) : Node × Flags :=
        if scan then scanPrefix op levels (if (fOpx w).testBit 3 then l else l + 1)
        else ((((levels.getLast?).getD [])[0]?).getD none, 0)
      deliver c wide (fun l => (redOut ty (((pick l).1).getD (redIdentity ty fn)), sig ||| fl ||| (pick l).2)) s) s

def execRedx (w : NOp) (s : State) : Out := .next (treeOp w false s)
def execScanx (w : NOp) (s : State) : Out := .next (treeOp w true s)

/-! ### Mask operations (R145-R149) -/

/-- The value of MOP by FN. -/
def mopValue (fn : Nat) (a b : Mask) : Mask :=
  match fn with
  | 0 => a &&& b
  | 1 => a ||| b
  | 2 => a ^^^ b
  | 3 => a &&& ~~~b
  | 4 => a ||| ~~~b
  | 5 => ~~~a
  | 6 => a
  | _ => BitVec.allOnes 64

def execMop (w : NOp) (s : State) : Out :=
  let x := fX w
  let fn := field x 16 14
  let rd := x.testBit 12
  .next (native w { fmtOk := onlyR w, d := if rd then oPairZ else .unused
                    xOk := !x.testBit 13 && (fn != 7 || field x 7 4 == 0) && (decide (fn < 5) || x % 16 == 0) }
    (fun c s =>
      let co := coachOf s c.k
      let r := mopValue fn (mget co (field x 7 4)) (mget co (x % 16)) &&& co.all
      let s := setCoach s c.k (mset co (field x 11 8) r)
      if rd then deliver c true (fun _ => plain r) s else finishGroup c s) s)

/-- The lowest or highest set bit, all ones when there is none. -/
def firstBit (last : Bool) (m : Mask) : Nat := ((if last then highLane m else lowLane m)).getD 0xFFFFFFFF

def execMpopc (w : NOp) (s : State) : Out :=
  let x := fX w
  let fn := field x 5 4
  .next (laneOp w { fmtOk := onlyR w, xOk := onlyBits 0x3F x && fn != 3, d := oAny } false
    (fun _ co l =>
      let m := mget co (x % 16)
      let lim := if fn = 0 then 64 else if fn = 1 then l else l + 1
      plain (BitVec.ofNat 64 (countLanes (m &&& widthMask lim)))) s)

def execMfirst (w : NOp) (s : State) : Out :=
  let x := fX w
  .next (laneOp w { fmtOk := onlyR w, xOk := onlyBits 0x1F x, d := oAny } false
    (fun _ co _ => plain (BitVec.ofNat 64 (firstBit (x.testBit 4) (mget co (x % 16))))) s)

def execMact (w : NOp) (s : State) : Out :=
  let x := fX w
  .next (native w { fmtOk := onlyR w, xOk := onlyBits 0x1F x }
    (fun c s => finishGroup c (modCoach s c.k (fun co =>
      mset co (x % 16) (if x.testBit 4 then activeSet co else c.en)))) s)

def execMmov (w : NOp) (s : State) : Out :=
  let x := fX w
  let dir := x.testBit 4
  .next (native w { fmtOk := onlyR w, xOk := onlyBits 0x1F x, d := if dir then oPairZ else .unused
                    a := if dir then .unused else oPairZ }
    (fun c s =>
      let co := coachOf s c.k
      if dir then deliver c true (fun _ => plain (mget co (x % 16))) s
      else
        match lowLane c.en with
        | some l => finishGroup c (setCoach s c.k (mset co (x % 16) (srcA c co true l)))
        | none => s) s)

/-! ### SPR (R150, R151, 01 R28-R33) -/

/-- NUM. -/
def sprNum (w : NOp) : Nat := if fKind w = 0 then fX w % 256 else fXS w % 256
/-- Assigned numbers (01 R28). -/
def sprAssigned (n : Nat) : Bool := decide (n ≤ 0x16) || decide (0x20 ≤ n ∧ n ≤ 0x3F)
/-- 64-bit numbers. -/
def sprWide (n : Nat) : Bool := n == 0x10 || n == 0x11 || n == 0x12
/-- Numbers whose read is long. -/
def sprLong (n : Nat) : Bool := n == 0x15 || decide (0x20 ≤ n ∧ n ≤ 0x2F)

/-- MODE (01 R28). -/
def modeWord (s : State) (co : Coach) : Nat :=
  (if co.prot then 1 else 0) + (if co.width = 32 ∧ co.prot = false then 2 else 0) + (if isDet s co then 4 else 0)
  + (if s.fusedClusters.contains (coreOf co / 8) then 8 else 0)
  + (if ((tget s.ctxs co.ctx).map Ctx.world).getD 0 ≠ 0 then 16 else 0)

/-- HOLDS: the tiles of its core that the coach holds. -/
def holdsWord (s : State) (k : Nat) : Nat :=
  ((List.range 8).map (fun t =>
    match tget s.tiles (tileKey (coreOf (coachOf s k)) t) with
    | some x => if x.holder = some k then 2 ^ t else 0
    | none => 0)).foldl (· + ·) 0

/-- QDEPTH (01 R32). -/
def queueDepth (s : State) (co : Coach) (q : Nat) : Nat :=
  if q < 8 then (match boundQueue s co q with
    | some (_, x) => x.entries.length
    | none => 0)
  else (match (tget co.ports q).bind (fun pk => tget s.ports pk) with
    | some p => p.cmds.length
    | none => 0)

/-- The value that a special register gives a lane. -/
def sprValue (s : State) (k n l : Nat) : Nat :=
  let co := coachOf s k
  let rk := tget s.rakes co.rake
  let rg := tget s.regions co.region
  match n with
  | 0x00 => l
  | 0x01 => co.idx
  | 0x02 => (rg.map Region.coaches).getD 0
  | 0x03 => (rk.map Rake.idx).getD 0
  | 0x04 => (rk.map Rake.stage).getD 0
  | 0x05 => (rg.map Region.number).getD 0
  | 0x06 => co.ctx
  | 0x07 => ((tget s.ctxs co.ctx).map Ctx.world).getD 0
  | 0x08 => co.plate
  | 0x09 => co.version.toNat
  | 0x0A => co.width
  | 0x0B => modeWord s co
  | 0x0C => glaneOf s co l
  | 0x0D => coreOf co % 8
  | 0x0E => coreOf co / 8 % 10
  | 0x0F => coreOf co / 80
  | 0x10 => if isDet s co then (laneOf co l).icnt.toNat else cycleOf s (coreOf co)
  | 0x11 => (laneOf co l).icnt.toNat
  | 0x12 => ((rg.map Region.sig).getD 0).toNat
  | 0x13 => co.fmode.toNat
  | 0x14 => co.fstat.toNat
  | 0x15 => co.leaseG + (if co.measured then 256 else 0)
  | 0x16 => holdsWord s k
  | n => if n < 0x30 then queueDepth s co (n - 0x20) else (fmtReg s co.ctx (n - 0x30)).toNat

/-- SPR (R150, R151). A long read takes its value as the operation issues (01 R32 leaves the instant open, DESIGN CHOICE, log
90). -/
def execSpr (w : NOp) (s : State) : Out :=
  let n := sprNum w
  .next (native w { fmtOk := onlyR w, xOk := onlyBits 0xFF (fX w), d := oVar (sprWide n), long := sprLong n }
    (fun c s =>
      if sprAssigned n then deliver c (sprWide n) (fun l => plain (BitVec.ofNat 64 (sprValue s c.k n l))) s
      else reject c s iSpr 0xFF) s)

/-- A value that FMODE or FSTAT may take (03 R91, R93). -/
def sprValueOk (n v : Nat) : Bool :=
  if n = 0x13 then onlyBits 0x7EF v && decide (v % 8 ≤ 4) else onlyBits 0x3F v

/-- The checks of a write of a number that its value does not decide, in the order of R150. -/
def sprOwn (n : Nat) : Option (Nat × Nat) :=
  if !sprAssigned n then some (iSpr, 0xFF) else if n = 0x13 ∨ n = 0x14 then none else some (iSprro, 0xFF)

def execSprWr (w : NOp) (s : State) : Out :=
  let n := sprNum w
  .next (native w { fmtOk := shortForm w, xOk := fI w || onlyBits 0x1FF (fX w), a := if fI w then .unused else oAny, own := sprOwn n
                    slots := some 1 }
    (fun c s =>
      let co := coachOf s c.k
      let v := match lowLane c.en with
        | some l => if fI w then fImm w else (srcA c co false l).toNat
        | none => 0
      if (sprOwn n).isSome then reject c s ((sprOwn n).getD (0, 0)).1 ((sprOwn n).getD (0, 0)).2
      else if !sprValueOk n v then reject c s iRsvd (if fI w then 4 else 1)
      else
        let v : Word := BitVec.ofNat 32 v
        let co :=
          if c.long then addSlot co { slotOf co c 1 [] [] noFlags with spr := some (n, v) }
          else if n = 0x13 then { co with fmode := v } else { co with fstat := v }
        finishGroup c (setCoach s c.k co)) s)

end Sys2Proof.Machine
end

