-- ==== Sys2Proof/Machine/Frontend.lean ====
section
/-! DEFINITION. The queue front-ends: mailboxes and messages (10 R361-R364), context reset (11 R435) and the error-log and
counter rings' vectors (15 R495). -/
namespace Sys2Proof.Machine

/-- The queue of a context. -/
def queueAt (s : State) (ctx q : Nat) : Option HwQueue := (tget s.ctxs ctx).bind (fun c => c.queues[q]?)
/-- Update a queue. -/
def modQueue (s : State) (ctx q : Nat) (f : HwQueue → HwQueue) : State :=
  modCtx s ctx (fun c => { c with queues := modAt f c.queues q })

/-- Messages that wait between RIDX and WIDX. -/
def HwQueue.count (x : HwQueue) : Nat := (x.widx - x.ridx).toNat
/-- The queue is enabled: its mailbox has a size. -/
def HwQueue.on (x : HwQueue) : Bool := x.k != 0
/-- The slot that RIDX names. -/
def HwQueue.slot (x : HwQueue) : Nat := x.ridx.toNat % 2 ^ x.k

/-- The number of a message's field. -/
def msgNum (m : List Byte) (o n : Nat) : Nat := leNat ((m.drop o).take n)

/-- Kind and fields are valid (R362, R363); every byte that the kind does not use is zero. -/
def msgOk (m : List Byte) : Bool :=
  let kind := msgNum m 0 1
  let zero (o n : Nat) : Bool := msgNum m o n == 0
  let addr := msgNum m 8 8
  decide (1 ≤ kind ∧ kind ≤ 6) && decide (msgNum m 1 1 ≤ 1) && zero 2 6
  && (match kind with
    | 1 => decide (addr < 2 ^ 57) && decide (msgNum m 16 8 < 2 ^ 57) && zero 24 40
    | 5 => zero 8 56
    | 6 => decide (msgNum m 8 1 ≤ 1) && zero 9 55
    | _ => addr % 8 == 0 && decide (addr < 2 ^ 57) && zero 24 40)

/-- The front-end waits for the driver's answer to a fault. -/
def queueFault (s : State) (ctx q va : Nat) (x : XErr) (acc : Nat) : State :=
  let (f, s) := waitFault s ctx va 0 0 (((tget s.ctxs ctx).map Ctx.codever).getD 0) x acc
  modQueue s ctx q (fun y => { y with fault := some f })

/-- Write the host-visible RIDX word. -/
def writeRidx (s : State) (ctx q : Nat) : State :=
  match queueAt s ctx q with
  | none => s
  | some x =>
    match ownWriteV s (dieUnits 0) ctx x.ridxAddr (leBytes 8 x.ridx.toNat) with
    | (.error (.fault e, va), s) => queueFault (modQueue s ctx q (fun y => { y with ridxDue := true })) ctx q va e 2
    | (_, s) => l2System (modQueue s ctx q (fun y => { y with ridxDue := false })) false

/-- The message at RIDX has been processed. -/
def advanceQueue (s : State) (ctx q : Nat) : State :=
  writeRidx (modQueue s ctx q (fun y => { y with ridx := y.ridx + 1, waiting := none, discard := y.discard - 1 })) ctx q

/-- It completed: RIDX advances, and the vector is raised when its FLAGS ask for it. -/
def completeMsg (s : State) (ctx q : Nat) (m : List Byte) : State :=
  let s := advanceQueue s ctx q
  if msgNum m 1 1 = 1 then raiseVector s (ctx + 1) q else s

/-- It is skipped, and its slot is recorded in QERR (R363). -/
def skipMsg (s : State) (ctx q : Nat) : State :=
  let s := modQueue s ctx q (fun y =>
    { y with skipped := BitVec.ofNat 32 y.slot, state := if y.state = 0 then 1 else y.state })
  advanceQueue s ctx q

/-- The queue is torn down. -/
def HwQueue.torn (x : HwQueue) : Bool := x.state == 9 || x.state == 11

/-- WIDX is more than the ring ahead of RIDX: the queue is torn down with OVERRUN, and RIDX takes that WIDX (R361). -/
def overrunQueue (s : State) (ctx q : Nat) : State :=
  let s := tearQueue s ctx q 11
  writeRidx (modQueue s ctx q (fun y => { y with ridx := y.widx, discard := 0 })) ctx q

/-- The region of a discarded or refused LAUNCH, whose block is known: it completes at once with a status. -/
def refuseBlock (s : State) (ctx q block args status : Nat) (b : List Byte) : State :=
  match tget s.ctxs ctx with
  | none => s
  | some c =>
    let n := c.nextRegion
    let r := { resolveBlock (partOf s c.part) (Inherit.ofCtx s c) b with
                 ctx := ctx, number := n, queue := some q, block := block, args := args, status := status, rakes := 0
                 det := false }
    let s := modCtx s ctx (fun c => { c with nextRegion := n + 1 })
    targetRegion { s with regions := tput s.regions (regionKey ctx n) r } (regionKey ctx n)

/-- A discarded or refused LAUNCH: its block is read for the completion record; a fault waits for the driver, and a block that
holds an uncorrectable error is taken as empty (11 R435, R436, R510, log 51). -/
def refuseLaunch (s : State) (ctx q block args status : Nat) : State :=
  match ownReadP s (dieUnits 0) ctx block 256 with
  | (.error (.fault x, va), s) =>
    let (f, s) := waitFault s ctx va 0 0 (((tget s.ctxs ctx).map Ctx.codever).getD 0) x 1
    addPend s f (.refused ctx q block args status)
  | (.error (.error pa _, _), s) =>
    refuseBlock (logError s srcDram 1 (homeDie pa) pa (some ctx) none none) ctx q block args status (List.replicate 256 0)
  | (.error _, s) => s
  | (.ok b, s) => refuseBlock s ctx q block args status b

/-- What the front-end reads at RIDX, with acquire at system scope. -/
inductive MsgRead where
  | msg (m : List Byte) (s : State)
  | stop (s : State)

/-- Take the next message of a queue: none while it waits, is empty, or its context has gone. -/
def readMsg (s : State) (ctx q : Nat) : MsgRead :=
  match queueAt s ctx q with
  | none => .stop s
  | some x =>
    if !x.on || x.fault.isSome then .stop s
    else if x.ridxDue then .stop (writeRidx s ctx q)
    else if 2 ^ x.k < x.count then .stop (overrunQueue s ctx q)
    else if x.count = 0 then .stop s
    else
      match ownReadP (l2System s true) (dieUnits 0) ctx (x.base + 64 * x.slot) 64 with
      | (.ok m, s) => .msg m s
      | (.error (.fault e, va), s) => .stop (queueFault s ctx q va e 1)
      | (.error (.error pa _, _), s) =>
        -- a slot that cannot be read tears the queue down; a torn-down queue skips it
        let s := logError s srcDram 3 (homeDie pa) pa (some ctx) none none
        .stop (if x.torn || x.discard != 0 then skipMsg s ctx q else tearQueue s ctx q 9)
      | (.error _, s) => .stop s

/-- A message that a reset discards: a LAUNCH completes its region with RESET. -/
def discardMsg (s : State) (ctx q : Nat) (m : List Byte) : State :=
  advanceQueue (if msgNum m 0 1 = 1 ∧ msgOk m = true then refuseLaunch s ctx q (msgNum m 8 8) (msgNum m 16 8) 8 else s) ctx q

/-- Discard messages at a reset. A slot or a RIDX word that does not translate is waited for (11 R510): the queue discards the
rest of them after the driver's answer. -/
def discardMsgs (ctx q : Nat) : Nat → State → State
  | 0, s => s
  | fuel + 1, s =>
    match readMsg s ctx q with
    | .stop s => if ((queueAt s ctx q).map HwQueue.fault) = some none then discardMsgs ctx q fuel s else s
    | .msg m s => discardMsgs ctx q fuel (discardMsg s ctx q m)

/-- CONTEXT_RESET (11 R435), whole: the regions, and every message up to WIDX of each queue. -/
def contextReset (s : State) (ctx : Nat) : State :=
  let s := resetCtx { s with resets := s.resets.filter (· != ctx) } ctx
  let n := ((tget s.ctxs ctx).map (fun c => c.queues.length)).getD 0
  (List.range n).foldl (fun s q =>
    match queueAt s ctx q with
    | none => s
    | some x =>
      if x.count = 0 ∨ x.on = false then
        modQueue s ctx q (fun y => { y with fault := none, ridxDue := false, waiting := none })
      else if x.count ≤ 2 ^ x.k then
        discardMsgs ctx q x.count (modQueue s ctx q (fun y =>
          { y with fault := none, ridxDue := false, waiting := none, discard := x.count }))
      else
        writeRidx (modQueue s ctx q (fun y =>
          { y with ridx := x.widx, fault := none, ridxDue := false, waiting := none, discard := 0 })) ctx q) s

end Sys2Proof.Machine
end

