-- ==== Sys2Proof/Machine/Matrix.lean ====
section
/-! DEFINITION. The matrix engine: configurations, versioned operations at issue, and the engine's own steps
(06 R220-R247, 03 R101-R106). -/
namespace Sys2Proof.Machine

/-! ### Formats (R230-R235) -/

/-- Bits of an element. -/
def mfBits (f : Nat) : Nat := if f = 0 then 32 else if f ≤ 3 then 16 else if f = 4 ∨ f = 5 ∨ f = 8 then 8 else 4
/-- An integer tile. -/
def mfInt (f : Nat) : Bool := decide (3 ≤ f ∧ f ≤ 7)
def mfNf (f : Nat) : Bool := f == 8 || f == 9
/-- FA and FB go together (R232). -/
def mfPair (a b : Nat) : Bool := decide (a ≤ 9) && decide (b ≤ 9) && mfBits a == mfBits b && mfInt a == mfInt b
/-- Bytes of a row per K-step (R235). -/
def rowBytesA (fa spn : Nat) : Nat := if fa = 0 then 64 else if spn = 0 then 32 else 8 * 2 ^ (spn - 1)
def rowBytesB (fa spn : Nat) : Nat := if fa = 0 ∨ spn ≠ 0 then 64 else 32

def cfgFa (c : MCfg) : Nat := field c.fmtw.toNat 3 0
def cfgFb (c : MCfg) : Nat := field c.fmtw.toNat 7 4
def cfgP (c : MCfg) : Nat := field c.fmtw.toNat 14 8
def cfgSpn (c : MCfg) : Nat := field c.fmtw.toNat 17 16
def descSrc (w0 : Word) : Bool := w0.getLsbD 27
def descRot (w0 : Word) : Nat := field w0.toNat 26 24
def descBase (w0 : Word) : Nat := field w0.toNat 23 0
def descT (w1 : Word) : Nat := field w1.toNat 31 16
def descR (w1 : Word) : Nat := field w1.toNat 15 0

/-- One operand's descriptor, plane and format register are within their limits (R229-R231). -/
def operandOk (w0 w1 plane : Word) (f fi : Nat) : Bool :=
  let nf := mfNf f
  field w0.toNat 31 28 == 0
  && (if descSrc w0 then field w0.toNat 26 0 == 0 && w1 == 0
      else decide (descRot w0 ≤ 5) && descBase w0 % (if nf then 64 else 32) == 0 && descT w1 % 32 == 0 && descR w1 % 32 == 0)
  && (if nf && !descSrc w0 then field plane.toNat 31 24 == 0 && plane.toNat % 2 == 0 else plane == 0)
  && (fi == 0 || (nf && descSrc w0))

/-- A configuration within its limits. -/
def cfgOk (c : MCfg) : Bool :=
  let w := c.fmtw.toNat
  field w 31 26 == 0 && field w 15 15 == 0 && decide (1 ≤ cfgP c ∧ cfgP c ≤ 64)
  && mfPair (cfgFa c) (cfgFb c) && (cfgSpn c == 0 || cfgFa c != 0)
  && operandOk c.a0 c.a1 c.planeA (cfgFa c) (field w 21 18) && operandOk c.b0 c.b1 c.planeB (cfgFb c) (field w 25 22)
  && field c.meta_.toNat 31 24 == 0 && c.meta_.toNat % 32 == 0 && (cfgSpn c != 0 || c.meta_ == 0)

/-! ### Tiles as lists (R220, R222) -/

/-- Elements in key order; `d` gives those that the table does not list. -/
def fullList {α : Type} (d : Nat → α) : Nat → Nat → Tbl α → List α
  | 0, _, _ => []
  | n + 1, k, [] => d k :: fullList d n (k + 1) []
  | n + 1, k, (j, a) :: t =>
    if j = k then a :: fullList d n (k + 1) t else d k :: fullList d n (k + 1) ((j, a) :: t)

/-- T, p and STEPS of an element. -/
structure El where
  t : Word
  p : BitVec 26
  steps : Nat
  deriving DecidableEq, Repr

/-- The 4,096 elements of a tile: undefined ones are free values (log 6). -/
def tileEls (x : Tile) : List El :=
  let word (k : Nat) : Word := match x.undef with
    | some n => Config.freeWord n k
    | none => 0
  let ts := fullList word 4096 0 x.t
  let ps := fullList (fun k => (word (4096 + k)).setWidth 26) 4096 0 x.p
  let ss := fullList (fun k => (word (8192 + k)).toNat % 64) 4096 0 x.steps
  (ts.zip (ps.zip ss)).map (fun e => { t := e.1, p := e.2.1, steps := e.2.2 })

/-- Entries of a list that differ from a default. -/
def listed {α : Type} [DecidableEq α] (d : α) (l : List α) : Tbl α :=
  (mapFrom (fun i a => (i, a)) 0 l).filter (fun e => decide (e.2 ≠ d))

/-- A tile with these elements. -/
def setEls (x : Tile) (es : List El) : Tile :=
  { x with t := listed 0 (es.map El.t), p := listed 0 (es.map El.p), steps := listed 0 (es.map El.steps), undef := none }

/-- T + p rounded into T (03 R102). -/
def promote (e : El) : El :=
  let sum := (sumExact 0 [fmtF32.value e.t.toNat, fmtP26.value e.p.toNat]).1
  { t := BitVec.ofNat 32 (fmtF32.round 0 false sum).1, p := 0, steps := 0 }

/-! ### Operand rows -/

/-- An operand element: its value, and for F32 its two BF16 parts (03 R104). -/
structure MEl where
  x : Num
  hi : Num
  lo : Num
  int : Int
  deriving Repr

def MEl.zero : MEl := { x := .fin false 0 0, hi := .fin false 0 0, lo := .fin false 0 0, int := 0 }
def MEl.nan : MEl := { MEl.zero with x := .nan false, hi := .nan false, lo := .nan false }

/-- The codes of a row. -/
def rowCodes (f : Nat) (bs : List Byte) : List Nat :=
  match mfBits f with
  | 32 => (chunks 4 64 bs).map leNat
  | 16 => (chunks 2 64 bs).map leNat
  | 8 => bs.map BitVec.toNat
  | _ => bs.flatMap (fun b => [b.toNat % 16, b.toNat / 16])

/-- The element of a code in a format without a descriptor. -/
def codeEl (f v : Nat) : MEl :=
  match f with
  | 0 => { MEl.zero with x := fmtF32.value v, hi := fmtBF16.value (bfHi v), lo := fmtBF16.value (bfLo v) }
  | 1 => { MEl.zero with x := fmtBF16.value v }
  | 2 => { MEl.zero with x := fmtF16.value v }
  | 3 => { MEl.zero with int := sext 16 v }
  | 4 => { MEl.zero with int := sext 8 v }
  | 5 => { MEl.zero with int := v }
  | 6 => { MEl.zero with int := sext 4 v }
  | _ => { MEl.zero with int := v }

/-- The terms that one product adds to the exact sum (03 R102, R104). -/
def prodTerms (f32 : Bool) (a b : MEl) : List Num :=
  if f32 && !(a.x.isNan || a.x.isInf || b.x.isNan || b.x.isInf) then
    [(mulExact a.hi b.hi).1, (mulExact a.hi b.lo).1, (mulExact a.lo b.hi).1]
  else [(mulExact a.x b.x).1]

/-- A row that the engine has read. -/
structure RowIn where
  els : List MEl
  /-- A scratchpad word of the row is poisoned. -/
  bad : Bool

/-- A row of an operand in the scratchpad (R233): `off` its OFF, `st` the K-step. -/
def padRow (rk : Rake) (fmts : List Word) (f : Nat) (w0 w1 plane : Word) (n off st r : Nat) : RowIn :=
  let a := descBase w0 + off + st * descT w1 + r * descR w1
  let at_ := Nat.xor a (r % 2 ^ descRot w0 * 64)
  if mfNf f then
    let desc := plane.toNat + (a - descBase w0) / 64 * 2
    let d := leNat (padRead rk desc 2)
    let reads := lineReadsData fmts (f == 9) d
    let bad := padBad rk desc 2 || (reads && padBad rk at_ n)
    let bs := padRead rk at_ n
    let count := if f = 9 then 2 * n else n
    { els := (List.range count).map (fun i => { MEl.zero with x := describedValue fmts (f == 9) bs i d }), bad := bad }
  else { els := (rowCodes f (padRead rk at_ n)).map (codeEl f), bad := padBad rk at_ n }

/-- A row captured from lane registers at issue (R234): NF elements have scale 1 and the format register `fi`. -/
def regRow (fmts : List Word) (f fi : Nat) (regs : Tbl Word) (n r : Nat) : RowIn :=
  let bs := (List.range (n / 4)).flatMap (fun w => leBytes 4 (tgetD 0 regs (16 * r + w)).toNat)
  if mfNf f then
    let e := nfOf ((fmts[fi]?).getD 0)
    let val (v : Nat) : MEl := if (e.cont == 1) != (f == 9) then MEl.nan else { MEl.zero with x := nfValue e v }
    { els := (rowCodes f bs).map val, bad := false }
  else { els := (rowCodes f bs).map (codeEl f), bad := false }

/-- The positions of a row's stored values (R236, 03 R105); none: a record with bits above its last entry. -/
def rowPositions (rk : Rake) (c : MCfg) (st r : Nat) (count : Nat) : Option (List Nat) × Bool :=
  let n := 2 ^ (cfgSpn c - 1)
  let at_ := c.meta_.toNat + st * 2048 + r * 32
  let v := leNat (padRead rk at_ 32)
  let bad := padBad rk at_ 32
  if v / 2 ^ (3 * count) ≠ 0 then (none, bad)
  else (some ((List.range count).map (fun i => i / n * 8 + field v (3 * i + 2) (3 * i))), bad)

/-- What one row of A brings to a K-step. -/
inductive ARow where
  /-- Elements with their K positions. -/
  | vals (l : List (Nat × MEl))
  /-- A malformed metadata record. -/
  | poison

/-- One K-step of an operation on the elements (R238): `st` the step, `last` whether it promotes. Gives none when a read
consumed an uncorrectable error. A position that sparse metadata does not name forms no term, so it adds no zero of either sign
(03 R105, DESIGN CHOICE, log 90). -/
def kStep (rk : Rake) (o : MOp) (st : Nat) (es : List El) : Option (List El) :=
  match o.kind with
  | .mul n rows cols offA offB lastOn =>
    let c := o.cfg
    let fa := cfgFa c
    let fb := cfgFb c
    let spn := cfgSpn c
    let w := c.fmtw.toNat
    let na := rowBytesA fa spn
    let nb := rowBytesB fa spn
    let rowA (r : Nat) : RowIn :=
      if descSrc c.a0 then regRow o.fmts fa (field w 21 18) o.regA na r else padRow rk o.fmts fa c.a0 c.a1 c.planeA na offA st r
    let rowB (r : Nat) : RowIn :=
      if descSrc c.b0 then regRow o.fmts fb (field w 25 22) o.regB nb r else padRow rk o.fmts fb c.b0 c.b1 c.planeB nb offB st r
    let as := (List.range rows).map (fun r =>
      let x := rowA r
      if spn = 0 then (ARow.vals (mapFrom (fun i e => (i, e)) 0 x.els), x.bad)
      else match rowPositions rk c st r x.els.length with
        | (some ps, bad) => (ARow.vals (ps.zip x.els), x.bad || bad)
        | (none, bad) => (ARow.poison, x.bad || bad))
    let bs := (List.range cols).map rowB
    if as.any (fun a => a.2) || bs.any RowIn.bad then none
    else
      let bArr := (bs.map (fun b => b.els.toArray)).toArray
      let aArr := (as.map (fun a => a.1)).toArray
      let last := lastOn && st + 1 == n
      let elem (key : Nat) (e : El) : El :=
        let i := key / 64
        let j := key % 64
        match aArr[i]?, bArr[j]? with
        | some a, some b =>
          let at_ (k : Nat) : MEl := (b[k]?).getD MEl.zero
          if mfInt fa then
            let sum : Int := match a with
              | .vals l => l.foldl (fun t x => t + x.2.int * (at_ x.1).int) 0
              | .poison => 0
            { e with t := BitVec.ofNat 32 (wrapNat 32 ((e.t.toNat : Int) + sum)) }
          else
            let terms := match a with
              | .vals l => l.flatMap (fun x => prodTerms (fa == 0) x.2 (at_ x.1))
              | .poison => [.nan false]
            let p := (fmtP26.round 0 false (sumExact 0 (fmtP26.value e.p.toNat :: terms)).1).1
            let e := { e with p := BitVec.ofNat 26 p, steps := e.steps + 1 }
            if cfgP c ≤ e.steps || last then promote e else e
        | _, _ => e
      some (mapFrom elem 0 es)
  | _ => some es

/-! ### Issue of matrix operations (R221-R226, R237-R243) -/

/-- TILE. -/
def xTile (w : NOp) : Nat := field (fX w) 16 14
/-- A scalar register, or z. -/
def oS (n : Nat) (even : Bool) : Opnd := .cls false true false false n even
/-- The tile of an operation; ILLEGAL TILE when its coach does not hold it. -/
def heldTile (c : OpCtx) (s : State) (f : Nat → State) : State :=
  let tk := tileKey (coreOf (coachOf s c.k)) (xTile c.w)
  if (tileOf s tk).holder = some c.k then f tk else reject c s iTile 0xFF

/-- V: bits 15:0 of the C register. -/
def xVersion (c : OpCtx) (s : State) : BitVec 16 := (readWord c (coachOf s c.k) (fC c.w) 0 0).extractLsb' 0 16

/-- MCFG (R229). -/
def execMcfg (w : NOp) (s : State) : Out :=
  .next (native w { fmtOk := onlyR w, xOk := field (fX w) 13 0 == 0, a := oS 8 false }
    (fun c s => heldTile c s (fun _ =>
      let co := coachOf s c.k
      let r (j : Nat) : Word := readWord c co (fA w) j 0
      let cfg : MCfg := { a0 := r 0, a1 := r 1, b0 := r 2, b1 := r 3, planeA := r 4, planeB := r 5, fmtw := r 6, meta_ := r 7 }
      if cfgOk cfg then finishGroup c (setCoach s c.k { co with cfgs := tput co.cfgs (xTile w) cfg })
      else reject c s iMdesc 1)) s)

/-- MMETA (R236). -/
def execMmeta (w : NOp) (s : State) : Out :=
  .next (native w { fmtOk := onlyR w, xOk := field (fX w) 13 2 == 0, a := .cls false true false true 1 false }
    (fun c s => heldTile c s (fun _ =>
      let co := coachOf s c.k
      match tget co.cfgs (xTile w) with
      | none => reject c s iMdesc 0xFF
      | some old =>
        let fw := old.fmtw.toNat
        let fmtw := BitVec.ofNat 32 (fw - field fw 17 16 * 65536 + fX w % 4 * 65536)
        let cfg := { old with meta_ := readWord c co (fA w) 0 0, fmtw := fmtw }
        if cfgOk cfg then finishGroup c (setCoach s c.k { co with cfgs := tput co.cfgs (xTile w) cfg })
        else reject c s iMdesc 1)) s)

/-- What the version check finds (R225). -/
inductive Version where
  | accept | wait | illegal
  deriving DecidableEq, Repr

def checkVersion (t : Tile) (v : BitVec 16) : Version :=
  let d := (v - t.ver).toNat
  let ops := t.queue ++ (t.cur.map (fun c => c.1)).toList
  if 2 ^ 15 ≤ d then .illegal
  else if ops.any (fun o => o.v == v) then .illegal
  else if t.queue.length < 16 then .accept
  else if t.queue.any (fun o => o.v == t.ver) || t.cur.isSome then .wait
  else .illegal

/-- The version check of an operation, then `f`. -/
def withVersion (c : OpCtx) (s : State) (tk : Nat) (f : State → State) : State :=
  match checkVersion (tileOf s tk) (xVersion c s) with
  | .illegal => reject c s iVersion 3
  | .wait => stallLanes s c.k c.i c.grp (.tileQueue tk)
  | .accept => f s

/-- The coach's 16 format registers. -/
def fmtList (s : State) (co : Coach) : List Word := (List.range 16).map (fmtReg s co.ctx)

/-- Accept an operation into the tile's queue; the group passes. -/
def acceptOp (c : OpCtx) (s : State) (tk : Nat) (kind : MKind) (cfg : MCfg) (ra rb : Tbl Word) : State :=
  let co := coachOf s c.k
  let t := tileOf s tk
  let o : MOp := { v := xVersion c s, kind := kind, cfg := cfg, fmts := fmtList s co, regA := ra, regB := rb, coach := c.k }
  finishGroup c (setTile s tk { t with queue := t.queue ++ [o] })

def MCfg.zero : MCfg :=
  { a0 := 0, a1 := 0, b0 := 0, b1 := 0, planeA := 0, planeB := 0, fmtw := 0, meta_ := 0 }

/-- The register group of an operand: 8 or 16 words per row (R234). -/
def groupSize (n width : Nat) : Nat := (if n ≤ 32 then 8 else 16) * (64 / width)

/-- Capture a register operand: word w of row r under key 16 r + w. -/
def captureRegs (co : Coach) (first n : Nat) : Tbl Word :=
  let h := if n ≤ 32 then 8 else 16
  ((List.range 64).flatMap (fun r => (List.range h).map (fun w =>
    (16 * r + w, vget co (first + w + h * (r / co.width)) (r % co.width))))).filter (fun e => e.2 != 0)

/-- The failing subtype of an operand's class, alignment and range (R239 step 4). -/
def operandBad (co : Coach) (src : Bool) (code n : Nat) : Option Nat :=
  match codeOf code with
  | .v k =>
    let g := groupSize n co.width
    if !src then some iOperand else if k % g ≠ 0 then some iPair else if co.nregs < k + g then some iReg else none
  | .s _ => if src then some iOperand else none
  | .z => if src then some iOperand else none
  | _ => some iOperand

/-- The end of what an operand's rows, plane and metadata read in the window (R239 step 7). -/
def operandEnd (w0 w1 plane : Word) (nf : Bool) (n off steps rows : Nat) : Nat :=
  let top := descBase w0 + off + (steps - 1) * descT w1 + (rows - 1) * descR w1
  let unit := 2 ^ descRot w0 * 64
  let data := (top + n + unit - 1) / unit * unit
  let desc := if nf then (plane.toNat + (top - descBase w0) / 64 * 2 + 2 + unit - 1) / unit * unit else 0
  if data < desc then desc else data

/-- The common part of MMA and MLOOP after the descriptor: versions, alignment, bounds and acceptance.
The field byte of a frame names B for an OFFB, and 0xFF for the metadata (R239, DESIGN CHOICE, log 90). -/
def issueMul (c : OpCtx) (s : State) (tk : Nat) (cfg : MCfg) (steps rows cols offA offB : Nat) (last : Bool) : State :=
  let co := coachOf s c.k
  let fa := cfgFa cfg
  let fb := cfgFb cfg
  let spn := cfgSpn cfg
  let na := rowBytesA fa spn
  let nb := rowBytesB fa spn
  let srcA := descSrc cfg.a0
  let srcB := descSrc cfg.b0
  withVersion c s tk (fun s =>
    let unit (f : Nat) : Nat := if mfNf f then 64 else 32
    let win := windowOf s co
    let trap (cls fieldNo v : Nat) : State := accessTrap c s cls c.en fieldNo ((lanesOf c.en).map (fun l => (l, v)))
    let metaEnd := cfg.meta_.toNat + (steps - 1) * 2048 + (rows - 1) * 32 + 32
    if !srcA && offA % unit fa != 0 then trap 6 1 offA
    else if !srcB && offB % unit fb != 0 then trap 6 2 offB
    else if !srcA && (decide (2 ^ 24 ≤ offA)
        || decide (win < operandEnd cfg.a0 cfg.a1 cfg.planeA (mfNf fa) na offA steps rows)) then trap 7 1 offA
    else if !srcB && (decide (2 ^ 24 ≤ offB)
        || decide (win < operandEnd cfg.b0 cfg.b1 cfg.planeB (mfNf fb) nb offB steps cols)) then trap 7 2 offB
    else if spn ≠ 0 ∧ win < metaEnd then trap 7 0xFF cfg.meta_.toNat
    else
      let regs (src : Bool) (code n : Nat) : Tbl Word :=
        match src, codeOf code with
        | true, .v k => captureRegs co k n
        | _, _ => []
      acceptOp c s tk (.mul steps rows cols (if srcA then 0 else offA) (if srcB then 0 else offB) last) cfg
        (regs srcA (fA c.w) na) (regs srcB (fB c.w) nb))

/-- MMA (R237-R239). -/
def execMma (w : NOp) (s : State) : Out :=
  .next (native w { fmtOk := onlyR w, xOk := field (fX w) 12 0 == 0, a := .cls true true false true 1 false
                    b := .cls true true false true 1 false, c := oS 1 false }
    (fun c s => heldTile c s (fun tk =>
      let co := coachOf s c.k
      match tget co.cfgs (xTile w) with
      | none => reject c s iMdesc 0xFF
      | some cfg =>
        let na := rowBytesA (cfgFa cfg) (cfgSpn cfg)
        let nb := rowBytesB (cfgFa cfg) (cfgSpn cfg)
        match operandBad co (descSrc cfg.a0) (fA w) na, operandBad co (descSrc cfg.b0) (fB w) nb with
        | some sub, _ => reject c s sub 1
        | none, some sub => reject c s sub 2
        | none, none =>
          issueMul c s tk cfg 1 64 64 (readWord c co (fA w) 0 0).toNat (readWord c co (fB w) 0 0).toNat
            ((fX w).testBit 13))) s)

/-- MLOOP (R237-R239); a misaligned s group is PAIR (log 71). -/
def execMloop (w : NOp) (s : State) : Out :=
  .next (native w { fmtOk := onlyR w, xOk := field (fX w) 13 0 == 0, a := oS 4 true, c := oS 1 false }
    (fun c s => heldTile c s (fun tk =>
      let co := coachOf s c.k
      match tget co.cfgs (xTile w) with
      | none => reject c s iMdesc 0xFF
      | some cfg =>
        let r (j : Nat) : Nat := (readWord c co (fA w) j 0).toNat
        let count := r 2
        let rows := field (r 3) 6 0
        let cols := field (r 3) 14 8
        if descSrc cfg.a0 || descSrc cfg.b0 || decide (2 ^ 24 ≤ r 0) || decide (2 ^ 24 ≤ r 1)
            || decide (count = 0 ∨ 65535 < count) || decide (rows = 0 ∨ 64 < rows) || decide (cols = 0 ∨ 64 < cols)
            || bitOf (r 3) 7 || field (r 3) 31 15 != 0 then reject c s iMdesc 1
        else issueMul c s tk cfg count rows cols (r 0) (r 1) true)) s)

/-- MZERO and MPROM (R240). -/
def simpleTileOp (w : NOp) (kind : MKind) (s : State) : State :=
  native w { fmtOk := onlyR w, xOk := field (fX w) 13 0 == 0, c := oS 1 false }
    (fun c s => heldTile c s (fun tk => withVersion c s tk (fun s => acceptOp c s tk kind MCfg.zero [] []))) s

def execMzero (w : NOp) (s : State) : Out := .next (simpleTileOp w .zero s)
def execMprom (w : NOp) (s : State) : Out := .next (simpleTileOp w .prom s)

/-- Form and column block of MLDA and MSTA (R241). -/
def mForm (w : NOp) : Nat := field (fX w) 13 12
def mCb (w : NOp) : Nat := field (fX w) 11 9

/-- The return-buffer slots of MSTA.REG: its group has 8 registers for each 64 lanes of a row's words (06 R241). -/
def regSlots (width : Nat) : Nat := (8 * (64 / width) + 3) / 4

/-- The checks of MLDA and MSTA. -/
def moveSpec (w : NOp) (width : Nat) (store : Bool) : OpSpec :=
  let x := fX w
  let g : Opnd := .cls true false false false 1 true
  let form := mForm w
  { fmtOk := onlyR w, xOk := field x 8 0 == 0 && form != 3 && (form == 2 || mCb w == 0)
    d := if form = 2 ∧ store = true then g else .unused
    a := if form = 0 then oPairS else if form = 1 then oS 1 false else if store then .unused else g
    b := if form = 2 then .unused else oS 1 false, c := oS 1 false, long := store && form == 2
    slots := if store && form == 2 then some (regSlots width) else none }

/-- The pages that hold bytes of the 64 rows. -/
def footprintPages (va pitch : Nat) : List Nat :=
  ((List.range 64).flatMap (fun i => [(va + i * pitch) / 4096, (va + i * pitch + 255) / 4096])).eraseDups

/-- Translate the pages of a footprint: physical pages with leaves, or the first failure. -/
def pagesXlate (s : State) (k : Nat) (a : Acc) : List Nat → List (Nat × Nat × Dword) →
    Except (Xlat × Nat) (List (Nat × Nat × Dword)) × State
  | [], acc => (.ok acc.reverse, s)
  | p :: ps, acc =>
    match coachXlate s (coachOf s k) (p * 4096) a with
    | (.ok pa leaf, s) => pagesXlate s k a ps ((p, pa, leaf) :: acc)
    | (x, s) => (.error (x, p * 4096), s)

/-- The checks of the memory forms (R242), then acceptance. -/
def moveMemory (c : OpCtx) (s : State) (tk : Nat) (store : Bool) : State :=
  let co := coachOf s c.k
  let global := mForm c.w == 0
  let va := if global then (srcA c co true 0).toNat else (srcA c co false 0).toNat
  let pitch := (srcB c co false 0 0).toNat
  let addrs := (lanesOf c.en).map (fun l => (l, va))
  let end_ := va + 63 * pitch + 256
  if va % 4 ≠ 0 then accessTrap c s 6 c.en 1 addrs
  else if pitch % 4 ≠ 0 then accessTrap c s 6 c.en 2 addrs
  else if global then
    if 2 ^ 57 < end_ then accessTrap c s 7 c.en 1 addrs
    else
      let lines := (List.range 64).flatMap (fun i =>
        (List.range 5).map (fun j => (0, (va + i * pitch) / 64 * 64 + 64 * j)) |>.filter (fun e =>
          decide (e.2 ≤ va + i * pitch + 255)))
      if isDet s co && lines.any (fun e => inWindow s co e.2) then detviol c s 3 c.en 0 va
      else
        match (if store then ownerStop c s lines else none) with
        | some s => s
        | none =>
          let acc := if store then Acc.write else .read
          match pagesXlate s c.k acc (footprintPages va pitch) [] with
          | (.ok pages, s) =>
            let s := if store then claimLines s co (lines.map (fun e => e.2)) else s
            acceptOp c s tk (if store then .stG va pitch pages else .ldG va pitch pages) MCfg.zero [] []
          | (.error (.fault e, va), s) =>
            finishGroup (c.without c.en) (parkLanes s c.k c.en va e (acc.bits false false) false)
          | (.error (.error pa page, va), s) => xlatBad s c.k pa va page
          | (.error _, s) => s
  else if windowOf s co < end_ then accessTrap c s 7 c.en 1 addrs
  else acceptOp c s tk (if store then .stS va pitch else .ldS va pitch) MCfg.zero [] []

/-- The words of MLDA.REG: element (i, c) under key 64 i + c. -/
def captureBlock (co : Coach) (first : Nat) : Tbl Word :=
  ((List.range 64).flatMap (fun i => (List.range 8).map (fun c =>
    (64 * i + c, vget co (first + c + 8 * (i / co.width)) (i % co.width))))).filter (fun e => e.2 != 0)

/-- The register group of a register form: a multiple of its size, within the declared count (R239 step 4, R241). -/
def withGroup (c : OpCtx) (s : State) (fieldNo code : Nat) (f : State → State) : State :=
  if mForm c.w ≠ 2 then f s
  else
    let co := coachOf s c.k
    let g := 8 * (64 / co.width)
    if code % g ≠ 0 then reject c s iPair fieldNo else if co.nregs < code + g then reject c s iReg fieldNo else f s

/-- MLDA (R241, R242). -/
def execMlda (w : NOp) (s : State) : Out :=
  .next (native w (moveSpec w (coachOf s s.iss.coach).width false)
    (fun c s => heldTile c s (fun tk => withGroup c s 1 (fA w) (fun s => withVersion c s tk (fun s =>
      if mForm w = 2 then
        let t := captureBlock (coachOf s c.k) (fA w)
        acceptOp c s tk (.ldR (mCb w) (t.map (fun e => (e.1 + 8 * mCb w, e.2)))) MCfg.zero [] []
      else moveMemory c s tk false)))) s)

/-- MSTA (R241, R242). -/
def execMsta (w : NOp) (s : State) : Out :=
  .next (native w (moveSpec w (coachOf s s.iss.coach).width true)
    (fun c s => heldTile c s (fun tk => withGroup c s 0 (fD w) (fun s => withVersion c s tk (fun s =>
      if mForm w = 2 then
        let co := coachOf s c.k
        let sl := slotOf co c (regSlots co.width) [] [] noFlags
        let v := xVersion c s
        let sl := { sl with lanes := co.all, tile := some (tk, v.toNat) }
        acceptOp c (setCoach s c.k (addSlot co sl)) tk (.stR (mCb w)) MCfg.zero [] []
      else moveMemory c s tk true)))) s)

/-- The checks of MVER. -/
def mverSpec (w : NOp) (d : Bool) (cReg long : Bool) : OpSpec :=
  { fmtOk := onlyR w, xOk := field (fX w) 13 3 == 0, d := if d then .cls true true false true 1 false else .unused
    c := if cReg then oS 1 false else .unused, long := long }

/-- MVER.READ (R243). -/
def execMverRead (w : NOp) (s : State) : Out :=
  .next (native w (mverSpec w true false true)
    (fun c s => heldTile c s (fun tk =>
      deliver c false (fun _ => ((tileOf s tk).ver.setWidth 64, 0)) s)) s)

/-- MVER.ACQ (R222, R243). -/
def execMverAcq (w : NOp) (s : State) : Out :=
  .next (native w (mverSpec w true false false)
    (fun c s =>
      let tk := tileKey (coreOf (coachOf s c.k)) (xTile w)
      let t := tileOf s tk
      let give (v : Dword) (s : State) : State := deliver c false (fun _ => (v, 0)) s
      if 2 ≤ ((heldTiles s c.k).filter (· != tk)).length then reject c s iTile 0xFF
      else if t.holder = some c.k then give (t.ver.setWidth 64) s
      else if t.holder.isSome then give 0xFFFFFFFF s
      else
        let ctx := (coachOf s c.k).ctx
        let t' := { t with holder := some c.k, queue := [], cur := none }
        let s :=
          if t.lastCtx.isSome ∧ t.lastCtx ≠ some ctx then
            setTile s tk { t' with t := [], p := [], steps := [], undef := none }
          else undefTile (setTile s tk t') tk
        give (t.ver.setWidth 64) (modCoach s c.k (fun co => { co with cfgs := tdel co.cfgs (xTile w) }))) s)

/-- MVER.REL (R243). -/
def execMverRel (w : NOp) (s : State) : Out :=
  .next (native w (mverSpec w false false false)
    (fun c s => heldTile c s (fun tk =>
      let t := tileOf s tk
      if t.cur.isNone && t.queue.isEmpty then finishGroup c (releaseTile s c.k (xTile w))
      else sleepIn c (.release (xTile w)) s)) s)

/-- MVER.WAIT (R226, R243). -/
def execMverWait (w : NOp) (s : State) : Out :=
  .next (native w (mverSpec w false true false)
    (fun c s => heldTile c s (fun tk =>
      let t := tileOf s tk
      let v := xVersion c s
      if versionPassed t v then finishGroup c s
      else if t.idle then raiseTrap (unpop c s) c.k (opTrap c.i 1 iVersion c.en c.en (versionArea s tk))
      else sleepIn c (.version (xTile w) v) s)) s)

/-! ### The engine (R224, R227, R241, R247) -/

/-- The engine works for a coach while its rake is not halted; in a halt, until the results that its stop waits for have come
(11 R404, R413, log 49). -/
def engineRuns (s : State) (k : Nat) : Bool :=
  match tget s.coaches k with
  | some co => ((tget s.rakes co.rake).map (fun r => r.halt.isNone
      || co.halted.isNone && co.rbuf.any (fun sl => sl.tile.isSome && !sl.returned))).getD false
  | none => false

/-- Read a row of 256 bytes through the pages held since issue: the bytes, or a poisoned line. -/
def engineRead (s : State) (k : Nat) (pages : List (Nat × Nat × Dword)) (va n : Nat) : Except Nat (List Byte) × State :=
  let parts := if va % 4096 + n ≤ 4096 then [(va, n)] else [(va, 4096 - va % 4096), (va / 4096 * 4096 + 4096, va % 4096 + n - 4096)]
  parts.foldl (fun (acc : Except Nat (List Byte) × State) p =>
    match acc.1, tget pages (p.1 / 4096) with
    | .ok bs, some (pa, leaf) =>
      let a := pa / 4096 * 4096 + p.1 % 4096
      let (x, s) := coachRead acc.2 k a p.2 leaf false false
      match poisonAt s (coachPath s (coachOf s k) leaf false false).unit a p.2 with
      | some line => (.error line, s)
      | none => (.ok (bs ++ x), s)
    | _, _ => acc) (.ok [], s)

/-- Write bytes through the pages held since issue. -/
def engineWrite (s : State) (k : Nat) (pages : List (Nat × Nat × Dword)) (va : Nat) (bs : List Byte) : State :=
  let m := 4096 - va % 4096
  let put (s : State) (va : Nat) (bs : List Byte) : State :=
    match bs, tget pages (va / 4096) with
    | [], _ => s
    | bs, some (pa, leaf) => coachWrite s k (pa / 4096 * 4096 + va % 4096) bs leaf false false
    | _, none => s
  put (put s va (bs.take m)) (va + m) (bs.drop m)

/-- Read all rows of a load. -/
def engineRows (k : Nat) (pages : List (Nat × Nat × Dword)) (va pitch : Nat) :
    List Nat → State → List Byte → Except Nat (List Byte) × State
  | [], s, acc => (.ok acc, s)
  | i :: is, s, acc =>
    match engineRead s k pages (va + i * pitch) 256 with
    | (.ok bs, s) => engineRows k pages va pitch is s (acc ++ bs)
    | (.error line, s) => (.error line, s)

/-- Elements from 16,384 row-major bytes. -/
def elsOfBytes (bs : List Byte) : List El :=
  (chunks 4 4096 bs).map (fun c => { t := BitVec.ofNat 32 (leNat c), p := 0, steps := 0 })

/-- The bytes of row i. -/
def rowOut (es : List El) (i : Nat) : List Byte :=
  ((es.drop (64 * i)).take 64).flatMap (fun e => leBytes 4 e.t.toNat)

/-- The effect of a whole-operation kind on its tile. -/
def engineOp (s : State) (tk : Nat) (o : MOp) : State :=
  let t := tileOf s tk
  let co := coachOf s o.coach
  match o.kind with
  | .mul .. => s
  | .zero => setTile s tk { t with t := [], p := [], steps := [], undef := none }
  | .prom => setTile s tk (setEls t ((tileEls t).map (fun e => if 0 < e.steps then promote e else e)))
  | .ldG va pitch pages =>
    match engineRows o.coach pages va pitch (List.range 64) s [] with
    | (.ok bs, s) => setTile s tk (setEls t (elsOfBytes bs))
    | (.error line, s) => memerr s o.coach line
  | .stG va pitch pages =>
    (List.range 64).foldl (fun s i => engineWrite s o.coach pages (va + i * pitch) (rowOut (tileEls t) i)) s
  | .ldS off pitch =>
    match tget s.rakes co.rake with
    | none => s
    | some r =>
      if (List.range 64).any (fun i => padBad r (off + i * pitch) 256) then padError s o.coach
      else setTile s tk (setEls t (elsOfBytes ((List.range 64).flatMap (fun i => padRead r (off + i * pitch) 256))))
  | .stS off pitch =>
    modRake s co.rake (fun r => (List.range 64).foldl (fun r i => padWrite r (off + i * pitch) (rowOut (tileEls t) i)) r)
  | .ldR cb ws =>
    setTile s tk (setEls t (mapFrom (fun key e =>
      if key % 64 / 8 = cb then { t := tgetD 0 ws key, p := 0, steps := 0 } else e) 0 (tileEls t)))
  | .stR cb =>
    let es := (tileEls t).toArray
    modCoach s o.coach (fun co =>
      let fill (sl : Slot) : Slot :=
        if sl.tile = some (tk, o.v.toNat) ∧ sl.returned = false then
          let first := fD (NOp.ofWord sl.opword)
          let word (i c : Nat) : Word := ((es[64 * i + 8 * cb + c]?).map El.t).getD 0
          { sl with vw := (List.range 64).flatMap (fun i => (List.range 8).map (fun c =>
              (64 * (first + c + 8 * (i / co.width)) + i % co.width, word i c))) }
        else sl
      { co with rbuf := co.rbuf.map fill })

/-- The operation reads elements that are there before it; the others write every element. -/
def readsTile : MKind → Bool
  | .zero => false
  | .ldG .. => false
  | .ldS .. => false
  | _ => true

/-- A read of an element that cannot be corrected: the elements become undefined, and the coach that holds the tile takes the
error (12 R468). -/
def tileError (s : State) (tk : Nat) : State :=
  let s := { s with upsets := s.upsets.filter (· != .tile tk) }
  match (tileOf s tk).holder with
  | some k =>
    coachError (logConsumed (undefTile s tk) k srcTiles (tk / 640) 0) k 1 0
  | none => undefTile s tk

/-- What an operation does when it begins: its effect, or the error of an element that it reads. Writing every element ends an
error. -/
def startOp (s : State) (tk : Nat) (o : MOp) : State :=
  if !s.upsets.contains (.tile tk) then engineOp s tk o
  else if readsTile o.kind then tileError s tk
  else engineOp { s with upsets := s.upsets.filter (· != .tile tk) } tk o

/-- MATRIX_OP_START (R224, R240, R241): the queued operation that expects VER begins; one that is a single boundary has its
effect now. -/
def execMatrixOpStart (tile : Nat) (s : State) : Out :=
  let t := tileOf s tile
  .next (match t.cur, t.queue.find? (fun o => o.v == t.ver) with
    | none, some o =>
      if engineRuns s o.coach then
        startOp (setTile s tile { t with queue := t.queue.filter (fun x => x.v != o.v), cur := some (o, 0) }) tile o
      else s
    | _, _ => s)

/-- A multiplication has steps left. -/
def hasStep (s : State) (t : Tile) : Bool :=
  match t.cur with
  | some (o, n) => (match o.kind with
    | .mul steps _ _ _ _ _ => decide (n < steps) && engineRuns s o.coach
    | _ => false)
  | none => false

/-- The tile that the array of a core serves next: ascending, after the one it served last (R227). -/
def nextTile (s : State) (core : Nat) : Option Nat :=
  let last := tgetD 7 s.lastTile core
  ((List.range 8).map (fun i => (last + 1 + i) % 8)).find? (fun k => hasStep s (tileOf s (tileKey core k)))

/-- K_STEP (R227, R238): one K-step of one tile. A poisoned word of the scratchpad has no physical line address: ZINFO is 0 (R247,
DESIGN CHOICE, log 90). -/
def execKStep (core : Nat) (s : State) : Out :=
  .next (match nextTile s core with
    | none => s
    | some k =>
      let tk := tileKey core k
      let t := tileOf s tk
      match t.cur with
      | none => s
      | some (o, n) =>
        if s.upsets.contains (.tile tk) then tileError s tk
        else match tget s.rakes (coachOf s o.coach).rake with
        | none => s
        | some r =>
          match kStep r o n (tileEls t) with
          | none => padError s o.coach
          | some es => setTile { s with lastTile := tput s.lastTile core k } tk { setEls t es with cur := some (o, n + 1) })

/-- The operation in progress has done all its work. -/
def opDone (t : Tile) : Bool :=
  match t.cur with
  | some (o, n) => (match o.kind with
    | .mul steps _ _ _ _ _ => decide (steps ≤ n)
    | _ => true)
  | none => false

/-- MATRIX_OP_COMPLETE (R224): VER advances, an MSTA.REG result has returned, and those who wait look again. -/
def execMatrixOpComplete (tile : Nat) (s : State) : Out :=
  let t := tileOf s tile
  .next (match t.cur with
    | none => s
    | some (o, _) =>
      if opDone t && engineRuns s o.coach then
        let s := setTile s tile { t with cur := none, ver := t.ver + 1 }
        let s := modCoach s o.coach (fun co => { co with rbuf := co.rbuf.map (fun sl =>
          if sl.tile = some (tile, o.v.toNat) then { sl with returned := true } else sl) })
        checkCoach (wakeReady s o.coach) o.coach
      else s)

end Sys2Proof.Machine
end

