-- ==== Sys2Proof/Machine/System.lean ====
section
/-! DEFINITION. Leases (05 R209, 10 R379-R382), system registers (05 R210), containment zones (05 R211-R214), SPAWN, DBGBRK
and DTURN (05 R216-R218). -/
namespace Sys2Proof.Machine

/-! ### Pools and leases (10 R379-R382) -/

/-- The coaches that are resident in a pool and hold a lease there: not those whose lanes have all exited (05 R163). -/
def poolCoaches (s : State) (unit : Nat) : List (Nat × Coach) :=
  s.coaches.filter (fun e => !lanesOver e.2 && match e.2.place with
    | some (core, _, _) => l1Unit s core == unit
    | none => false)

/-- The ceiling of a pool (R381). -/
def poolCeiling (s : State) (unit : Nat) : Nat :=
  if unit < 160 then (partOfCluster s (unit / 8)).ceil else (partOfCluster s (unit - 160)).ceilFused

/-- Sum of leases. -/
def leaseSum (l : List (Nat × Coach)) : Nat := (l.map (fun e => e.2.leaseG)).foldl (· + ·) 0

/-- LEASECAP of a region. -/
def leaseCap (s : State) (rg : Nat) : Nat := ((tget s.regions rg).map Region.leasecap).getD 0

/-- The active set of a pool breaks a limit that counts a coach's lease. -/
def leaseBreaks (s : State) (k : Nat) : Bool :=
  let co := coachOf s k
  let unit := l1Unit s (coreOf co)
  let act := (poolCoaches s unit).filter (fun e => e.2.active)
  decide (poolCeiling s unit < leaseSum act)
  || decide (leaseCap s co.region < leaseSum (act.filter (fun e => e.2.region == co.region)))

/-- A coach leaves the active set and waits (R382, R383). -/
def leaveActive (s : State) (k : Nat) (head held : Bool) : State :=
  modCoach s k (fun co => { co with active := false, waitSince := cycleOf s (coreOf co), atHead := head, heldBack := held })

/-- A change of the lease takes effect at once; when it breaks a limit, the coach waits (R382). -/
def setLease (s : State) (k : Nat) (f : Coach → Coach) : State :=
  let s := modCoach s k f
  if (coachOf s k).active && leaseBreaks s k then leaveActive s k false false else s

/-- LEASE.DECL (05 R209). -/
def execLeaseDecl (w : NOp) (s : State) : Out :=
  .next (native w { fmtOk := shortForm w, xOk := fX w == 0 && fXS w == 0, a := if fI w then .unused else oAny }
    (fun c s =>
      let co := coachOf s c.k
      let g := barValue c co
      if g = 0 ∨ 128 < g then reject c s iLease (if fI w then 4 else 1)
      else finishGroup c (setLease s c.k (fun co => { co with leaseG := g, measured := false }))) s)

/-- LEASE.MEAS (05 R209, 10 R380). -/
def execLeaseMeas (w : NOp) (s : State) : Out :=
  .next (native w { fmtOk := shortForm w, xOk := (if fKind w = 0 then fX w else fXS w) == 1, immOk := !fI w || fImm w == 0 }
    (fun c s => finishGroup c (setLease s c.k (fun co =>
      { co with leaseG := 8, measured := true, est := 8, mi := 0, alloc := 0, vh := 0 }))) s)

/-! ### SYSRD and SYSWR (05 R210) -/

/-- The registers of 64 bits. -/
def sysWide (n : Nat) : Bool := n == 0x10 || n == 0x11 || n == 0x12 || n == 0x21

/-- The value of a system register; none where none is assigned. -/
def sysValue (s : State) (co : Coach) (n : Nat) : Option Dword :=
  match ctxOf s co with
  | none => none
  | some x =>
    if n < 16 then some ((fmtReg s co.ctx n).setWidth 64)
    else match n with
      | 0x10 => some x.trapent
      | 0x11 => some x.emulent
      | 0x12 => some x.framebase
      | 0x20 => some (co.zcause.setWidth 64)
      | 0x21 => some co.zinfo
      | 0x22 => some (BitVec.ofNat 64 co.zones.length)
      | 0x30 => some (if x.dbgen then 1 else 0)
      | 0x31 => some (x.tags.setWidth 64)
      | _ => none

/-- The context after a write of a register that software may write: none when the value is rejected. -/
def sysWrite (x : Ctx) (n : Nat) (v : Dword) : Option Ctx :=
  if n < 16 then
    (if fmtValid (loOf v) then some { x with fmts := setAt x.fmts n (loOf v) } else none)
  else if n = 0x10 then some { x with trapent := v }
  else if n = 0x11 then some { x with emulent := v }
  else if v.toNat % 256 = 0 then some { x with framebase := v }
  else none

/-- A number that SYSRD and SYSWR do not assign, and one that only SYSRD takes. -/
def sysAssigned (n : Nat) : Bool := decide (n ≤ 0x12) || n == 0x20 || n == 0x21 || n == 0x22 || n == 0x30 || n == 0x31
def sysReadOnly (n : Nat) : Bool := decide (0x12 < n)

/-- SYSRD. -/
def execSysrd (w : NOp) (s : State) : Out :=
  let n := fX w % 4096
  .next (native w { fmtOk := onlyR w, xOk := onlyBits 0xFFF (fX w), d := oVar (sysWide n), long := true }
    (fun c s =>
      match (if sysAssigned n then sysValue s (coachOf s c.k) n else none) with
      | none => reject c s iSysreg 0xFF
      | some v => deliver c (sysWide n) (fun _ => (v, 0)) s) s)

/-- The checks of SYSWR that its value does not decide. -/
def sysOwn (n : Nat) : Option (Nat × Nat) :=
  if !sysAssigned n then some (iSysreg, 0xFF) else if sysReadOnly n then some (iSprro, 0xFF) else none

/-- SYSWR: D receives 0 when the value is accepted, 1 when it is rejected. -/
def execSyswr (w : NOp) (s : State) : Out :=
  let n := fX w % 4096
  .next (native w { fmtOk := onlyR w, xOk := onlyBits 0xFFF (fX w), d := .cls true true false true 1 false
                    a := if sysWide n then oPair else oAny, own := sysOwn n }
    (fun c s =>
      let co := coachOf s c.k
      if (sysOwn n).isSome then reject c s ((sysOwn n).getD (0, 0)).1 ((sysOwn n).getD (0, 0)).2
      else
        let v := srcA c co (sysWide n) ((lowLane c.en).getD 0)
        match (ctxOf s co).bind (fun x => sysWrite x n v) with
        | some x => deliver c false (fun _ => (0, 0)) { s with ctxs := tput s.ctxs co.ctx x }
        | none => deliver c false (fun _ => (1, 0)) s) s)

/-! ### Containment zones (05 R211-R214) -/

/-- CZOPEN: the coach's next zone; one that has unwound already unwinds here (05 R213). -/
def execCzopen (w : NOp) (s : State) : Out :=
  .next (native w { fmtOk := onlyR w, xOk := fX w == 0, a := oPairVS }
    (fun c s =>
      let co := coachOf s c.k
      if 8 ≤ co.zones.length then reject c s iZone 0xFF
      else
        let k := co.zoneCount + 1
        let handler := (srcA c co true ((lowLane c.en).getD 0)).extractLsb' 0 57
        let z : Zone := { handler := handler, k := k, rstacks := co.lanes.map (fun x => (x.held, x.sp)) }
        let s := modRake s co.rake (fun r =>
          match co.zones with
          | p :: _ => if (tget r.zoneParent k).isSome then r else { r with zoneParent := tput r.zoneParent k p.k }
          | [] => r)
        let s := finishGroup c (modCoach s c.k (fun co => { co with zones := z :: co.zones, zoneCount := k }))
        match (tget s.rakes co.rake).bind (fun r => r.unwound.find? (fun u => u.1 == k)) with
        | some (_, cause, info) => unwindCoach s c.k k cause.toNat info.toNat
        | none => s) s)

/-- CZCLOSE. -/
def execCzclose (w : NOp) (s : State) : Out :=
  .next (native w { fmtOk := onlyR w, xOk := fX w == 0 }
    (fun c s =>
      if (coachOf s c.k).zones.isEmpty then reject c s iZone 0xFF
      else finishGroup c (modCoach s c.k (fun co => { co with zones := co.zones.drop 1 }))) s)

/-! ### SPAWN, DBGBRK, DTURN (05 R216-R218) -/

/-- SPAWN: a release at device scope, then the child's launch; staged in a deterministic region (10 R393). The enabled lanes
park together where the block does not translate as the operation issues; the read that follows is the Damith's own (log
76). -/
def execSpawn (w : NOp) (s : State) : Out :=
  .next (native w { fmtOk := onlyR w, xOk := fX w == 0, a := oPairVS, b := oPairZ }
    (fun c s =>
      let co := coachOf s c.k
      let l := (lowLane c.en).getD 0
      let block := (srcA c co true l).toNat
      let args := (srcB c co true 0 l).toNat
      match checkAccess c s ((lanesOf c.en).map (fun l => (l, block))) outOfGlobal 256 with
      | some s => s
      | none =>
        if isDet s co then
          if !detRoom co 2 false then stallHolding c s .bundleRoom
          else togetherAt c s block .read (fun _ s => finishGroup c (stage s c.k [.spawn block args]))
        else togetherAt c s block .read (fun _ s =>
          let s := releaseGlobal s (l1Unit s (coreOf co)) co.ctx 4
          spawnRegion (finishGroup c s) co.region block args)) s)

/-- DBGBRK: DBG halts the rake when a debugger is attached; else it acts as NOP. -/
def execDbgbrk (w : NOp) (s : State) : Out :=
  .next (native w { fmtOk := onlyR w, xOk := onlyBits 0xFF (fX w) }
    (fun c s =>
      if ((ctxOf s (coachOf s c.k)).map Ctx.dbgen).getD false then
        raiseTrap s c.k (opTrap c.i 14 0 c.en 0 [(64, 1, fX w % 256)])
      else finishGroup c s) s)

/-- DTURN: the coach's bundle ends in a deterministic region; NOP elsewhere. -/
def execDturn (w : NOp) (s : State) : Out :=
  .next (native w { fmtOk := onlyR w, xOk := fX w == 0 }
    (fun c s => withRoom c s (fun s => finishGroup c (endsBundle s c.k))) s)

end Sys2Proof.Machine
end

