-- ==== Sys2Proof/Machine/Issue.lean ====
section
/-! DEFINITION. Which operation a coach issues: groups and pairs (01 R17, 02 R47, R52, 04 R110, R152), stalls (01 R15),
fetching the operation (08 R308), and what is counted at its issue (10 R380, R413). -/
namespace Sys2Proof.Machine

/-! ### Stalls (01 R15) -/

/-- The port of a queue register has a response, or one is due (05 R206): a pop that waits there is QEMPTY once neither
holds. -/
def portOwes (s : State) (co : Coach) (q : Nat) : Bool :=
  ((tget co.ports q).bind (fun pk => tget s.ports pk)).any (fun p => !p.resps.isEmpty || p.owes)

/-- Whether a stall still stands. A group at a full tile queue waits for an entry whatever its tile does meanwhile (DEDUCED
from 06 R225, log 90). -/
def stallStands (s : State) (co : Coach) (st : Stall) : Bool :=
  match st.kind with
  | .pop q got => got.isNone && (decide (q < 8) || portOwes s co q)
  | .push .. => true
  | .portPush .. => true
  | .marker => !allReturned co && !co.rbuf.any (slotStuck s)
  | .batches n _ => decide (n < unfinished s co)
  | .tileQueue tk => decide (16 ≤ (tileOf s tk).queue.length)
  | .port q => match tget co.ports q with
    | some key => !portIdle s key
    | none => false
  | .freePort die => decide (256 ≤ freePort s die)
  | .turn => !co.turnGranted
  | .bundleRoom => !detRoom co 1 true
  | .faultRoom page => !faultRoom s co.ctx page (coreOf co)

/-- A stall that stops every group: a marker's wait, a push left by a commit, and in a deterministic region a wait for
batches, for the turn or for room, and a retry (10 R389, R395). -/
def stallsAll (s : State) (co : Coach) (st : Stall) : Bool :=
  stallStands s co st &&
  (st.lanes == BitVec.allOnes 64
    || (match st.kind with
      | .marker => true
      | .turn => true
      | .bundleRoom => true
      | .batches _ _ => isDet s co
      | .faultRoom _ => isDet s co
      | _ => false))

/-- The lanes that stand at a stalled operation. -/
def stalledLanes (s : State) (co : Coach) : Mask :=
  co.stalls.foldl (fun m st => if stallStands s co st then m ||| (st.lanes &&& lanesAt co st.ga st.step) else m) 0

/-- In a deterministic region a coach with a lane that sleeps or is parked issues nothing (10 R389). -/
def detWaits (s : State) (co : Coach) : Bool :=
  isDet s co && co.lanes.any (fun x => x.state = .sleeping || x.state = .parked)

/-! ### Groups (01 R17) -/

/-- The program counters at which lanes of a mask stand. -/
def pcsOf (co : Coach) (m : Mask) : List (GAddr × Nat) :=
  ((lanesOf m).map (fun l => ((laneOf co l).ga, (laneOf co l).step))).eraseDups

/-- The larger of two groups: more lanes, then the lower guest address, then the lower step. -/
def largerGroup (a b : Mask × GAddr × Nat) : Mask × GAddr × Nat :=
  let n := countLanes a.1
  let m := countLanes b.1
  if m < n then a else if n < m then b
  else if a.2.1.toNat < b.2.1.toNat then a else if b.2.1.toNat < a.2.1.toNat then b
  else if a.2.2 ≤ b.2.2 then a else b

/-- The largest group of the lanes of a mask. -/
def bestGroup (co : Coach) (m : Mask) : Option (Mask × GAddr × Nat) :=
  match (pcsOf co m).map (fun p => (lanesAt co p.1 p.2 &&& m, p.1, p.2)) with
  | [] => none
  | g :: gs => some (gs.foldl largerGroup g)

/-- The coach may issue: resident, in the active set, no trap pending, not halted, nothing that stops all its groups. -/
def coachOpen (s : State) (co : Coach) : Bool :=
  co.place.isSome && co.active && co.trap.isNone && co.halted.isNone && !detWaits s co
  && !co.stalls.any (stallsAll s co)
  && !(((tget s.ctxs co.ctx).map Ctx.saved).getD true)

/-- The lanes that can issue. -/
def issuable (s : State) (co : Coach) : Mask := activeSet co &&& ~~~(stalledLanes s co)

/-- The coach has a group to issue. -/
def coachReady (s : State) (k : Nat) : Bool :=
  let co := coachOf s k
  coachOpen s co && issuable s co != 0

/-! ### Pairs (01 R17 step 4) -/

/-- Vector-pipeline operations (04 R110): every one of chapter 4 but the functions, the trees, RAND, RSEED and SPR. -/
def vectorOp (op : Nat) : Bool :=
  decide (0x10 ≤ op ∧ op ≤ 0x2E) || decide (0x40 ≤ op ∧ op ≤ 0x47) || decide (0x4F ≤ op ∧ op ≤ 0x56)
  || decide (0x70 ≤ op ∧ op ≤ 0x74) || decide (0x80 ≤ op ∧ op ≤ 0x82) || decide (0x85 ≤ op ∧ op ≤ 0x89)

/-- Whether sources A, B and C, and D, are pairs in a vector operation. -/
def pairShape (op : Nat) (w : NOp) : Bool × Bool × Bool × Bool :=
  let wide := tyWide (fTy w)
  if op = 0x2C then (true, true, false, true)
  else if op = 0x2D then (false, false, true, true)
  else if op = 0x28 then (true, false, false, true)
  else if op = 0x70 then (tyWide (fOpx w % 16), false, false, wide)
  else if op = 0x81 ∨ op = 0x85 then (false, false, false, true)
  else if op = 0x89 then (true, false, false, true)
  else if op = 0x19 then (wide, wide, false, false)
  else if op = 0x1A then (wide, wide, false, wide)
  else if 0x1B ≤ op ∧ op ≤ 0x1E then (wide, wide, false, wide)
  else if 0x1F ≤ op ∧ op ≤ 0x23 ∨ op = 0x80 then (wide, false, false, wide)
  else if op = 0x24 then (wide, false, wide, wide)
  else if 0x25 ≤ op ∧ op ≤ 0x27 then (wide, false, false, false)
  else if op = 0x29 then (wide, false, false, wide)
  else (false, false, false, false)

/-- The registers of an operand, as codes: the class and number of each word. -/
def codeRegs (code : Nat) (pair : Bool) : List Nat :=
  match codeOf code with
  | .v _ => if pair then [code, code + 1] else [code]
  | .s _ => if pair then [code, code + 1] else [code]
  | .q _ => [code]
  | _ => []

/-- An operation's register sources, mask sources, and the registers and masks that it writes. -/
structure Ports where
  srcs : List Nat
  masks : List Nat
  dsts : List Nat
  maskOut : List Nat
  deriving DecidableEq, Repr

/-- An operation that reads its A field (04 R111 onwards). -/
def usesA (op : Nat) (w : NOp) : Bool :=
  if op = 0x29 then fKind w == 0
  else if op = 0x89 then !(fX w).testBit 4
  else !(op == 0x2A || op == 0x2B || decide (0x85 ≤ op ∧ op ≤ 0x88))

/-- An operation that reads its B field in F-R. -/
def usesB (op : Nat) (w : NOp) : Bool :=
  if op = 0x71 then (fOpx w).testBit 5
  else if op = 0x74 then !(fOpx w).testBit 0
  else !([0x18, 0x25, 0x26, 0x27, 0x29, 0x47, 0x4F, 0x70, 0x73, 0x81, 0x82, 0x85, 0x86, 0x87, 0x88, 0x89].contains op)

/-- An operation that reads its C field in F-R. -/
def usesC (op : Nat) (w : NOp) : Bool :=
  if op = 0x1A then !(fOpx w).testBit 4
  else [0x14, 0x15, 0x24, 0x2D, 0x2E, 0x43, 0x52, 0x55, 0x56].contains op

/-- An operation that writes the register of its D field. -/
def usesD (op : Nat) (w : NOp) : Bool :=
  if op = 0x19 ∨ op = 0x46 then !cmpMsk w
  else if op = 0x85 then (fX w).testBit 12
  else if op = 0x89 then (fX w).testBit 4
  else op != 0x88

def portsOf (op : Nat) (w : NOp) : Ports :=
  let (pa, pb, pc, pd) := pairShape op w
  let x := fX w
  let used (u : Bool) (l : List Nat) : List Nat := if u then l else []
  let regs : List Nat :=
    match fKind w with
    | 0 => used (usesA op w) (codeRegs (fA w) pa) ++ used (usesB op w) (codeRegs (fB w) pb)
        ++ used (usesC op w) (codeRegs (fC w) pc)
    | 1 => used (usesA op w) (codeRegs (fA w) pa) ++ (if op = 0x24 then codeRegs (fD w) pd else [])
    | _ => []
  let cmp := (op == 0x19 || op == 0x46) && cmpMsk w
  let pred := if w.pm = 0 then [] else [w.pm.toNat]
  let masks : List Nat :=
    if cmp && cmpCmb w != 0 then [cmpMk w]
    else if op = 0x1A ∧ (fOpx w).testBit 4 = true then [fOpx w % 16]
    else if op = 0x85 then [field x 7 4, x % 16]
    else if op = 0x86 ∨ op = 0x87 ∨ (op = 0x89 ∧ x.testBit 4 = true) then [x % 16]
    else []
  let maskOut : List Nat :=
    if cmp then [cmpMk w]
    else if op = 0x81 ∧ x.testBit 4 = true then [x % 16]
    else if op = 0x85 then [field x 11 8]
    else if op = 0x88 ∨ (op = 0x89 ∧ x.testBit 4 = false) then [x % 16]
    else []
  { srcs := regs.eraseDups, masks := ((pred ++ masks).filter (fun m => m != 0)).eraseDups
    dsts := if op = 0x2B then [fD w + 1] else used (usesD op w) (codeRegs (fD w) pd), maskOut := maskOut.filter (fun m => m != 0) }

/-- A register code names a lane register. -/
def isLaneCode (c : Nat) : Bool := decide (c < 0xC0)
/-- A register code names a queue register. -/
def isQueueCode (c : Nat) : Bool := decide (0xE0 ≤ c ∧ c < 0xF0)

/-- Two operation words issue as the pair of A and B; slots outstanding bar marked ones (02 R52). -/
def pairOk (outstanding : Bool) (wa wb : Dword) : Bool :=
  let oa := opOf wa
  let ob := opOf wb
  let a := NOp.ofWord wa
  let b := NOp.ofWord wb
  let pa := portsOf oa a
  let pb := portsOf ob b
  vectorOp oa && vectorOp ob
  && !(pa.srcs.any isQueueCode) && !(pb.srcs.any isQueueCode)
  && decide (((pa.srcs ++ pb.srcs).filter isLaneCode).eraseDups.length ≤ 4)
  && decide (((pa.masks ++ pb.masks).eraseDups).length ≤ 2)
  && !pb.srcs.any (fun r => pa.dsts.contains r) && !pb.masks.any (fun m => pa.maskOut.contains m)
  && !(pa.dsts.any (fun r => isQueueCode r && pb.dsts.contains r))
  && !(outstanding && (a.sw || b.sw))

/-! ### Fetching the operation -/

/-- What stands at a program counter of a coach. -/
inductive Fetched where
  /-- An operation: its word, the length of its guest instruction, the operations of its expansion. -/
  | op (w : Dword) (len count : Nat)
  /-- The guest instruction is to be decoded. -/
  | decode
  /-- The step lies past the expansion. -/
  | past
  | bad (e : NoFetch)
  deriving DecidableEq, Repr

/-- The operation at a program counter: from its impression, or a native word of slot 0. A later step of slot 0 belongs to
an expansion of the system plate, which is decoded again when its impression is gone (08 R311, R320). -/
def fetchOp (s : State) (co : Coach) (ga : GAddr) (step : Nat) : Fetched × State :=
  match findImp s co ga step with
  | some i =>
    if i.emul.isSome then (.decode, s)
    else match i.ops[step]? with
      | some w => (.op w i.len i.ops.length, s)
      | none => (.past, s)
  | none =>
    if (plateOf s co).isSome then (.decode, s)
    else if step ≠ 0 then (.decode, s)
    else if ga.toNat % 8 ≠ 0 then (.bad .align, s)
    else match fetchBytes s co ga.toNat 8 with
      | (.ok bs, s) => (.op (BitVec.ofNat 64 (leNat bs)) 8 1, s)
      | (.error e, s) => (.bad e, s)

/-- The word at a program counter, looked at without any effect, for the pairing rule. -/
def peekWord (s : State) (co : Coach) (ga : GAddr) (step : Nat) : Option Dword :=
  match (fetchOp s co ga step).1 with
  | .op w _ _ => if 0xE0 ≤ opOf w ∧ opOf w ≤ 0xFE then (systemPlane s w).bind (fun ops => ops[step]?) else some w
  | .decode =>
    match (decodeGuest s co ga.toNat).1 with
    | .ok (.ops ops ..) => ops[step]?
    | _ => none
  | _ => none

/-- GUNIT of the operations at a guest address (08 R307): the plate's, or the system plate's in its expansions. -/
def unitAt (s : State) (co : Coach) (ga : GAddr) (step : Nat) : Nat :=
  match plateOf s co with
  | some p => p.gunit
  | none =>
    match findImp s co ga step with
    | some i => if i.sys then (s.sysplate.map Plate.gunit).getD 0 else 0
    | none => 0

/-! ### Issue -/

/-- LD, ST, LDL, STL, ATOM, LDD, STD and PREF count in a measured lease (10 R380). -/
def countsInLease (op : Nat) : Bool :=
  op == 0x90 || op == 0x91 || op == 0x94 || op == 0x95 || op == 0x96 || op == 0x9A || op == 0x9E || op == 0x9F

/-- The stalls of lanes that issue their operation again; a completed pop stays for the operation to take. -/
def retryStalls (co : Coach) (grp : Mask) (ga : GAddr) (step : Nat) : Coach :=
  let gone (st : Stall) : Bool := st.ga == ga && st.step == step && (st.lanes &&& grp) != 0 && !stallKept st.kind
  { co with stalls := co.stalls.filter (fun st => !gone st) }

/-- What the issue of an operation counts, before it acts. -/
def countIssue (co : Coach) (now op : Nat) (again halting : Bool) : Coach :=
  { co with idleSince := now, waited := 0, skid := if halting then co.skid + 1 else co.skid
            mi := if co.measured && countsInLease op && !again then co.mi + 1 else co.mi }

/-- The rake is halting (11 R413). -/
def halting (s : State) (co : Coach) : Bool := ((tget s.rakes co.rake).map (fun r => r.halt.isSome)).getD false

/-- The key in `lastPlace` of a deterministic region's rotation in a partition. -/
def rotationKey (part region : Nat) : Nat := 1024 + part + 1024 * region

/-- The coach counts as the last one issued of its partition, and of its deterministic region there (10 R384, R385). -/
def noteIssue (s : State) (k : Nat) : State :=
  let co := coachOf s k
  match co.place with
  | none => s
  | some (core, p, i) =>
    let part := core * 4 + p
    let last := tput s.lastPlace part i
    { s with lastPlace := if isDet s co then tput last (rotationKey part co.region) i else last }

/-- A group issues the operation of its program counter: the latch, the counts, and the instruction to run; none when the
fetch has trapped, parked or gone back. -/
def issueGroup (s : State) (k : Nat) (grp : Mask) (ga : GAddr) (step : Nat) (pair : Option Mask) : State × Option Instr :=
  let co := coachOf s k
  let unit := unitAt s co ga step
  let latch (s : State) (w : Dword) (len count : Nat) : State :=
    { s with iss := { coach := k, group := grp, ga := ga, step := step, len := len, count := count, word := w
                      gunit := unit } }
  match fetchOp s co ga step with
  | (.bad e, s) => (noFetch (modCoach s k (fun co => { co with pair := none, resume := none })) k grp ga e, none)
  | (.past, s) => (modCoach s k (fun co => modLanes co grp (fun _ x => x.goto co.orderNext ga)), none)
  | (.decode, s) => (latch s 0 8 1, some .guestDecode)
  | (.op w len count, s) =>
    let s := noteIssue (latch s w len count) k
    let again := co.stalls.any (fun st => st.ga == ga && st.step == step && (st.lanes &&& grp) != 0)
    let s := modCoach s k (fun co =>
      countIssue { retryStalls co grp ga step with pair := pair, resume := none } (cycleOf s (coreOf co)) (opOf w) again (halting s co))
    match decodeNative w with
    | .instr i => (s, some i)
    | .unassigned => (rejectWord s iOpcode, none)
    | .reservedFunction _ => (rejectWord s iRsvd, none)

/-- Group B of a slot: the next largest group, when it pairs with A. -/
def partnerOf (s : State) (co : Coach) (m : Mask) (a : Mask × GAddr × Nat) : Option Mask :=
  match bestGroup co (m &&& ~~~a.1) with
  | none => none
  | some b =>
    match peekWord s co a.2.1 a.2.2, peekWord s co b.2.1 b.2.2 with
    | some wa, some wb => if pairOk (!co.rbuf.isEmpty) wa wb then some b.1 else none
    | _, _ => none

/-- Group B of the slot under way. -/
def secondGroup (s : State) (co : Coach) : Option (Mask × GAddr × Nat) :=
  co.pair.bind (fun b => (bestGroup co (b &&& issuable s co)).bind (fun g => if g.1 == b then some g else none))

/-- The group that has waited for its turn or for room, whole and able to issue, and its partner. -/
def resumed (s : State) (co : Coach) : Option ((Mask × GAddr × Nat) × Option Mask) :=
  co.resume.bind (fun r => (bestGroup co (r.1 &&& issuable s co)).bind (fun g => if g.1 == r.1 then some (g, r.2) else none))

/-- The word of the group that issues next, looked at without any effect. -/
def nextWord (s : State) (co : Coach) : Option Dword :=
  match secondGroup s co, resumed s co with
  | some g, _ => peekWord s co g.2.1 g.2.2
  | none, some g => peekWord s co g.1.2.1 g.1.2.2
  | none, none => (bestGroup co (issuable s co)).bind (fun g => peekWord s co g.2.1 g.2.2)

/-- THE ISSUE OF A COACH: group B of the slot under way, else the group that kept its place, else the largest group, with the
partner that it pairs with. -/
def issueCoach (s : State) (k : Nat) : State × Option Instr :=
  let co := coachOf s k
  match secondGroup s co with
  | some g => issueGroup s k g.1 g.2.1 g.2.2 none
  | none =>
    match resumed s co with
    | some (g, b) => issueGroup s k g.1 g.2.1 g.2.2 b
    | none =>
      let m := issuable s co
      match bestGroup co m with
      | none => (s, none)
      | some g => issueGroup s k g.1 g.2.1 g.2.2 (partnerOf s co m g)

end Sys2Proof.Machine
end

