-- ==== Sys2Proof/Machine/Saved.lean ====
section
/-! DEFINITION. The parts of a coach image and of a rake image whose inner form 11 R430 and R432 leave open: the values that each
part holds. Their bytes are an uninterpreted function of these values (log 41). -/
namespace Sys2Proof.Machine

/-- A list of values behind its length. -/
def counted (l : List Nat) : List Nat := l.length :: l
def natOrNone (o : Option Nat) : Nat := o.elim 0 (· + 1)
def boolVal (b : Bool) : Nat := if b then 1 else 0
def tblVals {α : Type} (f : α → List Nat) (t : Tbl α) : List Nat := counted (t.flatMap (fun e => e.1 :: f e.2))
def intVal (z : Int) : Nat := if 0 ≤ z then 2 * z.toNat else 2 * (-z).toNat + 1

def entryVals : Entry → List Nat
  | .word w => [0, w.toNat]
  | .lane ws m => 1 :: m.toNat :: tblVals (fun w => [w.toNat]) ws

/-- The condition of a sleeping lane, or the JOIN register, with the program counter where the lane goes on. -/
def waitVals (x : Lane) : List Nat :=
  (match x.wait with
    | .none => [0]
    | .cycles t => [1, t]
    | .sleepBar c b k t lt => [2, c.toNat, boolVal b, k, t.toNat, boolVal lt]
    | .barrier k t => [3, k, t.toNat]
    | .tbar g e => [4, g, e]
    | .timeline h n a g => [5, h.toNat, n.toNat, a, g]
    | .version t v => [6, t, v.toNat]
    | .release t => [7, t]
    | .join k => [8, k]
    | .page e => [9, e]
    | .woken => [10]
    | .ended a => [11, natOrNone a]
    | .barx k => [12, k]) ++ [x.nga.toNat, x.nstep]

/-- A stalled operation: its lanes and place, and what it waits for with the cycles that remain. -/
def stallVals (st : Stall) : List Nat :=
  [st.lanes.toNat, st.ga.toNat, st.step, st.opLanes.toNat, st.opword.toNat] ++ (match st.kind with
    | .pop q got => 0 :: q :: got.elim [] entryVals
    | .push q e d => 1 :: q :: d :: entryVals e
    | .portPush q e => 2 :: q :: entryVals e
    | .marker => [3]
    | .batches n last => [4, n, boolVal last]
    | .tileQueue t => [5, t]
    | .port q => [6, q]
    | .freePort d => [7, d]
    | .turn => [8]
    | .bundleRoom => [9]
    | .faultRoom p => [10, p])

/-- The kind of a return-buffer slot. -/
def slotKind (sl : Slot) : Nat :=
  if sl.cpy.isSome then 1 else if sl.tile.isSome then 2 else if sl.spr.isSome then 3 else if sl.push.isSome then 4 else 0

/-- Slot headers (R430): for each slot, the first of its up to four destinations, their count, the kind, the issue order and
the lanes. `k` is the first slot. -/
def slotHeaders (regs : Slot → List Nat) : Nat → List Slot → List (Nat × List Byte)
  | _, [] => []
  | k, sl :: l =>
    (List.range sl.cost).map (fun j =>
      let ds := ((regs sl ++ sl.sw.map (fun (e : Nat × Word) => 192 + e.1)).drop (4 * j)).take 4
      (0x6100 + 16 * (k + j), savedBytes 0x6100
        [(ds.head?).getD 0, ds.length, slotKind sl, sl.order, sl.lanes.toNat] 16)) ++ slotHeaders regs (k + sl.cost) l

/-- The first word of a staged entry: an address or a queue binding, and the entry's kind in bits 63:57 (R430). -/
def stagedHead (kind a : Nat) : List Byte := leBytes 8 (Config.stagedKind kind % 128 * 2 ^ 57 + a % 2 ^ 57)

/-- A staged entry as the staging area stores it: 16 bytes, a LANE push 21 times and a SPAWN twice as many (10 R395). -/
def stagedBytes (e : Staged) : List Byte :=
  match e with
  | .store _ va size value => stagedHead size va ++ leBytes 8 value.toNat
  | .atom va op ty agt b c => stagedHead (1000 + 512 * op + 8 * ty + agt) va ++ savedBytes 0x28000 [b.toNat, c.toNat] 8
  | .bytes va data =>
    (List.range (stagedCost e)).flatMap (fun i =>
      stagedHead 9 (va + 8 * i) ++ leBytes 8 (leNat ((data.drop (8 * i)).take 8)))
  | .push q (.word w) => stagedHead 10 q ++ leBytes 8 w.toNat
  | .push q (.lane ws m) => stagedHead 11 q ++ leBytes 8 m.toNat ++ savedBytes 0x28001 (tblVals (fun w => [w.toNat]) ws) 320
  | .spawn block args => stagedHead 12 block ++ leBytes 8 0 ++ stagedHead 13 args ++ leBytes 8 0

/-- The staged entries of a coach in the order in which they are applied: its push remainder, its ended bundles and the open
one. -/
def stagedAll (co : Coach) : List Staged := co.remainder ++ co.ended.flatMap Bundle.entries ++ co.bundle.entries

/-- The staging area: the ring holds the entries from its start (log 41). -/
def stagingBytes (co : Coach) : List Byte :=
  let bs := (stagedAll co).flatMap stagedBytes
  bs ++ List.replicate (16384 - bs.length) 0

/-- The bundle index: the numbers of the bundles, the entries of each, the pending pop and the remainder (R430). -/
def bundleVals (co : Coach) : List Nat :=
  let bundles := co.ended ++ [co.bundle]
  counted (bundles.flatMap (fun b => [b.num, (b.entries.map stagedCost).foldl (· + ·) 0, boolVal b.served]))
  ++ [(co.remainder.map stagedCost).foldl (· + ·) 0, boolVal co.turnGranted]

def cfgVals (c : MCfg) : List Nat :=
  [c.a0, c.a1, c.b0, c.b1, c.planeA, c.planeB, c.fmtw, c.meta_].map BitVec.toNat

def mkindVals : MKind → List Nat
  | .mul n r c a b l => [0, n, r, c, a, b, boolVal l]
  | .zero => [1]
  | .prom => [2]
  | .ldG va p pg => 3 :: va :: p :: counted (pg.flatMap (fun e => [e.1, e.2.1, e.2.2.toNat]))
  | .stG va p pg => 4 :: va :: p :: counted (pg.flatMap (fun e => [e.1, e.2.1, e.2.2.toNat]))
  | .ldS o p => [5, o, p]
  | .stS o p => [6, o, p]
  | .ldR cb ws => 7 :: cb :: tblVals (fun w => [w.toNat]) ws
  | .stR cb => [8, cb]

def mopVals (o : MOp) : List Nat :=
  [o.v.toNat] ++ mkindVals o.kind ++ cfgVals o.cfg ++ counted (o.fmts.map BitVec.toNat)
  ++ tblVals (fun w => [w.toNat]) o.regA ++ tblVals (fun w => [w.toNat]) o.regB

/-- What follows VER in a tile save: the tile's name, its configuration, its queue and the operation in progress. -/
def tileVals (name : Nat) (cfg : Option MCfg) (x : Tile) : List Nat :=
  [name] ++ counted (cfg.elim [] cfgVals) ++ counted (x.queue.flatMap mopVals)
  ++ counted (x.cur.elim [] (fun c => mopVals c.1 ++ [c.2]))

def genVals (g : Gen) : List Nat :=
  [g.base, g.len0, g.rot, g.space, g.dims, g.pos] ++ counted g.counts ++ counted (g.strides.map intVal)

def dataOpVals : DataOp → List Nat
  | .xfer d s rm f u c => [0, d, s, rm, f, boolVal u, c]
  | .gather d x t => [1, d, x, t]
  | .scatter t x s => [2, t, x, s]
  | .fill d p q => [3, d, p.toNat, q]

/-- The state of a dray context (07 R249, R295), each generator with its descriptor and POS. -/
def drayVals (d : Dray) : List Nat :=
  tblVals (fun w => [w.toNat]) d.regs ++ [d.pc.toNat] ++ tblVals genVals d.gens ++ tblVals (fun w => [w.toNat]) d.opts
  ++ [d.optM.toNat, d.state, d.fcode, d.bits.toNat, d.timeline.toNat, d.t0.toNat, natOrNone d.promise, boolVal d.promised, d.rem,
      d.nslice, d.gen.toNat] ++ counted (d.slices.map BitVec.toNat) ++ [d.launch, d.zone, d.start]
  ++ counted (d.data.elim [] dataOpVals)

/-- The open state of a rake's zones and their CPY launches (R432). -/
def zoneVals (r : Rake) : List Nat :=
  tblVals (fun p => [p]) r.zoneParent ++ counted (r.unwound.flatMap (fun u => [u.1, u.2.1.toNat, u.2.2.toNat]))
  ++ tblVals (fun l => tblVals (fun z => [z]) l.zones ++ [boolVal l.started, boolVal l.finished, boolVal l.faulted]) r.launches

/-- The placement flags of a rake's header (R432). -/
def placeVals (r : Rake) : List Nat :=
  [r.stage, natOrNone r.slot, natOrNone r.cluster, natOrNone r.pinned, r.padBase, boolVal r.unslotted, boolVal r.ended]

end Sys2Proof.Machine
end

