-- ==== Sys2Proof/Machine/Image.lean ====
section
/-! DEFINITION. Pre-emption and restore (11 R429-R434, 09 R355, 06 R223, 07 R295): the coach and rake images, saving a coach
and bringing it back. What the images leave to the model's own record is said in log 41. -/
namespace Sys2Proof.Machine

/-! ### Images (11 R429-R432) -/

/-- Bytes of a coach image and of a rake image. -/
def coachImageSize : Nat := 180224
def rakeImageSize : Nat := 9437184

/-- The registers that a return-buffer slot will write, in ascending order. -/
def slotRegs (sl : Slot) : List Nat := (List.range 192).filter (fun r => sl.vw.any (fun e => e.1 / 64 == r))

/-- Return-buffer data (R430): slot k at 0x2000 + 1,024k, one 256-byte line for each of up to four registers, 4 bytes per
lane; what takes several slots takes them in turn. `k` is the first slot. Lanes without a result are left as they stand. -/
def slotParts : Nat → List Slot → List (Nat × List Byte)
  | _, [] => []
  | k, sl :: l =>
    (mapFrom (fun j r => (sl.vw.filter (fun e => e.1 / 64 == r)).map (fun e =>
      (0x2000 + 1024 * k + 256 * j + 4 * (e.1 % 64), leBytes 4 e.2.toNat))) 0 (slotRegs sl)).flatten ++ slotParts (k + sl.cost) l

/-- Tile save n (R430): T, p and STEPS row by row, then VER, the name, the configuration, the queue and the operation in
progress. -/
def tileSave (co : Coach) (n name : Nat) (x : Tile) : List (Nat × List Byte) :=
  let es := tileEls x
  let at_ := 0x8000 + 0xA000 * n
  [(at_, es.flatMap (fun e => leBytes 4 e.t.toNat)), (at_ + 0x4000, es.flatMap (fun e => leBytes 4 e.p.toNat)),
   (at_ + 0x8000, es.flatMap (fun e => leBytes 1 e.steps)), (at_ + 0x9000, leBytes 2 x.ver.toNat),
   (at_ + 0x9002, savedBytes 0x9002 (tileVals name (tget co.cfgs name) x) 4094)]

/-- The address of a coach's image. -/
def imageAddr (s : State) (co : Coach) : Nat :=
  ((tget s.ctxs co.ctx).map Ctx.imgbase).getD 0 + coachImageSize * co.fslot

/-! ### Register-cache lines (R433) -/

/-- The partition whose cache holds a coach's lines. -/
def partKey (co : Coach) : Option Nat := co.place.map (fun p => p.1 * 4 + p.2.1)

/-- Offset of a register line in the image; the scalar and mask areas are the line past the last register. -/
def lineOffsetOf (co : Coach) (r : Nat) : Nat := if r < co.nregs then 0x1C000 + 256 * r else 0x100

/-- What a line's writeback writes: the stored bytes and the format byte of a register (09 R342), or the scalars and masks. -/
def lineParts (co : Coach) (r : Nat) : List (Nat × List Byte) :=
  if r < co.nregs then
    let f := slotForm (lineWords co r)
    [(lineOffsetOf co r, f.2), (0x6000 + r, leBytes 1 f.1)]
  else [(0x100, (List.range 32).flatMap (fun i => leBytes 4 (sget co i).toNat)
    ++ (List.range 16).flatMap (fun m => leBytes 8 (mget co m).toNat))]

/-- Write a line back to its coach's image. -/
def writeLineBack (s : State) (k r : Nat) : State :=
  let co := coachOf s k
  (lineParts co r).foldl (fun s p =>
    match areaPieces s (dieUnits (coreOf co / 80)) co.ctx (imageAddr s co + p.1) p.2.length .write with
    | (some ps, s) => writeOwn s co.ctx ps p.2
    | (none, s) => markReset s co.ctx) s

/-- A line leaves a register cache: what the image lacks of it is written back, and it is in the image alone. -/
def dropLine (s : State) (part : Nat) (e : Nat × Nat × Bool) : State :=
  let s := { s with rcache := tmod s.rcache part (fun l => l.erase e) }
  let s := if e.2.2 then writeLineBack s e.1 e.2.1 else s
  modCoach s e.1 (fun co => { co with out := e.2.1 :: co.out })

/-- The line that leaves a full cache (last used first): of a held coach, then of one in a long wait, then of any coach outside
its active set, then the least recently used (R433, 10 R383). -/
def evictChoice (s : State) (l : List (Nat × Nat × Bool)) : Option (Nat × Nat × Bool) :=
  let r := l.reverse
  let first (f : Coach → Bool) : Option (Nat × Nat × Bool) := r.find? (fun e => f (coachOf s e.1))
  match first Coach.heldBack, first Coach.atHead, first (fun co => !co.active) with
  | some e, _, _ => some e
  | none, some e, _ => some e
  | none, none, some e => some e
  | none, none, none => r.head?

/-- Put a line into a partition's cache of 1,024 lines, as the last used. -/
def cacheLine (s : State) (part k r : Nat) (dirty : Bool) : State :=
  let l := tgetD [] s.rcache part
  let s := if l.length < 1024 then s
    else match evictChoice s l with
      | some e => dropLine s part e
      | none => s
  let s := { s with rcache := tput s.rcache part ((k, r, dirty) :: tgetD [] s.rcache part) }
  modCoach s k (fun co => { co with out := co.out.erase r })

/-- The entry of a resident line. -/
def lineEntry (s : State) (part k r : Nat) : Option (Nat × Nat × Bool) :=
  (tgetD [] s.rcache part).find? (fun e => e.1 == k && e.2.1 == r)

/-- An operation uses a line: it becomes the last used, and dirty when it is written. A line that no image holds yet comes
into the cache with it. -/
def touchLine (s : State) (part k : Nat) (u : Nat × Bool) : State :=
  match lineEntry s part k u.1 with
  | some e =>
    { s with rcache := tmod s.rcache part (fun l => (e.1, e.2.1, e.2.2 || u.2) :: l.erase e) }
  | none => if (coachOf s k).out.contains u.1 then s else cacheLine s part k u.1 true

/-- A line as the image has it, decoded by its format byte (09 R341); none: a reserved format. -/
def lineOf (co : Coach) (r f : Nat) (bs : List Byte) : Option Coach :=
  if r < co.nregs then
    let ws := (List.range co.width).map (fun l => slotWord f bs l)
    if ws.all Option.isSome then
      some ((mapFrom (fun l w => (l, w)) 0 ws).foldl (fun co x => vset co r x.1 (x.2.getD 0)) co)
    else none
  else
    let word (o n : Nat) : Nat := leNat ((bs.drop o).take n)
    let co := (List.range 32).foldl (fun co i => sset co i (BitVec.ofNat 32 (word (4 * i) 4))) co
    some ((List.range 16).foldl (fun co m => mset co m (BitVec.ofNat 64 (word (128 + 8 * m) 8))) co)

/-- A restored coach's lines (R434): those still resident in its partition stay; those in another partition's cache are
written back; the others are filled on demand. -/
def returnLines (s : State) (k part : Nat) : State :=
  let away := s.rcache.flatMap (fun e => if e.1 = part then []
    else (e.2.filter (fun x => x.1 == k)).map (fun x => (e.1, x)))
  let s := away.foldl (fun s e => dropLine s e.1 e.2) s
  modCoach s k (fun co =>
    { co with out := (List.range (co.nregs + 1)).filter (fun r => (lineEntry s part k r).isNone) })

/-! ### Saving a coach (R434) -/

/-- Cycles of a wait count down while the coach is away: `f` takes the target to what remains, or back (05 R166, R219). -/
def moveTimes (f : Nat → Nat) (co : Coach) : Coach :=
  let lane (x : Lane) : Lane := match x.wait with
    | .cycles t => { x with wait := .cycles (f t) }
    | _ => x
  let stall (st : Stall) : Stall := match st.kind with
    | .push q e d => { st with kind := .push q e (f d) }
    | _ => st
  { co with lanes := co.lanes.map lane, stalls := co.stalls.map stall, heldStalls := co.heldStalls.map stall }

/-- The parts of a coach image: offset and bytes (R430). Of the register lines, those that are neither in a register cache, where
they stay (R434), nor in the image already. Waits are written with the cycles that remain; the depths of the zones, the wait
records, the stalled operations, the slot headers and the bundle index are in a form that the spec leaves open (log 41). -/
def coachImage (s : State) (k : Nat) : List (Nat × List Byte) :=
  let co := moveTimes (fun t => t - cycleOf s (coreOf (coachOf s k))) (coachOf s k)
  let lanes := (List.range 64).map (laneOf co)
  let head := leBytes 4 0x47434144 ++ leBytes 1 (modeWord s co) ++ leBytes 1 (co.nregs / 8)
    ++ leBytes 1 ((if co.inHandler then 1 else 0) + (if halting s co then 2 else 0)) ++ leBytes 1 0
    ++ leBytes 8 co.seed.toNat ++ leBytes 4 co.fmode.toNat ++ leBytes 4 co.fstat.toNat
    ++ leBytes 4 (co.leaseG + (if co.measured then 256 else 0)) ++ leBytes 4 co.est ++ leBytes 4 co.mi ++ leBytes 4 co.alloc
    ++ leBytes 4 co.vh ++ leBytes 4 co.batchCount ++ leBytes 4 (holdsWord s k) ++ leBytes 4 co.zones.length
    ++ leBytes 8 co.zinfo.toNat ++ leBytes 4 co.zcause.toNat ++ List.replicate 188 0
  let zones := (mapFrom (fun n (z : Zone) =>
    leBytes 8 z.handler.toNat ++ leBytes 8 z.k
      ++ savedBytes 0x200 (n :: z.rstacks.flatMap (fun r => r.2 :: counted (r.1.map BitVec.toNat))) 16) 0 co.zones.reverse).flatten
  let cached (r : Nat) : Bool := s.rcache.any (fun e => e.2.any (fun x => x.1 == k && x.2.1 == r))
  let freshLines := (List.range (co.nregs + 1)).filter (fun r => !co.out.contains r && !cached r)
  let held := lanes.flatMap (fun x => (x.held ++ List.replicate (8 - x.held.length) 0).flatMap (fun a => leBytes 8 a.toNat))
  [(0, head), (0x200, zones),
   (0x300, lanes.flatMap (fun x => leBytes 8 (laneEntry x))), (0x500, lanes.flatMap (fun x => leBytes 8 x.icnt.toNat)),
   (0x700, lanes.flatMap (fun x => leBytes 4 x.draw.toNat)), (0x800, held),
   (0x1800, lanes.flatMap (fun x => leBytes 1 x.held.length)), (0x1840, lanes.flatMap (fun x => leBytes 4 x.sp)),
   (0x60C0, List.replicate 64 0), (0x6200, List.replicate 3840 0)]
  ++ (if isDet s co then [(0x7100, savedBytes 0x7100 (bundleVals co) 3840), (0x28000, stagingBytes co)]
      else [(0x7100, List.replicate 3840 0), (0x28000, List.replicate 16384 0)])
  ++ [(0x1A00, lanes.flatMap (fun x => savedBytes 0x1A00 (waitVals x) 16)),
      (0x1E00, savedBytes 0x1E00 (co.stalls.flatMap (fun st => counted (stallVals st))) 256)]
  ++ slotHeaders slotRegs 0 co.rbuf ++ slotParts 0 co.rbuf
  ++ (mapFrom (fun n tk => tileSave co n (tk % 8) (tileOf s tk)) 0 (heldTiles s k)).flatten
  ++ freshLines.flatMap (lineParts co)

/-- The tiles of a coach with their numbers. -/
def tilesToSave (s : State) (k : Nat) : Tbl Tile := (heldTiles s k).map (fun tk => (tk % 8, tileOf s tk))

/-- A coach stops being resident: its image is written, its tiles are saved and freed, its dirty bytes go home, and its
place is free. Long operations have returned into their slots, uncommitted. -/
def saveCoach (s : State) (k : Nat) : State :=
  let co := coachOf s k
  if co.place.isNone then s
  else
    let core := coreOf co
    let now := cycleOf s core
    let s := modCoach s k (fun co =>
      { co with rbuf := co.rbuf.map (fun sl => if sl.cpy.isNone && sl.tile.isNone then { sl with returned := true } else sl) })
    let s := writeArea s co.ctx (core / 80) (imageAddr s co) coachImageSize (coachImage s k)
    let u := l1Unit s core
    let s := acquireGlobal (releaseGlobal s u co.ctx 4) u co.ctx 4
    let tiles := tilesToSave s k
    let s := (heldTiles s k).foldl (fun s tk =>
      undefTile (setTile s tk { tileOf s tk with holder := none, lastCtx := some co.ctx, queue := [], cur := none }) tk) s
    modCoach s k (fun co => moveTimes (fun t => t - now)
      { co with place := none, savedTiles := tiles, active := false, sliceExpired := false })

/-- A coach can leave: every long operation that a register or queue can still return has returned. Slots that wait for a
launch or a tile are saved as they stand. -/
def canSave (s : State) (k : Nat) : Bool := (tget s.coaches k).isSome && (coachOf s k).place.isSome

/-- Save every coach of a rake and unplace it (10 R377, 11 R434); the rake must return to the cluster of drays that run on
(07 R295). -/
def saveRake (s : State) (rk : Nat) : State :=
  match tget s.rakes rk with
  | none => s
  | some r =>
    let s := r.coaches.foldl saveCoach s
    let drays := r.launches.filterMap (fun e => drayRuns s rk e.1 e.2)
    let base := ((tget s.regions r.region).bind (fun g => (tget s.ctxs g.ctx).map Ctx.rimgbase)).getD 0
    let ctx := ((tget s.regions r.region).map Region.ctx).getD 0
    let bars := (List.range 16).flatMap (fun b =>
      let x := tgetD Barrier.none r.barriers b
      leBytes 1 (if x.armed then 1 else 0) ++ leBytes 1 (if x.inv then 1 else 0) ++ leBytes 2 0
      ++ leBytes 4 x.exp.toNat ++ leBytes 4 x.cnt.toNat ++ leBytes 4 x.ph.toNat)
    let s :=
      if !r.created then s
      else
        let saves := drays.map (fun dk => (0x400 + 1024 * (dk % 32), savedBytes 0x400 (drayVals (drayOf s dk)) 1024))
        writeArea s ctx 0 (base + rakeImageSize * r.rslot) (65536 + r.window)
          ([(0, leBytes 4 0x4B415244 ++ leBytes 4 r.idx ++ leBytes 4 (regionNumber s r.region)
              ++ savedBytes 12 (placeVals r) 244),
            (0x100, bars), (0x10000, padRead r 0 r.window), (0x200, savedBytes 0x200 (zoneVals r) 512)] ++ saves)
    modRake s rk (fun r => { r with cluster := none, pinned := (drays.head?).map (fun dk => dk / 32) })

/-! ### Restoring a coach (R434, R223) -/

/-- Resident coaches of a core and of a partition, and the places that are free. -/
def coreCount (s : State) (core : Nat) : Nat :=
  (s.coaches.filter (fun e => match e.2.place with
    | some (c, _, _) => c == core
    | none => false)).length
def partPlaces (s : State) (core p : Nat) : List Nat :=
  s.coaches.filterMap (fun e => match e.2.place with
    | some (c, q, i) => if c = core ∧ q = p then some i else none
    | none => none)

/-- The element of a list with the least measure, the first among equals. -/
def leastBy (f : Nat → Nat) : List Nat → Option Nat
  | [] => none
  | a :: l =>
    match leastBy f l with
    | none => some a
    | some b => if f a ≤ f b then some a else some b

/-- The place for one more coach on a core: the emptiest partition, the lowest free place (10 R375). -/
def placeOn (s : State) (core : Nat) : Option (Nat × Nat × Nat) :=
  (leastBy (fun p => (partPlaces s core p).length) [0, 1, 2, 3]).bind (fun p =>
    let i := firstFree 16 (partPlaces s core p)
    if i < 16 then some (core, p, i) else none)

/-- The cores of a cluster with a free place, and the one with the fewest coaches among those that a test accepts. -/
def coreFor (s : State) (cl : Nat) (ok : Nat → Bool) : Option Nat :=
  leastBy (coreCount s) (((List.range 8).map (fun i => cl * 8 + i)).filter (fun c => decide (coreCount s c < 64) && ok c))

/-- The tiles that a saved coach names are free on a core. -/
def tilesFree (s : State) (co : Coach) (core : Nat) : Bool :=
  co.savedTiles.all (fun e => (tileOf s (tileKey core e.1)).holder.isNone)

/-- What names a tile of the old core names the same tile of the new one. -/
def moveTileKeys (core : Nat) (co : Coach) : Coach :=
  let stall (st : Stall) : Stall := match st.kind with
    | .tileQueue tk => { st with kind := .tileQueue (tileKey core (tk % 8)) }
    | _ => st
  { co with stalls := co.stalls.map stall
            rbuf := co.rbuf.map (fun sl => { sl with tile := sl.tile.map (fun t => (tileKey core (t.1 % 8), t.2)) }) }

/-- Bytes o to o + n - 1 of pieces. -/
def slicePieces : List OwnPiece → Nat → Nat → List OwnPiece
  | [], _, _ => []
  | p :: l, o, n =>
    if n = 0 then []
    else if p.2.1 ≤ o then slicePieces l (o - p.2.1) n
    else
      let m := if n < p.2.1 - o then n else p.2.1 - o
      (p.1 + o, m, p.2.2) :: slicePieces l 0 (n - m)

/-- The image state of a coach other than its register lines and their format bytes, which fill on demand (R434). -/
def imageState (ps : List OwnPiece) : List OwnPiece :=
  slicePieces ps 0 256 ++ slicePieces ps 0x200 0x5E00 ++ slicePieces ps 0x60C0 0x15F40 ++ slicePieces ps 0x28000 0x4000

/-- The lane state with a code of R407. -/
def stateOf (n : Nat) (old : LaneState) : LaneState :=
  match n with
  | 0 => .running
  | 1 => .sleeping
  | 2 => .parked
  | 3 => .joining
  | 4 => .exited
  | 5 => .absent
  | _ => old

/-- A lane as its image entries have it; `rd` reads the image. What R430 does not lay out is as it was saved (log 41). -/
def laneOfImage (rd : Nat → Nat → List Byte) (l : Nat) (x : Lane) : Lane :=
  let v := leNat (rd (0x300 + 8 * l) 8)
  let ga : GAddr := BitVec.ofNat 57 v
  let x := if v = laneEntry x then x
    else { x with state := stateOf (field v 63 61) x.state, ga := ga, step := field v 59 57, nga := ga, nstep := field v 59 57 }
  { x with icnt := BitVec.ofNat 64 (leNat (rd (0x500 + 8 * l) 8)), draw := BitVec.ofNat 32 (leNat (rd (0x700 + 4 * l) 4))
           held := (List.range (leNat (rd (0x1800 + l) 1))).map (fun j =>
             BitVec.ofNat 57 (leNat (rd (0x800 + 64 * l + 8 * j) 8)))
           sp := leNat (rd (0x1840 + 4 * l) 4) }

/-- A coach as the header, the zone stack and the lane areas of its image have it (R430). -/
def coachOfImage (rd : Nat → Nat → List Byte) (co : Coach) : Coach :=
  let word (o : Nat) : Nat := leNat (rd o 4)
  let zone (n : Nat) (z : Zone) : Zone :=
    { z with handler := BitVec.ofNat 57 (leNat (rd (0x200 + 32 * n) 8)), k := leNat (rd (0x208 + 32 * n) 8) }
  { co with seed := BitVec.ofNat 64 (leNat (rd 8 8)), fmode := BitVec.ofNat 32 (word 16), fstat := BitVec.ofNat 32 (word 20)
            leaseG := word 24 % 256, measured := bitOf (word 24) 8, est := word 28, mi := word 32, alloc := word 36
            vh := word 40, batchCount := word 44, zinfo := BitVec.ofNat 64 (leNat (rd 56 8))
            zcause := BitVec.ofNat 32 (word 64), zones := (mapFrom zone 0 co.zones.reverse).reverse
            lanes := mapFrom (laneOfImage rd) 0 co.lanes }

/-- A tile as tile save n of an image has it (R430): T, p, STEPS and VER. -/
def tileOfImage (rd : Nat → Nat → List Byte) (n : Nat) (x : Tile) : Tile :=
  let at_ := 0x8000 + 0xA000 * n
  let ks := List.range 4096
  { x with t := (ks.map (fun k => (k, (BitVec.ofNat 32 (leNat (rd (at_ + 4 * k) 4)) : Word)))).filter (fun e => e.2 != 0)
           p := (ks.map (fun k => (k, (BitVec.ofNat 26 (leNat (rd (at_ + 0x4000 + 4 * k) 4)) : BitVec 26)))).filter
             (fun e => e.2 != 0)
           steps := (ks.map (fun k => (k, leNat (rd (at_ + 0x8000 + k) 1)))).filter (fun e => e.2 != 0)
           undef := none, ver := BitVec.ofNat 16 (leNat (rd (at_ + 0x9000) 2)) }

/-- The image of a coach comes back (R434): the parts that R430 lays out are read; an error in them resets the context (12
R468). `none`: the context is reset. -/
def readImage (s : State) (k die : Nat) : Bool × State :=
  let co := coachOf s k
  match areaPieces s (dieUnits die) co.ctx (imageAddr s co) coachImageSize .read with
  | (none, s) => (false, markReset s co.ctx)
  | (some ps, s) =>
    let s := fillOwn s co.ctx (imageState ps)
    match poisonOwn s (imageState ps) with
    | some line => (false, errorReset s co.ctx line)
    | none =>
      let rd (o n : Nat) : List Byte := readOwn s (slicePieces ps o n)
      (true, modCoach s k (fun co =>
        { coachOfImage rd co with savedTiles := mapFrom (fun n e => (e.1, tileOfImage rd n e.2)) 0 co.savedTiles }))

/-- A rake's image comes back: its barriers and its window (R432, R434). -/
def readRakeImage (s : State) (rk : Nat) : State :=
  match (tget s.rakes rk).bind (fun r => (tget s.regions r.region).bind (fun g =>
      (tget s.ctxs g.ctx).map (fun c => (r, g.ctx, c.rimgbase)))) with
  | none => s
  | some (r, ctx, base) =>
    match areaPieces s (dieUnits 0) ctx (base + rakeImageSize * r.rslot) (65536 + r.window) .read with
    | (none, s) => markReset s ctx
    | (some ps, s) =>
      let state := slicePieces ps 0 0x8400 ++ slicePieces ps 0x10000 r.window
      let s := fillOwn s ctx state
      match poisonOwn s state with
      | some line => errorReset s ctx line
      | none =>
        let word (o : Nat) : Nat := leNat (readOwn s (slicePieces ps o 4))
        let barrier (b : Nat) : Barrier :=
          let o := 0x100 + 16 * b
          { armed := bitOf (word o) 0, inv := bitOf (word o) 8, exp := BitVec.ofNat 24 (word (o + 4))
            cnt := BitVec.ofNat 24 (word (o + 8)), ph := BitVec.ofNat 24 (word (o + 12)) }
        modRake s rk (fun r =>
          { r with barriers := (List.range 16).foldl (fun t b => tset Barrier.none t b (barrier b)) r.barriers
                   pad := memWrite [] 0 (readOwn s (slicePieces ps 0x10000 r.window)) })

/-- A coach becomes resident at a place: its tiles are loaded, its waits run on the new counter, its slice starts. -/
def seatCoach (s : State) (k : Nat) (place : Nat × Nat × Nat) : State :=
  let co := coachOf s k
  let core := place.1
  let now := cycleOf s core
  let s := co.savedTiles.foldl (fun s e => setTile s (tileKey core e.1) { e.2 with holder := some k }) s
  let back (co : Coach) : Coach :=
    let co := moveTileKeys core co
    { co with place := some place, savedTiles := [], active := false, waitSince := now, atHead := false, waited := 0
              returned := none, heldBack := false, idleSince := now, sliceStart := now
              sliceExpired := false }
  let s := returnLines s k (core * 4 + place.2.1)
  let s := coachFence (modCoach s k (fun co => moveTimes (fun t => now + t) (back co))) k
  wakeReady s k

end Sys2Proof.Machine
end

