-- ==== Sys2Proof/Machine/Sched.lean ====
section
/-! DEFINITION. Events of coaches and rakes: long results, waits and queues (02 R50, 05 R165, R194, R202-R206), issue and
admission (10 R381-R386), placement (10 R375), stages (10 R376, R377). An event whose condition does not hold changes
nothing; one with a deadline runs the clock on to it (log 4). -/
namespace Sys2Proof.Machine

/-- The coach exists and is resident. -/
def isResident (s : State) (k : Nat) : Bool := (tget s.coaches k).isSome && (coachOf s k).place.isSome

/-! ### Long results (02 R50) -/

/-- LONG_RESULT_RETURN: a result comes back into its slot; slots of CPY and MSTA.REG return with their launch or tile. -/
def execLongResultReturn (coach slot : Nat) (s : State) : Out :=
  .next (modCoach s coach (fun co =>
    { co with rbuf := modAt (fun sl => if sl.cpy.isNone && sl.tile.isNone then { sl with returned := true } else sl)
                        co.rbuf slot }))

/-- A coach waits at a marked operation. -/
def marked (co : Coach) : Option Stall := co.stalls.find? (fun st => st.kind == .marker)

/-- RETURN_BUFFER_COMMIT: every slot has returned, and the marked operation may issue; an FPE that the commit raises is
taken before it, or held to the end of an expansion (03 R95, 08 R313). -/
def execReturnBufferCommit (coach : Nat) (s : State) : Out :=
  let co := coachOf s coach
  .next (match marked co with
    | none => s
    | some st =>
      if !allReturned co || co.trap.isSome then s
      else
        let slots := co.rbuf
        let (fl, s) := commitAll s coach
        let co := coachOf s coach
        let co := { co with stalls := co.stalls.filter (fun x => x.kind != .marker) }
        match commitFpe co slots fl with
        | none => setCoach s coach co
        | some t =>
          if st.step = 0 then raiseTrap (setCoach s coach co) coach t
          else setCoach s coach (holdFpe co st.lanes { t with opaddr := st.ga }))

/-! ### Sleeping lanes (05 R165, R194) -/

/-- Cycles at which sleeping lanes of a coach wake by the counter. -/
def wakeTimes (co : Coach) : List Nat :=
  co.lanes.filterMap (fun x =>
    if x.state = .sleeping then
      (match x.wait with
        | .cycles t => some t
        | .sleepBar c _ _ _ _ => some c.toNat
        | _ => none)
    else none)

/-- SLEEP_WAKE: the counter reaches the next lane's target. -/
def execSleepWake (coach : Nat) (s : State) : Out :=
  .next (if !isResident s coach then s
    else
      let co := coachOf s coach
      let s := match leastBy id (wakeTimes co) with
        | some t => clockTo s (coreOf co) t
        | none => s
      wakeReady s coach)

/-- A lane waits on a route tag of a context. -/
def waitsTag (co : Coach) (tag : Nat) : Bool :=
  co.ctx == tag / 8 && co.lanes.any (fun x => match x.wait with
    | .tbar t _ => t == tag % 8
    | _ => false)

/-- TBAR_WAKE: 64 cycles after the arrival that closed an epoch, its lanes go on. The tag is that of a context. -/
def execTbarWake (tag : Nat) (s : State) : Out :=
  .next (match tget s.treebars tag with
    | none => s
    | some b =>
      let s := b.closed.foldl (fun s e => clockTo s e.2.1 (e.2.2 + 64)) s
      let past (w : Wait) : Wait := match w with
        | .tbar t e => if t = tag % 8 ∧ b.closed.any (fun c => c.1 == e) = true then .ended (some 4) else w
        | _ => w
      -- the wait of a coach that is not resident ends too, and it wakes at its restore (R219)
      let s := (tkeys (s.coaches.filter (fun e => waitsTag e.2 tag))).foldl (fun s k =>
        wakeReady (modCoach s k (fun co => { co with lanes := co.lanes.map (fun x => { x with wait := past x.wait }) })) k) s
      { s with treebars := tput s.treebars tag { b with closed := [] } })

/-! ### Stalled pushes and pops (05 R202-R206) -/

/-- A stalled push may go on: while a trap waits to be entered, only one that the commit of its entry left (log 73). -/
def pushOpen (co : Coach) (st : Stall) : Bool := co.trap.isNone || st.lanes == BitVec.allOnes 64

/-- The first stalled push to a stage queue that may go on, with its value and deadline. -/
def pushStall (co : Coach) : Option (Stall × Nat × Entry × Nat) :=
  co.stalls.findSome? (fun st => match st.kind with
    | .push q e d => if pushOpen co st then some (st, q, e, d) else none
    | _ => none)

/-- The first stalled push to an engine port that may go on. -/
def portPushStall (co : Coach) : Option (Stall × Nat × Entry) :=
  co.stalls.findSome? (fun st => match st.kind with
    | .portPush q e => if pushOpen co st then some (st, q, e) else none
    | _ => none)

/-- The lanes that stand at a stalled push; none for a push that a commit left. -/
def stallLanesNow (co : Coach) (st : Stall) : Mask :=
  if st.lanes = BitVec.allOnes 64 then 0 else st.lanes &&& lanesAt co st.ga st.step

/-- A stalled push completes: its lanes pass the operation. -/
def passPush (s : State) (k : Nat) (st : Stall) : State :=
  let s := modCoach s k (fun co => retryPast { co with stalls := co.stalls.erase st } (stallLanesNow co st))
  flushFpe s k

/-- A stalled push is tried: it completes, or its overflow slot faults, or it is `full`. -/
def tryPush (s : State) (k : Nat) (st : Stall) (q : Nat) (e : Entry) (full : State) : State :=
  let co := coachOf s k
  match pushReg s k q e with
  | .done s => passPush s k st
  | .full => full
  | .xlat x va s =>
    parkLanes s k (if st.lanes = BitVec.allOnes 64 then activeSet co else stallLanesNow co st) va x 2 true

/-- QUEUE_PUSH_COMPLETE: space has appeared. -/
def execQueuePushComplete (coach : Nat) (s : State) : Out :=
  .next (match pushStall (coachOf s coach) with
    | none => s
    | some (st, q, e, _) => if !isResident s coach then s else tryPush s coach st q e s)

/-- The cause and operand areas of a QFULL frame (11 R408). -/
def qfullArea (q : Nat) : Entry → List (Nat × Nat × Nat)
  | .word w => [(64, 1, q), (65, 1, 0), (640, 4, w.toNat)]
  | .lane ws valid => [(64, 1, q), (65, 1, 1), (640, 256, leNat ((List.range 64).flatMap (fun l => leBytes 4 (tgetD 0 ws l).toNat))),
      (896, 8, valid.toNat)]

/-- QFULL: the push has waited 8,192 cycles without space; space that has appeared lets it complete (05 R202). It takes the place of a trap whose entry waits for it, which arises again when its
operation issues after TRET (log 73). -/
def execQfull (coach : Nat) (s : State) : Out :=
  let co := coachOf s coach
  .next (match pushStall co with
    | none => s
    | some (st, q, e, d) =>
      if !isResident s coach || isDet s co then s
      else
        let late := clockTo s (coreOf co) d
        let commit := st.lanes == BitVec.allOnes 64
        let m := if commit then st.opLanes else stallLanesNow co st
        let word := if commit then st.opword else ((lowLane m).map (fun l => (laneOf co l).word)).getD 0
        tryPush s coach st q e (raiseTrap (modCoach late coach (fun co => { co with stalls := co.stalls.erase st })) coach
          { cls := 8, sub := 0, step := st.step, tmask := m, rmask := none, move := 0, moveTo := 0
            moveCounts := false, opword := word, opaddr := st.ga, area := qfullArea q e
            commit := commit }))

/-- Fill the first empty pop stall that a test accepts. -/
def fillPop (s : State) (k : Nat) (sel : Nat → Bool) (take : State → Nat → Option (Entry × State)) : State :=
  let co := coachOf s k
  match co.stalls.findSome? (fun st => match st.kind with
    | .pop q none => if sel q then some (st, q) else none
    | _ => none) with
  | none => s
  | some (st, q) =>
    match take s q with
    | none => s
    | some (e, s) =>
      modCoach s k (fun co => { co with stalls := co.stalls.map (fun x => if x = st then { x with kind := .pop q (some e) } else x) })

/-- QUEUE_POP_COMPLETE: an entry has come; the pop acquires at device scope (05 R204). -/
def execQueuePopComplete (coach : Nat) (s : State) : Out :=
  .next (if !isResident s coach then s
    else fillPop s coach (fun q => decide (q < 8)) (fun s q =>
      let co := coachOf s coach
      let core := coreOf co
      match boundQueue s co q with
      | none => none
      | some (qi, _) => (popQueue s (coreUnits core) co.region qi).map (fun r =>
          (r.1, acquireGlobal r.2 (l1Unit r.2 core) co.ctx 4))))

/-- PORT_PUSH_COMPLETE: the engine has consumed a word. -/
def execPortPushComplete (coach : Nat) (s : State) : Out :=
  let co := coachOf s coach
  .next (match portPushStall co with
    | none => s
    | some (st, q, e) =>
      if !isResident s coach then s
      else match pushReg s coach q e with
        | .done s => passPush s coach st
        | _ => s)

/-- PORT_POP_COMPLETE: a due response has come. -/
def execPortPopComplete (coach : Nat) (s : State) : Out :=
  .next (if !isResident s coach then s
    else fillPop s coach (fun q => decide (8 ≤ q)) (fun s q =>
      match (tget (coachOf s coach).ports q).bind (fun pk => (tget s.ports pk).map (fun p => (pk, p))) with
      | none => none
      | some (pk, p) =>
        match p.resps with
        | [] => none
        | r :: rs =>
          let co := coachOf s coach
          let s := { s with ports := tput s.ports pk { p with resps := rs } }
          some (.word r, acquireGlobal s (l1Unit s (coreOf co)) co.ctx 4)))

/-! ### Issue selection (10 R384, R385) -/

/-- Effective priority. -/
def effectivePrio (s : State) (co : Coach) : Nat :=
  let p := ((tget s.regions co.region).map Region.prio).getD 0 + co.waited / 1024
  if p < 15 then p else 15

/-- The resident coaches of a partition with their places. -/
def placedIn (s : State) (core p : Nat) : List (Nat × Nat) :=
  s.coaches.filterMap (fun e => match e.2.place with
    | some (c, q, i) => if c = core ∧ q = p then some (i, e.1) else none
    | none => none)

/-- The ready coaches of a partition with their places. -/
def readyIn (s : State) (core p : Nat) : List (Nat × Nat) :=
  (placedIn s core p).filter (fun e => coachReady s e.2)

/-- The distance of place `i` after the last one, in ascending order. -/
def afterPlace (last i : Nat) : Nat := (i + 16 - last - 1) % 16

/-- The coach that a partition issues for: the highest effective priority, ties by place order; a deterministic region's
turn goes to its next coach in rotation, provided it is ready (R385). -/
def selectIn (s : State) (part : Nat) : Option (Nat × Nat) :=
  let l := readyIn s (part / 4) (part % 4)
  let last := tgetD 15 s.lastPlace part
  let best := ((l.map (fun e => effectivePrio s (coachOf s e.2))).foldl (fun a b => if a < b then b else a) 0)
  let tops := l.filter (fun e => effectivePrio s (coachOf s e.2) == best)
  match leastBy (afterPlace last) (tops.map (fun e => e.1)) with
  | none => none
  | some i =>
    match tops.find? (fun e => e.1 == i) with
    | none => none
    | some e =>
      let co := coachOf s e.2
      if !isDet s co then some e
      else
        let mates := (placedIn s (part / 4) (part % 4)).filter (fun x => (coachOf s x.2).region == co.region)
        match leastBy (afterPlace (tgetD 15 s.lastPlace (rotationKey part co.region))) (mates.map (fun x => x.1)) with
        | some j => some ((l.find? (fun x => x.1 == j && (coachOf s x.2).region == co.region)).getD e)
        | none => some e

/-- ISSUE_SELECT: the partition's choice issues next. -/
def execIssueSelect (part : Nat) (s : State) : Out :=
  .next (match selectIn s part with
    | none => s
    | some (_, k) => { s with picked := some k, turn := 0 })

/-! ### Admission (10 R381, R383) -/

/-- The order in which waiting coaches are considered: head of the order first, by their return, then priority, then the
wait's start. -/
def admitsBefore (s : State) (a b : Coach) : Bool :=
  let prio (co : Coach) : Nat := ((tget s.regions co.region).map Region.prio).getD 0
  if a.atHead && !b.atHead then true
  else if b.atHead && !a.atHead then false
  else if a.atHead then decide (a.returned.getD a.waitSince ≤ b.returned.getD b.waitSince)
  else if prio b < prio a then true
  else if prio a < prio b then false
  else decide (a.waitSince ≤ b.waitSince)

/-- Insert into a sorted list. -/
def insertBy (le : Nat → Nat → Bool) (x : Nat) : List Nat → List Nat
  | [] => [x]
  | y :: l => if le x y then x :: y :: l else y :: insertBy le x l

/-- Nothing of the coach can issue: its lanes sleep, join, are parked, on the page of a trap's frame too, or stalled. -/
def coachWaits (s : State) (co : Coach) : Bool :=
  co.trap.all (fun t => t.wait.isSome) && (issuable s co == 0 || co.stalls.any (stallsAll s co) || detWaits s co)

/-- The waiting coaches of a pool that ask to join, in order. A coach at the head asks when a lane can issue. -/
def askers (s : State) (unit : Nat) : List Nat :=
  let l := (poolCoaches s unit).filter (fun e =>
    !e.2.active && !e.2.heldBack && (!e.2.atHead || !coachWaits s e.2))
  (l.map (fun e => e.1)).foldl (fun acc k => insertBy (fun a b => admitsBefore s (coachOf s a) (coachOf s b)) k acc) []

/-- The coach that a pool admits next, if any. -/
def admitNext (s : State) (unit : Nat) : Option Nat :=
  let act := (poolCoaches s unit).filter (fun e => e.2.active)
  let ceil := poolCeiling s unit
  let go (acc : Option Nat × Bool) (k : Nat) : Option Nat × Bool :=
    if acc.2 then acc
    else
      let co := coachOf s k
      let cap := leaseCap s co.region
      if ceil < co.leaseG ∨ cap < co.leaseG then (if act.isEmpty then (some k, true) else acc)
      else if leaseSum act + co.leaseG ≤ ceil
          ∧ leaseSum (act.filter (fun e => e.2.region == co.region)) + co.leaseG ≤ cap then (some k, true)
      else (none, true)
  ((askers s unit).foldl go (none, false)).1

/-- COACH_ADMISSION. -/
def execCoachAdmission (pool : Nat) (s : State) : Out :=
  .next (match admitNext s pool with
    | none => s
    | some k => modCoach s k (fun co =>
        { co with active := true, atHead := false, returned := none, admitted := cycleOf s (coreOf co), idleSince := cycleOf s (coreOf co) }))

/-- LONG_WAIT_EXIT: after 2,048 cycles of waiting. -/
def execLongWaitExit (coach : Nat) (s : State) : Out :=
  let co := coachOf s coach
  .next (if isResident s coach && co.active && coachWaits s co then
      leaveActive (clockTo s (coreOf co) (co.idleSince + 2049)) coach true false
    else s)

/-- The partition of a pool. -/
def poolPart (s : State) (unit : Nat) : Part := partOfCluster s (if unit < 160 then unit / 8 else unit - 160)

/-- The active coach that a throttled pool holds: the lowest priority, then the latest admitted. -/
def holdChoice (s : State) (unit : Nat) : Option Nat :=
  let act := (poolCoaches s unit).filter (fun e => e.2.active)
  let prio (co : Coach) : Nat := ((tget s.regions co.region).map Region.prio).getD 0
  match leastBy (fun p => p) (act.map (fun e => prio e.2)) with
  | none => none
  | some p =>
    let low := act.filter (fun e => prio e.2 == p)
    let latest := (low.map (fun e => e.2.admitted)).foldl (fun a b => if a < b then b else a) 0
    (low.find? (fun e => e.2.admitted == latest)).map (fun e => e.1)

/-- THROTTLE_INTERVAL: the end of a pool's interval of 4,096 cycles. -/
def execThrottleInterval (pool : Nat) (s : State) : Out :=
  let n := tgetD 0 s.poolIntervals pool
  let s := clockTo s (poolClock pool) ((n + 1) * 4096)
  let s := (poolCoaches s pool).foldl (fun s e => modCoach s e.1 (fun co => { co with heldBack := false })) s
  let hot := decide (2 ^ (poolPart s pool).thrLog < tgetD 0 s.poolHits pool)
  let s := { s with poolIntervals := tput s.poolIntervals pool (n + 1), poolHits := tdel s.poolHits pool }
  .next (if hot then
      (match holdChoice s pool with
        | some k => leaveActive s k false true
        | none => s)
    else s)

/-- LEASE_ESTIMATE_UPDATE (R380). -/
def execLeaseEstimateUpdate (coach : Nat) (s : State) : Out :=
  let co := coachOf s coach
  .next (if co.measured ∧ 1024 ≤ co.mi then
      let a := (co.alloc + 255) / 256
      let e := (if a < co.est - 1 then co.est - 1 else a) + co.vh / 32
      let e := if e < 1 then 1 else if 128 < e then 128 else e
      setLease s coach (fun co => { co with est := e, leaseG := e, mi := 0, alloc := 0, vh := 0 })
    else s)

/-! ### Time slices, eviction, restore (10 R386, 11 R434) -/

/-- Cycles of a context's time slice. -/
def sliceOf (s : State) (ctx : Nat) : Nat :=
  match tget s.ctxs ctx with
  | some c => 2 ^ (if c.tslice = 0 then 20 else c.tslice)
  | none => 2 ^ 20

/-- TIME_SLICE_EXPIRY. -/
def execTimeSliceExpiry (coach : Nat) (s : State) : Out :=
  let co := coachOf s coach
  .next (if isResident s coach && !co.sliceExpired then
      modCoach (clockTo s (coreOf co) (co.sliceStart + sliceOf s co.ctx)) coach (fun co => { co with sliceExpired := true })
    else s)

/-- Priority of a region. -/
def prioOf (s : State) (rg : Nat) : Nat := ((tget s.regions rg).map Region.prio).getD 0

/-- The context of a region is saved. -/
def regionSaved (s : State) (rg : Nat) : Bool :=
  match (tget s.regions rg).bind (fun r => tget s.ctxs r.ctx) with
  | some c => c.saved
  | none => true

/-- Coaches that wait to become resident in a cluster, and rakes that wait to be placed on it: their priorities. -/
def waitersFor (s : State) (cl : Nat) : List Nat :=
  s.coaches.filterMap (fun e =>
    if e.2.place.isNone && ((tget s.rakes e.2.rake).bind Rake.cluster) == some cl && !halting s e.2
        && !regionSaved s e.2.region then some (prioOf s e.2.region) else none)
  ++ s.rakes.filterMap (fun e =>
    if e.2.cluster.isNone && !e.2.unslotted && e.2.halt.isNone && !regionSaved s e.2.region
        && (e.2.pinned.isNone || e.2.pinned == some cl)
        && (match (tget s.regions e.2.region).bind (fun r => tget s.ctxs r.ctx) with
          | some c => (partOf s c.part).clusters.getLsbD cl
          | none => false) then some (prioOf s e.2.region) else none)

/-- COACH_EVICTION on a core without a free place: an expired coach of equal or lower priority leaves. -/
def execCoachEviction (core : Nat) (s : State) : Out :=
  let waiters := waitersFor s (core / 8)
  let top := waiters.foldl (fun a b => if a < b then b else a) 0
  let l := s.coaches.filter (fun e => match e.2.place with
    | some (c, _, _) => c == core && e.2.sliceExpired && !e.2.inHandler && e.2.trap.isNone && decide (prioOf s e.2.region ≤ top)
    | none => false)
  .next (if waiters.isEmpty ∨ coreCount s core < 64 then s
    else match leastBy id (l.map (fun e => prioOf s e.2.region)) with
      | none => s
      | some p =>
        let low := l.filter (fun e => prioOf s e.2.region == p)
        match leastBy id (low.map (fun e => e.2.sliceStart)) with
        | none => s
        | some t => match low.find? (fun e => e.2.sliceStart == t) with
          | some e => saveCoach s e.1
          | none => s)

/-- Regions of the tree above a region, itself first. -/
def ancestors (s : State) : Nat → Nat → List Nat
  | 0, _ => []
  | fuel + 1, rg => rg :: (match (tget s.regions rg).bind Region.parent with
    | some p => ancestors s fuel p
    | none => [])

/-- Cores that a region's tree occupies. -/
def treeCores (s : State) (top : Nat) : List Nat :=
  (s.coaches.filterMap (fun e =>
    if regionBelow s top regionFuel e.2.region then e.2.place.map (fun p => p.1) else none)).eraseDups

/-- The tree stays within the CORES of each of its regions. -/
def coresFit (s : State) (rg : Nat) (cores : List Nat) : Bool :=
  (ancestors s regionFuel rg).all (fun a =>
    match tget s.regions a with
    | some r => decide ((treeCores s a ++ cores).eraseDups.length ≤ r.cores)
    | none => true)

/-- The core and place where a saved coach can be restored: its tiles are free there, and its region tree stays within CORES
(R375, R386). -/
def restorePlace (s : State) (k : Nat) : Option (Nat × Nat × Nat) :=
  let co := coachOf s k
  match (tget s.rakes co.rake).bind Rake.cluster with
  | none => none
  | some cl => (coreFor s cl (fun c => tilesFree s co c && coresFit s co.region [c])).bind (placeOn s)

/-- A saved coach may come back. -/
def mayRestore (s : State) (k : Nat) : Bool :=
  match tget s.coaches k with
  | some co => co.place.isNone && !halting s co && !regionSaved s co.region && (restorePlace s k).isSome
  | none => false

/-- COACH_RESTORE: the image is read, and the coach takes its place. -/
def execCoachRestore (coach : Nat) (s : State) : Out :=
  .next (if !mayRestore s coach then s
    else match restorePlace s coach with
      | none => s
      | some p =>
        match readImage s coach (p.1 / 80) with
        | (false, s) => s
        | (true, s) => seatCoach s coach p)

/-! ### Placement (10 R375, 01 R37, R40) -/

/-- Scratchpad units in use on a cluster: first unit and count. -/
def padRuns (s : State) (cl : Nat) : List (Nat × Nat) :=
  s.rakes.filterMap (fun e => if e.2.cluster = some cl then some (e.2.padBase, e.2.window / 16384) else none)

/-- The lowest free run of `n` of the 512 units. -/
def padRun (s : State) (cl n : Nat) : Option Nat :=
  let runs := padRuns s cl
  (List.range 512).find? (fun b => decide (b + n ≤ 512) && runs.all (fun r => decide (b + n ≤ r.1 ∨ r.1 + r.2 ≤ b)))

/-- No rake occupies a cluster. -/
def clusterEmpty (s : State) (cl : Nat) : Bool := s.rakes.all (fun e => e.2.cluster != some cl)

/-- The cluster is, or can be made, fused as the region asks. -/
def fusedFits (s : State) (r : Region) (cl : Nat) : Bool :=
  s.fusedClusters.contains cl == r.fused || clusterEmpty s cl

/-- Seats for `n` coaches on a cluster, one at a time. -/
def seatsOn (s : State) (cl : Nat) : Nat → Option (List (Nat × Nat × Nat))
  | 0 => some []
  | n + 1 =>
    match (coreFor s cl (fun _ => true)).bind (placeOn s) with
    | none => none
    | some p =>
      -- a stand-in coach takes the seat while the others are chosen
      let key := 2 ^ 40 + n
      let s := { s with coaches := tput s.coaches key { Coach.none with place := some p } }
      (seatsOn s cl n).map (fun l => p :: l)

/-- The lowest `n` free FSLOTs of a context. -/
def freeFslots (s : State) (ctx : Nat) : Nat → List Nat → List Nat
  | 0, _ => []
  | n + 1, used =>
    let f := firstFree 16384 used
    if f < 16384 then f :: freeFslots s ctx n (f :: used) else []

def fslotsOf (s : State) (ctx n : Nat) : List Nat :=
  freeFslots s ctx n (s.coaches.filterMap (fun e => if e.2.ctx = ctx then some e.2.fslot else none))

/-- A coach of a new rake, as R40 states it. -/
def newCoach (s : State) (r : Region) (st : Stage) (rg rk ctx fslot idx : Nat) (place : Nat × Nat × Nat) : Coach :=
  let plate := (tget s.ctxs ctx).bind (fun c => tget c.plates r.plate)
  let width := if r.prot then 32 else if r.plate ≠ 0 ∧ (plate.map Plate.lanes).getD 64 = 32 then 32 else 64
  let now := cycleOf s place.1
  let base : Coach :=
    { Coach.none with ctx := ctx, fslot := fslot, region := rg, rake := rk, idx := idx, place := some place, width := width
                      prot := r.prot, plate := r.plate, version := r.version, nregs := st.regs }
  let p := privSize s base
  let lane : Lane := { Lane.absent with state := .running, ga := st.entry, sp := p }
  let pair (co : Coach) (n a : Nat) : Coach := sset (sset co n (BitVec.ofNat 32 a)) (n + 1) (BitVec.ofNat 32 (a / 2 ^ 32))
  let co := pair (pair base 0 r.args) 2 r.block
  { co with lanes := List.replicate width lane, leaseG := if st.lease = 0 then 8 else st.lease, measured := st.lease == 0
            active := false, waitSince := now, idleSince := now, sliceStart := now }

/-- Zero a coach's slot map; the context is reset when it does not translate (11 R431). -/
def zeroSlotMap (s : State) (ctx die fslot : Nat) : State :=
  match tget s.ctxs ctx with
  | none => s
  | some c =>
    let n := 64 * c.privp
    if n = 0 then s else writeArea s ctx die (c.smapbase + n * fslot) n [(0, List.replicate n 0)]

/-- The coaches of a new rake. -/
def makeCoaches (s : State) (r : Region) (rk idx ctx : Nat) (st : Stage) (seats : List (Nat × Nat × Nat)) : State :=
  let rg := r
  let slots := fslotsOf s ctx seats.length
  (mapFrom (fun i e => (i, e)) 0 (seats.zip slots)).foldl (fun s e =>
    let k := coachKey ctx e.2.2
    let s := { s with coaches := tput s.coaches k (newCoach s rg st (regionKey ctx r.number) rk ctx e.2.2 e.1 e.2.1) }
    let s := modRake s (rakeKey (regionKey ctx r.number) idx) (fun x => { x with coaches := x.coaches ++ [k] })
    zeroSlotMap s ctx (e.2.1.1 / 80) e.2.2) s

/-- The clusters in the order of the search. -/
def searchOrder (r : Region) (k : Rake) : List Nat :=
  match k.pinned, r.lastCluster with
  | some c, _ => [c]
  | none, some c => (List.range 20).map (fun i => (c + 1 + i) % 20)
  | none, none => List.range 20

/-- The rake fits on a cluster: the first unit of its window and its coaches' seats. -/
def fitsOn (s : State) (rg : Nat) (r : Region) (k : Rake) (part : Part) (cl : Nat) : Option (Nat × List (Nat × Nat × Nat)) :=
  if !part.clusters.getLsbD cl || !fusedFits s r cl then none
  else
    match padRun s cl (k.window / 16384), seatsOn s cl (if k.created then k.coaches.length else r.coaches) with
    | some b, some seats =>
      if coresFit s rg (seats.map (fun p => p.1)) then some (b, seats) else none
    | _, _ => none

/-- The RSLOT of a rake: the one it has, or the lowest free one (11 R429). -/
def takenRslot (s : State) (k : Rake) (ctx : Nat) : Option Nat :=
  let n := if k.rslot < 2048 then k.rslot else freeRslot s ctx
  if n < 2048 then some n else none

/-- What the placement of a rake finds: the cluster, the first unit and the seats. -/
def placeFor (s : State) (rk : Nat) : Option (Nat × Nat × List (Nat × Nat × Nat)) :=
  match tget s.rakes rk with
  | none => none
  | some k =>
    match (tget s.regions k.region).bind (fun r => (tget s.ctxs r.ctx).map (fun c => (r, c))) with
    | none => none
    | some (r, c) =>
      if k.cluster.isSome || k.unslotted || k.halt.isSome || c.saved || (takenRslot s k r.ctx).isNone then none
      else if !k.created && decide ((fslotsOf s r.ctx r.coaches).length < r.coaches) then none
      else (searchOrder r k).findSome? (fun cl =>
        (fitsOn s k.region r k (partOf s c.part) cl).map (fun x => (cl, x.1, x.2)))

/-- RAKE_PLACEMENT: the window is zero and the coaches stand at rake entry; a rake placed again gets its cluster, and its
coaches are restored. -/
def execRakePlacement (rake : Nat) (s : State) : Out :=
  .next (match placeFor s rake, tget s.rakes rake with
    | some (cl, base, seats), some k =>
      match tget s.regions k.region with
      | none => s
      | some r =>
        let s := if s.fusedClusters.contains cl == r.fused then s else setFused s cl r.fused
        let s := modRegion s k.region (fun r => { r with lastCluster := some cl })
        let rslot := (takenRslot s k r.ctx).getD k.rslot
        let s := modRake s rake (fun k =>
          { k with cluster := some cl, padBase := base, pinned := none, created := true, rslot := rslot })
        if k.created then readRakeImage s rake
        else
          match r.stages[k.stage]? with
          | some st =>
            -- the acquire of the rake's first operation, in the L1 of each of its cores (09 R347, R360)
            let s := (seats.map (fun p => p.1)).eraseDups.foldl (fun s c => acquireGlobal s (l1Unit s c) r.ctx 4) s
            makeCoaches s r rake k.idx r.ctx st seats
          | none => s
    | _, _ => s)

/-! ### Stages (10 R376, R377) -/

/-- The producer and the consumer of a queue that exactly two stages bind. -/
def between (r : Region) (qi : Nat) : Option (Nat × Nat) :=
  match (mapFrom (fun i (st : Stage) => (i, st)) 0 r.stages).filter (fun e => e.2.bind.contains qi) with
  | [a, b] => some (a.1, b.1)
  | _ => none

/-- The pending move of a queue. -/
def pendingMove (r : Region) (qi : Nat) (q : Queue) : Option (Nat × Nat) :=
  match between r qi with
  | none => none
  | some (p, c) =>
    let min (x : Nat) : Nat := ((r.stages[x]?).map Stage.min).getD 0
    let max (x : Nat) : Nat := ((r.stages[x]?).map Stage.max).getD 0
    if 3 * q.depth ≤ 4 * q.entries.length ∧ min p < stageSlots r p ∧ stageSlots r c < max c then some (p, c)
    else if 4 * q.entries.length ≤ q.depth ∧ min c < stageSlots r c ∧ stageSlots r p < max p then some (c, p)
    else none

/-- Core 0 of the cluster of the rake in slot 0. -/
def rebalCore (s : State) (rg : Nat) : Option Nat :=
  (s.rakes.find? (fun e => e.2.region == rg && e.2.slot == some 0 && !e.2.unslotted)).bind (fun e =>
    e.2.cluster.map (fun c => c * 8))

/-- Cycles counted since the count was last looked at; none while it pauses, or on another core than before. -/
def rebalElapsed (s : State) (r : Region) (core : Nat) : Nat :=
  match r.rebalSeen with
  | some (c, t) => if c = core then cycleOf s core - t else 0
  | none => 0

/-- A rebalancing would change a pending move. -/
def rebalNews (r : Region) : Bool :=
  (mapFrom (fun i q => (i, q)) 0 r.queues).any (fun x => pendingMove r x.1 x.2 != x.2.pending)

/-- The count of R377 as time passes: it pauses while slot 0's rake has no cluster. A rebalancing that changes no pending move
needs no step of its own. -/
def countRebalance (s : State) (rg : Nat) (r : Region) : Region :=
  if r.det || r.completed then r
  else match rebalCore s rg with
    | none => { r with rebalSeen := none }
    | some core =>
      let n := rebalElapsed s r core
      let left := if n < r.rebalLeft then r.rebalLeft - n
        else if rebalNews r then 0 else 8192 - (n - r.rebalLeft) % 8192
      { r with rebalLeft := left, rebalSeen := some (core, cycleOf s core) }

/-- STAGE_REBALANCE: 8,192 cycles have been counted. -/
def execStageRebalance (region : Nat) (s : State) : Out :=
  .next (match tget s.regions region, rebalCore s region with
    | some r, some core =>
      if r.det || r.completed then s
      else
        let s := clockTo s core (cycleOf s core + (r.rebalLeft - rebalElapsed s r core))
        modRegion s region (fun r =>
          { r with queues := mapFrom (fun i (q : Queue) => { q with pending := pendingMove r i q }) 0 r.queues
                   rebalLeft := 8192, rebalSeen := some (core, cycleOf s core) })
    | _, _ => s)

/-- Every coach of the rake is stalled at a pop or has exited. -/
def atPopPoint (s : State) (r : Rake) : Bool :=
  r.created && !r.coaches.isEmpty && r.coaches.all (fun k =>
    let co := coachOf s k
    lanesOver co || co.trap.isNone && issuable s co == 0
    && co.stalls.any (fun st => match st.kind with
      | .pop q none => decide (q < 8)
      | _ => false)
    && !co.lanes.any (fun x => x.state = .sleeping || x.state = .parked))

/-- The stage that takes the slot of a rake at a pop point: a pending move's, or another that needs one (R377). -/
def moveTarget (s : State) (rg : Nat) (r : Region) (x : Nat) : Option (Nat × Option Nat) :=
  match (pendingFrom r x).find? (fun e => canMove s rg r x e.2) with
  | some (qi, y) => some (y, some qi)
  | none => ((List.range r.stages.length).find? (fun y => y != x && canMove s rg r x y true)).map (fun y => (y, none))

/-- SLOT_MOVE: a rake at a pop point gives its slot to another stage and waits unslotted. -/
def execSlotMove (rake : Nat) (s : State) : Out :=
  .next (match tget s.rakes rake with
    | none => s
    | some k =>
      match tget s.regions k.region with
      | none => s
      | some r =>
        if r.det || k.unslotted || k.cluster.isNone || !atPopPoint s k then s
        else match moveTarget s k.region r k.stage with
          | none => s
          | some (y, qi) =>
            let s := saveRake s rake
            let s := modRake s rake (fun k => { k with unslotted := true, slot := none })
            fillSlot (modRegion s k.region (fun r => shiftSlot r k.stage y (qi.getD r.queues.length))) k.region y k.slot qi.isNone)

end Sys2Proof.Machine
end

