-- ==== Sys2Proof/Machine/Plates.lean ====
section
/-! DEFINITION. Loading plates (08 R298-R306, R310, R312, R323-R325, R331): reading an image and the loader's checks. -/
namespace Sys2Proof.Machine

/-! ### Checks 1-7 of 02 R61 for a template's word: the operation is tried in a coach of its own -/

/-- A native operation in a state. -/
def tryNative (i : Instr) (s : State) : Out :=
  match i with
  | .nop w => execNop w s
  | .bra w => execBra w s
  | .brx w => execBrx w s
  | .call w => execCall w s
  | .callx w => execCallx w s
  | .ret w => execRet w s
  | .join w => execJoin w s
  | .exit w => execExit w s
  | .sleep w => execSleep w s
  | .sleepBar w => execSleepBar w s
  | .yield w => execYield w s
  | .iadd w => execIadd w s
  | .isub w => execIsub w s
  | .imul w => execImul w s
  | .imulh w => execImulh w s
  | .imad w => execImad w s
  | .iaddc w => execIaddc w s
  | .imin w => execImin w s
  | .imax w => execImax w s
  | .iabs w => execIabs w s
  | .icmp w => execIcmp w s
  | .sel w => execSel w s
  | .and w => execAnd w s
  | .or w => execOr w s
  | .xor w => execXor w s
  | .andn w => execAndn w s
  | .shl w => execShl w s
  | .shr w => execShr w s
  | .sar w => execSar w s
  | .rotl w => execRotl w s
  | .bfe w => execBfe w s
  | .bfi w => execBfi w s
  | .popc w => execPopc w s
  | .clz w => execClz w s
  | .ctz w => execCtz w s
  | .lea w => execLea w s
  | .mov w => execMov w s
  | .movi w => execMovi w s
  | .movhi w => execMovhi w s
  | .iadd64 w => execIadd64 w s
  | .imad64 w => execImad64 w s
  | .idp4 w => execIdp4 w s
  | .fadd w => execFadd w s
  | .fsub w => execFsub w s
  | .fmul w => execFmul w s
  | .ffma w => execFfma w s
  | .fmin w => execFmin w s
  | .fmax w => execFmax w s
  | .fcmp w => execFcmp w s
  | .frnd w => execFrnd w s
  | .frcp w => execFrcp w s
  | .frsq w => execFrsq w s
  | .fsqrt w => execFsqrt w s
  | .fexp2 w => execFexp2 w s
  | .flog2 w => execFlog2 w s
  | .fsin w => execFsin w s
  | .fcos w => execFcos w s
  | .fclass w => execFclass w s
  | .hadd2 w => execHadd2 w s
  | .hmul2 w => execHmul2 w s
  | .hfma2 w => execHfma2 w s
  | .hmin2 w => execHmin2 w s
  | .hmax2 w => execHmax2 w s
  | .hdot2 w => execHdot2 w s
  | .fdp4n w => execFdp4n w s
  | .cvt w => execCvt w s
  | .cvtn w => execCvtn w s
  | .pack w => execPack w s
  | .unpack w => execUnpack w s
  | .scalex w => execScalex w s
  | .rand w => execRand w s
  | .rseed w => execRseed w s
  | .shfl w => execShfl w s
  | .ballot w => execBallot w s
  | .vote w => execVote w s
  | .redx w => execRedx w s
  | .scanx w => execScanx w s
  | .mop w => execMop w s
  | .mpopc w => execMpopc w s
  | .mfirst w => execMfirst w s
  | .mact w => execMact w s
  | .mmov w => execMmov w s
  | .spr w => execSpr w s
  | .sprWr w => execSprWr w s
  | .ld w => execLd w s
  | .st w => execSt w s
  | .lds w => execLds w s
  | .sts w => execSts w s
  | .ldl w => execLdl w s
  | .stl w => execStl w s
  | .atom w => execAtom w s
  | .atoms w => execAtoms w s
  | .fence w => execFence w s
  | .cctl w => execCctl w s
  | .pref w => execPref w s
  | .ipref w => execIpref w s
  | .ipin w => execIpin w s
  | .iunpin w => execIunpin w s
  | .ldd w => execLdd w s
  | .std w => execStd w s
  | .bari w => execBari w s
  | .bara w => execBara w s
  | .barw w => execBarw w s
  | .bars w => execBars w s
  | .barx w => execBarx w s
  | .tbar w => execTbar w s
  | .tlwait w => execTlwait w s
  | .tlrd w => execTlrd w s
  | .cpy w => execCpy w s
  | .cpseal w => execCpseal w s
  | .cpwait w => execCpwait w s
  | .qctlOpen w => execQctlOpen w s
  | .qctlClose w => execQctlClose w s
  | .qctlDrain w => execQctlDrain w s
  | .mcfg w => execMcfg w s
  | .mma w => execMma w s
  | .mloop w => execMloop w s
  | .mzero w => execMzero w s
  | .mlda w => execMlda w s
  | .msta w => execMsta w s
  | .mprom w => execMprom w s
  | .mverRead w => execMverRead w s
  | .mverAcq w => execMverAcq w s
  | .mverRel w => execMverRel w s
  | .mverWait w => execMverWait w s
  | .mmeta w => execMmeta w s
  | .trap w => execTrap w s
  | .tret w => execTret w s
  | .leaseDecl w => execLeaseDecl w s
  | .leaseMeas w => execLeaseMeas w s
  | .czopen w => execCzopen w s
  | .czclose w => execCzclose w s
  | .spawn w => execSpawn w s
  | .sysrd w => execSysrd w s
  | .syswr w => execSyswr w s
  | .dbgbrk w => execDbgbrk w s
  | .dturn w => execDturn w s
  | _ => .next s

/-- A machine with one coach, of a context that does not exist: a trap that it raises stays pending. -/
def tryState (w : Dword) : State :=
  let co := { Coach.none with ctx := 2 ^ 20, region := 2 ^ 60, rake := 2 ^ 60, nregs := 192, place := some (0, 0, 0)
                              lanes := [{ Lane.absent with state := .running }] }
  { State.reset with coaches := [(0, co)]
                     iss := { Iss.reset with group := 1, word := w } }

/-- The word passes checks 1-7 of R61. -/
def wordOk (w : Dword) : Bool :=
  -- the word as a marked operation of the never predicate: checks 1-7 act, the operation's own checks do not (02 R61)
  let w := (w &&& BitVec.ofNat 64 (2 ^ 64 - 1 - 0x3F * 2 ^ 50)) ||| BitVec.ofNat 64 (2 ^ 50 + 2 ^ 55)
  match decodeNative w with
  | .instr i =>
    match tryNative i (tryState w) with
    | .next s =>
      (match (coachOf s 0).trap with
        | some t => !(t.cls == 1 && decide (1 ≤ t.sub ∧ t.sub ≤ 7))
        | none => true)
    | _ => true
  | _ => false

/-! ### The image (R298, R299) -/

/-- A number of the image. -/
def imgNum (b : List Byte) (o n : Nat) : Nat := leNat ((b.drop o).take n)

/-- The header of an image. -/
structure PlateHeader where
  lanes : Nat
  lenrule : Nat
  lpos : Nat
  gunit : Nat
  npat : Nat
  epat : Nat
  nplane : Nat
  ntpl : Nat
  tvbase : Nat
  tvcnt : Nat
  tsbase : Nat
  tscnt : Nat
  flags : Nat
  needmaj : Nat
  needmin : Nat
  imglen : Nat
  patoff : Nat
  plnoff : Nat
  tixoff : Nat
  tploff : Nat
  sysmin : Nat
  syspat : Nat
  deriving DecidableEq, Repr

/-- Read the header. -/
def plateHeader (b : List Byte) : PlateHeader :=
  { lanes := imgNum b 6 1, lenrule := imgNum b 7 1, lpos := imgNum b 8 1, gunit := imgNum b 9 1, npat := imgNum b 10 1
    epat := imgNum b 11 1, nplane := imgNum b 12 2, ntpl := imgNum b 14 2, tvbase := imgNum b 16 1, tvcnt := imgNum b 17 1
    tsbase := imgNum b 18 1, tscnt := imgNum b 19 1, flags := imgNum b 20 1, needmaj := imgNum b 21 1
    needmin := imgNum b 22 2, imglen := imgNum b 24 4, patoff := imgNum b 28 4, plnoff := imgNum b 32 4
    tixoff := imgNum b 36 4, tploff := imgNum b 40 4, sysmin := imgNum b 44 2, syspat := imgNum b 46 2 }

/-- Check 4 of R331; a system plate has the values of R323. -/
def headerOk (b : List Byte) (h : PlateHeader) (sys : Bool) : Bool :=
  (if sys then h.lanes == 0 && h.lenrule == 1 && h.tvbase == 184 && h.tsbase == 28 && h.flags == 1
    else (h.lanes == 64 || h.lanes == 32) && h.flags == 0 && h.sysmin == 0 && h.syspat == 0)
  && decide (h.lenrule ≤ 2) && (if h.lenrule = 2 then decide (h.lpos ≤ 14) else h.lpos == 0)
  && [1, 2, 4, 8].contains h.gunit && decide (1 ≤ h.npat ∧ h.npat ≤ 32) && decide (h.epat < h.npat)
  && decide (h.nplane ≤ 1024) && decide (h.ntpl ≤ 1024) && decide (h.tvcnt ≤ 8) && decide (h.tvbase + h.tvcnt ≤ 192)
  && decide (h.tscnt ≤ 4) && decide (h.tsbase + h.tscnt ≤ 32) && imgNum b 48 16 == 0

/-- Where template `t` begins. -/
def templateAt (b : List Byte) (h : PlateHeader) (t : Nat) : Nat := h.tploff + 16 * imgNum b (h.tixoff + 4 * t) 4

/-- The operations of the run at an offset, up to its LAST; none when it does not end within 8 operations and the image. -/
def templateRun (b : List Byte) (len : Nat) : Nat → Nat → Option (List (Dword × Dword))
  | 0, _ => none
  | fuel + 1, o =>
    if len < o + 16 then none
    else
      let w : Dword := BitVec.ofNat 64 (imgNum b o 8)
      let sub : Dword := BitVec.ofNat 64 (imgNum b (o + 8) 8)
      if sub.getLsbD 63 then some [(w, sub)] else (templateRun b len fuel (o + 16)).map (fun l => (w, sub) :: l)

/-- The tables of an image: first byte and byte count. The template area reaches to the end of its last run; a run that
does not end in the image is left to check 10. -/
def plateTables (b : List Byte) (h : PlateHeader) : List (Nat × Nat) :=
  let ends := (List.range h.ntpl).filterMap (fun t =>
    (templateRun b h.imglen 8 (templateAt b h t)).map (fun r => templateAt b h t + 16 * r.length))
  let last := ends.foldl (fun a e => if a < e then e else a) h.tploff
  [(h.patoff, 64 * h.npat), (h.plnoff, 24 * h.nplane), (h.tixoff, 4 * h.ntpl), (h.tploff, last - h.tploff)]

/-- Two spans of bytes meet. -/
def spansMeet (x y : Nat × Nat) : Bool := decide (x.1 < y.1 + y.2 ∧ y.1 < x.1 + x.2)

/-- No span meets a later one. -/
def spansApart : List (Nat × Nat) → Bool
  | [] => true
  | x :: l => l.all (fun y => !spansMeet x y) && spansApart l

/-- Check 5 of R331. -/
def layoutOk (b : List Byte) (h : PlateHeader) : Bool :=
  decide (64 ≤ h.imglen ∧ h.imglen ≤ 262144)
  && h.patoff % 8 == 0 && h.plnoff % 8 == 0 && h.tixoff % 4 == 0 && h.tploff % 16 == 0
  && (plateTables b h).all (fun t => decide (t.1 + t.2 ≤ h.imglen))
  && spansApart ((0, 64) :: (plateTables b h).filter (fun t => t.2 != 0))

/-! ### Patterns and planes (R301, R303, R324) -/

/-- One field entry. -/
def fieldOk (e lenrule : Nat) : Bool :=
  let npc := field e 63 62
  let piece (i : Nat) : Nat := field e (16 * i + 15) (16 * i)
  field e 60 48 == 0
  && (List.range 3).all (fun i =>
    if i < npc then
      let pos := piece i / 256
      let n := piece i % 256
      decide (1 ≤ n ∧ n ≤ 32) && decide (pos + n ≤ (if lenrule = 0 then 32 else 64))
    else piece i == 0)
  && decide (((List.range npc).map (fun i => piece i % 256)).foldl (· + ·) 0 ≤ 32)

/-- The entries of pattern `p`. -/
def patternAt (b : List Byte) (h : PlateHeader) (p : Nat) : List Dword :=
  (List.range 8).map (fun k => BitVec.ofNat 64 (imgNum b (h.patoff + 64 * p + 8 * k) 8))

/-- Plane `p`. -/
def planeAt (b : List Byte) (h : PlateHeader) (p : Nat) : Plane :=
  let o := h.plnoff + 24 * p
  { mask := BitVec.ofNat 64 (imgNum b o 8), value := BitVec.ofNat 64 (imgNum b (o + 8) 8), tidx := imgNum b (o + 16) 2
    pidx := imgNum b (o + 18) 1, lenc := imgNum b (o + 19) 1 }

/-- One plane. -/
def planeOk (b : List Byte) (h : PlateHeader) (sys : Bool) (p : Nat) : Bool :=
  let x := planeAt b h p
  x.value &&& ~~~x.mask == 0 && decide (x.tidx < h.ntpl) && decide (x.pidx < h.npat)
  && (if h.lenrule = 2 then decide (x.lenc ≤ 4) else x.lenc == 0) && imgNum b (h.plnoff + 24 * p + 20) 4 == 0
  && (h.lenrule != 0 || (hiOf x.mask == 0 && hiOf x.value == 0))
  && (!sys || (x.mask.toNat / 2 ^ 56 == 0xFF && decide (0xE0 ≤ x.value.toNat / 2 ^ 56 ∧ x.value.toNat / 2 ^ 56 ≤ 0xFE)))

/-! ### Templates (R304-R306, R310, R312) -/

/-- The operand fields of a word's format with their codes, D first. -/
def wordCodes (w : NOp) : List Nat :=
  match fKind w with
  | 0 => [fD w, fA w, fB w, fC w]
  | 1 => [fD w, fA w]
  | _ => [fD w]

/-- A slot byte: the field and transform are known, and the field that it fills is zero in the word. -/
def slotOk (w : NOp) (sub : Nat) (n : Nat) : Bool :=
  let b := field sub (55 - 8 * n) (48 - 8 * n)
  let tr := b / 16
  !bitOf b 3
  && (tr == 0
    || (if n = 4 then decide (tr ≤ 4) && fKind w != 0 && fImm w == 0
        else decide (tr ≤ 5) && decide (n < (wordCodes w).length) && (wordCodes w)[n]? == some 0))

/-- Operations that may stand before the last (R312). -/
def mayRepeat (op : Nat) (w : NOp) : Bool :=
  decide (0x10 ≤ op ∧ op ≤ 0x2E) && !(op == 0x19 && cmpMsk w)
  || decide (0x40 ≤ op ∧ op ≤ 0x56) && !(op == 0x46 && cmpMsk w)
  || decide (0x70 ≤ op ∧ op ≤ 0x74)
  || [0x80, 0x82, 0x83, 0x84, 0x86, 0x87, 0x90, 0x91, 0x92, 0x93, 0x98, 0x9A, 0x9E].contains op
  || op == 0x81 && !(fX w).testBit 4
  || op == 0x89 && (fX w).testBit 4
  || op == 0x8A && !sprWrites w
  || (op == 0x94 || op == 0x95) && !(fKind w == 0 && mV w)

/-- Registers that D names in those operations. -/
def dCount (op lanes : Nat) (w : NOp) : Nat :=
  let wide :=
    if op = 0x9E then false
    else if op = 0x8A then sprWide (sprNum w)
    else if [0x28, 0x2B, 0x2C, 0x2D, 0x81, 0x89].contains op then true
    else if decide (0x1A ≤ op ∧ op ≤ 0x24) || [0x29, 0x70, 0x80, 0x83, 0x84].contains op then tyWide (fTy w)
    else if [0x90, 0x92, 0x94].contains op then mWide w
    else false
  if op = 0x9E then lGroup w (if lanes = 64 then 64 else 32) else if wide then 2 else 1

/-- The rules of R312 for an operation before the last. -/
def repeatOk (h : PlateHeader) (op : Nat) (w : NOp) (sub : Nat) : Bool :=
  let named : Bool := match codeOf (fD w) with
    | .z => true
    | .v r => decide (h.tvbase ≤ r ∧ r + dCount op h.lanes w ≤ h.tvbase + h.tvcnt)
    | .s r => decide (h.tsbase ≤ r ∧ r + dCount op h.lanes w ≤ h.tsbase + h.tscnt)
    | _ => false
  let store := [0x91, 0x93, 0x95].contains op
  let noReg := op == 0x98 || op == 0x9A
  mayRepeat op w
  && (wordCodes w).all (fun c => !decide (0xE0 ≤ c ∧ c ≤ 0xEF))
  && (List.range 4).all (fun n => field sub (55 - 8 * n) (52 - 8 * n) != 3)
  && (noReg || (field sub 55 52 == 0 && (store || named)))

/-- One operation of a template (R305, R306, R310, R331 check 10). -/
def templateOpOk (h : PlateHeader) (x : Dword × Dword) (last : Bool) : Bool :=
  let op := opOf x.1
  let w := NOp.ofWord x.1
  let sub := x.2.toNat
  field sub 62 56 == 0 && field sub 15 0 == 0 && (List.range 5).all (slotOk w sub) && decide (op < 0xE0) && wordOk x.1
  && (if last then op != 0xD1 else repeatOk h op w sub)

/-- Every operation of a template. -/
def templateOk (h : PlateHeader) : List (Dword × Dword) → Bool
  | [] => false
  | [x] => templateOpOk h x true
  | x :: l => templateOpOk h x false && templateOk h l

/-! ### The loader -/

/-- Check 10, and the templates. -/
def templatesOf (b : List Byte) (h : PlateHeader) : Option (List (List (Dword × Dword))) :=
  let runs := (List.range h.ntpl).map (fun t => templateRun b h.imglen 8 (templateAt b h t))
  if runs.all (fun r => match r with
      | some l => templateOk h l
      | none => false) then some (runs.map (fun r => r.getD [])) else none

/-- Checks 3-5 and 7-10 of an image whose bytes are known: the plate, or the status. -/
def checkPlate (b : List Byte) (sys : Bool) (minor : Nat) : Except Nat Plate :=
  let h := plateHeader b
  let codes := (List.range h.nplane).map (fun p => (planeAt b h p).value.toNat / 2 ^ 56)
  if imgNum b 0 4 ≠ 0x31504C44 ∨ imgNum b 4 2 ≠ 1 then .error 3
  else if !headerOk b h sys then .error 4
  else if !layoutOk b h then .error 5
  else if b.length < h.imglen then .error 10
  else if h.needmaj ≠ 4 ∨ minor < h.needmin then .error 6
  else if !(List.range h.npat).all (fun p => (patternAt b h p).all (fun e => fieldOk e.toNat h.lenrule)) then .error 7
  else if !((List.range h.nplane).all (planeOk b h sys) && (!sys || codes.eraseDups.length == codes.length)) then .error 8
  else match templatesOf b h with
    | none => .error 9
    | some ts =>
      .ok { lanes := h.lanes, lenrule := h.lenrule, lpos := h.lpos, gunit := h.gunit, epat := h.epat, tvbase := h.tvbase
            tvcnt := h.tvcnt, tsbase := h.tsbase, tscnt := h.tscnt, needmin := h.needmin, sysmin := h.sysmin, syspat := h.syspat
            patterns := (List.range h.npat).map (patternAt b h), planes := (List.range h.nplane).map (planeAt b h)
            templates := ts, image := b.take h.imglen }

/-- Read bytes of an image by physical address for a world: none when they cannot be read, and the error is logged
(R298). -/
def imageRead (s : State) (ctx world pa n : Nat) : Option (List Byte) × State :=
  let pages := (List.range ((pa % 4096 + n + 4095) / 4096)).map (fun i => (pa / 4096 + i) * 4096)
  let good (p : Nat) : Bool :=
    let e := potSeen s p
    (isDram p || isHostWindow p) && (e.world == 0 || e.world == world) && e.state != 2 && e.state != 3 && !e.poison
  match pages.find? (fun p => !good p) with
  | some p => (none, logError s srcDram 1 (homeDie p) p (some ctx) (some world) none)
  | none =>
    let s := ownFill s ctx pa n
    match poisonIn s pa n with
    | some line => (none, logError s srcDram 1 (homeDie line) line (some ctx) (some world) none)
    | none => (some (ownRead s pa n), s)

/-- The load of a slot of a context: the status, and the plate when it is 0 (R331). -/
def loadPlate (s : State) (ctx : Nat) (c : Ctx) (cmd : Dword) : Except Nat Plate × State :=
  let slot := field cmd.toNat 2 0
  let pa := field cmd.toNat 51 3 * 8
  if slot = 0 then (.error 1, s)
  else
    let (head, s) := imageRead s ctx c.world pa 64
    let isSys := match head with
      | some b => bitOf (imgNum b 20 1) 0
      | none => false
    let busy := s.regions.any (fun e => e.2.ctx == ctx && !e.2.completed && e.2.plate == slot)
    if isSys then (.error 1, s)
    else if busy then (.error 2, s)
    else match head with
      | none => (.error 10, s)
      | some b =>
        let n := imgNum b 24 4
        if n ≤ 64 ∨ 262144 < n then (checkPlate b false (deviceMinor s), s)
        else
          let (rest, s) := imageRead s ctx c.world (pa + 64) (n - 64)
          (checkPlate (b ++ rest.getD []) false (deviceMinor s), s)

end Sys2Proof.Machine
end

