-- ==== Sys2Proof/Machine/DrayOps.lean ====
section
/-! DEFINITION. What the instructions and data operations of a dray context share (07 R249-R257, R281, R290-R293, R296):
registers, checks, faults, parking, accesses. -/
namespace Sys2Proof.Machine

/-! ### Fault codes (R254) -/

def fcIllegal : Nat := 0x01
def fcGdesc : Nat := 0x02
def fcGexh : Nat := 0x03
def fcAlign : Nat := 0x04
def fcBounds : Nat := 0x05
def fcArgc : Nat := 0x06
def fcOptm : Nat := 0x07
def fcOptmiss : Nat := 0x08
def fcOptval : Nat := 0x09
def fcFormat : Nat := 0x0A
def fcKey : Nat := 0x0B
def fcTag : Nat := 0x0C
def fcHandle : Nat := 0x0D
def fcXlat : Nat := 0x0E
def fcDet : Nat := 0x0F

/-! ### The context -/

/-- d0 reads zero, and writes to it are discarded. -/
def dget (d : Dray) (r : BitVec 4) : Dword := if r = 0 then 0 else tgetD 0 d.regs r.toNat
def dset (d : Dray) (r : BitVec 4) (v : Dword) : Dray := if r = 0 then d else { d with regs := tset 0 d.regs r.toNat v }

/-- The context's program, cluster, rake and owner. -/
def drayCtx (d : Dray) : Nat := (d.ctx).getD 0
def drayCluster (dk : Nat) : Nat := dk / 32
def drayRake (s : State) (d : Dray) : Option Rake := tget s.rakes d.rake
def drayRegion (s : State) (d : Dray) : Option Region := (drayRake s d).bind (fun r => tget s.regions r.region)

/-- Cycles since the start of the launch: drays run at the core clock (R250). -/
def drayCycles (s : State) (dk : Nat) : Nat := cycleOf s (drayClock dk) - (drayOf s dk).start

/-- The context can issue (R250): it runs and waits for nothing. -/
def drayReady (d : Dray) : Bool := d.state == 1 && d.load.isNone && d.loadGen.isNone && d.parked.isNone && d.tlw.isNone
  && !d.drain

/-- The context's next instruction waits for the end of its data operation (R281, R290). -/
def drayDrains (s : State) (dk : Nat) : State := setDray s dk { drayOf s dk with drain := true }

/-- The context of a dray is saved (R295). -/
def drayHeld (s : State) (d : Dray) : Bool := (((d.ctx).bind (fun c => tget s.ctxs c)).map Ctx.saved).getD true

/-- A precise fault (R290). -/
def drayFault (s : State) (dk code : Nat) : State :=
  let d := drayOf s dk
  let s := match d.data with
    | some _ => setDray s dk { d with pc := d.dataAt.1, regs := d.dataAt.2 }
    | none => s
  stopDray s dk 5 code

/-- A context parks on a page (R291): the record names the dray bit, and the code version for a fetch or copy-on-write. While
the merge stage is full, it tries again (11 R423). -/
def drayPark (s : State) (dk va : Nat) (e : XErr) (acc : Nat) : State :=
  let d := drayOf s dk
  let cl := drayCluster dk
  let rg := drayRegion s d
  if !mergeRoom s (drayCtx d) (va / 4096) (cl / 10) (cl % 10) then s
  else
    let (f, s) := joinFault s (drayCtx d) (va / 4096) (cl / 10) (cl % 10) ((rg.map Region.number).getD 0)
      ((rg.map Region.version).getD 0) e (acc ||| 16 ||| (if e.walk then 32 else 0)) 1
    setDray s dk { drayOf s dk with state := 2, parked := some f }

/-- A consumed error or a poisoned page (R293, 12 R448): logged, and the launch's zone takes it. -/
def drayBad (s : State) (dk cause info : Nat) : State :=
  let d := drayOf s dk
  let cl := drayCluster dk
  let world := (tget s.ctxs (drayCtx d)).map Ctx.world
  let pa := if cause = 2 then info else 0
  let die := if cause = 2 then homeDie info else cl / 10
  drayError (logError s srcDram (if d.zone = 0 then 3 else 2) die pa (some (drayCtx d)) world (some (cl % 10))) dk cause info

/-- An instruction of the dray context that issues: when it is ready, `f` gives the effect; else nothing happens. -/
def drayOp (s : State) (f : Nat → Dray → State) : State :=
  let d := drayOf s s.dcur
  if drayReady d then f s.dcur d else s

/-- The context goes on after the instruction. -/
def Dray.next (d : Dray) : Dray := { d with pc := d.pc + 4 }

/-- Write a register and go on. -/
def drayDone (s : State) (dk : Nat) (r : BitVec 4) (v : Dword) : State :=
  setDray s dk (dset (drayOf s dk) r v).next

/-! ### Accesses (R264, R271, R281, R296) -/

/-- What an access of a dray meets. -/
inductive DGot (α : Type) where
  | ok (v : α) (s : State)
  | fault (code : Nat) (s : State)
  | park (va : Nat) (e : XErr) (acc : Nat) (s : State)
  | error (cause info : Nat) (s : State)

/-- Go on with what an access gave. -/
def DGot.bind {α β : Type} (g : DGot α) (f : α → State → DGot β) : DGot β :=
  match g with
  | .ok v s => f v s
  | .fault c s => .fault c s
  | .park va e a s => .park va e a s
  | .error c i s => .error c i s

/-- Turn the outcome of an access into a state: a fault, parking, an error, or the effect. -/
def drayEnd {α : Type} (dk : Nat) (g : DGot α) (f : α → State → State) : State :=
  match g with
  | .ok v s => f v s
  | .fault c s => drayFault s dk c
  | .park va e a s => drayPark s dk va e a
  | .error c i s => drayBad s dk c i

/-- How the accesses of a dray reach memory: the home slice, or the fused L1 (09 R337). -/
def drayPath (s : State) (dk : Nat) (leaf : Dword) : Path :=
  let cl := drayCluster dk
  let uc := leaf.getLsbD 6
  { unit := if !uc && s.fusedClusters.contains cl then some (160 + cl) else none, ctx := drayCtx (drayOf s dk)
    cacheable := !uc, strm := false }

/-- The physical address of a dray access. -/
def drayXlate (s : State) (dk va : Nat) (a : Acc) : DGot (Nat × Dword) :=
  if 2 ^ 57 ≤ va then .fault fcBounds s
  else match xlateProgram s (clusterUnits (drayCluster dk)) (drayCtx (drayOf s dk)) va a with
    | (.ok pa leaf, s) => .ok (pa, leaf) s
    | (.fault e, s) => .park va e (a.bits true false) s
    | (.error pa page, s) => .error (if page then 4 else 2) (if page then va else pa) s

/-- Bytes of the launching rake's window. -/
def drayWindow (s : State) (d : Dray) : Nat := ((drayRake s d).map Rake.window).getD 0

/-- Read bytes of one line: SPACE 0 global, 1 the scratchpad window. -/
def drayRead (s : State) (dk space a n : Nat) : DGot (List Byte) :=
  let d := drayOf s dk
  if space = 0 then
    (drayXlate s dk a .read).bind (fun p s =>
      let (bs, _, s) := readPath s (drayPath s dk p.2) p.1 n
      match poisonAt s (drayPath s dk p.2).unit p.1 n with
      | some line => .error 2 line s
      | none => .ok bs s)
  else
    match drayRake s d with
    | none => .fault fcBounds s
    | some r =>
      if r.window < a + n then .fault fcBounds s
      else if padBad r a n then .error 2 0 s
      else .ok (padRead r a n) s

/-- Where a checked write goes. -/
inductive DPut where
  | mem (pa : Nat) (leaf : Dword) (va : Nat)
  | pad (off : Nat)

/-- Check a write to one line: bounds, translation, and in a deterministic region its windows and owners (R296), with the
lines that the unit claims before it. -/
def drayTarget (s : State) (dk space a n : Nat) (before : List Nat := []) : DGot DPut :=
  let d := drayOf s dk
  if space = 0 then
    match drayRegion s d with
    | none => .fault fcBounds s
    | some r =>
      let inside := r.det && r.windows.any (fun w => decide (w.1 ≤ a ∧ a < w.1 + w.2))
      let me := ((drayRake s d).map Rake.idx).getD 0
      let claimed := before.foldl (fun r va => claimLine r me va) r
      if decide (a < 2 ^ 57) && (inside || (r.det && (ownerCheck claimed me a).isSome)) then .fault fcDet s
      else (drayXlate s dk a .write).bind (fun p s => .ok (.mem p.1 p.2 a) s)
  else if drayWindow s d < a + n then .fault fcBounds s
  else .ok (.pad a) s

/-- Write bytes at a checked place; the launching rake owns the line (R296). -/
def drayWrite (s : State) (dk : Nat) (p : DPut) (bs : List Byte) : State :=
  let d := drayOf s dk
  match p with
  | .mem pa leaf va =>
    let s := match drayRake s d with
      | some r => claimOwners s r.region (fun g => if g.det then claimLine g r.idx va else g)
      | none => s
    (writePath s (drayPath s dk leaf) pa bs).2
  | .pad off => modRake s d.rake (fun r => padWrite r off bs)

/-- Read pieces in order. -/
def drayReadAll (dk space : Nat) : List (Nat × Nat) → List Byte → State → DGot (List Byte)
  | [], acc, s => .ok acc s
  | (a, n) :: ps, acc, s => (drayRead s dk space a n).bind (fun bs s => drayReadAll dk space ps (acc ++ bs) s)

/-- The virtual addresses of checked places in global storage. -/
def putLines (ts : List DPut) : List Nat := ts.filterMap (fun t => match t with
  | .mem _ _ va => some va
  | .pad _ => none)

/-- Check the pieces of a unit in order. -/
def drayTargets (dk space : Nat) : List (Nat × Nat) → List DPut → State → DGot (List DPut)
  | [], acc, s => .ok acc.reverse s
  | (a, n) :: ps, acc, s =>
    (drayTarget s dk space a n (putLines acc.reverse)).bind (fun p s => drayTargets dk space ps (p :: acc) s)

/-- Write bytes over checked pieces. -/
def drayWriteAll (dk : Nat) : List (DPut × Nat) → List Byte → State → State
  | [], _, s => s
  | (p, n) :: ps, bs, s => drayWriteAll dk ps (bs.drop n) (drayWrite s dk p (bs.take n))

/-! ### Generators (R269-R271) -/

/-- The stream's length. -/
def Gen.length (g : Gen) : Nat := g.len0 * g.counts.foldl (· * ·) 1

/-- Steps of dimensions 1 and up for run number `q`: the sum of idx × STRIDE, and idx[1]. -/
def genSteps : List Nat → List Int → Nat → Int
  | c :: cs, st :: sts, q => (q % c : Nat) * st + genSteps cs sts (q / c)
  | _, _, _ => 0

/-- The logical address of stream byte `j`, before rotation. -/
def Gen.logical (g : Gen) (j : Nat) : Nat :=
  wrapNat 64 ((g.base + j % g.len0 : Nat) + genSteps g.counts g.strides (j / g.len0))

/-- The address of stream byte `j`. -/
def Gen.addr (g : Gen) (j : Nat) : Nat :=
  let a := g.logical j
  if g.space = 1 then
    let idx1 := match g.counts with
      | c :: _ => j / g.len0 % c
      | [] => 0
    Nat.xor a (idx1 % 2 ^ g.rot * 64)
  else a

/-- The `n` stream bytes from `j` as pieces, each within one run and one 64-byte line: address and length. -/
def Gen.pieces (g : Gen) : Nat → Nat → Nat → List (Nat × Nat)
  | 0, _, _ => []
  | fuel + 1, j, n =>
    if n = 0 then []
    else
      let run := g.len0 - j % g.len0
      let line := 64 - g.logical j % 64
      let m := Nat.min n (Nat.min run line)
      (g.addr j, m) :: Gen.pieces g fuel (j + m) (n - m)

/-- A generator of a context. -/
def genOf (d : Dray) (n : Nat) : Option Gen := tget d.gens n
/-- Move a generator on. -/
def genAdvance (d : Dray) (n k : Nat) : Dray := { d with gens := tmod d.gens n (fun g => { g with pos := g.pos + k }) }

/-- The descriptor of a generator from its 64 bytes; none: invalid (R269, R270). -/
def genOfBytes (bs : List Byte) : Option Gen :=
  let num (o n : Nat) : Nat := leNat ((bs.drop o).take n)
  let cfg := num 12 4
  let dims := cfg % 8
  let space := field cfg 5 4
  let rot := field cfg 8 6
  let base := num 0 8
  let len0 := num 8 4
  let count (k : Nat) : Nat := num (16 + 12 * (k - 1)) 4
  let stride (k : Nat) : Nat := num (20 + 12 * (k - 1)) 8
  let ok := field cfg 31 9 == 0 && decide (rot ≤ 5) && decide (space ≤ 1) && !bitOf cfg 3 && decide (1 ≤ dims ∧ dims ≤ 5)
    && (space == 1 || rot == 0) && decide (base < (if space = 0 then 2 ^ 57 else 2 ^ 24)) && decide (1 ≤ len0 ∧ len0 ≤ 65536)
    && [1, 2, 3, 4].all (fun k =>
      if k < dims then decide (1 ≤ count k) else count k == 0 && stride k == 0)
  if ok then
    let ks := (List.range (dims - 1)).map (· + 1)
    some { base := base, len0 := len0, rot := rot, space := space, dims := dims, counts := ks.map count
           strides := ks.map (fun k => sext 64 (stride k)), pos := 0 }
  else none

end Sys2Proof.Machine
end

