-- ==== Sys2Proof/Machine/Hallmark.lean ====
section
/-! DEFINITION. The hallmark engines (12 R454-R464): the commands that a port holds, taken in push order. -/
namespace Sys2Proof.Machine

/-- Response codes (R455). -/
def hcOk : Nat := 0
def hcBadcmd : Nat := 1
def hcBadfield : Nat := 2
def hcOptm : Nat := 3
def hcNosess : Nat := 4
def hcVoid : Nat := 5
def hcBusy : Nat := 6
def hcFault : Nat := 7

/-- A command at the head of a port: its code, whether its header is valid, its words after the header, and the zone at the
push of the header. -/
structure HallCmd where
  cmd : Nat
  headOk : Bool
  words : List Nat
  zone : Nat
  deriving DecidableEq, Repr

/-- The command that the engine takes next, once all its words have been pushed and fewer than 64 response words are
unpopped (R456); none while its translation fault is open. -/
def headCmd (p : Port) : Option HallCmd :=
  match p.cmds with
  | [] => none
  | (h, z) :: rest =>
    let v := h.toNat
    let nw := field v 19 16
    let cmd := field v 31 24
    if rest.length < nw ∨ 64 ≤ p.resps.length ∨ p.wait.isSome = true then none
    else some { cmd := cmd, headOk := decide (1 ≤ cmd ∧ cmd ≤ 3) && field v 23 20 == 0 && field v 15 0 == 0
                words := (rest.take nw).map (fun w => w.1.toNat), zone := z }

/-- A status word. -/
def statusWord (cmd : Nat) (ign : Bool) (code : Nat) : Word := BitVec.ofNat 32 (cmd * 2 ^ 24 + (if ign then 2 ^ 23 else 0) + code)

/-- The command is consumed, and its responses are answered. -/
def answerCmd (s : State) (pk : Nat) (c : HallCmd) (resps : List Word) (due : Nat) : State :=
  { s with ports := tmod s.ports pk (fun p =>
      { p with cmds := p.cmds.drop (c.words.length + 1), resps := p.resps ++ resps, due := p.due + due, failed := false
               done := 0 }) }

/-- A failing command: its status, and for OPEN the handle 0. -/
def failCmd (s : State) (pk : Nat) (c : HallCmd) (ign : Bool) (code : Nat) : State :=
  answerCmd s pk c (statusWord c.cmd ign code :: (if c.cmd = 1 then [0] else [])) 0

/-- The option words: none when an unknown one must be understood; else whether one was ignored, and LABEL. -/
def hallOptions (open_ : Bool) : List Nat → Bool → Nat → Option (Bool × Nat)
  | [], ign, label => some (ign, label)
  | w :: ws, ign, label =>
    if open_ ∧ field w 30 24 = 1 then hallOptions open_ ws ign (field w 23 0)
    else if bitOf w 31 then none
    else hallOptions open_ ws true label

/-- Word `i` of a command. -/
def HallCmd.word (c : HallCmd) (i : Nat) : Nat := (c.words[i]?).getD 0
/-- A 64-bit field from words `i` and `i + 1`. -/
def HallCmd.pair (c : HallCmd) (i : Nat) : Nat := c.word i + 2 ^ 32 * c.word (i + 1)

/-- The command of a port, when its code is `cmd` and its header is valid. -/
def cmdAt (s : State) (pk cmd : Nat) : Option (Port × HallCmd) :=
  match tget s.ports pk with
  | none => none
  | some p =>
    match headCmd p with
    | some c => if c.headOk ∧ c.cmd = cmd then some (p, c) else none
    | none => none

/-- The key of a port of a die. -/
def portKey (die port : Nat) : Nat := die * 256 + port

/-- HALLMARK_BADCMD. -/
def execHallmarkBadcmd (die port : Nat) (s : State) : Out :=
  let pk := portKey die port
  .next (match (tget s.ports pk).bind headCmd with
    | some c => if c.headOk then s else failCmd s pk c false hcBadcmd
    | none => s)

/-- The port waits for the driver's answer to a fault. -/
def portFault (s : State) (pk die va : Nat) (co : Coach) (e : XErr) (acc : Nat) : State :=
  let (f, s) := waitFault s co.ctx va (regionNumber s co.region) die co.version e acc
  { s with ports := tmod s.ports pk (fun p => { p with wait := some f }) }

/-- An error that a command of a coach meets (R457, R458). -/
def hallError (s : State) (k pa va : Nat) (page : Bool) : State := xlatBad s k pa va page

/-- Sessions of a die that are open or void. -/
def sessionsHeld (s : State) (die : Nat) : Nat := (s.sessions.filter (fun e => e.2.die == die && e.2.void_ != some 0)).length

/-- The session opens (R454). -/
def openSession (s : State) (pk die : Nat) (co : Coach) (c : HallCmd) (ign : Bool) (label : Nat) : State :=
  let count := tgetD 0 s.hallCount die + 1
  let world := ((tget s.ctxs co.ctx).map Ctx.world).getD 0
  let se : Session :=
    { die := die, number := BitVec.ofNat 64 ((Config.epoch.toNat + s.portil.resets) * 2 ^ 32 + count), ctx := co.ctx, world := world, rake := co.rake
      zone := c.zone, recAddr := c.pair 0, alg := field (c.word 2) 1 0, label := BitVec.ofNat 24 label
      debug := worldCovered s world, version := co.version, sig := ((tget s.regions co.region).map Region.sig).getD 0
      data := [], void_ := none, closing := none, recorded := false }
  let s := { s with sessions := tput s.sessions (sessionKey die count) se, hallCount := tput s.hallCount die count }
  answerCmd s pk c [statusWord 1 ign hcOk, BitVec.ofNat 32 (2 ^ 29 + die * 2 ^ 27 + count % 2 ^ 27)] 0

/-- HALLMARK_OPEN (R457). -/
def execHallmarkOpen (die port : Nat) (s : State) : Out :=
  let pk := portKey die port
  .next (match cmdAt s pk 1 with
    | none => s
    | some (p, c) =>
      let co := coachOf s p.coach
      if c.words.length < 3 ∨ c.pair 0 % 256 ≠ 0 ∨ 2 ^ 57 ≤ c.pair 0 ∨ 1 < c.word 2 then failCmd s pk c false hcBadfield
      else match hallOptions true (c.words.drop 3) false 0 with
        | none => failCmd s pk c false hcOptm
        | some (ign, label) =>
          if 4096 ≤ sessionsHeld s die ∨ 2 ^ 32 - 1 ≤ tgetD 0 s.hallCount die then failCmd s pk c ign hcBusy
          else if p.failed then failCmd s pk c ign hcFault
          else match xlateProgram s (dieUnits die) co.ctx (c.pair 0) .write with
            | (.ok _ _, s) => openSession s pk die co c ign label
            | (.fault e, s) => portFault s pk die (c.pair 0) co e 2
            | (.error pa page, s) => hallError (failCmd s pk c ign hcFault) p.coach pa (c.pair 0) page)

/-- The session that a handle names, opened by a context: its key (R456 check 4). A session whose CLOSE is being served is
closed. -/
def findSession (s : State) (die ctx handle : Nat) : Option (Nat × Session) :=
  let fits (e : Nat × Session) : Bool := e.2.die == die && e.2.ctx == ctx && e.1 % 2 ^ 27 == handle % 2 ^ 27
    && !isSigning s die e.1 && s.pending.all (fun p => p.2 != .record e.1 || e.2.void_.isSome)
  if handle / 2 ^ 28 = 2 ∧ handle / 2 ^ 27 % 2 = die then s.sessions.find? fits else none

/-- What absorbing bytes meets. -/
inductive Absorbed where
  | all (bs : List Byte) (s : State)
  | fault (bs : List Byte) (va : Nat) (e : XErr) (s : State)
  | error (bs : List Byte) (pa va : Nat) (page : Bool) (s : State)

/-- Read bytes line by line through the context's translation. -/
def absorbLines (die ctx : Nat) : Nat → Nat → Nat → List Byte → State → Absorbed
  | 0, _, _, acc, s => .all acc s
  | fuel + 1, va, n, acc, s =>
    if n = 0 then .all acc s
    else
      let m := if 64 - va % 64 < n then 64 - va % 64 else n
      match xlateProgram s (dieUnits die) ctx va .read with
      | (.fault e, s) => .fault acc va e s
      | (.error pa page, s) => .error acc pa va page s
      | (.ok pa leaf, s) =>
        let s := fillOwn s ctx [(pa, m, leaf.getLsbD 6)]
        match poisonIn s pa m with
        | some line => .error acc line va false s
        | none =>
          absorbLines die ctx fuel (va + m) (n - m) (acc ++ readOwn s [(pa, m, leaf.getLsbD 6)]) s

/-- The session takes bytes. -/
def takeBytes (s : State) (key : Nat) (bs : List Byte) : State :=
  { s with sessions := tmod s.sessions key (fun se => { se with data := se.data ++ bs }) }

/-- HALLMARK_ABSORB (R458): bytes absorbed before a fault stay absorbed, and the engine goes on from there. -/
def execHallmarkAbsorb (die port : Nat) (s : State) : Out :=
  let pk := portKey die port
  .next (match cmdAt s pk 2 with
    | none => s
    | some (p, c) =>
      let co := coachOf s p.coach
      let va := c.pair 1
      let len := c.word 3
      if c.words.length < 4 ∨ 2 ^ 57 < va + len then failCmd s pk c false hcBadfield
      else match hallOptions false (c.words.drop 4) false 0 with
        | none => failCmd s pk c false hcOptm
        | some (ign, _) =>
          match findSession s die co.ctx (c.word 0) with
          | none => failCmd s pk c ign hcNosess
          | some (key, se) =>
            if se.void_ = some 0 then failCmd s pk c ign hcNosess
            else if se.void_.isSome then failCmd s pk c ign hcVoid
            else if p.failed then failCmd (voidSession s key 5) pk c ign hcFault
            else
              let n := len - p.done
              match absorbLines die co.ctx (n / 64 + 2) (va + p.done) n [] s with
              | .all bs s => answerCmd (takeBytes s key bs) pk c [statusWord 2 ign hcOk] 0
              | .fault bs va e s =>
                let s := { takeBytes s key bs with ports := tmod s.ports pk (fun p => { p with done := p.done + bs.length }) }
                portFault s pk die va co e 1
              | .error bs pa va page s =>
                let s := voidSession (takeBytes s key bs) key 6
                hallError (failCmd s pk c ign hcVoid) p.coach pa va page)

/-- HALLMARK_CLOSE (R459): the digest is final, and one of the die's two signing units starts. The CLOSE of a void session
answers VOID once its record has been written. -/
def execHallmarkClose (die port : Nat) (s : State) : Out :=
  let pk := portKey die port
  .next (match cmdAt s pk 3 with
    | none => s
    | some (p, c) =>
      let co := coachOf s p.coach
      if c.words.length < 1 then failCmd s pk c false hcBadfield
      else match hallOptions false (c.words.drop 1) false 0 with
        | none => failCmd s pk c false hcOptm
        | some (ign, _) =>
          match findSession s die co.ctx (c.word 0) with
          | none => failCmd s pk c ign hcNosess
          | some (key, se) =>
            if se.void_ = some 0 then failCmd (forgetSession s key) pk c ign hcFault
            else if se.void_.isSome then
              (if se.recorded then failCmd (forgetSession s key) pk c ign hcVoid else s)
            else if 2 ≤ (tgetD [] s.signing die).length then s
            else
              let s := { s with sessions := tput s.sessions key { se with closing := some (pk, ign) }
                                signing := tput s.signing die (tgetD [] s.signing die ++ [key]) }
              answerCmd s pk c [] 1)

/-- HALLMARK_RECORD_WRITE (R464): the signature of a session is complete. -/
def execHallmarkRecordWrite (die session : Nat) (s : State) : Out :=
  let key := sessionKey die session
  .next (if isSigning s die key then finishClose s die key else s)

end Sys2Proof.Machine
end

