-- ==== Sys2Proof/Machine/Messages.lean ====
section
/-! DEFINITION. The messages of a hardware queue (10 R361-R364, 11 R436): each step processes the message at RIDX, when it
is of the step's kind; a message of another kind leaves the queue as the read of its slot left it. -/
namespace Sys2Proof.Machine

/-- The queue after its message was taken: torn-down queues skip what is no LAUNCH, and an invalid message is skipped by
any queue (R363, R436). -/
def takeMsg (s : State) (ctx q kind : Nat) (f : HwQueue → List Byte → State → State) : State :=
  match queueAt s ctx q with
  | none => s
  | some x =>
    if x.waiting.isSome then s
    else
      match readMsg s ctx q with
      | .stop s => s
      | .msg m s =>
        if msgNum m 0 1 ≠ kind ∧ msgOk m = true then s
        else if x.discard ≠ 0 then discardMsg s ctx q m
        else if !msgOk m then skipMsg s ctx q
        else if x.torn && kind != 1 then skipMsg s ctx q
        else f x m s

/-- MSG_LAUNCH: the region is created from its block, or its launch waits for a fault; a torn-down queue completes the
region at once with STATUS 9 (R436). -/
def execMsgLaunch (ctx q : Nat) (s : State) : Out :=
  .next (takeMsg s ctx q 1 (fun x m s =>
    let block := msgNum m 8 8
    let args := msgNum m 16 8
    let s := if x.torn then refuseLaunch s ctx q block args 9 else launchRegion s ctx none (some q) 1 block args
    completeMsg s ctx q m))

/-- A queue's WAIT looks at its word, with acquire at system scope (R363). -/
def pollWait (s : State) (ctx q : Nat) : State :=
  match queueAt s ctx q with
  | none => s
  | some x =>
    match x.waiting with
    | none => s
    | some (va, n) =>
      if x.fault.isSome then s
      else if x.torn then skipMsg s ctx q
      else
        match ownReadP (l2System s true) (dieUnits 0) ctx va 8 with
        | (.error (.fault e, va), s) => queueFault s ctx q va e 1
        | (.error (.error pa _, _), s) => tearQueue (logError s srcDram 3 (homeDie pa) pa (some ctx) none none) ctx q 9
        | (.error _, s) => s
        | (.ok bs, s) =>
          if leNat bs < n.toNat then s
          else
            match ownReadP s (dieUnits 0) ctx (x.base + 64 * x.slot) 64 with
            | (.ok m, s) => completeMsg s ctx q m
            | (.error _, s) => advanceQueue s ctx q

/-- MSG_WAIT: the queue holds at the message, and looks at the word. -/
def execMsgWait (ctx q : Nat) (s : State) : Out :=
  .next (takeMsg s ctx q 2 (fun _ m s =>
    let s := modQueue s ctx q (fun y => { y with waiting := some (msgNum m 8 8, BitVec.ofNat 64 (msgNum m 16 8)) })
    pollWait s ctx q))

/-- WAIT_POLL: it looks again. -/
def execWaitPoll (ctx q : Nat) (s : State) : Out := .next (pollWait s ctx q)

/-- MSG_SIGNAL: the word takes the larger value, a release at system scope. -/
def execMsgSignal (ctx q : Nat) (s : State) : Out :=
  .next (takeMsg s ctx q 3 (fun _ m s =>
    let va := msgNum m 8 8
    match ownPieces s (dieUnits 0) ctx va 8 .atomic with
    | (.error (.fault e, va), s) => queueFault s ctx q va e 4
    | (.error _, s) => skipMsg s ctx q
    | (.ok ps, s) =>
      let s := fillOwn s ctx ps
      match poisonOwn s ps with
      | some pa => tearQueue (logError s srcDram 3 (homeDie pa) pa (some ctx) none none) ctx q 9
      | none =>
        let old := leNat (readOwn s ps)
        let new := if old < msgNum m 16 8 then msgNum m 16 8 else old
        completeMsg (l2System (writeOwn s ctx ps (leBytes 8 new)) false) ctx q m))

/-- MSG_NOTE: the word is written, a release at system scope. -/
def execMsgNote (ctx q : Nat) (s : State) : Out :=
  .next (takeMsg s ctx q 4 (fun _ m s =>
    match ownWriteV s (dieUnits 0) ctx (msgNum m 8 8) (leBytes 8 (msgNum m 16 8)) with
    | (.error (.fault e, va), s) => queueFault s ctx q va e 2
    | (.error _, s) => skipMsg s ctx q
    | (.ok _, s) => completeMsg (l2System s false) ctx q m))

/-- Every region that an earlier LAUNCH of the queue launched has completed, with its subtree. -/
def queueQuiet (s : State) (ctx q : Nat) : Bool :=
  s.regions.all (fun e => e.2.ctx != ctx || e.2.queue != some q || e.2.parent.isSome || e.2.completed)
  && s.pending.all (fun p => match p.2 with
    | .launch c none (some j) _ _ _ _ => c != ctx || j != q
    | .refused c j _ _ _ => c != ctx || j != q
    | _ => true)

/-- MSG_FENCE. -/
def execMsgFence (ctx q : Nat) (s : State) : Out :=
  .next (takeMsg s ctx q 5 (fun _ m s =>
    if queueQuiet s ctx q then completeMsg (l2System s false) ctx q m else s))

/-- The rakes of a context. -/
def ctxRakes (s : State) (ctx : Nat) : List Nat :=
  tkeys (s.rakes.filter (fun e => ((tget s.regions e.2.region).map Region.ctx) == some ctx))

/-- MSG_PREEMPT_SAVE: issue stops in the whole context, and its rakes are saved. -/
def execMsgPreemptSave (ctx q : Nat) (s : State) : Out :=
  .next (takeMsg s ctx q 6 (fun _ m s =>
    if msgNum m 8 1 ≠ 0 then s
    else
      let s := (ctxRakes s ctx).foldl saveRake s
      completeMsg (modCtx s ctx (fun c => { c with saved := true })) ctx q m))

/-- MSG_PREEMPT_RESUME: its rakes may be placed again. -/
def execMsgPreemptResume (ctx q : Nat) (s : State) : Out :=
  .next (takeMsg s ctx q 6 (fun _ m s =>
    if msgNum m 8 1 ≠ 1 then s
    else completeMsg (modCtx s ctx (fun c => { c with saved := false })) ctx q m))

end Sys2Proof.Machine
end

