-- ==== Sys2Proof/Machine/Units.lean ====
section
/-! DEFINITION. Events of the memory system and the monitors: register-cache fills (11 R433, 12 R468), L1 propagation (09
R336), access counters (11 R427, 15 R504), scrubbing (12 R466), flows (12 R445), temperature and power (15 R502), and the
fatal device (12 R470). -/
namespace Sys2Proof.Machine

/-! ### The fatal device (R470) -/

/-- The device becomes fatal: the record that says so, of the structure at fault (12 R471; 0: none); then the keys are cleared,
L1 and L2 are discarded without writeback, and it is reported. -/
def fatalDevice (s : State) (source die : Nat) : State :=
  let s := logError s source 5 die 0 none none none
  let s := { s with keys := [], flowKey := none, l1 := [], l2 := [], pf := { s.pf with fatal := true }, aer := s.aer + 1 }
  raiseVector s 0 0

/-- The key store has an error that its code cannot correct. -/
def keyStoreError (s : State) : State := fatalDevice { s with upsets := s.upsets.filter (· != .keys) } srcKeys 0

/-! ### Register-cache lines (R433) -/

/-- The scalar and mask registers of a coach, which are one line, read 0 from then on (12 R468). -/
def loseScalars (s : State) (k : Nat) : State := modCoach s k (fun co => { co with s := [], m := [] })

/-- REGISTER_LINE_FILL: the image line is read at its home and decoded by its format byte (09 R341); poison zeroes the
registers of the line and is an error of the coach, and in the format byte it resets the context (R435, 12 R468); a reserved format byte is an error too (05 R175). A line that no image holds yet comes in as it stands. -/
def execRegisterLineFill (coach reg : Nat) (s : State) : Out :=
  let co := coachOf s coach
  .next (match partKey co with
    | none => s
    | some part =>
      if reg > co.nregs || (lineEntry s part coach reg).isSome then s
      else if !co.out.contains reg then cacheLine s part coach reg true
      else
        let va := imageAddr s co + lineOffsetOf co reg
        let units := dieUnits (coreOf co / 80)
        match areaPieces s units co.ctx va 256 .read with
        | (none, s) => markReset s co.ctx
        | (some ps, s) =>
          match ownReadP s units co.ctx (imageAddr s co + 0x6000 + reg) 1 with
          | (.error (.error pa _, _), s) => errorReset s co.ctx pa
          | (.error _, s) => markReset s co.ctx
          | (.ok f, s) =>
            let s := fillOwn (cacheLine s part coach reg false) co.ctx ps
            let bad (s : State) : State :=
              modCoach s coach (fun co => { co with v := co.v.filter (fun e => e.1 / 64 != reg) })
            match poisonOwn s ps with
            | some line => memerr (if reg < co.nregs then bad s else loseScalars s coach) coach line
            | none =>
              match lineOf (coachOf s coach) reg (leNat f) (readOwn s ps) with
              | some co => setCoach s coach co
              | none => coachError (bad s) coach 5 (lineOffsetOf co reg))

/-! ### L1 propagation (R336) -/

/-- L1_DIRTY_PROPAGATION: a unit writes a line's dirty bytes back to the home slice; the line stays, clean. -/
def execL1DirtyPropagation (l1 line : Nat) (s : State) : Out :=
  .next (match l1Find s l1 line with
    | some c => if c.dirty = 0 then s else l1Clean s l1 c
    | none => s)

/-! ### Access counters (R427, R504) -/

/-- Room in the counter ring, and its size. -/
def ctrRoom (s : State) : Option Nat :=
  let n := s.pf.ctrRing.toNat % 32
  if 6 ≤ n ∧ n ≤ 16 ∧ (s.pf.ctrWidx - s.pf.ctrRidx).toNat < 2 ^ n then some n else none

/-- ACCESS_COUNTER_NOTIFY: a counter at the threshold writes its notification and starts again; while the ring is full it
goes on counting. -/
def execAccessCounterNotify (die counter : Nat) (s : State) : Out :=
  let key := die * 1024 + counter
  .next (match tget s.ctrs key, ctrRoom s with
    | some c, some n =>
      if c.count < 2 ^ s.pf.ctrThr then s
      else
        let base := field s.pf.ctrRing.toNat 51 12 * 4096
        let note := leBytes 8 (c.extent * 2 ^ 21) ++ leBytes 4 c.count ++ leBytes 1 die ++ List.replicate 3 0
        let s := physWrite s (base + 16 * (s.pf.ctrWidx.toNat % 2 ^ n)) note
        let s := { s with ctrs := tput s.ctrs key { c with count := 0 }, pf := { s.pf with ctrWidx := s.pf.ctrWidx + 1 } }
        raiseVector s 0 2
    | _, _ => s)

/-! ### Scrubbing (R466) -/

/-- DRAM_SCRUB: one pass over the DRAM of a die meets every soft error there. -/
def execDramScrub (die : Nat) (s : State) : Out :=
  .next ((tkeys s.softErrors).foldl (fun s line =>
    if isDram (line * 64) && homeDie (line * 64) == die then meetSoftError s line else s)
    { s with scrubbed := tput s.scrubbed die (cycleOf s (200 + die)) })

/-- A dirty L2 line with a soft error: corrected, or poisoned (12 R465). -/
def scrubLine (s : State) (line : Nat) : State :=
  match tget s.softErrors line with
  | none => s
  | some ok =>
    let die := homeDie (line * 64)
    let s := { s with softErrors := tdel s.softErrors line, scrubbed := tput s.scrubbed (2 + die) (cycleOf s (200 + die)) }
    if ok then correctedError s srcDirty die (line * 64)
    else logError (setPoison s line) srcDirty 1 die (line * 64) none none none

/-- L2_SCRUB: one dirty line of a die's L2. -/
def execL2Scrub (die line : Nat) (s : State) : Out :=
  .next (if homeDie (line * 64) = die then scrubLine s line else s)

/-! ### Flows (R445) -/

/-- The data of a read that its flow has lost: the copies that the L1s of the cluster hold of the line are poisoned. -/
def poisonCopies (s : State) (cl line : Nat) : State :=
  { s with l1 := s.l1.map (fun e =>
      let here := e.1 == 160 + cl || (decide (e.1 < 160) && e.1 / 8 == cl)
      (e.1, e.2.map (fun c => if here && c.line == line then { c with poisoned := true } else c))) }

/-- FLOW_TAG_FAILURE: a transaction that fails its check is replayed; when the replay fails too, it completes poisoned and
is logged, and the sixteenth such failure of a flow within 2^20 cycles makes the device fatal. An even flow runs to the slice,
and its data poisons the line there; an odd one runs to a cluster port, that of cluster flow / 2 mod 20, and poisons the copies
that arrive there (log 93). -/
def execFlowTagFailure (flow line : Nat) (replayFails : Bool) (s : State) : Out :=
  .next (if !replayFails then s
    else
      let die := homeDie (line * 64)
      let now := cycleOf s (200 + die)
      let recent := now :: (tgetD [] s.flowFails flow).filter (fun t => decide (now < t + 2 ^ 20))
      let s := if flow % 2 = 0 then setPoison s line else poisonCopies s (flow / 2 % 20) line
      let s := logError s srcFlow 1 die (line * 64) none none none
      let s := { s with flowFails := tput s.flowFails flow recent }
      if 16 ≤ recent.length then fatalDevice s srcFlow die else s)

/-! ### Temperature and power (R502) -/

/-- The core clock of a die in MHz. -/
def clockOf (s : State) (die : Nat) : Nat := tgetD 1900 s.clockMHz die

/-- THERMAL_THROTTLE: the die's monitor reports the limit of temperature or power; the clock drops a step. -/
def execThermalThrottle (die : Nat) (s : State) : Out :=
  .next { s with clockMHz := tset 1900 s.clockMHz die (if clockOf s die < 850 then 800 else clockOf s die - 50) }

/-- THERMAL_RECOVER: both are back below their limits; the clock rises a step. -/
def execThermalRecover (die : Nat) (s : State) : Out :=
  .next { s with clockMHz := tset 1900 s.clockMHz die (if 1850 < clockOf s die then 1900 else clockOf s die + 50) }

/-- THERMAL_FATAL: a temperature has reached 125 °C. -/
def execThermalFatal (s : State) : Out := .next (fatalDevice s 0 0)

end Sys2Proof.Machine
end

