-- ==== Sys2Proof/Machine/Traps.lean ====
section
/-! DEFINITION. Trap entry, rake halts and fault records as steps of their own (11 R409, R413-R415, R423-R426, R505, R510). -/
namespace Sys2Proof.Machine

/-! ### Trap entry and halts -/

/-- The pending trap of a coach waits for the service of its frame's page (R510). -/
def frameParked (t : Trap) : Bool := t.wait.isSome

/-- TRAP_ENTRY: the pending trap of a resident coach is entered. -/
def execTrapEntry (coach : Nat) (s : State) : Out :=
  let co := coachOf s coach
  .next (match co.trap with
    | none => s
    | some t => if !isResident s coach || frameParked t then s else takeTrap s coach)

/-- The class and coach index that began the halt of a coach's rake. -/
def haltOf (s : State) (co : Coach) : Option (Nat × Nat) :=
  ((tget s.rakes co.rake).bind Rake.halt).map (fun h => (h.2.1, h.1))

/-- HALTED: a sibling stops, and writes its frame (R413); in its handler it keeps the frame of the trap that the handler
serves (R415, log 49). -/
def execHalted (coach : Nat) (s : State) : Out :=
  let co := coachOf s coach
  .next (match haltOf s co with
    | none => s
    | some (cls, idx) =>
      if !isResident s coach || co.halted.isSome || co.trap.isSome then s
      else
        raiseTrap s coach { cls := 16, sub := 0, step := 0, tmask := 0, rmask := none, move := 0, moveTo := 0
                            moveCounts := false, opword := 0, opaddr := 0, area := [(64, 1, cls), (66, 2, idx)] })

/-- Append a record to a context's fault buffer: false when the ring is full; a write that does not translate resets the
context (R424, R510). -/
def writeFaultRecord (s : State) (ctx die : Nat) (rec_ : Nat → List Byte) : Bool × State :=
  match tget s.ctxs ctx with
  | none => (false, s)
  | some c =>
    if 2 ^ c.fbuflog ≤ (c.fbufWidx - c.fbufRidx).toNat then (false, s)
    else
      match ownWriteV s (dieUnits die) ctx (c.fbufbase + 64 * (c.fbufWidx.toNat % 2 ^ c.fbuflog)) (rec_ c.faultSeq.toNat) with
      | (.error _, s) => (false, markReset s ctx)
      | (.ok _, s) =>
        let s := modCtx s ctx (fun c => { c with fbufWidx := c.fbufWidx + 1, faultSeq := c.faultSeq + 1 })
        (true, raiseVector (l2System s false) (ctx + 1) 16)

/-- Every coach of the rake has stopped; one that is not resident runs nothing. -/
def rakeStopped (s : State) (r : Rake) : Bool :=
  r.coaches.all (fun k => (coachOf s k).halted.isSome || (coachOf s k).place.isNone)

/-- The HALT record (R424). -/
def haltRecord (s : State) (r : Rake) (h : Nat × Nat × Nat × Nat × Nat) (seq : Nat) : List Byte :=
  let k := ((r.coaches.find? (fun k => (coachOf s k).idx == h.1)).map (coachOf s)).getD Coach.none
  let frame := ((tget s.ctxs k.ctx).map (fun c => frameAddr c k)).getD 0
  let cl := (r.cluster).getD 0
  leBytes 1 2 ++ leBytes 1 h.2.1 ++ leBytes 1 h.2.2.1 ++ leBytes 1 h.2.2.2.1 ++ leBytes 2 r.coaches.length
    ++ leBytes 1 (cl / 10) ++ leBytes 1 (cl % 10) ++ leBytes 8 frame ++ leBytes 8 h.2.2.2.2 ++ leBytes 4 seq
    ++ leBytes 4 (regionNumber s r.region) ++ leBytes 4 r.idx ++ List.replicate 28 0

/-- RAKE_HALT_RECORD: the record is written, and with DBGEN = 0 the error is handed on (R414). -/
def execRakeHaltRecord (rake : Nat) (s : State) : Out :=
  .next (match tget s.rakes rake with
    | none => s
    | some r =>
      match r.halt, tget s.regions r.region with
      | some h, some rg =>
        if r.haltRecorded || !rakeStopped s r then s
        else
          match writeFaultRecord s rg.ctx ((r.cluster).getD 0 / 10) (haltRecord s r h) with
          | (false, s) => s
          | (true, s) =>
            let s := modRake s rake (fun r => { r with haltRecorded := true })
            if ((tget s.ctxs rg.ctx).map Ctx.dbgen).getD false then s else uncontained s r.region
      | _, _ => s)

/-- DEBUGGER_HALT_REQUEST (R415): the rake halts as at a fatal trap that no coach raised; pending traps are entered first
(log 45). -/
def execDebuggerHaltRequest (rake : Nat) (s : State) : Out :=
  .next (match tget s.rakes rake with
    | none => s
    | some r =>
      if r.halt.isSome then s
      else
        -- a coach whose handler entry is under way issues nothing in its handler (R415)
        let stop (co : Coach) : Coach := if co.trap.isSome then { co with skid := 33 } else co
        let s := r.coaches.foldl (fun s k => modCoach s k stop) s
        modRake s rake (fun r => { r with halt := some (0, 14, 0, 0, 0) }))

/-! ### Fault records (R423, R424) -/

/-- The XLAT record of an entry. -/
def xlatRecord (f : FaultEntry) (seq : Nat) : List Byte :=
  leBytes 1 1 ++ leBytes 1 f.sub ++ leBytes 1 f.access ++ leBytes 1 f.level
    ++ leBytes 2 (if f.waiters < 65535 then f.waiters else 65535) ++ leBytes 1 f.die ++ leBytes 1 f.cluster
    ++ leBytes 8 (f.page * 4096) ++ leBytes 8 f.pte.toNat ++ leBytes 4 seq ++ leBytes 4 f.region
    ++ leBytes 4 (if bitOf f.access 3 || f.sub == xCow then f.version.toNat else 0) ++ List.replicate 28 0

/-- FAULT_RECORD_WRITE: 64 cycles after the entry opened. -/
def execFaultRecordWrite (entry : Nat) (s : State) : Out :=
  .next (match tget s.faults entry with
    | none => s
    | some f =>
      if f.seq.isSome then s
      else
        let s := clockTo s (faultClock f.die f.cluster) (f.opened + 64)
        let seq := ((tget s.ctxs f.ctx).map Ctx.faultSeq).getD 0
        match writeFaultRecord s f.ctx f.die (xlatRecord f) with
        | (false, s) => s
        | (true, s) => { s with faults := tput s.faults entry { f with seq := some seq } })

/-! ### The driver's answer (R426, R510) -/

/-- The open entry that a sequence number of a context names. -/
def entryOf (s : State) (ctx : Nat) (seq : Word) : Option (Nat × FaultEntry) :=
  s.faults.find? (fun e => e.2.ctx == ctx && e.2.seq == some seq)

/-- The lanes of a coach that are parked on an entry. -/
def parkedOn (co : Coach) (f : Nat) : Mask :=
  maskOf (fun l => match co.lanes[l]? with
    | some x => x.state = .parked && x.wait == .page f
    | none => false)

/-- The entry closes. -/
def closeEntry (s : State) (f : Nat) : State := { s with faults := tdel s.faults f }

/-- RETRY: lanes, drays, ports and queues go on. -/
def serviceWaiters (s : State) (f : Nat) : State :=
  let port (p : Port) : Port := if p.wait = some f then { p with wait := none } else p
  let queue (x : HwQueue) : HwQueue := if x.fault = some f then { x with fault := none } else x
  let dray (d : Dray) : Dray := if d.parked = some f then { d with state := 1, parked := none } else d
  let ctx (c : Ctx) : Ctx := { c with queues := c.queues.map queue }
  let trap (t : Trap) : Trap := if t.wait = some f then { t with wait := none } else t
  let coach (co : Coach) : Coach := wakeLanes { co with trap := co.trap.map trap } (parkedOn co f)
  { s with coaches := s.coaches.map (fun e => (e.1, coach e.2)), drays := s.drays.map (fun e => (e.1, dray e.2))
           ports := s.ports.map (fun e => (e.1, port e.2)), ctxs := s.ctxs.map (fun e => (e.1, ctx e.2)) }

/-- A halted coach goes on from its frame, the push of a QFULL frame being made again. A coach that was in its handler goes on
where it stopped: its frame is that of the trap that the handler serves; so does one that wrote no frame. -/
def resumeCoach (s : State) (k : Nat) : State :=
  let co := coachOf s k
  match co.halted with
  | none => s
  | some _ =>
    let s := modCoach (coachFence s k) k (fun co => { co with halted := none, framed := false, skid := 0 })
    if co.inHandler then s
    else if !co.framed then lanesSet s k
    else
      let base := ((ctxOf s co).map (fun c => frameAddr c co)).getD 0
      match readFrame s k base with
      | (.ok bs, s) => applyLanes s k bs
      | (.error (.error pa page, va), s) => xlatBad (lanesSet s k) k pa va page
      | (.error (.fault x, va), s) =>
        -- the coach is still in its frame, and waits there
        let (f, s) := coachFault (modCoach s k (fun c => { c with halted := co.halted, framed := true, skid := co.skid })) co va x 1 1
        addPend s f (.resume k)
      | (.error _, s) => lanesSet s k

/-- RAKESTAT is busy until every resumed coach of the context has left its frame (15 R505). -/
def settleResume (s : State) (ctx : Nat) : State :=
  let waits := s.pending.any (fun p => match p.2 with
    | .resume k => (coachOf s k).ctx == ctx
    | _ => false)
  modCtx s ctx (fun c => { c with rakeBusy := waits })

/-- The driver has failed the frame of a resumed coach: its rake halts with XLAT (R426). -/
def failResume (s : State) (k : Nat) : State :=
  let co := coachOf s k
  if co.halted.isNone then s
  else
    let xlat : Trap := { cls := 13, sub := 0, step := 0, tmask := co.all, rmask := none, move := 0, moveTo := 0
                         moveCounts := false, opword := 0, opaddr := (laneOf co 0).ga, area := [] }
    raiseTrap (modCoach s k (fun co => { co with halted := none, framed := false, skid := 0 })) k xlat

/-- Work of the Damith runs again. -/
def rerun (s : State) (p : Pend) : State :=
  match p with
  | .launch ctx parent queue depth block args number => launchRegion s ctx parent queue depth block args number
  | .target rg written => if written then numberRegion s rg else targetRegion s rg
  | .complete rg => completeRegion s regionFuel rg
  | .record key => recordDone (writeRecord s key) key
  | .resume k => settleResume (resumeCoach s k) (coachOf s k).ctx
  | .refused ctx q block args status => refuseLaunch s ctx q block args status

/-- The work that waits on an entry leaves the list. -/
def takePending (s : State) (f : Nat) : List Pend × State :=
  ((s.pending.filter (fun p => p.1 == f)).map (fun p => p.2), { s with pending := s.pending.filter (fun p => p.1 != f) })

/-- FAULTRESP_RETRY. -/
def execFaultrespRetry (ctx : Nat) (seq : BitVec 32) (s : State) : Out :=
  .next (match entryOf s ctx seq with
    | none => s
    | some (f, _) =>
      let s := serviceWaiters (closeEntry s f) f
      let (ps, s) := takePending s f
      ps.foldl rerun s)

/-- A coach with lanes parked on a page that the driver failed halts with XLAT; a coach that waited to write its frame
halts without it. The lanes translate again if the rake is resumed. -/
def failCoach (s : State) (f : Nat) (e : FaultEntry) (k : Nat) : State :=
  let co := coachOf s k
  let m := parkedOn co f
  let x := laneOf co ((lowLane m).getD 0)
  let xlat : Trap := { cls := 13, sub := e.sub, step := x.wstep, tmask := m, rmask := none, move := 0, moveTo := 0
                       moveCounts := false, opword := x.word, opaddr := x.ga, area := [] }
  let s := modCoach s k (fun co => modLanes co m (fun _ x => { x with wait := .woken }))
  if co.halted.isSome then s
  else
    match co.trap with
    | some t =>
      if t.wait = some f then
        match (ctxOf s co).bind (fun c => fatalFlags c co t.cls) with
        | some fl => beginHalt s k t fl false
        | none => beginHalt s k xlat 0 false
      else modCoach s k (fun co => { co with trap := some xlat })
    | none => if co.place.isSome then raiseTrap s k xlat else modCoach s k (fun co => { co with trap := some xlat })

/-- A queue whose access the driver failed: the RIDX write is dropped, a message's own access skips it, and a slot that
cannot be read tears the queue down. -/
def failQueue (s : State) (ctx q : Nat) (e : FaultEntry) : State :=
  match queueAt s ctx q with
  | none => s
  | some x =>
    let s := modQueue s ctx q (fun y => { y with fault := none, ridxDue := false })
    if x.ridxDue then s
    else
      let slot := x.base + 64 * x.slot
      let unread := slot / 4096 == e.page && (match (ownReadP s (dieUnits 0) ctx slot 64).1 with
        | .error _ => true
        | .ok _ => false)
      if x.waiting.isNone && unread then tearQueue s ctx q 9 else skipMsg s ctx q

/-- Work of the Damith whose access the driver failed. -/
def failPending (s : State) (p : Pend) : State :=
  match p with
  | .launch ctx parent queue depth block args number =>
    let inh : Option Inherit := match parent with
      | some rg => (tget s.regions rg).map Inherit.ofRegion
      | none => (tget s.ctxs ctx).map (Inherit.ofCtx s)
    match inh with
    | none => s
    | some inh =>
      let (n, s) := takeNumber s ctx number
      let r := resolveBlock Part.none inh (List.replicate 256 0)
      let r := { r with ctx := ctx, number := n, parent := parent, queue := queue, depth := depth, block := block
                        args := args, status := 1, det := false }
      targetRegion { s with regions := tput s.regions (regionKey ctx n) r } (regionKey ctx n)
  -- TARGET is taken as 0, and the later accesses to the record are made; a REGION write is dropped
  | .target rg written => if written then startRegion s rg else numberRegion (modRegion s rg (fun r => { r with target := 0 })) rg
  | .complete rg => completeRegion (modRegion s rg (fun r => { r with tladdr := 0 })) regionFuel rg
  | .record key => recordDone (loseRecord s key) key
  | .resume k => settleResume (failResume s k) (coachOf s k).ctx
  | .refused ctx q block args status => refuseBlock s ctx q block args status (List.replicate 256 0)

/-- FAULTRESP_FAIL. -/
def execFaultrespFail (ctx : Nat) (seq : BitVec 32) (s : State) : Out :=
  .next (match entryOf s ctx seq with
    | none => s
    | some (f, e) =>
      let s := closeEntry s f
      let (ps, s) := takePending s f
      let port (p : Port) : Port := if p.wait = some f then { p with wait := none, failed := true } else p
      let s := { s with ports := s.ports.map (fun x => (x.1, port x.2)) }
      let s := (tkeys (s.coaches.filter (fun x => parkedOn x.2 f != 0 || x.2.trap.any (fun t => t.wait == some f)))).foldl (fun s k => failCoach s f e k) s
      let drays := tkeys (s.drays.filter (fun x => x.2.parked == some f))
      let s := drays.foldl (fun s dk => drayFault s dk fcXlat) s
      let n := ((tget s.ctxs ctx).map (fun c => c.queues.length)).getD 0
      let s := (List.range n).foldl (fun s q =>
        if (queueAt s ctx q).bind HwQueue.fault = some f then failQueue s ctx q e else s) s
      ps.foldl failPending s)

/-! ### RAKECMD (R505, R414) -/

/-- The rake that a RAKECMD value names, when it is halted for the debugger. -/
def cmdRake (s : State) (ctx : Nat) (v : BitVec 64) : Option Nat :=
  let rk := rakeKey (regionKey ctx (field v.toNat 31 0)) (field v.toNat 47 32)
  match tget s.rakes rk with
  | some r =>
    if r.halt.isSome && r.haltRecorded && ((tget s.ctxs ctx).map Ctx.dbgen).getD false then some rk else none
  | none => none

/-- RAKESTAT.BUSY: a write of RAKECMD is dropped. -/
def rakeBusy (s : State) (ctx : Nat) : Bool := ((tget s.ctxs ctx).map Ctx.rakeBusy).getD false

/-- RAKESTAT takes a status. -/
def rakeStat (s : State) (ctx n : Nat) : State := modCtx s ctx (fun c => { c with rakeStat := n })

/-- RAKECMD_RESUME: a write of OP 1, or of an invalid OP. -/
def execRakecmdResume (ctx : Nat) (value : BitVec 64) (s : State) : Out :=
  let op := field value.toNat 57 56
  .next (if op = 2 ∨ rakeBusy s ctx = true then s
    else if op ≠ 1 then rakeStat s ctx 2
    else match cmdRake s ctx value with
      | none => rakeStat s ctx 1
      | some rk =>
        let ks := ((tget s.rakes rk).map Rake.coaches).getD []
        let s := modRake s rk (fun r => { r with halt := none, haltRecorded := false })
        settleResume (rakeStat (ks.foldl resumeCoach s) ctx 0) ctx)

/-- RAKECMD_KILL: a write of OP 2, or of an invalid OP. -/
def execRakecmdKill (ctx : Nat) (value : BitVec 64) (s : State) : Out :=
  let op := field value.toNat 57 56
  .next (if op = 1 ∨ rakeBusy s ctx = true then s
    else if op ≠ 2 then rakeStat s ctx 2
    else match cmdRake s ctx value with
      | none => rakeStat s ctx 1
      | some rk => rakeStat (uncontained s ((tget s.rakes rk).map Rake.region |>.getD 0)) ctx 0)

end Sys2Proof.Machine
end

