-- ==== Sys2Proof/Machine/HostRegs.lean ====
section
/-! DEFINITION. The host's register writes and accesses (15 R493-R500, R503-R505, 11 R422, R435, R436). Until READY every
access through a BAR is dropped (R501). -/
namespace Sys2Proof.Machine

/-- A write through PF0's or a VF's BAR takes effect only after READY. -/
def whenReady (s : State) (t : State) : State := if s.pf.ready then t else s

/-! ### Queues (R361, R495, R505) -/

/-- DOORBELL: WIDX moves; one below the last written is an overrun. -/
def execDoorbell (ctx q : Nat) (value : BitVec 64) (s : State) : Out :=
  .next (whenReady s (match queueAt s ctx q with
    | none => s
    | some x =>
      let w := loOf value
      if hiOf value ≠ 0 ∨ x.on = false then s
      else
        let back := decide (2 ^ 31 ≤ (w - x.widx).toNat)
        let s := modQueue s ctx q (fun y => { y with widx := w })
        if back then overrunQueue s ctx q else s))

/-- QERR_REARM: bit 63 re-arms a torn-down queue. -/
def execQerrRearm (ctx q : Nat) (s : State) : Out :=
  .next (whenReady s (modQueue s ctx q (fun y => if y.torn then { y with state := 0 } else y)))

/-- QERR_TEARDOWN: bit 62 tears a queue down; one that is torn down absorbs the write. -/
def execQerrTeardown (ctx q : Nat) (s : State) : Out :=
  .next (whenReady s (match queueAt s ctx q with
    | none => s
    | some x => if x.torn then s else tearQueue s ctx q 9))

/-! ### Invalidations (11 R422) -/

/-- INVCMD: an invalidation starts, of the range that INVADDR names now. -/
def execInvcmd (ctx : Nat) (value : BitVec 64) (s : State) : Out :=
  .next (whenReady s (modCtx s ctx (fun c =>
    if c.invBusy then c else { c with invCmd := value &&& 0x3F, invFirst := field c.invAddr.toNat 56 12, invBusy := true })))

/-- Translations of MLDA and MSTA that tiles hold for a condition on the coach and the page entry (06 R242). -/
def tilesHold (s : State) (sel : Nat → Nat × Nat × Dword → Bool) : Bool :=
  let op (o : MOp) : Bool := match o.kind with
    | .ldG _ _ ps => ps.any (sel o.coach)
    | .stG _ _ ps => ps.any (sel o.coach)
    | _ => false
  let tile (t : Tile) : Bool := t.queue.any op || ((t.cur.map (fun c => op c.1)).getD false)
  s.tiles.any (fun e => tile e.2) || s.coaches.any (fun e => e.2.savedTiles.any (fun x => tile x.2))

/-- Write back and discard the L1 copies of the lines that a condition selects. -/
def dropL1Where (s : State) (sel : Nat → Bool) : State :=
  s.l1.foldl (fun s e => e.2.foldl (fun s c => if sel c.line then l1Drop (writeDirty s c) e.1 c.line else s) s) s

/-- The same, and of the L2 copies. -/
def dropWhere (s : State) (sel : Nat → Bool) : State :=
  let s := dropL1Where s sel
  let s := s.l2.foldl (fun s c => if sel c.line then l2WriteBack s c else s) s
  { s with l2 := s.l2.filter (fun c => !sel c.line) }

/-- The first page and page count of a context's invalidation. -/
def invRange (c : Ctx) : Nat × Nat :=
  let n := if 45 < c.invCmd.toNat then 45 else c.invCmd.toNat
  if n = 45 then (0, 2 ^ 45) else (c.invFirst, 2 ^ n)

/-- INVALIDATION_COMPLETE: no tile holds a translation of the range; every TLB drops it, and L1 lines go home. -/
def execInvalidationComplete (ctx : Nat) (s : State) : Out :=
  .next (match tget s.ctxs ctx with
    | none => s
    | some c =>
      let (first, n) := invRange c
      let hits (page : Nat) : Bool := decide (first ≤ page ∧ page < first + n)
      if !c.invBusy || tilesHold s (fun k p => k / 16384 == ctx && hits p.1) then s
      else
        let keep (e : TlbE) : Bool := e.ctx != ctx || !decide (e.va / 4096 < first + n ∧ first < e.va / 4096 + 2 ^ (e.log - 12))
        let s := { dropL1Where s (fun _ => true) with tlbs := s.tlbs.map (fun e => (e.1, e.2.filter keep)) }
        let s := modCtx s ctx (fun c => { c with invBusy := false, invCount := c.invCount + 1 })
        raiseVector s (ctx + 1) 17)

/-! ### Plates (08 R331) -/

/-- PLATECMD: a load starts. -/
def execPlatecmd (ctx : Nat) (value : BitVec 64) (s : State) : Out :=
  .next (whenReady s (modCtx s ctx (fun c =>
    if c.plateBusy then c else { c with plateCmd := value &&& BitVec.ofNat 64 (2 ^ 52 - 1), plateBusy := true })))

/-- PLATE_LOAD_COMPLETE: the image has been read and checked; a slot that is loaded again loses its impressions. -/
def execPlateLoadComplete (ctx : Nat) (s : State) : Out :=
  .next (match tget s.ctxs ctx with
    | none => s
    | some c =>
      if !c.plateBusy then s
      else
        let slot := field c.plateCmd.toNat 2 0
        let done (s : State) (n : Nat) : State :=
          raiseVector (modCtx s ctx (fun c => { c with plateBusy := false, plateStat := n })) (ctx + 1) 17
        match loadPlate s ctx c c.plateCmd with
        | (.error n, s) => done s n
        | (.ok p, s) =>
          let s := modCtx s ctx (fun c => { c with plates := tput c.plates slot p })
          done { s with imps := s.imps.filter (fun i => i.ctx != ctx || i.slot != slot) } 0)

/-! ### Content keys (12 R439, R449, R451) -/

/-- A slot is being revoked; it is clear once no block that was started under its key is unfinished (R439). -/
def revokeSlot (s : State) (slot : Nat) : State :=
  clearRevoked { s with keys := tmod s.keys slot (fun k => if k.state = 0 then k else { k with state := 3 }) }

/-- Measurement `i` has changed: the slots whose policy names it are revoked (R451). -/
def revokeIndex (s : State) (i : Nat) : State :=
  (tkeys (s.keys.filter (fun e => e.2.kind == 2 && e.2.policy.any (fun p => p.1 == i)))).foldl revokeSlot s

/-! ### DEBUG, features, partitions, counters (R495, R499, R500, R505) -/

/-- DEBUG_WRITE: a write of 1 is ignored for a confidential world that no token covers. -/
def execDebugWrite (ctx : Nat) (value : BitVec 64) (s : State) : Out :=
  .next (whenReady s (modCtx s ctx (fun c =>
    if value.getLsbD 0 then (if c.world = 0 ∨ worldCovered s c.world = true then { c with dbgen := true } else c)
    else { c with dbgen := false })))

/-- The writable bits of a feature word: ATS, TDISP, IDE, FUSE and ACK; and the bits that FEATDRV reads as the device has them:
SYSPL, PATCH, MINOR and MAJOR (R500). -/
def featRw : BitVec 128 := BitVec.ofNat 128 (2 ^ 44 + 2 ^ 43 + 2 ^ 42 + 2 ^ 41 + 1)
def featRo : BitVec 128 := BitVec.ofNat 128 (2 ^ 41 - 2)

/-- FEATDRV_WRITE: bits that the device does not offer are cleared, and the read-only fields stay. A change of FUSE changes the
shape hash, and with it measurement 4 (R499, 12 R449, R451). -/
def execFeatdrvWrite (value : BitVec 128) (s : State) : Out :=
  .next (whenReady s (
    let old := s.pf.featDrv
    let s := { s with pf := { s.pf with featDrv := (value &&& s.pf.featDev &&& featRw) ||| (s.pf.featDev &&& featRo) } }
    if s.pf.featDrv.getLsbD 41 = old.getLsbD 41 then s else revokeIndex s 4))

/-- PARTCMD: refused outside its limits, or while a context exists in an affected partition. Clusters of p that the mask drops go to
partition 0, as the partitions cover every cluster (log 95). -/
def execPartcmd (value : BitVec 64) (s : State) : Out :=
  let v := value.toNat
  let p := field v 4 0
  let mask : BitVec 20 := BitVec.ofNat 20 (field v 27 8)
  let ceil := field v 47 40
  let fused := field v 57 48 + 1
  let thr := field v 63 58
  let affected (q : Nat) : Bool := q == p || ((partOf s q).clusters &&& mask) != 0
    || (q == 0 && (partOf s p).clusters &&& ~~~mask != 0)
  .next (whenReady s (if 19 < p ∨ field v 39 28 ≠ 0 ∨ ceil < 16 ∨ 128 < ceil ∨ fused < 128 ∨ thr < 8 ∨ 16 < thr
      ∨ s.ctxs.any (fun e => affected e.2.part) = true then s
    else
      let dropped := (partOf s p).clusters &&& ~~~mask
      let others := s.parts.map (fun e => (e.1, { e.2 with clusters := e.2.clusters &&& ~~~mask }))
      let parts := tput others p { clusters := mask, ceil := ceil, ceilFused := fused, thrLog := thr }
      let zero := tgetD Part.none parts 0
      revokeIndex { s with parts := tput parts 0 { zero with clusters := zero.clusters ||| dropped }
                           pf := { s.pf with partcmd := value } } 4))

/-- The key of an access counter in CTRASSIGN. -/
def ctrKey (value : BitVec 64) : Nat := field value.toNat 10 10 * 1024 + field value.toNat 9 0

/-- CTRASSIGN with ASSIGN = 1. -/
def execCtrassignAssign (value : BitVec 64) (s : State) : Out :=
  .next (whenReady s (if !value.getLsbD 63 then s
    else { s with ctrs := tput s.ctrs (ctrKey value) { extent := field value.toNat 51 21, count := 0 } }))

/-- CTRASSIGN with ASSIGN = 0. -/
def execCtrassignUnassign (value : BitVec 64) (s : State) : Out :=
  .next (whenReady s (if value.getLsbD 63 then s else { s with ctrs := tdel s.ctrs (ctrKey value) }))

/-! ### Contexts (R496, R497, R503) -/

/-- One hardware queue of a descriptor: none when a field breaks its limit. -/
def queueOfDesc (b : List Byte) (q : Nat) : Option HwQueue :=
  let m := blkNum b (128 + 8 * q) 8
  let r := blkNum b (256 + 8 * q) 8
  let k := field m 4 0
  if field m 63 57 ≠ 0 ∨ field m 11 5 ≠ 0 ∨ (k ≠ 0 ∧ (k < 4 ∨ 16 < k)) ∨ r % 8 ≠ 0 ∨ 2 ^ 57 ≤ r then none
  else some { base := field m 56 12 * 4096, k := k, ridxAddr := r, widx := 0, ridx := 0, state := 0, skipped := 0
              waiting := none, fault := none, ridxDue := false, discard := 0 }

/-- A virtual address field: aligned and within 57 bits. -/
def vaField (b : List Byte) (o align : Nat) : Bool := blkNum b o 8 % align == 0 && decide (blkNum b o 8 < 2 ^ 57)

/-- The fields of a descriptor are within their limits. -/
def descOk (s : State) (b : List Byte) : Bool :=
  let privp := blkNum b 12 2
  let tslice := blkNum b 14 1
  field (blkNum b 0 8) 63 52 == 0 && field (blkNum b 0 8) 11 0 == 0 && decide (blkNum b 8 2 < 2048)
  && decide (6 ≤ blkNum b 10 1 ∧ blkNum b 10 1 ≤ 16) && decide (blkNum b 11 1 ≤ 19)
  && (partOf s (blkNum b 11 1)).clusters != 0 && decide (privp ≤ 4096)
  && (tslice == 0 || decide (12 ≤ tslice ∧ tslice ≤ 32))
  && vaField b 16 64 && vaField b 24 4096 && vaField b 32 4096 && vaField b 40 4096 && vaField b 48 4096 && vaField b 56 4096
  && (privp == 0 || (blkNum b 48 8 != 0 && blkNum b 56 8 != 0))
  && (List.range 16).all (fun i => fmtValid (BitVec.ofNat 32 (blkNum b (64 + 4 * i) 4)))
  && (List.range 16).all (fun q => (queueOfDesc b q).isSome) && (b.drop 384).all (· == 0)

/-- The context that a descriptor describes. -/
def ctxOfDesc (b : List Byte) : Ctx :=
  let va (o : Nat) : Nat := blkNum b o 8
  { ptroot := field (blkNum b 0 8) 51 12 * 4096, world := blkNum b 8 2, part := blkNum b 11 1, privp := blkNum b 12 2
    tslice := blkNum b 14 1, tags := BitVec.ofNat 8 (blkNum b 15 1), fbuflog := blkNum b 10 1, fbufbase := va 16
    imgbase := va 24, rimgbase := va 32, rcftbase := va 40, smapbase := va 48, privbase := va 56
    fmts := (List.range 16).map (fun i => BitVec.ofNat 32 (blkNum b (64 + 4 * i) 4)), trapent := 0, emulent := 0
    framebase := 0, dbgen := false, codever := 1, plates := []
    queues := (List.range 16).filterMap (queueOfDesc b), fbufRidx := 0, fbufWidx := 0, faultSeq := 0, invAddr := 0, invFirst := 0
    invCmd := 0, invBusy := false, invCount := 0, plateCmd := 0, plateStat := 0, plateBusy := false, rakeStat := 0, rakeBusy := false
    saved := false, nextRegion := 1, newest := 0 }

/-- The function of a context may use a world: world 0, or the world of the machine to which the function is bound. -/
def worldOk (s : State) (ctx w : Nat) : Bool :=
  w == 0 || ((tget s.worlds w).isSome && tget s.portil.bindings (ctx + 1) == some w)

/-- CTXSTAT. -/
def ctxStat (s : State) (n : Nat) : State := { s with pf := { s.pf with ctxstat := n } }

/-- A context command of an operation: what it does when the command port is free and the features are negotiated. -/
def ctxCommand (s : State) (value : BitVec 64) (op : Nat) (f : Nat → State → State) : State :=
  whenReady s (if s.pf.ctxstat = 1 ∨ field value.toNat 9 8 ≠ op then s
    else
      let s := { s with pf := { s.pf with ctxcmd := value } }
      if !s.pf.featDrv.getLsbD 0 then ctxStat s 5 else f (field value.toNat 5 0) s)

/-- CTXCMD_CREATE. -/
def execCtxcmdCreate (value : BitVec 64) (s : State) : Out :=
  .next (ctxCommand s value 1 (fun c s =>
    let pa := field value.toNat 63 12 * 4096
    if (tget s.ctxs c).isSome then ctxStat s 3
    else if !isBacked pa || (potSeen s pa).poison then ctxStat s 2
    else
      let s := ownFill s 0 pa 512
      if (poisonIn s pa 512).isSome then ctxStat s 2
      else
      let b := ownRead s pa 512
      if !descOk s b then ctxStat s 2
      else if !worldOk s c (blkNum b 8 2) then ctxStat s 4
      else ctxStat { s with ctxs := tput s.ctxs c (ctxOfDesc b) } 0))

/-- CTXCMD_RESET: the context is reset, and CTXSTAT reads busy until the command completes. -/
def execCtxcmdReset (value : BitVec 64) (s : State) : Out :=
  .next (ctxCommand s value 2 (fun c s =>
    if (tget s.ctxs c).isNone then ctxStat s 3
    else
      let s := contextReset s c
      ctxStat { s with pf := { s.pf with ctxPending := some (2, c) } } 1))

/-- CTXCMD_DESTROY: the reset of step 2; the context's resources are freed when the command completes. -/
def execCtxcmdDestroy (value : BitVec 64) (s : State) : Out :=
  .next (ctxCommand s value 3 (fun c s =>
    if (tget s.ctxs c).isNone then ctxStat s 3
    else
      let s := contextReset s c
      ctxStat { s with pf := { s.pf with ctxPending := some (3, c) } } 1))

/-- Steps 3-5 of R503: nothing of the context is left, and nothing of the Damith touches its areas again. -/
def forgetCtx (s : State) (ctx : Nat) : State :=
  let gone (rg : Nat) : Bool := ((tget s.regions rg).map Region.ctx) == some ctx
  let dray (d : Dray) : Dray := if d.ctx = some ctx then { d with ctx := none } else d
  let tile (t : Tile) : Tile := if t.lastCtx = some ctx then { t with lastCtx := some goneCtx } else t
  let faults := tkeys (s.faults.filter (fun e => e.2.ctx == ctx))
  { s with ctxs := tdel s.ctxs ctx, faults := s.faults.filter (fun e => e.2.ctx != ctx)
           rakes := s.rakes.filter (fun e => !gone e.2.region), coaches := s.coaches.filter (fun e => e.2.ctx != ctx)
           regions := s.regions.filter (fun e => e.2.ctx != ctx), drays := s.drays.map (fun e => (e.1, dray e.2))
           tiles := s.tiles.map (fun e => (e.1, tile e.2)), imps := s.imps.filter (fun i => i.ctx != ctx)
           tlbs := s.tlbs.map (fun e => (e.1, e.2.filter (fun t => t.ctx != ctx)))
           pending := s.pending.filter (fun p => !faults.contains p.1), resets := s.resets.filter (· != ctx)
           sessions := s.sessions.filter (fun e => e.2.ctx != ctx), treebars := s.treebars.filter (fun e => e.1 / 8 != ctx) }

/-- A completion record of a reset region, or the record of a void session, still waits for the driver (R503 step 2, 12 R460). -/
def ctxOwes (s : State) (ctx : Nat) : Bool :=
  s.pending.any (fun p => match p.2 with
    | .complete rg => rg / 2 ^ 32 == ctx
    | .record key => ((tget s.sessions key).map Session.ctx) == some ctx
    | .refused c _ _ _ _ => c == ctx
    | _ => false)

/-- CTXCMD_COMPLETE: once every record of the reset has been written. -/
def execCtxcmdComplete (s : State) : Out :=
  .next (match s.pf.ctxPending with
    | none => s
    | some (op, c) =>
      if ctxOwes s c then s
      else ctxStat { (if op = 3 then forgetCtx s c else s) with pf := { s.pf with ctxPending := none } } 0)

/-! ### Registers without behaviour of their own (R494, R495) -/

/-- Bits `hi:lo` of a register value stay. -/
def keepBits (v : Dword) (hi lo : Nat) : Dword := BitVec.ofNat 64 (field v.toNat hi lo * 2 ^ lo)

/-- A PF0 register. -/
def writePf (p : PfRegs) (offset : Nat) (v : Dword) : PfRegs :=
  match offset with
  | 0x28 => { p with aperbase := keepBits v 51 36 }
  | 0x38 => if p.ctxstat ≠ 1 ∧ field v.toNat 9 8 = 0 then { p with ctxcmd := v } else p
  | 0x48 => { p with ctrRing := keepBits v 51 12 ||| keepBits v 4 0 }
  | 0x58 => { p with ctrThr := field v.toNat 4 0 }
  | 0x60 => { p with errLog := setAt p.errLog 0 (keepBits v 51 12 ||| keepBits v 4 0) }
  | 0x68 => { p with errLog := setAt p.errLog 1 (keepBits v 51 12 ||| keepBits v 4 0) }
  | 0x80 => { p with errRidx := setAt p.errRidx 0 (loOf v) }
  | 0x88 => { p with errRidx := setAt p.errRidx 1 (loOf v) }
  | 0x90 => { p with ctrRidx := loOf v }
  | _ => p

/-- QERR without bits 63 and 62: the slot index, and the state of a queue that is not torn down. -/
def writeQerr (x : HwQueue) (v : Dword) : HwQueue :=
  let st := field v.toNat 39 32
  { x with skipped := loOf v, state := if x.torn || decide (1 < st) then x.state else st }

/-- A register of a VF. -/
def writeVf (c : Ctx) (offset : Nat) (v : Dword) : Ctx :=
  match offset with
  | 0x200 => { c with fbufRidx := loOf v }
  | 0x218 => { c with invAddr := keepBits v 56 12 }
  | 0x230 => { c with codever := loOf v }
  | _ =>
    if 0x100 ≤ offset ∧ offset < 0x180 ∧ offset % 8 = 0 ∧ field v.toNat 63 62 = 0 then
      { c with queues := modAt (fun (x : HwQueue) => writeQerr x v) c.queues ((offset - 0x100) / 8) }
    else c

/-- REGISTER_WRITE: function 0 is PF0, function n is VFn. -/
def execRegisterWrite (fn offset : Nat) (value : BitVec 64) (s : State) : Out :=
  .next (whenReady s (if fn = 0 then { s with pf := writePf s.pf offset value }
    else modCtx s (fn - 1) (fun c => writeVf c offset value)))

/-! ### What registers read (R494, R495, R501, R504, R508, 12 R438) -/

/-- STATUS. -/
def statusReg (p : PfRegs) : Nat :=
  p.stage % 256 + (if p.ready then 2 ^ 8 else 0) + (if p.fatal then 2 ^ 9 else 0) + (if p.sysplateFailed then 2 ^ 10 else 0)

/-- What a PF0 register reads at an 8-byte offset; FEATDEV and FEATDRV take two. -/
def readPf (p : PfRegs) (offset : Nat) : Dword :=
  let at_ (l : List Word) (d : Nat) : Nat := ((l[d]?).getD 0).toNat
  BitVec.ofNat 64 (match offset with
    | 0x00 => p.featDev.toNat
    | 0x08 => p.featDev.toNat / 2 ^ 64
    | 0x10 => p.featDrv.toNat
    | 0x18 => p.featDrv.toNat / 2 ^ 64
    | 0x20 => statusReg p
    | 0x28 => p.aperbase.toNat
    | 0x30 => p.partcmd.toNat
    | 0x38 => p.ctxcmd.toNat
    | 0x40 => p.ctxstat
    | 0x48 => p.ctrRing.toNat
    | 0x50 => p.ctrWidx.toNat
    | 0x58 => p.ctrThr
    | 0x60 => ((p.errLog[0]?).getD 0).toNat
    | 0x68 => ((p.errLog[1]?).getD 0).toNat
    | 0x70 => at_ p.errWidx 0 + 2 ^ 32 * at_ p.errLost 0
    | 0x78 => at_ p.errWidx 1 + 2 ^ 32 * at_ p.errLost 1
    | 0x80 => at_ p.errRidx 0
    | 0x88 => at_ p.errRidx 1
    | 0x90 => p.ctrRidx.toNat
    | 0xA0 => p.portreq.toNat
    | 0xA8 => p.portstat.toNat + (if p.portBusy then 2 ^ 8 else 0)
    | _ => 0)

/-- What a register of a VF reads. -/
def readVf (c : Ctx) (offset : Nat) : Dword :=
  match offset with
  | 0x200 => c.fbufRidx.setWidth 64
  | 0x208 => c.fbufWidx.setWidth 64
  | 0x218 => c.invAddr
  | 0x220 => c.invCmd
  | 0x228 => BitVec.ofNat 64 ((if c.invBusy then 1 else 0) + 2 * c.invCount)
  | 0x230 => c.codever.setWidth 64
  | 0x238 => c.plateCmd
  | 0x240 => BitVec.ofNat 64 (c.plateStat % 256 + (if c.plateBusy then 2 ^ 8 else 0))
  | 0x248 => if c.dbgen then 1 else 0
  | 0x258 => BitVec.ofNat 64 (c.rakeStat % 256 + (if c.rakeBusy then 2 ^ 8 else 0))
  | _ =>
    if 0x100 ≤ offset ∧ offset < 0x180 ∧ offset % 8 = 0 then
      match c.queues[(offset - 0x100) / 8]? with
      | some x => BitVec.ofNat 64 (x.skipped.toNat + 2 ^ 32 * (x.state % 256))
      | none => 0
    else 0

/-- What a read of a register returns: all ones before READY; zero of a VF without a context (R501, R503). -/
def readRegister (s : State) (fn offset : Nat) : Dword :=
  if !s.pf.ready then BitVec.allOnes 64
  else if fn = 0 then readPf s.pf offset
  else ((tget s.ctxs (fn - 1)).map (fun c => readVf c offset)).getD 0

/-- The status word of a key slot (12 R438). -/
def keyStatus (s : State) (slot : Nat) : Word :=
  match tget s.keys slot with
  | some k => BitVec.ofNat 32 (k.kind % 8 * 2 ^ 29 + k.state % 4 * 2 ^ 27 + k.world % 2 ^ 11 * 2 ^ 16 + k.epoch.toNat)
  | none => 0

/-! ### The aperture, peers and ATS (R493, R498) -/

/-- A page that an access from outside reaches. -/
def shared (s : State) (pa : Nat) : Bool :=
  let page := potSeen s pa
  page.world == 0 && page.state == 0 && !page.poison
/-- The first byte, and the last, of an access whose page is refused. -/
def refusedAt (s : State) (pa n : Nat) : Option Nat := [pa, pa + (n - 1)].find? (fun a => !shared s a)

/-- An access from outside of up to 8 bytes at the home slice: what a read returns, and the state. -/
def outsideAccess (s : State) (write : Bool) (pa n : Nat) (value : Dword) : State :=
  let s := ownFill s 0 pa n
  if write then ownWrite s 0 pa (leBytes n value.toNat)
  else { s with hostRead := BitVec.ofNat 64 (leNat (ownRead s pa n)) }

/-- HOST_APERTURE_ACCESS: on a page of another world a read returns all ones, a write is dropped, and either is logged. -/
def execHostApertureAccess (write : Bool) (offset size : Nat) (value : BitVec 64) (s : State) : Out :=
  let n := if size < 8 then size else 8
  .next (if !s.pf.ready then (if write then s else { s with hostRead := BitVec.allOnes 64 })
    else
      let pa := s.pf.aperbase.toNat + offset % 2 ^ 36
      match if isBacked pa then refusedAt s pa n else some pa with
      | none => outsideAccess s write pa n value
      | some a =>
        let s := logError s srcDram 1 (homeDie a) a none (some (potOf s a).world) none
        if write then s else { s with hostRead := BitVec.allOnes 64 })

/-- PEER_ACCESS: a peer's access over a link that is up; a read that is refused returns poisoned data, whose value is a free
one (log 46). -/
def execPeerAccess (link : Nat) (write : Bool) (pa size : Nat) (value : BitVec 64) (s : State) : Out :=
  let n := if size < 8 then size else 8
  .next (if 12 ≤ link ∨ s.pf.featDev.getLsbD (52 + link) = false then s
    else if isDram pa && (refusedAt s pa n).isNone then outsideAccess s write pa n value
    else if write then s
    else
      let (k, s) := freshSeed s
      { s with hostRead := Config.freeWord k 1 ++ Config.freeWord k 0 })

/-- ATS_INVALIDATION of pages of the host window, by page number there: it completes when R422's conditions hold. -/
def execAtsInvalidation (first pages : Nat) (s : State) : Out :=
  let base := 0x80000000000 / 4096 + first
  let hits (frame : Nat) : Bool := decide (base ≤ frame ∧ frame < base + pages)
  .next (if !atsOn s || tilesHold s (fun _ p => hits (p.2.1 / 4096)) then s
    else
      let keep (e : TlbE) : Bool := !decide (e.pa / 4096 < base + pages ∧ base < e.pa / 4096 + 2 ^ (e.log - 12))
      { dropWhere s (fun line => hits (line / 64)) with
        tlbs := s.tlbs.map (fun e => (e.1, e.2.filter keep))
        ats := s.ats.map (fun e => (e.1, e.2.filter (fun p => !hits p))) })

/-- POWER_CAP_SET by management, from 600 W to 1,500 W (R502). -/
def execPowerCapSet (watts : Nat) (s : State) : Out :=
  .next (if 600 ≤ watts ∧ watts ≤ 1500 then { s with powerCap := watts } else s)

end Sys2Proof.Machine
end

