-- ==== Sys2Proof/Machine/Portil.lean ====
section
/-! DEFINITION. Portil's requests (12 R439-R453, 15 R506-R508), SPDM sessions, TDISP bindings and the rotation of the
hallmark keys (12 R449, R450, 15 R493). -/
namespace Sys2Proof.Machine

/-- Statuses (R440). -/
def stDone : Nat := 0
def stBadarg : Nat := 1
def stState : Nat := 2
def stFull : Nat := 3
def stAuth : Nat := 4
def stPoisoned : Nat := 5
def stPolicy : Nat := 6

/-! ### Responses (R506, R508) -/

/-- The physical address of a bus address of host memory. -/
def hostAddr (bus : Nat) : Nat := 0x80000000000 + bus

/-- The 64 bytes of a response. -/
def responseBlock (block : List Byte) (status : Nat) (result : List Byte) : List Byte :=
  block.take 2 ++ leBytes 1 status ++ leBytes 1 0 ++ (block.drop 4).take 4 ++ (result ++ List.replicate 56 0).take 56

/-- Answer a request: into the mailbox's buffer and PORTSTAT, or to the session that made it. -/
def answerReq (s : State) (src : ReqSource) (block : List Byte) (status : Nat) (result : List Byte) : State :=
  let b := responseBlock block status result
  match src, s.portil.pending with
  | .mailbox, some (buf, _) =>
    let pa := hostAddr buf + 1024
    let s := if isHostWindow pa then physWrite (dropWhere s (fun l => l == pa / 64)) pa b else s
    let stat : Dword := BitVec.ofNat 64 (status + 2 ^ 16 * imgNum block 4 4)
    raiseVector { s with portil := { s.portil with pending := none }, pf := { s.pf with portstat := stat, portBusy := false } } 0 4
  | _, _ => { s with portil := { s.portil with responses := s.portil.responses ++ [b] } }

/-- PORTREQ: a write with bit 0 set hands the block at its bus address to Portil. -/
def execPortreq (value : BitVec 64) (s : State) : Out :=
  .next (whenReady s (if s.pf.portBusy then s
    else
      let s := { s with pf := { s.pf with portreq := value } }
      if !value.getLsbD 0 then s
      else
        let buf := field value.toNat 63 11 * 2048
        let raw := if isHostWindow (hostAddr buf) then ownRead s (hostAddr buf) 1024 else List.replicate 1024 0
        let len := imgNum raw 2 2
        let block := if 16 ≤ len ∧ len ≤ 1024 ∧ len % 16 = 0 then raw.take len else raw
        { s with pf := { s.pf with portBusy := true }
                 portil := { s.portil with pending := some (buf, block), queue := s.portil.queue ++ [(.mailbox, block)] } }))

/-- A request block of a code: its length is the request's, and the bytes of the given spans are zero. -/
def blockGood (block : List Byte) (len : Nat) (zeros : List (Nat × Nat)) : Bool :=
  imgNum block 2 2 == len && block.length == len && zeros.all (fun z => imgNum block z.1 z.2 == 0)

/-- A request of code `code` whose path is given (`path`) and whose block is good: `f` performs it; others are answered
AUTH or BADARG. A code that no request has is answered BADARG (R507); a block of another request's code is none of this request. -/
def perform (s : State) (src : ReqSource) (block : List Byte) (code len : Nat) (path : Bool) (zeros : List (Nat × Nat))
    (f : State → State) : State :=
  let c := imgNum block 0 2
  if c = 0 ∨ 10 < c then answerReq s src block stBadarg []
  else if c ≠ code then s
  else if !path then answerReq s src block stAuth []
  else if !blockGood block len zeros then answerReq s src block stBadarg []
  else f s

/-- Requests are performed one at a time, in the order in which they are accepted (R440, R508): one that comes while others wait
joins their queue. -/
def request (s : State) (src : ReqSource) (block : List Byte) (code len : Nat) (path : Bool) (zeros : List (Nat × Nat))
    (f : State → State) : State :=
  if s.portil.taken = some (src, block) then
    perform { s with portil := { s.portil with taken := none } } src block code len path zeros f
  else if s.portil.queue.isEmpty then perform s src block code len path zeros f
  else { s with portil := { s.portil with queue := s.portil.queue ++ [(src, block)] } }

/-- Portil takes the request at the head of its queue. -/
def takeReq (s : State) : State :=
  match s.portil.queue with
  | r :: rest => { s with portil := { s.portil with queue := rest, taken := some r } }
  | [] => s

/-- A secured session exists. -/
def hasSession (s : State) (n : Nat) : Bool := s.portil.sessions.contains n

/-! ### Key slots (R438) -/

/-- The lowest free slot. -/
def freeSlot (s : State) : Option Nat :=
  let n := firstFree 2048 (tkeys (s.keys.filter (fun e => e.2.state != 0)))
  if n < 2048 then some n else none

/-- Load a slot, and count the load. -/
def loadSlot (s : State) (slot kind world key session : Nat) (policy : List (Nat × List Byte)) : State :=
  let epoch := ((tget s.keys slot).map KeySlot.epoch).getD 0
  { s with keys := tput s.keys slot { kind := kind, state := 2, world := world, epoch := epoch + 1, key := key
                                      session := session, policy := policy } }

/-- The memory key of a world. -/
def memoryKey (s : State) (w : Nat) : List Nat :=
  match (tget s.worlds w).bind (fun x => tget s.keys x.slot) with
  | some k => toNats (leBytes 64 (Config.randomKey k.key).toNat)
  | none => []

/-- A line as L2 and DRAM hold it: AES-256-XTS under the key of its page's world with the data unit PA<51:6>, and plaintext for
world 0 (R444). State.mem holds the plaintext that the ciphers give back (log 94). -/
def heldForm (s : State) (line : Nat) (bs : List Byte) : List Byte :=
  let w := (potOf s (64 * line)).world
  if w = 0 then bs else toBytes (xtsEnc (memoryKey s w) line (toNats bs))

/-! ### Worlds (R440) -/

/-- The request comes from the function that TDISP has bound to the virtual machine of a world; a number that no world can
have is for the request itself to refuse (R440). -/
def boundTo (s : State) (src : ReqSource) (w : Nat) : Bool :=
  match src with
  | .vfSession vf => match tget s.portil.bindings vf with
    | some b => b == w || w == 0 || decide (2047 < w)
    | none => false
  | _ => false

/-- CREATE_WORLD. -/
def execCreateWorld (src : ReqSource) (block : List (BitVec 8)) (s : State) : Out :=
  let w := imgNum block 8 2
  .next (request s src block 1 16 (boundTo s src w) [(11, 5)] (fun s =>
    let flags := imgNum block 10 1
    if w = 0 ∨ 2047 < w ∨ 1 < flags ∨ (tget s.worlds w).isSome = true then answerReq s src block stBadarg []
    else match freeSlot s with
      | none => answerReq s src block stFull []
      | some slot =>
        let key := s.portil.keys
        let s := loadSlot { s with portil := { s.portil with keys := key + 1 } } slot 1 w key 0 []
        let s := { s with worlds := tput s.worlds w { debuggable := flags == 1, exports := 0, covered := false, slot := slot } }
        answerReq s src block stDone []))

/-- DESTROY_WORLD. -/
def execDestroyWorld (src : ReqSource) (block : List (BitVec 8)) (s : State) : Out :=
  let w := imgNum block 8 2
  .next (request s src block 2 16 (boundTo s src w) [(10, 6)] (fun s =>
    if (tget s.worlds w).isNone then answerReq s src block stBadarg []
    else if s.ctxs.any (fun e => e.2.world == w) || s.pot.any (fun e => e.2.world == w) then
      answerReq s src block stState []
    else
      let s := (tkeys (s.keys.filter (fun e => e.2.world == w))).foldl revokeSlot s
      let s := { s with worlds := tdel s.worlds w
                        portil := { s.portil with exports := s.portil.exports.filter (fun e => e.1 != w) } }
      answerReq s src block stDone []))

/-! ### Pages (R441-R443, R446, R447) -/

/-- A page address (R507). -/
def pageOk (p : Nat) : Bool := p % 4096 == 0

/-- No tile holds a translation of a frame (R443 step 2). -/
def frameQuiet (s : State) (p : Nat) : Bool := !tilesHold s (fun _ e => e.2.1 / 4096 == p / 4096)

/-- Translations of a frame are dropped (R443 step 2). -/
def dropFrame (s : State) (p : Nat) : State :=
  let keep (e : TlbE) : Bool := !decide (e.pa / 4096 ≤ p / 4096 ∧ p / 4096 < e.pa / 4096 + 2 ^ (e.log - 12))
  { s with tlbs := s.tlbs.map (fun e => (e.1, e.2.filter keep)) }

/-- Steps 2 and 3 of R443: translations of a frame are dropped, its dirty bytes go home, and its L1 and L2 lines go. -/
def takeFrame (s : State) (p : Nat) : State := dropFrame (dropWhere s (fun line => line / 64 == p / 4096)) p

/-- A frame is written whole, which is no write that ends the poison of a line (12 R467). -/
def writeFrameBytes (s : State) (p : Nat) (bs : List Byte) : State := physWrite s p bs

/-- Zeros under the owner's key. -/
def scrubFrame (s : State) (p : Nat) : State := writeFrameBytes s p (List.replicate 4096 0)

/-- A request that must wait for a tile goes back to the head of Portil's queue. -/
def waitReq (s : State) (src : ReqSource) (block : List Byte) : State :=
  { s with portil := { s.portil with queue := (src, block) :: s.portil.queue } }

/-- Steps 1 and 2 of R443 while a tile still holds a translation of the frame: the page is in SCRUB or EXPORTED, and its other
translations are gone, so that accesses park with OWN. -/
def waitFrame (s : State) (p : Nat) (e : PotE) (src : ReqSource) (block : List Byte) : State :=
  waitReq (dropFrame (potSet s p e) p) src block

/-- ASSIGN p, w. A window page has no entry to write (R441, log 94). A POISON bit stays: only RECLAIM clears it (R448). -/
def execAssign (src : ReqSource) (block : List (BitVec 8)) (s : State) : Out :=
  .next (request s src block 3 32 (src == .mailbox) [(18, 14)] (fun s =>
    let p := imgNum block 8 8
    let w := imgNum block 16 2
    let e := potOf s p
    if !pageOk p then answerReq s src block stBadarg []
    else if (e.state ≠ 0 ∧ e.state ≠ 3) ∨ e.world ≠ 0 ∨ (tget s.worlds w).isNone = true then answerReq s src block stState []
    else if !isDram p then answerReq s src block stBadarg []
    else if !frameQuiet s p then waitFrame s p { e with state := 3 } src block
    else
      let s := scrubFrame (takeFrame s p) p
      answerReq (potSet s p { e with world := w, state := 1 }) src block stDone []))

/-- RECLAIM p. -/
def execReclaim (src : ReqSource) (block : List (BitVec 8)) (s : State) : Out :=
  .next (request s src block 4 16 (src == .mailbox) [] (fun s =>
    let p := imgNum block 8 8
    let e := potOf s p
    if !pageOk p then answerReq s src block stBadarg []
    else if e.state ≠ 1 ∧ (e.state ≠ 3 ∨ e.world = 0) ∧ s.upsets.contains (.pot (p / 4096)) = false then
      answerReq s src block stState []
    else if !frameQuiet s p then waitFrame s p { e with state := 3 } src block
    else
      let s := scrubFrame (takeFrame s p) p
      -- a page whose entry could not be read is usable again (R468)
      let s := { s with upsets := s.upsets.filter (· != .pot (p / 4096)) }
      answerReq (potSet s p PotE.free) src block stDone []))

/-- The lines of a page in XTS under the export's data units. -/
def cipherPage (f : List Nat → Nat → List Nat → List Nat) (key : List Nat) (version : Nat) (bs : List Byte) : List Byte :=
  (mapFrom (fun i line => toBytes (f key ((2 ^ 63 + 64 * version + i) % 2 ^ 64) (toNats line))) 0 (chunks 64 64 bs)).flatten

/-- The tag of a blob's first 4,112 bytes. -/
def blobTag (key : List Nat) (version : Nat) (head : List Byte) : List Byte :=
  let ek := hkdf384 key ("AZD export".toList.map Char.toNat)
  toBytes (gcmTag (roundKeys ek) (toNats (leBytes 8 version) ++ [0, 0, 0, 0]) (toNats head) [])

/-- A blob fits in the host window at an address. -/
def blobAt (a : Nat) : Bool := a % 64 == 0 && isHostWindow a && isHostWindow (a + 4159)

/-- EXPORT p, a. A POISON bit stays: only RECLAIM clears it (R448). -/
def execExportPage (src : ReqSource) (block : List (BitVec 8)) (s : State) : Out :=
  .next (request s src block 5 32 (src == .mailbox) [(24, 8)] (fun s =>
    let p := imgNum block 8 8
    let a := imgNum block 16 8
    let e := potOf s p
    let w := e.world
    if !pageOk p then answerReq s src block stBadarg []
    else if e.state ≠ 1 ∧ e.state ≠ 2 then answerReq s src block stState []
    else if !blobAt a then answerReq s src block stBadarg []
    else if 1048576 ≤ s.portil.exports.length then answerReq s src block stFull []
    else if !frameQuiet s p then waitFrame s p { e with state := 2 } src block
    else
      let version := ((tget s.worlds w).map World.exports).getD 0 + 1
      let s := { s with worlds := tmod s.worlds w (fun x => { x with exports := version }) }
      let s := takeFrame s p
      let key := memoryKey s w
      let head := cipherPage xtsEnc key version (physRead s p 4096) ++ leBytes 8 version ++ leBytes 2 w ++ leBytes 6 0
      let blob := head ++ blobTag key version head ++ List.replicate 32 0
      let s := physWrite (dropWhere s (fun l => decide (a / 64 ≤ l ∧ l < a / 64 + 65))) a blob
      let s := { s with portil := { s.portil with exports := (w, version) :: s.portil.exports } }
      answerReq (potSet (scrubFrame s p) p { e with world := 0, state := 0 }) src block stDone (leBytes 8 version)))

/-- IMPORT a, p, w. A window page has no entry, and a blob outside a host window cannot be read (R441, log 94). -/
def execImportPage (src : ReqSource) (block : List (BitVec 8)) (s : State) : Out :=
  .next (request s src block 6 32 (src == .mailbox) [(26, 6)] (fun s =>
    let a := imgNum block 8 8
    let p := imgNum block 16 8
    let w := imgNum block 24 2
    let e := potOf s p
    if !pageOk p then answerReq s src block stBadarg []
    else if e.state ≠ 0 ∨ e.world ≠ 0 then answerReq s src block stState []
    else if (tget s.worlds w).isNone then answerReq s src block stBadarg []
    else if !isDram p || !blobAt a then answerReq s src block stBadarg []
    else if !frameQuiet s p then waitReq s src block
    else
      let blob := ownRead s a 4160
      let version := imgNum blob 4096 8
      let key := memoryKey s w
      let good := imgNum blob 4104 2 == w && s.portil.exports.contains (w, version)
        && (blob.drop 4112).take 16 == blobTag key version (blob.take 4112)
      let s := takeFrame s p
      let s := { s with portil := { s.portil with exports := s.portil.exports.filter (· != (w, version)) } }
      if good then
        let s := writeFrameBytes s p (cipherPage xtsDec key version (blob.take 4096))
        answerReq (potSet s p { world := w, poison := false, state := 1 }) src block stDone []
      else answerReq (potSet (scrubFrame s p) p { world := w, poison := true, state := 1 }) src block stPoisoned []))

/-! ### Content keys (R439, R449, R451) -/

/-- The current value of a measurement; none for an index that is not produced. -/
def measurementOf (s : State) (i : Nat) : Option (List Byte) :=
  match i with
  | 1 | 2 => some (Config.measurement i [])
  | 3 => some (match s.sysplate with
    | some p => sha384 p.image
    | none => List.replicate 48 0)
  | 4 => some (Config.measurement 4 (s.parts.flatMap (fun e =>
      leBytes 1 e.1 ++ leBytes 3 e.2.clusters.toNat ++ leBytes 2 e.2.ceil ++ leBytes 2 e.2.ceilFused ++ leBytes 1 e.2.thrLog
      ++ shapeHash s e.2)))
  | 5 => some (Config.measurement 5 (s.portil.covered.flatMap (leBytes 2)))
  | 6 => some (Config.measurement 6 (leBytes 2 (deviceMinor s)))
  | _ => none

/-- The policy of a LOAD_KEY block. -/
def policyOf (block : List Byte) : List (Nat × List Byte) :=
  (List.range (imgNum block 10 1)).map (fun i => (imgNum block (16 + 49 * i) 1, (block.drop (17 + 49 * i)).take 48))

/-- LOAD_KEY. -/
def execLoadKey (src : ReqSource) (block : List (BitVec 8)) (s : State) : Out :=
  let session := match src with
    | .ownerSession n => n
    | _ => 0
  let path := match src with
    | .ownerSession n => hasSession s n
    | _ => false
  let n := imgNum block 10 1
  .next (request s src block 7 464 path [(11, 5), (16 + 49 * n, 49 * (8 - n)), (448, 16)] (fun s =>
    let w := imgNum block 8 2
    let policy := policyOf block
    if 8 < n ∨ (w ≠ 0 ∧ (tget s.worlds w).isNone = true) then answerReq s src block stBadarg []
    else if policy.any (fun p => measurementOf s p.1 != some p.2) then answerReq s src block stPolicy []
    else match freeSlot s, keyUnwrap (hkdf384 (toNats (Config.sessionSecret session)) []) (toNats ((block.drop 408).take 40)) with
      | none, _ => answerReq s src block stFull []
      | some _, none => answerReq s src block stAuth []
      | some slot, some key =>
        let s := loadSlot s slot 2 w (leNat (toBytes key)) session policy
        answerReq s src block stDone (leBytes 2 slot)))

/-- REVOKE_KEY: by the session that loaded the slot, or by the driver when the slot's world no longer exists. -/
def execRevokeKey (src : ReqSource) (block : List (BitVec 8)) (s : State) : Out :=
  let slot := imgNum block 8 2
  let path := match src, tget s.keys slot with
    | .ownerSession n, some k => hasSession s n && k.kind == 2 && k.session == n
    | .mailbox, some k => k.kind != 0 && k.world != 0 && (tget s.worlds k.world).isNone
    | _, _ => false
  .next (request s src block 8 16 path [(10, 6)] (fun s => answerReq (revokeSlot s slot) src block stDone []))

/-! ### Debug unlock (R452, R453) -/

/-- GET_NONCE. -/
def execGetNonce (src : ReqSource) (block : List (BitVec 8)) (s : State) : Out :=
  .next (request s src block 9 16 (src == .mailbox || src == .mctp) [(8, 8)] (fun s =>
    let n := s.portil.nonces
    let s := { s with portil := { s.portil with nonce := some n, nonces := n + 1 } }
    answerReq s src block stDone (leBytes 32 (Config.nonce n).toNat)))

/-- DEBUG_UNLOCK: the worlds that the token lists, that exist and were created debuggable, are covered. -/
def execDebugUnlock (src : ReqSource) (block : List (BitVec 8)) (s : State) : Out :=
  let n := imgNum block 10 1
  .next (request s src block 10 256 (src == .mailbox || src == .mctp) [(11, 1), (12 + 2 * n, 2 * (8 - n)), (204, 52)] (fun s =>
    if imgNum block 8 2 ≠ 1 ∨ n = 0 ∨ 8 < n then answerReq s src block stBadarg []
    else
      let nonce := (block.drop 76).take 32
      let fresh := match s.portil.nonce with
        | some k => nonce == leBytes 32 (Config.nonce k).toNat
        | none => false
      let s := if fresh then { s with portil := { s.portil with nonce := none } } else s
      let good := fresh && (block.drop 28).take 48 == Config.identityDigest
        && Config.tokenSigned ((block.drop 8).take 100) ((block.drop 108).take 96)
      if !good then answerReq s src block stAuth []
      else
        let listed := (List.range n).map (fun i => imgNum block (12 + 2 * i) 2)
        let takes (w : Nat) : Bool := ((tget s.worlds w).map World.debuggable).getD false
        let now := listed.filter takes
        let s := now.foldl (fun s w => { s with worlds := tmod s.worlds w (fun x => { x with covered := true }) }) s
        let s := { s with portil := { s.portil with covered := s.portil.covered ++ now } }
        answerReq (revokeIndex s 5) src block stDone []))

/-! ### SPDM, TDISP and rotation (R449, R450, 15 R493; log 15) -/

/-- What the answer to an SPDM request holds of the things that R449 names: the digests of the two certificate slots, their
chains, the identity key's signature on a challenge, the versions, and the six measurements. -/
def spdmAnswer (s : State) (code : Nat) : Option (List Byte) :=
  match code with
  | 0x81 => some ([0, 1].flatMap (fun i => sha384 (Config.certificates i)))
  | 0x82 => some ([0, 1].flatMap Config.certificates)
  | 0x83 => some (ecdsa384 (ecdsaKey Config.identityKey) (Config.transcript s.portil.responses.length))
  | 0x84 => some [0x12, 0x13]
  | 0xE0 => some ([1, 2, 3, 4, 5, 6].flatMap (fun i => leBytes 1 i ++ (measurementOf s i).getD []))
  | _ => none

/-- SPDM_REQUEST over DOE or MCTP: KEY_EXCHANGE (0xE4) and then FINISH (0xE5) open a secured session, END_SESSION (0xEC) ends it,
and the requests for what Portil holds are answered. -/
def execSpdmRequest (session : Nat) (code : Nat) (transport : Nat) (s : State) : Out :=
  let p := s.portil
  .next (if 1 < transport then s
    else if code = 0xE4 then
      (if p.exchanged.contains session then s else { s with portil := { p with exchanged := p.exchanged ++ [session] } })
    else if code = 0xE5 then
      (if !p.exchanged.contains session then s
        else { s with portil := { p with exchanged := p.exchanged.filter (· != session)
                                         sessions := p.sessions.filter (· != session) ++ [session] } })
    else if code = 0xEC then { s with portil := { p with sessions := p.sessions.filter (· != session) } }
    else match spdmAnswer s code with
      | some a => { s with portil := { p with responses := p.responses ++ [a] } }
      | none => s)

/-- TDISP_REQUEST: a virtual function is bound to the confidential machine of a world, or unbound. -/
def execTdispRequest (vf world : Nat) (bind : Bool) (s : State) : Out :=
  .next (if !(s.pf.featDev.getLsbD 43 && s.pf.featDrv.getLsbD 43) || vf = 0 || 64 < vf then s
    else if bind then { s with portil := { s.portil with bindings := tput s.portil.bindings vf world } }
    else { s with portil := { s.portil with bindings := tdel s.portil.bindings vf } })

/-- FIRMWARE_ROTATION: KEYID rises. -/
def execFirmwareRotation (s : State) : Out := .next { s with portil := { s.portil with keyid := s.portil.keyid + 1 } }

end Sys2Proof.Machine
end

