-- ==== Sys2Proof/Machine/Bringup.lean ====
section
/-! DEFINITION. Bring-up (15 R500, R501, 08 R323-R325, 12 R441): each stage starts when the one before has completed. -/
namespace Sys2Proof.Machine

/-- A bring-up stage starts when `stage` has completed and nothing has failed. -/
def afterStage (s : State) (stage : Nat) (f : State → State) : State :=
  if s.pf.stage = stage ∧ s.pf.fatal = false ∧ s.pf.ready = false then f s else s

/-- Stage `n` is reported. -/
def stageDone (s : State) (n : Nat) : State := { s with pf := { s.pf with stage := n } }

/-- The lines of pages of former worlds stand in memory as their ciphers wrote them, under keys that no longer exist (12 R441,
R444). -/
def lockPages (s : State) : State :=
  s.pot.foldl (fun t e =>
    (List.range 64).foldl (fun t i =>
      let line := 64 * e.1 + i
      physWrite t (64 * line) (heldForm s line (physRead s (64 * line) 64))) t) s

/-- PERST_RELEASE, a device reset: everything stands as after reset, but for memory, the counters that never fall, and the
hallmark generation; then Portil tests itself and verifies its firmware. -/
def execPerstRelease (passed : Bool) (s : State) : Out :=
  let p := { Portil.reset with keyid := s.portil.keyid, nonces := s.portil.nonces, keys := s.portil.keys + 1
                               resets := s.portil.resets + 1 }
  let t := { State.reset with mem := (lockPages s).mem, poison := s.poison, softErrors := s.softErrors, pot := s.pot, free := s.free
                              sched := s.sched, portil := p, flowKey := some s.portil.keys, peerRefused := s.peerRefused }
  .next (if passed then stageDone t 1 else fatalDevice (stageDone t 1) srcKeys 0)

/-- DRAM_TRAINING: near and far DRAM are zeroed and the POT is cleared. -/
def execDramTraining (passed : Bool) (s : State) : Out :=
  .next (afterStage s 1 (fun s =>
    let s := stageDone s 2
    if !passed then { s with pf := { s.pf with fatal := true } }
    else
      { s with mem := s.mem.filter (fun e => !isDram e.1), pot := [], poison := s.poison.filter (fun l => !isDram (l * 64))
               softErrors := s.softErrors.filter (fun e => !isDram (e.1 * 64)) }))

/-- SYSTEM_PLATE_LOAD: a plate whose signature and checks hold is loaded; else SYSPLATE failed is set. -/
def execSystemPlateLoad (image : List (BitVec 8)) (signed : Bool) (s : State) : Out :=
  .next (afterStage s 2 (fun s =>
    let s := stageDone s 3
    match checkPlate image true 0 with
    | .ok p => if signed then { s with sysplate := some p } else { s with pf := { s.pf with sysplateFailed := true } }
    | .error _ => { s with pf := { s.pf with sysplateFailed := true } }))

/-- A field of FEATDEV takes a value. -/
def setFeat (f : BitVec 128) (hi lo v : Nat) : BitVec 128 :=
  BitVec.ofNat 128 (f.toNat - field f.toNat hi lo * 2 ^ lo + v % 2 ^ (hi + 1 - lo) * 2 ^ lo)

/-- CLUSTER_SELF_TEST: NCLUS is the number of clusters that passed. -/
def execClusterSelfTest (passed : BitVec 20) (s : State) : Out :=
  .next (afterStage s 3 (fun s =>
    let n := countLanes (passed.setWidth 64)
    stageDone { s with pf := { s.pf with featDev := setFeat s.pf.featDev 71 64 n } } 4))

/-- EXTUM_LINK_TRAINING: XLINK names the links that are up. -/
def execExtumLinkTraining (up : BitVec 12) (s : State) : Out :=
  .next (afterStage s 4 (fun s => stageDone { s with pf := { s.pf with featDev := setFeat s.pf.featDev 63 52 up.toNat } } 5))

/-- READY: FEATDEV is written, partition 0 holds every cluster, and PF vector 3 is raised. The device offers FUSE, IDE, TDISP
and ATS (log 47). -/
def execReady (s : State) : Out :=
  .next (afterStage s 5 (fun s =>
    let (minor, patch) := match s.sysplate with
      | some p => (p.sysmin, p.syspat)
      | none => (0, 0)
    let f := setFeat (setFeat (setFeat (setFeat s.pf.featDev 44 41 15) 40 40 (if s.sysplate.isSome then 1 else 0)) 39 24 patch) 23 8 minor
    let f := setFeat (setFeat f 7 1 4) 0 0 1
    let s := { s with pf := { s.pf with featDev := f, featDrv := f &&& featRo, ready := true }
                      parts := [(0, { Part.none with clusters := BitVec.allOnes 20 })] }
    raiseVector (stageDone s 6) 0 3))

end Sys2Proof.Machine
end

