-- ==== Sys2Proof/Machine/DrayData.lean ====
section
/-! DEFINITION. The data operations of drays: XFER, GATHER, SCATTER and FILL (07 R274-R280), and their units (07 R271, R276-R279,
R290). -/
namespace Sys2Proof.Machine

/-! ### Conversion codes (R275) -/

/-- Bytes in and out of one unit. -/
def cvtSize (c : Nat) : Nat × Nat :=
  match c with
  | 0x00 => (1, 1)
  | 0x01 | 0x02 => (4, 2)
  | 0x03 | 0x04 => (2, 4)
  | 0x05 | 0x06 => (2, 2)
  | 0x07 | 0x08 => (1, 4)
  | 0x09 | 0x0A => (2, 4)
  | 0x0B => (4, 1)
  | 0x0C => (4, 2)
  | 0x0D | 0x0E => (4, 4)
  | 0x0F => (1, 4)
  | 0x10 => (4, 1)
  | 0x11 => (1, 8)
  | 0x12 => (8, 1)
  | 0x13 => (64, 256)
  | 0x14 | 0x15 => (64, 128)
  | 0x16 => (64, 512)
  | 0x17 | 0x18 => (64, 256)
  | 0x19 => (256, 64)
  | 0x1A | 0x1B => (128, 64)
  | 0x1C => (512, 64)
  | _ => (256, 64)

/-- The described codes; those that unpack; and those of NF4 lines. -/
def cvtDescribed (c : Nat) : Bool := decide (0x13 ≤ c)
def cvtUnpacks (c : Nat) : Bool := decide (0x13 ≤ c ∧ c ≤ 0x18)
def cvtNf4 (c : Nat) : Bool := decide (0x16 ≤ c ∧ c ≤ 0x18) || decide (0x1C ≤ c)
/-- Codes that name a format register. -/
def cvtNamesFmt (c : Nat) : Bool := decide (0x0F ≤ c ∧ c ≤ 0x12) || decide (0x19 ≤ c)
/-- The IEEE type of a described code. -/
def cvtType (c : Nat) : Nat := match (c - 0x13) % 3 with
  | 0 => 8
  | 1 => 12
  | _ => 11

/-- Source and destination types of the integer and IEEE codes. -/
def cvtTypes (c : Nat) : Nat × Nat :=
  match c with
  | 0x01 => (8, 12)
  | 0x02 => (8, 11)
  | 0x03 => (12, 8)
  | 0x04 => (11, 8)
  | 0x05 => (11, 12)
  | 0x06 => (12, 11)
  | 0x07 => (6, 0)
  | 0x08 => (7, 1)
  | 0x09 => (4, 0)
  | 0x0A => (5, 1)
  | 0x0B => (0, 6)
  | 0x0C => (0, 4)
  | 0x0D => (0, 8)
  | _ => (8, 0)

/-- One unit of a plain code (R276): the output bytes and flags, or the fault code. -/
def cvtPlain (c rm : Nat) (f : NfFmt) (bs : List Byte) : Except Nat (List Byte × Flags) :=
  let v := leNat bs
  let dec (x : Nat) : Nat × Flags := fmtF32.round 0 false (nfValue f x)
  let enc (x : Nat) : Nat × Flags := nfConvert f rm (fmtF32.value x)
  match c with
  | 0x00 => .ok (bs, 0)
  | 0x0F =>
    if f.cont = 0 then .ok (leBytes 4 (dec v).1, (dec v).2) else .ok (leBytes 4 fmtF32.nanCode, flagIV)
  | 0x10 => if f.cont = 0 then .ok (leBytes 1 (enc v).1, (enc v).2) else .error fcFormat
  | 0x11 =>
    if f.cont = 1 then
      .ok (leBytes 4 (dec (v % 16)).1 ++ leBytes 4 (dec (v / 16)).1, (dec (v % 16)).2 ||| (dec (v / 16)).2)
    else .ok (leBytes 4 fmtF32.nanCode ++ leBytes 4 fmtF32.nanCode, flagIV)
  | 0x12 =>
    if f.cont = 1 then
      let a := enc (v % 2 ^ 32)
      let b := enc (v / 2 ^ 32)
      .ok (leBytes 1 (a.1 % 16 + 16 * (b.1 % 16)), a.2 ||| b.2)
    else .error fcFormat
  | _ =>
    let (st, dt) := cvtTypes c
    let (r, fl) := convert st dt rm false (BitVec.ofNat 64 v)
    .ok (leBytes (cvtSize c).2 r.toNat, fl)

/-- The elements of a described line in an IEEE type (R277). -/
def cvtUnpack (fmts : List Word) (c rm d : Nat) (line : List Byte) : List Byte × Flags :=
  let nf4 := cvtNf4 c
  let ty := cvtType c
  let val (i : Nat) : Nat × Flags := (tyFmt ty).round rm false (describedValue fmts nf4 line i d)
  let n := if nf4 then 128 else 64
  ((List.range n).flatMap (fun i => leBytes (tyBits ty / 8) (val i).1),
   (List.range n).foldl (fun a i => a ||| (val i).2) (flagIf (lineMalformed fmts nf4 d) flagIV))

/-- A described line from IEEE elements (05 R178): line, descriptor and flags. A line of NaNs takes SCALE 0xFF (03 R89). -/
def cvtPack (f : NfFmt) (c rm fidx : Nat) (scale : Option Nat) (bs : List Byte) : List Byte × Nat × Flags :=
  let ty := cvtType c
  let vs := (chunks (tyBits ty / 8) 128 bs).map (fun b => (tyFmt ty).value (leNat b))
  let auto := stdScale f true vs
  let sc := if auto = 255 then 255 else scale.getD auto
  let conv (x : Num) : Nat × Flags :=
    let (code, fl) := nfConvert f rm (scaleNum x (127 - (sc : Int)))
    (if sc = 255 then 0 else code, fl)
  (lineBytes (cvtNf4 c) (vs.map (fun x => (conv x).1)), sc * 256 + fidx, (vs.map (fun x => (conv x).2)).foldl (· ||| ·) 0)

/-! ### Checks at the start (R274, R277-R280) -/

/-- Lines of `n` bytes from stream position `j` each lie within one run and start 64-aligned. -/
def linesAligned (g : Gen) : Nat → Nat → Bool
  | 0, _ => true
  | n + 1, j => decide (j % g.len0 + 64 ≤ g.len0) && g.logical j % 64 == 0 && linesAligned g n (j + 64)

/-- The described side of `n` bytes from a generator's position; what lies past its end is met as exhaustion. -/
def describedOk (g : Gen) (n : Nat) : Bool :=
  let m := if g.length - g.pos < n then g.length - g.pos else n
  (g.base % 64 == 0 && g.len0 % 64 == 0 && g.pos % 64 == 0 && g.strides.all (fun st => st % 64 == 0)) || linesAligned g (m / 64) g.pos

/-- Runs of a sealed transfer cover whole blocks, from their starts (R278). -/
def blocksCovered (g : Gen) (base : Nat) : Nat → Nat → Nat → Bool
  | 0, _, n => n == 0
  | fuel + 1, j, n =>
    if n = 0 then true
    else
      let l := if g.len0 - j % g.len0 < n then g.len0 - j % g.len0 else n
      let a := g.logical j
      l % 4096 == 0 && a % 4096 == 0 && decide (base ≤ a) && blocksCovered g base fuel (j + l) (n - l)

def sealedOk (g : Gen) (base n : Nat) : Bool :=
  let m := if g.length - g.pos < n then g.length - g.pos else n
  blocksCovered g base (m / 4096 + 1) g.pos m

/-- An option's value. -/
def optVal (d : Dray) (n : Nat) : Nat := (tgetD 0 d.opts n).toNat
def optSet (d : Dray) (n : Nat) : Bool := (tget d.opts n).isSome

/-- The content key that UNSEAL uses, if the context's world may use it (12 R439). -/
def contentKey (s : State) (d : Dray) : Option (List Nat) :=
  match tget s.keys (optVal d 3) with
  | some k =>
    if k.kind = 2 ∧ k.state = 2 ∧ some k.world = (tget s.ctxs (drayCtx d)).map Ctx.world then
      some ((leBytes 32 k.key).map BitVec.toNat)
    else none
  | none => none

/-! ### Units (R271) -/

/-- The next `n` bytes of a generator exist, or the generator is exhausted. -/
def takeStream (s : State) (dk g n : Nat) : DGot Gen :=
  match genOf (drayOf s dk) g with
  | none => .fault fcGdesc s
  | some x => if x.length < x.pos + n then .fault fcGexh s else .ok x s

/-- Read `n` stream bytes of a generator from position `j`. -/
def readStream (s : State) (dk : Nat) (g : Gen) (j n : Nat) : DGot (List Byte) :=
  drayReadAll dk g.space (g.pieces n j n) [] s

/-- Check the writing of `n` stream bytes: the places and their lengths. -/
def targetStream (s : State) (dk : Nat) (g : Gen) (j n : Nat) : DGot (List (DPut × Nat)) :=
  let ps := g.pieces n j n
  (drayTargets dk g.space ps [] s).bind (fun ts s => .ok (ts.zip (ps.map (fun p => p.2))) s)

/-- Physical ranges that a list of writes covers. -/
def putRanges (ts : List (DPut × Nat)) : List (Nat × Nat) :=
  ts.filterMap (fun t => match t.1 with
    | .mem pa _ _ => some (pa, t.2)
    | .pad _ => none)

/-- The address of the descriptor of the line at a logical address (03 R86). -/
def descAddr (d : Dray) (la : Nat) : Nat := (optVal d 1 + (la - optVal d 0) / 64 * 2) % 2 ^ 64

/-- What a unit writes: output bytes with their places, flags, and how far each generator and REM move. -/
structure DUnit where
  puts : List (DPut × Nat)
  bytes : List Byte
  flags : Flags
  moves : List (Nat × Nat)
  count : Nat

/-- Take a unit's effect. -/
def applyUnit (s : State) (dk : Nat) (u : DUnit) : State :=
  let s := drayWriteAll dk u.puts u.bytes s
  let d := u.moves.foldl (fun d m => genAdvance d m.1 m.2) (drayOf s dk)
  setDray s dk { d with rem := d.rem - u.count, bits := d.bits ||| u.flags.setWidth 20 }

/-- A unit of a plain or packing code, from its input bytes. -/
def convertUnit (s : State) (dk dn sn rm fidx cv : Nat) (bs : List Byte) : DGot DUnit :=
  let d := drayOf s dk
  let (inb, outb) := cvtSize cv
  let f := nfOf (fmtReg s (drayCtx d) fidx)
  (takeStream s dk dn outb).bind (fun gd s =>
    if cvtDescribed cv then
      if (f.cont == 1) != cvtNf4 cv then .fault fcFormat s
      else
        let la := gd.logical gd.pos
        if la < optVal d 0 then .fault fcBounds s
        else
          let (line, desc, fl) := cvtPack f cv rm fidx (if optSet d 2 then some (optVal d 2) else none) bs
          (targetStream s dk gd gd.pos outb).bind (fun ts s =>
            (drayTarget s dk gd.space (descAddr d la) 2 (putLines (ts.map (fun x => x.1)))).bind (fun t s =>
              .ok { puts := ts ++ [(t, 2)], bytes := line ++ leBytes 2 desc, flags := fl, moves := [(sn, inb), (dn, outb)]
                    count := inb } s))
    else
      match cvtPlain cv rm f bs with
      | .error code => .fault code s
      | .ok (out, fl) =>
        (targetStream s dk gd gd.pos outb).bind (fun ts s =>
          .ok { puts := ts, bytes := out, flags := fl, moves := [(sn, inb), (dn, outb)], count := inb } s))

/-- A unit of an unpacking code: `data` gives the line's bytes when they are read (03 R511). -/
def unpackUnit (s : State) (dk dn sn rm cv : Nat) (gs : Gen) (data : Bool → State → DGot (List Byte)) : DGot DUnit :=
  let d := drayOf s dk
  let (inb, outb) := cvtSize cv
  let fmts := (List.range 16).map (fmtReg s (drayCtx d))
  let la := gs.logical gs.pos
  if la < optVal d 0 then .fault fcBounds s
  else
    (drayRead s dk gs.space (descAddr d la) 2).bind (fun db s =>
      let desc := leNat db
      (data (lineReadsData fmts (cvtNf4 cv) desc) s).bind (fun line s =>
        let (out, fl) := cvtUnpack fmts cv rm desc line
        (takeStream s dk dn outb).bind (fun gd s =>
          (targetStream s dk gd gd.pos outb).bind (fun ts s =>
            .ok { puts := ts, bytes := out, flags := fl, moves := [(sn, inb), (dn, outb)], count := inb } s))))

/-- The line's address is checked though its bytes are not read (03 R511). -/
def checkLine (s : State) (dk : Nat) (g : Gen) : DGot (List Byte) :=
  let a := g.addr g.pos
  if g.space = 0 then (drayXlate s dk a .read).bind (fun _ s => .ok [] s)
  else if drayWindow s (drayOf s dk) < a + 64 then .fault fcBounds s
  else .ok [] s

/-- A unit of XFER; `plain` holds the decrypted bytes that lie at the source's position. -/
def xferUnit (s : State) (dk dn sn rm fidx cv : Nat) (plain : Option (List Byte)) : DGot DUnit :=
  let inb := (cvtSize cv).1
  (takeStream s dk sn inb).bind (fun gs s =>
    if cvtUnpacks cv then
      unpackUnit s dk dn sn rm cv gs (fun needed s =>
        match plain with
        | some bs => .ok (bs.take inb) s
        | none => if needed then readStream s dk gs gs.pos inb else checkLine s dk gs)
    else
      let src : DGot (List Byte) := match plain with
        | some bs => .ok (bs.take inb) s
        | none => readStream s dk gs gs.pos inb
      src.bind (fun bs s => convertUnit s dk dn sn rm fidx cv bs))

/-- The next index of a row operation, and the generators' moves for it. -/
def nextIndex (s : State) (dk x : Nat) : DGot Nat :=
  (takeStream s dk x 4).bind (fun gx s => (readStream s dk gx gx.pos 4).bind (fun bs s => .ok (leNat bs) s))

/-- A row of GATHER. -/
def gatherUnit (s : State) (dk dn xn tn : Nat) : DGot DUnit :=
  match genOf (drayOf s dk) tn with
  | none => .fault fcGdesc s
  | some gt =>
    (nextIndex s dk xn).bind (fun x s =>
      let row : DGot (List Byte) :=
        if x = 0xFFFFFFFF then .ok (List.replicate gt.len0 0) s
        else if (gt.counts.head?).getD 0 ≤ x then .fault fcBounds s
        else readStream s dk gt (x * gt.len0) gt.len0
      row.bind (fun bs s =>
        (takeStream s dk dn gt.len0).bind (fun gd s =>
          (targetStream s dk gd gd.pos gt.len0).bind (fun ts s =>
            .ok { puts := ts, bytes := bs, flags := 0, moves := [(xn, 4), (dn, gt.len0)], count := 1 } s))))

/-- A row of SCATTER. -/
def scatterUnit (s : State) (dk tn xn sn : Nat) : DGot DUnit :=
  match genOf (drayOf s dk) tn with
  | none => .fault fcGdesc s
  | some gt =>
    (nextIndex s dk xn).bind (fun x s =>
      (takeStream s dk sn gt.len0).bind (fun gs s =>
        let moves := [(xn, 4), (sn, gt.len0)]
        if x = 0xFFFFFFFF then .ok { puts := [], bytes := [], flags := 0, moves := moves, count := 1 } s
        else if (gt.counts.head?).getD 0 ≤ x then .fault fcBounds s
        else
          (readStream s dk gs gs.pos gt.len0).bind (fun bs s =>
            (targetStream s dk gt (x * gt.len0) gt.len0).bind (fun ts s =>
              .ok { puts := ts, bytes := bs, flags := 0, moves := moves, count := 1 } s))))

/-- A pattern of FILL. -/
def fillUnit (s : State) (dk dn p : Nat) (pattern : Dword) : DGot DUnit :=
  let n := 2 ^ p
  (takeStream s dk dn n).bind (fun gd s =>
    (targetStream s dk gd gd.pos n).bind (fun ts s =>
      .ok { puts := ts, bytes := leBytes n pattern.toNat, flags := 0, moves := [(dn, n)], count := n } s))

/-- A generator stands at the edge of an aligned 8-byte word, of a run, or of its stream. -/
def wordEdge (d : Dray) (g : Nat) : Bool :=
  match genOf d g with
  | none => true
  | some x => x.pos % x.len0 == 0 || decide (x.length ≤ x.pos) || x.addr x.pos % 8 == 0

/-- Move units: at least `k`, and on until the generators `gs` stand at the edges of words, since an aligned 8-byte word is
read and written whole (R281, 09 R346); `fuel` is what remains of the operation. Lines that they cover whole lose their
poison (12 R467). -/
def moveUnits (dk : Nat) (gs : List Nat) (unit : State → List Byte → DGot (DUnit × List Byte)) :
    Nat → Nat → List Byte → List (Nat × Nat) → State → State
  | 0, _, p, ws, s => stop s p ws
  | fuel + 1, k, p, ws, s =>
    if (drayOf s dk).rem = 0 ∨ (k = 0 ∧ gs.all (wordEdge (drayOf s dk)) = true) then stop s p ws
    else match unit s p with
      | .ok (u, rest) s => moveUnits dk gs unit fuel (k - 1) rest (ws ++ putRanges u.puts) (applyUnit s dk u)
      | .fault c s => drayFault (clearCovered s none ws) dk c
      | .park va e a s => drayPark (stop s p ws) dk va e a
      | .error c i s => drayBad (clearCovered s none ws) dk c i
where
  stop (s : State) (p : List Byte) (ws : List (Nat × Nat)) : State :=
    let s := clearCovered s none ws
    if (drayOf s dk).ahead = p then s else setDray s dk { drayOf s dk with ahead := p }

/-- Units of the operation: at least `n`. -/
def movePlain (s : State) (dk : Nat) (gs : List Nat) (n : Nat) (unit : State → DGot DUnit) : State :=
  moveUnits dk gs (fun s _ => (unit s).bind (fun u s => .ok (u, []) s)) (drayOf s dk).rem n [] [] s

/-- The plaintext of the sealed block at a source position, from that position on (R278). -/
def openBlock (s : State) (dk sn : Nat) : DGot (List Byte) :=
  let d := drayOf s dk
  match genOf d sn, contentKey s d with
  | some gs, some key =>
    if gs.length ≤ gs.pos then .fault fcGexh s
    else
      let base := optVal d 4
      let a := gs.logical gs.pos
      let k := (a - base) / 4096
      let start := base + 4096 * k
      let lines (a n : Nat) : List (Nat × Nat) := (List.range (n / 64)).map (fun i => (a + 64 * i, 64))
      if a < base then .fault fcAlign s
      else
        (drayReadAll dk 0 (lines start 4096) [] s).bind (fun cipher s =>
          (drayRead s dk 0 (optVal d 6 + 16 * k) 16).bind (fun tag s =>
            let iv := (leBytes 8 (optVal d 5) ++ leBytes 4 k).map BitVec.toNat
            match gcmOpen key iv [] (toNats cipher) (toNats tag) with
            | none => .fault fcTag s
            | some p => .ok ((toBytes p).drop (a - start)) s))
  | none, _ => .fault fcGdesc s
  | _, none => .fault fcKey s

/-- The data operation is over when nothing remains: what waited for it can issue. -/
def endData (s : State) (dk : Nat) : State :=
  let d := drayOf s dk
  if d.rem = 0 ∧ d.data.isSome = true then setDray s dk { d with data := none, dataAt := (0, []), ahead := [], drain := false } else s

/-- The block that the source has begun, else the next one, opened with the key that its slot then holds (12 R439). -/
def blockAhead (s : State) (dk sn : Nat) : DGot (List Byte) :=
  if (drayOf s dk).ahead.isEmpty then openBlock s dk sn else .ok (drayOf s dk).ahead s

/-- The next units of the data operation in progress: those of 64 source bytes, a described line, a sealed block, or a row, and
as many more as R346 asks for. -/
def dataUnit (s : State) (dk : Nat) : State :=
  let d := drayOf s dk
  if d.parked.isSome ∨ d.done = true ∨ drayHeld s d = true then s
  else match d.data with
    | none => s
    | some (.xfer dn sn rm fidx false cv) =>
      let inb := (cvtSize cv).1
      endData (movePlain s dk [dn, sn] (if inb < 64 then 64 / inb else 1)
        (fun s => xferUnit s dk dn sn rm fidx cv none)) dk
    | some (.xfer dn sn rm fidx true cv) =>
      let inb := (cvtSize cv).1
      drayEnd dk (blockAhead s dk sn) (fun plain s =>
        endData (moveUnits dk [] (fun s p =>
          (xferUnit s dk dn sn rm fidx cv (some p)).bind (fun u s => .ok (u, p.drop inb) s))
          (plain.length / inb) (plain.length / inb) plain [] s) dk)
    | some (.gather dn xn tn) => endData (movePlain s dk [dn, xn] 1 (fun s => gatherUnit s dk dn xn tn)) dk
    | some (.scatter tn xn sn) => endData (movePlain s dk [sn, xn] 1 (fun s => scatterUnit s dk tn xn sn)) dk
    | some (.fill dn pat p) =>
      endData (movePlain s dk [dn] (64 / 2 ^ p) (fun s => fillUnit s dk dn p pat)) dk

/-- DRAY_DATA_UNIT. -/
def execDrayDataUnit (dray : Nat) (s : State) : Out := .next (clearRevoked (dataUnit s dray))

/-! ### Instructions behind a data operation (R281, R297) -/

/-- An instruction that accesses memory, a generator, an option or another agent: the data operation in progress comes before
it, in program order, and the instruction waits for its end (R281). -/
def drayIdleOp (s : State) (f : State → Nat → Dray → State) : State :=
  drayOp s (fun dk d => if d.data.isSome then drayDrains s dk else f s dk d)

/-- A failed check: the context faults at the instruction, when the data operation before it has ended (R290). -/
def drayFail (s : State) (dk code : Nat) : State :=
  if (drayOf s dk).data.isSome then drayDrains s dk else drayFault s dk code

/-! ### The instructions (R274, R277-R280) -/

/-- A data operation is accepted: it will move units from here. -/
def startData (s : State) (dk n : Nat) (op : DataOp) : State :=
  let d := drayOf s dk
  if n = 0 then setDray s dk d.next
  else setDray s dk { d.next with data := some op, rem := n, dataAt := (d.pc, d.regs) }

/-- XFER. -/
def execDrayXfer (d sr : BitVec 2) (n : BitVec 4) (m : BitVec 3) (f : BitVec 4) (u : BitVec 1) (c : BitVec 6) (s : State) : Out :=
  .next (drayIdleOp s (fun s dk x =>
    let cv := c.toNat
    let cnt := (dget x n).toNat
    let sealed := u == 1
    if d = sr ∨ 4 < m.toNat ∨ 0x1E < cv ∨ (cvtNamesFmt cv = false ∧ f ≠ 0) then drayFail s dk fcIllegal
    else match genOf x d.toNat, genOf x sr.toNat with
      | some gd, some gs =>
        let (inb, outb) := cvtSize cv
        if sealed && gs.space != 0 then drayFail s dk fcGdesc
        else if (cvtDescribed cv && !(optSet x 0 && optSet x 1))
            || (sealed && !(optSet x 3 && optSet x 4 && optSet x 5 && optSet x 6)) then drayFail s dk fcOptmiss
        else if cnt % inb ≠ 0 ∨ (cvtUnpacks cv && !describedOk gs cnt) = true
            ∨ (cvtDescribed cv && !cvtUnpacks cv && !describedOk gd (cnt / inb * outb)) = true
            ∨ (sealed && !sealedOk gs (optVal x 4) cnt) = true then drayFail s dk fcAlign
        else if sealed && cnt != 0 && (contentKey s x).isNone then drayFail s dk fcKey
        else startData s dk cnt (.xfer d.toNat sr.toNat m.toNat f.toNat sealed cv)
      | _, _ => drayFail s dk fcGdesc))

/-- A table generator has two dimensions. -/
def tableOk (g : Gen) : Bool := g.dims == 2

/-- The common checks of GATHER and SCATTER. -/
def startRows (t x o : Nat) (n : BitVec 4) (op : DataOp) (s : State) : State :=
  drayIdleOp s (fun s dk d =>
    if t = x ∨ t = o ∨ x = o then drayFail s dk fcIllegal
    else match genOf d t, genOf d x, genOf d o with
      | some gt, some _, some _ =>
        if !tableOk gt then drayFail s dk fcGdesc else startData s dk (dget d n).toNat op
      | _, _, _ => drayFail s dk fcGdesc)

/-- GATHER and SCATTER. -/
def execDrayGather (d x : BitVec 2) (n : BitVec 4) (t : BitVec 2) (s : State) : Out :=
  .next (startRows t.toNat x.toNat d.toNat n (.gather d.toNat x.toNat t.toNat) s)
def execDrayScatter (t x : BitVec 2) (n : BitVec 4) (sr : BitVec 2) (s : State) : Out :=
  .next (startRows t.toNat x.toNat sr.toNat n (.scatter t.toNat x.toNat sr.toNat) s)

/-- FILL. -/
def execDrayFill (d : BitVec 2) (v n : BitVec 4) (p : BitVec 2) (s : State) : Out :=
  .next (drayIdleOp s (fun s dk x =>
    if (genOf x d.toNat).isNone then drayFail s dk fcGdesc
    else if (dget x n).toNat % 2 ^ p.toNat ≠ 0 then drayFail s dk fcAlign
    else startData s dk (dget x n).toNat (.fill d.toNat (dget x v) p.toNat)))

end Sys2Proof.Machine
end

