-- ==== Sys2Proof/Machine/Dray.lean ====
section
/-! DEFINITION. The launch of a dray context and the dray instructions (07 R251-R289), for the dray context that the step
has selected. -/
namespace Sys2Proof.Machine

/-! ### The launch (05 R198, 07 R251, R259, R260) -/

/-- The coach with this index of a rake has exited. -/
def slotExited (s : State) (r : Rake) (i : Nat) : Bool :=
  match r.coaches.find? (fun k => (coachOf s k).idx == i) with
  | some k => (coachOf s k).lanes.all (fun x => x.state = .exited || x.state = .absent)
  | none => true

/-- Launch k is formed: every coach has issued its k-th CPY or exited, and some coach has issued it. -/
def launchFormed (s : State) (r : Rake) (n : Nat) (la : Launch) : Bool :=
  r.created && !la.slices.isEmpty
  && (List.range n).all (fun i => (tget la.slices i).isSome || slotExited s r i)

/-- A dray context is free for a launch. -/
def drayFree (s : State) (dk : Nat) : Bool := let d := drayOf s dk; d.state == 0 || d.done

/-- The context that a launch takes: the lowest free one of the dray, or of the lowest dray that has one. -/
def chooseDray (s : State) (cl dray : Nat) (any : Bool) : Option Nat :=
  let ctxs (x : Nat) : List Nat := (List.range 8).map (fun c => drayKey (cl / 10) (cl % 10) x c)
  (if any then (List.range 4).flatMap ctxs else ctxs dray).find? (drayFree s)

/-- A context at the start of a launch (R260). -/
def startDray (old : Dray) (pc : Dword) (rake launch ctx zone nslice start : Nat) (slices : List Word) : Dray :=
  let t0 : Dword := BitVec.ofNat 64 ((old.timeline.toNat / 2 ^ 32 + 1) * 2 ^ 32)
  { Dray.none with pc := pc.extractLsb' 0 57, state := 1, timeline := t0, t0 := t0, nslice := nslice, gen := old.gen + 1
                   slices := slices, rake := rake, launch := launch, ctx := some ctx, zone := zone, start := start }

/-- The counters that a launch's promises are converted by: the cluster's cores, and those that issued a CPY of it. -/
def startCounters (s : State) (r : Rake) (launch cl : Nat) : Tbl Nat :=
  let issued := r.coaches.flatMap (fun k => (coachOf s k).rbuf.filterMap (fun sl =>
    match sl.cpy with
    | some (j, core) => if j = launch then some core else none
    | none => none))
  ((List.range 8).map (fun i => cl * 8 + i) ++ issued).foldl (fun t core => tput t core (cycleOf s core)) []

/-- DRAY_CONTEXT_START: the start of a formed launch is an acquire. -/
def execDrayContextStart (rake launch : Nat) (s : State) : Out :=
  .next (match tget s.rakes rake with
    | none => s
    | some r =>
      match tget r.launches launch, tget s.regions r.region, r.cluster with
      | some la, some rg, some cl =>
        if la.started || la.finished || la.cancelled || !launchFormed s r rg.coaches la then s
        else
          match (tkeys la.slices).head? with
          | none => s
          | some lead =>
            let (code, dray, any) := tgetD (0, 0, false) la.codes lead
            match chooseDray s cl dray any with
            | none => s
            | some dk =>
              let zeros := List.replicate 8 (0 : Word)
              let slices := (List.range rg.coaches).flatMap (fun i => tgetD zeros la.slices i)
              let d := startDray (drayOf s dk) code rake launch rg.ctx (tgetD 0 la.zones lead) rg.coaches
                (cycleOf s (drayClock dk)) slices
              let la := { la with dray := some (dk, d.gen), started := true, start := startCounters s r launch cl }
              let s := modRake s rake (fun r => { r with launches := tput r.launches launch la })
              drayAcquire (setDray s dk d) dk 4
      | _, _, _ => s)

/-- PROMISE_TIMEOUT: 256 cycles have passed without a PROMISE (R199). -/
def execPromiseTimeout (dray : Nat) (s : State) : Out :=
  let d := drayOf s dray
  .next (match launchOf s (d.rake, d.launch) with
    | none => s
    | some la =>
      if la.promise.isSome || !la.started || d.done || la.dray != some (dray, d.gen) then s
      else deliverPromise (clockTo s (drayClock dray) (d.start + 256)) d.rake d.launch none)

/-- DRAY_LOAD_RESULT: an LDW value or a loaded generator arrives. -/
def execDrayLoadResult (dray : Nat) (s : State) : Out :=
  let d := drayOf s dray
  let d := match d.load with
    | some (r, v) => { dset d (BitVec.ofNat 4 r) v with load := none }
    | none => d
  let d := match d.loadGen with
    | some (n, g) => { d with gens := tput d.gens n g, loadGen := none }
    | none => d
  .next (if (drayOf s dray).load.isNone ∧ (drayOf s dray).loadGen.isNone then s else setDray s dray d)

/-- DRAY_ILLEGAL (R256). -/
def execDrayIllegal (_ : BitVec 32) (s : State) : Out := .next (drayOp s (fun dk _ => drayFail s dk fcIllegal))

/-! ### ARG, registers, immediates (R261-R263) -/

def execDrayArg (d a : BitVec 4) (i : BitVec 14) (s : State) : Out :=
  .next (drayOp s (fun dk x =>
    let o := (dget x a).toNat + i.toNat
    if o % 8 ≠ 0 then drayFail s dk fcAlign
    else if 32 * x.nslice < o + 8 then drayFail s dk fcArgc
    else drayDone s dk d (pairOf ((x.slices[o / 4]?).getD 0) ((x.slices[o / 4 + 1]?).getD 0))))

/-- An instruction on two registers. -/
def drayReg (d a b : BitVec 4) (f : Dword → Dword → Dword) (s : State) : State :=
  drayOp s (fun dk x => drayDone s dk d (f (dget x a) (dget x b)))

def execDrayAdd (d a b : BitVec 4) (s : State) : Out := .next (drayReg d a b (· + ·) s)
def execDraySub (d a b : BitVec 4) (s : State) : Out := .next (drayReg d a b (· - ·) s)
def execDrayMul (d a b : BitVec 4) (s : State) : Out := .next (drayReg d a b (· * ·) s)
def execDrayAnd (d a b : BitVec 4) (s : State) : Out := .next (drayReg d a b (· &&& ·) s)
def execDrayOr (d a b : BitVec 4) (s : State) : Out := .next (drayReg d a b (· ||| ·) s)
def execDrayXor (d a b : BitVec 4) (s : State) : Out := .next (drayReg d a b (· ^^^ ·) s)
def execDrayShl (d a b : BitVec 4) (s : State) : Out :=
  .next (drayReg d a b (fun x y => if 64 ≤ y.toNat then 0 else x <<< y.toNat) s)
def execDrayShr (d a b : BitVec 4) (s : State) : Out :=
  .next (drayReg d a b (fun x y => if 64 ≤ y.toNat then 0 else x >>> y.toNat) s)
def execDrayMin (d a b : BitVec 4) (s : State) : Out := .next (drayReg d a b (fun x y => if x.slt y then x else y) s)
def execDrayMax (d a b : BitVec 4) (s : State) : Out := .next (drayReg d a b (fun x y => if x.slt y then y else x) s)

def execDrayAddi (d a : BitVec 4) (i : BitVec 14) (s : State) : Out :=
  .next (drayOp s (fun dk x => drayDone s dk d (dget x a + i.signExtend 64)))
def execDrayLi (d : BitVec 4) (i : BitVec 14) (s : State) : Out :=
  .next (drayOp s (fun dk _ => drayDone s dk d (i.signExtend 64)))
def execDrayLui (d a : BitVec 4) (i : BitVec 14) (s : State) : Out :=
  .next (drayOp s (fun dk x => drayDone s dk d ((dget x a <<< 14) ||| i.setWidth 64)))

/-! ### LDW, STW (R264) -/

/-- The bytes of an access of a size code. -/
def drayBytes (z : BitVec 2) : Nat := if z = 1 then 8 else 4
/-- Its address. -/
def drayAddr (x : Dray) (a : BitVec 4) (o : BitVec 11) : Nat := ((dget x a).toNat + 4 * o.toNat) % 2 ^ 64

/-- Whether an address lies beyond its space (R264). -/
def drayBeyond (s : State) (x : Dray) (space a n : Nat) : Bool :=
  if space = 0 then decide (2 ^ 57 ≤ a) else decide (drayWindow s x < a + n)

def execDrayLdw (d a : BitVec 4) (z : BitVec 2) (p : BitVec 1) (o : BitVec 11) (s : State) : Out :=
  .next (drayIdleOp s (fun s dk x =>
    let n := drayBytes z
    let at_ := drayAddr x a o
    if z = 3 then drayFail s dk fcIllegal
    else if at_ % n ≠ 0 then drayFail s dk fcAlign
    else if drayBeyond s x p.toNat at_ n then drayFail s dk fcBounds
    else drayEnd dk (drayRead s dk p.toNat at_ n) (fun bs s =>
      let v := leNat bs
      let r : Dword := if z = 2 then BitVec.ofNat 64 (wrapNat 64 (sext 32 v)) else BitVec.ofNat 64 v
      setDray s dk { (drayOf s dk).next with load := some (d.toNat, r) })))

def execDrayStw (d a : BitVec 4) (z : BitVec 2) (p : BitVec 1) (o : BitVec 11) (s : State) : Out :=
  .next (drayIdleOp s (fun s dk x =>
    let n := drayBytes z
    let at_ := drayAddr x a o
    if z = 2 ∨ z = 3 then drayFail s dk fcIllegal
    else if at_ % n ≠ 0 then drayFail s dk fcAlign
    else if drayBeyond s x p.toNat at_ n then drayFail s dk fcBounds
    else drayEnd dk (drayTarget s dk p.toNat at_ n) (fun t s =>
      let s := drayWrite s dk t (leBytes n (dget x d).toNat)
      setDray s dk (drayOf s dk).next)))

/-! ### Control (R265-R268) -/

/-- The target of a branch (R258). -/
def drayTo (pc : GAddr) (i : BitVec 14) : GAddr := pc + 4 + i.signExtend 57 * 4

/-- A compare branch. -/
def drayBranch (a b : BitVec 4) (i : BitVec 14) (f : Dword → Dword → Bool) (s : State) : State :=
  drayOp s (fun dk x => setDray s dk (if f (dget x a) (dget x b) then { x with pc := drayTo x.pc i } else x.next))

def execDrayBeq (a b : BitVec 4) (i : BitVec 14) (s : State) : Out := .next (drayBranch a b i (· == ·) s)
def execDrayBne (a b : BitVec 4) (i : BitVec 14) (s : State) : Out := .next (drayBranch a b i (· != ·) s)
def execDrayBlt (a b : BitVec 4) (i : BitVec 14) (s : State) : Out := .next (drayBranch a b i (fun x y => x.slt y) s)
def execDrayBge (a b : BitVec 4) (i : BitVec 14) (s : State) : Out := .next (drayBranch a b i (fun x y => !x.slt y) s)

def execDrayLoop (a : BitVec 4) (i : BitVec 14) (s : State) : Out :=
  .next (drayOp s (fun dk x =>
    if a = 0 then drayFail s dk fcIllegal
    else
      let v := dget x a - 1
      let y := dset x a v
      setDray s dk (if v = 0 then y.next else { y with pc := drayTo x.pc i })))

def execDrayJmp (i : BitVec 14) (s : State) : Out :=
  .next (drayOp s (fun dk x => setDray s dk { x with pc := drayTo x.pc i }))

def execDrayJmpLink (l : BitVec 4) (i : BitVec 14) (s : State) : Out :=
  .next (drayOp s (fun dk x => setDray s dk { dset x l ((x.pc + 4).setWidth 64) with pc := drayTo x.pc i }))

def execDrayJmpIndirect (l a : BitVec 4) (s : State) : Out :=
  .next (drayOp s (fun dk x =>
    let t := dget x a
    if 2 ^ 57 ≤ t.toNat then drayFail s dk fcBounds
    else setDray s dk { dset x l ((x.pc + 4).setWidth 64) with pc := t.extractLsb' 0 57 }))

/-- Set a flag of the status word (R253). -/
def Dray.flag (d : Dray) (bit : Nat) (on : Bool) : Dray :=
  if on then { d with bits := d.bits ||| BitVec.ofNat 20 (2 ^ bit) } else d

/-- HALT (R268): LATEH when the held promise has passed. -/
def execDrayHalt (s : State) : Out :=
  .next (drayIdleOp s (fun s dk x =>
    let late := match x.promise with
      | some c => decide (c < drayCycles s dk)
      | none => false
    stopDray (setDray s dk (x.flag 19 late)) dk 4 0))

/-! ### Generators (R272, R273) -/

/-- GSET. -/
def execDrayGset (n : BitVec 2) (a : BitVec 4) (sp : BitVec 1) (o : BitVec 13) (s : State) : Out :=
  .next (drayIdleOp s (fun s dk x =>
    let at_ := ((dget x a).toNat + 64 * o.toNat) % 2 ^ 64
    if at_ % 64 ≠ 0 then drayFail s dk fcAlign
    else if drayBeyond s x sp.toNat at_ 64 then drayFail s dk fcBounds
    else drayEnd dk (drayRead s dk sp.toNat at_ 64) (fun bs s =>
      match genOfBytes bs with
      | some g => setDray s dk { (drayOf s dk).next with loadGen := some (n.toNat, g) }
      | none => drayFail s dk fcGdesc)))

/-- GADV. -/
def execDrayGadv (n : BitVec 2) (a : BitVec 4) (r : BitVec 1) (s : State) : Out :=
  .next (drayIdleOp s (fun s dk x =>
    if r = 1 ∧ a ≠ 0 then drayFail s dk fcIllegal
    else match genOf x n.toNat with
      | none => drayFail s dk fcGdesc
      | some g =>
        let p := if r = 1 then 0 else if g.pos + (dget x a).toNat < g.length then g.pos + (dget x a).toNat else g.length
        setDray s dk { x.next with gens := tput x.gens n.toNat { g with pos := p } }))

/-! ### Options (R282, R283) -/

/-- A value is within an option's limits. -/
def optOk (n : Nat) (v : Nat) : Bool :=
  match n with
  | 0 => v % 64 == 0 && decide (v < 2 ^ 57)
  | 1 => v % 2 == 0
  | 2 => decide (v ≤ 254)
  | 3 => decide (v ≤ 2047)
  | 4 => v % 4096 == 0 && decide (v < 2 ^ 57)
  | 6 => v % 16 == 0 && decide (v < 2 ^ 57)
  | _ => true

/-- OPT. -/
def execDrayOpt (a : BitVec 4) (c m : BitVec 1) (n : BitVec 8) (s : State) : Out :=
  .next (drayIdleOp s (fun s dk x =>
    let k := n.toNat
    let bit : BitVec 7 := BitVec.ofNat 7 (2 ^ k)
    if c = 1 ∧ a ≠ 0 then drayFail s dk fcIllegal
    else if 6 < k then
      (if m = 1 then drayFail s dk fcOptm else setDray s dk (x.next.flag 16 true))
    else if c = 1 then setDray s dk { x.next with opts := tdel x.opts k, optM := x.optM &&& ~~~bit }
    else if !optOk k (dget x a).toNat then drayFail s dk fcOptval
    else setDray s dk { x.next with opts := tput x.opts k (dget x a)
                                    optM := if m = 1 then x.optM ||| bit else x.optM &&& ~~~bit }))

/-- The option word. -/
def Dray.optWord (d : Dray) : Nat := ((List.range 7).map (fun i => if (tget d.opts i).isSome then 2 ^ i else 0)).foldl (· + ·) 0
  + d.optM.toNat * 2 ^ 16

/-! ### Barriers, timelines, fences (R284-R287) -/

/-- ARRIVE. -/
def execDrayArrive (a : BitVec 4) (c : BitVec 10) (k : BitVec 4) (s : State) : Out :=
  .next (drayIdleOp s (fun s dk x =>
    let n := (dget x a).toNat + c.toNat
    if 2 ^ 24 ≤ n then drayFail s dk fcIllegal
    else
      let b := barrierOf s x.rake k.toNat
      if n = 0 then setDray s dk x.next
      else if b.armed && !b.inv then
        (arrive (setDray s dk x.next) x.rake k.toNat n).2
      else setDray s dk (x.next.flag 17 true)))

/-- STG and AGT codes that an instruction of a dray accepts. -/
def drayScope (stg : BitVec 2) (agt : BitVec 3) : Bool := stg != 3 && decide (1 ≤ agt.toNat ∧ agt.toNat ≤ 5)

/-- SIGNAL. -/
def execDraySignal (a : BitVec 4) (sg : BitVec 2) (g : BitVec 3) (s : State) : Out :=
  .next (drayIdleOp s (fun s dk x =>
    let v := dget x a
    if !drayScope sg g ∨ 2 ^ 32 ≤ v.toNat then drayFail s dk fcIllegal
    else
      let s := if sg = 1 then s else drayRelease s dk g.toNat
      let t := x.t0 + v
      timelineMoved (setDray s dk { x.next with timeline := if x.timeline.ult t then t else x.timeline }) dk))

/-- TLW: while the value is not reached the context waits; it completes when it is. -/
def execDrayTlw (h n : BitVec 4) (sg : BitVec 2) (g : BitVec 3) (s : State) : Out :=
  .next (drayIdleOp s (fun s dk x =>
    let hd := loOf (dget x h)
    let v := dget x n
    if !drayScope sg g then drayFail s dk fcIllegal
    else match checkHandle s (drayCtx x) hd with
      | none => drayFail s dk fcHandle
      | some t =>
        if timelineMet s t hd v then
          let s := if sg = 1 then s else drayAcquire s dk g.toNat
          setDray s dk x.next
        else if t = dk then drayFail s dk fcHandle
        else setDray s dk { x with state := 3, tlw := some (hd, v, g.toNat, sg.toNat) }))

/-- DFENCE. -/
def execDrayDfence (sg : BitVec 2) (g o : BitVec 3) (s : State) : Out :=
  .next (drayIdleOp s (fun s dk x =>
    if !drayScope sg g ∨ o = 0 ∨ 4 < o.toNat then drayFail s dk fcIllegal
    else
      let s := if sg ≠ 1 ∧ 2 ≤ o.toNat then drayRelease s dk g.toNat else s
      let s := if sg ≠ 1 ∧ o ≠ 2 then drayAcquire s dk g.toNat else s
      setDray s dk x.next))

/-! ### PROMISE and STAT (R288, R289) -/

/-- PROMISE. -/
def execDrayPromise (a : BitVec 4) (i : BitVec 14) (s : State) : Out :=
  .next (drayOp s (fun dk x =>
    let sum := (dget x a).toNat + i.toNat
    let c := if sum < 2 ^ 32 then sum else 2 ^ 32 - 1
    let first := !x.promised && decide (drayCycles s dk < 256)
      && ((launchOf s (x.rake, x.launch)).map (fun la => la.promise.isNone)).getD false
    let s := setDray s dk { x.next.flag 18 x.promised with promise := some c, promised := true }
    if first then deliverPromise s x.rake x.launch (some c) else s))

/-- STAT. -/
def execDrayStat (d sel : BitVec 4) (s : State) : Out :=
  .next (drayOp s (fun dk x =>
    match sel.toNat with
    | 0 => drayDone s dk d x.timeline
    | 1 => drayDone s dk d (x.status.setWidth 64)
    | 2 => drayDone s dk d (BitVec.ofNat 64 x.rem)
    | 3 => drayDone s dk d ((drayHandle dk x.gen).setWidth 64)
    | 4 => drayDone s dk d (BitVec.ofNat 64 x.nslice)
    | 5 => drayDone s dk d (BitVec.ofNat 64 x.optWord)
    | 6 => drayDone s dk d (BitVec.ofNat 64 (drayCycles s dk))
    | 7 => drayDone s dk d x.t0
    | _ => drayFail s dk fcIllegal))

end Sys2Proof.Machine
end

