-- ==== Sys2Proof/Machine/Ticket.lean ====
section
/-! DEFINITION. The ticket unit of a deterministic region (10 R396-R398): TICKET_TURN is the visit of one coach in the walk
of R397. -/
namespace Sys2Proof.Machine

/-- What the application of a staged entry meets. -/
inductive Applied where
  /-- It is applied; `at_` is where a store wrote. -/
  | done (s : State) (at_ : List (Nat × Nat))
  /-- A push finds its queue and overflow area full: the remainder waits for the coach's next turn. -/
  | full (s : State)
  /-- An address does not translate: the rotation stops until the driver has answered (log 42). -/
  | fault (s : State)

/-- A fault of the ticket unit opens an entry in the coach's cluster; no lane waits on it. Where there is no room, the turn is
retried (11 R423). -/
def ticketFault (s : State) (k va : Nat) (e : XErr) (acc : Nat) : State :=
  let co := coachOf s k
  let core := coreOf co
  if !mergeRoom s co.ctx (va / 4096) (core / 80) (core / 8 % 10) then s
  else
  (joinFault s co.ctx (va / 4096) (core / 80) (core / 8 % 10) (regionNumber s co.region) co.version e
    (acc ||| (if e.walk then 32 else 0)) 0).2

/-- Translate for a staged entry of a coach, and act at the physical address. -/
def applyAt (s : State) (k va n : Nat) (a : Acc) (f : Nat → Dword → State → State) : Applied :=
  match coachXlate s (coachOf s k) va a with
  | (.ok pa leaf, s) => .done (f pa leaf s) (if n = 0 then [] else [(pa, n)])
  | (.fault e, s) => .fault (ticketFault s k va e (a.bits false false))
  | (.error pa page, s) => .done (xlatBad s k pa va page) []

/-- Apply one staged entry (R398): a release at device scope, then the effect. -/
def applyStaged (s : State) (k : Nat) (e : Staged) : Applied :=
  let co := coachOf s k
  let s := releaseGlobal s (l1Unit s (coreOf co)) co.ctx 4
  match e with
  | .store _ va size v => applyAt s k va size .write (fun pa leaf s => coachWrite s k pa (leBytes size v.toNat) leaf true false)
  | .bytes va data => applyAt s k va data.length .write (fun pa leaf s => coachWrite s k pa data leaf true false)
  | .atom va op ty agt b c =>
    applyAt s k va 0 .atomic (fun pa leaf s =>
      let n := tyBits ty / 8
      let (leaf, s) := atomWay s co op agt pa n leaf
      let (bs, s) := coachRead s k pa n leaf true false
      match poisonIn s pa n with
      | some line => memerr s k line
      | none =>
        let v := atomValue op ty (BitVec.ofNat 64 (leNat bs)) b c
        coachWrite s k pa (leBytes n v.toNat) leaf true false)
  | .push q e =>
    match boundQueue s co q with
    | none => .done s []
    | some (qi, _) =>
      match pushQueue s (coreUnits (coreOf co)) co.region qi e with
      | .done s => .done s []
      | .full => .full s
      | .xlat x va s => .fault (ticketFault s k va x 2)
  | .spawn block args => .done (spawnRegion s co.region block args) []

/-- How far the application of a list of entries came. -/
inductive AppliedAll where
  | all (s : State)
  | full (rest : List Staged) (s : State)
  | fault (rest : List Staged) (s : State)

/-- The operation of a staged store. -/
def Staged.op : Staged → Option Nat
  | .store op .. => some op
  | _ => none

/-- Apply entries in program order. `ws` is what the stores of the entry's operation have written: an operation that wrote
every byte of a line clears its poison, as at issue (12 R467). -/
def applyAll (k : Nat) : List (Nat × Nat) → List Staged → State → AppliedAll
  | ws, [], s => .all (clearCovered s none ws)
  | ws, e :: es, s =>
    match applyStaged s k e with
    | .done s w =>
      if e.op.isSome && ((es.head?).bind Staged.op) == e.op then applyAll k (ws ++ w) es s
      else applyAll k [] es (clearCovered s none (ws ++ w))
    | .full s => .full (e :: es) (clearCovered s none ws)
    | .fault s => .fault (e :: es) (clearCovered s none ws)

/-- The stage queues that the operation of a word pops. -/
def wordQueues (w : Dword) : List Nat :=
  let op := opOf w
  let o := NOp.ofWord w
  let store := op == 0x91 || op == 0x93 || op == 0x95
  let codes : List Nat :=
    match fKind o with
    | 0 => [fA o, fB o, fC o]
    | 1 => [fA o]
    | _ => []
  (codes ++ (if store then [fD o] else [])).filterMap (fun c => match codeOf c with
    | .q r => if r < 8 then some r else none
    | _ => none)

/-- The operation for which a coach waits its turn is a pop of an empty queue. -/
def popsEmpty (s : State) (k : Nat) : Bool :=
  let co := coachOf s k
  match co.stalls.find? (fun st => st.kind == .turn) with
  | none => false
  | some st =>
    match peekWord s co st.ga st.step with
    | none => false
    | some w => (wordQueues w).any (fun q => match boundQueue s co q with
        | some (_, x) => x.entries.isEmpty && x.ovIn == x.ovOut
        | none => false)

/-- What a visit of a coach comes to. -/
inductive Visit where
  | next (s : State)
  | wait (s : State)

/-- The coach keeps what is left of its first ended bundle. -/
def keepRest (s : State) (k : Nat) (rest : List Staged) : State :=
  modCoach s k (fun co => { co with remainder := rest, ended := modAt (fun (b : Bundle) => { b with entries := [] }) co.ended 0 })

/-- The turn of a coach in the round that is its bundle `n`: its ended bundles up to that one are applied in order; a
turn-served operation gets the turn, and the visit goes on when it has been performed. -/
def visitCoach (k n : Nat) : Nat → State → Visit
  | 0, s => .wait s
  | fuel + 1, s =>
    let co := coachOf s k
    match co.ended with
    | [] => if (tget s.coaches k).isNone || decide (n < co.bundle.num) || lanesOver co then .next s else .wait s
    | b :: rest =>
      if n < b.num then .next s
      else
        match applyAll k [] (co.remainder ++ b.entries) s with
        | .full es s => .next (keepRest s k es)
        | .fault es s => .wait (keepRest s k es)
        | .all s =>
          if !b.served then visitCoach k n fuel (modCoach s k (fun co => { co with remainder := [], ended := rest }))
          else if popsEmpty s k then .next (keepRest s k [])
          else
            let s := modCoach s k (fun co => { co with remainder := [], ended := rest, turnGranted := true })
            .wait (modRegion s co.region (fun r => { r with turnBusy := some k }))

/-- What the first 4 KiB of the determinism area hold: the round, the members, the position and the pending pop (10 R390). -/
def ticketVals (s : State) (rg : Nat) : List Nat :=
  match tget s.regions rg with
  | none => []
  | some r => [r.round, r.position.1, r.position.2, (r.turnBusy.elim 0 (· + 1)), r.members.length]
    ++ (r.members ++ r.joiners).flatMap (fun m => [m.1, m.2.1, m.2.2])

/-- The region's ticket state changes, and with it the first 4 KiB of the determinism area (10 R390, R398). -/
def turnMoves (s : State) (rg : Nat) (f : Region → Region) : State :=
  let s := modRegion s rg f
  detAreaWrite s rg 0 4096 (ticketVals s rg)

/-- A coach has exited, and its bundles have all been applied. -/
def coachLeft (co : Coach) : Bool := lanesOver co && co.ended.isEmpty && co.remainder.isEmpty

/-- A rake whose coaches have all exited leaves the rotation; its stage's next rake joins after this round. -/
def leaveRotation (s : State) (rg i : Nat) (m : Nat × Nat × Nat) : State :=
  match tget s.regions rg with
  | none => s
  | some r =>
    let idx := r.created
    let more := decide (r.created < r.rakes) && !r.completed
    let s := createRake s rg m.2.1 none
    turnMoves s rg (fun r =>
      { r with members := r.members.eraseIdx i, position := (i, 0)
               joiners := if more then r.joiners ++ [(idx, m.2.1, r.round + 1)] else r.joiners })

/-- The coach with an index in a rake, if it has not ended. -/
def coachAt (s : State) (r : Rake) (j : Nat) : Option Nat := r.coaches.find? (fun k => (coachOf s k).idx == j)

/-- The next coach index of a rake at or after `j`. -/
def nextIdx (s : State) (r : Rake) (j : Nat) : Option Nat :=
  leastBy id ((r.coaches.map (fun k => (coachOf s k).idx)).filter (fun i => decide (j ≤ i)))

/-- TICKET_TURN. -/
def execTicketTurn (region : Nat) (s : State) : Out :=
  .next (match tget s.regions region with
    | none => s
    | some r =>
      let busy := match r.turnBusy with
        | some k => (tget s.coaches k).isSome && (coachOf s k).turnGranted
        | none => false
      if !r.det || r.completed || busy || (r.members.isEmpty && r.joiners.isEmpty) then s
      else
        let s := modRegion s region (fun r => { r with turnBusy := none })
        let (i, j) := r.position
        match r.members[i]? with
        | none =>
          -- the round is over
          turnMoves s region (fun r => { r with members := r.members ++ r.joiners, joiners := [], position := (0, 0)
                                                round := r.round + 1 })
        | some m =>
          match tget s.rakes (rakeKey region m.1) with
          | none => leaveRotation s region i m
          | some rk =>
            if rk.created && rk.coaches.all (fun k => coachLeft (coachOf s k)) then leaveRotation s region i m
            else if !rk.created || rk.cluster.isNone || rk.halt.isSome then s
            else
              match (nextIdx s rk j).bind (fun x => (coachAt s rk x).map (fun k => (x, k))) with
              | none => turnMoves s region (fun r => { r with position := (i + 1, 0) })
              | some (x, k) =>
                if !isResident s k then s
                else
                  match visitCoach k (r.round - m.2.2 + 1) (((coachOf s k).ended.length) + 1) s with
                  | .wait s => s
                  | .next s => checkCoach (turnMoves s region (fun r => { r with position := (i, x + 1) })) k)

end Sys2Proof.Machine
end

