-- ==== Sys2Proof/Machine/Dispatch.lean ====
section
/-! DEFINITION. The dispatch: one arm per instruction, each one call of its meaning. -/
namespace Sys2Proof.Machine

def exec (i : Instr) (s : State) : Host.Outcome State Fault Refusal :=
  match i with
  | .nop w => Sys2Proof.Machine.execNop w s
  | .bra w => Sys2Proof.Machine.execBra w s
  | .brx w => Sys2Proof.Machine.execBrx w s
  | .call w => Sys2Proof.Machine.execCall w s
  | .callx w => Sys2Proof.Machine.execCallx w s
  | .ret w => Sys2Proof.Machine.execRet w s
  | .join w => Sys2Proof.Machine.execJoin w s
  | .exit w => Sys2Proof.Machine.execExit w s
  | .sleep w => Sys2Proof.Machine.execSleep w s
  | .sleepBar w => Sys2Proof.Machine.execSleepBar w s
  | .yield w => Sys2Proof.Machine.execYield w s
  | .iadd w => Sys2Proof.Machine.execIadd w s
  | .isub w => Sys2Proof.Machine.execIsub w s
  | .imul w => Sys2Proof.Machine.execImul w s
  | .imulh w => Sys2Proof.Machine.execImulh w s
  | .imad w => Sys2Proof.Machine.execImad w s
  | .iaddc w => Sys2Proof.Machine.execIaddc w s
  | .imin w => Sys2Proof.Machine.execImin w s
  | .imax w => Sys2Proof.Machine.execImax w s
  | .iabs w => Sys2Proof.Machine.execIabs w s
  | .icmp w => Sys2Proof.Machine.execIcmp w s
  | .sel w => Sys2Proof.Machine.execSel w s
  | .and w => Sys2Proof.Machine.execAnd w s
  | .or w => Sys2Proof.Machine.execOr w s
  | .xor w => Sys2Proof.Machine.execXor w s
  | .andn w => Sys2Proof.Machine.execAndn w s
  | .shl w => Sys2Proof.Machine.execShl w s
  | .shr w => Sys2Proof.Machine.execShr w s
  | .sar w => Sys2Proof.Machine.execSar w s
  | .rotl w => Sys2Proof.Machine.execRotl w s
  | .bfe w => Sys2Proof.Machine.execBfe w s
  | .bfi w => Sys2Proof.Machine.execBfi w s
  | .popc w => Sys2Proof.Machine.execPopc w s
  | .clz w => Sys2Proof.Machine.execClz w s
  | .ctz w => Sys2Proof.Machine.execCtz w s
  | .lea w => Sys2Proof.Machine.execLea w s
  | .mov w => Sys2Proof.Machine.execMov w s
  | .movi w => Sys2Proof.Machine.execMovi w s
  | .movhi w => Sys2Proof.Machine.execMovhi w s
  | .iadd64 w => Sys2Proof.Machine.execIadd64 w s
  | .imad64 w => Sys2Proof.Machine.execImad64 w s
  | .idp4 w => Sys2Proof.Machine.execIdp4 w s
  | .fadd w => Sys2Proof.Machine.execFadd w s
  | .fsub w => Sys2Proof.Machine.execFsub w s
  | .fmul w => Sys2Proof.Machine.execFmul w s
  | .ffma w => Sys2Proof.Machine.execFfma w s
  | .fmin w => Sys2Proof.Machine.execFmin w s
  | .fmax w => Sys2Proof.Machine.execFmax w s
  | .fcmp w => Sys2Proof.Machine.execFcmp w s
  | .frnd w => Sys2Proof.Machine.execFrnd w s
  | .frcp w => Sys2Proof.Machine.execFrcp w s
  | .frsq w => Sys2Proof.Machine.execFrsq w s
  | .fsqrt w => Sys2Proof.Machine.execFsqrt w s
  | .fexp2 w => Sys2Proof.Machine.execFexp2 w s
  | .flog2 w => Sys2Proof.Machine.execFlog2 w s
  | .fsin w => Sys2Proof.Machine.execFsin w s
  | .fcos w => Sys2Proof.Machine.execFcos w s
  | .fclass w => Sys2Proof.Machine.execFclass w s
  | .hadd2 w => Sys2Proof.Machine.execHadd2 w s
  | .hmul2 w => Sys2Proof.Machine.execHmul2 w s
  | .hfma2 w => Sys2Proof.Machine.execHfma2 w s
  | .hmin2 w => Sys2Proof.Machine.execHmin2 w s
  | .hmax2 w => Sys2Proof.Machine.execHmax2 w s
  | .hdot2 w => Sys2Proof.Machine.execHdot2 w s
  | .fdp4n w => Sys2Proof.Machine.execFdp4n w s
  | .cvt w => Sys2Proof.Machine.execCvt w s
  | .cvtn w => Sys2Proof.Machine.execCvtn w s
  | .pack w => Sys2Proof.Machine.execPack w s
  | .unpack w => Sys2Proof.Machine.execUnpack w s
  | .scalex w => Sys2Proof.Machine.execScalex w s
  | .rand w => Sys2Proof.Machine.execRand w s
  | .rseed w => Sys2Proof.Machine.execRseed w s
  | .shfl w => Sys2Proof.Machine.execShfl w s
  | .ballot w => Sys2Proof.Machine.execBallot w s
  | .vote w => Sys2Proof.Machine.execVote w s
  | .redx w => Sys2Proof.Machine.execRedx w s
  | .scanx w => Sys2Proof.Machine.execScanx w s
  | .mop w => Sys2Proof.Machine.execMop w s
  | .mpopc w => Sys2Proof.Machine.execMpopc w s
  | .mfirst w => Sys2Proof.Machine.execMfirst w s
  | .mact w => Sys2Proof.Machine.execMact w s
  | .mmov w => Sys2Proof.Machine.execMmov w s
  | .spr w => Sys2Proof.Machine.execSpr w s
  | .sprWr w => Sys2Proof.Machine.execSprWr w s
  | .ld w => Sys2Proof.Machine.execLd w s
  | .st w => Sys2Proof.Machine.execSt w s
  | .lds w => Sys2Proof.Machine.execLds w s
  | .sts w => Sys2Proof.Machine.execSts w s
  | .ldl w => Sys2Proof.Machine.execLdl w s
  | .stl w => Sys2Proof.Machine.execStl w s
  | .atom w => Sys2Proof.Machine.execAtom w s
  | .atoms w => Sys2Proof.Machine.execAtoms w s
  | .fence w => Sys2Proof.Machine.execFence w s
  | .cctl w => Sys2Proof.Machine.execCctl w s
  | .pref w => Sys2Proof.Machine.execPref w s
  | .ipref w => Sys2Proof.Machine.execIpref w s
  | .ipin w => Sys2Proof.Machine.execIpin w s
  | .iunpin w => Sys2Proof.Machine.execIunpin w s
  | .ldd w => Sys2Proof.Machine.execLdd w s
  | .std w => Sys2Proof.Machine.execStd w s
  | .bari w => Sys2Proof.Machine.execBari w s
  | .bara w => Sys2Proof.Machine.execBara w s
  | .barw w => Sys2Proof.Machine.execBarw w s
  | .bars w => Sys2Proof.Machine.execBars w s
  | .barx w => Sys2Proof.Machine.execBarx w s
  | .tbar w => Sys2Proof.Machine.execTbar w s
  | .tlwait w => Sys2Proof.Machine.execTlwait w s
  | .tlrd w => Sys2Proof.Machine.execTlrd w s
  | .cpy w => Sys2Proof.Machine.execCpy w s
  | .cpseal w => Sys2Proof.Machine.execCpseal w s
  | .cpwait w => Sys2Proof.Machine.execCpwait w s
  | .qctlOpen w => Sys2Proof.Machine.execQctlOpen w s
  | .qctlClose w => Sys2Proof.Machine.execQctlClose w s
  | .qctlDrain w => Sys2Proof.Machine.execQctlDrain w s
  | .mcfg w => Sys2Proof.Machine.execMcfg w s
  | .mma w => Sys2Proof.Machine.execMma w s
  | .mloop w => Sys2Proof.Machine.execMloop w s
  | .mzero w => Sys2Proof.Machine.execMzero w s
  | .mlda w => Sys2Proof.Machine.execMlda w s
  | .msta w => Sys2Proof.Machine.execMsta w s
  | .mprom w => Sys2Proof.Machine.execMprom w s
  | .mverRead w => Sys2Proof.Machine.execMverRead w s
  | .mverAcq w => Sys2Proof.Machine.execMverAcq w s
  | .mverRel w => Sys2Proof.Machine.execMverRel w s
  | .mverWait w => Sys2Proof.Machine.execMverWait w s
  | .mmeta w => Sys2Proof.Machine.execMmeta w s
  | .trap w => Sys2Proof.Machine.execTrap w s
  | .tret w => Sys2Proof.Machine.execTret w s
  | .leaseDecl w => Sys2Proof.Machine.execLeaseDecl w s
  | .leaseMeas w => Sys2Proof.Machine.execLeaseMeas w s
  | .czopen w => Sys2Proof.Machine.execCzopen w s
  | .czclose w => Sys2Proof.Machine.execCzclose w s
  | .spawn w => Sys2Proof.Machine.execSpawn w s
  | .sysrd w => Sys2Proof.Machine.execSysrd w s
  | .syswr w => Sys2Proof.Machine.execSyswr w s
  | .dbgbrk w => Sys2Proof.Machine.execDbgbrk w s
  | .dturn w => Sys2Proof.Machine.execDturn w s
  | .systemPlateOp w => Sys2Proof.Machine.execSystemPlateOp w s
  | .guestDecode => Sys2Proof.Machine.execGuestDecode s
  | .longResultReturn coach slot => Sys2Proof.Machine.execLongResultReturn coach slot s
  | .returnBufferCommit coach => Sys2Proof.Machine.execReturnBufferCommit coach s
  | .sleepWake coach => Sys2Proof.Machine.execSleepWake coach s
  | .tbarWake tag => Sys2Proof.Machine.execTbarWake tag s
  | .queuePushComplete coach => Sys2Proof.Machine.execQueuePushComplete coach s
  | .qfull coach => Sys2Proof.Machine.execQfull coach s
  | .queuePopComplete coach => Sys2Proof.Machine.execQueuePopComplete coach s
  | .portPushComplete coach => Sys2Proof.Machine.execPortPushComplete coach s
  | .portPopComplete coach => Sys2Proof.Machine.execPortPopComplete coach s
  | .drayContextStart rake launch => Sys2Proof.Machine.execDrayContextStart rake launch s
  | .promiseTimeout dray => Sys2Proof.Machine.execPromiseTimeout dray s
  | .trapEntry coach => Sys2Proof.Machine.execTrapEntry coach s
  | .halted coach => Sys2Proof.Machine.execHalted coach s
  | .rakeHaltRecord rake => Sys2Proof.Machine.execRakeHaltRecord rake s
  | .faultRecordWrite entry => Sys2Proof.Machine.execFaultRecordWrite entry s
  | .matrixOpStart tile => Sys2Proof.Machine.execMatrixOpStart tile s
  | .kStep core => Sys2Proof.Machine.execKStep core s
  | .matrixOpComplete tile => Sys2Proof.Machine.execMatrixOpComplete tile s
  | .issueSelect partition => Sys2Proof.Machine.execIssueSelect partition s
  | .coachAdmission pool => Sys2Proof.Machine.execCoachAdmission pool s
  | .longWaitExit coach => Sys2Proof.Machine.execLongWaitExit coach s
  | .throttleInterval pool => Sys2Proof.Machine.execThrottleInterval pool s
  | .leaseEstimateUpdate coach => Sys2Proof.Machine.execLeaseEstimateUpdate coach s
  | .timeSliceExpiry coach => Sys2Proof.Machine.execTimeSliceExpiry coach s
  | .coachEviction core => Sys2Proof.Machine.execCoachEviction core s
  | .coachRestore coach => Sys2Proof.Machine.execCoachRestore coach s
  | .rakePlacement rake => Sys2Proof.Machine.execRakePlacement rake s
  | .stageRebalance region => Sys2Proof.Machine.execStageRebalance region s
  | .slotMove rake => Sys2Proof.Machine.execSlotMove rake s
  | .ticketTurn region => Sys2Proof.Machine.execTicketTurn region s
  | .registerLineFill coach reg => Sys2Proof.Machine.execRegisterLineFill coach reg s
  | .l1DirtyPropagation l1 line => Sys2Proof.Machine.execL1DirtyPropagation l1 line s
  | .accessCounterNotify die counter => Sys2Proof.Machine.execAccessCounterNotify die counter s
  | .dramScrub die => Sys2Proof.Machine.execDramScrub die s
  | .l2Scrub die line => Sys2Proof.Machine.execL2Scrub die line s
  | .flowTagFailure flow line replayFails => Sys2Proof.Machine.execFlowTagFailure flow line replayFails s
  | .thermalThrottle die => Sys2Proof.Machine.execThermalThrottle die s
  | .thermalRecover die => Sys2Proof.Machine.execThermalRecover die s
  | .thermalFatal => Sys2Proof.Machine.execThermalFatal s
  | .drayHalt => Sys2Proof.Machine.execDrayHalt s
  | .drayAdd d a b => Sys2Proof.Machine.execDrayAdd d a b s
  | .draySub d a b => Sys2Proof.Machine.execDraySub d a b s
  | .drayMul d a b => Sys2Proof.Machine.execDrayMul d a b s
  | .drayAnd d a b => Sys2Proof.Machine.execDrayAnd d a b s
  | .drayOr d a b => Sys2Proof.Machine.execDrayOr d a b s
  | .drayXor d a b => Sys2Proof.Machine.execDrayXor d a b s
  | .drayShl d a b => Sys2Proof.Machine.execDrayShl d a b s
  | .drayShr d a b => Sys2Proof.Machine.execDrayShr d a b s
  | .drayMin d a b => Sys2Proof.Machine.execDrayMin d a b s
  | .drayMax d a b => Sys2Proof.Machine.execDrayMax d a b s
  | .drayAddi d a im => Sys2Proof.Machine.execDrayAddi d a im s
  | .drayLi d im => Sys2Proof.Machine.execDrayLi d im s
  | .drayLui d a im => Sys2Proof.Machine.execDrayLui d a im s
  | .drayLdw d a z p o => Sys2Proof.Machine.execDrayLdw d a z p o s
  | .drayStw d a z p o => Sys2Proof.Machine.execDrayStw d a z p o s
  | .drayBeq a b im => Sys2Proof.Machine.execDrayBeq a b im s
  | .drayBne a b im => Sys2Proof.Machine.execDrayBne a b im s
  | .drayBlt a b im => Sys2Proof.Machine.execDrayBlt a b im s
  | .drayBge a b im => Sys2Proof.Machine.execDrayBge a b im s
  | .drayJmp im => Sys2Proof.Machine.execDrayJmp im s
  | .drayJmpLink l im => Sys2Proof.Machine.execDrayJmpLink l im s
  | .drayJmpIndirect l a => Sys2Proof.Machine.execDrayJmpIndirect l a s
  | .drayLoop a im => Sys2Proof.Machine.execDrayLoop a im s
  | .drayArg d a im => Sys2Proof.Machine.execDrayArg d a im s
  | .drayGset n a st o => Sys2Proof.Machine.execDrayGset n a st o s
  | .drayGadv n a r => Sys2Proof.Machine.execDrayGadv n a r s
  | .drayXfer d st n m f u c => Sys2Proof.Machine.execDrayXfer d st n m f u c s
  | .drayGather d x n t => Sys2Proof.Machine.execDrayGather d x n t s
  | .drayScatter t x n st => Sys2Proof.Machine.execDrayScatter t x n st s
  | .drayFill d v n p => Sys2Proof.Machine.execDrayFill d v n p s
  | .drayArrive a c k => Sys2Proof.Machine.execDrayArrive a c k s
  | .draySignal a st g => Sys2Proof.Machine.execDraySignal a st g s
  | .drayTlw h n st g => Sys2Proof.Machine.execDrayTlw h n st g s
  | .drayPromise a im => Sys2Proof.Machine.execDrayPromise a im s
  | .drayDfence st g o => Sys2Proof.Machine.execDrayDfence st g o s
  | .drayStat d st => Sys2Proof.Machine.execDrayStat d st s
  | .drayOpt a c m n => Sys2Proof.Machine.execDrayOpt a c m n s
  | .drayLoadResult dray => Sys2Proof.Machine.execDrayLoadResult dray s
  | .drayDataUnit dray => Sys2Proof.Machine.execDrayDataUnit dray s
  | .hallmarkOpen die port => Sys2Proof.Machine.execHallmarkOpen die port s
  | .hallmarkAbsorb die port => Sys2Proof.Machine.execHallmarkAbsorb die port s
  | .hallmarkClose die port => Sys2Proof.Machine.execHallmarkClose die port s
  | .hallmarkRecordWrite die session => Sys2Proof.Machine.execHallmarkRecordWrite die session s
  | .msgLaunch ctx q => Sys2Proof.Machine.execMsgLaunch ctx q s
  | .msgWait ctx q => Sys2Proof.Machine.execMsgWait ctx q s
  | .waitPoll ctx q => Sys2Proof.Machine.execWaitPoll ctx q s
  | .msgSignal ctx q => Sys2Proof.Machine.execMsgSignal ctx q s
  | .msgNote ctx q => Sys2Proof.Machine.execMsgNote ctx q s
  | .msgFence ctx q => Sys2Proof.Machine.execMsgFence ctx q s
  | .msgPreemptSave ctx q => Sys2Proof.Machine.execMsgPreemptSave ctx q s
  | .msgPreemptResume ctx q => Sys2Proof.Machine.execMsgPreemptResume ctx q s
  | .invalidationComplete ctx => Sys2Proof.Machine.execInvalidationComplete ctx s
  | .plateLoadComplete ctx => Sys2Proof.Machine.execPlateLoadComplete ctx s
  | .createWorld src block => Sys2Proof.Machine.execCreateWorld src block s
  | .destroyWorld src block => Sys2Proof.Machine.execDestroyWorld src block s
  | .assign src block => Sys2Proof.Machine.execAssign src block s
  | .reclaim src block => Sys2Proof.Machine.execReclaim src block s
  | .exportPage src block => Sys2Proof.Machine.execExportPage src block s
  | .importPage src block => Sys2Proof.Machine.execImportPage src block s
  | .loadKey src block => Sys2Proof.Machine.execLoadKey src block s
  | .revokeKey src block => Sys2Proof.Machine.execRevokeKey src block s
  | .getNonce src block => Sys2Proof.Machine.execGetNonce src block s
  | .debugUnlock src block => Sys2Proof.Machine.execDebugUnlock src block s
  | .drayIllegal w => Sys2Proof.Machine.execDrayIllegal w s
  | .hallmarkBadcmd die port => Sys2Proof.Machine.execHallmarkBadcmd die port s
  | .ctxcmdComplete => Sys2Proof.Machine.execCtxcmdComplete s
  | .doorbell ctx q value => Sys2Proof.Machine.execDoorbell ctx q value s
  | .qerrRearm ctx q => Sys2Proof.Machine.execQerrRearm ctx q s
  | .qerrTeardown ctx q => Sys2Proof.Machine.execQerrTeardown ctx q s
  | .faultrespRetry ctx seq => Sys2Proof.Machine.execFaultrespRetry ctx seq s
  | .faultrespFail ctx seq => Sys2Proof.Machine.execFaultrespFail ctx seq s
  | .invcmd ctx value => Sys2Proof.Machine.execInvcmd ctx value s
  | .platecmd ctx value => Sys2Proof.Machine.execPlatecmd ctx value s
  | .debugWrite ctx value => Sys2Proof.Machine.execDebugWrite ctx value s
  | .rakecmdResume ctx value => Sys2Proof.Machine.execRakecmdResume ctx value s
  | .rakecmdKill ctx value => Sys2Proof.Machine.execRakecmdKill ctx value s
  | .featdrvWrite value => Sys2Proof.Machine.execFeatdrvWrite value s
  | .partcmd value => Sys2Proof.Machine.execPartcmd value s
  | .ctxcmdCreate value => Sys2Proof.Machine.execCtxcmdCreate value s
  | .ctxcmdReset value => Sys2Proof.Machine.execCtxcmdReset value s
  | .ctxcmdDestroy value => Sys2Proof.Machine.execCtxcmdDestroy value s
  | .ctrassignAssign value => Sys2Proof.Machine.execCtrassignAssign value s
  | .ctrassignUnassign value => Sys2Proof.Machine.execCtrassignUnassign value s
  | .portreq value => Sys2Proof.Machine.execPortreq value s
  | .registerWrite fn offset value => Sys2Proof.Machine.execRegisterWrite fn offset value s
  | .hostApertureAccess write offset size value => Sys2Proof.Machine.execHostApertureAccess write offset size value s
  | .peerAccess link write pa size value => Sys2Proof.Machine.execPeerAccess link write pa size value s
  | .atsInvalidation first pages => Sys2Proof.Machine.execAtsInvalidation first pages s
  | .perstRelease passed => Sys2Proof.Machine.execPerstRelease passed s
  | .dramTraining passed => Sys2Proof.Machine.execDramTraining passed s
  | .systemPlateLoad image signed => Sys2Proof.Machine.execSystemPlateLoad image signed s
  | .clusterSelfTest passed => Sys2Proof.Machine.execClusterSelfTest passed s
  | .extumLinkTraining up => Sys2Proof.Machine.execExtumLinkTraining up s
  | .ready => Sys2Proof.Machine.execReady s
  | .spdmRequest session code transport => Sys2Proof.Machine.execSpdmRequest session code transport s
  | .tdispRequest vf world bind => Sys2Proof.Machine.execTdispRequest vf world bind s
  | .firmwareRotation => Sys2Proof.Machine.execFirmwareRotation s
  | .debuggerHaltRequest rake => Sys2Proof.Machine.execDebuggerHaltRequest rake s
  | .powerCapSet watts => Sys2Proof.Machine.execPowerCapSet watts s

end Sys2Proof.Machine
end

