-- ==== Sys2Proof/Machine/Boot.lean ====
section
/-! DEFINITION. A small machine in which the next step fetches a given word (log 2): one context whose first gigabyte of
virtual addresses is mapped to the same physical addresses, one region with one rake, and in it either a coach with one
running lane, for a native operation word, or a running dray context, for a dray word. -/
namespace Sys2Proof.Machine.Boot

/-- Where the word is placed. -/
def codeAt : Nat := 0x4000

/-- The page tables: nodes of levels 4, 3 and 2 at 0x1000, 0x2000 and 0x3000, and a leaf of 1 GiB with R, W and X. -/
def tables : List (Nat × Nat) := [(0x1000, 0x2003), (0x2000, 0x3003), (0x3000, 0x1D)]

/-- The context: its own areas lie outside the first gigabyte, and it has no handler. -/
def ctx : Ctx :=
  { ptroot := 0x1000, world := 0, part := 0, privp := 0, tslice := 0, tags := 0, fbuflog := 6, fbufbase := 0x8000
    imgbase := 2 ^ 40, rimgbase := 2 ^ 44, rcftbase := 0, smapbase := 0, privbase := 0
    fmts := List.replicate 8 0x000883C0 ++ List.replicate 8 0x000440A0, trapent := 0, emulent := 0, framebase := 0
    dbgen := false, codever := 1, plates := [], queues := [], fbufRidx := 0, fbufWidx := 0, faultSeq := 0, invAddr := 0, invFirst := 0
    invCmd := 0, invBusy := false, invCount := 0, plateCmd := 0, plateStat := 0, plateBusy := false, rakeStat := 0, rakeBusy := false
    saved := false, nextRegion := 1, newest := 0 }

/-- Partition 0 with every cluster. -/
def part : Part := { Part.none with clusters := BitVec.allOnes 20 }

/-- A region of one stage of one rake. -/
def region : Region :=
  { ctx := 0, number := 0, parent := none, queue := none, depth := 1, block := 0, args := 0, version := 1, plate := 0, prio := 8
    subtree := false, fused := false, prot := false, det := false, coaches := 1, cores := 160, scratch := 1, leasecap := 112
    rakes := 1, tladdr := 0, target := 0, detarea := 0, detsize := 0
    stages := [{ regs := 192, entry := 0x4000, min := 1, max := 1, lease := 8, bind := [], slots := 1 }], queues := []
    windows := [], created := 1, lastCluster := none, sig := 0, completed := false, status := 0, owners := [], round := 1
    members := [], joiners := [], position := (0, 0), turnBusy := none, rebalLeft := 8192, rebalSeen := none }

/-- Its rake, on cluster 0. -/
def rake (coaches : List Nat) (launches : Tbl Launch) : Rake :=
  { newRake 0 0 0 (some 0) 0 16384 with cluster := some 0, created := true, coaches := coaches, launches := launches }

/-- A coach of the rake on core 0: lane 0 runs, and the other lanes have exited. -/
def coach : Coach :=
  { Coach.none with version := 1, nregs := 192, place := some (0, 0, 0), leaseG := 8, measured := false
                    lanes := { Lane.absent with state := .running, ga := 0x4000 }
                      :: List.replicate 63 { Lane.absent with state := .exited } }

/-- The launch that runs in the dray context. -/
def launch : Launch :=
  { slices := [(0, List.replicate 8 0)], codes := [(0, (0x4000, 0, false))], zones := [(0, 0)], dray := some (0, 1)
    started := true, finished := false, faulted := false, cancelled := false, promise := none, start := [] }

/-- The dray context. -/
def dray : Dray :=
  { Dray.none with pc := 0x4000, state := 1, timeline := 2 ^ 32, t0 := 2 ^ 32, nslice := 1, gen := 1
                   slices := List.replicate 8 0, launch := 1, ctx := some 0 }

/-- Write bytes where the tables and the code lie. -/
def memory (s : State) (n w : Nat) : List Host.Cell :=
  let m := tables.foldl (fun m t => memWrite m t.1 (leBytes 8 t.2)) s.mem
  memWrite m codeAt (leBytes n w)

/-- The state with everything that the fetch needs, for `n` bytes at the program counter. -/
def base (s : State) (n w : Nat) : State :=
  { s with sched := [], resets := [], imps := [], tlbs := [], pot := [], poison := [], mem := memory s n w, picked := none, cur := 0, dcur := 0
           ctxs := [(0, ctx)], regions := [(0, region)], parts := [(0, part)], pending := [], faults := [], fusedClusters := []
           pf := { s.pf with fatal := false, ready := true, stage := 6 } }

/-- The machine whose next step fetches a native word. -/
def withNative (s : State) (w : Nat) : State :=
  { base s 8 w with coaches := [(0, coach)], rakes := [(0, rake [0] [])], drays := [], turn := 0 }

/-- The machine whose next step fetches a dray word. -/
def withDray (s : State) (w : Nat) : State :=
  { base s 4 w with coaches := [], rakes := [(0, rake [] [(1, launch)])], drays := [(0, dray)], turn := 1 }

end Sys2Proof.Machine.Boot

namespace Sys2Proof.Machine

/-- Place a word of `nbits` bits where the next step fetches it. -/
def placeWord (s : State) (nbits w : Nat) : State := if nbits ≤ 32 then Boot.withDray s w else Boot.withNative s w

end Sys2Proof.Machine
end

