-- ==== Sys2Proof/Machine/Rows.lean ====
section
/-! DEFINITION. The table of native operations: what each accepts (02 R61), and the register lines that it uses (11 R433). -/
namespace Sys2Proof.Machine

/-! ### What each native operation accepts -/

/-- THE TABLE OF NATIVE OPERATIONS: the word's fields and what its fields must hold, from the entry of each operation in
04-06 and 11. `s` gives the width of the coach that issues, on which LDD and STD depend. -/
def nativeRow (s : State) : Instr → Option (NOp × OpSpec)
  | .nop w => some (w, { fmtOk := onlyR w, xOk := fX w == 0 })
  | .bra w => some (w, { fmtOk := fKind w == 2, xOk := fXS w == 0 })
  | .brx w => some (w, { fmtOk := onlyR w, xOk := fX w == 0, a := oPairVS })
  | .call w => some (w, { fmtOk := fKind w == 2, xOk := fXS w == 0 })
  | .callx w => some (w, { fmtOk := onlyR w, xOk := fX w == 0, a := oPairVS })
  | .ret w => some (w, { fmtOk := onlyR w, xOk := fX w == 0 })
  | .join w => some (w, { fmtOk := onlyR w, xOk := onlyBits 0xF (fX w) })
  | .exit w => some (w, { fmtOk := onlyR w, xOk := fX w == 0 })
  | .sleep w => some (w, { fmtOk := fKind w == 2, xOk := fXS w == 0 })
  | .sleepBar w => some (w, { fmtOk := onlyR w, xOk := onlyBits 0x3F (fX w) && ((fX w).testBit 4 || onlyBits 0x10 (fX w)), a := oPairVS
                              b := if (fX w).testBit 4 then .cls true true false true 1 false else .unused })
  | .yield w => some (w, { fmtOk := onlyR w, xOk := fX w == 0 })
  | .iadd w => some (w, intRow w true)
  | .isub w => some (w, intRow w true)
  | .imul w => some (w, intRow w true)
  | .imulh w => some (w, intRow w false)
  | .imin w => some (w, intRow w false)
  | .imax w => some (w, intRow w false)
  | .imad w => some (w, { fmtOk := onlyR w, xOk := onlyBits 1 (fOpx w), tyOk := tyIn w tyInts, rmOk := rmZero w, d := oAny, a := oAny
                          b := oAny, c := oAny })
  | .iaddc w => some (w, { fmtOk := onlyR w, xOk := onlyBits 3 (fOpx w), tyOk := tyIn w [0, 1], rmOk := rmZero w, d := oAny, a := oAny
                           b := oAny, c := oAny })
  | .iabs w => some (w, { fmtOk := onlyR w, xOk := onlyBits 1 (fOpx w), tyOk := tyIn w [0, 4, 6], rmOk := rmZero w, d := oAny, a := oAny })
  | .icmp w => some (w, { fmtOk := onlyR w, xOk := cmpXOk w (decide (cmpCc w < 6)), tyOk := tyIn w (tyInts ++ [2, 3]), rmOk := rmZero w
                          d := if cmpMsk w then .unused else oAny, a := oVar (tyWide (fTy w)), b := oVar (tyWide (fTy w)) })
  | .sel w => some (w, { fmtOk := onlyR w, xOk := onlyBits 31 (fOpx w) && ((fOpx w).testBit 4 || fOpx w % 16 == 0), tyOk := tyIn w tyWords
                         rmOk := rmZero w, d := oVar (tyWide (fTy w)), a := oVar (tyWide (fTy w)), b := oVar (tyWide (fTy w))
                         c := if (fOpx w).testBit 4 then .unused else oAny })
  | .and w => some (w, bitRow w)
  | .or w => some (w, bitRow w)
  | .xor w => some (w, bitRow w)
  | .andn w => some (w, bitRow w)
  | .shl w => some (w, shiftRow w)
  | .shr w => some (w, shiftRow w)
  | .sar w => some (w, shiftRow w)
  | .rotl w => some (w, shiftRow w)
  | .bfe w => some (w, shiftRow w)
  | .bfi w => some (w, { fmtOk := valueI w, xOk := fOpx w == 0, tyOk := tyIn w tyWords, rmOk := rmZero w
                         d := if fI w then .cls true true false false (if tyWide (fTy w) then 2 else 1) (tyWide (fTy w)) else oVar (tyWide (fTy w))
                         a := oVar (tyWide (fTy w)), b := oAny, c := oVar (tyWide (fTy w)) })
  | .popc w => some (w, countRow w)
  | .clz w => some (w, countRow w)
  | .ctz w => some (w, countRow w)
  | .lea w => some (w, { fmtOk := valueI w, xOk := onlyBits 7 (fOpx w), immOk := immOk w, tyOk := tyIn w [0, 1], rmOk := rmZero w, d := oPair, a := oPair
                         b := oAny })
  | .mov w => some (w, { fmtOk := valueI w, xOk := fOpx w == 0, immOk := immOk w, tyOk := tyIn w tyWords, rmOk := rmZero w, d := oVar (tyWide (fTy w))
                         a := if fI w then .unused else oVar (tyWide (fTy w)) })
  | .movi w => some (w, { fmtOk := fKind w == 2, xOk := fXS w == 0, d := oAny })
  | .movhi w => some (w, { fmtOk := fKind w == 2, xOk := fXS w == 0, d := .cls true true false false 2 true })
  | .iadd64 w => some (w, { fmtOk := valueI w, xOk := onlyBits 3 (fOpx w), immOk := immOk w, tyOk := tyIn w [2, 3], rmOk := rmZero w, d := oPair, a := oPair
                            b := oPair })
  | .imad64 w => some (w, { fmtOk := onlyR w, xOk := onlyBits 1 (fOpx w), tyOk := tyIn w [2, 3], rmOk := rmZero w, d := oPair, a := oAny
                            b := oAny, c := oPair })
  | .idp4 w => some (w, { fmtOk := onlyR w, xOk := onlyBits 3 (fOpx w), tyOk := tyIn w [0], rmOk := rmZero w, d := oAny, a := oAny, b := oAny
                          c := oAny })
  | .fadd w => some (w, floatRow w true)
  | .fsub w => some (w, floatRow w true)
  | .fmul w => some (w, floatRow w true)
  | .ffma w => some (w, { fmtOk := onlyR w, xOk := fOpx w == 0, tyOk := tyIn w tyFloats, rmOk := rmAny w, d := oAny, a := oAny, b := oAny
                          c := oAny })
  | .fmin w => some (w, floatRow w false)
  | .fmax w => some (w, floatRow w false)
  | .fcmp w => some (w, { fmtOk := onlyR w, xOk := cmpXOk w true, tyOk := tyIn w tyFloats, rmOk := rmZero w
                          d := if cmpMsk w then .unused else oAny, a := oAny, b := oAny })
  | .frnd w => some (w, float1Row w true false)
  | .frcp w => some (w, float1Row w true true)
  | .frsq w => some (w, float1Row w true true)
  | .fsqrt w => some (w, float1Row w true true)
  | .fexp2 w => some (w, float1Row w true true)
  | .flog2 w => some (w, float1Row w true true)
  | .fsin w => some (w, float1Row w true true)
  | .fcos w => some (w, float1Row w true true)
  | .fclass w => some (w, float1Row w false false)
  | .hadd2 w => some (w, packedRow w true 1)
  | .hmul2 w => some (w, packedRow w true 0)
  | .hfma2 w => some (w, { fmtOk := onlyR w, xOk := fOpx w == 0, tyOk := tyIn w tyPacked, rmOk := rmAny w, d := oAny, a := oAny, b := oAny
                           c := oAny })
  | .hmin2 w => some (w, packedRow w false 0)
  | .hmax2 w => some (w, packedRow w false 0)
  | .hdot2 w => some (w, { fmtOk := onlyR w, xOk := fOpx w == 0, tyOk := tyIn w tyPacked, rmOk := rmAny w, d := oAny, a := oAny, b := oAny
                           c := oAny })
  | .fdp4n w => some (w, { fmtOk := onlyR w, xOk := onlyBits 0xFF (fOpx w), tyOk := tyIn w [13], rmOk := rmAny w, d := oAny, a := oAny
                           b := oAny, c := oAny })
  | .cvt w => some (w, { fmtOk := onlyR w, xOk := onlyBits 15 (fOpx w), tyOk := tyIn w tyCvt && tyCvt.contains (fOpx w % 16)
                         rmOk := rmAny w, d := oVar (tyWide (fTy w)), a := oVar (tyWide (fOpx w % 16)) })
  | .cvtn w => some (w, { fmtOk := onlyR w, xOk := onlyBits 0x3F (fOpx w), tyOk := tyIn w tyFloats, rmOk := rmAny w, d := oAny, a := oAny
                          b := if (fX w).testBit 5 then oAny else .unused })
  | .pack w => some (w, { fmtOk := onlyR w, xOk := posOk w, tyOk := tyIn w tyNarrow, rmOk := rmZero w, d := oAny, a := oAny, b := oAny })
  | .unpack w => some (w, { fmtOk := onlyR w, xOk := posOk w, tyOk := tyIn w tyNarrow, rmOk := rmZero w, d := oAny, a := oAny })
  | .scalex w => some (w, { fmtOk := valueI w, xOk := onlyBits 1 (fOpx w), immOk := !(fI w && fOpx w % 2 == 1) || fImm w == 0
                            tyOk := tyIn w (if fOpx w % 2 == 1 then tyFloats else tyFloats ++ tyPacked)
                            rmOk := if fOpx w % 2 == 1 then rmZero w else rmAny w
                            d := oAny, a := oAny, b := if fOpx w % 2 == 1 then .unused else oAny })
  | .rand w => some (w, { fmtOk := onlyR w, xOk := fOpx w == 0, tyOk := tyIn w [1, 8], rmOk := rmZero w, d := oAny })
  | .rseed w => some (w, { fmtOk := valueI w, xOk := fOpx w == 0, tyOk := tyIn w [0], rmOk := rmZero w, a := oPair
                           b := .cls true true false true 1 false })
  | .shfl w => some (w, { fmtOk := valueI w, xOk := onlyBits 31 (fOpx w) && field (fOpx w) 4 2 != 7, tyOk := tyIn w tyWords, rmOk := rmZero w
                          d := oVar (tyWide (fTy w)), a := oVar (tyWide (fTy w)), b := oAny })
  | .ballot w => some (w, { fmtOk := onlyR w, xOk := onlyBits 31 (fX w) && ((fX w).testBit 4 || fX w % 16 == 0), d := oPairZ, a := oAny })
  | .vote w => some (w, { fmtOk := onlyR w, xOk := onlyBits 3 (fOpx w) && fOpx w != 3, tyOk := tyIn w [0, 1], rmOk := rmZero w, d := oAny
                          a := oAny })
  | .redx w => some (w, treeRow w 7)
  | .scanx w => some (w, treeRow w 15)
  | .mop w => some (w, { fmtOk := onlyR w, d := if (fX w).testBit 12 then oPairZ else .unused
                         xOk := !(fX w).testBit 13 && (field (fX w) 16 14 != 7 || field (fX w) 7 4 == 0)
                           && (decide (field (fX w) 16 14 < 5) || fX w % 16 == 0) })
  | .mpopc w => some (w, { fmtOk := onlyR w, xOk := onlyBits 0x3F (fX w) && field (fX w) 5 4 != 3, d := oAny })
  | .mfirst w => some (w, { fmtOk := onlyR w, xOk := onlyBits 0x1F (fX w), d := oAny })
  | .mact w => some (w, { fmtOk := onlyR w, xOk := onlyBits 0x1F (fX w) })
  | .mmov w => some (w, { fmtOk := onlyR w, xOk := onlyBits 0x1F (fX w), d := if (fX w).testBit 4 then oPairZ else .unused
                          a := if (fX w).testBit 4 then .unused else oPairZ })
  | .spr w => some (w, { fmtOk := onlyR w, xOk := onlyBits 0xFF (fX w), d := oVar (sprWide (sprNum w)), long := sprLong (sprNum w) })
  | .sprWr w => some (w, { fmtOk := shortForm w, xOk := fI w || onlyBits 0x1FF (fX w), a := if fI w then .unused else oAny
                           own := sprOwn (sprNum w), slots := some 1 })
  | .ld w => some (w, memSpec w false true true false [0, 1, 4])
  | .st w => some (w, memSpec w true true true false [0, 2, 4])
  | .lds w => some (w, memSpec w false false true false [0, 1, 4])
  | .sts w => some (w, memSpec w true false true false [0, 2, 4])
  | .ldl w => some (w, localSpec w false)
  | .stl w => some (w, localSpec w true)
  | .atom w => some (w, atomSpec w true)
  | .atoms w => some (w, atomSpec w false)
  | .fence w => some (w, { fmtOk := onlyR w, xOk := mOpm w == 0, tyOk := mTy w == 0, ordOk := [1, 2, 3, 4].contains (mOrd w)
                           scopeOk := scopesOk w false })
  | .cctl w => some (w, { fmtOk := onlyR w, xOk := decide (mOpm w < 4), tyOk := mTy w == 0, ordOk := mOrd w == 0
                          scopeOk := mAgt w == 0 && mStg w == 0, a := if mOpm w % 8 = 2 then .unused else oPairVS })
  | .pref w => some (w, { fmtOk := shortForm w, xOk := mCh w != 3 && (if fKind w = 0 then field (mOpm w) 2 1 == 0 else fXS w % 8 == 0)
                          tyOk := decide (mTy w < 8), ordOk := mOrd w == 0, scopeOk := mAgt w == 0 && mStg w == 0
                          a := oPairVS, b := if fKind w = 0 then oOffset else .unused })
  | .ipref w => some (w, codeRow w)
  | .ipin w => some (w, codeRow w)
  | .iunpin w => some (w, codeRow w)
  | .ldd w => some (w, lineSpec w (coachOf s s.iss.coach).width false)
  | .std w => some (w, lineSpec w (coachOf s s.iss.coach).width true)
  | .bari w => some (w, { fmtOk := shortForm w, xOk := barXOk w, immOk := !fI w || fImm w != 0
                          a := if fI w then .unused else .cls true true false false 1 false })
  | .bara w => some (w, { fmtOk := shortForm w, xOk := barXOk w, d := .cls true true false true 1 false
                          a := if fI w then .unused else .cls true true false true 1 false })
  | .barw w => some (w, { fmtOk := shortForm w, xOk := barXOk w, a := if fI w then .unused else .cls true true false true 1 false })
  | .bars w => some (w, { fmtOk := onlyR w, xOk := onlyBits 0x3F (fX w), d := oAny })
  | .barx w => some (w, { fmtOk := onlyR w, xOk := onlyBits 0xF (fX w) })
  | .tbar w => some (w, { fmtOk := shortForm w, xOk := if fKind w = 0 then onlyBits 7 (fX w) else onlyBits 7 (fXS w)
                          a := if fI w then .unused else .cls true true false true 1 false })
  | .tlwait w => some (w, { fmtOk := onlyR w, xOk := onlyBits 0x3E0 (fX w)
                            scopeOk := decide (field (fX w) 9 7 ≤ 5) && decide (field (fX w) 6 5 ≤ 2)
                            a := .cls true true false false 1 false, b := oPairVS })
  | .tlrd w => some (w, { fmtOk := onlyR w, xOk := onlyBits 1 (fX w), d := oVar (fX w % 2 == 0), a := .cls true true false false 1 false
                          long := true })
  | .cpy w => some (w, { fmtOk := onlyR w, xOk := onlyBits 7 (fX w) && (!(fX w).testBit 2 || fX w % 4 == 0)
                         d := .cls true true false true 4 true, a := .cls false true false false 8 false
                         b := .cls false true false false 2 true, long := true })
  | .cpseal w => some (w, { fmtOk := onlyR w, xOk := fX w == 0, d := .cls true true false true 1 false })
  | .cpwait w => some (w, { fmtOk := shortForm w, xOk := fX w == 0 && fXS w == 0
                            a := if fI w then .unused else .cls true true false true 1 false })
  | .qctlOpen w => some (w, { fmtOk := onlyR w, xOk := onlyBits 0x77 (fX w), a := oAny })
  | .qctlClose w => some (w, { fmtOk := onlyR w, xOk := onlyBits 0x77 (fX w) })
  | .qctlDrain w => some (w, { fmtOk := onlyR w, xOk := onlyBits 0x77 (fX w) })
  | .mcfg w => some (w, { fmtOk := onlyR w, xOk := field (fX w) 13 0 == 0, a := oS 8 false })
  | .mma w => some (w, { fmtOk := onlyR w, xOk := field (fX w) 12 0 == 0, a := .cls true true false true 1 false
                         b := .cls true true false true 1 false, c := oS 1 false })
  | .mloop w => some (w, { fmtOk := onlyR w, xOk := field (fX w) 13 0 == 0, a := oS 4 true, c := oS 1 false })
  | .mzero w => some (w, { fmtOk := onlyR w, xOk := field (fX w) 13 0 == 0, c := oS 1 false })
  | .mlda w => some (w, moveSpec w (coachOf s s.iss.coach).width false)
  | .msta w => some (w, moveSpec w (coachOf s s.iss.coach).width true)
  | .mprom w => some (w, { fmtOk := onlyR w, xOk := field (fX w) 13 0 == 0, c := oS 1 false })
  | .mverRead w => some (w, mverSpec w true false true)
  | .mverAcq w => some (w, mverSpec w true false false)
  | .mverRel w => some (w, mverSpec w false false false)
  | .mverWait w => some (w, mverSpec w false true false)
  | .mmeta w => some (w, { fmtOk := onlyR w, xOk := field (fX w) 13 2 == 0, a := .cls false true false true 1 false })
  | .trap w => some (w, { fmtOk := fKind w != 1, xOk := if fKind w = 0 then fX w == 0 else fXS w == 0, a := .cls true true false true 1 false })
  | .tret w => some (w, { fmtOk := onlyR w, xOk := fX w == 0 })
  | .leaseDecl w => some (w, { fmtOk := shortForm w, xOk := fX w == 0 && fXS w == 0, a := if fI w then .unused else oAny })
  | .leaseMeas w => some (w, { fmtOk := shortForm w, xOk := (if fKind w = 0 then fX w else fXS w) == 1, immOk := !fI w || fImm w == 0 })
  | .czopen w => some (w, { fmtOk := onlyR w, xOk := fX w == 0, a := oPairVS })
  | .czclose w => some (w, { fmtOk := onlyR w, xOk := fX w == 0 })
  | .spawn w => some (w, { fmtOk := onlyR w, xOk := fX w == 0, a := oPairVS, b := oPairZ })
  | .sysrd w => some (w, { fmtOk := onlyR w, xOk := onlyBits 0xFFF (fX w), d := oVar (sysWide (fX w % 4096)), long := true })
  | .syswr w => some (w, { fmtOk := onlyR w, xOk := onlyBits 0xFFF (fX w), d := .cls true true false true 1 false
                           a := if sysWide (fX w % 4096) then oPair else oAny, own := sysOwn (fX w % 4096) })
  | .dbgbrk w => some (w, { fmtOk := onlyR w, xOk := onlyBits 0xFF (fX w) })
  | .dturn w => some (w, { fmtOk := onlyR w, xOk := fX w == 0 })
  | _ => none
where
  intRow (w : NOp) (sat : Bool) : OpSpec :=
    { fmtOk := valueI w, xOk := onlyBits (if sat then 1 else 0) (fOpx w), immOk := immOk w, tyOk := tyIn w tyInts, rmOk := rmZero w, d := oAny, a := oAny
      b := oAny }
  bitRow (w : NOp) : OpSpec :=
    { fmtOk := valueI w, xOk := fOpx w == 0, immOk := immOk w, tyOk := tyIn w tyWords, rmOk := rmZero w, d := oVar (tyWide (fTy w)), a := oVar (tyWide (fTy w))
      b := oVar (tyWide (fTy w)) }
  shiftRow (w : NOp) : OpSpec :=
    { fmtOk := valueI w, xOk := fOpx w == 0, tyOk := tyIn w tyWords, rmOk := rmZero w, d := oVar (tyWide (fTy w)), a := oVar (tyWide (fTy w))
      b := oAny }
  countRow (w : NOp) : OpSpec :=
    { fmtOk := onlyR w, xOk := fOpx w == 0, tyOk := tyIn w tyWords, rmOk := rmZero w, d := oAny, a := oVar (tyWide (fTy w)) }
  floatRow (w : NOp) (rounds : Bool) : OpSpec :=
    { fmtOk := valueI w, xOk := fOpx w == 0, immOk := immOk w, tyOk := tyIn w tyFloats, rmOk := if rounds then rmAny w else rmZero w
      d := oAny, a := oAny, b := oAny }
  float1Row (w : NOp) (rounds long : Bool) : OpSpec :=
    { fmtOk := onlyR w, xOk := fOpx w == 0, tyOk := tyIn w tyFloats, rmOk := if rounds then rmAny w else rmZero w, d := oAny, a := oAny
      long := long }
  packedRow (w : NOp) (rounds : Bool) (mask : Nat) : OpSpec :=
    { fmtOk := valueI w, xOk := onlyBits mask (fOpx w), immOk := immOk w, tyOk := tyIn w tyPacked
      rmOk := if rounds then rmAny w else rmZero w, d := oAny, a := oAny, b := oAny }
  treeRow (w : NOp) (mask : Nat) : OpSpec :=
    { fmtOk := onlyR w, xOk := onlyBits mask (fOpx w) && decide (fOpx w % 8 < 6)
      tyOk := tyIn w (if fOpx w % 8 < 3 then tyWords ++ tyFloats else tyWords)
      rmOk := if tyIsFloat (fTy w) && fOpx w % 8 == 0 then rmAny w else rmZero w
      d := oVar (tyWide (fTy w)), a := oVar (tyWide (fTy w)), long := true }
  codeRow (w : NOp) : OpSpec :=
    { fmtOk := shortForm w, xOk := fX w == 0 && fXS w == 0, a := .cls false true false false 2 true
      b := if fKind w = 0 then .cls true true false true 1 false else .unused }

/-! ### The register lines that an operation uses (11 R433) -/

/-- The register lines of `n` registers from a code on, and whether they are written: each lane register has a line of its own,
and the scalars are one line with the masks. -/
def codeLines (co : Coach) (code n : Nat) (written : Bool) : List (Nat × Bool) :=
  match codeOf code with
  | .v r => ((List.range n).map (fun j => (r + j, written))).filter (fun u => decide (u.1 < co.nregs))
  | .s _ => [(co.nregs, written)]
  | _ => []

/-- The registers that an operand's field names: a register operand of MMA is a group of one register for each word of its rows
(06 R234), the block of MLDA.REG or MSTA.REG is that of R241. -/
def fieldCount (co : Coach) (i : Instr) (w : NOp) (field : Nat) (o : Opnd) : Nat :=
  match i with
  | .mma w =>
    let cfg := tgetD MCfg.zero co.cfgs (xTile w)
    if field = 1 then groupSize (rowBytesA (cfgFa cfg) (cfgSpn cfg)) co.width
    else if field = 2 then groupSize (rowBytesB (cfgFb cfg) (cfgSpn cfg)) co.width
    else o.count
  | .mlda _ => if mForm w = 2 ∧ field = 1 then 8 * (64 / co.width) else o.count
  | .msta _ => if mForm w = 2 ∧ field = 0 then 8 * (64 / co.width) else o.count
  | _ => o.count

/-- The lines that an operation uses, and whether it writes them: those of the registers that its fields name, and that of the
masks where it names one (log 75). -/
def instrLines (s : State) (k : Nat) (i : Instr) : List (Nat × Bool) :=
  let co := coachOf s k
  match nativeRow { s with iss := { s.iss with coach := k } } i with
  | none => []
  | some (w, sp) =>
    let regs := (opnds sp w).flatMap (fun e => match e.2.1 with
      | .unused => []
      | o => codeLines co e.2.2 (fieldCount co i w e.1 o) (e.1 == 0 && !sp.dSrc))
    let op := opOf (BitVec.ofNat 64 (((encode i).map (fun e => e.2)).getD 0))
    let p := portsOf op w
    let masks : List (Nat × Bool) :=
      if vectorOp op then (if p.maskOut.isEmpty then [] else [(co.nregs, true)]) ++ (if p.masks.isEmpty then [] else [(co.nregs, false)])
      else if w.pm != 0 then [(co.nregs, false)] else []
    regs ++ masks

end Sys2Proof.Machine
end

