-- ==== Sys2Proof/Machine/Progress.lean ====
section
/-! DEFINITION. What the machine does next when the schedule names no step (log 1), the fetch of a dray word (07 R255, R296),
and the passing of time (log 4). -/
namespace Sys2Proof.Machine

/-- What comes next. -/
inductive Work where
  | event (i : Instr)
  | coach (k : Nat)
  | dray (dk : Nat)
  /-- A load of a dray context arrives; a unit of its data operation moves (07 R250). -/
  | load (dk : Nat)
  | unit (dk : Nat)
  /-- Nothing happens for some cycles: the clocks run on. -/
  | wait (cycles : Nat)
  | idle
  deriving DecidableEq, Repr

/-- An outcome that changes the state. -/
def moves (s : State) (o : Out) : Bool :=
  match o with
  | .next t => t != s
  | _ => false

/-- The event, when taking it would change the state. -/
def tryEvent (s : State) (i : Instr) : Option Work := if moves s (exec i s) then some (.event i) else none

/-- Keys of a table whose entries satisfy a condition. -/
def keysWhere {α : Type} (t : Tbl α) (f : Nat → α → Bool) : List Nat := t.filterMap (fun e => if f e.1 e.2 then some e.1 else none)

/-! ### Coaches -/

/-- The partitions that have a ready coach. -/
def readyParts (s : State) : List Nat :=
  (s.coaches.filterMap (fun e => e.2.place.bind (fun p =>
    if coachReady s e.1 then some (p.1 * 4 + p.2.1) else none))).eraseDups

/-- The coach that issues next: the one that ISSUE_SELECT has picked, or whose slot is under way, else the choice of the next
partition that has a ready coach, from `cur` on (log 1, 10 R384). -/
def nextCoach (s : State) : Option Nat :=
  match s.picked.bind (fun k => if coachReady s k then some k else none) with
  | some k => some k
  | none =>
    let ps := readyParts s
    match leastBy id (ps.filter (fun p => decide (s.cur ≤ p))) with
    | some p => (selectIn s p).map (fun e => e.2)
    | none => (leastBy id ps).bind (fun p => (selectIn s p).map (fun e => e.2))

/-- A pending trap of a resident coach that can be entered now. -/
def trapWork (s : State) : Option Work :=
  (s.coaches.find? (fun e => match e.2.trap with
    | some t => e.2.place.isSome && !frameParked t && t.room.all (fun p => faultRoom s e.2.ctx p (coreOf e.2)) && allReturned (dropStuck s e.2)
    | none => false)).map (fun e => .event (.trapEntry e.1))

/-- A long result that a trap or a marker of its coach waits for. -/
def returnWork (s : State) : Option Work :=
  s.coaches.findSome? (fun e =>
    if e.2.place.isSome && (e.2.trap.isSome || (marked e.2).isSome) then
      (mapFrom (fun i (sl : Slot) => (i, sl)) 0 e.2.rbuf).findSome? (fun x =>
        if !x.2.returned && x.2.cpy.isNone && x.2.tile.isNone then some (.event (.longResultReturn e.1 x.1)) else none)
    else none)

/-- A sibling of a halting rake that stops now: its skid is over, or it has nothing to issue (R413). -/
def haltWork (s : State) : Option Work :=
  (s.coaches.find? (fun e => halting s e.2 && e.2.place.isSome && e.2.halted.isNone && e.2.trap.isNone
    && (decide (Config.haltSkid e.1 % 33 ≤ e.2.skid) || !coachReady s e.1))).map (fun e => .event (.halted e.1))

/-! ### Records -/

/-- The fault buffer of a context has room. -/
def recordRoom (s : State) (ctx : Nat) : Bool :=
  match tget s.ctxs ctx with
  | some c => decide ((c.fbufWidx - c.fbufRidx).toNat < 2 ^ c.fbuflog)
  | none => false

/-- A halt record that is due. -/
def recordWork (s : State) : Option Work :=
  (s.rakes.find? (fun e => e.2.halt.isSome && !e.2.haltRecorded && rakeStopped s e.2
      && recordRoom s (((tget s.regions e.2.region).map Region.ctx).getD 0))).map (fun e => .event (.rakeHaltRecord e.1))

/-! ### Deadlines: what falls due when a counter reaches a value -/

/-- The cycles until a counter reaches a value. -/
def cyclesTo (s : State) (u t : Nat) : Nat := t - cycleOf s u

/-- The deadlines of a resident coach: sleeps, the wait of a push, long waits, the time slice that others wait for. -/
def coachDeadlines (s : State) (k : Nat) (co : Coach) : List (Nat × Instr) :=
  if co.place.isNone then []
  else
    let core := coreOf co
    (wakeTimes co).map (fun t => (cyclesTo s core t, Instr.sleepWake k))
    ++ (match pushStall co with
      | some (_, _, _, d) => if isDet s co then [] else [(cyclesTo s core d, .qfull k)]
      | none => [])
    ++ (if co.active && coachWaits s co then [(cyclesTo s core (co.idleSince + 2049), .longWaitExit k)] else [])
    ++ (if !co.sliceExpired && !(waitersFor s (core / 8)).isEmpty then
        [(cyclesTo s core (co.sliceStart + sliceOf s co.ctx), .timeSliceExpiry k)] else [])

/-- The deadline of a pool's interval: when it has counted hits, or holds a coach back. -/
def poolDeadline (s : State) (u : Nat) : List (Nat × Instr) :=
  if tgetD 0 s.poolHits u = 0 ∧ (poolCoaches s u).any (fun e => e.2.heldBack) = false then []
  else [(cyclesTo s (poolClock u) ((tgetD 0 s.poolIntervals u + 1) * 4096), .throttleInterval u)]

/-- The pools of resident coaches. -/
def poolsOf (s : State) : List Nat :=
  (s.coaches.filterMap (fun e => e.2.place.map (fun p => l1Unit s p.1))).eraseDups

/-- A rebalancing that would change a pending move. -/
def rebalanceDeadline (s : State) (rg : Nat) (r : Region) : List (Nat × Instr) :=
  if r.det || r.completed || !rebalNews r then []
  else match rebalCore s rg with
    | some c => [(r.rebalLeft - rebalElapsed s r c, .stageRebalance rg)]
    | none => []

/-- A PROMISE that is late. -/
def promiseDeadlines (s : State) (r : Rake) : List (Nat × Instr) :=
  r.launches.filterMap (fun la => match la.2.dray with
    | some (dk, _) => if la.2.started && la.2.promise.isNone then some (256 - drayCycles s dk, Instr.promiseTimeout dk) else none
    | none => none)

/-- A dirty byte goes home 65,536 cycles after it was written, at the latest (09 R336). -/
def propagationDeadlines (s : State) : List (Nat × Instr) :=
  s.l1.flatMap (fun e => e.2.filterMap (fun c =>
    if c.dirty = 0 then none else some (cyclesTo s (poolClock e.1) (c.since + 65536), .l1DirtyPropagation e.1 c.line)))

/-- A pending error of DRAM is met by the pass of each 24 hours at 1,900 MHz, one of a dirty L2 line within 2^26 cycles of the
last scrub (12 R466). -/
def scrubDeadlines (s : State) (die : Nat) : List (Nat × Instr) :=
  let mine := (tkeys s.softErrors).filter (fun line => homeDie (line * 64) == die)
  let dram := mine.filter (fun line => isDram (line * 64))
  let dirty := mine.filter (fun line => ((l2Find s line).map (fun c => c.dirty != 0)).getD false)
  (if dram.isEmpty then [] else [(cyclesTo s (200 + die) (tgetD 0 s.scrubbed die + 86400 * 1900000000), Instr.dramScrub die)])
  ++ dirty.map (fun line => (cyclesTo s (200 + die) (tgetD 0 s.scrubbed (2 + die) + 2 ^ 26), Instr.l2Scrub die line))

/-- Every deadline. -/
def deadlines (s : State) : List (Nat × Instr) :=
  s.coaches.flatMap (fun e => coachDeadlines s e.1 e.2)
  ++ s.treebars.flatMap (fun e => e.2.closed.map (fun x => (cyclesTo s x.2.1 (x.2.2 + 64), Instr.tbarWake e.1)))
  ++ s.faults.filterMap (fun e =>
      if e.2.seq.isNone && recordRoom s e.2.ctx then
        some (cyclesTo s (faultClock e.2.die e.2.cluster) (e.2.opened + 64), Instr.faultRecordWrite e.1) else none)
  ++ s.rakes.flatMap (fun e => promiseDeadlines s e.2)
  ++ (poolsOf s).flatMap (poolDeadline s)
  ++ s.regions.flatMap (fun e => rebalanceDeadline s e.1 e.2)
  ++ propagationDeadlines s
  ++ scrubDeadlines s 0 ++ scrubDeadlines s 1

/-- What is due. -/
def dueWork (s : State) : Option Work :=
  (deadlines s).findSome? (fun d => if d.1 = 0 then tryEvent s d.2 else none)

/-- Nothing else can happen: the clocks run on to the next deadline (log 4). -/
def waitWork (s : State) : Option Work :=
  (leastBy id (((deadlines s).map (fun d => d.1)).filter (· != 0))).map .wait

/-! ### Drays and tiles -/

/-- The service state of a dray. -/
def drayTurn (s : State) (x : Nat) : DrayTurn := tgetD { issue := 0, unit := 0, dataNext := false } s.drayTurns x

/-- The contexts of dray `x` from one on, in a rotation. -/
def drayFrom (s : State) (x start : Nat) : List (Nat × Dray) :=
  let mine := s.drays.filter (fun e => e.1 / 8 == x && !drayHeld s e.2 && !e.2.done && e.2.parked.isNone)
  mine.filter (fun e => decide (start ≤ e.1)) ++ mine.filter (fun e => decide (e.1 < start))

/-- What dray `x` does next (R250): a load that arrives; then an instruction of the next ready context and a unit of the next
context with a data operation in progress, in turn. -/
def drayDoes (s : State) (x : Nat) : Option Work :=
  let t := drayTurn s x
  let load := (drayFrom s x 0).findSome? (fun e =>
    if e.2.load.isSome || e.2.loadGen.isSome then some (Work.load e.1) else none)
  let data := (drayFrom s x t.unit).findSome? (fun e =>
    if e.2.data.isSome then some (Work.unit e.1) else none)
  let issue := (drayFrom s x t.issue).findSome? (fun e => if drayReady e.2 then some (Work.dray e.1) else none)
  load.orElse (fun _ => if t.dataNext then data.orElse (fun _ => issue) else issue.orElse (fun _ => data))

/-- The drays act in turn: the first after the one of `dcur` that can (log 1). -/
def drayWork (s : State) : Option Work :=
  let drays := (s.drays.map (fun e => e.1 / 8)).eraseDups
  (drays.filter (fun x => decide (s.dcur / 8 < x)) ++ drays.filter (fun x => decide (x ≤ s.dcur / 8))).findSome? (drayDoes s)

/-- A formed launch that finds a free dray context. -/
def launchWork (s : State) : Option Work :=
  s.rakes.findSome? (fun e => e.2.launches.findSome? (fun la =>
    if la.2.started || la.2.finished || la.2.cancelled then none else tryEvent s (.drayContextStart e.1 la.1)))

/-- The matrix engine. -/
def tileWork (s : State) : Option Work :=
  match s.tiles.findSome? (fun e => match e.2.cur with
      | some (o, _) => if opDone e.2 && engineRuns s o.coach then some (Work.event (.matrixOpComplete e.1)) else none
      | none => match e.2.queue.find? (fun o => o.v == e.2.ver) with
        | some o => if engineRuns s o.coach then some (.event (.matrixOpStart e.1)) else none
        | none => none) with
  | some w => some w
  | none =>
    let cores := ((s.tiles.filter (fun e => e.2.cur.isSome)).map (fun e => e.1 / 8)).eraseDups
    (cores.find? (fun c => (nextTile s c).isSome)).map (fun c => .event (.kStep c))

/-! ### Pools, placement, queues -/

/-- A coach that its pool admits. -/
def admitWork (s : State) : Option Work :=
  ((poolsOf s).find? (fun u => (admitNext s u).isSome)).map (fun u => .event (.coachAdmission u))

/-- A rake to place, a coach to restore. -/
def placeWork (s : State) : Option Work :=
  match s.rakes.find? (fun e => (placeFor s e.1).isSome) with
  | some e => some (.event (.rakePlacement e.1))
  | none => (s.coaches.find? (fun e => mayRestore s e.1)).map (fun e => .event (.coachRestore e.1))

/-- A stalled push or pop that can complete. -/
def queueWork (s : State) : Option Work :=
  s.coaches.findSome? (fun e =>
    if e.2.place.isNone || e.2.stalls.isEmpty then none
    else (List.findSome? (tryEvent s)
      [.queuePopComplete e.1, .queuePushComplete e.1, .portPopComplete e.1, .portPushComplete e.1]))

/-- An estimate to renew, an eviction, what is due. -/
def clockWork (s : State) : Option Work :=
  match s.coaches.findSome? (fun e =>
    if e.2.place.isNone then none
    else if e.2.measured && decide (1024 ≤ e.2.mi) then some (Work.event (.leaseEstimateUpdate e.1))
    else if e.2.sliceExpired then tryEvent s (.coachEviction (coreOf e.2))
    else none) with
  | some w => some w
  | none => dueWork s

/-! ### Queue front-ends, engines, Portil and the driver's commands -/

/-- The message at RIDX of a queue. -/
def messageWork (s : State) (ctx q : Nat) (x : HwQueue) : Option Work :=
  if !x.on || x.fault.isSome then none
  else if x.waiting.isSome then tryEvent s (.waitPoll ctx q)
  else if x.count = 0 ∧ x.ridxDue = false then none
  else match readMsg s ctx q with
    | .stop _ => tryEvent s (.msgLaunch ctx q)
    | .msg m _ => tryEvent s (match msgNum m 0 1, msgNum m 8 1 with
        | 2, _ => .msgWait ctx q
        | 3, _ => .msgSignal ctx q
        | 4, _ => .msgNote ctx q
        | 5, _ => .msgFence ctx q
        | 6, 0 => .msgPreemptSave ctx q
        | 6, _ => .msgPreemptResume ctx q
        | _, _ => .msgLaunch ctx q)

/-- The hardware queues. -/
def frontendWork (s : State) : Option Work :=
  s.ctxs.findSome? (fun c => (mapFrom (fun q x => (q, x)) 0 c.2.queues).findSome? (fun e => messageWork s c.1 e.1 e.2))

/-- The hallmark engines: commands, then signatures. -/
def engineWork (s : State) : Option Work :=
  -- each engine rotates among its ports (12 R456)
  let early (e : Nat × Port) : Bool := decide (tgetD 0 s.hallTurn (e.1 / 256) ≤ e.1)
  match (s.ports.filter early ++ s.ports.filter (fun e => !early e)).findSome? (fun e => match headCmd e.2 with
      | none => none
      | some c => tryEvent s (
          if !c.headOk then .hallmarkBadcmd (e.1 / 256) (e.1 % 256)
          else if c.cmd = 1 then .hallmarkOpen (e.1 / 256) (e.1 % 256)
          else if c.cmd = 2 then .hallmarkAbsorb (e.1 / 256) (e.1 % 256)
          else .hallmarkClose (e.1 / 256) (e.1 % 256))) with
  | some w => some w
  | none => s.signing.findSome? (fun e => e.2.head?.map (fun k => .event (.hallmarkRecordWrite e.1 (k % 2 ^ 32))))

/-- The Portil request of a block. -/
def requestOf (src : ReqSource) (block : List Byte) : Option Instr :=
  match imgNum block 0 2 with
  | 1 => some (.createWorld src block)
  | 2 => some (.destroyWorld src block)
  | 3 => some (.assign src block)
  | 4 => some (.reclaim src block)
  | 5 => some (.exportPage src block)
  | 6 => some (.importPage src block)
  | 7 => some (.loadKey src block)
  | 8 => some (.revokeKey src block)
  | 9 => some (.getNonce src block)
  | 10 => some (.debugUnlock src block)
  -- any request answers a code that none has (15 R507)
  | _ => some (.getNonce src block)

/-- Commands of the driver that complete: contexts, invalidations, plates. -/
def commandWork (s : State) : Option Work :=
  match if s.pf.ctxPending.isSome then tryEvent s .ctxcmdComplete else none with
  | some w => some w
  | none =>
    match s.ctxs.find? (fun c => c.2.plateBusy) with
    | some c => some (.event (.plateLoadComplete c.1))
    | none => s.ctxs.findSome? (fun c => if c.2.invBusy then tryEvent s (.invalidationComplete c.1) else none)

/-- A request waits in Portil's queue. -/
def portilWork (s : State) : Option Work :=
  match s.portil.queue with
  | (src, b) :: _ => (requestOf src b).bind (fun i =>
      if moves s (exec i (takeReq s)) then some (.event i) else none)
  | [] => none

/-- A ticket turn, a slot move. -/
def regionWork (s : State) : Option Work :=
  match s.regions.findSome? (fun e => if e.2.det && !e.2.completed then tryEvent s (.ticketTurn e.1) else none) with
  | some w => some w
  | none => s.rakes.findSome? (fun e =>
      if e.2.created && !e.2.unslotted && e.2.coaches.any (fun k => !(coachOf s k).stalls.isEmpty) then
        tryEvent s (.slotMove e.1) else none)

/-- An access counter that has reached the threshold, while the ring has room (11 R427). -/
def counterWork (s : State) : Option Work :=
  (s.ctrs.find? (fun e => decide (2 ^ s.pf.ctrThr ≤ e.2.count) && (ctrRoom s).isSome)).map (fun e =>
    .event (.accessCounterNotify (e.1 / 1024) (e.1 % 1024)))

/-- Everything but the issue of coaches and drays, in the order of the log. -/
def otherWork (s : State) : Option Work :=
  List.findSome? (fun f => f s)
    [returnWork, recordWork, queueWork, clockWork, admitWork, launchWork, tileWork, regionWork, placeWork,
     frontendWork, engineWork, commandWork, portilWork, counterWork]

/-- The first of a list of choices that offers something. -/
def firstOf (s : State) (fs : List (State → Option Work)) : Option Work := List.findSome? (fun f => f s) fs

/-- The lines that a coach's operation uses. -/
def touchLines (s : State) (k : Nat) (i : Instr) : State :=
  match partKey (coachOf s k) with
  | none => s
  | some part => (instrLines s k i).foldl (fun s u => touchLine s part k u) s

/-- A line that the operation of a word uses and the cache lacks (R433): the issuing group waits for its fill. -/
def missingLine (s : State) (k : Nat) (w : Dword) : Option Nat :=
  match decodeNative w with
  | .instr i => ((instrLines s k i).find? (fun u => (coachOf s k).out.contains u.1)).map (fun u => u.1)
  | _ => none

/-- A coach that can issue, or the fill of a register line that its group waits for (11 R433). -/
def coachWork (s : State) : Option Work :=
  (nextCoach s).map (fun k =>
    match (nextWord s (coachOf s k)).bind (missingLine s k) with
    | some r => .event (.registerLineFill k r)
    | none => .coach k)

/-- THE DEFAULT ORDER (log 1): traps and halts first; then a coach, a dray context and everything else take turns; when
nothing of them can happen, the clocks run on to the next deadline. -/
def nextWork (s : State) : Work :=
  match trapWork s with
  | some w => w
  | none =>
    match haltWork s with
    | some w => w
    | none =>
      let order := match s.turn with
        | 0 => [coachWork, drayWork, otherWork, waitWork]
        | 1 => [drayWork, otherWork, coachWork, waitWork]
        | _ => [otherWork, coachWork, drayWork, waitWork]
      (firstOf s order).getD .idle

/-! ### Taking the work -/

/-- The fetch of a dray context's word (R255, R256, R296), from its home (log 9). -/
def fetchDray (s : State) (dk : Nat) : DGot (BitVec 32) :=
  let d := drayOf s dk
  let va := d.pc.toNat
  if va % 4 ≠ 0 then .fault fcAlign s
  else match xlateProgram s (clusterUnits (drayCluster dk)) (drayCtx d) va .fetch with
    | (.ok pa leaf, s) =>
      let s := fillOwn s (drayCtx d) [(pa, 4, leaf.getLsbD 6)]
      (match poisonIn s pa 4 with
        | some line => .error 2 line s
        | none => .ok (BitVec.ofNat 32 (leNat (readOwn s [(pa, 4, leaf.getLsbD 6)]))) s)
    | (.fault e, s) => .park va e ((Acc.fetch).bits true false) s
    | (.error pa page, s) => .error (if page then 4 else 2) (if page then va else pa) s

/-- The word that a dray context executes: the one that it fetched before it parked on it, else a fetched one (R259). -/
def drayWord (s : State) (dk : Nat) : DGot (BitVec 32) :=
  match (drayOf s dk).word with
  | some w => .ok w (setDray s dk { drayOf s dk with word := none })
  | none => fetchDray s dk

/-- A context that parks on its instruction, or waits with it for its data operation, executes the same word when it resumes
(R281, R291). -/
def keepWord (dk : Nat) (w : BitVec 32) (o : Out) : Out :=
  match o with
  | .next s => .next (if (drayOf s dk).parked.isSome || (drayOf s dk).drain then setDray s dk { drayOf s dk with word := some w } else s)
  | .fault f => .fault f
  | .refused r => .refused r

/-- Dray `x` has served a context. -/
def drayServed (s : State) (dk : Nat) (data : Bool) : State :=
  let t := drayTurn s (dk / 8)
  { s with dcur := dk
           drayTurns := tput s.drayTurns (dk / 8)
             (if data then { t with unit := dk + 1, dataNext := false } else { t with issue := dk + 1, dataNext := true }) }

/-- An error of the context's own registers is met (12 R465): the context is stopped by it, as R293 says. -/
def drayUpset (s : State) (dk : Nat) : State :=
  let d := drayOf s dk
  let s := { s with upsets := s.upsets.filter (· != .dray dk) }
  let world := (tget s.ctxs (drayCtx d)).map Ctx.world
  drayError (logError s srcQueues (if d.zone = 0 then 3 else 2) (drayCluster dk / 10) 0 (some (drayCtx d)) world
    (some (drayCluster dk % 10))) dk 2 0

/-- A dray context fetches a word and executes its instruction. -/
def runDray (s : State) (dk : Nat) : Out :=
  let s := drayServed s dk false
  if s.upsets.contains (.dray dk) then .next (drayUpset s dk)
  else match drayWord s dk with
  | .ok w s => keepWord dk w (exec (decodeDray w) s)
  | .fault c s => .next (behind s (drayFault s dk c))
  | .park va e acc s => .next (behind s (drayPark s dk va e acc))
  | .error c i s => .next (behind s (drayBad s dk c i))
where
  /-- A fetch that fails behind a data operation is made again when that has ended (R290). -/
  behind (s t : State) : State := if (drayOf s dk).data.isSome then drayDrains s dk else t

/-- After the issue of coach `k`, the next partition in order is next, unless the slot's second group is still to issue. -/
def turnPast (s : State) (k : Nat) : State :=
  let co := coachOf s k
  { s with picked := if co.pair.isSome then some k else none
           cur := (partKey co).getD 0 + 1, turn := 1 }

/-- The stage queues from which an operation pops. -/
def popsFrom (s : State) (k : Nat) (i : Instr) : List Nat :=
  match nativeRow { s with iss := { s.iss with coach := k } } i with
  | none => []
  | some (w, sp) => (sourceQueues sp w).filterMap (fun q => if q < 8 then (boundQueue s (coachOf s k) q).map (fun e => e.1) else none)

/-- The operation reads the counted barrier. -/
def readsBarrier (b : Nat) : Instr → Bool
  | .bara w => barNum w == b
  | .barw w => barNum w == b
  | .bars w => fX w % 16 == b
  | _ => false

/-- The operation is marked: it reads the return buffer (02 R50). -/
def isMarked (s : State) (i : Instr) : Bool := ((nativeRow s i).map (fun e => e.1.sw)).getD false

/-- An operation's use of a structure meets an error of it (12 R465): a register line that it reads, the queue from which it
pops, the barrier that it reads, the return buffer that it commits. -/
def meets (s : State) (k : Nat) (i : Instr) : Upset → Bool
  | .reg c r => c == k && (instrLines s k i).any (fun u => u.1 == r && !u.2)
  | .queue rg qi => rg == (coachOf s k).region && (popsFrom s k i).contains qi
  | .barrier rk b => rk == (coachOf s k).rake && readsBarrier b i
  | .rbuf c => c == k && !(coachOf s k).rbuf.isEmpty && isMarked s i
  | _ => false

/-- The poisoned line of the overflow area that the operation's pop finds, its queue being empty: the entry is consumed there
(12 R467). -/
def poisonedEntry (s : State) (k : Nat) (i : Instr) : Option Nat :=
  let co := coachOf s k
  (popsFrom s k i).findSome? (fun qi =>
    match tget s.regions co.region with
    | none => none
    | some r =>
      match r.queues[qi]? with
      | none => none
      | some q =>
        if q.entries.isEmpty && q.ovIn != q.ovOut && q.ovdepth != 0 then
          match (ownReadP s (coreUnits (coreOf co)) co.ctx (q.ovaddr + entryStride q.lane * (q.ovOut % q.ovdepth)) (entrySize q.lane)).1 with
          | .error (.error pa false, _) => some pa
          | _ => none
        else none)

/-- The error is met: the registers of the line read 0 from then on, and the coach takes MEMERR with the physical address of the
image line (12 R468). -/
def registerError (s : State) (k r : Nat) : State :=
  let co := coachOf s k
  let s := { s with upsets := s.upsets.filter (· != .reg k r) }
  match areaPieces s (dieUnits (coreOf co / 80)) co.ctx (imageAddr s co + lineOffsetOf co r) 256 .read with
  | (none, s) => markReset s co.ctx
  | (some ps, s) =>
    let pa := ((ps.head?).map (fun p => p.1)).getD 0
    let s := if r < co.nregs then modCoach s k (fun co => { co with v := co.v.filter (fun e => e.1 / 64 != r) }) else loseScalars s k
    coachError (logConsumed s k srcRegCache (coreOf co / 80) pa) k 1 pa

/-- An error of a structure is met: it is spent, and the coach that uses the structure takes MEMERR; what a queue or a return
buffer held there is lost (12 R468, log 13). -/
def upsetError (s : State) (k : Nat) (u : Upset) : State :=
  match u with
  | .reg _ r => registerError s k r
  | _ =>
    let s := { s with upsets := s.upsets.filter (· != u) }
    let s := match u with
      | .queue rg qi => modRegion s rg (fun r => { r with queues := modAt (fun (q : Queue) => { q with entries := q.entries.drop 1 }) r.queues qi })
      | .rbuf c => modCoach s c (fun co => { co with rbuf := [] })
      | _ => s
    coachError (logConsumed s k srcQueues (coreOf (coachOf s k) / 80) 0) k 1 0

/-- What an operation meets before it has any effect. -/
def metError (s : State) (k : Nat) (i : Instr) : Option State :=
  match s.upsets.find? (meets s k i), poisonedEntry s k i with
  | some u, _ => some (upsetError s k u)
  | none, some line => some (memerr s k line)
  | none, none => none

/-- A coach issues: its operation is fetched, and executed. -/
def runCoach (s : State) (k : Nat) : Out :=
  match issueCoach s k with
  | (s, some i) =>
    match metError s k i with
    | some t => .next (turnPast t k)
    | none => exec i (turnPast (touchLines s k i) k)
  | (s, none) => .next (turnPast s k)

/-- The port that an engine's command names (12 R456). -/
def hallPort : Instr → Option Nat
  | .hallmarkOpen die port => some (portKey die port)
  | .hallmarkAbsorb die port => some (portKey die port)
  | .hallmarkClose die port => some (portKey die port)
  | .hallmarkBadcmd die port => some (portKey die port)
  | _ => none

/-- The next turn after an event, and the next port of an engine that takes a command. -/
def turnAfter (s : State) (i : Instr) : State :=
  { s with turn := 0
           hallTurn := match hallPort i with
             | some pk => tput s.hallTurn (pk / 256) (pk + 1)
             | none => s.hallTurn }

/-- An event; a Portil request leaves the queue. -/
def runEvent (s : State) (i : Instr) : Out :=
  let s := turnAfter s i
  match s.portil.queue with
  | (src, b) :: _ => if requestOf src b = some i then exec i (takeReq s) else exec i s
  | [] => exec i s

/-- Take what comes next. -/
def runWork (s : State) (w : Work) : Out :=
  match w with
  | .event i => runEvent s i
  | .coach k => runCoach s k
  | .dray dk => runDray { s with turn := 2 } dk
  | .load dk => exec (.drayLoadResult dk) { s with turn := 2, dcur := dk }
  | .unit dk => exec (.drayDataUnit dk) (drayServed { s with turn := 2 } dk true)
  | .wait n => .next { s with time := s.time + (n - Config.stepCycles) }
  | .idle => .next s

/-- What counts with the time: how long a coach that is ready has not issued, when one at the head of the admission order came
back (10 R381, R384), and the cycles to the next rebalancing (10 R377). -/
def countTime (s : State) : State :=
  let coach (k : Nat) (co : Coach) : Coach :=
    let co := if coachReady s k then { co with waited := co.waited + Config.stepCycles } else co
    if co.atHead && !co.active then
      { co with returned := if coachWaits s co then none else some (co.returned.getD (cycleOf s (coreOf co))) }
    else co
  { s with coaches := s.coaches.map (fun e => (e.1, coach e.1 e.2))
           regions := s.regions.map (fun e => (e.1, countRebalance s e.1 e.2)) }

/-- A step has passed for every unit (log 4). -/
def tick (s : State) : State := countTime { s with time := s.time + Config.stepCycles }

/-- The outcome after the step's time. -/
def ticked (o : Out) : Out :=
  match o with
  | .next s => .next (tick s)
  | .fault f => .fault f
  | .refused r => .refused r

end Sys2Proof.Machine
end

