-- ==== Sys2Proof/Machine/Step.lean ====
section
/-! DEFINITION. The step (log 1), and the placing of a word where the next step fetches it (log 2). -/
namespace Sys2Proof.Machine

/-- A fatal device takes only a device reset (12 R470). -/
def stopped (s : State) : Bool :=
  s.pf.fatal && !(match s.sched.head? with
    | some (.perstRelease _) => true
    | _ => false)

/-- One step: an error of the key store is the end of service (12 R470); a context that must be reset is; else the schedule's next step is taken; else what `nextWork` finds. -/
def step (s : State) : Host.Outcome State Fault Refusal :=
  if stopped s then .fault .deviceFatal
  else if s.upsets.contains .keys then ticked (.next (keyStoreError s))
  else match s.resets with
    | c :: _ => ticked (.next (contextReset s c))
    | [] =>
      match s.sched with
      | i :: rest => ticked (exec i { s with sched := rest })
      | [] => ticked (runWork s (nextWork s))

/-- Store an instruction where the next step fetches it. -/
def State.withFetchWord (s : State) (nbits w : Nat) : State := placeWord s nbits w

end Sys2Proof.Machine
end

