-- ==== Sys2Proof/Safety.lean ====
section
/-! DEFINITION. The terms of the claims: when an operation issues with nothing
in its way (02 R46-R50, R61), what a lane operation leaves behind and leaves alone, and the canonical form of memory. -/
namespace Sys2Proof.Machine

/-! ### An operation with nothing in its way -/

/-- The coach that the latch names. -/
abbrev me (s : State) : Coach := coachOf s s.iss.coach
/-- The enabled lanes of the latch's group. -/
abbrev enOf (s : State) (w : NOp) : Mask := enabledOf (me s) w s.iss.group
/-- The operation of the latch with no popped entry. -/
abbrev opCtx (s : State) (w : NOp) (sp : OpSpec) : OpCtx :=
  { k := s.iss.coach, w := w, i := s.iss, grp := s.iss.group, en := enOf s w, q := [], long := sp.long, turn := false }

/-- THE OPERATION ISSUES WITH NOTHING IN ITS WAY (02 R46-R50, R61): its coach exists; the word passes every decode check; a
lane is enabled; no source is a queue register; a marked word finds nothing outstanding; a long one finds room for its
slots; no FPE is held; a deterministic coach has room for the push of D (10 R395). -/
def clear (s : State) (i : Instr) : Bool :=
  match nativeRow s i, tget s.coaches s.iss.coach with
  | some (w, sp), some co =>
    decide (decodeCheck sp w co.nregs (qBound s co) = none) && decide (enabledOf co w s.iss.group ≠ 0)
    && decide (sourceQueues sp w = []) && (!w.sw || co.rbuf.isEmpty)
    && (!sp.long || decide (slotsUsed co + costOf sp w ≤ 16)) && co.fpeHeld.isEmpty
    && (!isDet s co || pushRoom s co sp w)
  | _, _ => false

/-- D is no queue register. -/
def noQueue (w : NOp) : Bool :=
  match codeOf (fD w) with
  | .q _ => false
  | _ => true

/-! ### Sources and results -/

/-- Word `j` of a source that is no queue register, in lane `l` (01 R27). -/
def regWord (co : Coach) (code j l : Nat) : Word :=
  match codeOf code with
  | .v r => vget co (r + j) l
  | .s r => sget co (r + j)
  | _ => 0
/-- A source value: one register, or a pair. -/
def regVal (co : Coach) (code : Nat) (pair : Bool) (l : Nat) : Dword :=
  if pair then pairOf (regWord co code 0 l) (regWord co code 1 l) else (regWord co code 0 l).setWidth 64
/-- Sources A, B and C of the word; in F-I, B is the immediate (02 R45). -/
def aVal (co : Coach) (w : NOp) (pair : Bool) (l : Nat) : Dword := regVal co (fA w) pair l
def bVal (co : Coach) (w : NOp) (pair : Bool) (imm : Dword) (l : Nat) : Dword := if fI w then imm else regVal co (fB w) pair l
def cVal (co : Coach) (w : NOp) (pair : Bool) (l : Nat) : Dword := regVal co (fC w) pair l

/-- Register `r` of lane `l` after D, `n` registers long, received `val l j` in the enabled lanes (01 R23, R24). -/
def laneAfter (co : Coach) (d : Code) (n : Nat) (en : Mask) (val : Nat → Nat → Word) (r l : Nat) : Word :=
  match d with
  | .v k => if k ≤ r ∧ r < k + n ∧ en.getLsbD l = true then val l (r - k) else vget co r l
  | _ => vget co r l
/-- Scalar register `r` after D received the value of the lowest enabled lane (01 R21). -/
def scalarAfter (co : Coach) (d : Code) (n : Nat) (en : Mask) (val : Nat → Nat → Word) (r : Nat) : Word :=
  match d, lowLane en with
  | .s k, some l => if k ≤ r ∧ r < k + n then val l (r - k) else sget co r
  | _, _ => sget co r

/-- WHAT A LANE OPERATION LEAVES: the coach of the latch changes and nothing else of the machine. D's registers hold the
values in the enabled lanes; every other register of every lane holds what it held; the group has passed the operation;
FSTAT has the flags `fl` added; and every other field of the coach stands. -/
structure LaneResult (s t : State) (w : NOp) (n : Nat) (val : Nat → Nat → Word) (fl : Nat) (co' : Coach) : Prop where
  machine : t = { s with coaches := tput s.coaches s.iss.coach co' }
  vregs : ∀ r l, l < 64 → vget co' r l = laneAfter (me s) (codeOf (fD w)) n (enOf s w) val r l
  sregs : ∀ r, sget co' r = scalarAfter (me s) (codeOf (fD w)) n (enOf s w) val r
  rest : co' = { me s with v := co'.v, s := co'.s, lanes := (passLanes (me s) s.iss s.iss.group).lanes
                           fstat := (me s).fstat ||| BitVec.ofNat 32 fl }

/-- Words of a 64-bit result: one register, or a pair. -/
def resWord (d : Dword) (j : Nat) : Word := if j = 0 then loOf d else hiOf d
/-- The registers of a result. -/
def regsOf (wide : Bool) : Nat := if wide then 2 else 1

/-- Instruction `i` completes as a lane operation with result `f` and no flag. -/
def Gives (s : State) (i : Instr) (w : NOp) (wide : Bool) (f : Nat → Dword) : Prop :=
  ∃ t co', exec i s = .next t ∧ LaneResult s t w (regsOf wide) (fun l j => resWord (f l) j) 0 co'

/-- The FSTAT bits of the flags that the enabled lanes raise. -/
def flagBits (en : Mask) (f : Nat → Dword × Flags) : Nat := flagWord (laneFlags en (fun l => (f l).2))

/-- Instruction `i` completes as a lane operation with results and flags. -/
def GivesF (s : State) (i : Instr) (w : NOp) (wide : Bool) (f : Nat → Dword × Flags) : Prop :=
  ∃ t co', exec i s = .next t
    ∧ LaneResult s t w (regsOf wide) (fun l j => resWord (f l).1 j) (flagBits (enOf s w) f) co'

/-- The slot of a long operation that has issued: its results, not yet returned (02 R49, R50). -/
def slotFor (s : State) (w : NOp) (cost : Nat) (vw sw : Tbl Word) (fl : List Mask) : Slot :=
  { cost := cost, order := (me s).orderNext, lanes := enOf s w, vw := vw, sw := sw, push := none, spr := none, flags := fl
    returned := false, cpy := none, tile := none, opword := s.iss.word, opga := s.iss.ga, opstep := s.iss.step }

/-- A slot joins the return buffer and the group passes; nothing else of the machine changes. -/
def slotted (s : State) (sl : Slot) : State :=
  { s with coaches := tput s.coaches s.iss.coach (passLanes (addSlot (me s) sl) s.iss s.iss.group) }

/-- Instruction `i` completes as a long lane operation: its results wait in a slot of the return buffer. -/
def GivesLong (s : State) (i : Instr) (w : NOp) (wide : Bool) (f : Nat → Dword × Flags) : Prop :=
  let val : Nat → Nat → Word := fun l j => resWord (f l).1 j
  exec i s = .next (slotted s (slotFor s w (slotCost (fD w) (regsOf wide)) (laneWrites (fD w) (regsOf wide) (enOf s w) val)
    (scalarWrites (fD w) (regsOf wide) (enOf s w) val) (laneFlags (enOf s w) (fun l => (f l).2))))

/-- The coach becomes `co` with D's registers written, and the group passes; nothing else of the machine changes. -/
def written (s : State) (w : NOp) (co : Coach) (n : Nat) (val : Nat → Nat → Word) : State :=
  { s with coaches := tput s.coaches s.iss.coach (passLanes
      (putWords co (laneWrites (fD w) n (enOf s w) val) (scalarWrites (fD w) n (enOf s w) val)) s.iss s.iss.group) }

/-- The coach becomes `co` and the group passes; nothing else of the machine changes. -/
def become (s : State) (co : Coach) : State :=
  { s with coaches := tput s.coaches s.iss.coach (passLanes co s.iss s.iss.group) }

/-- The group passes; nothing else of the machine changes. -/
def passed (s : State) : State :=
  { s with coaches := tput s.coaches s.iss.coach (passLanes (me s) s.iss s.iss.group) }

/-- A slot joins the return buffer of the latch's coach, as it now stands, and the group passes. -/
def slottedAt (s : State) (i : Iss) (sl : Slot) : State :=
  let co := coachOf s i.coach
  { s with coaches := tput s.coaches i.coach (passLanes (addSlot co { sl with order := co.orderNext }) i i.group) }
/-- The group passes, from the coach as it now stands. -/
def passedAt (s : State) (i : Iss) : State :=
  { s with coaches := tput s.coaches i.coach (passLanes (coachOf s i.coach) i i.group) }
/-- D's registers of the latch's coach, as it stands in `t`, are written, and the group passes. -/
def writtenAt (s t : State) (w : NOp) (n : Nat) (val : Nat → Nat → Word) : State :=
  { t with coaches := tput t.coaches s.iss.coach (passLanes (putWords (coachOf t s.iss.coach)
      (laneWrites (fD w) n (enOf s w) val) (scalarWrites (fD w) n (enOf s w) val)) s.iss s.iss.group) }
/-- The enabled lanes sleep at the operation, to go on after it, and the others of the group pass. -/
def sleptAt (s t : State) (w : NOp) (wt : Wait) : State :=
  { t with coaches := tput t.coaches s.iss.coach (sleepLanes (passLanes (coachOf t s.iss.coach) s.iss
      (s.iss.group &&& ~~~(enOf s w))) s.iss (enOf s w) (fun _ => wt)) }
/-- The whole group waits at the operation; an operation that has not issued takes its slot's second group back with it
(01 R17). -/
def stalledAt (s t : State) (kind : StallKind) : State :=
  let co := coachOf t s.iss.coach
  { t with coaches := tput t.coaches s.iss.coach { co with
      stalls := co.stalls ++ [{ lanes := s.iss.group, ga := s.iss.ga, step := s.iss.step, kind := kind }]
      pair := if stallKept kind then co.pair else none
      resume := if keepsPlace kind then some (s.iss.group, co.pair) else co.resume } }
/-- The latch's coach exists and holds no FPE. -/
def settled (s : State) (k : Nat) : Bool :=
  match tget s.coaches k with
  | some co => co.fpeHeld.isEmpty
  | none => false
/-- An operation that issues with nothing in its way, and whose effect is `t` before its group passes. -/
def Passes (s : State) (i : Instr) (t : State) : Prop :=
  clear s i = true → settled t s.iss.coach = true → exec i s = .next (passedAt t s.iss)
/-- The slot of an access: a value for each enabled lane, in the register form of the type (02 R57). -/
def valueSlot (s : State) (w : NOp) (v : Nat → Nat) : Slot :=
  let val : Nat → Nat → Word := fun l j => resWord (tyOut (mTy w) (v l : Nat)) j
  let n := regsOf (tyWide (mTy w))
  slotFor s w (slotCost (fD w) n) (laneWrites (fD w) n (enOf s w) val) (scalarWrites (fD w) n (enOf s w) val) noFlags
/-- The slot of a load: the bytes that each enabled lane read. -/
def loadedSlot (s : State) (w : NOp) (t : Tbl (List Byte)) : Slot := valueSlot s w (fun l => leNat (tgetD [] t l))
/-- The offset that the word adds in a lane: IMM24 or B, signed (05 R171). -/
def wordOffset (s : State) (w : NOp) (l : Nat) : Int :=
  if fI w then sext 24 (fImm w) else sext 32 (bVal (me s) w false 0 l).toNat
/-- Global addresses, and offsets in the window or in private memory, of the enabled lanes. -/
def globalOf (s : State) (w : NOp) : List (Nat × Nat) :=
  (lanesOf (enOf s w)).map (fun l => (l, wrapNat 64 (((aVal (me s) w true l).toNat : Int) + wordOffset s w l)))
def localOf (s : State) (w : NOp) : List (Nat × Nat) :=
  (lanesOf (enOf s w)).map (fun l => (l, wrapNat 32 (((aVal (me s) w false l).toNat : Int) + wordOffset s w l)))
/-- The bytes that a store takes from D in a lane. -/
def dataOf (s : State) (w : NOp) (l : Nat) : List Byte :=
  leBytes (tyBits (mTy w) / 8) (regVal (me s) (fD w) (tyWide (mTy w)) l).toNat
/-- Every address passes the bound and the alignment of `n` bytes. -/
def fits (addrs : List (Nat × Nat)) (bound n : Nat) : Bool :=
  addrs.all (fun a => decide (a.2 + n ≤ bound) && a.2 % n == 0)
/-- No address is above 57 bits, and each is aligned to `n` bytes. -/
def inReach (addrs : List (Nat × Nat)) (n : Nat) : Bool := addrs.all (fun a => !outOfGlobal a.2 && a.2 % n == 0)
/-- The slot-map bytes of private words translate, one after the other, and none is poisoned (11 R431, 12 R468). -/
def mapFound (s : State) (w : NOp) (addrs : List (Nat × Nat)) (a : Acc) : Bool × State :=
  let offs := (addrs.flatMap (fun x => [x.2 / 4, x.2 / 4 + (if mBytes w = 8 then 1 else 0)])).eraseDups
  let go := offs.foldl (fun (acc : Bool × State) o =>
    let (x, s1) := areaPieces acc.2 (coreUnits (coreOf (me s))) (me s).ctx (formatAddr s (me s) (4 * o)) 1 a
    (acc.1 && x.isSome, s1)) (true, s)
  (go.1 && (badFormat go.2 (me s) offs).isNone, go.2)
/-- The byte that a unit's readers see at an address: of its L1 copy, else of the line's home. -/
def seen (s : State) (unit a : Nat) : Byte :=
  (((match l1Find s unit (a / 64) with
    | some c => c.bytes
    | none => homeLine s (a / 64))[a % 64]?).getD 0)

/-- THE OPERATION POPS: its word passes every check; entry `e` of queue register `r`, the one among its sources, is taken, and
`s1` is what the pop leaves (01 R23, 02 R49, 05 R203). -/
structure Pops (s : State) (i : Instr) (w : NOp) (sp : OpSpec) (r : Nat) (e : Entry) (s1 : State) : Prop where
  row : nativeRow s i = some (w, sp)
  coach : tget s.coaches s.iss.coach = some (me s)
  form : decodeCheck sp w (me s).nregs (qBound s (me s)) = none
  own : sp.own = none
  lanes : enOf s w ≠ 0
  unmarked : w.sw = false
  det : isDet s (me s) = false
  room : slotsUsed (me s) + costOf sp w ≤ 16
  queue : sourceQueues sp w = [r]
  ready : popState s (me s) s.iss r = .ready
  taken : takePop s s.iss.coach s.iss r = some (e, s1)
  after : settled s1 s.iss.coach = true

/-- A source word of an operation that has popped `e`: the entry's value, or a register's. -/
def poppedWord (co : Coach) (e : Entry) (code l : Nat) : Word :=
  match codeOf code with
  | .q _ => entryLane e l
  | _ => regWord co code 0 l

/-- THE OPERATION PUSHES entry `e` into queue register `r`, its D, and `s1` is what the push leaves (01 R23, 05 R202). -/
structure Pushes (s : State) (i : Instr) (w : NOp) (val : Nat → Word) (r : Nat) (e : Entry) (s1 : State) : Prop where
  issues : clear s i = true
  dest : codeOf (fD w) = .q r
  det : isDet s (me s) = false
  shadow : shadowPush s (me s) (fD w) (enOf s w) = false
  entry : ∃ l0, lowLane (enOf s w) = some l0
    ∧ e = (if qIsLane s (me s) r then .lane ((lanesOf (enOf s w)).map (fun l => (l, val l))) (enOf s w) else .word (val l0))
  pushed : pushReg s s.iss.coach r e = .done s1
  after : settled s1 s.iss.coach = true

/-- The enabled lanes go to their targets, and the others of the group pass; the coach was `co`, and nothing else of the machine
changes (05 R154). -/
def branched (s : State) (w : NOp) (co : Coach) (target : Nat → GAddr) : State :=
  { s with coaches := tput s.coaches s.iss.coach (modLanes (passLanes co s.iss (s.iss.group &&& ~~~(enOf s w))) (enOf s w)
      (fun l x => x.count.goto co.orderNext (target l))) }

/-! ### Dray contexts -/

/-- The dray context that the step has selected. -/
abbrev dray (s : State) : Dray := drayOf s s.dcur
/-- It can issue, and no data operation is in progress (07 R250, R281). -/
def drayClear (s : State) : Bool := drayReady (dray s) && (dray s).data.isNone
/-- The selected context becomes `d`; nothing else of the machine changes. -/
def drayBecomes (s : State) (d : Dray) : State := { s with drays := tput s.drays s.dcur d }
/-- It goes on after its word. -/
def drayAfter (s : State) (d : Dray) : State := drayBecomes s { d with pc := d.pc + 4 }

end Sys2Proof.Machine
end

