-- ==== Sys2Proof/Certificates/Slice0/Obligations.lean ====
section
/-! DEFINITION. What is claimed of the model: one proposition for each rule, or group of rules, of the spec. -/
open Sys2Proof Sys2Proof.Machine

/-! ### Results of native lane operations (04) -/

/-- 04 R112-R114: the exact value of an integer operation, clamped to the type with SAT and wrapped to its width else,
goes to D in every enabled lane; every other register, flag, mask and byte of the machine stands. 04 R114: the 64-bit
sums and products of pairs, and the dot product of four bytes. 04 R113: carries and borrows through 32-bit words; C<0>
alone is read of C. 04 R112 for the 32-bit types, in words of 32 bits: the wrapped sum, difference and product are those
of the words themselves, whichever the signedness. -/
def Obligations.IntegerArithmetic : Prop :=
  (∀ (s : State) (w : NOp), noQueue w = true →
  let ty := fTy w
  let sat := fOpx w % 2 == 1
  let a := fun l => tyInt ty (aVal (me s) w false l)
  let b := fun l => tyInt ty (bVal (me s) w false (immValue ty (fImm w)) l)
  let c := fun l => tyInt ty (cVal (me s) w false l)
  let wrap := fun (v : Int) => tyOut ty v
  let out := fun (v : Int) => tyOut ty (if sat then min (max v (tyMin ty)) (tyMax ty) else v)
  (clear s (.iadd w) = true → Gives s (.iadd w) w false (fun l => out (a l + b l)))
  ∧ (clear s (.isub w) = true → Gives s (.isub w) w false (fun l => out (a l - b l)))
  ∧ (clear s (.imul w) = true → Gives s (.imul w) w false (fun l => out (a l * b l)))
  ∧ (clear s (.imulh w) = true → Gives s (.imulh w) w false (fun l => wrap (a l * b l / 2 ^ tyBits ty)))
  ∧ (clear s (.imad w) = true → Gives s (.imad w) w false (fun l => out (a l * b l + c l)))
  ∧ (clear s (.imin w) = true → Gives s (.imin w) w false (fun l => wrap (min (a l) (b l))))
  ∧ (clear s (.imax w) = true → Gives s (.imax w) w false (fun l => wrap (max (a l) (b l))))
  ∧ (clear s (.iabs w) = true → Gives s (.iabs w) w false (fun l => out |a l|)))
  ∧ ((∀ (s : State) (w : NOp), noQueue w = true →
  let ty := fTy w
  let sat := fOpx w % 2 == 1
  let half := if ty = 2 then 0 else 1
  let out := fun (v : Int) => tyOut ty (if sat then min (max v (tyMin ty)) (tyMax ty) else v)
  let byte := fun (signed : Bool) (v i : Nat) =>
    if signed then (BitVec.ofNat 8 (v / 2 ^ (8 * i))).toInt else ((v / 2 ^ (8 * i) % 256 : Nat) : Int)
  (clear s (.iadd64 w) = true → Gives s (.iadd64 w) w true (fun l =>
      let a := tyInt ty (aVal (me s) w true l)
      let b := tyInt ty (bVal (me s) w true (immValue ty (fImm w)) l)
      out (if (fOpx w).testBit 1 then a - b else a + b)))
  ∧ (clear s (.imad64 w) = true → Gives s (.imad64 w) w true (fun l =>
      out (tyInt half (aVal (me s) w false l) * tyInt half (bVal (me s) w false 0 l) + tyInt ty (cVal (me s) w true l))))
  ∧ (clear s (.idp4 w) = true → Gives s (.idp4 w) w false (fun l =>
      let a := (aVal (me s) w false l).toNat
      let b := (bVal (me s) w false 0 l).toNat
      tyOut 0 (tyInt 0 (cVal (me s) w false l)
        + ((List.range 4).map (fun i => byte (fOpx w % 2 == 1) a i * byte ((fOpx w).testBit 1) b i)).sum))))
  ∧ (∀ (s : State) (w : NOp), noQueue w = true → clear s (.iaddc w) = true →
  let a := fun l => (aVal (me s) w false l).toNat
  let b := fun l => (bVal (me s) w false 0 l).toNat
  let k := fun l => (cVal (me s) w false l).toNat % 2
  Gives s (.iaddc w) w false (fun l => BitVec.ofNat 64 (
    if fOpx w = 0 then (a l + b l + k l) % 2 ^ 32
    else if fOpx w = 1 then (if 2 ^ 32 ≤ a l + b l + k l then 1 else 0)
    else if fOpx w = 2 then (a l + 2 ^ 32 + 2 ^ 32 - b l - k l) % 2 ^ 32
    else if a l < b l + k l then 1 else 0)))
  ∧ (∀ (s : State) (w : NOp), noQueue w = true → fTy w ≤ 1 → fOpx w = 0 → fKind w = 0 →
  let a := fun l => regWord (me s) (fA w) 0 l
  let b := fun l => regWord (me s) (fB w) 0 l
  let c := fun l => regWord (me s) (fC w) 0 l
  (clear s (.iadd w) = true → Gives s (.iadd w) w false (fun l => (a l + b l).setWidth 64))
  ∧ (clear s (.isub w) = true → Gives s (.isub w) w false (fun l => (a l - b l).setWidth 64))
  ∧ (clear s (.imul w) = true → Gives s (.imul w) w false (fun l => (a l * b l).setWidth 64))
  ∧ (clear s (.imad w) = true → Gives s (.imad w) w false (fun l => (a l * b l + c l).setWidth 64))))

/-- 04 R117, R118, R122-R124: selection, the bitwise operations, moves and addresses. -/
def Obligations.MovesAndLogic : Prop := ∀ (s : State) (w : NOp), noQueue w = true →
  let wide := tyWide (fTy w)
  let a := fun l => aVal (me s) w wide l
  let b := fun l => bVal (me s) w wide (immValue (fTy w) (fImm w)) l
  (clear s (.sel w) = true → Gives s (.sel w) w wide (fun l =>
      if (if (fOpx w).testBit 4 then (mget (me s) (fOpx w % 16)).getLsbD l else cVal (me s) w false l != 0)
      then a l else bVal (me s) w wide 0 l))
  ∧ (clear s (.and w) = true → Gives s (.and w) w wide (fun l => a l &&& b l))
  ∧ (clear s (.or w) = true → Gives s (.or w) w wide (fun l => a l ||| b l))
  ∧ (clear s (.xor w) = true → Gives s (.xor w) w wide (fun l => a l ^^^ b l))
  ∧ (clear s (.andn w) = true → Gives s (.andn w) w wide (fun l => a l &&& ~~~(b l)))
  ∧ (clear s (.mov w) = true → Gives s (.mov w) w wide (fun l => if fI w then immValue (fTy w) (fImm w) else a l))
  ∧ (clear s (.movi w) = true → Gives s (.movi w) w false (fun _ => BitVec.ofNat 64 (fImm w)))
  ∧ (clear s (.lea w) = true → Gives s (.lea w) w true (fun l =>
      let b := bVal (me s) w false (immValue (fTy w) (fImm w)) l
      aVal (me s) w true l + (if fTy w = 0 then (loOf b).signExtend 64 else (loOf b).setWidth 64) * 2 ^ fOpx w))
  ∧ (clear s (.movhi w) = true → ∃ t co', exec (.movhi w) s = .next t
      ∧ t = { s with coaches := tput s.coaches s.iss.coach co' }
      ∧ (∀ r l, l < 64 → vget co' r l =
          if codeOf (fD w + 1) = .v r ∧ (enOf s w).getLsbD l = true then BitVec.ofNat 32 (fImm w) else vget (me s) r l)
      ∧ (∀ r, sget co' r = if codeOf (fD w + 1) = .s r then BitVec.ofNat 32 (fImm w) else sget (me s) r)
      ∧ co' = { me s with v := co'.v, s := co'.s, lanes := (passLanes (me s) s.iss s.iss.group).lanes })

/-- 04 R119: shifts by a number of places that may reach or pass the width. 04 R120, R121: bit fields, and counts of bits. -/
def Obligations.ShiftsAndFields : Prop :=
  (∀ (s : State) (w : NOp), noQueue w = true →
  let wide := tyWide (fTy w)
  let a := fun l => aVal (me s) w wide l
  let n := fun l => (bVal (me s) w false (BitVec.ofNat 64 (fImm w)) l).toNat
  (clear s (.shl w) = true → Gives s (.shl w) w wide (fun l => if wide then a l <<< n l else (loOf (a l) <<< n l).setWidth 64))
  ∧ (clear s (.shr w) = true → Gives s (.shr w) w wide (fun l => a l >>> n l))
  ∧ (clear s (.sar w) = true → Gives s (.sar w) w wide (fun l =>
      if wide then (a l).sshiftRight (n l) else ((loOf (a l)).sshiftRight (n l)).setWidth 64))
  ∧ (clear s (.rotl w) = true → Gives s (.rotl w) w wide (fun l =>
      if wide then (a l).rotateLeft (n l) else ((loOf (a l)).rotateLeft (n l)).setWidth 64)))
  ∧ (∀ (s : State) (w : NOp), noQueue w = true →
  let ty := fTy w
  let wide := tyWide ty
  let bits := tyBits ty
  let a := fun l => aVal (me s) w wide l
  let b := fun l => bVal (me s) w false (BitVec.ofNat 64 (fImm w)) l
  let pos := fun l => (b l).toNat % 256
  let len := fun l => min ((b l).toNat / 256 % 256) (bits - pos l)
  let base := fun l => if fI w then regVal (me s) (fD w) wide l else cVal (me s) w wide l
  (clear s (.bfe w) = true → Gives s (.bfe w) w wide (fun l =>
      let f := ((a l).toNat / 2 ^ pos l) % 2 ^ len l
      if len l = 0 then 0
      else if tySigned ty ∧ 2 ^ (len l - 1) ≤ f then BitVec.ofNat 64 (f + 2 ^ bits - 2 ^ len l) else BitVec.ofNat 64 f))
  ∧ (clear s (.bfi w) = true → Gives s (.bfi w) w wide (fun l =>
      let m : Dword := BitVec.ofNat 64 (2 ^ len l - 1) <<< pos l
      (base l &&& ~~~m) ||| ((a l <<< pos l) &&& m)))
  ∧ (clear s (.popc w) = true → Gives s (.popc w) w false (fun l =>
      BitVec.ofNat 64 ((List.range bits).countP (fun i => (a l).getLsbD i))))
  ∧ (clear s (.clz w) = true → Gives s (.clz w) w false (fun l =>
      BitVec.ofNat 64 (((List.range bits).takeWhile (fun i => !(a l).getLsbD (bits - 1 - i))).length)))
  ∧ (clear s (.ctz w) = true → Gives s (.ctz w) w false (fun l =>
      BitVec.ofNat 64 (((List.range bits).takeWhile (fun i => !(a l).getLsbD i)).length))))

/-! ### Floating-point, packed and converted results (03, 04 R125-R137) -/

/-- 04 R125-R129, 03 R92-R95: with no flag enabled in FMODE, FADD, FSUB, FMUL, FFMA, FMIN, FMAX and FRND write D from
sources read under FTZ, rounded under RM or FMODE, and add their flags to FSTAT, and FCLASS writes its class. 03 R80, R93:
a NaN source of FADD, FSUB, FMUL, FFMA or FRND gives the canonical NaN, and raises IV when a source is signalling. 04
R126: FMIN and FMAX return the other source, and the canonical NaN when both are NaN. 03 R95, 11 R409: FADD, FSUB, FMUL,
FFMA, FMIN, FMAX and FRND, at the end of their expansion, when they raise a flag that FMODE enables, write D and FSTAT,
pass, and then their coach takes FPE with the enabled flags, naming the operation and its lanes. -/
def Obligations.FloatingArithmetic : Prop :=
  (∀ (s : State) (w : NOp), noQueue w = true →
  field (me s).fmode.toNat 10 5 = 0 →
  let ty := fTy w
  let f := tyFmt ty
  let rm := roundOf (me s) w
  let z := (me s).fmode.getLsbD 3
  let a := fun l => fBits ty (aVal (me s) w false l)
  let b := fun l => fBits ty (bVal (me s) w false (immValue ty (fImm w)) l)
  let c := fun l => fBits ty (cVal (me s) w false l)
  (clear s (.fadd w) = true → GivesF s (.fadd w) w false (fun l => fRes (fAdd f rm z false (a l) (b l))))
  ∧ (clear s (.fsub w) = true → GivesF s (.fsub w) w false (fun l => fRes (fAdd f rm z true (a l) (b l))))
  ∧ (clear s (.fmul w) = true → GivesF s (.fmul w) w false (fun l => fRes (fMul f rm z (a l) (b l))))
  ∧ (clear s (.ffma w) = true → GivesF s (.ffma w) w false (fun l => fRes (fFma f rm z (a l) (b l) (c l))))
  ∧ (clear s (.fmin w) = true → GivesF s (.fmin w) w false (fun l => fRes (fMinMax f z false (a l) (b l))))
  ∧ (clear s (.fmax w) = true → GivesF s (.fmax w) w false (fun l => fRes (fMinMax f z true (a l) (b l))))
  ∧ (clear s (.frnd w) = true → GivesF s (.frnd w) w false (fun l => fRes (fRnd f rm z (a l))))
  ∧ (clear s (.fclass w) = true → GivesF s (.fclass w) w false (fun l => (BitVec.ofNat 64 (fClass f (a l)), 0))))
  ∧ (∀ (ty rm : Nat) (z : Bool) (a b c : Nat),
  let f := tyFmt ty
  let sig := fun (l : List Nat) => if l.any (fun x => (f.value x).isSig) then flagIV else 0
  ((f.value a).isNan = true ∨ (f.value b).isNan = true → ∀ sub, fAdd f rm z sub a b = (f.nanCode, sig [a, b]))
  ∧ ((f.value a).isNan = true ∨ (f.value b).isNan = true → fMul f rm z a b = (f.nanCode, sig [a, b]))
  ∧ ((f.value c).isNan = true → (f.value a).isNan = false → (f.value b).isNan = false →
      (f.value a).isInf = false → (f.value b).isInf = false → fFma f rm z a b c = (f.nanCode, sig [c]))
  ∧ ((f.value a).isNan = true ∨ (f.value b).isNan = true → fFma f rm z a b c = (f.nanCode, sig [a, b, c]))
  ∧ ((f.value a).isNan = true → fRnd f rm z a = (f.nanCode, sig [a]))
  ∧ (∀ mx, (f.value a).isNan = true → (f.value b).isNan = true → fMinMax f z mx a b = (f.nanCode, sig [a, b]))
  ∧ (∀ mx, (f.value a).isNan = true → (f.value b).isNan = false →
      fMinMax f z mx a b = ((f.round 0 false (f.read z b)).1, sig [a])
      ∧ fMinMax f z mx b a = ((f.round 0 false (f.read z b)).1, sig [a])))
  ∧ (∀ (s : State) (w : NOp) (i : Instr) (r : Nat → Dword × Flags), noQueue w = true → clear s i = true →
  s.iss.count ≤ s.iss.step + 1 →
  let f := tyFmt (fTy w)
  let rm := roundOf (me s) w
  let z := (me s).fmode.getLsbD 3
  let a := fun l => fBits (fTy w) (aVal (me s) w false l)
  let b := fun l => fBits (fTy w) (bVal (me s) w false (immValue (fTy w) (fImm w)) l)
  let c := fun l => fBits (fTy w) (cVal (me s) w false l)
  (i, r) ∈ [(.fadd w, fun l => fRes (fAdd f rm z false (a l) (b l))), (.fsub w, fun l => fRes (fAdd f rm z true (a l) (b l))),
    (.fmul w, fun l => fRes (fMul f rm z (a l) (b l))), (.ffma w, fun l => fRes (fFma f rm z (a l) (b l) (c l))),
    (.fmin w, fun l => fRes (fMinMax f z false (a l) (b l))), (.fmax w, fun l => fRes (fMinMax f z true (a l) (b l))),
    (.frnd w, fun l => fRes (fRnd f rm z (a l)))] →
  let val : Nat → Nat → Word := fun l _ => loOf (r l).1
  let fl := laneFlags (enOf s w) (fun l => (r l).2)
  let on := enabledBits (me s).fmode fl
  on ≠ 0 →
  ∃ co, co = passLanes { putWords (me s) (laneWrites (fD w) 1 (enOf s w) val) (scalarWrites (fD w) 1 (enOf s w) val) with
      fstat := (me s).fstat ||| BitVec.ofNat 32 (flagWord fl) } s.iss s.iss.group
    ∧ exec i s = .next (raiseTrap { s with coaches := tput s.coaches s.iss.coach co } s.iss.coach
        { cls := 5, sub := 0, step := s.iss.step, tmask := enabledLanes (me s).fmode fl, rmask := none, move := 0
          moveTo := 0, moveCounts := false, opword := s.iss.word, opaddr := s.iss.ga, area := [(64, 1, on)] }))

/-- 04 R131-R133, 03 R79, R99: packed operations and dot products. -/
def Obligations.PackedArithmetic : Prop := ∀ (s : State) (w : NOp), noQueue w = true →
  field (me s).fmode.toNat 10 5 = 0 →
  let ty := fTy w
  let f := tyFmt ty
  let rm := roundOf (me s) w
  let z := (me s).fmode.getLsbD 3
  let a := fun l i => elem2 (aVal (me s) w false l) i
  let b := fun l i => elem2 (bVal (me s) w false (immValue ty (fImm w)) l) i
  let c := fun l i => elem2 (cVal (me s) w false l) i
  let pair := fun (g : Nat → Nat × Flags) =>
    ((BitVec.ofNat 64 ((g 0).1 % 65536 + 65536 * ((g 1).1 % 65536)), (g 0).2 ||| (g 1).2) : Dword × Flags)
  let f32 := fun l => fBits 8 (cVal (me s) w false l)
  (clear s (.hadd2 w) = true → GivesF s (.hadd2 w) w false (fun l => pair (fun i => fAdd f rm z (fOpx w % 2 == 1) (a l i) (b l i))))
  ∧ (clear s (.hmul2 w) = true → GivesF s (.hmul2 w) w false (fun l => pair (fun i => fMul f rm z (a l i) (b l i))))
  ∧ (clear s (.hfma2 w) = true → GivesF s (.hfma2 w) w false (fun l => pair (fun i =>
      fFma f rm z (a l i) (elem2 (bVal (me s) w false 0 l) i) (c l i))))
  ∧ (clear s (.hmin2 w) = true → GivesF s (.hmin2 w) w false (fun l => pair (fun i => fMinMax f z false (a l i) (b l i))))
  ∧ (clear s (.hmax2 w) = true → GivesF s (.hmax2 w) w false (fun l => pair (fun i => fMinMax f z true (a l i) (b l i))))
  ∧ (clear s (.hdot2 w) = true → GivesF s (.hdot2 w) w false (fun l =>
      let x := fun i => f.read z (a l i)
      let y := fun i => f.read z (elem2 (bVal (me s) w false 0 l) i)
      let d := fmtF32.read z (f32 l)
      fRes (dotRound rm z [(x 0, y 0), (x 1, y 1)] d (sigFlag [x 0, y 0, x 1, y 1, d]))))
  ∧ (clear s (.fdp4n w) = true → GivesF s (.fdp4n w) w false (fun l =>
      fRes (fDot4 (nfOf (fmtReg s (me s).ctx (fX w % 16))) (nfOf (fmtReg s (me s).ctx (field (fX w) 7 4))) rm z
        (fBits 8 (aVal (me s) w false l)) (fBits 8 (bVal (me s) w false 0 l)) (f32 l))))

/-- 04 R134-R137: conversions, packing and scaling. 03 R96, R93: integer to integer conversion clamps to the destination's
range, and raises OV exactly when it changed the value. -/
def Obligations.Conversions : Prop :=
  (∀ (s : State) (w : NOp), noQueue w = true →
  field (me s).fmode.toNat 10 5 = 0 →
  let ty := fTy w
  let rm := roundOf (me s) w
  let z := (me s).fmode.getLsbD 3
  let bits := tyBits ty
  let pos := bits * (fOpx w % 8)
  (clear s (.cvt w) = true → GivesF s (.cvt w) w (tyWide ty) (fun l =>
      convert (fOpx w % 16) ty rm z (aVal (me s) w (tyWide (fOpx w % 16)) l)))
  ∧ (clear s (.cvtn w) = true → GivesF s (.cvtn w) w false (fun l =>
      fRes (convertNf (nfOf (fmtReg s (me s).ctx (fX w % 16))) ((fX w).testBit 4) ty rm (aVal (me s) w false l)
        (if (fX w).testBit 5 then tyInt 0 (bVal (me s) w false 0 l) else 0))))
  ∧ (clear s (.pack w) = true → Gives s (.pack w) w false (fun l =>
      let m : Dword := BitVec.ofNat 64 (2 ^ bits - 1) <<< pos
      (bVal (me s) w false 0 l &&& ~~~m) ||| ((aVal (me s) w false l <<< pos) &&& m)))
  ∧ (clear s (.unpack w) = true → Gives s (.unpack w) w false (fun l =>
      tyOut ty (((aVal (me s) w false l).toNat / 2 ^ pos % 2 ^ bits : Nat) : Int)))
  ∧ (clear s (.scalex w) = true → GivesF s (.scalex w) w false (fun l =>
      let a := aVal (me s) w false l
      let k := tyInt 0 (bVal (me s) w false (immValue 0 (fImm w)) l)
      if fOpx w % 2 = 1 then exponentOf (tyFmt ty) z (fBits ty a)
      else if ty = 9 ∨ ty = 10 then pack2 (scaleElem (tyFmt ty) rm z (elem2 a 0) k) (scaleElem (tyFmt ty) rm z (elem2 a 1) k)
      else fRes (scaleElem (tyFmt ty) rm z (fBits ty a) k))))
  ∧ (∀ (sty ty rm : Nat) (z : Bool) (d : Dword),
  tyIsFloat sty = false → tyIsFloat ty = false →
  let v := tyInt sty d
  let u := min (max v (tyMin ty)) (tyMax ty)
  convert sty ty rm z d = (tyOut ty u, if u = v then 0 else flagOV))

/-- 04 R130, 02 R49: the seven functions are long: the operation passes, and its results wait in the return buffer. 04
R130, its table: what each function gives at positive and negative zero, at the two infinities, and where the table
names NaN below zero; a NaN source gives the canonical NaN, with IV when it is signalling; FLOG2 of +1 is +0 under every
mode. The choices of the model that it rests on: log 16. -/
def Obligations.LongFunctions : Prop :=
  (∀ (s : State) (w : NOp), noQueue w = true →
  let ty := fTy w
  let r := fun (k : FFun) l => fRes (fFun k (tyFmt ty) (roundOf (me s) w) ((me s).fmode.getLsbD 3)
    (fBits ty (aVal (me s) w false l)))
  (clear s (.frcp w) = true → GivesLong s (.frcp w) w false (r .rcp))
  ∧ (clear s (.frsq w) = true → GivesLong s (.frsq w) w false (r .rsq))
  ∧ (clear s (.fsqrt w) = true → GivesLong s (.fsqrt w) w false (r .sqrt))
  ∧ (clear s (.fexp2 w) = true → GivesLong s (.fexp2 w) w false (r .exp2))
  ∧ (clear s (.flog2 w) = true → GivesLong s (.flog2 w) w false (r .log2))
  ∧ (clear s (.fsin w) = true → GivesLong s (.fsin w) w false (r .sin))
  ∧ (clear s (.fcos w) = true → GivesLong s (.fcos w) w false (r .cos)))
  ∧ (∀ (ty rm : Nat) (z : Bool), ty = 8 ∨ ty = 11 ∨ ty = 12 →
  let f := tyFmt ty
  let neg := fun (c : Nat) => f.signBit + c
  let one := if ty = 8 then 0x3F800000 else if ty = 11 then 0x3C00 else 0x3F80
  let at_ := fun (k : FFun) (x : Nat) => fFun k f rm z x
  (∀ sg, sg = 0 ∨ sg = f.signBit →
    at_ .rcp sg = (sg + f.infCode, flagDZ) ∧ at_ .rsq sg = (sg + f.infCode, flagDZ) ∧ at_ .sqrt sg = (sg, 0)
    ∧ at_ .exp2 sg = (one, 0) ∧ at_ .log2 sg = (neg f.infCode, flagDZ) ∧ at_ .sin sg = (sg, 0) ∧ at_ .cos sg = (one, 0))
  ∧ (at_ .rcp f.infCode = (0, 0) ∧ at_ .rsq f.infCode = (0, 0)
    ∧ (∀ k ∈ [FFun.sqrt, .exp2, .log2], at_ k f.infCode = (f.infCode, 0))
    ∧ ∀ k ∈ [FFun.sin, .cos], at_ k f.infCode = (f.nanCode, flagIV))
  ∧ (at_ .rcp (neg f.infCode) = (neg 0, 0) ∧ at_ .exp2 (neg f.infCode) = (0, 0)
    ∧ ∀ k ∈ [FFun.rsq, .sqrt, .log2, .sin, .cos], at_ k (neg f.infCode) = (f.nanCode, flagIV))
  ∧ (∀ x m e, f.read z x = .fin true m e → m ≠ 0 → ∀ k ∈ [FFun.rsq, .sqrt, .log2], at_ k x = (f.nanCode, flagIV))
  ∧ (∀ x sig k, f.read z x = .nan sig → at_ k x = (f.nanCode, if sig then flagIV else 0))
  ∧ at_ .log2 one = (0, 0))

/-! ### Comparisons, random numbers, lanes, masks and special registers (04 R115, R138-R151) -/

/-- 04 R115, R116: a comparison writes 0 or 1 into D, or combines one bit per lane into a mask register. -/
def Obligations.Comparisons : Prop := ∀ (s : State) (w : NOp), noQueue w = true →
  field (me s).fmode.toNat 10 5 = 0 →
  let ty := fTy w
  let wide := tyWide ty
  let cc := fX w % 8
  let mk := field (fX w) 7 4
  let cmb := field (fX w) 9 8
  let x := fun l => tyInt ty (aVal (me s) w wide l)
  let y := fun l => tyInt ty (bVal (me s) w wide 0 l)
  let ti := fun l => if cc = 0 then decide (x l = y l) else if cc = 1 then decide (x l ≠ y l)
    else if cc = 2 then decide (x l < y l) else if cc = 3 then decide (x l ≤ y l)
    else if cc = 4 then decide (y l < x l) else decide (y l ≤ x l)
  let tf := fun l => fCond (tyFmt ty) ((me s).fmode.getLsbD 3) cc (fBits ty (aVal (me s) w false l))
    (fBits ty (bVal (me s) w false 0 l))
  let mask := fun (i : Instr) (t : Nat → Bool) (fl : Nat) => ∃ new : Mask,
    exec i s = .next (become s { mset (me s) mk new with fstat := (me s).fstat ||| BitVec.ofNat 32 fl })
    ∧ ∀ l < 64, new.getLsbD l =
        if (enOf s w).getLsbD l then
          (if cmb = 0 then t l else if cmb = 1 then (mget (me s) mk).getLsbD l && t l else (mget (me s) mk).getLsbD l || t l)
        else decide (cmb ≠ 0) && (mget (me s) mk).getLsbD l
  (clear s (.icmp w) = true → (fX w).testBit 3 = false → Gives s (.icmp w) w false (fun l => if ti l then 1 else 0))
  ∧ (clear s (.icmp w) = true → (fX w).testBit 3 = true → mask (.icmp w) ti 0)
  ∧ (clear s (.fcmp w) = true → (fX w).testBit 3 = false →
      GivesF s (.fcmp w) w false (fun l => (if (tf l).1 then 1 else 0, (tf l).2)))
  ∧ (clear s (.fcmp w) = true → (fX w).testBit 3 = true →
      mask (.fcmp w) (fun l => (tf l).1) (flagWord (laneFlags (enOf s w) (fun l => (tf l).2))))

/-- 04 R138-R140: a draw is the block function of the lane's counter, its global lane and the seed, and moves the counter
on; RSEED sets the seed and the counters. 04 R141-R144: values of other lanes. -/
def Obligations.RandomAndCrossLane : Prop :=
  (∀ (s : State) (w : NOp), noQueue w = true →
  let draw := fun l => randWord (laneOf (me s) l).draw (BitVec.ofNat 32 (glaneOf s (me s) l)) (me s).seed
  (clear s (.rand w) = true → ∃ t co',
      LaneResult s t w 1 (fun l _ => if fTy w = 8 then BitVec.ofNat 32 (randFloat (draw l)) else draw l) 0 co'
      ∧ exec (.rand w) s = .next { s with coaches := tput s.coaches s.iss.coach (advanceDraws co' s.iss.ga (enOf s w)) })
  ∧ (∀ l0, clear s (.rseed w) = true → lowLane (enOf s w) = some l0 →
      exec (.rseed w) s = .next (become s (modLanes { me s with seed := aVal (me s) w true l0 } (enOf s w)
        (fun l x => { x with draw := loOf (bVal (me s) w false (BitVec.ofNat 64 (fImm w)) l) })))))
  ∧ (∀ (s : State) (w : NOp), noQueue w = true →
  let ty := fTy w
  let wide := tyWide ty
  let width := (me s).width
  let a := fun l => aVal (me s) w false l
  let seg := if field (fOpx w) 4 2 = 0 then width else 2 ^ field (fOpx w) 4 2
  let from_ := fun (l n : Nat) =>
    let i := l % seg
    let k : Int := if fOpx w % 4 = 0 then n else if fOpx w % 4 = 1 then (i : Int) - n
      else if fOpx w % 4 = 2 then (i : Int) + n else ((i ^^^ n : Nat) : Int)
    if 0 ≤ k ∧ k < seg ∧ (l - i : Nat) + k < width then (l - i) + k.toNat else l
  let lanes := lanesOf (enOf s w)
  let vote := if fOpx w = 0 then lanes.all (fun l => a l != 0) else if fOpx w = 1 then lanes.any (fun l => a l != 0)
    else lanes.all (fun l => lanes.all (fun k => a l == a k))
  (clear s (.shfl w) = true → Gives s (.shfl w) w wide (fun l =>
      aVal (me s) w wide (from_ l (bVal (me s) w false (BitVec.ofNat 64 (fImm w)) l).toNat)))
  ∧ (clear s (.vote w) = true → Gives s (.vote w) w false (fun _ => if vote then 1 else 0))
  ∧ (clear s (.ballot w) = true → ∃ r : Mask, (∀ l < 64, r.getLsbD l = ((enOf s w).getLsbD l && a l != 0))
      ∧ exec (.ballot w) s = .next (written s w (if (fX w).testBit 4 then mset (me s) (fX w % 16) r else me s) 2
          (fun _ j => resWord r j))))

/-- 04 R144, 03 R100: REDX and SCANX are long, and combine the enabled lanes over the fixed tree; 03 R80, R92: a
subnormal source is flushed under FTZ, and a signalling NaN in an enabled lane raises IV. 04 R144: the sum that REDX.ADD
gives over UI32 values is their sum modulo 2^32, whatever the tree. The choices of the model that it rests on: logs 28
and 89. -/
def Obligations.Reductions : Prop :=
  (∀ (s : State) (w : NOp), noQueue w = true →
  let ty := fTy w
  let wide := tyWide ty
  let op := redOp ty (fOpx w % 8) (roundOf (me s) w) ((me s).fmode.getLsbD 3)
  let leaf := fun l => if (enOf s w).getLsbD l then
      some (redLeaf ty ((me s).fmode.getLsbD 3) (aVal (me s) w wide l))
    else none
  let sig := sigFlag (if tyIsFloat ty then
    (lanesOf (enOf s w)).map (fun l => (tyFmt ty).value (fBits ty (aVal (me s) w wide l))) else [])
  let tree := treeLevels op (if (me s).width = 64 then 6 else 5) ((List.range (me s).width).map leaf)
  let id_ := redIdentity ty (fOpx w % 8)
  (clear s (.redx w) = true → GivesLong s (.redx w) w wide (fun _ =>
      (redOut ty ((((tree.1.getLast?).getD [])[0]?.getD none).getD id_), sig ||| tree.2)))
  ∧ (clear s (.scanx w) = true → GivesLong s (.scanx w) w wide (fun l =>
      let p := scanPrefix op tree.1 (if (fOpx w).testBit 3 then l else l + 1)
      (redOut ty (p.1.getD id_), sig ||| tree.2 ||| p.2))))
  ∧ (∀ (vals : List (Option Dword)) (n : Nat), vals.length = 2 ^ n →
  (∀ v ∈ vals, ∀ x, v = some x → x.toNat < 2 ^ 32) →
  let tree := treeLevels (redOp 1 0 0 false) n vals
  (((tree.1.getLast?).getD [])[0]?.getD none).getD 0
    = BitVec.ofNat 64 ((vals.map (fun v => (v.getD 0).toNat)).sum % 2 ^ 32))

/-- 04 R145-R149: operations on mask registers; m0 keeps reading all ones of the width. 01 R14, R22: m0 reads all ones
within the width and discards writes; no mask register has a bit above the width; a write of another mask register is
read back, and leaves every other mask register as it was. -/
def Obligations.MaskOperations : Prop :=
  (∀ (s : State) (w : NOp), noQueue w = true →
  let x := fX w
  let m := fun k => mget (me s) k
  let fn := field x 16 14
  let p := m (field x 7 4)
  let q := m (x % 16)
  let r : Mask := (if fn = 0 then p &&& q else if fn = 1 then p ||| q else if fn = 2 then p ^^^ q else if fn = 3 then p &&& ~~~q
    else if fn = 4 then p ||| ~~~q else if fn = 5 then ~~~p else if fn = 6 then p else BitVec.allOnes 64) &&& widthMask (me s).width
  (clear s (.mop w) = true → exec (.mop w) s = .next (if x.testBit 12
      then written s w (mset (me s) (field x 11 8) r) 2 (fun _ j => resWord r j) else become s (mset (me s) (field x 11 8) r)))
  ∧ (clear s (.mpopc w) = true → Gives s (.mpopc w) w false (fun l => BitVec.ofNat 64 ((List.range 64).countP (fun i =>
      q.getLsbD i && (field x 5 4 == 0 || decide (i < l) || (field x 5 4 == 2 && i == l))))))
  ∧ (clear s (.mfirst w) = true → Gives s (.mfirst w) w false (fun _ =>
      if q = 0 then 0xFFFFFFFF else BitVec.ofNat 64 ((if x.testBit 4 then highLane q else lowLane q).getD 0)))
  ∧ (clear s (.mact w) = true → exec (.mact w) s = .next (become s (mset (me s) (x % 16)
      (if x.testBit 4 then activeSet (me s) else enOf s w))))
  ∧ (clear s (.mmov w) = true → x.testBit 4 = true → Gives s (.mmov w) w true (fun _ => q))
  ∧ (∀ l0, clear s (.mmov w) = true → x.testBit 4 = false → lowLane (enOf s w) = some l0 →
      exec (.mmov w) s = .next (become s (mset (me s) (x % 16) (aVal (me s) w true l0)))))
  ∧ (∀ (co : Coach) (k j : Nat) (v : Mask),
  mget co 0 = widthMask co.width ∧ mset co 0 v = co ∧ mget co k &&& ~~~(widthMask co.width) = 0
  ∧ (k ≠ 0 → mget (mset co k v) k = v &&& widthMask co.width) ∧ (j ≠ k → mget (mset co k v) j = mget co j))

/-- 04 R150, R151, 01 R28-R33: reads and writes of special registers. A number that 01 R28 does not assign is ILLEGAL
SPR, read or written; a write of one that is read-only is ILLEGAL SPRRO, and of reserved bits ILLEGAL RSVD, without
effect. 04 R151, 02 R49: a write whose value is popped from a queue register is long: its slot holds the register and the
value. 01 R28, its table, and R32: what each special register reads; the depth of an unbound queue register reads zero.
The choices of the model that it rests on: logs 4, 48 and 90. -/
def Obligations.SpecialRegisters : Prop :=
  (∀ (s : State) (w : NOp), noQueue w = true →
  let n := sprNum w
  let k := s.iss.coach
  let ok := decide (n ≤ 0x16) || decide (0x20 ≤ n ∧ n ≤ 0x3F)
  let v := fun l => if fI w then fImm w else (aVal (me s) w false l).toNat
  let good := fun (v : Nat) => if n = 0x13 then decide (v &&& 0x7EF = v) && decide (v % 8 ≤ 4) else decide (v &&& 0x3F = v)
  (clear s (.spr w) = true → ok = true → sprLong n = false →
      Gives s (.spr w) w (sprWide n) (fun l => BitVec.ofNat 64 (sprValue s k n l)))
  ∧ (clear s (.spr w) = true → ok = true → sprLong n = true →
      GivesLong s (.spr w) w false (fun l => (BitVec.ofNat 64 (sprValue s k n l), 0)))
  ∧ (clear s (.spr w) = true → ok = false → exec (.spr w) s = .next (illegal s (enOf s w) 13 0xFF))
  ∧ (∀ l0, clear s (.sprWr w) = true → lowLane (enOf s w) = some l0 → n = 0x13 → good (v l0) = true →
      exec (.sprWr w) s = .next (become s { me s with fmode := BitVec.ofNat 32 (v l0) }))
  ∧ (∀ l0, clear s (.sprWr w) = true → lowLane (enOf s w) = some l0 → n = 0x14 → good (v l0) = true →
      exec (.sprWr w) s = .next (become s { me s with fstat := BitVec.ofNat 32 (v l0) }))
  ∧ (clear s (.sprWr w) = true → ok = false → exec (.sprWr w) s = .next (illegal s (enOf s w) 13 0xFF))
  ∧ (clear s (.sprWr w) = true → ok = true → n ≠ 0x13 → n ≠ 0x14 →
      exec (.sprWr w) s = .next (illegal s (enOf s w) 14 0xFF))
  ∧ (∀ l0, clear s (.sprWr w) = true → lowLane (enOf s w) = some l0 → n = 0x13 ∨ n = 0x14 → good (v l0) = false →
      exec (.sprWr w) s = .next (illegal s (enOf s w) 3 (if fI w then 4 else 1))))
  ∧ (∀ (s : State) (w : NOp) (sp : OpSpec) (r l0 : Nat) (e : Entry) (s1 : State),
  Pops s (.sprWr w) w sp r e s1 → lowLane (enOf s w) = some l0 →
  let n := sprNum w
  let v := (entryLane e l0).toNat
  (n = 0x13 ∧ v &&& 0x7EF = v ∧ v % 8 ≤ 4) ∨ (n = 0x14 ∧ v &&& 0x3F = v) →
  exec (.sprWr w) s = .next (slottedAt s1 s.iss { slotFor s w 1 [] [] noFlags with spr := some (n, entryLane e l0) }))
  ∧ (∀ (s : State) (k l : Nat),
  let co := coachOf s k
  let core := coreOf co
  let bit := fun (n : Nat) (b : Bool) => if b then 2 ^ n else 0
  sprValue s k 0x00 l = l ∧ sprValue s k 0x01 l = co.idx ∧ sprValue s k 0x06 l = co.ctx ∧ sprValue s k 0x08 l = co.plate
  ∧ sprValue s k 0x09 l = co.version.toNat ∧ sprValue s k 0x0A l = co.width
  ∧ sprValue s k 0x0B l = bit 0 co.prot + bit 1 (decide (co.width = 32) && !co.prot) + bit 2 (isDet s co)
      + bit 3 (s.fusedClusters.contains (clusterOf co)) + bit 4 (decide (((tget s.ctxs co.ctx).map Ctx.world).getD 0 ≠ 0))
  ∧ sprValue s k 0x0D l = core % 8 ∧ sprValue s k 0x0E l = core / 8 % 10 ∧ sprValue s k 0x0F l = core / 80
  ∧ sprValue s k 0x10 l = (if isDet s co then (laneOf co l).icnt.toNat else cycleOf s core)
  ∧ sprValue s k 0x11 l = (laneOf co l).icnt.toNat ∧ sprValue s k 0x13 l = co.fmode.toNat
  ∧ sprValue s k 0x14 l = co.fstat.toNat ∧ sprValue s k 0x15 l = co.leaseG + bit 8 co.measured
  ∧ (∀ j < 8, (sprValue s k 0x16 l).testBit j = decide (((tget s.tiles (tileKey core j)).bind Tile.holder) = some k))
  ∧ sprValue s k 0x16 l < 256
  ∧ (∀ r, tget s.rakes co.rake = some r → sprValue s k 0x03 l = r.idx ∧ sprValue s k 0x04 l = r.stage
      ∧ sprValue s k 0x0C l = r.idx * 2048 + co.idx * 64 + l)
  ∧ (∀ r, tget s.regions co.region = some r → sprValue s k 0x02 l = r.coaches ∧ sprValue s k 0x05 l = r.number
      ∧ sprValue s k 0x12 l = r.sig.toNat)
  ∧ (∀ j qi q, j < 8 → boundQueue s co j = some (qi, q) → sprValue s k (0x20 + j) l = q.entries.length)
  ∧ (∀ j pk p, 8 ≤ j → j < 16 → tget co.ports j = some pk → tget s.ports pk = some p → sprValue s k (0x20 + j) l = p.cmds.length)
  ∧ (∀ j, j < 8 → boundQueue s co j = none → sprValue s k (0x20 + j) l = 0)
  ∧ (∀ j, 8 ≤ j → j < 16 → tget co.ports j = none → sprValue s k (0x20 + j) l = 0)
  ∧ (∀ c j, tget s.ctxs co.ctx = some c → (sprValue s k 0x07 l = c.world)
      ∧ (j < 16 → sprValue s k (0x30 + j) l = ((c.fmts[j]?).getD 0).toNat)))

/-! ### Words, steps and the issue of an operation (01, 02, 11) -/

/-- 02, 04, 05, 07, 14: the words that the spec works out decode to the instructions that it names. -/
def Obligations.WorkedWords : Prop :=
  let n := fun (sw : Bool) (pm : BitVec 4) (pn : Bool) (f : Fmt) => ({ sw := sw, pm := pm, pn := pn, fmt := f } : NOp)
  decodeTableWord 64 0x109C080204000000 = some (.iadd (n true 3 true (.fr 4 1 2 0 0)))
  ∧ decodeTableWord 64 0x1003C1E000000007 = some (.iadd (n false 0 false (.fi 0xE0 0xF0 0 7)))
  ∧ decodeTableWord 64 0x100009C1E0000000 = some (.iadd (n false 0 false (.fr 4 0xE0 0xF0 0 0)))
  ∧ decodeTableWord 64 0x12820A0800000003 = some (.imul (n true 0 false (.fi 5 4 0 3)))
  ∧ decodeTableWord 64 0x43001416181B0400 = some (.ffma (n false 0 false (.fr 0x0A 0x0B 0x0C 0x0D 0x10400)))
  ∧ decodeTableWord 64 0x802A0A0802000002 = some (.shfl (n false 5 false (.fi 5 4 2 2)))
  ∧ decodeTableWord 64 0x2A03880012345678 = some (.movi (n false 0 false (.fl 0xC4 0 0x12345678)))
  ∧ decodeTableWord 64 0x8A02000113000008 = some (.sprWr (n false 0 false (.fi 0 0 0x113 8)))
  ∧ decodeTableWord 64 0x9002081020000040 = some (.ld (n false 0 false (.fi 4 8 0x20 0x40)))
  ∧ decodeTableWord 64 0x0102000000000001 = some (.bra (n false 0 false (.fl 0 0 1)))
  ∧ decodeTableWord 64 0x0680000000000001 = some (.join (n true 0 false (.fr 0 0 0 0 1)))
  ∧ decodeTableWord 64 0x96000D880E002E00 = some (.atom (n false 0 false (.fr 6 0xC4 7 0 0x2E00)))
  ∧ decodeTableWord 64 0xB801B191A0000004 = some (.cpy (n false 0 false (.fr 0xD8 0xC8 0xD0 0 4)))
  ∧ decodeTableWord 32 0x5C440001 = some (.drayGset 1 1 0 1)
  ∧ decodeTableWord 32 0x64408000 = some (.drayXfer 1 0 2 0 0 0 0)
  ∧ decodeTableWord 32 0x74000010 = some (.drayArrive 0 1 0)
  ∧ decodeTableWord 32 0x80000258 = some (.drayPromise 0 0x258)
  ∧ decodeTableWord 32 0x780C0004 = some (.draySignal 3 0 4)
  ∧ decodeTableWord 32 0 = some .drayHalt

/-- 02 R41, R42, R62: the word that encodes a well-formed native operation, or an opcode of the system plate, decodes to
that instruction, every field at every value that its format holds. -/
def Obligations.NativeRoundTrip : Prop :=
  (∀ (i : Instr) (op : Nat) (w : NOp), i.wf = true → nativeOf i = some (op, w) →
    op < 256 ∧ decodeNative (nativeWord op w) = .instr i)
  ∧ ∀ w : BitVec 64, 0xE0 ≤ opOf w → opOf w ≤ 0xFE → decodeNative w = .instr (.systemPlateOp w)

/-- 07 R255-R257, R261-R289: the word that encodes a well-formed dray instruction decodes to it; a word that encodes none,
those with a non-zero reserved field among them, decodes to the illegal instruction that holds it. -/
def Obligations.DrayRoundTrip : Prop :=
  (∀ (i : Instr) (w : BitVec 32), i.wf = true → Sys2Proof.drayOf i = some w →
    (∀ x, i = .drayIllegal x → decodeDray x = .drayIllegal x) → decodeDray w = i)
  ∧ (∀ w : BitVec 32, (∀ i : Instr, i.wf = true → Sys2Proof.drayOf i = some w → ∃ x, i = .drayIllegal x) →
    decodeDray w = .drayIllegal w)

/-- 02 R62, 07 R256: a major opcode that the map marks with a dash is no instruction, whatever its other bits, and a group
that fetches it takes ILLEGAL OPCODE; a dray opcode above 0x23 is illegal. 02 R61, 11 R403, R404: an operation that
fails a decode check, with a lane enabled, has no effect but ILLEGAL with the first failing check's subtype and
operand field. -/
def Obligations.RefusedEncodings : Prop :=
  (let dash := fun (op : Nat) => (0x0A ≤ op ∧ op ≤ 0x0F) ∨ (0x2F ≤ op ∧ op ≤ 0x3F) ∨ (0x57 ≤ op ∧ op ≤ 0x6F) ∨ (0x77 ≤ op ∧ op ≤ 0x7F)
    ∨ (0x8B ≤ op ∧ op ≤ 0x8F) ∨ (0xA0 ≤ op ∧ op ≤ 0xAF) ∨ (0xBC ≤ op ∧ op ≤ 0xBF) ∨ (0xC9 ≤ op ∧ op ≤ 0xCF)
    ∨ (0xDA ≤ op ∧ op ≤ 0xDF) ∨ op = 0xFF
  (∀ w : BitVec 64, decodeNative w = .unassigned ↔ dash (opOf w))
  ∧ (∀ s k grp ga st pair w len n s1, fetchOp s (coachOf s k) ga st = (.op w len n, s1) → dash (opOf w) →
      (issueGroup s k grp ga st pair).2 = none ∧ ∃ s2, (issueGroup s k grp ga st pair).1 = rejectWord s2 1
        ∧ s2.iss.coach = k ∧ s2.iss.group = grp ∧ s2.iss.ga = ga ∧ s2.iss.word = w)
  ∧ ∀ w : BitVec 32, 0x24 ≤ dOpc w → decodeDray w = .drayIllegal w)
  ∧ (∀ (s : State) (i : Instr) (w : NOp) (sp : OpSpec) (sub fieldNo : Nat),
  nativeRow s i = some (w, sp) → decodeCheck sp w (me s).nregs (qBound s (me s)) = some (sub, fieldNo) → enOf s w ≠ 0 →
  exec i s = .next (raiseTrap s s.iss.coach
    { cls := 1, sub := sub, step := s.iss.step, tmask := enOf s w, rmask := none
      move := if s.iss.step = 0 then 0 else enOf s w, moveTo := s.iss.ga, moveCounts := false, opword := s.iss.word
      opaddr := s.iss.ga, area := [(64, 1, fieldNo)] }))

/-- A STEP RUNS THE INSTRUCTION THAT IT NAMES: the head of the schedule; or, for the coach that comes next, the
operation whose word its group fetches and the decoder reads, with the latch naming the coach, the group, its address
and the word, unless a structure that it uses holds an error (12 R465); or, for the dray context that comes next, the
word that it fetches, which it keeps if it parks or waits with it. One step's time passes. The choices of the model that
it rests on: logs 1, 9, 13 and 75. -/
def Obligations.StepRunsInstruction : Prop := ∀ (s : State), stopped s = false → s.upsets.contains .keys = false → s.resets = [] →
  (∀ i rest, s.sched = i :: rest → step s = ticked (exec i { s with sched := rest }))
  ∧ (∀ k s1 i, s.sched = [] → nextWork s = .coach k → issueCoach s k = (s1, some i) →
      metError s1 k i = none → step s = ticked (exec i (turnPast (touchLines s1 k i) k)))
  ∧ (∀ dk s1 w, s.sched = [] → nextWork s = .dray dk → s.upsets.contains (.dray dk) = false → drayWord (drayServed { s with turn := 2 } dk false) dk = .ok w s1 →
      step s = ticked (keepWord dk w (exec (decodeDray w) s1)))
  ∧ (∀ dk w t, (drayOf t dk).parked = none → (drayOf t dk).drain = false → keepWord dk w (.next t) = .next t)
  ∧ (∀ k grp ga st pair w len n s1 i, fetchOp s (coachOf s k) ga st = (.op w len n, s1) → decodeNative w = .instr i →
      (issueGroup s k grp ga st pair).2 = some i
      ∧ (issueGroup s k grp ga st pair).1.iss = { coach := k, group := grp, ga := ga, step := st, len := len, count := n
                                                  word := w, gunit := unitAt s (coachOf s k) ga st })

/-- 12 R470 and the model's choice of log 1: a step never refuses; it stops only on a device that a fatal error stopped. -/
def Obligations.StepStops : Prop := ∀ (s : State),
  (stopped s = true → step s = .fault .deviceFatal)
  ∧ (stopped s = false → ∃ t, step s = .next t)

/-- 15 R501 and logs 1, 2, 3: after reset nothing exists: no context, coach, dray or tile, memory lists nothing, and the
device is not ready. The values that the spec does not give are the model's. -/
def Obligations.ResetState : Prop :=
  let s := State.reset
  s.mem = [] ∧ s.coaches = [] ∧ s.rakes = [] ∧ s.regions = [] ∧ s.ctxs = [] ∧ s.drays = [] ∧ s.tiles = [] ∧ s.l1 = []
  ∧ s.l2 = [] ∧ s.tlbs = [] ∧ s.pot = [] ∧ s.faults = [] ∧ s.sched = [] ∧ s.pf.ready = false ∧ s.pf.fatal = false

/-- 02 R48, R61: an unmarked operation with no lane enabled does nothing: its group passes it. 01 R16, R30: lanes that
pass an operation count it, and go to its successor; the other lanes stand where they stood. -/
def Obligations.PassingOver : Prop :=
  (∀ (s : State) (i : Instr) (w : NOp) (sp : OpSpec),
  nativeRow s i = some (w, sp) → enOf s w = 0 → w.sw = false → (me s).fpeHeld = [] →
  tget s.coaches s.iss.coach = some (me s) → exec i s = .next (passed s))
  ∧ (∀ (co : Coach) (i : Iss) (m : Mask) (l : Nat) (x : Lane), co.lanes[l]? = some x →
  let y := ((passLanes co i m).lanes[l]?).getD Lane.absent
  (m.getLsbD l = false → y = x)
  ∧ (m.getLsbD l = true → y.icnt = x.icnt + 1 ∧ y.state = x.state ∧ y.held = x.held
      ∧ (i.step + 1 < i.count → y.ga = x.ga ∧ y.step = i.step + 1)
      ∧ (¬ i.step + 1 < i.count → y.ga = i.ga + BitVec.ofNat 57 i.len ∧ y.step = 0)))

/-- 01 R23, 05 R202: a queue register in D pushes one entry: for a WORD queue the lowest enabled lane's value, for a LANE
queue every enabled lane's value with its validity. 01 R23, 02 R49, 05 R203: a queue register among the sources pops
one entry; the operation is long, and its result waits in the return buffer. 05 R202, R203: a stage queue without
overflow is first in, first out: a push joins the tail while there is room, a push of a full one is turned away, and a
pop takes the head. It says so for a queue register in D of the 32-bit integer, logical and shift operations, of FADD,
FSUB and FMUL, and, where the push waits for the commit, of the seven functions, LDS and LD; and for queue registers
among the sources of the same integer, logical and shift operations. -/
def Obligations.QueueRegisters : Prop :=
  (∀ (s : State) (w : NOp) (r l0 : Nat) (e : Entry) (s1 : State),
  clear s (.mov w) = true → fKind w = 0 → fTy w = 0 → codeOf (fD w) = .q r → isDet s (me s) = false
  → shadowPush s (me s) (fD w) (enOf s w) = false → lowLane (enOf s w) = some l0 →
  let a := fun l => regWord (me s) (fA w) 0 l
  e = (if qIsLane s (me s) r then .lane ((lanesOf (enOf s w)).map (fun l => (l, a l))) (enOf s w) else .word (a l0)) →
  pushReg s s.iss.coach r e = .done s1 → (coachOf s1 s.iss.coach).fpeHeld = [] →
  exec (.mov w) s = .next (modCoach s1 s.iss.coach (fun co => passLanes co s.iss s.iss.group)))
  ∧ (∀ (s : State) (i : Instr) (w : NOp) (sp : OpSpec) (r : Nat) (e : Entry) (s1 : State),
  i = .mov w → nativeRow s i = some (w, sp) → tget s.coaches s.iss.coach = some (me s)
  → decodeCheck sp w (me s).nregs (qBound s (me s)) = none → enOf s w ≠ 0
  → w.sw = false → fKind w = 0 → fTy w = 0 → codeOf (fA w) = .q r → noQueue w = true → isDet s (me s) = false
  → slotsUsed (me s) + costOf sp w ≤ 16 → popState s (me s) s.iss r = .ready
  → takePop s s.iss.coach s.iss r = some (e, s1) → (coachOf s1 s.iss.coach).fpeHeld = [] →
  let val : Nat → Nat → Word := fun l _ => entryLane e l
  let co := coachOf s1 s.iss.coach
  let sl : Slot := { slotFor s w (slotCost (fD w) 1) (laneWrites (fD w) 1 (enOf s w) val) (scalarWrites (fD w) 1 (enOf s w) val)
    noFlags with order := co.orderNext }
  exec i s = .next { s1 with coaches := tput s1.coaches s.iss.coach (passLanes (addSlot co sl) s.iss s.iss.group) })
  ∧ (∀ (w : NOp) (i : Instr) (f : Word → Word → Word), fKind w = 0 → fTy w ≤ 1 → fOpx w = 0 →
  (i, f) ∈ [(.iadd w, (· + ·)), (.isub w, (· - ·)), (.imul w, (· * ·)), (.and w, (· &&& ·)), (.or w, (· ||| ·)), (.xor w, (· ^^^ ·)),
    (.andn w, fun a b => a &&& ~~~b), (.shl w, fun a b => a <<< b.toNat), (.shr w, fun a b => a >>> b.toNat)] →
    (∀ s r e s1, Pushes s i w (fun l => f (regWord (me s) (fA w) 0 l) (regWord (me s) (fB w) 0 l)) r e s1 →
      exec i s = .next (passedAt s1 s.iss))
    ∧ (∀ s sp r e s1, Pops s i w sp r e s1 → noQueue w = true →
      let co := coachOf s1 s.iss.coach
      let val : Nat → Nat → Word := fun l _ => f (poppedWord co e (fA w) l) (poppedWord co e (fB w) l)
      exec i s = .next (slottedAt s1 s.iss (slotFor s w (slotCost (fD w) 1) (laneWrites (fD w) 1 (enOf s w) val)
        (scalarWrites (fD w) 1 (enOf s w) val) noFlags))))
  ∧ (∀ (s : State) (w : NOp) (i : Instr) (g : Nat → Dword × Flags) (r : Nat) (e : Entry) (s1 : State),
  let rm := roundOf (me s) w
  let z := (me s).fmode.getLsbD 3
  let f := tyFmt (fTy w)
  let a := fun l => fBits (fTy w) (aVal (me s) w false l)
  let b := fun l => fBits (fTy w) (bVal (me s) w false (immValue (fTy w) (fImm w)) l)
  (i, g) ∈ [(.fadd w, fun l => fRes (fAdd f rm z false (a l) (b l))), (.fsub w, fun l => fRes (fAdd f rm z true (a l) (b l))),
    (.fmul w, fun l => fRes (fMul f rm z (a l) (b l)))] →
  Pushes s i w (fun l => loOf (g l).1) r e s1 →
  let co := coachOf s1 s.iss.coach
  let fl := laneFlags (enOf s w) (fun l => (g l).2)
  enabledBits co.fmode fl = 0 → exec i s = .next { s1 with coaches := tput s1.coaches s.iss.coach (passLanes
    { co with fstat := co.fstat ||| BitVec.ofNat 32 (flagWord fl) } s.iss s.iss.group) })
  ∧ (∀ (s : State) (w : NOp) (r : Nat), codeOf (fD w) = .q r →
  let k := s.iss.coach
  let held := fun (t : State) (val : Nat → Word) (sl : Slot) =>
    { sl with push := pushEntry t (coachOf t k) (fD w) (enOf s w) (fun l _ => val l) }
  let quiet := fun (t : State) => shadowPush t (coachOf t k) (fD w) (enOf s w) = false ∧ settled t k = true
  let fun_ := fun (x : FFun) l => fRes (fFun x (tyFmt (fTy w)) (roundOf (me s) w) ((me s).fmode.getLsbD 3)
    (fBits (fTy w) (aVal (me s) w false l)))
  let loaded := fun (t : Tbl (List Byte)) (l : Nat) => loOf (tyOut (mTy w) (leNat (tgetD [] t l) : Nat))
  (∀ i x, (i, x) ∈ [(.frcp w, .rcp), (.frsq w, .rsq), (.fsqrt w, .sqrt), (.fexp2 w, .exp2), (.flog2 w, .log2), (.fsin w, .sin),
      (.fcos w, .cos)] → clear s i = true → quiet s →
      exec i s = .next (slottedAt s s.iss (held s (fun l => loOf (fun_ x l).1)
        (slotFor s w 1 [] [] (laneFlags (enOf s w) (fun l => (fun_ x l).2))))))
  ∧ (∀ rk, clear s (.lds w) = true → tget s.rakes (me s).rake = some rk → tyWide (mTy w) = false →
      let n := tyBits (mTy w) / 8
      let addrs := localOf s w
      let t := orderCoach s k (mOrd w) (mAgt w) (mStg w)
      fits addrs rk.window n = true → addrs.all (fun a => !padBad rk a.2 n) = true → quiet t →
      let got := addrs.map (fun a => (a.1, memRead rk.pad a.2 n))
      exec (.lds w) s = .next (slottedAt t s.iss (held t (loaded got) (slotFor s w 1 [] [] noFlags))))
  ∧ (∀ (x : Found) (s1 : State) (t : Tbl (List Byte)) (s2 : State), clear s (.ld w) = true → tyWide (mTy w) = false →
      let n := tyBits (mTy w) / 8
      let addrs := globalOf s w
      addrs.all (fun a => !inWindow s (me s) a.2) = true → inReach addrs n = true →
      findLanes s k .read addrs Found.none = (x, s1) → x.err = none → x.bad = [] → x.ok ≠ [] →
      readPieces (orderCoach s1 k (mOrd w) (mAgt w) (mStg w)) k n (mCh w == 2) (mCh w == 1) x.ok [] = (.ok t, s2) → quiet s2 →
      exec (.ld w) s = .next (slottedAt s2 s.iss (held s2 (loaded t) (slotFor s w 1 [] [] noFlags)))))
  ∧ (∀ (s : State) (units : List Nat) (region qi : Nat) (r : Region) (q : Queue) (e : Entry),
  tget s.regions region = some r → r.queues[qi]? = some q → q.ovIn = q.ovOut →
  (q.entries.length < q.depth → pushQueue s units region qi e
      = .done { s with regions := tput s.regions region { r with queues := setAt r.queues qi { q with entries := q.entries ++ [e] } } })
  ∧ (q.depth ≤ q.entries.length → q.ovdepth = 0 → pushQueue s units region qi e = .full)
  ∧ (∀ x xs, q.entries = x :: xs → popQueue s units region qi
      = some (x, { s with regions := tput s.regions region { r with queues := setAt r.queues qi { q with entries := xs } } })))

/-! ### Dray instructions (07) -/

/-- 07 R249: d0 reads zero and discards writes; a write of another register is read back and leaves the rest alone. 07
R261-R263: register and immediate arithmetic in 64 bits; ARG reads eight bytes of the launch's slices. Only the named
register and the program counter of the context change. -/
def Obligations.DrayArithmetic : Prop :=
  (∀ (x : Dray) (r q : BitVec 4) (v : Dword),
  dget x 0 = 0 ∧ dset x 0 v = x ∧ (r ≠ 0 → dget (dset x r v) r = v) ∧ (q ≠ r → dget (dset x r v) q = dget x q))
  ∧ (∀ (s : State) (d a b : BitVec 4) (i : BitVec 14), drayReady (dray s) = true →
  let x := dget (dray s) a
  let y := dget (dray s) b
  let to_ := fun (v : Dword) => Host.Outcome.next (drayAfter s (dset (dray s) d v))
  let arg := x.toNat + i.toNat
  let word := fun n => ((dray s).slices[n]?).getD 0
  exec (.drayAdd d a b) s = to_ (x + y) ∧ exec (.draySub d a b) s = to_ (x - y) ∧ exec (.drayMul d a b) s = to_ (x * y)
  ∧ exec (.drayAnd d a b) s = to_ (x &&& y) ∧ exec (.drayOr d a b) s = to_ (x ||| y) ∧ exec (.drayXor d a b) s = to_ (x ^^^ y)
  ∧ exec (.drayShl d a b) s = to_ (x <<< y.toNat) ∧ exec (.drayShr d a b) s = to_ (x >>> y.toNat)
  ∧ exec (.drayMin d a b) s = to_ (if x.toInt ≤ y.toInt then x else y)
  ∧ exec (.drayMax d a b) s = to_ (if y.toInt ≤ x.toInt then x else y)
  ∧ exec (.drayAddi d a i) s = to_ (x + i.signExtend 64) ∧ exec (.drayLi d i) s = to_ (i.signExtend 64)
  ∧ exec (.drayLui d a i) s = to_ (x <<< 14 ||| i.setWidth 64)
  ∧ (arg % 8 = 0 → arg + 8 ≤ 32 * (dray s).nslice →
      exec (.drayArg d a i) s = to_ (word (arg / 4 + 1) ++ word (arg / 4)))
  ∧ (arg % 8 ≠ 0 → exec (.drayArg d a i) s = .next (drayFail s s.dcur 0x04))
  ∧ (arg % 8 = 0 → 32 * (dray s).nslice < arg + 8 → exec (.drayArg d a i) s = .next (drayFail s s.dcur 0x06)))

/-- 07 R258, R265-R268: branches count in words from the next one; LOOP decrements its register; a jump links its return
address. HALT stops the context. 07 R268, R290, R253: what stopping a context leaves in it, whatever it brings about
elsewhere: the state and the fault code; the timeline one further; nothing in progress; its registers, program counter,
generators, options and bits as they were. 07 R254, R290: an illegal word, and every check that fails, faults the context
with its code; while a data operation is in progress the instruction has not issued, and waits for its end. 07 R281: so do
the instructions that access memory, a generator, an option or another agent. The choices of the model that it rests on:
log 56. -/
def Obligations.DrayControl : Prop :=
  (∀ (s : State) (l a b : BitVec 4) (i : BitVec 14), drayReady (dray s) = true →
  let d := dray s
  let x := dget d a
  let y := dget d b
  let to_ := d.pc + 4 + i.signExtend 57 * 4
  let branch := fun (t : Bool) => Host.Outcome.next (drayBecomes s { d with pc := if t then to_ else d.pc + 4 })
  exec (.drayBeq a b i) s = branch (x == y) ∧ exec (.drayBne a b i) s = branch (x != y)
  ∧ exec (.drayBlt a b i) s = branch (decide (x.toInt < y.toInt))
  ∧ exec (.drayBge a b i) s = branch (decide (y.toInt ≤ x.toInt))
  ∧ exec (.drayJmp i) s = .next (drayBecomes s { d with pc := to_ })
  ∧ exec (.drayJmpLink l i) s = .next (drayBecomes s { dset d l ((d.pc + 4).setWidth 64) with pc := to_ })
  ∧ (x.toNat < 2 ^ 57 → exec (.drayJmpIndirect l a) s
      = .next (drayBecomes s { dset d l ((d.pc + 4).setWidth 64) with pc := x.setWidth 57 }))
  ∧ (2 ^ 57 ≤ x.toNat → exec (.drayJmpIndirect l a) s = .next (drayFail s s.dcur 0x05))
  ∧ (a ≠ 0 → exec (.drayLoop a i) s
      = .next (drayBecomes s { dset d a (x - 1) with pc := if x - 1 = 0 then d.pc + 4 else to_ }))
  ∧ (a = 0 → exec (.drayLoop a i) s = .next (drayFail s s.dcur 0x01))
  ∧ (d.data = none → exec .drayHalt s = .next (stopDray (drayBecomes s
      { d with bits := d.bits ||| (match d.promise with
          | some c => if c < drayCycles s s.dcur then 0x80000#20 else 0
          | none => 0) }) s.dcur 4 0)))
  ∧ ((∀ (s : State) (dk st code : Nat), (∀ e ∈ s.drays, e.1 = dk → e.2.tlw = none) →
  let d := drayOf (stopDray s dk st code) dk
  d.state = st ∧ d.fcode = code ∧ d.timeline = (drayOf s dk).timeline + 1 ∧ d.data = none ∧ d.load = none ∧ d.parked = none
  ∧ d.word = none ∧ d.tlw = none
  ∧ d.regs = (drayOf s dk).regs ∧ d.pc = (drayOf s dk).pc ∧ d.gens = (drayOf s dk).gens ∧ d.opts = (drayOf s dk).opts
  ∧ d.bits = (drayOf s dk).bits)
  ∧ (∀ (s : State) (dk code : Nat),
  ((drayOf s dk).data = none → drayFail s dk code = stopDray s dk 5 code)
  ∧ ((drayOf s dk).data ≠ none → drayFail s dk code = setDray s dk { drayOf s dk with drain := true }))
  ∧ (∀ (s : State) (i : Instr) (a b : BitVec 4) (z : BitVec 2) (p m : BitVec 1) (o : BitVec 11) (g x : BitVec 2) (o3 : BitVec 13)
      (k8 : BitVec 8) (c10 : BitVec 10) (sc f3 : BitVec 3) (c6 : BitVec 6), drayReady (dray s) = true → (dray s).data ≠ none →
    i ∈ [.drayLdw a b z p o, .drayStw a b z p o, .drayHalt, .drayGset g a p o3, .drayGadv g a p, .drayOpt a p m k8,
      .drayXfer g x a f3 b p c6, .drayGather g x a z, .drayScatter g x a z, .drayFill g a b z, .drayArrive a c10 b,
      .draySignal a z sc, .drayTlw a b z sc, .drayDfence z sc f3] →
    exec i s = .next (setDray s s.dcur { dray s with drain := true }))
  ∧ (∀ (s : State) (w : BitVec 32), drayReady (dray s) = true →
  ((dray s).data = none → exec (.drayIllegal w) s = .next (stopDray s s.dcur 5 0x01))
  ∧ ((dray s).data ≠ none → exec (.drayIllegal w) s = .next (setDray s s.dcur { dray s with drain := true }))))

/-- 07 R264: LDW reads 4 or 8 bytes at an aligned address of its space, and the register receives them in a later step;
STW writes the low bytes of its register. 07 R264, R272: the value of LDW, or the generator of GSET, arrives, and the
context can issue again. 07 R272, R273, R282, R283: descriptors, positions and options of generators. The choices of the
model that it rests on: log 57. -/
def Obligations.DrayMemory : Prop :=
  (∀ (s : State) (d a : BitVec 4) (z : BitVec 2) (p : BitVec 1) (o : BitVec 11),
  drayClear s = true →
  let n := if z = 1 then 8 else 4
  let at_ := ((dget (dray s) a).toNat + 4 * o.toNat) % 2 ^ 64
  let value := fun (bs : List Byte) => if z = 2 then (BitVec.ofNat 32 (leNat bs)).signExtend 64 else BitVec.ofNat 64 (leNat bs)
  (∀ bs s1, z ≠ 3 → at_ % n = 0 → drayBeyond s (dray s) p.toNat at_ n = false → drayRead s s.dcur p.toNat at_ n = .ok bs s1 →
    exec (.drayLdw d a z p o) s = .next (setDray s1 s.dcur
      { drayOf s1 s.dcur with pc := (drayOf s1 s.dcur).pc + 4, load := some (d.toNat, value bs) }))
  ∧ (z ≠ 3 → at_ % n ≠ 0 → exec (.drayLdw d a z p o) s = .next (drayFault s s.dcur 0x04))
  ∧ (z ≠ 3 → at_ % n = 0 → drayBeyond s (dray s) p.toNat at_ n = true →
      exec (.drayLdw d a z p o) s = .next (drayFault s s.dcur 0x05))
  ∧ (z = 3 → exec (.drayLdw d a z p o) s = .next (drayFault s s.dcur 0x01))
  ∧ (∀ t s1, z.toNat < 2 → at_ % n = 0 → drayBeyond s (dray s) p.toNat at_ n = false →
      drayTarget s s.dcur p.toNat at_ n = .ok t s1 →
      let s2 := drayWrite s1 s.dcur t (leBytes n (dget (dray s) d).toNat)
      exec (.drayStw d a z p o) s = .next (setDray s2 s.dcur { drayOf s2 s.dcur with pc := (drayOf s2 s.dcur).pc + 4 }))
  ∧ (z.toNat < 2 → at_ % n = 0 → drayBeyond s (dray s) p.toNat at_ n = true →
      exec (.drayStw d a z p o) s = .next (drayFault s s.dcur 0x05))
  ∧ (2 ≤ z.toNat → exec (.drayStw d a z p o) s = .next (drayFault s s.dcur 0x01))
  ∧ (z.toNat < 2 → at_ % n ≠ 0 → exec (.drayStw d a z p o) s = .next (drayFault s s.dcur 0x04)))
  ∧ (∀ (s : State) (dk : Nat),
  let d := drayOf s dk
  (∀ r v, d.load = some (r, v) → d.loadGen = none →
    exec (.drayLoadResult dk) s = .next (setDray s dk { dset d (BitVec.ofNat 4 r) v with load := none }))
  ∧ (∀ n g, d.load = none → d.loadGen = some (n, g) →
    exec (.drayLoadResult dk) s = .next (setDray s dk { d with gens := tput d.gens n g, loadGen := none })))
  ∧ (∀ (s : State) (n : BitVec 2) (a : BitVec 4) (r c m : BitVec 1) (o : BitVec 13) (k : BitVec 8),
  drayClear s = true →
  let d := dray s
  let x := dget d a
  let at_ := (x.toNat + 64 * o.toNat) % 2 ^ 64
  (∀ bs g s1, at_ % 64 = 0 → drayBeyond s d r.toNat at_ 64 = false → drayRead s s.dcur r.toNat at_ 64 = .ok bs s1 →
    genOfBytes bs = some g → exec (.drayGset n a r o) s = .next (setDray s1 s.dcur
      { drayOf s1 s.dcur with pc := (drayOf s1 s.dcur).pc + 4, loadGen := some (n.toNat, g) }))
  ∧ (at_ % 64 ≠ 0 → exec (.drayGset n a r o) s = .next (drayFault s s.dcur 0x04))
  ∧ (at_ % 64 = 0 → drayBeyond s d r.toNat at_ 64 = true → exec (.drayGset n a r o) s = .next (drayFault s s.dcur 0x05))
  ∧ (∀ bs s1, at_ % 64 = 0 → drayBeyond s d r.toNat at_ 64 = false → drayRead s s.dcur r.toNat at_ 64 = .ok bs s1 →
    genOfBytes bs = none → exec (.drayGset n a r o) s = .next (drayFail s1 s.dcur 0x02))
  ∧ (r = 1 → a ≠ 0 → exec (.drayGadv n a r) s = .next (drayFault s s.dcur 0x01))
  ∧ (∀ g, genOf d n.toNat = some g → r = 0 → exec (.drayGadv n a r) s = .next (drayAfter s
      { d with gens := tput d.gens n.toNat { g with pos := min (g.pos + x.toNat) g.length } }))
  ∧ (∀ g, genOf d n.toNat = some g → r = 1 → a = 0 → exec (.drayGadv n a r) s = .next (drayAfter s
      { d with gens := tput d.gens n.toNat { g with pos := 0 } }))
  ∧ (genOf d n.toNat = none → r = 0 ∨ a = 0 → exec (.drayGadv n a r) s = .next (drayFault s s.dcur 0x02))
  ∧ (k.toNat ≤ 6 → c = 0 → optOk k.toNat x.toNat = true → exec (.drayOpt a c m k) s = .next (drayAfter s
      { d with opts := tput d.opts k.toNat x
               optM := if m = 1 then d.optM ||| 1#7 <<< k.toNat else d.optM &&& ~~~(1#7 <<< k.toNat) }))
  ∧ (k.toNat ≤ 6 → c = 1 → a = 0 → exec (.drayOpt a c m k) s = .next (drayAfter s
      { d with opts := tdel d.opts k.toNat, optM := d.optM &&& ~~~(1#7 <<< k.toNat) }))
  ∧ (k.toNat ≤ 6 → c = 0 → optOk k.toNat x.toNat = false → exec (.drayOpt a c m k) s = .next (drayFault s s.dcur 0x09))
  ∧ (c = 1 → a ≠ 0 → exec (.drayOpt a c m k) s = .next (drayFault s s.dcur 0x01))
  ∧ (7 ≤ k.toNat → c = 0 ∨ a = 0 → m = 1 → exec (.drayOpt a c m k) s = .next (drayFault s s.dcur 0x07))
  ∧ (7 ≤ k.toNat → c = 0 ∨ a = 0 → m = 0 → exec (.drayOpt a c m k) s = .next (drayAfter s { d with bits := d.bits ||| 0x10000 })))

/-- 07 R284-R287: barriers, timelines and fences. The choices of the model that it
rests on: log 77. -/
def Obligations.DraySynchronization : Prop := ∀ (s : State) (a h : BitVec 4) (c : BitVec 10) (k : BitVec 4) (sg : BitVec 2)
    (g o : BitVec 3), drayClear s = true →
  let x := dray s
  let y := { x with pc := x.pc + 4 }
  let n := (dget x a).toNat + c.toNat
  let b := barrierOf s x.rake k.toNat
  let inScope := drayScope sg g
  (n = 0 → exec (.drayArrive a c k) s = .next (drayBecomes s y))
  ∧ (0 < n → n < 2 ^ 24 → b.armed = true → b.inv = false →
      exec (.drayArrive a c k) s = .next (arrive (drayBecomes s y) x.rake k.toNat n).2)
  ∧ (0 < n → n < 2 ^ 24 → b.armed = false ∨ b.inv = true →
      exec (.drayArrive a c k) s = .next (drayBecomes s { y with bits := x.bits ||| 0x20000 }))
  ∧ (2 ^ 24 ≤ n → exec (.drayArrive a c k) s = .next (drayFault s s.dcur 0x01))
  ∧ (inScope = true → (dget x a).toNat < 2 ^ 32 →
      let t := x.t0 + dget x a
      exec (.draySignal a sg g) s = .next (timelineMoved (setDray (if sg = 1 then s else drayRelease s s.dcur g.toNat) s.dcur
        { y with timeline := if x.timeline.toNat < t.toNat then t else x.timeline }) s.dcur))
  ∧ (inScope = false ∨ 2 ^ 32 ≤ (dget x a).toNat → exec (.draySignal a sg g) s = .next (drayFault s s.dcur 0x01))
  ∧ (∀ t, inScope = true → checkHandle s (drayCtx x) (loOf (dget x h)) = some t →
      timelineMet s t (loOf (dget x h)) (dget x a) = true →
      exec (.drayTlw h a sg g) s = .next (setDray (if sg = 1 then s else drayAcquire s s.dcur g.toNat) s.dcur y))
  ∧ (∀ t, inScope = true → checkHandle s (drayCtx x) (loOf (dget x h)) = some t → t ≠ s.dcur →
      timelineMet s t (loOf (dget x h)) (dget x a) = false →
      exec (.drayTlw h a sg g) s = .next (drayBecomes s { x with state := 3, tlw := some (loOf (dget x h), dget x a, g.toNat, sg.toNat) }))
  ∧ (inScope = true → checkHandle s (drayCtx x) (loOf (dget x h)) = some s.dcur →
      timelineMet s s.dcur (loOf (dget x h)) (dget x a) = false → exec (.drayTlw h a sg g) s = .next (drayFault s s.dcur 0x0D))
  ∧ (inScope = false → exec (.drayTlw h a sg g) s = .next (drayFault s s.dcur 0x01))
  ∧ (inScope = true → checkHandle s (drayCtx x) (loOf (dget x h)) = none →
      exec (.drayTlw h a sg g) s = .next (drayFault s s.dcur 0x0D))
  ∧ (inScope = true → o ≠ 0 → o.toNat ≤ 4 →
      let s1 := if sg ≠ 1 ∧ 2 ≤ o.toNat then drayRelease s s.dcur g.toNat else s
      let s2 := if sg ≠ 1 ∧ o ≠ 2 then drayAcquire s1 s.dcur g.toNat else s1
      exec (.drayDfence sg g o) s = .next (setDray s2 s.dcur y))
  ∧ (inScope = false ∨ o = 0 ∨ 4 < o.toNat → exec (.drayDfence sg g o) s = .next (drayFault s s.dcur 0x01))

/-- 07 R253, R288, R289, 05 R199: the promise, the numbers that STAT reads, and the end of the wait for a promise. The
choices of the model that it rests on: log 4. -/
def Obligations.DrayPromises : Prop := ∀ (s : State) (d a sel : BitVec 4) (i : BitVec 14), drayReady (dray s) = true →
  let x := dray s
  let sum := (dget x a).toNat + i.toNat
  let c := min sum (2 ^ 32 - 1)
  let y := { x with pc := x.pc + 4, bits := if x.promised then x.bits ||| 0x40000 else x.bits, promise := some c, promised := true }
  let to_ := fun (v : Dword) => exec (.drayStat d sel) s = .next (drayAfter s (dset x d v))
  (∀ la, launchOf s (x.rake, x.launch) = some la → la.promise = none → x.promised = false → drayCycles s s.dcur < 256 →
      exec (.drayPromise a i) s = .next (deliverPromise (drayBecomes s y) x.rake x.launch (some c)))
  ∧ (x.promised = true ∨ 256 ≤ drayCycles s s.dcur → exec (.drayPromise a i) s = .next (drayBecomes s y))
  ∧ (sel = 0 → to_ x.timeline) ∧ (sel = 1 → to_ (x.status.setWidth 64)) ∧ (sel = 2 → to_ (BitVec.ofNat 64 x.rem))
  ∧ (sel = 3 → to_ ((drayHandle s.dcur x.gen).setWidth 64)) ∧ (sel = 4 → to_ (BitVec.ofNat 64 x.nslice))
  ∧ (sel = 5 → to_ (BitVec.ofNat 64 x.optWord)) ∧ (sel = 6 → to_ (BitVec.ofNat 64 (drayCycles s s.dcur))) ∧ (sel = 7 → to_ x.t0)
  ∧ (8 ≤ sel.toNat → exec (.drayStat d sel) s = .next (drayFail s s.dcur 0x01))
  ∧ (∀ dk la, launchOf s ((drayOf s dk).rake, (drayOf s dk).launch) = some la → la.promise = none → la.started = true →
      (drayOf s dk).done = false → la.dray = some (dk, (drayOf s dk).gen) →
      (drayOf s dk).start + 256 ≤ cycleOf s (drayClock dk) →
      exec (.promiseTimeout dk) s = .next (deliverPromise s (drayOf s dk).rake (drayOf s dk).launch none))

/-- 07 R271, R274, R279, R280: a data operation that passes its checks is in progress, with the count of its register to
move; a count of zero is complete at once. 07 R274-R278: XFER under every conversion code, sealed or not: the first of its
checks that fails gives its fault. 07 R275-R277: the unit sizes of the codes, the types of codes 0x01 to 0x0E, and the
elements that codes 0x13 to 0x18 unpack. 07 R271: a unit of a data operation moves its bytes, its generators and the
count that remains; nothing remains: the operation is complete. 07 R278: a sealed transfer opens a block with the content
key first: no key is KEY, and a tag that does not agree is TAG. 07 R270, R271: the bytes that a generator's stream gives
are cut into pieces that add up to what was asked, none empty and none across a 64-byte line. The choices of the model
that it rests on: logs 56 and 57. -/
def Obligations.DrayData : Prop :=
  (∀ (s : State) (d t x : BitVec 2) (v n : BitVec 4) (m : BitVec 3) (p : BitVec 2),
  drayClear s = true →
  let y := dray s
  let cnt := (dget y n).toNat
  let goes := fun (op : DataOp) => if cnt = 0 then drayAfter s y
    else drayAfter s { y with data := some op, rem := cnt, dataAt := (y.pc, y.regs) }
  let has := fun (g : BitVec 2) => (genOf y g.toNat).isSome
  (∀ (f : BitVec 4) (u : BitVec 1) (c : BitVec 6),
    let cv := c.toNat
    let i : Instr := .drayXfer d t n m f u c
    let faults := fun (code : Nat) => exec i s = .next (drayFault s s.dcur code)
    let legal := d ≠ t ∧ m.toNat ≤ 4 ∧ cv ≤ 0x1E ∧ ((0x0F ≤ cv ∧ cv ≤ 0x12) ∨ 0x19 ≤ cv ∨ f = 0)
    let lines := decide (0x13 ≤ cv)
    let unpacks := decide (0x13 ≤ cv ∧ cv ≤ 0x18)
    let set := fun (j : Nat) => (tget y.opts j).isSome
    let options := (lines = true → set 0 = true ∧ set 1 = true)
      ∧ (u = 1 → set 3 = true ∧ set 4 = true ∧ set 5 = true ∧ set 6 = true)
    (¬ legal → faults 0x01)
    ∧ (legal → has d = false ∨ has t = false → faults 0x02)
    ∧ (∀ gd gs, legal → genOf y d.toNat = some gd → genOf y t.toNat = some gs →
        let whole := cnt % (cvtSize cv).1 = 0 ∧ (unpacks = true → describedOk gs cnt = true)
          ∧ (lines = true → unpacks = false → describedOk gd (cnt / (cvtSize cv).1 * (cvtSize cv).2) = true)
          ∧ (u = 1 → sealedOk gs (optVal y 4) cnt = true)
        (u = 1 → gs.space ≠ 0 → faults 0x02)
        ∧ (u = 0 ∨ gs.space = 0 → ¬ options → faults 0x08)
        ∧ (u = 0 ∨ gs.space = 0 → options → ¬ whole → faults 0x04)
        ∧ (u = 1 → gs.space = 0 → options → whole → cnt ≠ 0 → contentKey s y = none → faults 0x0B)
        ∧ (u = 0 ∨ gs.space = 0 → options → whole → u = 0 ∨ cnt = 0 ∨ contentKey s y ≠ none →
            exec i s = .next (goes (.xfer d.toNat t.toNat m.toNat f.toNat (u == 1) cv)))))
  ∧ (∀ g, t ≠ x → t ≠ d → x ≠ d → has d = true → has x = true → genOf y t.toNat = some g → g.dims = 2 →
      exec (.drayGather d x n t) s = .next (goes (.gather d.toNat x.toNat t.toNat))
      ∧ exec (.drayScatter t x n d) s = .next (goes (.scatter t.toNat x.toNat d.toNat)))
  ∧ (t ≠ x → t ≠ d → x ≠ d → has t = false → exec (.drayGather d x n t) s = .next (drayFault s s.dcur 0x02)
      ∧ exec (.drayScatter t x n d) s = .next (drayFault s s.dcur 0x02))
  ∧ (has d = true → cnt % 2 ^ p.toNat = 0 → exec (.drayFill d v n p) s = .next (goes (.fill d.toNat (dget y v) p.toNat)))
  ∧ (has d = true → cnt % 2 ^ p.toNat ≠ 0 → exec (.drayFill d v n p) s = .next (drayFault s s.dcur 0x04)))
  ∧ ((∀ (s : State) (dk dn xn tn p : Nat) (pat : Dword) (u : DUnit) (s1 : State),
  let d := drayOf s dk
  let ends := fun (t : State) => clearRevoked (endData (clearCovered t none (putRanges u.puts)) dk)
  d.parked = none → d.done = false → drayHeld s d = false →
  let whole := fun (gs : List Nat) => (drayOf (applyUnit s1 dk u) dk).ahead = [] ∧ ((drayOf (applyUnit s1 dk u) dk).rem = 0
    ∨ ∀ g ∈ gs, wordEdge (drayOf (applyUnit s1 dk u) dk) g = true)
  (d.data = some (.gather dn xn tn) → d.rem ≠ 0 → gatherUnit s dk dn xn tn = .ok u s1 → whole [dn, xn] →
      exec (.drayDataUnit dk) s = .next (ends (applyUnit s1 dk u)))
  ∧ (d.data = some (.scatter tn xn dn) → d.rem ≠ 0 → scatterUnit s dk tn xn dn = .ok u s1 → whole [dn, xn] →
      exec (.drayDataUnit dk) s = .next (ends (applyUnit s1 dk u)))
  ∧ (d.data = some (.fill dn pat p) → p ≤ 3 → d.rem ≠ 0 → fillUnit s dk dn p pat = .ok u s1 →
      (drayOf (applyUnit s1 dk u) dk).rem = 0 → whole [] → exec (.drayDataUnit dk) s = .next (ends (applyUnit s1 dk u)))
  ∧ (∀ rm fi cv, d.data = some (.xfer dn xn rm fi false cv) → d.rem ≠ 0 → xferUnit s dk dn xn rm fi cv none = .ok u s1 →
      (drayOf (applyUnit s1 dk u) dk).rem = 0 → whole [] → exec (.drayDataUnit dk) s = .next (ends (applyUnit s1 dk u)))
  ∧ (∀ rm fi cv, d.data = some (.xfer dn xn rm fi true cv) → d.ahead = [] →
      (∀ gs, genOf d xn = some gs → contentKey s d = none → exec (.drayDataUnit dk) s = .next (clearRevoked (drayFault s dk 0x0B)))
      ∧ (∀ gs key cipher tag s2 s3, genOf d xn = some gs → contentKey s d = some key → gs.pos < gs.length →
          let base := optVal d 4
          let at_ := gs.logical gs.pos
          let j := (at_ - base) / 4096
          base ≤ at_ → drayReadAll dk 0 ((List.range 64).map (fun i => (base + 4096 * j + 64 * i, 64))) [] s = .ok cipher s2 →
          drayRead s2 dk 0 (optVal d 6 + 16 * j) 16 = .ok tag s3 →
          gcmOpen key ((leBytes 8 (optVal d 5) ++ leBytes 4 j).map BitVec.toNat) [] (toNats cipher) (toNats tag) = none →
          exec (.drayDataUnit dk) s = .next (clearRevoked (drayFault s3 dk 0x0C)))))
  ∧ ((List.range 0x1F).map cvtSize = [(1, 1), (4, 2), (4, 2), (2, 4), (2, 4), (2, 2), (2, 2), (1, 4), (1, 4), (2, 4), (2, 4), (4, 1),
      (4, 2), (4, 4), (4, 4), (1, 4), (4, 1), (1, 8), (8, 1), (64, 256), (64, 128), (64, 128), (64, 512), (64, 256), (64, 256),
      (256, 64), (128, 64), (128, 64), (512, 64), (256, 64), (256, 64)]
    ∧ (∀ e ∈ [(0x01, 8, 12), (0x02, 8, 11), (0x03, 12, 8), (0x04, 11, 8), (0x05, 11, 12), (0x06, 12, 11), (0x07, 6, 0), (0x08, 7, 1),
        (0x09, 4, 0), (0x0A, 5, 1), (0x0B, 0, 6), (0x0C, 0, 4), (0x0D, 0, 8), (0x0E, 8, 0)], ∀ rm f bs,
        cvtPlain e.1 rm f bs = .ok (leBytes (cvtSize e.1).2 (convert e.2.1 e.2.2 rm false (BitVec.ofNat 64 (leNat bs))).1.toNat,
          (convert e.2.1 e.2.2 rm false (BitVec.ofNat 64 (leNat bs))).2))
    ∧ (∀ e ∈ [(0x13, 8, false), (0x14, 12, false), (0x15, 11, false), (0x16, 8, true), (0x17, 12, true), (0x18, 11, true)],
        ∀ fmts rm d line, (cvtUnpack fmts e.1 rm d line).1 = (List.range (if e.2.2 then 128 else 64)).flatMap (fun i =>
          leBytes (tyBits e.2.1 / 8) ((tyFmt e.2.1).round rm false (describedValue fmts e.2.2 line i d)).1)))
  ∧ (∀ (g : Gen) (j n : Nat), 1 ≤ g.len0 → g.space = 0 →
  ((g.pieces n j n).map (fun p => p.2)).sum = n ∧ ∀ p ∈ g.pieces n j n, 0 < p.2 ∧ p.1 % 64 + p.2 ≤ 64))

/-- 05 R198, 07 R251, R260: a launch takes the lowest free context of its dray, which starts at the launch's code with
its slices, its timeline at the next multiple of 2^32, and nothing of the launch before. The choices of the model that
it rests on: logs 4 and 5. -/
def Obligations.DrayLaunch : Prop := ∀ (s : State) (rake launch lead : Nat) (r : Rake) (la : Launch) (rg : Region) (cl dk : Nat)
    (ks : List Nat) (code : Dword) (dn : Nat) (any : Bool),
  tget s.rakes rake = some r → tget r.launches launch = some la → tget s.regions r.region = some rg → r.cluster = some cl →
  la.started = false → la.finished = false → la.cancelled = false → launchFormed s r rg.coaches la = true →
  tkeys la.slices = lead :: ks → tget la.codes lead = some (code, dn, any) → chooseDray s cl dn any = some dk →
  let old := drayOf s dk
  let t0 : Dword := BitVec.ofNat 64 ((old.timeline.toNat / 2 ^ 32 + 1) * 2 ^ 32)
  let x : Dray := { Dray.none with pc := code.setWidth 57, state := 1, timeline := t0, t0 := t0, nslice := rg.coaches, gen := old.gen + 1
                                   slices := (List.range rg.coaches).flatMap (fun i => tgetD (List.replicate 8 0) la.slices i)
                                   rake := rake, launch := launch, ctx := some rg.ctx, zone := tgetD 0 la.zones lead
                                   start := cycleOf s (drayClock dk) }
  exec (.drayContextStart rake launch) s = .next (drayAcquire (setDray (modRake s rake (fun r => { r with
    launches := tput r.launches launch { la with dray := some (dk, old.gen + 1), started := true
                                                 start := startCounters s r launch cl } })) dk x) dk 4)

/-! ### Control flow (05 R153-R166) -/

/-- 05 R153, R154, 02 R45, 08 R307: branches move the enabled lanes to the target, and the others past the operation; a
target with any of bits 63:57 set is BOUNDS in the lanes that hold it. NOP does nothing but pass. 05 R154, 01 R30: a
branch counts in every lane of its group; an enabled lane stands at step 0 of the target, and another at the
successor; a lane outside the group stands where it stood. 05 R155-R157: a call pushes its return address on each
enabled lane's stack, and RET pops it. With nothing on the stack and nothing in memory RET is ILLEGAL RSTACK, and no
lane moves; a call whose stack is full and whose private memory is used up is BOUNDS. -/
def Obligations.Branches : Prop :=
  ((∀ (s : State) (w : NOp),
  let imm : BitVec 32 := BitVec.ofNat 32 (fImm w)
  let near : GAddr := if s.iss.gunit = 0 then s.iss.ga + 8 + 8 * imm.signExtend 57
    else s.iss.ga + imm.signExtend 57 * BitVec.ofNat 57 s.iss.gunit
  let a := fun l => aVal (me s) w true l
  let bad := maskOf (fun l => (enOf s w).getLsbD l && decide (2 ^ 57 ≤ (a l).toNat))
  (clear s (.nop w) = true → exec (.nop w) s = .next (passed s))
  ∧ (clear s (.bra w) = true → exec (.bra w) s = .next (branched s w (me s) (fun _ => near)))
  ∧ (clear s (.brx w) = true → bad = 0 → exec (.brx w) s = .next (branched s w (me s) (fun l => (a l).setWidth 57)))
  ∧ (∀ sp, clear s (.brx w) = true → nativeRow s (.brx w) = some (w, sp) → bad ≠ 0 → exec (.brx w) s
      = .next (accessTrap (opCtx s w sp) s 7 bad 1 ((lanesOf (enOf s w)).map (fun l => (l, (a l).toNat))))))
  ∧ (∀ (s : State) (w : NOp) (co : Coach) (target : Nat → GAddr) (l : Nat) (x : Lane),
  co.lanes[l]? = some x → l < 64 → enOf s w &&& ~~~s.iss.group = 0 →
  ∃ co' y, branched s w co target = { s with coaches := tput s.coaches s.iss.coach co' } ∧ co'.lanes[l]? = some y
    ∧ ((enOf s w).getLsbD l = true → y.ga = target l ∧ y.step = 0 ∧ y.icnt = x.icnt + 1)
    ∧ (s.iss.group.getLsbD l = true → (enOf s w).getLsbD l = false → s.iss.count ≤ s.iss.step + 1 →
        y.ga = s.iss.ga + BitVec.ofNat 57 s.iss.len ∧ y.step = 0 ∧ y.icnt = x.icnt + 1)
    ∧ (s.iss.group.getLsbD l = false → y = x)))
  ∧ (∀ (s : State) (w : NOp),
  let imm : BitVec 32 := BitVec.ofNat 32 (fImm w)
  let near : GAddr := if s.iss.gunit = 0 then s.iss.ga + 8 + 8 * imm.signExtend 57
    else s.iss.ga + imm.signExtend 57 * BitVec.ofNat 57 s.iss.gunit
  let a := fun l => aVal (me s) w true l
  let far := (lanesOf (enOf s w)).all (fun l => decide ((a l).toNat < 2 ^ 57))
  let room := (lanesOf (enOf s w)).all (fun l => decide ((laneOf (me s) l).held.length < 8))
  let ret := s.iss.ga + BitVec.ofNat 57 s.iss.len
  let pushed := modLanes (me s) (enOf s w) (fun _ x => { x with held := ret :: x.held })
  let holds := (lanesOf (enOf s w)).all (fun l => !(laneOf (me s) l).held.isEmpty)
  let popped := modLanes (me s) (enOf s w) (fun _ x => { x with held := x.held.drop 1 })
  let full := maskOf (fun l => (enOf s w).getLsbD l && decide ((laneOf (me s) l).held.length = 8 ∧ (laneOf (me s) l).sp < 8))
  let none_ := maskOf (fun l => (enOf s w).getLsbD l && (laneOf (me s) l).held.isEmpty
    && (laneOf (me s) l).sp == privSize s (me s))
  (clear s (.call w) = true → room = true → exec (.call w) s = .next (branched s w pushed (fun _ => near)))
  ∧ (clear s (.callx w) = true → room = true → far = true →
      exec (.callx w) s = .next (branched s w pushed (fun l => (a l).setWidth 57)))
  ∧ (clear s (.ret w) = true → holds = true →
      exec (.ret w) s = .next (branched s w popped (fun l => ((laneOf (me s) l).held.head?).getD 0)))
  ∧ (clear s (.ret w) = true → none_ ≠ 0 → exec (.ret w) s = .next (raiseTrap s s.iss.coach
      (opTrap s.iss 1 15 none_ (enOf s w) [(64, 1, 0xFF)])))
  ∧ (∀ sp, clear s (.call w) = true → nativeRow s (.call w) = some (w, sp) → full ≠ 0 → exec (.call w) s
      = .next (accessTrap (opCtx s w sp) s 7 full 0xFF ((lanesOf full).map (fun l =>
          (l, wrapNat 64 (((laneOf (me s) l).sp : Int) - 8)))))))

/-- 05 R158-R166: JOIN of an empty mask passes, and frees the lanes that join there; SLEEP 0 passes; JOIN else waits for
the lanes that its mask names; SLEEP waits until a cycle, and SLEEP.BAR until a cycle or a phase; EXIT ends its lanes;
YIELD passes and lets the next coach issue. The order that YIELD brings about, and the moment at which a ready wait
ends, are the model's (log 1). The choices of the model that it rests on: logs 1, 50 and 74. -/
def Obligations.Waiting : Prop := ∀ (s : State) (w : NOp), isDet s (me s) = false →
  let others := passLanes (me s) s.iss (s.iss.group &&& ~~~(enOf s w))
  let put := fun (co : Coach) => { s with coaches := tput s.coaches s.iss.coach co }
  let now := cycleOf s (coreOf (me s))
  let x := fX w
  (clear s (.join w) = true → mget (me s) (x % 16) = 0 → exec (.join w) s = .next (put (passLanes
      (evalJoins (me s) (fun p => p.1 == s.iss.ga && p.2.1 == s.iss.step)) s.iss s.iss.group)))
  ∧ (clear s (.join w) = true → mget (me s) (x % 16) ≠ 0 →
      let co := evalJoins (modLanes others (enOf s w) (fun _ y => { y.count with
        state := .joining, wait := .join (x % 16), word := s.iss.word, nga := s.iss.next.1, nstep := s.iss.next.2 }))
        (fun p => p.1 == s.iss.ga && p.2.1 == s.iss.step)
      joinDeadlock co = false → exec (.join w) s = .next (put co))
  ∧ (clear s (.sleep w) = true → fImm w = 0 → exec (.sleep w) s = .next (passed s))
  ∧ (clear s (.sleep w) = true → fImm w ≠ 0 →
      exec (.sleep w) s = .next (put (sleepLanes others s.iss (enOf s w) (fun _ => .cycles (now + fImm w)))))
  ∧ (∀ l0, clear s (.sleepBar w) = true → lowLane (enOf s w) = some l0 → exec (.sleepBar w) s = .next (wakeReady
      (put (sleepLanes others s.iss (enOf s w) (fun _ => .sleepBar (aVal (me s) w true l0) (x.testBit 4) (x % 16)
        ((bVal (me s) w false 0 l0).setWidth 24) (x.testBit 5)))) s.iss.coach))
  ∧ (clear s (.exit w) = true → exec (.exit w) s = .next (exitLanes
      (put (modLanes others (enOf s w) (fun _ y => y.count))) s.iss.coach (enOf s w)))
  ∧ (∀ core p j, clear s (.yield w) = true → (me s).place = some (core, p, j) →
      exec (.yield w) s = .next { passed s with
        sched := .issueSelect (core * 4 + p) :: s.sched, lastPlace := tput s.lastPlace (core * 4 + p) j })

/-! ### Memory (05 R167-R186, 09) -/

/-- Model: the byte memory reads back what is written, leaves every other byte alone, and keeps its canonical form, so that
equal memories are equal data (log 3). -/
def Obligations.ByteMemory : Prop := ∀ (m : List Host.Cell) (a : Nat) (bs : List Byte),
  (Memory.wf m → Memory.wf (memWrite m a bs)) ∧ memRead (memWrite m a bs) a bs.length = bs
  ∧ (∀ x, x < a ∨ a + bs.length ≤ x → memGet (memWrite m a bs) x = memGet m x) ∧ Memory.wf State.reset.mem

/-- Model: whatever a step does, physical memory and the scratchpad window of every rake keep their canonical form: addresses
strictly rising, and no byte listed that an unlisted address reads as (log 3). 01 R37, 09 R334: they are the byte memories
of the machine. -/
def Obligations.CanonicalMemories : Prop := ∀ (s t : State),
  Memory.wf s.mem → (∀ e ∈ s.rakes, Memory.wf e.2.pad) → step s = .next t →
  Memory.wf t.mem ∧ ∀ e ∈ t.rakes, Memory.wf e.2.pad

/-- 09 R335, R338: a write at the home of DRAM, none of whose lines has an error that nothing has met, stores its bytes
there and nowhere else in DRAM; an L1 keeps what it holds, and the room that the line takes in L2 may put a window line
back (R333). 09 R336: a write within one line that
its L1 holds for the context is seen by the readers of that L1, and by no other; every other byte that they see, and all
of memory, stand. 09 R336: writing a line back stores exactly its dirty bytes in DRAM. The choices of the model that it
rests on: logs 3, 8 and 17. -/
def Obligations.StoredBytes : Prop :=
  (∀ (s : State) (p : Path) (a : Nat) (bs : List Byte),
  p.unit = none → a + bs.length ≤ 0xC000000000 → (∀ l, a / 64 ≤ l → l * 64 < a + bs.length → tget s.softErrors l = none) →
  let t := (writePath s p a bs).2
  (∀ x, x < 0x80000000000 →
    memGet t.mem x = if a ≤ x ∧ x < a + bs.length then (bs[x - a]?).getD 0 else memGet s.mem x)
  ∧ t.l1 = s.l1 ∧ t.coaches = s.coaches ∧ t.rakes = s.rakes ∧ t.drays = s.drays)
  ∧ (∀ (s : State) (p : Path) (u a : Nat) (bs : List Byte) (c : CLine),
  p.unit = some u → a % 64 + bs.length ≤ 64 → bs ≠ [] → l1Find s u (a / 64) = some c → c.bytes.length = 64 →
  c.ctxs.contains p.ctx = true →
  windowClosed s (a / 64 * 64) = false → s.upsets.contains (.l1 u (a / 64)) = false →
  let t := (writePath s p a bs).2
  (∀ x, seen t u x = if a ≤ x ∧ x < a + bs.length then (bs[x - a]?).getD 0 else seen s u x)
  ∧ (∀ v x, v ≠ u → seen t v x = seen s v x) ∧ t.mem = s.mem ∧ t.coaches = s.coaches
  ∧ (readPath t p a bs.length).1 = bs)
  ∧ (∀ (s : State) (c : CLine), c.line < 0x300000000 →
  let t := writeDirty s c
  (∀ x, memGet t.mem x = if x / 64 = c.line ∧ c.dirty.getLsbD (x % 64) = true then (c.bytes[x % 64]?).getD 0 else memGet s.mem x)
  ∧ t.l1 = s.l1 ∧ t.l2 = s.l2 ∧ t.coaches = s.coaches)

/-- 05 R171, R172, R185: LD reads the lanes' addresses when they translate, and its values wait in the return buffer; ST
writes the low bytes of D at the addresses of its lanes, and orders after. An address above 57 bits is BOUNDS and a
misaligned one ALIGN, before anything happens. 10 R392: in a deterministic region too LD reads addresses outside the
shared windows, whichever rake owns their lines. The choices of the model that it rests on: log 8. -/
def Obligations.GlobalAccess : Prop := ∀ (s : State) (w : NOp) (f : Found) (s1 : State),
  let k := s.iss.coach
  let n := tyBits (mTy w) / 8
  let addrs := globalOf s w
  let nol1 := mCh w == 2
  let strm := mCh w == 1
  let high := maskOf (fun l => addrs.any (fun a => a.1 == l && decide (2 ^ 57 ≤ a.2)))
  let odd := maskOf (fun l => addrs.any (fun a => a.1 == l && a.2 % n != 0))
  let ordered := fun (t : State) => if f.ok.isEmpty then t else orderCoach t k (mOrd w) (mAgt w) (mStg w)
  let outside := addrs.all (fun a => !inWindow s (me s) a.2)
  (∀ t s2, noQueue w = true → clear s (.ld w) = true → outside = true → high = 0 → odd = 0 →
      findLanes s k .read addrs Found.none = (f, s1) →
      f.err = none → f.bad = [] → readPieces (ordered s1) k n nol1 strm f.ok [] = (.ok t, s2) → settled s2 k = true →
      exec (.ld w) s = .next (slottedAt s2 s.iss (loadedSlot s w t)))
  ∧ (clear s (.st w) = true → isDet s (me s) = false → high = 0 → odd = 0 → shadowBad (me s) (enOf s w) = 0 →
      findLanes s k .write addrs Found.none = (f, s1) → f.err = none → f.bad = [] → isDet s1 (me s) = false →
      let s2 := ordered (writePieces s1 k nol1 strm (f.ok.map (fun p => (p, dataOf s w p.lane))))
      settled s2 k = true → exec (.st w) s = .next (passedAt s2 s.iss))
  ∧ (∀ i sp, i = .ld w ∨ i = .st w → clear s i = true → nativeRow s i = some (w, sp) → high ≠ 0 →
      exec i s = .next (accessTrap (opCtx s w sp) s 7 high 1 addrs))
  ∧ (∀ i sp, i = .ld w ∨ i = .st w → clear s i = true → nativeRow s i = some (w, sp) → high = 0 → odd ≠ 0 →
      exec i s = .next (accessTrap (opCtx s w sp) s 6 odd 1 addrs))

/-- 05 R171, R172, 01 R37: LDS reads the rake's window and STS writes it, at aligned offsets inside it, and orders; with
relaxed order nothing else of the machine changes. 01 R37, 12 R465: a write of the window changes the bytes that it names and no
other, and clears the poison of words that it covers. -/
def Obligations.WindowAccess : Prop :=
  (∀ (s : State) (w : NOp) (r : Rake), tget s.rakes (me s).rake = some r →
  let n := tyBits (mTy w) / 8
  let addrs := localOf s w
  let ordered := fun (t : State) => orderCoach t s.iss.coach (mOrd w) (mAgt w) (mStg w)
  let stored := { s with rakes := tput s.rakes (me s).rake (addrs.foldl (fun r a => padWrite r a.2 (dataOf s w a.1)) r) }
  fits addrs r.window n = true →
  (mOrd w = 0 → ordered s = s ∧ ordered stored = stored)
  ∧ (noQueue w = true → clear s (.lds w) = true → addrs.all (fun a => !padBad r a.2 n) = true →
      settled (ordered s) s.iss.coach = true → exec (.lds w) s
        = .next (slottedAt (ordered s) s.iss (loadedSlot s w (addrs.map (fun a => (a.1, memRead r.pad a.2 n))))))
  ∧ (clear s (.sts w) = true → shadowBad (me s) (enOf s w) = 0 → settled (ordered stored) s.iss.coach = true →
      exec (.sts w) s = .next (passedAt (ordered stored) s.iss)))
  ∧ (∀ (r : Rake) (o : Nat) (bs : List Byte),
  let t := padWrite r o bs
  (∀ x, memGet t.pad x = if o ≤ x ∧ x < o + bs.length then (bs[x - o]?).getD 0 else memGet r.pad x)
  ∧ (∀ k, k ∈ t.padPoison ↔ k ∈ r.padPoison ∧ ¬(o ≤ 8 * k ∧ 8 * k + 8 ≤ o + bs.length))
  ∧ { t with pad := r.pad, padPoison := r.padPoison } = r)

/-- 05 R174, R175, 09 R341, R342: LDL and STL reach private words through their slots' formats, and in the form `.V` a
whole register line, once the slot-map bytes and the slots translate; an offset beyond the window is BOUNDS. The choices
of the model that it rests on: logs 8 and 81. -/
def Obligations.PrivateMemory : Prop := ∀ (s : State) (w : NOp) (f : Found) (s1 s2 s3 : State), isDet s (me s) = false →
  let k := s.iss.coach
  let n := mBytes w
  let addrs := localOf s w
  let size := privSize s (me s)
  let off := (((addrs.head?).getD (0, 0)).2)
  let at_ := slotAddr s1 (coachOf s1 k) off
  (∀ t, noQueue w = true → clear s (.ldl w) = true → mV w = false → fits addrs size n = true → mapFound s w addrs .read = (true, s1) →
      privWords s1 k n .read addrs = (f, s2) → f.err = none → f.bad = [] →
      privRead k n (pieceOffsets addrs n f.ok) [] s2 = (.ok t, s3) → settled s3 k = true →
      exec (.ldl w) s = .next (slottedAt s3 s.iss (loadedSlot s w (t.map (fun e => (e.1, leBytes n e.2))))))
  ∧ (clear s (.stl w) = true → mV w = false → fits addrs size n = true → shadowBad (me s) (enOf s w) = 0 →
      mapFound s w addrs .atomic = (true, s1) → privWords s1 k n .write addrs = (f, s2) → f.err = none → f.bad = [] →
      isDet s2 (me s) = false →
      privWrite k n (fun l => (regVal (me s) (fD w) (mWide w) l).toNat) (pieceOffsets addrs n f.ok) s2 = (.ok (), s3) →
      settled s3 k = true → exec (.stl w) s = .next (passedAt s3 s.iss))
  ∧ (∀ pa leaf form s4 t, clear s (.ldl w) = true → mV w = true → off + 4 ≤ size → off % 4 = 0 →
      mapFound s w [(0, off)] .read = (true, s1) → coachXlate s1 (coachOf s1 k) at_ .read = (.ok pa leaf, s2) →
      formatOf s2 (coachOf s2 k) off = (form, s3) → form ≤ 3 →
      readPieces s3 k 256 false false [{ lane := 0, va := at_, pa := pa, leaf := leaf }] [] = (.ok t, s4) → settled s4 k = true →
      exec (.ldl w) s = .next (slottedAt s4 s.iss { slotFor s w 1 (laneWrites (fD w) 1 (coachOf s4 k).all
        (fun l _ => (slotWord form (tgetD [] t 0) l).getD 0)) [] noFlags with lanes := (coachOf s4 k).all }))
  ∧ (∀ pa leaf, clear s (.stl w) = true → mV w = true → off + 4 ≤ size → off % 4 = 0 → shadowBad (me s) (me s).all = 0 →
      mapFound s w [(0, off)] .atomic = (true, s1) → coachXlate s1 (coachOf s1 k) at_ .write = (.ok pa leaf, s2) →
      let form := slotForm (lineWords (coachOf s2 k) (fD w))
      let s3 := writePieces s2 k false false [({ lane := 0, va := at_, pa := pa, leaf := leaf }, form.2)]
      let s4 := setFormat s3 (coachOf s2 k) off form.1
      settled s4 k = true → exec (.stl w) s = .next (passedAt s4 s.iss))
  ∧ (∀ i sp, i = .ldl w ∨ i = .stl w → clear s i = true → nativeRow s i = some (w, sp) → mV w = false →
      let bad := maskOf (fun l => addrs.any (fun a => a.1 == l && decide (size < a.2 + n)))
      bad ≠ 0 → exec i s = .next (accessTrap (opCtx s w sp) s 7 bad 1 addrs))

/-- 05 R179, R180: an atomic reads each enabled lane's word in lane order, and writes its new value there; the old
values go to D, unless D is unused. ATOMS orders at cluster scope at most. The values of the integer operations are stated for 32- and 64-bit words. The
choices of the model that it rests on: log 65. -/
def Obligations.Atomics : Prop := ∀ (s : State) (w : NOp), isDet s (me s) = false → noQueue w = true →
  let k := s.iss.coach
  let n := mBytes w
  let ends := fun (t : State) (old : Tbl Dword) => if fD w = 0xF0 then passedAt t s.iss
    else slottedAt t s.iss (valueSlot s w (fun l => (tgetD 0 old l).toNat))
  let ordered := fun (t : State) => orderCoach t k (mOrd w) (mAgt w) (mStg w)
  let gaddrs := (lanesOf (enOf s w)).map (fun l => (l, (aVal (me s) w true l).toNat))
  let laddrs := (lanesOf (enOf s w)).map (fun l => (l, (aVal (me s) w false l).toNat))
  (∀ f s1 s2 old, clear s (.atom w) = true → inReach gaddrs n = true → shadowBad (me s) (enOf s w) = 0 →
      findLanes s k .atomic gaddrs Found.none = (f, s1) → f.err = none → f.bad = [] → isDet s1 (me s) = false →
      atomPieces (opCtx s w (atomSpec w true)) (me s) (decide (1 ≤ mAgt w)) f.ok [] (if f.ok.isEmpty then s1 else ordered s1)
        = (.ok old, s2) → settled s2 k = true → exec (.atom w) s = .next (ends s2 old))
  ∧ (∀ r r' old, clear s (.atoms w) = true → tget s.rakes (me s).rake = some r → fits laddrs r.window n = true →
      laddrs.all (fun a => !padBad r a.2 n) = true → shadowBad (me s) (enOf s w) = 0 →
      atomsPieces (opCtx s w (atomSpec w false)) (me s) laddrs [] r = (old, r') →
      let t := modRake (orderCoach s k (mOrd w) (min (mAgt w) 2) (mStg w)) (me s).rake (fun _ => r')
      settled t k = true → exec (.atoms w) s = .next (ends t old))
  ∧ (∀ (ty : Nat) (o b c : Dword), ty ≤ 3 → o.toNat < 2 ^ tyBits ty → b.toNat < 2 ^ tyBits ty →
      let less := fun (x y : Dword) => decide (tyInt ty x < tyInt ty y)
      (atomValue 0 ty o b c).toNat = (o.toNat + b.toNat) % 2 ^ tyBits ty
      ∧ atomValue 1 ty o b c = (if less b o then b else o) ∧ atomValue 2 ty o b c = (if less o b then b else o)
      ∧ atomValue 3 ty o b c = o &&& b ∧ atomValue 4 ty o b c = o ||| b ∧ atomValue 5 ty o b c = o ^^^ b
      ∧ atomValue 6 ty o b c = b ∧ atomValue 7 ty o b c = (if o = c then b else o)
      ∧ atomValue 8 ty o b c = (if b.toNat ≤ o.toNat then 0 else o + 1)
      ∧ atomValue 9 ty o b c = (if o = 0 ∨ b.toNat < o.toNat then b else o - 1))

/-- 05 R176-R178: LDD reads a line and its descriptor, and its elements wait in the return buffer, rounded to TY; STD
stores the elements of its lanes and a descriptor. 05 R178: its SCALE is 0xFF when every enabled element is NaN; else 127
when AUTO is 0, or none is finite and not zero; else 127 + e, between 0 and 254, where e is the least integer with max |x|
≤ maxf × 2^e. The choices of the model that it rests on: log 86. -/
def Obligations.DescribedLines : Prop := ∀ (s : State) (w : NOp) (f : Found) (p q : Piece) (s1 : State), isDet s (me s) = false →
  let k := s.iss.coach
  let co := me s
  let la := (aVal co w true 0).toNat
  let plane := (bVal co w true 0 0).toNat
  let tbase := (cVal co w true 0).toNat
  let desc := (plane + (la - tbase) / 64 * 2) % 2 ^ 64
  let ok := decide (la < 2 ^ 57) && decide (tbase ≤ la) && decide (desc < 2 ^ 57) && la % 64 == 0 && tbase % 64 == 0 && plane % 2 == 0
  (∀ t s2 t' s3, clear s (.ldd w) = true → noQueue w = true → ok = true →
      findLanes s k .read [(0, la), (1, desc)] Found.none = (f, s1) → f.err = none → f.bad = [] → f.ok = [p, q] →
      readPieces s1 k 2 false false [q] [] = (.ok t, s2) →
      let co1 := coachOf s1 k
      let d := leNat (tgetD [] t q.lane)
      let fmts := (List.range 16).map (fmtReg s1 co1.ctx)
      (if lineReadsData fmts (lNf4 w) d then readPieces s2 k 64 false false [p] [] else (.ok [], s2)) = (.ok t', s3) →
      settled s3 k = true →
      let n := lGroup w co1.width
      let val := elemValue s3 co1.ctx (lNf4 w) (fTy w) (roundOf co1 w) co1.width (tgetD [] t' p.lane) d
      let fl := laneFlags (enOf s w) (fun l =>
        (List.range n).foldl (fun f j => f ||| (val l j).2) (flagIf (lineMalformed fmts (lNf4 w) d) flagIV))
      let res : Nat → Nat → Word := fun l j => BitVec.ofNat 32 (val l j).1
      exec (.ldd w) s = .next (slottedAt s3 s.iss (slotFor s w (slotCost (fD w) n) (laneWrites (fD w) n (enOf s w) res)
        (scalarWrites (fD w) n (enOf s w) res) fl)))
  ∧ (∀ bs d fl, clear s (.std w) = true → ok = true →
      ((nfOf (fmtReg s co.ctx (field (fX w) 8 5))).cont == 1) = lNf4 w → shadowBad co co.all = 0 →
      stdLine (opCtx s w (lineSpec w co.width true)) co (nfOf (fmtReg s co.ctx (field (fX w) 8 5))) = (bs, d, fl) →
      findLanes s k .write [(0, la), (1, desc)] Found.none = (f, s1) → f.err = none → f.bad = [] → f.ok = [p, q] →
      isDet s1 co = false →
      let s2 := writePieces s1 k false false [(p, bs), (q, leBytes 2 d)]
      let co2 := coachOf s2 k
      settled s2 k = true → enabledBits co2.fmode fl = 0 → exec (.std w) s = .next { s2 with
        coaches := tput s2.coaches k (passLanes { co2 with fstat := co2.fstat ||| BitVec.ofNat 32 (flagWord fl) } s.iss s.iss.group) })
  ∧ (let fx := field (fX w) 8 5
     let nf := nfOf (fmtReg s co.ctx fx)
     let value := fun (i : Nat) => (tyFmt (fTy w)).value (fBits (fTy w) ((regWord co (fD w) (i / co.width) (i % co.width)).setWidth 64))
     let vs := ((List.range (if lNf4 w then 128 else 64)).filter (fun i => (enOf s w).getLsbD (i % co.width))).map value
     let auto := (fX w).testBit 4
     let scaled := fun (sc : Nat) => ∀ n, codeOf (fD w) = .v n → (stdLine (opCtx s w (lineSpec w co.width true)) co nf).2.1 = sc * 256 + fx
     let allNan := vs ≠ [] ∧ ∀ v ∈ vs, v.isNan = true
     (allNan → scaled 0xFF)
     ∧ (¬ allNan → auto = false → scaled 127)
     ∧ (¬ allNan → (∀ v ∈ vs, ∀ sg m e, v = .fin sg m e → m = 0) → scaled 127)
     ∧ (∀ x e, ¬ allNan → auto = true → maxMagnitude vs = some x → numLt (scaleNum (nfValue nf nf.maxCode) e) x = false →
         numLt (scaleNum (nfValue nf nf.maxCode) (e - 1)) x = true → scaled (min (max (127 + e) 0) 254).toNat))

/-- 05 R181-R184: FENCE orders; CCTL cleans or drops the L1 lines of its addresses, writes back every dirty line of its
context in the L1, or writes back L2 lines; PREF brings the lines of its addresses into L1, or into L2 alone, and
ignores those that do not translate; IPREF, IPIN and IUNPIN work on the guest code of a range of at most 64 KiB, and a
longer one is ILLEGAL RSVD. The choices of the model that it rests on: logs 17, 69, 83 and 85. -/
def Obligations.CacheControl : Prop := ∀ (s : State) (w : NOp),
  let k := s.iss.coach
  let co := me s
  let unit := l1Unit s (coreOf co)
  let clean := fun (s : State) (line : Nat) =>
    match l1Find s unit line with
    | some x => if mOpm w = 0 then l1Clean s unit x else l1Drop (writeDirty s x) unit line
    | none => s
  let home := fun (s : State) (line : Nat) =>
    match s.l2.find? (fun x => x.line == line) with
    | some x => { l2WriteBack s x with l2 := (l2WriteBack s x).l2.map (fun y => if y.line = line then { y with dirty := 0 } else y) }
    | none => s
  let lines := (lanesOf (enOf s w)).foldl (fun (acc : List Nat × State) l =>
    let va := (aVal co w true l).toNat
    if outOfGlobal va || inWindow s co va then acc
    else match coachXlate acc.2 co va .read with
      | (.ok pa _, s1) => (acc.1 ++ [pa / 64], s1)
      | (_, s1) => (acc.1, s1)) ([], s)
  let toL1 := mOpm w % 2 == 0 && mCh w != 2
  let touch := fun (s : State) (va : Nat) => if outOfGlobal va || inWindow s co va then s else
    match coachXlate s co va .read with
    | (.ok pa leaf, s1) => if leaf.getLsbD 6 then s1 else
        if toL1 then (coachRead s1 k pa 1 leaf false (mCh w == 1)).2 else l2Read s1 (pa / 64) co.ctx
    | (_, s1) => s1
  let last := fun (va : Nat) => va + mBytes w - 1
  let l := (lowLane (enOf s w)).getD 0
  let n := if fI w then fImm w else (bVal co w false 0 l).toNat
  let from_ := (aVal co w true l).toNat % 2 ^ 57
  let mine := fun (i : Impression) => i.cluster == clusterOf co && i.ctx == co.ctx && i.slot == decodeSlot co
    && i.version == co.version && decide ((i.ga.toNat + 2 ^ 57 - from_) % 2 ^ 57 < n)
  Passes s (.fence w) (orderCoach s k (mOrd w) (mAgt w) (mStg w))
  ∧ (mOpm w = 2 → Passes s (.cctl w) (l1WriteBackAll s unit co.ctx))
  ∧ (mOpm w = 3 → Passes s (.cctl w) (lines.1.foldl home lines.2))
  ∧ (mOpm w < 2 → Passes s (.cctl w) (lines.1.foldl clean lines.2))
  ∧ Passes s (.pref w) ((globalOf s w).foldl
      (fun s a => if last a.2 / 64 = a.2 / 64 then touch s a.2 else touch (touch s a.2) (last a.2)) s)
  ∧ (n ≤ 65536 → n ≠ 0 → Passes s (.ipref w) (prefetchCode co false n from_ n s) ∧ Passes s (.ipin w) (prefetchCode co true n from_ n s)
      ∧ Passes s (.iunpin w) { s with imps := s.imps.map (fun i => if mine i then { i with pinned := false } else i) })
  ∧ (n = 0 → Passes s (.ipref w) s ∧ Passes s (.ipin w) s ∧ Passes s (.iunpin w) s)
  ∧ (∀ i, i = .ipref w ∨ i = .ipin w ∨ i = .iunpin w → clear s i = true → 65536 < n →
      exec i s = .next (illegal s (enOf s w) 3 (if fI w then 4 else 2)))

/-! ### Synchronization (05 R187-R206) -/

/-- 05 R187-R193: counted barriers. BARI arms, BARA arrives after a release and gives its target phase, BARW passes after an
acquire or sleeps, BARS reads, BARX makes invalid and wakes; a misuse is BARMIS, without effect. 05 R190: arrivals that
reach EXP complete one phase for every EXP of them, and the waits on each phase now reached are over. -/
def Obligations.CountedBarriers : Prop := ∀ (s : State) (w : NOp),
  let k := s.iss.coach
  let co := me s
  let b := barNum w
  let x := barrierOf s co.rake b
  let n := if fI w then fImm w else (aVal co w false ((lowLane (enOf s w)).getD 0)).toNat
  let unit := l1Unit s (coreOf co)
  let a := arrive (releaseGlobal s unit co.ctx 2) co.rake b n
  let put := fun (y : Barrier) => setBarrier s co.rake b y
  let mis := Host.Outcome.next (raiseTrap s k { barmisTrap s co.rake b (enOf s w) s.iss.word s.iss.ga s.iss.step with
    move := if s.iss.step = 0 then 0 else enOf s w, moveTo := s.iss.ga })
  (n ≠ 0 → n < 2 ^ 24 → barrierWaited s co.rake b = false →
      Passes s (.bari w) (put { armed := true, inv := false, exp := BitVec.ofNat 24 n, cnt := 0, ph := 0 }))
  ∧ (clear s (.bari w) = true → n = 0 ∨ 2 ^ 24 ≤ n ∨ barrierWaited s co.rake b = true → exec (.bari w) s = mis)
  ∧ (clear s (.bara w) = true → noQueue w = true → isDet s co = false → x.armed = true → x.inv = false → n < 2 ^ 24 →
      isDet a.2 (coachOf a.2 k) = false → settled a.2 k = true →
      exec (.bara w) s = .next (writtenAt s a.2 w 1 (fun _ _ => a.1.setWidth 32)))
  ∧ (clear s (.bara w) = true → isDet s co = false → x.armed = false ∨ x.inv = true ∨ 2 ^ 24 ≤ n → exec (.bara w) s = mis)
  ∧ (x.armed = true → x.inv = false → (x.ph - BitVec.ofNat 24 n).toNat < 2 ^ 23 →
      Passes s (.barw w) (acquireGlobal s unit co.ctx 2))
  ∧ (clear s (.barw w) = true → x.armed = true → x.inv = false → 2 ^ 23 ≤ (x.ph - BitVec.ofNat 24 n).toNat →
      exec (.barw w) s = .next (sleptAt s s w (.barrier b (BitVec.ofNat 24 n))))
  ∧ (clear s (.barw w) = true → x.armed = false ∨ x.inv = true → exec (.barw w) s = mis)
  ∧ (clear s (.bars w) = true → noQueue w = true → fKind w = 0 → Gives s (.bars w) w false (fun _ =>
      let sel := field (fX w) 5 4
      if sel = 0 then x.ph.setWidth 64 else if sel = 1 then x.cnt.setWidth 64 else if sel = 2 then x.exp.setWidth 64
      else BitVec.ofNat 64 ((if x.armed then 1 else 0) + (if x.inv then 2 else 0) + (if barrierWaited s co.rake b then 4 else 0))))
  ∧ (clear s (.barx w) = true → fKind w = 0 → exec (.barx w) s
      = .next (wakeCoaches (passedAt (mapWaits (put { x with inv := true, armed := false }) co.rake (barxWait b)) s.iss)
        (fun y => y.rake == co.rake)))
  ∧ (∀ (s : State) (rk b n : Nat), (tget s.rakes rk).isSome → (barrierOf s rk b).cnt.toNat + n < (barrierOf s rk b).exp.toNat →
      barrierOf (arrive s rk b n).2 rk b = { barrierOf s rk b with cnt := (barrierOf s rk b).cnt + BitVec.ofNat 24 n }
      ∧ (arrive s rk b n).1 = (barrierOf s rk b).ph + (if n = 0 then 0 else 1))
  ∧ (∀ (s : State) (rk b n : Nat), let x := barrierOf s rk b
      0 < x.exp.toNat → n < 2 ^ 24 → 1 ≤ n → x.exp.toNat ≤ x.cnt.toNat + n → ∃ (j : Nat) (y : Barrier),
        1 ≤ j ∧ y.cnt.toNat < x.exp.toNat ∧ x.cnt.toNat + n = y.cnt.toNat + x.exp.toNat * j ∧ y.ph = x.ph + BitVec.ofNat 24 j
        ∧ y = { x with cnt := y.cnt, ph := y.ph }
        ∧ arrive s rk b n = (x.ph + BitVec.ofNat 24 ((x.cnt.toNat + n - 1) / x.exp.toNat + 1),
            wakeCoaches (mapWaits (setBarrier s rk b y) rk (fun wt => match wt with
              | .barrier c t => if c = b ∧ (t - x.ph).toNat ≤ j then .ended (some 2) else wt
              | .sleepBar _ bar c t _ => if bar = true ∧ c = b ∧ (t - x.ph).toNat ≤ j then .ended none else wt
              | _ => wt)) (fun co => co.rake == rk)))

/-- 05 R194-R196: a tree barrier counts arrivals under a granted tag and closes its epoch with the last; its lanes sleep
until it is closed. TLWAIT passes with an acquire once a timeline is met, raises DRAY on a faulted context, or sleeps;
TLRD reads a timeline or a status. A tag that is not granted is ILLEGAL TAG, and a handle that fails its check ILLEGAL
HANDLE. The choices of the model that it rests on: log 77. -/
def Obligations.TreesAndTimelines : Prop := ∀ (s : State) (w : NOp), isDet s (me s) = false →
  let k := s.iss.coach
  let co := me s
  let l0 := (lowLane (enOf s w)).getD 0
  let core := coreOf co
  let unit := l1Unit s core
  let x := fX w
  let tag := if fKind w = 0 then x % 8 else fXS w % 8
  let granted := ((tget s.ctxs co.ctx).map (fun c => c.tags.getLsbD tag)).getD false
  let b := tgetD TreeBar.none s.treebars (co.ctx * 8 + tag)
  let n := if fI w then fImm w else (aVal co w false l0).toNat
  let s1 := releaseGlobal s unit co.ctx 4
  let closed := { b with epoch := b.epoch + 1, n := 0, count := 0, closed := (b.epoch, core, cycleOf s1 core) :: b.closed }
  let t := { s1 with treebars := tput s1.treebars (co.ctx * 8 + tag) (if b.count + 1 = n then closed
    else { b with n := n, count := b.count + 1 }) }
  let h := loOf (aVal co w false l0)
  let v := bVal co w true 0 l0
  let agt := field x 9 7
  let stg := field x 6 5
  let acquired := if stg = 1 then s else acquireGlobal s unit co.ctx agt
  (clear s (.tbar w) = true → granted = true → n ≠ 0 → b.count = 0 ∨ n = b.n → isDet t (coachOf t k) = false →
      settled t k = true → exec (.tbar w) s = .next (sleptAt s t w (.tbar tag b.epoch)))
  ∧ (clear s (.tbar w) = true → granted = false → exec (.tbar w) s = .next (illegal s (enOf s w) 24 0xFF))
  ∧ (clear s (.tbar w) = true → granted = true → n = 0 ∨ (0 < b.count ∧ n ≠ b.n) → exec (.tbar w) s
      = .next (raiseTrap s k (opTrap s.iss 10 0 (enOf s w) (enOf s w) [(64, 1, tag), (65, 1, 0xB5)])))
  ∧ (∀ dk, checkHandle s co.ctx h = some dk → timelineMet s dk h v = true →
      (drayOf acquired dk).state ≠ 5 ∨ h.extractLsb' 0 8 ≠ (drayOf acquired dk).gen → Passes s (.tlwait w) acquired)
  ∧ (∀ dk, clear s (.tlwait w) = true → checkHandle s co.ctx h = some dk → timelineMet s dk h v = true →
      (drayOf acquired dk).state = 5 → h.extractLsb' 0 8 = (drayOf acquired dk).gen → exec (.tlwait w) s
      = .next (passTrap k s.iss s.iss.group acquired (drayTrap acquired dk h (enOf s w) s.iss.word s.iss.ga s.iss.step)))
  ∧ (∀ dk, clear s (.tlwait w) = true → checkHandle s co.ctx h = some dk → timelineMet s dk h v = false →
      exec (.tlwait w) s = .next (sleptAt s s w (.timeline h v agt stg)))
  ∧ (∀ dk, clear s (.tlrd w) = true → noQueue w = true → checkHandle s co.ctx h = some dk →
      GivesLong s (.tlrd w) w (x % 2 == 0) (fun _ => (if x % 2 = 0 then (drayOf s dk).timeline else (drayOf s dk).status.setWidth 64, 0)))
  ∧ (checkHandle s co.ctx h = none → (clear s (.tlwait w) = true → exec (.tlwait w) s = .next (illegal s (enOf s w) 12 1))
      ∧ (clear s (.tlrd w) = true → exec (.tlrd w) s = .next (illegal s (enOf s w) 12 1)))

/-- 05 R197-R206: CPY records this coach's slice of its rake's next launch, and its results wait in a slot, unless the
launch is cancelled; CPSEAL seals the open batch and gives its number; CPWAIT seals once, waits while more than N
batches are unfinished, and acquires, or raises DRAY for a faulted context. QCTL opens, drains and closes an engine
port; an engine that does not exist is ILLEGAL ENGINE. The choices of the model that it rests on: log 29. -/
def Obligations.TransfersAndPorts : Prop := ∀ (s : State) (w : NOp),
  let k := s.iss.coach
  let co := me s
  let l0 := (lowLane (enOf s w)).getD 0
  let unit := l1Unit s (coreOf co)
  let x := fX w
  let j := co.cpyCount + 1
  let s1 := orderGlobal s unit co.ctx 2 4 0
  let launch := fun (r : Rake) =>
    let la := tgetD execCpy.newLaunch r.launches j
    { r with launches := tput r.launches j { la with
        slices := tput la.slices co.idx ((List.range 8).map (fun i => regWord co (fA w) i 0))
        codes := tput la.codes co.idx (bVal co w true 0 0, x % 4, x.testBit 2)
        zones := tput la.zones co.idx (((co.zones.head?).map Zone.k).getD 0) } }
  let offs : Nat → Nat → Word := fun _ i => BitVec.ofNat 32 i
  let sl := { slotFor s w 1 (laneWrites (fD w) 4 (enOf s w) offs) (scalarWrites (fD w) 4 (enOf s w) offs) noFlags with
    cpy := some (j, coreOf co) }
  let dead := ((launchOf s (co.rake, j)).map Launch.cancelled).getD false
  let coNew := { co with cpyCount := j, openBatch := co.openBatch ++ [(co.rake, j)] }
  let coCpy := if dead then coNew else addSlot coNew sl
  let n := if fI w then fImm w else (aVal co w false l0).toNat
  let again := fun (st : Stall) => st.ga == s.iss.ga && st.step == s.iss.step && (st.lanes &&& s.iss.group) != 0
    && match st.kind with
      | .batches _ last => last
      | _ => false
  let fresh := !co.stalls.any again
  let coWait := { co with stalls := co.stalls.filter (fun st => !again st) }
  let seals := fresh && decide (co.openBatch ≠ [])
  let co2 := if seals then sealBatch s coWait else coWait
  let s2 := setCoach s k co2
  let s3 := acquireGlobal s2 unit co.ctx 4
  let bad := ((co2.sealed_.filter (fun b => batchDone s3 b)).flatMap (fun b => b.launches)).findSome? (launchFault s3)
  let forgot := modCoach s3 k (fun co => { co with sealed_ := co.sealed_.filter (fun b => !batchDone s3 b) })
  let q := 8 + x % 8
  let own := coreOf co / 80
  let die := if loOf (aVal co w false l0) = 0 then own else if loOf (aVal co w false l0) = 1 then 0 else 1
  let p := freePort s die
  (clear s (.cpy w) = true → exec (.cpy w) s = .next { modRake s1 co.rake launch with
      coaches := tput (modRake s1 co.rake launch).coaches k (passLanes coCpy s.iss s.iss.group) })
  ∧ (clear s (.cpseal w) = true → noQueue w = true → unfinished s co < 15 → settled (setCoach s k (sealBatch s co)) k = true →
      exec (.cpseal w) s = .next (writtenAt s (setCoach s k (sealBatch s co)) w 1
        (fun _ _ => BitVec.ofNat 32 ((co.batchCount + 1) % 2 ^ 32))))
  ∧ (clear s (.cpseal w) = true → 15 ≤ unfinished s co → exec (.cpseal w) s = .next (stalledAt s s (.batches 14 false)))
  ∧ (seals = false ∨ unfinished s co < 15 → unfinished s2 co2 ≤ n → bad = none → Passes s (.cpwait w) forgot)
  ∧ (∀ dk h, clear s (.cpwait w) = true → seals = false ∨ unfinished s co < 15 → unfinished s2 co2 ≤ n → bad = some (dk, h) →
      (coachOf s3 k).rbuf = [] → exec (.cpwait w) s = .next (passTrap k s.iss s.iss.group forgot
        (drayTrap s3 dk h (enOf s w) s.iss.word s.iss.ga s.iss.step)))
  ∧ (clear s (.cpwait w) = true → seals = false ∨ unfinished s co < 15 → n < unfinished s2 co2 →
      exec (.cpwait w) s = .next (stalledAt s s2 (.batches n true)))
  ∧ (clear s (.cpwait w) = true → seals = true → 15 ≤ unfinished s co →
      exec (.cpwait w) s = .next (stalledAt s s (.batches 14 false)))
  ∧ ((loOf (aVal co w false l0)).toNat ≤ 2 → tget co.ports q = none → p < 256 → Passes s (.qctlOpen w)
      (setCoach { s with ports := tput s.ports (die * 256 + p) (newPort k) } k { co with ports := tput co.ports q (die * 256 + p) }))
  ∧ (clear s (.qctlOpen w) = true → 2 < (loOf (aVal co w false l0)).toNat →
      exec (.qctlOpen w) s = .next (illegal s (enOf s w) 25 1))
  ∧ (∀ key, tget co.ports q = some key → portIdle s key = true → Passes s (.qctlDrain w) s
      ∧ Passes s (.qctlClose w) (setCoach (dropPort s key) k { co with ports := tdel co.ports q }))
  ∧ (∀ key, tget co.ports q = some key → portIdle s key = false →
      (clear s (.qctlDrain w) = true → exec (.qctlDrain w) s = .next (stalledAt s s (.port q)))
      ∧ (clear s (.qctlClose w) = true → exec (.qctlClose w) s = .next (stalledAt s s (.port q))))

/-! ### The matrix engine (06) -/

/-- 06 R221, R225, R229-R242: MCFG and MMETA set a configuration within its limits; MMA, MLOOP, MZERO, MPROM, MLDA and
MSTA join their tile's queue with what they have read. A configuration outside its limits, a tile that the coach does
not hold, and a version in the past or one already named stop the operation without effect; a full queue makes it wait.
The choices of the model that it rests on: logs 68 and 71. -/
def Obligations.MatrixIssue : Prop := ∀ (s : State) (w : NOp),
  let k := s.iss.coach
  let co := me s
  let tk := tileKey (coreOf co) (xTile w)
  let v := (regWord co (fC w) 0 0).extractLsb' 0 16
  let r := fun j => regWord co (fA w) j 0
  let cfgNew : MCfg := { a0 := r 0, a1 := r 1, b0 := r 2, b1 := r 3, planeA := r 4, planeB := r 5, fmtw := r 6, meta_ := r 7 }
  let configured := fun (c : MCfg) => setCoach s k { co with cfgs := tput co.cfgs (xTile w) c }
  let joined := fun (t : State) (kind : MKind) (cfg : MCfg) (ra rb : Tbl Word) => setTile t tk { tileOf t tk with
    queue := (tileOf t tk).queue ++ [{ v := (regWord (coachOf t k) (fC w) 0 0).extractLsb' 0 16, kind := kind, cfg := cfg
                                       fmts := fmtList t (coachOf t k), regA := ra, regB := rb, coach := k }] }
  let good := checkVersion (tileOf s tk) v = .accept
  let fits1 := fun (src : Bool) (w0 w1 pl : Word) (f n off steps rows : Nat) =>
    src = true ∨ (off % (if mfNf f then 64 else 32) = 0 ∧ off < 2 ^ 24
      ∧ operandEnd w0 w1 pl (mfNf f) n off steps rows ≤ windowOf s co)
  let fitsAll := fun (cfg : MCfg) (offA offB steps rows cols : Nat) =>
    let na := rowBytesA (cfgFa cfg) (cfgSpn cfg)
    let nb := rowBytesB (cfgFa cfg) (cfgSpn cfg)
    fits1 (descSrc cfg.a0) cfg.a0 cfg.a1 cfg.planeA (cfgFa cfg) na offA steps rows
    ∧ fits1 (descSrc cfg.b0) cfg.b0 cfg.b1 cfg.planeB (cfgFb cfg) nb offB steps cols
    ∧ (cfgSpn cfg = 0 ∨ cfg.meta_.toNat + (steps - 1) * 2048 + (rows - 1) * 32 + 32 ≤ windowOf s co)
  let captured := fun (src : Bool) (code n : Nat) => match src, codeOf code with
    | true, .v j => captureRegs co j n
    | _, _ => []
  let g := 8 * (64 / co.width)
  let goff := (aVal co w true 0).toNat
  let loff := (aVal co w false 0).toNat
  let pitch := (bVal co w false 0 0).toNat
  let block := (captureBlock co (fA w)).map (fun e => (e.1 + 8 * mCb w, e.2))
  let slot := { slotFor s w ((g + 3) / 4) [] [] noFlags with lanes := co.all, tile := some (tk, v.toNat) }
  ((tileOf s tk).holder = some k →
    (cfgOk cfgNew = true → Passes s (.mcfg w) (configured cfgNew))
    ∧ (clear s (.mcfg w) = true → cfgOk cfgNew = false → exec (.mcfg w) s = .next (illegal s (enOf s w) iMdesc 1))
    ∧ (∀ old, tget co.cfgs (xTile w) = some old →
        let c := { old with meta_ := r 0, fmtw := BitVec.ofNat 32 (old.fmtw.toNat - field old.fmtw.toNat 17 16 * 65536 + fX w % 4 * 65536) }
        cfgOk c = true → Passes s (.mmeta w) (configured c))
    ∧ (good → Passes s (.mzero w) (joined s .zero MCfg.zero [] []) ∧ Passes s (.mprom w) (joined s .prom MCfg.zero [] []))
    ∧ (∀ i, i = .mzero w ∨ i = .mprom w → clear s i = true →
        (checkVersion (tileOf s tk) v = .illegal → exec i s = .next (illegal s (enOf s w) iVersion 3))
        ∧ (checkVersion (tileOf s tk) v = .wait → exec i s = .next (stalledAt s s (.tileQueue tk))))
    ∧ (∀ cfg, tget co.cfgs (xTile w) = some cfg → good →
        let na := rowBytesA (cfgFa cfg) (cfgSpn cfg)
        let nb := rowBytesB (cfgFa cfg) (cfgSpn cfg)
        let offA := (r 0).toNat
        let offB := (regWord co (fB w) 0 0).toNat
        operandBad co (descSrc cfg.a0) (fA w) na = none → operandBad co (descSrc cfg.b0) (fB w) nb = none →
        fitsAll cfg offA offB 1 64 64 → Passes s (.mma w) (joined s (.mul 1 64 64 (if descSrc cfg.a0 then 0 else offA)
          (if descSrc cfg.b0 then 0 else offB) ((fX w).testBit 13)) cfg (captured (descSrc cfg.a0) (fA w) na)
          (captured (descSrc cfg.b0) (fB w) nb)))
    ∧ (∀ cfg, tget co.cfgs (xTile w) = some cfg → good → descSrc cfg.a0 = false → descSrc cfg.b0 = false →
        let n := (r 2).toNat
        let rows := field (r 3).toNat 6 0
        let cols := field (r 3).toNat 14 8
        1 ≤ n → n ≤ 65535 → 1 ≤ rows → rows ≤ 64 → 1 ≤ cols → cols ≤ 64 → (r 3).getLsbD 7 = false → field (r 3).toNat 31 15 = 0 →
        fitsAll cfg (r 0).toNat (r 1).toNat n rows cols →
        Passes s (.mloop w) (joined s (.mul n rows cols (r 0).toNat (r 1).toNat true) cfg [] []))
    ∧ (mForm w = 2 → good →
        (fA w % g = 0 → fA w + g ≤ co.nregs → Passes s (.mlda w) (joined s (.ldR (mCb w) block) MCfg.zero [] []))
        ∧ (fD w % g = 0 → fD w + g ≤ co.nregs →
            Passes s (.msta w) (joined (setCoach s k (addSlot co slot)) (.stR (mCb w)) MCfg.zero [] [])))
    ∧ (mForm w = 1 → good → loff % 4 = 0 → pitch % 4 = 0 → loff + 63 * pitch + 256 ≤ windowOf s co →
        Passes s (.mlda w) (joined s (.ldS loff pitch) MCfg.zero [] [])
        ∧ Passes s (.msta w) (joined s (.stS loff pitch) MCfg.zero [] []))
    ∧ (∀ pages s1, mForm w = 0 → good → goff % 4 = 0 → pitch % 4 = 0 → goff + 63 * pitch + 256 ≤ 2 ^ 57 → isDet s co = false →
        (pagesXlate s k .read (footprintPages goff pitch) [] = (.ok pages, s1) →
          Passes s (.mlda w) (joined s1 (.ldG goff pitch pages) MCfg.zero [] []))
        ∧ (pagesXlate s k .write (footprintPages goff pitch) [] = (.ok pages, s1) → isDet s1 co = false →
          Passes s (.msta w) (joined s1 (.stG goff pitch pages) MCfg.zero [] []))))
  ∧ ((tileOf s tk).holder ≠ some k → ∀ i, i ∈ [.mcfg w, .mmeta w, .mma w, .mloop w, .mzero w, .mprom w, .mlda w, .msta w] →
      clear s i = true → exec i s = .next (illegal s (enOf s w) iTile 0xFF))

/-- 06 R222-R227, R238, R243: the version operations of a tile, and the engine's own steps: an operation whose version
is expected begins, the array performs one K-step of one tile, and a completed operation advances VER. The choices of
the model that it rests on: logs 6, 13 and 72. -/
def Obligations.MatrixVersions : Prop :=
  (∀ (s : State) (w : NOp),
  let k := s.iss.coach
  let co := me s
  let tk := tileKey (coreOf co) (xTile w)
  let t := tileOf s tk
  let v := (regWord co (fC w) 0 0).extractLsb' 0 16
  let room := decide (((heldTiles s k).filter (· != tk)).length < 2)
  let taken := { t with holder := some k, queue := [], cur := none }
  let s1 := if t.lastCtx.isSome ∧ t.lastCtx ≠ some co.ctx then setTile s tk { taken with t := [], p := [], steps := [], undef := none }
    else undefTile (setTile s tk taken) tk
  let s2 := modCoach s1 k (fun co => { co with cfgs := tdel co.cfgs (xTile w) })
  (noQueue w = true →
    (clear s (.mverRead w) = true → t.holder = some k → GivesLong s (.mverRead w) w false (fun _ => (t.ver.setWidth 64, 0)))
    ∧ (clear s (.mverAcq w) = true → room = true → t.holder = some k → Gives s (.mverAcq w) w false (fun _ => t.ver.setWidth 64))
    ∧ (clear s (.mverAcq w) = true → room = true → t.holder ≠ some k → t.holder ≠ none →
        Gives s (.mverAcq w) w false (fun _ => 0xFFFFFFFF))
    ∧ (clear s (.mverAcq w) = true → room = true → t.holder = none → settled s2 k = true →
        exec (.mverAcq w) s = .next (writtenAt s s2 w 1 (fun _ _ => t.ver.setWidth 32))))
  ∧ (clear s (.mverAcq w) = true → room = false → exec (.mverAcq w) s = .next (illegal s (enOf s w) iTile 0xFF))
  ∧ (t.holder = some k → t.cur = none → t.queue = [] → Passes s (.mverRel w) (releaseTile s k (xTile w)))
  ∧ (clear s (.mverRel w) = true → t.holder = some k → t.cur ≠ none ∨ t.queue ≠ [] →
      exec (.mverRel w) s = .next (sleptAt s s w (.release (xTile w))))
  ∧ (t.holder = some k → (t.ver - v).toNat < 2 ^ 15 → Passes s (.mverWait w) s)
  ∧ (clear s (.mverWait w) = true → t.holder = some k → 2 ^ 15 ≤ (t.ver - v).toNat → t.idle = false →
      exec (.mverWait w) s = .next (sleptAt s s w (.version (xTile w) v)))
  ∧ (clear s (.mverWait w) = true → t.holder = some k → 2 ^ 15 ≤ (t.ver - v).toNat → t.idle = true →
      exec (.mverWait w) s = .next (raiseTrap s k (opTrap s.iss 1 iVersion (enOf s w) (enOf s w) (versionArea s tk))))
  ∧ (t.holder ≠ some k → ∀ i, i = .mverRead w ∨ i = .mverRel w ∨ i = .mverWait w → clear s i = true →
      exec i s = .next (illegal s (enOf s w) iTile 0xFF)))
  ∧ (∀ (s : State) (tk : Nat) (o : MOp), (tileOf s tk).cur = none → (tileOf s tk).queue.find? (fun o => o.v == (tileOf s tk).ver) = some o →
      engineRuns s o.coach = true →
      let s1 := setTile s tk { tileOf s tk with queue := (tileOf s tk).queue.filter (fun x => x.v != o.v), cur := some (o, 0) }
      (s.upsets.contains (.tile tk) = false → exec (.matrixOpStart tk) s = .next (engineOp s1 tk o))
      ∧ (s.upsets.contains (.tile tk) = true → exec (.matrixOpStart tk) s = .next (if readsTile o.kind then tileError s1 tk
          else engineOp { s1 with upsets := s1.upsets.filter (· != .tile tk) } tk o)))
  ∧ (∀ (s : State) (core i n : Nat) (o : MOp) (r : Rake) (es : List El), nextTile s core = some i →
      (tileOf s (tileKey core i)).cur = some (o, n) → tget s.rakes (coachOf s o.coach).rake = some r →
      (s.upsets.contains (.tile (tileKey core i)) = true → exec (.kStep core) s = .next (tileError s (tileKey core i)))
      ∧ (s.upsets.contains (.tile (tileKey core i)) = false → kStep r o n (tileEls (tileOf s (tileKey core i))) = some es →
        exec (.kStep core) s = .next (setTile
          { s with lastTile := tput s.lastTile core i } (tileKey core i) { setEls (tileOf s (tileKey core i)) es with cur := some (o, n + 1) })))
  ∧ (∀ (s : State) (tk n : Nat) (o : MOp), (tileOf s tk).cur = some (o, n) → opDone (tileOf s tk) = true → engineRuns s o.coach = true →
      let s1 := setTile s tk { tileOf s tk with cur := none, ver := (tileOf s tk).ver + 1 }
      let s2 := modCoach s1 o.coach (fun co => { co with rbuf := co.rbuf.map (fun sl =>
        if sl.tile = some (tk, o.v.toNat) then { sl with returned := true } else sl) })
      exec (.matrixOpComplete tk) s = .next (checkCoach (wakeReady s2 o.coach) o.coach))

/-! ### Traps and their return (11 R402-R426, 05 R207, R208) -/

/-- 11 R405-R411, 05 R207, R208: TAKING A TRAP. With nothing outstanding and a handler to take it, the frame is written,
s28 to s31 hold class, subtype and step, zero, and the frame's address, the running lanes stand at the handler, and
nothing else of the coach changes; with no handler to take it, it is a fatal one. TRAP raises TRAPI past its group, and
TRET gives back s28 to s31 and the lanes from the frame; outside a handler it is ILLEGAL TRET. The choices of the model
that it rests on: logs 40, 49 and 73. -/
def Obligations.TakingTraps : Prop :=
  (∀ (s : State) (k : Nat) (t : Trap) (co : Coach) (c : Ctx) (s1 : State), tget s.coaches k = some co → co.rbuf = [] →
    commitWaits co = false → ctxOf s co = some c →
    let co0 := { co with trap := some t, pair := none, resume := none }
    let rm := (t.rmask).getD (activeSet co)
    let va := frameAddr c co
    (fatalFlags c co t.cls = none → writeFrame (setCoach s k co0) k va (frameBytes (movePcs co0 t) t rm (if t.cls = 8 then 2 else 0) 0)
        = (.ok (), s1) → (tget s1.coaches k).isSome →
      let m := movePcs (coachOf s1 k) t
      ∃ y, raiseTrap s k t = setCoach s1 k y
        ∧ y = { m with s := y.s, lanes := y.lanes, trap := none, inHandler := true, rmask := rm, entryLanes := m.lanes
                       commitPush := t.commit, heldStalls := y.heldStalls, stalls := y.stalls }
        ∧ sget y 28 = BitVec.ofNat 32 (t.cls + 256 * t.sub + 65536 * t.step) ∧ sget y 29 = 0
        ∧ sget y 30 = BitVec.ofNat 32 va ∧ sget y 31 = BitVec.ofNat 32 (va / 2 ^ 32) ∧ (∀ r < 28, sget y r = sget m r)
        ∧ ∀ l x, m.lanes[l]? = some x → (rm.getLsbD l = false → y.lanes[l]? = some x)
          ∧ (rm.getLsbD l = true → ∃ x', y.lanes[l]? = some x' ∧ x'.state = .running ∧ x'.step = 0
            ∧ x'.ga = (if t.cls = 2 then c.emulent else c.trapent).extractLsb' 0 57))
    ∧ (∀ fl, fatalFlags c co t.cls = some fl → raiseTrap s k t = fatalTrap (setCoach s k co0) k t fl))
  ∧ (∀ (s : State) (w : NOp), clear s (.trap w) = true →
      let code := fun l => if fKind w = 2 then fImm w else (aVal (me s) w false l).toNat % 2 ^ 32
      exec (.trap w) s = .next (passTrap s.iss.coach s.iss s.iss.group s
        (opTrap s.iss 3 0 (enOf s w) 0 ((lanesOf (enOf s w)).map (fun l => (640 + 4 * l, 4, code l))))))
  ∧ (∀ (s : State) (w : NOp) (c : Ctx) (bs : List Byte) (s1 : State), clear s (.tret w) = true → (me s).inHandler = true →
      (me s).rbuf = [] → ctxOf s (me s) = some c → readFrame s s.iss.coach (frameAddr c (me s)) = (.ok bs, s1) →
      exec (.tret w) s = .next (applyFrame (modCoach s1 s.iss.coach (fun co => modLanes co s.iss.group (fun _ x => x.count)))
        s.iss.coach bs))
  ∧ (∀ (s : State) (w : NOp), clear s (.tret w) = true → (me s).inHandler = false →
      exec (.tret w) s = .next (illegal s (enOf s w) iTret 0xFF))
  ∧ (∀ (s : State) (k : Nat) (co : Coach) (bs : List Byte), tget s.coaches k = some co → co.heldStalls = [] →
      frameRetry co bs = none →
      let word := fun o => BitVec.ofNat 32 (leNat ((bs.drop o).take 4))
      ∃ y, applyFrame s k bs = flushFpe (lanesSet (setCoach s k y) k) k ∧ y.inHandler = false ∧ y.rmask = 0 ∧ y.v = co.v
        ∧ y.m = co.m ∧ sget y 28 = word 40 ∧ sget y 29 = word 44 ∧ sget y 30 = word 48 ∧ sget y 31 = word 52
        ∧ ∀ r < 28, sget y r = sget co r)

/-- 11 R409-R415, R423-R426, R505: the pending trap of a resident coach is entered; the siblings of a halted coach stop
with HALTED, and the record of a stopped rake is written; an XLAT entry is recorded after its 64 cycles; the driver's
answer closes the entry it names; RAKECMD resumes or kills a halted rake, and a write while RAKESTAT is busy is dropped.
The choices of the model that it rests on:
logs 45, 49, 51, 60 and 64. -/
def Obligations.FaultService : Prop := ∀ (s : State) (n : Nat),
  (∀ t, (coachOf s n).trap = some t → isResident s n = true → frameParked t = false →
      exec (.trapEntry n) s = .next (takeTrap s n))
  ∧ (∀ cls idx, haltOf s (coachOf s n) = some (cls, idx) → isResident s n = true → (coachOf s n).halted = none →
      (coachOf s n).trap = none → exec (.halted n) s = .next (raiseTrap s n
        { cls := 16, sub := 0, step := 0, tmask := 0, rmask := none, move := 0, moveTo := 0, moveCounts := false
          opword := 0, opaddr := 0, area := [(64, 1, cls), (66, 2, idx)] }))
  ∧ (∀ r h rg s1, tget s.rakes n = some r → r.halt = some h → tget s.regions r.region = some rg → r.haltRecorded = false →
      rakeStopped s r = true → writeFaultRecord s rg.ctx ((r.cluster).getD 0 / 10) (haltRecord s r h) = (true, s1) →
      let s2 := modRake s1 n (fun r => { r with haltRecorded := true })
      exec (.rakeHaltRecord n) s = .next (if ((tget s2.ctxs rg.ctx).map Ctx.dbgen).getD false then s2 else uncontained s2 r.region))
  ∧ (∀ r, tget s.rakes n = some r → r.halt = none → exec (.debuggerHaltRequest n) s
      = .next { r.coaches.foldl (fun s k => modCoach s k (fun co => if co.trap.isSome then { co with skid := 33 } else co)) s with
          rakes := tput s.rakes n { r with halt := some (0, 14, 0, 0, 0) } })
  ∧ (∀ f s2, tget s.faults n = some f → f.seq = none →
      let s1 := clockTo s (faultClock f.die f.cluster) (f.opened + 64)
      let seq := ((tget s1.ctxs f.ctx).map Ctx.faultSeq).getD 0
      writeFaultRecord s1 f.ctx f.die (xlatRecord f) = (true, s2) →
      exec (.faultRecordWrite n) s = .next { s2 with faults := tput s2.faults n { f with seq := some seq } })
  ∧ (∀ seq f e, entryOf s n seq = some (f, e) →
      let s1 := serviceWaiters (closeEntry s f) f
      exec (.faultrespRetry n seq) s = .next ((takePending s1 f).1.foldl rerun (takePending s1 f).2))
  ∧ (∀ seq f e, entryOf s n seq = some (f, e) →
      let s1 := (takePending (closeEntry s f) f).2
      let s2 := { s1 with ports := s1.ports.map (fun x =>
        (x.1, if x.2.wait = some f then { x.2 with wait := none, failed := true } else x.2)) }
      let s3 := (tkeys (s2.coaches.filter (fun x => parkedOn x.2 f != 0 || x.2.trap.any (fun t => t.wait == some f)))).foldl (fun s k => failCoach s f e k) s2
      let s4 := (tkeys (s3.drays.filter (fun x => x.2.parked == some f))).foldl (fun s k => drayFault s k fcXlat) s3
      let s5 := (List.range (((tget s4.ctxs n).map (fun c => c.queues.length)).getD 0)).foldl (fun s q =>
        if (queueAt s n q).bind HwQueue.fault = some f then failQueue s n q e else s) s4
      exec (.faultrespFail n seq) s = .next ((takePending (closeEntry s f) f).1.foldl failPending s5))
  ∧ (∀ seq, entryOf s n seq = none → exec (.faultrespRetry n seq) s = .next s ∧ exec (.faultrespFail n seq) s = .next s)
  ∧ (∀ v rk r, field v.toNat 57 56 = 1 → rakeBusy s n = false → cmdRake s n v = some rk → tget s.rakes rk = some r →
      exec (.rakecmdResume n v) s = .next (settleResume (rakeStat (r.coaches.foldl resumeCoach
        { s with rakes := tput s.rakes rk { r with halt := none, haltRecorded := false } }) n 0) n))
  ∧ (∀ v rk r, field v.toNat 57 56 = 2 → rakeBusy s n = false → cmdRake s n v = some rk → tget s.rakes rk = some r →
      exec (.rakecmdKill n v) s = .next (rakeStat (uncontained s r.region) n 0))
  ∧ (∀ v, rakeBusy s n = true → exec (.rakecmdResume n v) s = .next s ∧ exec (.rakecmdKill n v) s = .next s)

/-! ### Leases, system registers, zones, SPAWN and guest code (05 R209-R218, 08 R308-R324) -/

/-- 05 R209-R218: leases take effect when their value is one of 1 to 128; SYSRD reads and SYSWR writes the context's
registers; CZOPEN and CZCLOSE push and pop a zone; SPAWN releases and launches; DBGBRK halts for a debugger and else
acts as NOP; DTURN ends a bundle in a deterministic region and else acts as NOP. The choices of the model that it rests
on: logs 62 and 76. -/
def Obligations.SystemOperations : Prop := ∀ (s : State) (w : NOp),
  let k := s.iss.coach
  let co := me s
  let l0 := (lowLane (enOf s w)).getD 0
  let g := if fI w then fImm w else (aVal co w false l0).toNat
  let n := fX w % 4096
  let v := aVal co w (sysWide n) l0
  let zone : Zone := { handler := (aVal co w true l0).extractLsb' 0 57, k := co.zoneCount + 1, rstacks := co.lanes.map (fun x => (x.held, x.sp)) }
  let parented := modRake s co.rake (fun r => match co.zones with
    | p :: _ => if (tget r.zoneParent (co.zoneCount + 1)).isSome then r else { r with zoneParent := tput r.zoneParent (co.zoneCount + 1) p.k }
    | [] => r)
  let opened := setCoach parented k { co with zones := zone :: co.zones, zoneCount := co.zoneCount + 1 }
  let block := (aVal co w true l0).toNat
  let released := fun (s : State) => releaseGlobal s (l1Unit s (coreOf co)) co.ctx 4
  (1 ≤ g → g ≤ 128 → Passes s (.leaseDecl w) (setLease s k (fun co => { co with leaseG := g, measured := false })))
  ∧ (clear s (.leaseDecl w) = true → g = 0 ∨ 128 < g →
      exec (.leaseDecl w) s = .next (illegal s (enOf s w) iLease (if fI w then 4 else 1)))
  ∧ Passes s (.leaseMeas w) (setLease s k (fun co => { co with leaseG := 8, measured := true, est := 8, mi := 0, alloc := 0, vh := 0 }))
  ∧ (∀ x, clear s (.sysrd w) = true → noQueue w = true → sysAssigned n = true → sysValue s co n = some x →
      GivesLong s (.sysrd w) w (sysWide n) (fun _ => (x, 0)))
  ∧ (∀ c, ctxOf s co = some c → (∀ m < 16, sysValue s co m = some ((fmtReg s co.ctx m).setWidth 64))
      ∧ sysValue s co 0x10 = some c.trapent ∧ sysValue s co 0x11 = some c.emulent ∧ sysValue s co 0x12 = some c.framebase
      ∧ sysValue s co 0x20 = some (co.zcause.setWidth 64) ∧ sysValue s co 0x21 = some co.zinfo
      ∧ sysValue s co 0x22 = some (BitVec.ofNat 64 co.zones.length))
  ∧ (∀ c c', clear s (.syswr w) = true → noQueue w = true → n ≤ 0x12 → ctxOf s co = some c → sysWrite c n v = some c' →
      exec (.syswr w) s = .next (writtenAt s { s with ctxs := tput s.ctxs co.ctx c' } w 1 (fun _ _ => 0)))
  ∧ (∀ c, clear s (.syswr w) = true → noQueue w = true → n ≤ 0x12 → ctxOf s co = some c → sysWrite c n v = none →
      exec (.syswr w) s = .next (writtenAt s s w 1 (fun _ _ => 1)))
  ∧ (sysAssigned n = false → (clear s (.sysrd w) = true → exec (.sysrd w) s = .next (illegal s (enOf s w) iSysreg 0xFF))
      ∧ (clear s (.syswr w) = true → exec (.syswr w) s = .next (illegal s (enOf s w) iSysreg 0xFF)))
  ∧ (clear s (.syswr w) = true → sysAssigned n = true → 0x12 < n → exec (.syswr w) s = .next (illegal s (enOf s w) iSprro 0xFF))
  ∧ (clear s (.czopen w) = true → co.zones.length < 8 →
      (∀ r, tget parented.rakes co.rake = some r → r.unwound.find? (fun u => u.1 == co.zoneCount + 1) = none) →
      exec (.czopen w) s = .next (passedAt opened s.iss))
  ∧ (clear s (.czopen w) = true → 8 ≤ co.zones.length → exec (.czopen w) s = .next (illegal s (enOf s w) iZone 0xFF))
  ∧ (∀ z zs, co.zones = z :: zs → Passes s (.czclose w) (setCoach s k { co with zones := zs }))
  ∧ (clear s (.czclose w) = true → co.zones = [] → exec (.czclose w) s = .next (illegal s (enOf s w) iZone 0xFF))
  ∧ (∀ pa leaf s1, clear s (.spawn w) = true → isDet s co = false → block < 2 ^ 57 → block % 256 = 0 →
      coachXlate s co block .read = (.ok pa leaf, s1) → settled (released s1) k = true →
      exec (.spawn w) s = .next (spawnRegion (passedAt (released s1) s.iss) co.region block (bVal co w true 0 l0).toNat))
  ∧ (∀ c, clear s (.dbgbrk w) = true → ctxOf s co = some c → c.dbgen = true →
      exec (.dbgbrk w) s = .next (raiseTrap s k (opTrap s.iss 14 0 (enOf s w) 0 [(64, 1, fX w % 256)])))
  ∧ (∀ c, ctxOf s co = some c → c.dbgen = false → Passes s (.dbgbrk w) s)
  ∧ (isDet s co = false → Passes s (.dturn w) s)
  ∧ (isDet s co = true → detRoom co 0 true = true → Passes s (.dturn w) (setCoach s k (endBundle co false)))

/-- 08 R308, R316, R317, R324, 02 R63: a guest instruction decodes into an impression of the operations that its
template gives, or of the word that EMUL names, and then EMUL is raised; code that cannot be fetched raises what its
access raises. An operation of the system plate has the impression of its expansion, and one that the plate does not
define is ILLEGAL OPCODE. An impression takes one step to make: the operations issue from it in the steps that follow.
The choices of the model that it rests on: logs 9 and 39. -/
def Obligations.GuestCode : Prop := ∀ (s : State),
  let i := s.iss
  let co := me s
  (∀ ops n b s1, decodeGuest s co i.ga.toNat = (.ok (.ops ops n b), s1) →
      exec .guestDecode s = .next (addImp s1 co i.ga (.ops ops n b) false))
  ∧ (∀ word n fs s1, decodeGuest s co i.ga.toNat = (.ok (.emul word n fs), s1) → exec .guestDecode s
      = .next (raiseEmul (addImp s1 co i.ga (.emul word n fs) false) i.coach i.group i.ga (BitVec.ofNat 64 word) n fs))
  ∧ (∀ e s1, decodeGuest s co i.ga.toNat = (.error e, s1) → exec .guestDecode s = .next (noFetch s1 i.coach i.group i.ga e))
  ∧ (∀ w ops, systemPlane s w = some ops → exec (.systemPlateOp w) s = .next (addImp s co i.ga (.ops ops 8 true) false))
  ∧ (∀ w, systemPlane s w = none → exec (.systemPlateOp w) s = .next (rejectWord { s with iss := { i with word := w } } iOpcode))


/-! ### Events of coaches, rakes and pools (02, 05, 10) -/

/-- 02 R50, 05 R165, R194, R202-R206: a long result comes back into its slot; with every slot returned, the marked
operation's commit follows, and an FPE that it raises is taken before it, or held to the end of an expansion; lanes that
sleep, or wait at a route tag, go on when the counter has come; and a stalled push or pop completes once space or an
entry has appeared. The choices of the model that it rests on: logs 4, 37, 40 and 73. -/
def Obligations.CoachResults : Prop := ∀ (s : State) (k : Nat) (co : Coach), tget s.coaches k = some co →
  (∀ slot sl, co.rbuf[slot]? = some sl → sl.cpy = none → sl.tile = none →
    exec (.longResultReturn k slot) s = .next (setCoach s k { co with rbuf := co.rbuf.set slot { sl with returned := true } }))
  ∧ (∀ st, marked co = some st → allReturned co = true → co.trap = none →
      let fl := (commitAll s k).1
      let s1 := (commitAll s k).2
      let c1 := { coachOf s1 k with stalls := (coachOf s1 k).stalls.filter (fun x => x.kind != .marker) }
      (commitFpe c1 co.rbuf fl = none → exec (.returnBufferCommit k) s = .next (setCoach s1 k c1))
      ∧ (∀ t, commitFpe c1 co.rbuf fl = some t → exec (.returnBufferCommit k) s = .next (if st.step = 0
          then raiseTrap (setCoach s1 k c1) k t else setCoach s1 k (holdFpe c1 st.lanes { t with opaddr := st.ga }))))
  ∧ (∀ t, isResident s k = true → t ∈ wakeTimes co → (∀ u ∈ wakeTimes co, t ≤ u) →
      exec (.sleepWake k) s = .next (wakeReady (clockTo s (coreOf co) t) k))
  ∧ (∀ tag b, tget s.treebars tag = some b →
      let s0 := b.closed.foldl (fun s e => clockTo s e.2.1 (e.2.2 + 64)) s
      let past := fun (w : Wait) => match w with
        | .tbar t e => if t = tag % 8 ∧ b.closed.any (fun c => c.1 == e) = true then .ended (some 4) else w
        | _ => w
      let s1 := (tkeys (s0.coaches.filter (fun e => waitsTag e.2 tag))).foldl (fun s k => wakeReady (modCoach s k
        (fun co => { co with lanes := co.lanes.map (fun x => { x with wait := past x.wait }) })) k) s0
      exec (.tbarWake tag) s = .next { s1 with treebars := tput s1.treebars tag { b with closed := [] } })
  ∧ (isResident s k = true →
      (∀ st q e d, pushStall co = some (st, q, e, d) →
        (∀ s1, pushReg s k q e = .done s1 → exec (.queuePushComplete k) s = .next (passPush s1 k st))
        ∧ (pushReg s k q e = .full → exec (.queuePushComplete k) s = .next s)
        ∧ (∀ x va s1, pushReg s k q e = .xlat x va s1 → exec (.queuePushComplete k) s = .next (parkLanes s1 k
            (if st.lanes = BitVec.allOnes 64 then activeSet co else stallLanesNow co st) va x 2 true))
        ∧ (isDet s co = false → (∀ s1, pushReg s k q e = .done s1 → exec (.qfull k) s = .next (passPush s1 k st))
          ∧ (pushReg s k q e = .full →
            let s1 := modCoach (clockTo s (coreOf co) d) k (fun co => { co with stalls := co.stalls.erase st })
            let commit := st.lanes == BitVec.allOnes 64
            let m := if commit then st.opLanes else stallLanesNow co st
            let word := if commit then st.opword else ((lowLane m).map (fun l => (laneOf co l).word)).getD 0
            exec (.qfull k) s = .next (raiseTrap s1 k
              { cls := 8, sub := 0, step := st.step, tmask := m, rmask := none, move := 0, moveTo := 0
                moveCounts := false, opword := word, opaddr := st.ga, area := qfullArea q e, commit := commit }))))
      ∧ (∀ st q e s1, portPushStall co = some (st, q, e) → pushReg s k q e = .done s1 →
          exec (.portPushComplete k) s = .next (passPush s1 k st)))
  ∧ (∀ q st before after, isResident s k = true → co.stalls = before ++ st :: after → st.kind = .pop q none →
      let filled := fun (e : Entry) (co : Coach) =>
        { co with stalls := co.stalls.map (fun x => if x = st then { x with kind := .pop q (some e) } else x) }
      (∀ qi x e s1, q < 8 → (∀ x ∈ before, ∀ p, x.kind = .pop p none → 8 ≤ p) → boundQueue s co q = some (qi, x) →
        popQueue s (coreUnits (coreOf co)) co.region qi = some (e, s1) →
        exec (.queuePopComplete k) s = .next (modCoach (acquireGlobal s1 (l1Unit s1 (coreOf co)) co.ctx 4) k (filled e)))
      ∧ (∀ pk p r rs, 8 ≤ q → (∀ x ∈ before, ∀ p, x.kind = .pop p none → p < 8) → tget co.ports q = some pk →
          tget s.ports pk = some p → p.resps = r :: rs → 
            let s1 := { s with ports := tput s.ports pk { p with resps := rs } }
            exec (.portPopComplete k) s = .next (modCoach (acquireGlobal s1 (l1Unit s1 (coreOf co)) co.ctx 4) k (filled (.word r)))))

/-- 10 R380-R386: the coach that a partition issues for is ready, and outside a deterministic region no ready coach of
the partition has a higher effective priority; an admitted coach keeps the pool within its ceiling and its region within
LEASECAP, or, where its lease alone exceeds either, is alone in the pool; it is the first in the order of R381 that this
lets join, behind none but such coaches;
and the deadlines of a long wait, of a pool's interval, of a lease's measurement and of a time slice. The choices of the
model that it rests on: logs 4, 53 and 55. -/
def Obligations.CoachScheduling : Prop := ∀ (s : State) (n : Nat),
  (∀ i k, selectIn s n = some (i, k) →
    coachReady s k = true ∧ (i, k) ∈ readyIn s (n / 4) (n % 4)
    ∧ (isDet s (coachOf s k) = false → ∀ e ∈ readyIn s (n / 4) (n % 4),
        effectivePrio s (coachOf s e.2) ≤ effectivePrio s (coachOf s k))
    ∧ exec (.issueSelect n) s = .next { s with picked := some k, turn := 0 })
  ∧ (∀ k co, admitNext s n = some k → tget s.coaches k = some co →
      let act := (poolCoaches s n).filter (fun e => e.2.active)
      let tooBig := fun (c : Coach) => poolCeiling s n < c.leaseG ∨ leaseCap s c.region < c.leaseG
      let prio := fun (c : Coach) => ((tget s.regions c.region).map Region.prio).getD 0
      let before := fun (a b : Coach) => (a.atHead = true ∧ (b.atHead = true → a.returned.getD a.waitSince ≤ b.returned.getD b.waitSince))
        ∨ (a.atHead = false ∧ b.atHead = false ∧ (prio b < prio a ∨ (prio a = prio b ∧ a.waitSince ≤ b.waitSince)))
      (tooBig co → act = [])
      ∧ (¬ tooBig co → leaseSum act + co.leaseG ≤ poolCeiling s n
          ∧ leaseSum (act.filter (fun e => e.2.region == co.region)) + co.leaseG ≤ leaseCap s co.region)
      ∧ (∃ l r, askers s n = l ++ k :: r ∧ (∀ j ∈ l, tooBig (coachOf s j) ∧ before (coachOf s j) co) ∧ ∀ j ∈ r, before co (coachOf s j))
      ∧ exec (.coachAdmission n) s = .next (setCoach s k { co with
          active := true, atHead := false, returned := none, admitted := cycleOf s (coreOf co), idleSince := cycleOf s (coreOf co) }))
  ∧ (∀ co, tget s.coaches n = some co →
      (isResident s n = true → co.active = true → coachWaits s co = true →
        let s1 := clockTo s (coreOf co) (co.idleSince + 2049)
        exec (.longWaitExit n) s = .next (setCoach s1 n { co with
          active := false, waitSince := cycleOf s1 (coreOf co), atHead := true, heldBack := false }))
      ∧ (co.measured = true → 1024 ≤ co.mi →
          let e := min (max (max ((co.alloc + 255) / 256) (co.est - 1) + co.vh / 32) 1) 128
          exec (.leaseEstimateUpdate n) s = .next (setLease s n (fun co => { co with est := e, leaseG := e, mi := 0, alloc := 0, vh := 0 })))
      ∧ (isResident s n = true → co.sliceExpired = false → exec (.timeSliceExpiry n) s = .next
          (setCoach (clockTo s (coreOf co) (co.sliceStart + sliceOf s co.ctx)) n { co with sliceExpired := true })))
  ∧ (let i := tgetD 0 s.poolIntervals n
     let s1 := clockTo s (poolClock n) ((i + 1) * 4096)
     let s2 := (poolCoaches s1 n).foldl (fun s e => modCoach s e.1 (fun co => { co with heldBack := false })) s1
     let s3 := { s2 with poolIntervals := tput s2.poolIntervals n (i + 1), poolHits := tdel s2.poolHits n }
     let hot := 2 ^ (poolPart s2 n).thrLog < tgetD 0 s2.poolHits n
     (¬ hot → exec (.throttleInterval n) s = .next s3)
     ∧ (∀ k, hot → holdChoice s3 n = some k → exec (.throttleInterval n) s = .next (leaveActive s3 k false true)))

/-- 10 R375-R377, R386, R396, R397, 11 R434: a full core gives up an expired coach of the least priority for a waiter; a
saved coach is read back and seated; a rake is placed where its window and its coaches fit; and the stages of a region
exchange slots, or a deterministic region's next coach has its turn. The choices of the model that it rests on: logs 4,
20, 32, 33 and 41. -/
def Obligations.Placement : Prop := ∀ (s : State) (n : Nat),
  (let top := (waitersFor s (n / 8)).foldl (fun a b => if a < b then b else a) 0
   let leaves := fun (e : Nat × Coach) => (∃ q i, e.2.place = some (n, q, i)) ∧ e.2.sliceExpired = true ∧ e.2.inHandler = false
     ∧ e.2.trap = none ∧ prioOf s e.2.region ≤ top
   waitersFor s (n / 8) ≠ [] → 64 ≤ coreCount s n → (∃ e ∈ s.coaches, leaves e) →
    ∃ e ∈ s.coaches, leaves e ∧ (∀ x ∈ s.coaches, leaves x → prioOf s e.2.region ≤ prioOf s x.2.region)
      ∧ exec (.coachEviction n) s = .next (saveCoach s e.1))
  ∧ (∀ p s1, mayRestore s n = true → restorePlace s n = some p →
      (readImage s n (p.1 / 80) = (true, s1) → exec (.coachRestore n) s = .next (seatCoach s1 n p))
      ∧ (readImage s n (p.1 / 80) = (false, s1) → exec (.coachRestore n) s = .next s1))
  ∧ (∀ k r cl base seats, tget s.rakes n = some k → tget s.regions k.region = some r → placeFor s n = some (cl, base, seats) →
      let s0 := modRegion (if s.fusedClusters.contains cl == r.fused then s else setFused s cl r.fused) k.region
        (fun r => { r with lastCluster := some cl })
      let s1 := modRake s0 n (fun k => { k with cluster := some cl, padBase := base, pinned := none, created := true
                                                rslot := (takenRslot s0 k r.ctx).getD k.rslot })
      let s2 := (seats.map (fun p => p.1)).eraseDups.foldl (fun s c => acquireGlobal s (l1Unit s c) r.ctx 4) s1
      (k.created = true → exec (.rakePlacement n) s = .next (readRakeImage s1 n))
      ∧ (∀ st, k.created = false → r.stages[k.stage]? = some st →
          exec (.rakePlacement n) s = .next (makeCoaches s2 r n k.idx r.ctx st seats)))
  ∧ (∀ r core, tget s.regions n = some r → rebalCore s n = some core → r.det = false → r.completed = false →
      let seen := match r.rebalSeen with
        | some (c, t) => if c = core then cycleOf s core - t else 0
        | none => 0
      let s1 := clockTo s core (cycleOf s core + (r.rebalLeft - seen))
      let r1 := { r with queues := mapFrom (fun i (q : Queue) => { q with pending := pendingMove r i q }) 0 r.queues
                         rebalLeft := 8192, rebalSeen := some (core, cycleOf s1 core) }
      exec (.stageRebalance n) s = .next { s1 with regions := tput s1.regions n r1 })
  ∧ (∀ k r y qi, tget s.rakes n = some k → tget s.regions k.region = some r → r.det = false → k.unslotted = false →
      k.cluster ≠ none → atPopPoint s k = true → moveTarget s k.region r k.stage = some (y, qi) →
      let s1 := modRake (saveRake s n) n (fun k => { k with unslotted := true, slot := none })
      exec (.slotMove n) s = .next (fillSlot (modRegion s1 k.region (fun r => shiftSlot r k.stage y (qi.getD r.queues.length)))
        k.region y k.slot qi.isNone))
  ∧ (∀ r, tget s.regions n = some r → r.det = true → r.completed = false → r.turnBusy = none →
      let s1 := { s with regions := tput s.regions n { r with turnBusy := none } }
      (r.members ++ r.joiners ≠ [] → r.members[r.position.1]? = none → ∃ t, exec (.ticketTurn n) s = .next t
        ∧ tget t.regions n = some { r with members := r.members ++ r.joiners, joiners := [], position := (0, 0), round := r.round + 1 })
      ∧ (∀ m rk x k, r.members[r.position.1]? = some m → tget s.rakes (rakeKey n m.1) = some rk → rk.created = true →
          rk.coaches.all (fun k => coachLeft (coachOf s1 k)) = false → rk.cluster ≠ none → rk.halt = none → nextIdx s1 rk r.position.2 = some x → coachAt s1 rk x = some k →
          isResident s1 k = true →
          (∀ s2, visitCoach k (r.round - m.2.2 + 1) ((coachOf s1 k).ended.length + 1) s1 = .next s2 → exec (.ticketTurn n) s
            = .next (checkCoach (turnMoves s2 n (fun y => { y with position := (r.position.1, x + 1) })) k))
          ∧ (∀ s2, visitCoach k (r.round - m.2.2 + 1) ((coachOf s1 k).ended.length + 1) s1 = .wait s2 →
              exec (.ticketTurn n) s = .next s2)))

/-! ### The memory system's own events, and the monitors (09, 12, 15) -/

/-- 09 R336, 11 R427, R433, 12 R445, R465, R466, R470, 15 R502, R504: an L1 line's dirty bytes go home; a register line
is filled from its image; a counter at its threshold notifies, in a ring with room; scrubbing leaves no soft error; a
transaction that fails twice poisons its line, and sixteen failures in 2^20 cycles are fatal; the clock moves by 50 MHz
between 800 and 1,900; a fatal device has no keys, no L1 and no L2; and the cap lies between 600 W and 1,500 W. The
choices of the model that it rests on: logs 13, 14, 17 and 43. -/
def Obligations.MemoryEvents : Prop := ∀ (s : State) (n line : Nat),
  (∀ c, l1Find s n line = some c → (c.dirty ≠ 0 → exec (.l1DirtyPropagation n line) s = .next (l1Clean s n c))
    ∧ (c.dirty = 0 → exec (.l1DirtyPropagation n line) s = .next s))
  ∧ (∀ part, partKey (coachOf s n) = some part → line ≤ (coachOf s n).nregs → lineEntry s part n line = none →
      let co := coachOf s n
      let units := dieUnits (coreOf co / 80)
      (co.out.contains line = false → exec (.registerLineFill n line) s = .next (cacheLine s part n line true))
      ∧ (∀ ps s1 f s2, co.out.contains line = true →
          areaPieces s units co.ctx (imageAddr s co + lineOffsetOf co line) 256 .read = (some ps, s1) →
          ownReadP s1 units co.ctx (imageAddr s1 co + 0x6000 + line) 1 = (.ok f, s2) →
          let s3 := fillOwn (cacheLine s2 part n line false) co.ctx ps
          poisonOwn s3 ps = none →
          (∀ y, lineOf (coachOf s3 n) line (leNat f) (readOwn s3 ps) = some y →
            exec (.registerLineFill n line) s = .next (setCoach s3 n y))
          ∧ (lineOf (coachOf s3 n) line (leNat f) (readOwn s3 ps) = none → exec (.registerLineFill n line) s
              = .next (coachError (modCoach s3 n (fun co => { co with v := co.v.filter (fun e => e.1 / 64 != line) })) n 5
                  (lineOffsetOf co line)))))
  ∧ (∀ c b, tget s.ctrs (n * 1024 + line) = some c → ctrRoom s = some b → (c.count < 2 ^ s.pf.ctrThr →
        exec (.accessCounterNotify n line) s = .next s)
      ∧ (2 ^ s.pf.ctrThr ≤ c.count → ∃ t, exec (.accessCounterNotify n line) s = .next t
          ∧ tget t.ctrs (n * 1024 + line) = some { c with count := 0 } ∧ t.pf.ctrWidx = s.pf.ctrWidx + 1 ∧ (0, 2) ∈ t.msix
          ∧ (let at_ := field s.pf.ctrRing.toNat 51 12 * 4096 + 16 * (s.pf.ctrWidx.toNat % 2 ^ b)
             t.mem = memWrite s.mem at_ (leBytes 8 (c.extent * 2 ^ 21) ++ leBytes 4 c.count ++ leBytes 1 n ++ List.replicate 3 0))))
  ∧ (∃ t, exec (.dramScrub n) s = .next t ∧ ∀ l, isDram (l * 64) = true → homeDie (l * 64) = n → tget t.softErrors l = none)
  ∧ (∃ t, exec (.l2Scrub n line) s = .next t ∧ (homeDie (line * 64) = n → tget t.softErrors line = none)
      ∧ (tget s.softErrors line = none → t = s))
  ∧ exec (.flowTagFailure n line false) s = .next s
  ∧ (∃ t, exec (.flowTagFailure n line true) s = .next t ∧ (n % 2 = 0 → line ∈ t.poison)
      ∧ (16 ≤ (tgetD [] t.flowFails n).length → t.pf.fatal = true)
      ∧ (n % 2 = 1 → t.pf.fatal = s.pf.fatal → ∀ e ∈ t.l1, e.1 = 160 + n / 2 % 20 → ∀ c ∈ e.2, c.line = line → c.poisoned = true))
  ∧ (∃ t, exec (.thermalThrottle n) s = .next t ∧ clockOf t n = max 800 (clockOf s n - 50) ∧ t = { s with clockMHz := t.clockMHz })
  ∧ (∃ t, exec (.thermalRecover n) s = .next t ∧ clockOf t n = min 1900 (clockOf s n + 50) ∧ t = { s with clockMHz := t.clockMHz })
  ∧ (∃ t, exec .thermalFatal s = .next t ∧ t.pf.fatal = true ∧ t.keys = [] ∧ t.flowKey = none ∧ t.l1 = [] ∧ t.l2 = []
      ∧ t.mem = (logError s 0 5 0 0 none none none).mem ∧ (0, 0) ∈ t.msix)
  ∧ (600 ≤ n → n ≤ 1500 → exec (.powerCapSet n) s = .next { s with powerCap := n })
  ∧ (n < 600 ∨ 1500 < n → exec (.powerCapSet n) s = .next s)

/-! ### The hallmark engines, the queues and the host's registers (10, 11, 12, 15) -/

/-- 12 R454-R464: the command at the head of a port. A header that is none of OPEN, ABSORB and CLOSE answers BADCMD, and
the first check that fails answers BADFIELD, OPTM, NOSESS or BUSY. OPEN opens a session under the next number of its
die; ABSORB takes the bytes that it reads; CLOSE starts a signing unit, and the record is written when the signature is
complete. The choices of the model that it rests on: log 59. -/
def Obligations.HallmarkCommands : Prop := ∀ (s : State) (die port : Nat) (p : Port) (c : HallCmd),
  let pk := portKey die port
  let co := coachOf s p.coach
  tget s.ports pk = some p → headCmd p = some c →
  (c.headOk = false → exec (.hallmarkBadcmd die port) s = .next (failCmd s pk c false 1))
  ∧ (c.headOk = true → c.cmd = 1 →
      let bad := c.words.length < 3 ∨ c.pair 0 % 256 ≠ 0 ∨ 2 ^ 57 ≤ c.pair 0 ∨ 1 < c.word 2
      let options := hallOptions true (c.words.drop 3) false 0
      let busy := 4096 ≤ sessionsHeld s die ∨ 2 ^ 32 - 1 ≤ tgetD 0 s.hallCount die
      (bad → exec (.hallmarkOpen die port) s = .next (failCmd s pk c false 2))
      ∧ (¬ bad → options = none → exec (.hallmarkOpen die port) s = .next (failCmd s pk c false 3))
      ∧ (∀ ign label, ¬ bad → options = some (ign, label) → busy → exec (.hallmarkOpen die port) s = .next (failCmd s pk c ign 6))
      ∧ (∀ ign label pa leaf s1, ¬ bad → options = some (ign, label) → ¬ busy → p.failed = false →
          xlateProgram s (dieUnits die) co.ctx (c.pair 0) .write = (.ok pa leaf, s1) →
          exec (.hallmarkOpen die port) s = .next (openSession s1 pk die co c ign label)))
  ∧ (c.headOk = true → c.cmd = 2 →
      let bad := c.words.length < 4 ∨ 2 ^ 57 < c.pair 1 + c.word 3
      let options := hallOptions false (c.words.drop 4) false 0
      let found := findSession s die co.ctx (c.word 0)
      (bad → exec (.hallmarkAbsorb die port) s = .next (failCmd s pk c false 2))
      ∧ (∀ o, ¬ bad → options = some o → found = none → exec (.hallmarkAbsorb die port) s = .next (failCmd s pk c o.1 4))
      ∧ (∀ o key se bs s1, ¬ bad → options = some o → found = some (key, se) → se.void_ = none → p.failed = false →
          absorbLines die co.ctx ((c.word 3 - p.done) / 64 + 2) (c.pair 1 + p.done) (c.word 3 - p.done) [] s = .all bs s1 →
          exec (.hallmarkAbsorb die port) s = .next (answerCmd (takeBytes s1 key bs) pk c [statusWord 2 o.1 0] 0)))
  ∧ (c.headOk = true → c.cmd = 3 →
      let options := hallOptions false (c.words.drop 1) false 0
      let found := findSession s die co.ctx (c.word 0)
      (c.words = [] → exec (.hallmarkClose die port) s = .next (failCmd s pk c false 2))
      ∧ (∀ o key se, c.words ≠ [] → options = some o → found = some (key, se) → se.void_ = none →
          (2 ≤ (tgetD [] s.signing die).length → exec (.hallmarkClose die port) s = .next s)
          ∧ ((tgetD [] s.signing die).length < 2 → exec (.hallmarkClose die port) s = .next (answerCmd
              { s with sessions := tput s.sessions key { se with closing := some (pk, o.1) }
                       signing := tput s.signing die (tgetD [] s.signing die ++ [key]) } pk c [] 1))))
  ∧ (∀ n, isSigning s die (sessionKey die n) = true →
      exec (.hallmarkRecordWrite die n) s = .next (finishClose s die (sessionKey die n)))
  ∧ (∀ n, isSigning s die (sessionKey die n) = false → exec (.hallmarkRecordWrite die n) s = .next s)

/-- 10 R361-R364, 11 R436: the message at RIDX of a queue that is not torn down. LAUNCH creates its region; WAIT goes on
when its word has reached the value; SIGNAL raises a word to its value; NOTE writes one; FENCE goes on when the queue is
quiet; and PREEMPT saves the context's rakes or lets them be placed again. The choices of the model that it rests on:
logs 51 and 62. -/
def Obligations.Messages : Prop := ∀ (s : State) (ctx q : Nat) (x : HwQueue), queueAt s ctx q = some x →
  (∀ m s1, x.waiting = none → x.torn = false → x.discard = 0 → readMsg s ctx q = .msg m s1 → msgOk m = true →
    let kind := msgNum m 0 1
    let addr := msgNum m 8 8
    let v := msgNum m 16 8
    let done := fun (t : State) => completeMsg t ctx q m
    (kind = 1 → exec (.msgLaunch ctx q) s = .next (done (launchRegion s1 ctx none (some q) 1 addr v)))
    ∧ (kind = 2 → exec (.msgWait ctx q) s = .next (pollWait (modQueue s1 ctx q (fun y =>
        { y with waiting := some (addr, BitVec.ofNat 64 v) })) ctx q))
    ∧ (∀ ps s2, kind = 3 → ownPieces s1 (dieUnits 0) ctx addr 8 .atomic = (.ok ps, s2) →
        let s3 := fillOwn s2 ctx ps
        poisonOwn s3 ps = none → exec (.msgSignal ctx q) s = .next (done (l2System
          (writeOwn s3 ctx ps (leBytes 8 (max (leNat (readOwn s3 ps)) v))) false)))
    ∧ (∀ r s2, kind = 4 → ownWriteV s1 (dieUnits 0) ctx addr (leBytes 8 v) = (.ok r, s2) →
        exec (.msgNote ctx q) s = .next (done (l2System s2 false)))
    ∧ (kind = 5 → exec (.msgFence ctx q) s = .next (if queueQuiet s1 ctx q then done (l2System s1 false) else s1))
    ∧ (kind = 6 → msgNum m 8 1 = 0 → exec (.msgPreemptSave ctx q) s = .next (done (modCtx ((ctxRakes s1 ctx).foldl saveRake s1) ctx
        (fun c => { c with saved := true }))))
    ∧ (kind = 6 → msgNum m 8 1 = 1 → exec (.msgPreemptResume ctx q) s = .next (done (modCtx s1 ctx (fun c => { c with saved := false })))))
  ∧ (∀ m s1, x.waiting = none → x.torn = true → x.discard = 0 → readMsg s ctx q = .msg m s1 → msgOk m = true →
      (msgNum m 0 1 = 1 → exec (.msgLaunch ctx q) s
        = .next (completeMsg (refuseLaunch s1 ctx q (msgNum m 8 8) (msgNum m 16 8) 9) ctx q m))
      ∧ (msgNum m 0 1 = 4 → exec (.msgNote ctx q) s = .next (skipMsg s1 ctx q)))
  ∧ (∀ va n bs s1, x.waiting = some (va, n) → x.fault = none → x.torn = false →
      ownReadP (l2System s true) (dieUnits 0) ctx va 8 = (.ok bs, s1) →
      (leNat bs < n.toNat → exec (.waitPoll ctx q) s = .next s1)
      ∧ (∀ m s2, n.toNat ≤ leNat bs → ownReadP s1 (dieUnits 0) ctx (x.base + 64 * x.slot) 64 = (.ok m, s2) →
          exec (.waitPoll ctx q) s = .next (completeMsg s2 ctx q m)))

/-- 10 R361, 11 R422, R435, R436, 08 R331, 15 R493-R500, R503-R505: what a write of the host's does once READY is set. A
doorbell moves WIDX; QERR re-arms a queue or tears it down; commands start, and are refused while their port is busy; a
command of a context needs the negotiated features; DEBUG is refused to a confidential world without a token; partitions
change within their limits; and before READY a write does nothing. The choices of the model that it rests on: logs 47,
60 and 61. -/
def Obligations.HostWrites : Prop := ∀ (s : State) (v : BitVec 64),
  (∀ n q f, s.pf.ready = false → ∀ i : Instr, i ∈ [.doorbell n q v, .qerrRearm n q, .qerrTeardown n q, .invcmd n v, .platecmd n v, .debugWrite n v,
      .featdrvWrite f, .partcmd v, .ctxcmdCreate v, .ctxcmdReset v, .ctxcmdDestroy v, .ctrassignAssign v, .ctrassignUnassign v,
      .portreq v, .registerWrite n q v] → exec i s = .next s)
  ∧ (s.pf.ready = true →
    (∀ n q c x, tget s.ctxs n = some c → c.queues[q]? = some x →
      let put := fun (y : HwQueue) => { s with ctxs := tput s.ctxs n { c with queues := c.queues.set q y } }
      (v.toNat < 2 ^ 32 → x.k ≠ 0 → exec (.doorbell n q v) s = .next (
          if 2 ^ 31 ≤ (loOf v - x.widx).toNat then overrunQueue (put { x with widx := loOf v }) n q else put { x with widx := loOf v }))
      ∧ (x.torn = true → exec (.qerrRearm n q) s = .next (put { x with state := 0 }) ∧ exec (.qerrTeardown n q) s = .next s)
      ∧ (x.torn = false → exec (.qerrTeardown n q) s = .next (tearQueue s n q 9)))
    ∧ (∀ n c, tget s.ctxs n = some c →
        let put := fun (c : Ctx) => { s with ctxs := tput s.ctxs n c }
        (c.invBusy = false → exec (.invcmd n v) s = .next (put { c with invCmd := v &&& 0x3F, invFirst := field c.invAddr.toNat 56 12, invBusy := true }))
        ∧ (c.invBusy = true → exec (.invcmd n v) s = .next (put c))
        ∧ (c.plateBusy = true → exec (.platecmd n v) s = .next (put c))
        ∧ (c.plateBusy = false → exec (.platecmd n v) s = .next (put { c with plateCmd := v &&& 0xFFFFFFFFFFFFF, plateBusy := true }))
        ∧ (v.getLsbD 0 = false → exec (.debugWrite n v) s = .next (put { c with dbgen := false }))
        ∧ (v.getLsbD 0 = true → c.world = 0 ∨ worldCovered s c.world = true → exec (.debugWrite n v) s = .next (put { c with dbgen := true }))
        ∧ (v.getLsbD 0 = true → c.world ≠ 0 → worldCovered s c.world = false → ∃ t, exec (.debugWrite n v) s = .next t
            ∧ tget t.ctxs n = some c))
    ∧ (∀ f, ∃ g : BitVec 128,
        (∀ i, g.getLsbD i = true ↔ s.pf.featDev.getLsbD i = true
          ∧ ((1 ≤ i ∧ i ≤ 40) ∨ (f.getLsbD i = true ∧ (i = 0 ∨ (41 ≤ i ∧ i ≤ 44)))))
        ∧ (let t := { s with pf := { s.pf with featDrv := g } }
           exec (.featdrvWrite f) s = .next (if g.getLsbD 41 = s.pf.featDrv.getLsbD 41 then t else revokeIndex t 4)))
    ∧ (let p := field v.toNat 4 0
       let mask : BitVec 20 := BitVec.ofNat 20 (field v.toNat 27 8)
       let ceil := field v.toNat 47 40
       let fused := field v.toNat 57 48 + 1
       let thr := field v.toNat 63 58
       let dropped := (partOf s p).clusters &&& ~~~mask
       let inside := p ≤ 19 ∧ field v.toNat 39 28 = 0 ∧ 16 ≤ ceil ∧ ceil ≤ 128 ∧ 128 ≤ fused ∧ 8 ≤ thr ∧ thr ≤ 16
         ∧ ∀ e ∈ s.ctxs, e.2.part ≠ p ∧ (partOf s e.2.part).clusters &&& mask = 0 ∧ (e.2.part = 0 → dropped = 0)
       (inside → ∃ t, exec (.partcmd v) s = .next t
          ∧ tget t.parts p = some { clusters := if p = 0 then mask ||| dropped else mask, ceil := ceil, ceilFused := fused, thrLog := thr }
          ∧ (∀ q x, q ≠ p → q ≠ 0 → tget s.parts q = some x → tget t.parts q = some { x with clusters := x.clusters &&& ~~~mask })
          ∧ (∀ x, p ≠ 0 → tget s.parts 0 = some x → tget t.parts 0 = some { x with clusters := x.clusters &&& ~~~mask ||| dropped }))
       ∧ (¬ inside → exec (.partcmd v) s = .next s))
    ∧ (∀ (op : Nat) (i : Instr), (op, i) ∈ [(1, .ctxcmdCreate v), (2, .ctxcmdReset v), (3, .ctxcmdDestroy v)] → field v.toNat 9 8 = op →
        (s.pf.ctxstat = 1 → exec i s = .next s) ∧ (s.pf.ctxstat ≠ 1 →
        let n := field v.toNat 5 0
        let put := fun (k : Nat) => { s with pf := { s.pf with ctxcmd := v, ctxstat := k } }
        (s.pf.featDrv.getLsbD 0 = false → exec i s = .next (put 5))
        ∧ (s.pf.featDrv.getLsbD 0 = true → op = 1 → (tget s.ctxs n).isSome → exec i s = .next (put 3))
        ∧ (s.pf.featDrv.getLsbD 0 = true → op ≠ 1 → tget s.ctxs n = none → exec i s = .next (put 3))
        ∧ (s.pf.featDrv.getLsbD 0 = true → op ≠ 1 → (tget s.ctxs n).isSome →
            let t := contextReset { s with pf := { s.pf with ctxcmd := v } } n
            exec i s = .next { t with pf := { t.pf with ctxPending := some (op, n), ctxstat := 1 } })
        ∧ (let pa := field v.toNat 63 12 * 4096
           let s1 := { s with pf := { s.pf with ctxcmd := v } }
           let s2 := ownFill s1 0 pa 512
           let b := ownRead s2 pa 512
           s.pf.featDrv.getLsbD 0 = true → op = 1 → tget s.ctxs n = none →
             (isBacked pa = false ∨ (potSeen s pa).poison = true → exec i s = .next (put 2))
             ∧ (isBacked pa = true → (potSeen s pa).poison = false → poisonIn s2 pa 512 = none →
             descOk s2 b = true → (blkNum b 8 2 = 0 ∨ ((tget s2.worlds (blkNum b 8 2)).isSome
               ∧ tget s2.portil.bindings (n + 1) = some (blkNum b 8 2))) →
             exec i s = .next { s2 with ctxs := tput s2.ctxs n (ctxOfDesc b), pf := { s2.pf with ctxstat := 0 } }))))
    ∧ (v.getLsbD 63 = true → exec (.ctrassignAssign v) s = .next { s with
        ctrs := tput s.ctrs (ctrKey v) { extent := field v.toNat 51 21, count := 0 } })
    ∧ (v.getLsbD 63 = false → exec (.ctrassignUnassign v) s = .next { s with ctrs := tdel s.ctrs (ctrKey v) })
    ∧ (∀ off, exec (.registerWrite 0 off v) s = .next { s with pf := writePf s.pf off v })
    ∧ (∀ n off c, tget s.ctxs n = some c → exec (.registerWrite (n + 1) off v) s = .next
        { s with ctxs := tput s.ctxs n (writeVf c off v) })
    ∧ (s.pf.portBusy = false →
        let buf := field v.toNat 63 11 * 2048
        let raw := ownRead { s with pf := { s.pf with portreq := v } } (0x80000000000 + buf) 1024
        let len := imgNum raw 2 2
        v.getLsbD 0 = true → isHostWindow (0x80000000000 + buf) = true → 16 ≤ len → len ≤ 1024 → len % 16 = 0 →
        exec (.portreq v) s = .next { s with
          pf := { s.pf with portreq := v, portBusy := true }
          portil := { s.portil with pending := some (buf, raw.take len), queue := s.portil.queue ++ [(.mailbox, raw.take len)] } }))

/-- 11 R422, R435, 08 R331, 15 R493, R498, R503: what the host's commands come to, and its accesses. An invalidation
leaves no translation of its range; a plate load takes its slot, or reports why not; a command of a context waits for the
writes that the context still owes, and a destroyed one leaves nothing;
an access from outside reaches pages of world 0 and is else refused: the host's is logged and reads all ones, a peer's
is dropped. The choices of the model that it rests on: logs 46 and 60. -/
def Obligations.HostCompletions : Prop := ∀ (s : State) (n : Nat),
  (∀ c, tget s.ctxs n = some c →
    let first := (invRange c).1
    let pages := (invRange c).2
    let hits := fun (p : Nat) => decide (first ≤ p ∧ p < first + pages)
    (c.invBusy = false → exec (.invalidationComplete n) s = .next s)
    ∧ (c.invBusy = true → tilesHold s (fun k p => k / 16384 == n && hits p.1) = true → exec (.invalidationComplete n) s = .next s)
    ∧ (c.invBusy = true → tilesHold s (fun k p => k / 16384 == n && hits p.1) = false →
        ∃ t, exec (.invalidationComplete n) s = .next t ∧ (n + 1, 17) ∈ t.msix
          ∧ (∀ u ∈ t.tlbs, ∀ e ∈ u.2, e.ctx = n → ¬ (e.va / 4096 < first + pages ∧ first < e.va / 4096 + 2 ^ (e.log - 12)))))
  ∧ (∀ c p s1, tget s.ctxs n = some c → c.plateBusy = true → loadPlate s n c c.plateCmd = (.ok p, s1) →
      let slot := field c.plateCmd.toNat 2 0
      let s2 := modCtx s1 n (fun c => { c with plates := tput c.plates slot p })
      let s3 := { s2 with imps := s2.imps.filter (fun i => i.ctx != n || i.slot != slot) }
      exec (.plateLoadComplete n) s = .next (raiseVector (modCtx s3 n (fun c => { c with plateBusy := false, plateStat := 0 })) (n + 1) 17))
  ∧ (∀ c e s1, tget s.ctxs n = some c → c.plateBusy = true → loadPlate s n c c.plateCmd = (.error e, s1) →
      exec (.plateLoadComplete n) s = .next (raiseVector (modCtx s1 n (fun c => { c with plateBusy := false, plateStat := e })) (n + 1) 17))
  ∧ (∀ op, s.pf.ctxPending = some (op, n) → ctxOwes s n = true → exec .ctxcmdComplete s = .next s)
  ∧ (s.pf.ctxPending = some (2, n) → ctxOwes s n = false →
      exec .ctxcmdComplete s = .next { s with pf := { s.pf with ctxPending := none, ctxstat := 0 } })
  ∧ (s.pf.ctxPending = some (3, n) → ctxOwes s n = false → ∃ t, exec .ctxcmdComplete s = .next t ∧ t.pf.ctxstat = 0 ∧ t.pf.ctxPending = none
      ∧ tget t.ctxs n = none ∧ (∀ e ∈ t.coaches, e.2.ctx ≠ n) ∧ (∀ e ∈ t.regions, e.2.ctx ≠ n) ∧ (∀ u ∈ t.tlbs, ∀ e ∈ u.2, e.ctx ≠ n)
      ∧ t.mem = s.mem)
  ∧ (∀ off size v, s.pf.ready = true →
      let pa := s.pf.aperbase.toNat + off % 2 ^ 36
      let open_ := isBacked pa = true ∧ potSeen s pa = PotE.free ∧ pa % 64 + min size 8 ≤ 64
      (open_ → exec (.hostApertureAccess true off size v) s = .next (ownWrite (ownFill s 0 pa (min size 8)) 0 pa (leBytes (min size 8) v.toNat)))
      ∧ (open_ → exec (.hostApertureAccess false off size v) s = .next (let s1 := ownFill s 0 pa (min size 8)
          { s1 with hostRead := BitVec.ofNat 64 (leNat (ownRead s1 pa (min size 8))) }))
      ∧ (∀ w, isBacked pa = true → refusedAt s pa (min size 8) = none →
          exec (.hostApertureAccess w off size v) s = .next (outsideAccess s w pa (min size 8) v))
      ∧ (isBacked pa = false ∨ (potOf s pa).world ≠ 0 ∨ s.upsets.contains (.pot (pa / 4096)) = true →
          let s1 := logError s srcDram 1 (homeDie pa) pa none (some (potOf s pa).world) none
          exec (.hostApertureAccess true off size v) s = .next s1
          ∧ exec (.hostApertureAccess false off size v) s = .next { s1 with hostRead := BitVec.allOnes 64 }))
  ∧ (∀ off size v, s.pf.ready = false → exec (.hostApertureAccess true off size v) s = .next s
      ∧ exec (.hostApertureAccess false off size v) s = .next { s with hostRead := BitVec.allOnes 64 })
  ∧ (∀ pa size v, n < 12 → s.pf.featDev.getLsbD (52 + n) = true → isDram pa = true → potSeen s pa = PotE.free → pa % 64 + min size 8 ≤ 64 →
      exec (.peerAccess n true pa size v) s = .next (ownWrite (ownFill s 0 pa (min size 8)) 0 pa (leBytes (min size 8) v.toNat)))
  ∧ (∀ pa size v, n < 12 → s.pf.featDev.getLsbD (52 + n) = true → isDram pa = true → potSeen s pa = PotE.free → pa % 64 + min size 8 ≤ 64 →
      exec (.peerAccess n false pa size v) s = .next (let s1 := ownFill s 0 pa (min size 8)
        { s1 with hostRead := BitVec.ofNat 64 (leNat (ownRead s1 pa (min size 8))) }))
  ∧ (∀ w pa size v, n < 12 → s.pf.featDev.getLsbD (52 + n) = true → isDram pa = true → refusedAt s pa (min size 8) = none →
      exec (.peerAccess n w pa size v) s = .next (outsideAccess s w pa (min size 8) v))
  ∧ (∀ pa size v, n < 12 → s.pf.featDev.getLsbD (52 + n) = true →
      isDram pa = false ∨ (potOf s pa).world ≠ 0 ∨ s.upsets.contains (.pot (pa / 4096)) = true →
      exec (.peerAccess n true pa size v) s = .next s ∧ ∃ t, exec (.peerAccess n false pa size v) s = .next t ∧ t.mem = s.mem)
  ∧ (∀ w pa size v, 12 ≤ n ∨ s.pf.featDev.getLsbD (52 + n) = false → exec (.peerAccess n w pa size v) s = .next s)
  ∧ (∀ pages, s.pf.featDev.getLsbD 44 = true → s.pf.featDrv.getLsbD 44 = true →
      let base := 0x80000000 + n
      tilesHold s (fun _ p => decide (base ≤ p.2.1 / 4096 ∧ p.2.1 / 4096 < base + pages)) = false →
      ∃ t, exec (.atsInvalidation n pages) s = .next t ∧ (∀ u ∈ t.tlbs, ∀ e ∈ u.2, ¬ (e.pa / 4096 < base + pages ∧ base < e.pa / 4096 + 2 ^ (e.log - 12)))
        ∧ (∀ u ∈ t.ats, ∀ p ∈ u.2, ¬ (base ≤ p ∧ p < base + pages))
        ∧ (∀ c ∈ t.l2, ¬ (base ≤ c.line / 64 ∧ c.line / 64 < base + pages)))

/-! ### Portil and bring-up (12, 15) -/

/-- 12 R439-R453, R506-R508: Portil's requests, performed one at a time: a request that comes while others wait joins them;
one that Portil has taken from the queue, or that comes while none waits, is performed. An unknown code answers BADARG.
CREATE_WORLD and the four requests on pages answer AUTH on a path that is not theirs, BADARG with a block that breaks its
form, and STATE with a page in a wrong state; one whose frame a tile still holds waits, its page in SCRUB or EXPORTED and
its translations gone; one that holds answers DONE, POISONED or its result. DEBUG_UNLOCK answers DONE for a token of this
device over the nonce outstanding, whose signature holds, and covers the debuggable worlds that it lists. The choices of
the model that it rests on: logs 11, 12, 61 and 94. -/
def Obligations.PortilRequests : Prop := ∀ (s0 s : State) (src : ReqSource) (block : List (BitVec 8)), s.portil.taken = none →
  (s.portil.queue ≠ [] → ∀ i ∈ [Instr.createWorld src block, .destroyWorld src block, .assign src block, .reclaim src block,
      .exportPage src block, .importPage src block, .loadKey src block, .revokeKey src block, .getNonce src block,
      .debugUnlock src block],
    exec i s = .next { s with portil := { s.portil with queue := s.portil.queue ++ [(src, block)] } })
  ∧ ((s0 = s ∧ s.portil.queue = []) ∨ s0 = { s with portil := { s.portil with taken := some (src, block) } } →
  let asked := fun (code len : Nat) (zeros : List (Nat × Nat)) => imgNum block 0 2 = code ∧ blockGood block len zeros = true
  let w := imgNum block 8 2
  let p := imgNum block 8 8
  let answers := fun (i : Instr) (t : State) (status : Nat) (r : List Byte) => exec i s0 = .next (answerReq t src block status r)
  let quiet := fun (q : Nat) => frameQuiet s q = true
  let put := fun (t : State) (q : Nat) (e : PotE) => potSet (scrubFrame t q) q e
  (imgNum block 0 2 = 0 ∨ 10 < imgNum block 0 2 → ∀ i ∈ [Instr.createWorld src block, .destroyWorld src block, .assign src block,
      .reclaim src block, .exportPage src block, .importPage src block, .loadKey src block, .revokeKey src block, .getNonce src block,
      .debugUnlock src block], answers i s 1 [])
  ∧ (imgNum block 0 2 = 1 → boundTo s src w = false → answers (.createWorld src block) s 4 [])
  ∧ (imgNum block 0 2 = 1 → boundTo s src w = true → blockGood block 16 [(11, 5)] = false → answers (.createWorld src block) s 1 [])
  ∧ (∀ (i : Instr) (c len : Nat) (z : List (Nat × Nat)), (i, c, len, z) ∈ [(.assign src block, 3, 32, [(18, 14)]),
      (.reclaim src block, 4, 16, []), (.exportPage src block, 5, 32, [(24, 8)]), (.importPage src block, 6, 32, [(26, 6)])] →
      imgNum block 0 2 = c → (src ≠ .mailbox → answers i s 4 [])
        ∧ (src = .mailbox → blockGood block len z = false → answers i s 1 []))
  ∧ (asked 1 16 [(11, 5)] → boundTo s src w = true → 1 ≤ w → w ≤ 2047 → imgNum block 10 1 ≤ 1 → tget s.worlds w = none →
      (freeSlot s = none → answers (.createWorld src block) s 3 [])
      ∧ (∀ slot, freeSlot s = some slot →
        let s1 := loadSlot { s with portil := { s.portil with keys := s.portil.keys + 1 } } slot 1 w s.portil.keys 0 []
        let x : World := { debuggable := imgNum block 10 1 == 1, exports := 0, covered := false, slot := slot }
        answers (.createWorld src block) { s1 with worlds := tput s.worlds w x } 0 []))
  ∧ (asked 2 16 [(10, 6)] → boundTo s src w = true → (tget s.worlds w).isSome →
      let used := (∃ e ∈ s.ctxs, e.2.world = w) ∨ ∃ e ∈ s.pot, e.2.world = w
      (used → answers (.destroyWorld src block) s 2 [])
      ∧ (¬ used →
        let s1 := (tkeys (s.keys.filter (fun e => e.2.world == w))).foldl revokeSlot s
        answers (.destroyWorld src block) { s1 with
          worlds := tdel s1.worlds w, portil := { s1.portil with exports := s1.portil.exports.filter (fun e => e.1 != w) } } 0 []))
  ∧ (asked 3 32 [(18, 14)] → src = .mailbox →
      (pageOk p = false → answers (.assign src block) s 1 [])
      ∧ (pageOk p = true → ((potOf s p).state ≠ 0 ∧ (potOf s p).state ≠ 3) ∨ (potOf s p).world ≠ 0
          ∨ tget s.worlds (imgNum block 16 2) = none → answers (.assign src block) s 2 []))
  ∧ (asked 4 16 [] → src = .mailbox →
      (pageOk p = false → answers (.reclaim src block) s 1 [])
      ∧ (pageOk p = true → (potOf s p).state ≠ 1 → (potOf s p).state ≠ 3 ∨ (potOf s p).world = 0 →
          s.upsets.contains (.pot (p / 4096)) = false → answers (.reclaim src block) s 2 [])
      ∧ (pageOk p = true → frameQuiet s p = false → (potOf s p).state = 1 → exec (.reclaim src block) s0
          = .next (waitReq (dropFrame (potSet s p { potOf s p with state := 3 }) p) src block)))
  ∧ (asked 5 32 [(24, 8)] → src = .mailbox →
      (pageOk p = false → answers (.exportPage src block) s 1 [])
      ∧ (pageOk p = true → (potOf s p).state ≠ 1 → (potOf s p).state ≠ 2 → answers (.exportPage src block) s 2 [])
      ∧ (pageOk p = true → (potOf s p).state = 1 → 1048576 ≤ s.portil.exports.length → blobAt (imgNum block 16 8) = true →
          answers (.exportPage src block) s 3 [])
      ∧ (pageOk p = true → (potOf s p).state = 1 → s.portil.exports.length < 1048576 → blobAt (imgNum block 16 8) = true →
          frameQuiet s p = false → exec (.exportPage src block) s0
            = .next (waitReq (dropFrame (potSet s p { potOf s p with state := 2 }) p) src block)))
  ∧ (asked 6 32 [(26, 6)] → src = .mailbox → pageOk (imgNum block 16 8) = true →
      (potOf s (imgNum block 16 8)).state ≠ 0 ∨ (potOf s (imgNum block 16 8)).world ≠ 0 → answers (.importPage src block) s 2 [])
  ∧ (asked 3 32 [(18, 14)] → src = .mailbox → pageOk p = true → isDram p = true → quiet p → (potOf s p).state = 0 ∨ (potOf s p).state = 3 →
      (potOf s p).world = 0 → (tget s.worlds (imgNum block 16 2)).isSome →
      answers (.assign src block) (put (takeFrame s p) p { potOf s p with world := imgNum block 16 2, state := 1 }) 0 [])
  ∧ (asked 4 16 [] → src = .mailbox → pageOk p = true → quiet p →
      (potOf s p).state = 1 ∨ ((potOf s p).state = 3 ∧ (potOf s p).world ≠ 0) ∨ s.upsets.contains (.pot (p / 4096)) = true →
      let s1 := scrubFrame (takeFrame s p) p
      answers (.reclaim src block) (potSet { s1 with upsets := s1.upsets.filter (· != .pot (p / 4096)) } p PotE.free) 0 [])
  ∧ (asked 5 32 [(24, 8)] → src = .mailbox → pageOk p = true → quiet p → (potOf s p).state = 1 ∨ (potOf s p).state = 2 → blobAt (imgNum block 16 8) = true →
      s.portil.exports.length < 1048576 →
      let a := imgNum block 16 8
      let pw := (potOf s p).world
      let version := ((tget s.worlds pw).map World.exports).getD 0 + 1
      let s1 := takeFrame { s with worlds := tmod s.worlds pw (fun x => { x with exports := version }) } p
      let head := cipherPage xtsEnc (memoryKey s1 pw) version (physRead s1 p 4096) ++ leBytes 8 version ++ leBytes 2 pw ++ leBytes 6 0
      let s2 := physWrite (dropWhere s1 (fun l => decide (a / 64 ≤ l ∧ l < a / 64 + 65))) a
        (head ++ blobTag (memoryKey s1 pw) version head ++ List.replicate 32 0)
      answers (.exportPage src block) (put { s2 with portil := { s2.portil with exports := (pw, version) :: s2.portil.exports } } p
        { potOf s p with world := 0, state := 0 }) 0 (leBytes 8 version))
  ∧ (let q := imgNum block 16 8
     let dw := imgNum block 24 2
     asked 6 32 [(26, 6)] → src = .mailbox → pageOk q = true → isDram q = true → blobAt p = true → quiet q → (potOf s q).state = 0 →
      (potOf s q).world = 0 → (tget s.worlds dw).isSome →
      let blob := ownRead s p 4160
      let version := imgNum blob 4096 8
      let key := memoryKey s dw
      let good := imgNum blob 4104 2 = dw ∧ (dw, version) ∈ s.portil.exports ∧ (blob.drop 4112).take 16 = blobTag key version (blob.take 4112)
      let s1 := takeFrame s q
      let s2 := { s1 with portil := { s1.portil with exports := s1.portil.exports.filter (· != (dw, version)) } }
      exec (.importPage src block) s0 = .next (if good then answerReq (potSet (writeFrameBytes s2 q
          (cipherPage xtsDec key version (blob.take 4096))) q { world := dw, poison := false, state := 1 }) src block 0 []
        else answerReq (put s2 q { world := dw, poison := true, state := 1 }) src block 5 []))
  ∧ (∀ n slot, src = .ownerSession n → n ∈ s.portil.sessions → imgNum block 10 1 ≤ 8 →
      asked 7 464 [(11, 5), (16 + 49 * imgNum block 10 1, 49 * (8 - imgNum block 10 1)), (448, 16)] →
      w = 0 ∨ (tget s.worlds w).isSome → freeSlot s = some slot →
      (policyOf block).all (fun p => measurementOf s p.1 == some p.2) = true →
      exec (.loadKey src block) s0 = .next (
        match keyUnwrap (hkdf384 (toNats (Config.sessionSecret n)) []) (toNats ((block.drop 408).take 40)) with
        | none => answerReq s src block 4 []
        | some key => answerReq (loadSlot s slot 2 w (leNat (toBytes key)) n (policyOf block)) src block 0 (leBytes 2 slot)))
  ∧ (∀ n k, src = .ownerSession n → n ∈ s.portil.sessions → tget s.keys w = some k → k.kind = 2 → k.session = n → asked 8 16 [(10, 6)] →
      answers (.revokeKey src block) (revokeSlot s w) 0 [])
  ∧ (src = .mailbox ∨ src = .mctp → asked 9 16 [(8, 8)] → answers (.getNonce src block)
      { s with portil := { s.portil with nonce := some s.portil.nonces, nonces := s.portil.nonces + 1 } } 0
      (leBytes 32 (Config.nonce s.portil.nonces).toNat))
  ∧ (let n := imgNum block 10 1
     src = .mailbox ∨ src = .mctp → w = 1 → 1 ≤ n → n ≤ 8 → asked 10 256 [(11, 1), (12 + 2 * n, 2 * (8 - n)), (204, 52)] →
      ∃ t status, exec (.debugUnlock src block) s0 = .next (answerReq t src block status [])
        ∧ (status = 4 → t.worlds = s.worlds ∧ t.portil.covered = s.portil.covered)
        ∧ (s.portil.nonce = none → status = 4)
        ∧ (status ≠ 4 → status = 0 ∧ t.portil.nonce = none ∧ t.portil.covered = s.portil.covered
            ++ ((List.range n).map (fun i => imgNum block (12 + 2 * i) 2)).filter (fun x => ((tget s.worlds x).map World.debuggable).getD false))
        ∧ (∀ k, s.portil.nonce = some k → (block.drop 76).take 32 = leBytes 32 (Config.nonce k).toNat →
            (block.drop 28).take 48 = Config.identityDigest → Config.tokenSigned ((block.drop 8).take 100) ((block.drop 108).take 96) = true →
            status = 0 ∧ ∀ x ∈ (List.range n).map (fun i => imgNum block (12 + 2 * i) 2), ∀ y, tget s.worlds x = some y →
              y.debuggable = true → (tget t.worlds x).map World.covered = some true)))

/-- 12 R449, R450, 15 R493, and bring-up (08 R323-R325, 12 R441, 15 R500-R502): KEY_EXCHANGE and then FINISH open a session
and END_SESSION ends it; the digests, the certificates, the answer to a challenge and the measurements are answered; TDISP
binds and unbinds a function; a rotation raises KEYID. A device reset leaves the pages of worlds as their ciphers wrote
them, the rest of memory as it stands, and the registers as after reset; training zeroes DRAM; and READY offers the features, gives partition 0 every cluster and
raises its vector. The choices of the model that it rests on: logs 11, 15, 47, 63 and 94. -/
def Obligations.BringUp : Prop := ∀ (s : State) (n : Nat),
  let after := fun (stage : Nat) => s.pf.stage = stage ∧ s.pf.fatal = false ∧ s.pf.ready = false
  (∀ transport ≤ 1, (n ∉ s.portil.exchanged → exec (.spdmRequest n 0xE4 transport) s
          = .next { s with portil := { s.portil with exchanged := s.portil.exchanged ++ [n] } }
        ∧ exec (.spdmRequest n 0xE5 transport) s = .next s)
      ∧ (n ∈ s.portil.exchanged → exec (.spdmRequest n 0xE5 transport) s = .next { s with portil := { s.portil with
          exchanged := s.portil.exchanged.filter (· != n), sessions := s.portil.sessions.filter (· != n) ++ [n] } })
      ∧ (∀ code a, (code, a) ∈ [(0x81, [0, 1].flatMap (fun i => sha384 (Config.certificates i))), (0x82, [0, 1].flatMap Config.certificates),
            (0x83, ecdsa384 (ecdsaKey Config.identityKey) (Config.transcript s.portil.responses.length)),
            (0xE0, [1, 2, 3, 4, 5, 6].flatMap (fun i => leBytes 1 i ++ (measurementOf s i).getD []))] →
          exec (.spdmRequest n code transport) s = .next { s with portil := { s.portil with responses := s.portil.responses ++ [a] } })
      ∧ ∃ t, exec (.spdmRequest n 0xEC transport) s = .next t ∧ n ∉ t.portil.sessions
        ∧ t = { s with portil := { s.portil with sessions := t.portil.sessions } })
  ∧ (∀ world, s.pf.featDev.getLsbD 43 = true → s.pf.featDrv.getLsbD 43 = true → 1 ≤ n → n ≤ 64 →
      exec (.tdispRequest n world true) s = .next { s with portil := { s.portil with bindings := tput s.portil.bindings n world } }
      ∧ exec (.tdispRequest n world false) s = .next { s with portil := { s.portil with bindings := tdel s.portil.bindings n } })
  ∧ exec .firmwareRotation s = .next { s with portil := { s.portil with keyid := s.portil.keyid + 1 } }
  ∧ (∃ t, exec (.perstRelease true) s = .next t ∧ t.pf = { State.reset.pf with stage := 1 } ∧ t.mem = (lockPages s).mem ∧ t.ctxs = [] ∧ t.coaches = []
      ∧ t.regions = [] ∧ t.rakes = [] ∧ t.keys = [] ∧ t.l1 = [] ∧ t.l2 = [] ∧ t.portil.keyid = s.portil.keyid)
  ∧ (∃ t, exec (.perstRelease false) s = .next t ∧ t.pf.fatal = true)
  ∧ (after 1 → ∃ t, exec (.dramTraining true) s = .next t ∧ t.pf = { s.pf with stage := 2 } ∧ t.pot = []
      ∧ (∀ a, isDram a = true → memGet t.mem a = 0) ∧ (∀ l ∈ t.poison, isDram (l * 64) = false))
  ∧ (after 1 → exec (.dramTraining false) s = .next { s with pf := { s.pf with stage := 2, fatal := true } })
  ∧ (∀ image p, after 2 → checkPlate image true 0 = .ok p → exec (.systemPlateLoad image true) s
      = .next { s with pf := { s.pf with stage := 3 }, sysplate := some p })
  ∧ (∀ image signed, after 2 → signed = false ∨ (∃ e, checkPlate image true 0 = .error e) → exec (.systemPlateLoad image signed) s
      = .next { s with pf := { s.pf with stage := 3, sysplateFailed := true } })
  ∧ (∀ passed : BitVec 20, after 3 → ∃ t, exec (.clusterSelfTest passed) s = .next t ∧ t.pf.stage = 4
      ∧ field t.pf.featDev.toNat 71 64 = (List.range 20).countP (fun i => passed.getLsbD i)
      ∧ field t.pf.featDev.toNat 63 0 = field s.pf.featDev.toNat 63 0)
  ∧ (∀ up : BitVec 12, after 4 → ∃ t, exec (.extumLinkTraining up) s = .next t ∧ t.pf.stage = 5
      ∧ field t.pf.featDev.toNat 63 52 = up.toNat ∧ field t.pf.featDev.toNat 51 0 = field s.pf.featDev.toNat 51 0
      ∧ field t.pf.featDev.toNat 127 64 = field s.pf.featDev.toNat 127 64)
  ∧ (after 5 → ∃ t, exec .ready s = .next t ∧ t.pf.ready = true ∧ t.pf.stage = 6 ∧ (0, 3) ∈ t.msix
      ∧ t.parts = [(0, { clusters := BitVec.allOnes 20, ceil := 112, ceilFused := 896, thrLog := 12 })]
      ∧ t.pf.featDev.getLsbD 0 = true ∧ field t.pf.featDev.toNat 7 1 = 4 ∧ field t.pf.featDev.toNat 44 41 = 15
      ∧ t.pf.featDev.getLsbD 40 = s.sysplate.isSome ∧ field t.pf.featDev.toNat 127 45 = field s.pf.featDev.toNat 127 45
      ∧ ∀ p, s.sysplate = some p → field t.pf.featDev.toNat 23 8 = p.sysmin % 65536 ∧ field t.pf.featDev.toNat 39 24 = p.syspat % 65536)

/-! ### Instructions and steps that complete -/

/-- Operations and the machine's own steps that COMPLETE, one clause each, under conditions on the state and the
operands alone. 04 R130, R150, R151: the seven functions FRCP, FRSQ, FSQRT, FEXP2, FLOG2, FSIN and FCOS and the long
reads of SPR put their results in a slot of the return buffer and pass; a short read of SPR writes D and passes; a write
of FMODE or FSTAT takes its value and passes. 02 R63, 08 R308, R324: SYSTEM_PLATE_OP and GUEST_DECODE leave the
impression of what the word or the guest instruction stands for. 02 R50, 05 R165, R194, R199, R202-R206: a result
returns; a commit empties the return buffer; lanes wake; a push or a pop goes through; QFULL is taken; a dray context
starts, and its promise times out. 11 R409-R415, R423: a trap is taken, a sibling halts, and records are written. 06
R224, R227: an operation of a tile begins, makes a K-step and completes. 10 R375-R386, R396: choices of coaches, leases,
slices, places, slots and turns are made. 09 R336, 11 R427, R433, 12 R445, R466, R470, 15 R502: lines, registers,
counters, scrubbing, flows, clocks and the fatal device. The statements about the
families say whole what each leaves, and name the model's choices. It covers: FRCP, FRSQ, FSQRT, FEXP2,
FLOG2, FSIN, FCOS, SPR, SPR_WR, SYSTEM_PLATE_OP, GUEST_DECODE, LONG_RESULT_RETURN, RETURN_BUFFER_COMMIT,
SLEEP_WAKE, QUEUE_PUSH_COMPLETE, QFULL, PORT_PUSH_COMPLETE, QUEUE_POP_COMPLETE, PORT_POP_COMPLETE, TRAP_ENTRY, HALTED,
LONG_WAIT_EXIT, LEASE_ESTIMATE_UPDATE, TIME_SLICE_EXPIRY, COACH_RESTORE, REGISTER_LINE_FILL, TBAR_WAKE, PROMISE_TIMEOUT,
DRAY_CONTEXT_START, RAKE_HALT_RECORD, FAULT_RECORD_WRITE, MATRIX_OP_START, K_STEP, MATRIX_OP_COMPLETE, ISSUE_SELECT,
COACH_ADMISSION, THROTTLE_INTERVAL, COACH_EVICTION, RAKE_PLACEMENT, STAGE_REBALANCE, SLOT_MOVE, TICKET_TURN,
L1_DIRTY_PROPAGATION, ACCESS_COUNTER_NOTIFY, DRAM_SCRUB, L2_SCRUB, FLOW_TAG_FAILURE, THERMAL_THROTTLE, THERMAL_RECOVER,
THERMAL_FATAL. -/
def Obligations.OperationAndEventCompletions : Prop :=
  (∀ (s : State) (w : NOp), noQueue w = true →
    (∀ i ∈ [Instr.frcp w, .frsq w, .fsqrt w, .fexp2 w, .flog2 w, .fsin w, .fcos w], clear s i = true →
      ∃ vw sw fl, exec i s = .next (slotted s (slotFor s w (slotCost (fD w) 1) vw sw fl)))
    ∧ (clear s (.spr w) = true → sprAssigned (sprNum w) = true → sprLong (sprNum w) = true →
        ∃ vw sw fl, exec (.spr w) s = .next (slotted s (slotFor s w (slotCost (fD w) 1) vw sw fl)))
    ∧ (clear s (.spr w) = true → sprAssigned (sprNum w) = true → sprLong (sprNum w) = false →
        exec (.spr w) s = .next (written s w (me s) (regsOf (sprWide (sprNum w)))
          (fun l j => resWord (BitVec.ofNat 64 (sprValue s s.iss.coach (sprNum w) l)) j)))
    ∧ (∀ l0, clear s (.sprWr w) = true → lowLane (enOf s w) = some l0 →
        let v := if fI w then fImm w else (aVal (me s) w false l0).toNat
        (sprNum w = 0x13 → sprValueOk 0x13 v = true →
          exec (.sprWr w) s = .next (become s { me s with fmode := BitVec.ofNat 32 v }))
        ∧ (sprNum w = 0x14 → sprValueOk 0x14 v = true →
          exec (.sprWr w) s = .next (become s { me s with fstat := BitVec.ofNat 32 v }))))
  ∧ (∀ (s : State),
    (∀ w ops, systemPlane s w = some ops →
      exec (.systemPlateOp w) s = .next (addImp s (me s) s.iss.ga (.ops ops 8 true) false))
    ∧ (∀ ops n b s1, decodeGuest s (me s) s.iss.ga.toNat = (.ok (.ops ops n b), s1) →
      exec .guestDecode s = .next (addImp s1 (me s) s.iss.ga (.ops ops n b) false)))
  ∧ (∀ (s : State) (k : Nat) (co : Coach), tget s.coaches k = some co →
    (∀ j sl, co.rbuf[j]? = some sl → sl.cpy = none → sl.tile = none →
      exec (.longResultReturn k j) s = .next (setCoach s k { co with rbuf := co.rbuf.set j { sl with returned := true } }))
    ∧ (∀ st, marked co = some st → allReturned co = true → co.trap = none → (∀ sl ∈ co.rbuf, sl.push = none) →
        let c := co.rbuf.foldl commitSlot co
        let fl := co.rbuf.foldl (fun a sl => orFlags a sl.flags) [0, 0, 0, 0, 0, 0]
        enabledBits c.fmode fl = 0 → exec (.returnBufferCommit k) s = .next (setCoach s k { c with
          rbuf := [], fstat := c.fstat ||| BitVec.ofNat 32 (flagWord fl), stalls := c.stalls.filter (fun x => x.kind != .marker) }))
    ∧ (∀ t, isResident s k = true → wakeTimes co = [t] →
        exec (.sleepWake k) s = .next (wakeReady (clockTo s (coreOf co) t) k))
    ∧ (∀ st q e d s1, isResident s k = true → pushStall co = some (st, q, e, d) → pushReg s k q e = .done s1 →
        exec (.queuePushComplete k) s = .next (passPush s1 k st))
    ∧ (∀ st q e d, isResident s k = true → pushStall co = some (st, q, e, d) → isDet s co = false →
        st.lanes ≠ BitVec.allOnes 64 → pushReg s k q e = .full →
        exec (.qfull k) s = .next (raiseTrap (modCoach (clockTo s (coreOf co) d) k (fun co => { co with stalls := co.stalls.erase st })) k
          { cls := 8, sub := 0, step := st.step, tmask := stallLanesNow co st, rmask := none, move := 0, moveTo := 0
            moveCounts := false
            opword := ((lowLane (stallLanesNow co st)).map (fun l => (laneOf co l).word)).getD 0
            opaddr := st.ga, area := qfullArea q e, commit := false }))
    ∧ (∀ st q e s1, isResident s k = true → portPushStall co = some (st, q, e) → pushReg s k q e = .done s1 →
        exec (.portPushComplete k) s = .next (passPush s1 k st))
    ∧ (∀ st q qi x e s1, isResident s k = true → co.stalls = [st] → st.kind = .pop q none → q < 8 →
        boundQueue s co q = some (qi, x) → popQueue s (coreUnits (coreOf co)) co.region qi = some (e, s1) →
        exec (.queuePopComplete k) s = .next (modCoach (acquireGlobal s1 (l1Unit s1 (coreOf co)) co.ctx 4) k
          (fun co => { co with stalls := co.stalls.map (fun x => if x = st then { x with kind := .pop q (some e) } else x) })))
    ∧ (∀ st q pk p r rs, isResident s k = true → co.stalls = [st] → st.kind = .pop q none → 8 ≤ q →
        tget co.ports q = some pk → tget s.ports pk = some p → p.resps = r :: rs →
        let s1 := { s with ports := tput s.ports pk { p with resps := rs } }
        exec (.portPopComplete k) s = .next (modCoach (acquireGlobal s1 (l1Unit s1 (coreOf co)) co.ctx 4) k
          (fun co => { co with stalls := co.stalls.map (fun x => if x = st then { x with kind := .pop q (some (.word r)) } else x) })))
    ∧ (∀ t, co.trap = some t → isResident s k = true → t.wait = none → exec (.trapEntry k) s = .next (takeTrap s k))
    ∧ (∀ cls idx, haltOf s co = some (cls, idx) → isResident s k = true → co.halted = none → co.trap = none →
        exec (.halted k) s = .next (raiseTrap s k
          { cls := 16, sub := 0, step := 0, tmask := 0, rmask := none, move := 0, moveTo := 0, moveCounts := false
            opword := 0, opaddr := 0, area := [(64, 1, cls), (66, 2, idx)] }))
    ∧ (isResident s k = true → co.active = true → coachWaits s co = true →
        exec (.longWaitExit k) s = .next (leaveActive (clockTo s (coreOf co) (co.idleSince + 2049)) k true false))
    ∧ (co.measured = true → 1024 ≤ co.mi → ∃ e, 1 ≤ e ∧ e ≤ 128 ∧ exec (.leaseEstimateUpdate k) s = .next
        (setLease s k (fun co => { co with est := e, leaseG := e, mi := 0, alloc := 0, vh := 0 })))
    ∧ (isResident s k = true → co.sliceExpired = false → exec (.timeSliceExpiry k) s = .next
        (setCoach (clockTo s (coreOf co) (co.sliceStart + sliceOf s co.ctx)) k { co with sliceExpired := true }))
    ∧ (∀ p s1, mayRestore s k = true → restorePlace s k = some p → readImage s k (p.1 / 80) = (true, s1) →
        exec (.coachRestore k) s = .next (seatCoach s1 k p))
    ∧ (∀ part line, partKey co = some part → line ≤ co.nregs → lineEntry s part k line = none → co.out.contains line = false →
        exec (.registerLineFill k line) s = .next (cacheLine s part k line true)))
  ∧ (∀ (s : State) (n line : Nat),
    (∀ b, tget s.treebars n = some b → ∃ t, exec (.tbarWake n) s = .next t
      ∧ tget t.treebars n = some { b with closed := [] })
    ∧ (∀ la, launchOf s ((drayOf s n).rake, (drayOf s n).launch) = some la → la.promise = none → la.started = true →
        (drayOf s n).done = false → la.dray = some (n, (drayOf s n).gen) → (drayOf s n).start + 256 ≤ cycleOf s (drayClock n) →
        exec (.promiseTimeout n) s = .next (deliverPromise s (drayOf s n).rake (drayOf s n).launch none))
    ∧ (∀ r la rg cl lead ks code dn any dk, tget s.rakes n = some r → tget r.launches line = some la →
        tget s.regions r.region = some rg → r.cluster = some cl → la.started = false → la.finished = false → la.cancelled = false →
        launchFormed s r rg.coaches la = true → tkeys la.slices = lead :: ks → tget la.codes lead = some (code, dn, any) →
        chooseDray s cl dn any = some dk → ∃ t, exec (.drayContextStart n line) s = .next (drayAcquire t dk 4)
          ∧ (drayOf t dk).pc = code.setWidth 57 ∧ (drayOf t dk).state = 1)
    ∧ (∀ r h rg s1, tget s.rakes n = some r → r.halt = some h → tget s.regions r.region = some rg → r.haltRecorded = false →
        rakeStopped s r = true → writeFaultRecord s rg.ctx ((r.cluster).getD 0 / 10) (haltRecord s r h) = (true, s1) →
        let s2 := modRake s1 n (fun r => { r with haltRecorded := true })
        ((tget s2.ctxs rg.ctx).map Ctx.dbgen) = some true → exec (.rakeHaltRecord n) s = .next s2)
    ∧ (∀ f s2, tget s.faults n = some f → f.seq = none →
        let s1 := clockTo s (faultClock f.die f.cluster) (f.opened + 64)
        writeFaultRecord s1 f.ctx f.die (xlatRecord f) = (true, s2) →
        ∃ seq, exec (.faultRecordWrite n) s = .next { s2 with faults := tput s2.faults n { f with seq := some seq } })
    ∧ (∀ o, (tileOf s n).cur = none → (tileOf s n).queue.find? (fun o => o.v == (tileOf s n).ver) = some o →
        engineRuns s o.coach = true → exec (.matrixOpStart n) s = .next (startOp (setTile s n { tileOf s n with
          queue := (tileOf s n).queue.filter (fun x => x.v != o.v), cur := some (o, 0) }) n o))
    ∧ (∀ i j o r es, nextTile s n = some i → (tileOf s (tileKey n i)).cur = some (o, j) → s.upsets = [] →
        tget s.rakes (coachOf s o.coach).rake = some r → kStep r o j (tileEls (tileOf s (tileKey n i))) = some es →
        exec (.kStep n) s = .next (setTile { s with lastTile := tput s.lastTile n i } (tileKey n i)
          { setEls (tileOf s (tileKey n i)) es with cur := some (o, j + 1) }))
    ∧ (∀ j o, (tileOf s n).cur = some (o, j) → opDone (tileOf s n) = true → engineRuns s o.coach = true →
        ∃ t, exec (.matrixOpComplete n) s = .next (checkCoach (wakeReady t o.coach) o.coach) ∧ (tileOf t n).cur = none
          ∧ (tileOf t n).ver = (tileOf s n).ver + 1)
    ∧ (∀ i k, selectIn s n = some (i, k) → exec (.issueSelect n) s = .next { s with picked := some k, turn := 0 })
    ∧ (∀ k co, admitNext s n = some k → tget s.coaches k = some co → exec (.coachAdmission n) s = .next (setCoach s k { co with
        active := true, atHead := false, returned := none, admitted := cycleOf s (coreOf co), idleSince := cycleOf s (coreOf co) }))
    ∧ (∃ t, exec (.throttleInterval n) s = .next t ∧ tgetD 0 t.poolIntervals n = tgetD 0 s.poolIntervals n + 1
        ∧ tget t.poolHits n = none)
    ∧ (∀ e, waitersFor s (n / 8) = [prioOf s e.2.region] → 64 ≤ coreCount s n → s.coaches.filter (fun x => match x.2.place with
        | some (c, _, _) => c == n && x.2.sliceExpired && !x.2.inHandler && x.2.trap.isNone
          && decide (prioOf s x.2.region ≤ prioOf s e.2.region)
        | none => false) = [e] → exec (.coachEviction n) s = .next (saveCoach s e.1))
    ∧ (∀ k r cl base seats, tget s.rakes n = some k → tget s.regions k.region = some r →
        placeFor s n = some (cl, base, seats) → k.created = true → s.fusedClusters.contains cl = r.fused →
        let s0 := modRegion s k.region (fun r => { r with lastCluster := some cl })
        exec (.rakePlacement n) s = .next (readRakeImage (modRake s0 n (fun k =>
          { k with cluster := some cl, padBase := base, pinned := none, created := true
                   rslot := (takenRslot s0 k r.ctx).getD k.rslot })) n))
    ∧ (∀ r core, tget s.regions n = some r → rebalCore s n = some core → r.det = false → r.completed = false →
        ∃ t c, exec (.stageRebalance n) s = .next t ∧ tget t.regions n = some { r with
          queues := mapFrom (fun i (q : Queue) => { q with pending := pendingMove r i q }) 0 r.queues
          rebalLeft := 8192, rebalSeen := some (core, c) })
    ∧ (∀ k r y qi, tget s.rakes n = some k → tget s.regions k.region = some r → r.det = false → k.unslotted = false →
        k.cluster ≠ none → atPopPoint s k = true → moveTarget s k.region r k.stage = some (y, qi) →
        let s1 := modRake (saveRake s n) n (fun k => { k with unslotted := true, slot := none })
        exec (.slotMove n) s = .next (fillSlot (modRegion s1 k.region (fun r => shiftSlot r k.stage y (qi.getD r.queues.length)))
          k.region y k.slot qi.isNone))
    ∧ (∀ r, tget s.regions n = some r → r.det = true → r.completed = false → r.turnBusy = none →
        r.members ++ r.joiners ≠ [] → r.members[r.position.1]? = none → ∃ t, exec (.ticketTurn n) s = .next t
          ∧ tget t.regions n = some { r with members := r.members ++ r.joiners, joiners := [], position := (0, 0), round := r.round + 1 })
    ∧ (∀ c, l1Find s n line = some c → c.dirty ≠ 0 → exec (.l1DirtyPropagation n line) s = .next (l1Clean s n c))
    ∧ (∀ c b, tget s.ctrs (n * 1024 + line) = some c → ctrRoom s = some b → 2 ^ s.pf.ctrThr ≤ c.count →
        ∃ t, exec (.accessCounterNotify n line) s = .next t ∧ tget t.ctrs (n * 1024 + line) = some { c with count := 0 }
          ∧ t.pf.ctrWidx = s.pf.ctrWidx + 1)
    ∧ (∃ t, exec (.dramScrub n) s = .next t ∧ ∀ l, isDram (l * 64) = true → homeDie (l * 64) = n → tget t.softErrors l = none)
    ∧ (homeDie (line * 64) = n → exec (.l2Scrub n line) s = .next (scrubLine s line))
    ∧ (exec (.flowTagFailure n line false) s = .next s ∧ ∃ t, exec (.flowTagFailure n line true) s = .next t ∧ (n % 2 = 0 → line ∈ t.poison))
    ∧ (∃ t, exec (.thermalThrottle n) s = .next t ∧ clockOf t n = max 800 (clockOf s n - 50))
    ∧ (∃ t, exec (.thermalRecover n) s = .next t ∧ clockOf t n = min 1900 (clockOf s n + 50))
    ∧ exec .thermalFatal s = .next (fatalDevice s 0 0))

/-- Messages, commands, requests, answers and register writes that COMPLETE, one clause each, under conditions on the
state and the operands alone. 10 R361-R364: a message that may be performed is. 12 R454-R464: OPEN, ABSORB, CLOSE and
the record of a hallmark engine; a command that is none of them is answered BADCMD. 12 R439-R453, R508: Portil's ten
requests answer DONE, DEBUG_UNLOCK under a token of this device over the nonce outstanding, whose signature holds. 11
R425: the driver's answer closes its entry, and what waited for it runs again or fails. 11 R422, R425, R426, R435, 08 R331, 10 R361, 15 R493-R500, R503-R505: what the host writes takes its
effect, and what it starts is finished. 12 R441, R449, R450, R506, 15 R500-R502: sessions, bindings, rotation, and each
stage of bring-up. What each completion leaves is said whole by the statements about the families; the choices of the
model are those of the logs that they name. It covers: MSG_LAUNCH, MSG_WAIT, MSG_SIGNAL, MSG_NOTE, MSG_FENCE,
MSG_PREEMPT_SAVE, MSG_PREEMPT_RESUME, WAIT_POLL, HALLMARK_BADCMD, HALLMARK_OPEN, HALLMARK_ABSORB, HALLMARK_CLOSE,
HALLMARK_RECORD_WRITE, CREATE_WORLD, DESTROY_WORLD, ASSIGN, RECLAIM, EXPORT, IMPORT, LOAD_KEY, REVOKE_KEY, GET_NONCE,
DEBUG_UNLOCK, READY, DOORBELL, QERR_REARM, QERR_TEARDOWN, INVCMD, PLATECMD, DEBUG_WRITE, REGISTER_WRITE, FEATDRV_WRITE,
PARTCMD, CTXCMD_RESET, CTXCMD_DESTROY, CTXCMD_CREATE, CTRASSIGN_ASSIGN, CTRASSIGN_UNASSIGN, PORTREQ,
HOST_APERTURE_ACCESS, FAULTRESP_RETRY, FAULTRESP_FAIL, RAKECMD_RESUME, RAKECMD_KILL, DEBUGGER_HALT_REQUEST,
INVALIDATION_COMPLETE, PLATE_LOAD_COMPLETE, CTXCMD_COMPLETE, PEER_ACCESS, ATS_INVALIDATION, POWER_CAP_SET, SPDM_REQUEST,
TDISP_REQUEST, FIRMWARE_ROTATION, PERST_RELEASE, DRAM_TRAINING, SYSTEM_PLATE_LOAD, CLUSTER_SELF_TEST,
EXTUM_LINK_TRAINING. -/
def Obligations.HostSideCompletions : Prop :=
  (∀ (s s1 : State) (ctx q : Nat) (x : HwQueue) (m : List Byte), queueAt s ctx q = some x → x.waiting = none → x.torn = false →
    x.discard = 0 → readMsg s ctx q = .msg m s1 → msgOk m = true →
    let kind := msgNum m 0 1
    let addr := msgNum m 8 8
    let v := msgNum m 16 8
    let done := fun (i : Instr) => ∃ t, exec i s = .next (completeMsg t ctx q m)
    (kind = 1 → done (.msgLaunch ctx q))
    ∧ (kind = 2 → exec (.msgWait ctx q) s = .next (pollWait (modQueue s1 ctx q (fun y =>
        { y with waiting := some (addr, BitVec.ofNat 64 v) })) ctx q))
    ∧ (∀ ps s2, kind = 3 → ownPieces s1 (dieUnits 0) ctx addr 8 .atomic = (.ok ps, s2) → poisonOwn (fillOwn s2 ctx ps) ps = none →
        done (.msgSignal ctx q))
    ∧ (∀ r s2, kind = 4 → ownWriteV s1 (dieUnits 0) ctx addr (leBytes 8 v) = (.ok r, s2) → done (.msgNote ctx q))
    ∧ (kind = 5 → queueQuiet s1 ctx q = true → done (.msgFence ctx q))
    ∧ (kind = 6 → msgNum m 8 1 = 0 → done (.msgPreemptSave ctx q))
    ∧ (kind = 6 → msgNum m 8 1 = 1 → done (.msgPreemptResume ctx q)))
  ∧ (∀ (s s1 s2 : State) (ctx q : Nat) (x : HwQueue) (va : Nat) (v : BitVec 64) (bs m : List Byte), queueAt s ctx q = some x →
    x.waiting = some (va, v) → x.fault = none → x.torn = false → ownReadP (l2System s true) (dieUnits 0) ctx va 8 = (.ok bs, s1) →
    v.toNat ≤ leNat bs → ownReadP s1 (dieUnits 0) ctx (x.base + 64 * x.slot) 64 = (.ok m, s2) →
    exec (.waitPoll ctx q) s = .next (completeMsg s2 ctx q m))
  ∧ (∀ (s s1 : State) (die port : Nat) (p : Port) (c : HallCmd) (ign : Bool),
    let pk := portKey die port
    let co := coachOf s p.coach
    tget s.ports pk = some p → headCmd p = some c →
    (c.headOk = false → exec (.hallmarkBadcmd die port) s = .next (failCmd s pk c false 1))
    ∧ (∀ label pa leaf, c.headOk = true → c.cmd = 1 → 3 ≤ c.words.length → c.pair 0 % 256 = 0 → c.pair 0 < 2 ^ 57 → c.word 2 ≤ 1 →
        hallOptions true (c.words.drop 3) false 0 = some (ign, label) → sessionsHeld s die < 4096 →
        tgetD 0 s.hallCount die < 2 ^ 32 - 1 → p.failed = false → xlateProgram s (dieUnits die) co.ctx (c.pair 0) .write = (.ok pa leaf, s1) →
        exec (.hallmarkOpen die port) s = .next (openSession s1 pk die co c ign label))
    ∧ (∀ o key se bs, c.headOk = true → c.cmd = 2 → 4 ≤ c.words.length → c.pair 1 + c.word 3 ≤ 2 ^ 57 →
        hallOptions false (c.words.drop 4) false 0 = some o → findSession s die co.ctx (c.word 0) = some (key, se) → se.void_ = none →
        p.failed = false → absorbLines die co.ctx ((c.word 3 - p.done) / 64 + 2) (c.pair 1 + p.done) (c.word 3 - p.done) [] s = .all bs s1 →
        exec (.hallmarkAbsorb die port) s = .next (answerCmd (takeBytes s1 key bs) pk c [statusWord 2 o.1 0] 0))
    ∧ (∀ o key se, c.headOk = true → c.cmd = 3 → c.words ≠ [] → hallOptions false (c.words.drop 1) false 0 = some o →
        findSession s die co.ctx (c.word 0) = some (key, se) → se.void_ = none → (tgetD [] s.signing die).length < 2 →
        ∃ t, exec (.hallmarkClose die port) s = .next (answerCmd t pk c [] 1) ∧ key ∈ tgetD [] t.signing die)
    ∧ (∀ n, isSigning s die (sessionKey die n) = true → exec (.hallmarkRecordWrite die n) s = .next (finishClose s die (sessionKey die n))))
  ∧ (∀ (s : State) (src : ReqSource) (block : List (BitVec 8)),
    let asked := fun (code len : Nat) (zeros : List (Nat × Nat)) => imgNum block 0 2 = code ∧ blockGood block len zeros = true
    let w := imgNum block 8 2
    let p := imgNum block 8 8
    let done := fun (i : Instr) => ∃ t r, exec i s = .next (answerReq t src block 0 r)
    (s.portil.taken = some (src, block) ∨ (s.portil.queue = [] ∧ s.portil.taken = none)) →
    (asked 1 16 [(11, 5)] → boundTo s src w = true → 1 ≤ w → w ≤ 2047 → imgNum block 10 1 ≤ 1 → tget s.worlds w = none →
        freeSlot s ≠ none → done (.createWorld src block))
    ∧ (asked 2 16 [(10, 6)] → boundTo s src w = true → (tget s.worlds w).isSome → (∀ e ∈ s.ctxs, e.2.world ≠ w) →
        (∀ e ∈ s.pot, e.2.world ≠ w) → done (.destroyWorld src block))
    ∧ (asked 3 32 [(18, 14)] → src = .mailbox → pageOk p = true → isDram p = true → frameQuiet s p = true → (potOf s p).state = 0 ∨ (potOf s p).state = 3 →
        (potOf s p).world = 0 → (tget s.worlds (imgNum block 16 2)).isSome → done (.assign src block))
    ∧ (asked 4 16 [] → src = .mailbox → pageOk p = true → frameQuiet s p = true → (potOf s p).state = 1 → done (.reclaim src block))
    ∧ (asked 5 32 [(24, 8)] → src = .mailbox → pageOk p = true → frameQuiet s p = true → (potOf s p).state = 1 →
        blobAt (imgNum block 16 8) = true → s.portil.exports.length < 1048576 → done (.exportPage src block))
    ∧ (let q := imgNum block 16 8
       let dw := imgNum block 24 2
       let blob := ownRead s p 4160
       let version := imgNum blob 4096 8
       asked 6 32 [(26, 6)] → src = .mailbox → pageOk q = true → isDram q = true → blobAt p = true → frameQuiet s q = true → (potOf s q).state = 0 →
        (potOf s q).world = 0 → (tget s.worlds dw).isSome → imgNum blob 4104 2 = dw → (dw, version) ∈ s.portil.exports →
        (blob.drop 4112).take 16 = blobTag (memoryKey s dw) version (blob.take 4112) → done (.importPage src block))
    ∧ (∀ n key, src = .ownerSession n → n ∈ s.portil.sessions → imgNum block 10 1 ≤ 8 →
        asked 7 464 [(11, 5), (16 + 49 * imgNum block 10 1, 49 * (8 - imgNum block 10 1)), (448, 16)] →
        w = 0 ∨ (tget s.worlds w).isSome → freeSlot s ≠ none → (policyOf block).all (fun p => measurementOf s p.1 == some p.2) = true →
        keyUnwrap (hkdf384 (toNats (Config.sessionSecret n)) []) (toNats ((block.drop 408).take 40)) = some key → done (.loadKey src block))
    ∧ (∀ n k, src = .ownerSession n → n ∈ s.portil.sessions → tget s.keys w = some k → k.kind = 2 → k.session = n → asked 8 16 [(10, 6)] →
        done (.revokeKey src block))
    ∧ (src = .mailbox ∨ src = .mctp → asked 9 16 [(8, 8)] → done (.getNonce src block))
    ∧ (∀ k, let n := imgNum block 10 1
       src = .mailbox ∨ src = .mctp → w = 1 → 1 ≤ n → n ≤ 8 → asked 10 256 [(11, 1), (12 + 2 * n, 2 * (8 - n)), (204, 52)] →
        s.portil.nonce = some k → (block.drop 76).take 32 = leBytes 32 (Config.nonce k).toNat →
        (block.drop 28).take 48 = Config.identityDigest → Config.tokenSigned ((block.drop 8).take 100) ((block.drop 108).take 96) = true →
        done (.debugUnlock src block)))
  ∧ (∀ (s : State) (v : BitVec 64) (n q : Nat), s.pf.ready = true →
    (∀ c x, tget s.ctxs n = some c → c.queues[q]? = some x →
      (v.toNat < 2 ^ 32 → x.k ≠ 0 → (loOf v - x.widx).toNat < 2 ^ 31 →
        ∃ t, exec (.doorbell n q v) s = .next t ∧ (queueAt t n q).map HwQueue.widx = some (loOf v))
      ∧ (x.torn = true → ∃ t, exec (.qerrRearm n q) s = .next t ∧ (queueAt t n q).map HwQueue.torn = some false)
      ∧ (x.torn = false → exec (.qerrTeardown n q) s = .next (tearQueue s n q 9)))
    ∧ (∀ c, tget s.ctxs n = some c →
      (c.invBusy = false → ∃ t, exec (.invcmd n v) s = .next t ∧ (tget t.ctxs n).map Ctx.invBusy = some true)
      ∧ (c.plateBusy = false → ∃ t, exec (.platecmd n v) s = .next t ∧ (tget t.ctxs n).map Ctx.plateBusy = some true)
      ∧ (c.world = 0 → ∃ t, exec (.debugWrite n v) s = .next t ∧ (tget t.ctxs n).map Ctx.dbgen = some (v.getLsbD 0))
      ∧ (∀ off, exec (.registerWrite (n + 1) off v) s = .next { s with ctxs := tput s.ctxs n (writeVf c off v) }))
    ∧ (∀ f, ∃ t, exec (.featdrvWrite f) s = .next t ∧ ∀ i, t.pf.featDrv.getLsbD i = true →
        s.pf.featDev.getLsbD i = true ∧ (f.getLsbD i = true ∨ (1 ≤ i ∧ i ≤ 40)))
    ∧ (s.ctxs = [] → field v.toNat 4 0 ≤ 19 → field v.toNat 39 28 = 0 → 16 ≤ field v.toNat 47 40 → field v.toNat 47 40 ≤ 128 →
        127 ≤ field v.toNat 57 48 → 8 ≤ field v.toNat 63 58 → field v.toNat 63 58 ≤ 16 →
        ∃ t, exec (.partcmd v) s = .next t ∧ (tget t.parts (field v.toNat 4 0)).map Part.ceil = some (field v.toNat 47 40))
    ∧ (∀ i, i = .ctxcmdReset v ∧ field v.toNat 9 8 = 2 ∨ i = .ctxcmdDestroy v ∧ field v.toNat 9 8 = 3 → s.pf.ctxstat ≠ 1 →
        s.pf.featDrv.getLsbD 0 = true → (tget s.ctxs (field v.toNat 5 0)).isSome →
        ∃ t, exec i s = .next t ∧ t.pf.ctxPending = some (field v.toNat 9 8, field v.toNat 5 0))
    ∧ (let s2 := ownFill { s with pf := { s.pf with ctxcmd := v } } 0 (field v.toNat 63 12 * 4096) 512
       let b := ownRead s2 (field v.toNat 63 12 * 4096) 512
       field v.toNat 9 8 = 1 → s.pf.ctxstat ≠ 1 → s.pf.featDrv.getLsbD 0 = true → tget s.ctxs (field v.toNat 5 0) = none →
        isBacked (field v.toNat 63 12 * 4096) = true → (potSeen s (field v.toNat 63 12 * 4096)).poison = false →
        poisonIn s2 (field v.toNat 63 12 * 4096) 512 = none → descOk s2 b = true → blkNum b 8 2 = 0 →
        ∃ t, exec (.ctxcmdCreate v) s = .next t ∧ tget t.ctxs (field v.toNat 5 0) = some (ctxOfDesc b) ∧ t.pf.ctxstat = 0)
    ∧ (v.getLsbD 63 = true → ∃ t, exec (.ctrassignAssign v) s = .next t ∧ (tget t.ctrs (ctrKey v)).isSome)
    ∧ (v.getLsbD 63 = false → ∃ t, exec (.ctrassignUnassign v) s = .next t ∧ tget t.ctrs (ctrKey v) = none)
    ∧ (s.pf.portBusy = false → v.getLsbD 0 = true →
        let buf := field v.toNat 63 11 * 2048
        let raw := ownRead { s with pf := { s.pf with portreq := v } } (0x80000000000 + buf) 1024
        let len := imgNum raw 2 2
        isHostWindow (0x80000000000 + buf) = true → 16 ≤ len → len ≤ 1024 → len % 16 = 0 →
        ∃ t, exec (.portreq v) s = .next t ∧ t.pf.portBusy = true)
    ∧ (∀ off size, let pa := s.pf.aperbase.toNat + off % 2 ^ 36
        isBacked pa = true → potSeen s pa = PotE.free → pa % 64 + min size 8 ≤ 64 →
        exec (.hostApertureAccess true off size v) s = .next (ownWrite (ownFill s 0 pa (min size 8)) 0 pa (leBytes (min size 8) v.toNat))))
  ∧ (∀ (s : State) (n : Nat),
    (∀ seq f e, entryOf s n seq = some (f, e) → tget (closeEntry s f).faults f = none
        ∧ (let s1 := serviceWaiters (closeEntry s f) f
           exec (.faultrespRetry n seq) s = .next ((takePending s1 f).1.foldl rerun (takePending s1 f).2))
        ∧ ∃ t, exec (.faultrespFail n seq) s = .next ((takePending (closeEntry s f) f).1.foldl failPending t))
    ∧ (∀ v rk r, rakeBusy s n = false → cmdRake s n v = some rk → tget s.rakes rk = some r →
        (field v.toNat 57 56 = 1 → ∃ t, exec (.rakecmdResume n v) s = .next (settleResume (rakeStat t n 0) n))
        ∧ (field v.toNat 57 56 = 2 → ∃ t, exec (.rakecmdKill n v) s = .next (rakeStat t n 0)))
    ∧ (∀ r, tget s.rakes n = some r → r.halt = none → ∃ t, exec (.debuggerHaltRequest n) s = .next t
        ∧ (tget t.rakes n).map Rake.halt = some (some (0, 14, 0, 0, 0)))
    ∧ (∀ c, tget s.ctxs n = some c → c.invBusy = true → tilesHold s (fun k p => k / 16384 == n
        && decide ((invRange c).1 ≤ p.1 ∧ p.1 < (invRange c).1 + (invRange c).2)) = false →
        ∃ t, exec (.invalidationComplete n) s = .next t ∧ (n + 1, 17) ∈ t.msix)
    ∧ (∀ c p s1, tget s.ctxs n = some c → c.plateBusy = true → loadPlate s n c c.plateCmd = (.ok p, s1) →
        ∃ t, exec (.plateLoadComplete n) s = .next (raiseVector t (n + 1) 17))
    ∧ (s.pf.ctxPending = some (2, n) → ctxOwes s n = false →
        exec .ctxcmdComplete s = .next { s with pf := { s.pf with ctxPending := none, ctxstat := 0 } })
    ∧ (∀ pa size v, n < 12 → s.pf.featDev.getLsbD (52 + n) = true → isDram pa = true → potSeen s pa = PotE.free →
        pa % 64 + min size 8 ≤ 64 →
        exec (.peerAccess n true pa size v) s = .next (ownWrite (ownFill s 0 pa (min size 8)) 0 pa (leBytes (min size 8) v.toNat)))
    ∧ (∀ pages, s.pf.featDev.getLsbD 44 = true → s.pf.featDrv.getLsbD 44 = true →
        tilesHold s (fun _ p => decide (0x80000000 + n ≤ p.2.1 / 4096 ∧ p.2.1 / 4096 < 0x80000000 + n + pages)) = false →
        ∃ t, exec (.atsInvalidation n pages) s = .next t
          ∧ ∀ c ∈ t.l2, ¬ (0x80000000 + n ≤ c.line / 64 ∧ c.line / 64 < 0x80000000 + n + pages))
    ∧ (600 ≤ n → n ≤ 1500 → exec (.powerCapSet n) s = .next { s with powerCap := n })
    ∧ (∀ transport ≤ 1, n ∈ s.portil.exchanged → ∃ t, exec (.spdmRequest n 0xE5 transport) s = .next t ∧ n ∈ t.portil.sessions)
    ∧ (∀ world, s.pf.featDev.getLsbD 43 = true → s.pf.featDrv.getLsbD 43 = true → 1 ≤ n → n ≤ 64 →
        ∃ t, exec (.tdispRequest n world true) s = .next t ∧ tget t.portil.bindings n = some world)
    ∧ (∃ t, exec .firmwareRotation s = .next t ∧ t.portil.keyid = s.portil.keyid + 1)
    ∧ (∃ t, exec (.perstRelease true) s = .next t ∧ t.pf.stage = 1)
    ∧ (∀ k, s.pf.stage = k → s.pf.fatal = false → s.pf.ready = false →
        (k = 1 → ∃ t, exec (.dramTraining true) s = .next t ∧ t.pf.stage = 2)
        ∧ (∀ image p, k = 2 → checkPlate image true 0 = .ok p → ∃ t, exec (.systemPlateLoad image true) s = .next t ∧ t.sysplate = some p)
        ∧ (∀ passed : BitVec 20, k = 3 → ∃ t, exec (.clusterSelfTest passed) s = .next t ∧ t.pf.stage = 4)
        ∧ (∀ up : BitVec 12, k = 4 → ∃ t, exec (.extumLinkTraining up) s = .next t ∧ t.pf.stage = 5)
        ∧ (k = 5 → ∃ t, exec .ready s = .next t ∧ t.pf.ready = true)))
end

