-- ==== Sys2Proof/Laws/State.lean ====
section
/-! SUPPORT. One lemma for each field that an update of the state, or of a coach, leaves as it was. -/
namespace Sys2Proof.Laws
open Sys2Proof.Machine

@[simp] theorem setCoach_sched (s : State) (k : Nat) (co : Coach) : (setCoach s k co).sched = s.sched := rfl
@[simp] theorem setCoach_cur (s : State) (k : Nat) (co : Coach) : (setCoach s k co).cur = s.cur := rfl
@[simp] theorem setCoach_turn (s : State) (k : Nat) (co : Coach) : (setCoach s k co).turn = s.turn := rfl
@[simp] theorem setCoach_dcur (s : State) (k : Nat) (co : Coach) : (setCoach s k co).dcur = s.dcur := rfl
@[simp] theorem setCoach_iss (s : State) (k : Nat) (co : Coach) : (setCoach s k co).iss = s.iss := rfl
@[simp] theorem setCoach_free (s : State) (k : Nat) (co : Coach) : (setCoach s k co).free = s.free := rfl
@[simp] theorem setCoach_time (s : State) (k : Nat) (co : Coach) : (setCoach s k co).time = s.time := rfl
@[simp] theorem setCoach_cycles (s : State) (k : Nat) (co : Coach) : (setCoach s k co).cycles = s.cycles := rfl
@[simp] theorem setCoach_mem (s : State) (k : Nat) (co : Coach) : (setCoach s k co).mem = s.mem := rfl
@[simp] theorem setCoach_poison (s : State) (k : Nat) (co : Coach) : (setCoach s k co).poison = s.poison := rfl
@[simp] theorem setCoach_l1 (s : State) (k : Nat) (co : Coach) : (setCoach s k co).l1 = s.l1 := rfl
@[simp] theorem setCoach_fusedClusters (s : State) (k : Nat) (co : Coach) : (setCoach s k co).fusedClusters = s.fusedClusters := rfl
@[simp] theorem setCoach_l2 (s : State) (k : Nat) (co : Coach) : (setCoach s k co).l2 = s.l2 := rfl
@[simp] theorem setCoach_victims (s : State) (k : Nat) (co : Coach) : (setCoach s k co).victims = s.victims := rfl
@[simp] theorem setCoach_tlbs (s : State) (k : Nat) (co : Coach) : (setCoach s k co).tlbs = s.tlbs := rfl
@[simp] theorem setCoach_imps (s : State) (k : Nat) (co : Coach) : (setCoach s k co).imps = s.imps := rfl
@[simp] theorem setCoach_rcache (s : State) (k : Nat) (co : Coach) : (setCoach s k co).rcache = s.rcache := rfl
@[simp] theorem setCoach_rakes (s : State) (k : Nat) (co : Coach) : (setCoach s k co).rakes = s.rakes := rfl
@[simp] theorem setCoach_regions (s : State) (k : Nat) (co : Coach) : (setCoach s k co).regions = s.regions := rfl
@[simp] theorem setCoach_ctxs (s : State) (k : Nat) (co : Coach) : (setCoach s k co).ctxs = s.ctxs := rfl
@[simp] theorem setCoach_tiles (s : State) (k : Nat) (co : Coach) : (setCoach s k co).tiles = s.tiles := rfl
@[simp] theorem setCoach_lastTile (s : State) (k : Nat) (co : Coach) : (setCoach s k co).lastTile = s.lastTile := rfl
@[simp] theorem setCoach_drays (s : State) (k : Nat) (co : Coach) : (setCoach s k co).drays = s.drays := rfl
@[simp] theorem setCoach_treebars (s : State) (k : Nat) (co : Coach) : (setCoach s k co).treebars = s.treebars := rfl
@[simp] theorem setCoach_faults (s : State) (k : Nat) (co : Coach) : (setCoach s k co).faults = s.faults := rfl
@[simp] theorem setCoach_nextFault (s : State) (k : Nat) (co : Coach) : (setCoach s k co).nextFault = s.nextFault := rfl
@[simp] theorem setCoach_resets (s : State) (k : Nat) (co : Coach) : (setCoach s k co).resets = s.resets := rfl
@[simp] theorem setCoach_pending (s : State) (k : Nat) (co : Coach) : (setCoach s k co).pending = s.pending := rfl
@[simp] theorem setCoach_sessions (s : State) (k : Nat) (co : Coach) : (setCoach s k co).sessions = s.sessions := rfl
@[simp] theorem setCoach_ports (s : State) (k : Nat) (co : Coach) : (setCoach s k co).ports = s.ports := rfl
@[simp] theorem setCoach_hallCount (s : State) (k : Nat) (co : Coach) : (setCoach s k co).hallCount = s.hallCount := rfl
@[simp] theorem setCoach_signing (s : State) (k : Nat) (co : Coach) : (setCoach s k co).signing = s.signing := rfl
@[simp] theorem setCoach_pot (s : State) (k : Nat) (co : Coach) : (setCoach s k co).pot = s.pot := rfl
@[simp] theorem setCoach_keys (s : State) (k : Nat) (co : Coach) : (setCoach s k co).keys = s.keys := rfl
@[simp] theorem setCoach_worlds (s : State) (k : Nat) (co : Coach) : (setCoach s k co).worlds = s.worlds := rfl
@[simp] theorem setCoach_portil (s : State) (k : Nat) (co : Coach) : (setCoach s k co).portil = s.portil := rfl
@[simp] theorem setCoach_pf (s : State) (k : Nat) (co : Coach) : (setCoach s k co).pf = s.pf := rfl
@[simp] theorem setCoach_parts (s : State) (k : Nat) (co : Coach) : (setCoach s k co).parts = s.parts := rfl
@[simp] theorem setCoach_sysplate (s : State) (k : Nat) (co : Coach) : (setCoach s k co).sysplate = s.sysplate := rfl
@[simp] theorem setCoach_ctrs (s : State) (k : Nat) (co : Coach) : (setCoach s k co).ctrs = s.ctrs := rfl
@[simp] theorem setCoach_flowFails (s : State) (k : Nat) (co : Coach) : (setCoach s k co).flowFails = s.flowFails := rfl
@[simp] theorem setCoach_lastPlace (s : State) (k : Nat) (co : Coach) : (setCoach s k co).lastPlace = s.lastPlace := rfl
@[simp] theorem setCoach_poolHits (s : State) (k : Nat) (co : Coach) : (setCoach s k co).poolHits = s.poolHits := rfl
@[simp] theorem setCoach_poolIntervals (s : State) (k : Nat) (co : Coach) : (setCoach s k co).poolIntervals = s.poolIntervals := rfl
@[simp] theorem setCoach_clockMHz (s : State) (k : Nat) (co : Coach) : (setCoach s k co).clockMHz = s.clockMHz := rfl
@[simp] theorem setCoach_powerCap (s : State) (k : Nat) (co : Coach) : (setCoach s k co).powerCap = s.powerCap := rfl
@[simp] theorem setCoach_softErrors (s : State) (k : Nat) (co : Coach) : (setCoach s k co).softErrors = s.softErrors := rfl
@[simp] theorem setCoach_msix (s : State) (k : Nat) (co : Coach) : (setCoach s k co).msix = s.msix := rfl
@[simp] theorem setCoach_aer (s : State) (k : Nat) (co : Coach) : (setCoach s k co).aer = s.aer := rfl
@[simp] theorem setCoach_hostRead (s : State) (k : Nat) (co : Coach) : (setCoach s k co).hostRead = s.hostRead := rfl
@[simp] theorem setCoach_picked (s : State) (k : Nat) (co : Coach) : (setCoach s k co).picked = s.picked := rfl
@[simp] theorem setCoach_drayTurns (s : State) (k : Nat) (co : Coach) : (setCoach s k co).drayTurns = s.drayTurns := rfl
@[simp] theorem setCoach_hallTurn (s : State) (k : Nat) (co : Coach) : (setCoach s k co).hallTurn = s.hallTurn := rfl
@[simp] theorem setCoach_upsets (s : State) (k : Nat) (co : Coach) : (setCoach s k co).upsets = s.upsets := rfl
@[simp] theorem setCoach_ats (s : State) (k : Nat) (co : Coach) : (setCoach s k co).ats = s.ats := rfl
@[simp] theorem setCoach_peerRefused (s : State) (k : Nat) (co : Coach) : (setCoach s k co).peerRefused = s.peerRefused := rfl
@[simp] theorem setCoach_flowKey (s : State) (k : Nat) (co : Coach) : (setCoach s k co).flowKey = s.flowKey := rfl
@[simp] theorem setCoach_scrubbed (s : State) (k : Nat) (co : Coach) : (setCoach s k co).scrubbed = s.scrubbed := rfl

@[simp] theorem modCoach_sched (s : State) (k : Nat) (f : Coach → Coach) : (modCoach s k f).sched = s.sched := rfl
@[simp] theorem modCoach_cur (s : State) (k : Nat) (f : Coach → Coach) : (modCoach s k f).cur = s.cur := rfl
@[simp] theorem modCoach_turn (s : State) (k : Nat) (f : Coach → Coach) : (modCoach s k f).turn = s.turn := rfl
@[simp] theorem modCoach_dcur (s : State) (k : Nat) (f : Coach → Coach) : (modCoach s k f).dcur = s.dcur := rfl
@[simp] theorem modCoach_iss (s : State) (k : Nat) (f : Coach → Coach) : (modCoach s k f).iss = s.iss := rfl
@[simp] theorem modCoach_free (s : State) (k : Nat) (f : Coach → Coach) : (modCoach s k f).free = s.free := rfl
@[simp] theorem modCoach_time (s : State) (k : Nat) (f : Coach → Coach) : (modCoach s k f).time = s.time := rfl
@[simp] theorem modCoach_cycles (s : State) (k : Nat) (f : Coach → Coach) : (modCoach s k f).cycles = s.cycles := rfl
@[simp] theorem modCoach_mem (s : State) (k : Nat) (f : Coach → Coach) : (modCoach s k f).mem = s.mem := rfl
@[simp] theorem modCoach_poison (s : State) (k : Nat) (f : Coach → Coach) : (modCoach s k f).poison = s.poison := rfl
@[simp] theorem modCoach_l1 (s : State) (k : Nat) (f : Coach → Coach) : (modCoach s k f).l1 = s.l1 := rfl
@[simp] theorem modCoach_fusedClusters (s : State) (k : Nat) (f : Coach → Coach) : (modCoach s k f).fusedClusters = s.fusedClusters := rfl
@[simp] theorem modCoach_l2 (s : State) (k : Nat) (f : Coach → Coach) : (modCoach s k f).l2 = s.l2 := rfl
@[simp] theorem modCoach_victims (s : State) (k : Nat) (f : Coach → Coach) : (modCoach s k f).victims = s.victims := rfl
@[simp] theorem modCoach_tlbs (s : State) (k : Nat) (f : Coach → Coach) : (modCoach s k f).tlbs = s.tlbs := rfl
@[simp] theorem modCoach_imps (s : State) (k : Nat) (f : Coach → Coach) : (modCoach s k f).imps = s.imps := rfl
@[simp] theorem modCoach_rcache (s : State) (k : Nat) (f : Coach → Coach) : (modCoach s k f).rcache = s.rcache := rfl
@[simp] theorem modCoach_rakes (s : State) (k : Nat) (f : Coach → Coach) : (modCoach s k f).rakes = s.rakes := rfl
@[simp] theorem modCoach_regions (s : State) (k : Nat) (f : Coach → Coach) : (modCoach s k f).regions = s.regions := rfl
@[simp] theorem modCoach_ctxs (s : State) (k : Nat) (f : Coach → Coach) : (modCoach s k f).ctxs = s.ctxs := rfl
@[simp] theorem modCoach_tiles (s : State) (k : Nat) (f : Coach → Coach) : (modCoach s k f).tiles = s.tiles := rfl
@[simp] theorem modCoach_lastTile (s : State) (k : Nat) (f : Coach → Coach) : (modCoach s k f).lastTile = s.lastTile := rfl
@[simp] theorem modCoach_drays (s : State) (k : Nat) (f : Coach → Coach) : (modCoach s k f).drays = s.drays := rfl
@[simp] theorem modCoach_treebars (s : State) (k : Nat) (f : Coach → Coach) : (modCoach s k f).treebars = s.treebars := rfl
@[simp] theorem modCoach_faults (s : State) (k : Nat) (f : Coach → Coach) : (modCoach s k f).faults = s.faults := rfl
@[simp] theorem modCoach_nextFault (s : State) (k : Nat) (f : Coach → Coach) : (modCoach s k f).nextFault = s.nextFault := rfl
@[simp] theorem modCoach_resets (s : State) (k : Nat) (f : Coach → Coach) : (modCoach s k f).resets = s.resets := rfl
@[simp] theorem modCoach_pending (s : State) (k : Nat) (f : Coach → Coach) : (modCoach s k f).pending = s.pending := rfl
@[simp] theorem modCoach_sessions (s : State) (k : Nat) (f : Coach → Coach) : (modCoach s k f).sessions = s.sessions := rfl
@[simp] theorem modCoach_ports (s : State) (k : Nat) (f : Coach → Coach) : (modCoach s k f).ports = s.ports := rfl
@[simp] theorem modCoach_hallCount (s : State) (k : Nat) (f : Coach → Coach) : (modCoach s k f).hallCount = s.hallCount := rfl
@[simp] theorem modCoach_signing (s : State) (k : Nat) (f : Coach → Coach) : (modCoach s k f).signing = s.signing := rfl
@[simp] theorem modCoach_pot (s : State) (k : Nat) (f : Coach → Coach) : (modCoach s k f).pot = s.pot := rfl
@[simp] theorem modCoach_keys (s : State) (k : Nat) (f : Coach → Coach) : (modCoach s k f).keys = s.keys := rfl
@[simp] theorem modCoach_worlds (s : State) (k : Nat) (f : Coach → Coach) : (modCoach s k f).worlds = s.worlds := rfl
@[simp] theorem modCoach_portil (s : State) (k : Nat) (f : Coach → Coach) : (modCoach s k f).portil = s.portil := rfl
@[simp] theorem modCoach_pf (s : State) (k : Nat) (f : Coach → Coach) : (modCoach s k f).pf = s.pf := rfl
@[simp] theorem modCoach_parts (s : State) (k : Nat) (f : Coach → Coach) : (modCoach s k f).parts = s.parts := rfl
@[simp] theorem modCoach_sysplate (s : State) (k : Nat) (f : Coach → Coach) : (modCoach s k f).sysplate = s.sysplate := rfl
@[simp] theorem modCoach_ctrs (s : State) (k : Nat) (f : Coach → Coach) : (modCoach s k f).ctrs = s.ctrs := rfl
@[simp] theorem modCoach_flowFails (s : State) (k : Nat) (f : Coach → Coach) : (modCoach s k f).flowFails = s.flowFails := rfl
@[simp] theorem modCoach_lastPlace (s : State) (k : Nat) (f : Coach → Coach) : (modCoach s k f).lastPlace = s.lastPlace := rfl
@[simp] theorem modCoach_poolHits (s : State) (k : Nat) (f : Coach → Coach) : (modCoach s k f).poolHits = s.poolHits := rfl
@[simp] theorem modCoach_poolIntervals (s : State) (k : Nat) (f : Coach → Coach) : (modCoach s k f).poolIntervals = s.poolIntervals := rfl
@[simp] theorem modCoach_clockMHz (s : State) (k : Nat) (f : Coach → Coach) : (modCoach s k f).clockMHz = s.clockMHz := rfl
@[simp] theorem modCoach_powerCap (s : State) (k : Nat) (f : Coach → Coach) : (modCoach s k f).powerCap = s.powerCap := rfl
@[simp] theorem modCoach_softErrors (s : State) (k : Nat) (f : Coach → Coach) : (modCoach s k f).softErrors = s.softErrors := rfl
@[simp] theorem modCoach_msix (s : State) (k : Nat) (f : Coach → Coach) : (modCoach s k f).msix = s.msix := rfl
@[simp] theorem modCoach_aer (s : State) (k : Nat) (f : Coach → Coach) : (modCoach s k f).aer = s.aer := rfl
@[simp] theorem modCoach_hostRead (s : State) (k : Nat) (f : Coach → Coach) : (modCoach s k f).hostRead = s.hostRead := rfl
@[simp] theorem modCoach_picked (s : State) (k : Nat) (f : Coach → Coach) : (modCoach s k f).picked = s.picked := rfl
@[simp] theorem modCoach_drayTurns (s : State) (k : Nat) (f : Coach → Coach) : (modCoach s k f).drayTurns = s.drayTurns := rfl
@[simp] theorem modCoach_hallTurn (s : State) (k : Nat) (f : Coach → Coach) : (modCoach s k f).hallTurn = s.hallTurn := rfl
@[simp] theorem modCoach_upsets (s : State) (k : Nat) (f : Coach → Coach) : (modCoach s k f).upsets = s.upsets := rfl
@[simp] theorem modCoach_ats (s : State) (k : Nat) (f : Coach → Coach) : (modCoach s k f).ats = s.ats := rfl
@[simp] theorem modCoach_peerRefused (s : State) (k : Nat) (f : Coach → Coach) : (modCoach s k f).peerRefused = s.peerRefused := rfl
@[simp] theorem modCoach_flowKey (s : State) (k : Nat) (f : Coach → Coach) : (modCoach s k f).flowKey = s.flowKey := rfl
@[simp] theorem modCoach_scrubbed (s : State) (k : Nat) (f : Coach → Coach) : (modCoach s k f).scrubbed = s.scrubbed := rfl

@[simp] theorem modRake_sched (s : State) (k : Nat) (f : Rake → Rake) : (modRake s k f).sched = s.sched := rfl
@[simp] theorem modRake_cur (s : State) (k : Nat) (f : Rake → Rake) : (modRake s k f).cur = s.cur := rfl
@[simp] theorem modRake_turn (s : State) (k : Nat) (f : Rake → Rake) : (modRake s k f).turn = s.turn := rfl
@[simp] theorem modRake_dcur (s : State) (k : Nat) (f : Rake → Rake) : (modRake s k f).dcur = s.dcur := rfl
@[simp] theorem modRake_iss (s : State) (k : Nat) (f : Rake → Rake) : (modRake s k f).iss = s.iss := rfl
@[simp] theorem modRake_free (s : State) (k : Nat) (f : Rake → Rake) : (modRake s k f).free = s.free := rfl
@[simp] theorem modRake_time (s : State) (k : Nat) (f : Rake → Rake) : (modRake s k f).time = s.time := rfl
@[simp] theorem modRake_cycles (s : State) (k : Nat) (f : Rake → Rake) : (modRake s k f).cycles = s.cycles := rfl
@[simp] theorem modRake_mem (s : State) (k : Nat) (f : Rake → Rake) : (modRake s k f).mem = s.mem := rfl
@[simp] theorem modRake_poison (s : State) (k : Nat) (f : Rake → Rake) : (modRake s k f).poison = s.poison := rfl
@[simp] theorem modRake_l1 (s : State) (k : Nat) (f : Rake → Rake) : (modRake s k f).l1 = s.l1 := rfl
@[simp] theorem modRake_fusedClusters (s : State) (k : Nat) (f : Rake → Rake) : (modRake s k f).fusedClusters = s.fusedClusters := rfl
@[simp] theorem modRake_l2 (s : State) (k : Nat) (f : Rake → Rake) : (modRake s k f).l2 = s.l2 := rfl
@[simp] theorem modRake_victims (s : State) (k : Nat) (f : Rake → Rake) : (modRake s k f).victims = s.victims := rfl
@[simp] theorem modRake_tlbs (s : State) (k : Nat) (f : Rake → Rake) : (modRake s k f).tlbs = s.tlbs := rfl
@[simp] theorem modRake_imps (s : State) (k : Nat) (f : Rake → Rake) : (modRake s k f).imps = s.imps := rfl
@[simp] theorem modRake_rcache (s : State) (k : Nat) (f : Rake → Rake) : (modRake s k f).rcache = s.rcache := rfl
@[simp] theorem modRake_coaches (s : State) (k : Nat) (f : Rake → Rake) : (modRake s k f).coaches = s.coaches := rfl
@[simp] theorem modRake_regions (s : State) (k : Nat) (f : Rake → Rake) : (modRake s k f).regions = s.regions := rfl
@[simp] theorem modRake_ctxs (s : State) (k : Nat) (f : Rake → Rake) : (modRake s k f).ctxs = s.ctxs := rfl
@[simp] theorem modRake_tiles (s : State) (k : Nat) (f : Rake → Rake) : (modRake s k f).tiles = s.tiles := rfl
@[simp] theorem modRake_lastTile (s : State) (k : Nat) (f : Rake → Rake) : (modRake s k f).lastTile = s.lastTile := rfl
@[simp] theorem modRake_drays (s : State) (k : Nat) (f : Rake → Rake) : (modRake s k f).drays = s.drays := rfl
@[simp] theorem modRake_treebars (s : State) (k : Nat) (f : Rake → Rake) : (modRake s k f).treebars = s.treebars := rfl
@[simp] theorem modRake_faults (s : State) (k : Nat) (f : Rake → Rake) : (modRake s k f).faults = s.faults := rfl
@[simp] theorem modRake_nextFault (s : State) (k : Nat) (f : Rake → Rake) : (modRake s k f).nextFault = s.nextFault := rfl
@[simp] theorem modRake_resets (s : State) (k : Nat) (f : Rake → Rake) : (modRake s k f).resets = s.resets := rfl
@[simp] theorem modRake_pending (s : State) (k : Nat) (f : Rake → Rake) : (modRake s k f).pending = s.pending := rfl
@[simp] theorem modRake_sessions (s : State) (k : Nat) (f : Rake → Rake) : (modRake s k f).sessions = s.sessions := rfl
@[simp] theorem modRake_ports (s : State) (k : Nat) (f : Rake → Rake) : (modRake s k f).ports = s.ports := rfl
@[simp] theorem modRake_hallCount (s : State) (k : Nat) (f : Rake → Rake) : (modRake s k f).hallCount = s.hallCount := rfl
@[simp] theorem modRake_signing (s : State) (k : Nat) (f : Rake → Rake) : (modRake s k f).signing = s.signing := rfl
@[simp] theorem modRake_pot (s : State) (k : Nat) (f : Rake → Rake) : (modRake s k f).pot = s.pot := rfl
@[simp] theorem modRake_keys (s : State) (k : Nat) (f : Rake → Rake) : (modRake s k f).keys = s.keys := rfl
@[simp] theorem modRake_worlds (s : State) (k : Nat) (f : Rake → Rake) : (modRake s k f).worlds = s.worlds := rfl
@[simp] theorem modRake_portil (s : State) (k : Nat) (f : Rake → Rake) : (modRake s k f).portil = s.portil := rfl
@[simp] theorem modRake_pf (s : State) (k : Nat) (f : Rake → Rake) : (modRake s k f).pf = s.pf := rfl
@[simp] theorem modRake_parts (s : State) (k : Nat) (f : Rake → Rake) : (modRake s k f).parts = s.parts := rfl
@[simp] theorem modRake_sysplate (s : State) (k : Nat) (f : Rake → Rake) : (modRake s k f).sysplate = s.sysplate := rfl
@[simp] theorem modRake_ctrs (s : State) (k : Nat) (f : Rake → Rake) : (modRake s k f).ctrs = s.ctrs := rfl
@[simp] theorem modRake_flowFails (s : State) (k : Nat) (f : Rake → Rake) : (modRake s k f).flowFails = s.flowFails := rfl
@[simp] theorem modRake_lastPlace (s : State) (k : Nat) (f : Rake → Rake) : (modRake s k f).lastPlace = s.lastPlace := rfl
@[simp] theorem modRake_poolHits (s : State) (k : Nat) (f : Rake → Rake) : (modRake s k f).poolHits = s.poolHits := rfl
@[simp] theorem modRake_poolIntervals (s : State) (k : Nat) (f : Rake → Rake) : (modRake s k f).poolIntervals = s.poolIntervals := rfl
@[simp] theorem modRake_clockMHz (s : State) (k : Nat) (f : Rake → Rake) : (modRake s k f).clockMHz = s.clockMHz := rfl
@[simp] theorem modRake_powerCap (s : State) (k : Nat) (f : Rake → Rake) : (modRake s k f).powerCap = s.powerCap := rfl
@[simp] theorem modRake_softErrors (s : State) (k : Nat) (f : Rake → Rake) : (modRake s k f).softErrors = s.softErrors := rfl
@[simp] theorem modRake_msix (s : State) (k : Nat) (f : Rake → Rake) : (modRake s k f).msix = s.msix := rfl
@[simp] theorem modRake_aer (s : State) (k : Nat) (f : Rake → Rake) : (modRake s k f).aer = s.aer := rfl
@[simp] theorem modRake_hostRead (s : State) (k : Nat) (f : Rake → Rake) : (modRake s k f).hostRead = s.hostRead := rfl
@[simp] theorem modRake_picked (s : State) (k : Nat) (f : Rake → Rake) : (modRake s k f).picked = s.picked := rfl
@[simp] theorem modRake_drayTurns (s : State) (k : Nat) (f : Rake → Rake) : (modRake s k f).drayTurns = s.drayTurns := rfl
@[simp] theorem modRake_hallTurn (s : State) (k : Nat) (f : Rake → Rake) : (modRake s k f).hallTurn = s.hallTurn := rfl
@[simp] theorem modRake_upsets (s : State) (k : Nat) (f : Rake → Rake) : (modRake s k f).upsets = s.upsets := rfl
@[simp] theorem modRake_ats (s : State) (k : Nat) (f : Rake → Rake) : (modRake s k f).ats = s.ats := rfl
@[simp] theorem modRake_peerRefused (s : State) (k : Nat) (f : Rake → Rake) : (modRake s k f).peerRefused = s.peerRefused := rfl
@[simp] theorem modRake_flowKey (s : State) (k : Nat) (f : Rake → Rake) : (modRake s k f).flowKey = s.flowKey := rfl
@[simp] theorem modRake_scrubbed (s : State) (k : Nat) (f : Rake → Rake) : (modRake s k f).scrubbed = s.scrubbed := rfl

@[simp] theorem modRegion_sched (s : State) (k : Nat) (f : Region → Region) : (modRegion s k f).sched = s.sched := rfl
@[simp] theorem modRegion_cur (s : State) (k : Nat) (f : Region → Region) : (modRegion s k f).cur = s.cur := rfl
@[simp] theorem modRegion_turn (s : State) (k : Nat) (f : Region → Region) : (modRegion s k f).turn = s.turn := rfl
@[simp] theorem modRegion_dcur (s : State) (k : Nat) (f : Region → Region) : (modRegion s k f).dcur = s.dcur := rfl
@[simp] theorem modRegion_iss (s : State) (k : Nat) (f : Region → Region) : (modRegion s k f).iss = s.iss := rfl
@[simp] theorem modRegion_free (s : State) (k : Nat) (f : Region → Region) : (modRegion s k f).free = s.free := rfl
@[simp] theorem modRegion_time (s : State) (k : Nat) (f : Region → Region) : (modRegion s k f).time = s.time := rfl
@[simp] theorem modRegion_cycles (s : State) (k : Nat) (f : Region → Region) : (modRegion s k f).cycles = s.cycles := rfl
@[simp] theorem modRegion_mem (s : State) (k : Nat) (f : Region → Region) : (modRegion s k f).mem = s.mem := rfl
@[simp] theorem modRegion_poison (s : State) (k : Nat) (f : Region → Region) : (modRegion s k f).poison = s.poison := rfl
@[simp] theorem modRegion_l1 (s : State) (k : Nat) (f : Region → Region) : (modRegion s k f).l1 = s.l1 := rfl
@[simp] theorem modRegion_fusedClusters (s : State) (k : Nat) (f : Region → Region) : (modRegion s k f).fusedClusters = s.fusedClusters := rfl
@[simp] theorem modRegion_l2 (s : State) (k : Nat) (f : Region → Region) : (modRegion s k f).l2 = s.l2 := rfl
@[simp] theorem modRegion_victims (s : State) (k : Nat) (f : Region → Region) : (modRegion s k f).victims = s.victims := rfl
@[simp] theorem modRegion_tlbs (s : State) (k : Nat) (f : Region → Region) : (modRegion s k f).tlbs = s.tlbs := rfl
@[simp] theorem modRegion_imps (s : State) (k : Nat) (f : Region → Region) : (modRegion s k f).imps = s.imps := rfl
@[simp] theorem modRegion_rcache (s : State) (k : Nat) (f : Region → Region) : (modRegion s k f).rcache = s.rcache := rfl
@[simp] theorem modRegion_coaches (s : State) (k : Nat) (f : Region → Region) : (modRegion s k f).coaches = s.coaches := rfl
@[simp] theorem modRegion_rakes (s : State) (k : Nat) (f : Region → Region) : (modRegion s k f).rakes = s.rakes := rfl
@[simp] theorem modRegion_ctxs (s : State) (k : Nat) (f : Region → Region) : (modRegion s k f).ctxs = s.ctxs := rfl
@[simp] theorem modRegion_tiles (s : State) (k : Nat) (f : Region → Region) : (modRegion s k f).tiles = s.tiles := rfl
@[simp] theorem modRegion_lastTile (s : State) (k : Nat) (f : Region → Region) : (modRegion s k f).lastTile = s.lastTile := rfl
@[simp] theorem modRegion_drays (s : State) (k : Nat) (f : Region → Region) : (modRegion s k f).drays = s.drays := rfl
@[simp] theorem modRegion_treebars (s : State) (k : Nat) (f : Region → Region) : (modRegion s k f).treebars = s.treebars := rfl
@[simp] theorem modRegion_faults (s : State) (k : Nat) (f : Region → Region) : (modRegion s k f).faults = s.faults := rfl
@[simp] theorem modRegion_nextFault (s : State) (k : Nat) (f : Region → Region) : (modRegion s k f).nextFault = s.nextFault := rfl
@[simp] theorem modRegion_resets (s : State) (k : Nat) (f : Region → Region) : (modRegion s k f).resets = s.resets := rfl
@[simp] theorem modRegion_pending (s : State) (k : Nat) (f : Region → Region) : (modRegion s k f).pending = s.pending := rfl
@[simp] theorem modRegion_sessions (s : State) (k : Nat) (f : Region → Region) : (modRegion s k f).sessions = s.sessions := rfl
@[simp] theorem modRegion_ports (s : State) (k : Nat) (f : Region → Region) : (modRegion s k f).ports = s.ports := rfl
@[simp] theorem modRegion_hallCount (s : State) (k : Nat) (f : Region → Region) : (modRegion s k f).hallCount = s.hallCount := rfl
@[simp] theorem modRegion_signing (s : State) (k : Nat) (f : Region → Region) : (modRegion s k f).signing = s.signing := rfl
@[simp] theorem modRegion_pot (s : State) (k : Nat) (f : Region → Region) : (modRegion s k f).pot = s.pot := rfl
@[simp] theorem modRegion_keys (s : State) (k : Nat) (f : Region → Region) : (modRegion s k f).keys = s.keys := rfl
@[simp] theorem modRegion_worlds (s : State) (k : Nat) (f : Region → Region) : (modRegion s k f).worlds = s.worlds := rfl
@[simp] theorem modRegion_portil (s : State) (k : Nat) (f : Region → Region) : (modRegion s k f).portil = s.portil := rfl
@[simp] theorem modRegion_pf (s : State) (k : Nat) (f : Region → Region) : (modRegion s k f).pf = s.pf := rfl
@[simp] theorem modRegion_parts (s : State) (k : Nat) (f : Region → Region) : (modRegion s k f).parts = s.parts := rfl
@[simp] theorem modRegion_sysplate (s : State) (k : Nat) (f : Region → Region) : (modRegion s k f).sysplate = s.sysplate := rfl
@[simp] theorem modRegion_ctrs (s : State) (k : Nat) (f : Region → Region) : (modRegion s k f).ctrs = s.ctrs := rfl
@[simp] theorem modRegion_flowFails (s : State) (k : Nat) (f : Region → Region) : (modRegion s k f).flowFails = s.flowFails := rfl
@[simp] theorem modRegion_lastPlace (s : State) (k : Nat) (f : Region → Region) : (modRegion s k f).lastPlace = s.lastPlace := rfl
@[simp] theorem modRegion_poolHits (s : State) (k : Nat) (f : Region → Region) : (modRegion s k f).poolHits = s.poolHits := rfl
@[simp] theorem modRegion_poolIntervals (s : State) (k : Nat) (f : Region → Region) : (modRegion s k f).poolIntervals = s.poolIntervals := rfl
@[simp] theorem modRegion_clockMHz (s : State) (k : Nat) (f : Region → Region) : (modRegion s k f).clockMHz = s.clockMHz := rfl
@[simp] theorem modRegion_powerCap (s : State) (k : Nat) (f : Region → Region) : (modRegion s k f).powerCap = s.powerCap := rfl
@[simp] theorem modRegion_softErrors (s : State) (k : Nat) (f : Region → Region) : (modRegion s k f).softErrors = s.softErrors := rfl
@[simp] theorem modRegion_msix (s : State) (k : Nat) (f : Region → Region) : (modRegion s k f).msix = s.msix := rfl
@[simp] theorem modRegion_aer (s : State) (k : Nat) (f : Region → Region) : (modRegion s k f).aer = s.aer := rfl
@[simp] theorem modRegion_hostRead (s : State) (k : Nat) (f : Region → Region) : (modRegion s k f).hostRead = s.hostRead := rfl
@[simp] theorem modRegion_picked (s : State) (k : Nat) (f : Region → Region) : (modRegion s k f).picked = s.picked := rfl
@[simp] theorem modRegion_drayTurns (s : State) (k : Nat) (f : Region → Region) : (modRegion s k f).drayTurns = s.drayTurns := rfl
@[simp] theorem modRegion_hallTurn (s : State) (k : Nat) (f : Region → Region) : (modRegion s k f).hallTurn = s.hallTurn := rfl
@[simp] theorem modRegion_upsets (s : State) (k : Nat) (f : Region → Region) : (modRegion s k f).upsets = s.upsets := rfl
@[simp] theorem modRegion_ats (s : State) (k : Nat) (f : Region → Region) : (modRegion s k f).ats = s.ats := rfl
@[simp] theorem modRegion_peerRefused (s : State) (k : Nat) (f : Region → Region) : (modRegion s k f).peerRefused = s.peerRefused := rfl
@[simp] theorem modRegion_flowKey (s : State) (k : Nat) (f : Region → Region) : (modRegion s k f).flowKey = s.flowKey := rfl
@[simp] theorem modRegion_scrubbed (s : State) (k : Nat) (f : Region → Region) : (modRegion s k f).scrubbed = s.scrubbed := rfl

@[simp] theorem modCtx_sched (s : State) (k : Nat) (f : Ctx → Ctx) : (modCtx s k f).sched = s.sched := rfl
@[simp] theorem modCtx_cur (s : State) (k : Nat) (f : Ctx → Ctx) : (modCtx s k f).cur = s.cur := rfl
@[simp] theorem modCtx_turn (s : State) (k : Nat) (f : Ctx → Ctx) : (modCtx s k f).turn = s.turn := rfl
@[simp] theorem modCtx_dcur (s : State) (k : Nat) (f : Ctx → Ctx) : (modCtx s k f).dcur = s.dcur := rfl
@[simp] theorem modCtx_iss (s : State) (k : Nat) (f : Ctx → Ctx) : (modCtx s k f).iss = s.iss := rfl
@[simp] theorem modCtx_free (s : State) (k : Nat) (f : Ctx → Ctx) : (modCtx s k f).free = s.free := rfl
@[simp] theorem modCtx_time (s : State) (k : Nat) (f : Ctx → Ctx) : (modCtx s k f).time = s.time := rfl
@[simp] theorem modCtx_cycles (s : State) (k : Nat) (f : Ctx → Ctx) : (modCtx s k f).cycles = s.cycles := rfl
@[simp] theorem modCtx_mem (s : State) (k : Nat) (f : Ctx → Ctx) : (modCtx s k f).mem = s.mem := rfl
@[simp] theorem modCtx_poison (s : State) (k : Nat) (f : Ctx → Ctx) : (modCtx s k f).poison = s.poison := rfl
@[simp] theorem modCtx_l1 (s : State) (k : Nat) (f : Ctx → Ctx) : (modCtx s k f).l1 = s.l1 := rfl
@[simp] theorem modCtx_fusedClusters (s : State) (k : Nat) (f : Ctx → Ctx) : (modCtx s k f).fusedClusters = s.fusedClusters := rfl
@[simp] theorem modCtx_l2 (s : State) (k : Nat) (f : Ctx → Ctx) : (modCtx s k f).l2 = s.l2 := rfl
@[simp] theorem modCtx_victims (s : State) (k : Nat) (f : Ctx → Ctx) : (modCtx s k f).victims = s.victims := rfl
@[simp] theorem modCtx_tlbs (s : State) (k : Nat) (f : Ctx → Ctx) : (modCtx s k f).tlbs = s.tlbs := rfl
@[simp] theorem modCtx_imps (s : State) (k : Nat) (f : Ctx → Ctx) : (modCtx s k f).imps = s.imps := rfl
@[simp] theorem modCtx_rcache (s : State) (k : Nat) (f : Ctx → Ctx) : (modCtx s k f).rcache = s.rcache := rfl
@[simp] theorem modCtx_coaches (s : State) (k : Nat) (f : Ctx → Ctx) : (modCtx s k f).coaches = s.coaches := rfl
@[simp] theorem modCtx_rakes (s : State) (k : Nat) (f : Ctx → Ctx) : (modCtx s k f).rakes = s.rakes := rfl
@[simp] theorem modCtx_regions (s : State) (k : Nat) (f : Ctx → Ctx) : (modCtx s k f).regions = s.regions := rfl
@[simp] theorem modCtx_tiles (s : State) (k : Nat) (f : Ctx → Ctx) : (modCtx s k f).tiles = s.tiles := rfl
@[simp] theorem modCtx_lastTile (s : State) (k : Nat) (f : Ctx → Ctx) : (modCtx s k f).lastTile = s.lastTile := rfl
@[simp] theorem modCtx_drays (s : State) (k : Nat) (f : Ctx → Ctx) : (modCtx s k f).drays = s.drays := rfl
@[simp] theorem modCtx_treebars (s : State) (k : Nat) (f : Ctx → Ctx) : (modCtx s k f).treebars = s.treebars := rfl
@[simp] theorem modCtx_faults (s : State) (k : Nat) (f : Ctx → Ctx) : (modCtx s k f).faults = s.faults := rfl
@[simp] theorem modCtx_nextFault (s : State) (k : Nat) (f : Ctx → Ctx) : (modCtx s k f).nextFault = s.nextFault := rfl
@[simp] theorem modCtx_resets (s : State) (k : Nat) (f : Ctx → Ctx) : (modCtx s k f).resets = s.resets := rfl
@[simp] theorem modCtx_pending (s : State) (k : Nat) (f : Ctx → Ctx) : (modCtx s k f).pending = s.pending := rfl
@[simp] theorem modCtx_sessions (s : State) (k : Nat) (f : Ctx → Ctx) : (modCtx s k f).sessions = s.sessions := rfl
@[simp] theorem modCtx_ports (s : State) (k : Nat) (f : Ctx → Ctx) : (modCtx s k f).ports = s.ports := rfl
@[simp] theorem modCtx_hallCount (s : State) (k : Nat) (f : Ctx → Ctx) : (modCtx s k f).hallCount = s.hallCount := rfl
@[simp] theorem modCtx_signing (s : State) (k : Nat) (f : Ctx → Ctx) : (modCtx s k f).signing = s.signing := rfl
@[simp] theorem modCtx_pot (s : State) (k : Nat) (f : Ctx → Ctx) : (modCtx s k f).pot = s.pot := rfl
@[simp] theorem modCtx_keys (s : State) (k : Nat) (f : Ctx → Ctx) : (modCtx s k f).keys = s.keys := rfl
@[simp] theorem modCtx_worlds (s : State) (k : Nat) (f : Ctx → Ctx) : (modCtx s k f).worlds = s.worlds := rfl
@[simp] theorem modCtx_portil (s : State) (k : Nat) (f : Ctx → Ctx) : (modCtx s k f).portil = s.portil := rfl
@[simp] theorem modCtx_pf (s : State) (k : Nat) (f : Ctx → Ctx) : (modCtx s k f).pf = s.pf := rfl
@[simp] theorem modCtx_parts (s : State) (k : Nat) (f : Ctx → Ctx) : (modCtx s k f).parts = s.parts := rfl
@[simp] theorem modCtx_sysplate (s : State) (k : Nat) (f : Ctx → Ctx) : (modCtx s k f).sysplate = s.sysplate := rfl
@[simp] theorem modCtx_ctrs (s : State) (k : Nat) (f : Ctx → Ctx) : (modCtx s k f).ctrs = s.ctrs := rfl
@[simp] theorem modCtx_flowFails (s : State) (k : Nat) (f : Ctx → Ctx) : (modCtx s k f).flowFails = s.flowFails := rfl
@[simp] theorem modCtx_lastPlace (s : State) (k : Nat) (f : Ctx → Ctx) : (modCtx s k f).lastPlace = s.lastPlace := rfl
@[simp] theorem modCtx_poolHits (s : State) (k : Nat) (f : Ctx → Ctx) : (modCtx s k f).poolHits = s.poolHits := rfl
@[simp] theorem modCtx_poolIntervals (s : State) (k : Nat) (f : Ctx → Ctx) : (modCtx s k f).poolIntervals = s.poolIntervals := rfl
@[simp] theorem modCtx_clockMHz (s : State) (k : Nat) (f : Ctx → Ctx) : (modCtx s k f).clockMHz = s.clockMHz := rfl
@[simp] theorem modCtx_powerCap (s : State) (k : Nat) (f : Ctx → Ctx) : (modCtx s k f).powerCap = s.powerCap := rfl
@[simp] theorem modCtx_softErrors (s : State) (k : Nat) (f : Ctx → Ctx) : (modCtx s k f).softErrors = s.softErrors := rfl
@[simp] theorem modCtx_msix (s : State) (k : Nat) (f : Ctx → Ctx) : (modCtx s k f).msix = s.msix := rfl
@[simp] theorem modCtx_aer (s : State) (k : Nat) (f : Ctx → Ctx) : (modCtx s k f).aer = s.aer := rfl
@[simp] theorem modCtx_hostRead (s : State) (k : Nat) (f : Ctx → Ctx) : (modCtx s k f).hostRead = s.hostRead := rfl
@[simp] theorem modCtx_picked (s : State) (k : Nat) (f : Ctx → Ctx) : (modCtx s k f).picked = s.picked := rfl
@[simp] theorem modCtx_drayTurns (s : State) (k : Nat) (f : Ctx → Ctx) : (modCtx s k f).drayTurns = s.drayTurns := rfl
@[simp] theorem modCtx_hallTurn (s : State) (k : Nat) (f : Ctx → Ctx) : (modCtx s k f).hallTurn = s.hallTurn := rfl
@[simp] theorem modCtx_upsets (s : State) (k : Nat) (f : Ctx → Ctx) : (modCtx s k f).upsets = s.upsets := rfl
@[simp] theorem modCtx_ats (s : State) (k : Nat) (f : Ctx → Ctx) : (modCtx s k f).ats = s.ats := rfl
@[simp] theorem modCtx_peerRefused (s : State) (k : Nat) (f : Ctx → Ctx) : (modCtx s k f).peerRefused = s.peerRefused := rfl
@[simp] theorem modCtx_flowKey (s : State) (k : Nat) (f : Ctx → Ctx) : (modCtx s k f).flowKey = s.flowKey := rfl
@[simp] theorem modCtx_scrubbed (s : State) (k : Nat) (f : Ctx → Ctx) : (modCtx s k f).scrubbed = s.scrubbed := rfl

@[simp] theorem setDray_sched (s : State) (k : Nat) (d : Dray) : (setDray s k d).sched = s.sched := rfl
@[simp] theorem setDray_cur (s : State) (k : Nat) (d : Dray) : (setDray s k d).cur = s.cur := rfl
@[simp] theorem setDray_turn (s : State) (k : Nat) (d : Dray) : (setDray s k d).turn = s.turn := rfl
@[simp] theorem setDray_dcur (s : State) (k : Nat) (d : Dray) : (setDray s k d).dcur = s.dcur := rfl
@[simp] theorem setDray_iss (s : State) (k : Nat) (d : Dray) : (setDray s k d).iss = s.iss := rfl
@[simp] theorem setDray_free (s : State) (k : Nat) (d : Dray) : (setDray s k d).free = s.free := rfl
@[simp] theorem setDray_time (s : State) (k : Nat) (d : Dray) : (setDray s k d).time = s.time := rfl
@[simp] theorem setDray_cycles (s : State) (k : Nat) (d : Dray) : (setDray s k d).cycles = s.cycles := rfl
@[simp] theorem setDray_mem (s : State) (k : Nat) (d : Dray) : (setDray s k d).mem = s.mem := rfl
@[simp] theorem setDray_poison (s : State) (k : Nat) (d : Dray) : (setDray s k d).poison = s.poison := rfl
@[simp] theorem setDray_l1 (s : State) (k : Nat) (d : Dray) : (setDray s k d).l1 = s.l1 := rfl
@[simp] theorem setDray_fusedClusters (s : State) (k : Nat) (d : Dray) : (setDray s k d).fusedClusters = s.fusedClusters := rfl
@[simp] theorem setDray_l2 (s : State) (k : Nat) (d : Dray) : (setDray s k d).l2 = s.l2 := rfl
@[simp] theorem setDray_victims (s : State) (k : Nat) (d : Dray) : (setDray s k d).victims = s.victims := rfl
@[simp] theorem setDray_tlbs (s : State) (k : Nat) (d : Dray) : (setDray s k d).tlbs = s.tlbs := rfl
@[simp] theorem setDray_imps (s : State) (k : Nat) (d : Dray) : (setDray s k d).imps = s.imps := rfl
@[simp] theorem setDray_rcache (s : State) (k : Nat) (d : Dray) : (setDray s k d).rcache = s.rcache := rfl
@[simp] theorem setDray_coaches (s : State) (k : Nat) (d : Dray) : (setDray s k d).coaches = s.coaches := rfl
@[simp] theorem setDray_rakes (s : State) (k : Nat) (d : Dray) : (setDray s k d).rakes = s.rakes := rfl
@[simp] theorem setDray_regions (s : State) (k : Nat) (d : Dray) : (setDray s k d).regions = s.regions := rfl
@[simp] theorem setDray_ctxs (s : State) (k : Nat) (d : Dray) : (setDray s k d).ctxs = s.ctxs := rfl
@[simp] theorem setDray_tiles (s : State) (k : Nat) (d : Dray) : (setDray s k d).tiles = s.tiles := rfl
@[simp] theorem setDray_lastTile (s : State) (k : Nat) (d : Dray) : (setDray s k d).lastTile = s.lastTile := rfl
@[simp] theorem setDray_treebars (s : State) (k : Nat) (d : Dray) : (setDray s k d).treebars = s.treebars := rfl
@[simp] theorem setDray_faults (s : State) (k : Nat) (d : Dray) : (setDray s k d).faults = s.faults := rfl
@[simp] theorem setDray_nextFault (s : State) (k : Nat) (d : Dray) : (setDray s k d).nextFault = s.nextFault := rfl
@[simp] theorem setDray_resets (s : State) (k : Nat) (d : Dray) : (setDray s k d).resets = s.resets := rfl
@[simp] theorem setDray_pending (s : State) (k : Nat) (d : Dray) : (setDray s k d).pending = s.pending := rfl
@[simp] theorem setDray_sessions (s : State) (k : Nat) (d : Dray) : (setDray s k d).sessions = s.sessions := rfl
@[simp] theorem setDray_ports (s : State) (k : Nat) (d : Dray) : (setDray s k d).ports = s.ports := rfl
@[simp] theorem setDray_hallCount (s : State) (k : Nat) (d : Dray) : (setDray s k d).hallCount = s.hallCount := rfl
@[simp] theorem setDray_signing (s : State) (k : Nat) (d : Dray) : (setDray s k d).signing = s.signing := rfl
@[simp] theorem setDray_pot (s : State) (k : Nat) (d : Dray) : (setDray s k d).pot = s.pot := rfl
@[simp] theorem setDray_keys (s : State) (k : Nat) (d : Dray) : (setDray s k d).keys = s.keys := rfl
@[simp] theorem setDray_worlds (s : State) (k : Nat) (d : Dray) : (setDray s k d).worlds = s.worlds := rfl
@[simp] theorem setDray_portil (s : State) (k : Nat) (d : Dray) : (setDray s k d).portil = s.portil := rfl
@[simp] theorem setDray_pf (s : State) (k : Nat) (d : Dray) : (setDray s k d).pf = s.pf := rfl
@[simp] theorem setDray_parts (s : State) (k : Nat) (d : Dray) : (setDray s k d).parts = s.parts := rfl
@[simp] theorem setDray_sysplate (s : State) (k : Nat) (d : Dray) : (setDray s k d).sysplate = s.sysplate := rfl
@[simp] theorem setDray_ctrs (s : State) (k : Nat) (d : Dray) : (setDray s k d).ctrs = s.ctrs := rfl
@[simp] theorem setDray_flowFails (s : State) (k : Nat) (d : Dray) : (setDray s k d).flowFails = s.flowFails := rfl
@[simp] theorem setDray_lastPlace (s : State) (k : Nat) (d : Dray) : (setDray s k d).lastPlace = s.lastPlace := rfl
@[simp] theorem setDray_poolHits (s : State) (k : Nat) (d : Dray) : (setDray s k d).poolHits = s.poolHits := rfl
@[simp] theorem setDray_poolIntervals (s : State) (k : Nat) (d : Dray) : (setDray s k d).poolIntervals = s.poolIntervals := rfl
@[simp] theorem setDray_clockMHz (s : State) (k : Nat) (d : Dray) : (setDray s k d).clockMHz = s.clockMHz := rfl
@[simp] theorem setDray_powerCap (s : State) (k : Nat) (d : Dray) : (setDray s k d).powerCap = s.powerCap := rfl
@[simp] theorem setDray_softErrors (s : State) (k : Nat) (d : Dray) : (setDray s k d).softErrors = s.softErrors := rfl
@[simp] theorem setDray_msix (s : State) (k : Nat) (d : Dray) : (setDray s k d).msix = s.msix := rfl
@[simp] theorem setDray_aer (s : State) (k : Nat) (d : Dray) : (setDray s k d).aer = s.aer := rfl
@[simp] theorem setDray_hostRead (s : State) (k : Nat) (d : Dray) : (setDray s k d).hostRead = s.hostRead := rfl
@[simp] theorem setDray_picked (s : State) (k : Nat) (d : Dray) : (setDray s k d).picked = s.picked := rfl
@[simp] theorem setDray_drayTurns (s : State) (k : Nat) (d : Dray) : (setDray s k d).drayTurns = s.drayTurns := rfl
@[simp] theorem setDray_hallTurn (s : State) (k : Nat) (d : Dray) : (setDray s k d).hallTurn = s.hallTurn := rfl
@[simp] theorem setDray_upsets (s : State) (k : Nat) (d : Dray) : (setDray s k d).upsets = s.upsets := rfl
@[simp] theorem setDray_ats (s : State) (k : Nat) (d : Dray) : (setDray s k d).ats = s.ats := rfl
@[simp] theorem setDray_peerRefused (s : State) (k : Nat) (d : Dray) : (setDray s k d).peerRefused = s.peerRefused := rfl
@[simp] theorem setDray_flowKey (s : State) (k : Nat) (d : Dray) : (setDray s k d).flowKey = s.flowKey := rfl
@[simp] theorem setDray_scrubbed (s : State) (k : Nat) (d : Dray) : (setDray s k d).scrubbed = s.scrubbed := rfl

@[simp] theorem setTile_sched (s : State) (k : Nat) (x : Tile) : (setTile s k x).sched = s.sched := rfl
@[simp] theorem setTile_cur (s : State) (k : Nat) (x : Tile) : (setTile s k x).cur = s.cur := rfl
@[simp] theorem setTile_turn (s : State) (k : Nat) (x : Tile) : (setTile s k x).turn = s.turn := rfl
@[simp] theorem setTile_dcur (s : State) (k : Nat) (x : Tile) : (setTile s k x).dcur = s.dcur := rfl
@[simp] theorem setTile_iss (s : State) (k : Nat) (x : Tile) : (setTile s k x).iss = s.iss := rfl
@[simp] theorem setTile_free (s : State) (k : Nat) (x : Tile) : (setTile s k x).free = s.free := rfl
@[simp] theorem setTile_time (s : State) (k : Nat) (x : Tile) : (setTile s k x).time = s.time := rfl
@[simp] theorem setTile_cycles (s : State) (k : Nat) (x : Tile) : (setTile s k x).cycles = s.cycles := rfl
@[simp] theorem setTile_mem (s : State) (k : Nat) (x : Tile) : (setTile s k x).mem = s.mem := rfl
@[simp] theorem setTile_poison (s : State) (k : Nat) (x : Tile) : (setTile s k x).poison = s.poison := rfl
@[simp] theorem setTile_l1 (s : State) (k : Nat) (x : Tile) : (setTile s k x).l1 = s.l1 := rfl
@[simp] theorem setTile_fusedClusters (s : State) (k : Nat) (x : Tile) : (setTile s k x).fusedClusters = s.fusedClusters := rfl
@[simp] theorem setTile_l2 (s : State) (k : Nat) (x : Tile) : (setTile s k x).l2 = s.l2 := rfl
@[simp] theorem setTile_victims (s : State) (k : Nat) (x : Tile) : (setTile s k x).victims = s.victims := rfl
@[simp] theorem setTile_tlbs (s : State) (k : Nat) (x : Tile) : (setTile s k x).tlbs = s.tlbs := rfl
@[simp] theorem setTile_imps (s : State) (k : Nat) (x : Tile) : (setTile s k x).imps = s.imps := rfl
@[simp] theorem setTile_rcache (s : State) (k : Nat) (x : Tile) : (setTile s k x).rcache = s.rcache := rfl
@[simp] theorem setTile_coaches (s : State) (k : Nat) (x : Tile) : (setTile s k x).coaches = s.coaches := rfl
@[simp] theorem setTile_rakes (s : State) (k : Nat) (x : Tile) : (setTile s k x).rakes = s.rakes := rfl
@[simp] theorem setTile_regions (s : State) (k : Nat) (x : Tile) : (setTile s k x).regions = s.regions := rfl
@[simp] theorem setTile_ctxs (s : State) (k : Nat) (x : Tile) : (setTile s k x).ctxs = s.ctxs := rfl
@[simp] theorem setTile_lastTile (s : State) (k : Nat) (x : Tile) : (setTile s k x).lastTile = s.lastTile := rfl
@[simp] theorem setTile_drays (s : State) (k : Nat) (x : Tile) : (setTile s k x).drays = s.drays := rfl
@[simp] theorem setTile_treebars (s : State) (k : Nat) (x : Tile) : (setTile s k x).treebars = s.treebars := rfl
@[simp] theorem setTile_faults (s : State) (k : Nat) (x : Tile) : (setTile s k x).faults = s.faults := rfl
@[simp] theorem setTile_nextFault (s : State) (k : Nat) (x : Tile) : (setTile s k x).nextFault = s.nextFault := rfl
@[simp] theorem setTile_resets (s : State) (k : Nat) (x : Tile) : (setTile s k x).resets = s.resets := rfl
@[simp] theorem setTile_pending (s : State) (k : Nat) (x : Tile) : (setTile s k x).pending = s.pending := rfl
@[simp] theorem setTile_sessions (s : State) (k : Nat) (x : Tile) : (setTile s k x).sessions = s.sessions := rfl
@[simp] theorem setTile_ports (s : State) (k : Nat) (x : Tile) : (setTile s k x).ports = s.ports := rfl
@[simp] theorem setTile_hallCount (s : State) (k : Nat) (x : Tile) : (setTile s k x).hallCount = s.hallCount := rfl
@[simp] theorem setTile_signing (s : State) (k : Nat) (x : Tile) : (setTile s k x).signing = s.signing := rfl
@[simp] theorem setTile_pot (s : State) (k : Nat) (x : Tile) : (setTile s k x).pot = s.pot := rfl
@[simp] theorem setTile_keys (s : State) (k : Nat) (x : Tile) : (setTile s k x).keys = s.keys := rfl
@[simp] theorem setTile_worlds (s : State) (k : Nat) (x : Tile) : (setTile s k x).worlds = s.worlds := rfl
@[simp] theorem setTile_portil (s : State) (k : Nat) (x : Tile) : (setTile s k x).portil = s.portil := rfl
@[simp] theorem setTile_pf (s : State) (k : Nat) (x : Tile) : (setTile s k x).pf = s.pf := rfl
@[simp] theorem setTile_parts (s : State) (k : Nat) (x : Tile) : (setTile s k x).parts = s.parts := rfl
@[simp] theorem setTile_sysplate (s : State) (k : Nat) (x : Tile) : (setTile s k x).sysplate = s.sysplate := rfl
@[simp] theorem setTile_ctrs (s : State) (k : Nat) (x : Tile) : (setTile s k x).ctrs = s.ctrs := rfl
@[simp] theorem setTile_flowFails (s : State) (k : Nat) (x : Tile) : (setTile s k x).flowFails = s.flowFails := rfl
@[simp] theorem setTile_lastPlace (s : State) (k : Nat) (x : Tile) : (setTile s k x).lastPlace = s.lastPlace := rfl
@[simp] theorem setTile_poolHits (s : State) (k : Nat) (x : Tile) : (setTile s k x).poolHits = s.poolHits := rfl
@[simp] theorem setTile_poolIntervals (s : State) (k : Nat) (x : Tile) : (setTile s k x).poolIntervals = s.poolIntervals := rfl
@[simp] theorem setTile_clockMHz (s : State) (k : Nat) (x : Tile) : (setTile s k x).clockMHz = s.clockMHz := rfl
@[simp] theorem setTile_powerCap (s : State) (k : Nat) (x : Tile) : (setTile s k x).powerCap = s.powerCap := rfl
@[simp] theorem setTile_softErrors (s : State) (k : Nat) (x : Tile) : (setTile s k x).softErrors = s.softErrors := rfl
@[simp] theorem setTile_msix (s : State) (k : Nat) (x : Tile) : (setTile s k x).msix = s.msix := rfl
@[simp] theorem setTile_aer (s : State) (k : Nat) (x : Tile) : (setTile s k x).aer = s.aer := rfl
@[simp] theorem setTile_hostRead (s : State) (k : Nat) (x : Tile) : (setTile s k x).hostRead = s.hostRead := rfl
@[simp] theorem setTile_picked (s : State) (k : Nat) (x : Tile) : (setTile s k x).picked = s.picked := rfl
@[simp] theorem setTile_drayTurns (s : State) (k : Nat) (x : Tile) : (setTile s k x).drayTurns = s.drayTurns := rfl
@[simp] theorem setTile_hallTurn (s : State) (k : Nat) (x : Tile) : (setTile s k x).hallTurn = s.hallTurn := rfl
@[simp] theorem setTile_upsets (s : State) (k : Nat) (x : Tile) : (setTile s k x).upsets = s.upsets := rfl
@[simp] theorem setTile_ats (s : State) (k : Nat) (x : Tile) : (setTile s k x).ats = s.ats := rfl
@[simp] theorem setTile_peerRefused (s : State) (k : Nat) (x : Tile) : (setTile s k x).peerRefused = s.peerRefused := rfl
@[simp] theorem setTile_flowKey (s : State) (k : Nat) (x : Tile) : (setTile s k x).flowKey = s.flowKey := rfl
@[simp] theorem setTile_scrubbed (s : State) (k : Nat) (x : Tile) : (setTile s k x).scrubbed = s.scrubbed := rfl

@[simp] theorem potSet_sched (s : State) (pa : Nat) (e : PotE) : (potSet s pa e).sched = s.sched := rfl
@[simp] theorem potSet_cur (s : State) (pa : Nat) (e : PotE) : (potSet s pa e).cur = s.cur := rfl
@[simp] theorem potSet_turn (s : State) (pa : Nat) (e : PotE) : (potSet s pa e).turn = s.turn := rfl
@[simp] theorem potSet_dcur (s : State) (pa : Nat) (e : PotE) : (potSet s pa e).dcur = s.dcur := rfl
@[simp] theorem potSet_iss (s : State) (pa : Nat) (e : PotE) : (potSet s pa e).iss = s.iss := rfl
@[simp] theorem potSet_free (s : State) (pa : Nat) (e : PotE) : (potSet s pa e).free = s.free := rfl
@[simp] theorem potSet_time (s : State) (pa : Nat) (e : PotE) : (potSet s pa e).time = s.time := rfl
@[simp] theorem potSet_cycles (s : State) (pa : Nat) (e : PotE) : (potSet s pa e).cycles = s.cycles := rfl
@[simp] theorem potSet_mem (s : State) (pa : Nat) (e : PotE) : (potSet s pa e).mem = s.mem := rfl
@[simp] theorem potSet_poison (s : State) (pa : Nat) (e : PotE) : (potSet s pa e).poison = s.poison := rfl
@[simp] theorem potSet_l1 (s : State) (pa : Nat) (e : PotE) : (potSet s pa e).l1 = s.l1 := rfl
@[simp] theorem potSet_fusedClusters (s : State) (pa : Nat) (e : PotE) : (potSet s pa e).fusedClusters = s.fusedClusters := rfl
@[simp] theorem potSet_l2 (s : State) (pa : Nat) (e : PotE) : (potSet s pa e).l2 = s.l2 := rfl
@[simp] theorem potSet_victims (s : State) (pa : Nat) (e : PotE) : (potSet s pa e).victims = s.victims := rfl
@[simp] theorem potSet_tlbs (s : State) (pa : Nat) (e : PotE) : (potSet s pa e).tlbs = s.tlbs := rfl
@[simp] theorem potSet_imps (s : State) (pa : Nat) (e : PotE) : (potSet s pa e).imps = s.imps := rfl
@[simp] theorem potSet_rcache (s : State) (pa : Nat) (e : PotE) : (potSet s pa e).rcache = s.rcache := rfl
@[simp] theorem potSet_coaches (s : State) (pa : Nat) (e : PotE) : (potSet s pa e).coaches = s.coaches := rfl
@[simp] theorem potSet_rakes (s : State) (pa : Nat) (e : PotE) : (potSet s pa e).rakes = s.rakes := rfl
@[simp] theorem potSet_regions (s : State) (pa : Nat) (e : PotE) : (potSet s pa e).regions = s.regions := rfl
@[simp] theorem potSet_ctxs (s : State) (pa : Nat) (e : PotE) : (potSet s pa e).ctxs = s.ctxs := rfl
@[simp] theorem potSet_tiles (s : State) (pa : Nat) (e : PotE) : (potSet s pa e).tiles = s.tiles := rfl
@[simp] theorem potSet_lastTile (s : State) (pa : Nat) (e : PotE) : (potSet s pa e).lastTile = s.lastTile := rfl
@[simp] theorem potSet_drays (s : State) (pa : Nat) (e : PotE) : (potSet s pa e).drays = s.drays := rfl
@[simp] theorem potSet_treebars (s : State) (pa : Nat) (e : PotE) : (potSet s pa e).treebars = s.treebars := rfl
@[simp] theorem potSet_faults (s : State) (pa : Nat) (e : PotE) : (potSet s pa e).faults = s.faults := rfl
@[simp] theorem potSet_nextFault (s : State) (pa : Nat) (e : PotE) : (potSet s pa e).nextFault = s.nextFault := rfl
@[simp] theorem potSet_resets (s : State) (pa : Nat) (e : PotE) : (potSet s pa e).resets = s.resets := rfl
@[simp] theorem potSet_pending (s : State) (pa : Nat) (e : PotE) : (potSet s pa e).pending = s.pending := rfl
@[simp] theorem potSet_sessions (s : State) (pa : Nat) (e : PotE) : (potSet s pa e).sessions = s.sessions := rfl
@[simp] theorem potSet_ports (s : State) (pa : Nat) (e : PotE) : (potSet s pa e).ports = s.ports := rfl
@[simp] theorem potSet_hallCount (s : State) (pa : Nat) (e : PotE) : (potSet s pa e).hallCount = s.hallCount := rfl
@[simp] theorem potSet_signing (s : State) (pa : Nat) (e : PotE) : (potSet s pa e).signing = s.signing := rfl
@[simp] theorem potSet_keys (s : State) (pa : Nat) (e : PotE) : (potSet s pa e).keys = s.keys := rfl
@[simp] theorem potSet_worlds (s : State) (pa : Nat) (e : PotE) : (potSet s pa e).worlds = s.worlds := rfl
@[simp] theorem potSet_portil (s : State) (pa : Nat) (e : PotE) : (potSet s pa e).portil = s.portil := rfl
@[simp] theorem potSet_pf (s : State) (pa : Nat) (e : PotE) : (potSet s pa e).pf = s.pf := rfl
@[simp] theorem potSet_parts (s : State) (pa : Nat) (e : PotE) : (potSet s pa e).parts = s.parts := rfl
@[simp] theorem potSet_sysplate (s : State) (pa : Nat) (e : PotE) : (potSet s pa e).sysplate = s.sysplate := rfl
@[simp] theorem potSet_ctrs (s : State) (pa : Nat) (e : PotE) : (potSet s pa e).ctrs = s.ctrs := rfl
@[simp] theorem potSet_flowFails (s : State) (pa : Nat) (e : PotE) : (potSet s pa e).flowFails = s.flowFails := rfl
@[simp] theorem potSet_lastPlace (s : State) (pa : Nat) (e : PotE) : (potSet s pa e).lastPlace = s.lastPlace := rfl
@[simp] theorem potSet_poolHits (s : State) (pa : Nat) (e : PotE) : (potSet s pa e).poolHits = s.poolHits := rfl
@[simp] theorem potSet_poolIntervals (s : State) (pa : Nat) (e : PotE) : (potSet s pa e).poolIntervals = s.poolIntervals := rfl
@[simp] theorem potSet_clockMHz (s : State) (pa : Nat) (e : PotE) : (potSet s pa e).clockMHz = s.clockMHz := rfl
@[simp] theorem potSet_powerCap (s : State) (pa : Nat) (e : PotE) : (potSet s pa e).powerCap = s.powerCap := rfl
@[simp] theorem potSet_softErrors (s : State) (pa : Nat) (e : PotE) : (potSet s pa e).softErrors = s.softErrors := rfl
@[simp] theorem potSet_msix (s : State) (pa : Nat) (e : PotE) : (potSet s pa e).msix = s.msix := rfl
@[simp] theorem potSet_aer (s : State) (pa : Nat) (e : PotE) : (potSet s pa e).aer = s.aer := rfl
@[simp] theorem potSet_hostRead (s : State) (pa : Nat) (e : PotE) : (potSet s pa e).hostRead = s.hostRead := rfl
@[simp] theorem potSet_picked (s : State) (pa : Nat) (e : PotE) : (potSet s pa e).picked = s.picked := rfl
@[simp] theorem potSet_drayTurns (s : State) (pa : Nat) (e : PotE) : (potSet s pa e).drayTurns = s.drayTurns := rfl
@[simp] theorem potSet_hallTurn (s : State) (pa : Nat) (e : PotE) : (potSet s pa e).hallTurn = s.hallTurn := rfl
@[simp] theorem potSet_upsets (s : State) (pa : Nat) (e : PotE) : (potSet s pa e).upsets = s.upsets := rfl
@[simp] theorem potSet_ats (s : State) (pa : Nat) (e : PotE) : (potSet s pa e).ats = s.ats := rfl
@[simp] theorem potSet_peerRefused (s : State) (pa : Nat) (e : PotE) : (potSet s pa e).peerRefused = s.peerRefused := rfl
@[simp] theorem potSet_flowKey (s : State) (pa : Nat) (e : PotE) : (potSet s pa e).flowKey = s.flowKey := rfl
@[simp] theorem potSet_scrubbed (s : State) (pa : Nat) (e : PotE) : (potSet s pa e).scrubbed = s.scrubbed := rfl

@[simp] theorem addCycles_sched (s : State) (u n : Nat) : (addCycles s u n).sched = s.sched := rfl
@[simp] theorem addCycles_cur (s : State) (u n : Nat) : (addCycles s u n).cur = s.cur := rfl
@[simp] theorem addCycles_turn (s : State) (u n : Nat) : (addCycles s u n).turn = s.turn := rfl
@[simp] theorem addCycles_dcur (s : State) (u n : Nat) : (addCycles s u n).dcur = s.dcur := rfl
@[simp] theorem addCycles_iss (s : State) (u n : Nat) : (addCycles s u n).iss = s.iss := rfl
@[simp] theorem addCycles_free (s : State) (u n : Nat) : (addCycles s u n).free = s.free := rfl
@[simp] theorem addCycles_time (s : State) (u n : Nat) : (addCycles s u n).time = s.time := rfl
@[simp] theorem addCycles_mem (s : State) (u n : Nat) : (addCycles s u n).mem = s.mem := rfl
@[simp] theorem addCycles_poison (s : State) (u n : Nat) : (addCycles s u n).poison = s.poison := rfl
@[simp] theorem addCycles_l1 (s : State) (u n : Nat) : (addCycles s u n).l1 = s.l1 := rfl
@[simp] theorem addCycles_fusedClusters (s : State) (u n : Nat) : (addCycles s u n).fusedClusters = s.fusedClusters := rfl
@[simp] theorem addCycles_l2 (s : State) (u n : Nat) : (addCycles s u n).l2 = s.l2 := rfl
@[simp] theorem addCycles_victims (s : State) (u n : Nat) : (addCycles s u n).victims = s.victims := rfl
@[simp] theorem addCycles_tlbs (s : State) (u n : Nat) : (addCycles s u n).tlbs = s.tlbs := rfl
@[simp] theorem addCycles_imps (s : State) (u n : Nat) : (addCycles s u n).imps = s.imps := rfl
@[simp] theorem addCycles_rcache (s : State) (u n : Nat) : (addCycles s u n).rcache = s.rcache := rfl
@[simp] theorem addCycles_coaches (s : State) (u n : Nat) : (addCycles s u n).coaches = s.coaches := rfl
@[simp] theorem addCycles_rakes (s : State) (u n : Nat) : (addCycles s u n).rakes = s.rakes := rfl
@[simp] theorem addCycles_regions (s : State) (u n : Nat) : (addCycles s u n).regions = s.regions := rfl
@[simp] theorem addCycles_ctxs (s : State) (u n : Nat) : (addCycles s u n).ctxs = s.ctxs := rfl
@[simp] theorem addCycles_tiles (s : State) (u n : Nat) : (addCycles s u n).tiles = s.tiles := rfl
@[simp] theorem addCycles_lastTile (s : State) (u n : Nat) : (addCycles s u n).lastTile = s.lastTile := rfl
@[simp] theorem addCycles_drays (s : State) (u n : Nat) : (addCycles s u n).drays = s.drays := rfl
@[simp] theorem addCycles_treebars (s : State) (u n : Nat) : (addCycles s u n).treebars = s.treebars := rfl
@[simp] theorem addCycles_faults (s : State) (u n : Nat) : (addCycles s u n).faults = s.faults := rfl
@[simp] theorem addCycles_nextFault (s : State) (u n : Nat) : (addCycles s u n).nextFault = s.nextFault := rfl
@[simp] theorem addCycles_resets (s : State) (u n : Nat) : (addCycles s u n).resets = s.resets := rfl
@[simp] theorem addCycles_pending (s : State) (u n : Nat) : (addCycles s u n).pending = s.pending := rfl
@[simp] theorem addCycles_sessions (s : State) (u n : Nat) : (addCycles s u n).sessions = s.sessions := rfl
@[simp] theorem addCycles_ports (s : State) (u n : Nat) : (addCycles s u n).ports = s.ports := rfl
@[simp] theorem addCycles_hallCount (s : State) (u n : Nat) : (addCycles s u n).hallCount = s.hallCount := rfl
@[simp] theorem addCycles_signing (s : State) (u n : Nat) : (addCycles s u n).signing = s.signing := rfl
@[simp] theorem addCycles_pot (s : State) (u n : Nat) : (addCycles s u n).pot = s.pot := rfl
@[simp] theorem addCycles_keys (s : State) (u n : Nat) : (addCycles s u n).keys = s.keys := rfl
@[simp] theorem addCycles_worlds (s : State) (u n : Nat) : (addCycles s u n).worlds = s.worlds := rfl
@[simp] theorem addCycles_portil (s : State) (u n : Nat) : (addCycles s u n).portil = s.portil := rfl
@[simp] theorem addCycles_pf (s : State) (u n : Nat) : (addCycles s u n).pf = s.pf := rfl
@[simp] theorem addCycles_parts (s : State) (u n : Nat) : (addCycles s u n).parts = s.parts := rfl
@[simp] theorem addCycles_sysplate (s : State) (u n : Nat) : (addCycles s u n).sysplate = s.sysplate := rfl
@[simp] theorem addCycles_ctrs (s : State) (u n : Nat) : (addCycles s u n).ctrs = s.ctrs := rfl
@[simp] theorem addCycles_flowFails (s : State) (u n : Nat) : (addCycles s u n).flowFails = s.flowFails := rfl
@[simp] theorem addCycles_lastPlace (s : State) (u n : Nat) : (addCycles s u n).lastPlace = s.lastPlace := rfl
@[simp] theorem addCycles_poolHits (s : State) (u n : Nat) : (addCycles s u n).poolHits = s.poolHits := rfl
@[simp] theorem addCycles_poolIntervals (s : State) (u n : Nat) : (addCycles s u n).poolIntervals = s.poolIntervals := rfl
@[simp] theorem addCycles_clockMHz (s : State) (u n : Nat) : (addCycles s u n).clockMHz = s.clockMHz := rfl
@[simp] theorem addCycles_powerCap (s : State) (u n : Nat) : (addCycles s u n).powerCap = s.powerCap := rfl
@[simp] theorem addCycles_softErrors (s : State) (u n : Nat) : (addCycles s u n).softErrors = s.softErrors := rfl
@[simp] theorem addCycles_msix (s : State) (u n : Nat) : (addCycles s u n).msix = s.msix := rfl
@[simp] theorem addCycles_aer (s : State) (u n : Nat) : (addCycles s u n).aer = s.aer := rfl
@[simp] theorem addCycles_hostRead (s : State) (u n : Nat) : (addCycles s u n).hostRead = s.hostRead := rfl
@[simp] theorem addCycles_picked (s : State) (u n : Nat) : (addCycles s u n).picked = s.picked := rfl
@[simp] theorem addCycles_drayTurns (s : State) (u n : Nat) : (addCycles s u n).drayTurns = s.drayTurns := rfl
@[simp] theorem addCycles_hallTurn (s : State) (u n : Nat) : (addCycles s u n).hallTurn = s.hallTurn := rfl
@[simp] theorem addCycles_upsets (s : State) (u n : Nat) : (addCycles s u n).upsets = s.upsets := rfl
@[simp] theorem addCycles_ats (s : State) (u n : Nat) : (addCycles s u n).ats = s.ats := rfl
@[simp] theorem addCycles_peerRefused (s : State) (u n : Nat) : (addCycles s u n).peerRefused = s.peerRefused := rfl
@[simp] theorem addCycles_flowKey (s : State) (u n : Nat) : (addCycles s u n).flowKey = s.flowKey := rfl
@[simp] theorem addCycles_scrubbed (s : State) (u n : Nat) : (addCycles s u n).scrubbed = s.scrubbed := rfl

@[simp] theorem physWrite_sched (s : State) (a : Nat) (bs : List Byte) : (physWrite s a bs).sched = s.sched := rfl
@[simp] theorem physWrite_cur (s : State) (a : Nat) (bs : List Byte) : (physWrite s a bs).cur = s.cur := rfl
@[simp] theorem physWrite_turn (s : State) (a : Nat) (bs : List Byte) : (physWrite s a bs).turn = s.turn := rfl
@[simp] theorem physWrite_dcur (s : State) (a : Nat) (bs : List Byte) : (physWrite s a bs).dcur = s.dcur := rfl
@[simp] theorem physWrite_iss (s : State) (a : Nat) (bs : List Byte) : (physWrite s a bs).iss = s.iss := rfl
@[simp] theorem physWrite_free (s : State) (a : Nat) (bs : List Byte) : (physWrite s a bs).free = s.free := rfl
@[simp] theorem physWrite_time (s : State) (a : Nat) (bs : List Byte) : (physWrite s a bs).time = s.time := rfl
@[simp] theorem physWrite_cycles (s : State) (a : Nat) (bs : List Byte) : (physWrite s a bs).cycles = s.cycles := rfl
@[simp] theorem physWrite_poison (s : State) (a : Nat) (bs : List Byte) : (physWrite s a bs).poison = s.poison := rfl
@[simp] theorem physWrite_l1 (s : State) (a : Nat) (bs : List Byte) : (physWrite s a bs).l1 = s.l1 := rfl
@[simp] theorem physWrite_fusedClusters (s : State) (a : Nat) (bs : List Byte) : (physWrite s a bs).fusedClusters = s.fusedClusters := rfl
@[simp] theorem physWrite_l2 (s : State) (a : Nat) (bs : List Byte) : (physWrite s a bs).l2 = s.l2 := rfl
@[simp] theorem physWrite_victims (s : State) (a : Nat) (bs : List Byte) : (physWrite s a bs).victims = s.victims := rfl
@[simp] theorem physWrite_tlbs (s : State) (a : Nat) (bs : List Byte) : (physWrite s a bs).tlbs = s.tlbs := rfl
@[simp] theorem physWrite_imps (s : State) (a : Nat) (bs : List Byte) : (physWrite s a bs).imps = s.imps := rfl
@[simp] theorem physWrite_rcache (s : State) (a : Nat) (bs : List Byte) : (physWrite s a bs).rcache = s.rcache := rfl
@[simp] theorem physWrite_coaches (s : State) (a : Nat) (bs : List Byte) : (physWrite s a bs).coaches = s.coaches := rfl
@[simp] theorem physWrite_rakes (s : State) (a : Nat) (bs : List Byte) : (physWrite s a bs).rakes = s.rakes := rfl
@[simp] theorem physWrite_regions (s : State) (a : Nat) (bs : List Byte) : (physWrite s a bs).regions = s.regions := rfl
@[simp] theorem physWrite_ctxs (s : State) (a : Nat) (bs : List Byte) : (physWrite s a bs).ctxs = s.ctxs := rfl
@[simp] theorem physWrite_tiles (s : State) (a : Nat) (bs : List Byte) : (physWrite s a bs).tiles = s.tiles := rfl
@[simp] theorem physWrite_lastTile (s : State) (a : Nat) (bs : List Byte) : (physWrite s a bs).lastTile = s.lastTile := rfl
@[simp] theorem physWrite_drays (s : State) (a : Nat) (bs : List Byte) : (physWrite s a bs).drays = s.drays := rfl
@[simp] theorem physWrite_treebars (s : State) (a : Nat) (bs : List Byte) : (physWrite s a bs).treebars = s.treebars := rfl
@[simp] theorem physWrite_faults (s : State) (a : Nat) (bs : List Byte) : (physWrite s a bs).faults = s.faults := rfl
@[simp] theorem physWrite_nextFault (s : State) (a : Nat) (bs : List Byte) : (physWrite s a bs).nextFault = s.nextFault := rfl
@[simp] theorem physWrite_resets (s : State) (a : Nat) (bs : List Byte) : (physWrite s a bs).resets = s.resets := rfl
@[simp] theorem physWrite_pending (s : State) (a : Nat) (bs : List Byte) : (physWrite s a bs).pending = s.pending := rfl
@[simp] theorem physWrite_sessions (s : State) (a : Nat) (bs : List Byte) : (physWrite s a bs).sessions = s.sessions := rfl
@[simp] theorem physWrite_ports (s : State) (a : Nat) (bs : List Byte) : (physWrite s a bs).ports = s.ports := rfl
@[simp] theorem physWrite_hallCount (s : State) (a : Nat) (bs : List Byte) : (physWrite s a bs).hallCount = s.hallCount := rfl
@[simp] theorem physWrite_signing (s : State) (a : Nat) (bs : List Byte) : (physWrite s a bs).signing = s.signing := rfl
@[simp] theorem physWrite_pot (s : State) (a : Nat) (bs : List Byte) : (physWrite s a bs).pot = s.pot := rfl
@[simp] theorem physWrite_keys (s : State) (a : Nat) (bs : List Byte) : (physWrite s a bs).keys = s.keys := rfl
@[simp] theorem physWrite_worlds (s : State) (a : Nat) (bs : List Byte) : (physWrite s a bs).worlds = s.worlds := rfl
@[simp] theorem physWrite_portil (s : State) (a : Nat) (bs : List Byte) : (physWrite s a bs).portil = s.portil := rfl
@[simp] theorem physWrite_pf (s : State) (a : Nat) (bs : List Byte) : (physWrite s a bs).pf = s.pf := rfl
@[simp] theorem physWrite_parts (s : State) (a : Nat) (bs : List Byte) : (physWrite s a bs).parts = s.parts := rfl
@[simp] theorem physWrite_sysplate (s : State) (a : Nat) (bs : List Byte) : (physWrite s a bs).sysplate = s.sysplate := rfl
@[simp] theorem physWrite_ctrs (s : State) (a : Nat) (bs : List Byte) : (physWrite s a bs).ctrs = s.ctrs := rfl
@[simp] theorem physWrite_flowFails (s : State) (a : Nat) (bs : List Byte) : (physWrite s a bs).flowFails = s.flowFails := rfl
@[simp] theorem physWrite_lastPlace (s : State) (a : Nat) (bs : List Byte) : (physWrite s a bs).lastPlace = s.lastPlace := rfl
@[simp] theorem physWrite_poolHits (s : State) (a : Nat) (bs : List Byte) : (physWrite s a bs).poolHits = s.poolHits := rfl
@[simp] theorem physWrite_poolIntervals (s : State) (a : Nat) (bs : List Byte) : (physWrite s a bs).poolIntervals = s.poolIntervals := rfl
@[simp] theorem physWrite_clockMHz (s : State) (a : Nat) (bs : List Byte) : (physWrite s a bs).clockMHz = s.clockMHz := rfl
@[simp] theorem physWrite_powerCap (s : State) (a : Nat) (bs : List Byte) : (physWrite s a bs).powerCap = s.powerCap := rfl
@[simp] theorem physWrite_softErrors (s : State) (a : Nat) (bs : List Byte) : (physWrite s a bs).softErrors = s.softErrors := rfl
@[simp] theorem physWrite_msix (s : State) (a : Nat) (bs : List Byte) : (physWrite s a bs).msix = s.msix := rfl
@[simp] theorem physWrite_aer (s : State) (a : Nat) (bs : List Byte) : (physWrite s a bs).aer = s.aer := rfl
@[simp] theorem physWrite_hostRead (s : State) (a : Nat) (bs : List Byte) : (physWrite s a bs).hostRead = s.hostRead := rfl
@[simp] theorem physWrite_picked (s : State) (a : Nat) (bs : List Byte) : (physWrite s a bs).picked = s.picked := rfl
@[simp] theorem physWrite_drayTurns (s : State) (a : Nat) (bs : List Byte) : (physWrite s a bs).drayTurns = s.drayTurns := rfl
@[simp] theorem physWrite_hallTurn (s : State) (a : Nat) (bs : List Byte) : (physWrite s a bs).hallTurn = s.hallTurn := rfl
@[simp] theorem physWrite_upsets (s : State) (a : Nat) (bs : List Byte) : (physWrite s a bs).upsets = s.upsets := rfl
@[simp] theorem physWrite_ats (s : State) (a : Nat) (bs : List Byte) : (physWrite s a bs).ats = s.ats := rfl
@[simp] theorem physWrite_peerRefused (s : State) (a : Nat) (bs : List Byte) : (physWrite s a bs).peerRefused = s.peerRefused := rfl
@[simp] theorem physWrite_flowKey (s : State) (a : Nat) (bs : List Byte) : (physWrite s a bs).flowKey = s.flowKey := rfl
@[simp] theorem physWrite_scrubbed (s : State) (a : Nat) (bs : List Byte) : (physWrite s a bs).scrubbed = s.scrubbed := rfl

@[simp] theorem clearPoison_sched (s : State) (line : Nat) : (clearPoison s line).sched = s.sched := rfl
@[simp] theorem clearPoison_cur (s : State) (line : Nat) : (clearPoison s line).cur = s.cur := rfl
@[simp] theorem clearPoison_turn (s : State) (line : Nat) : (clearPoison s line).turn = s.turn := rfl
@[simp] theorem clearPoison_dcur (s : State) (line : Nat) : (clearPoison s line).dcur = s.dcur := rfl
@[simp] theorem clearPoison_iss (s : State) (line : Nat) : (clearPoison s line).iss = s.iss := rfl
@[simp] theorem clearPoison_free (s : State) (line : Nat) : (clearPoison s line).free = s.free := rfl
@[simp] theorem clearPoison_time (s : State) (line : Nat) : (clearPoison s line).time = s.time := rfl
@[simp] theorem clearPoison_cycles (s : State) (line : Nat) : (clearPoison s line).cycles = s.cycles := rfl
@[simp] theorem clearPoison_mem (s : State) (line : Nat) : (clearPoison s line).mem = s.mem := rfl
@[simp] theorem clearPoison_l1 (s : State) (line : Nat) : (clearPoison s line).l1 = s.l1 := rfl
@[simp] theorem clearPoison_fusedClusters (s : State) (line : Nat) : (clearPoison s line).fusedClusters = s.fusedClusters := rfl
@[simp] theorem clearPoison_l2 (s : State) (line : Nat) : (clearPoison s line).l2 = s.l2 := rfl
@[simp] theorem clearPoison_victims (s : State) (line : Nat) : (clearPoison s line).victims = s.victims := rfl
@[simp] theorem clearPoison_tlbs (s : State) (line : Nat) : (clearPoison s line).tlbs = s.tlbs := rfl
@[simp] theorem clearPoison_imps (s : State) (line : Nat) : (clearPoison s line).imps = s.imps := rfl
@[simp] theorem clearPoison_rcache (s : State) (line : Nat) : (clearPoison s line).rcache = s.rcache := rfl
@[simp] theorem clearPoison_coaches (s : State) (line : Nat) : (clearPoison s line).coaches = s.coaches := rfl
@[simp] theorem clearPoison_rakes (s : State) (line : Nat) : (clearPoison s line).rakes = s.rakes := rfl
@[simp] theorem clearPoison_regions (s : State) (line : Nat) : (clearPoison s line).regions = s.regions := rfl
@[simp] theorem clearPoison_ctxs (s : State) (line : Nat) : (clearPoison s line).ctxs = s.ctxs := rfl
@[simp] theorem clearPoison_tiles (s : State) (line : Nat) : (clearPoison s line).tiles = s.tiles := rfl
@[simp] theorem clearPoison_lastTile (s : State) (line : Nat) : (clearPoison s line).lastTile = s.lastTile := rfl
@[simp] theorem clearPoison_drays (s : State) (line : Nat) : (clearPoison s line).drays = s.drays := rfl
@[simp] theorem clearPoison_treebars (s : State) (line : Nat) : (clearPoison s line).treebars = s.treebars := rfl
@[simp] theorem clearPoison_faults (s : State) (line : Nat) : (clearPoison s line).faults = s.faults := rfl
@[simp] theorem clearPoison_nextFault (s : State) (line : Nat) : (clearPoison s line).nextFault = s.nextFault := rfl
@[simp] theorem clearPoison_resets (s : State) (line : Nat) : (clearPoison s line).resets = s.resets := rfl
@[simp] theorem clearPoison_pending (s : State) (line : Nat) : (clearPoison s line).pending = s.pending := rfl
@[simp] theorem clearPoison_sessions (s : State) (line : Nat) : (clearPoison s line).sessions = s.sessions := rfl
@[simp] theorem clearPoison_ports (s : State) (line : Nat) : (clearPoison s line).ports = s.ports := rfl
@[simp] theorem clearPoison_hallCount (s : State) (line : Nat) : (clearPoison s line).hallCount = s.hallCount := rfl
@[simp] theorem clearPoison_signing (s : State) (line : Nat) : (clearPoison s line).signing = s.signing := rfl
@[simp] theorem clearPoison_pot (s : State) (line : Nat) : (clearPoison s line).pot = s.pot := rfl
@[simp] theorem clearPoison_keys (s : State) (line : Nat) : (clearPoison s line).keys = s.keys := rfl
@[simp] theorem clearPoison_worlds (s : State) (line : Nat) : (clearPoison s line).worlds = s.worlds := rfl
@[simp] theorem clearPoison_portil (s : State) (line : Nat) : (clearPoison s line).portil = s.portil := rfl
@[simp] theorem clearPoison_pf (s : State) (line : Nat) : (clearPoison s line).pf = s.pf := rfl
@[simp] theorem clearPoison_parts (s : State) (line : Nat) : (clearPoison s line).parts = s.parts := rfl
@[simp] theorem clearPoison_sysplate (s : State) (line : Nat) : (clearPoison s line).sysplate = s.sysplate := rfl
@[simp] theorem clearPoison_ctrs (s : State) (line : Nat) : (clearPoison s line).ctrs = s.ctrs := rfl
@[simp] theorem clearPoison_flowFails (s : State) (line : Nat) : (clearPoison s line).flowFails = s.flowFails := rfl
@[simp] theorem clearPoison_lastPlace (s : State) (line : Nat) : (clearPoison s line).lastPlace = s.lastPlace := rfl
@[simp] theorem clearPoison_poolHits (s : State) (line : Nat) : (clearPoison s line).poolHits = s.poolHits := rfl
@[simp] theorem clearPoison_poolIntervals (s : State) (line : Nat) : (clearPoison s line).poolIntervals = s.poolIntervals := rfl
@[simp] theorem clearPoison_clockMHz (s : State) (line : Nat) : (clearPoison s line).clockMHz = s.clockMHz := rfl
@[simp] theorem clearPoison_powerCap (s : State) (line : Nat) : (clearPoison s line).powerCap = s.powerCap := rfl
@[simp] theorem clearPoison_msix (s : State) (line : Nat) : (clearPoison s line).msix = s.msix := rfl
@[simp] theorem clearPoison_aer (s : State) (line : Nat) : (clearPoison s line).aer = s.aer := rfl
@[simp] theorem clearPoison_hostRead (s : State) (line : Nat) : (clearPoison s line).hostRead = s.hostRead := rfl
@[simp] theorem clearPoison_picked (s : State) (line : Nat) : (clearPoison s line).picked = s.picked := rfl
@[simp] theorem clearPoison_drayTurns (s : State) (line : Nat) : (clearPoison s line).drayTurns = s.drayTurns := rfl
@[simp] theorem clearPoison_hallTurn (s : State) (line : Nat) : (clearPoison s line).hallTurn = s.hallTurn := rfl
@[simp] theorem clearPoison_upsets (s : State) (line : Nat) : (clearPoison s line).upsets = s.upsets := rfl
@[simp] theorem clearPoison_ats (s : State) (line : Nat) : (clearPoison s line).ats = s.ats := rfl
@[simp] theorem clearPoison_peerRefused (s : State) (line : Nat) : (clearPoison s line).peerRefused = s.peerRefused := rfl
@[simp] theorem clearPoison_flowKey (s : State) (line : Nat) : (clearPoison s line).flowKey = s.flowKey := rfl
@[simp] theorem clearPoison_scrubbed (s : State) (line : Nat) : (clearPoison s line).scrubbed = s.scrubbed := rfl

@[simp] theorem addPend_sched (s : State) (f : Nat) (p : Pend) : (addPend s f p).sched = s.sched := rfl
@[simp] theorem addPend_cur (s : State) (f : Nat) (p : Pend) : (addPend s f p).cur = s.cur := rfl
@[simp] theorem addPend_turn (s : State) (f : Nat) (p : Pend) : (addPend s f p).turn = s.turn := rfl
@[simp] theorem addPend_dcur (s : State) (f : Nat) (p : Pend) : (addPend s f p).dcur = s.dcur := rfl
@[simp] theorem addPend_iss (s : State) (f : Nat) (p : Pend) : (addPend s f p).iss = s.iss := rfl
@[simp] theorem addPend_free (s : State) (f : Nat) (p : Pend) : (addPend s f p).free = s.free := rfl
@[simp] theorem addPend_time (s : State) (f : Nat) (p : Pend) : (addPend s f p).time = s.time := rfl
@[simp] theorem addPend_cycles (s : State) (f : Nat) (p : Pend) : (addPend s f p).cycles = s.cycles := rfl
@[simp] theorem addPend_mem (s : State) (f : Nat) (p : Pend) : (addPend s f p).mem = s.mem := rfl
@[simp] theorem addPend_poison (s : State) (f : Nat) (p : Pend) : (addPend s f p).poison = s.poison := rfl
@[simp] theorem addPend_l1 (s : State) (f : Nat) (p : Pend) : (addPend s f p).l1 = s.l1 := rfl
@[simp] theorem addPend_fusedClusters (s : State) (f : Nat) (p : Pend) : (addPend s f p).fusedClusters = s.fusedClusters := rfl
@[simp] theorem addPend_l2 (s : State) (f : Nat) (p : Pend) : (addPend s f p).l2 = s.l2 := rfl
@[simp] theorem addPend_victims (s : State) (f : Nat) (p : Pend) : (addPend s f p).victims = s.victims := rfl
@[simp] theorem addPend_tlbs (s : State) (f : Nat) (p : Pend) : (addPend s f p).tlbs = s.tlbs := rfl
@[simp] theorem addPend_imps (s : State) (f : Nat) (p : Pend) : (addPend s f p).imps = s.imps := rfl
@[simp] theorem addPend_rcache (s : State) (f : Nat) (p : Pend) : (addPend s f p).rcache = s.rcache := rfl
@[simp] theorem addPend_coaches (s : State) (f : Nat) (p : Pend) : (addPend s f p).coaches = s.coaches := rfl
@[simp] theorem addPend_rakes (s : State) (f : Nat) (p : Pend) : (addPend s f p).rakes = s.rakes := rfl
@[simp] theorem addPend_regions (s : State) (f : Nat) (p : Pend) : (addPend s f p).regions = s.regions := rfl
@[simp] theorem addPend_ctxs (s : State) (f : Nat) (p : Pend) : (addPend s f p).ctxs = s.ctxs := rfl
@[simp] theorem addPend_tiles (s : State) (f : Nat) (p : Pend) : (addPend s f p).tiles = s.tiles := rfl
@[simp] theorem addPend_lastTile (s : State) (f : Nat) (p : Pend) : (addPend s f p).lastTile = s.lastTile := rfl
@[simp] theorem addPend_drays (s : State) (f : Nat) (p : Pend) : (addPend s f p).drays = s.drays := rfl
@[simp] theorem addPend_treebars (s : State) (f : Nat) (p : Pend) : (addPend s f p).treebars = s.treebars := rfl
@[simp] theorem addPend_faults (s : State) (f : Nat) (p : Pend) : (addPend s f p).faults = s.faults := rfl
@[simp] theorem addPend_nextFault (s : State) (f : Nat) (p : Pend) : (addPend s f p).nextFault = s.nextFault := rfl
@[simp] theorem addPend_resets (s : State) (f : Nat) (p : Pend) : (addPend s f p).resets = s.resets := rfl
@[simp] theorem addPend_sessions (s : State) (f : Nat) (p : Pend) : (addPend s f p).sessions = s.sessions := rfl
@[simp] theorem addPend_ports (s : State) (f : Nat) (p : Pend) : (addPend s f p).ports = s.ports := rfl
@[simp] theorem addPend_hallCount (s : State) (f : Nat) (p : Pend) : (addPend s f p).hallCount = s.hallCount := rfl
@[simp] theorem addPend_signing (s : State) (f : Nat) (p : Pend) : (addPend s f p).signing = s.signing := rfl
@[simp] theorem addPend_pot (s : State) (f : Nat) (p : Pend) : (addPend s f p).pot = s.pot := rfl
@[simp] theorem addPend_keys (s : State) (f : Nat) (p : Pend) : (addPend s f p).keys = s.keys := rfl
@[simp] theorem addPend_worlds (s : State) (f : Nat) (p : Pend) : (addPend s f p).worlds = s.worlds := rfl
@[simp] theorem addPend_portil (s : State) (f : Nat) (p : Pend) : (addPend s f p).portil = s.portil := rfl
@[simp] theorem addPend_pf (s : State) (f : Nat) (p : Pend) : (addPend s f p).pf = s.pf := rfl
@[simp] theorem addPend_parts (s : State) (f : Nat) (p : Pend) : (addPend s f p).parts = s.parts := rfl
@[simp] theorem addPend_sysplate (s : State) (f : Nat) (p : Pend) : (addPend s f p).sysplate = s.sysplate := rfl
@[simp] theorem addPend_ctrs (s : State) (f : Nat) (p : Pend) : (addPend s f p).ctrs = s.ctrs := rfl
@[simp] theorem addPend_flowFails (s : State) (f : Nat) (p : Pend) : (addPend s f p).flowFails = s.flowFails := rfl
@[simp] theorem addPend_lastPlace (s : State) (f : Nat) (p : Pend) : (addPend s f p).lastPlace = s.lastPlace := rfl
@[simp] theorem addPend_poolHits (s : State) (f : Nat) (p : Pend) : (addPend s f p).poolHits = s.poolHits := rfl
@[simp] theorem addPend_poolIntervals (s : State) (f : Nat) (p : Pend) : (addPend s f p).poolIntervals = s.poolIntervals := rfl
@[simp] theorem addPend_clockMHz (s : State) (f : Nat) (p : Pend) : (addPend s f p).clockMHz = s.clockMHz := rfl
@[simp] theorem addPend_powerCap (s : State) (f : Nat) (p : Pend) : (addPend s f p).powerCap = s.powerCap := rfl
@[simp] theorem addPend_softErrors (s : State) (f : Nat) (p : Pend) : (addPend s f p).softErrors = s.softErrors := rfl
@[simp] theorem addPend_msix (s : State) (f : Nat) (p : Pend) : (addPend s f p).msix = s.msix := rfl
@[simp] theorem addPend_aer (s : State) (f : Nat) (p : Pend) : (addPend s f p).aer = s.aer := rfl
@[simp] theorem addPend_hostRead (s : State) (f : Nat) (p : Pend) : (addPend s f p).hostRead = s.hostRead := rfl
@[simp] theorem addPend_picked (s : State) (f : Nat) (p : Pend) : (addPend s f p).picked = s.picked := rfl
@[simp] theorem addPend_drayTurns (s : State) (f : Nat) (p : Pend) : (addPend s f p).drayTurns = s.drayTurns := rfl
@[simp] theorem addPend_hallTurn (s : State) (f : Nat) (p : Pend) : (addPend s f p).hallTurn = s.hallTurn := rfl
@[simp] theorem addPend_upsets (s : State) (f : Nat) (p : Pend) : (addPend s f p).upsets = s.upsets := rfl
@[simp] theorem addPend_ats (s : State) (f : Nat) (p : Pend) : (addPend s f p).ats = s.ats := rfl
@[simp] theorem addPend_peerRefused (s : State) (f : Nat) (p : Pend) : (addPend s f p).peerRefused = s.peerRefused := rfl
@[simp] theorem addPend_flowKey (s : State) (f : Nat) (p : Pend) : (addPend s f p).flowKey = s.flowKey := rfl
@[simp] theorem addPend_scrubbed (s : State) (f : Nat) (p : Pend) : (addPend s f p).scrubbed = s.scrubbed := rfl

@[simp] theorem closeEntry_sched (s : State) (f : Nat) : (closeEntry s f).sched = s.sched := rfl
@[simp] theorem closeEntry_cur (s : State) (f : Nat) : (closeEntry s f).cur = s.cur := rfl
@[simp] theorem closeEntry_turn (s : State) (f : Nat) : (closeEntry s f).turn = s.turn := rfl
@[simp] theorem closeEntry_dcur (s : State) (f : Nat) : (closeEntry s f).dcur = s.dcur := rfl
@[simp] theorem closeEntry_iss (s : State) (f : Nat) : (closeEntry s f).iss = s.iss := rfl
@[simp] theorem closeEntry_free (s : State) (f : Nat) : (closeEntry s f).free = s.free := rfl
@[simp] theorem closeEntry_time (s : State) (f : Nat) : (closeEntry s f).time = s.time := rfl
@[simp] theorem closeEntry_cycles (s : State) (f : Nat) : (closeEntry s f).cycles = s.cycles := rfl
@[simp] theorem closeEntry_mem (s : State) (f : Nat) : (closeEntry s f).mem = s.mem := rfl
@[simp] theorem closeEntry_poison (s : State) (f : Nat) : (closeEntry s f).poison = s.poison := rfl
@[simp] theorem closeEntry_l1 (s : State) (f : Nat) : (closeEntry s f).l1 = s.l1 := rfl
@[simp] theorem closeEntry_fusedClusters (s : State) (f : Nat) : (closeEntry s f).fusedClusters = s.fusedClusters := rfl
@[simp] theorem closeEntry_l2 (s : State) (f : Nat) : (closeEntry s f).l2 = s.l2 := rfl
@[simp] theorem closeEntry_victims (s : State) (f : Nat) : (closeEntry s f).victims = s.victims := rfl
@[simp] theorem closeEntry_tlbs (s : State) (f : Nat) : (closeEntry s f).tlbs = s.tlbs := rfl
@[simp] theorem closeEntry_imps (s : State) (f : Nat) : (closeEntry s f).imps = s.imps := rfl
@[simp] theorem closeEntry_rcache (s : State) (f : Nat) : (closeEntry s f).rcache = s.rcache := rfl
@[simp] theorem closeEntry_coaches (s : State) (f : Nat) : (closeEntry s f).coaches = s.coaches := rfl
@[simp] theorem closeEntry_rakes (s : State) (f : Nat) : (closeEntry s f).rakes = s.rakes := rfl
@[simp] theorem closeEntry_regions (s : State) (f : Nat) : (closeEntry s f).regions = s.regions := rfl
@[simp] theorem closeEntry_ctxs (s : State) (f : Nat) : (closeEntry s f).ctxs = s.ctxs := rfl
@[simp] theorem closeEntry_tiles (s : State) (f : Nat) : (closeEntry s f).tiles = s.tiles := rfl
@[simp] theorem closeEntry_lastTile (s : State) (f : Nat) : (closeEntry s f).lastTile = s.lastTile := rfl
@[simp] theorem closeEntry_drays (s : State) (f : Nat) : (closeEntry s f).drays = s.drays := rfl
@[simp] theorem closeEntry_treebars (s : State) (f : Nat) : (closeEntry s f).treebars = s.treebars := rfl
@[simp] theorem closeEntry_nextFault (s : State) (f : Nat) : (closeEntry s f).nextFault = s.nextFault := rfl
@[simp] theorem closeEntry_resets (s : State) (f : Nat) : (closeEntry s f).resets = s.resets := rfl
@[simp] theorem closeEntry_pending (s : State) (f : Nat) : (closeEntry s f).pending = s.pending := rfl
@[simp] theorem closeEntry_sessions (s : State) (f : Nat) : (closeEntry s f).sessions = s.sessions := rfl
@[simp] theorem closeEntry_ports (s : State) (f : Nat) : (closeEntry s f).ports = s.ports := rfl
@[simp] theorem closeEntry_hallCount (s : State) (f : Nat) : (closeEntry s f).hallCount = s.hallCount := rfl
@[simp] theorem closeEntry_signing (s : State) (f : Nat) : (closeEntry s f).signing = s.signing := rfl
@[simp] theorem closeEntry_pot (s : State) (f : Nat) : (closeEntry s f).pot = s.pot := rfl
@[simp] theorem closeEntry_keys (s : State) (f : Nat) : (closeEntry s f).keys = s.keys := rfl
@[simp] theorem closeEntry_worlds (s : State) (f : Nat) : (closeEntry s f).worlds = s.worlds := rfl
@[simp] theorem closeEntry_portil (s : State) (f : Nat) : (closeEntry s f).portil = s.portil := rfl
@[simp] theorem closeEntry_pf (s : State) (f : Nat) : (closeEntry s f).pf = s.pf := rfl
@[simp] theorem closeEntry_parts (s : State) (f : Nat) : (closeEntry s f).parts = s.parts := rfl
@[simp] theorem closeEntry_sysplate (s : State) (f : Nat) : (closeEntry s f).sysplate = s.sysplate := rfl
@[simp] theorem closeEntry_ctrs (s : State) (f : Nat) : (closeEntry s f).ctrs = s.ctrs := rfl
@[simp] theorem closeEntry_flowFails (s : State) (f : Nat) : (closeEntry s f).flowFails = s.flowFails := rfl
@[simp] theorem closeEntry_lastPlace (s : State) (f : Nat) : (closeEntry s f).lastPlace = s.lastPlace := rfl
@[simp] theorem closeEntry_poolHits (s : State) (f : Nat) : (closeEntry s f).poolHits = s.poolHits := rfl
@[simp] theorem closeEntry_poolIntervals (s : State) (f : Nat) : (closeEntry s f).poolIntervals = s.poolIntervals := rfl
@[simp] theorem closeEntry_clockMHz (s : State) (f : Nat) : (closeEntry s f).clockMHz = s.clockMHz := rfl
@[simp] theorem closeEntry_powerCap (s : State) (f : Nat) : (closeEntry s f).powerCap = s.powerCap := rfl
@[simp] theorem closeEntry_softErrors (s : State) (f : Nat) : (closeEntry s f).softErrors = s.softErrors := rfl
@[simp] theorem closeEntry_msix (s : State) (f : Nat) : (closeEntry s f).msix = s.msix := rfl
@[simp] theorem closeEntry_aer (s : State) (f : Nat) : (closeEntry s f).aer = s.aer := rfl
@[simp] theorem closeEntry_hostRead (s : State) (f : Nat) : (closeEntry s f).hostRead = s.hostRead := rfl
@[simp] theorem closeEntry_picked (s : State) (f : Nat) : (closeEntry s f).picked = s.picked := rfl
@[simp] theorem closeEntry_drayTurns (s : State) (f : Nat) : (closeEntry s f).drayTurns = s.drayTurns := rfl
@[simp] theorem closeEntry_hallTurn (s : State) (f : Nat) : (closeEntry s f).hallTurn = s.hallTurn := rfl
@[simp] theorem closeEntry_upsets (s : State) (f : Nat) : (closeEntry s f).upsets = s.upsets := rfl
@[simp] theorem closeEntry_ats (s : State) (f : Nat) : (closeEntry s f).ats = s.ats := rfl
@[simp] theorem closeEntry_peerRefused (s : State) (f : Nat) : (closeEntry s f).peerRefused = s.peerRefused := rfl
@[simp] theorem closeEntry_flowKey (s : State) (f : Nat) : (closeEntry s f).flowKey = s.flowKey := rfl
@[simp] theorem closeEntry_scrubbed (s : State) (f : Nat) : (closeEntry s f).scrubbed = s.scrubbed := rfl

@[simp] theorem forgetSession_sched (s : State) (k : Nat) : (forgetSession s k).sched = s.sched := rfl
@[simp] theorem forgetSession_cur (s : State) (k : Nat) : (forgetSession s k).cur = s.cur := rfl
@[simp] theorem forgetSession_turn (s : State) (k : Nat) : (forgetSession s k).turn = s.turn := rfl
@[simp] theorem forgetSession_dcur (s : State) (k : Nat) : (forgetSession s k).dcur = s.dcur := rfl
@[simp] theorem forgetSession_iss (s : State) (k : Nat) : (forgetSession s k).iss = s.iss := rfl
@[simp] theorem forgetSession_free (s : State) (k : Nat) : (forgetSession s k).free = s.free := rfl
@[simp] theorem forgetSession_time (s : State) (k : Nat) : (forgetSession s k).time = s.time := rfl
@[simp] theorem forgetSession_cycles (s : State) (k : Nat) : (forgetSession s k).cycles = s.cycles := rfl
@[simp] theorem forgetSession_mem (s : State) (k : Nat) : (forgetSession s k).mem = s.mem := rfl
@[simp] theorem forgetSession_poison (s : State) (k : Nat) : (forgetSession s k).poison = s.poison := rfl
@[simp] theorem forgetSession_l1 (s : State) (k : Nat) : (forgetSession s k).l1 = s.l1 := rfl
@[simp] theorem forgetSession_fusedClusters (s : State) (k : Nat) : (forgetSession s k).fusedClusters = s.fusedClusters := rfl
@[simp] theorem forgetSession_l2 (s : State) (k : Nat) : (forgetSession s k).l2 = s.l2 := rfl
@[simp] theorem forgetSession_victims (s : State) (k : Nat) : (forgetSession s k).victims = s.victims := rfl
@[simp] theorem forgetSession_tlbs (s : State) (k : Nat) : (forgetSession s k).tlbs = s.tlbs := rfl
@[simp] theorem forgetSession_imps (s : State) (k : Nat) : (forgetSession s k).imps = s.imps := rfl
@[simp] theorem forgetSession_rcache (s : State) (k : Nat) : (forgetSession s k).rcache = s.rcache := rfl
@[simp] theorem forgetSession_coaches (s : State) (k : Nat) : (forgetSession s k).coaches = s.coaches := rfl
@[simp] theorem forgetSession_rakes (s : State) (k : Nat) : (forgetSession s k).rakes = s.rakes := rfl
@[simp] theorem forgetSession_regions (s : State) (k : Nat) : (forgetSession s k).regions = s.regions := rfl
@[simp] theorem forgetSession_ctxs (s : State) (k : Nat) : (forgetSession s k).ctxs = s.ctxs := rfl
@[simp] theorem forgetSession_tiles (s : State) (k : Nat) : (forgetSession s k).tiles = s.tiles := rfl
@[simp] theorem forgetSession_lastTile (s : State) (k : Nat) : (forgetSession s k).lastTile = s.lastTile := rfl
@[simp] theorem forgetSession_drays (s : State) (k : Nat) : (forgetSession s k).drays = s.drays := rfl
@[simp] theorem forgetSession_treebars (s : State) (k : Nat) : (forgetSession s k).treebars = s.treebars := rfl
@[simp] theorem forgetSession_faults (s : State) (k : Nat) : (forgetSession s k).faults = s.faults := rfl
@[simp] theorem forgetSession_nextFault (s : State) (k : Nat) : (forgetSession s k).nextFault = s.nextFault := rfl
@[simp] theorem forgetSession_resets (s : State) (k : Nat) : (forgetSession s k).resets = s.resets := rfl
@[simp] theorem forgetSession_pending (s : State) (k : Nat) : (forgetSession s k).pending = s.pending := rfl
@[simp] theorem forgetSession_ports (s : State) (k : Nat) : (forgetSession s k).ports = s.ports := rfl
@[simp] theorem forgetSession_hallCount (s : State) (k : Nat) : (forgetSession s k).hallCount = s.hallCount := rfl
@[simp] theorem forgetSession_signing (s : State) (k : Nat) : (forgetSession s k).signing = s.signing := rfl
@[simp] theorem forgetSession_pot (s : State) (k : Nat) : (forgetSession s k).pot = s.pot := rfl
@[simp] theorem forgetSession_keys (s : State) (k : Nat) : (forgetSession s k).keys = s.keys := rfl
@[simp] theorem forgetSession_worlds (s : State) (k : Nat) : (forgetSession s k).worlds = s.worlds := rfl
@[simp] theorem forgetSession_portil (s : State) (k : Nat) : (forgetSession s k).portil = s.portil := rfl
@[simp] theorem forgetSession_pf (s : State) (k : Nat) : (forgetSession s k).pf = s.pf := rfl
@[simp] theorem forgetSession_parts (s : State) (k : Nat) : (forgetSession s k).parts = s.parts := rfl
@[simp] theorem forgetSession_sysplate (s : State) (k : Nat) : (forgetSession s k).sysplate = s.sysplate := rfl
@[simp] theorem forgetSession_ctrs (s : State) (k : Nat) : (forgetSession s k).ctrs = s.ctrs := rfl
@[simp] theorem forgetSession_flowFails (s : State) (k : Nat) : (forgetSession s k).flowFails = s.flowFails := rfl
@[simp] theorem forgetSession_lastPlace (s : State) (k : Nat) : (forgetSession s k).lastPlace = s.lastPlace := rfl
@[simp] theorem forgetSession_poolHits (s : State) (k : Nat) : (forgetSession s k).poolHits = s.poolHits := rfl
@[simp] theorem forgetSession_poolIntervals (s : State) (k : Nat) : (forgetSession s k).poolIntervals = s.poolIntervals := rfl
@[simp] theorem forgetSession_clockMHz (s : State) (k : Nat) : (forgetSession s k).clockMHz = s.clockMHz := rfl
@[simp] theorem forgetSession_powerCap (s : State) (k : Nat) : (forgetSession s k).powerCap = s.powerCap := rfl
@[simp] theorem forgetSession_softErrors (s : State) (k : Nat) : (forgetSession s k).softErrors = s.softErrors := rfl
@[simp] theorem forgetSession_msix (s : State) (k : Nat) : (forgetSession s k).msix = s.msix := rfl
@[simp] theorem forgetSession_aer (s : State) (k : Nat) : (forgetSession s k).aer = s.aer := rfl
@[simp] theorem forgetSession_hostRead (s : State) (k : Nat) : (forgetSession s k).hostRead = s.hostRead := rfl
@[simp] theorem forgetSession_picked (s : State) (k : Nat) : (forgetSession s k).picked = s.picked := rfl
@[simp] theorem forgetSession_drayTurns (s : State) (k : Nat) : (forgetSession s k).drayTurns = s.drayTurns := rfl
@[simp] theorem forgetSession_hallTurn (s : State) (k : Nat) : (forgetSession s k).hallTurn = s.hallTurn := rfl
@[simp] theorem forgetSession_upsets (s : State) (k : Nat) : (forgetSession s k).upsets = s.upsets := rfl
@[simp] theorem forgetSession_ats (s : State) (k : Nat) : (forgetSession s k).ats = s.ats := rfl
@[simp] theorem forgetSession_peerRefused (s : State) (k : Nat) : (forgetSession s k).peerRefused = s.peerRefused := rfl
@[simp] theorem forgetSession_flowKey (s : State) (k : Nat) : (forgetSession s k).flowKey = s.flowKey := rfl
@[simp] theorem forgetSession_scrubbed (s : State) (k : Nat) : (forgetSession s k).scrubbed = s.scrubbed := rfl

@[simp] theorem tick_sched (s : State) : (tick s).sched = s.sched := rfl
@[simp] theorem tick_cur (s : State) : (tick s).cur = s.cur := rfl
@[simp] theorem tick_turn (s : State) : (tick s).turn = s.turn := rfl
@[simp] theorem tick_dcur (s : State) : (tick s).dcur = s.dcur := rfl
@[simp] theorem tick_iss (s : State) : (tick s).iss = s.iss := rfl
@[simp] theorem tick_free (s : State) : (tick s).free = s.free := rfl
@[simp] theorem tick_cycles (s : State) : (tick s).cycles = s.cycles := rfl
@[simp] theorem tick_mem (s : State) : (tick s).mem = s.mem := rfl
@[simp] theorem tick_poison (s : State) : (tick s).poison = s.poison := rfl
@[simp] theorem tick_l1 (s : State) : (tick s).l1 = s.l1 := rfl
@[simp] theorem tick_fusedClusters (s : State) : (tick s).fusedClusters = s.fusedClusters := rfl
@[simp] theorem tick_l2 (s : State) : (tick s).l2 = s.l2 := rfl
@[simp] theorem tick_victims (s : State) : (tick s).victims = s.victims := rfl
@[simp] theorem tick_tlbs (s : State) : (tick s).tlbs = s.tlbs := rfl
@[simp] theorem tick_imps (s : State) : (tick s).imps = s.imps := rfl
@[simp] theorem tick_rcache (s : State) : (tick s).rcache = s.rcache := rfl
@[simp] theorem tick_rakes (s : State) : (tick s).rakes = s.rakes := rfl
@[simp] theorem tick_ctxs (s : State) : (tick s).ctxs = s.ctxs := rfl
@[simp] theorem tick_tiles (s : State) : (tick s).tiles = s.tiles := rfl
@[simp] theorem tick_lastTile (s : State) : (tick s).lastTile = s.lastTile := rfl
@[simp] theorem tick_drays (s : State) : (tick s).drays = s.drays := rfl
@[simp] theorem tick_treebars (s : State) : (tick s).treebars = s.treebars := rfl
@[simp] theorem tick_faults (s : State) : (tick s).faults = s.faults := rfl
@[simp] theorem tick_nextFault (s : State) : (tick s).nextFault = s.nextFault := rfl
@[simp] theorem tick_resets (s : State) : (tick s).resets = s.resets := rfl
@[simp] theorem tick_pending (s : State) : (tick s).pending = s.pending := rfl
@[simp] theorem tick_sessions (s : State) : (tick s).sessions = s.sessions := rfl
@[simp] theorem tick_ports (s : State) : (tick s).ports = s.ports := rfl
@[simp] theorem tick_hallCount (s : State) : (tick s).hallCount = s.hallCount := rfl
@[simp] theorem tick_signing (s : State) : (tick s).signing = s.signing := rfl
@[simp] theorem tick_pot (s : State) : (tick s).pot = s.pot := rfl
@[simp] theorem tick_keys (s : State) : (tick s).keys = s.keys := rfl
@[simp] theorem tick_worlds (s : State) : (tick s).worlds = s.worlds := rfl
@[simp] theorem tick_portil (s : State) : (tick s).portil = s.portil := rfl
@[simp] theorem tick_pf (s : State) : (tick s).pf = s.pf := rfl
@[simp] theorem tick_parts (s : State) : (tick s).parts = s.parts := rfl
@[simp] theorem tick_sysplate (s : State) : (tick s).sysplate = s.sysplate := rfl
@[simp] theorem tick_ctrs (s : State) : (tick s).ctrs = s.ctrs := rfl
@[simp] theorem tick_flowFails (s : State) : (tick s).flowFails = s.flowFails := rfl
@[simp] theorem tick_lastPlace (s : State) : (tick s).lastPlace = s.lastPlace := rfl
@[simp] theorem tick_poolHits (s : State) : (tick s).poolHits = s.poolHits := rfl
@[simp] theorem tick_poolIntervals (s : State) : (tick s).poolIntervals = s.poolIntervals := rfl
@[simp] theorem tick_clockMHz (s : State) : (tick s).clockMHz = s.clockMHz := rfl
@[simp] theorem tick_powerCap (s : State) : (tick s).powerCap = s.powerCap := rfl
@[simp] theorem tick_softErrors (s : State) : (tick s).softErrors = s.softErrors := rfl
@[simp] theorem tick_msix (s : State) : (tick s).msix = s.msix := rfl
@[simp] theorem tick_aer (s : State) : (tick s).aer = s.aer := rfl
@[simp] theorem tick_hostRead (s : State) : (tick s).hostRead = s.hostRead := rfl
@[simp] theorem tick_picked (s : State) : (tick s).picked = s.picked := rfl
@[simp] theorem tick_drayTurns (s : State) : (tick s).drayTurns = s.drayTurns := rfl
@[simp] theorem tick_hallTurn (s : State) : (tick s).hallTurn = s.hallTurn := rfl
@[simp] theorem tick_upsets (s : State) : (tick s).upsets = s.upsets := rfl
@[simp] theorem tick_ats (s : State) : (tick s).ats = s.ats := rfl
@[simp] theorem tick_peerRefused (s : State) : (tick s).peerRefused = s.peerRefused := rfl
@[simp] theorem tick_flowKey (s : State) : (tick s).flowKey = s.flowKey := rfl
@[simp] theorem tick_scrubbed (s : State) : (tick s).scrubbed = s.scrubbed := rfl

@[simp] theorem setCoach_coaches (s : State) (k : Nat) (co : Coach) : (setCoach s k co).coaches = tput s.coaches k co := rfl
@[simp] theorem modCoach_coaches (s : State) (k : Nat) (f : Coach → Coach) : (modCoach s k f).coaches = tmod s.coaches k f := rfl

@[simp] theorem vset_ctx (co : Coach) (r l : Nat) (w : Word) : (vset co r l w).ctx = co.ctx := rfl
@[simp] theorem vset_fslot (co : Coach) (r l : Nat) (w : Word) : (vset co r l w).fslot = co.fslot := rfl
@[simp] theorem vset_region (co : Coach) (r l : Nat) (w : Word) : (vset co r l w).region = co.region := rfl
@[simp] theorem vset_rake (co : Coach) (r l : Nat) (w : Word) : (vset co r l w).rake = co.rake := rfl
@[simp] theorem vset_idx (co : Coach) (r l : Nat) (w : Word) : (vset co r l w).idx = co.idx := rfl
@[simp] theorem vset_place (co : Coach) (r l : Nat) (w : Word) : (vset co r l w).place = co.place := rfl
@[simp] theorem vset_width (co : Coach) (r l : Nat) (w : Word) : (vset co r l w).width = co.width := rfl
@[simp] theorem vset_prot (co : Coach) (r l : Nat) (w : Word) : (vset co r l w).prot = co.prot := rfl
@[simp] theorem vset_plate (co : Coach) (r l : Nat) (w : Word) : (vset co r l w).plate = co.plate := rfl
@[simp] theorem vset_version (co : Coach) (r l : Nat) (w : Word) : (vset co r l w).version = co.version := rfl
@[simp] theorem vset_nregs (co : Coach) (r l : Nat) (w : Word) : (vset co r l w).nregs = co.nregs := rfl
@[simp] theorem vset_s (co : Coach) (r l : Nat) (w : Word) : (vset co r l w).s = co.s := rfl
@[simp] theorem vset_m (co : Coach) (r l : Nat) (w : Word) : (vset co r l w).m = co.m := rfl
@[simp] theorem vset_lanes (co : Coach) (r l : Nat) (w : Word) : (vset co r l w).lanes = co.lanes := rfl
@[simp] theorem vset_fmode (co : Coach) (r l : Nat) (w : Word) : (vset co r l w).fmode = co.fmode := rfl
@[simp] theorem vset_fstat (co : Coach) (r l : Nat) (w : Word) : (vset co r l w).fstat = co.fstat := rfl
@[simp] theorem vset_seed (co : Coach) (r l : Nat) (w : Word) : (vset co r l w).seed = co.seed := rfl
@[simp] theorem vset_rbuf (co : Coach) (r l : Nat) (w : Word) : (vset co r l w).rbuf = co.rbuf := rfl
@[simp] theorem vset_orderNext (co : Coach) (r l : Nat) (w : Word) : (vset co r l w).orderNext = co.orderNext := rfl
@[simp] theorem vset_fpeHeld (co : Coach) (r l : Nat) (w : Word) : (vset co r l w).fpeHeld = co.fpeHeld := rfl
@[simp] theorem vset_stalls (co : Coach) (r l : Nat) (w : Word) : (vset co r l w).stalls = co.stalls := rfl
@[simp] theorem vset_pair (co : Coach) (r l : Nat) (w : Word) : (vset co r l w).pair = co.pair := rfl
@[simp] theorem vset_leaseG (co : Coach) (r l : Nat) (w : Word) : (vset co r l w).leaseG = co.leaseG := rfl
@[simp] theorem vset_measured (co : Coach) (r l : Nat) (w : Word) : (vset co r l w).measured = co.measured := rfl
@[simp] theorem vset_est (co : Coach) (r l : Nat) (w : Word) : (vset co r l w).est = co.est := rfl
@[simp] theorem vset_mi (co : Coach) (r l : Nat) (w : Word) : (vset co r l w).mi = co.mi := rfl
@[simp] theorem vset_alloc (co : Coach) (r l : Nat) (w : Word) : (vset co r l w).alloc = co.alloc := rfl
@[simp] theorem vset_vh (co : Coach) (r l : Nat) (w : Word) : (vset co r l w).vh = co.vh := rfl
@[simp] theorem vset_active (co : Coach) (r l : Nat) (w : Word) : (vset co r l w).active = co.active := rfl
@[simp] theorem vset_admitted (co : Coach) (r l : Nat) (w : Word) : (vset co r l w).admitted = co.admitted := rfl
@[simp] theorem vset_waitSince (co : Coach) (r l : Nat) (w : Word) : (vset co r l w).waitSince = co.waitSince := rfl
@[simp] theorem vset_atHead (co : Coach) (r l : Nat) (w : Word) : (vset co r l w).atHead = co.atHead := rfl
@[simp] theorem vset_heldBack (co : Coach) (r l : Nat) (w : Word) : (vset co r l w).heldBack = co.heldBack := rfl
@[simp] theorem vset_idleSince (co : Coach) (r l : Nat) (w : Word) : (vset co r l w).idleSince = co.idleSince := rfl
@[simp] theorem vset_sliceStart (co : Coach) (r l : Nat) (w : Word) : (vset co r l w).sliceStart = co.sliceStart := rfl
@[simp] theorem vset_sliceExpired (co : Coach) (r l : Nat) (w : Word) : (vset co r l w).sliceExpired = co.sliceExpired := rfl
@[simp] theorem vset_openBatch (co : Coach) (r l : Nat) (w : Word) : (vset co r l w).openBatch = co.openBatch := rfl
@[simp] theorem vset_sealed_ (co : Coach) (r l : Nat) (w : Word) : (vset co r l w).sealed_ = co.sealed_ := rfl
@[simp] theorem vset_batchCount (co : Coach) (r l : Nat) (w : Word) : (vset co r l w).batchCount = co.batchCount := rfl
@[simp] theorem vset_cpyCount (co : Coach) (r l : Nat) (w : Word) : (vset co r l w).cpyCount = co.cpyCount := rfl
@[simp] theorem vset_zones (co : Coach) (r l : Nat) (w : Word) : (vset co r l w).zones = co.zones := rfl
@[simp] theorem vset_zoneCount (co : Coach) (r l : Nat) (w : Word) : (vset co r l w).zoneCount = co.zoneCount := rfl
@[simp] theorem vset_zcause (co : Coach) (r l : Nat) (w : Word) : (vset co r l w).zcause = co.zcause := rfl
@[simp] theorem vset_zinfo (co : Coach) (r l : Nat) (w : Word) : (vset co r l w).zinfo = co.zinfo := rfl
@[simp] theorem vset_cfgs (co : Coach) (r l : Nat) (w : Word) : (vset co r l w).cfgs = co.cfgs := rfl
@[simp] theorem vset_savedTiles (co : Coach) (r l : Nat) (w : Word) : (vset co r l w).savedTiles = co.savedTiles := rfl
@[simp] theorem vset_ports (co : Coach) (r l : Nat) (w : Word) : (vset co r l w).ports = co.ports := rfl
@[simp] theorem vset_inHandler (co : Coach) (r l : Nat) (w : Word) : (vset co r l w).inHandler = co.inHandler := rfl
@[simp] theorem vset_rmask (co : Coach) (r l : Nat) (w : Word) : (vset co r l w).rmask = co.rmask := rfl
@[simp] theorem vset_entryLanes (co : Coach) (r l : Nat) (w : Word) : (vset co r l w).entryLanes = co.entryLanes := rfl
@[simp] theorem vset_heldStalls (co : Coach) (r l : Nat) (w : Word) : (vset co r l w).heldStalls = co.heldStalls := rfl
@[simp] theorem vset_trap (co : Coach) (r l : Nat) (w : Word) : (vset co r l w).trap = co.trap := rfl
@[simp] theorem vset_halted (co : Coach) (r l : Nat) (w : Word) : (vset co r l w).halted = co.halted := rfl
@[simp] theorem vset_skid (co : Coach) (r l : Nat) (w : Word) : (vset co r l w).skid = co.skid := rfl
@[simp] theorem vset_shadowDiff (co : Coach) (r l : Nat) (w : Word) : (vset co r l w).shadowDiff = co.shadowDiff := rfl
@[simp] theorem vset_bundle (co : Coach) (r l : Nat) (w : Word) : (vset co r l w).bundle = co.bundle := rfl
@[simp] theorem vset_ended (co : Coach) (r l : Nat) (w : Word) : (vset co r l w).ended = co.ended := rfl
@[simp] theorem vset_remainder (co : Coach) (r l : Nat) (w : Word) : (vset co r l w).remainder = co.remainder := rfl
@[simp] theorem vset_turnGranted (co : Coach) (r l : Nat) (w : Word) : (vset co r l w).turnGranted = co.turnGranted := rfl
@[simp] theorem vset_waited (co : Coach) (r l : Nat) (w : Word) : (vset co r l w).waited = co.waited := rfl
@[simp] theorem vset_returned (co : Coach) (r l : Nat) (w : Word) : (vset co r l w).returned = co.returned := rfl
@[simp] theorem vset_out (co : Coach) (r l : Nat) (w : Word) : (vset co r l w).out = co.out := rfl
@[simp] theorem vset_commitPush (co : Coach) (r l : Nat) (w : Word) : (vset co r l w).commitPush = co.commitPush := rfl
@[simp] theorem vset_framed (co : Coach) (r l : Nat) (w : Word) : (vset co r l w).framed = co.framed := rfl
@[simp] theorem vset_resume (co : Coach) (r l : Nat) (w : Word) : (vset co r l w).resume = co.resume := rfl

@[simp] theorem sset_ctx (co : Coach) (r : Nat) (w : Word) : (sset co r w).ctx = co.ctx := rfl
@[simp] theorem sset_fslot (co : Coach) (r : Nat) (w : Word) : (sset co r w).fslot = co.fslot := rfl
@[simp] theorem sset_region (co : Coach) (r : Nat) (w : Word) : (sset co r w).region = co.region := rfl
@[simp] theorem sset_rake (co : Coach) (r : Nat) (w : Word) : (sset co r w).rake = co.rake := rfl
@[simp] theorem sset_idx (co : Coach) (r : Nat) (w : Word) : (sset co r w).idx = co.idx := rfl
@[simp] theorem sset_place (co : Coach) (r : Nat) (w : Word) : (sset co r w).place = co.place := rfl
@[simp] theorem sset_width (co : Coach) (r : Nat) (w : Word) : (sset co r w).width = co.width := rfl
@[simp] theorem sset_prot (co : Coach) (r : Nat) (w : Word) : (sset co r w).prot = co.prot := rfl
@[simp] theorem sset_plate (co : Coach) (r : Nat) (w : Word) : (sset co r w).plate = co.plate := rfl
@[simp] theorem sset_version (co : Coach) (r : Nat) (w : Word) : (sset co r w).version = co.version := rfl
@[simp] theorem sset_nregs (co : Coach) (r : Nat) (w : Word) : (sset co r w).nregs = co.nregs := rfl
@[simp] theorem sset_v (co : Coach) (r : Nat) (w : Word) : (sset co r w).v = co.v := rfl
@[simp] theorem sset_m (co : Coach) (r : Nat) (w : Word) : (sset co r w).m = co.m := rfl
@[simp] theorem sset_lanes (co : Coach) (r : Nat) (w : Word) : (sset co r w).lanes = co.lanes := rfl
@[simp] theorem sset_fmode (co : Coach) (r : Nat) (w : Word) : (sset co r w).fmode = co.fmode := rfl
@[simp] theorem sset_fstat (co : Coach) (r : Nat) (w : Word) : (sset co r w).fstat = co.fstat := rfl
@[simp] theorem sset_seed (co : Coach) (r : Nat) (w : Word) : (sset co r w).seed = co.seed := rfl
@[simp] theorem sset_rbuf (co : Coach) (r : Nat) (w : Word) : (sset co r w).rbuf = co.rbuf := rfl
@[simp] theorem sset_orderNext (co : Coach) (r : Nat) (w : Word) : (sset co r w).orderNext = co.orderNext := rfl
@[simp] theorem sset_fpeHeld (co : Coach) (r : Nat) (w : Word) : (sset co r w).fpeHeld = co.fpeHeld := rfl
@[simp] theorem sset_stalls (co : Coach) (r : Nat) (w : Word) : (sset co r w).stalls = co.stalls := rfl
@[simp] theorem sset_pair (co : Coach) (r : Nat) (w : Word) : (sset co r w).pair = co.pair := rfl
@[simp] theorem sset_leaseG (co : Coach) (r : Nat) (w : Word) : (sset co r w).leaseG = co.leaseG := rfl
@[simp] theorem sset_measured (co : Coach) (r : Nat) (w : Word) : (sset co r w).measured = co.measured := rfl
@[simp] theorem sset_est (co : Coach) (r : Nat) (w : Word) : (sset co r w).est = co.est := rfl
@[simp] theorem sset_mi (co : Coach) (r : Nat) (w : Word) : (sset co r w).mi = co.mi := rfl
@[simp] theorem sset_alloc (co : Coach) (r : Nat) (w : Word) : (sset co r w).alloc = co.alloc := rfl
@[simp] theorem sset_vh (co : Coach) (r : Nat) (w : Word) : (sset co r w).vh = co.vh := rfl
@[simp] theorem sset_active (co : Coach) (r : Nat) (w : Word) : (sset co r w).active = co.active := rfl
@[simp] theorem sset_admitted (co : Coach) (r : Nat) (w : Word) : (sset co r w).admitted = co.admitted := rfl
@[simp] theorem sset_waitSince (co : Coach) (r : Nat) (w : Word) : (sset co r w).waitSince = co.waitSince := rfl
@[simp] theorem sset_atHead (co : Coach) (r : Nat) (w : Word) : (sset co r w).atHead = co.atHead := rfl
@[simp] theorem sset_heldBack (co : Coach) (r : Nat) (w : Word) : (sset co r w).heldBack = co.heldBack := rfl
@[simp] theorem sset_idleSince (co : Coach) (r : Nat) (w : Word) : (sset co r w).idleSince = co.idleSince := rfl
@[simp] theorem sset_sliceStart (co : Coach) (r : Nat) (w : Word) : (sset co r w).sliceStart = co.sliceStart := rfl
@[simp] theorem sset_sliceExpired (co : Coach) (r : Nat) (w : Word) : (sset co r w).sliceExpired = co.sliceExpired := rfl
@[simp] theorem sset_openBatch (co : Coach) (r : Nat) (w : Word) : (sset co r w).openBatch = co.openBatch := rfl
@[simp] theorem sset_sealed_ (co : Coach) (r : Nat) (w : Word) : (sset co r w).sealed_ = co.sealed_ := rfl
@[simp] theorem sset_batchCount (co : Coach) (r : Nat) (w : Word) : (sset co r w).batchCount = co.batchCount := rfl
@[simp] theorem sset_cpyCount (co : Coach) (r : Nat) (w : Word) : (sset co r w).cpyCount = co.cpyCount := rfl
@[simp] theorem sset_zones (co : Coach) (r : Nat) (w : Word) : (sset co r w).zones = co.zones := rfl
@[simp] theorem sset_zoneCount (co : Coach) (r : Nat) (w : Word) : (sset co r w).zoneCount = co.zoneCount := rfl
@[simp] theorem sset_zcause (co : Coach) (r : Nat) (w : Word) : (sset co r w).zcause = co.zcause := rfl
@[simp] theorem sset_zinfo (co : Coach) (r : Nat) (w : Word) : (sset co r w).zinfo = co.zinfo := rfl
@[simp] theorem sset_cfgs (co : Coach) (r : Nat) (w : Word) : (sset co r w).cfgs = co.cfgs := rfl
@[simp] theorem sset_savedTiles (co : Coach) (r : Nat) (w : Word) : (sset co r w).savedTiles = co.savedTiles := rfl
@[simp] theorem sset_ports (co : Coach) (r : Nat) (w : Word) : (sset co r w).ports = co.ports := rfl
@[simp] theorem sset_inHandler (co : Coach) (r : Nat) (w : Word) : (sset co r w).inHandler = co.inHandler := rfl
@[simp] theorem sset_rmask (co : Coach) (r : Nat) (w : Word) : (sset co r w).rmask = co.rmask := rfl
@[simp] theorem sset_entryLanes (co : Coach) (r : Nat) (w : Word) : (sset co r w).entryLanes = co.entryLanes := rfl
@[simp] theorem sset_heldStalls (co : Coach) (r : Nat) (w : Word) : (sset co r w).heldStalls = co.heldStalls := rfl
@[simp] theorem sset_trap (co : Coach) (r : Nat) (w : Word) : (sset co r w).trap = co.trap := rfl
@[simp] theorem sset_halted (co : Coach) (r : Nat) (w : Word) : (sset co r w).halted = co.halted := rfl
@[simp] theorem sset_skid (co : Coach) (r : Nat) (w : Word) : (sset co r w).skid = co.skid := rfl
@[simp] theorem sset_shadowDiff (co : Coach) (r : Nat) (w : Word) : (sset co r w).shadowDiff = co.shadowDiff := rfl
@[simp] theorem sset_bundle (co : Coach) (r : Nat) (w : Word) : (sset co r w).bundle = co.bundle := rfl
@[simp] theorem sset_ended (co : Coach) (r : Nat) (w : Word) : (sset co r w).ended = co.ended := rfl
@[simp] theorem sset_remainder (co : Coach) (r : Nat) (w : Word) : (sset co r w).remainder = co.remainder := rfl
@[simp] theorem sset_turnGranted (co : Coach) (r : Nat) (w : Word) : (sset co r w).turnGranted = co.turnGranted := rfl
@[simp] theorem sset_waited (co : Coach) (r : Nat) (w : Word) : (sset co r w).waited = co.waited := rfl
@[simp] theorem sset_returned (co : Coach) (r : Nat) (w : Word) : (sset co r w).returned = co.returned := rfl
@[simp] theorem sset_out (co : Coach) (r : Nat) (w : Word) : (sset co r w).out = co.out := rfl
@[simp] theorem sset_commitPush (co : Coach) (r : Nat) (w : Word) : (sset co r w).commitPush = co.commitPush := rfl
@[simp] theorem sset_framed (co : Coach) (r : Nat) (w : Word) : (sset co r w).framed = co.framed := rfl
@[simp] theorem sset_resume (co : Coach) (r : Nat) (w : Word) : (sset co r w).resume = co.resume := rfl

@[simp] theorem modLanes_ctx (co : Coach) (m : Mask) (f : Nat → Lane → Lane) : (modLanes co m f).ctx = co.ctx := rfl
@[simp] theorem modLanes_fslot (co : Coach) (m : Mask) (f : Nat → Lane → Lane) : (modLanes co m f).fslot = co.fslot := rfl
@[simp] theorem modLanes_region (co : Coach) (m : Mask) (f : Nat → Lane → Lane) : (modLanes co m f).region = co.region := rfl
@[simp] theorem modLanes_rake (co : Coach) (m : Mask) (f : Nat → Lane → Lane) : (modLanes co m f).rake = co.rake := rfl
@[simp] theorem modLanes_idx (co : Coach) (m : Mask) (f : Nat → Lane → Lane) : (modLanes co m f).idx = co.idx := rfl
@[simp] theorem modLanes_place (co : Coach) (m : Mask) (f : Nat → Lane → Lane) : (modLanes co m f).place = co.place := rfl
@[simp] theorem modLanes_width (co : Coach) (m : Mask) (f : Nat → Lane → Lane) : (modLanes co m f).width = co.width := rfl
@[simp] theorem modLanes_prot (co : Coach) (m : Mask) (f : Nat → Lane → Lane) : (modLanes co m f).prot = co.prot := rfl
@[simp] theorem modLanes_plate (co : Coach) (m : Mask) (f : Nat → Lane → Lane) : (modLanes co m f).plate = co.plate := rfl
@[simp] theorem modLanes_version (co : Coach) (m : Mask) (f : Nat → Lane → Lane) : (modLanes co m f).version = co.version := rfl
@[simp] theorem modLanes_nregs (co : Coach) (m : Mask) (f : Nat → Lane → Lane) : (modLanes co m f).nregs = co.nregs := rfl
@[simp] theorem modLanes_v (co : Coach) (m : Mask) (f : Nat → Lane → Lane) : (modLanes co m f).v = co.v := rfl
@[simp] theorem modLanes_s (co : Coach) (m : Mask) (f : Nat → Lane → Lane) : (modLanes co m f).s = co.s := rfl
@[simp] theorem modLanes_m (co : Coach) (m : Mask) (f : Nat → Lane → Lane) : (modLanes co m f).m = co.m := rfl
@[simp] theorem modLanes_fmode (co : Coach) (m : Mask) (f : Nat → Lane → Lane) : (modLanes co m f).fmode = co.fmode := rfl
@[simp] theorem modLanes_fstat (co : Coach) (m : Mask) (f : Nat → Lane → Lane) : (modLanes co m f).fstat = co.fstat := rfl
@[simp] theorem modLanes_seed (co : Coach) (m : Mask) (f : Nat → Lane → Lane) : (modLanes co m f).seed = co.seed := rfl
@[simp] theorem modLanes_rbuf (co : Coach) (m : Mask) (f : Nat → Lane → Lane) : (modLanes co m f).rbuf = co.rbuf := rfl
@[simp] theorem modLanes_orderNext (co : Coach) (m : Mask) (f : Nat → Lane → Lane) : (modLanes co m f).orderNext = co.orderNext := rfl
@[simp] theorem modLanes_fpeHeld (co : Coach) (m : Mask) (f : Nat → Lane → Lane) : (modLanes co m f).fpeHeld = co.fpeHeld := rfl
@[simp] theorem modLanes_stalls (co : Coach) (m : Mask) (f : Nat → Lane → Lane) : (modLanes co m f).stalls = co.stalls := rfl
@[simp] theorem modLanes_pair (co : Coach) (m : Mask) (f : Nat → Lane → Lane) : (modLanes co m f).pair = co.pair := rfl
@[simp] theorem modLanes_leaseG (co : Coach) (m : Mask) (f : Nat → Lane → Lane) : (modLanes co m f).leaseG = co.leaseG := rfl
@[simp] theorem modLanes_measured (co : Coach) (m : Mask) (f : Nat → Lane → Lane) : (modLanes co m f).measured = co.measured := rfl
@[simp] theorem modLanes_est (co : Coach) (m : Mask) (f : Nat → Lane → Lane) : (modLanes co m f).est = co.est := rfl
@[simp] theorem modLanes_mi (co : Coach) (m : Mask) (f : Nat → Lane → Lane) : (modLanes co m f).mi = co.mi := rfl
@[simp] theorem modLanes_alloc (co : Coach) (m : Mask) (f : Nat → Lane → Lane) : (modLanes co m f).alloc = co.alloc := rfl
@[simp] theorem modLanes_vh (co : Coach) (m : Mask) (f : Nat → Lane → Lane) : (modLanes co m f).vh = co.vh := rfl
@[simp] theorem modLanes_active (co : Coach) (m : Mask) (f : Nat → Lane → Lane) : (modLanes co m f).active = co.active := rfl
@[simp] theorem modLanes_admitted (co : Coach) (m : Mask) (f : Nat → Lane → Lane) : (modLanes co m f).admitted = co.admitted := rfl
@[simp] theorem modLanes_waitSince (co : Coach) (m : Mask) (f : Nat → Lane → Lane) : (modLanes co m f).waitSince = co.waitSince := rfl
@[simp] theorem modLanes_atHead (co : Coach) (m : Mask) (f : Nat → Lane → Lane) : (modLanes co m f).atHead = co.atHead := rfl
@[simp] theorem modLanes_heldBack (co : Coach) (m : Mask) (f : Nat → Lane → Lane) : (modLanes co m f).heldBack = co.heldBack := rfl
@[simp] theorem modLanes_idleSince (co : Coach) (m : Mask) (f : Nat → Lane → Lane) : (modLanes co m f).idleSince = co.idleSince := rfl
@[simp] theorem modLanes_sliceStart (co : Coach) (m : Mask) (f : Nat → Lane → Lane) : (modLanes co m f).sliceStart = co.sliceStart := rfl
@[simp] theorem modLanes_sliceExpired (co : Coach) (m : Mask) (f : Nat → Lane → Lane) : (modLanes co m f).sliceExpired = co.sliceExpired := rfl
@[simp] theorem modLanes_openBatch (co : Coach) (m : Mask) (f : Nat → Lane → Lane) : (modLanes co m f).openBatch = co.openBatch := rfl
@[simp] theorem modLanes_sealed_ (co : Coach) (m : Mask) (f : Nat → Lane → Lane) : (modLanes co m f).sealed_ = co.sealed_ := rfl
@[simp] theorem modLanes_batchCount (co : Coach) (m : Mask) (f : Nat → Lane → Lane) : (modLanes co m f).batchCount = co.batchCount := rfl
@[simp] theorem modLanes_cpyCount (co : Coach) (m : Mask) (f : Nat → Lane → Lane) : (modLanes co m f).cpyCount = co.cpyCount := rfl
@[simp] theorem modLanes_zones (co : Coach) (m : Mask) (f : Nat → Lane → Lane) : (modLanes co m f).zones = co.zones := rfl
@[simp] theorem modLanes_zoneCount (co : Coach) (m : Mask) (f : Nat → Lane → Lane) : (modLanes co m f).zoneCount = co.zoneCount := rfl
@[simp] theorem modLanes_zcause (co : Coach) (m : Mask) (f : Nat → Lane → Lane) : (modLanes co m f).zcause = co.zcause := rfl
@[simp] theorem modLanes_zinfo (co : Coach) (m : Mask) (f : Nat → Lane → Lane) : (modLanes co m f).zinfo = co.zinfo := rfl
@[simp] theorem modLanes_cfgs (co : Coach) (m : Mask) (f : Nat → Lane → Lane) : (modLanes co m f).cfgs = co.cfgs := rfl
@[simp] theorem modLanes_savedTiles (co : Coach) (m : Mask) (f : Nat → Lane → Lane) : (modLanes co m f).savedTiles = co.savedTiles := rfl
@[simp] theorem modLanes_ports (co : Coach) (m : Mask) (f : Nat → Lane → Lane) : (modLanes co m f).ports = co.ports := rfl
@[simp] theorem modLanes_inHandler (co : Coach) (m : Mask) (f : Nat → Lane → Lane) : (modLanes co m f).inHandler = co.inHandler := rfl
@[simp] theorem modLanes_rmask (co : Coach) (m : Mask) (f : Nat → Lane → Lane) : (modLanes co m f).rmask = co.rmask := rfl
@[simp] theorem modLanes_entryLanes (co : Coach) (m : Mask) (f : Nat → Lane → Lane) : (modLanes co m f).entryLanes = co.entryLanes := rfl
@[simp] theorem modLanes_heldStalls (co : Coach) (m : Mask) (f : Nat → Lane → Lane) : (modLanes co m f).heldStalls = co.heldStalls := rfl
@[simp] theorem modLanes_trap (co : Coach) (m : Mask) (f : Nat → Lane → Lane) : (modLanes co m f).trap = co.trap := rfl
@[simp] theorem modLanes_halted (co : Coach) (m : Mask) (f : Nat → Lane → Lane) : (modLanes co m f).halted = co.halted := rfl
@[simp] theorem modLanes_skid (co : Coach) (m : Mask) (f : Nat → Lane → Lane) : (modLanes co m f).skid = co.skid := rfl
@[simp] theorem modLanes_shadowDiff (co : Coach) (m : Mask) (f : Nat → Lane → Lane) : (modLanes co m f).shadowDiff = co.shadowDiff := rfl
@[simp] theorem modLanes_bundle (co : Coach) (m : Mask) (f : Nat → Lane → Lane) : (modLanes co m f).bundle = co.bundle := rfl
@[simp] theorem modLanes_ended (co : Coach) (m : Mask) (f : Nat → Lane → Lane) : (modLanes co m f).ended = co.ended := rfl
@[simp] theorem modLanes_remainder (co : Coach) (m : Mask) (f : Nat → Lane → Lane) : (modLanes co m f).remainder = co.remainder := rfl
@[simp] theorem modLanes_turnGranted (co : Coach) (m : Mask) (f : Nat → Lane → Lane) : (modLanes co m f).turnGranted = co.turnGranted := rfl
@[simp] theorem modLanes_waited (co : Coach) (m : Mask) (f : Nat → Lane → Lane) : (modLanes co m f).waited = co.waited := rfl
@[simp] theorem modLanes_returned (co : Coach) (m : Mask) (f : Nat → Lane → Lane) : (modLanes co m f).returned = co.returned := rfl
@[simp] theorem modLanes_out (co : Coach) (m : Mask) (f : Nat → Lane → Lane) : (modLanes co m f).out = co.out := rfl
@[simp] theorem modLanes_commitPush (co : Coach) (m : Mask) (f : Nat → Lane → Lane) : (modLanes co m f).commitPush = co.commitPush := rfl
@[simp] theorem modLanes_framed (co : Coach) (m : Mask) (f : Nat → Lane → Lane) : (modLanes co m f).framed = co.framed := rfl
@[simp] theorem modLanes_resume (co : Coach) (m : Mask) (f : Nat → Lane → Lane) : (modLanes co m f).resume = co.resume := rfl

@[simp] theorem passLanes_ctx (co : Coach) (i : Iss) (m : Mask) : (passLanes co i m).ctx = co.ctx := rfl
@[simp] theorem passLanes_fslot (co : Coach) (i : Iss) (m : Mask) : (passLanes co i m).fslot = co.fslot := rfl
@[simp] theorem passLanes_region (co : Coach) (i : Iss) (m : Mask) : (passLanes co i m).region = co.region := rfl
@[simp] theorem passLanes_rake (co : Coach) (i : Iss) (m : Mask) : (passLanes co i m).rake = co.rake := rfl
@[simp] theorem passLanes_idx (co : Coach) (i : Iss) (m : Mask) : (passLanes co i m).idx = co.idx := rfl
@[simp] theorem passLanes_place (co : Coach) (i : Iss) (m : Mask) : (passLanes co i m).place = co.place := rfl
@[simp] theorem passLanes_width (co : Coach) (i : Iss) (m : Mask) : (passLanes co i m).width = co.width := rfl
@[simp] theorem passLanes_prot (co : Coach) (i : Iss) (m : Mask) : (passLanes co i m).prot = co.prot := rfl
@[simp] theorem passLanes_plate (co : Coach) (i : Iss) (m : Mask) : (passLanes co i m).plate = co.plate := rfl
@[simp] theorem passLanes_version (co : Coach) (i : Iss) (m : Mask) : (passLanes co i m).version = co.version := rfl
@[simp] theorem passLanes_nregs (co : Coach) (i : Iss) (m : Mask) : (passLanes co i m).nregs = co.nregs := rfl
@[simp] theorem passLanes_v (co : Coach) (i : Iss) (m : Mask) : (passLanes co i m).v = co.v := rfl
@[simp] theorem passLanes_s (co : Coach) (i : Iss) (m : Mask) : (passLanes co i m).s = co.s := rfl
@[simp] theorem passLanes_m (co : Coach) (i : Iss) (m : Mask) : (passLanes co i m).m = co.m := rfl
@[simp] theorem passLanes_fmode (co : Coach) (i : Iss) (m : Mask) : (passLanes co i m).fmode = co.fmode := rfl
@[simp] theorem passLanes_fstat (co : Coach) (i : Iss) (m : Mask) : (passLanes co i m).fstat = co.fstat := rfl
@[simp] theorem passLanes_seed (co : Coach) (i : Iss) (m : Mask) : (passLanes co i m).seed = co.seed := rfl
@[simp] theorem passLanes_rbuf (co : Coach) (i : Iss) (m : Mask) : (passLanes co i m).rbuf = co.rbuf := rfl
@[simp] theorem passLanes_orderNext (co : Coach) (i : Iss) (m : Mask) : (passLanes co i m).orderNext = co.orderNext := rfl
@[simp] theorem passLanes_fpeHeld (co : Coach) (i : Iss) (m : Mask) : (passLanes co i m).fpeHeld = co.fpeHeld := rfl
@[simp] theorem passLanes_stalls (co : Coach) (i : Iss) (m : Mask) : (passLanes co i m).stalls = co.stalls := rfl
@[simp] theorem passLanes_pair (co : Coach) (i : Iss) (m : Mask) : (passLanes co i m).pair = co.pair := rfl
@[simp] theorem passLanes_leaseG (co : Coach) (i : Iss) (m : Mask) : (passLanes co i m).leaseG = co.leaseG := rfl
@[simp] theorem passLanes_measured (co : Coach) (i : Iss) (m : Mask) : (passLanes co i m).measured = co.measured := rfl
@[simp] theorem passLanes_est (co : Coach) (i : Iss) (m : Mask) : (passLanes co i m).est = co.est := rfl
@[simp] theorem passLanes_mi (co : Coach) (i : Iss) (m : Mask) : (passLanes co i m).mi = co.mi := rfl
@[simp] theorem passLanes_alloc (co : Coach) (i : Iss) (m : Mask) : (passLanes co i m).alloc = co.alloc := rfl
@[simp] theorem passLanes_vh (co : Coach) (i : Iss) (m : Mask) : (passLanes co i m).vh = co.vh := rfl
@[simp] theorem passLanes_active (co : Coach) (i : Iss) (m : Mask) : (passLanes co i m).active = co.active := rfl
@[simp] theorem passLanes_admitted (co : Coach) (i : Iss) (m : Mask) : (passLanes co i m).admitted = co.admitted := rfl
@[simp] theorem passLanes_waitSince (co : Coach) (i : Iss) (m : Mask) : (passLanes co i m).waitSince = co.waitSince := rfl
@[simp] theorem passLanes_atHead (co : Coach) (i : Iss) (m : Mask) : (passLanes co i m).atHead = co.atHead := rfl
@[simp] theorem passLanes_heldBack (co : Coach) (i : Iss) (m : Mask) : (passLanes co i m).heldBack = co.heldBack := rfl
@[simp] theorem passLanes_idleSince (co : Coach) (i : Iss) (m : Mask) : (passLanes co i m).idleSince = co.idleSince := rfl
@[simp] theorem passLanes_sliceStart (co : Coach) (i : Iss) (m : Mask) : (passLanes co i m).sliceStart = co.sliceStart := rfl
@[simp] theorem passLanes_sliceExpired (co : Coach) (i : Iss) (m : Mask) : (passLanes co i m).sliceExpired = co.sliceExpired := rfl
@[simp] theorem passLanes_openBatch (co : Coach) (i : Iss) (m : Mask) : (passLanes co i m).openBatch = co.openBatch := rfl
@[simp] theorem passLanes_sealed_ (co : Coach) (i : Iss) (m : Mask) : (passLanes co i m).sealed_ = co.sealed_ := rfl
@[simp] theorem passLanes_batchCount (co : Coach) (i : Iss) (m : Mask) : (passLanes co i m).batchCount = co.batchCount := rfl
@[simp] theorem passLanes_cpyCount (co : Coach) (i : Iss) (m : Mask) : (passLanes co i m).cpyCount = co.cpyCount := rfl
@[simp] theorem passLanes_zones (co : Coach) (i : Iss) (m : Mask) : (passLanes co i m).zones = co.zones := rfl
@[simp] theorem passLanes_zoneCount (co : Coach) (i : Iss) (m : Mask) : (passLanes co i m).zoneCount = co.zoneCount := rfl
@[simp] theorem passLanes_zcause (co : Coach) (i : Iss) (m : Mask) : (passLanes co i m).zcause = co.zcause := rfl
@[simp] theorem passLanes_zinfo (co : Coach) (i : Iss) (m : Mask) : (passLanes co i m).zinfo = co.zinfo := rfl
@[simp] theorem passLanes_cfgs (co : Coach) (i : Iss) (m : Mask) : (passLanes co i m).cfgs = co.cfgs := rfl
@[simp] theorem passLanes_savedTiles (co : Coach) (i : Iss) (m : Mask) : (passLanes co i m).savedTiles = co.savedTiles := rfl
@[simp] theorem passLanes_ports (co : Coach) (i : Iss) (m : Mask) : (passLanes co i m).ports = co.ports := rfl
@[simp] theorem passLanes_inHandler (co : Coach) (i : Iss) (m : Mask) : (passLanes co i m).inHandler = co.inHandler := rfl
@[simp] theorem passLanes_rmask (co : Coach) (i : Iss) (m : Mask) : (passLanes co i m).rmask = co.rmask := rfl
@[simp] theorem passLanes_entryLanes (co : Coach) (i : Iss) (m : Mask) : (passLanes co i m).entryLanes = co.entryLanes := rfl
@[simp] theorem passLanes_heldStalls (co : Coach) (i : Iss) (m : Mask) : (passLanes co i m).heldStalls = co.heldStalls := rfl
@[simp] theorem passLanes_trap (co : Coach) (i : Iss) (m : Mask) : (passLanes co i m).trap = co.trap := rfl
@[simp] theorem passLanes_halted (co : Coach) (i : Iss) (m : Mask) : (passLanes co i m).halted = co.halted := rfl
@[simp] theorem passLanes_skid (co : Coach) (i : Iss) (m : Mask) : (passLanes co i m).skid = co.skid := rfl
@[simp] theorem passLanes_shadowDiff (co : Coach) (i : Iss) (m : Mask) : (passLanes co i m).shadowDiff = co.shadowDiff := rfl
@[simp] theorem passLanes_bundle (co : Coach) (i : Iss) (m : Mask) : (passLanes co i m).bundle = co.bundle := rfl
@[simp] theorem passLanes_ended (co : Coach) (i : Iss) (m : Mask) : (passLanes co i m).ended = co.ended := rfl
@[simp] theorem passLanes_remainder (co : Coach) (i : Iss) (m : Mask) : (passLanes co i m).remainder = co.remainder := rfl
@[simp] theorem passLanes_turnGranted (co : Coach) (i : Iss) (m : Mask) : (passLanes co i m).turnGranted = co.turnGranted := rfl
@[simp] theorem passLanes_waited (co : Coach) (i : Iss) (m : Mask) : (passLanes co i m).waited = co.waited := rfl
@[simp] theorem passLanes_returned (co : Coach) (i : Iss) (m : Mask) : (passLanes co i m).returned = co.returned := rfl
@[simp] theorem passLanes_out (co : Coach) (i : Iss) (m : Mask) : (passLanes co i m).out = co.out := rfl
@[simp] theorem passLanes_commitPush (co : Coach) (i : Iss) (m : Mask) : (passLanes co i m).commitPush = co.commitPush := rfl
@[simp] theorem passLanes_framed (co : Coach) (i : Iss) (m : Mask) : (passLanes co i m).framed = co.framed := rfl
@[simp] theorem passLanes_resume (co : Coach) (i : Iss) (m : Mask) : (passLanes co i m).resume = co.resume := rfl

@[simp] theorem addSlot_ctx (co : Coach) (x : Slot) : (addSlot co x).ctx = co.ctx := rfl
@[simp] theorem addSlot_fslot (co : Coach) (x : Slot) : (addSlot co x).fslot = co.fslot := rfl
@[simp] theorem addSlot_region (co : Coach) (x : Slot) : (addSlot co x).region = co.region := rfl
@[simp] theorem addSlot_rake (co : Coach) (x : Slot) : (addSlot co x).rake = co.rake := rfl
@[simp] theorem addSlot_idx (co : Coach) (x : Slot) : (addSlot co x).idx = co.idx := rfl
@[simp] theorem addSlot_place (co : Coach) (x : Slot) : (addSlot co x).place = co.place := rfl
@[simp] theorem addSlot_width (co : Coach) (x : Slot) : (addSlot co x).width = co.width := rfl
@[simp] theorem addSlot_prot (co : Coach) (x : Slot) : (addSlot co x).prot = co.prot := rfl
@[simp] theorem addSlot_plate (co : Coach) (x : Slot) : (addSlot co x).plate = co.plate := rfl
@[simp] theorem addSlot_version (co : Coach) (x : Slot) : (addSlot co x).version = co.version := rfl
@[simp] theorem addSlot_nregs (co : Coach) (x : Slot) : (addSlot co x).nregs = co.nregs := rfl
@[simp] theorem addSlot_v (co : Coach) (x : Slot) : (addSlot co x).v = co.v := rfl
@[simp] theorem addSlot_s (co : Coach) (x : Slot) : (addSlot co x).s = co.s := rfl
@[simp] theorem addSlot_m (co : Coach) (x : Slot) : (addSlot co x).m = co.m := rfl
@[simp] theorem addSlot_lanes (co : Coach) (x : Slot) : (addSlot co x).lanes = co.lanes := rfl
@[simp] theorem addSlot_fmode (co : Coach) (x : Slot) : (addSlot co x).fmode = co.fmode := rfl
@[simp] theorem addSlot_fstat (co : Coach) (x : Slot) : (addSlot co x).fstat = co.fstat := rfl
@[simp] theorem addSlot_seed (co : Coach) (x : Slot) : (addSlot co x).seed = co.seed := rfl
@[simp] theorem addSlot_fpeHeld (co : Coach) (x : Slot) : (addSlot co x).fpeHeld = co.fpeHeld := rfl
@[simp] theorem addSlot_stalls (co : Coach) (x : Slot) : (addSlot co x).stalls = co.stalls := rfl
@[simp] theorem addSlot_pair (co : Coach) (x : Slot) : (addSlot co x).pair = co.pair := rfl
@[simp] theorem addSlot_leaseG (co : Coach) (x : Slot) : (addSlot co x).leaseG = co.leaseG := rfl
@[simp] theorem addSlot_measured (co : Coach) (x : Slot) : (addSlot co x).measured = co.measured := rfl
@[simp] theorem addSlot_est (co : Coach) (x : Slot) : (addSlot co x).est = co.est := rfl
@[simp] theorem addSlot_mi (co : Coach) (x : Slot) : (addSlot co x).mi = co.mi := rfl
@[simp] theorem addSlot_alloc (co : Coach) (x : Slot) : (addSlot co x).alloc = co.alloc := rfl
@[simp] theorem addSlot_vh (co : Coach) (x : Slot) : (addSlot co x).vh = co.vh := rfl
@[simp] theorem addSlot_active (co : Coach) (x : Slot) : (addSlot co x).active = co.active := rfl
@[simp] theorem addSlot_admitted (co : Coach) (x : Slot) : (addSlot co x).admitted = co.admitted := rfl
@[simp] theorem addSlot_waitSince (co : Coach) (x : Slot) : (addSlot co x).waitSince = co.waitSince := rfl
@[simp] theorem addSlot_atHead (co : Coach) (x : Slot) : (addSlot co x).atHead = co.atHead := rfl
@[simp] theorem addSlot_heldBack (co : Coach) (x : Slot) : (addSlot co x).heldBack = co.heldBack := rfl
@[simp] theorem addSlot_idleSince (co : Coach) (x : Slot) : (addSlot co x).idleSince = co.idleSince := rfl
@[simp] theorem addSlot_sliceStart (co : Coach) (x : Slot) : (addSlot co x).sliceStart = co.sliceStart := rfl
@[simp] theorem addSlot_sliceExpired (co : Coach) (x : Slot) : (addSlot co x).sliceExpired = co.sliceExpired := rfl
@[simp] theorem addSlot_openBatch (co : Coach) (x : Slot) : (addSlot co x).openBatch = co.openBatch := rfl
@[simp] theorem addSlot_sealed_ (co : Coach) (x : Slot) : (addSlot co x).sealed_ = co.sealed_ := rfl
@[simp] theorem addSlot_batchCount (co : Coach) (x : Slot) : (addSlot co x).batchCount = co.batchCount := rfl
@[simp] theorem addSlot_cpyCount (co : Coach) (x : Slot) : (addSlot co x).cpyCount = co.cpyCount := rfl
@[simp] theorem addSlot_zones (co : Coach) (x : Slot) : (addSlot co x).zones = co.zones := rfl
@[simp] theorem addSlot_zoneCount (co : Coach) (x : Slot) : (addSlot co x).zoneCount = co.zoneCount := rfl
@[simp] theorem addSlot_zcause (co : Coach) (x : Slot) : (addSlot co x).zcause = co.zcause := rfl
@[simp] theorem addSlot_zinfo (co : Coach) (x : Slot) : (addSlot co x).zinfo = co.zinfo := rfl
@[simp] theorem addSlot_cfgs (co : Coach) (x : Slot) : (addSlot co x).cfgs = co.cfgs := rfl
@[simp] theorem addSlot_savedTiles (co : Coach) (x : Slot) : (addSlot co x).savedTiles = co.savedTiles := rfl
@[simp] theorem addSlot_ports (co : Coach) (x : Slot) : (addSlot co x).ports = co.ports := rfl
@[simp] theorem addSlot_inHandler (co : Coach) (x : Slot) : (addSlot co x).inHandler = co.inHandler := rfl
@[simp] theorem addSlot_rmask (co : Coach) (x : Slot) : (addSlot co x).rmask = co.rmask := rfl
@[simp] theorem addSlot_entryLanes (co : Coach) (x : Slot) : (addSlot co x).entryLanes = co.entryLanes := rfl
@[simp] theorem addSlot_heldStalls (co : Coach) (x : Slot) : (addSlot co x).heldStalls = co.heldStalls := rfl
@[simp] theorem addSlot_trap (co : Coach) (x : Slot) : (addSlot co x).trap = co.trap := rfl
@[simp] theorem addSlot_halted (co : Coach) (x : Slot) : (addSlot co x).halted = co.halted := rfl
@[simp] theorem addSlot_skid (co : Coach) (x : Slot) : (addSlot co x).skid = co.skid := rfl
@[simp] theorem addSlot_shadowDiff (co : Coach) (x : Slot) : (addSlot co x).shadowDiff = co.shadowDiff := rfl
@[simp] theorem addSlot_bundle (co : Coach) (x : Slot) : (addSlot co x).bundle = co.bundle := rfl
@[simp] theorem addSlot_ended (co : Coach) (x : Slot) : (addSlot co x).ended = co.ended := rfl
@[simp] theorem addSlot_remainder (co : Coach) (x : Slot) : (addSlot co x).remainder = co.remainder := rfl
@[simp] theorem addSlot_turnGranted (co : Coach) (x : Slot) : (addSlot co x).turnGranted = co.turnGranted := rfl
@[simp] theorem addSlot_waited (co : Coach) (x : Slot) : (addSlot co x).waited = co.waited := rfl
@[simp] theorem addSlot_returned (co : Coach) (x : Slot) : (addSlot co x).returned = co.returned := rfl
@[simp] theorem addSlot_out (co : Coach) (x : Slot) : (addSlot co x).out = co.out := rfl
@[simp] theorem addSlot_commitPush (co : Coach) (x : Slot) : (addSlot co x).commitPush = co.commitPush := rfl
@[simp] theorem addSlot_framed (co : Coach) (x : Slot) : (addSlot co x).framed = co.framed := rfl
@[simp] theorem addSlot_resume (co : Coach) (x : Slot) : (addSlot co x).resume = co.resume := rfl

@[simp] theorem mset_ctx (co : Coach) (k : Nat) (m : Mask) : (mset co k m).ctx = co.ctx := by unfold mset; split <;> rfl
@[simp] theorem mset_fslot (co : Coach) (k : Nat) (m : Mask) : (mset co k m).fslot = co.fslot := by unfold mset; split <;> rfl
@[simp] theorem mset_region (co : Coach) (k : Nat) (m : Mask) : (mset co k m).region = co.region := by unfold mset; split <;> rfl
@[simp] theorem mset_rake (co : Coach) (k : Nat) (m : Mask) : (mset co k m).rake = co.rake := by unfold mset; split <;> rfl
@[simp] theorem mset_idx (co : Coach) (k : Nat) (m : Mask) : (mset co k m).idx = co.idx := by unfold mset; split <;> rfl
@[simp] theorem mset_place (co : Coach) (k : Nat) (m : Mask) : (mset co k m).place = co.place := by unfold mset; split <;> rfl
@[simp] theorem mset_width (co : Coach) (k : Nat) (m : Mask) : (mset co k m).width = co.width := by unfold mset; split <;> rfl
@[simp] theorem mset_prot (co : Coach) (k : Nat) (m : Mask) : (mset co k m).prot = co.prot := by unfold mset; split <;> rfl
@[simp] theorem mset_plate (co : Coach) (k : Nat) (m : Mask) : (mset co k m).plate = co.plate := by unfold mset; split <;> rfl
@[simp] theorem mset_version (co : Coach) (k : Nat) (m : Mask) : (mset co k m).version = co.version := by unfold mset; split <;> rfl
@[simp] theorem mset_nregs (co : Coach) (k : Nat) (m : Mask) : (mset co k m).nregs = co.nregs := by unfold mset; split <;> rfl
@[simp] theorem mset_v (co : Coach) (k : Nat) (m : Mask) : (mset co k m).v = co.v := by unfold mset; split <;> rfl
@[simp] theorem mset_s (co : Coach) (k : Nat) (m : Mask) : (mset co k m).s = co.s := by unfold mset; split <;> rfl
@[simp] theorem mset_lanes (co : Coach) (k : Nat) (m : Mask) : (mset co k m).lanes = co.lanes := by unfold mset; split <;> rfl
@[simp] theorem mset_fmode (co : Coach) (k : Nat) (m : Mask) : (mset co k m).fmode = co.fmode := by unfold mset; split <;> rfl
@[simp] theorem mset_fstat (co : Coach) (k : Nat) (m : Mask) : (mset co k m).fstat = co.fstat := by unfold mset; split <;> rfl
@[simp] theorem mset_seed (co : Coach) (k : Nat) (m : Mask) : (mset co k m).seed = co.seed := by unfold mset; split <;> rfl
@[simp] theorem mset_rbuf (co : Coach) (k : Nat) (m : Mask) : (mset co k m).rbuf = co.rbuf := by unfold mset; split <;> rfl
@[simp] theorem mset_orderNext (co : Coach) (k : Nat) (m : Mask) : (mset co k m).orderNext = co.orderNext := by unfold mset; split <;> rfl
@[simp] theorem mset_fpeHeld (co : Coach) (k : Nat) (m : Mask) : (mset co k m).fpeHeld = co.fpeHeld := by unfold mset; split <;> rfl
@[simp] theorem mset_stalls (co : Coach) (k : Nat) (m : Mask) : (mset co k m).stalls = co.stalls := by unfold mset; split <;> rfl
@[simp] theorem mset_pair (co : Coach) (k : Nat) (m : Mask) : (mset co k m).pair = co.pair := by unfold mset; split <;> rfl
@[simp] theorem mset_leaseG (co : Coach) (k : Nat) (m : Mask) : (mset co k m).leaseG = co.leaseG := by unfold mset; split <;> rfl
@[simp] theorem mset_measured (co : Coach) (k : Nat) (m : Mask) : (mset co k m).measured = co.measured := by unfold mset; split <;> rfl
@[simp] theorem mset_est (co : Coach) (k : Nat) (m : Mask) : (mset co k m).est = co.est := by unfold mset; split <;> rfl
@[simp] theorem mset_mi (co : Coach) (k : Nat) (m : Mask) : (mset co k m).mi = co.mi := by unfold mset; split <;> rfl
@[simp] theorem mset_alloc (co : Coach) (k : Nat) (m : Mask) : (mset co k m).alloc = co.alloc := by unfold mset; split <;> rfl
@[simp] theorem mset_vh (co : Coach) (k : Nat) (m : Mask) : (mset co k m).vh = co.vh := by unfold mset; split <;> rfl
@[simp] theorem mset_active (co : Coach) (k : Nat) (m : Mask) : (mset co k m).active = co.active := by unfold mset; split <;> rfl
@[simp] theorem mset_admitted (co : Coach) (k : Nat) (m : Mask) : (mset co k m).admitted = co.admitted := by unfold mset; split <;> rfl
@[simp] theorem mset_waitSince (co : Coach) (k : Nat) (m : Mask) : (mset co k m).waitSince = co.waitSince := by unfold mset; split <;> rfl
@[simp] theorem mset_atHead (co : Coach) (k : Nat) (m : Mask) : (mset co k m).atHead = co.atHead := by unfold mset; split <;> rfl
@[simp] theorem mset_heldBack (co : Coach) (k : Nat) (m : Mask) : (mset co k m).heldBack = co.heldBack := by unfold mset; split <;> rfl
@[simp] theorem mset_idleSince (co : Coach) (k : Nat) (m : Mask) : (mset co k m).idleSince = co.idleSince := by unfold mset; split <;> rfl
@[simp] theorem mset_sliceStart (co : Coach) (k : Nat) (m : Mask) : (mset co k m).sliceStart = co.sliceStart := by unfold mset; split <;> rfl
@[simp] theorem mset_sliceExpired (co : Coach) (k : Nat) (m : Mask) : (mset co k m).sliceExpired = co.sliceExpired := by unfold mset; split <;> rfl
@[simp] theorem mset_openBatch (co : Coach) (k : Nat) (m : Mask) : (mset co k m).openBatch = co.openBatch := by unfold mset; split <;> rfl
@[simp] theorem mset_sealed_ (co : Coach) (k : Nat) (m : Mask) : (mset co k m).sealed_ = co.sealed_ := by unfold mset; split <;> rfl
@[simp] theorem mset_batchCount (co : Coach) (k : Nat) (m : Mask) : (mset co k m).batchCount = co.batchCount := by unfold mset; split <;> rfl
@[simp] theorem mset_cpyCount (co : Coach) (k : Nat) (m : Mask) : (mset co k m).cpyCount = co.cpyCount := by unfold mset; split <;> rfl
@[simp] theorem mset_zones (co : Coach) (k : Nat) (m : Mask) : (mset co k m).zones = co.zones := by unfold mset; split <;> rfl
@[simp] theorem mset_zoneCount (co : Coach) (k : Nat) (m : Mask) : (mset co k m).zoneCount = co.zoneCount := by unfold mset; split <;> rfl
@[simp] theorem mset_zcause (co : Coach) (k : Nat) (m : Mask) : (mset co k m).zcause = co.zcause := by unfold mset; split <;> rfl
@[simp] theorem mset_zinfo (co : Coach) (k : Nat) (m : Mask) : (mset co k m).zinfo = co.zinfo := by unfold mset; split <;> rfl
@[simp] theorem mset_cfgs (co : Coach) (k : Nat) (m : Mask) : (mset co k m).cfgs = co.cfgs := by unfold mset; split <;> rfl
@[simp] theorem mset_savedTiles (co : Coach) (k : Nat) (m : Mask) : (mset co k m).savedTiles = co.savedTiles := by unfold mset; split <;> rfl
@[simp] theorem mset_ports (co : Coach) (k : Nat) (m : Mask) : (mset co k m).ports = co.ports := by unfold mset; split <;> rfl
@[simp] theorem mset_inHandler (co : Coach) (k : Nat) (m : Mask) : (mset co k m).inHandler = co.inHandler := by unfold mset; split <;> rfl
@[simp] theorem mset_rmask (co : Coach) (k : Nat) (m : Mask) : (mset co k m).rmask = co.rmask := by unfold mset; split <;> rfl
@[simp] theorem mset_entryLanes (co : Coach) (k : Nat) (m : Mask) : (mset co k m).entryLanes = co.entryLanes := by unfold mset; split <;> rfl
@[simp] theorem mset_heldStalls (co : Coach) (k : Nat) (m : Mask) : (mset co k m).heldStalls = co.heldStalls := by unfold mset; split <;> rfl
@[simp] theorem mset_trap (co : Coach) (k : Nat) (m : Mask) : (mset co k m).trap = co.trap := by unfold mset; split <;> rfl
@[simp] theorem mset_halted (co : Coach) (k : Nat) (m : Mask) : (mset co k m).halted = co.halted := by unfold mset; split <;> rfl
@[simp] theorem mset_skid (co : Coach) (k : Nat) (m : Mask) : (mset co k m).skid = co.skid := by unfold mset; split <;> rfl
@[simp] theorem mset_shadowDiff (co : Coach) (k : Nat) (m : Mask) : (mset co k m).shadowDiff = co.shadowDiff := by unfold mset; split <;> rfl
@[simp] theorem mset_bundle (co : Coach) (k : Nat) (m : Mask) : (mset co k m).bundle = co.bundle := by unfold mset; split <;> rfl
@[simp] theorem mset_ended (co : Coach) (k : Nat) (m : Mask) : (mset co k m).ended = co.ended := by unfold mset; split <;> rfl
@[simp] theorem mset_remainder (co : Coach) (k : Nat) (m : Mask) : (mset co k m).remainder = co.remainder := by unfold mset; split <;> rfl
@[simp] theorem mset_turnGranted (co : Coach) (k : Nat) (m : Mask) : (mset co k m).turnGranted = co.turnGranted := by unfold mset; split <;> rfl
@[simp] theorem mset_waited (co : Coach) (k : Nat) (m : Mask) : (mset co k m).waited = co.waited := by unfold mset; split <;> rfl
@[simp] theorem mset_returned (co : Coach) (k : Nat) (m : Mask) : (mset co k m).returned = co.returned := by unfold mset; split <;> rfl
@[simp] theorem mset_out (co : Coach) (k : Nat) (m : Mask) : (mset co k m).out = co.out := by unfold mset; split <;> rfl
@[simp] theorem mset_commitPush (co : Coach) (k : Nat) (m : Mask) : (mset co k m).commitPush = co.commitPush := by unfold mset; split <;> rfl
@[simp] theorem mset_framed (co : Coach) (k : Nat) (m : Mask) : (mset co k m).framed = co.framed := by unfold mset; split <;> rfl
@[simp] theorem mset_resume (co : Coach) (k : Nat) (m : Mask) : (mset co k m).resume = co.resume := by unfold mset; split <;> rfl

end Sys2Proof.Laws
end

