-- ==== Sys2Proof/Laws/Table.lean ====
section
/-! SUPPORT. Reading a sparse table after it is changed. -/
namespace Sys2Proof.Laws
open Sys2Proof.Machine

theorem tget_tput {α : Type} (t : Tbl α) (k j : Nat) (v : α) :
    tget (tput t k v) j = if k = j then some v else tget t j := by
  induction t with
  | nil => simp [tput, tget]
  | cons e t ih =>
    obtain ⟨a, w⟩ := e
    unfold tput
    split
    · simp [tget]
    · split
      · next h => subst h; simp only [tget]; split <;> rfl
      · simp only [tget, ih]
        split <;> split <;> simp_all

@[simp] theorem tget_tput_self {α : Type} (t : Tbl α) (k : Nat) (v : α) : tget (tput t k v) k = some v := by
  simp [tget_tput]

theorem tget_tput_ne {α : Type} (t : Tbl α) {k j : Nat} (v : α) (h : k ≠ j) : tget (tput t k v) j = tget t j := by
  simp [tget_tput, h]

@[simp] theorem tgetD_tput_self {α : Type} (d : α) (t : Tbl α) (k : Nat) (v : α) : tgetD d (tput t k v) k = v := by
  simp [tgetD]

theorem tget_tdel {α : Type} (t : Tbl α) (k j : Nat) : tget (tdel t k) j = if k = j then none else tget t j := by
  induction t with
  | nil => simp [tdel, tget]
  | cons e t ih =>
    obtain ⟨a, w⟩ := e
    unfold tdel at *
    simp only [List.filter_cons]
    split
    · next h => simp only [tget, ih]; split <;> split <;> simp_all
    · next h => simp only [tget, ih]; simp at h; split <;> simp_all

theorem tgetD_tset {α : Type} [DecidableEq α] (d : α) (t : Tbl α) (k j : Nat) (v : α) :
    tgetD d (tset d t k v) j = if k = j then v else tgetD d t j := by
  unfold tset tgetD
  split
  · next h => rw [tget_tdel]; split <;> simp [h]
  · rw [tget_tput]; split <;> simp

@[simp] theorem tput_tput {α : Type} (t : Tbl α) (k : Nat) (v w : α) : tput (tput t k v) k w = tput t k w := by
  induction t with
  | nil => simp [tput]
  | cons e t ih =>
    obtain ⟨a, x⟩ := e
    by_cases h1 : k < a
    · simp [tput, h1]
    · by_cases h2 : a = k
      · subst h2; simp [tput]
      · simp [tput, h1, h2, ih]

theorem tput_self {α : Type} (t : Tbl α) (k : Nat) (v : α) (h : tsorted t = true) (hv : tget t k = some v) :
    tput t k v = t := by
  induction t with
  | nil => simp [tget] at hv
  | cons e t ih =>
    obtain ⟨a, x⟩ := e
    unfold tput
    simp only [tget] at hv
    have hst : tsorted t = true := by cases t <;> simp_all [tsorted]
    have habove : ∀ (u : Tbl α), tsorted ((a, x) :: u) = true → ∀ j w, tget u j = some w → a < j := by
      intro u
      induction u generalizing a x with
      | nil => intro _ j w hj; simp [tget] at hj
      | cons f u ihu =>
        obtain ⟨b, y⟩ := f
        intro hs j w hj
        simp only [tsorted, Bool.and_eq_true, decide_eq_true_eq] at hs
        simp only [tget] at hj
        split at hj
        · omega
        · have : tsorted ((a, x) :: u) = true := by
            cases u with
            | nil => rfl
            | cons g u =>
              obtain ⟨c, z⟩ := g
              simp only [tsorted, Bool.and_eq_true, decide_eq_true_eq] at hs ⊢
              exact ⟨by omega, hs.2.2⟩
          have hs2 := hs.2
          clear ihu
          revert hs2 hj
          intro hj2 hs2
          have hlt := hs.1
          clear this
          -- the tail is sorted above b
          have : ∀ (q : Tbl α) (b : Nat) (y : α), tsorted ((b, y) :: q) = true → ∀ j w, tget q j = some w → b < j := by
            intro q
            induction q with
            | nil => intro b y _ j w hj; simp [tget] at hj
            | cons g q ihq =>
              intro b y hq j w hj
              obtain ⟨c, z⟩ := g
              simp only [tsorted, Bool.and_eq_true, decide_eq_true_eq] at hq
              simp only [tget] at hj
              split at hj
              · omega
              · have := ihq c z hq.2 j w hj; omega
          have := this u b y hs.2 j w ‹_›
          omega
    split at hv
    · next hk =>
      subst hk
      have hx : x = v := by simpa using hv
      subst hx
      simp
    · next hk =>
      have := habove t h k v hv
      rw [if_neg (by omega), if_neg hk, ih hst hv]

theorem tget_tmod {α : Type} (t : Tbl α) (k j : Nat) (f : α → α) :
    tget (tmod t k f) j = if k = j then (tget t j).map f else tget t j := by
  unfold tmod
  split
  · next v h => rw [tget_tput]; split <;> simp_all
  · next h => split <;> simp_all

@[simp] theorem tmod_of_tget {α : Type} (t : Tbl α) (k : Nat) (f : α → α) (v : α) (h : tget t k = some v) :
    tmod t k f = tput t k (f v) := by simp [tmod, h]

end Sys2Proof.Laws
end

