-- ==== Sys2Proof/Laws/Native.lean ====
section
/-! SUPPORT. What an operation that issues with nothing in its way does: its own effect, and what a lane operation leaves. -/
namespace Sys2Proof.Laws
open Sys2Proof.Machine

/-- What `clear` says. -/
theorem clear_spec {s : State} {i : Instr} {w : NOp} {sp : OpSpec} (h : clear s i = true)
    (hr : nativeRow s i = some (w, sp)) :
    tget s.coaches s.iss.coach = some (me s) ∧ decodeCheck sp w (me s).nregs (qBound s (me s)) = none ∧ enOf s w ≠ 0
      ∧ sourceQueues sp w = [] ∧ (w.sw = true → (me s).rbuf = [])
      ∧ (sp.long = true → slotsUsed (me s) + costOf sp w ≤ 16) ∧ (me s).fpeHeld = []
      ∧ (isDet s (me s) && !pushRoom s (me s) sp w) = false := by
  unfold clear at h
  rw [hr] at h
  cases hc : tget s.coaches s.iss.coach with
  | none => simp [hc] at h
  | some co =>
    have hm : me s = co := by simp [me, coachOf, tgetD, hc]
    rw [hc] at h
    simp only [Bool.and_eq_true, decide_eq_true_eq, Bool.or_eq_true, Bool.not_eq_true', List.isEmpty_iff] at h
    obtain ⟨⟨⟨⟨⟨⟨h1, h2⟩, h3⟩, h4⟩, h5⟩, h6⟩, h7⟩ := h
    have e2 : enOf s w = enabledOf co w s.iss.group := by rw [← hm]
    refine ⟨by rw [hm], by rw [hm]; exact h1, by rw [e2]; exact h2, h3, ?_, ?_, by rw [hm]; exact h6, ?_⟩
    · intro hw; rw [hm]; cases h4 with
      | inl h => simp [hw] at h
      | inr h => exact h
    · intro hw; rw [hm]; cases h5 with
      | inl h => simp [hw] at h
      | inr h => exact h
    · rw [hm]; rcases h7 with h | h <;> simp [h]

/-- An operation with nothing in its way has its own effect at once. -/
theorem native_of_clear {s : State} {i : Instr} {w : NOp} {sp : OpSpec} (h : clear s i = true)
    (hr : nativeRow s i = some (w, sp)) (body : OpCtx → State → State) :
    native w sp body s = body (opCtx s w sp) s := by
  obtain ⟨-, h1, h2, h3, h4, h5, -, h6⟩ := clear_spec h hr
  have hl : isLong sp w = sp.long := by simp [isLong, h3]
  have hm : (if w.sw = true then markerCommit s s.iss.coach s.iss s.iss.group else .go s) = .go s := by
    split
    · next hw =>
      have hb : (coachOf s s.iss.coach).rbuf = [] := h4 hw
      simp [markerCommit, hb]
    · rfl
  have hc : (sp.long && decide (16 < slotsUsed (coachOf s s.iss.coach) + costOf sp w)) = false := by
    cases hl' : sp.long with
    | false => rfl
    | true => have : slotsUsed (coachOf s s.iss.coach) + costOf sp w ≤ 16 := h5 hl'
              simp; omega
  have h2' : ¬ enabledOf (coachOf s s.iss.coach) w s.iss.group = 0 := h2
  have h1' : decodeCheck sp w (coachOf s s.iss.coach).nregs (qBound s (coachOf s s.iss.coach)) = none := h1
  have h6' : (isDet s (coachOf s s.iss.coach) && !pushRoom s (coachOf s s.iss.coach) sp w) = false := h6
  unfold native
  simp only [h1', hm, h2', hl, hc, h6', if_false, h3, List.isEmpty_nil, if_true, Bool.false_eq_true]

/-- With no popped entry, a source is a register's value. -/
theorem readOp_opCtx (s : State) (w : NOp) (sp : OpSpec) (co : Coach) (code : Nat) (pair : Bool) (l : Nat) :
    readOp (opCtx s w sp) co code pair l = regVal co code pair l := by
  have hw : ∀ j, readWord (opCtx s w sp) co code j l = regWord co code j l := by
    intro j; unfold readWord regWord; cases codeOf code <;> simp [tget]
  simp [readOp, regVal, hw]

@[simp] theorem srcA_opCtx (s : State) (w : NOp) (sp : OpSpec) (co : Coach) (pair : Bool) (l : Nat) :
    srcA (opCtx s w sp) co pair l = aVal co w pair l := readOp_opCtx ..
@[simp] theorem srcB_opCtx (s : State) (w : NOp) (sp : OpSpec) (co : Coach) (pair : Bool) (imm : Dword) (l : Nat) :
    srcB (opCtx s w sp) co pair imm l = bVal co w pair imm l := by
  show (if fI w then imm else readOp (opCtx s w sp) co (fB w) pair l) = _
  rw [readOp_opCtx]; rfl
@[simp] theorem srcC_opCtx (s : State) (w : NOp) (sp : OpSpec) (co : Coach) (pair : Bool) (l : Nat) :
    srcC (opCtx s w sp) co pair l = cVal co w pair l := readOp_opCtx ..

/-- A lane register after one write. -/
theorem vget_vset (co : Coach) (r l q m : Nat) (x : Word) (hl : l < 64) (hm : m < 64) :
    vget (vset co r l x) q m = if q = r ∧ m = l then x else vget co q m := by
  unfold vget vset
  simp only [tgetD_tset]
  by_cases h : q = r ∧ m = l
  · obtain ⟨rfl, rfl⟩ := h; simp
  · rw [if_neg h, if_neg (by omega)]

theorem sget_sset (co : Coach) (r q : Nat) (x : Word) : sget (sset co r x) q = if q = r then x else sget co q := by
  unfold sget sset
  simp only [tgetD_tset]
  by_cases h : q = r
  · simp [h]
  · rw [if_neg h, if_neg (fun e => h e.symm)]

@[simp] theorem vget_sset (co : Coach) (r q l : Nat) (x : Word) : vget (sset co r x) q l = vget co q l := rfl
@[simp] theorem sget_vset (co : Coach) (r l q : Nat) (x : Word) : sget (vset co r l x) q = sget co q := rfl

/-- Writing words changes only the lane and scalar registers. -/
theorem foldl_vset_frame (l : Tbl Word) (co : Coach) :
    ∃ v, l.foldl (fun co w => vset co (w.1 / 64) (w.1 % 64) w.2) co = { co with v := v } := by
  induction l generalizing co with
  | nil => exact ⟨co.v, rfl⟩
  | cons e l ih =>
    obtain ⟨v, h⟩ := ih (vset co (e.1 / 64) (e.1 % 64) e.2)
    exact ⟨v, by simpa [List.foldl_cons, vset] using h⟩

theorem foldl_sset_frame (l : Tbl Word) (co : Coach) :
    ∃ v, l.foldl (fun co w => sset co w.1 w.2) co = { co with s := v } := by
  induction l generalizing co with
  | nil => exact ⟨co.s, rfl⟩
  | cons e l ih =>
    obtain ⟨v, h⟩ := ih (sset co e.1 e.2)
    exact ⟨v, by simpa [List.foldl_cons, sset] using h⟩

theorem putWords_frame (co : Coach) (vw sw : Tbl Word) : ∃ v x, putWords co vw sw = { co with v := v, s := x } := by
  obtain ⟨v, hv⟩ := foldl_vset_frame vw co
  obtain ⟨x, hx⟩ := foldl_sset_frame sw { co with v := v }
  exact ⟨v, x, by unfold putWords; simp only [hv]; exact hx⟩

/-- Lane registers after a list of writes of distinct words. -/
theorem vget_foldl (l : Tbl Word) (co : Coach) (q m : Nat) (hm : m < 64) :
    vget (l.foldl (fun co w => vset co (w.1 / 64) (w.1 % 64) w.2) co) q m
      = ((l.reverse.find? (fun w => w.1 == 64 * q + m)).map Prod.snd).getD (vget co q m) := by
  induction l generalizing co with
  | nil => rfl
  | cons e l ih =>
    rw [List.foldl_cons, ih, List.reverse_cons, List.find?_append]
    cases hf : l.reverse.find? (fun w => w.1 == 64 * q + m) with
    | some x => simp
    | none =>
      simp only [Option.map_none, Option.getD_none, Option.none_or]
      rw [vget_vset _ _ _ _ _ _ (Nat.mod_lt _ (by decide)) hm]
      by_cases h : e.1 = 64 * q + m
      · rw [if_pos (by omega)]; simp [h]
      · rw [if_neg (by omega)]; simp [h]

theorem sget_foldl (l : Tbl Word) (co : Coach) (q : Nat) :
    sget (l.foldl (fun co w => sset co w.1 w.2) co) q
      = ((l.reverse.find? (fun w => w.1 == q)).map Prod.snd).getD (sget co q) := by
  induction l generalizing co with
  | nil => rfl
  | cons e l ih =>
    rw [List.foldl_cons, ih, List.reverse_cons, List.find?_append]
    cases hf : l.reverse.find? (fun w => w.1 == q) with
    | some x => simp
    | none =>
      simp only [Option.map_none, Option.getD_none, Option.none_or]
      rw [sget_sset]
      by_cases h : e.1 = q
      · rw [if_pos (by omega)]; simp [h]
      · rw [if_neg (by omega)]; simp [h]

@[simp] theorem sget_foldl_vset (l : Tbl Word) (co : Coach) (q : Nat) :
    sget (l.foldl (fun co w => vset co (w.1 / 64) (w.1 % 64) w.2) co) q = sget co q := by
  obtain ⟨v, h⟩ := foldl_vset_frame l co; rw [h]; rfl
@[simp] theorem vget_foldl_sset (l : Tbl Word) (co : Coach) (q m : Nat) :
    vget (l.foldl (fun co w => sset co w.1 w.2) co) q m = vget co q m := by
  obtain ⟨v, h⟩ := foldl_sset_frame l co; rw [h]; rfl

/-- A list of writes whose keys are distinct gives each key its own value. -/
theorem find_reverse {l : Tbl Word} {k : Nat} {x : Word} (hmem : (k, x) ∈ l)
    (huniq : ∀ y, (k, y) ∈ l → y = x) : (l.reverse.find? (fun w => w.1 == k)).map Prod.snd = some x := by
  cases hf : l.reverse.find? (fun w => w.1 == k) with
  | none =>
    have := List.find?_eq_none.mp hf (k, x) (by simpa using hmem)
    simp at this
  | some e =>
    have h1 := List.find?_some hf
    have h2 : e ∈ l := by simpa using List.mem_of_find?_eq_some hf
    obtain ⟨a, b⟩ := e
    simp only [beq_iff_eq] at h1
    subst h1
    simp [huniq b h2]

theorem find_reverse_none {l : Tbl Word} {k : Nat} (h : ∀ y, (k, y) ∉ l) :
    l.reverse.find? (fun w => w.1 == k) = none := by
  rw [List.find?_eq_none]
  intro e he
  obtain ⟨a, b⟩ := e
  simp only [beq_iff_eq]
  intro hk; subst hk
  exact h b (by simpa using he)

theorem mem_lanesOf {m : Mask} {l : Nat} : l ∈ lanesOf m ↔ l < 64 ∧ m.getLsbD l = true := by
  simp [lanesOf]

/-- Lane registers after D is written. -/
theorem vget_laneWrites (co : Coach) (d n : Nat) (en : Mask) (val : Nat → Nat → Word) (sw : Tbl Word) (q m : Nat)
    (hm : m < 64) :
    vget (putWords co (laneWrites d n en val) sw) q m = laneAfter co (codeOf d) n en val q m := by
  unfold putWords
  simp only [vget_foldl_sset]
  rw [vget_foldl _ _ _ _ hm]
  unfold laneAfter laneWrites
  generalize codeOf d = cd
  cases cd with
  | v r =>
    simp only []
    split
    · next hc =>
      obtain ⟨h1, h2, h3⟩ := hc
      rw [find_reverse (x := val m (q - r))]
      · rfl
      · simp only [List.mem_flatMap, List.mem_range, List.mem_map, mem_lanesOf]
        exact ⟨q - r, by omega, m, ⟨hm, h3⟩, by rw [show r + (q - r) = q by omega]⟩
      · intro y hy
        simp only [List.mem_flatMap, List.mem_range, List.mem_map, mem_lanesOf, Prod.mk.injEq] at hy
        obtain ⟨j, hj, l, ⟨hl, -⟩, hk, hv⟩ := hy
        have h5 : l = m := by omega
        have h6 : j = q - r := by omega
        rw [← hv, h5, h6]
    · next hc =>
      rw [find_reverse_none]
      · rfl
      · intro y hy
        simp only [List.mem_flatMap, List.mem_range, List.mem_map, mem_lanesOf, Prod.mk.injEq] at hy
        obtain ⟨j, hj, l, ⟨hl, he⟩, hk, hv⟩ := hy
        have h5 : l = m := by omega
        subst h5
        exact hc ⟨by omega, by omega, he⟩
  | s _ => rfl
  | q _ => rfl
  | z => rfl
  | bad => rfl

/-- Scalar registers after D is written. -/
theorem sget_scalarWrites (co : Coach) (d n : Nat) (en : Mask) (val : Nat → Nat → Word) (vw : Tbl Word) (q : Nat) :
    sget (putWords co vw (scalarWrites d n en val)) q = scalarAfter co (codeOf d) n en val q := by
  unfold putWords
  simp only []
  rw [sget_foldl, sget_foldl_vset]
  unfold scalarAfter scalarWrites
  generalize codeOf d = cd
  cases hlw : lowLane en with
  | none => cases cd <;> rfl
  | some l =>
    cases cd with
    | s r =>
      simp only []
      split
      · next hc =>
        rw [find_reverse (x := val l (q - r))]
        · rfl
        · simp only [List.mem_map, List.mem_range]
          exact ⟨q - r, by omega, by rw [show r + (q - r) = q by omega]⟩
        · intro y hy
          simp only [List.mem_map, List.mem_range, Prod.mk.injEq] at hy
          obtain ⟨j, hj, hk, hv⟩ := hy
          have h6 : j = q - r := by omega
          rw [← hv, h6]
      · next hc =>
        rw [find_reverse_none]
        · rfl
        · intro y hy
          simp only [List.mem_map, List.mem_range, Prod.mk.injEq] at hy
          obtain ⟨j, hj, hk, -⟩ := hy
          exact hc (by omega)
    | v _ => rfl
    | q _ => rfl
    | z => rfl
    | bad => rfl

/-- With no FPE held, none is held for a group. -/
theorem heldFpe_nil {co : Coach} (h : co.fpeHeld = []) (grp : Mask) (ga : GAddr) : heldFpe co grp ga = ([], []) := by
  unfold heldFpe; rw [h]; rfl

/-- With no FPE held, the last operation of an expansion releases none. -/
theorem releaseFpe_nil {s : State} {k : Nat} {i : Iss} (h : (coachOf s k).fpeHeld = []) : releaseFpe s k i = s := by
  unfold releaseFpe
  split
  · rfl
  · simp only [heldFpe_nil h]

/-- The group passes and no FPE is due. -/
theorem finishGroup_of_none (s : State) (w : NOp) (sp : OpSpec) (co : Coach) (h : co.fpeHeld = []) :
    finishGroup (opCtx s w sp) { s with coaches := tput s.coaches s.iss.coach co }
      = { s with coaches := tput s.coaches s.iss.coach (passLanes co s.iss s.iss.group) } := by
  have hp : (passLanes co s.iss s.iss.group).fpeHeld = [] := by rw [passLanes_fpeHeld]; exact h
  have e : modCoach { s with coaches := tput s.coaches s.iss.coach co } s.iss.coach
      (fun c => passLanes c s.iss s.iss.group)
      = { s with coaches := tput s.coaches s.iss.coach (passLanes co s.iss s.iss.group) } := by
    simp [modCoach, tmod]
  show releaseFpe (modCoach _ _ _) _ _ = _
  rw [e]
  exact releaseFpe_nil (by simp only [coachOf, tgetD_tput_self, hp])

theorem pushEntry_none {s : State} {co : Coach} {w : NOp} {en : Mask} {val : Nat → Nat → Word}
    (h : noQueue w = true) : pushEntry s co (fD w) en val = none := by
  unfold noQueue at h; unfold pushEntry; split
  · next r hr => simp [hr] at h
  · rfl

theorem shadowPush_false {s : State} {co : Coach} {w : NOp} {m : Mask} (h : noQueue w = true) :
    shadowPush s co (fD w) m = false := by
  unfold noQueue at h; unfold shadowPush; split
  · next r hr => simp [hr] at h
  · rfl

/-- Flags that enable no FPE are only recorded. -/
theorem raiseFlags_of_none {co : Coach} {i : Iss} {fl : List Mask} (h : enabledBits co.fmode fl = 0) :
    raiseFlags co i fl = { co with fstat := co.fstat ||| BitVec.ofNat 32 (flagWord fl) } := by
  unfold raiseFlags; simp [h]

/-- WHAT A FIXED-LATENCY LANE OPERATION LEAVES. -/
theorem deliver_lane {s : State} {w : NOp} {sp : OpSpec} {wide : Bool} {f : Nat → Dword × Flags}
    (hlong : sp.long = false) (hq : noQueue w = true) (hf : (me s).fpeHeld = [])
    (hfl : enabledBits (me s).fmode (laneFlags (enOf s w) (fun l => (f l).2)) = 0) :
    ∃ co', deliver (opCtx s w sp) wide f s = { s with coaches := tput s.coaches s.iss.coach co' }
      ∧ LaneResult s { s with coaches := tput s.coaches s.iss.coach co' } w (regsOf wide)
        (fun l j => resWord (f l).1 j) (flagBits (enOf s w) f) co' := by
  let val : Nat → Nat → Word := fun l j => resWord (f l).1 j
  let fl := laneFlags (enOf s w) (fun l => (f l).2)
  let co1 := putWords (me s) (laneWrites (fD w) (regsOf wide) (enOf s w) val)
    (scalarWrites (fD w) (regsOf wide) (enOf s w) val)
  obtain ⟨v, x, hco⟩ := putWords_frame (me s) (laneWrites (fD w) (regsOf wide) (enOf s w) val)
    (scalarWrites (fD w) (regsOf wide) (enOf s w) val)
  have hco : co1 = { me s with v := v, s := x } := hco
  have hmode : co1.fmode = (me s).fmode := by rw [hco]
  let co2 : Coach := { co1 with fstat := co1.fstat ||| BitVec.ofNat 32 (flagWord fl) }
  have hdel : deliver (opCtx s w sp) wide f s
      = { s with coaches := tput s.coaches s.iss.coach (passLanes co2 s.iss s.iss.group) } := by
    show deliverTo (opCtx s w sp) (enOf s w) (regsOf wide) val fl s = _
    unfold deliverTo
    have e1 : shadowPush s (coachOf s (opCtx s w sp).k) (fD (opCtx s w sp).w) (enOf s w) = false := shadowPush_false hq
    have e3 : pushEntry s (coachOf s (opCtx s w sp).k) (fD (opCtx s w sp).w) (enOf s w) val = none := pushEntry_none hq
    simp only [e1, e3, hlong, Bool.false_and, if_false, Bool.false_eq_true]
    rw [raiseFlags_of_none (by show enabledBits co1.fmode fl = 0; rw [hmode]; exact hfl)]
    exact finishGroup_of_none s w sp co2 (by show co1.fpeHeld = []; rw [hco]; exact hf)
  refine ⟨passLanes co2 s.iss s.iss.group, hdel, rfl, ?_, ?_, ?_⟩
  · intro r l hl
    exact vget_laneWrites (me s) (fD w) (regsOf wide) (enOf s w) val _ r l hl
  · intro r
    exact sget_scalarWrites (me s) (fD w) (regsOf wide) (enOf s w) val _ r
  · have hst : flagBits (enOf s w) f = flagWord fl := rfl
    have h1 : passLanes co2 s.iss s.iss.group = { me s with v := v, s := x
                                                            lanes := (passLanes co2 s.iss s.iss.group).lanes
                                                            fstat := (me s).fstat ||| BitVec.ofNat 32 (flagWord fl) } := by
      show passLanes co2 s.iss s.iss.group = _
      unfold passLanes modLanes
      simp only [co2, hco]
    have h2 : (passLanes co2 s.iss s.iss.group).lanes = (passLanes (me s) s.iss s.iss.group).lanes := by
      unfold passLanes modLanes
      simp only [co2, hco]
    rw [hst]
    conv => lhs; rw [h1]
    rw [h2]
    have hv : (passLanes co2 s.iss s.iss.group).v = v := by show co1.v = v; rw [hco]
    have hx : (passLanes co2 s.iss s.iss.group).s = x := by show co1.s = x; rw [hco]
    rw [hv, hx]

/-- No flag is raised: nothing is enabled. -/
theorem laneFlags_zero (en : Mask) : laneFlags en (fun _ => 0) = noFlags := by
  have : maskOf (fun _ => false) = 0 := by decide
  simp [laneFlags, noFlags, this, List.range_succ]

theorem enabledBits_noFlags (m : Word) : enabledBits m noFlags = 0 := by
  have : flagWord noFlags = 0 := by decide
  simp [enabledBits, this]

/-- A LANE OPERATION WITHOUT FLAGS COMPLETES. -/
theorem laneOp_gives {s : State} {i : Instr} {w : NOp} {sp : OpSpec} {wide : Bool}
    {f : OpCtx → Coach → Nat → Dword × Flags} {g : Nat → Dword} (he : exec i s = .next (laneOp w sp wide f s))
    (h : clear s i = true) (hr : nativeRow s i = some (w, sp)) (hlong : sp.long = false) (hq : noQueue w = true)
    (hg : ∀ l, f (opCtx s w sp) (me s) l = (g l, 0)) : Gives s i w wide g := by
  have hf := (clear_spec h hr).2.2.2.2.2.2.1
  have hfun : f (opCtx s w sp) (me s) = fun l => (g l, (0 : Flags)) := funext hg
  have hfl : enabledBits (me s).fmode (laneFlags (enOf s w) (fun l => (((g l, 0) : Dword × Flags)).2)) = 0 := by
    show enabledBits _ (laneFlags _ (fun _ => 0)) = 0
    rw [laneFlags_zero, enabledBits_noFlags]
  obtain ⟨co', h1, h2⟩ := deliver_lane (wide := wide) (f := fun l => (g l, 0)) hlong hq hf hfl
  have hz : flagBits (enOf s w) (fun l => ((g l, 0) : Dword × Flags)) = 0 := by
    show flagWord (laneFlags _ (fun _ => 0)) = 0
    rw [laneFlags_zero]; decide
  rw [hz] at h2
  refine ⟨_, co', ?_, h2⟩
  rw [he, laneOp, native_of_clear h hr]
  show Host.Outcome.next (deliver (opCtx s w sp) wide (f (opCtx s w sp) (me s)) s) = _
  rw [hfun, h1]

/-- A lane operation with flags, none of which is enabled, completes. -/
theorem native_givesF {s : State} {i : Instr} {w : NOp} {sp : OpSpec} {wide : Bool}
    {f : OpCtx → State → Nat → Dword × Flags} {g : Nat → Dword × Flags}
    (he : exec i s = .next (native w sp (fun c s => deliver c wide (f c s) s) s))
    (h : clear s i = true) (hr : nativeRow s i = some (w, sp)) (hlong : sp.long = false) (hq : noQueue w = true)
    (hen : field (me s).fmode.toNat 10 5 = 0) (hg : ∀ l, f (opCtx s w sp) s l = g l) : GivesF s i w wide g := by
  have hf := (clear_spec h hr).2.2.2.2.2.2.1
  have hfun : f (opCtx s w sp) s = g := funext hg
  have hfl : enabledBits (me s).fmode (laneFlags (enOf s w) (fun l => (g l).2)) = 0 := by simp [enabledBits, hen]
  obtain ⟨co', h1, h2⟩ := deliver_lane (wide := wide) (f := g) hlong hq hf hfl
  refine ⟨_, co', ?_, h2⟩
  rw [he, native_of_clear h hr]
  show Host.Outcome.next (deliver (opCtx s w sp) wide (f (opCtx s w sp) s) s) = _
  rw [hfun, h1]

/-- A long operation completes with its slot outstanding. -/
theorem native_givesLong {s : State} {i : Instr} {w : NOp} {sp : OpSpec} {wide : Bool}
    {f : OpCtx → State → Nat → Dword × Flags} {g : Nat → Dword × Flags}
    (he : exec i s = .next (native w sp (fun c s => deliver c wide (f c s) s) s))
    (h : clear s i = true) (hr : nativeRow s i = some (w, sp)) (hlong : sp.long = true) (hq : noQueue w = true)
    (hg : ∀ l, f (opCtx s w sp) s l = g l) : GivesLong s i w wide g := by
  have hs := clear_spec h hr
  have hf := hs.2.2.2.2.2.2.1
  have hne : (enOf s w == 0) = false := by simpa using hs.2.2.1
  have hfun : f (opCtx s w sp) s = g := funext hg
  unfold GivesLong
  rw [he, native_of_clear h hr]
  show Host.Outcome.next (deliver (opCtx s w sp) wide (f (opCtx s w sp) s) s) = _
  rw [hfun]
  unfold deliver deliverTo
  have e1 : shadowPush s (coachOf s (opCtx s w sp).k) (fD (opCtx s w sp).w) (enOf s w) = false := shadowPush_false hq
  have e3 : pushEntry s (coachOf s (opCtx s w sp).k) (fD (opCtx s w sp).w) (enOf s w)
      (fun l j => if j = 0 then loOf (g l).1 else hiOf (g l).1) = none := pushEntry_none hq
  have hne' : (enabledOf (coachOf s s.iss.coach) w s.iss.group == 0) = false := hne
  simp only [e1, hlong, hne', Bool.and_false, if_false, Bool.false_eq_true, if_true]
  refine congrArg Host.Outcome.next ?_
  have e3' := e3
  simp only [] at e3'
  rw [e3']
  exact finishGroup_of_none s w sp (addSlot (me s) (slotFor s w _ _ _ _)) (by simpa using hf)

end Sys2Proof.Laws
end

