-- ==== Sys2Proof/Laws/Access.lean ====
section
/-! SUPPORT. The checks of accesses when nothing stands in their way, and the end of an operation whose coach holds no FPE. -/
namespace Sys2Proof.Laws
open Sys2Proof.Machine

theorem maskOf_false {f : Nat → Bool} (h : ∀ l, f l = false) : maskOf f = 0 := by
  have : f = fun _ => false := funext h
  subst this; decide

/-- Every address passes: no check stops the access. -/
theorem checkAccess_none {c : OpCtx} {s : State} {addrs : List (Nat × Nat)} {out : Nat → Bool} {n : Nat}
    (h : addrs.all (fun a => !out a.2 && a.2 % n == 0) = true) : checkAccess c s addrs out n = none := by
  simp only [List.all_eq_true, Bool.and_eq_true, Bool.not_eq_true', beq_iff_eq] at h
  have h1 : lanesWhere addrs out = 0 := by
    apply maskOf_false
    intro l
    simp only [List.any_eq_false, Bool.and_eq_true, beq_iff_eq, not_and, Bool.not_eq_true]
    intro a ha _
    exact (h a ha).1
  have h2 : lanesWhere addrs (fun x => x % n != 0) = 0 := by
    apply maskOf_false
    intro l
    simp only [List.any_eq_false, Bool.and_eq_true, beq_iff_eq, not_and, bne_iff_ne]
    intro a ha _ hne
    exact hne (h a ha).2
  simp [checkAccess, h1, h2]

/-- Outside a deterministic region no window, no owner and no claim matters. -/
theorem inWindow_false {s : State} {co : Coach} (h : isDet s co = false) (va : Nat) : inWindow s co va = false := by
  unfold isDet at h; unfold inWindow
  split
  · next r hr => rw [hr] at h; simp only [] at h; simp [h]
  · rfl
theorem sideOf_outside {s : State} {co : Coach} {addrs : List (Nat × Nat)} (h : isDet s co = false) :
    sideOf s co addrs = .outside := by
  simp [sideOf, inWindow_false h]
theorem ownerStop_none {c : OpCtx} {s : State} {addrs : List (Nat × Nat)} (h : isDet s (coachOf s c.k) = false) :
    ownerStop c s addrs = none := by
  unfold isDet at h; unfold ownerStop
  simp only []
  split
  · rfl
  · next r hr => rw [hr] at h; simp only [] at h; simp [h]
theorem claimLines_same {s : State} {co : Coach} {vas : List Nat} (h : isDet s co = false) : claimLines s co vas = s := by
  unfold isDet at h; unfold claimLines
  split
  · rfl
  · next r hr => rw [hr] at h; simp only [] at h; simp [h]
theorem shadowStop_none {c : OpCtx} {s : State} {m : Mask} {addrs : List (Nat × Nat)}
    (h : shadowBad (coachOf s c.k) m = 0) : shadowStop c s m addrs = none := by
  have e : lowLane 0 = none := by decide
  unfold shadowStop
  rw [h, e]
theorem withRoom_go {c : OpCtx} {s : State} {f : State → State} (h : isDet s (coachOf s c.k) = false) :
    withRoom c s f = f s := by
  simp [withRoom, h]
theorem endsBundle_same {s : State} {k : Nat} (h : isDet s (coachOf s k) = false) : endsBundle s k = s := by
  simp [endsBundle, h]

/-- No lane parked: the operation keeps its group. -/
theorem without_zero (c : OpCtx) : c.without 0 = c := by
  have e : ∀ m : Mask, m &&& ~~~(0 : Mask) = m := fun m => by
    have : (~~~(0 : Mask)) = BitVec.allOnes 64 := by decide
    rw [this, BitVec.and_allOnes]
  unfold OpCtx.without
  rw [e, e]
theorem badMask_nil {f : Found} (h : f.bad = []) : f.badMask = 0 := by
  unfold Found.badMask; exact maskOf_false (by simp [h])
@[simp] theorem parkBad_nil (s : State) (k : Nat) (a : Acc) : parkBad s k a [] = s := rfl

/-- The coach exists and holds no FPE. -/
theorem settled_spec {s : State} {k : Nat} (h : settled s k = true) :
    tget s.coaches k = some (coachOf s k) ∧ (coachOf s k).fpeHeld = [] := by
  unfold settled at h
  split at h
  · next co hc =>
    have : coachOf s k = co := by simp [coachOf, tgetD, hc]
    rw [this]; exact ⟨hc, by simpa using h⟩
  · cases h

/-- The group passes from whatever its coach has become, when no FPE is held. -/
theorem finishGroup_coach {c : OpCtx} {s : State} (h : (coachOf s c.k).fpeHeld = [])
    (hc : tget s.coaches c.k = some (coachOf s c.k)) :
    finishGroup c s = { s with coaches := tput s.coaches c.k (passLanes (coachOf s c.k) c.i c.grp) } := by
  have hp : (passLanes (coachOf s c.k) c.i c.grp).fpeHeld = [] := by rw [passLanes_fpeHeld]; exact h
  have e : modCoach s c.k (fun x => passLanes x c.i c.grp)
      = { s with coaches := tput s.coaches c.k (passLanes (coachOf s c.k) c.i c.grp) } := by
    simp [modCoach, tmod, hc]
  unfold finishGroup
  rw [e]
  exact releaseFpe_nil (by rw [coachOf, tgetD_tput_self]; exact hp)

theorem finishGroup_settled {s : State} {w : NOp} {sp : OpSpec} {t : State} (h : settled t s.iss.coach = true) :
    finishGroup (opCtx s w sp) t = passedAt t s.iss := by
  obtain ⟨h1, h2⟩ := settled_spec h
  exact finishGroup_coach (c := opCtx s w sp) h2 h1

/-- The coach changes and the group passes. -/
theorem finishGroup_setCoach {s t : State} {w : NOp} {sp : OpSpec} {co : Coach} (h : co.fpeHeld = []) :
    finishGroup (opCtx s w sp) (setCoach t s.iss.coach co)
      = { t with coaches := tput t.coaches s.iss.coach (passLanes co s.iss s.iss.group) } := by
  have e : coachOf (setCoach t s.iss.coach co) s.iss.coach = co := by simp [coachOf, setCoach]
  rw [finishGroup_coach (c := opCtx s w sp) (by show (coachOf _ s.iss.coach).fpeHeld = []; rw [e]; exact h)
    (by show tget _ s.iss.coach = some (coachOf _ s.iss.coach); rw [e]; simp [setCoach])]
  show _ = _
  rw [show (opCtx s w sp).k = s.iss.coach from rfl, e]
  simp [setCoach]

/-- A long operation's results wait in a slot. -/
theorem deliverTo_slot {s t : State} {w : NOp} {sp : OpSpec} {n : Nat} {val : Nat → Nat → Word} {fl : List Mask}
    (hl : sp.long = true) (hne : enOf s w ≠ 0) (hq : noQueue w = true) (ht : settled t s.iss.coach = true) :
    deliverTo (opCtx s w sp) (enOf s w) n val fl t
      = slottedAt t s.iss (slotFor s w (slotCost (fD w) n) (laneWrites (fD w) n (enOf s w) val)
          (scalarWrites (fD w) n (enOf s w) val) fl) := by
  obtain ⟨h1, h2⟩ := settled_spec ht
  have hz : (enOf s w == 0) = false := by simpa using hne
  unfold deliverTo
  rw [show (opCtx s w sp).w = w from rfl]
  simp only [shadowPush_false hq, pushEntry_none hq]
  simp only [hl, hz, Bool.and_false, Bool.false_eq_true, if_false, if_true]
  rw [finishGroup_setCoach (by simpa [addSlot] using h2)]
  rfl

/-- An operation without a result passes. -/
theorem deliverTo_unused {s t : State} {w : NOp} {sp : OpSpec} {n : Nat} {val : Nat → Nat → Word}
    (hl : sp.long = false) (hd : codeOf (fD w) = .z) (ht : settled t s.iss.coach = true) :
    deliverTo (opCtx s w sp) (enOf s w) n val noFlags t = passedAt t s.iss := by
  obtain ⟨h1, h2⟩ := settled_spec ht
  have hq : noQueue w = true := by simp [noQueue, hd]
  unfold deliverTo
  rw [show (opCtx s w sp).w = w from rfl]
  simp only [shadowPush_false hq, pushEntry_none hq]
  simp only [hl, Bool.false_and, Bool.false_eq_true, if_false]
  have e1 : laneWrites (fD w) n (enOf s w) val = [] := by simp [laneWrites, hd]
  have e2 : scalarWrites (fD w) n (enOf s w) val = [] := by
    unfold scalarWrites; rw [hd]
  have e3 : flagWord noFlags = 0 := by decide
  rw [e1, e2, raiseFlags_of_none (enabledBits_noFlags _), finishGroup_setCoach (by simpa [putWords] using h2), e3]
  simp [putWords, passedAt]

end Sys2Proof.Laws
end

