-- ==== Sys2Proof/Laws/Memory.lean ====
section
/-! SUPPORT. The byte memory: what a write leaves at every address, and the canonical form, which every operation on
memory keeps. -/
namespace Sys2Proof.Laws
open Sys2Proof.Machine

/-! ### Tables in order -/

theorem tsorted_iff {α : Type} (t : Tbl α) : tsorted t = true ↔ (tkeys t).Pairwise (· < ·) := by
  induction t with
  | nil => simp [tsorted, tkeys]
  | cons e t ih =>
    obtain ⟨k, v⟩ := e
    cases t with
    | nil => simp [tsorted, tkeys]
    | cons e u =>
      obtain ⟨j, w⟩ := e
      have h : tsorted ((k, v) :: (j, w) :: u) = (decide (k < j) && tsorted ((j, w) :: u)) := rfl
      rw [h, Bool.and_eq_true, ih, decide_eq_true_eq]
      simp only [tkeys, List.map_cons, List.pairwise_cons, List.mem_cons, forall_eq_or_imp]
      constructor
      · rintro ⟨a, b, c⟩; exact ⟨⟨a, fun x hx => a.trans (b x hx)⟩, b, c⟩
      · rintro ⟨⟨a, -⟩, b, c⟩; exact ⟨a, b, c⟩

theorem mem_tkeys_tput {α : Type} (t : Tbl α) (j x : Nat) (v : α) : x ∈ tkeys (tput t j v) ↔ x = j ∨ x ∈ tkeys t := by
  induction t with
  | nil => simp [tput, tkeys]
  | cons e t ih =>
    obtain ⟨k, w⟩ := e
    unfold tput
    split
    · simp [tkeys]
    · split
      · rename_i h; subst h; simp [tkeys]
      · simp only [tkeys, List.map_cons, List.mem_cons] at ih ⊢; rw [ih]; tauto

theorem tsorted_tput {α : Type} (t : Tbl α) (j : Nat) (v : α) (h : tsorted t = true) : tsorted (tput t j v) = true := by
  rw [tsorted_iff] at h ⊢
  induction t with
  | nil => simp [tput, tkeys]
  | cons e t ih =>
    obtain ⟨k, w⟩ := e
    have h' := h
    simp only [tkeys, List.map_cons, List.pairwise_cons] at h'
    unfold tput
    split
    · rename_i hj
      simp only [tkeys, List.map_cons, List.pairwise_cons, List.mem_cons, forall_eq_or_imp]
      exact ⟨⟨hj, fun x hx => hj.trans (h'.1 x hx)⟩, h'⟩
    · split
      · rename_i hk; subst hk
        simpa only [tkeys, List.map_cons, List.pairwise_cons] using h'
      · rename_i h1 h2
        have := ih h'.2
        simp only [tkeys, List.map_cons, List.pairwise_cons] at this ⊢
        refine ⟨fun x hx => ?_, this⟩
        rcases (mem_tkeys_tput t j x v).1 hx with rfl | hx
        · omega
        · exact h'.1 x hx

theorem tsorted_filter {α : Type} (t : Tbl α) (p : Nat × α → Bool) (h : tsorted t = true) : tsorted (t.filter p) = true := by
  rw [tsorted_iff] at h ⊢
  exact h.sublist (List.Sublist.map _ List.filter_sublist)

theorem mem_tput {α : Type} {t : Tbl α} {j : Nat} {v : α} {e : Nat × α} (h : e ∈ tput t j v) : e = (j, v) ∨ e ∈ t := by
  induction t with
  | nil => simpa [tput] using h
  | cons x t ih =>
    obtain ⟨k, w⟩ := x
    unfold tput at h
    split at h
    · simpa using h
    · split at h
      · simp only [List.mem_cons] at h ⊢; tauto
      · simp only [List.mem_cons] at h ⊢; rcases h with h | h
        · exact .inr (.inl h)
        · rcases ih h with h | h
          · exact .inl h
          · exact .inr (.inr h)

/-! ### One byte, and a run of bytes -/

theorem memGet_memPut (m : List Host.Cell) (a x : Nat) (b : Byte) : memGet (memPut m a b) x = if a = x then b else memGet m x :=
  tgetD_tset 0 m a x b

theorem memPut_wf {m : List Host.Cell} (h : Memory.wf m) (a : Nat) (b : Byte) : Memory.wf (memPut m a b) := by
  unfold memPut tset
  split
  · refine ⟨tsorted_filter _ _ h.1, ?_⟩
    have := h.2
    simp only [memNonZero, List.all_eq_true] at this ⊢
    exact fun e he => this e (List.mem_of_mem_filter he)
  · rename_i hb
    refine ⟨tsorted_tput _ _ _ h.1, ?_⟩
    have := h.2
    simp only [memNonZero, List.all_eq_true] at this ⊢
    intro e he
    rcases mem_tput he with rfl | he
    · simpa using hb
    · exact this e he

theorem memWrite_wf {m : List Host.Cell} (h : Memory.wf m) (a : Nat) (bs : List Byte) : Memory.wf (memWrite m a bs) := by
  induction bs generalizing m a with
  | nil => exact h
  | cons b bs ih => exact ih (memPut_wf h a b) (a + 1)

theorem filter_wf {m : List Host.Cell} (h : Memory.wf m) (p : Host.Cell → Bool) : Memory.wf (m.filter p) := by
  refine ⟨tsorted_filter _ _ h.1, ?_⟩
  have := h.2
  simp only [memNonZero, List.all_eq_true] at this ⊢
  exact fun e he => this e (List.mem_of_mem_filter he)

/-- A write of a run of bytes, seen at one address. -/
theorem memGet_memWrite (m : List Host.Cell) (a x : Nat) (bs : List Byte) :
    memGet (memWrite m a bs) x = if a ≤ x ∧ x < a + bs.length then (bs[x - a]?).getD 0 else memGet m x := by
  induction bs generalizing m a with
  | nil =>
    have : ¬ (a ≤ x ∧ x < a + ([] : List Byte).length) := by simp
    rw [if_neg this]; rfl
  | cons b bs ih =>
    show memGet (memWrite (memPut m a b) (a + 1) bs) x = _
    rw [ih, memGet_memPut]
    simp only [List.length_cons]
    by_cases h1 : a = x
    · subst h1; simp
    · rw [if_neg h1]
      by_cases h2 : a + 1 ≤ x ∧ x < a + 1 + bs.length
      · rw [if_pos h2, if_pos (by omega), show x - a = (x - (a + 1)) + 1 by omega, List.getElem?_cons_succ]
      · rw [if_neg h2, if_neg (by omega)]

theorem memRead_length (m : List Host.Cell) (a n : Nat) : (memRead m a n).length = n := by
  induction n generalizing a with
  | zero => rfl
  | succ n ih => simp [memRead, ih]

theorem memRead_getElem (m : List Host.Cell) (a n i : Nat) (h : i < n) : (memRead m a n)[i]? = some (memGet m (a + i)) := by
  induction n generalizing a i with
  | zero => omega
  | succ n ih =>
    cases i with
    | zero => simp [memRead]
    | succ i => simp only [memRead, List.getElem?_cons_succ]; rw [ih _ _ (by omega)]; congr 2; omega

/-! ### The operations of the machine that write memory -/

theorem physWrite_wf {s : State} (h : Memory.wf s.mem) (a : Nat) (bs : List Byte) : Memory.wf (physWrite s a bs).mem :=
  memWrite_wf h a bs

theorem storeDirty_wf {s : State} (h : Memory.wf s.mem) (c : CLine) : Memory.wf (storeDirty s c).mem := by
  unfold storeDirty
  dsimp only
  generalize List.range 64 = l
  generalize s.mem = m at h
  induction l generalizing m with
  | nil => exact h
  | cons i l ih =>
    rw [List.foldl_cons]
    apply ih
    split
    · exact memPut_wf h _ _
    · exact h

theorem l2WriteBack_wf {s : State} (h : Memory.wf s.mem) (c : CLine) : Memory.wf (l2WriteBack s c).mem := by
  unfold l2WriteBack
  split
  · exact storeDirty_wf h c
  · exact h

theorem countAccess_mem (s : State) (pa : Nat) : (countAccess s pa).mem = s.mem := by unfold countAccess; dsimp only; split <;> rfl

theorem l2Evict_wf {s : State} (h : Memory.wf s.mem) (c : CLine) : Memory.wf (l2Evict s c).mem := l2WriteBack_wf h c

theorem l2DropLine_wf {s : State} (h : Memory.wf s.mem) (line : Nat) : Memory.wf (l2DropLine s line).mem := by
  unfold l2DropLine
  split
  · exact l2Evict_wf h _
  · exact h

theorem l2Room_wf {s : State} (h : Memory.wf s.mem) (line : Nat) : Memory.wf (l2Room s line).mem := by
  unfold l2Room
  dsimp only
  split
  · exact h
  · split
    · exact l2Evict_wf (s := { s with free := s.free + 1 }) h _
    · exact h

theorem l2Fill_wf {s : State} (h : Memory.wf s.mem) (line ctx : Nat) : Memory.wf (l2Fill s line ctx).mem := by
  unfold l2Fill
  split
  · exact h
  · exact l2Room_wf (by rw [countAccess_mem]; exact h) line

theorem padWrite_wf {r : Rake} (h : Memory.wf r.pad) (o : Nat) (bs : List Byte) : Memory.wf (padWrite r o bs).pad :=
  memWrite_wf h o bs

theorem reset_wf : Memory.wf State.reset.mem := by decide

end Sys2Proof.Laws
end

