-- ==== Sys2Proof/Laws/Canon.lean ====
section
/-! SUPPORT. The canonical form of the byte memories as an invariant: what it says of each kind of result, and how it
passes through folds, tables and case splits. The lemmas of the operations, one each, are in CanonShared, CanonLanes and
CanonDevice. -/
namespace Sys2Proof.Laws
open Sys2Proof.Machine


/-- The byte memories are in canonical form (log 3): physical memory, and the scratchpad window of every rake. -/
def CanonOf (m : List Host.Cell) (t : Tbl Rake) : Prop := Memory.wf m ∧ ∀ e ∈ t, Memory.wf e.2.pad

/-- The same of a state. -/
def Canon (s : State) : Prop := CanonOf s.mem s.rakes

/-- The same of one window. -/
def PadOk (m : List Host.Cell) : Prop := Memory.wf m

/-- The state that an operation may give is canonical. -/
def CanonO : Option State → Prop
  | none => True
  | some s => Canon s

/-- The same where a value comes with it. -/
def CanonOP {α : Type} : Option (α × State) → Prop
  | none => True
  | some e => Canon e.2

/-- The next state of a meaning is canonical. -/
def CanonOut : Out → Prop
  | .next s => Canon s
  | .fault _ => True
  | .refused _ => True

/-- What reading bytes for ABSORB gives. -/
def CanonAbsorbed : Absorbed → Prop
  | .all _ s => Canon s
  | .fault _ _ _ s => Canon s
  | .error _ _ _ _ s => Canon s

/-- What applying a staged entry gives. -/
def CanonApplied : Applied → Prop
  | .done s _ => Canon s
  | .full s => Canon s
  | .fault s => Canon s

/-- What a commit before an operation gives. -/
def CanonReady : Ready → Prop
  | .go s => Canon s
  | .stop s => Canon s

/-- What taking a message gives. -/
def CanonMsg : MsgRead → Prop
  | .msg _ s => Canon s
  | .stop s => Canon s

/-- What the visit of a coach gives. -/
def CanonVisit : Visit → Prop
  | .next s => Canon s
  | .wait s => Canon s

/-- What a push gives. -/
def CanonPush : PushOut → Prop
  | .done s => Canon s
  | .full => True
  | .xlat _ _ s => Canon s

/-- What an access of a dray gives. -/
def CanonGot {α : Type} : DGot α → Prop
  | .ok _ s => Canon s
  | .fault _ s => Canon s
  | .park _ _ _ s => Canon s
  | .error _ _ s => Canon s

/-- What applying staged entries gives. -/
def CanonAll : AppliedAll → Prop
  | .all s => Canon s
  | .full _ s => Canon s
  | .fault _ s => Canon s

variable {α β γ : Type}

/-! ### A result taken apart -/

theorem canon_snd {e : α × State} {a t} (he : e = (a, t)) (h : Canon e.2) : Canon t := by subst he; exact h
theorem canon_fst {e : State × α} {a t} (he : e = (t, a)) (h : Canon e.1) : Canon t := by subst he; exact h
theorem canon_trd {e : α × β × State} {a b t} (he : e = (a, b, t)) (h : Canon e.2.2) : Canon t := by subst he; exact h
theorem canon_fth {e : α × β × γ × State} {a b c t} (he : e = (a, b, c, t)) (h : Canon e.2.2.2) :
    Canon t := by subst he; exact h
theorem canon_some {e : Option State} {t} (he : e = some t) (h : CanonO e) : Canon t := by subst he; exact h
theorem canon_somep {e : Option (α × State)} {a t} (he : e = some (a, t)) (h : CanonOP e) : Canon t := by subst he; exact h
theorem canon_somep' {e : Option (α × State)} {t} (he : e = some t) (h : CanonOP e) : Canon t.2 := by subst he; exact h
theorem canon_getD {e : Option State} {t : State} (h : CanonO e) (ht : Canon t) : Canon (e.getD t) := by
  cases e with
  | none => exact ht
  | some s => exact h
theorem canon_next {e : Out} {t} (he : e = .next t) (h : CanonOut e) : Canon t := by subst he; exact h
theorem canon_all {e : Absorbed} {a t} (he : e = .all a t) (h : CanonAbsorbed e) : Canon t := by subst he; exact h
theorem canon_afault {e : Absorbed} {a b c t} (he : e = .fault a b c t) (h : CanonAbsorbed e) : Canon t := by subst he; exact h
theorem canon_aerror {e : Absorbed} {a b c d t} (he : e = .error a b c d t) (h : CanonAbsorbed e) :
    Canon t := by subst he; exact h
theorem canon_done {e : Applied} {t w} (he : e = .done t w) (h : CanonApplied e) : Canon t := by subst he; exact h
theorem canon_full {e : Applied} {t} (he : e = .full t) (h : CanonApplied e) : Canon t := by subst he; exact h
theorem canon_tfault {e : Applied} {t} (he : e = .fault t) (h : CanonApplied e) : Canon t := by subst he; exact h
theorem canon_go {e : Ready} {t} (he : e = .go t) (h : CanonReady e) : Canon t := by subst he; exact h
theorem canon_rstop {e : Ready} {t} (he : e = .stop t) (h : CanonReady e) : Canon t := by subst he; exact h
theorem canon_msg {e : MsgRead} {a t} (he : e = .msg a t) (h : CanonMsg e) : Canon t := by subst he; exact h
theorem canon_mstop {e : MsgRead} {t} (he : e = .stop t) (h : CanonMsg e) : Canon t := by subst he; exact h
theorem canon_vnext {e : Visit} {t} (he : e = .next t) (h : CanonVisit e) : Canon t := by subst he; exact h
theorem canon_vwait {e : Visit} {t} (he : e = .wait t) (h : CanonVisit e) : Canon t := by subst he; exact h
theorem canon_pdone {e : PushOut} {t} (he : e = .done t) (h : CanonPush e) : Canon t := by subst he; exact h
theorem canon_pxlat {e : PushOut} {a b t} (he : e = .xlat a b t) (h : CanonPush e) : Canon t := by subst he; exact h
theorem canon_gok {e : DGot α} {a t} (he : e = .ok a t) (h : CanonGot e) : Canon t := by subst he; exact h
theorem canon_gfault {e : DGot α} {a t} (he : e = .fault a t) (h : CanonGot e) : Canon t := by subst he; exact h
theorem canon_gpark {e : DGot α} {a b c t} (he : e = .park a b c t) (h : CanonGot e) : Canon t := by subst he; exact h
theorem canon_gerror {e : DGot α} {a b t} (he : e = .error a b t) (h : CanonGot e) : Canon t := by subst he; exact h
theorem canon_aall {e : AppliedAll} {t} (he : e = .all t) (h : CanonAll e) : Canon t := by subst he; exact h
theorem canon_afull {e : AppliedAll} {a t} (he : e = .full a t) (h : CanonAll e) : Canon t := by subst he; exact h
theorem canon_aafault {e : AppliedAll} {a t} (he : e = .fault a t) (h : CanonAll e) : Canon t := by subst he; exact h

/-! ### Folds -/

theorem canon_foldl {f : State → α → State} {l : List α} {s : State} (h : Canon s)
    (hf : ∀ s a, Canon s → Canon (f s a)) : Canon (l.foldl f s) := by
  induction l generalizing s with
  | nil => exact h
  | cons a l ih => exact ih (hf s a h)
theorem canon_foldl2 {f : β × State → α → β × State} {l : List α} {s : β × State} (h : Canon s.2)
    (hf : ∀ s a, Canon s.2 → Canon (f s a).2) : Canon (l.foldl f s).2 := by
  induction l generalizing s with
  | nil => exact h
  | cons a l ih => exact ih (hf s a h)
theorem canon_foldl1 {f : State × β → α → State × β} {l : List α} {s : State × β} (h : Canon s.1)
    (hf : ∀ s a, Canon s.1 → Canon (f s a).1) : Canon (l.foldl f s).1 := by
  induction l generalizing s with
  | nil => exact h
  | cons a l ih => exact ih (hf s a h)
theorem canon_foldl3 {f : β × γ × State → α → β × γ × State} {l : List α} {s : β × γ × State} (h : Canon s.2.2)
    (hf : ∀ s a, Canon s.2.2 → Canon (f s a).2.2) : Canon (l.foldl f s).2.2 := by
  induction l generalizing s with
  | nil => exact h
  | cons a l ih => exact ih (hf s a h)
theorem canon_mapp {e : Option (α × State)} {f : α × State → β × State} (h : CanonOP e)
    (hf : ∀ a s, Canon s → Canon (f (a, s)).2) : CanonOP (e.map f) := by
  cases e with
  | none => trivial
  | some p => exact hf p.1 p.2 h

/-! ### Records and tables -/

theorem canon_of {s : State} (h : CanonOf s.mem s.rakes) : Canon s := h
theorem canon_to {s : State} (h : Canon s) : CanonOf s.mem s.rakes := h
theorem canon_tput {m t k r} (h : CanonOf m t) (hr : PadOk (Rake.pad r)) : CanonOf m (tput t k r) :=
  ⟨h.1, fun e he => (mem_tput he).elim (fun h => by subst h; exact hr) (h.2 e)⟩
theorem canon_filter {m t p} (h : CanonOf m t) : CanonOf m (t.filter p) := ⟨h.1, fun e he => h.2 e (List.mem_filter.1 he).1⟩
theorem canon_tdel {m t k} (h : CanonOf m t) : CanonOf m (tdel t k) := canon_filter h
theorem mem_tget {α : Type} {t : Tbl α} {k : Nat} {v : α} (h : tget t k = some v) : (k, v) ∈ t := by
  induction t with
  | nil => simp [tget] at h
  | cons e t ih =>
    rw [tget] at h
    split at h
    · rename_i hk; cases h; subst hk; exact List.mem_cons_self
    · exact List.mem_cons_of_mem _ (ih h)
theorem canon_pad {m t k r} (h : CanonOf m t) (hr : tget t k = some r) : PadOk (Rake.pad r) := h.2 _ (mem_tget hr)
theorem canon_rake {s k r} (h : Canon s) (hr : tget s.rakes k = some r) : PadOk r.pad := canon_pad h hr
theorem canon_tmod {m t k f} (h : CanonOf m t) (hf : ∀ r : Rake, PadOk r.pad → PadOk (f r).pad) : CanonOf m (tmod t k f) := by
  unfold tmod
  split
  · rename_i hr; exact canon_tput h (hf _ (canon_pad h hr))
  · exact h
theorem padOk_write {r : Rake} {o bs} (h : PadOk r.pad) : PadOk (padWrite r o bs).pad := padWrite_wf h o bs
theorem padOk_foldl {α : Type} {l : List α} {f : Rake → α → Rake} {r : Rake} (h : PadOk r.pad) (hf : ∀ r a, PadOk r.pad → PadOk (f r a).pad) :
    PadOk (l.foldl f r).pad := by
  induction l generalizing r with
  | nil => exact h
  | cons a l ih => exact ih (hf r a h)
theorem atomsPieces_pad {c co l t} {r : Rake} (h : PadOk r.pad) : PadOk (atomsPieces c co l t r).2.pad := by
  induction l generalizing t r with
  | nil => exact h
  | cons x l ih => exact ih (padOk_write h)
theorem padOk_nil : PadOk [] := by unfold PadOk; decide
theorem padOk_bytes {o bs} : PadOk (memWrite [] o bs) := memWrite_wf padOk_nil o bs

/-! ### A result put together -/

theorem canon_mk_out_next  {s : State} (h : Canon s) : CanonOut (.next s : Out) := h
theorem canon_mk_out_fault {z} : CanonOut (.fault z : Out) := trivial
theorem canon_mk_out_refused {z} : CanonOut (.refused z : Out) := trivial
theorem canon_mk_absorbed_all {a} {s : State} (h : Canon s) : CanonAbsorbed (.all a s : Absorbed) := h
theorem canon_mk_absorbed_fault {a} {b} {c} {s : State} (h : Canon s) : CanonAbsorbed (.fault a b c s : Absorbed) := h
theorem canon_mk_absorbed_error {a} {b} {c} {d} {s : State} (h : Canon s) : CanonAbsorbed (.error a b c d s : Absorbed) := h
theorem canon_mk_applied_done {w} {s : State} (h : Canon s) : CanonApplied (.done s w : Applied) := h
theorem canon_mk_applied_full  {s : State} (h : Canon s) : CanonApplied (.full s : Applied) := h
theorem canon_mk_applied_fault  {s : State} (h : Canon s) : CanonApplied (.fault s : Applied) := h
theorem canon_mk_ready_go  {s : State} (h : Canon s) : CanonReady (.go s : Ready) := h
theorem canon_mk_ready_stop  {s : State} (h : Canon s) : CanonReady (.stop s : Ready) := h
theorem canon_mk_msg_msg {a} {s : State} (h : Canon s) : CanonMsg (.msg a s : MsgRead) := h
theorem canon_mk_msg_stop  {s : State} (h : Canon s) : CanonMsg (.stop s : MsgRead) := h
theorem canon_mk_visit_next  {s : State} (h : Canon s) : CanonVisit (.next s : Visit) := h
theorem canon_mk_visit_wait  {s : State} (h : Canon s) : CanonVisit (.wait s : Visit) := h
theorem canon_mk_push_done  {s : State} (h : Canon s) : CanonPush (.done s : PushOut) := h
theorem canon_mk_push_full  : CanonPush (.full : PushOut) := trivial
theorem canon_mk_push_xlat {a} {b} {s : State} (h : Canon s) : CanonPush (.xlat a b s : PushOut) := h
theorem canon_mk_got_ok {a} {s : State} (h : Canon s) : CanonGot (.ok a s : DGot α) := h
theorem canon_mk_got_fault {a} {s : State} (h : Canon s) : CanonGot (.fault a s : DGot α) := h
theorem canon_mk_got_park {a} {b} {c} {s : State} (h : Canon s) : CanonGot (.park a b c s : DGot α) := h
theorem canon_mk_got_error {a} {b} {s : State} (h : Canon s) : CanonGot (.error a b s : DGot α) := h
theorem canon_mk_all_all  {s : State} (h : Canon s) : CanonAll (.all s : AppliedAll) := h
theorem canon_mk_all_full {a} {s : State} (h : Canon s) : CanonAll (.full a s : AppliedAll) := h
theorem canon_mk_all_fault {a} {s : State} (h : Canon s) : CanonAll (.fault a s : AppliedAll) := h
theorem canon_mk_none : CanonO none := trivial
theorem canon_mk_some {s : State} (h : Canon s) : CanonO (some s) := h
theorem canon_mk_nonep : CanonOP (none : Option (α × State)) := trivial
theorem canon_mk_somep {e : α × State} (h : Canon e.2) : CanonOP (some e) := h

end Sys2Proof.Laws
end

