-- ==== Sys2Proof/Laws/CanonShared.lean ====
section
/-! SUPPORT. What memory accesses, translation, caches, the shared operations, traps and operands leave canonical. -/
namespace Sys2Proof.Laws
open Sys2Proof.Machine

/-! ### Machine/Mem.lean -/

theorem storeDirty_canon {s} {c} (h_s : Canon s) : Canon (storeDirty s c) := ⟨storeDirty_wf h_s.1 c, h_s.2⟩

theorem l2WriteBack_canon {s} {c} (h_s : Canon s) : Canon (l2WriteBack s c) := by
  unfold l2WriteBack
  with_reducible repeat' first | assumption | apply storeDirty_canon | split

theorem physWrite_canon {s} {a} {bs} (h_s : Canon s) : Canon (physWrite s a bs) := ⟨physWrite_wf h_s.1 a bs, h_s.2⟩

theorem l2Evict_canon {s} {c} (h_s : Canon s) : Canon (l2Evict s c) := by
  unfold l2Evict
  with_reducible repeat' first
    | assumption | apply l2WriteBack_canon | apply canon_to | (refine canon_snd (by assumption) ?_) | extract_lets
    | split | (refine canon_of ?_; dsimp only) | dsimp only | dsimp +zetaDelta only

theorem l2DropLine_canon {s} {line} (h_s : Canon s) : Canon (l2DropLine s line) := by
  unfold l2DropLine
  with_reducible repeat' first
    | assumption | apply l2Evict_canon | apply canon_to | (refine canon_snd (by assumption) ?_) | extract_lets | split
    | (refine canon_of ?_; dsimp only) | dsimp only | dsimp +zetaDelta only

theorem l2Room_canon {s} {line} (h_s : Canon s) : Canon (l2Room s line) := by
  unfold l2Room
  with_reducible repeat' first
    | assumption | apply l2Evict_canon | apply canon_to | (refine canon_snd (by assumption) ?_) | extract_lets | split
    | (refine canon_of ?_; dsimp only) | dsimp only | dsimp +zetaDelta only

theorem countAccess_canon {s} {pa} (h_s : Canon s) : Canon (countAccess s pa) := by
  unfold countAccess
  with_reducible repeat' first
    | assumption | apply canon_to | extract_lets | split | (refine canon_of ?_; dsimp only) | dsimp +zetaDelta only

theorem l2Fill_canon {s} {line} {ctx} (h_s : Canon s) : Canon (l2Fill s line ctx) := by
  unfold l2Fill
  with_reducible repeat' first
    | assumption | apply l2Room_canon | apply countAccess_canon | apply canon_to | extract_lets | split
    | (refine canon_of ?_; dsimp only) | dsimp only | dsimp +zetaDelta only

theorem raiseVector_canon {s} {fn} {vec} (h_s : Canon s) : Canon (raiseVector s fn vec) := by
  unfold raiseVector
  with_reducible repeat' first | assumption | apply canon_to | split | (refine canon_of ?_; dsimp only)

theorem logError_canon {s} {source} {sev} {die} {pa} {ctx} {world} {cluster} (h_s : Canon s) :
    Canon (logError s source sev die pa ctx world cluster) := by
  unfold logError
  with_reducible repeat' first
    | assumption | apply physWrite_canon | apply raiseVector_canon | apply canon_to | extract_lets | split
    | (refine canon_of ?_; dsimp only)

theorem correctedError_canon {s} {source} {die} {pa} (h_s : Canon s) : Canon (correctedError s source die pa) := by
  unfold correctedError
  with_reducible repeat' first
    | assumption | apply logError_canon | apply canon_to | extract_lets | split | (refine canon_of ?_; dsimp only)
    | dsimp +zetaDelta only

theorem setPoison_canon {s} {line} (h_s : Canon s) : Canon (setPoison s line) := by
  unfold setPoison
  with_reducible repeat' first | assumption | apply canon_to | split | (refine canon_of ?_; dsimp only)

theorem meetSoftError_canon {s} {line} (h_s : Canon s) : Canon (meetSoftError s line) := by
  unfold meetSoftError
  with_reducible repeat' first
    | assumption | apply correctedError_canon | apply logError_canon | apply setPoison_canon | apply canon_to
    | extract_lets | split | (refine canon_of ?_; dsimp only) | dsimp +zetaDelta only

theorem l2Read_canon {s} {line} {ctx} (h_s : Canon s) : Canon (l2Read s line ctx) := by
  unfold l2Read
  with_reducible repeat' first
    | assumption | apply l2Fill_canon | apply meetSoftError_canon | (intro _) | apply canon_to | extract_lets | split
    | (refine canon_of ?_; dsimp only) | dsimp only | dsimp +zetaDelta only

theorem l2Write_canon {s} {line} {off} {bs} (h_s : Canon s) : Canon (l2Write s line off bs) := by
  unfold l2Write
  with_reducible repeat' first
    | assumption | apply canon_to | (refine canon_snd (by assumption) ?_) | extract_lets | split
    | (refine canon_of ?_; dsimp only) | dsimp only | dsimp +zetaDelta only

theorem homeWriteLine_canon {s} {line} {off} {bs} {ctx} {cacheable} (h_s : Canon s) :
    Canon (homeWriteLine s line off bs ctx cacheable) := by
  unfold homeWriteLine
  with_reducible repeat' first
    | assumption | apply l2Read_canon | apply l2Write_canon | apply l2Fill_canon | apply physWrite_canon
    | apply canon_to | extract_lets
    | split | (refine canon_of ?_; dsimp only)

theorem clearPoison_canon {s} {line} (h_s : Canon s) : Canon (clearPoison s line) := by
  unfold clearPoison
  with_reducible repeat' first | assumption | apply canon_to | (refine canon_of ?_; dsimp only)

theorem addCycles_canon {s} {u} {n} (h_s : Canon s) : Canon (addCycles s u n) := by
  unfold addCycles
  with_reducible repeat' first | assumption | apply canon_to | (refine canon_of ?_; dsimp only)

theorem potSet_canon {s} {pa} {e} (h_s : Canon s) : Canon (potSet s pa e) := by
  unfold potSet
  with_reducible repeat' first | assumption | apply canon_to | (refine canon_of ?_; dsimp only)

/-! ### Machine/Trans.lean -/

theorem tlbFill_canon {s} {unit} {e} (h_s : Canon s) : Canon (tlbFill s unit e) := by
  unfold tlbFill
  with_reducible repeat' first | assumption | apply canon_to | extract_lets | (refine canon_of ?_; dsimp only)

theorem tlbFillAll_canon {s} {e} {a} (h_s : Canon s) : Canon (tlbFillAll s e a) := by
  induction a generalizing s e with
  | nil =>
    unfold tlbFillAll
    with_reducible repeat' first
      | assumption
  | cons x l ih =>
    unfold tlbFillAll
    with_reducible repeat' first | assumption | apply ih | apply tlbFill_canon

theorem walkReads_canon {s} {ctx} {va} (h_s : Canon s) : Canon (walkReads s ctx va) := by
  unfold walkReads
  with_reducible repeat' first
    | assumption | apply l2Read_canon | apply canon_foldl | apply canon_foldl2 | (intro _) | apply canon_to
    | extract_lets | split | (refine canon_of ?_; dsimp only) | dsimp only | dsimp +zetaDelta only

theorem atsFill_canon {s} {units} {pa} (h_s : Canon s) : Canon (atsFill s units pa) := by
  unfold atsFill
  with_reducible repeat' first
    | assumption | (intro _) | apply canon_to | extract_lets | split | (refine canon_of ?_; dsimp only) | dsimp only
    | dsimp +zetaDelta only

theorem xlate_canon {s} {units} {ctx} {va} {a} (h_s : Canon s) : Canon (xlate s units ctx va a).2 := by
  unfold xlate
  generalize tlbLook s ctx va a units [] = lk
  obtain ⟨hit, miss⟩ := lk
  cases hit <;> dsimp only <;> (with_reducible repeat' first
    | assumption | apply walkReads_canon | apply atsFill_canon | apply tlbFillAll_canon | split)

theorem xlateProgram_canon {s} {units} {ctx} {va} {a} (h_s : Canon s) : Canon (xlateProgram s units ctx va a).2 := by
  unfold xlateProgram
  with_reducible repeat' first | assumption | apply xlate_canon | split

/-! ### Machine/Cache.lean -/

theorem l1Put_canon {s} {unit} {c} (h_s : Canon s) : Canon (l1Put s unit c) := by
  unfold l1Put
  with_reducible repeat' first | assumption | apply canon_to | (refine canon_of ?_; dsimp only)

theorem writeDirty_canon {s} {c} (h_s : Canon s) : Canon (writeDirty s c) := by
  unfold writeDirty
  with_reducible repeat' first
    | assumption | apply setPoison_canon | apply clearPoison_canon | apply l2Fill_canon | apply storeDirty_canon
    | (intro _) | apply canon_to | extract_lets | split | (refine canon_of ?_; dsimp only) | dsimp only
    | dsimp +zetaDelta only

theorem l1Clean_canon {s} {unit} {c} (h_s : Canon s) : Canon (l1Clean s unit c) := by
  unfold l1Clean
  with_reducible repeat' first | assumption | apply l1Put_canon | apply writeDirty_canon

theorem l1Drop_canon {s} {unit} {line} (h_s : Canon s) : Canon (l1Drop s unit line) := by
  unfold l1Drop
  with_reducible repeat' first | assumption | apply canon_to | (refine canon_of ?_; dsimp only)

theorem meetL1_canon {s} {unit} {line} (h_s : Canon s) : Canon (meetL1 s unit line) := by
  unfold meetL1
  with_reducible repeat' first
    | assumption | apply l1Drop_canon | apply logError_canon | apply l1Put_canon | (intro _) | apply canon_to
    | extract_lets | split | (refine canon_of ?_; dsimp only) | dsimp only | dsimp +zetaDelta only

theorem l1WriteBackAll_canon {s} {unit} {ctx} (h_s : Canon s) : Canon (l1WriteBackAll s unit ctx) := by
  unfold l1WriteBackAll
  with_reducible repeat' first | assumption | apply l1Clean_canon | apply canon_foldl | (intro _) | extract_lets | split

theorem l2System_canon {s} {drop} (h_s : Canon s) : Canon (l2System s drop) := by
  unfold l2System
  with_reducible repeat' first
    | assumption | apply l2WriteBack_canon | apply canon_foldl | apply canon_to | extract_lets | split
    | (refine canon_of ?_; dsimp only)

theorem releaseGlobal_canon {s} {unit} {ctx} {agt} (h_s : Canon s) : Canon (releaseGlobal s unit ctx agt) := by
  unfold releaseGlobal
  with_reducible repeat' first
    | assumption | apply l1WriteBackAll_canon | apply l2System_canon | extract_lets | split | dsimp +zetaDelta only

theorem victimHit_canon {s} {unit} {line} (h_s : Canon s) : Canon (victimHit s unit line).2 := by
  unfold victimHit
  with_reducible repeat' first | assumption | apply canon_to | extract_lets | split | dsimp only | (refine canon_of ?_; dsimp only)

theorem l1Evict_canon {s} {unit} {c} (h_s : Canon s) : Canon (l1Evict s unit c) := by
  unfold l1Evict
  with_reducible repeat' first
    | assumption | apply l1Drop_canon | apply writeDirty_canon | apply canon_to | extract_lets
    | (refine canon_of ?_; dsimp only)

theorem l1Room_canon {s} {unit} {line} (h_s : Canon s) : Canon (l1Room s unit line) := by
  unfold l1Room
  with_reducible repeat' first
    | assumption | apply l1Evict_canon | apply canon_to | extract_lets | split | (refine canon_of ?_; dsimp only)
    | dsimp +zetaDelta only

theorem l1Fill_canon {s} {unit} {line} {ctx} {strm} (h_s : Canon s) : Canon (l1Fill s unit line ctx strm).2.2.2 := by
  unfold l1Fill
  with_reducible repeat' first
    | assumption | apply meetL1_canon | apply l2Read_canon | apply writeDirty_canon | apply l1Put_canon
    | apply victimHit_canon | apply l1Room_canon | (intro _) | apply canon_to | (refine canon_snd (by assumption) ?_)
    | extract_lets | split | (refine canon_of ?_; dsimp only) | dsimp only | dsimp +zetaDelta only

theorem writePart_canon {s} {p} {line} {off} {bs} (h_s : Canon s) : Canon (writePart s p line off bs).2 := by
  unfold writePart
  with_reducible repeat' first
    | assumption | apply clearPoison_canon | apply l1Fill_canon | apply l1Put_canon | apply homeWriteLine_canon
    | apply countAccess_canon | extract_lets | split | dsimp +zetaDelta only

theorem writePath_canon {s} {p} {a} {bs} (h_s : Canon s) : Canon (writePath s p a bs).2 := by
  unfold writePath
  with_reducible repeat' first | assumption | apply writePart_canon | apply canon_foldl3 | (intro _)

theorem l1DiscardAll_canon {s} {unit} {ctx} (h_s : Canon s) : Canon (l1DiscardAll s unit ctx) := by
  unfold l1DiscardAll
  with_reducible repeat' first
    | assumption | apply writeDirty_canon | apply canon_foldl | apply canon_to | (intro _) | extract_lets | split
    | (refine canon_of ?_; dsimp only)

theorem acquireGlobal_canon {s} {unit} {ctx} {agt} (h_s : Canon s) : Canon (acquireGlobal s unit ctx agt) := by
  unfold acquireGlobal
  with_reducible repeat' first
    | assumption | apply l1DiscardAll_canon | apply l2System_canon | extract_lets | split | dsimp +zetaDelta only

theorem readPart_canon {s} {p} {line} {off} {n} (h_s : Canon s) : Canon (readPart s p line off n).2.2 := by
  unfold readPart
  with_reducible repeat' first
    | assumption | apply l2Read_canon | apply l1Fill_canon | apply meetSoftError_canon | apply l2Fill_canon
    | apply canon_to
    | (refine canon_fth (by assumption) ?_) | extract_lets | split | (refine canon_of ?_; dsimp only) | dsimp only
    | dsimp +zetaDelta only

theorem readPath_canon {s} {p} {a} {n} (h_s : Canon s) : Canon (readPath s p a n).2.2 := by
  unfold readPath
  with_reducible repeat' first | assumption | apply readPart_canon | apply canon_foldl3 | (intro _)

theorem orderGlobal_canon {s} {unit} {ctx} {ord} {agt} {stg} (h_s : Canon s) : Canon (orderGlobal s unit ctx ord agt stg) := by
  unfold orderGlobal
  with_reducible repeat' first
    | assumption | apply releaseGlobal_canon | apply acquireGlobal_canon | extract_lets | split | dsimp +zetaDelta only

theorem dropLineEverywhere_canon {s} {line} (h_s : Canon s) : Canon (dropLineEverywhere s line) := by
  unfold dropLineEverywhere
  with_reducible repeat' first
    | assumption | apply l1Drop_canon | apply writeDirty_canon | apply canon_foldl | (intro _) | extract_lets | split

theorem l1Flush_canon {s} {unit} (h_s : Canon s) : Canon (l1Flush s unit) := by
  unfold l1Flush
  with_reducible repeat' first
    | assumption | apply writeDirty_canon | apply canon_foldl | apply canon_to | extract_lets
    | (refine canon_of ?_; dsimp only)

theorem setFused_canon {s} {cl} {on} (h_s : Canon s) : Canon (setFused s cl on) := by
  unfold setFused
  with_reducible repeat' first
    | assumption | apply l1Flush_canon | apply canon_foldl | apply canon_to | extract_lets | split
    | (refine canon_of ?_; dsimp only)

/-! ### Machine/Ops.lean -/

theorem setCoach_canon {s} {k} {co} (h_s : Canon s) : Canon (setCoach s k co) := by
  unfold setCoach
  with_reducible repeat' first | assumption | apply canon_to | (refine canon_of ?_; dsimp only)

theorem modCoach_canon {s} {k} {f} (h_s : Canon s) : Canon (modCoach s k f) := by
  unfold modCoach
  with_reducible repeat' first | assumption | apply canon_to | (refine canon_of ?_; dsimp only)

theorem joinFault_canon {s} {ctx} {page} {die} {cluster} {region} {version} {e} {acc} {waiters} (h_s : Canon s) :
    Canon (joinFault s ctx page die cluster region version e acc waiters).2 := by
  unfold joinFault
  with_reducible repeat' first | assumption | apply canon_to | extract_lets | split | dsimp only | (refine canon_of ?_; dsimp only)

theorem coachFault_canon {s} {co} {va} {e} {acc} {waiters} (h_s : Canon s) : Canon (coachFault s co va e acc waiters).2 := by
  unfold coachFault
  with_reducible repeat' first
    | assumption | apply joinFault_canon | apply canon_to | (refine canon_snd (by assumption) ?_) | extract_lets
    | split | (refine canon_of ?_; dsimp only) | dsimp only | dsimp +zetaDelta only

theorem coachFence_canon {s} {k} (h_s : Canon s) : Canon (coachFence s k) := by
  unfold coachFence
  with_reducible repeat' first
    | assumption | apply orderGlobal_canon | apply canon_to | (refine canon_snd (by assumption) ?_) | extract_lets
    | split | (refine canon_of ?_; dsimp only) | dsimp only | dsimp +zetaDelta only

theorem ownFill_canon {s} {ctx} {a} {n} (h_s : Canon s) : Canon (ownFill s ctx a n) := by
  unfold ownFill
  with_reducible repeat' first
    | assumption | apply l2Read_canon | apply l2Fill_canon | apply canon_foldl | apply canon_foldl2 | (intro _)
    | apply canon_to
    | (refine canon_snd (by assumption) ?_) | extract_lets | split | (refine canon_of ?_; dsimp only) | dsimp only
    | dsimp +zetaDelta only

theorem fillOwn_canon {s} {ctx} {ps} (h_s : Canon s) : Canon (fillOwn s ctx ps) := by
  unfold fillOwn
  with_reducible repeat' first
    | assumption | apply ownFill_canon | apply canon_foldl | apply canon_foldl2 | (intro _) | apply canon_to
    | (refine canon_snd (by assumption) ?_) | extract_lets | split | (refine canon_of ?_; dsimp only) | dsimp only
    | dsimp +zetaDelta only

theorem ownWrite_canon {s} {ctx} {a} {bs} {uc} (h_s : Canon s) : Canon (ownWrite s ctx a bs uc) := by
  unfold ownWrite
  with_reducible repeat' first | assumption | apply homeWriteLine_canon | apply canon_foldl2 | (intro _)

theorem writeOwn_canon {s} {ctx} {ps} {bs} (h_s : Canon s) : Canon (writeOwn s ctx ps bs) := by
  unfold writeOwn
  with_reducible repeat' first
    | assumption | apply ownWrite_canon | apply canon_foldl | apply canon_foldl2 | (intro _) | apply canon_to
    | extract_lets | split | (refine canon_of ?_; dsimp only) | dsimp only | dsimp +zetaDelta only

theorem ownPieces_go_canon {units} {ctx} {a} {z3} {z4} {z5} {z6} {z7} (h_z6 : Canon z6) :
    Canon (ownPieces.go units ctx a z3 z4 z5 z6 z7).2 := by
  induction z3 generalizing units ctx a z4 z5 z6 z7 with
  | zero =>
    unfold ownPieces.go
    with_reducible repeat' first
      | assumption
  | succ n ih =>
    unfold ownPieces.go
    with_reducible repeat' first
      | assumption | apply ih | apply xlate_canon | (refine canon_snd (by assumption) ?_) | extract_lets | split

theorem ownPieces_canon {s} {units} {ctx} {va} {n} {a} (h_s : Canon s) : Canon (ownPieces s units ctx va n a).2 := by
  unfold ownPieces
  with_reducible repeat' first | assumption | apply ownPieces_go_canon

theorem ownWriteV_canon {s} {units} {ctx} {va} {bs} (h_s : Canon s) : Canon (ownWriteV s units ctx va bs).2 := by
  unfold ownWriteV
  with_reducible repeat' first
    | assumption | apply writeOwn_canon | apply ownPieces_canon | apply ownWrite_canon | apply canon_foldl2
    | (refine canon_snd (by assumption) ?_) | (intro _) | split

theorem markReset_canon {s} {ctx} (h_s : Canon s) : Canon (markReset s ctx) := by
  unfold markReset
  with_reducible repeat' first | assumption | apply canon_to | split | (refine canon_of ?_; dsimp only)

theorem errorReset_canon {s} {ctx} {pa} (h_s : Canon s) : Canon (errorReset s ctx pa) := by
  unfold errorReset
  with_reducible repeat' first
    | assumption | apply markReset_canon | apply logError_canon | (intro _) | apply canon_to | extract_lets | split
    | (refine canon_of ?_; dsimp only) | dsimp only | dsimp +zetaDelta only

theorem areaPieces_canon {s} {units} {ctx} {va} {n} {a} (h_s : Canon s) : Canon (areaPieces s units ctx va n a).2 := by
  unfold areaPieces
  with_reducible repeat' first | assumption | apply ownPieces_canon | (refine canon_snd (by assumption) ?_) | split

theorem writeArea_canon {s} {ctx} {die} {base} {size} {parts} (h_s : Canon s) : Canon (writeArea s ctx die base size parts) := by
  unfold writeArea
  with_reducible repeat' first
    | assumption | apply areaPieces_canon | apply markReset_canon | apply ownWriteV_canon | apply canon_foldl
    | apply canon_foldl2 | (intro _) | apply canon_to | (refine canon_snd (by assumption) ?_)
    | (refine canon_somep (by assumption) ?_) | (refine canon_somep' (by assumption) ?_) | extract_lets | split
    | (refine canon_of ?_; dsimp only) | dsimp only | dsimp +zetaDelta only

theorem freshSeed_canon {s} (h_s : Canon s) : Canon (freshSeed s).2 := by
  unfold freshSeed
  with_reducible repeat' first | assumption | apply canon_to | dsimp only | (refine canon_of ?_; dsimp only)

theorem detAreaWrite_canon {s} {rg} {off} {n} {vals} (h_s : Canon s) : Canon (detAreaWrite s rg off n vals) := by
  unfold detAreaWrite
  with_reducible repeat' first
    | assumption | apply writeArea_canon | (intro _) | apply canon_to | extract_lets | split
    | (refine canon_of ?_; dsimp only) | dsimp only | dsimp +zetaDelta only

theorem stage_canon {s} {k} {es} (h_s : Canon s) : Canon (stage s k es) := by
  unfold stage
  with_reducible repeat' first | assumption | apply modCoach_canon

theorem ownReadV_canon {s} {units} {ctx} {va} {n} (h_s : Canon s) : Canon (ownReadV s units ctx va n).2 := by
  unfold ownReadV
  with_reducible repeat' first
    | assumption | apply ownPieces_canon | apply fillOwn_canon | apply canon_to
    | (refine canon_snd (by assumption) ?_) | extract_lets | split | (refine canon_of ?_; dsimp only) | dsimp only
    | dsimp +zetaDelta only

theorem modRegion_canon {s} {k} {f} (h_s : Canon s) : Canon (modRegion s k f) := by
  unfold modRegion
  with_reducible repeat' first | assumption | apply canon_to | (refine canon_of ?_; dsimp only)

theorem setQueue_canon {s} {region} {qi} {q} (h_s : Canon s) : Canon (setQueue s region qi q) := by
  unfold setQueue
  with_reducible repeat' first | assumption | apply modRegion_canon

theorem ownReadP_canon {s} {units} {ctx} {va} {n} (h_s : Canon s) : Canon (ownReadP s units ctx va n).2 := by
  unfold ownReadP
  with_reducible repeat' first
    | assumption | apply ownPieces_canon | apply fillOwn_canon | apply canon_to
    | (refine canon_snd (by assumption) ?_) | extract_lets | split | (refine canon_of ?_; dsimp only) | dsimp only
    | dsimp +zetaDelta only

theorem refillQueue_canon {s} {units} {region} {qi} {a} (h_s : Canon s) : Canon (refillQueue s units region qi a) := by
  induction a generalizing s with
  | zero => exact h_s
  | succ n ih =>
    unfold refillQueue
    with_reducible repeat' first
      | assumption | apply ih | apply setQueue_canon | apply ownReadP_canon | (refine canon_snd (by assumption) ?_)
      | extract_lets | split

theorem pushQueue_canon {s} {units} {region} {qi} {e} (h_s : Canon s) : CanonPush (pushQueue s units region qi e) := by
  unfold pushQueue
  with_reducible repeat' first
    | assumption | apply canon_mk_push_done | apply canon_mk_push_full | apply canon_mk_push_xlat | apply refillQueue_canon
    | apply setQueue_canon | apply ownWriteV_canon | (refine canon_snd (by assumption) ?_) | extract_lets | split

theorem pushReg_canon {s} {k} {q} {e} (h_s : Canon s) : CanonPush (pushReg s k q e) := by
  unfold pushReg
  with_reducible repeat' first
    | assumption | apply canon_mk_push_done | apply canon_mk_push_full | apply stage_canon | apply releaseGlobal_canon
    | apply pushQueue_canon | apply canon_to | extract_lets | split | (refine canon_of ?_; dsimp only)

theorem parkLanes_canon {s} {k} {m} {va} {e} {acc} {frame} (h_s : Canon s) : Canon (parkLanes s k m va e acc frame) := by
  unfold parkLanes
  with_reducible repeat' first
    | assumption | apply setCoach_canon | apply coachFault_canon | apply canon_to
    | (refine canon_snd (by assumption) ?_) | extract_lets | split | (refine canon_of ?_; dsimp only) | dsimp only
    | dsimp +zetaDelta only

theorem commitAll_canon {s} {k} (h_s : Canon s) : Canon (commitAll s k).2 := by
  unfold commitAll
  with_reducible repeat' first
    | assumption | apply setCoach_canon | apply pushReg_canon | apply parkLanes_canon | apply modCoach_canon
    | apply canon_foldl | (refine canon_pdone (by assumption) ?_) | (refine canon_pxlat (by assumption) ?_) | (intro _)
    | extract_lets | split

theorem modRake_canon {s k f} (h_s : Canon s) (h_f : ∀ r : Rake, PadOk r.pad → PadOk (f r).pad) :
    Canon (modRake s k f) := canon_tmod h_s h_f

theorem haltRake_canon {s} {k} {t} {flags} (h_s : Canon s) : Canon (haltRake s k t flags) := by
  unfold haltRake
  exact modRake_canon h_s (fun r hr => by split <;> exact hr)

theorem beginHalt_canon {s} {k} {t} {flags} {framed} (h_s : Canon s) : Canon (beginHalt s k t flags framed) := by
  unfold beginHalt
  with_reducible repeat' first
    | assumption | apply haltRake_canon | apply modCoach_canon | apply coachFence_canon | apply canon_to
    | extract_lets | split | (refine canon_of ?_; dsimp only) | dsimp only | dsimp +zetaDelta only

theorem homeFirst_canon {s} {unit} {a} {n} (h_s : Canon s) : Canon (homeFirst s unit a n) := by
  unfold homeFirst
  with_reducible repeat' first
    | assumption | apply l1Drop_canon | apply writeDirty_canon | apply canon_foldl | (intro _) | extract_lets | split

theorem leaseCounts_canon {s} {k} {c} (h_s : Canon s) : Canon (leaseCounts s k c) := by
  unfold leaseCounts
  with_reducible repeat' first | assumption | apply modCoach_canon | split

theorem coachWrite_canon {s} {k} {pa} {bs} {leaf} {bypass} {strm} (h_s : Canon s) :
    Canon (coachWrite s k pa bs leaf bypass strm) := by
  unfold coachWrite
  with_reducible repeat' first
    | assumption | apply homeFirst_canon | apply writePath_canon | apply leaseCounts_canon | extract_lets | split

theorem writeFrame_canon {s} {k} {va} {bs} (h_s : Canon s) : Canon (writeFrame s k va bs).2 := by
  unfold writeFrame
  with_reducible repeat' first
    | assumption | apply ownPieces_canon | apply markReset_canon | apply coachWrite_canon | apply canon_foldl2
    | (refine canon_snd (by assumption) ?_) | (intro _) | extract_lets | split

theorem awaitFrame_canon {s} {k} {t} {va} {e} {parked} (h_s : Canon s) : Canon (awaitFrame s k t va e parked) := by
  unfold awaitFrame
  with_reducible repeat' first
    | assumption | apply coachFault_canon | apply parkLanes_canon | apply modCoach_canon | apply canon_to
    | (refine canon_snd (by assumption) ?_) | extract_lets | split | (refine canon_of ?_; dsimp only) | dsimp only
    | dsimp +zetaDelta only

theorem coachRead_canon {s} {k} {pa} {n} {leaf} {bypass} {strm} (h_s : Canon s) :
    Canon (coachRead s k pa n leaf bypass strm).2 := by
  unfold coachRead
  with_reducible repeat' first
    | assumption | apply homeFirst_canon | apply readPath_canon | apply leaseCounts_canon | extract_lets | split

theorem nestFrame_canon {s} {k} {va} (h_s : Canon s) : Canon (nestFrame s k va).2 := by
  unfold nestFrame
  with_reducible repeat' first
    | assumption | apply ownPieces_canon | apply coachRead_canon | apply writeFrame_canon | apply canon_to
    | (refine canon_snd (by assumption) ?_) | extract_lets | split | (refine canon_of ?_; dsimp only) | dsimp only
    | dsimp +zetaDelta only

theorem fatalTrap_canon {s} {k} {t} {flags} (h_s : Canon s) : Canon (fatalTrap s k t flags) := by
  unfold fatalTrap
  with_reducible repeat' first
    | assumption | apply logError_canon | apply beginHalt_canon | apply setCoach_canon | apply nestFrame_canon
    | apply writeFrame_canon
    | apply modCoach_canon | apply haltRake_canon | apply awaitFrame_canon | apply canon_to
    | (refine canon_snd (by assumption) ?_) | extract_lets | split | (refine canon_of ?_; dsimp only) | dsimp only
    | dsimp +zetaDelta only

theorem enterHandler_canon {s} {k} {t} (h_s : Canon s) : Canon (enterHandler s k t) := by
  unfold enterHandler
  with_reducible repeat' first
    | assumption | apply awaitFrame_canon | apply fatalTrap_canon | apply writeFrame_canon | apply parkLanes_canon
    | apply modCoach_canon
    | (refine canon_snd (by assumption) ?_) | extract_lets | split

theorem takeTrap_canon {s} {k} (h_s : Canon s) : Canon (takeTrap s k) := by
  unfold takeTrap
  with_reducible repeat' first
    | assumption | apply setCoach_canon | apply commitAll_canon | apply modCoach_canon | apply enterHandler_canon
    | apply canon_to | (refine canon_snd (by assumption) ?_) | extract_lets | split | (refine canon_of ?_; dsimp only)
    | dsimp only | dsimp +zetaDelta only

theorem raiseTrap_canon {s} {k} {t} (h_s : Canon s) : Canon (raiseTrap s k t) := by
  unfold raiseTrap
  with_reducible repeat' first | assumption | apply takeTrap_canon | apply modCoach_canon

theorem modCtx_canon {s} {k} {f} (h_s : Canon s) : Canon (modCtx s k f) := by
  unfold modCtx
  with_reducible repeat' first | assumption | apply canon_to | (refine canon_of ?_; dsimp only)

theorem coachXlate_canon {s} {co} {va} {a} (h_s : Canon s) : Canon (coachXlate s co va a).2 := by
  unfold coachXlate
  with_reducible repeat' first | assumption | apply xlateProgram_canon

theorem ownWordV_canon {s} {units} {ctx} {va} (h_s : Canon s) : Canon (ownWordV s units ctx va).2 := by
  unfold ownWordV
  with_reducible repeat' first
    | assumption | apply ownReadP_canon | (intro _) | apply canon_to | (refine canon_snd (by assumption) ?_)
    | extract_lets | split | (refine canon_of ?_; dsimp only) | dsimp only | dsimp +zetaDelta only

theorem illegal_canon {s} {lanes} {sub} {fieldNo} (h_s : Canon s) : Canon (illegal s lanes sub fieldNo) := by
  unfold illegal
  with_reducible repeat' first | assumption | apply raiseTrap_canon

theorem popQueue_canon {s} {units} {region} {qi} (h_s : Canon s) : CanonOP (popQueue s units region qi) := by
  unfold popQueue
  with_reducible repeat' first
    | assumption | apply canon_mk_nonep | apply canon_mk_somep | apply refillQueue_canon | apply setQueue_canon
    | extract_lets | split

/-! ### Machine/Records.lean -/

theorem addPend_canon {s} {f} {p} (h_s : Canon s) : Canon (addPend s f p) := by
  unfold addPend
  with_reducible repeat' first | assumption | apply canon_to | (refine canon_of ?_; dsimp only)

theorem waitFault_canon {s} {ctx} {va} {region} {die} {version} {e} {acc} (h_s : Canon s) :
    Canon (waitFault s ctx va region die version e acc).2 := by
  unfold waitFault
  with_reducible repeat' first | assumption | apply joinFault_canon

theorem forgetSession_canon {s} {key} (h_s : Canon s) : Canon (forgetSession s key) := by
  unfold forgetSession
  with_reducible repeat' first | assumption | apply canon_to | (refine canon_of ?_; dsimp only)

theorem respond_canon {s} {port} {w} (h_s : Canon s) : Canon (respond s port w) := by
  unfold respond
  with_reducible repeat' first | assumption | apply canon_to | extract_lets | split | (refine canon_of ?_; dsimp only)

theorem loseRecord_canon {s} {key} (h_s : Canon s) : Canon (loseRecord s key) := by
  unfold loseRecord
  with_reducible repeat' first
    | assumption | apply forgetSession_canon | apply respond_canon | apply canon_to | split
    | (refine canon_of ?_; dsimp only)

theorem writeRecord_canon {s} {key} (h_s : Canon s) : Canon (writeRecord s key) := by
  unfold writeRecord
  repeat' first
    | with_reducible assumption | with_reducible apply ownWriteV_canon | with_reducible apply forgetSession_canon
    | with_reducible apply respond_canon | with_reducible apply waitFault_canon | with_reducible apply addPend_canon
    | with_reducible apply loseRecord_canon | with_reducible apply logError_canon
    | (refine canon_snd (by with_reducible assumption) ?_) | extract_lets | split | (refine canon_of ?_; dsimp only)

theorem finishClose_canon {s} {die} {key} (h_s : Canon s) : Canon (finishClose s die key) := by
  unfold finishClose
  with_reducible repeat' first
    | assumption | apply writeRecord_canon | apply canon_to | extract_lets | (refine canon_of ?_; dsimp only)

theorem voidSession_canon {s} {key} {cause} (h_s : Canon s) : Canon (voidSession s key cause) := by
  unfold voidSession
  with_reducible repeat' first
    | assumption | apply finishClose_canon | apply writeRecord_canon | apply canon_to | extract_lets | split
    | (refine canon_of ?_; dsimp only)

theorem voidSessions_canon {s} {sel} {cause} (h_s : Canon s) : Canon (voidSessions s sel cause) := by
  unfold voidSessions
  with_reducible repeat' first | assumption | apply voidSession_canon | apply canon_foldl | (intro _) | extract_lets | split

/-! ### Machine/Lifecycle.lean -/

theorem clearRevoked_canon {s} (h_s : Canon s) : Canon (clearRevoked s) := by
  unfold clearRevoked
  with_reducible repeat' first
    | assumption | (intro _) | apply canon_to | extract_lets | split | (refine canon_of ?_; dsimp only) | dsimp only
    | dsimp +zetaDelta only

theorem setTile_canon {s} {tk} {t} (h_s : Canon s) : Canon (setTile s tk t) := by
  unfold setTile
  with_reducible repeat' first | assumption | apply canon_to | (refine canon_of ?_; dsimp only)

theorem undefTile_canon {s} {tk} (h_s : Canon s) : Canon (undefTile s tk) := by
  unfold undefTile
  with_reducible repeat' first | assumption | apply freshSeed_canon | apply setTile_canon

theorem mapWaits_canon {s} {rake} {f} (h_s : Canon s) : Canon (mapWaits s rake f) := by
  unfold mapWaits
  with_reducible repeat' first
    | assumption | apply canon_to | (refine canon_snd (by assumption) ?_) | extract_lets | split
    | (refine canon_of ?_; dsimp only) | dsimp only | dsimp +zetaDelta only

theorem completeRegion_setRegion__canon {s} {k} {r} (h_s : Canon s) : Canon (completeRegion.setRegion_ s k r) := by
  unfold completeRegion.setRegion_
  with_reducible repeat' first
    | assumption | apply canon_to | (refine canon_snd (by assumption) ?_) | extract_lets | split
    | (refine canon_of ?_; dsimp only) | dsimp only | dsimp +zetaDelta only

theorem writeCompletion_canon {s} {r} (h_s : Canon s) : Canon (writeCompletion s r).2 := by
  unfold writeCompletion
  with_reducible repeat' first
    | assumption | apply writeOwn_canon | apply ownWriteV_canon | apply ownPieces_canon | apply ownWrite_canon
    | apply l2System_canon
    | apply canon_foldl2 | (refine canon_snd (by assumption) ?_) | (intro _) | split

theorem completeRegion_setRegion_canon {s} {k} {r} (h_s : Canon s) : Canon (completeRegion.setRegion_ s k r) := by
  unfold completeRegion.setRegion_
  with_reducible repeat' first | assumption | apply canon_to | (refine canon_of ?_; dsimp only)

theorem completeRegion_canon {s} {a} {z2} (h_s : Canon s) : Canon (completeRegion s a z2) := by
  induction a generalizing s z2 with
  | zero =>
    unfold completeRegion
    with_reducible repeat' first
      | assumption
  | succ n ih =>
    unfold completeRegion
    with_reducible repeat' first
      | assumption | apply ih | apply writeCompletion_canon | apply waitFault_canon | apply addPend_canon
      | apply completeRegion_setRegion_canon | (refine canon_snd (by assumption) ?_) | extract_lets | split

theorem checkRegion_canon {s} {rg} (h_s : Canon s) : Canon (checkRegion s rg) := by
  unfold checkRegion
  with_reducible repeat' first | assumption | apply completeRegion_canon | split

theorem releasePins_canon {s} (h_s : Canon s) : Canon (releasePins s) := by
  unfold releasePins
  with_reducible repeat' first | assumption | apply canon_to | extract_lets | (refine canon_of ?_; dsimp only)

theorem createRake_canon {s} {rg} {stage} {slot} (h_s : Canon s) : Canon (createRake s rg stage slot) := by
  unfold createRake
  repeat' first
    | with_reducible assumption | with_reducible apply canon_to | with_reducible apply canon_tput | extract_lets | split
    | (refine canon_of ?_; dsimp only) | exact padOk_nil

theorem fillSlot_canon {s} {rg} {st} {slot} {ready} (h_s : Canon s) : Canon (fillSlot s rg st slot ready) := by
  unfold fillSlot
  with_reducible repeat' first | assumption | apply modRake_canon | apply createRake_canon | (intro _) | split

theorem refillSlot_canon {s} {rg} {st} {slot} (h_s : Canon s) : Canon (refillSlot s rg st slot) := by
  unfold refillSlot
  with_reducible repeat' first | assumption | apply fillSlot_canon | apply modRegion_canon | split

theorem endRake_canon {s} {rk} (h_s : Canon s) : Canon (endRake s rk) := by
  unfold endRake
  with_reducible repeat' first
    | assumption | apply voidSessions_canon | apply releasePins_canon | apply checkRegion_canon | apply refillSlot_canon
    | apply canon_to | apply canon_tdel | extract_lets | split | (refine canon_of ?_; dsimp only)

theorem checkRake_canon {s} {rk} (h_s : Canon s) : Canon (checkRake s rk) := by
  unfold checkRake
  with_reducible repeat' first | assumption | apply endRake_canon | split

theorem recordDone_canon {s} {key} (h_s : Canon s) : Canon (recordDone s key) := by
  unfold recordDone
  with_reducible repeat' first
    | assumption | apply checkRake_canon | apply checkRegion_canon | apply forgetSession_canon | (intro _)
    | apply canon_to | extract_lets | split | (refine canon_of ?_; dsimp only) | dsimp only | dsimp +zetaDelta only

theorem unwindTile_canon {s} {k} {tk} (h_s : Canon s) : Canon (unwindTile s k tk) := by
  unfold unwindTile
  with_reducible repeat' first | assumption | apply undefTile_canon | apply setTile_canon

theorem unwindCoach_canon {s} {k} {z} {cause} {info} (h_s : Canon s) : Canon (unwindCoach s k z cause info) := by
  unfold unwindCoach
  with_reducible repeat' first
    | assumption | apply unwindTile_canon | apply freshSeed_canon | apply modCoach_canon | apply canon_foldl | (intro _)
    | extract_lets | split

theorem drayRelease_canon {s} {dk} {agt} (h_s : Canon s) : Canon (drayRelease s dk agt) := by
  unfold drayRelease
  with_reducible repeat' first | assumption | apply releaseGlobal_canon | apply l2System_canon | extract_lets | split

theorem setDray_canon {s} {dk} {d} (h_s : Canon s) : Canon (setDray s dk d) := by
  unfold setDray
  with_reducible repeat' first | assumption | apply canon_to | (refine canon_of ?_; dsimp only)

theorem deliverPromise_canon {s} {rake} {k} {c} (h_s : Canon s) : Canon (deliverPromise s rake k c) := by
  unfold deliverPromise
  with_reducible repeat' first | assumption | apply modRake_canon | apply modCoach_canon | apply canon_foldl | (intro _) | split

theorem drayAcquire_canon {s} {dk} {agt} (h_s : Canon s) : Canon (drayAcquire s dk agt) := by
  unfold drayAcquire
  with_reducible repeat' first | assumption | apply acquireGlobal_canon | apply l2System_canon | extract_lets | split

theorem stopDray_wakeTlw_canon {s} {dk} (h_s : Canon s) : Canon (stopDray.wakeTlw s dk) := by
  unfold stopDray.wakeTlw
  with_reducible repeat' first
    | assumption | apply drayAcquire_canon | apply setDray_canon | apply canon_foldl | apply canon_foldl2 | (intro _)
    | apply canon_to | extract_lets | split | (refine canon_of ?_; dsimp only) | dsimp only | dsimp +zetaDelta only

theorem wakeAcquire_canon {s} {co} {w} (h_s : Canon s) : Canon (wakeAcquire s co w) := by
  unfold wakeAcquire
  with_reducible repeat' first | assumption | apply acquireGlobal_canon | extract_lets | split

theorem releaseTile_canon {s} {k} {t} (h_s : Canon s) : Canon (releaseTile s k t) := by
  unfold releaseTile
  with_reducible repeat' first | assumption | apply setTile_canon | apply modCoach_canon

theorem wakeOne_canon {s} {k} {l} (h_s : Canon s) : Canon (wakeOne s k l) := by
  unfold wakeOne
  with_reducible repeat' first
    | assumption | apply wakeAcquire_canon | apply releaseTile_canon | apply modCoach_canon | apply raiseTrap_canon
    | extract_lets | split | dsimp +zetaDelta only

theorem wakeReady_canon {s} {k} (h_s : Canon s) : Canon (wakeReady s k) := by
  unfold wakeReady
  with_reducible repeat' first | assumption | apply wakeOne_canon | apply canon_foldl | (intro _)

theorem wakeCoaches_canon {s} {sel} (h_s : Canon s) : Canon (wakeCoaches s sel) := by
  unfold wakeCoaches
  with_reducible repeat' first | assumption | apply wakeReady_canon | apply canon_foldl

theorem stopDray_canon {s} {dk} {state} {fcode} (h_s : Canon s) : Canon (stopDray s dk state fcode) := by
  unfold stopDray
  with_reducible repeat' first
    | assumption | apply clearRevoked_canon | apply drayRelease_canon | apply setDray_canon
    | apply deliverPromise_canon | apply modRake_canon
    | apply stopDray_wakeTlw_canon | apply wakeCoaches_canon | apply checkRake_canon | (intro _) | extract_lets | split

theorem cancelLaunch_canon {s} {rk} {k} {fcode} (h_s : Canon s) : Canon (cancelLaunch s rk k fcode) := by
  unfold cancelLaunch
  with_reducible repeat' first
    | assumption | apply stopDray_canon | apply modRake_canon | apply modCoach_canon | apply canon_foldl | (intro _)
    | extract_lets | split

theorem unwindZone_canon {s} {rk} {z} {cause} {info} (h_s : Canon s) : Canon (unwindZone s rk z cause info) := by
  unfold unwindZone
  with_reducible repeat' first
    | assumption | apply unwindCoach_canon | apply modRake_canon | apply cancelLaunch_canon | apply voidSessions_canon
    | apply canon_foldl | (intro _) | extract_lets | split

theorem dropTiles_canon {s} {k} (h_s : Canon s) : Canon (dropTiles s k) := by
  unfold dropTiles
  with_reducible repeat' first | assumption | apply undefTile_canon | apply setTile_canon | apply canon_foldl | (intro _)

theorem dropPort_canon {s} {pk} (h_s : Canon s) : Canon (dropPort s pk) := by
  unfold dropPort
  with_reducible repeat' first | assumption | apply canon_to | extract_lets | (refine canon_of ?_; dsimp only)

theorem closePorts_canon {s} {k} (h_s : Canon s) : Canon (closePorts s k) := by
  unfold closePorts
  with_reducible repeat' first | assumption | apply modCoach_canon | apply dropPort_canon | apply canon_foldl | (intro _)

theorem dropIdle_canon {s} {k} (h_s : Canon s) : Canon (dropIdle s k) := by
  unfold dropIdle
  with_reducible repeat' first
    | assumption | apply undefTile_canon | apply setTile_canon | apply canon_foldl | apply canon_foldl2 | (intro _)
    | apply canon_to | extract_lets | split | (refine canon_of ?_; dsimp only) | dsimp only | dsimp +zetaDelta only

theorem removeCoach_canon {s} {k} (h_s : Canon s) : Canon (removeCoach s k) := by
  unfold removeCoach
  with_reducible repeat' first
    | assumption | apply dropTiles_canon | apply closePorts_canon | apply modRake_canon | apply canon_to | (intro _)
    | extract_lets | (refine canon_of ?_; dsimp only)

theorem killRake_canon {s} {rk} {cause} (h_s : Canon s) : Canon (killRake s rk cause) := by
  unfold killRake
  with_reducible repeat' first
    | assumption | apply cancelLaunch_canon | apply voidSessions_canon | apply removeCoach_canon | apply releasePins_canon
    | apply canon_foldl | apply canon_to | apply canon_tdel | (intro _) | extract_lets | split
    | (refine canon_of ?_; dsimp only)

theorem tearRegions_canon {s} {rgs} {status} {cause} (h_s : Canon s) : Canon (tearRegions s rgs status cause) := by
  unfold tearRegions
  with_reducible repeat' first
    | assumption | apply checkRegion_canon | apply modRegion_canon | apply killRake_canon
    | apply completeRegion_canon | apply canon_foldl
    | apply canon_to | (intro _) | extract_lets | dsimp only | (refine canon_of ?_; dsimp only)

theorem tearQueue_canon {s} {ctx} {q} {status} (h_s : Canon s) : Canon (tearQueue s ctx q status) := by
  unfold tearQueue
  with_reducible repeat' first
    | assumption | apply tearRegions_canon | apply modCtx_canon | apply canon_foldl | apply canon_to | (intro _)
    | extract_lets | dsimp only | (refine canon_of ?_; dsimp only)

theorem uncontained_canon {s} {rg} (h_s : Canon s) : Canon (uncontained s rg) := by
  unfold uncontained
  with_reducible repeat' first | assumption | apply tearRegions_canon | apply tearQueue_canon | split

theorem coachError_canon {s} {k} {cause} {info} (h_s : Canon s) : Canon (coachError s k cause info) := by
  unfold coachError
  with_reducible repeat' first | assumption | apply unwindZone_canon | apply uncontained_canon | extract_lets | split

theorem checkCoach_canon {s} {k} (h_s : Canon s) : Canon (checkCoach s k) := by
  unfold checkCoach
  with_reducible repeat' first
    | assumption | apply dropIdle_canon | apply closePorts_canon | apply checkRake_canon | apply removeCoach_canon
    | (intro _) | apply canon_to | extract_lets | split | (refine canon_of ?_; dsimp only) | dsimp only
    | dsimp +zetaDelta only

theorem checkJoins_canon {s} {k} (h_s : Canon s) : Canon (checkJoins s k) := by
  unfold checkJoins
  with_reducible repeat' first | assumption | apply raiseTrap_canon | extract_lets | split

theorem setBarrier_canon {s} {rake} {b} {x} (h_s : Canon s) : Canon (setBarrier s rake b x) := by
  unfold setBarrier
  with_reducible repeat' first | assumption | apply modRake_canon | (intro _)

theorem arrive_canon {s} {rake} {b} {n} (h_s : Canon s) : Canon (arrive s rake b n).2 := by
  unfold arrive
  with_reducible repeat' first
    | assumption | apply setBarrier_canon | apply wakeCoaches_canon | apply mapWaits_canon | apply canon_to
    | extract_lets | split | (refine canon_of ?_; dsimp only) | dsimp only | dsimp +zetaDelta only

theorem flushCtx_canon {s} {ctx} (h_s : Canon s) : Canon (flushCtx s ctx) := by
  unfold flushCtx
  with_reducible repeat' first
    | assumption | apply l1WriteBackAll_canon | apply canon_foldl | apply canon_foldl2 | (intro _) | apply canon_to
    | extract_lets | split | (refine canon_of ?_; dsimp only) | dsimp only | dsimp +zetaDelta only

theorem resetCtx_canon {s} {ctx} (h_s : Canon s) : Canon (resetCtx s ctx) := by
  unfold resetCtx
  with_reducible repeat' first
    | assumption | apply flushCtx_canon | apply tearRegions_canon | apply voidSessions_canon | apply canon_to
    | extract_lets | (refine canon_of ?_; dsimp only)

theorem drayError_canon {s} {dk} {cause} {info} (h_s : Canon s) : Canon (drayError s dk cause info) := by
  unfold drayError
  with_reducible repeat' first
    | assumption | apply setDray_canon | apply unwindZone_canon | apply uncontained_canon | apply stopDray_canon
    | apply canon_to | extract_lets | split | (refine canon_of ?_; dsimp only) | dsimp only | dsimp +zetaDelta only

theorem timelineMoved_canon {s} {dk} (h_s : Canon s) : Canon (timelineMoved s dk) := by
  unfold timelineMoved
  with_reducible repeat' first | assumption | apply wakeCoaches_canon | apply stopDray_wakeTlw_canon

/-! ### Machine/Operands.lean -/

theorem releaseFpe_canon {s} {k} {i} (h_s : Canon s) : Canon (releaseFpe s k i) := by
  unfold releaseFpe
  with_reducible repeat' first | assumption | apply raiseTrap_canon | apply setCoach_canon | extract_lets | split

theorem stallLanes_canon {s} {k} {i} {m} {kind} (h_s : Canon s) : Canon (stallLanes s k i m kind) := by
  unfold stallLanes
  with_reducible repeat' first | assumption | apply modCoach_canon

theorem stallHolding_canon {c} {s} {kind} (h_s : Canon s) : Canon (stallHolding c s kind) := by
  unfold stallHolding
  with_reducible repeat' first
    | assumption | apply stallLanes_canon | apply canon_foldl | apply canon_foldl2 | (intro _) | apply canon_to
    | extract_lets | split | (refine canon_of ?_; dsimp only) | dsimp only | dsimp +zetaDelta only

theorem finishGroup_canon {c} {s} (h_s : Canon s) : Canon (finishGroup c s) := by
  unfold finishGroup
  with_reducible repeat' first | assumption | apply releaseFpe_canon | apply modCoach_canon

theorem unpop_canon {c} {s} (h_s : Canon s) : Canon (unpop c s) := by
  unfold unpop
  with_reducible repeat' first
    | assumption | apply setQueue_canon | apply canon_foldl | apply canon_to | (intro _) | extract_lets | split
    | (refine canon_of ?_; dsimp only)

theorem useTurn_canon {s} {k} (h_s : Canon s) : Canon (useTurn s k) := by
  unfold useTurn
  with_reducible repeat' first | assumption | apply modCoach_canon

theorem awaitTurn_canon {s} {k} {i} {grp} (h_s : Canon s) : Canon (awaitTurn s k i grp) := by
  unfold awaitTurn
  with_reducible repeat' first | assumption | apply stallLanes_canon | apply modCoach_canon

theorem shadowError_canon {s} {k} {lanes} {info} (h_s : Canon s) : Canon (shadowError s k lanes info) := by
  unfold shadowError
  with_reducible repeat' first | assumption | apply coachError_canon | apply modCoach_canon

theorem deliverTo_canon {c} {lanes} {n} {val} {fl} {s} (h_s : Canon s) : Canon (deliverTo c lanes n val fl s) := by
  unfold deliverTo
  with_reducible repeat' first
    | assumption | apply shadowError_canon | apply finishGroup_canon | apply setCoach_canon | apply stallLanes_canon
    | apply pushReg_canon | apply modCoach_canon | apply parkLanes_canon | apply unpop_canon
    | (refine canon_pdone (by assumption) ?_) | (refine canon_pxlat (by assumption) ?_) | extract_lets | split

theorem markerCommit_canon {s} {k} {i} {grp} (h_s : Canon s) : CanonReady (markerCommit s k i grp) := by
  unfold markerCommit
  with_reducible repeat' first
    | assumption | apply canon_mk_ready_go | apply canon_mk_ready_stop | apply raiseTrap_canon
    | apply stallLanes_canon | apply commitAll_canon | apply setCoach_canon | apply canon_to
    | (refine canon_snd (by assumption) ?_) | extract_lets | split | (refine canon_of ?_; dsimp only) | dsimp only
    | dsimp +zetaDelta only

theorem takePop_canon {s} {k} {i} {q} (h_s : Canon s) : CanonOP (takePop s k i q) := by
  unfold takePop
  with_reducible repeat' first
    | assumption | apply canon_mk_nonep | apply canon_mk_somep | apply setCoach_canon | apply popQueue_canon
    | apply acquireGlobal_canon | (refine canon_somep (by assumption) ?_) | apply canon_to | extract_lets | split
    | dsimp only | (refine canon_of ?_; dsimp only)

theorem takePops_canon {s} {k} {i} {a} {z4} (h_s : Canon s) : CanonOP (takePops s k i a z4) := by
  induction a generalizing s k i z4 with
  | nil =>
    unfold takePops
    with_reducible repeat' first
      | assumption | apply canon_mk_somep
  | cons x l ih =>
    unfold takePops
    with_reducible repeat' first
      | assumption | apply ih | apply canon_mk_nonep | apply takePop_canon | (refine canon_somep (by assumption) ?_)
      | split

theorem native_canon {w} {sp} {body} {s} (h_body : (∀ x0 x1, Canon x1 → Canon (body x0 x1))) (h_s : Canon s) :
    Canon (native w sp body s) := by
  unfold native
  with_reducible repeat' first
    | assumption | apply canon_mk_ready_go | apply h_body | apply illegal_canon | apply releaseFpe_canon
    | apply modCoach_canon | apply markerCommit_canon | apply stallLanes_canon | apply awaitTurn_canon
    | apply takePops_canon | apply useTurn_canon | (refine canon_go (by assumption) ?_)
    | (refine canon_rstop (by assumption) ?_) | (refine canon_somep (by assumption) ?_) | extract_lets | split

theorem deliver_canon {c} {wide} {f} {s} (h_s : Canon s) : Canon (deliver c wide f s) := by
  unfold deliver
  with_reducible repeat' first | assumption | apply deliverTo_canon

theorem reject_canon {c} {s} {sub} {fieldNo} (h_s : Canon s) : Canon (reject c s sub fieldNo) := by
  unfold reject
  with_reducible repeat' first | assumption | apply illegal_canon | apply unpop_canon

theorem passTrap_canon {k} {i} {grp} {s} {t} (h_s : Canon s) : Canon (passTrap k i grp s t) := by
  unfold passTrap
  with_reducible repeat' first | assumption | apply raiseTrap_canon

/-! ### Machine/Access.lean -/

theorem accessTrap_canon {c} {s} {cls} {lanes} {fieldNo} {addrs} (h_s : Canon s) :
    Canon (accessTrap c s cls lanes fieldNo addrs) := by
  unfold accessTrap
  with_reducible repeat' first | assumption | apply raiseTrap_canon | apply unpop_canon

theorem claimOwners_canon {s} {rg} {f} (h_s : Canon s) : Canon (claimOwners s rg f) := by
  unfold claimOwners
  with_reducible repeat' first
    | assumption | apply modRegion_canon | apply detAreaWrite_canon | apply canon_foldl | apply canon_foldl2
    | (intro _) | apply canon_to | extract_lets | split | (refine canon_of ?_; dsimp only) | dsimp only
    | dsimp +zetaDelta only

theorem clearCopy_canon {s} {unit} {line} (h_s : Canon s) : Canon (clearCopy s unit line) := by
  unfold clearCopy
  with_reducible repeat' first
    | assumption | apply clearPoison_canon | apply l1Put_canon | (intro _) | apply canon_to | extract_lets | split
    | (refine canon_of ?_; dsimp only) | dsimp only | dsimp +zetaDelta only

theorem logConsumed_canon {s} {k} {source} {die} {pa} (h_s : Canon s) : Canon (logConsumed s k source die pa) := by
  unfold logConsumed
  with_reducible repeat' first
    | assumption | apply logError_canon | (intro _) | apply canon_to | extract_lets | split
    | (refine canon_of ?_; dsimp only) | dsimp only | dsimp +zetaDelta only

theorem memerr_canon {s} {k} {line} (h_s : Canon s) : Canon (memerr s k line) := by
  unfold memerr
  with_reducible repeat' first | assumption | apply logConsumed_canon | apply coachError_canon | apply logError_canon

theorem xlatBad_canon {s} {k} {pa} {va} {page} (h_s : Canon s) : Canon (xlatBad s k pa va page) := by
  unfold xlatBad
  with_reducible repeat' first
    | assumption | apply coachError_canon | apply logConsumed_canon | apply memerr_canon | (intro _) | apply canon_to
    | extract_lets | split | (refine canon_of ?_; dsimp only) | dsimp only | dsimp +zetaDelta only

theorem parkBad_canon {s} {k} {a} {bad} (h_s : Canon s) : Canon (parkBad s k a bad) := by
  unfold parkBad
  with_reducible repeat' first | assumption | apply parkLanes_canon | apply canon_foldl | (intro _)

theorem failFound_canon {s} {k} {a} {f} {e} (h_s : Canon s) : Canon (failFound s k a f e) := by
  unfold failFound
  with_reducible repeat' first
    | assumption | apply xlatBad_canon | apply parkBad_canon | (intro _) | apply canon_to | extract_lets | split
    | (refine canon_of ?_; dsimp only) | dsimp only | dsimp +zetaDelta only

theorem togetherAt_canon {c} {s} {va} {a} {f} (h_s : Canon s) (h_f : ∀ p x, Canon x → Canon (f p x)) :
    Canon (togetherAt c s va a f) := by
  unfold togetherAt
  with_reducible repeat' first
    | assumption | apply h_f | apply coachXlate_canon | apply finishGroup_canon | apply parkLanes_canon | apply xlatBad_canon
    | (intro _) | apply canon_to | (refine canon_snd (by assumption) ?_) | extract_lets | split
    | (refine canon_of ?_; dsimp only) | dsimp only | dsimp +zetaDelta only

theorem endsBundle_canon {s} {k} (h_s : Canon s) : Canon (endsBundle s k) := by
  unfold endsBundle
  with_reducible repeat' first | assumption | apply modCoach_canon | split

theorem findLanes_canon {s} {k} {a} {z3} {z4} (h_s : Canon s) : Canon (findLanes s k a z3 z4).2 := by
  induction z3 generalizing s k a z4 with
  | nil =>
    unfold findLanes
    with_reducible repeat' first
      | assumption
  | cons x l ih =>
    unfold findLanes
    with_reducible repeat' first | assumption | apply ih | apply coachXlate_canon | (refine canon_snd (by assumption) ?_) | split

theorem claimLines_canon {s} {co} {vas} (h_s : Canon s) : Canon (claimLines s co vas) := by
  unfold claimLines
  with_reducible repeat' first | assumption | apply claimOwners_canon | apply modRegion_canon | extract_lets | split

theorem orderCoach_canon {s} {k} {ord} {agt} {stg} (h_s : Canon s) : Canon (orderCoach s k ord agt stg) := by
  unfold orderCoach
  with_reducible repeat' first | assumption | apply orderGlobal_canon

theorem readPieces_canon {s} {k} {n} {bypass} {strm} {a} {z6} (h_s : Canon s) :
    Canon (readPieces s k n bypass strm a z6).2 := by
  induction a generalizing s k n bypass strm z6 with
  | nil =>
    unfold readPieces
    with_reducible repeat' first
      | assumption
  | cons x l ih =>
    unfold readPieces
    with_reducible repeat' first | assumption | apply ih | apply coachRead_canon | (refine canon_snd (by assumption) ?_) | split

theorem clearCovered_canon {s} {unit} {ws} (h_s : Canon s) : Canon (clearCovered s unit ws) := by
  unfold clearCovered
  with_reducible repeat' first
    | assumption | apply clearCopy_canon | apply canon_foldl | apply canon_foldl2 | (intro _) | apply canon_to
    | extract_lets | split | (refine canon_of ?_; dsimp only) | dsimp only | dsimp +zetaDelta only

theorem writePieces_canon {s} {k} {bypass} {strm} {ps} (h_s : Canon s) : Canon (writePieces s k bypass strm ps) := by
  unfold writePieces
  with_reducible repeat' first
    | assumption | apply coachWrite_canon | apply clearCovered_canon | apply canon_foldl | apply canon_foldl2
    | (intro _) | apply canon_to | extract_lets | split | (refine canon_of ?_; dsimp only) | dsimp only
    | dsimp +zetaDelta only

theorem checkAccess_canon {c} {s} {addrs} {out} {n} (h_s : Canon s) : CanonO (checkAccess c s addrs out n) := by
  unfold checkAccess
  with_reducible repeat' first
    | assumption | apply canon_mk_none | apply canon_mk_some | apply accessTrap_canon | extract_lets | split

theorem detviol_canon {c} {s} {cause} {lanes} {owner} {va} (h_s : Canon s) : Canon (detviol c s cause lanes owner va) := by
  unfold detviol
  with_reducible repeat' first | assumption | apply raiseTrap_canon | apply unpop_canon

theorem shadowStop_canon {c} {s} {lanes} {addrs} (h_s : Canon s) : CanonO (shadowStop c s lanes addrs) := by
  unfold shadowStop
  with_reducible repeat' first
    | assumption | apply canon_mk_none | apply canon_mk_some | apply shadowError_canon | apply unpop_canon | (intro _)
    | apply canon_to | extract_lets | split | (refine canon_of ?_; dsimp only) | dsimp only | dsimp +zetaDelta only

theorem ownerStop_canon {c} {s} {addrs} (h_s : Canon s) : CanonO (ownerStop c s addrs) := by
  unfold ownerStop
  with_reducible repeat' first
    | assumption | apply canon_mk_none | apply canon_mk_some | apply detviol_canon | extract_lets | split

theorem withRoom_canon {c} {s} {f} (h_s : Canon s) (h_f : (∀ x0, Canon x0 → Canon (f x0))) : Canon (withRoom c s f) := by
  unfold withRoom
  with_reducible repeat' first | assumption | apply stallHolding_canon | apply h_f | apply stallLanes_canon | split

theorem endingBundle_canon {c} {s} {f} (h_s : Canon s) (h_f : ∀ x, Canon x → Canon (f x)) : Canon (endingBundle c s f) := by
  unfold endingBundle
  with_reducible repeat' first
    | assumption | apply h_f | apply withRoom_canon | apply endsBundle_canon | (intro _) | apply canon_to
    | extract_lets | split | (refine canon_of ?_; dsimp only) | dsimp only | dsimp +zetaDelta only

end Sys2Proof.Laws
end

