-- ==== Sys2Proof/Laws/CanonLanes.lean ====
section
/-! SUPPORT. What the native operations leave canonical. -/
namespace Sys2Proof.Laws
open Sys2Proof.Machine

/-! ### Machine/Control.lean -/

theorem exitLanes_canon {s} {k} {m} (h_s : Canon s) : Canon (exitLanes s k m) := by
  unfold exitLanes
  with_reducible repeat' first
    | assumption | apply modCoach_canon | apply endsBundle_canon | apply checkCoach_canon | apply checkJoins_canon
    | extract_lets | split

theorem branchTo_canon {c} {target} {s} (h_s : Canon s) : Canon (branchTo c target s) := by
  unfold branchTo
  with_reducible repeat' first | assumption | apply modCoach_canon | apply releaseFpe_canon

theorem privDet_canon {c} {s} {vas} {f} (h_s : Canon s) (h_f : ∀ x, Canon x → Canon (f x)) : Canon (privDet c s vas f) := by
  unfold privDet
  with_reducible repeat' first
    | assumption | apply h_f | apply detviol_canon | apply canon_to | (refine canon_snd (by assumption) ?_)
    | extract_lets | split | (refine canon_of ?_; dsimp only) | dsimp only | dsimp +zetaDelta only

theorem callTo_canon {c} {target} {s} (h_s : Canon s) : Canon (callTo c target s) := by
  unfold callTo
  with_reducible repeat' first
    | assumption | apply accessTrap_canon | apply privDet_canon | refine canon_getD (ownerStop_canon (by assumption)) ?_
    | apply findLanes_canon | apply failFound_canon | apply parkBad_canon | apply claimLines_canon | apply writePieces_canon
    | apply modCoach_canon | apply branchTo_canon | (intro _) | (refine canon_snd (by assumption) ?_) | split
    | dsimp only

theorem sleepIn_canon {c} {wt} {s} (h_s : Canon s) : Canon (sleepIn c wt s) := by
  unfold sleepIn
  with_reducible repeat' first | assumption | apply modCoach_canon | apply releaseFpe_canon

theorem execBra_canon {w} {s} (h_s : Canon s) : CanonOut (execBra w s) := by
  unfold execBra
  with_reducible repeat' first | assumption | apply canon_mk_out_next | apply native_canon | apply branchTo_canon | (intro _)

theorem indirect_canon {c} {s} {f} (h_s : Canon s) (h_f : (∀ x0, Canon (f x0))) : Canon (indirect c s f) := by
  unfold indirect
  with_reducible repeat' first | assumption | apply h_f | apply accessTrap_canon | extract_lets | split

theorem execBrx_canon {w} {s} (h_s : Canon s) : CanonOut (execBrx w s) := by
  unfold execBrx
  with_reducible repeat' first
    | assumption | apply canon_mk_out_next | apply native_canon | apply indirect_canon | apply branchTo_canon | (intro _)

theorem execCall_canon {w} {s} (h_s : Canon s) : CanonOut (execCall w s) := by
  unfold execCall
  with_reducible repeat' first | assumption | apply canon_mk_out_next | apply native_canon | apply callTo_canon | (intro _)

theorem execCallx_canon {w} {s} (h_s : Canon s) : CanonOut (execCallx w s) := by
  unfold execCallx
  with_reducible repeat' first
    | assumption | apply canon_mk_out_next | apply native_canon | apply indirect_canon | apply callTo_canon | (intro _)

theorem execExit_canon {w} {s} (h_s : Canon s) : CanonOut (execExit w s) := by
  unfold execExit
  with_reducible repeat' first
    | assumption | apply canon_mk_out_next | apply native_canon | apply withRoom_canon | apply modCoach_canon
    | apply exitLanes_canon | apply releaseFpe_canon | (intro _)

theorem execJoin_canon {w} {s} (h_s : Canon s) : CanonOut (execJoin w s) := by
  unfold execJoin
  with_reducible repeat' first
    | assumption | apply canon_mk_out_next | apply native_canon | apply finishGroup_canon | apply modCoach_canon
    | apply releaseFpe_canon | apply checkJoins_canon | (intro _) | extract_lets | split

theorem execNop_canon {w} {s} (h_s : Canon s) : CanonOut (execNop w s) := by
  unfold execNop
  with_reducible repeat' first | assumption | apply canon_mk_out_next | apply native_canon | apply finishGroup_canon

theorem execRet_illegalIn_canon {c} {s} {lanes} (h_s : Canon s) : Canon (execRet.illegalIn c s lanes) := by
  unfold execRet.illegalIn
  with_reducible repeat' first | assumption | apply raiseTrap_canon

theorem execRet_canon {w} {s} (h_s : Canon s) : CanonOut (execRet w s) := by
  unfold execRet
  with_reducible repeat' first
    | assumption | apply privDet_canon | apply failFound_canon | apply canon_mk_out_next | apply native_canon
    | apply execRet_illegalIn_canon | apply findLanes_canon
    | apply coachError_canon | apply readPieces_canon | apply memerr_canon | apply parkBad_canon | apply modCoach_canon
    | apply branchTo_canon | (refine canon_snd (by assumption) ?_) | (intro _) | extract_lets | split

theorem execSleep_canon {w} {s} (h_s : Canon s) : CanonOut (execSleep w s) := by
  unfold execSleep
  with_reducible repeat' first
    | assumption | apply canon_mk_out_next | apply native_canon | apply finishGroup_canon | apply sleepIn_canon | (intro _)
    | extract_lets | split

theorem execSleepBar_canon {w} {s} (h_s : Canon s) : CanonOut (execSleepBar w s) := by
  unfold execSleepBar
  with_reducible repeat' first
    | assumption | apply canon_mk_out_next | apply native_canon | apply wakeReady_canon | apply sleepIn_canon | (intro _)
    | extract_lets | split

theorem execYield_canon {w} {s} (h_s : Canon s) : CanonOut (execYield w s) := by
  unfold execYield
  with_reducible repeat' first
    | assumption | apply canon_mk_out_next | apply native_canon | apply finishGroup_canon | apply canon_to | (intro _)
    | extract_lets | split | (refine canon_of ?_; dsimp only)

/-! ### Machine/Memory.lean -/

theorem atTurn_canon {c} {s} {a} {addrs} {f} (h_s : Canon s) (h_f : (∀ x0 x1, Canon x1 → Canon (f x0 x1))) :
    Canon (atTurn c s a addrs f) := by
  unfold atTurn
  with_reducible repeat' first
    | assumption | apply failFound_canon | apply stallHolding_canon | apply h_f | apply acquireGlobal_canon
    | apply useTurn_canon
    | apply stallLanes_canon
    | apply findLanes_canon | apply coachError_canon | apply parkBad_canon | apply finishGroup_canon
    | apply awaitTurn_canon | (refine canon_snd (by assumption) ?_) | extract_lets | split

theorem deliverLoad_canon {c} {ty} {t} {s} (h_s : Canon s) : Canon (deliverLoad c ty t s) := by
  unfold deliverLoad
  with_reducible repeat' first | assumption | apply deliverTo_canon

theorem stageLanes_canon {c} {s} {a} {addrs} {entry} (h_s : Canon s) : Canon (stageLanes c s a addrs entry) := by
  unfold stageLanes
  with_reducible repeat' first
    | assumption | apply failFound_canon | apply stallHolding_canon | apply stallLanes_canon | apply findLanes_canon
    | apply coachError_canon | apply parkBad_canon
    | apply finishGroup_canon | apply stage_canon | (refine canon_snd (by assumption) ?_) | extract_lets | split

theorem padError_canon {s} {k} (h_s : Canon s) : Canon (padError s k) := by
  unfold padError
  with_reducible repeat' first | assumption | apply logConsumed_canon | apply coachError_canon | apply logError_canon

theorem loadGlobal_canon {c} {s} {addrs} (h_s : Canon s) : Canon (loadGlobal c s addrs) := by
  unfold loadGlobal
  with_reducible repeat' first
    | assumption | apply failFound_canon | apply findLanes_canon | apply coachError_canon | apply orderCoach_canon
    | apply readPieces_canon
    | apply memerr_canon | apply deliverLoad_canon | apply parkBad_canon | (refine canon_snd (by assumption) ?_)
    | extract_lets | split | dsimp +zetaDelta only

theorem execLd_canon {w} {s} (h_s : Canon s) : CanonOut (execLd w s) := by
  unfold execLd
  with_reducible repeat' first
    | assumption | apply canon_mk_out_next | apply native_canon | apply checkAccess_canon | apply detviol_canon
    | apply atTurn_canon | apply loadGlobal_canon | (refine canon_some (by assumption) ?_) | (intro _) | extract_lets
    | split

theorem lineOffset_canon {c} {s} {f} (h_s : Canon s) (h_f : (∀ x0, Canon (f x0))) : Canon (lineOffset c s f) := by
  unfold lineOffset
  with_reducible repeat' first | assumption | apply h_f | apply accessTrap_canon | extract_lets | split

theorem withMap_canon {c} {s} {addrs} {a} {f} (h_s : Canon s) (h_f : (∀ x0, Canon x0 → Canon (f x0))) :
    Canon (withMap c s addrs a f) := by
  unfold withMap
  with_reducible repeat' first
    | assumption | apply errorReset_canon | apply h_f | apply areaPieces_canon | apply markReset_canon
    | apply canon_foldl2 | (intro _)
    | extract_lets | split

theorem slotAt_canon {c} {s} {o} {a} {f} (h_s : Canon s) (h_f : (∀ x0 x1, Canon x1 → Canon (f x0 x1))) :
    Canon (slotAt c s o a f) := by
  unfold slotAt
  with_reducible repeat' first
    | assumption | apply togetherAt_canon | apply h_f | apply coachXlate_canon | apply finishGroup_canon
    | apply parkLanes_canon
    | apply coachError_canon | (refine canon_snd (by assumption) ?_) | extract_lets | split

theorem formatOf_canon {s} {co} {o} (h_s : Canon s) : Canon (formatOf s co o).2 := by
  unfold formatOf
  with_reducible repeat' first | assumption | apply ownReadV_canon | (refine canon_snd (by assumption) ?_) | split

theorem loadLine_canon {c} {o} {s} (h_s : Canon s) : Canon (loadLine c o s) := by
  unfold loadLine
  with_reducible repeat' first
    | assumption | apply lineOffset_canon | apply withMap_canon | apply slotAt_canon | apply formatOf_canon
    | apply readPieces_canon | apply memerr_canon | apply coachError_canon | apply finishGroup_canon | apply setCoach_canon
    | (refine canon_snd (by assumption) ?_) | (intro _) | extract_lets | split

theorem privWords_canon {s} {k} {n} {a} {addrs} (h_s : Canon s) : Canon (privWords s k n a addrs).2 := by
  unfold privWords
  with_reducible repeat' first | assumption | apply findLanes_canon

theorem privLoadWord_canon {s} {k} {p} {o} (h_s : Canon s) : Canon (privLoadWord s k p o).2 := by
  unfold privLoadWord
  with_reducible repeat' first
    | assumption | apply formatOf_canon | apply readPieces_canon | (refine canon_snd (by assumption) ?_) | extract_lets
    | split

theorem privRead_canon {k} {n} {a} {z3} {z4} (h_z4 : Canon z4) : Canon (privRead k n a z3 z4).2 := by
  induction a generalizing k n z3 z4 with
  | nil =>
    unfold privRead
    with_reducible repeat' first
      | assumption
  | cons x l ih =>
    unfold privRead
    with_reducible repeat' first | assumption | apply ih | apply privLoadWord_canon | (refine canon_snd (by assumption) ?_) | split

theorem privError_canon {s} {k} {a} (h_s : Canon s) : Canon (privError s k a) := by
  unfold privError
  with_reducible repeat' first | assumption | apply memerr_canon | apply coachError_canon | split

theorem execLdl_canon {w} {s} (h_s : Canon s) : CanonOut (execLdl w s) := by
  unfold execLdl
  with_reducible repeat' first
    | assumption | apply failFound_canon | apply lineOffset_canon | apply privDet_canon | apply canon_mk_out_next
    | apply native_canon
    | apply detviol_canon | apply loadLine_canon
    | apply checkAccess_canon | apply withMap_canon | apply privWords_canon | apply coachError_canon
    | apply privRead_canon
    | apply privError_canon | apply deliverLoad_canon | apply parkBad_canon | (refine canon_some (by assumption) ?_)
    | (refine canon_snd (by assumption) ?_) | (intro _) | extract_lets | split

theorem execLds_canon {w} {s} (h_s : Canon s) : CanonOut (execLds w s) := by
  unfold execLds
  with_reducible repeat' first
    | assumption | apply canon_mk_out_next | apply native_canon | apply checkAccess_canon | apply padError_canon
    | apply orderCoach_canon | apply deliverLoad_canon | (refine canon_some (by assumption) ?_) | (intro _) | extract_lets
    | split

theorem storeGlobal_canon {c} {s} {addrs} (h_s : Canon s) : Canon (storeGlobal c s addrs) := by
  unfold storeGlobal
  with_reducible repeat' first
    | assumption | apply failFound_canon | apply findLanes_canon | apply claimLines_canon | apply writePieces_canon
    | apply coachError_canon
    | apply orderCoach_canon | apply finishGroup_canon | apply parkBad_canon | (refine canon_snd (by assumption) ?_)
    | extract_lets | split | dsimp +zetaDelta only

theorem execSt_canon {w} {s} (h_s : Canon s) : CanonOut (execSt w s) := by
  unfold execSt
  with_reducible repeat' first
    | assumption | apply canon_mk_out_next | apply native_canon | apply checkAccess_canon | apply shadowStop_canon
    | apply detviol_canon | apply stageLanes_canon | apply ownerStop_canon | apply storeGlobal_canon
    | (refine canon_some (by assumption) ?_) | (intro _) | extract_lets | split

theorem setFormat_canon {s} {co} {o} {f} (h_s : Canon s) : Canon (setFormat s co o f) := by
  unfold setFormat
  with_reducible repeat' first | assumption | apply ownWriteV_canon

theorem storeLine_canon {c} {o} {s} (h_s : Canon s) : Canon (storeLine c o s) := by
  unfold storeLine
  with_reducible repeat' first
    | assumption | apply lineOffset_canon | apply withMap_canon | apply slotAt_canon | apply writePieces_canon
    | apply finishGroup_canon | apply setFormat_canon | (intro _)

theorem expandSlot_canon {s} {k} {o} {p} (h_s : Canon s) : Canon (expandSlot s k o p).2 := by
  unfold expandSlot
  with_reducible repeat' first
    | assumption | apply formatOf_canon | apply readPieces_canon | apply setFormat_canon | apply writePieces_canon
    | (refine canon_snd (by assumption) ?_) | extract_lets | split

theorem privWrite_canon {k} {n} {data} {a} {z4} (h_z4 : Canon z4) : Canon (privWrite k n data a z4).2 := by
  induction a generalizing k n data z4 with
  | nil =>
    unfold privWrite
    with_reducible repeat' first
      | assumption
  | cons x l ih =>
    unfold privWrite
    with_reducible repeat' first
      | assumption | apply ih | apply expandSlot_canon | apply writePieces_canon | (refine canon_snd (by assumption) ?_)
      | extract_lets | split

theorem execStl_canon {w} {s} (h_s : Canon s) : CanonOut (execStl w s) := by
  unfold execStl
  with_reducible repeat' first
    | assumption | apply failFound_canon | apply privDet_canon | apply lineOffset_canon | apply canon_mk_none
    | apply canon_mk_out_next
    | apply native_canon | apply detviol_canon
    | apply checkAccess_canon | apply shadowStop_canon | apply ownerStop_canon | apply storeLine_canon
    | apply claimLines_canon | apply withMap_canon | apply privWords_canon | apply coachError_canon
    | apply privWrite_canon
    | apply privError_canon | apply finishGroup_canon | apply parkBad_canon | (refine canon_some (by assumption) ?_)
    | (refine canon_snd (by assumption) ?_) | (intro _) | extract_lets | split

theorem execSts_canon {w} {s} (h_s : Canon s) : CanonOut (execSts w s) := by
  unfold execSts
  with_reducible repeat' first
    | assumption | apply canon_mk_out_next | apply native_canon | apply checkAccess_canon | apply shadowStop_canon
    | apply modRake_canon | apply finishGroup_canon | apply orderCoach_canon | (refine canon_some (by assumption) ?_)
    | apply padOk_write | apply padOk_foldl | (intro _) | extract_lets | split

/-! ### Machine/Integer.lean -/

theorem laneOp_canon {w} {sp} {wide} {f} {s} (h_s : Canon s) : Canon (laneOp w sp wide f s) := by
  unfold laneOp
  with_reducible repeat' first | assumption | apply native_canon | apply deliver_canon | (intro _)

theorem bitOp_canon {w} {f} {s} (h_s : Canon s) : Canon (bitOp w f s) := by
  unfold bitOp
  with_reducible repeat' first | assumption | apply laneOp_canon

theorem deliverMask_canon {c} {mk} {m} {fl} {s} (h_s : Canon s) : Canon (deliverMask c mk m fl s) := by
  unfold deliverMask
  with_reducible repeat' first | assumption | apply finishGroup_canon | apply setCoach_canon | extract_lets | split

theorem cmpOp_canon {w} {sp} {f} {s} (h_s : Canon s) : Canon (cmpOp w sp f s) := by
  unfold cmpOp
  with_reducible repeat' first
    | assumption | apply native_canon | apply deliverMask_canon | apply deliver_canon | (intro _) | extract_lets | split

theorem countOp_canon {w} {f} {s} (h_s : Canon s) : Canon (countOp w f s) := by
  unfold countOp
  with_reducible repeat' first | assumption | apply laneOp_canon

theorem execAnd_canon {w} {s} (h_s : Canon s) : CanonOut (execAnd w s) := by
  unfold execAnd
  with_reducible repeat' first | assumption | apply canon_mk_out_next | apply bitOp_canon

theorem execAndn_canon {w} {s} (h_s : Canon s) : CanonOut (execAndn w s) := by
  unfold execAndn
  with_reducible repeat' first | assumption | apply canon_mk_out_next | apply bitOp_canon

theorem execBfe_canon {w} {s} (h_s : Canon s) : CanonOut (execBfe w s) := by
  unfold execBfe
  with_reducible repeat' first | assumption | apply canon_mk_out_next | apply laneOp_canon

theorem execBfi_canon {w} {s} (h_s : Canon s) : CanonOut (execBfi w s) := by
  unfold execBfi
  with_reducible repeat' first | assumption | apply canon_mk_out_next | apply laneOp_canon

theorem execClz_canon {w} {s} (h_s : Canon s) : CanonOut (execClz w s) := by
  unfold execClz
  with_reducible repeat' first | assumption | apply canon_mk_out_next | apply countOp_canon

theorem execCtz_canon {w} {s} (h_s : Canon s) : CanonOut (execCtz w s) := by
  unfold execCtz
  with_reducible repeat' first | assumption | apply canon_mk_out_next | apply countOp_canon

theorem execIabs_canon {w} {s} (h_s : Canon s) : CanonOut (execIabs w s) := by
  unfold execIabs
  with_reducible repeat' first | assumption | apply canon_mk_out_next | apply laneOp_canon

theorem intOp2_canon {w} {satOk} {f} {s} (h_s : Canon s) : Canon (intOp2 w satOk f s) := by
  unfold intOp2
  with_reducible repeat' first | assumption | apply laneOp_canon

theorem execIadd_canon {w} {s} (h_s : Canon s) : CanonOut (execIadd w s) := by
  unfold execIadd
  with_reducible repeat' first | assumption | apply canon_mk_out_next | apply intOp2_canon

theorem execIadd64_canon {w} {s} (h_s : Canon s) : CanonOut (execIadd64 w s) := by
  unfold execIadd64
  with_reducible repeat' first | assumption | apply canon_mk_out_next | apply laneOp_canon

theorem execIaddc_canon {w} {s} (h_s : Canon s) : CanonOut (execIaddc w s) := by
  unfold execIaddc
  with_reducible repeat' first | assumption | apply canon_mk_out_next | apply laneOp_canon

theorem execIcmp_canon {w} {s} (h_s : Canon s) : CanonOut (execIcmp w s) := by
  unfold execIcmp
  with_reducible repeat' first | assumption | apply canon_mk_out_next | apply cmpOp_canon

theorem execIdp4_canon {w} {s} (h_s : Canon s) : CanonOut (execIdp4 w s) := by
  unfold execIdp4
  with_reducible repeat' first | assumption | apply canon_mk_out_next | apply laneOp_canon

theorem execImad_canon {w} {s} (h_s : Canon s) : CanonOut (execImad w s) := by
  unfold execImad
  with_reducible repeat' first | assumption | apply canon_mk_out_next | apply laneOp_canon

theorem execImad64_canon {w} {s} (h_s : Canon s) : CanonOut (execImad64 w s) := by
  unfold execImad64
  with_reducible repeat' first | assumption | apply canon_mk_out_next | apply laneOp_canon

theorem execImax_canon {w} {s} (h_s : Canon s) : CanonOut (execImax w s) := by
  unfold execImax
  with_reducible repeat' first | assumption | apply canon_mk_out_next | apply intOp2_canon

theorem execImin_canon {w} {s} (h_s : Canon s) : CanonOut (execImin w s) := by
  unfold execImin
  with_reducible repeat' first | assumption | apply canon_mk_out_next | apply intOp2_canon

theorem execImul_canon {w} {s} (h_s : Canon s) : CanonOut (execImul w s) := by
  unfold execImul
  with_reducible repeat' first | assumption | apply canon_mk_out_next | apply intOp2_canon

theorem execImulh_canon {w} {s} (h_s : Canon s) : CanonOut (execImulh w s) := by
  unfold execImulh
  with_reducible repeat' first | assumption | apply canon_mk_out_next | apply intOp2_canon

theorem execIsub_canon {w} {s} (h_s : Canon s) : CanonOut (execIsub w s) := by
  unfold execIsub
  with_reducible repeat' first | assumption | apply canon_mk_out_next | apply intOp2_canon

theorem execLea_canon {w} {s} (h_s : Canon s) : CanonOut (execLea w s) := by
  unfold execLea
  with_reducible repeat' first | assumption | apply canon_mk_out_next | apply laneOp_canon

theorem execMov_canon {w} {s} (h_s : Canon s) : CanonOut (execMov w s) := by
  unfold execMov
  with_reducible repeat' first | assumption | apply canon_mk_out_next | apply laneOp_canon

theorem execMovhi_canon {w} {s} (h_s : Canon s) : CanonOut (execMovhi w s) := by
  unfold execMovhi
  with_reducible repeat' first
    | assumption | apply canon_mk_out_next | apply native_canon | apply finishGroup_canon | apply setCoach_canon
    | (intro _)

theorem execMovi_canon {w} {s} (h_s : Canon s) : CanonOut (execMovi w s) := by
  unfold execMovi
  with_reducible repeat' first | assumption | apply canon_mk_out_next | apply laneOp_canon

theorem execOr_canon {w} {s} (h_s : Canon s) : CanonOut (execOr w s) := by
  unfold execOr
  with_reducible repeat' first | assumption | apply canon_mk_out_next | apply bitOp_canon

theorem execPopc_canon {w} {s} (h_s : Canon s) : CanonOut (execPopc w s) := by
  unfold execPopc
  with_reducible repeat' first | assumption | apply canon_mk_out_next | apply countOp_canon

theorem shiftOp_canon {w} {f} {s} (h_s : Canon s) : Canon (shiftOp w f s) := by
  unfold shiftOp
  with_reducible repeat' first | assumption | apply laneOp_canon

theorem execRotl_canon {w} {s} (h_s : Canon s) : CanonOut (execRotl w s) := by
  unfold execRotl
  with_reducible repeat' first | assumption | apply canon_mk_out_next | apply shiftOp_canon

theorem execSar_canon {w} {s} (h_s : Canon s) : CanonOut (execSar w s) := by
  unfold execSar
  with_reducible repeat' first | assumption | apply canon_mk_out_next | apply shiftOp_canon

theorem execSel_canon {w} {s} (h_s : Canon s) : CanonOut (execSel w s) := by
  unfold execSel
  with_reducible repeat' first | assumption | apply canon_mk_out_next | apply laneOp_canon

theorem execShl_canon {w} {s} (h_s : Canon s) : CanonOut (execShl w s) := by
  unfold execShl
  with_reducible repeat' first | assumption | apply canon_mk_out_next | apply shiftOp_canon

theorem execShr_canon {w} {s} (h_s : Canon s) : CanonOut (execShr w s) := by
  unfold execShr
  with_reducible repeat' first | assumption | apply canon_mk_out_next | apply shiftOp_canon

theorem execXor_canon {w} {s} (h_s : Canon s) : CanonOut (execXor w s) := by
  unfold execXor
  with_reducible repeat' first | assumption | apply canon_mk_out_next | apply bitOp_canon

/-! ### Machine/Float.lean -/

theorem floatOp2_canon {w} {rounds} {f} {s} (h_s : Canon s) : Canon (floatOp2 w rounds f s) := by
  unfold floatOp2
  with_reducible repeat' first | assumption | apply laneOp_canon

theorem execFadd_canon {w} {s} (h_s : Canon s) : CanonOut (execFadd w s) := by
  unfold execFadd
  with_reducible repeat' first | assumption | apply canon_mk_out_next | apply floatOp2_canon

theorem floatOp1_canon {w} {rounds} {long} {f} {s} (h_s : Canon s) : Canon (floatOp1 w rounds long f s) := by
  unfold floatOp1
  with_reducible repeat' first | assumption | apply laneOp_canon

theorem execFclass_canon {w} {s} (h_s : Canon s) : CanonOut (execFclass w s) := by
  unfold execFclass
  with_reducible repeat' first | assumption | apply canon_mk_out_next | apply floatOp1_canon

theorem execFcmp_canon {w} {s} (h_s : Canon s) : CanonOut (execFcmp w s) := by
  unfold execFcmp
  with_reducible repeat' first | assumption | apply canon_mk_out_next | apply cmpOp_canon

theorem execFcos_canon {w} {s} (h_s : Canon s) : CanonOut (execFcos w s) := by
  unfold execFcos
  with_reducible repeat' first | assumption | apply canon_mk_out_next | apply floatOp1_canon

theorem execFdp4n_canon {w} {s} (h_s : Canon s) : CanonOut (execFdp4n w s) := by
  unfold execFdp4n
  with_reducible repeat' first | assumption | apply canon_mk_out_next | apply native_canon | apply deliver_canon | (intro _)

theorem execFexp2_canon {w} {s} (h_s : Canon s) : CanonOut (execFexp2 w s) := by
  unfold execFexp2
  with_reducible repeat' first | assumption | apply canon_mk_out_next | apply floatOp1_canon

theorem execFfma_canon {w} {s} (h_s : Canon s) : CanonOut (execFfma w s) := by
  unfold execFfma
  with_reducible repeat' first | assumption | apply canon_mk_out_next | apply laneOp_canon

theorem execFlog2_canon {w} {s} (h_s : Canon s) : CanonOut (execFlog2 w s) := by
  unfold execFlog2
  with_reducible repeat' first | assumption | apply canon_mk_out_next | apply floatOp1_canon

theorem execFmax_canon {w} {s} (h_s : Canon s) : CanonOut (execFmax w s) := by
  unfold execFmax
  with_reducible repeat' first | assumption | apply canon_mk_out_next | apply floatOp2_canon

theorem execFmin_canon {w} {s} (h_s : Canon s) : CanonOut (execFmin w s) := by
  unfold execFmin
  with_reducible repeat' first | assumption | apply canon_mk_out_next | apply floatOp2_canon

theorem execFmul_canon {w} {s} (h_s : Canon s) : CanonOut (execFmul w s) := by
  unfold execFmul
  with_reducible repeat' first | assumption | apply canon_mk_out_next | apply floatOp2_canon

theorem execFrcp_canon {w} {s} (h_s : Canon s) : CanonOut (execFrcp w s) := by
  unfold execFrcp
  with_reducible repeat' first | assumption | apply canon_mk_out_next | apply floatOp1_canon

theorem execFrnd_canon {w} {s} (h_s : Canon s) : CanonOut (execFrnd w s) := by
  unfold execFrnd
  with_reducible repeat' first | assumption | apply canon_mk_out_next | apply floatOp1_canon

theorem execFrsq_canon {w} {s} (h_s : Canon s) : CanonOut (execFrsq w s) := by
  unfold execFrsq
  with_reducible repeat' first | assumption | apply canon_mk_out_next | apply floatOp1_canon

theorem execFsin_canon {w} {s} (h_s : Canon s) : CanonOut (execFsin w s) := by
  unfold execFsin
  with_reducible repeat' first | assumption | apply canon_mk_out_next | apply floatOp1_canon

theorem execFsqrt_canon {w} {s} (h_s : Canon s) : CanonOut (execFsqrt w s) := by
  unfold execFsqrt
  with_reducible repeat' first | assumption | apply canon_mk_out_next | apply floatOp1_canon

theorem execFsub_canon {w} {s} (h_s : Canon s) : CanonOut (execFsub w s) := by
  unfold execFsub
  with_reducible repeat' first | assumption | apply canon_mk_out_next | apply floatOp2_canon

theorem packedOp2_canon {w} {rounds} {mask} {f} {s} (h_s : Canon s) : Canon (packedOp2 w rounds mask f s) := by
  unfold packedOp2
  with_reducible repeat' first | assumption | apply laneOp_canon

theorem execHadd2_canon {w} {s} (h_s : Canon s) : CanonOut (execHadd2 w s) := by
  unfold execHadd2
  with_reducible repeat' first | assumption | apply canon_mk_out_next | apply packedOp2_canon

theorem execHdot2_canon {w} {s} (h_s : Canon s) : CanonOut (execHdot2 w s) := by
  unfold execHdot2
  with_reducible repeat' first | assumption | apply canon_mk_out_next | apply laneOp_canon

theorem execHfma2_canon {w} {s} (h_s : Canon s) : CanonOut (execHfma2 w s) := by
  unfold execHfma2
  with_reducible repeat' first | assumption | apply canon_mk_out_next | apply laneOp_canon

theorem execHmax2_canon {w} {s} (h_s : Canon s) : CanonOut (execHmax2 w s) := by
  unfold execHmax2
  with_reducible repeat' first | assumption | apply canon_mk_out_next | apply packedOp2_canon

theorem execHmin2_canon {w} {s} (h_s : Canon s) : CanonOut (execHmin2 w s) := by
  unfold execHmin2
  with_reducible repeat' first | assumption | apply canon_mk_out_next | apply packedOp2_canon

theorem execHmul2_canon {w} {s} (h_s : Canon s) : CanonOut (execHmul2 w s) := by
  unfold execHmul2
  with_reducible repeat' first | assumption | apply canon_mk_out_next | apply packedOp2_canon

/-! ### Machine/Atomics.lean -/

theorem atomWay_canon {s} {co} {op} {agt} {pa} {n} {leaf} (h_s : Canon s) : Canon (atomWay s co op agt pa n leaf).2 := by
  unfold atomWay
  with_reducible repeat' first
    | assumption | apply l2DropLine_canon | apply homeFirst_canon | (intro _) | apply canon_to | extract_lets | split
    | (refine canon_of ?_; dsimp only) | dsimp only | dsimp +zetaDelta only

theorem atomPieces_canon {c} {co} {bypass} {a} {z4} {z5} (h_z5 : Canon z5) : Canon (atomPieces c co bypass a z4 z5).2 := by
  induction a generalizing c co bypass z4 z5 with
  | nil =>
    unfold atomPieces
    with_reducible repeat' first
      | assumption
  | cons x l ih =>
    unfold atomPieces
    with_reducible repeat' first
      | assumption | apply ih | apply readPieces_canon | apply coachWrite_canon | apply atomWay_canon
      | (refine canon_snd (by assumption) ?_)
      | extract_lets | split | dsimp +zetaDelta only

theorem deliverOld_canon {c} {t} {s} (h_s : Canon s) : Canon (deliverOld c t s) := by
  unfold deliverOld
  with_reducible repeat' first | assumption | apply deliverTo_canon

theorem atomGlobal_canon {c} {s} {served} {ends} {addrs} (h_s : Canon s) : Canon (atomGlobal c s served ends addrs) := by
  unfold atomGlobal
  with_reducible repeat' first
    | assumption | apply findLanes_canon | apply failFound_canon | apply claimLines_canon | apply endsBundle_canon
    | apply orderCoach_canon | apply atomPieces_canon | apply memerr_canon | apply parkBad_canon
    | apply deliverOld_canon | (intro _) | apply canon_to | (refine canon_snd (by assumption) ?_) | extract_lets
    | split | (refine canon_of ?_; dsimp only) | dsimp only | dsimp +zetaDelta only

theorem execAtom_canon {w} {s} (h_s : Canon s) : CanonOut (execAtom w s) := by
  unfold execAtom
  with_reducible repeat' first
    | assumption | apply canon_mk_out_next | apply canon_mk_out_fault | apply canon_mk_out_refused
    | apply native_canon | apply checkAccess_canon | apply shadowStop_canon | apply detviol_canon | apply atTurn_canon
    | apply atomGlobal_canon | apply stageLanes_canon | apply ownerStop_canon | apply withRoom_canon | (intro _)
    | apply canon_to | (refine canon_some (by assumption) ?_) | extract_lets | split
    | (refine canon_of ?_; dsimp only) | dsimp only | dsimp +zetaDelta only

theorem execAtoms_canon {w} {s} (h_s : Canon s) : CanonOut (execAtoms w s) := by
  unfold execAtoms
  with_reducible repeat' first
    | assumption | apply endingBundle_canon | apply canon_mk_out_next | apply native_canon
    | apply checkAccess_canon | apply shadowStop_canon
    | apply padError_canon | apply orderCoach_canon | apply deliverOld_canon | apply modRake_canon
    | apply withRoom_canon
    | apply endsBundle_canon | (refine canon_some (by assumption) ?_) | (intro _) | extract_lets | split
    | (refine atomsPieces_pad (canon_rake ?_ (by assumption)))

theorem lanesLines_canon {c} {s} (h_s : Canon s) : Canon (lanesLines c s).2 := by
  unfold lanesLines
  with_reducible repeat' first
    | assumption | apply coachXlate_canon | apply canon_foldl2 | (refine canon_snd (by assumption) ?_) | (intro _)
    | extract_lets | split

theorem execCctl_canon {w} {s} (h_s : Canon s) : CanonOut (execCctl w s) := by
  unfold execCctl
  with_reducible repeat' first
    | assumption | apply canon_mk_out_next | apply native_canon | apply finishGroup_canon | apply l1WriteBackAll_canon
    | apply lanesLines_canon | apply l2WriteBack_canon | apply l1Clean_canon | apply l1Drop_canon | apply writeDirty_canon
    | apply canon_foldl | apply canon_to | (intro _) | extract_lets | split | (refine canon_of ?_; dsimp only)

theorem execFence_canon {w} {s} (h_s : Canon s) : CanonOut (execFence w s) := by
  unfold execFence
  with_reducible repeat' first
    | assumption | apply canon_mk_out_next | apply native_canon | apply finishGroup_canon | apply orderCoach_canon
    | (intro _)

theorem lineCheck_canon {c} {s} (h_s : Canon s) : CanonO (lineCheck c s) := by
  unfold lineCheck
  with_reducible repeat' first
    | assumption | apply canon_mk_none | apply canon_mk_some | apply accessTrap_canon | extract_lets | split

theorem lineAt_canon {c} {s} {a} {f} (h_s : Canon s) (h_f : (∀ x0 x1 x2, Canon x2 → Canon (f x0 x1 x2))) :
    Canon (lineAt c s a f) := by
  unfold lineAt
  with_reducible repeat' first
    | assumption | apply xlatBad_canon | apply h_f | apply findLanes_canon | apply coachError_canon
    | apply finishGroup_canon
    | apply parkLanes_canon | (refine canon_snd (by assumption) ?_) | split

theorem loadDescribed_canon {c} {s} (h_s : Canon s) : Canon (loadDescribed c s) := by
  unfold loadDescribed
  with_reducible repeat' first
    | assumption | apply lineAt_canon | apply readPieces_canon | apply memerr_canon | apply deliverTo_canon
    | (refine canon_snd (by assumption) ?_) | (intro _) | extract_lets | split | dsimp only | dsimp +zetaDelta only

theorem execLdd_canon {w} {s} (h_s : Canon s) : CanonOut (execLdd w s) := by
  unfold execLdd
  with_reducible repeat' first
    | assumption | apply canon_mk_out_next | apply native_canon | apply lineCheck_canon | apply detviol_canon
    | apply atTurn_canon | apply loadDescribed_canon | (refine canon_some (by assumption) ?_) | (intro _) | extract_lets
    | split

theorem execPref_canon {w} {s} (h_s : Canon s) : CanonOut (execPref w s) := by
  unfold execPref
  with_reducible repeat' first
    | assumption | apply l2Read_canon | apply canon_mk_out_next | apply native_canon | apply coachXlate_canon
    | apply coachRead_canon
    | apply finishGroup_canon | apply canon_foldl | (refine canon_snd (by assumption) ?_) | (intro _) | extract_lets
    | split | dsimp only | dsimp +zetaDelta only

theorem execStd_canon {w} {s} (h_s : Canon s) : CanonOut (execStd w s) := by
  unfold execStd
  with_reducible repeat' first
    | assumption | apply stallHolding_canon | apply canon_mk_out_next | apply native_canon | apply reject_canon
    | apply lineCheck_canon
    | apply shadowStop_canon | apply detviol_canon | apply stallLanes_canon | apply lineAt_canon | apply stage_canon
    | apply finishGroup_canon | apply modCoach_canon | apply ownerStop_canon | apply claimLines_canon
    | apply writePieces_canon | (refine canon_some (by assumption) ?_) | (intro _) | extract_lets | split

/-! ### Machine/Sync.lean -/

theorem barmis_canon {c} {s} {b} (h_s : Canon s) : Canon (barmis c s b) := by
  unfold barmis
  with_reducible repeat' first | assumption | apply raiseTrap_canon | apply unpop_canon

theorem execBara_canon {w} {s} (h_s : Canon s) : CanonOut (execBara w s) := by
  unfold execBara
  with_reducible repeat' first
    | assumption | apply canon_mk_out_next | apply native_canon | apply withRoom_canon | apply barmis_canon
    | apply releaseGlobal_canon | apply arrive_canon | apply deliver_canon | apply endsBundle_canon | (intro _)
    | extract_lets | split

theorem execBari_canon {w} {s} (h_s : Canon s) : CanonOut (execBari w s) := by
  unfold execBari
  with_reducible repeat' first
    | assumption | apply canon_mk_out_next | apply native_canon | apply barmis_canon | apply finishGroup_canon
    | apply setBarrier_canon | (intro _) | extract_lets | split

theorem execBars_canon {w} {s} (h_s : Canon s) : CanonOut (execBars w s) := by
  unfold execBars
  with_reducible repeat' first | assumption | apply canon_mk_out_next | apply native_canon | apply deliver_canon | (intro _)

theorem execBarw_canon {w} {s} (h_s : Canon s) : CanonOut (execBarw w s) := by
  unfold execBarw
  with_reducible repeat' first
    | assumption | apply canon_mk_out_next | apply native_canon | apply barmis_canon | apply finishGroup_canon
    | apply acquireGlobal_canon | apply sleepIn_canon | (intro _) | extract_lets | split

theorem execBarx_canon {w} {s} (h_s : Canon s) : CanonOut (execBarx w s) := by
  unfold execBarx
  with_reducible repeat' first
    | assumption | apply mapWaits_canon | apply canon_mk_out_next | apply native_canon | apply setBarrier_canon
    | apply wakeCoaches_canon
    | apply finishGroup_canon | (intro _)

theorem execCpseal_canon {w} {s} (h_s : Canon s) : CanonOut (execCpseal w s) := by
  unfold execCpseal
  with_reducible repeat' first
    | assumption | apply canon_mk_out_next | apply native_canon | apply stallLanes_canon | apply deliver_canon
    | apply setCoach_canon | (intro _) | extract_lets | split

theorem execCpwait_canon {w} {s} (h_s : Canon s) : CanonOut (execCpwait w s) := by
  unfold execCpwait
  with_reducible repeat' first
    | assumption | apply stallHolding_canon | apply canon_mk_out_next | apply native_canon | apply stallLanes_canon
    | apply setCoach_canon
    | apply acquireGlobal_canon | apply modCoach_canon | apply markerCommit_canon | apply passTrap_canon
    | apply finishGroup_canon | (refine canon_go (by assumption) ?_) | (refine canon_rstop (by assumption) ?_)
    | (intro _)
    | extract_lets | split

theorem execCpy_canon {w} {s} (h_s : Canon s) : CanonOut (execCpy w s) := by
  unfold execCpy
  with_reducible repeat' first
    | assumption | apply canon_mk_out_next | apply native_canon | apply orderGlobal_canon | apply modRake_canon
    | apply finishGroup_canon | apply setCoach_canon | (intro _)

theorem execQctlClose_canon {w} {s} (h_s : Canon s) : CanonOut (execQctlClose w s) := by
  unfold execQctlClose
  with_reducible repeat' first
    | assumption | apply canon_mk_out_next | apply native_canon | apply reject_canon | apply finishGroup_canon
    | apply setCoach_canon | apply dropPort_canon | apply stallLanes_canon | (intro _) | extract_lets | split

theorem execQctlDrain_canon {w} {s} (h_s : Canon s) : CanonOut (execQctlDrain w s) := by
  unfold execQctlDrain
  with_reducible repeat' first
    | assumption | apply canon_mk_out_next | apply native_canon | apply reject_canon | apply finishGroup_canon
    | apply stallLanes_canon | (intro _) | extract_lets | split

theorem execQctlOpen_openAt_canon {c} {s} {q} {die} (h_s : Canon s) : Canon (execQctlOpen.openAt c s q die) := by
  unfold execQctlOpen.openAt
  with_reducible repeat' first
    | assumption | apply reject_canon | apply stallLanes_canon | apply unpop_canon | apply finishGroup_canon
    | apply setCoach_canon | apply canon_to | extract_lets | split | (refine canon_of ?_; dsimp only)

theorem execQctlOpen_canon {w} {s} (h_s : Canon s) : CanonOut (execQctlOpen w s) := by
  unfold execQctlOpen
  with_reducible repeat' first
    | assumption | apply canon_mk_out_next | apply native_canon | apply execQctlOpen_openAt_canon | apply reject_canon
    | (intro _) | extract_lets | split

theorem execTbar_canon {w} {s} (h_s : Canon s) : CanonOut (execTbar w s) := by
  unfold execTbar
  with_reducible repeat' first
    | assumption | apply canon_mk_out_next | apply native_canon | apply reject_canon | apply raiseTrap_canon
    | apply unpop_canon | apply withRoom_canon | apply releaseGlobal_canon | apply endsBundle_canon | apply sleepIn_canon
    | apply canon_to | (intro _) | extract_lets | split | (refine canon_of ?_; dsimp only)

theorem execTlrd_canon {w} {s} (h_s : Canon s) : CanonOut (execTlrd w s) := by
  unfold execTlrd
  with_reducible repeat' first
    | assumption | apply canon_mk_out_next | apply native_canon | apply reject_canon | apply deliver_canon | (intro _)
    | extract_lets | split

theorem execTlwait_canon {w} {s} (h_s : Canon s) : CanonOut (execTlwait w s) := by
  unfold execTlwait
  with_reducible repeat' first
    | assumption | apply canon_mk_out_next | apply native_canon | apply reject_canon | apply acquireGlobal_canon
    | apply passTrap_canon | apply finishGroup_canon | apply sleepIn_canon | (intro _) | extract_lets | split
    | dsimp +zetaDelta only

/-! ### Machine/Fetch.lean -/

theorem addImp_canon {s} {co} {ga} {g} {pin} (h_s : Canon s) : Canon (addImp s co ga g pin) := by
  unfold addImp
  with_reducible repeat' first | assumption | apply canon_to | extract_lets | split | (refine canon_of ?_; dsimp only)

theorem codeRange_canon {w} {f} {s} (h_f : (∀ x0 x1 x2 x3, Canon x3 → Canon (f x0 x1 x2 x3))) (h_s : Canon s) :
    Canon (codeRange w f s) := by
  unfold codeRange
  with_reducible repeat' first
    | assumption | apply h_f | apply native_canon | apply reject_canon | apply finishGroup_canon | (intro _) | extract_lets
    | split

theorem codeXlate_canon {s} {co} {va} (h_s : Canon s) : Canon (codeXlate s co va).2 := by
  unfold codeXlate
  with_reducible repeat' first
    | assumption | apply ownReadP_canon | apply ownReadV_canon | apply coachXlate_canon
    | (refine canon_snd (by assumption) ?_) | extract_lets
    | split

theorem fetchBytes_canon {s} {co} {ga} {n} (h_s : Canon s) : Canon (fetchBytes s co ga n).2 := by
  unfold fetchBytes
  with_reducible repeat' first
    | assumption | apply fillOwn_canon | apply codeXlate_canon | (intro _) | apply canon_to
    | (refine canon_snd (by assumption) ?_) | extract_lets | split | (refine canon_of ?_; dsimp only) | dsimp only
    | dsimp +zetaDelta only

theorem decodeGuest_canon {s} {co} {ga} (h_s : Canon s) : Canon (decodeGuest s co ga).2 := by
  unfold decodeGuest
  with_reducible repeat' first | assumption | apply fetchBytes_canon | (refine canon_snd (by assumption) ?_) | extract_lets | split

theorem noFetch_canon {s} {k} {grp} {ga} {e} (h_s : Canon s) : Canon (noFetch s k grp ga e) := by
  unfold noFetch
  with_reducible repeat' first
    | assumption | apply xlatBad_canon | apply raiseTrap_canon | apply parkLanes_canon | apply memerr_canon
    | apply coachError_canon
    | (intro _) | apply canon_to | extract_lets | split | (refine canon_of ?_; dsimp only) | dsimp only
    | dsimp +zetaDelta only

theorem raiseEmul_canon {s} {k} {grp} {ga} {w} {len} {fs} (h_s : Canon s) : Canon (raiseEmul s k grp ga w len fs) := by
  unfold raiseEmul
  with_reducible repeat' first | assumption | apply raiseTrap_canon | extract_lets | split

theorem execGuestDecode_canon {s} (h_s : Canon s) : CanonOut (execGuestDecode s) := by
  unfold execGuestDecode
  with_reducible repeat' first
    | assumption | apply canon_mk_out_next | apply decodeGuest_canon | apply noFetch_canon | apply addImp_canon
    | apply raiseEmul_canon | (refine canon_snd (by assumption) ?_) | extract_lets | split

theorem prefetchCode_canon {co} {pin} {a} {z3} {z4} {z5} (h_z5 : Canon z5) : Canon (prefetchCode co pin a z3 z4 z5) := by
  induction a generalizing co pin z3 z4 z5 with
  | zero =>
    unfold prefetchCode
    repeat' first
      | with_reducible assumption
  | succ n ih =>
    unfold prefetchCode
    repeat' first
      | with_reducible assumption | with_reducible apply ih | with_reducible apply decodeGuest_canon
      | with_reducible apply addImp_canon | (refine canon_snd (by with_reducible assumption) ?_) | extract_lets | split
      | (refine canon_of ?_; dsimp only)

theorem execIpin_canon {w} {s} (h_s : Canon s) : CanonOut (execIpin w s) := by
  unfold execIpin
  with_reducible repeat' first
    | assumption | apply canon_mk_out_next | apply codeRange_canon | apply prefetchCode_canon | (intro _)

theorem execIpref_canon {w} {s} (h_s : Canon s) : CanonOut (execIpref w s) := by
  unfold execIpref
  with_reducible repeat' first
    | assumption | apply canon_mk_out_next | apply codeRange_canon | apply prefetchCode_canon | (intro _)

theorem execIunpin_canon {w} {s} (h_s : Canon s) : CanonOut (execIunpin w s) := by
  unfold execIunpin
  with_reducible repeat' first
    | assumption | apply canon_mk_out_next | apply codeRange_canon | apply canon_to | (intro _) | extract_lets
    | (refine canon_of ?_; dsimp only)

theorem rejectWord_canon {s} {sub} (h_s : Canon s) : Canon (rejectWord s sub) := by
  unfold rejectWord
  with_reducible repeat' first
    | assumption | apply illegal_canon | apply releaseFpe_canon | apply modCoach_canon | extract_lets | split

theorem execSystemPlateOp_canon {w} {s} (h_s : Canon s) : CanonOut (execSystemPlateOp w s) := by
  unfold execSystemPlateOp
  with_reducible repeat' first
    | assumption | apply canon_mk_out_next | apply addImp_canon | apply rejectWord_canon | apply canon_to | extract_lets
    | split | (refine canon_of ?_; dsimp only)

/-! ### Machine/Launch.lean -/

theorem waitTarget_canon {s} {rg} {r} {x} {va} {acc} {written} (h_s : Canon s) : Canon (waitTarget s rg r x va acc written) := by
  unfold waitTarget
  with_reducible repeat' first
    | assumption | apply waitFault_canon | apply addPend_canon | (intro _) | apply canon_to
    | (refine canon_snd (by assumption) ?_) | extract_lets | split | (refine canon_of ?_; dsimp only) | dsimp only
    | dsimp +zetaDelta only

theorem startRegion_canon {s} {rg} (h_s : Canon s) : Canon (startRegion s rg) := by
  unfold startRegion
  with_reducible repeat' first
    | assumption | apply completeRegion_canon | apply createRake_canon | apply modRegion_canon | apply canon_foldl
    | (intro _) | extract_lets | split

theorem numberRegion_canon {s} {rg} (h_s : Canon s) : Canon (numberRegion s rg) := by
  unfold numberRegion
  with_reducible repeat' first
    | assumption | apply ownWriteV_canon | apply waitTarget_canon | apply startRegion_canon | (intro _)
    | apply canon_to | (refine canon_snd (by assumption) ?_) | extract_lets | split | (refine canon_of ?_; dsimp only)
    | dsimp only | dsimp +zetaDelta only

theorem launchError_canon {s} {ctx} {parent} {queue} (h_s : Canon s) : Canon (launchError s ctx parent queue) := by
  unfold launchError
  with_reducible repeat' first | assumption | apply uncontained_canon | apply tearQueue_canon | split

theorem detMapped_canon {s} {ctx} {r} (h_s : Canon s) : Canon (detMapped s ctx r).2 := by
  unfold detMapped
  with_reducible repeat' first | assumption | apply ownPieces_canon | (refine canon_snd (by assumption) ?_) | split

theorem checkBlock_canon {s} {c} {ctx} {parent} {depth} {block} {b} (h_s : Canon s) :
    Canon (checkBlock s c ctx parent depth block b).2.2 := by
  unfold checkBlock
  with_reducible repeat' first | assumption | apply detMapped_canon | extract_lets | split

theorem targetRegion_canon {s} {rg} (h_s : Canon s) : Canon (targetRegion s rg) := by
  unfold targetRegion
  with_reducible repeat' first
    | assumption | apply waitTarget_canon | apply numberRegion_canon | apply startRegion_canon
    | apply modRegion_canon | apply waitFault_canon | apply addPend_canon
    | apply ownWordV_canon | apply ownWriteV_canon | (refine canon_snd (by assumption) ?_) | extract_lets | split

theorem takeNumber_canon {s} {ctx} {number} (h_s : Canon s) : Canon (takeNumber s ctx number).2 := by
  unfold takeNumber
  with_reducible repeat' first
    | assumption | apply modCtx_canon | (intro _) | apply canon_to | extract_lets | split
    | (refine canon_of ?_; dsimp only) | dsimp only | dsimp +zetaDelta only

theorem bindVersion_canon {s} {ctx} {v} (h_s : Canon s) : Canon (bindVersion s ctx v) := by
  unfold bindVersion
  with_reducible repeat' first
    | assumption | apply modCtx_canon | (intro _) | apply canon_to | extract_lets | split
    | (refine canon_of ?_; dsimp only) | dsimp only | dsimp +zetaDelta only

theorem launchRegion_canon {s} {ctx} {parent} {queue} {depth} {block} {args} {number} (h_s : Canon s) :
    Canon (launchRegion s ctx parent queue depth block args number) := by
  unfold launchRegion
  with_reducible repeat' first
    | assumption | apply takeNumber_canon | apply bindVersion_canon | apply ownReadP_canon | apply waitFault_canon
    | apply addPend_canon | apply launchError_canon
    | apply logError_canon | apply checkBlock_canon | apply modCtx_canon | apply targetRegion_canon
    | (refine canon_snd (by assumption) ?_) | apply canon_to | extract_lets | split | (refine canon_of ?_; dsimp only)

theorem spawnRegion_canon {s} {parent} {block} {args} (h_s : Canon s) : Canon (spawnRegion s parent block args) := by
  unfold spawnRegion
  with_reducible repeat' first
    | assumption | apply takeNumber_canon | apply launchRegion_canon | (intro _) | apply canon_to
    | (refine canon_snd (by assumption) ?_) | extract_lets | split | (refine canon_of ?_; dsimp only) | dsimp only
    | dsimp +zetaDelta only

/-! ### Machine/Handlers.lean -/

theorem resumeStalls_canon {s} {k} (h_s : Canon s) : Canon (resumeStalls s k) := by
  unfold resumeStalls
  with_reducible repeat' first
    | assumption | apply setQueue_canon | apply modCoach_canon | apply canon_foldl | (intro _) | extract_lets | split
    | dsimp only

theorem retryPush_canon {s} {k} {q} {e} {m} {g} {n} {w} (h_s : Canon s) : Canon (retryPush s k q e m g n w) := by
  unfold retryPush
  with_reducible repeat' first
    | assumption | apply modCoach_canon | apply pushReg_canon | apply parkLanes_canon
    | (refine canon_pdone (by assumption) ?_) | (refine canon_pxlat (by assumption) ?_) | extract_lets | split
    | dsimp +zetaDelta only

theorem flushFpe_canon {s} {k} (h_s : Canon s) : Canon (flushFpe s k) := by
  unfold flushFpe
  with_reducible repeat' first | assumption | apply raiseTrap_canon | apply setCoach_canon | extract_lets | split

theorem lanesSet_canon {s} {k} (h_s : Canon s) : Canon (lanesSet s k) := by
  unfold lanesSet
  with_reducible repeat' first
    | assumption | apply wakeReady_canon | apply modCoach_canon | apply exitLanes_canon | apply checkJoins_canon
    | extract_lets | split

theorem retryFrame_canon {s} {k} {bs} {retry} (h_s : Canon s) : Canon (retryFrame s k bs retry) := by
  unfold retryFrame
  with_reducible repeat' first
    | assumption | apply retryPush_canon | apply canon_to | (refine canon_snd (by assumption) ?_) | extract_lets
    | split | (refine canon_of ?_; dsimp only) | dsimp only | dsimp +zetaDelta only

theorem applyLanes_canon {s} {k} {bs} (h_s : Canon s) : Canon (applyLanes s k bs) := by
  unfold applyLanes
  with_reducible repeat' first
    | assumption | apply modCoach_canon | apply flushFpe_canon | apply lanesSet_canon | apply retryFrame_canon
    | apply resumeStalls_canon | apply canon_to | (refine canon_snd (by assumption) ?_) | extract_lets | split
    | (refine canon_of ?_; dsimp only) | dsimp only | dsimp +zetaDelta only

theorem applyFrame_canon {s} {k} {bs} (h_s : Canon s) : Canon (applyFrame s k bs) := by
  unfold applyFrame
  with_reducible repeat' first
    | assumption | apply applyLanes_canon | apply modCoach_canon | apply resumeStalls_canon | apply retryPush_canon
    | apply flushFpe_canon
    | apply lanesSet_canon | extract_lets | split

theorem readFrame_canon {s} {k} {va} (h_s : Canon s) : Canon (readFrame s k va).2 := by
  unfold readFrame
  with_reducible repeat' first
    | assumption | apply markReset_canon | apply ownPieces_canon | apply coachRead_canon | apply canon_foldl2
    | (refine canon_snd (by assumption) ?_) | (intro _) | extract_lets | split

theorem execTrap_canon {w} {s} (h_s : Canon s) : CanonOut (execTrap w s) := by
  unfold execTrap
  with_reducible repeat' first | assumption | apply canon_mk_out_next | apply native_canon | apply passTrap_canon | (intro _)

theorem execTret_canon {w} {s} (h_s : Canon s) : CanonOut (execTret w s) := by
  unfold execTret
  with_reducible repeat' first
    | assumption | apply xlatBad_canon | apply canon_mk_out_next | apply native_canon | apply reject_canon
    | apply markerCommit_canon
    | apply readFrame_canon | apply finishGroup_canon | apply parkLanes_canon | apply coachError_canon
    | apply memerr_canon
    | apply applyFrame_canon | apply modCoach_canon | (refine canon_go (by assumption) ?_)
    | (refine canon_rstop (by assumption) ?_) | (refine canon_snd (by assumption) ?_) | (intro _) | extract_lets | split

/-! ### Machine/System.lean -/

theorem execCzclose_canon {w} {s} (h_s : Canon s) : CanonOut (execCzclose w s) := by
  unfold execCzclose
  with_reducible repeat' first
    | assumption | apply canon_mk_out_next | apply native_canon | apply reject_canon | apply finishGroup_canon
    | apply modCoach_canon | (intro _) | extract_lets | split

theorem execCzopen_canon {w} {s} (h_s : Canon s) : CanonOut (execCzopen w s) := by
  unfold execCzopen
  with_reducible repeat' first
    | assumption | apply canon_mk_out_next | apply native_canon | apply reject_canon | apply modRake_canon
    | apply finishGroup_canon | apply modCoach_canon | apply unwindCoach_canon | (intro _) | extract_lets | split

theorem execDbgbrk_canon {w} {s} (h_s : Canon s) : CanonOut (execDbgbrk w s) := by
  unfold execDbgbrk
  with_reducible repeat' first
    | assumption | apply canon_mk_out_next | apply native_canon | apply raiseTrap_canon | apply finishGroup_canon
    | (intro _) | extract_lets | split

theorem execDturn_canon {w} {s} (h_s : Canon s) : CanonOut (execDturn w s) := by
  unfold execDturn
  with_reducible repeat' first
    | assumption | apply canon_mk_out_next | apply native_canon | apply withRoom_canon | apply finishGroup_canon
    | apply endsBundle_canon | (intro _)

theorem leaveActive_canon {s} {k} {head} {held} (h_s : Canon s) : Canon (leaveActive s k head held) := by
  unfold leaveActive
  with_reducible repeat' first | assumption | apply modCoach_canon

theorem setLease_canon {s} {k} {f} (h_s : Canon s) : Canon (setLease s k f) := by
  unfold setLease
  with_reducible repeat' first | assumption | apply modCoach_canon | apply leaveActive_canon | extract_lets | split

theorem execLeaseDecl_canon {w} {s} (h_s : Canon s) : CanonOut (execLeaseDecl w s) := by
  unfold execLeaseDecl
  with_reducible repeat' first
    | assumption | apply canon_mk_out_next | apply native_canon | apply reject_canon | apply finishGroup_canon
    | apply setLease_canon | (intro _) | extract_lets | split

theorem execLeaseMeas_canon {w} {s} (h_s : Canon s) : CanonOut (execLeaseMeas w s) := by
  unfold execLeaseMeas
  with_reducible repeat' first
    | assumption | apply canon_mk_out_next | apply native_canon | apply finishGroup_canon | apply setLease_canon
    | (intro _)

theorem execSpawn_canon {w} {s} (h_s : Canon s) : CanonOut (execSpawn w s) := by
  unfold execSpawn
  with_reducible repeat' first
    | assumption | apply togetherAt_canon | apply stallHolding_canon | apply canon_mk_out_next | apply native_canon
    | apply checkAccess_canon | apply stallLanes_canon
    | apply finishGroup_canon | apply stage_canon | apply releaseGlobal_canon | apply spawnRegion_canon
    | (refine canon_some (by assumption) ?_) | (intro _) | extract_lets | split

theorem execSysrd_canon {w} {s} (h_s : Canon s) : CanonOut (execSysrd w s) := by
  unfold execSysrd
  with_reducible repeat' first
    | assumption | apply canon_mk_out_next | apply native_canon | apply reject_canon | apply deliver_canon | (intro _)
    | extract_lets | split

theorem execSyswr_canon {w} {s} (h_s : Canon s) : CanonOut (execSyswr w s) := by
  unfold execSyswr
  with_reducible repeat' first
    | assumption | apply canon_mk_out_next | apply native_canon | apply reject_canon | apply deliver_canon | apply canon_to
    | (intro _) | extract_lets | split | (refine canon_of ?_; dsimp only)

/-! ### Machine/Matrix.lean -/

theorem acceptOp_canon {c} {s} {tk} {kind} {cfg} {ra} {rb} (h_s : Canon s) : Canon (acceptOp c s tk kind cfg ra rb) := by
  unfold acceptOp
  with_reducible repeat' first | assumption | apply finishGroup_canon | apply setTile_canon

theorem engineRead_canon {s} {k} {pages} {va} {n} (h_s : Canon s) : Canon (engineRead s k pages va n).2 := by
  unfold engineRead
  with_reducible repeat' first
    | assumption | apply coachRead_canon | apply canon_foldl2 | (refine canon_snd (by assumption) ?_) | (intro _)
    | extract_lets | split

theorem engineRows_canon {k} {pages} {va} {pitch} {a} {z5} {z6} (h_z5 : Canon z5) :
    Canon (engineRows k pages va pitch a z5 z6).2 := by
  induction a generalizing k pages va pitch z5 z6 with
  | nil =>
    unfold engineRows
    with_reducible repeat' first
      | assumption
  | cons x l ih =>
    unfold engineRows
    with_reducible repeat' first | assumption | apply ih | apply engineRead_canon | (refine canon_snd (by assumption) ?_) | split

theorem engineWrite_canon {s} {k} {pages} {va} {bs} (h_s : Canon s) : Canon (engineWrite s k pages va bs) := by
  unfold engineWrite
  with_reducible repeat' first | assumption | apply coachWrite_canon | extract_lets | split | dsimp +zetaDelta only

theorem engineOp_canon {s} {tk} {o} (h_s : Canon s) : Canon (engineOp s tk o) := by
  unfold engineOp
  with_reducible repeat' first
    | assumption | apply padError_canon | apply setTile_canon | apply engineRows_canon | apply memerr_canon
    | apply engineWrite_canon
    | apply coachError_canon | apply modRake_canon | apply modCoach_canon | apply canon_foldl
    | (refine canon_snd (by assumption) ?_) | apply padOk_write | apply padOk_foldl | (intro _) | extract_lets | split

theorem tileError_canon {s} {tk} (h_s : Canon s) : Canon (tileError s tk) := by
  unfold tileError
  with_reducible repeat' first
    | assumption | apply logConsumed_canon | apply logError_canon | apply undefTile_canon | apply coachError_canon
    | apply canon_to
    | (refine canon_snd (by assumption) ?_) | extract_lets | split | (refine canon_of ?_; dsimp only) | dsimp only
    | dsimp +zetaDelta only

theorem startOp_canon {s} {tk} {o} (h_s : Canon s) : Canon (startOp s tk o) := by
  unfold startOp
  with_reducible repeat' first
    | assumption | apply engineOp_canon | apply tileError_canon | apply canon_to
    | (refine canon_snd (by assumption) ?_) | extract_lets | split | (refine canon_of ?_; dsimp only) | dsimp only
    | dsimp +zetaDelta only

theorem execKStep_canon {core} {s} (h_s : Canon s) : CanonOut (execKStep core s) := by
  unfold execKStep
  with_reducible repeat' first
    | assumption | apply padError_canon | apply tileError_canon | apply canon_mk_out_next | apply coachError_canon
    | apply logError_canon
    | apply setTile_canon
    | apply canon_to | extract_lets | split | (refine canon_of ?_; dsimp only)

theorem execMatrixOpComplete_canon {tile} {s} (h_s : Canon s) : CanonOut (execMatrixOpComplete tile s) := by
  unfold execMatrixOpComplete
  with_reducible repeat' first
    | assumption | apply canon_mk_out_next | apply setTile_canon | apply modCoach_canon | apply checkCoach_canon
    | apply wakeReady_canon | extract_lets | split

theorem execMatrixOpStart_canon {tile} {s} (h_s : Canon s) : CanonOut (execMatrixOpStart tile s) := by
  unfold execMatrixOpStart
  with_reducible repeat' first
    | assumption | apply startOp_canon | apply canon_mk_out_next | apply engineOp_canon | apply setTile_canon
    | extract_lets | split

theorem heldTile_canon {c} {s} {f} (h_s : Canon s) (h_f : (∀ x0, Canon (f x0))) : Canon (heldTile c s f) := by
  unfold heldTile
  with_reducible repeat' first | assumption | apply h_f | apply reject_canon | extract_lets | split

theorem execMcfg_canon {w} {s} (h_s : Canon s) : CanonOut (execMcfg w s) := by
  unfold execMcfg
  with_reducible repeat' first
    | assumption | apply canon_mk_out_next | apply native_canon | apply heldTile_canon | apply finishGroup_canon
    | apply setCoach_canon | apply reject_canon | (intro _) | extract_lets | split

theorem withGroup_canon {c} {s} {fieldNo} {code} {f} (h_s : Canon s) (h_f : (∀ x0, Canon x0 → Canon (f x0))) :
    Canon (withGroup c s fieldNo code f) := by
  unfold withGroup
  with_reducible repeat' first | assumption | apply h_f | apply reject_canon | extract_lets | split

theorem withVersion_canon {c} {s} {tk} {f} (h_s : Canon s) (h_f : (∀ x0, Canon x0 → Canon (f x0))) :
    Canon (withVersion c s tk f) := by
  unfold withVersion
  with_reducible repeat' first | assumption | apply h_f | apply reject_canon | apply stallLanes_canon | split

theorem pagesXlate_canon {s} {k} {a} {z3} {z4} (h_s : Canon s) : Canon (pagesXlate s k a z3 z4).2 := by
  induction z3 generalizing s k a z4 with
  | nil =>
    unfold pagesXlate
    with_reducible repeat' first
      | assumption
  | cons x l ih =>
    unfold pagesXlate
    with_reducible repeat' first | assumption | apply ih | apply coachXlate_canon | (refine canon_snd (by assumption) ?_) | split

theorem moveMemory_canon {c} {s} {tk} {store} (h_s : Canon s) : Canon (moveMemory c s tk store) := by
  unfold moveMemory
  with_reducible repeat' first
    | assumption | apply xlatBad_canon | apply canon_mk_none | apply accessTrap_canon | apply detviol_canon
    | apply ownerStop_canon
    | apply pagesXlate_canon | apply claimLines_canon | apply acceptOp_canon | apply finishGroup_canon
    | apply parkLanes_canon | apply coachError_canon | (refine canon_some (by assumption) ?_)
    | (refine canon_snd (by assumption) ?_) | extract_lets | split

theorem execMlda_canon {w} {s} (h_s : Canon s) : CanonOut (execMlda w s) := by
  unfold execMlda
  with_reducible repeat' first
    | assumption | apply canon_mk_out_next | apply native_canon | apply heldTile_canon | apply withGroup_canon
    | apply withVersion_canon | apply acceptOp_canon | apply moveMemory_canon | (intro _) | extract_lets | split

theorem issueMul_canon {c} {s} {tk} {cfg} {steps} {rows} {cols} {offA} {offB} {last} (h_s : Canon s) :
    Canon (issueMul c s tk cfg steps rows cols offA offB last) := by
  unfold issueMul
  with_reducible repeat' first
    | assumption | apply withVersion_canon | apply accessTrap_canon | apply acceptOp_canon | (intro _) | extract_lets
    | split

theorem execMloop_canon {w} {s} (h_s : Canon s) : CanonOut (execMloop w s) := by
  unfold execMloop
  with_reducible repeat' first
    | assumption | apply canon_mk_out_next | apply native_canon | apply heldTile_canon | apply reject_canon
    | apply issueMul_canon | (intro _) | extract_lets | split

theorem execMma_canon {w} {s} (h_s : Canon s) : CanonOut (execMma w s) := by
  unfold execMma
  with_reducible repeat' first
    | assumption | apply canon_mk_out_next | apply native_canon | apply heldTile_canon | apply reject_canon
    | apply issueMul_canon | (intro _) | extract_lets | split

theorem execMmeta_canon {w} {s} (h_s : Canon s) : CanonOut (execMmeta w s) := by
  unfold execMmeta
  with_reducible repeat' first
    | assumption | apply canon_mk_out_next | apply native_canon | apply heldTile_canon | apply reject_canon
    | apply finishGroup_canon | apply setCoach_canon | (intro _) | extract_lets | split

theorem simpleTileOp_canon {w} {kind} {s} (h_s : Canon s) : Canon (simpleTileOp w kind s) := by
  unfold simpleTileOp
  with_reducible repeat' first
    | assumption | apply native_canon | apply heldTile_canon | apply withVersion_canon | apply acceptOp_canon | (intro _)

theorem execMprom_canon {w} {s} (h_s : Canon s) : CanonOut (execMprom w s) := by
  unfold execMprom
  with_reducible repeat' first | assumption | apply canon_mk_out_next | apply simpleTileOp_canon

theorem execMsta_canon {w} {s} (h_s : Canon s) : CanonOut (execMsta w s) := by
  unfold execMsta
  with_reducible repeat' first
    | assumption | apply canon_mk_out_next | apply native_canon | apply heldTile_canon | apply withGroup_canon
    | apply withVersion_canon | apply acceptOp_canon | apply setCoach_canon | apply moveMemory_canon | (intro _)
    | extract_lets | split

theorem execMverAcq_canon {w} {s} (h_s : Canon s) : CanonOut (execMverAcq w s) := by
  unfold execMverAcq
  with_reducible repeat' first
    | assumption | apply canon_mk_out_next | apply native_canon | apply deliver_canon | apply reject_canon
    | apply setTile_canon | apply undefTile_canon | apply modCoach_canon | (intro _) | extract_lets | split
    | dsimp +zetaDelta only

theorem execMverRead_canon {w} {s} (h_s : Canon s) : CanonOut (execMverRead w s) := by
  unfold execMverRead
  with_reducible repeat' first
    | assumption | apply canon_mk_out_next | apply native_canon | apply heldTile_canon | apply deliver_canon | (intro _)

theorem execMverRel_canon {w} {s} (h_s : Canon s) : CanonOut (execMverRel w s) := by
  unfold execMverRel
  with_reducible repeat' first
    | assumption | apply canon_mk_out_next | apply native_canon | apply heldTile_canon | apply finishGroup_canon
    | apply releaseTile_canon | apply sleepIn_canon | (intro _) | extract_lets | split

theorem execMverWait_canon {w} {s} (h_s : Canon s) : CanonOut (execMverWait w s) := by
  unfold execMverWait
  with_reducible repeat' first
    | assumption | apply raiseTrap_canon | apply unpop_canon | apply canon_mk_out_next | apply native_canon
    | apply heldTile_canon | apply finishGroup_canon
    | apply reject_canon | apply sleepIn_canon | (intro _) | extract_lets | split

theorem execMzero_canon {w} {s} (h_s : Canon s) : CanonOut (execMzero w s) := by
  unfold execMzero
  with_reducible repeat' first | assumption | apply canon_mk_out_next | apply simpleTileOp_canon

/-! ### Machine/Issue.lean -/

theorem fetchOp_canon {s} {co} {ga} {step} (h_s : Canon s) : Canon (fetchOp s co ga step).2 := by
  unfold fetchOp
  with_reducible repeat' first | assumption | apply fetchBytes_canon | (refine canon_snd (by assumption) ?_) | split

theorem noteIssue_canon {s} {k} (h_s : Canon s) : Canon (noteIssue s k) := by
  unfold noteIssue
  with_reducible repeat' first
    | assumption | apply canon_to | (refine canon_snd (by assumption) ?_) | extract_lets | split
    | (refine canon_of ?_; dsimp only) | dsimp only | dsimp +zetaDelta only

theorem issueGroup_canon {s} {k} {grp} {ga} {step} {pair} (h_s : Canon s) : Canon (issueGroup s k grp ga step pair).1 := by
  unfold issueGroup
  repeat' first
    | with_reducible assumption | with_reducible apply noteIssue_canon | with_reducible apply fetchOp_canon
    | with_reducible apply noFetch_canon
    | with_reducible apply modCoach_canon | with_reducible apply rejectWord_canon
    | (refine canon_snd (by with_reducible assumption) ?_) | extract_lets | split | dsimp only
    | (refine canon_of ?_; dsimp only) | dsimp +zetaDelta only

theorem issueCoach_canon {s} {k} (h_s : Canon s) : Canon (issueCoach s k).1 := by
  unfold issueCoach
  with_reducible repeat' first | assumption | apply issueGroup_canon | extract_lets | split | dsimp +zetaDelta only

/-! ### Machine/Convert.lean -/

theorem execCvt_canon {w} {s} (h_s : Canon s) : CanonOut (execCvt w s) := by
  unfold execCvt
  with_reducible repeat' first | assumption | apply canon_mk_out_next | apply laneOp_canon

theorem execCvtn_canon {w} {s} (h_s : Canon s) : CanonOut (execCvtn w s) := by
  unfold execCvtn
  with_reducible repeat' first | assumption | apply canon_mk_out_next | apply native_canon | apply deliver_canon | (intro _)

theorem execPack_canon {w} {s} (h_s : Canon s) : CanonOut (execPack w s) := by
  unfold execPack
  with_reducible repeat' first | assumption | apply canon_mk_out_next | apply laneOp_canon

theorem execRand_canon {w} {s} (h_s : Canon s) : CanonOut (execRand w s) := by
  unfold execRand
  with_reducible repeat' first
    | assumption | apply canon_mk_out_next | apply native_canon | apply deliver_canon | apply modCoach_canon | (intro _)

theorem execRseed_canon {w} {s} (h_s : Canon s) : CanonOut (execRseed w s) := by
  unfold execRseed
  with_reducible repeat' first
    | assumption | apply canon_mk_out_next | apply native_canon | apply finishGroup_canon | apply setCoach_canon
    | (intro _)

theorem execScalex_canon {w} {s} (h_s : Canon s) : CanonOut (execScalex w s) := by
  unfold execScalex
  with_reducible repeat' first | assumption | apply canon_mk_out_next | apply laneOp_canon

theorem execUnpack_canon {w} {s} (h_s : Canon s) : CanonOut (execUnpack w s) := by
  unfold execUnpack
  with_reducible repeat' first | assumption | apply canon_mk_out_next | apply laneOp_canon

/-! ### Machine/CrossLane.lean -/

theorem execBallot_canon {w} {s} (h_s : Canon s) : CanonOut (execBallot w s) := by
  unfold execBallot
  with_reducible repeat' first
    | assumption | apply canon_mk_out_next | apply native_canon | apply setCoach_canon | apply deliver_canon | (intro _)
    | extract_lets | split

theorem execMact_canon {w} {s} (h_s : Canon s) : CanonOut (execMact w s) := by
  unfold execMact
  with_reducible repeat' first
    | assumption | apply canon_mk_out_next | apply native_canon | apply finishGroup_canon | apply modCoach_canon
    | (intro _)

theorem execMfirst_canon {w} {s} (h_s : Canon s) : CanonOut (execMfirst w s) := by
  unfold execMfirst
  with_reducible repeat' first | assumption | apply canon_mk_out_next | apply laneOp_canon

theorem execMmov_canon {w} {s} (h_s : Canon s) : CanonOut (execMmov w s) := by
  unfold execMmov
  with_reducible repeat' first
    | assumption | apply canon_mk_out_next | apply native_canon | apply deliver_canon | apply finishGroup_canon
    | apply setCoach_canon | (intro _) | extract_lets | split

theorem execMop_canon {w} {s} (h_s : Canon s) : CanonOut (execMop w s) := by
  unfold execMop
  with_reducible repeat' first
    | assumption | apply canon_mk_out_next | apply native_canon | apply setCoach_canon | apply deliver_canon
    | apply finishGroup_canon | (intro _) | extract_lets | split

theorem execMpopc_canon {w} {s} (h_s : Canon s) : CanonOut (execMpopc w s) := by
  unfold execMpopc
  with_reducible repeat' first | assumption | apply canon_mk_out_next | apply laneOp_canon

theorem treeOp_canon {w} {scan} {s} (h_s : Canon s) : Canon (treeOp w scan s) := by
  unfold treeOp
  with_reducible repeat' first | assumption | apply native_canon | apply deliver_canon | (intro _)

theorem execRedx_canon {w} {s} (h_s : Canon s) : CanonOut (execRedx w s) := by
  unfold execRedx
  with_reducible repeat' first | assumption | apply canon_mk_out_next | apply treeOp_canon

theorem execScanx_canon {w} {s} (h_s : Canon s) : CanonOut (execScanx w s) := by
  unfold execScanx
  with_reducible repeat' first | assumption | apply canon_mk_out_next | apply treeOp_canon

theorem execShfl_canon {w} {s} (h_s : Canon s) : CanonOut (execShfl w s) := by
  unfold execShfl
  with_reducible repeat' first | assumption | apply canon_mk_out_next | apply laneOp_canon

theorem execSpr_canon {w} {s} (h_s : Canon s) : CanonOut (execSpr w s) := by
  unfold execSpr
  with_reducible repeat' first
    | assumption | apply canon_mk_out_next | apply native_canon | apply deliver_canon | apply reject_canon | (intro _)
    | extract_lets | split

theorem execSprWr_canon {w} {s} (h_s : Canon s) : CanonOut (execSprWr w s) := by
  unfold execSprWr
  with_reducible repeat' first
    | assumption | apply canon_mk_out_next | apply native_canon | apply reject_canon | apply finishGroup_canon
    | apply setCoach_canon | (intro _) | extract_lets | split

theorem execVote_canon {w} {s} (h_s : Canon s) : CanonOut (execVote w s) := by
  unfold execVote
  with_reducible repeat' first | assumption | apply canon_mk_out_next | apply laneOp_canon

end Sys2Proof.Laws
end

