-- ==== Sys2Proof/Laws/CanonDevice.lean ====
section
/-! SUPPORT. What the drays, the events, the engines and the host leave canonical. -/
namespace Sys2Proof.Laws
open Sys2Proof.Machine

/-! ### Machine/Frontend.lean -/

theorem modQueue_canon {s} {ctx} {q} {f} (h_s : Canon s) : Canon (modQueue s ctx q f) := by
  unfold modQueue
  with_reducible repeat' first | assumption | apply modCtx_canon

theorem queueFault_canon {s} {ctx} {q} {va} {x} {acc} (h_s : Canon s) : Canon (queueFault s ctx q va x acc) := by
  unfold queueFault
  with_reducible repeat' first | assumption | apply waitFault_canon | apply modQueue_canon

theorem writeRidx_canon {s} {ctx} {q} (h_s : Canon s) : Canon (writeRidx s ctx q) := by
  unfold writeRidx
  with_reducible repeat' first
    | assumption | apply ownWriteV_canon | apply queueFault_canon | apply modQueue_canon | apply l2System_canon
    | (refine canon_snd (by assumption) ?_) | split

theorem advanceQueue_canon {s} {ctx} {q} (h_s : Canon s) : Canon (advanceQueue s ctx q) := by
  unfold advanceQueue
  with_reducible repeat' first | assumption | apply writeRidx_canon | apply modQueue_canon

theorem completeMsg_canon {s} {ctx} {q} {m} (h_s : Canon s) : Canon (completeMsg s ctx q m) := by
  unfold completeMsg
  with_reducible repeat' first | assumption | apply advanceQueue_canon | apply raiseVector_canon | extract_lets | split

theorem overrunQueue_canon {s} {ctx} {q} (h_s : Canon s) : Canon (overrunQueue s ctx q) := by
  unfold overrunQueue
  with_reducible repeat' first | assumption | apply tearQueue_canon | apply writeRidx_canon | apply modQueue_canon

theorem refuseBlock_canon {s} {ctx} {q} {block} {args} {status} {b} (h_s : Canon s) : Canon (refuseBlock s ctx q block args status b) := by
  unfold refuseBlock
  with_reducible repeat' first
    | assumption | apply modCtx_canon | apply targetRegion_canon | apply canon_to
    | (refine canon_snd (by assumption) ?_) | extract_lets | split | (refine canon_of ?_; dsimp only) | dsimp only
    | dsimp +zetaDelta only

theorem skipMsg_canon {s} {ctx} {q} (h_s : Canon s) : Canon (skipMsg s ctx q) := by
  unfold skipMsg
  with_reducible repeat' first | assumption | apply modQueue_canon | apply advanceQueue_canon

theorem readMsg_canon {s} {ctx} {q} (h_s : Canon s) : CanonMsg (readMsg s ctx q) := by
  unfold readMsg
  with_reducible repeat' first
    | assumption | apply skipMsg_canon | apply canon_mk_msg_msg | apply canon_mk_msg_stop | apply writeRidx_canon
    | apply overrunQueue_canon
    | apply ownReadP_canon | apply l2System_canon | apply queueFault_canon | apply tearQueue_canon
    | apply logError_canon
    | (refine canon_snd (by assumption) ?_) | split

theorem refuseLaunch_canon {s} {ctx} {q} {block} {args} {status} (h_s : Canon s) :
    Canon (refuseLaunch s ctx q block args status) := by
  unfold refuseLaunch
  with_reducible repeat' first
    | assumption | apply waitFault_canon | apply addPend_canon | apply refuseBlock_canon | apply logError_canon
    | apply ownReadP_canon | apply modCtx_canon | apply targetRegion_canon
    | (refine canon_snd (by assumption) ?_) | apply canon_to | extract_lets | split | (refine canon_of ?_; dsimp only)

theorem discardMsg_canon {s} {ctx} {q} {m} (h_s : Canon s) : Canon (discardMsg s ctx q m) := by
  unfold discardMsg
  with_reducible repeat' first
    | assumption | apply advanceQueue_canon | apply refuseLaunch_canon | apply canon_to
    | (refine canon_snd (by assumption) ?_) | extract_lets | split | (refine canon_of ?_; dsimp only) | dsimp only
    | dsimp +zetaDelta only

theorem discardMsgs_canon {ctx} {q} {a} {z3} (h_z3 : Canon z3) : Canon (discardMsgs ctx q a z3) := by
  induction a generalizing ctx q z3 with
  | zero =>
    unfold discardMsgs
    with_reducible repeat' first
      | assumption
  | succ n ih =>
    unfold discardMsgs
    with_reducible repeat' first
      | assumption | apply ih | apply readMsg_canon | apply discardMsg_canon
      | (refine canon_msg (by assumption) ?_) | (refine canon_mstop (by assumption) ?_) | extract_lets | split

theorem contextReset_canon {s} {ctx} (h_s : Canon s) : Canon (contextReset s ctx) := by
  unfold contextReset
  with_reducible repeat' first
    | assumption | apply resetCtx_canon | apply modQueue_canon | apply discardMsgs_canon | apply writeRidx_canon
    | apply canon_foldl | apply canon_to | (intro _) | extract_lets | split | (refine canon_of ?_; dsimp only)
    | dsimp +zetaDelta only

/-! ### Machine/Image.lean -/

theorem writeLineBack_canon {s} {k} {r} (h_s : Canon s) : Canon (writeLineBack s k r) := by
  unfold writeLineBack
  with_reducible repeat' first
    | assumption | apply areaPieces_canon | apply writeOwn_canon | apply ownWriteV_canon | apply markReset_canon
    | apply canon_foldl
    | (refine canon_snd (by assumption) ?_) | (intro _) | extract_lets | split

theorem dropLine_canon {s} {part} {e} (h_s : Canon s) : Canon (dropLine s part e) := by
  unfold dropLine
  with_reducible repeat' first
    | assumption | apply writeLineBack_canon | apply modCoach_canon | apply canon_to
    | (refine canon_snd (by assumption) ?_) | extract_lets | split | (refine canon_of ?_; dsimp only) | dsimp only
    | dsimp +zetaDelta only

theorem cacheLine_canon {s} {part} {k} {r} {d} (h_s : Canon s) : Canon (cacheLine s part k r d) := by
  unfold cacheLine
  with_reducible repeat' first
    | assumption | apply dropLine_canon | apply modCoach_canon | apply writeLineBack_canon | apply canon_to
    | extract_lets | split | (refine canon_of ?_; dsimp only)
    | dsimp +zetaDelta only

theorem touchLine_canon {s} {part} {k} {u} (h_s : Canon s) : Canon (touchLine s part k u) := by
  unfold touchLine
  with_reducible repeat' first
    | assumption | apply cacheLine_canon | apply canon_to | (refine canon_snd (by assumption) ?_) | extract_lets
    | split | (refine canon_of ?_; dsimp only) | dsimp only | dsimp +zetaDelta only

theorem touchLines_canon {s} {k} {w} (h_s : Canon s) : Canon (touchLines s k w) := by
  unfold touchLines
  with_reducible repeat' first
    | assumption | apply touchLine_canon | apply canon_foldl | apply canon_foldl2 | (intro _) | apply canon_to
    | (refine canon_snd (by assumption) ?_) | extract_lets | split | (refine canon_of ?_; dsimp only) | dsimp only
    | dsimp +zetaDelta only

theorem returnLines_canon {s} {k} {part} (h_s : Canon s) : Canon (returnLines s k part) := by
  unfold returnLines
  with_reducible repeat' first
    | assumption | apply dropLine_canon | apply modCoach_canon | apply canon_foldl | apply canon_foldl2 | (intro _)
    | apply canon_to | (refine canon_snd (by assumption) ?_) | extract_lets | split | (refine canon_of ?_; dsimp only)
    | dsimp only | dsimp +zetaDelta only

theorem saveCoach_canon {s} {k} (h_s : Canon s) : Canon (saveCoach s k) := by
  unfold saveCoach
  with_reducible repeat' first
    | assumption | apply freshSeed_canon | apply writeArea_canon | apply modCoach_canon | apply writeImage_canon
    | apply acquireGlobal_canon | apply releaseGlobal_canon
    | apply undefTile_canon | apply setTile_canon | apply canon_foldl | (intro _) | extract_lets | split

theorem readImage_canon {s} {k} {die} (h_s : Canon s) : Canon (readImage s k die).2 := by
  unfold readImage
  with_reducible repeat' first
    | assumption | apply areaPieces_canon | apply markReset_canon | apply fillOwn_canon | apply errorReset_canon
    | apply modCoach_canon | (intro _) | apply canon_to | (refine canon_snd (by assumption) ?_) | extract_lets | split | (refine canon_of ?_; dsimp only) | dsimp only
    | dsimp +zetaDelta only

theorem readRakeImage_canon {s} {rk} (h_s : Canon s) : Canon (readRakeImage s rk) := by
  unfold readRakeImage
  with_reducible repeat' first
    | assumption | apply areaPieces_canon | apply markReset_canon | apply fillOwn_canon | apply errorReset_canon
    | apply modRake_canon | apply padOk_bytes | apply canon_foldl | apply canon_foldl2 | (intro _) | apply canon_to
    | (refine canon_snd (by assumption) ?_) | extract_lets | split
    | (refine canon_of ?_; dsimp only) | dsimp only | dsimp +zetaDelta only

theorem seatCoach_canon {s} {k} {place} (h_s : Canon s) : Canon (seatCoach s k place) := by
  unfold seatCoach
  with_reducible repeat' first
    | assumption | apply returnLines_canon | apply coachFence_canon | apply setTile_canon | apply modCoach_canon
    | apply wakeReady_canon | apply canon_foldl | (intro _)

theorem saveRake_canon {s} {rk} (h_s : Canon s) : Canon (saveRake s rk) := by
  unfold saveRake
  with_reducible repeat' first
    | assumption | apply freshSeed_canon | apply writeArea_canon | apply saveCoach_canon | apply writeImage_canon
    | apply modRake_canon | apply canon_foldl | (intro _)
    | extract_lets | split

/-! ### Machine/Sched.lean -/

theorem clockTo_canon {s} {u} {t} (h_s : Canon s) : Canon (clockTo s u t) := by
  unfold clockTo
  with_reducible repeat' first | assumption | apply addCycles_canon | split

theorem passPush_canon {s} {k} {st} (h_s : Canon s) : Canon (passPush s k st) := by
  unfold passPush
  with_reducible repeat' first | assumption | apply modCoach_canon | apply flushFpe_canon

theorem tryPush_canon {s} {k} {st} {q} {e} {full} (h_s : Canon s) (h_full : Canon full) : Canon (tryPush s k st q e full) := by
  unfold tryPush
  with_reducible repeat' first
    | assumption | apply pushReg_canon | apply passPush_canon | apply parkLanes_canon | (intro _) | apply canon_to
    | (refine canon_pdone (by assumption) ?_) | (refine canon_pxlat (by assumption) ?_) | extract_lets | split
    | (refine canon_of ?_; dsimp only) | dsimp only | dsimp +zetaDelta only

theorem execCoachAdmission_canon {pool} {s} (h_s : Canon s) : CanonOut (execCoachAdmission pool s) := by
  unfold execCoachAdmission
  with_reducible repeat' first | assumption | apply canon_mk_out_next | apply modCoach_canon | extract_lets | split

theorem execCoachEviction_canon {core} {s} (h_s : Canon s) : CanonOut (execCoachEviction core s) := by
  unfold execCoachEviction
  with_reducible repeat' first | assumption | apply canon_mk_out_next | apply saveCoach_canon | extract_lets | split

theorem execCoachRestore_canon {coach} {s} (h_s : Canon s) : CanonOut (execCoachRestore coach s) := by
  unfold execCoachRestore
  with_reducible repeat' first
    | assumption | apply canon_mk_out_next | apply canon_mk_out_fault | apply canon_mk_out_refused
    | apply readImage_canon | apply seatCoach_canon | (intro _) | apply canon_to
    | (refine canon_snd (by assumption) ?_) | extract_lets | split | (refine canon_of ?_; dsimp only) | dsimp only
    | dsimp +zetaDelta only

theorem execIssueSelect_canon {part} {s} (h_s : Canon s) : CanonOut (execIssueSelect part s) := by
  unfold execIssueSelect
  with_reducible repeat' first
    | assumption | apply canon_mk_out_next | apply canon_to | extract_lets | split | (refine canon_of ?_; dsimp only)

theorem execLeaseEstimateUpdate_canon {coach} {s} (h_s : Canon s) : CanonOut (execLeaseEstimateUpdate coach s) := by
  unfold execLeaseEstimateUpdate
  with_reducible repeat' first | assumption | apply canon_mk_out_next | apply setLease_canon | extract_lets | split

theorem execLongResultReturn_canon {coach} {slot} {s} (h_s : Canon s) : CanonOut (execLongResultReturn coach slot s) := by
  unfold execLongResultReturn
  with_reducible repeat' first | assumption | apply canon_mk_out_next | apply modCoach_canon

theorem execLongWaitExit_canon {coach} {s} (h_s : Canon s) : CanonOut (execLongWaitExit coach s) := by
  unfold execLongWaitExit
  with_reducible repeat' first
    | assumption | apply canon_mk_out_next | apply leaveActive_canon | apply clockTo_canon | extract_lets | split

theorem fillPop_canon {s} {k} {sel} {take} (h_s : Canon s) (h_take : (∀ x0 x1, Canon x0 → CanonOP (take x0 x1))) :
    Canon (fillPop s k sel take) := by
  unfold fillPop
  with_reducible repeat' first
    | assumption | apply h_take | apply modCoach_canon | (refine canon_somep (by assumption) ?_) | extract_lets | split

theorem execPortPopComplete_canon {coach} {s} (h_s : Canon s) : CanonOut (execPortPopComplete coach s) := by
  unfold execPortPopComplete
  with_reducible repeat' first
    | assumption | apply acquireGlobal_canon | apply canon_mk_nonep | apply canon_mk_somep
    | apply canon_mk_out_next | apply fillPop_canon
    | apply canon_to | (intro _) | extract_lets | split | dsimp only | (refine canon_of ?_; dsimp only)

theorem execPortPushComplete_canon {coach} {s} (h_s : Canon s) : CanonOut (execPortPushComplete coach s) := by
  unfold execPortPushComplete
  with_reducible repeat' first
    | assumption | apply canon_mk_out_next | apply pushReg_canon | apply passPush_canon
    | (refine canon_pdone (by assumption) ?_) | extract_lets | split

theorem execQfull_canon {coach} {s} (h_s : Canon s) : CanonOut (execQfull coach s) := by
  unfold execQfull
  with_reducible repeat' first
    | assumption | apply tryPush_canon | apply canon_mk_out_next | apply clockTo_canon | apply modCoach_canon
    | apply raiseTrap_canon
    | extract_lets | split

theorem execQueuePopComplete_canon {coach} {s} (h_s : Canon s) : CanonOut (execQueuePopComplete coach s) := by
  unfold execQueuePopComplete
  with_reducible repeat' first
    | assumption | apply canon_mk_nonep | apply canon_mk_out_next | apply fillPop_canon | apply acquireGlobal_canon
    | apply popQueue_canon | apply canon_mapp | (intro _) | extract_lets | split

theorem execQueuePushComplete_canon {coach} {s} (h_s : Canon s) : CanonOut (execQueuePushComplete coach s) := by
  unfold execQueuePushComplete
  with_reducible repeat' first
    | assumption | apply tryPush_canon | apply canon_mk_out_next | apply pushReg_canon | apply passPush_canon
    | apply parkLanes_canon
    | (refine canon_pdone (by assumption) ?_) | (refine canon_pxlat (by assumption) ?_) | extract_lets | split

theorem zeroSlotMap_canon {s} {ctx} {die} {fslot} (h_s : Canon s) : Canon (zeroSlotMap s ctx die fslot) := by
  unfold zeroSlotMap
  with_reducible repeat' first | assumption | apply writeArea_canon | apply writeImage_canon | extract_lets | split

theorem makeCoaches_canon {s} {r} {rk} {idx} {ctx} {st} {seats} (h_s : Canon s) :
    Canon (makeCoaches s r rk idx ctx st seats) := by
  unfold makeCoaches
  with_reducible repeat' first
    | assumption | apply modRake_canon | apply zeroSlotMap_canon | apply canon_foldl | apply canon_to | (intro _)
    | extract_lets | (refine canon_of ?_; dsimp only)

theorem execRakePlacement_canon {rake} {s} (h_s : Canon s) : CanonOut (execRakePlacement rake s) := by
  unfold execRakePlacement
  with_reducible repeat' first
    | assumption | apply readRakeImage_canon | apply canon_mk_out_next | apply canon_mk_out_fault
    | apply canon_mk_out_refused
    | apply setFused_canon | apply modRegion_canon | apply modRake_canon | apply acquireGlobal_canon
    | apply makeCoaches_canon | apply canon_foldl | apply canon_foldl2 | (intro _) | apply canon_to | extract_lets
    | split | (refine canon_of ?_; dsimp only) | dsimp only | dsimp +zetaDelta only

theorem execReturnBufferCommit_canon {coach} {s} (h_s : Canon s) : CanonOut (execReturnBufferCommit coach s) := by
  unfold execReturnBufferCommit
  with_reducible repeat' first
    | assumption | apply canon_mk_out_next | apply commitAll_canon | apply setCoach_canon | apply raiseTrap_canon
    | (refine canon_snd (by assumption) ?_) | extract_lets | split

theorem execSleepWake_canon {coach} {s} (h_s : Canon s) : CanonOut (execSleepWake coach s) := by
  unfold execSleepWake
  with_reducible repeat' first
    | assumption | apply canon_mk_out_next | apply clockTo_canon | apply wakeReady_canon | extract_lets | split
    | dsimp +zetaDelta only

theorem execSlotMove_canon {rake} {s} (h_s : Canon s) : CanonOut (execSlotMove rake s) := by
  unfold execSlotMove
  with_reducible repeat' first
    | assumption | apply canon_mk_out_next | apply saveRake_canon | apply modRake_canon | apply fillSlot_canon
    | apply modRegion_canon | (intro _) | extract_lets | split | dsimp +zetaDelta only

theorem execStageRebalance_canon {region} {s} (h_s : Canon s) : CanonOut (execStageRebalance region s) := by
  unfold execStageRebalance
  with_reducible repeat' first
    | assumption | apply canon_mk_out_next | apply clockTo_canon | apply modRegion_canon | extract_lets | split

theorem execTbarWake_canon {tag} {s} (h_s : Canon s) : CanonOut (execTbarWake tag s) := by
  unfold execTbarWake
  with_reducible repeat' first
    | assumption | apply wakeReady_canon | apply modCoach_canon | apply canon_mk_out_next | apply clockTo_canon
    | apply wakeCoaches_canon | apply canon_foldl
    | apply canon_to | (intro _) | extract_lets | split | (refine canon_of ?_; dsimp only)

theorem execThrottleInterval_canon {pool} {s} (h_s : Canon s) : CanonOut (execThrottleInterval pool s) := by
  unfold execThrottleInterval
  with_reducible repeat' first
    | assumption | apply canon_mk_out_next | apply clockTo_canon | apply modCoach_canon | apply leaveActive_canon
    | apply canon_foldl | apply canon_to | (intro _) | extract_lets | split | (refine canon_of ?_; dsimp only)

theorem execTimeSliceExpiry_canon {coach} {s} (h_s : Canon s) : CanonOut (execTimeSliceExpiry coach s) := by
  unfold execTimeSliceExpiry
  with_reducible repeat' first
    | assumption | apply canon_mk_out_next | apply modCoach_canon | apply clockTo_canon | extract_lets | split

/-! ### Machine/Plates.lean -/

theorem imageRead_canon {s} {ctx} {world} {pa} {n} (h_s : Canon s) : Canon (imageRead s ctx world pa n).2 := by
  unfold imageRead
  with_reducible repeat' first | assumption | apply ownFill_canon | apply logError_canon | extract_lets | split

theorem loadPlate_canon {s} {ctx} {c} {cmd} (h_s : Canon s) : Canon (loadPlate s ctx c cmd).2 := by
  unfold loadPlate
  with_reducible repeat' first | assumption | apply imageRead_canon | (refine canon_snd (by assumption) ?_) | extract_lets | split

theorem tryNative_canon {i} {s} (h_s : Canon s) : CanonOut (tryNative i s) := by
  unfold tryNative
  with_reducible repeat' first
    | assumption | apply canon_mk_out_next | apply execNop_canon | apply execBra_canon | apply execBrx_canon
    | apply execCall_canon | apply execCallx_canon | apply execRet_canon | apply execJoin_canon | apply execExit_canon
    | apply execSleep_canon | apply execSleepBar_canon | apply execYield_canon | apply execIadd_canon
    | apply execIsub_canon | apply execImul_canon | apply execImulh_canon | apply execImad_canon | apply execIaddc_canon
    | apply execImin_canon | apply execImax_canon | apply execIabs_canon | apply execIcmp_canon | apply execSel_canon
    | apply execAnd_canon | apply execOr_canon | apply execXor_canon | apply execAndn_canon | apply execShl_canon
    | apply execShr_canon | apply execSar_canon | apply execRotl_canon | apply execBfe_canon | apply execBfi_canon
    | apply execPopc_canon | apply execClz_canon | apply execCtz_canon | apply execLea_canon | apply execMov_canon
    | apply execMovi_canon | apply execMovhi_canon | apply execIadd64_canon | apply execImad64_canon | apply execIdp4_canon
    | apply execFadd_canon | apply execFsub_canon | apply execFmul_canon | apply execFfma_canon | apply execFmin_canon
    | apply execFmax_canon | apply execFcmp_canon | apply execFrnd_canon | apply execFrcp_canon | apply execFrsq_canon
    | apply execFsqrt_canon | apply execFexp2_canon | apply execFlog2_canon | apply execFsin_canon | apply execFcos_canon
    | apply execFclass_canon | apply execHadd2_canon | apply execHmul2_canon | apply execHfma2_canon
    | apply execHmin2_canon | apply execHmax2_canon | apply execHdot2_canon | apply execFdp4n_canon | apply execCvt_canon
    | apply execCvtn_canon | apply execPack_canon | apply execUnpack_canon | apply execScalex_canon | apply execRand_canon
    | apply execRseed_canon | apply execShfl_canon | apply execBallot_canon | apply execVote_canon | apply execRedx_canon
    | apply execScanx_canon | apply execMop_canon | apply execMpopc_canon | apply execMfirst_canon | apply execMact_canon
    | apply execMmov_canon | apply execSpr_canon | apply execSprWr_canon | apply execLd_canon | apply execSt_canon
    | apply execLds_canon | apply execSts_canon | apply execLdl_canon | apply execStl_canon | apply execAtom_canon
    | apply execAtoms_canon | apply execFence_canon | apply execCctl_canon | apply execPref_canon | apply execIpref_canon
    | apply execIpin_canon | apply execIunpin_canon | apply execLdd_canon | apply execStd_canon | apply execBari_canon
    | apply execBara_canon | apply execBarw_canon | apply execBars_canon | apply execBarx_canon | apply execTbar_canon
    | apply execTlwait_canon | apply execTlrd_canon | apply execCpy_canon | apply execCpseal_canon | apply execCpwait_canon
    | apply execQctlOpen_canon | apply execQctlClose_canon | apply execQctlDrain_canon | apply execMcfg_canon
    | apply execMma_canon | apply execMloop_canon | apply execMzero_canon | apply execMlda_canon | apply execMsta_canon
    | apply execMprom_canon | apply execMverRead_canon | apply execMverAcq_canon | apply execMverRel_canon
    | apply execMverWait_canon | apply execMmeta_canon | apply execTrap_canon | apply execTret_canon
    | apply execLeaseDecl_canon | apply execLeaseMeas_canon | apply execCzopen_canon | apply execCzclose_canon
    | apply execSpawn_canon | apply execSysrd_canon | apply execSyswr_canon | apply execDbgbrk_canon
    | apply execDturn_canon | split

/-! ### Machine/Units.lean -/

theorem fatalDevice_canon {s} {source} {die} (h_s : Canon s) : Canon (fatalDevice s source die) := by
  unfold fatalDevice
  with_reducible repeat' first
    | assumption | apply logError_canon | apply raiseVector_canon | (intro _) | apply canon_to | extract_lets | split
    | (refine canon_of ?_; dsimp only) | dsimp only | dsimp +zetaDelta only

theorem keyStoreError_canon {s} (h_s : Canon s) : Canon (keyStoreError s) := by
  unfold keyStoreError
  with_reducible repeat' first
    | assumption | apply fatalDevice_canon | (intro _) | apply canon_to | extract_lets | split
    | (refine canon_of ?_; dsimp only) | dsimp only | dsimp +zetaDelta only

theorem loseScalars_canon {s} {k} (h_s : Canon s) : Canon (loseScalars s k) := by
  unfold loseScalars
  with_reducible repeat' first
    | assumption | apply modCoach_canon | (intro _) | apply canon_to | extract_lets | split
    | (refine canon_of ?_; dsimp only) | dsimp only | dsimp +zetaDelta only

theorem execAccessCounterNotify_canon {die} {counter} {s} (h_s : Canon s) :
    CanonOut (execAccessCounterNotify die counter s) := by
  unfold execAccessCounterNotify
  with_reducible repeat' first
    | assumption | apply canon_mk_out_next | apply physWrite_canon | apply raiseVector_canon | apply canon_to
    | extract_lets | split | (refine canon_of ?_; dsimp only) | dsimp +zetaDelta only

theorem execDramScrub_canon {die} {s} (h_s : Canon s) : CanonOut (execDramScrub die s) := by
  unfold execDramScrub
  with_reducible repeat' first
    | assumption | apply canon_mk_out_next | apply canon_mk_out_fault | apply canon_mk_out_refused
    | apply meetSoftError_canon | apply canon_foldl | apply canon_foldl2 | (intro _) | apply canon_to | extract_lets
    | split | (refine canon_of ?_; dsimp only) | dsimp only | dsimp +zetaDelta only

theorem poisonCopies_canon {s} {cl} {line} (h_s : Canon s) : Canon (poisonCopies s cl line) := by
  unfold poisonCopies
  with_reducible repeat' first
    | assumption | (intro _) | apply canon_to | extract_lets | split | (refine canon_of ?_; dsimp only) | dsimp only
    | dsimp +zetaDelta only

theorem execFlowTagFailure_canon {flow} {line} {replayFails} {s} (h_s : Canon s) : CanonOut (execFlowTagFailure flow line replayFails s) := by
  unfold execFlowTagFailure
  with_reducible repeat' first
    | assumption | apply canon_mk_out_next | apply canon_mk_out_fault | apply canon_mk_out_refused
    | apply setPoison_canon | apply poisonCopies_canon | apply logError_canon | apply fatalDevice_canon | (intro _)
    | apply canon_to | extract_lets | split | (refine canon_of ?_; dsimp only) | dsimp only | dsimp +zetaDelta only

theorem execL1DirtyPropagation_canon {l1} {line} {s} (h_s : Canon s) : CanonOut (execL1DirtyPropagation l1 line s) := by
  unfold execL1DirtyPropagation
  with_reducible repeat' first | assumption | apply canon_mk_out_next | apply l1Clean_canon | extract_lets | split

theorem scrubLine_canon {s} {line} (h_s : Canon s) : Canon (scrubLine s line) := by
  unfold scrubLine
  with_reducible repeat' first
    | assumption | apply correctedError_canon | apply logError_canon | apply setPoison_canon | apply canon_to
    | extract_lets | split | (refine canon_of ?_; dsimp only) | dsimp +zetaDelta only

theorem execL2Scrub_canon {die} {line} {s} (h_s : Canon s) : CanonOut (execL2Scrub die line s) := by
  unfold execL2Scrub
  with_reducible repeat' first | assumption | apply canon_mk_out_next | apply scrubLine_canon | extract_lets | split

theorem execRegisterLineFill_canon {coach} {reg} {s} (h_s : Canon s) : CanonOut (execRegisterLineFill coach reg s) := by
  unfold execRegisterLineFill
  with_reducible repeat' first
    | assumption | apply ownReadP_canon | apply errorReset_canon | apply loseScalars_canon | apply ownReadV_canon
    | apply setCoach_canon | apply coachError_canon | apply canon_mk_out_next
    | apply areaPieces_canon | apply markReset_canon | apply cacheLine_canon | apply fillOwn_canon
    | apply memerr_canon | apply modCoach_canon | (refine canon_snd (by assumption) ?_) | extract_lets | split

theorem execThermalFatal_canon {s} (h_s : Canon s) : CanonOut (execThermalFatal s) := by
  unfold execThermalFatal
  with_reducible repeat' first
    | assumption | apply canon_mk_out_next | apply canon_mk_out_fault | apply canon_mk_out_refused
    | apply fatalDevice_canon | (intro _) | apply canon_to | extract_lets | split | (refine canon_of ?_; dsimp only)
    | dsimp only | dsimp +zetaDelta only

theorem execThermalRecover_canon {die} {s} (h_s : Canon s) : CanonOut (execThermalRecover die s) := by
  unfold execThermalRecover
  with_reducible repeat' first
    | assumption | apply canon_mk_out_next | apply canon_to | extract_lets | split | (refine canon_of ?_; dsimp only)

theorem execThermalThrottle_canon {die} {s} (h_s : Canon s) : CanonOut (execThermalThrottle die s) := by
  unfold execThermalThrottle
  with_reducible repeat' first
    | assumption | apply canon_mk_out_next | apply canon_to | extract_lets | split | (refine canon_of ?_; dsimp only)

/-! ### Machine/DrayOps.lean -/

theorem drayDrains_canon {s} {dk} (h_s : Canon s) : Canon (drayDrains s dk) := by
  unfold drayDrains
  with_reducible repeat' first
    | assumption | apply setDray_canon | (intro _) | apply canon_to | extract_lets | split
    | (refine canon_of ?_; dsimp only) | dsimp only | dsimp +zetaDelta only

theorem DGot_bind_canon {α β : Type} {g : DGot α} {f : α → State → DGot β} (h_g : CanonGot g)
    (h_f : ∀ a s, Canon s → CanonGot (f a s)) : CanonGot (g.bind f) := by
  cases g with
  | ok v s => exact h_f v s h_g
  | _ => exact h_g

theorem drayWrite_canon {s} {dk} {p} {bs} (h_s : Canon s) : Canon (drayWrite s dk p bs) := by
  unfold drayWrite
  with_reducible repeat' first
    | assumption | apply claimOwners_canon | apply modRegion_canon | apply writePath_canon | apply modRake_canon
    | apply padOk_write | (intro _)
    | extract_lets | split

theorem drayWriteAll_canon {dk} {a} {z2} {z3} (h_z3 : Canon z3) : Canon (drayWriteAll dk a z2 z3) := by
  induction a generalizing dk z2 z3 with
  | nil =>
    unfold drayWriteAll
    with_reducible repeat' first
      | assumption
  | cons x l ih =>
    unfold drayWriteAll
    with_reducible repeat' first | assumption | apply ih | apply drayWrite_canon

theorem drayXlate_canon {s} {dk} {va} {a} (h_s : Canon s) : CanonGot (drayXlate s dk va a) := by
  unfold drayXlate
  with_reducible repeat' first
    | assumption | apply canon_mk_got_ok | apply canon_mk_got_fault | apply canon_mk_got_park | apply canon_mk_got_error
    | apply xlateProgram_canon | (refine canon_snd (by assumption) ?_) | split

theorem drayTarget_canon {s} {dk} {space} {a} {n} {b} (h_s : Canon s) : CanonGot (drayTarget s dk space a n b) := by
  unfold drayTarget
  with_reducible repeat' first
    | assumption | apply canon_mk_got_ok | apply canon_mk_got_fault | apply DGot_bind_canon | apply drayXlate_canon
    | (intro _) | extract_lets | split

theorem drayTargets_canon {dk} {space} {a} {z3} {z4} (h_z4 : Canon z4) : CanonGot (drayTargets dk space a z3 z4) := by
  induction a generalizing dk space z3 z4 with
  | nil =>
    unfold drayTargets
    with_reducible repeat' first
      | assumption | apply canon_mk_got_ok
  | cons x l ih =>
    unfold drayTargets
    with_reducible repeat' first | assumption | apply ih | apply DGot_bind_canon | apply drayTarget_canon | (intro _)

theorem drayBad_canon {s} {dk} {cause} {info} (h_s : Canon s) : Canon (drayBad s dk cause info) := by
  unfold drayBad
  with_reducible repeat' first | assumption | apply logError_canon | apply drayError_canon | extract_lets | split

theorem drayOp_canon {s} {f} (h_s : Canon s) (h_f : (∀ x0 x1, Canon (f x0 x1))) : Canon (drayOp s f) := by
  unfold drayOp
  with_reducible repeat' first | assumption | apply h_f | extract_lets | split

theorem drayDone_canon {s} {dk} {r} {v} (h_s : Canon s) : Canon (drayDone s dk r v) := by
  unfold drayDone
  with_reducible repeat' first | assumption | apply setDray_canon

theorem drayFault_canon {s} {dk} {code} (h_s : Canon s) : Canon (drayFault s dk code) := by
  unfold drayFault
  with_reducible repeat' first | assumption | apply setDray_canon | apply stopDray_canon | extract_lets | split

theorem drayPark_canon {s} {dk} {va} {e} {acc} (h_s : Canon s) : Canon (drayPark s dk va e acc) := by
  unfold drayPark
  with_reducible repeat' first
    | assumption | apply joinFault_canon | apply setDray_canon | (intro _) | apply canon_to
    | (refine canon_snd (by assumption) ?_) | extract_lets | split | (refine canon_of ?_; dsimp only) | dsimp only
    | dsimp +zetaDelta only

theorem drayEnd_canon {α : Type} {dk : Nat} {g : DGot α} {f : α → State → State} (h_g : CanonGot g)
    (h_f : ∀ a s, Canon s → Canon (f a s)) : Canon (drayEnd dk g f) := by
  cases g with
  | ok v s => exact h_f v s h_g
  | fault c s => exact drayFault_canon h_g
  | park va e a s => exact drayPark_canon h_g
  | error c i s => exact drayBad_canon h_g

theorem endData_canon {s} {dk} (h_s : Canon s) : Canon (endData s dk) := by
  unfold endData
  with_reducible repeat' first | assumption | apply setDray_canon | extract_lets | split

theorem applyUnit_canon {s} {dk} {u} (h_s : Canon s) : Canon (applyUnit s dk u) := by
  unfold applyUnit
  with_reducible repeat' first | assumption | apply drayWriteAll_canon | apply setDray_canon

theorem moveUnits_stop_canon {dk} {s} {p} {ws} (h_s : Canon s) : Canon (moveUnits.stop dk s p ws) := by
  unfold moveUnits.stop
  with_reducible repeat' first
    | assumption | apply clearCovered_canon | apply setDray_canon | (intro _) | apply canon_to | extract_lets | split
    | (refine canon_of ?_; dsimp only) | dsimp only | dsimp +zetaDelta only

theorem moveUnits_canon {dk} {gs} {unit} {a} {z3} {z4} {z5} {z6} (h_unit : (∀ x0 x1, Canon x0 → CanonGot (unit x0 x1)))
    (h_z6 : Canon z6) : Canon (moveUnits dk gs unit a z3 z4 z5 z6) := by
  induction a generalizing z3 z4 z5 z6 with
  | zero =>
    unfold moveUnits
    with_reducible repeat' first
      | assumption | apply moveUnits_stop_canon
  | succ n ih =>
    unfold moveUnits
    with_reducible repeat' first
      | assumption | apply ih | apply h_unit | apply moveUnits_stop_canon | apply clearCovered_canon | apply applyUnit_canon | apply drayFault_canon
      | apply drayPark_canon | apply drayBad_canon | (refine canon_gok (by assumption) ?_)
      | (refine canon_gfault (by assumption) ?_) | (refine canon_gpark (by assumption) ?_)
      | (refine canon_gerror (by assumption) ?_) | split

theorem movePlain_canon {s} {dk} {gs} {n} {unit} (h_s : Canon s) (h_unit : (∀ x0, Canon x0 → CanonGot (unit x0))) :
    Canon (movePlain s dk gs n unit) := by
  unfold movePlain
  with_reducible repeat' first
    | assumption | apply moveUnits_canon | apply DGot_bind_canon | apply h_unit | apply canon_mk_got_ok | (intro _)

theorem checkLine_canon {s} {dk} {g} (h_s : Canon s) : CanonGot (checkLine s dk g) := by
  unfold checkLine
  with_reducible repeat' first
    | assumption | apply canon_mk_got_ok | apply canon_mk_got_fault | apply DGot_bind_canon | apply drayXlate_canon
    | (intro _) | extract_lets | split

theorem takeStream_canon {s} {dk} {g} {n} (h_s : Canon s) : CanonGot (takeStream s dk g n) := by
  unfold takeStream
  with_reducible repeat' first | assumption | apply canon_mk_got_ok | apply canon_mk_got_fault | split

theorem targetStream_canon {s} {dk} {g} {j} {n} (h_s : Canon s) : CanonGot (targetStream s dk g j n) := by
  unfold targetStream
  with_reducible repeat' first | assumption | apply canon_mk_got_ok | apply DGot_bind_canon | apply drayTargets_canon | (intro _)

theorem convertUnit_canon {s} {dk} {dn} {sn} {rm} {fidx} {cv} {bs} (h_s : Canon s) :
    CanonGot (convertUnit s dk dn sn rm fidx cv bs) := by
  unfold convertUnit
  with_reducible repeat' first
    | assumption | apply canon_mk_got_ok | apply canon_mk_got_fault | apply DGot_bind_canon | apply takeStream_canon
    | apply targetStream_canon | apply drayTarget_canon | (intro _) | extract_lets | split

theorem drayRead_canon {s} {dk} {space} {a} {n} (h_s : Canon s) : CanonGot (drayRead s dk space a n) := by
  unfold drayRead
  with_reducible repeat' first
    | assumption | apply canon_mk_got_ok | apply canon_mk_got_fault | apply canon_mk_got_error | apply DGot_bind_canon
    | apply drayXlate_canon | apply readPath_canon | (refine canon_trd (by assumption) ?_) | (intro _) | extract_lets
    | split

theorem unpackUnit_canon {s} {dk} {dn} {sn} {rm} {cv} {gs} {data} (h_s : Canon s) (h_data : (∀ x0 x1, Canon x1 → CanonGot (data x0 x1))) :
    CanonGot (unpackUnit s dk dn sn rm cv gs data) := by
  unfold unpackUnit
  with_reducible repeat' first
    | assumption | apply canon_mk_got_ok | apply canon_mk_got_fault | apply h_data | apply DGot_bind_canon
    | apply drayRead_canon | apply takeStream_canon | apply targetStream_canon | (intro _) | extract_lets | split

theorem drayReadAll_canon {dk} {space} {a} {z3} {z4} (h_z4 : Canon z4) : CanonGot (drayReadAll dk space a z3 z4) := by
  induction a generalizing dk space z3 z4 with
  | nil =>
    unfold drayReadAll
    with_reducible repeat' first
      | assumption | apply canon_mk_got_ok
  | cons x l ih =>
    unfold drayReadAll
    with_reducible repeat' first | assumption | apply ih | apply DGot_bind_canon | apply drayRead_canon | (intro _)

theorem readStream_canon {s} {dk} {g} {j} {n} (h_s : Canon s) : CanonGot (readStream s dk g j n) := by
  unfold readStream
  with_reducible repeat' first | assumption | apply drayReadAll_canon

theorem xferUnit_canon {s} {dk} {dn} {sn} {rm} {fidx} {cv} {plain} (h_s : Canon s) :
    CanonGot (xferUnit s dk dn sn rm fidx cv plain) := by
  unfold xferUnit
  with_reducible repeat' first
    | assumption | apply canon_mk_got_ok | apply DGot_bind_canon | apply takeStream_canon | apply unpackUnit_canon
    | apply readStream_canon | apply checkLine_canon | apply convertUnit_canon | (intro _) | extract_lets | split
    | dsimp +zetaDelta only

theorem openBlock_canon {s} {dk} {sn} (h_s : Canon s) : CanonGot (openBlock s dk sn) := by
  unfold openBlock
  extract_lets
  split
  · split
    · exact h_s
    · extract_lets
      split
      · exact h_s
      · refine DGot_bind_canon (drayReadAll_canon h_s) fun c t h => DGot_bind_canon (drayRead_canon h) fun g u h => ?_
        extract_lets iv
        split <;> exact h
  · exact h_s
  · exact h_s

theorem nextIndex_canon {s} {dk} {x} (h_s : Canon s) : CanonGot (nextIndex s dk x) := by
  unfold nextIndex
  with_reducible repeat' first
    | assumption | apply canon_mk_got_ok | apply DGot_bind_canon | apply takeStream_canon | apply readStream_canon
    | (intro _)

theorem gatherUnit_canon {s} {dk} {dn} {xn} {tn} (h_s : Canon s) : CanonGot (gatherUnit s dk dn xn tn) := by
  unfold gatherUnit
  with_reducible repeat' first
    | assumption | apply canon_mk_got_ok | apply canon_mk_got_fault | apply DGot_bind_canon | apply nextIndex_canon
    | apply readStream_canon | apply takeStream_canon | apply targetStream_canon | (intro _) | extract_lets | split

theorem scatterUnit_canon {s} {dk} {tn} {xn} {sn} (h_s : Canon s) : CanonGot (scatterUnit s dk tn xn sn) := by
  unfold scatterUnit
  with_reducible repeat' first
    | assumption | apply canon_mk_got_ok | apply canon_mk_got_fault | apply DGot_bind_canon | apply nextIndex_canon
    | apply takeStream_canon | apply readStream_canon | apply targetStream_canon | (intro _) | extract_lets | split

theorem fillUnit_canon {s} {dk} {dn} {p} {pattern} (h_s : Canon s) : CanonGot (fillUnit s dk dn p pattern) := by
  unfold fillUnit
  with_reducible repeat' first
    | assumption | apply canon_mk_got_ok | apply DGot_bind_canon | apply takeStream_canon | apply targetStream_canon
    | (intro _)

theorem blockAhead_canon {s} {dk} {sn} (h_s : Canon s) : CanonGot (blockAhead s dk sn) := by
  unfold blockAhead
  with_reducible repeat' first
    | assumption | apply canon_mk_got_ok | apply canon_mk_got_fault | apply canon_mk_got_park
    | apply canon_mk_got_error | apply openBlock_canon | (intro _) | apply canon_to
    | (refine canon_gok (by assumption) ?_) | (refine canon_gfault (by assumption) ?_)
    | (refine canon_gpark (by assumption) ?_) | (refine canon_gerror (by assumption) ?_) | extract_lets | split
    | (refine canon_of ?_; dsimp only) | dsimp only | dsimp +zetaDelta only

theorem dataUnit_canon {s} {dk} (h_s : Canon s) : Canon (dataUnit s dk) := by
  unfold dataUnit
  with_reducible repeat' first
    | assumption | apply endData_canon | apply movePlain_canon | apply xferUnit_canon | apply drayEnd_canon
    | apply canon_mk_got_ok | apply blockAhead_canon | apply moveUnits_canon | apply DGot_bind_canon | apply gatherUnit_canon
    | apply scatterUnit_canon | apply fillUnit_canon | (intro _) | apply canon_to
    | (refine canon_gok (by assumption) ?_) | (refine canon_gfault (by assumption) ?_)
    | (refine canon_gpark (by assumption) ?_) | (refine canon_gerror (by assumption) ?_) | extract_lets | split
    | (refine canon_of ?_; dsimp only) | dsimp only | dsimp +zetaDelta only

theorem drayFail_canon {s} {dk} {code} (h_s : Canon s) : Canon (drayFail s dk code) := by
  unfold drayFail
  with_reducible repeat' first
    | assumption | apply drayDrains_canon | apply drained_canon | apply drayFault_canon | (intro _)
    | apply canon_to | extract_lets | split
    | (refine canon_of ?_; dsimp only) | dsimp only | dsimp +zetaDelta only

theorem drayIdleOp_canon {s} {f} (h_s : Canon s) (h_f : (∀ x0 x1 x2, Canon x0 → Canon (f x0 x1 x2))) :
    Canon (drayIdleOp s f) := by
  unfold drayIdleOp
  with_reducible repeat' first
    | assumption | apply drayDrains_canon | apply h_f | apply drayOp_canon | apply drained_canon | (intro _)
    | extract_lets | split
    | dsimp +zetaDelta only

/-! ### Machine/Hallmark.lean -/

theorem absorbLines_canon {die} {ctx} {a} {z3} {z4} {z5} {z6} (h_z6 : Canon z6) :
    CanonAbsorbed (absorbLines die ctx a z3 z4 z5 z6) := by
  induction a generalizing die ctx z3 z4 z5 z6 with
  | zero =>
    unfold absorbLines
    with_reducible repeat' first
      | assumption | apply canon_mk_absorbed_all
  | succ n ih =>
    unfold absorbLines
    with_reducible repeat' first
      | assumption | apply ih | apply canon_mk_absorbed_all | apply canon_mk_absorbed_fault | apply canon_mk_absorbed_error
      | apply xlateProgram_canon | apply fillOwn_canon | (refine canon_snd (by assumption) ?_) | extract_lets | split | dsimp +zetaDelta only

theorem answerCmd_canon {s} {pk} {c} {resps} {due} (h_s : Canon s) : Canon (answerCmd s pk c resps due) := by
  unfold answerCmd
  with_reducible repeat' first | assumption | apply canon_to | (refine canon_of ?_; dsimp only)

theorem failCmd_canon {s} {pk} {c} {ign} {code} (h_s : Canon s) : Canon (failCmd s pk c ign code) := by
  unfold failCmd
  with_reducible repeat' first | assumption | apply answerCmd_canon

theorem takeBytes_canon {s} {key} {bs} (h_s : Canon s) : Canon (takeBytes s key bs) := by
  unfold takeBytes
  with_reducible repeat' first | assumption | apply canon_to | (refine canon_of ?_; dsimp only)

theorem portFault_canon {s} {pk} {die} {va} {co} {e} {acc} (h_s : Canon s) : Canon (portFault s pk die va co e acc) := by
  unfold portFault
  repeat' first
    | with_reducible assumption | with_reducible apply waitFault_canon
    | (refine canon_snd (by with_reducible assumption) ?_) | split | (refine canon_of ?_; dsimp only)

theorem hallError_canon {s} {k} {pa} {va} {page} (h_s : Canon s) : Canon (hallError s k pa va page) := by
  unfold hallError
  with_reducible repeat' first | assumption | apply xlatBad_canon | apply coachError_canon | apply memerr_canon | split

theorem execHallmarkAbsorb_canon {die} {port} {s} (h_s : Canon s) : CanonOut (execHallmarkAbsorb die port s) := by
  unfold execHallmarkAbsorb
  with_reducible repeat' first
    | assumption | apply canon_mk_out_next | apply failCmd_canon | apply voidSession_canon | apply absorbLines_canon
    | apply answerCmd_canon | apply takeBytes_canon | apply portFault_canon | apply hallError_canon
    | (refine canon_all (by assumption) ?_) | (refine canon_afault (by assumption) ?_)
    | (refine canon_aerror (by assumption) ?_) | apply canon_to | extract_lets | split | (refine canon_of ?_; dsimp only)

theorem execHallmarkBadcmd_canon {die} {port} {s} (h_s : Canon s) : CanonOut (execHallmarkBadcmd die port s) := by
  unfold execHallmarkBadcmd
  with_reducible repeat' first | assumption | apply canon_mk_out_next | apply failCmd_canon | extract_lets | split

theorem execHallmarkClose_canon {die} {port} {s} (h_s : Canon s) : CanonOut (execHallmarkClose die port s) := by
  unfold execHallmarkClose
  with_reducible repeat' first
    | assumption | apply canon_mk_out_next | apply failCmd_canon | apply forgetSession_canon | apply answerCmd_canon
    | apply canon_to | extract_lets | split | (refine canon_of ?_; dsimp only) | dsimp +zetaDelta only

theorem openSession_canon {s} {pk} {die} {co} {c} {ign} {label} (h_s : Canon s) :
    Canon (openSession s pk die co c ign label) := by
  unfold openSession
  with_reducible repeat' first
    | assumption | apply answerCmd_canon | apply canon_to | extract_lets | (refine canon_of ?_; dsimp only)

theorem execHallmarkOpen_canon {die} {port} {s} (h_s : Canon s) : CanonOut (execHallmarkOpen die port s) := by
  unfold execHallmarkOpen
  with_reducible repeat' first
    | assumption | apply canon_mk_out_next | apply failCmd_canon | apply xlateProgram_canon | apply openSession_canon
    | apply portFault_canon | apply hallError_canon | (refine canon_snd (by assumption) ?_) | extract_lets | split

theorem execHallmarkRecordWrite_canon {die} {session} {s} (h_s : Canon s) :
    CanonOut (execHallmarkRecordWrite die session s) := by
  unfold execHallmarkRecordWrite
  with_reducible repeat' first | assumption | apply canon_mk_out_next | apply finishClose_canon | extract_lets | split

/-! ### Machine/Messages.lean -/

theorem takeMsg_canon {s} {ctx} {q} {kind} {f} (h_s : Canon s) (h_f : (∀ x0 x1 x2, Canon x2 → Canon (f x0 x1 x2))) :
    Canon (takeMsg s ctx q kind f) := by
  unfold takeMsg
  with_reducible repeat' first
    | assumption | apply discardMsg_canon | apply h_f | apply readMsg_canon | apply skipMsg_canon
    | (refine canon_msg (by assumption) ?_)
    | (refine canon_mstop (by assumption) ?_) | split

theorem execMsgFence_canon {ctx} {q} {s} (h_s : Canon s) : CanonOut (execMsgFence ctx q s) := by
  unfold execMsgFence
  with_reducible repeat' first
    | assumption | apply canon_mk_out_next | apply takeMsg_canon | apply completeMsg_canon | apply l2System_canon
    | (intro _) | extract_lets | split

theorem execMsgLaunch_canon {ctx} {q} {s} (h_s : Canon s) : CanonOut (execMsgLaunch ctx q s) := by
  unfold execMsgLaunch
  with_reducible repeat' first
    | assumption | apply canon_mk_out_next | apply takeMsg_canon | apply refuseLaunch_canon | apply launchRegion_canon
    | apply completeMsg_canon | (intro _) | extract_lets | split

theorem execMsgNote_canon {ctx} {q} {s} (h_s : Canon s) : CanonOut (execMsgNote ctx q s) := by
  unfold execMsgNote
  with_reducible repeat' first
    | assumption | apply canon_mk_out_next | apply takeMsg_canon | apply ownWriteV_canon | apply queueFault_canon
    | apply skipMsg_canon | apply completeMsg_canon | apply l2System_canon | (refine canon_snd (by assumption) ?_)
    | (intro _) | extract_lets | split

theorem execMsgPreemptResume_canon {ctx} {q} {s} (h_s : Canon s) : CanonOut (execMsgPreemptResume ctx q s) := by
  unfold execMsgPreemptResume
  with_reducible repeat' first
    | assumption | apply canon_mk_out_next | apply takeMsg_canon | apply completeMsg_canon | apply modCtx_canon | (intro _)
    | extract_lets | split

theorem execMsgPreemptSave_canon {ctx} {q} {s} (h_s : Canon s) : CanonOut (execMsgPreemptSave ctx q s) := by
  unfold execMsgPreemptSave
  with_reducible repeat' first
    | assumption | apply canon_mk_out_next | apply takeMsg_canon | apply saveRake_canon | apply completeMsg_canon
    | apply modCtx_canon | apply canon_foldl | (intro _) | extract_lets | split

theorem execMsgSignal_canon {ctx} {q} {s} (h_s : Canon s) : CanonOut (execMsgSignal ctx q s) := by
  unfold execMsgSignal
  with_reducible repeat' first
    | assumption | apply fillOwn_canon | apply writeOwn_canon | apply canon_mk_out_next | apply takeMsg_canon
    | apply ownPieces_canon
    | apply queueFault_canon
    | apply skipMsg_canon | apply tearQueue_canon | apply logError_canon | apply ownWrite_canon
    | apply completeMsg_canon
    | apply l2System_canon | apply canon_foldl | (refine canon_snd (by assumption) ?_) | (intro _) | extract_lets
    | split

theorem pollWait_canon {s} {ctx} {q} (h_s : Canon s) : Canon (pollWait s ctx q) := by
  unfold pollWait
  with_reducible repeat' first
    | assumption | apply skipMsg_canon | apply ownReadP_canon | apply l2System_canon | apply queueFault_canon
    | apply tearQueue_canon | apply logError_canon | apply completeMsg_canon | apply advanceQueue_canon
    | (refine canon_snd (by assumption) ?_) | split

theorem execMsgWait_canon {ctx} {q} {s} (h_s : Canon s) : CanonOut (execMsgWait ctx q s) := by
  unfold execMsgWait
  with_reducible repeat' first
    | assumption | apply canon_mk_out_next | apply takeMsg_canon | apply modQueue_canon | apply pollWait_canon | (intro _)

theorem execWaitPoll_canon {ctx} {q} {s} (h_s : Canon s) : CanonOut (execWaitPoll ctx q s) := by
  unfold execWaitPoll
  with_reducible repeat' first | assumption | apply canon_mk_out_next | apply pollWait_canon

/-! ### Machine/Traps.lean -/

theorem closeEntry_canon {s} {f} (h_s : Canon s) : Canon (closeEntry s f) := by
  unfold closeEntry
  with_reducible repeat' first | assumption | apply canon_to | (refine canon_of ?_; dsimp only)

theorem execDebuggerHaltRequest_canon {rake} {s} (h_s : Canon s) : CanonOut (execDebuggerHaltRequest rake s) := by
  unfold execDebuggerHaltRequest
  with_reducible repeat' first
    | assumption | apply canon_mk_out_next | apply canon_mk_out_fault | apply canon_mk_out_refused
    | apply modCoach_canon | apply modRake_canon | apply canon_foldl | apply canon_foldl2 | (intro _) | apply canon_to
    | extract_lets | split | (refine canon_of ?_; dsimp only) | dsimp only | dsimp +zetaDelta only

theorem writeFaultRecord_canon {s} {ctx} {die} {rec_} (h_s : Canon s) : Canon (writeFaultRecord s ctx die rec_).2 := by
  unfold writeFaultRecord
  with_reducible repeat' first
    | assumption | apply ownWriteV_canon | apply markReset_canon | apply modCtx_canon | apply raiseVector_canon
    | apply l2System_canon | (refine canon_snd (by assumption) ?_) | split

theorem execFaultRecordWrite_canon {entry} {s} (h_s : Canon s) : CanonOut (execFaultRecordWrite entry s) := by
  unfold execFaultRecordWrite
  repeat' first
    | with_reducible assumption | with_reducible apply canon_mk_out_next | with_reducible apply clockTo_canon
    | with_reducible apply writeFaultRecord_canon | (refine canon_snd (by with_reducible assumption) ?_) | extract_lets
    | split | (refine canon_of ?_; dsimp only)

theorem settleResume_canon {s} {ctx} (h_s : Canon s) : Canon (settleResume s ctx) := by
  unfold settleResume
  with_reducible repeat' first
    | assumption | apply modCtx_canon | (intro _) | apply canon_to | extract_lets | split
    | (refine canon_of ?_; dsimp only) | dsimp only | dsimp +zetaDelta only

theorem failResume_canon {s} {k} (h_s : Canon s) : Canon (failResume s k) := by
  unfold failResume
  with_reducible repeat' first
    | assumption | apply raiseTrap_canon | apply modCoach_canon | (intro _) | apply canon_to | extract_lets | split
    | (refine canon_of ?_; dsimp only) | dsimp only | dsimp +zetaDelta only

theorem takePending_canon {s} {f} (h_s : Canon s) : Canon (takePending s f).2 := by
  unfold takePending
  with_reducible repeat' first | assumption | apply canon_to | dsimp only | (refine canon_of ?_; dsimp only)

theorem failCoach_canon {s} {f} {e} {k} (h_s : Canon s) : Canon (failCoach s f e k) := by
  unfold failCoach
  with_reducible repeat' first
    | assumption | apply modCoach_canon | apply beginHalt_canon | apply raiseTrap_canon | extract_lets | split

theorem failQueue_canon {s} {ctx} {q} {e} (h_s : Canon s) : Canon (failQueue s ctx q e) := by
  unfold failQueue
  with_reducible repeat' first
    | assumption | apply ownReadP_canon | apply modQueue_canon | apply tearQueue_canon | apply skipMsg_canon
    | extract_lets | split

theorem failPending_canon {s} {p} (h_s : Canon s) : Canon (failPending s p) := by
  unfold failPending
  with_reducible repeat' first
    | assumption | apply takeNumber_canon | apply targetRegion_canon | apply startRegion_canon
    | apply numberRegion_canon | apply modRegion_canon | apply completeRegion_canon | apply recordDone_canon
    | apply loseRecord_canon | apply settleResume_canon | apply failResume_canon | apply refuseBlock_canon | (intro _)
    | apply canon_to | (refine canon_snd (by assumption) ?_) | extract_lets | split | (refine canon_of ?_; dsimp only)
    | dsimp only | dsimp +zetaDelta only

theorem execFaultrespFail_canon {ctx} {seq} {s} (h_s : Canon s) : CanonOut (execFaultrespFail ctx seq s) := by
  unfold execFaultrespFail
  with_reducible repeat' first
    | assumption | apply canon_mk_out_next | apply closeEntry_canon | apply takePending_canon | apply failCoach_canon
    | apply drayFault_canon | apply failQueue_canon | apply failPending_canon | apply canon_foldl | apply canon_to
    | (intro _) | extract_lets | split | dsimp only | (refine canon_of ?_; dsimp only)

theorem serviceWaiters_canon {s} {f} (h_s : Canon s) : Canon (serviceWaiters s f) := by
  unfold serviceWaiters
  with_reducible repeat' first | assumption | apply canon_to | extract_lets | (refine canon_of ?_; dsimp only)

theorem resumeCoach_canon {s} {k} (h_s : Canon s) : Canon (resumeCoach s k) := by
  unfold resumeCoach
  with_reducible repeat' first
    | assumption | apply xlatBad_canon | apply coachFault_canon | apply addPend_canon | apply coachFence_canon
    | apply applyLanes_canon | apply modCoach_canon | apply readFrame_canon
    | apply flushFpe_canon | apply lanesSet_canon
    | (refine canon_snd (by assumption) ?_) | extract_lets | split

theorem rerun_canon {s} {p} (h_s : Canon s) : Canon (rerun s p) := by
  unfold rerun
  with_reducible repeat' first
    | assumption | apply numberRegion_canon | apply recordDone_canon | apply settleResume_canon
    | apply resumeCoach_canon | apply refuseLaunch_canon | apply launchRegion_canon | apply targetRegion_canon
    | apply completeRegion_canon
    | apply writeRecord_canon | split

theorem execFaultrespRetry_canon {ctx} {seq} {s} (h_s : Canon s) : CanonOut (execFaultrespRetry ctx seq s) := by
  unfold execFaultrespRetry
  with_reducible repeat' first
    | assumption | apply canon_mk_out_next | apply serviceWaiters_canon | apply closeEntry_canon | apply takePending_canon
    | apply rerun_canon | apply canon_foldl | extract_lets | split

theorem execHalted_canon {coach} {s} (h_s : Canon s) : CanonOut (execHalted coach s) := by
  unfold execHalted
  with_reducible repeat' first | assumption | apply canon_mk_out_next | apply raiseTrap_canon | extract_lets | split

theorem execRakeHaltRecord_canon {rake} {s} (h_s : Canon s) : CanonOut (execRakeHaltRecord rake s) := by
  unfold execRakeHaltRecord
  with_reducible repeat' first
    | assumption | apply canon_mk_out_next | apply writeFaultRecord_canon | apply modRake_canon | apply uncontained_canon
    | (refine canon_snd (by assumption) ?_) | (intro _) | extract_lets | split

theorem rakeStat_canon {s} {ctx} {n} (h_s : Canon s) : Canon (rakeStat s ctx n) := by
  unfold rakeStat
  with_reducible repeat' first | assumption | apply modCtx_canon

theorem execRakecmdKill_canon {ctx} {value} {s} (h_s : Canon s) : CanonOut (execRakecmdKill ctx value s) := by
  unfold execRakecmdKill
  with_reducible repeat' first
    | assumption | apply canon_mk_out_next | apply rakeStat_canon | apply uncontained_canon | extract_lets | split

theorem execRakecmdResume_canon {ctx} {value} {s} (h_s : Canon s) : CanonOut (execRakecmdResume ctx value s) := by
  unfold execRakecmdResume
  with_reducible repeat' first
    | assumption | apply settleResume_canon | apply canon_mk_out_next | apply rakeStat_canon | apply modRake_canon
    | apply resumeCoach_canon
    | apply canon_foldl | (intro _) | extract_lets | split

theorem execTrapEntry_canon {coach} {s} (h_s : Canon s) : CanonOut (execTrapEntry coach s) := by
  unfold execTrapEntry
  with_reducible repeat' first | assumption | apply canon_mk_out_next | apply takeTrap_canon | extract_lets | split

/-! ### Machine/HostRegs.lean -/

theorem dropL1Where_canon {s} {sel} (h_s : Canon s) : Canon (dropL1Where s sel) := by
  unfold dropL1Where
  with_reducible repeat' first
    | assumption | apply l1Drop_canon | apply writeDirty_canon | apply canon_foldl | (intro _) | extract_lets | split

theorem dropWhere_canon {s} {sel} (h_s : Canon s) : Canon (dropWhere s sel) := by
  unfold dropWhere
  with_reducible repeat' first
    | assumption | apply dropL1Where_canon | apply l2WriteBack_canon | apply canon_foldl | apply canon_to | (intro _)
    | extract_lets | split | (refine canon_of ?_; dsimp only)

theorem whenReady_canon {s} {t} (h_s : Canon s) (h_t : Canon t) : Canon (whenReady s t) := by
  unfold whenReady
  with_reducible repeat' first | assumption | split

theorem ctxStat_canon {s} {n} (h_s : Canon s) : Canon (ctxStat s n) := by
  unfold ctxStat
  with_reducible repeat' first | assumption | apply canon_to | extract_lets | (refine canon_of ?_; dsimp only)

theorem ctxCommand_canon {s} {value} {op} {f} (h_s : Canon s) (h_f : (∀ x0 x1, Canon x1 → Canon (f x0 x1))) :
    Canon (ctxCommand s value op f) := by
  unfold ctxCommand
  with_reducible repeat' first
    | assumption | apply h_f | apply whenReady_canon | apply ctxStat_canon | apply canon_to | extract_lets | split
    | (refine canon_of ?_; dsimp only) | dsimp +zetaDelta only

theorem execAtsInvalidation_canon {first} {pages} {s} (h_s : Canon s) : CanonOut (execAtsInvalidation first pages s) := by
  unfold execAtsInvalidation
  with_reducible repeat' first
    | assumption | apply canon_mk_out_next | apply dropWhere_canon | apply canon_to | extract_lets | split
    | (refine canon_of ?_; dsimp only)

theorem execCtrassignAssign_canon {value} {s} (h_s : Canon s) : CanonOut (execCtrassignAssign value s) := by
  unfold execCtrassignAssign
  with_reducible repeat' first
    | assumption | apply canon_mk_out_next | apply whenReady_canon | apply canon_to | extract_lets | split
    | (refine canon_of ?_; dsimp only)

theorem execCtrassignUnassign_canon {value} {s} (h_s : Canon s) : CanonOut (execCtrassignUnassign value s) := by
  unfold execCtrassignUnassign
  with_reducible repeat' first
    | assumption | apply canon_mk_out_next | apply whenReady_canon | apply canon_to | extract_lets | split
    | (refine canon_of ?_; dsimp only)

theorem forgetCtx_canon {s} {ctx} (h_s : Canon s) : Canon (forgetCtx s ctx) := by
  unfold forgetCtx
  with_reducible repeat' first | assumption | apply canon_to | apply canon_filter | extract_lets | (refine canon_of ?_; dsimp only)

theorem execCtxcmdComplete_canon {s} (h_s : Canon s) : CanonOut (execCtxcmdComplete s) := by
  unfold execCtxcmdComplete
  with_reducible repeat' first
    | assumption | apply canon_mk_out_next | apply canon_mk_out_fault | apply canon_mk_out_refused
    | apply ctxStat_canon | apply forgetCtx_canon | (intro _) | apply canon_to | extract_lets | split
    | (refine canon_of ?_; dsimp only) | dsimp only | dsimp +zetaDelta only

theorem execCtxcmdCreate_canon {value} {s} (h_s : Canon s) : CanonOut (execCtxcmdCreate value s) := by
  unfold execCtxcmdCreate
  with_reducible repeat' first
    | assumption | apply ownFill_canon | apply canon_mk_out_next | apply ctxCommand_canon | apply ctxStat_canon
    | apply canon_to | (intro _)
    | extract_lets | split | (refine canon_of ?_; dsimp only)

theorem execCtxcmdDestroy_canon {value} {s} (h_s : Canon s) : CanonOut (execCtxcmdDestroy value s) := by
  unfold execCtxcmdDestroy
  with_reducible repeat' first
    | assumption | apply canon_mk_out_next | apply ctxCommand_canon | apply ctxStat_canon | apply contextReset_canon
    | apply canon_to | (intro _) | extract_lets | split | (refine canon_of ?_; dsimp only)

theorem execCtxcmdReset_canon {value} {s} (h_s : Canon s) : CanonOut (execCtxcmdReset value s) := by
  unfold execCtxcmdReset
  with_reducible repeat' first
    | assumption | apply canon_mk_out_next | apply ctxCommand_canon | apply ctxStat_canon | apply contextReset_canon
    | apply canon_to | (intro _) | extract_lets | split | (refine canon_of ?_; dsimp only)

theorem revokeSlot_canon {s} {slot} (h_s : Canon s) : Canon (revokeSlot s slot) := by
  unfold revokeSlot
  with_reducible repeat' first
    | assumption | apply clearRevoked_canon | (intro _) | apply canon_to | extract_lets | split
    | (refine canon_of ?_; dsimp only) | dsimp only | dsimp +zetaDelta only

theorem revokeIndex_canon {s} {i} (h_s : Canon s) : Canon (revokeIndex s i) := by
  unfold revokeIndex
  with_reducible repeat' first | assumption | apply revokeSlot_canon | apply canon_foldl

theorem execDebugWrite_canon {ctx} {value} {s} (h_s : Canon s) : CanonOut (execDebugWrite ctx value s) := by
  unfold execDebugWrite
  with_reducible repeat' first | assumption | apply canon_mk_out_next | apply whenReady_canon | apply modCtx_canon

theorem execDoorbell_canon {ctx} {q} {value} {s} (h_s : Canon s) : CanonOut (execDoorbell ctx q value s) := by
  unfold execDoorbell
  with_reducible repeat' first
    | assumption | apply canon_mk_out_next | apply whenReady_canon | apply modQueue_canon | apply overrunQueue_canon
    | extract_lets | split

theorem execFeatdrvWrite_canon {value} {s} (h_s : Canon s) : CanonOut (execFeatdrvWrite value s) := by
  unfold execFeatdrvWrite
  with_reducible repeat' first
    | assumption | apply canon_mk_out_next | apply canon_mk_out_fault | apply canon_mk_out_refused
    | apply whenReady_canon | apply revokeIndex_canon | (intro _) | apply canon_to | extract_lets | split
    | (refine canon_of ?_; dsimp only) | dsimp only | dsimp +zetaDelta only

theorem outsideAccess_canon {s} {write} {pa} {n} {value} (h_s : Canon s) :
    Canon (outsideAccess s write pa n value) := by
  unfold outsideAccess
  with_reducible repeat' first
    | assumption | apply ownFill_canon | apply meetSoftError_canon | apply ownWrite_canon | apply canon_to
    | extract_lets
    | split | (refine canon_of ?_; dsimp only) | dsimp +zetaDelta only

theorem execHostApertureAccess_canon {write} {offset} {size} {value} {s} (h_s : Canon s) :
    CanonOut (execHostApertureAccess write offset size value s) := by
  unfold execHostApertureAccess
  with_reducible repeat' first
    | assumption | apply canon_mk_out_next | apply outsideAccess_canon | apply logError_canon | apply canon_to | extract_lets | split
    | (refine canon_of ?_; dsimp only)

theorem execInvalidationComplete_canon {ctx} {s} (h_s : Canon s) : CanonOut (execInvalidationComplete ctx s) := by
  unfold execInvalidationComplete
  with_reducible repeat' first
    | assumption | apply canon_mk_out_next | apply dropL1Where_canon | apply modCtx_canon | apply raiseVector_canon
    | apply canon_to | extract_lets | split | (refine canon_of ?_; dsimp only) | dsimp +zetaDelta only

theorem execInvcmd_canon {ctx} {value} {s} (h_s : Canon s) : CanonOut (execInvcmd ctx value s) := by
  unfold execInvcmd
  with_reducible repeat' first | assumption | apply canon_mk_out_next | apply whenReady_canon | apply modCtx_canon

theorem execPartcmd_canon {value} {s} (h_s : Canon s) : CanonOut (execPartcmd value s) := by
  unfold execPartcmd
  with_reducible repeat' first
    | assumption | apply canon_mk_out_next | apply whenReady_canon | apply revokeIndex_canon | apply canon_to
    | extract_lets | split | (refine canon_of ?_; dsimp only)

theorem execPeerAccess_canon {link} {write} {pa} {size} {value} {s} (h_s : Canon s) :
    CanonOut (execPeerAccess link write pa size value s) := by
  unfold execPeerAccess
  with_reducible repeat' first
    | assumption | apply canon_mk_out_next | apply outsideAccess_canon | apply freshSeed_canon
    | (refine canon_snd (by assumption) ?_) | apply canon_to | extract_lets | split | (refine canon_of ?_; dsimp only)

theorem execPlateLoadComplete_canon {ctx} {s} (h_s : Canon s) : CanonOut (execPlateLoadComplete ctx s) := by
  unfold execPlateLoadComplete
  with_reducible repeat' first
    | assumption | apply canon_mk_out_next | apply raiseVector_canon | apply modCtx_canon | apply loadPlate_canon
    | (refine canon_snd (by assumption) ?_) | apply canon_to | extract_lets | split | (refine canon_of ?_; dsimp only)

theorem execPlatecmd_canon {ctx} {value} {s} (h_s : Canon s) : CanonOut (execPlatecmd ctx value s) := by
  unfold execPlatecmd
  with_reducible repeat' first | assumption | apply canon_mk_out_next | apply whenReady_canon | apply modCtx_canon

theorem execPowerCapSet_canon {watts} {s} (h_s : Canon s) : CanonOut (execPowerCapSet watts s) := by
  unfold execPowerCapSet
  with_reducible repeat' first
    | assumption | apply canon_mk_out_next | apply canon_to | extract_lets | split | (refine canon_of ?_; dsimp only)

theorem execQerrRearm_canon {ctx} {q} {s} (h_s : Canon s) : CanonOut (execQerrRearm ctx q s) := by
  unfold execQerrRearm
  with_reducible repeat' first | assumption | apply canon_mk_out_next | apply whenReady_canon | apply modQueue_canon

theorem execQerrTeardown_canon {ctx} {q} {s} (h_s : Canon s) : CanonOut (execQerrTeardown ctx q s) := by
  unfold execQerrTeardown
  with_reducible repeat' first
    | assumption | apply canon_mk_out_next | apply whenReady_canon | apply tearQueue_canon | extract_lets | split

theorem execRegisterWrite_canon {fn} {offset} {value} {s} (h_s : Canon s) : CanonOut (execRegisterWrite fn offset value s) := by
  unfold execRegisterWrite
  with_reducible repeat' first
    | assumption | apply canon_mk_out_next | apply whenReady_canon | apply modCtx_canon | apply canon_to | extract_lets
    | split | (refine canon_of ?_; dsimp only)

/-! ### Machine/Portil.lean -/

theorem answerReq_canon {s} {src} {block} {status} {result} (h_s : Canon s) : Canon (answerReq s src block status result) := by
  unfold answerReq
  with_reducible repeat' first
    | assumption | apply physWrite_canon | apply dropWhere_canon | apply raiseVector_canon | apply canon_to | extract_lets
    | split | (refine canon_of ?_; dsimp only)

theorem perform_canon {s} {src} {block} {code} {len} {path} {zeros} {f} (h_s : Canon s) (h_f : ∀ x, Canon x → Canon (f x)) : Canon (perform s src block code len path zeros f) := by
  unfold perform
  with_reducible repeat' first
    | assumption | apply h_f | apply answerReq_canon | (intro _) | apply canon_to | extract_lets | split
    | (refine canon_of ?_; dsimp only) | dsimp only | dsimp +zetaDelta only

theorem request_canon {s} {src} {block} {code} {len} {path} {zeros} {f} (h_s : Canon s) (h_f : ∀ x, Canon x → Canon (f x)) : Canon (request s src block code len path zeros f) := by
  unfold request
  with_reducible repeat' first
    | assumption | apply h_f | apply perform_canon | (intro _) | apply canon_to | extract_lets | split
    | (refine canon_of ?_; dsimp only) | dsimp only | dsimp +zetaDelta only

theorem takeReq_canon {s} (h_s : Canon s) : Canon (takeReq s) := by
  unfold takeReq
  with_reducible repeat' first
    | assumption | (intro _) | apply canon_to | extract_lets | split | (refine canon_of ?_; dsimp only) | dsimp only
    | dsimp +zetaDelta only

theorem dropFrame_canon {s} {p} (h_s : Canon s) : Canon (dropFrame s p) := by
  unfold dropFrame
  with_reducible repeat' first
    | assumption | (intro _) | apply canon_to | extract_lets | split | (refine canon_of ?_; dsimp only) | dsimp only
    | dsimp +zetaDelta only

theorem waitReq_canon {s} {src} {block} (h_s : Canon s) : Canon (waitReq s src block) := by
  unfold waitReq
  with_reducible repeat' first | assumption | apply canon_to | extract_lets | (refine canon_of ?_; dsimp only)

theorem writeFrameBytes_canon {s} {p} {bs} (h_s : Canon s) : Canon (writeFrameBytes s p bs) := by
  unfold writeFrameBytes
  with_reducible repeat' first
    | assumption | apply physWrite_canon | apply canon_to | extract_lets | dsimp only | (refine canon_of ?_; dsimp only)

theorem scrubFrame_canon {s} {p} (h_s : Canon s) : Canon (scrubFrame s p) := by
  unfold scrubFrame
  with_reducible repeat' first | assumption | apply writeFrameBytes_canon

theorem takeFrame_canon {s} {p} (h_s : Canon s) : Canon (takeFrame s p) := by
  unfold takeFrame
  with_reducible repeat' first
    | assumption | apply dropFrame_canon | apply dropWhere_canon | apply canon_to | extract_lets
    | (refine canon_of ?_; dsimp only)

theorem waitFrame_canon {s} {p} {e} {src} {block} (h_s : Canon s) : Canon (waitFrame s p e src block) := by
  unfold waitFrame
  with_reducible repeat' first
    | assumption | apply waitReq_canon | apply dropFrame_canon | apply potSet_canon | (intro _) | apply canon_to
    | extract_lets | split | (refine canon_of ?_; dsimp only) | dsimp only | dsimp +zetaDelta only

theorem execAssign_canon {src} {block} {s} (h_s : Canon s) : CanonOut (execAssign src block s) := by
  unfold execAssign
  with_reducible repeat' first
    | assumption | apply waitFrame_canon | apply canon_mk_out_next | apply request_canon | apply answerReq_canon
    | apply waitReq_canon
    | apply potSet_canon | apply scrubFrame_canon | apply takeFrame_canon | (intro _) | extract_lets | split

theorem loadSlot_canon {s} {slot} {kind} {world} {key} {session} {policy} (h_s : Canon s) :
    Canon (loadSlot s slot kind world key session policy) := by
  unfold loadSlot
  with_reducible repeat' first | assumption | apply canon_to | extract_lets | (refine canon_of ?_; dsimp only)

theorem execCreateWorld_canon {src} {block} {s} (h_s : Canon s) : CanonOut (execCreateWorld src block s) := by
  unfold execCreateWorld
  with_reducible repeat' first
    | assumption | apply canon_mk_out_next | apply request_canon | apply answerReq_canon | apply loadSlot_canon
    | apply canon_to | (intro _) | extract_lets | split | (refine canon_of ?_; dsimp only)

theorem execDebugUnlock_canon {src} {block} {s} (h_s : Canon s) : CanonOut (execDebugUnlock src block s) := by
  unfold execDebugUnlock
  with_reducible repeat' first
    | assumption | apply canon_mk_out_next | apply request_canon | apply answerReq_canon | apply revokeIndex_canon
    | apply canon_foldl | apply canon_to | (intro _) | extract_lets | split | dsimp only | (refine canon_of ?_; dsimp only)
    | dsimp +zetaDelta only

theorem execDestroyWorld_canon {src} {block} {s} (h_s : Canon s) : CanonOut (execDestroyWorld src block s) := by
  unfold execDestroyWorld
  with_reducible repeat' first
    | assumption | apply canon_mk_out_next | apply request_canon | apply answerReq_canon | apply revokeSlot_canon
    | apply canon_foldl | apply canon_to | (intro _) | extract_lets | split | (refine canon_of ?_; dsimp only)
    | dsimp +zetaDelta only

theorem execExportPage_canon {src} {block} {s} (h_s : Canon s) : CanonOut (execExportPage src block s) := by
  unfold execExportPage
  with_reducible repeat' first
    | assumption | apply waitFrame_canon | apply canon_mk_out_next | apply request_canon | apply answerReq_canon
    | apply waitReq_canon
    | apply potSet_canon | apply takeFrame_canon | apply physWrite_canon | apply dropWhere_canon
    | apply scrubFrame_canon
    | apply canon_to | (intro _) | extract_lets | split | (refine canon_of ?_; dsimp only) | dsimp +zetaDelta only

theorem execFirmwareRotation_canon {s} (h_s : Canon s) : CanonOut (execFirmwareRotation s) := by
  unfold execFirmwareRotation
  with_reducible repeat' first
    | assumption | apply canon_mk_out_next | apply canon_to | extract_lets | (refine canon_of ?_; dsimp only)

theorem execGetNonce_canon {src} {block} {s} (h_s : Canon s) : CanonOut (execGetNonce src block s) := by
  unfold execGetNonce
  with_reducible repeat' first
    | assumption | apply canon_mk_out_next | apply request_canon | apply answerReq_canon | apply canon_to | (intro _)
    | extract_lets | (refine canon_of ?_; dsimp only)

theorem execImportPage_canon {src} {block} {s} (h_s : Canon s) : CanonOut (execImportPage src block s) := by
  unfold execImportPage
  with_reducible repeat' first
    | assumption | apply canon_mk_out_next | apply request_canon | apply answerReq_canon | apply waitReq_canon
    | apply takeFrame_canon | apply writeFrameBytes_canon | apply potSet_canon | apply scrubFrame_canon | apply canon_to
    | (intro _) | extract_lets | split | (refine canon_of ?_; dsimp only) | dsimp +zetaDelta only

theorem execLoadKey_canon {src} {block} {s} (h_s : Canon s) : CanonOut (execLoadKey src block s) := by
  unfold execLoadKey
  with_reducible repeat' first
    | assumption | apply canon_mk_out_next | apply request_canon | apply answerReq_canon | apply loadSlot_canon | (intro _)
    | extract_lets | split

theorem execPortreq_canon {value} {s} (h_s : Canon s) : CanonOut (execPortreq value s) := by
  unfold execPortreq
  with_reducible repeat' first
    | assumption | apply canon_mk_out_next | apply whenReady_canon | apply answerReq_canon | apply canon_to | extract_lets
    | split | (refine canon_of ?_; dsimp only) | dsimp +zetaDelta only

theorem execReclaim_canon {src} {block} {s} (h_s : Canon s) : CanonOut (execReclaim src block s) := by
  unfold execReclaim
  with_reducible repeat' first
    | assumption | apply waitFrame_canon | apply canon_mk_out_next | apply canon_mk_out_fault
    | apply canon_mk_out_refused
    | apply request_canon | apply answerReq_canon | apply waitReq_canon | apply potSet_canon | apply scrubFrame_canon
    | apply takeFrame_canon | (intro _) | apply canon_to | extract_lets | split | (refine canon_of ?_; dsimp only)
    | dsimp only | dsimp +zetaDelta only

theorem execRevokeKey_canon {src} {block} {s} (h_s : Canon s) : CanonOut (execRevokeKey src block s) := by
  unfold execRevokeKey
  with_reducible repeat' first
    | assumption | apply canon_mk_out_next | apply request_canon | apply answerReq_canon | apply revokeSlot_canon
    | (intro _)

theorem execSpdmRequest_canon {session} {code} {transport} {s} (h_s : Canon s) :
    CanonOut (execSpdmRequest session code transport s) := by
  unfold execSpdmRequest
  with_reducible repeat' first
    | assumption | apply canon_mk_out_next | apply canon_to | extract_lets | split | (refine canon_of ?_; dsimp only)

theorem execTdispRequest_canon {vf} {world} {bind} {s} (h_s : Canon s) : CanonOut (execTdispRequest vf world bind s) := by
  unfold execTdispRequest
  with_reducible repeat' first
    | assumption | apply canon_mk_out_next | apply canon_to | extract_lets | split | (refine canon_of ?_; dsimp only)

/-! ### Machine/Bringup.lean -/

theorem afterStage_canon {s} {stage} {f} (h_s : Canon s) (h_f : (∀ x0, Canon x0 → Canon (f x0))) :
    Canon (afterStage s stage f) := by
  unfold afterStage
  with_reducible repeat' first | assumption | apply h_f | split

theorem stageDone_canon {s} {n} (h_s : Canon s) : Canon (stageDone s n) := by
  unfold stageDone
  with_reducible repeat' first | assumption | apply canon_to | extract_lets | (refine canon_of ?_; dsimp only)

theorem lockPages_canon {s} (h_s : Canon s) : Canon (lockPages s) := by
  unfold lockPages
  with_reducible repeat' first
    | assumption | apply physWrite_canon | apply canon_foldl | apply canon_foldl2 | (intro _) | apply canon_to
    | extract_lets | split | (refine canon_of ?_; dsimp only) | dsimp only | dsimp +zetaDelta only

theorem execClusterSelfTest_canon {passed} {s} (h_s : Canon s) : CanonOut (execClusterSelfTest passed s) := by
  unfold execClusterSelfTest
  with_reducible repeat' first
    | assumption | apply canon_mk_out_next | apply afterStage_canon | apply stageDone_canon | apply canon_to | (intro _)
    | extract_lets | (refine canon_of ?_; dsimp only)

theorem execDramTraining_canon {passed} {s} (h_s : Canon s) : CanonOut (execDramTraining passed s) := by
  unfold execDramTraining
  apply canon_mk_out_next
  apply afterStage_canon h_s
  intro t h
  extract_lets u
  have hu : Canon u := stageDone_canon h
  split
  · exact hu
  · exact ⟨filter_wf hu.1 _, hu.2⟩

theorem execExtumLinkTraining_canon {up} {s} (h_s : Canon s) : CanonOut (execExtumLinkTraining up s) := by
  unfold execExtumLinkTraining
  with_reducible repeat' first
    | assumption | apply canon_mk_out_next | apply afterStage_canon | apply stageDone_canon | apply canon_to | (intro _)
    | extract_lets | (refine canon_of ?_; dsimp only)

theorem execPerstRelease_canon {passed} {s} (h_s : Canon s) : CanonOut (execPerstRelease passed s) := by
  unfold execPerstRelease
  apply canon_mk_out_next
  dsimp only
  split
  · exact stageDone_canon ⟨(lockPages_canon h_s).1, fun e he => (List.not_mem_nil he).elim⟩
  · exact fatalDevice_canon (stageDone_canon ⟨(lockPages_canon h_s).1, fun e he => (List.not_mem_nil he).elim⟩)

theorem execReady_canon {s} (h_s : Canon s) : CanonOut (execReady s) := by
  unfold execReady
  with_reducible repeat' first
    | assumption | apply canon_mk_out_next | apply afterStage_canon | apply raiseVector_canon | apply stageDone_canon
    | apply canon_to | (intro _) | extract_lets | split | dsimp only | (refine canon_of ?_; dsimp only)

theorem execSystemPlateLoad_canon {image} {signed} {s} (h_s : Canon s) : CanonOut (execSystemPlateLoad image signed s) := by
  unfold execSystemPlateLoad
  with_reducible repeat' first
    | assumption | apply canon_mk_out_next | apply afterStage_canon | apply stageDone_canon | apply canon_to | (intro _)
    | extract_lets | split | (refine canon_of ?_; dsimp only)

/-! ### Machine/Dray.lean -/

theorem drayBranch_canon {a} {b} {i} {f} {s} (h_s : Canon s) : Canon (drayBranch a b i f s) := by
  unfold drayBranch
  with_reducible repeat' first | assumption | apply drayOp_canon | apply setDray_canon | (intro _)

theorem drayReg_canon {d} {a} {b} {f} {s} (h_s : Canon s) : Canon (drayReg d a b f s) := by
  unfold drayReg
  with_reducible repeat' first | assumption | apply drayOp_canon | apply drayDone_canon | (intro _)

theorem execDrayAdd_canon {d} {a} {b} {s} (h_s : Canon s) : CanonOut (execDrayAdd d a b s) := by
  unfold execDrayAdd
  with_reducible repeat' first | assumption | apply canon_mk_out_next | apply drayReg_canon

theorem execDrayAddi_canon {d} {a} {i} {s} (h_s : Canon s) : CanonOut (execDrayAddi d a i s) := by
  unfold execDrayAddi
  with_reducible repeat' first | assumption | apply canon_mk_out_next | apply drayOp_canon | apply drayDone_canon | (intro _)

theorem execDrayAnd_canon {d} {a} {b} {s} (h_s : Canon s) : CanonOut (execDrayAnd d a b s) := by
  unfold execDrayAnd
  with_reducible repeat' first | assumption | apply canon_mk_out_next | apply drayReg_canon

theorem execDrayArg_canon {d} {a} {i} {s} (h_s : Canon s) : CanonOut (execDrayArg d a i s) := by
  unfold execDrayArg
  with_reducible repeat' first
    | assumption | apply canon_mk_out_next | apply drayOp_canon | apply drayFail_canon | apply drayDone_canon | (intro _)
    | extract_lets | split

theorem execDrayArrive_canon {a} {c} {k} {s} (h_s : Canon s) : CanonOut (execDrayArrive a c k s) := by
  unfold execDrayArrive
  with_reducible repeat' first
    | assumption | apply canon_mk_out_next | apply canon_mk_out_fault | apply canon_mk_out_refused
    | apply drayIdleOp_canon | apply drayFail_canon | apply setDray_canon | apply arrive_canon | (intro _)
    | apply canon_to | (refine canon_snd (by assumption) ?_) | extract_lets | split | (refine canon_of ?_; dsimp only)
    | dsimp only | dsimp +zetaDelta only

theorem execDrayBeq_canon {a} {b} {i} {s} (h_s : Canon s) : CanonOut (execDrayBeq a b i s) := by
  unfold execDrayBeq
  with_reducible repeat' first | assumption | apply canon_mk_out_next | apply drayBranch_canon

theorem execDrayBge_canon {a} {b} {i} {s} (h_s : Canon s) : CanonOut (execDrayBge a b i s) := by
  unfold execDrayBge
  with_reducible repeat' first | assumption | apply canon_mk_out_next | apply drayBranch_canon

theorem execDrayBlt_canon {a} {b} {i} {s} (h_s : Canon s) : CanonOut (execDrayBlt a b i s) := by
  unfold execDrayBlt
  with_reducible repeat' first | assumption | apply canon_mk_out_next | apply drayBranch_canon

theorem execDrayBne_canon {a} {b} {i} {s} (h_s : Canon s) : CanonOut (execDrayBne a b i s) := by
  unfold execDrayBne
  with_reducible repeat' first | assumption | apply canon_mk_out_next | apply drayBranch_canon

theorem execDrayContextStart_canon {rake} {launch} {s} (h_s : Canon s) : CanonOut (execDrayContextStart rake launch s) := by
  unfold execDrayContextStart
  with_reducible repeat' first
    | assumption | apply canon_mk_out_next | apply modRake_canon | apply drayAcquire_canon | apply setDray_canon
    | (intro _) | extract_lets | split

theorem execDrayDfence_canon {sg} {g} {o} {s} (h_s : Canon s) : CanonOut (execDrayDfence sg g o s) := by
  unfold execDrayDfence
  with_reducible repeat' first
    | assumption | apply canon_mk_out_next | apply canon_mk_out_fault | apply canon_mk_out_refused
    | apply drayIdleOp_canon | apply drayFail_canon | apply drayRelease_canon | apply drayAcquire_canon
    | apply setDray_canon | (intro _) | apply canon_to | extract_lets | split | (refine canon_of ?_; dsimp only)
    | dsimp only | dsimp +zetaDelta only

theorem execDrayGadv_canon {n} {a} {r} {s} (h_s : Canon s) : CanonOut (execDrayGadv n a r s) := by
  unfold execDrayGadv
  with_reducible repeat' first
    | assumption | apply canon_mk_out_next | apply canon_mk_out_fault | apply canon_mk_out_refused
    | apply drayIdleOp_canon | apply drayFail_canon | apply setDray_canon | (intro _) | apply canon_to | extract_lets
    | split | (refine canon_of ?_; dsimp only) | dsimp only | dsimp +zetaDelta only

theorem execDrayGset_canon {n} {a} {sp} {o} {s} (h_s : Canon s) : CanonOut (execDrayGset n a sp o s) := by
  unfold execDrayGset
  with_reducible repeat' first
    | assumption | apply canon_mk_out_next | apply canon_mk_out_fault | apply canon_mk_out_refused
    | apply drayIdleOp_canon | apply drayFail_canon | apply drayEnd_canon | apply drayRead_canon | apply setDray_canon
    | (intro _) | apply canon_to | (refine canon_gok (by assumption) ?_) | (refine canon_gfault (by assumption) ?_)
    | (refine canon_gpark (by assumption) ?_) | (refine canon_gerror (by assumption) ?_) | extract_lets | split
    | (refine canon_of ?_; dsimp only) | dsimp only | dsimp +zetaDelta only

theorem execDrayHalt_canon {s} (h_s : Canon s) : CanonOut (execDrayHalt s) := by
  unfold execDrayHalt
  with_reducible repeat' first
    | assumption | apply canon_mk_out_next | apply canon_mk_out_fault | apply canon_mk_out_refused
    | apply drayIdleOp_canon | apply stopDray_canon | apply setDray_canon | (intro _) | apply canon_to | extract_lets
    | split | (refine canon_of ?_; dsimp only) | dsimp only | dsimp +zetaDelta only

theorem execDrayIllegal_canon {x} {s} (h_s : Canon s) : CanonOut (execDrayIllegal x s) := by
  unfold execDrayIllegal
  with_reducible repeat' first | assumption | apply canon_mk_out_next | apply drayOp_canon | apply drayFail_canon | (intro _)

theorem execDrayJmp_canon {i} {s} (h_s : Canon s) : CanonOut (execDrayJmp i s) := by
  unfold execDrayJmp
  with_reducible repeat' first | assumption | apply canon_mk_out_next | apply drayOp_canon | apply setDray_canon | (intro _)

theorem execDrayJmpIndirect_canon {l} {a} {s} (h_s : Canon s) : CanonOut (execDrayJmpIndirect l a s) := by
  unfold execDrayJmpIndirect
  with_reducible repeat' first
    | assumption | apply canon_mk_out_next | apply drayOp_canon | apply drayFail_canon | apply setDray_canon | (intro _)
    | extract_lets | split

theorem execDrayJmpLink_canon {l} {i} {s} (h_s : Canon s) : CanonOut (execDrayJmpLink l i s) := by
  unfold execDrayJmpLink
  with_reducible repeat' first | assumption | apply canon_mk_out_next | apply drayOp_canon | apply setDray_canon | (intro _)

theorem execDrayLdw_canon {d} {a} {z} {p} {o} {s} (h_s : Canon s) : CanonOut (execDrayLdw d a z p o s) := by
  unfold execDrayLdw
  with_reducible repeat' first
    | assumption | apply canon_mk_out_next | apply canon_mk_out_fault | apply canon_mk_out_refused
    | apply drayIdleOp_canon | apply drayFail_canon | apply drayEnd_canon | apply drayRead_canon | apply setDray_canon
    | (intro _) | apply canon_to | (refine canon_gok (by assumption) ?_) | (refine canon_gfault (by assumption) ?_)
    | (refine canon_gpark (by assumption) ?_) | (refine canon_gerror (by assumption) ?_) | extract_lets | split
    | (refine canon_of ?_; dsimp only) | dsimp only | dsimp +zetaDelta only

theorem execDrayLi_canon {d} {i} {s} (h_s : Canon s) : CanonOut (execDrayLi d i s) := by
  unfold execDrayLi
  with_reducible repeat' first | assumption | apply canon_mk_out_next | apply drayOp_canon | apply drayDone_canon | (intro _)

theorem execDrayLoadResult_canon {dray} {s} (h_s : Canon s) : CanonOut (execDrayLoadResult dray s) := by
  unfold execDrayLoadResult
  with_reducible repeat' first | assumption | apply canon_mk_out_next | apply setDray_canon | extract_lets | split

theorem execDrayLoop_canon {a} {i} {s} (h_s : Canon s) : CanonOut (execDrayLoop a i s) := by
  unfold execDrayLoop
  with_reducible repeat' first
    | assumption | apply canon_mk_out_next | apply drayOp_canon | apply drayFail_canon | apply setDray_canon | (intro _)
    | extract_lets | split

theorem execDrayLui_canon {d} {a} {i} {s} (h_s : Canon s) : CanonOut (execDrayLui d a i s) := by
  unfold execDrayLui
  with_reducible repeat' first | assumption | apply canon_mk_out_next | apply drayOp_canon | apply drayDone_canon | (intro _)

theorem execDrayMax_canon {d} {a} {b} {s} (h_s : Canon s) : CanonOut (execDrayMax d a b s) := by
  unfold execDrayMax
  with_reducible repeat' first | assumption | apply canon_mk_out_next | apply drayReg_canon

theorem execDrayMin_canon {d} {a} {b} {s} (h_s : Canon s) : CanonOut (execDrayMin d a b s) := by
  unfold execDrayMin
  with_reducible repeat' first | assumption | apply canon_mk_out_next | apply drayReg_canon

theorem execDrayMul_canon {d} {a} {b} {s} (h_s : Canon s) : CanonOut (execDrayMul d a b s) := by
  unfold execDrayMul
  with_reducible repeat' first | assumption | apply canon_mk_out_next | apply drayReg_canon

theorem execDrayOpt_canon {a} {c} {m} {n} {s} (h_s : Canon s) : CanonOut (execDrayOpt a c m n s) := by
  unfold execDrayOpt
  with_reducible repeat' first
    | assumption | apply canon_mk_out_next | apply canon_mk_out_fault | apply canon_mk_out_refused
    | apply drayIdleOp_canon | apply drayFail_canon | apply setDray_canon | (intro _) | apply canon_to | extract_lets
    | split | (refine canon_of ?_; dsimp only) | dsimp only | dsimp +zetaDelta only

theorem execDrayOr_canon {d} {a} {b} {s} (h_s : Canon s) : CanonOut (execDrayOr d a b s) := by
  unfold execDrayOr
  with_reducible repeat' first | assumption | apply canon_mk_out_next | apply drayReg_canon

theorem execDrayPromise_canon {a} {i} {s} (h_s : Canon s) : CanonOut (execDrayPromise a i s) := by
  unfold execDrayPromise
  with_reducible repeat' first
    | assumption | apply canon_mk_out_next | apply drayOp_canon | apply setDray_canon | apply deliverPromise_canon
    | (intro _) | extract_lets | split

theorem execDrayShl_canon {d} {a} {b} {s} (h_s : Canon s) : CanonOut (execDrayShl d a b s) := by
  unfold execDrayShl
  with_reducible repeat' first | assumption | apply canon_mk_out_next | apply drayReg_canon

theorem execDrayShr_canon {d} {a} {b} {s} (h_s : Canon s) : CanonOut (execDrayShr d a b s) := by
  unfold execDrayShr
  with_reducible repeat' first | assumption | apply canon_mk_out_next | apply drayReg_canon

theorem execDraySignal_canon {a} {sg} {g} {s} (h_s : Canon s) : CanonOut (execDraySignal a sg g s) := by
  unfold execDraySignal
  with_reducible repeat' first
    | assumption | apply canon_mk_out_next | apply canon_mk_out_fault | apply canon_mk_out_refused
    | apply drayIdleOp_canon | apply drayFail_canon | apply drayRelease_canon | apply timelineMoved_canon
    | apply setDray_canon | (intro _) | apply canon_to | extract_lets | split | (refine canon_of ?_; dsimp only)
    | dsimp only | dsimp +zetaDelta only

theorem execDrayStat_canon {d} {sel} {s} (h_s : Canon s) : CanonOut (execDrayStat d sel s) := by
  unfold execDrayStat
  with_reducible repeat' first
    | assumption | apply canon_mk_out_next | apply drayOp_canon | apply drayDone_canon | apply drayFail_canon | (intro _)
    | extract_lets | split

theorem execDrayStw_canon {d} {a} {z} {p} {o} {s} (h_s : Canon s) : CanonOut (execDrayStw d a z p o s) := by
  unfold execDrayStw
  with_reducible repeat' first
    | assumption | apply canon_mk_out_next | apply canon_mk_out_fault | apply canon_mk_out_refused
    | apply drayIdleOp_canon | apply drayFail_canon | apply drayEnd_canon | apply drayTarget_canon
    | apply drayWrite_canon | apply setDray_canon | (intro _) | apply canon_to | (refine canon_gok (by assumption) ?_)
    | (refine canon_gfault (by assumption) ?_) | (refine canon_gpark (by assumption) ?_)
    | (refine canon_gerror (by assumption) ?_) | extract_lets | split | (refine canon_of ?_; dsimp only) | dsimp only
    | dsimp +zetaDelta only

theorem execDraySub_canon {d} {a} {b} {s} (h_s : Canon s) : CanonOut (execDraySub d a b s) := by
  unfold execDraySub
  with_reducible repeat' first | assumption | apply canon_mk_out_next | apply drayReg_canon

theorem execDrayTlw_canon {h} {n} {sg} {g} {s} (h_s : Canon s) : CanonOut (execDrayTlw h n sg g s) := by
  unfold execDrayTlw
  with_reducible repeat' first
    | assumption | apply canon_mk_out_next | apply canon_mk_out_fault | apply canon_mk_out_refused
    | apply drayIdleOp_canon | apply drayFail_canon | apply drayAcquire_canon | apply setDray_canon | (intro _)
    | apply canon_to | extract_lets | split | (refine canon_of ?_; dsimp only) | dsimp only | dsimp +zetaDelta only

theorem execDrayXor_canon {d} {a} {b} {s} (h_s : Canon s) : CanonOut (execDrayXor d a b s) := by
  unfold execDrayXor
  with_reducible repeat' first | assumption | apply canon_mk_out_next | apply drayReg_canon

theorem execPromiseTimeout_canon {dray} {s} (h_s : Canon s) : CanonOut (execPromiseTimeout dray s) := by
  unfold execPromiseTimeout
  with_reducible repeat' first
    | assumption | apply clockTo_canon | apply canon_mk_out_next | apply deliverPromise_canon
    | apply clockTo_canon
    | extract_lets | split

/-! ### Machine/DrayData.lean -/

theorem execDrayDataUnit_canon {dray} {s} (h_s : Canon s) : CanonOut (execDrayDataUnit dray s) := by
  unfold execDrayDataUnit
  with_reducible repeat' first
    | assumption | apply clearRevoked_canon | apply dataUnit_canon | apply canon_mk_got_ok
    | apply canon_mk_out_next | apply endData_canon
    | apply movePlain_canon
    | apply xferUnit_canon | apply drayEnd_canon | apply openBlock_canon | apply moveUnits_canon | apply DGot_bind_canon
    | apply gatherUnit_canon | apply scatterUnit_canon | apply fillUnit_canon | (intro _) | extract_lets | split

theorem startData_canon {s} {dk} {n} {op} (h_s : Canon s) : Canon (startData s dk n op) := by
  unfold startData
  with_reducible repeat' first | assumption | apply setDray_canon | extract_lets | split

theorem execDrayFill_canon {d} {v} {n} {p} {s} (h_s : Canon s) : CanonOut (execDrayFill d v n p s) := by
  unfold execDrayFill
  with_reducible repeat' first
    | assumption | apply canon_mk_out_next | apply canon_mk_out_fault | apply canon_mk_out_refused
    | apply drayIdleOp_canon | apply drayFail_canon | apply startData_canon | (intro _) | apply canon_to
    | extract_lets | split | (refine canon_of ?_; dsimp only) | dsimp only | dsimp +zetaDelta only

theorem startRows_canon {t} {x} {o} {n} {op} {s} (h_s : Canon s) : Canon (startRows t x o n op s) := by
  unfold startRows
  with_reducible repeat' first
    | assumption | apply drayIdleOp_canon | apply drayFail_canon | apply startData_canon | (intro _) | apply canon_to
    | extract_lets | split | (refine canon_of ?_; dsimp only) | dsimp only | dsimp +zetaDelta only

theorem execDrayGather_canon {d} {x} {n} {t} {s} (h_s : Canon s) : CanonOut (execDrayGather d x n t s) := by
  unfold execDrayGather
  with_reducible repeat' first | assumption | apply canon_mk_out_next | apply startRows_canon

theorem execDrayScatter_canon {t} {x} {n} {sr} {s} (h_s : Canon s) : CanonOut (execDrayScatter t x n sr s) := by
  unfold execDrayScatter
  with_reducible repeat' first | assumption | apply canon_mk_out_next | apply startRows_canon

theorem execDrayXfer_canon {d} {sr} {n} {m} {f} {u} {c} {s} (h_s : Canon s) : CanonOut (execDrayXfer d sr n m f u c s) := by
  unfold execDrayXfer
  with_reducible repeat' first
    | assumption | apply canon_mk_out_next | apply canon_mk_out_fault | apply canon_mk_out_refused
    | apply drayIdleOp_canon | apply drayFail_canon | apply startData_canon | (intro _) | apply canon_to
    | extract_lets | split | (refine canon_of ?_; dsimp only) | dsimp only | dsimp +zetaDelta only

/-! ### Machine/Ticket.lean -/

theorem ticketFault_canon {s} {k} {va} {e} {acc} (h_s : Canon s) : Canon (ticketFault s k va e acc) := by
  unfold ticketFault
  with_reducible repeat' first
    | assumption | apply joinFault_canon | (intro _) | apply canon_to | (refine canon_snd (by assumption) ?_)
    | extract_lets | split | (refine canon_of ?_; dsimp only) | dsimp only | dsimp +zetaDelta only

theorem applyAt_canon {s} {k} {va} {n} {a} {f} (h_s : Canon s)
    (h_f : (∀ x0 x1 x2, Canon x2 → Canon (f x0 x1 x2))) : CanonApplied (applyAt s k va n a f) := by
  unfold applyAt
  with_reducible repeat' first
    | assumption | apply xlatBad_canon | apply canon_mk_applied_done | apply canon_mk_applied_fault | apply h_f
    | apply coachXlate_canon
    | apply ticketFault_canon | apply coachError_canon | (refine canon_snd (by assumption) ?_) | split

theorem applyStaged_canon {s} {k} {e} (h_s : Canon s) : CanonApplied (applyStaged s k e) := by
  unfold applyStaged
  with_reducible repeat' first
    | assumption | apply canon_mk_applied_done | apply canon_mk_applied_full | apply canon_mk_applied_fault
    | apply releaseGlobal_canon | apply applyAt_canon | apply coachWrite_canon | apply atomWay_canon
    | apply coachRead_canon | apply memerr_canon | apply pushQueue_canon | apply ticketFault_canon
    | apply spawnRegion_canon | (intro _) | apply canon_to | (refine canon_snd (by assumption) ?_)
    | (refine canon_pdone (by assumption) ?_) | (refine canon_pxlat (by assumption) ?_)
    | (refine canon_done (by assumption) ?_) | (refine canon_full (by assumption) ?_)
    | (refine canon_tfault (by assumption) ?_) | extract_lets | split | (refine canon_of ?_; dsimp only) | dsimp only
    | dsimp +zetaDelta only

theorem applyAll_canon {k} {w} {a} {z2} (h_z2 : Canon z2) : CanonAll (applyAll k w a z2) := by
  induction a generalizing k w z2 with
  | nil =>
    unfold applyAll
    with_reducible repeat' first
      | assumption | apply canon_mk_all_all | apply clearCovered_canon
  | cons x l ih =>
    unfold applyAll
    with_reducible repeat' first
      | assumption | apply ih | apply canon_mk_all_full | apply canon_mk_all_fault | apply applyStaged_canon
      | apply clearCovered_canon | (refine canon_done (by assumption) ?_) | (refine canon_full (by assumption) ?_)
      | (refine canon_tfault (by assumption) ?_) | split

theorem turnMoves_canon {s} {rg} {f} (h_s : Canon s) : Canon (turnMoves s rg f) := by
  unfold turnMoves
  with_reducible repeat' first
    | assumption | apply detAreaWrite_canon | apply modRegion_canon | apply canon_to
    | (refine canon_snd (by assumption) ?_) | extract_lets | split | (refine canon_of ?_; dsimp only) | dsimp only
    | dsimp +zetaDelta only

theorem leaveRotation_canon {s} {rg} {i} {m} (h_s : Canon s) : Canon (leaveRotation s rg i m) := by
  unfold leaveRotation
  with_reducible repeat' first
    | assumption | apply createRake_canon | apply turnMoves_canon | (intro _) | apply canon_to | extract_lets | split
    | (refine canon_of ?_; dsimp only) | dsimp only | dsimp +zetaDelta only

theorem keepRest_canon {s} {k} {rest} (h_s : Canon s) : Canon (keepRest s k rest) := by
  unfold keepRest
  with_reducible repeat' first | assumption | apply modCoach_canon

theorem visitCoach_canon {k} {n} {a} {z3} (h_z3 : Canon z3) : CanonVisit (visitCoach k n a z3) := by
  induction a generalizing k n z3 with
  | zero =>
    unfold visitCoach
    with_reducible repeat' first
      | assumption | apply canon_mk_visit_wait
  | succ n ih =>
    unfold visitCoach
    with_reducible repeat' first
      | assumption | apply ih | apply canon_mk_visit_next | apply canon_mk_visit_wait | apply applyAll_canon
      | apply keepRest_canon | apply modCoach_canon | apply modRegion_canon | (refine canon_aall (by assumption) ?_)
      | (refine canon_afull (by assumption) ?_) | (refine canon_aafault (by assumption) ?_) | extract_lets | split

theorem execTicketTurn_canon {region} {s} (h_s : Canon s) : CanonOut (execTicketTurn region s) := by
  unfold execTicketTurn
  with_reducible repeat' first
    | assumption | apply turnMoves_canon | apply canon_mk_out_next | apply modRegion_canon
    | apply leaveRotation_canon | apply visitCoach_canon
    | apply checkCoach_canon | (refine canon_vnext (by assumption) ?_) | (refine canon_vwait (by assumption) ?_)
    | extract_lets | split

/-! ### Machine/Progress.lean -/

theorem fetchDray_canon {s} {dk} (h_s : Canon s) : CanonGot (fetchDray s dk) := by
  unfold fetchDray
  with_reducible repeat' first
    | assumption | apply fillOwn_canon | apply canon_mk_got_ok | apply canon_mk_got_fault | apply canon_mk_got_park
    | apply canon_mk_got_error
    | apply xlateProgram_canon | (refine canon_snd (by assumption) ?_) | extract_lets | split

theorem drayWord_canon {s} {dk} (h_s : Canon s) : CanonGot (Machine.drayWord s dk) := by
  unfold Machine.drayWord
  with_reducible repeat' first
    | assumption | apply canon_mk_got_ok | apply canon_mk_got_fault | apply canon_mk_got_park
    | apply canon_mk_got_error | apply setDray_canon | apply fetchDray_canon | (intro _) | apply canon_to
    | (refine canon_gok (by assumption) ?_) | (refine canon_gfault (by assumption) ?_)
    | (refine canon_gpark (by assumption) ?_) | (refine canon_gerror (by assumption) ?_) | extract_lets | split
    | (refine canon_of ?_; dsimp only) | dsimp only | dsimp +zetaDelta only

theorem drayServed_canon {s} {dk} {data} (h_s : Canon s) : Canon (drayServed s dk data) := by
  unfold drayServed
  with_reducible repeat' first
    | assumption | apply canon_to | (refine canon_snd (by assumption) ?_) | extract_lets | split
    | (refine canon_of ?_; dsimp only) | dsimp only | dsimp +zetaDelta only

theorem drayUpset_canon {s} {dk} (h_s : Canon s) : Canon (drayUpset s dk) := by
  unfold drayUpset
  with_reducible repeat' first
    | assumption | apply drayError_canon | apply logError_canon | (intro _) | apply canon_to | extract_lets | split
    | (refine canon_of ?_; dsimp only) | dsimp only | dsimp +zetaDelta only

theorem runDray_behind_canon {dk} {s} {t} (h_s : Canon s) (h_t : Canon t) : Canon (runDray.behind dk s t) := by
  unfold runDray.behind
  with_reducible repeat' first
    | assumption | apply drayDrains_canon | (intro _) | apply canon_to | extract_lets | split
    | (refine canon_of ?_; dsimp only) | dsimp only | dsimp +zetaDelta only

theorem registerError_canon {s} {k} {r} (h_s : Canon s) : Canon (registerError s k r) := by
  unfold registerError
  with_reducible repeat' first
    | assumption | apply logConsumed_canon | apply areaPieces_canon | apply markReset_canon | apply modCoach_canon | apply loseScalars_canon
    | apply coachError_canon
    | apply logError_canon | apply canon_to | (refine canon_snd (by assumption) ?_) | extract_lets | split
    | (refine canon_of ?_; dsimp only) | dsimp only | dsimp +zetaDelta only

theorem upsetError_canon {s} {k} {u} (h_s : Canon s) : Canon (upsetError s k u) := by
  unfold upsetError
  with_reducible repeat' first
    | assumption | apply registerError_canon | apply modRegion_canon | apply modCoach_canon | apply coachError_canon
    | apply logConsumed_canon | (intro _) | apply canon_to | extract_lets | split | (refine canon_of ?_; dsimp only)
    | dsimp only | dsimp +zetaDelta only

theorem metError_canon {s} {k} {i} (h_s : Canon s) : CanonO (metError s k i) := by
  unfold metError
  with_reducible repeat' first
    | assumption | apply canon_mk_none | apply canon_mk_some | apply upsetError_canon | apply memerr_canon | (intro _)
    | apply canon_to | extract_lets | split | (refine canon_of ?_; dsimp only) | dsimp only | dsimp +zetaDelta only

theorem turnAfter_canon {s} {i} (h_s : Canon s) : Canon (turnAfter s i) := by
  unfold turnAfter
  with_reducible repeat' first
    | assumption | apply canon_to | (refine canon_snd (by assumption) ?_) | extract_lets | split
    | (refine canon_of ?_; dsimp only) | dsimp only | dsimp +zetaDelta only

theorem countTime_canon {s} (h_s : Canon s) : Canon (countTime s) := by
  unfold countTime
  with_reducible repeat' first
    | assumption | apply canon_to | (refine canon_snd (by assumption) ?_) | extract_lets | split
    | (refine canon_of ?_; dsimp only) | dsimp only | dsimp +zetaDelta only

theorem tick_canon {s} (h_s : Canon s) : Canon (tick s) := by
  unfold tick
  with_reducible repeat' first | assumption | apply countTime_canon | apply canon_to | (refine canon_of ?_; dsimp only)

theorem ticked_canon {o} (h_o : CanonOut o) : CanonOut (ticked o) := by
  cases o with
  | next s => exact tick_canon h_o
  | _ => trivial

theorem turnPast_canon {s} {k} (h_s : Canon s) : Canon (turnPast s k) := by
  unfold turnPast
  with_reducible repeat' first | assumption | apply canon_to | split | (refine canon_of ?_; dsimp only)

end Sys2Proof.Laws
end

