-- ==== Sys2Proof/Laws/Drays.lean ====
section
/-! SUPPORT. What wakes coaches, ends rakes, keeps promises and orders memory leaves every dray context as it stands: the table of
dray contexts is the same after it (07 R253, R268). -/
namespace Sys2Proof.Laws
open Sys2Proof.Machine

/-- The table of dray contexts is `D`. -/
def DraysOf (D t : Tbl Dray) : Prop := t = D

/-- The same of a state. -/
def Drays (D : Tbl Dray) (s : State) : Prop := DraysOf D s.drays

/-- What a push gives. -/
def DraysPush (D : Tbl Dray) : PushOut → Prop
  | .done s => Drays D s
  | .full => True
  | .xlat _ _ s => Drays D s

variable {α β γ : Type} {D : Tbl Dray}

theorem drays_snd {e : α × State} {a t} (he : e = (a, t)) (h : Drays D e.2) : Drays D t := by subst he; exact h
theorem drays_fth {e : α × β × γ × State} {a b c t} (he : e = (a, b, c, t)) (h : Drays D e.2.2.2) :
    Drays D t := by subst he; exact h
theorem drays_pdone {e : PushOut} {t} (he : e = .done t) (h : DraysPush D e) : Drays D t := by subst he; exact h
theorem drays_pxlat {e : PushOut} {a b t} (he : e = .xlat a b t) (h : DraysPush D e) : Drays D t := by subst he; exact h
theorem drays_foldl {f : State → α → State} {l : List α} {s : State} (h : Drays D s)
    (hf : ∀ s a, Drays D s → Drays D (f s a)) : Drays D (l.foldl f s) := by
  induction l generalizing s with
  | nil => exact h
  | cons a l ih => exact ih (hf s a h)
theorem drays_foldl2 {f : β × State → α → β × State} {l : List α} {s : β × State} (h : Drays D s.2)
    (hf : ∀ s a, Drays D s.2 → Drays D (f s a).2) : Drays D (l.foldl f s).2 := by
  induction l generalizing s with
  | nil => exact h
  | cons a l ih => exact ih (hf s a h)
theorem drays_foldl3 {f : β × γ × State → α → β × γ × State} {l : List α} {s : β × γ × State} (h : Drays D s.2.2)
    (hf : ∀ s a, Drays D s.2.2 → Drays D (f s a).2.2) : Drays D (l.foldl f s).2.2 := by
  induction l generalizing s with
  | nil => exact h
  | cons a l ih => exact ih (hf s a h)
theorem drays_of {s : State} (h : DraysOf D s.drays) : Drays D s := h
theorem drays_to {s : State} (h : Drays D s) : DraysOf D s.drays := h
theorem drays_mk_push_done  {s : State} (h : Drays D s) : DraysPush D (.done s : PushOut) := h
theorem drays_mk_push_full  : DraysPush D (.full : PushOut) := trivial
theorem drays_mk_push_xlat {a} {b} {s : State} (h : Drays D s) : DraysPush D (.xlat a b s : PushOut) := h

theorem storeDirty_same_drays {s} {c} (h_s : Drays D s) : Drays D (storeDirty s c) := h_s

theorem l2WriteBack_same_drays {s} {c} (h_s : Drays D s) : Drays D (l2WriteBack s c) := by
  unfold l2WriteBack
  with_reducible repeat' first | assumption | apply storeDirty_same_drays | split

theorem physWrite_same_drays {s} {a} {bs} (h_s : Drays D s) : Drays D (physWrite s a bs) := h_s

theorem l2Evict_same_drays {s} {c} (h_s : Drays D s) : Drays D (l2Evict s c) := by
  unfold l2Evict
  with_reducible repeat' first
    | assumption | apply l2WriteBack_same_drays | apply drays_to | (refine drays_snd (by assumption) ?_) | extract_lets
    | split | (refine drays_of ?_; dsimp only)

theorem l2Room_same_drays {s} {line} (h_s : Drays D s) : Drays D (l2Room s line) := by
  unfold l2Room
  with_reducible repeat' first
    | assumption | apply l2Evict_same_drays | apply drays_to | (refine drays_snd (by assumption) ?_) | extract_lets | split
    | (refine drays_of ?_; dsimp only) | dsimp only | dsimp +zetaDelta only

theorem countAccess_same_drays {s} {pa} (h_s : Drays D s) : Drays D (countAccess s pa) := by
  unfold countAccess
  with_reducible repeat' first
    | assumption | apply drays_to | extract_lets | split | (refine drays_of ?_; dsimp only)

theorem l2Fill_same_drays {s} {line} {ctx} (h_s : Drays D s) : Drays D (l2Fill s line ctx) := by
  unfold l2Fill
  with_reducible repeat' first
    | assumption | apply l2Room_same_drays | apply countAccess_same_drays | apply drays_to | extract_lets | split
    | (refine drays_of ?_; dsimp only)

theorem raiseVector_same_drays {s} {fn} {vec} (h_s : Drays D s) : Drays D (raiseVector s fn vec) := by
  unfold raiseVector
  with_reducible repeat' first | assumption | apply drays_to | split | (refine drays_of ?_; dsimp only)

theorem logError_same_drays {s} {source} {sev} {die} {pa} {ctx} {world} {cluster} (h_s : Drays D s) :
    Drays D (logError s source sev die pa ctx world cluster) := by
  unfold logError
  with_reducible repeat' first
    | assumption | apply physWrite_same_drays | apply raiseVector_same_drays | apply drays_to | extract_lets | split
    | (refine drays_of ?_; dsimp only)

theorem correctedError_same_drays {s} {source} {die} {pa} (h_s : Drays D s) : Drays D (correctedError s source die pa) := by
  unfold correctedError
  with_reducible repeat' first
    | assumption | apply logError_same_drays | apply drays_to | extract_lets | split | (refine drays_of ?_; dsimp only)
    | dsimp +zetaDelta only

theorem setPoison_same_drays {s} {line} (h_s : Drays D s) : Drays D (setPoison s line) := by
  unfold setPoison
  with_reducible repeat' first | assumption | apply drays_to | split | (refine drays_of ?_; dsimp only)

theorem meetSoftError_same_drays {s} {line} (h_s : Drays D s) : Drays D (meetSoftError s line) := by
  unfold meetSoftError
  with_reducible repeat' first
    | assumption | apply correctedError_same_drays | apply logError_same_drays | apply setPoison_same_drays | apply drays_to
    | extract_lets | split | (refine drays_of ?_; dsimp only) | dsimp +zetaDelta only

theorem l2Read_same_drays {s} {line} {ctx} (h_s : Drays D s) : Drays D (l2Read s line ctx) := by
  unfold l2Read
  with_reducible repeat' first
    | assumption | apply l2Fill_same_drays | apply meetSoftError_same_drays


theorem l2Write_same_drays {s} {line} {off} {bs} (h_s : Drays D s) : Drays D (l2Write s line off bs) := by
  unfold l2Write
  with_reducible repeat' first
    | assumption | apply drays_to | (refine drays_snd (by assumption) ?_) | extract_lets | split
    | (refine drays_of ?_; dsimp only)

theorem homeWriteLine_same_drays {s} {line} {off} {bs} {ctx} {cacheable} (h_s : Drays D s) :
    Drays D (homeWriteLine s line off bs ctx cacheable) := by
  unfold homeWriteLine
  with_reducible repeat' first
    | assumption | apply l2Read_same_drays | apply l2Write_same_drays | apply l2Fill_same_drays | apply physWrite_same_drays
    | apply drays_to | extract_lets
    | split

theorem clearPoison_same_drays {s} {line} (h_s : Drays D s) : Drays D (clearPoison s line) := by
  unfold clearPoison
  with_reducible repeat' first | assumption | apply drays_to | (refine drays_of ?_; dsimp only)

theorem tlbFill_same_drays {s} {unit} {e} (h_s : Drays D s) : Drays D (tlbFill s unit e) := by
  unfold tlbFill
  with_reducible repeat' first | assumption | apply drays_to | extract_lets | (refine drays_of ?_; dsimp only)

theorem tlbFillAll_same_drays {s} {e} {a} (h_s : Drays D s) : Drays D (tlbFillAll s e a) := by
  induction a generalizing s e with
  | nil =>
    unfold tlbFillAll
    with_reducible repeat' first
      | assumption
  | cons x l ih =>
    unfold tlbFillAll
    with_reducible repeat' first | assumption | apply ih | apply tlbFill_same_drays

theorem walkReads_same_drays {s} {ctx} {va} (h_s : Drays D s) : Drays D (walkReads s ctx va) := by
  unfold walkReads
  with_reducible repeat' first
    | assumption | apply l2Read_same_drays | apply drays_foldl | apply drays_foldl2 | (intro _) | apply drays_to
    | extract_lets | split

theorem atsFill_same_drays {s} {units} {pa} (h_s : Drays D s) : Drays D (atsFill s units pa) := by
  unfold atsFill
  with_reducible repeat' first
    | assumption | (intro _) | apply drays_to | extract_lets | split | (refine drays_of ?_; dsimp only)


theorem xlate_same_drays {s} {units} {ctx} {va} {a} (h_s : Drays D s) : Drays D (xlate s units ctx va a).2 := by
  unfold xlate
  generalize tlbLook s ctx va a units [] = lk
  obtain ⟨hit, miss⟩ := lk
  cases hit <;> dsimp only <;> (with_reducible repeat' first
    | assumption | apply walkReads_same_drays | apply atsFill_same_drays | apply tlbFillAll_same_drays | split)

theorem l1Put_same_drays {s} {unit} {c} (h_s : Drays D s) : Drays D (l1Put s unit c) := by
  unfold l1Put
  with_reducible repeat' first | assumption | apply drays_to | (refine drays_of ?_; dsimp only)

theorem writeDirty_same_drays {s} {c} (h_s : Drays D s) : Drays D (writeDirty s c) := by
  unfold writeDirty
  with_reducible repeat' first
    | assumption | apply setPoison_same_drays | apply clearPoison_same_drays | apply l2Fill_same_drays | apply storeDirty_same_drays
    | (intro _) | apply drays_to | extract_lets | split | (refine drays_of ?_; dsimp only) | dsimp only
    | dsimp +zetaDelta only

theorem l1Clean_same_drays {s} {unit} {c} (h_s : Drays D s) : Drays D (l1Clean s unit c) := by
  unfold l1Clean
  with_reducible repeat' first | assumption | apply l1Put_same_drays | apply writeDirty_same_drays

theorem l1Drop_same_drays {s} {unit} {line} (h_s : Drays D s) : Drays D (l1Drop s unit line) := by
  unfold l1Drop
  with_reducible repeat' first | assumption | apply drays_to | (refine drays_of ?_; dsimp only)

theorem meetL1_same_drays {s} {unit} {line} (h_s : Drays D s) : Drays D (meetL1 s unit line) := by
  unfold meetL1
  with_reducible repeat' first
    | assumption | apply l1Drop_same_drays | apply logError_same_drays | apply l1Put_same_drays | (intro _) | apply drays_to
    | extract_lets | split | (refine drays_of ?_; dsimp only) | dsimp only | dsimp +zetaDelta only

theorem l1WriteBackAll_same_drays {s} {unit} {ctx} (h_s : Drays D s) : Drays D (l1WriteBackAll s unit ctx) := by
  unfold l1WriteBackAll
  with_reducible repeat' first | assumption | apply l1Clean_same_drays | apply drays_foldl | (intro _) | extract_lets | split

theorem l2System_same_drays {s} {drop} (h_s : Drays D s) : Drays D (l2System s drop) := by
  unfold l2System
  with_reducible repeat' first
    | assumption | apply l2WriteBack_same_drays | apply drays_foldl | apply drays_to | extract_lets | split
    | (refine drays_of ?_; dsimp only)

theorem releaseGlobal_same_drays {s} {unit} {ctx} {agt} (h_s : Drays D s) : Drays D (releaseGlobal s unit ctx agt) := by
  unfold releaseGlobal
  with_reducible repeat' first
    | assumption | apply l1WriteBackAll_same_drays | apply l2System_same_drays | extract_lets | split | dsimp +zetaDelta only

theorem victimHit_same_drays {s} {unit} {line} (h_s : Drays D s) : Drays D (victimHit s unit line).2 := by
  unfold victimHit
  with_reducible repeat' first | assumption | apply drays_to | extract_lets | split | dsimp only | (refine drays_of ?_; dsimp only)

theorem l1Evict_same_drays {s} {unit} {c} (h_s : Drays D s) : Drays D (l1Evict s unit c) := by
  unfold l1Evict
  with_reducible repeat' first
    | assumption | apply l1Drop_same_drays | apply writeDirty_same_drays | apply drays_to | extract_lets
    | (refine drays_of ?_; dsimp only)

theorem l1Room_same_drays {s} {unit} {line} (h_s : Drays D s) : Drays D (l1Room s unit line) := by
  unfold l1Room
  with_reducible repeat' first
    | assumption | apply l1Evict_same_drays | apply drays_to | extract_lets | split | (refine drays_of ?_; dsimp only)
    | dsimp +zetaDelta only

theorem l1Fill_same_drays {s} {unit} {line} {ctx} {strm} (h_s : Drays D s) : Drays D (l1Fill s unit line ctx strm).2.2.2 := by
  unfold l1Fill
  with_reducible repeat' first
    | assumption | apply meetL1_same_drays | apply l2Read_same_drays | apply writeDirty_same_drays | apply l1Put_same_drays
    | apply victimHit_same_drays | apply l1Room_same_drays | (intro _) | apply drays_to | (refine drays_snd (by assumption) ?_)
    | extract_lets | split

theorem writePart_same_drays {s} {p} {line} {off} {bs} (h_s : Drays D s) : Drays D (writePart s p line off bs).2 := by
  unfold writePart
  with_reducible repeat' first
    | assumption | apply clearPoison_same_drays | apply l1Fill_same_drays | apply l1Put_same_drays | apply homeWriteLine_same_drays
    | apply countAccess_same_drays | extract_lets | split

theorem writePath_same_drays {s} {p} {a} {bs} (h_s : Drays D s) : Drays D (writePath s p a bs).2 := by
  unfold writePath
  with_reducible repeat' first | assumption | apply writePart_same_drays | apply drays_foldl3 | (intro _)

theorem l1DiscardAll_same_drays {s} {unit} {ctx} (h_s : Drays D s) : Drays D (l1DiscardAll s unit ctx) := by
  unfold l1DiscardAll
  with_reducible repeat' first
    | assumption | apply writeDirty_same_drays | apply drays_foldl | apply drays_to | (intro _) | extract_lets | split
    | (refine drays_of ?_; dsimp only)

theorem acquireGlobal_same_drays {s} {unit} {ctx} {agt} (h_s : Drays D s) : Drays D (acquireGlobal s unit ctx agt) := by
  unfold acquireGlobal
  with_reducible repeat' first
    | assumption | apply l1DiscardAll_same_drays | apply l2System_same_drays | extract_lets | split | dsimp +zetaDelta only

theorem readPart_same_drays {s} {p} {line} {off} {n} (h_s : Drays D s) : Drays D (readPart s p line off n).2.2 := by
  unfold readPart
  with_reducible repeat' first
    | assumption | apply l2Read_same_drays | apply l1Fill_same_drays | apply meetSoftError_same_drays | apply l2Fill_same_drays
    | apply drays_to
    | (refine drays_fth (by assumption) ?_) | extract_lets | split | (refine drays_of ?_; dsimp only) | dsimp only
    | dsimp +zetaDelta only

theorem readPath_same_drays {s} {p} {a} {n} (h_s : Drays D s) : Drays D (readPath s p a n).2.2 := by
  unfold readPath
  with_reducible repeat' first | assumption | apply readPart_same_drays | apply drays_foldl3 | (intro _)

theorem orderGlobal_same_drays {s} {unit} {ctx} {ord} {agt} {stg} (h_s : Drays D s) : Drays D (orderGlobal s unit ctx ord agt stg) := by
  unfold orderGlobal
  with_reducible repeat' first
    | assumption | apply releaseGlobal_same_drays | apply acquireGlobal_same_drays | extract_lets | split | dsimp +zetaDelta only

theorem setCoach_same_drays {s} {k} {co} (h_s : Drays D s) : Drays D (setCoach s k co) := by
  unfold setCoach
  with_reducible repeat' first | assumption | apply drays_to | (refine drays_of ?_; dsimp only)

theorem modCoach_same_drays {s} {k} {f} (h_s : Drays D s) : Drays D (modCoach s k f) := by
  unfold modCoach
  with_reducible repeat' first | assumption | apply drays_to | (refine drays_of ?_; dsimp only)

theorem joinFault_same_drays {s} {ctx} {page} {die} {cluster} {region} {version} {e} {acc} {waiters} (h_s : Drays D s) :
    Drays D (joinFault s ctx page die cluster region version e acc waiters).2 := by
  unfold joinFault
  with_reducible repeat' first | assumption | apply drays_to | extract_lets | split | dsimp only | (refine drays_of ?_; dsimp only)

theorem coachFault_same_drays {s} {co} {va} {e} {acc} {waiters} (h_s : Drays D s) : Drays D (coachFault s co va e acc waiters).2 := by
  unfold coachFault
  with_reducible repeat' first
    | assumption | apply joinFault_same_drays | apply drays_to | (refine drays_snd (by assumption) ?_) | extract_lets
    | split | (refine drays_of ?_; dsimp only)

theorem coachFence_same_drays {s} {k} (h_s : Drays D s) : Drays D (coachFence s k) := by
  unfold coachFence
  with_reducible repeat' first
    | assumption | apply orderGlobal_same_drays | apply drays_to | (refine drays_snd (by assumption) ?_) | extract_lets
    | split

theorem ownFill_same_drays {s} {ctx} {a} {n} (h_s : Drays D s) : Drays D (ownFill s ctx a n) := by
  unfold ownFill
  with_reducible repeat' first
    | assumption | apply l2Read_same_drays | apply l2Fill_same_drays | apply drays_foldl | apply drays_foldl2 | (intro _)




theorem fillOwn_same_drays {s} {ctx} {ps} (h_s : Drays D s) : Drays D (fillOwn s ctx ps) := by
  unfold fillOwn
  with_reducible repeat' first
    | assumption | apply ownFill_same_drays | apply drays_foldl | apply drays_foldl2 | (intro _) | apply drays_to
    | (refine drays_snd (by assumption) ?_) | extract_lets | split


theorem ownWrite_same_drays {s} {ctx} {a} {bs} {uc} (h_s : Drays D s) : Drays D (ownWrite s ctx a bs uc) := by
  unfold ownWrite
  with_reducible repeat' first | assumption | apply homeWriteLine_same_drays | apply drays_foldl2 | (intro _)

theorem writeOwn_same_drays {s} {ctx} {ps} {bs} (h_s : Drays D s) : Drays D (writeOwn s ctx ps bs) := by
  unfold writeOwn
  with_reducible repeat' first
    | assumption | apply ownWrite_same_drays | apply drays_foldl | apply drays_foldl2 | (intro _)


theorem ownPieces_go_drays {units} {ctx} {a} {z3} {z4} {z5} {z6} {z7} (h_z6 : Drays D z6) :
    Drays D (ownPieces.go units ctx a z3 z4 z5 z6 z7).2 := by
  induction z3 generalizing units ctx a z4 z5 z6 z7 with
  | zero =>
    unfold ownPieces.go
    with_reducible repeat' first
      | assumption
  | succ n ih =>
    unfold ownPieces.go
    with_reducible repeat' first
      | assumption | apply ih | apply xlate_same_drays | (refine drays_snd (by assumption) ?_) | extract_lets | split

theorem ownPieces_same_drays {s} {units} {ctx} {va} {n} {a} (h_s : Drays D s) : Drays D (ownPieces s units ctx va n a).2 := by
  unfold ownPieces
  with_reducible repeat' first | assumption | apply ownPieces_go_drays

theorem ownWriteV_same_drays {s} {units} {ctx} {va} {bs} (h_s : Drays D s) : Drays D (ownWriteV s units ctx va bs).2 := by
  unfold ownWriteV
  with_reducible repeat' first
    | assumption | apply writeOwn_same_drays | apply ownPieces_same_drays | apply ownWrite_same_drays | apply drays_foldl2
    | (refine drays_snd (by assumption) ?_) | (intro _) | split

theorem markReset_same_drays {s} {ctx} (h_s : Drays D s) : Drays D (markReset s ctx) := by
  unfold markReset
  with_reducible repeat' first | assumption | apply drays_to | split | (refine drays_of ?_; dsimp only)

theorem stage_same_drays {s} {k} {es} (h_s : Drays D s) : Drays D (stage s k es) := by
  unfold stage
  with_reducible repeat' first | assumption | apply modCoach_same_drays

theorem modRegion_same_drays {s} {k} {f} (h_s : Drays D s) : Drays D (modRegion s k f) := by
  unfold modRegion
  with_reducible repeat' first | assumption | apply drays_to | (refine drays_of ?_; dsimp only)

theorem setQueue_same_drays {s} {region} {qi} {q} (h_s : Drays D s) : Drays D (setQueue s region qi q) := by
  unfold setQueue
  with_reducible repeat' first | assumption | apply modRegion_same_drays

theorem ownReadP_same_drays {s} {units} {ctx} {va} {n} (h_s : Drays D s) : Drays D (ownReadP s units ctx va n).2 := by
  unfold ownReadP
  with_reducible repeat' first
    | assumption | apply ownPieces_same_drays | apply fillOwn_same_drays | apply drays_to
    | (refine drays_snd (by assumption) ?_) | extract_lets | split


theorem refillQueue_same_drays {s} {units} {region} {qi} {a} (h_s : Drays D s) : Drays D (refillQueue s units region qi a) := by
  induction a generalizing s with
  | zero => exact h_s
  | succ n ih =>
    unfold refillQueue
    with_reducible repeat' first
      | assumption | apply ih | apply setQueue_same_drays | apply ownReadP_same_drays | (refine drays_snd (by assumption) ?_)
      | extract_lets | split

theorem pushQueue_same_drays {s} {units} {region} {qi} {e} (h_s : Drays D s) : DraysPush D (pushQueue s units region qi e) := by
  unfold pushQueue
  with_reducible repeat' first
    | assumption | apply drays_mk_push_done | apply drays_mk_push_full | apply drays_mk_push_xlat | apply refillQueue_same_drays
    | apply setQueue_same_drays | apply ownWriteV_same_drays | (refine drays_snd (by assumption) ?_) | extract_lets | split

theorem pushReg_same_drays {s} {k} {q} {e} (h_s : Drays D s) : DraysPush D (pushReg s k q e) := by
  unfold pushReg
  with_reducible repeat' first
    | assumption | apply drays_mk_push_done | apply drays_mk_push_full | apply stage_same_drays | apply releaseGlobal_same_drays
    | apply pushQueue_same_drays | apply drays_to | extract_lets | split | (refine drays_of ?_; dsimp only)

theorem parkLanes_same_drays {s} {k} {m} {va} {e} {acc} {frame} (h_s : Drays D s) : Drays D (parkLanes s k m va e acc frame) := by
  unfold parkLanes
  with_reducible repeat' first
    | assumption | apply setCoach_same_drays | apply coachFault_same_drays | apply drays_to
    | (refine drays_snd (by assumption) ?_) | extract_lets | split


theorem commitAll_same_drays {s} {k} (h_s : Drays D s) : Drays D (commitAll s k).2 := by
  unfold commitAll
  with_reducible repeat' first
    | assumption | apply setCoach_same_drays | apply pushReg_same_drays | apply parkLanes_same_drays | apply modCoach_same_drays
    | apply drays_foldl | (refine drays_pdone (by assumption) ?_) | (refine drays_pxlat (by assumption) ?_) | (intro _)
    | extract_lets | split

theorem modRake_same_drays {s k f} (h_s : Drays D s) : Drays D (modRake s k f) := h_s

theorem haltRake_same_drays {s} {k} {t} {flags} (h_s : Drays D s) : Drays D (haltRake s k t flags) := by
  unfold haltRake
  exact modRake_same_drays h_s

theorem beginHalt_same_drays {s} {k} {t} {flags} {framed} (h_s : Drays D s) : Drays D (beginHalt s k t flags framed) := by
  unfold beginHalt
  with_reducible repeat' first
    | assumption | apply haltRake_same_drays | apply modCoach_same_drays | apply coachFence_same_drays


theorem homeFirst_same_drays {s} {unit} {a} {n} (h_s : Drays D s) : Drays D (homeFirst s unit a n) := by
  unfold homeFirst
  with_reducible repeat' first
    | assumption | apply l1Drop_same_drays | apply writeDirty_same_drays | apply drays_foldl | (intro _) | extract_lets | split

theorem leaseCounts_same_drays {s} {k} {c} (h_s : Drays D s) : Drays D (leaseCounts s k c) := by
  unfold leaseCounts
  with_reducible repeat' first | assumption | apply modCoach_same_drays | split

theorem coachWrite_same_drays {s} {k} {pa} {bs} {leaf} {bypass} {strm} (h_s : Drays D s) :
    Drays D (coachWrite s k pa bs leaf bypass strm) := by
  unfold coachWrite
  with_reducible repeat' first
    | assumption | apply homeFirst_same_drays | apply writePath_same_drays | apply leaseCounts_same_drays | extract_lets | split

theorem writeFrame_same_drays {s} {k} {va} {bs} (h_s : Drays D s) : Drays D (writeFrame s k va bs).2 := by
  unfold writeFrame
  with_reducible repeat' first
    | assumption | apply ownPieces_same_drays | apply markReset_same_drays | apply coachWrite_same_drays | apply drays_foldl2
    | (refine drays_snd (by assumption) ?_) | (intro _) | extract_lets | split

theorem awaitFrame_same_drays {s} {k} {t} {va} {e} {parked} (h_s : Drays D s) : Drays D (awaitFrame s k t va e parked) := by
  unfold awaitFrame
  with_reducible repeat' first
    | assumption | apply coachFault_same_drays | apply parkLanes_same_drays | apply modCoach_same_drays | apply drays_to
    | (refine drays_snd (by assumption) ?_) | extract_lets | split


theorem coachRead_same_drays {s} {k} {pa} {n} {leaf} {bypass} {strm} (h_s : Drays D s) :
    Drays D (coachRead s k pa n leaf bypass strm).2 := by
  unfold coachRead
  with_reducible repeat' first
    | assumption | apply homeFirst_same_drays | apply readPath_same_drays | apply leaseCounts_same_drays | extract_lets | split

theorem nestFrame_same_drays {s} {k} {va} (h_s : Drays D s) : Drays D (nestFrame s k va).2 := by
  unfold nestFrame
  with_reducible repeat' first
    | assumption | apply ownPieces_same_drays | apply coachRead_same_drays | apply writeFrame_same_drays | apply drays_to
    | (refine drays_snd (by assumption) ?_) | extract_lets | split


theorem fatalTrap_same_drays {s} {k} {t} {flags} (h_s : Drays D s) : Drays D (fatalTrap s k t flags) := by
  unfold fatalTrap
  with_reducible repeat' first
    | assumption | apply logError_same_drays | apply beginHalt_same_drays | apply setCoach_same_drays | apply nestFrame_same_drays
    | apply writeFrame_same_drays
    | apply modCoach_same_drays | apply haltRake_same_drays | apply awaitFrame_same_drays | apply drays_to
    | (refine drays_snd (by assumption) ?_) | extract_lets | split | (refine drays_of ?_; dsimp only) | dsimp only
    | dsimp +zetaDelta only

theorem enterHandler_same_drays {s} {k} {t} (h_s : Drays D s) : Drays D (enterHandler s k t) := by
  unfold enterHandler
  with_reducible repeat' first
    | assumption | apply awaitFrame_same_drays | apply fatalTrap_same_drays | apply writeFrame_same_drays | apply parkLanes_same_drays
    | apply modCoach_same_drays
    | (refine drays_snd (by assumption) ?_) | extract_lets | split

theorem takeTrap_same_drays {s} {k} (h_s : Drays D s) : Drays D (takeTrap s k) := by
  unfold takeTrap
  with_reducible repeat' first
    | assumption | apply setCoach_same_drays | apply commitAll_same_drays | apply modCoach_same_drays | apply enterHandler_same_drays
    | apply drays_to | (refine drays_snd (by assumption) ?_) | extract_lets | split


theorem raiseTrap_same_drays {s} {k} {t} (h_s : Drays D s) : Drays D (raiseTrap s k t) := by
  unfold raiseTrap
  with_reducible repeat' first | assumption | apply takeTrap_same_drays | apply modCoach_same_drays

theorem addPend_same_drays {s} {f} {p} (h_s : Drays D s) : Drays D (addPend s f p) := by
  unfold addPend
  with_reducible repeat' first | assumption | apply drays_to | (refine drays_of ?_; dsimp only)

theorem waitFault_same_drays {s} {ctx} {va} {region} {die} {version} {e} {acc} (h_s : Drays D s) :
    Drays D (waitFault s ctx va region die version e acc).2 := by
  unfold waitFault
  with_reducible repeat' first | assumption | apply joinFault_same_drays

theorem forgetSession_same_drays {s} {key} (h_s : Drays D s) : Drays D (forgetSession s key) := by
  unfold forgetSession
  with_reducible repeat' first | assumption | apply drays_to | (refine drays_of ?_; dsimp only)

theorem respond_same_drays {s} {port} {w} (h_s : Drays D s) : Drays D (respond s port w) := by
  unfold respond
  with_reducible repeat' first | assumption | apply drays_to | extract_lets | split | (refine drays_of ?_; dsimp only)

theorem loseRecord_same_drays {s} {key} (h_s : Drays D s) : Drays D (loseRecord s key) := by
  unfold loseRecord
  with_reducible repeat' first
    | assumption | apply forgetSession_same_drays | apply respond_same_drays | apply drays_to | split
    | (refine drays_of ?_; dsimp only)

theorem writeRecord_same_drays {s} {key} (h_s : Drays D s) : Drays D (writeRecord s key) := by
  unfold writeRecord
  repeat' first
    | with_reducible assumption | with_reducible apply ownWriteV_same_drays | with_reducible apply forgetSession_same_drays
    | with_reducible apply respond_same_drays | with_reducible apply waitFault_same_drays | with_reducible apply addPend_same_drays
    | with_reducible apply loseRecord_same_drays | with_reducible apply logError_same_drays
    | (refine drays_snd (by with_reducible assumption) ?_) | extract_lets | split | (refine drays_of ?_; dsimp only)

theorem finishClose_same_drays {s} {die} {key} (h_s : Drays D s) : Drays D (finishClose s die key) := by
  unfold finishClose
  with_reducible repeat' first
    | assumption | apply writeRecord_same_drays | apply drays_to | extract_lets | (refine drays_of ?_; dsimp only)

theorem voidSession_same_drays {s} {key} {cause} (h_s : Drays D s) : Drays D (voidSession s key cause) := by
  unfold voidSession
  with_reducible repeat' first
    | assumption | apply finishClose_same_drays | apply writeRecord_same_drays | apply drays_to | extract_lets | split
    | (refine drays_of ?_; dsimp only)

theorem voidSessions_same_drays {s} {sel} {cause} (h_s : Drays D s) : Drays D (voidSessions s sel cause) := by
  unfold voidSessions
  with_reducible repeat' first | assumption | apply voidSession_same_drays | apply drays_foldl | (intro _) | extract_lets | split

theorem clearRevoked_same_drays {s} (h_s : Drays D s) : Drays D (clearRevoked s) := by
  unfold clearRevoked
  with_reducible repeat' first
    | assumption | (intro _) | apply drays_to | extract_lets | split | (refine drays_of ?_; dsimp only)


theorem setTile_same_drays {s} {tk} {t} (h_s : Drays D s) : Drays D (setTile s tk t) := by
  unfold setTile
  with_reducible repeat' first | assumption | apply drays_to | (refine drays_of ?_; dsimp only)

theorem writeCompletion_same_drays {s} {r} (h_s : Drays D s) : Drays D (writeCompletion s r).2 := by
  unfold writeCompletion
  with_reducible repeat' first
    | assumption | apply writeOwn_same_drays | apply ownWriteV_same_drays | apply ownPieces_same_drays | apply ownWrite_same_drays
    | apply l2System_same_drays
    | apply drays_foldl2 | (refine drays_snd (by assumption) ?_) | (intro _) | split

theorem completeRegion_setRegion_drays {s} {k} {r} (h_s : Drays D s) : Drays D (completeRegion.setRegion_ s k r) := by
  unfold completeRegion.setRegion_
  with_reducible repeat' first | assumption | apply drays_to | (refine drays_of ?_; dsimp only)

theorem completeRegion_same_drays {s} {a} {z2} (h_s : Drays D s) : Drays D (completeRegion s a z2) := by
  induction a generalizing s z2 with
  | zero =>
    unfold completeRegion
    with_reducible repeat' first
      | assumption
  | succ n ih =>
    unfold completeRegion
    with_reducible repeat' first
      | assumption | apply ih | apply writeCompletion_same_drays | apply waitFault_same_drays | apply addPend_same_drays
      | apply completeRegion_setRegion_drays | (refine drays_snd (by assumption) ?_) | extract_lets | split

theorem checkRegion_same_drays {s} {rg} (h_s : Drays D s) : Drays D (checkRegion s rg) := by
  unfold checkRegion
  with_reducible repeat' first | assumption | apply completeRegion_same_drays | split

theorem releasePins_same_drays {s} (h_s : Drays D s) : Drays D (releasePins s) := by
  unfold releasePins
  with_reducible repeat' first | assumption | apply drays_to | extract_lets | (refine drays_of ?_; dsimp only)

theorem createRake_same_drays {s} {rg} {stage} {slot} (h_s : Drays D s) : Drays D (createRake s rg stage slot) := by
  unfold createRake
  repeat' first
    | with_reducible assumption | with_reducible apply drays_to | extract_lets | split
    | (refine drays_of ?_; dsimp only)

theorem fillSlot_same_drays {s} {rg} {st} {slot} {ready} (h_s : Drays D s) : Drays D (fillSlot s rg st slot ready) := by
  unfold fillSlot
  with_reducible repeat' first | assumption | apply modRake_same_drays | apply createRake_same_drays | (intro _) | split

theorem refillSlot_same_drays {s} {rg} {st} {slot} (h_s : Drays D s) : Drays D (refillSlot s rg st slot) := by
  unfold refillSlot
  with_reducible repeat' first | assumption | apply fillSlot_same_drays | apply modRegion_same_drays | split

theorem endRake_same_drays {s} {rk} (h_s : Drays D s) : Drays D (endRake s rk) := by
  unfold endRake
  with_reducible repeat' first
    | assumption | apply voidSessions_same_drays | apply releasePins_same_drays | apply checkRegion_same_drays | apply refillSlot_same_drays
    | apply drays_to | extract_lets | split | (refine drays_of ?_; dsimp only)

theorem checkRake_same_drays {s} {rk} (h_s : Drays D s) : Drays D (checkRake s rk) := by
  unfold checkRake
  with_reducible repeat' first | assumption | apply endRake_same_drays | split

theorem drayRelease_same_drays {s} {dk} {agt} (h_s : Drays D s) : Drays D (drayRelease s dk agt) := by
  unfold drayRelease
  with_reducible repeat' first | assumption | apply releaseGlobal_same_drays | apply l2System_same_drays | extract_lets | split

theorem deliverPromise_same_drays {s} {rake} {k} {c} (h_s : Drays D s) : Drays D (deliverPromise s rake k c) := by
  unfold deliverPromise
  with_reducible repeat' first | assumption | apply modRake_same_drays | apply modCoach_same_drays | apply drays_foldl | (intro _) | split

theorem drayAcquire_same_drays {s} {dk} {agt} (h_s : Drays D s) : Drays D (drayAcquire s dk agt) := by
  unfold drayAcquire
  with_reducible repeat' first | assumption | apply acquireGlobal_same_drays | apply l2System_same_drays | extract_lets | split

theorem wakeAcquire_same_drays {s} {co} {w} (h_s : Drays D s) : Drays D (wakeAcquire s co w) := by
  unfold wakeAcquire
  with_reducible repeat' first | assumption | apply acquireGlobal_same_drays | extract_lets | split

theorem releaseTile_same_drays {s} {k} {t} (h_s : Drays D s) : Drays D (releaseTile s k t) := by
  unfold releaseTile
  with_reducible repeat' first | assumption | apply setTile_same_drays | apply modCoach_same_drays

theorem wakeOne_same_drays {s} {k} {l} (h_s : Drays D s) : Drays D (wakeOne s k l) := by
  unfold wakeOne
  with_reducible repeat' first
    | assumption | apply wakeAcquire_same_drays | apply releaseTile_same_drays | apply modCoach_same_drays | apply raiseTrap_same_drays
    | extract_lets | split | dsimp +zetaDelta only

theorem wakeReady_same_drays {s} {k} (h_s : Drays D s) : Drays D (wakeReady s k) := by
  unfold wakeReady
  with_reducible repeat' first | assumption | apply wakeOne_same_drays | apply drays_foldl | (intro _)

theorem wakeCoaches_same_drays {s} {sel} (h_s : Drays D s) : Drays D (wakeCoaches s sel) := by
  unfold wakeCoaches
  with_reducible repeat' first | assumption | apply wakeReady_same_drays | apply drays_foldl

/-! ### A context that stops -/

/-- A release and an acquire of a dray context leave every context as it stands. -/
theorem drayAcquire_dray (s : State) (dk agt : Nat) : (drayAcquire s dk agt).drays = s.drays := drayAcquire_same_drays rfl
theorem drayRelease_dray (s : State) (dk agt : Nat) : (drayRelease s dk agt).drays = s.drays := drayRelease_same_drays rfl

/-- The end of the waits of TLW concerns no context that waits in none. -/
theorem wakeTlw_other (s : State) (x dk : Nat) (h : ∀ e ∈ s.drays, e.1 = dk → e.2.tlw = none) :
    Machine.drayOf (stopDray.wakeTlw s x) dk = Machine.drayOf s dk := by
  have key : ∀ (l : Tbl Dray) (t : State), (∀ e ∈ l, e.1 = dk → e.2.tlw = none) →
      Machine.drayOf (l.foldl (fun s e => match e.2.tlw with
        | some (h, n, agt, stg) =>
          if handleKey h = some x ∧ timelineMet s x h n = true then
            let s := if stg = 1 then s else drayAcquire s e.1 agt
            setDray s e.1 { e.2 with state := 1, tlw := none, pc := e.2.pc + 4 }
          else s
        | none => s) t) dk = Machine.drayOf t dk := by
    intro l
    induction l with
    | nil => intros; rfl
    | cons e l ih =>
      intro t hl
      rw [List.foldl_cons, ih _ (fun e he => hl e (List.mem_cons_of_mem _ he))]
      have h0 := hl e List.mem_cons_self
      split
      · rename_i heq
        split
        · have hne : e.1 ≠ dk := fun hk => by rw [h0 hk] at heq; cases heq
          simp only [Machine.drayOf, setDray, tgetD, tget_tput_ne _ _ hne]
          split
          · rfl
          · rw [drayAcquire_dray]
        · rfl
      · rfl
  exact key s.drays s h

/-- A CONTEXT STOPS: what its record becomes, whatever else the stop brings about. -/
theorem stopDray_dray (s : State) (dk st code : Nat) (h : ∀ e ∈ s.drays, e.1 = dk → e.2.tlw = none) :
    Machine.drayOf (stopDray s dk st code) dk = { Machine.drayOf s dk with
      state := st, fcode := code, timeline := (Machine.drayOf s dk).timeline + 1, data := none, load := none
      loadGen := none, tlw := none, parked := none, word := none, ahead := [], drain := false } := by
  have h1 : Machine.drayOf (drayRelease s dk 4) dk = Machine.drayOf s dk := by simp only [Machine.drayOf, drayRelease_dray]
  unfold stopDray
  extract_lets s1 d d' s2 s3 s4 s5 s6
  have hd : d = Machine.drayOf s dk := h1
  have e2 : s2.drays = tput s.drays dk d' := by
    show (clearRevoked (setDray s1 dk d')).drays = _
    rw [clearRevoked_same_drays (D := (setDray s1 dk d').drays) rfl]
    show tput s1.drays dk d' = _
    rw [show s1.drays = s.drays from drayRelease_dray s dk 4]
  have e3 : s3.drays = s2.drays := by
    show Drays s2.drays s3
    dsimp only [s3]
    split
    · split
      · exact deliverPromise_same_drays rfl
      · rfl
    · rfl
  have e4 : s4.drays = s3.drays := modRake_same_drays rfl
  have e6 : s6.drays = s5.drays := wakeCoaches_same_drays rfl
  have e7 : (checkRake s6 d.rake).drays = s6.drays := checkRake_same_drays rfl
  have ho : ∀ e ∈ s4.drays, e.1 = dk → e.2.tlw = none := by
    rw [e4, e3, e2]
    intro e he hk
    rcases mem_tput he with rfl | he
    · rfl
    · exact h e he hk
  have e5 : Machine.drayOf s5 dk = Machine.drayOf s4 dk := wakeTlw_other s4 dk dk ho
  calc Machine.drayOf (checkRake s6 d.rake) dk = Machine.drayOf s5 dk := by simp only [Machine.drayOf, e7, e6]
    _ = Machine.drayOf s4 dk := e5
    _ = d' := by simp only [Machine.drayOf, e4, e3, e2, tgetD_tput_self]
    _ = _ := by rw [show d' = { d with state := st, fcode := code, timeline := d.timeline + 1, data := none, load := none
                                       loadGen := none, tlw := none, parked := none, word := none, ahead := [], drain := false } from rfl, hd]

end Sys2Proof.Laws
end

