-- ==== Sys2Proof/Laws/Events.lean ====
section
/-! SUPPORT. Vectors, the error log, commands, messages, requests and the feature register: what each shared operation leaves. -/
namespace Sys2Proof.Laws
open Sys2Proof Sys2Proof.Machine

theorem raiseVector_softErrors (s a b) : (raiseVector s a b).softErrors = s.softErrors := by unfold raiseVector; split <;> rfl

theorem raiseVector_poison (s a b) : (raiseVector s a b).poison = s.poison := by unfold raiseVector; split <;> rfl

theorem raiseVector_ctrs (s a b) : (raiseVector s a b).ctrs = s.ctrs := by unfold raiseVector; split <;> rfl

theorem raiseVector_pf (s a b) : (raiseVector s a b).pf = s.pf := by unfold raiseVector; split <;> rfl

theorem raiseVector_mem (s a b) : (raiseVector s a b).mem = s.mem := by unfold raiseVector; split <;> rfl

theorem mem_raiseVector (s a b) : (a, b) ∈ (raiseVector s a b).msix := by
  unfold raiseVector; split
  · rename_i h; simpa using h
  · simp

theorem raiseVector_flowFails (s a b) : (raiseVector s a b).flowFails = s.flowFails := by unfold raiseVector; split <;> rfl

theorem raiseVector_tlbs (s a b) : (raiseVector s a b).tlbs = s.tlbs := by unfold raiseVector; split <;> rfl

theorem raiseVector_parts (s a b) : (raiseVector s a b).parts = s.parts := by unfold raiseVector; split <;> rfl

theorem logError_softErrors (s a b d c e f g) : (logError s a b d c e f g).softErrors = s.softErrors := by
  unfold logError; simp only [physWrite]
  generalize (if d = 0 then 0 else 1 : Nat) = z
  repeat' split
  all_goals first | rfl | exact raiseVector_softErrors _ _ _

theorem correctedError_softErrors (s a b c) : (correctedError s a b c).softErrors = s.softErrors := by
  unfold correctedError; simp only []; split
  · rw [logError_softErrors]
  · rfl

theorem setPoison_softErrors (s l) : (setPoison s l).softErrors = s.softErrors := by unfold setPoison; split <;> rfl

theorem meetSoftError_softErrors (s l) : (meetSoftError s l).softErrors = tdel s.softErrors l := by
  unfold meetSoftError
  split
  · rename_i h
    unfold tdel
    rw [List.filter_eq_self.2]
    intro e he
    simp only [bne_iff_ne]
    rintro rfl
    have : ∀ (t : Tbl Bool), e ∈ t → tget t e.1 ≠ none := by
      intro t; induction t with
      | nil => simp
      | cons x t ih =>
        obtain ⟨a, w⟩ := x
        intro h; simp only [tget]; split
        · simp
        · rcases List.mem_cons.1 h with rfl | h
          · rename_i hh; simp at hh
          · exact ih h
    exact this _ he h
  · simp only []; split
    · rw [correctedError_softErrors]
    · rw [logError_softErrors, setPoison_softErrors]

theorem logError_poison (s a b d c e f g) : (logError s a b d c e f g).poison = s.poison := by
  unfold logError; simp only [physWrite]
  generalize (if d = 0 then 0 else 1 : Nat) = z
  repeat' split
  all_goals first | rfl | exact raiseVector_softErrors _ _ _ | exact raiseVector_poison _ _ _

theorem logError_flowFails (s a b d c e f g) : (logError s a b d c e f g).flowFails = s.flowFails := by
  unfold logError; simp only [physWrite]
  generalize (if d = 0 then 0 else 1 : Nat) = z
  repeat' split
  all_goals first | rfl | exact raiseVector_softErrors _ _ _ | exact raiseVector_poison _ _ _ | exact raiseVector_flowFails _ _ _

theorem cmdAt_of {s pk p c n} (hp : tget s.ports pk = some p) (hc : headCmd p = some c) (h1 : c.headOk = true) (h2 : c.cmd = n) :
   cmdAt s pk n = some (p, c) := by simp [cmdAt, hp, hc, h1, h2]

theorem takeMsg_of {s ctx q x m s1 k f} (hq : queueAt s ctx q = some x) (hw : x.waiting = none) (ht : x.torn = false)
    (hd : x.discard = 0) (hm : readMsg s ctx q = .msg m s1) (hk : msgOk m = true) (h : msgNum m 0 1 = k) :
    takeMsg s ctx q k f = f x m s1 := by
  unfold takeMsg; simp [hq, hw, ht, hd, hm, hk, h]

theorem whenReady_of {s t : State} (h : s.pf.ready = true) : whenReady s t = t := by simp [whenReady, h]

theorem whenReady_not {s t : State} (h : s.pf.ready = false) : whenReady s t = s := by simp [whenReady, h]

theorem modCtx_some {s : State} {n c} (h : tget s.ctxs n = some c) (f) : modCtx s n f = { s with ctxs := tput s.ctxs n (f c) } := by
  simp [modCtx, tmod, h]

theorem revokeSlot_parts (l : List Nat) (s : State) : (l.foldl revokeSlot s).parts = s.parts := by
  induction l generalizing s with
  | nil => rfl
  | cons a l ih => rw [List.foldl_cons, ih]; rfl

theorem pot_free {s pa} (h : potOf s pa = PotE.free) : (potOf s pa).world = 0 ∧ (potOf s pa).state = 0 ∧ (potOf s pa).poison = false := by rw [h]; exact ⟨rfl, rfl, rfl⟩

theorem if_lt_eq_min (size : Nat) : (if size < 8 then size else 8) = min size 8 := by split <;> omega

theorem potOf_near {s pa k} (h : pa % 64 + k < 64) : potOf s (pa + k) = potOf s pa := by
  have h1 : (pa + k) / 4096 = pa / 4096 := by omega
  have h2 : isDram (pa + k) = isDram pa := by
    rw [Bool.eq_iff_iff]; simp only [isDram, Bool.or_eq_true, decide_eq_true_eq]; omega
  unfold potOf; rw [h1, h2]

theorem potSeen_near {s pa k} (h : pa % 64 + k < 64) : potSeen s (pa + k) = potSeen s pa := by
  have h1 : (pa + k) / 4096 = pa / 4096 := by omega
  unfold potSeen; rw [h1, potOf_near h]

theorem refusedAt_open {s pa n} (h : potSeen s pa = PotE.free) (h3 : pa % 64 + n ≤ 64) : refusedAt s pa n = none := by
  have h4 : potSeen s (pa + (n - 1)) = PotE.free := by rw [potSeen_near (by omega), h]
  simp [refusedAt, shared, h, h4, PotE.free]

/-- A page of another world, and one whose entry cannot be read, refuse the access. -/
theorem refusedAt_world {s pa n} (h : (potOf s pa).world ≠ 0) : refusedAt s pa n = some pa := by
  have : shared s pa = false := by
    unfold shared potSeen; split <;> simp [h]
  simp [refusedAt, this]

/-- An access from outside within one line: the line is brought in, then read or written. -/
theorem outside_access (s : State) (w : Bool) (pa n : Nat) (v : Dword) :
    outsideAccess s w pa n v = (if w then ownWrite (ownFill s 0 pa n) 0 pa (leBytes n v.toNat)
      else { ownFill s 0 pa n with hostRead := BitVec.ofNat 64 (leNat (ownRead (ownFill s 0 pa n) pa n)) }) := rfl

/-- A request with none waiting before it, of a code that a request has, whose path is given and whose block is good. -/
theorem request_ok {s src block code len path zeros f} (hq : s.portil.queue = []) (ht : s.portil.taken = none)
    (hc : 0 < code ∧ code ≤ 10) (h1 : imgNum block 0 2 = code) (h2 : path = true) (h3 : blockGood block len zeros = true) :
    request s src block code len path zeros f = f s := by
  unfold request perform; simp [hq, ht, h1, h2, h3]; omega

/-- The same from a path that may not make it. -/
theorem request_no {s src block code len path zeros f} (hq : s.portil.queue = []) (ht : s.portil.taken = none)
    (hc : 0 < code ∧ code ≤ 10) (h1 : imgNum block 0 2 = code) (h2 : path = false) :
    request s src block code len path zeros f = answerReq s src block 4 [] := by
  unfold request perform; simp [hq, ht, h1, h2, stAuth]; omega

/-- The same with a block that is not good. -/
theorem request_bad {s src block code len path zeros f} (hq : s.portil.queue = []) (ht : s.portil.taken = none)
    (hc : 0 < code ∧ code ≤ 10) (h1 : imgNum block 0 2 = code) (h2 : path = true) (h3 : blockGood block len zeros = false) :
    request s src block code len path zeros f = answerReq s src block 1 [] := by
  unfold request perform; simp [hq, ht, h1, h2, h3, stBadarg]

/-- A code that no request has is answered BADARG. -/
theorem request_unknown {s src block code len path zeros f} (hq : s.portil.queue = []) (ht : s.portil.taken = none)
    (hc : imgNum block 0 2 = 0 ∨ 10 < imgNum block 0 2) :
    request s src block code len path zeros f = answerReq s src block 1 [] := by
  unfold request perform; simp [hq, ht, hc, stBadarg]

/-- A request that comes while others wait joins their queue. -/
theorem request_waits {s src block code len path zeros f} (hq : s.portil.queue ≠ []) (ht : s.portil.taken = none) :
    request s src block code len path zeros f
      = { s with portil := { s.portil with queue := s.portil.queue ++ [(src, block)] } } := by
  unfold request; simp [hq, ht]

theorem revokes_portil (l : List Nat) (s : State) : (l.foldl revokeSlot s).portil = s.portil := by
  induction l generalizing s with
  | nil => rfl
  | cons a l ih => rw [List.foldl_cons, ih]; rfl

theorem cover_portil (l : List Nat) (s : State) :
   (l.foldl (fun s w => { s with worlds := tmod s.worlds w (fun x => { x with covered := true }) }) s).portil = s.portil := by
  induction l generalizing s with
  | nil => rfl
  | cons a l ih => rw [List.foldl_cons, ih]

theorem div_mod_of_lt (q r p b : Nat) (hr : r < b) : (q * b + r) / b % p = q % p := by
  have hb : 0 < b := by omega
  rw [Nat.add_comm, Nat.add_mul_div_right _ _ hb, Nat.div_eq_of_lt hr, Nat.zero_add]

theorem setFeat_toNat (f : BitVec 128) (hi lo v : Nat) (h : lo ≤ hi) (h2 : hi < 128) :
   (setFeat f hi lo v).toNat = (f.toNat / 2 ^ (hi + 1) * 2 ^ (hi + 1 - lo) + v % 2 ^ (hi + 1 - lo)) * 2 ^ lo + f.toNat % 2 ^ lo := by
  have hW : 2 ^ (hi + 1) = 2 ^ (hi + 1 - lo) * 2 ^ lo := by rw [← Nat.pow_add]; congr 1; omega
  have h128 : 2 ^ 128 = 2 ^ (128 - (hi + 1)) * 2 ^ (hi + 1) := by rw [← Nat.pow_add]; congr 1; omega
  have hf := f.isLt
  unfold setFeat field
  rw [BitVec.toNat_ofNat]
  generalize f.toNat = x at *
  have hL : 0 < 2 ^ lo := Nat.pos_of_ne_zero (by simp)
  have hP : 0 < 2 ^ (hi + 1 - lo) := Nat.pos_of_ne_zero (by simp)
  have hq : x / 2 ^ (hi + 1) < 2 ^ (128 - (hi + 1)) := by
    rw [Nat.div_lt_iff_lt_mul (Nat.pos_of_ne_zero (by simp)), ← h128]; exact hf
  have e1 : x / 2 ^ lo / 2 ^ (hi + 1 - lo) = x / 2 ^ (hi + 1) := by rw [Nat.div_div_eq_div_mul, hW, Nat.mul_comm]
  have e2 := Nat.div_add_mod (x / 2 ^ lo) (2 ^ (hi + 1 - lo))
  have e3 := Nat.div_add_mod x (2 ^ lo)
  rw [e1] at e2
  have e4 : v % 2 ^ (hi + 1 - lo) < 2 ^ (hi + 1 - lo) := Nat.mod_lt _ hP
  have e5 : x % 2 ^ lo < 2 ^ lo := Nat.mod_lt _ hL
  rw [hW] at h128
  rw [h128]
  generalize 2 ^ lo = L at *
  generalize 2 ^ (hi + 1 - lo) = P at *
  generalize 2 ^ (128 - (hi + 1)) = Q at *
  generalize x / 2 ^ (hi + 1) = q at *
  generalize v % P = u at *
  generalize x / L % P = m at *
  generalize x % L = r at *
  have e6 : x - m * L + u * L = (q * P + u) * L + r := by
    have : x = L * (P * q + m) + r := by rw [e2, e3]
    have h3 : x = (q * P) * L + m * L + r := by rw [this]; ring
    rw [Nat.add_mul]; omega
  rw [e6]
  apply Nat.mod_eq_of_lt
  calc (q * P + u) * L + r < (q * P + u) * L + L := by omega
    _ = (q * P + u + 1) * L := by ring
    _ ≤ (q * P + P) * L := Nat.mul_le_mul_right _ (by omega)
    _ = ((q + 1) * P) * L := by ring
    _ ≤ (Q * P) * L := Nat.mul_le_mul_right _ (Nat.mul_le_mul_right _ (by omega))
    _ = Q * (P * L) := by ring

theorem bit_setFeat (f : BitVec 128) (hi lo v : Nat) (h : lo ≤ hi) (h2 : hi < 128) (i : Nat) :
   (setFeat f hi lo v).toNat.testBit i = if lo ≤ i ∧ i ≤ hi then v.testBit (i - lo) else f.toNat.testBit i := by
  rw [setFeat_toNat f hi lo v h h2]
  rw [Nat.mul_comm, Nat.mul_comm (f.toNat / 2 ^ (hi + 1))]
  rw [Nat.testBit_two_pow_mul_add _ (Nat.mod_lt _ (Nat.pos_of_ne_zero (by simp)))]
  by_cases h1 : i < lo
  · rw [if_pos h1, if_neg (by omega), Nat.testBit_mod_two_pow]; simp [h1]
  · rw [if_neg h1, Nat.testBit_two_pow_mul_add _ (Nat.mod_lt _ (Nat.pos_of_ne_zero (by simp)))]
    by_cases h3 : i ≤ hi
    · rw [if_pos (by omega), if_pos (by omega), Nat.testBit_mod_two_pow]; simp; omega
    · rw [if_neg (by omega), if_neg (by omega), Nat.testBit_div_two_pow]; congr 1; omega

theorem bit_field (x hi lo i : Nat) : (field x hi lo).testBit i = (decide (i < hi + 1 - lo) && x.testBit (i + lo)) := by
  unfold field; rw [Nat.testBit_mod_two_pow, Nat.testBit_div_two_pow]

theorem field_setFeat (f : BitVec 128) (hi lo v : Nat) (h : lo ≤ hi) (h2 : hi < 128) :
    field (setFeat f hi lo v).toNat hi lo = v % 2 ^ (hi + 1 - lo) := by
  apply Nat.eq_of_testBit_eq; intro i
  rw [bit_field, bit_setFeat f hi lo v h h2, Nat.testBit_mod_two_pow]
  by_cases hi' : i < hi + 1 - lo
  · rw [if_pos (by omega), Nat.add_sub_cancel]
  · simp [hi']

/-- A fill of L2 leaves the poison as it is; a read there does where no error is still to be met. -/
theorem l2Fill_clean (s : State) (line ctx : Nat) : (l2Fill s line ctx).poison = s.poison ∧ (l2Fill s line ctx).softErrors = s.softErrors := by
  have hw : ∀ (s : State) (c : CLine), (l2Evict s c).poison = s.poison ∧ (l2Evict s c).softErrors = s.softErrors := by
    intro s c; unfold l2Evict l2WriteBack; split <;> exact ⟨rfl, rfl⟩
  have hr : ∀ (s : State) (n : Nat), (l2Room s n).poison = s.poison ∧ (l2Room s n).softErrors = s.softErrors := by
    intro s n; unfold l2Room
    simp only []
    split
    · exact ⟨rfl, rfl⟩
    · split
      · exact hw _ _
      · exact ⟨rfl, rfl⟩
  have hc : ∀ (s : State) (n : Nat), (countAccess s n).poison = s.poison ∧ (countAccess s n).softErrors = s.softErrors := by
    intro s n; unfold countAccess; simp only []; split <;> exact ⟨rfl, rfl⟩
  unfold l2Fill
  split
  · exact ⟨rfl, rfl⟩
  · exact ⟨(hr _ _).1.trans (hc _ _).1, (hr _ _).2.trans (hc _ _).2⟩

theorem l2Read_clean {s : State} (h : s.softErrors = []) (line ctx : Nat) :
    (l2Read s line ctx).poison = s.poison ∧ (l2Read s line ctx).softErrors = [] := by
  have e : meetSoftError s line = s := by simp [meetSoftError, h, tget]
  unfold l2Read; rw [e]
  exact ⟨(l2Fill_clean s line ctx).1, (l2Fill_clean s line ctx).2.trans h⟩

theorem ownFill_clean {s : State} (h : s.softErrors = []) (ctx a n : Nat) :
    (ownFill s ctx a n).poison = s.poison ∧ (ownFill s ctx a n).softErrors = [] := by
  unfold ownFill
  generalize linesOf a n = l
  induction l generalizing s with
  | nil => exact ⟨rfl, h⟩
  | cons x l ih =>
    have := l2Read_clean h x.1 ctx
    exact ⟨(ih this.2).1.trans this.1, (ih this.2).2⟩

/-- Reading pieces at their homes leaves the poison as it is, where no error is still to be met (12 R465). -/
theorem fillOwn_clean {s : State} (h : s.softErrors = []) (ctx : Nat) (ps : List OwnPiece) :
    (fillOwn s ctx ps).poison = s.poison ∧ (fillOwn s ctx ps).softErrors = [] := by
  unfold fillOwn
  induction ps generalizing s with
  | nil => exact ⟨rfl, h⟩
  | cons p ps ih =>
    rw [List.foldl_cons]
    split
    · exact ih h
    · have := ownFill_clean h ctx p.1 p.2.1
      exact ⟨(ih this.2).1.trans this.1, (ih this.2).2⟩

/-- Where no line is poisoned, and no piece lies in a peer's window, the pieces are good (12 R467, 15 R498). -/
theorem poisonOwn_clean {s : State} {ps : List OwnPiece} (h : s.poison = [])
    (hp : ps.all (fun p => (linesOf p.1 p.2.1).all (fun x => (peerLink (x.1 * 64)).isNone)) = true) : poisonOwn s ps = none := by
  unfold poisonOwn
  rw [List.findSome?_eq_none_iff]
  intro p hm
  have hq := List.all_eq_true.1 hp p hm
  unfold poisonIn poisonAt
  rw [Option.map_eq_none_iff, List.find?_eq_none]
  intro x hx
  have := List.all_eq_true.1 hq x hx
  simp only [Option.isNone_iff_eq_none] at this
  simp [linePoison, windowClosed, this, isPoisoned, h]

end Sys2Proof.Laws
end

