-- ==== Sys2Proof/Laws/Integer.lean ====
section
/-! SUPPORT. The arithmetic of lane operations in terms of bit vectors: clamping, sources below their width, and shifts. -/
namespace Sys2Proof.Laws
open Sys2Proof Sys2Proof.Machine

theorem tyMin_le (ty : Nat) : tyMin ty ≤ tyMax ty := by
  have h : (0:Int) < ((2 ^ (tyBits ty - 1) : Nat) : Int) := by positivity
  have h2 : (0:Int) < ((2 ^ (tyBits ty) : Nat) : Int) := by positivity
  unfold tyMin tyMax; split <;> omega

theorem clampInt_eq (ty : Nat) (v : Int) : clampInt (tyMin ty) (tyMax ty) v = min (max v (tyMin ty)) (tyMax ty) := by
  have := tyMin_le ty
  unfold clampInt; split
  · omega
  · split <;> omega

theorem intResult_eq (ty : Nat) (sat : Bool) (v : Int) :
    intResult ty sat v = tyOut ty (if sat then min (max v (tyMin ty)) (tyMax ty) else v) := by
  unfold intResult; rw [clampInt_eq]

theorem aVal_lt (co : Coach) (w) (l) : (aVal co w false l).toNat < 2^32 := by
  simp only [aVal, regVal, if_false, Bool.false_eq_true, BitVec.toNat_setWidth]
  have := (regWord co (fA w) 0 l).isLt
  omega

theorem bVal_lt (co : Coach) (w) (l) : (bVal co w false 0 l).toNat < 2^32 := by
  unfold bVal
  split
  · simp
  · simp only [regVal, if_false, Bool.false_eq_true, BitVec.toNat_setWidth]
    have := (regWord co (fB w) 0 l).isLt
    omega

theorem toInt_byte (v i : Nat) : (BitVec.ofNat 8 (v / 2 ^ (8 * i))).toInt = sext 8 (v / 2 ^ (8*i)) := by
  simp only [BitVec.toInt_eq_toNat_cond, BitVec.toNat_ofNat, sext]
  split <;> split <;> omega

theorem aVal_eq_low (co : Coach) (w) (l) : (aVal co w false l) = (loOf (aVal co w false l)).setWidth 64 := by
  simp only [aVal, regVal, loOf, if_false, Bool.false_eq_true]
  apply BitVec.eq_of_getLsbD_eq
  intro i hi
  simp
  grind

theorem rotateLeft_toNat (n : Nat) (hn : 0 < n) (x : BitVec n) (k : Nat) (a : Nat) (ha : a = x.toNat) : rotateLeft n a k = (x.rotateLeft k).toNat := by
  subst ha
  unfold rotateLeft
  rw [BitVec.toNat_rotateLeft]
  simp [Nat.shiftLeft_eq, Nat.shiftRight_eq_div_pow]

theorem shiftLeft_toNat (n : Nat) (x : BitVec n) (k : Nat) (a : Nat) (ha : a = x.toNat) : shiftLeft n a k = (x <<< k).toNat := by
  subst ha
  unfold shiftLeft
  rw [BitVec.toNat_shiftLeft, Nat.shiftLeft_eq]
  split
  · next h => obtain ⟨m, rfl⟩ := Nat.exists_eq_add_of_le h
              rw [Nat.pow_add]; rw [← Nat.mul_assoc, Nat.mul_comm _ (2^n), Nat.mul_assoc, Nat.mul_mod_right]
  · rfl

theorem shiftRight_toNat (n : Nat) (x : BitVec n) (k : Nat) (a : Nat) (ha : a = x.toNat) : shiftRight n a k = (x >>> k).toNat := by
  subst ha
  unfold shiftRight
  rw [BitVec.toNat_ushiftRight, Nat.shiftRight_eq_div_pow]
  split
  · next h => 
    symm
    apply Nat.div_eq_of_lt
    exact lt_of_lt_of_le x.isLt (Nat.pow_le_pow_right (by decide) h)
  · rfl

theorem sext_toNat (n : Nat) (hn : 0 < n) (x : BitVec n) : sext n x.toNat = x.toInt := by
  have := x.isLt
  unfold sext
  rw [BitVec.toInt_eq_toNat_cond]
  simp only [Nat.mod_eq_of_lt this]
  have : 2 ^ n = 2 * 2 ^ (n-1) := by rw [← Nat.pow_succ']; congr 1; omega
  split <;> split <;> omega

theorem shiftArith_toNat (n : Nat) (hn : 0 < n) (x : BitVec n) (k : Nat) (a : Nat) (ha : a = x.toNat) : shiftArith n a k = (x.sshiftRight k).toNat := by
  subst ha
  unfold shiftArith
  have key : ∀ v : Int, (BitVec.ofInt n v).toNat = wrapNat n v := by
    intro v; simp [wrapNat, BitVec.toNat_ofInt]
  have e : x.sshiftRight k = BitVec.ofInt n (x.toInt >>> k) := rfl
  rw [e, key]
  split
  · next h =>
    have hlt := x.toInt_lt
    have hle := x.le_toInt
    have hm : x.toNat.testBit (n-1) = x.msb := by rw [BitVec.msb_eq_getLsbD_last]; rfl
    rw [hm, Int.shiftRight_eq_div_pow]
    have hpow : (2:Int)^(n-1) ≤ 2^k := by exact_mod_cast Nat.pow_le_pow_right (by decide) (by omega)
    have hz := BitVec.msb_eq_toInt (x := x)
    cases hmsb : x.msb
    · have h0 : 0 ≤ x.toInt := by rw [hmsb] at hz; simpa using hz.symm
      have : x.toInt / (2^k : Nat) = 0 := by apply Int.ediv_eq_zero_of_lt h0; push_cast; omega
      rw [this]; simp [wrapNat]
    · have h0 : x.toInt < 0 := by rw [hmsb] at hz; simpa using hz.symm
      have : x.toInt / (2^k : Nat) = -1 := by
        apply Int.ediv_eq_neg_one_of_neg_of_le h0; push_cast; omega
      rw [this]; simp only [wrapNat, if_true]
      have hP : 0 < 2 ^ n := Nat.two_pow_pos n
      generalize 2 ^ n = P at hP
      rw [Int.emod_eq_add_self_emod, Int.emod_eq_of_lt] <;> omega
  · rw [Int.shiftRight_eq_div_pow, sext_toNat n hn]

end Sys2Proof.Laws
end

