-- ==== Sys2Proof/Laws/Issue.lean ====
section
/-! SUPPORT. What a clear issue gives, and the shared endings of the operations: sources as the claims name them, slots, sleeps, stalls
and tiles. -/
namespace Sys2Proof.Laws
open Sys2Proof Sys2Proof.Machine

theorem settled_of_clear {s i w sp} (h : clear s i = true) (hr : nativeRow s i = some (w, sp)) : settled s s.iss.coach = true := by
  obtain ⟨h1, -, -, -, -, -, h2, -⟩ := clear_spec h hr
  unfold settled; rw [h1]; simp [h2]

theorem enabled_of_clear {s i w sp} (h : clear s i = true) (hr : nativeRow s i = some (w, sp)) : enOf s w ≠ 0 := by
  obtain ⟨h1, h2, h3, h4, h5, h6, h7, -⟩ := clear_spec h hr
  assumption

theorem coach_of_clear {s i w sp} (h : clear s i = true) (hr : nativeRow s i = some (w, sp)) : tget s.coaches s.iss.coach = some (me s) := by
  obtain ⟨h1, -, -, -, -, -, h2, -⟩ := clear_spec h hr
  exact h1

theorem modCoach_of_clear {s i w sp} (h : clear s i = true) (hr : nativeRow s i = some (w, sp)) (f) : modCoach s s.iss.coach f = setCoach s s.iss.coach (f (me s)) := by
  simp [modCoach, tmod, coach_of_clear h hr, setCoach]

@[simp] theorem readWord_opCtx (s : State) (w : NOp) (sp : OpSpec) (co : Coach) (code j l : Nat) :
    readWord (opCtx s w sp) co code j l = regWord co code j l := by
    unfold readWord regWord; cases codeOf code <;> simp [tget]

theorem barValue_opCtx (s w sp) : barValue (opCtx s w sp) (me s) = if fI w then fImm w else (aVal (me s) w false ((lowLane (enOf s w)).getD 0)).toNat := by
  simp [barValue]

theorem handleA_opCtx (s w sp) : handleA (opCtx s w sp) (me s) = loOf (aVal (me s) w false ((lowLane (enOf s w)).getD 0)) := by
  simp [handleA]

theorem localAddrs_opCtx (s w sp) : localAddrs (opCtx s w sp) (me s) = localOf s w := by
  simp only [localAddrs, localOf, offsetOf, wordOffset, srcA_opCtx, srcB_opCtx]

theorem globalAddrs_opCtx (s w sp) : globalAddrs (opCtx s w sp) (me s) = globalOf s w := by
  simp only [globalAddrs, globalOf, offsetOf, wordOffset, srcA_opCtx, srcB_opCtx]

theorem laneAddrs_opCtx (s w sp) (p : Bool) : (lanesOf (opCtx s w sp).en).map (fun l => (l, (srcA (opCtx s w sp) (me s) p l).toNat))
   = (lanesOf (enOf s w)).map (fun l => (l, (aVal (me s) w p l).toNat)) := by
  simp only [srcA_opCtx]

theorem fits_check {addrs : List (Nat × Nat)} {b n : Nat} (h : fits addrs b n = true) :
   addrs.all (fun a => !outOfLocal b n a.2 && a.2 % n == 0) = true := by
  unfold fits at h
  rw [← h]; congr 1; funext a; simp only [outOfLocal]; congr 1; rw [Bool.eq_iff_iff]; simp

theorem inReach_check {addrs : List (Nat × Nat)} {n : Nat} (h : inReach addrs n = true) :
   addrs.all (fun a => !outOfGlobal a.2 && a.2 % n == 0) = true := h

theorem withMap_eq {s w sp addrs a f s1} (h : mapFound s w addrs a = (true, s1)) : withMap (opCtx s w sp) s addrs a f = f s1 := by
  unfold mapFound at h
  simp only [Prod.mk.injEq, Bool.and_eq_true, Option.isNone_iff_eq_none] at h
  obtain ⟨⟨h1, h2⟩, rfl⟩ := h
  exact (if_neg (by rw [Bool.not_eq_true']; exact fun e => absurd (h1.symm.trans e) (by decide))).trans (by
    show (match badFormat _ (me s) _ with
      | some pa => errorReset _ (me s).ctx pa
      | none => f _) = _
    rw [h2])

theorem wholeLanes_nil {f : Found} (h : f.bad = []) : wholeLanes f = f := by
  cases f; simp_all [wholeLanes]

theorem lanesOf_ne_nil {m : Mask} (h : m ≠ 0) : lanesOf m ≠ [] := by
  intro e; apply h
  apply BitVec.eq_of_getLsbD_eq; intro i hi
  have := (mem_lanesOf (m := m) (l := i)).not
  rw [e] at this; simp at this; simpa using this hi

theorem deliverLoad_slot {s t w sp} {tb : Tbl (List Byte)} (hl : sp.long = true) (hne : enOf s w ≠ 0) (hq : noQueue w = true) (ht : settled t s.iss.coach = true) :
    deliverLoad (opCtx s w sp) (mTy w) tb t = slottedAt t s.iss (loadedSlot s w tb) := by
  exact deliverTo_slot hl hne hq ht

theorem deliverOld_ends {s t : State} {w : NOp} {g : Bool} {old : Tbl Dword} (hne : enOf s w ≠ 0) (hq : noQueue w = true) (ht : settled t s.iss.coach = true) :
    deliverOld (opCtx s w (atomSpec w g)) old t = if fD w = 0xF0 then passedAt t s.iss
    else slottedAt t s.iss (valueSlot s w (fun l => (tgetD 0 old l).toNat)) := by
  unfold deliverOld
  by_cases hz : fD w = 0xF0
  · rw [if_pos hz]
    exact deliverTo_unused (by simp [atomSpec, aReturns, hz]) (by rw [hz]; decide) ht
  · rw [if_neg hz]
    exact deliverTo_slot (by simp [atomSpec, aReturns, hz]) hne hq ht

theorem sleepIn_settled {s t : State} {w : NOp} {sp : OpSpec} {wt} (h : settled t s.iss.coach = true) :
    sleepIn (opCtx s w sp) wt t = sleptAt s t w wt := by
  obtain ⟨h1, h2⟩ := settled_spec h
  unfold sleepIn
  simp only []
  have e : modCoach t s.iss.coach (fun co => sleepLanes (passLanes co s.iss (s.iss.group &&& ~~~enOf s w)) s.iss (enOf s w) (fun _ => wt)) = sleptAt s t w wt := by
    simp [modCoach, tmod, h1, sleptAt]
  rw [e]
  refine releaseFpe_nil ?_
  simp [sleptAt, coachOf, sleepLanes, modLanes, passLanes]
  simpa [coachOf] using h2

theorem deliver_written {s t : State} {w : NOp} {sp : OpSpec} {wide} {f : Nat → Dword}
    (hl : sp.long = false) (hq : noQueue w = true) (ht : settled t s.iss.coach = true) :
    deliver (opCtx s w sp) wide (fun l => (f l, 0)) t = writtenAt s t w (if wide then 2 else 1) (fun l j => resWord (f l) j) := by
  obtain ⟨h1, h2⟩ := settled_spec ht
  unfold deliver deliverTo
  rw [show (opCtx s w sp).w = w from rfl]
  simp only [shadowPush_false hq, pushEntry_none hq]
  simp only [hl, Bool.false_and, Bool.false_eq_true, if_false]
  rw [laneFlags_zero, raiseFlags_of_none (enabledBits_noFlags _), finishGroup_setCoach (by
    obtain ⟨v, x, hv⟩ := putWords_frame (coachOf t s.iss.coach) (laneWrites (fD w) (if wide then 2 else 1) (enOf s w) (fun l j => resWord (f l) j)) (scalarWrites (fD w) (if wide then 2 else 1) (enOf s w) (fun l j => resWord (f l) j))
    show (putWords _ _ _).fpeHeld = []
    have e : (fun (l j : Nat) => if j = 0 then loOf (f l) else hiOf (f l)) = (fun l j => resWord (f l) j) := rfl
    rw [e, hv]; exact h2)]
  have e3 : flagWord noFlags = 0 := by decide
  rw [e3]
  simp only [writtenAt]
  congr 3
  obtain ⟨v, x, hv⟩ := putWords_frame (coachOf t s.iss.coach) (laneWrites (fD w) (if wide then 2 else 1) (enOf s w) (fun l j => resWord (f l) j)) (scalarWrites (fD w) (if wide then 2 else 1) (enOf s w) (fun l j => resWord (f l) j))
  show ({ putWords _ _ _ with fstat := _ } : Coach) = _
  have e : (fun (l j : Nat) => if j = 0 then loOf (f l) else hiOf (f l)) = (fun l j => resWord (f l) j) := rfl
  rw [e, hv]; simp

theorem stallLanes_settled {s t : State} (h : settled t s.iss.coach = true) (kind) : stallLanes t s.iss.coach s.iss s.iss.group kind = stalledAt s t kind := by
  obtain ⟨h1, -⟩ := settled_spec h
  simp [stallLanes, modCoach, tmod, h1, stalledAt]

theorem laneWrites_one {d en v v'} (h : ∀ l, v l 0 = v' l 0) : laneWrites d 1 en v = laneWrites d 1 en v' := by
  unfold laneWrites; simp [List.range_succ, h]

theorem scalarWrites_one {d en v v'} (h : ∀ l, v l 0 = v' l 0) : scalarWrites d 1 en v = scalarWrites d 1 en v' := by
  unfold scalarWrites; simp [List.range_succ, h]

theorem written_one {s t w v v'} (h : ∀ l, v l 0 = v' l 0) : writtenAt s t w 1 v = writtenAt s t w 1 v' := by
  unfold writtenAt; rw [laneWrites_one h, scalarWrites_one h]

theorem heldTile_held {s w sp f} (h : (tileOf s (tileKey (coreOf (me s)) (xTile w))).holder = some s.iss.coach) :
   heldTile (opCtx s w sp) s f = f (tileKey (coreOf (me s)) (xTile w)) := by
  unfold heldTile; simp only []; rw [if_pos h]

theorem heldTile_unheld {s w sp f} (h : (tileOf s (tileKey (coreOf (me s)) (xTile w))).holder ≠ some s.iss.coach) :
   heldTile (opCtx s w sp) s f = illegal s (enOf s w) iTile 0xFF := by
  unfold heldTile; simp only []; rw [if_neg h]; rfl

theorem xVersion_opCtx {s t w sp} : xVersion (opCtx s w sp) t = (regWord (coachOf t s.iss.coach) (fC w) 0 0).extractLsb' 0 16 := by
  simp [xVersion]

theorem withVersion_accept {s w sp f tk} (h : checkVersion (tileOf s tk) ((regWord (me s) (fC w) 0 0).extractLsb' 0 16) = .accept) :
   withVersion (opCtx s w sp) s tk f = f s := by
  unfold withVersion; rw [xVersion_opCtx, h]

theorem acceptOp_settled {s t w sp tk kind cfg ra rb} (hs : settled (setTile t tk { tileOf t tk with
    queue := (tileOf t tk).queue ++ [{ v := (regWord (coachOf t s.iss.coach) (fC w) 0 0).extractLsb' 0 16, kind := kind, cfg := cfg
                                       fmts := fmtList t (coachOf t s.iss.coach), regA := ra, regB := rb, coach := s.iss.coach }] }) s.iss.coach = true) :
   acceptOp (opCtx s w sp) t tk kind cfg ra rb = passedAt (setTile t tk { tileOf t tk with
    queue := (tileOf t tk).queue ++ [{ v := (regWord (coachOf t s.iss.coach) (fC w) 0 0).extractLsb' 0 16, kind := kind, cfg := cfg
                                       fmts := fmtList t (coachOf t s.iss.coach), regA := ra, regB := rb, coach := s.iss.coach }] }) s.iss := by
  unfold acceptOp
  simp only []
  rw [xVersion_opCtx]
  exact finishGroup_settled hs

end Sys2Proof.Laws
end

