-- ==== Sys2Proof/Laws/PerInstr.lean ====
section
/-! SUPPORT. The family Shape: what every instruction is as syntax, one lemma per constructor. -/
namespace Sys2Proof.Laws.Shape

/-- An instruction has at most one kind of word: a native operation has an opcode below those of the system plate (02 R62)
and no dray word; and a step that has no word is well-formed. -/
def Statement (i : Instr) : Prop :=
  (∀ op w, nativeOf i = some (op, w) → op < 0xE0 ∧ Sys2Proof.drayOf i = none)
  ∧ (nativeOf i = none → Sys2Proof.drayOf i = none → (∀ v, i ≠ .systemPlateOp v) → i.wf = true)

theorem nop (w : NOp) : Statement (.nop w) := ⟨fun _ _ h => by cases h; exact ⟨by decide, rfl⟩, fun h => nomatch h⟩
theorem bra (w : NOp) : Statement (.bra w) := ⟨fun _ _ h => by cases h; exact ⟨by decide, rfl⟩, fun h => nomatch h⟩
theorem brx (w : NOp) : Statement (.brx w) := ⟨fun _ _ h => by cases h; exact ⟨by decide, rfl⟩, fun h => nomatch h⟩
theorem call (w : NOp) : Statement (.call w) := ⟨fun _ _ h => by cases h; exact ⟨by decide, rfl⟩, fun h => nomatch h⟩
theorem callx (w : NOp) : Statement (.callx w) := ⟨fun _ _ h => by cases h; exact ⟨by decide, rfl⟩, fun h => nomatch h⟩
theorem ret (w : NOp) : Statement (.ret w) := ⟨fun _ _ h => by cases h; exact ⟨by decide, rfl⟩, fun h => nomatch h⟩
theorem join (w : NOp) : Statement (.join w) := ⟨fun _ _ h => by cases h; exact ⟨by decide, rfl⟩, fun h => nomatch h⟩
theorem exit (w : NOp) : Statement (.exit w) := ⟨fun _ _ h => by cases h; exact ⟨by decide, rfl⟩, fun h => nomatch h⟩
theorem sleep (w : NOp) : Statement (.sleep w) := ⟨fun _ _ h => by cases h; exact ⟨by decide, rfl⟩, fun h => nomatch h⟩
theorem sleepBar (w : NOp) : Statement (.sleepBar w) := ⟨fun _ _ h => by cases h; exact ⟨by decide, rfl⟩, fun h => nomatch h⟩
theorem yield (w : NOp) : Statement (.yield w) := ⟨fun _ _ h => by cases h; exact ⟨by decide, rfl⟩, fun h => nomatch h⟩
theorem iadd (w : NOp) : Statement (.iadd w) := ⟨fun _ _ h => by cases h; exact ⟨by decide, rfl⟩, fun h => nomatch h⟩
theorem isub (w : NOp) : Statement (.isub w) := ⟨fun _ _ h => by cases h; exact ⟨by decide, rfl⟩, fun h => nomatch h⟩
theorem imul (w : NOp) : Statement (.imul w) := ⟨fun _ _ h => by cases h; exact ⟨by decide, rfl⟩, fun h => nomatch h⟩
theorem imulh (w : NOp) : Statement (.imulh w) := ⟨fun _ _ h => by cases h; exact ⟨by decide, rfl⟩, fun h => nomatch h⟩
theorem imad (w : NOp) : Statement (.imad w) := ⟨fun _ _ h => by cases h; exact ⟨by decide, rfl⟩, fun h => nomatch h⟩
theorem iaddc (w : NOp) : Statement (.iaddc w) := ⟨fun _ _ h => by cases h; exact ⟨by decide, rfl⟩, fun h => nomatch h⟩
theorem imin (w : NOp) : Statement (.imin w) := ⟨fun _ _ h => by cases h; exact ⟨by decide, rfl⟩, fun h => nomatch h⟩
theorem imax (w : NOp) : Statement (.imax w) := ⟨fun _ _ h => by cases h; exact ⟨by decide, rfl⟩, fun h => nomatch h⟩
theorem iabs (w : NOp) : Statement (.iabs w) := ⟨fun _ _ h => by cases h; exact ⟨by decide, rfl⟩, fun h => nomatch h⟩
theorem icmp (w : NOp) : Statement (.icmp w) := ⟨fun _ _ h => by cases h; exact ⟨by decide, rfl⟩, fun h => nomatch h⟩
theorem sel (w : NOp) : Statement (.sel w) := ⟨fun _ _ h => by cases h; exact ⟨by decide, rfl⟩, fun h => nomatch h⟩
theorem and (w : NOp) : Statement (.and w) := ⟨fun _ _ h => by cases h; exact ⟨by decide, rfl⟩, fun h => nomatch h⟩
theorem or (w : NOp) : Statement (.or w) := ⟨fun _ _ h => by cases h; exact ⟨by decide, rfl⟩, fun h => nomatch h⟩
theorem xor (w : NOp) : Statement (.xor w) := ⟨fun _ _ h => by cases h; exact ⟨by decide, rfl⟩, fun h => nomatch h⟩
theorem andn (w : NOp) : Statement (.andn w) := ⟨fun _ _ h => by cases h; exact ⟨by decide, rfl⟩, fun h => nomatch h⟩
theorem shl (w : NOp) : Statement (.shl w) := ⟨fun _ _ h => by cases h; exact ⟨by decide, rfl⟩, fun h => nomatch h⟩
theorem shr (w : NOp) : Statement (.shr w) := ⟨fun _ _ h => by cases h; exact ⟨by decide, rfl⟩, fun h => nomatch h⟩
theorem sar (w : NOp) : Statement (.sar w) := ⟨fun _ _ h => by cases h; exact ⟨by decide, rfl⟩, fun h => nomatch h⟩
theorem rotl (w : NOp) : Statement (.rotl w) := ⟨fun _ _ h => by cases h; exact ⟨by decide, rfl⟩, fun h => nomatch h⟩
theorem bfe (w : NOp) : Statement (.bfe w) := ⟨fun _ _ h => by cases h; exact ⟨by decide, rfl⟩, fun h => nomatch h⟩
theorem bfi (w : NOp) : Statement (.bfi w) := ⟨fun _ _ h => by cases h; exact ⟨by decide, rfl⟩, fun h => nomatch h⟩
theorem popc (w : NOp) : Statement (.popc w) := ⟨fun _ _ h => by cases h; exact ⟨by decide, rfl⟩, fun h => nomatch h⟩
theorem clz (w : NOp) : Statement (.clz w) := ⟨fun _ _ h => by cases h; exact ⟨by decide, rfl⟩, fun h => nomatch h⟩
theorem ctz (w : NOp) : Statement (.ctz w) := ⟨fun _ _ h => by cases h; exact ⟨by decide, rfl⟩, fun h => nomatch h⟩
theorem lea (w : NOp) : Statement (.lea w) := ⟨fun _ _ h => by cases h; exact ⟨by decide, rfl⟩, fun h => nomatch h⟩
theorem mov (w : NOp) : Statement (.mov w) := ⟨fun _ _ h => by cases h; exact ⟨by decide, rfl⟩, fun h => nomatch h⟩
theorem movi (w : NOp) : Statement (.movi w) := ⟨fun _ _ h => by cases h; exact ⟨by decide, rfl⟩, fun h => nomatch h⟩
theorem movhi (w : NOp) : Statement (.movhi w) := ⟨fun _ _ h => by cases h; exact ⟨by decide, rfl⟩, fun h => nomatch h⟩
theorem iadd64 (w : NOp) : Statement (.iadd64 w) := ⟨fun _ _ h => by cases h; exact ⟨by decide, rfl⟩, fun h => nomatch h⟩
theorem imad64 (w : NOp) : Statement (.imad64 w) := ⟨fun _ _ h => by cases h; exact ⟨by decide, rfl⟩, fun h => nomatch h⟩
theorem idp4 (w : NOp) : Statement (.idp4 w) := ⟨fun _ _ h => by cases h; exact ⟨by decide, rfl⟩, fun h => nomatch h⟩
theorem fadd (w : NOp) : Statement (.fadd w) := ⟨fun _ _ h => by cases h; exact ⟨by decide, rfl⟩, fun h => nomatch h⟩
theorem fsub (w : NOp) : Statement (.fsub w) := ⟨fun _ _ h => by cases h; exact ⟨by decide, rfl⟩, fun h => nomatch h⟩
theorem fmul (w : NOp) : Statement (.fmul w) := ⟨fun _ _ h => by cases h; exact ⟨by decide, rfl⟩, fun h => nomatch h⟩
theorem ffma (w : NOp) : Statement (.ffma w) := ⟨fun _ _ h => by cases h; exact ⟨by decide, rfl⟩, fun h => nomatch h⟩
theorem fmin (w : NOp) : Statement (.fmin w) := ⟨fun _ _ h => by cases h; exact ⟨by decide, rfl⟩, fun h => nomatch h⟩
theorem fmax (w : NOp) : Statement (.fmax w) := ⟨fun _ _ h => by cases h; exact ⟨by decide, rfl⟩, fun h => nomatch h⟩
theorem fcmp (w : NOp) : Statement (.fcmp w) := ⟨fun _ _ h => by cases h; exact ⟨by decide, rfl⟩, fun h => nomatch h⟩
theorem frnd (w : NOp) : Statement (.frnd w) := ⟨fun _ _ h => by cases h; exact ⟨by decide, rfl⟩, fun h => nomatch h⟩
theorem frcp (w : NOp) : Statement (.frcp w) := ⟨fun _ _ h => by cases h; exact ⟨by decide, rfl⟩, fun h => nomatch h⟩
theorem frsq (w : NOp) : Statement (.frsq w) := ⟨fun _ _ h => by cases h; exact ⟨by decide, rfl⟩, fun h => nomatch h⟩
theorem fsqrt (w : NOp) : Statement (.fsqrt w) := ⟨fun _ _ h => by cases h; exact ⟨by decide, rfl⟩, fun h => nomatch h⟩
theorem fexp2 (w : NOp) : Statement (.fexp2 w) := ⟨fun _ _ h => by cases h; exact ⟨by decide, rfl⟩, fun h => nomatch h⟩
theorem flog2 (w : NOp) : Statement (.flog2 w) := ⟨fun _ _ h => by cases h; exact ⟨by decide, rfl⟩, fun h => nomatch h⟩
theorem fsin (w : NOp) : Statement (.fsin w) := ⟨fun _ _ h => by cases h; exact ⟨by decide, rfl⟩, fun h => nomatch h⟩
theorem fcos (w : NOp) : Statement (.fcos w) := ⟨fun _ _ h => by cases h; exact ⟨by decide, rfl⟩, fun h => nomatch h⟩
theorem fclass (w : NOp) : Statement (.fclass w) := ⟨fun _ _ h => by cases h; exact ⟨by decide, rfl⟩, fun h => nomatch h⟩
theorem hadd2 (w : NOp) : Statement (.hadd2 w) := ⟨fun _ _ h => by cases h; exact ⟨by decide, rfl⟩, fun h => nomatch h⟩
theorem hmul2 (w : NOp) : Statement (.hmul2 w) := ⟨fun _ _ h => by cases h; exact ⟨by decide, rfl⟩, fun h => nomatch h⟩
theorem hfma2 (w : NOp) : Statement (.hfma2 w) := ⟨fun _ _ h => by cases h; exact ⟨by decide, rfl⟩, fun h => nomatch h⟩
theorem hmin2 (w : NOp) : Statement (.hmin2 w) := ⟨fun _ _ h => by cases h; exact ⟨by decide, rfl⟩, fun h => nomatch h⟩
theorem hmax2 (w : NOp) : Statement (.hmax2 w) := ⟨fun _ _ h => by cases h; exact ⟨by decide, rfl⟩, fun h => nomatch h⟩
theorem hdot2 (w : NOp) : Statement (.hdot2 w) := ⟨fun _ _ h => by cases h; exact ⟨by decide, rfl⟩, fun h => nomatch h⟩
theorem fdp4n (w : NOp) : Statement (.fdp4n w) := ⟨fun _ _ h => by cases h; exact ⟨by decide, rfl⟩, fun h => nomatch h⟩
theorem cvt (w : NOp) : Statement (.cvt w) := ⟨fun _ _ h => by cases h; exact ⟨by decide, rfl⟩, fun h => nomatch h⟩
theorem cvtn (w : NOp) : Statement (.cvtn w) := ⟨fun _ _ h => by cases h; exact ⟨by decide, rfl⟩, fun h => nomatch h⟩
theorem pack (w : NOp) : Statement (.pack w) := ⟨fun _ _ h => by cases h; exact ⟨by decide, rfl⟩, fun h => nomatch h⟩
theorem unpack (w : NOp) : Statement (.unpack w) := ⟨fun _ _ h => by cases h; exact ⟨by decide, rfl⟩, fun h => nomatch h⟩
theorem scalex (w : NOp) : Statement (.scalex w) := ⟨fun _ _ h => by cases h; exact ⟨by decide, rfl⟩, fun h => nomatch h⟩
theorem rand (w : NOp) : Statement (.rand w) := ⟨fun _ _ h => by cases h; exact ⟨by decide, rfl⟩, fun h => nomatch h⟩
theorem rseed (w : NOp) : Statement (.rseed w) := ⟨fun _ _ h => by cases h; exact ⟨by decide, rfl⟩, fun h => nomatch h⟩
theorem shfl (w : NOp) : Statement (.shfl w) := ⟨fun _ _ h => by cases h; exact ⟨by decide, rfl⟩, fun h => nomatch h⟩
theorem ballot (w : NOp) : Statement (.ballot w) := ⟨fun _ _ h => by cases h; exact ⟨by decide, rfl⟩, fun h => nomatch h⟩
theorem vote (w : NOp) : Statement (.vote w) := ⟨fun _ _ h => by cases h; exact ⟨by decide, rfl⟩, fun h => nomatch h⟩
theorem redx (w : NOp) : Statement (.redx w) := ⟨fun _ _ h => by cases h; exact ⟨by decide, rfl⟩, fun h => nomatch h⟩
theorem scanx (w : NOp) : Statement (.scanx w) := ⟨fun _ _ h => by cases h; exact ⟨by decide, rfl⟩, fun h => nomatch h⟩
theorem mop (w : NOp) : Statement (.mop w) := ⟨fun _ _ h => by cases h; exact ⟨by decide, rfl⟩, fun h => nomatch h⟩
theorem mpopc (w : NOp) : Statement (.mpopc w) := ⟨fun _ _ h => by cases h; exact ⟨by decide, rfl⟩, fun h => nomatch h⟩
theorem mfirst (w : NOp) : Statement (.mfirst w) := ⟨fun _ _ h => by cases h; exact ⟨by decide, rfl⟩, fun h => nomatch h⟩
theorem mact (w : NOp) : Statement (.mact w) := ⟨fun _ _ h => by cases h; exact ⟨by decide, rfl⟩, fun h => nomatch h⟩
theorem mmov (w : NOp) : Statement (.mmov w) := ⟨fun _ _ h => by cases h; exact ⟨by decide, rfl⟩, fun h => nomatch h⟩
theorem spr (w : NOp) : Statement (.spr w) := ⟨fun _ _ h => by cases h; exact ⟨by decide, rfl⟩, fun h => nomatch h⟩
theorem sprWr (w : NOp) : Statement (.sprWr w) := ⟨fun _ _ h => by cases h; exact ⟨by decide, rfl⟩, fun h => nomatch h⟩
theorem ld (w : NOp) : Statement (.ld w) := ⟨fun _ _ h => by cases h; exact ⟨by decide, rfl⟩, fun h => nomatch h⟩
theorem st (w : NOp) : Statement (.st w) := ⟨fun _ _ h => by cases h; exact ⟨by decide, rfl⟩, fun h => nomatch h⟩
theorem lds (w : NOp) : Statement (.lds w) := ⟨fun _ _ h => by cases h; exact ⟨by decide, rfl⟩, fun h => nomatch h⟩
theorem sts (w : NOp) : Statement (.sts w) := ⟨fun _ _ h => by cases h; exact ⟨by decide, rfl⟩, fun h => nomatch h⟩
theorem ldl (w : NOp) : Statement (.ldl w) := ⟨fun _ _ h => by cases h; exact ⟨by decide, rfl⟩, fun h => nomatch h⟩
theorem stl (w : NOp) : Statement (.stl w) := ⟨fun _ _ h => by cases h; exact ⟨by decide, rfl⟩, fun h => nomatch h⟩
theorem atom (w : NOp) : Statement (.atom w) := ⟨fun _ _ h => by cases h; exact ⟨by decide, rfl⟩, fun h => nomatch h⟩
theorem atoms (w : NOp) : Statement (.atoms w) := ⟨fun _ _ h => by cases h; exact ⟨by decide, rfl⟩, fun h => nomatch h⟩
theorem fence (w : NOp) : Statement (.fence w) := ⟨fun _ _ h => by cases h; exact ⟨by decide, rfl⟩, fun h => nomatch h⟩
theorem cctl (w : NOp) : Statement (.cctl w) := ⟨fun _ _ h => by cases h; exact ⟨by decide, rfl⟩, fun h => nomatch h⟩
theorem pref (w : NOp) : Statement (.pref w) := ⟨fun _ _ h => by cases h; exact ⟨by decide, rfl⟩, fun h => nomatch h⟩
theorem ipref (w : NOp) : Statement (.ipref w) := ⟨fun _ _ h => by cases h; exact ⟨by decide, rfl⟩, fun h => nomatch h⟩
theorem ipin (w : NOp) : Statement (.ipin w) := ⟨fun _ _ h => by cases h; exact ⟨by decide, rfl⟩, fun h => nomatch h⟩
theorem iunpin (w : NOp) : Statement (.iunpin w) := ⟨fun _ _ h => by cases h; exact ⟨by decide, rfl⟩, fun h => nomatch h⟩
theorem ldd (w : NOp) : Statement (.ldd w) := ⟨fun _ _ h => by cases h; exact ⟨by decide, rfl⟩, fun h => nomatch h⟩
theorem std (w : NOp) : Statement (.std w) := ⟨fun _ _ h => by cases h; exact ⟨by decide, rfl⟩, fun h => nomatch h⟩
theorem bari (w : NOp) : Statement (.bari w) := ⟨fun _ _ h => by cases h; exact ⟨by decide, rfl⟩, fun h => nomatch h⟩
theorem bara (w : NOp) : Statement (.bara w) := ⟨fun _ _ h => by cases h; exact ⟨by decide, rfl⟩, fun h => nomatch h⟩
theorem barw (w : NOp) : Statement (.barw w) := ⟨fun _ _ h => by cases h; exact ⟨by decide, rfl⟩, fun h => nomatch h⟩
theorem bars (w : NOp) : Statement (.bars w) := ⟨fun _ _ h => by cases h; exact ⟨by decide, rfl⟩, fun h => nomatch h⟩
theorem barx (w : NOp) : Statement (.barx w) := ⟨fun _ _ h => by cases h; exact ⟨by decide, rfl⟩, fun h => nomatch h⟩
theorem tbar (w : NOp) : Statement (.tbar w) := ⟨fun _ _ h => by cases h; exact ⟨by decide, rfl⟩, fun h => nomatch h⟩
theorem tlwait (w : NOp) : Statement (.tlwait w) := ⟨fun _ _ h => by cases h; exact ⟨by decide, rfl⟩, fun h => nomatch h⟩
theorem tlrd (w : NOp) : Statement (.tlrd w) := ⟨fun _ _ h => by cases h; exact ⟨by decide, rfl⟩, fun h => nomatch h⟩
theorem cpy (w : NOp) : Statement (.cpy w) := ⟨fun _ _ h => by cases h; exact ⟨by decide, rfl⟩, fun h => nomatch h⟩
theorem cpseal (w : NOp) : Statement (.cpseal w) := ⟨fun _ _ h => by cases h; exact ⟨by decide, rfl⟩, fun h => nomatch h⟩
theorem cpwait (w : NOp) : Statement (.cpwait w) := ⟨fun _ _ h => by cases h; exact ⟨by decide, rfl⟩, fun h => nomatch h⟩
theorem qctlOpen (w : NOp) : Statement (.qctlOpen w) := ⟨fun _ _ h => by cases h; exact ⟨by decide, rfl⟩, fun h => nomatch h⟩
theorem qctlClose (w : NOp) : Statement (.qctlClose w) := ⟨fun _ _ h => by cases h; exact ⟨by decide, rfl⟩, fun h => nomatch h⟩
theorem qctlDrain (w : NOp) : Statement (.qctlDrain w) := ⟨fun _ _ h => by cases h; exact ⟨by decide, rfl⟩, fun h => nomatch h⟩
theorem mcfg (w : NOp) : Statement (.mcfg w) := ⟨fun _ _ h => by cases h; exact ⟨by decide, rfl⟩, fun h => nomatch h⟩
theorem mma (w : NOp) : Statement (.mma w) := ⟨fun _ _ h => by cases h; exact ⟨by decide, rfl⟩, fun h => nomatch h⟩
theorem mloop (w : NOp) : Statement (.mloop w) := ⟨fun _ _ h => by cases h; exact ⟨by decide, rfl⟩, fun h => nomatch h⟩
theorem mzero (w : NOp) : Statement (.mzero w) := ⟨fun _ _ h => by cases h; exact ⟨by decide, rfl⟩, fun h => nomatch h⟩
theorem mlda (w : NOp) : Statement (.mlda w) := ⟨fun _ _ h => by cases h; exact ⟨by decide, rfl⟩, fun h => nomatch h⟩
theorem msta (w : NOp) : Statement (.msta w) := ⟨fun _ _ h => by cases h; exact ⟨by decide, rfl⟩, fun h => nomatch h⟩
theorem mprom (w : NOp) : Statement (.mprom w) := ⟨fun _ _ h => by cases h; exact ⟨by decide, rfl⟩, fun h => nomatch h⟩
theorem mverRead (w : NOp) : Statement (.mverRead w) := ⟨fun _ _ h => by cases h; exact ⟨by decide, rfl⟩, fun h => nomatch h⟩
theorem mverAcq (w : NOp) : Statement (.mverAcq w) := ⟨fun _ _ h => by cases h; exact ⟨by decide, rfl⟩, fun h => nomatch h⟩
theorem mverRel (w : NOp) : Statement (.mverRel w) := ⟨fun _ _ h => by cases h; exact ⟨by decide, rfl⟩, fun h => nomatch h⟩
theorem mverWait (w : NOp) : Statement (.mverWait w) := ⟨fun _ _ h => by cases h; exact ⟨by decide, rfl⟩, fun h => nomatch h⟩
theorem mmeta (w : NOp) : Statement (.mmeta w) := ⟨fun _ _ h => by cases h; exact ⟨by decide, rfl⟩, fun h => nomatch h⟩
theorem trap (w : NOp) : Statement (.trap w) := ⟨fun _ _ h => by cases h; exact ⟨by decide, rfl⟩, fun h => nomatch h⟩
theorem tret (w : NOp) : Statement (.tret w) := ⟨fun _ _ h => by cases h; exact ⟨by decide, rfl⟩, fun h => nomatch h⟩
theorem leaseDecl (w : NOp) : Statement (.leaseDecl w) := ⟨fun _ _ h => by cases h; exact ⟨by decide, rfl⟩, fun h => nomatch h⟩
theorem leaseMeas (w : NOp) : Statement (.leaseMeas w) := ⟨fun _ _ h => by cases h; exact ⟨by decide, rfl⟩, fun h => nomatch h⟩
theorem czopen (w : NOp) : Statement (.czopen w) := ⟨fun _ _ h => by cases h; exact ⟨by decide, rfl⟩, fun h => nomatch h⟩
theorem czclose (w : NOp) : Statement (.czclose w) := ⟨fun _ _ h => by cases h; exact ⟨by decide, rfl⟩, fun h => nomatch h⟩
theorem spawn (w : NOp) : Statement (.spawn w) := ⟨fun _ _ h => by cases h; exact ⟨by decide, rfl⟩, fun h => nomatch h⟩
theorem sysrd (w : NOp) : Statement (.sysrd w) := ⟨fun _ _ h => by cases h; exact ⟨by decide, rfl⟩, fun h => nomatch h⟩
theorem syswr (w : NOp) : Statement (.syswr w) := ⟨fun _ _ h => by cases h; exact ⟨by decide, rfl⟩, fun h => nomatch h⟩
theorem dbgbrk (w : NOp) : Statement (.dbgbrk w) := ⟨fun _ _ h => by cases h; exact ⟨by decide, rfl⟩, fun h => nomatch h⟩
theorem dturn (w : NOp) : Statement (.dturn w) := ⟨fun _ _ h => by cases h; exact ⟨by decide, rfl⟩, fun h => nomatch h⟩
theorem systemPlateOp (w : BitVec 64) : Statement (.systemPlateOp w) := ⟨fun _ _ h => (nomatch h), fun _ _ h => absurd rfl (h _)⟩
theorem guestDecode : Statement .guestDecode := ⟨fun _ _ h => (nomatch h), fun _ _ _ => rfl⟩
theorem longResultReturn (coach slot : Nat) : Statement (.longResultReturn coach slot) := ⟨fun _ _ h => (nomatch h), fun _ _ _ => rfl⟩
theorem returnBufferCommit (coach : Nat) : Statement (.returnBufferCommit coach) := ⟨fun _ _ h => (nomatch h), fun _ _ _ => rfl⟩
theorem sleepWake (coach : Nat) : Statement (.sleepWake coach) := ⟨fun _ _ h => (nomatch h), fun _ _ _ => rfl⟩
theorem tbarWake (tag : Nat) : Statement (.tbarWake tag) := ⟨fun _ _ h => (nomatch h), fun _ _ _ => rfl⟩
theorem queuePushComplete (coach : Nat) : Statement (.queuePushComplete coach) := ⟨fun _ _ h => (nomatch h), fun _ _ _ => rfl⟩
theorem qfull (coach : Nat) : Statement (.qfull coach) := ⟨fun _ _ h => (nomatch h), fun _ _ _ => rfl⟩
theorem queuePopComplete (coach : Nat) : Statement (.queuePopComplete coach) := ⟨fun _ _ h => (nomatch h), fun _ _ _ => rfl⟩
theorem portPushComplete (coach : Nat) : Statement (.portPushComplete coach) := ⟨fun _ _ h => (nomatch h), fun _ _ _ => rfl⟩
theorem portPopComplete (coach : Nat) : Statement (.portPopComplete coach) := ⟨fun _ _ h => (nomatch h), fun _ _ _ => rfl⟩
theorem drayContextStart (rake launch : Nat) : Statement (.drayContextStart rake launch) := ⟨fun _ _ h => (nomatch h), fun _ _ _ => rfl⟩
theorem promiseTimeout (dray : Nat) : Statement (.promiseTimeout dray) := ⟨fun _ _ h => (nomatch h), fun _ _ _ => rfl⟩
theorem trapEntry (coach : Nat) : Statement (.trapEntry coach) := ⟨fun _ _ h => (nomatch h), fun _ _ _ => rfl⟩
theorem halted (coach : Nat) : Statement (.halted coach) := ⟨fun _ _ h => (nomatch h), fun _ _ _ => rfl⟩
theorem rakeHaltRecord (rake : Nat) : Statement (.rakeHaltRecord rake) := ⟨fun _ _ h => (nomatch h), fun _ _ _ => rfl⟩
theorem faultRecordWrite (entry : Nat) : Statement (.faultRecordWrite entry) := ⟨fun _ _ h => (nomatch h), fun _ _ _ => rfl⟩
theorem matrixOpStart (tile : Nat) : Statement (.matrixOpStart tile) := ⟨fun _ _ h => (nomatch h), fun _ _ _ => rfl⟩
theorem kStep (core : Nat) : Statement (.kStep core) := ⟨fun _ _ h => (nomatch h), fun _ _ _ => rfl⟩
theorem matrixOpComplete (tile : Nat) : Statement (.matrixOpComplete tile) := ⟨fun _ _ h => (nomatch h), fun _ _ _ => rfl⟩
theorem issueSelect (partition : Nat) : Statement (.issueSelect partition) := ⟨fun _ _ h => (nomatch h), fun _ _ _ => rfl⟩
theorem coachAdmission (pool : Nat) : Statement (.coachAdmission pool) := ⟨fun _ _ h => (nomatch h), fun _ _ _ => rfl⟩
theorem longWaitExit (coach : Nat) : Statement (.longWaitExit coach) := ⟨fun _ _ h => (nomatch h), fun _ _ _ => rfl⟩
theorem throttleInterval (pool : Nat) : Statement (.throttleInterval pool) := ⟨fun _ _ h => (nomatch h), fun _ _ _ => rfl⟩
theorem leaseEstimateUpdate (coach : Nat) : Statement (.leaseEstimateUpdate coach) := ⟨fun _ _ h => (nomatch h), fun _ _ _ => rfl⟩
theorem timeSliceExpiry (coach : Nat) : Statement (.timeSliceExpiry coach) := ⟨fun _ _ h => (nomatch h), fun _ _ _ => rfl⟩
theorem coachEviction (core : Nat) : Statement (.coachEviction core) := ⟨fun _ _ h => (nomatch h), fun _ _ _ => rfl⟩
theorem coachRestore (coach : Nat) : Statement (.coachRestore coach) := ⟨fun _ _ h => (nomatch h), fun _ _ _ => rfl⟩
theorem rakePlacement (rake : Nat) : Statement (.rakePlacement rake) := ⟨fun _ _ h => (nomatch h), fun _ _ _ => rfl⟩
theorem stageRebalance (region : Nat) : Statement (.stageRebalance region) := ⟨fun _ _ h => (nomatch h), fun _ _ _ => rfl⟩
theorem slotMove (rake : Nat) : Statement (.slotMove rake) := ⟨fun _ _ h => (nomatch h), fun _ _ _ => rfl⟩
theorem ticketTurn (region : Nat) : Statement (.ticketTurn region) := ⟨fun _ _ h => (nomatch h), fun _ _ _ => rfl⟩
theorem registerLineFill (coach reg : Nat) : Statement (.registerLineFill coach reg) := ⟨fun _ _ h => (nomatch h), fun _ _ _ => rfl⟩
theorem l1DirtyPropagation (l1 line : Nat) : Statement (.l1DirtyPropagation l1 line) := ⟨fun _ _ h => (nomatch h), fun _ _ _ => rfl⟩
theorem accessCounterNotify (die counter : Nat) : Statement (.accessCounterNotify die counter) := ⟨fun _ _ h => (nomatch h), fun _ _ _ => rfl⟩
theorem dramScrub (die : Nat) : Statement (.dramScrub die) := ⟨fun _ _ h => (nomatch h), fun _ _ _ => rfl⟩
theorem l2Scrub (die line : Nat) : Statement (.l2Scrub die line) := ⟨fun _ _ h => (nomatch h), fun _ _ _ => rfl⟩
theorem flowTagFailure (flow line : Nat) (replayFails : Bool) : Statement (.flowTagFailure flow line replayFails) := ⟨fun _ _ h => (nomatch h), fun _ _ _ => rfl⟩
theorem thermalThrottle (die : Nat) : Statement (.thermalThrottle die) := ⟨fun _ _ h => (nomatch h), fun _ _ _ => rfl⟩
theorem thermalRecover (die : Nat) : Statement (.thermalRecover die) := ⟨fun _ _ h => (nomatch h), fun _ _ _ => rfl⟩
theorem thermalFatal : Statement .thermalFatal := ⟨fun _ _ h => (nomatch h), fun _ _ _ => rfl⟩
theorem drayHalt : Statement .drayHalt := ⟨fun _ _ h => (nomatch h), fun _ h => nomatch h⟩
theorem drayAdd (d : BitVec 4) (a : BitVec 4) (b : BitVec 4) : Statement (.drayAdd d a b) := ⟨fun _ _ h => (nomatch h), fun _ h => nomatch h⟩
theorem draySub (d : BitVec 4) (a : BitVec 4) (b : BitVec 4) : Statement (.draySub d a b) := ⟨fun _ _ h => (nomatch h), fun _ h => nomatch h⟩
theorem drayMul (d : BitVec 4) (a : BitVec 4) (b : BitVec 4) : Statement (.drayMul d a b) := ⟨fun _ _ h => (nomatch h), fun _ h => nomatch h⟩
theorem drayAnd (d : BitVec 4) (a : BitVec 4) (b : BitVec 4) : Statement (.drayAnd d a b) := ⟨fun _ _ h => (nomatch h), fun _ h => nomatch h⟩
theorem drayOr (d : BitVec 4) (a : BitVec 4) (b : BitVec 4) : Statement (.drayOr d a b) := ⟨fun _ _ h => (nomatch h), fun _ h => nomatch h⟩
theorem drayXor (d : BitVec 4) (a : BitVec 4) (b : BitVec 4) : Statement (.drayXor d a b) := ⟨fun _ _ h => (nomatch h), fun _ h => nomatch h⟩
theorem drayShl (d : BitVec 4) (a : BitVec 4) (b : BitVec 4) : Statement (.drayShl d a b) := ⟨fun _ _ h => (nomatch h), fun _ h => nomatch h⟩
theorem drayShr (d : BitVec 4) (a : BitVec 4) (b : BitVec 4) : Statement (.drayShr d a b) := ⟨fun _ _ h => (nomatch h), fun _ h => nomatch h⟩
theorem drayMin (d : BitVec 4) (a : BitVec 4) (b : BitVec 4) : Statement (.drayMin d a b) := ⟨fun _ _ h => (nomatch h), fun _ h => nomatch h⟩
theorem drayMax (d : BitVec 4) (a : BitVec 4) (b : BitVec 4) : Statement (.drayMax d a b) := ⟨fun _ _ h => (nomatch h), fun _ h => nomatch h⟩
theorem drayAddi (d : BitVec 4) (a : BitVec 4) (i : BitVec 14) : Statement (.drayAddi d a i) := ⟨fun _ _ h => (nomatch h), fun _ h => nomatch h⟩
theorem drayLi (d : BitVec 4) (i : BitVec 14) : Statement (.drayLi d i) := ⟨fun _ _ h => (nomatch h), fun _ h => nomatch h⟩
theorem drayLui (d : BitVec 4) (a : BitVec 4) (i : BitVec 14) : Statement (.drayLui d a i) := ⟨fun _ _ h => (nomatch h), fun _ h => nomatch h⟩
theorem drayLdw (d : BitVec 4) (a : BitVec 4) (z : BitVec 2) (p : BitVec 1) (o : BitVec 11) : Statement (.drayLdw d a z p o) := ⟨fun _ _ h => (nomatch h), fun _ h => nomatch h⟩
theorem drayStw (d : BitVec 4) (a : BitVec 4) (z : BitVec 2) (p : BitVec 1) (o : BitVec 11) : Statement (.drayStw d a z p o) := ⟨fun _ _ h => (nomatch h), fun _ h => nomatch h⟩
theorem drayBeq (a : BitVec 4) (b : BitVec 4) (i : BitVec 14) : Statement (.drayBeq a b i) := ⟨fun _ _ h => (nomatch h), fun _ h => nomatch h⟩
theorem drayBne (a : BitVec 4) (b : BitVec 4) (i : BitVec 14) : Statement (.drayBne a b i) := ⟨fun _ _ h => (nomatch h), fun _ h => nomatch h⟩
theorem drayBlt (a : BitVec 4) (b : BitVec 4) (i : BitVec 14) : Statement (.drayBlt a b i) := ⟨fun _ _ h => (nomatch h), fun _ h => nomatch h⟩
theorem drayBge (a : BitVec 4) (b : BitVec 4) (i : BitVec 14) : Statement (.drayBge a b i) := ⟨fun _ _ h => (nomatch h), fun _ h => nomatch h⟩
theorem drayJmp (i : BitVec 14) : Statement (.drayJmp i) := ⟨fun _ _ h => (nomatch h), fun _ h => nomatch h⟩
theorem drayJmpLink (l : BitVec 4) (i : BitVec 14) : Statement (.drayJmpLink l i) := ⟨fun _ _ h => (nomatch h), fun _ h => nomatch h⟩
theorem drayJmpIndirect (l : BitVec 4) (a : BitVec 4) : Statement (.drayJmpIndirect l a) := ⟨fun _ _ h => (nomatch h), fun _ h => nomatch h⟩
theorem drayLoop (a : BitVec 4) (i : BitVec 14) : Statement (.drayLoop a i) := ⟨fun _ _ h => (nomatch h), fun _ h => nomatch h⟩
theorem drayArg (d : BitVec 4) (a : BitVec 4) (i : BitVec 14) : Statement (.drayArg d a i) := ⟨fun _ _ h => (nomatch h), fun _ h => nomatch h⟩
theorem drayGset (n : BitVec 2) (a : BitVec 4) (s : BitVec 1) (o : BitVec 13) : Statement (.drayGset n a s o) := ⟨fun _ _ h => (nomatch h), fun _ h => nomatch h⟩
theorem drayGadv (n : BitVec 2) (a : BitVec 4) (r : BitVec 1) : Statement (.drayGadv n a r) := ⟨fun _ _ h => (nomatch h), fun _ h => nomatch h⟩
theorem drayXfer (d : BitVec 2) (s : BitVec 2) (n : BitVec 4) (m : BitVec 3) (f : BitVec 4) (u : BitVec 1) (c : BitVec 6) : Statement (.drayXfer d s n m f u c) := ⟨fun _ _ h => (nomatch h), fun _ h => nomatch h⟩
theorem drayGather (d : BitVec 2) (x : BitVec 2) (n : BitVec 4) (t : BitVec 2) : Statement (.drayGather d x n t) := ⟨fun _ _ h => (nomatch h), fun _ h => nomatch h⟩
theorem drayScatter (t : BitVec 2) (x : BitVec 2) (n : BitVec 4) (s : BitVec 2) : Statement (.drayScatter t x n s) := ⟨fun _ _ h => (nomatch h), fun _ h => nomatch h⟩
theorem drayFill (d : BitVec 2) (v : BitVec 4) (n : BitVec 4) (p : BitVec 2) : Statement (.drayFill d v n p) := ⟨fun _ _ h => (nomatch h), fun _ h => nomatch h⟩
theorem drayArrive (a : BitVec 4) (c : BitVec 10) (k : BitVec 4) : Statement (.drayArrive a c k) := ⟨fun _ _ h => (nomatch h), fun _ h => nomatch h⟩
theorem draySignal (a : BitVec 4) (s : BitVec 2) (g : BitVec 3) : Statement (.draySignal a s g) := ⟨fun _ _ h => (nomatch h), fun _ h => nomatch h⟩
theorem drayTlw (h : BitVec 4) (n : BitVec 4) (s : BitVec 2) (g : BitVec 3) : Statement (.drayTlw h n s g) := ⟨fun _ _ h => (nomatch h), fun _ h => nomatch h⟩
theorem drayPromise (a : BitVec 4) (i : BitVec 14) : Statement (.drayPromise a i) := ⟨fun _ _ h => (nomatch h), fun _ h => nomatch h⟩
theorem drayDfence (s : BitVec 2) (g : BitVec 3) (o : BitVec 3) : Statement (.drayDfence s g o) := ⟨fun _ _ h => (nomatch h), fun _ h => nomatch h⟩
theorem drayStat (d : BitVec 4) (s : BitVec 4) : Statement (.drayStat d s) := ⟨fun _ _ h => (nomatch h), fun _ h => nomatch h⟩
theorem drayOpt (a : BitVec 4) (c : BitVec 1) (m : BitVec 1) (n : BitVec 8) : Statement (.drayOpt a c m n) := ⟨fun _ _ h => (nomatch h), fun _ h => nomatch h⟩
theorem drayLoadResult (dray : Nat) : Statement (.drayLoadResult dray) := ⟨fun _ _ h => (nomatch h), fun _ _ _ => rfl⟩
theorem drayDataUnit (dray : Nat) : Statement (.drayDataUnit dray) := ⟨fun _ _ h => (nomatch h), fun _ _ _ => rfl⟩
theorem hallmarkOpen (die port : Nat) : Statement (.hallmarkOpen die port) := ⟨fun _ _ h => (nomatch h), fun _ _ _ => rfl⟩
theorem hallmarkAbsorb (die port : Nat) : Statement (.hallmarkAbsorb die port) := ⟨fun _ _ h => (nomatch h), fun _ _ _ => rfl⟩
theorem hallmarkClose (die port : Nat) : Statement (.hallmarkClose die port) := ⟨fun _ _ h => (nomatch h), fun _ _ _ => rfl⟩
theorem hallmarkRecordWrite (die session : Nat) : Statement (.hallmarkRecordWrite die session) := ⟨fun _ _ h => (nomatch h), fun _ _ _ => rfl⟩
theorem msgLaunch (ctx q : Nat) : Statement (.msgLaunch ctx q) := ⟨fun _ _ h => (nomatch h), fun _ _ _ => rfl⟩
theorem msgWait (ctx q : Nat) : Statement (.msgWait ctx q) := ⟨fun _ _ h => (nomatch h), fun _ _ _ => rfl⟩
theorem waitPoll (ctx q : Nat) : Statement (.waitPoll ctx q) := ⟨fun _ _ h => (nomatch h), fun _ _ _ => rfl⟩
theorem msgSignal (ctx q : Nat) : Statement (.msgSignal ctx q) := ⟨fun _ _ h => (nomatch h), fun _ _ _ => rfl⟩
theorem msgNote (ctx q : Nat) : Statement (.msgNote ctx q) := ⟨fun _ _ h => (nomatch h), fun _ _ _ => rfl⟩
theorem msgFence (ctx q : Nat) : Statement (.msgFence ctx q) := ⟨fun _ _ h => (nomatch h), fun _ _ _ => rfl⟩
theorem msgPreemptSave (ctx q : Nat) : Statement (.msgPreemptSave ctx q) := ⟨fun _ _ h => (nomatch h), fun _ _ _ => rfl⟩
theorem msgPreemptResume (ctx q : Nat) : Statement (.msgPreemptResume ctx q) := ⟨fun _ _ h => (nomatch h), fun _ _ _ => rfl⟩
theorem invalidationComplete (ctx : Nat) : Statement (.invalidationComplete ctx) := ⟨fun _ _ h => (nomatch h), fun _ _ _ => rfl⟩
theorem plateLoadComplete (ctx : Nat) : Statement (.plateLoadComplete ctx) := ⟨fun _ _ h => (nomatch h), fun _ _ _ => rfl⟩
theorem createWorld (src : ReqSource) (block : List (BitVec 8)) : Statement (.createWorld src block) := ⟨fun _ _ h => (nomatch h), fun _ _ _ => rfl⟩
theorem destroyWorld (src : ReqSource) (block : List (BitVec 8)) : Statement (.destroyWorld src block) := ⟨fun _ _ h => (nomatch h), fun _ _ _ => rfl⟩
theorem assign (src : ReqSource) (block : List (BitVec 8)) : Statement (.assign src block) := ⟨fun _ _ h => (nomatch h), fun _ _ _ => rfl⟩
theorem reclaim (src : ReqSource) (block : List (BitVec 8)) : Statement (.reclaim src block) := ⟨fun _ _ h => (nomatch h), fun _ _ _ => rfl⟩
theorem exportPage (src : ReqSource) (block : List (BitVec 8)) : Statement (.exportPage src block) := ⟨fun _ _ h => (nomatch h), fun _ _ _ => rfl⟩
theorem importPage (src : ReqSource) (block : List (BitVec 8)) : Statement (.importPage src block) := ⟨fun _ _ h => (nomatch h), fun _ _ _ => rfl⟩
theorem loadKey (src : ReqSource) (block : List (BitVec 8)) : Statement (.loadKey src block) := ⟨fun _ _ h => (nomatch h), fun _ _ _ => rfl⟩
theorem revokeKey (src : ReqSource) (block : List (BitVec 8)) : Statement (.revokeKey src block) := ⟨fun _ _ h => (nomatch h), fun _ _ _ => rfl⟩
theorem getNonce (src : ReqSource) (block : List (BitVec 8)) : Statement (.getNonce src block) := ⟨fun _ _ h => (nomatch h), fun _ _ _ => rfl⟩
theorem debugUnlock (src : ReqSource) (block : List (BitVec 8)) : Statement (.debugUnlock src block) := ⟨fun _ _ h => (nomatch h), fun _ _ _ => rfl⟩
theorem drayIllegal (w : BitVec 32) : Statement (.drayIllegal w) := ⟨fun _ _ h => (nomatch h), fun _ h => nomatch h⟩
theorem hallmarkBadcmd (die port : Nat) : Statement (.hallmarkBadcmd die port) := ⟨fun _ _ h => (nomatch h), fun _ _ _ => rfl⟩
theorem ctxcmdComplete : Statement .ctxcmdComplete := ⟨fun _ _ h => (nomatch h), fun _ _ _ => rfl⟩
theorem doorbell (ctx q : Nat) (value : BitVec 64) : Statement (.doorbell ctx q value) := ⟨fun _ _ h => (nomatch h), fun _ _ _ => rfl⟩
theorem qerrRearm (ctx q : Nat) : Statement (.qerrRearm ctx q) := ⟨fun _ _ h => (nomatch h), fun _ _ _ => rfl⟩
theorem qerrTeardown (ctx q : Nat) : Statement (.qerrTeardown ctx q) := ⟨fun _ _ h => (nomatch h), fun _ _ _ => rfl⟩
theorem faultrespRetry (ctx : Nat) (seq : BitVec 32) : Statement (.faultrespRetry ctx seq) := ⟨fun _ _ h => (nomatch h), fun _ _ _ => rfl⟩
theorem faultrespFail (ctx : Nat) (seq : BitVec 32) : Statement (.faultrespFail ctx seq) := ⟨fun _ _ h => (nomatch h), fun _ _ _ => rfl⟩
theorem invcmd (ctx : Nat) (value : BitVec 64) : Statement (.invcmd ctx value) := ⟨fun _ _ h => (nomatch h), fun _ _ _ => rfl⟩
theorem platecmd (ctx : Nat) (value : BitVec 64) : Statement (.platecmd ctx value) := ⟨fun _ _ h => (nomatch h), fun _ _ _ => rfl⟩
theorem debugWrite (ctx : Nat) (value : BitVec 64) : Statement (.debugWrite ctx value) := ⟨fun _ _ h => (nomatch h), fun _ _ _ => rfl⟩
theorem rakecmdResume (ctx : Nat) (value : BitVec 64) : Statement (.rakecmdResume ctx value) := ⟨fun _ _ h => (nomatch h), fun _ _ _ => rfl⟩
theorem rakecmdKill (ctx : Nat) (value : BitVec 64) : Statement (.rakecmdKill ctx value) := ⟨fun _ _ h => (nomatch h), fun _ _ _ => rfl⟩
theorem featdrvWrite (value : BitVec 128) : Statement (.featdrvWrite value) := ⟨fun _ _ h => (nomatch h), fun _ _ _ => rfl⟩
theorem partcmd (value : BitVec 64) : Statement (.partcmd value) := ⟨fun _ _ h => (nomatch h), fun _ _ _ => rfl⟩
theorem ctxcmdCreate (value : BitVec 64) : Statement (.ctxcmdCreate value) := ⟨fun _ _ h => (nomatch h), fun _ _ _ => rfl⟩
theorem ctxcmdReset (value : BitVec 64) : Statement (.ctxcmdReset value) := ⟨fun _ _ h => (nomatch h), fun _ _ _ => rfl⟩
theorem ctxcmdDestroy (value : BitVec 64) : Statement (.ctxcmdDestroy value) := ⟨fun _ _ h => (nomatch h), fun _ _ _ => rfl⟩
theorem ctrassignAssign (value : BitVec 64) : Statement (.ctrassignAssign value) := ⟨fun _ _ h => (nomatch h), fun _ _ _ => rfl⟩
theorem ctrassignUnassign (value : BitVec 64) : Statement (.ctrassignUnassign value) := ⟨fun _ _ h => (nomatch h), fun _ _ _ => rfl⟩
theorem portreq (value : BitVec 64) : Statement (.portreq value) := ⟨fun _ _ h => (nomatch h), fun _ _ _ => rfl⟩
theorem registerWrite (fn offset : Nat) (value : BitVec 64) : Statement (.registerWrite fn offset value) := ⟨fun _ _ h => (nomatch h), fun _ _ _ => rfl⟩
theorem hostApertureAccess (write : Bool) (offset size : Nat) (value : BitVec 64) : Statement (.hostApertureAccess write offset size value) := ⟨fun _ _ h => (nomatch h), fun _ _ _ => rfl⟩
theorem peerAccess (link : Nat) (write : Bool) (pa size : Nat) (value : BitVec 64) : Statement (.peerAccess link write pa size value) := ⟨fun _ _ h => (nomatch h), fun _ _ _ => rfl⟩
theorem atsInvalidation (first pages : Nat) : Statement (.atsInvalidation first pages) := ⟨fun _ _ h => (nomatch h), fun _ _ _ => rfl⟩
theorem perstRelease (passed : Bool) : Statement (.perstRelease passed) := ⟨fun _ _ h => (nomatch h), fun _ _ _ => rfl⟩
theorem dramTraining (passed : Bool) : Statement (.dramTraining passed) := ⟨fun _ _ h => (nomatch h), fun _ _ _ => rfl⟩
theorem systemPlateLoad (image : List (BitVec 8)) (signed : Bool) : Statement (.systemPlateLoad image signed) := ⟨fun _ _ h => (nomatch h), fun _ _ _ => rfl⟩
theorem clusterSelfTest (passed : BitVec 20) : Statement (.clusterSelfTest passed) := ⟨fun _ _ h => (nomatch h), fun _ _ _ => rfl⟩
theorem extumLinkTraining (up : BitVec 12) : Statement (.extumLinkTraining up) := ⟨fun _ _ h => (nomatch h), fun _ _ _ => rfl⟩
theorem ready : Statement .ready := ⟨fun _ _ h => (nomatch h), fun _ _ _ => rfl⟩
theorem spdmRequest (session : Nat) (code : Nat) (transport : Nat) : Statement (.spdmRequest session code transport) := ⟨fun _ _ h => (nomatch h), fun _ _ _ => rfl⟩
theorem tdispRequest (vf world : Nat) (bind : Bool) : Statement (.tdispRequest vf world bind) := ⟨fun _ _ h => (nomatch h), fun _ _ _ => rfl⟩
theorem firmwareRotation : Statement .firmwareRotation := ⟨fun _ _ h => (nomatch h), fun _ _ _ => rfl⟩
theorem debuggerHaltRequest (rake : Nat) : Statement (.debuggerHaltRequest rake) := ⟨fun _ _ h => (nomatch h), fun _ _ _ => rfl⟩
theorem powerCapSet (watts : Nat) : Statement (.powerCapSet watts) := ⟨fun _ _ h => (nomatch h), fun _ _ _ => rfl⟩

end Sys2Proof.Laws.Shape
end

