-- ==== Sys2Proof/Laws/Requests.lean ====
section
/-! SUPPORT. What an operation that pops does first, and which of Portil's requests are performed and which join the queue. -/
namespace Sys2Proof.Laws
open Sys2Proof Sys2Proof.Machine

/-- The operation of the latch with the popped entry. -/
abbrev popCtx (s : State) (w : NOp) (sp : OpSpec) (r : Nat) (e : Entry) : OpCtx :=
  { k := s.iss.coach, w := w, i := s.iss, grp := s.iss.group, en := enOf s w, q := [(r, e)], long := true, turn := false }

/-- An operation that pops has its own effect at once, on what the pop leaves. -/
theorem native_of_pops {s : State} {i : Instr} {w : NOp} {sp : OpSpec} {r : Nat} {e : Entry} {s1 : State}
    (h : Pops s i w sp r e s1) (body : OpCtx → State → State) : native w sp body s = body (popCtx s w sp r e) s1 := by
  have hl : isLong sp w = true := by simp [isLong, h.queue]
  have hc : (true && decide (16 < slotsUsed (coachOf s s.iss.coach) + costOf sp w)) = false := by
    have : slotsUsed (coachOf s s.iss.coach) + costOf sp w ≤ 16 := h.room
    simp; omega
  have hf : decodeCheck sp w (coachOf s s.iss.coach).nregs (qBound s (coachOf s s.iss.coach)) = none := h.form
  have he : ¬ enabledOf (coachOf s s.iss.coach) w s.iss.group = 0 := h.lanes
  have hd : isDet s (coachOf s s.iss.coach) = false := h.det
  have hp : popState s (coachOf s s.iss.coach) s.iss r = .ready := h.ready
  unfold native
  simp only [hf, he, hl, hc, hd, hp, h.unmarked, h.queue, h.own, h.taken, takePops, tput, if_false, if_true, Bool.false_eq_true,
    List.isEmpty_cons, Option.isSome_none, List.any_cons, List.any_nil, List.find?_cons, List.find?_nil, Bool.false_and, Bool.or_false,
    beq_self_eq_true, reduceCtorEq, beq_eq_false_iff_ne, ne_eq, not_false_eq_true, show (PopState.ready == PopState.qempty) = false from rfl,
    show (PopState.ready == PopState.wait) = false from rfl]

theorem settled_coach {s : State} {k : Nat} (h : settled s k = true) :
    tget s.coaches k = some (coachOf s k) ∧ (coachOf s k).fpeHeld = [] := by
  unfold settled at h
  cases hc : tget s.coaches k with
  | none => simp [hc] at h
  | some co =>
    have e : coachOf s k = co := by simp [coachOf, tgetD, hc]
    rw [hc] at h
    exact ⟨by rw [e], by rw [e]; simpa using h⟩

/-- A request that comes while others wait joins them (12 R440). -/
theorem request_joins {s : State} {src : ReqSource} {block : List Byte} (ht : s.portil.taken = none) (hq : s.portil.queue ≠ [])
    (code len : Nat) (path : Bool) (zeros : List (Nat × Nat)) (f : State → State) :
    request s src block code len path zeros f
      = { s with portil := { s.portil with queue := s.portil.queue ++ [(src, block)] } } := by
  simp [request, ht, hq]

/-- A request that Portil has taken, or that comes while none waits, is performed (12 R440). -/
theorem request_runs {s0 s : State} {src : ReqSource} {block : List Byte} (ht : s.portil.taken = none)
    (h0 : (s0 = s ∧ s.portil.queue = []) ∨ s0 = { s with portil := { s.portil with taken := some (src, block) } })
    (code len : Nat) (path : Bool) (zeros : List (Nat × Nat)) (f : State → State) :
    request s0 src block code len path zeros f = perform s src block code len path zeros f := by
  rcases h0 with ⟨rfl, hq⟩ | rfl
  · simp [request, ht, hq]
  · have e : { s with portil := { s.portil with taken := none } } = s := by rw [← ht]
    simp only [request, if_true]
    exact congrArg (fun t => perform t src block code len path zeros f) e

/-- A request of a code that Portil does not know is answered BADARG (12 R506, R507). -/
theorem perform_unknown {s : State} {src : ReqSource} {block : List Byte} (h : imgNum block 0 2 = 0 ∨ 10 < imgNum block 0 2)
    (code len : Nat) (path : Bool) (zeros : List (Nat × Nat)) (f : State → State) :
    perform s src block code len path zeros f = answerReq s src block 1 [] := by
  simp [perform, h, stBadarg]

/-- A well-formed request of its own code on its own path is performed. -/
theorem perform_good {s : State} {src : ReqSource} {block : List Byte} {code len : Nat} {zeros : List (Nat × Nat)}
    (hc : imgNum block 0 2 = code) (h1 : 1 ≤ code) (h2 : code ≤ 10) (hb : blockGood block len zeros = true) (f : State → State) :
    perform s src block code len true zeros f = f s := by
  have : ¬ (code = 0 ∨ 10 < code) := by omega
  simp [perform, hc, hb, this]

/-- The worlds after each of a list has been marked covered. -/
theorem tget_cover (ws : List Nat) (s : State) (w : Nat) :
    tget (ws.foldl (fun s w => { s with worlds := tmod s.worlds w (fun x => { x with covered := true }) }) s).worlds w
      = (tget s.worlds w).map (fun x => if w ∈ ws then { x with covered := true } else x) := by
  induction ws generalizing s with
  | nil => simp
  | cons v ws ih =>
    rw [List.foldl_cons, ih]
    simp only [tget_tmod]
    by_cases h : v = w
    · subst h; cases tget s.worlds v <;> simp
    · cases tget s.worlds w <;> simp [h, Ne.symm h]

end Sys2Proof.Laws
end

