-- ==== Sys2Proof/Laws/Rows.lean ====
section
/-! SUPPORT. Every native operation issues by `native`, with the checks that its row of the table states. -/
namespace Sys2Proof.Laws
open Sys2Proof.Machine

/-- The instruction issues by `native` with the checks `sp`. -/
def Issues (s : State) (i : Instr) (w : NOp) (sp : OpSpec) : Prop := ∃ body, exec i s = .next (native w sp body s)

theorem issues_nop (s : State) (w : NOp) (sp : OpSpec) (h : nativeRow s (.nop w) = some (w, sp)) : Issues s (.nop w) w sp := by
  cases h; show ∃ body, execNop w s = _; simp only [execNop]; exact ⟨_, rfl⟩
theorem issues_bra (s : State) (w : NOp) (sp : OpSpec) (h : nativeRow s (.bra w) = some (w, sp)) : Issues s (.bra w) w sp := by
  cases h; show ∃ body, execBra w s = _; simp only [execBra]; exact ⟨_, rfl⟩
theorem issues_brx (s : State) (w : NOp) (sp : OpSpec) (h : nativeRow s (.brx w) = some (w, sp)) : Issues s (.brx w) w sp := by
  cases h; show ∃ body, execBrx w s = _; simp only [execBrx]; exact ⟨_, rfl⟩
theorem issues_call (s : State) (w : NOp) (sp : OpSpec) (h : nativeRow s (.call w) = some (w, sp)) : Issues s (.call w) w sp := by
  cases h; show ∃ body, execCall w s = _; simp only [execCall]; exact ⟨_, rfl⟩
theorem issues_callx (s : State) (w : NOp) (sp : OpSpec) (h : nativeRow s (.callx w) = some (w, sp)) : Issues s (.callx w) w sp := by
  cases h; show ∃ body, execCallx w s = _; simp only [execCallx]; exact ⟨_, rfl⟩
theorem issues_ret (s : State) (w : NOp) (sp : OpSpec) (h : nativeRow s (.ret w) = some (w, sp)) : Issues s (.ret w) w sp := by
  cases h; show ∃ body, execRet w s = _; simp only [execRet]; exact ⟨_, rfl⟩
theorem issues_join (s : State) (w : NOp) (sp : OpSpec) (h : nativeRow s (.join w) = some (w, sp)) : Issues s (.join w) w sp := by
  cases h; show ∃ body, execJoin w s = _; simp only [execJoin]; exact ⟨_, rfl⟩
theorem issues_exit (s : State) (w : NOp) (sp : OpSpec) (h : nativeRow s (.exit w) = some (w, sp)) : Issues s (.exit w) w sp := by
  cases h; show ∃ body, execExit w s = _; simp only [execExit]; exact ⟨_, rfl⟩
theorem issues_sleep (s : State) (w : NOp) (sp : OpSpec) (h : nativeRow s (.sleep w) = some (w, sp)) : Issues s (.sleep w) w sp := by
  cases h; show ∃ body, execSleep w s = _; simp only [execSleep]; exact ⟨_, rfl⟩
theorem issues_sleepBar (s : State) (w : NOp) (sp : OpSpec) (h : nativeRow s (.sleepBar w) = some (w, sp)) : Issues s (.sleepBar w) w sp := by
  cases h; show ∃ body, execSleepBar w s = _; simp only [execSleepBar]; exact ⟨_, rfl⟩
theorem issues_yield (s : State) (w : NOp) (sp : OpSpec) (h : nativeRow s (.yield w) = some (w, sp)) : Issues s (.yield w) w sp := by
  cases h; show ∃ body, execYield w s = _; simp only [execYield]; exact ⟨_, rfl⟩
theorem issues_iadd (s : State) (w : NOp) (sp : OpSpec) (h : nativeRow s (.iadd w) = some (w, sp)) : Issues s (.iadd w) w sp := by
  cases h; show ∃ body, execIadd w s = _; simp only [execIadd, intOp2, nativeRow.intRow, laneOp]; exact ⟨_, rfl⟩
theorem issues_isub (s : State) (w : NOp) (sp : OpSpec) (h : nativeRow s (.isub w) = some (w, sp)) : Issues s (.isub w) w sp := by
  cases h; show ∃ body, execIsub w s = _; simp only [execIsub, intOp2, nativeRow.intRow, laneOp]; exact ⟨_, rfl⟩
theorem issues_imul (s : State) (w : NOp) (sp : OpSpec) (h : nativeRow s (.imul w) = some (w, sp)) : Issues s (.imul w) w sp := by
  cases h; show ∃ body, execImul w s = _; simp only [execImul, intOp2, nativeRow.intRow, laneOp]; exact ⟨_, rfl⟩
theorem issues_imulh (s : State) (w : NOp) (sp : OpSpec) (h : nativeRow s (.imulh w) = some (w, sp)) : Issues s (.imulh w) w sp := by
  cases h; show ∃ body, execImulh w s = _; simp only [execImulh, intOp2, nativeRow.intRow, laneOp]; exact ⟨_, rfl⟩
theorem issues_imin (s : State) (w : NOp) (sp : OpSpec) (h : nativeRow s (.imin w) = some (w, sp)) : Issues s (.imin w) w sp := by
  cases h; show ∃ body, execImin w s = _; simp only [execImin, intOp2, nativeRow.intRow, laneOp]; exact ⟨_, rfl⟩
theorem issues_imax (s : State) (w : NOp) (sp : OpSpec) (h : nativeRow s (.imax w) = some (w, sp)) : Issues s (.imax w) w sp := by
  cases h; show ∃ body, execImax w s = _; simp only [execImax, intOp2, nativeRow.intRow, laneOp]; exact ⟨_, rfl⟩
theorem issues_imad (s : State) (w : NOp) (sp : OpSpec) (h : nativeRow s (.imad w) = some (w, sp)) : Issues s (.imad w) w sp := by
  cases h; show ∃ body, execImad w s = _; simp only [execImad, laneOp]; exact ⟨_, rfl⟩
theorem issues_iaddc (s : State) (w : NOp) (sp : OpSpec) (h : nativeRow s (.iaddc w) = some (w, sp)) : Issues s (.iaddc w) w sp := by
  cases h; show ∃ body, execIaddc w s = _; simp only [execIaddc, laneOp]; exact ⟨_, rfl⟩
theorem issues_iabs (s : State) (w : NOp) (sp : OpSpec) (h : nativeRow s (.iabs w) = some (w, sp)) : Issues s (.iabs w) w sp := by
  cases h; show ∃ body, execIabs w s = _; simp only [execIabs, laneOp]; exact ⟨_, rfl⟩
theorem issues_icmp (s : State) (w : NOp) (sp : OpSpec) (h : nativeRow s (.icmp w) = some (w, sp)) : Issues s (.icmp w) w sp := by
  cases h; show ∃ body, execIcmp w s = _; simp only [execIcmp, cmpOp]; exact ⟨_, rfl⟩
theorem issues_sel (s : State) (w : NOp) (sp : OpSpec) (h : nativeRow s (.sel w) = some (w, sp)) : Issues s (.sel w) w sp := by
  cases h; show ∃ body, execSel w s = _; simp only [execSel, laneOp]; exact ⟨_, rfl⟩
theorem issues_and (s : State) (w : NOp) (sp : OpSpec) (h : nativeRow s (.and w) = some (w, sp)) : Issues s (.and w) w sp := by
  cases h; show ∃ body, execAnd w s = _; simp only [execAnd, bitOp, nativeRow.bitRow, laneOp]; exact ⟨_, rfl⟩
theorem issues_or (s : State) (w : NOp) (sp : OpSpec) (h : nativeRow s (.or w) = some (w, sp)) : Issues s (.or w) w sp := by
  cases h; show ∃ body, execOr w s = _; simp only [execOr, bitOp, nativeRow.bitRow, laneOp]; exact ⟨_, rfl⟩
theorem issues_xor (s : State) (w : NOp) (sp : OpSpec) (h : nativeRow s (.xor w) = some (w, sp)) : Issues s (.xor w) w sp := by
  cases h; show ∃ body, execXor w s = _; simp only [execXor, bitOp, nativeRow.bitRow, laneOp]; exact ⟨_, rfl⟩
theorem issues_andn (s : State) (w : NOp) (sp : OpSpec) (h : nativeRow s (.andn w) = some (w, sp)) : Issues s (.andn w) w sp := by
  cases h; show ∃ body, execAndn w s = _; simp only [execAndn, bitOp, nativeRow.bitRow, laneOp]; exact ⟨_, rfl⟩
theorem issues_shl (s : State) (w : NOp) (sp : OpSpec) (h : nativeRow s (.shl w) = some (w, sp)) : Issues s (.shl w) w sp := by
  cases h; show ∃ body, execShl w s = _; simp only [execShl, shiftOp, nativeRow.shiftRow, laneOp]; exact ⟨_, rfl⟩
theorem issues_shr (s : State) (w : NOp) (sp : OpSpec) (h : nativeRow s (.shr w) = some (w, sp)) : Issues s (.shr w) w sp := by
  cases h; show ∃ body, execShr w s = _; simp only [execShr, shiftOp, nativeRow.shiftRow, laneOp]; exact ⟨_, rfl⟩
theorem issues_sar (s : State) (w : NOp) (sp : OpSpec) (h : nativeRow s (.sar w) = some (w, sp)) : Issues s (.sar w) w sp := by
  cases h; show ∃ body, execSar w s = _; simp only [execSar, shiftOp, nativeRow.shiftRow, laneOp]; exact ⟨_, rfl⟩
theorem issues_rotl (s : State) (w : NOp) (sp : OpSpec) (h : nativeRow s (.rotl w) = some (w, sp)) : Issues s (.rotl w) w sp := by
  cases h; show ∃ body, execRotl w s = _; simp only [execRotl, shiftOp, nativeRow.shiftRow, laneOp]; exact ⟨_, rfl⟩
theorem issues_bfe (s : State) (w : NOp) (sp : OpSpec) (h : nativeRow s (.bfe w) = some (w, sp)) : Issues s (.bfe w) w sp := by
  cases h; show ∃ body, execBfe w s = _; simp only [execBfe, laneOp]; exact ⟨_, rfl⟩
theorem issues_bfi (s : State) (w : NOp) (sp : OpSpec) (h : nativeRow s (.bfi w) = some (w, sp)) : Issues s (.bfi w) w sp := by
  cases h; show ∃ body, execBfi w s = _; simp only [execBfi, laneOp]; exact ⟨_, rfl⟩
theorem issues_popc (s : State) (w : NOp) (sp : OpSpec) (h : nativeRow s (.popc w) = some (w, sp)) : Issues s (.popc w) w sp := by
  cases h; show ∃ body, execPopc w s = _; simp only [execPopc, countOp, nativeRow.countRow, laneOp]; exact ⟨_, rfl⟩
theorem issues_clz (s : State) (w : NOp) (sp : OpSpec) (h : nativeRow s (.clz w) = some (w, sp)) : Issues s (.clz w) w sp := by
  cases h; show ∃ body, execClz w s = _; simp only [execClz, countOp, nativeRow.countRow, laneOp]; exact ⟨_, rfl⟩
theorem issues_ctz (s : State) (w : NOp) (sp : OpSpec) (h : nativeRow s (.ctz w) = some (w, sp)) : Issues s (.ctz w) w sp := by
  cases h; show ∃ body, execCtz w s = _; simp only [execCtz, countOp, nativeRow.countRow, laneOp]; exact ⟨_, rfl⟩
theorem issues_lea (s : State) (w : NOp) (sp : OpSpec) (h : nativeRow s (.lea w) = some (w, sp)) : Issues s (.lea w) w sp := by
  cases h; show ∃ body, execLea w s = _; simp only [execLea, laneOp]; exact ⟨_, rfl⟩
theorem issues_mov (s : State) (w : NOp) (sp : OpSpec) (h : nativeRow s (.mov w) = some (w, sp)) : Issues s (.mov w) w sp := by
  cases h; show ∃ body, execMov w s = _; simp only [execMov, laneOp]; exact ⟨_, rfl⟩
theorem issues_movi (s : State) (w : NOp) (sp : OpSpec) (h : nativeRow s (.movi w) = some (w, sp)) : Issues s (.movi w) w sp := by
  cases h; show ∃ body, execMovi w s = _; simp only [execMovi, laneOp]; exact ⟨_, rfl⟩
theorem issues_movhi (s : State) (w : NOp) (sp : OpSpec) (h : nativeRow s (.movhi w) = some (w, sp)) : Issues s (.movhi w) w sp := by
  cases h; show ∃ body, execMovhi w s = _; simp only [execMovhi]; exact ⟨_, rfl⟩
theorem issues_iadd64 (s : State) (w : NOp) (sp : OpSpec) (h : nativeRow s (.iadd64 w) = some (w, sp)) : Issues s (.iadd64 w) w sp := by
  cases h; show ∃ body, execIadd64 w s = _; simp only [execIadd64, laneOp]; exact ⟨_, rfl⟩
theorem issues_imad64 (s : State) (w : NOp) (sp : OpSpec) (h : nativeRow s (.imad64 w) = some (w, sp)) : Issues s (.imad64 w) w sp := by
  cases h; show ∃ body, execImad64 w s = _; simp only [execImad64, laneOp]; exact ⟨_, rfl⟩
theorem issues_idp4 (s : State) (w : NOp) (sp : OpSpec) (h : nativeRow s (.idp4 w) = some (w, sp)) : Issues s (.idp4 w) w sp := by
  cases h; show ∃ body, execIdp4 w s = _; simp only [execIdp4, laneOp]; exact ⟨_, rfl⟩
theorem issues_fadd (s : State) (w : NOp) (sp : OpSpec) (h : nativeRow s (.fadd w) = some (w, sp)) : Issues s (.fadd w) w sp := by
  cases h; show ∃ body, execFadd w s = _; simp only [execFadd, floatOp2, nativeRow.floatRow, laneOp]; exact ⟨_, rfl⟩
theorem issues_fsub (s : State) (w : NOp) (sp : OpSpec) (h : nativeRow s (.fsub w) = some (w, sp)) : Issues s (.fsub w) w sp := by
  cases h; show ∃ body, execFsub w s = _; simp only [execFsub, floatOp2, nativeRow.floatRow, laneOp]; exact ⟨_, rfl⟩
theorem issues_fmul (s : State) (w : NOp) (sp : OpSpec) (h : nativeRow s (.fmul w) = some (w, sp)) : Issues s (.fmul w) w sp := by
  cases h; show ∃ body, execFmul w s = _; simp only [execFmul, floatOp2, nativeRow.floatRow, laneOp]; exact ⟨_, rfl⟩
theorem issues_ffma (s : State) (w : NOp) (sp : OpSpec) (h : nativeRow s (.ffma w) = some (w, sp)) : Issues s (.ffma w) w sp := by
  cases h; show ∃ body, execFfma w s = _; simp only [execFfma, laneOp]; exact ⟨_, rfl⟩
theorem issues_fmin (s : State) (w : NOp) (sp : OpSpec) (h : nativeRow s (.fmin w) = some (w, sp)) : Issues s (.fmin w) w sp := by
  cases h; show ∃ body, execFmin w s = _; simp only [execFmin, floatOp2, nativeRow.floatRow, laneOp]; exact ⟨_, rfl⟩
theorem issues_fmax (s : State) (w : NOp) (sp : OpSpec) (h : nativeRow s (.fmax w) = some (w, sp)) : Issues s (.fmax w) w sp := by
  cases h; show ∃ body, execFmax w s = _; simp only [execFmax, floatOp2, nativeRow.floatRow, laneOp]; exact ⟨_, rfl⟩
theorem issues_fcmp (s : State) (w : NOp) (sp : OpSpec) (h : nativeRow s (.fcmp w) = some (w, sp)) : Issues s (.fcmp w) w sp := by
  cases h; show ∃ body, execFcmp w s = _; simp only [execFcmp, cmpOp]; exact ⟨_, rfl⟩
theorem issues_frnd (s : State) (w : NOp) (sp : OpSpec) (h : nativeRow s (.frnd w) = some (w, sp)) : Issues s (.frnd w) w sp := by
  cases h; show ∃ body, execFrnd w s = _; simp only [execFrnd, floatOp1, nativeRow.float1Row, laneOp]; exact ⟨_, rfl⟩
theorem issues_frcp (s : State) (w : NOp) (sp : OpSpec) (h : nativeRow s (.frcp w) = some (w, sp)) : Issues s (.frcp w) w sp := by
  cases h; show ∃ body, execFrcp w s = _; simp only [execFrcp, floatOp1, nativeRow.float1Row, laneOp]; exact ⟨_, rfl⟩
theorem issues_frsq (s : State) (w : NOp) (sp : OpSpec) (h : nativeRow s (.frsq w) = some (w, sp)) : Issues s (.frsq w) w sp := by
  cases h; show ∃ body, execFrsq w s = _; simp only [execFrsq, floatOp1, nativeRow.float1Row, laneOp]; exact ⟨_, rfl⟩
theorem issues_fsqrt (s : State) (w : NOp) (sp : OpSpec) (h : nativeRow s (.fsqrt w) = some (w, sp)) : Issues s (.fsqrt w) w sp := by
  cases h; show ∃ body, execFsqrt w s = _; simp only [execFsqrt, floatOp1, nativeRow.float1Row, laneOp]; exact ⟨_, rfl⟩
theorem issues_fexp2 (s : State) (w : NOp) (sp : OpSpec) (h : nativeRow s (.fexp2 w) = some (w, sp)) : Issues s (.fexp2 w) w sp := by
  cases h; show ∃ body, execFexp2 w s = _; simp only [execFexp2, floatOp1, nativeRow.float1Row, laneOp]; exact ⟨_, rfl⟩
theorem issues_flog2 (s : State) (w : NOp) (sp : OpSpec) (h : nativeRow s (.flog2 w) = some (w, sp)) : Issues s (.flog2 w) w sp := by
  cases h; show ∃ body, execFlog2 w s = _; simp only [execFlog2, floatOp1, nativeRow.float1Row, laneOp]; exact ⟨_, rfl⟩
theorem issues_fsin (s : State) (w : NOp) (sp : OpSpec) (h : nativeRow s (.fsin w) = some (w, sp)) : Issues s (.fsin w) w sp := by
  cases h; show ∃ body, execFsin w s = _; simp only [execFsin, floatOp1, nativeRow.float1Row, laneOp]; exact ⟨_, rfl⟩
theorem issues_fcos (s : State) (w : NOp) (sp : OpSpec) (h : nativeRow s (.fcos w) = some (w, sp)) : Issues s (.fcos w) w sp := by
  cases h; show ∃ body, execFcos w s = _; simp only [execFcos, floatOp1, nativeRow.float1Row, laneOp]; exact ⟨_, rfl⟩
theorem issues_fclass (s : State) (w : NOp) (sp : OpSpec) (h : nativeRow s (.fclass w) = some (w, sp)) : Issues s (.fclass w) w sp := by
  cases h; show ∃ body, execFclass w s = _; simp only [execFclass, floatOp1, nativeRow.float1Row, laneOp]; exact ⟨_, rfl⟩
theorem issues_hadd2 (s : State) (w : NOp) (sp : OpSpec) (h : nativeRow s (.hadd2 w) = some (w, sp)) : Issues s (.hadd2 w) w sp := by
  cases h; show ∃ body, execHadd2 w s = _; simp only [execHadd2, packedOp2, nativeRow.packedRow, laneOp]; exact ⟨_, rfl⟩
theorem issues_hmul2 (s : State) (w : NOp) (sp : OpSpec) (h : nativeRow s (.hmul2 w) = some (w, sp)) : Issues s (.hmul2 w) w sp := by
  cases h; show ∃ body, execHmul2 w s = _; simp only [execHmul2, packedOp2, nativeRow.packedRow, laneOp]; exact ⟨_, rfl⟩
theorem issues_hfma2 (s : State) (w : NOp) (sp : OpSpec) (h : nativeRow s (.hfma2 w) = some (w, sp)) : Issues s (.hfma2 w) w sp := by
  cases h; show ∃ body, execHfma2 w s = _; simp only [execHfma2, laneOp]; exact ⟨_, rfl⟩
theorem issues_hmin2 (s : State) (w : NOp) (sp : OpSpec) (h : nativeRow s (.hmin2 w) = some (w, sp)) : Issues s (.hmin2 w) w sp := by
  cases h; show ∃ body, execHmin2 w s = _; simp only [execHmin2, packedOp2, nativeRow.packedRow, laneOp]; exact ⟨_, rfl⟩
theorem issues_hmax2 (s : State) (w : NOp) (sp : OpSpec) (h : nativeRow s (.hmax2 w) = some (w, sp)) : Issues s (.hmax2 w) w sp := by
  cases h; show ∃ body, execHmax2 w s = _; simp only [execHmax2, packedOp2, nativeRow.packedRow, laneOp]; exact ⟨_, rfl⟩
theorem issues_hdot2 (s : State) (w : NOp) (sp : OpSpec) (h : nativeRow s (.hdot2 w) = some (w, sp)) : Issues s (.hdot2 w) w sp := by
  cases h; show ∃ body, execHdot2 w s = _; simp only [execHdot2, laneOp]; exact ⟨_, rfl⟩
theorem issues_fdp4n (s : State) (w : NOp) (sp : OpSpec) (h : nativeRow s (.fdp4n w) = some (w, sp)) : Issues s (.fdp4n w) w sp := by
  cases h; show ∃ body, execFdp4n w s = _; simp only [execFdp4n]; exact ⟨_, rfl⟩
theorem issues_cvt (s : State) (w : NOp) (sp : OpSpec) (h : nativeRow s (.cvt w) = some (w, sp)) : Issues s (.cvt w) w sp := by
  cases h; show ∃ body, execCvt w s = _; simp only [execCvt, laneOp]; exact ⟨_, rfl⟩
theorem issues_cvtn (s : State) (w : NOp) (sp : OpSpec) (h : nativeRow s (.cvtn w) = some (w, sp)) : Issues s (.cvtn w) w sp := by
  cases h; show ∃ body, execCvtn w s = _; simp only [execCvtn]; exact ⟨_, rfl⟩
theorem issues_pack (s : State) (w : NOp) (sp : OpSpec) (h : nativeRow s (.pack w) = some (w, sp)) : Issues s (.pack w) w sp := by
  cases h; show ∃ body, execPack w s = _; simp only [execPack, laneOp]; exact ⟨_, rfl⟩
theorem issues_unpack (s : State) (w : NOp) (sp : OpSpec) (h : nativeRow s (.unpack w) = some (w, sp)) : Issues s (.unpack w) w sp := by
  cases h; show ∃ body, execUnpack w s = _; simp only [execUnpack, laneOp]; exact ⟨_, rfl⟩
theorem issues_scalex (s : State) (w : NOp) (sp : OpSpec) (h : nativeRow s (.scalex w) = some (w, sp)) : Issues s (.scalex w) w sp := by
  cases h; show ∃ body, execScalex w s = _; simp only [execScalex, laneOp]; exact ⟨_, rfl⟩
theorem issues_rand (s : State) (w : NOp) (sp : OpSpec) (h : nativeRow s (.rand w) = some (w, sp)) : Issues s (.rand w) w sp := by
  cases h; show ∃ body, execRand w s = _; simp only [execRand]; exact ⟨_, rfl⟩
theorem issues_rseed (s : State) (w : NOp) (sp : OpSpec) (h : nativeRow s (.rseed w) = some (w, sp)) : Issues s (.rseed w) w sp := by
  cases h; show ∃ body, execRseed w s = _; simp only [execRseed]; exact ⟨_, rfl⟩
theorem issues_shfl (s : State) (w : NOp) (sp : OpSpec) (h : nativeRow s (.shfl w) = some (w, sp)) : Issues s (.shfl w) w sp := by
  cases h; show ∃ body, execShfl w s = _; simp only [execShfl, laneOp]; exact ⟨_, rfl⟩
theorem issues_ballot (s : State) (w : NOp) (sp : OpSpec) (h : nativeRow s (.ballot w) = some (w, sp)) : Issues s (.ballot w) w sp := by
  cases h; show ∃ body, execBallot w s = _; simp only [execBallot]; exact ⟨_, rfl⟩
theorem issues_vote (s : State) (w : NOp) (sp : OpSpec) (h : nativeRow s (.vote w) = some (w, sp)) : Issues s (.vote w) w sp := by
  cases h; show ∃ body, execVote w s = _; simp only [execVote, laneOp]; exact ⟨_, rfl⟩
theorem issues_redx (s : State) (w : NOp) (sp : OpSpec) (h : nativeRow s (.redx w) = some (w, sp)) : Issues s (.redx w) w sp := by
  cases h; show ∃ body, execRedx w s = _; simp only [execRedx, treeOp, nativeRow.treeRow]; exact ⟨_, rfl⟩
theorem issues_scanx (s : State) (w : NOp) (sp : OpSpec) (h : nativeRow s (.scanx w) = some (w, sp)) : Issues s (.scanx w) w sp := by
  cases h; show ∃ body, execScanx w s = _; simp only [execScanx, treeOp, nativeRow.treeRow]; exact ⟨_, rfl⟩
theorem issues_mop (s : State) (w : NOp) (sp : OpSpec) (h : nativeRow s (.mop w) = some (w, sp)) : Issues s (.mop w) w sp := by
  cases h; show ∃ body, execMop w s = _; simp only [execMop]; exact ⟨_, rfl⟩
theorem issues_mpopc (s : State) (w : NOp) (sp : OpSpec) (h : nativeRow s (.mpopc w) = some (w, sp)) : Issues s (.mpopc w) w sp := by
  cases h; show ∃ body, execMpopc w s = _; simp only [execMpopc, laneOp]; exact ⟨_, rfl⟩
theorem issues_mfirst (s : State) (w : NOp) (sp : OpSpec) (h : nativeRow s (.mfirst w) = some (w, sp)) : Issues s (.mfirst w) w sp := by
  cases h; show ∃ body, execMfirst w s = _; simp only [execMfirst, laneOp]; exact ⟨_, rfl⟩
theorem issues_mact (s : State) (w : NOp) (sp : OpSpec) (h : nativeRow s (.mact w) = some (w, sp)) : Issues s (.mact w) w sp := by
  cases h; show ∃ body, execMact w s = _; simp only [execMact]; exact ⟨_, rfl⟩
theorem issues_mmov (s : State) (w : NOp) (sp : OpSpec) (h : nativeRow s (.mmov w) = some (w, sp)) : Issues s (.mmov w) w sp := by
  cases h; show ∃ body, execMmov w s = _; simp only [execMmov]; exact ⟨_, rfl⟩
theorem issues_spr (s : State) (w : NOp) (sp : OpSpec) (h : nativeRow s (.spr w) = some (w, sp)) : Issues s (.spr w) w sp := by
  cases h; show ∃ body, execSpr w s = _; simp only [execSpr]; exact ⟨_, rfl⟩
theorem issues_sprWr (s : State) (w : NOp) (sp : OpSpec) (h : nativeRow s (.sprWr w) = some (w, sp)) : Issues s (.sprWr w) w sp := by
  cases h; show ∃ body, execSprWr w s = _; simp only [execSprWr]; exact ⟨_, rfl⟩
theorem issues_ld (s : State) (w : NOp) (sp : OpSpec) (h : nativeRow s (.ld w) = some (w, sp)) : Issues s (.ld w) w sp := by
  cases h; show ∃ body, execLd w s = _; simp only [execLd]; exact ⟨_, rfl⟩
theorem issues_st (s : State) (w : NOp) (sp : OpSpec) (h : nativeRow s (.st w) = some (w, sp)) : Issues s (.st w) w sp := by
  cases h; show ∃ body, execSt w s = _; simp only [execSt]; exact ⟨_, rfl⟩
theorem issues_lds (s : State) (w : NOp) (sp : OpSpec) (h : nativeRow s (.lds w) = some (w, sp)) : Issues s (.lds w) w sp := by
  cases h; show ∃ body, execLds w s = _; simp only [execLds]; exact ⟨_, rfl⟩
theorem issues_sts (s : State) (w : NOp) (sp : OpSpec) (h : nativeRow s (.sts w) = some (w, sp)) : Issues s (.sts w) w sp := by
  cases h; show ∃ body, execSts w s = _; simp only [execSts]; exact ⟨_, rfl⟩
theorem issues_ldl (s : State) (w : NOp) (sp : OpSpec) (h : nativeRow s (.ldl w) = some (w, sp)) : Issues s (.ldl w) w sp := by
  cases h; show ∃ body, execLdl w s = _; simp only [execLdl]; exact ⟨_, rfl⟩
theorem issues_stl (s : State) (w : NOp) (sp : OpSpec) (h : nativeRow s (.stl w) = some (w, sp)) : Issues s (.stl w) w sp := by
  cases h; show ∃ body, execStl w s = _; simp only [execStl]; exact ⟨_, rfl⟩
theorem issues_atom (s : State) (w : NOp) (sp : OpSpec) (h : nativeRow s (.atom w) = some (w, sp)) : Issues s (.atom w) w sp := by
  cases h; show ∃ body, execAtom w s = _; simp only [execAtom]; exact ⟨_, rfl⟩
theorem issues_atoms (s : State) (w : NOp) (sp : OpSpec) (h : nativeRow s (.atoms w) = some (w, sp)) : Issues s (.atoms w) w sp := by
  cases h; show ∃ body, execAtoms w s = _; simp only [execAtoms]; exact ⟨_, rfl⟩
theorem issues_fence (s : State) (w : NOp) (sp : OpSpec) (h : nativeRow s (.fence w) = some (w, sp)) : Issues s (.fence w) w sp := by
  cases h; show ∃ body, execFence w s = _; simp only [execFence]; exact ⟨_, rfl⟩
theorem issues_cctl (s : State) (w : NOp) (sp : OpSpec) (h : nativeRow s (.cctl w) = some (w, sp)) : Issues s (.cctl w) w sp := by
  cases h; show ∃ body, execCctl w s = _; simp only [execCctl]; exact ⟨_, rfl⟩
theorem issues_pref (s : State) (w : NOp) (sp : OpSpec) (h : nativeRow s (.pref w) = some (w, sp)) : Issues s (.pref w) w sp := by
  cases h; show ∃ body, execPref w s = _; simp only [execPref]; exact ⟨_, rfl⟩
theorem issues_ipref (s : State) (w : NOp) (sp : OpSpec) (h : nativeRow s (.ipref w) = some (w, sp)) : Issues s (.ipref w) w sp := by
  cases h; show ∃ body, execIpref w s = _; simp only [execIpref, codeRange, nativeRow.codeRow]; exact ⟨_, rfl⟩
theorem issues_ipin (s : State) (w : NOp) (sp : OpSpec) (h : nativeRow s (.ipin w) = some (w, sp)) : Issues s (.ipin w) w sp := by
  cases h; show ∃ body, execIpin w s = _; simp only [execIpin, codeRange, nativeRow.codeRow]; exact ⟨_, rfl⟩
theorem issues_iunpin (s : State) (w : NOp) (sp : OpSpec) (h : nativeRow s (.iunpin w) = some (w, sp)) : Issues s (.iunpin w) w sp := by
  cases h; show ∃ body, execIunpin w s = _; simp only [execIunpin, codeRange, nativeRow.codeRow]; exact ⟨_, rfl⟩
theorem issues_ldd (s : State) (w : NOp) (sp : OpSpec) (h : nativeRow s (.ldd w) = some (w, sp)) : Issues s (.ldd w) w sp := by
  cases h; show ∃ body, execLdd w s = _; simp only [execLdd]; exact ⟨_, rfl⟩
theorem issues_std (s : State) (w : NOp) (sp : OpSpec) (h : nativeRow s (.std w) = some (w, sp)) : Issues s (.std w) w sp := by
  cases h; show ∃ body, execStd w s = _; simp only [execStd]; exact ⟨_, rfl⟩
theorem issues_bari (s : State) (w : NOp) (sp : OpSpec) (h : nativeRow s (.bari w) = some (w, sp)) : Issues s (.bari w) w sp := by
  cases h; show ∃ body, execBari w s = _; simp only [execBari]; exact ⟨_, rfl⟩
theorem issues_bara (s : State) (w : NOp) (sp : OpSpec) (h : nativeRow s (.bara w) = some (w, sp)) : Issues s (.bara w) w sp := by
  cases h; show ∃ body, execBara w s = _; simp only [execBara]; exact ⟨_, rfl⟩
theorem issues_barw (s : State) (w : NOp) (sp : OpSpec) (h : nativeRow s (.barw w) = some (w, sp)) : Issues s (.barw w) w sp := by
  cases h; show ∃ body, execBarw w s = _; simp only [execBarw]; exact ⟨_, rfl⟩
theorem issues_bars (s : State) (w : NOp) (sp : OpSpec) (h : nativeRow s (.bars w) = some (w, sp)) : Issues s (.bars w) w sp := by
  cases h; show ∃ body, execBars w s = _; simp only [execBars]; exact ⟨_, rfl⟩
theorem issues_barx (s : State) (w : NOp) (sp : OpSpec) (h : nativeRow s (.barx w) = some (w, sp)) : Issues s (.barx w) w sp := by
  cases h; show ∃ body, execBarx w s = _; simp only [execBarx]; exact ⟨_, rfl⟩
theorem issues_tbar (s : State) (w : NOp) (sp : OpSpec) (h : nativeRow s (.tbar w) = some (w, sp)) : Issues s (.tbar w) w sp := by
  cases h; show ∃ body, execTbar w s = _; simp only [execTbar]; exact ⟨_, rfl⟩
theorem issues_tlwait (s : State) (w : NOp) (sp : OpSpec) (h : nativeRow s (.tlwait w) = some (w, sp)) : Issues s (.tlwait w) w sp := by
  cases h; show ∃ body, execTlwait w s = _; simp only [execTlwait]; exact ⟨_, rfl⟩
theorem issues_tlrd (s : State) (w : NOp) (sp : OpSpec) (h : nativeRow s (.tlrd w) = some (w, sp)) : Issues s (.tlrd w) w sp := by
  cases h; show ∃ body, execTlrd w s = _; simp only [execTlrd]; exact ⟨_, rfl⟩
theorem issues_cpy (s : State) (w : NOp) (sp : OpSpec) (h : nativeRow s (.cpy w) = some (w, sp)) : Issues s (.cpy w) w sp := by
  cases h; show ∃ body, execCpy w s = _; simp only [execCpy]; exact ⟨_, rfl⟩
theorem issues_cpseal (s : State) (w : NOp) (sp : OpSpec) (h : nativeRow s (.cpseal w) = some (w, sp)) : Issues s (.cpseal w) w sp := by
  cases h; show ∃ body, execCpseal w s = _; simp only [execCpseal]; exact ⟨_, rfl⟩
theorem issues_cpwait (s : State) (w : NOp) (sp : OpSpec) (h : nativeRow s (.cpwait w) = some (w, sp)) : Issues s (.cpwait w) w sp := by
  cases h; show ∃ body, execCpwait w s = _; simp only [execCpwait]; exact ⟨_, rfl⟩
theorem issues_qctlOpen (s : State) (w : NOp) (sp : OpSpec) (h : nativeRow s (.qctlOpen w) = some (w, sp)) : Issues s (.qctlOpen w) w sp := by
  cases h; show ∃ body, execQctlOpen w s = _; simp only [execQctlOpen]; exact ⟨_, rfl⟩
theorem issues_qctlClose (s : State) (w : NOp) (sp : OpSpec) (h : nativeRow s (.qctlClose w) = some (w, sp)) : Issues s (.qctlClose w) w sp := by
  cases h; show ∃ body, execQctlClose w s = _; simp only [execQctlClose]; exact ⟨_, rfl⟩
theorem issues_qctlDrain (s : State) (w : NOp) (sp : OpSpec) (h : nativeRow s (.qctlDrain w) = some (w, sp)) : Issues s (.qctlDrain w) w sp := by
  cases h; show ∃ body, execQctlDrain w s = _; simp only [execQctlDrain]; exact ⟨_, rfl⟩
theorem issues_mcfg (s : State) (w : NOp) (sp : OpSpec) (h : nativeRow s (.mcfg w) = some (w, sp)) : Issues s (.mcfg w) w sp := by
  cases h; show ∃ body, execMcfg w s = _; simp only [execMcfg]; exact ⟨_, rfl⟩
theorem issues_mma (s : State) (w : NOp) (sp : OpSpec) (h : nativeRow s (.mma w) = some (w, sp)) : Issues s (.mma w) w sp := by
  cases h; show ∃ body, execMma w s = _; simp only [execMma]; exact ⟨_, rfl⟩
theorem issues_mloop (s : State) (w : NOp) (sp : OpSpec) (h : nativeRow s (.mloop w) = some (w, sp)) : Issues s (.mloop w) w sp := by
  cases h; show ∃ body, execMloop w s = _; simp only [execMloop]; exact ⟨_, rfl⟩
theorem issues_mzero (s : State) (w : NOp) (sp : OpSpec) (h : nativeRow s (.mzero w) = some (w, sp)) : Issues s (.mzero w) w sp := by
  cases h; show ∃ body, execMzero w s = _; simp only [execMzero, simpleTileOp]; exact ⟨_, rfl⟩
theorem issues_mlda (s : State) (w : NOp) (sp : OpSpec) (h : nativeRow s (.mlda w) = some (w, sp)) : Issues s (.mlda w) w sp := by
  cases h; show ∃ body, execMlda w s = _; simp only [execMlda]; exact ⟨_, rfl⟩
theorem issues_msta (s : State) (w : NOp) (sp : OpSpec) (h : nativeRow s (.msta w) = some (w, sp)) : Issues s (.msta w) w sp := by
  cases h; show ∃ body, execMsta w s = _; simp only [execMsta]; exact ⟨_, rfl⟩
theorem issues_mprom (s : State) (w : NOp) (sp : OpSpec) (h : nativeRow s (.mprom w) = some (w, sp)) : Issues s (.mprom w) w sp := by
  cases h; show ∃ body, execMprom w s = _; simp only [execMprom, simpleTileOp]; exact ⟨_, rfl⟩
theorem issues_mverRead (s : State) (w : NOp) (sp : OpSpec) (h : nativeRow s (.mverRead w) = some (w, sp)) : Issues s (.mverRead w) w sp := by
  cases h; show ∃ body, execMverRead w s = _; simp only [execMverRead]; exact ⟨_, rfl⟩
theorem issues_mverAcq (s : State) (w : NOp) (sp : OpSpec) (h : nativeRow s (.mverAcq w) = some (w, sp)) : Issues s (.mverAcq w) w sp := by
  cases h; show ∃ body, execMverAcq w s = _; simp only [execMverAcq]; exact ⟨_, rfl⟩
theorem issues_mverRel (s : State) (w : NOp) (sp : OpSpec) (h : nativeRow s (.mverRel w) = some (w, sp)) : Issues s (.mverRel w) w sp := by
  cases h; show ∃ body, execMverRel w s = _; simp only [execMverRel]; exact ⟨_, rfl⟩
theorem issues_mverWait (s : State) (w : NOp) (sp : OpSpec) (h : nativeRow s (.mverWait w) = some (w, sp)) : Issues s (.mverWait w) w sp := by
  cases h; show ∃ body, execMverWait w s = _; simp only [execMverWait]; exact ⟨_, rfl⟩
theorem issues_mmeta (s : State) (w : NOp) (sp : OpSpec) (h : nativeRow s (.mmeta w) = some (w, sp)) : Issues s (.mmeta w) w sp := by
  cases h; show ∃ body, execMmeta w s = _; simp only [execMmeta]; exact ⟨_, rfl⟩
theorem issues_trap (s : State) (w : NOp) (sp : OpSpec) (h : nativeRow s (.trap w) = some (w, sp)) : Issues s (.trap w) w sp := by
  cases h; show ∃ body, execTrap w s = _; simp only [execTrap]; exact ⟨_, rfl⟩
theorem issues_tret (s : State) (w : NOp) (sp : OpSpec) (h : nativeRow s (.tret w) = some (w, sp)) : Issues s (.tret w) w sp := by
  cases h; show ∃ body, execTret w s = _; simp only [execTret]; exact ⟨_, rfl⟩
theorem issues_leaseDecl (s : State) (w : NOp) (sp : OpSpec) (h : nativeRow s (.leaseDecl w) = some (w, sp)) : Issues s (.leaseDecl w) w sp := by
  cases h; show ∃ body, execLeaseDecl w s = _; simp only [execLeaseDecl]; exact ⟨_, rfl⟩
theorem issues_leaseMeas (s : State) (w : NOp) (sp : OpSpec) (h : nativeRow s (.leaseMeas w) = some (w, sp)) : Issues s (.leaseMeas w) w sp := by
  cases h; show ∃ body, execLeaseMeas w s = _; simp only [execLeaseMeas]; exact ⟨_, rfl⟩
theorem issues_czopen (s : State) (w : NOp) (sp : OpSpec) (h : nativeRow s (.czopen w) = some (w, sp)) : Issues s (.czopen w) w sp := by
  cases h; show ∃ body, execCzopen w s = _; simp only [execCzopen]; exact ⟨_, rfl⟩
theorem issues_czclose (s : State) (w : NOp) (sp : OpSpec) (h : nativeRow s (.czclose w) = some (w, sp)) : Issues s (.czclose w) w sp := by
  cases h; show ∃ body, execCzclose w s = _; simp only [execCzclose]; exact ⟨_, rfl⟩
theorem issues_spawn (s : State) (w : NOp) (sp : OpSpec) (h : nativeRow s (.spawn w) = some (w, sp)) : Issues s (.spawn w) w sp := by
  cases h; show ∃ body, execSpawn w s = _; simp only [execSpawn]; exact ⟨_, rfl⟩
theorem issues_sysrd (s : State) (w : NOp) (sp : OpSpec) (h : nativeRow s (.sysrd w) = some (w, sp)) : Issues s (.sysrd w) w sp := by
  cases h; show ∃ body, execSysrd w s = _; simp only [execSysrd]; exact ⟨_, rfl⟩
theorem issues_syswr (s : State) (w : NOp) (sp : OpSpec) (h : nativeRow s (.syswr w) = some (w, sp)) : Issues s (.syswr w) w sp := by
  cases h; show ∃ body, execSyswr w s = _; simp only [execSyswr]; exact ⟨_, rfl⟩
theorem issues_dbgbrk (s : State) (w : NOp) (sp : OpSpec) (h : nativeRow s (.dbgbrk w) = some (w, sp)) : Issues s (.dbgbrk w) w sp := by
  cases h; show ∃ body, execDbgbrk w s = _; simp only [execDbgbrk]; exact ⟨_, rfl⟩
theorem issues_dturn (s : State) (w : NOp) (sp : OpSpec) (h : nativeRow s (.dturn w) = some (w, sp)) : Issues s (.dturn w) w sp := by
  cases h; show ∃ body, execDturn w s = _; simp only [execDturn]; exact ⟨_, rfl⟩

/-- Every instruction of the table issues by `native` with the checks of its row. -/
theorem issues {s : State} {i : Instr} {w : NOp} {sp : OpSpec} (h : nativeRow s i = some (w, sp)) : Issues s i w sp := by
  cases i with
  | nop x => obtain rfl : x = w := congrArg Prod.fst (Option.some.inj h); exact issues_nop s x sp h
  | bra x => obtain rfl : x = w := congrArg Prod.fst (Option.some.inj h); exact issues_bra s x sp h
  | brx x => obtain rfl : x = w := congrArg Prod.fst (Option.some.inj h); exact issues_brx s x sp h
  | call x => obtain rfl : x = w := congrArg Prod.fst (Option.some.inj h); exact issues_call s x sp h
  | callx x => obtain rfl : x = w := congrArg Prod.fst (Option.some.inj h); exact issues_callx s x sp h
  | ret x => obtain rfl : x = w := congrArg Prod.fst (Option.some.inj h); exact issues_ret s x sp h
  | join x => obtain rfl : x = w := congrArg Prod.fst (Option.some.inj h); exact issues_join s x sp h
  | exit x => obtain rfl : x = w := congrArg Prod.fst (Option.some.inj h); exact issues_exit s x sp h
  | sleep x => obtain rfl : x = w := congrArg Prod.fst (Option.some.inj h); exact issues_sleep s x sp h
  | sleepBar x => obtain rfl : x = w := congrArg Prod.fst (Option.some.inj h); exact issues_sleepBar s x sp h
  | yield x => obtain rfl : x = w := congrArg Prod.fst (Option.some.inj h); exact issues_yield s x sp h
  | iadd x => obtain rfl : x = w := congrArg Prod.fst (Option.some.inj h); exact issues_iadd s x sp h
  | isub x => obtain rfl : x = w := congrArg Prod.fst (Option.some.inj h); exact issues_isub s x sp h
  | imul x => obtain rfl : x = w := congrArg Prod.fst (Option.some.inj h); exact issues_imul s x sp h
  | imulh x => obtain rfl : x = w := congrArg Prod.fst (Option.some.inj h); exact issues_imulh s x sp h
  | imin x => obtain rfl : x = w := congrArg Prod.fst (Option.some.inj h); exact issues_imin s x sp h
  | imax x => obtain rfl : x = w := congrArg Prod.fst (Option.some.inj h); exact issues_imax s x sp h
  | imad x => obtain rfl : x = w := congrArg Prod.fst (Option.some.inj h); exact issues_imad s x sp h
  | iaddc x => obtain rfl : x = w := congrArg Prod.fst (Option.some.inj h); exact issues_iaddc s x sp h
  | iabs x => obtain rfl : x = w := congrArg Prod.fst (Option.some.inj h); exact issues_iabs s x sp h
  | icmp x => obtain rfl : x = w := congrArg Prod.fst (Option.some.inj h); exact issues_icmp s x sp h
  | sel x => obtain rfl : x = w := congrArg Prod.fst (Option.some.inj h); exact issues_sel s x sp h
  | and x => obtain rfl : x = w := congrArg Prod.fst (Option.some.inj h); exact issues_and s x sp h
  | or x => obtain rfl : x = w := congrArg Prod.fst (Option.some.inj h); exact issues_or s x sp h
  | xor x => obtain rfl : x = w := congrArg Prod.fst (Option.some.inj h); exact issues_xor s x sp h
  | andn x => obtain rfl : x = w := congrArg Prod.fst (Option.some.inj h); exact issues_andn s x sp h
  | shl x => obtain rfl : x = w := congrArg Prod.fst (Option.some.inj h); exact issues_shl s x sp h
  | shr x => obtain rfl : x = w := congrArg Prod.fst (Option.some.inj h); exact issues_shr s x sp h
  | sar x => obtain rfl : x = w := congrArg Prod.fst (Option.some.inj h); exact issues_sar s x sp h
  | rotl x => obtain rfl : x = w := congrArg Prod.fst (Option.some.inj h); exact issues_rotl s x sp h
  | bfe x => obtain rfl : x = w := congrArg Prod.fst (Option.some.inj h); exact issues_bfe s x sp h
  | bfi x => obtain rfl : x = w := congrArg Prod.fst (Option.some.inj h); exact issues_bfi s x sp h
  | popc x => obtain rfl : x = w := congrArg Prod.fst (Option.some.inj h); exact issues_popc s x sp h
  | clz x => obtain rfl : x = w := congrArg Prod.fst (Option.some.inj h); exact issues_clz s x sp h
  | ctz x => obtain rfl : x = w := congrArg Prod.fst (Option.some.inj h); exact issues_ctz s x sp h
  | lea x => obtain rfl : x = w := congrArg Prod.fst (Option.some.inj h); exact issues_lea s x sp h
  | mov x => obtain rfl : x = w := congrArg Prod.fst (Option.some.inj h); exact issues_mov s x sp h
  | movi x => obtain rfl : x = w := congrArg Prod.fst (Option.some.inj h); exact issues_movi s x sp h
  | movhi x => obtain rfl : x = w := congrArg Prod.fst (Option.some.inj h); exact issues_movhi s x sp h
  | iadd64 x => obtain rfl : x = w := congrArg Prod.fst (Option.some.inj h); exact issues_iadd64 s x sp h
  | imad64 x => obtain rfl : x = w := congrArg Prod.fst (Option.some.inj h); exact issues_imad64 s x sp h
  | idp4 x => obtain rfl : x = w := congrArg Prod.fst (Option.some.inj h); exact issues_idp4 s x sp h
  | fadd x => obtain rfl : x = w := congrArg Prod.fst (Option.some.inj h); exact issues_fadd s x sp h
  | fsub x => obtain rfl : x = w := congrArg Prod.fst (Option.some.inj h); exact issues_fsub s x sp h
  | fmul x => obtain rfl : x = w := congrArg Prod.fst (Option.some.inj h); exact issues_fmul s x sp h
  | ffma x => obtain rfl : x = w := congrArg Prod.fst (Option.some.inj h); exact issues_ffma s x sp h
  | fmin x => obtain rfl : x = w := congrArg Prod.fst (Option.some.inj h); exact issues_fmin s x sp h
  | fmax x => obtain rfl : x = w := congrArg Prod.fst (Option.some.inj h); exact issues_fmax s x sp h
  | fcmp x => obtain rfl : x = w := congrArg Prod.fst (Option.some.inj h); exact issues_fcmp s x sp h
  | frnd x => obtain rfl : x = w := congrArg Prod.fst (Option.some.inj h); exact issues_frnd s x sp h
  | frcp x => obtain rfl : x = w := congrArg Prod.fst (Option.some.inj h); exact issues_frcp s x sp h
  | frsq x => obtain rfl : x = w := congrArg Prod.fst (Option.some.inj h); exact issues_frsq s x sp h
  | fsqrt x => obtain rfl : x = w := congrArg Prod.fst (Option.some.inj h); exact issues_fsqrt s x sp h
  | fexp2 x => obtain rfl : x = w := congrArg Prod.fst (Option.some.inj h); exact issues_fexp2 s x sp h
  | flog2 x => obtain rfl : x = w := congrArg Prod.fst (Option.some.inj h); exact issues_flog2 s x sp h
  | fsin x => obtain rfl : x = w := congrArg Prod.fst (Option.some.inj h); exact issues_fsin s x sp h
  | fcos x => obtain rfl : x = w := congrArg Prod.fst (Option.some.inj h); exact issues_fcos s x sp h
  | fclass x => obtain rfl : x = w := congrArg Prod.fst (Option.some.inj h); exact issues_fclass s x sp h
  | hadd2 x => obtain rfl : x = w := congrArg Prod.fst (Option.some.inj h); exact issues_hadd2 s x sp h
  | hmul2 x => obtain rfl : x = w := congrArg Prod.fst (Option.some.inj h); exact issues_hmul2 s x sp h
  | hfma2 x => obtain rfl : x = w := congrArg Prod.fst (Option.some.inj h); exact issues_hfma2 s x sp h
  | hmin2 x => obtain rfl : x = w := congrArg Prod.fst (Option.some.inj h); exact issues_hmin2 s x sp h
  | hmax2 x => obtain rfl : x = w := congrArg Prod.fst (Option.some.inj h); exact issues_hmax2 s x sp h
  | hdot2 x => obtain rfl : x = w := congrArg Prod.fst (Option.some.inj h); exact issues_hdot2 s x sp h
  | fdp4n x => obtain rfl : x = w := congrArg Prod.fst (Option.some.inj h); exact issues_fdp4n s x sp h
  | cvt x => obtain rfl : x = w := congrArg Prod.fst (Option.some.inj h); exact issues_cvt s x sp h
  | cvtn x => obtain rfl : x = w := congrArg Prod.fst (Option.some.inj h); exact issues_cvtn s x sp h
  | pack x => obtain rfl : x = w := congrArg Prod.fst (Option.some.inj h); exact issues_pack s x sp h
  | unpack x => obtain rfl : x = w := congrArg Prod.fst (Option.some.inj h); exact issues_unpack s x sp h
  | scalex x => obtain rfl : x = w := congrArg Prod.fst (Option.some.inj h); exact issues_scalex s x sp h
  | rand x => obtain rfl : x = w := congrArg Prod.fst (Option.some.inj h); exact issues_rand s x sp h
  | rseed x => obtain rfl : x = w := congrArg Prod.fst (Option.some.inj h); exact issues_rseed s x sp h
  | shfl x => obtain rfl : x = w := congrArg Prod.fst (Option.some.inj h); exact issues_shfl s x sp h
  | ballot x => obtain rfl : x = w := congrArg Prod.fst (Option.some.inj h); exact issues_ballot s x sp h
  | vote x => obtain rfl : x = w := congrArg Prod.fst (Option.some.inj h); exact issues_vote s x sp h
  | redx x => obtain rfl : x = w := congrArg Prod.fst (Option.some.inj h); exact issues_redx s x sp h
  | scanx x => obtain rfl : x = w := congrArg Prod.fst (Option.some.inj h); exact issues_scanx s x sp h
  | mop x => obtain rfl : x = w := congrArg Prod.fst (Option.some.inj h); exact issues_mop s x sp h
  | mpopc x => obtain rfl : x = w := congrArg Prod.fst (Option.some.inj h); exact issues_mpopc s x sp h
  | mfirst x => obtain rfl : x = w := congrArg Prod.fst (Option.some.inj h); exact issues_mfirst s x sp h
  | mact x => obtain rfl : x = w := congrArg Prod.fst (Option.some.inj h); exact issues_mact s x sp h
  | mmov x => obtain rfl : x = w := congrArg Prod.fst (Option.some.inj h); exact issues_mmov s x sp h
  | spr x => obtain rfl : x = w := congrArg Prod.fst (Option.some.inj h); exact issues_spr s x sp h
  | sprWr x => obtain rfl : x = w := congrArg Prod.fst (Option.some.inj h); exact issues_sprWr s x sp h
  | ld x => obtain rfl : x = w := congrArg Prod.fst (Option.some.inj h); exact issues_ld s x sp h
  | st x => obtain rfl : x = w := congrArg Prod.fst (Option.some.inj h); exact issues_st s x sp h
  | lds x => obtain rfl : x = w := congrArg Prod.fst (Option.some.inj h); exact issues_lds s x sp h
  | sts x => obtain rfl : x = w := congrArg Prod.fst (Option.some.inj h); exact issues_sts s x sp h
  | ldl x => obtain rfl : x = w := congrArg Prod.fst (Option.some.inj h); exact issues_ldl s x sp h
  | stl x => obtain rfl : x = w := congrArg Prod.fst (Option.some.inj h); exact issues_stl s x sp h
  | atom x => obtain rfl : x = w := congrArg Prod.fst (Option.some.inj h); exact issues_atom s x sp h
  | atoms x => obtain rfl : x = w := congrArg Prod.fst (Option.some.inj h); exact issues_atoms s x sp h
  | fence x => obtain rfl : x = w := congrArg Prod.fst (Option.some.inj h); exact issues_fence s x sp h
  | cctl x => obtain rfl : x = w := congrArg Prod.fst (Option.some.inj h); exact issues_cctl s x sp h
  | pref x => obtain rfl : x = w := congrArg Prod.fst (Option.some.inj h); exact issues_pref s x sp h
  | ipref x => obtain rfl : x = w := congrArg Prod.fst (Option.some.inj h); exact issues_ipref s x sp h
  | ipin x => obtain rfl : x = w := congrArg Prod.fst (Option.some.inj h); exact issues_ipin s x sp h
  | iunpin x => obtain rfl : x = w := congrArg Prod.fst (Option.some.inj h); exact issues_iunpin s x sp h
  | ldd x => obtain rfl : x = w := congrArg Prod.fst (Option.some.inj h); exact issues_ldd s x sp h
  | std x => obtain rfl : x = w := congrArg Prod.fst (Option.some.inj h); exact issues_std s x sp h
  | bari x => obtain rfl : x = w := congrArg Prod.fst (Option.some.inj h); exact issues_bari s x sp h
  | bara x => obtain rfl : x = w := congrArg Prod.fst (Option.some.inj h); exact issues_bara s x sp h
  | barw x => obtain rfl : x = w := congrArg Prod.fst (Option.some.inj h); exact issues_barw s x sp h
  | bars x => obtain rfl : x = w := congrArg Prod.fst (Option.some.inj h); exact issues_bars s x sp h
  | barx x => obtain rfl : x = w := congrArg Prod.fst (Option.some.inj h); exact issues_barx s x sp h
  | tbar x => obtain rfl : x = w := congrArg Prod.fst (Option.some.inj h); exact issues_tbar s x sp h
  | tlwait x => obtain rfl : x = w := congrArg Prod.fst (Option.some.inj h); exact issues_tlwait s x sp h
  | tlrd x => obtain rfl : x = w := congrArg Prod.fst (Option.some.inj h); exact issues_tlrd s x sp h
  | cpy x => obtain rfl : x = w := congrArg Prod.fst (Option.some.inj h); exact issues_cpy s x sp h
  | cpseal x => obtain rfl : x = w := congrArg Prod.fst (Option.some.inj h); exact issues_cpseal s x sp h
  | cpwait x => obtain rfl : x = w := congrArg Prod.fst (Option.some.inj h); exact issues_cpwait s x sp h
  | qctlOpen x => obtain rfl : x = w := congrArg Prod.fst (Option.some.inj h); exact issues_qctlOpen s x sp h
  | qctlClose x => obtain rfl : x = w := congrArg Prod.fst (Option.some.inj h); exact issues_qctlClose s x sp h
  | qctlDrain x => obtain rfl : x = w := congrArg Prod.fst (Option.some.inj h); exact issues_qctlDrain s x sp h
  | mcfg x => obtain rfl : x = w := congrArg Prod.fst (Option.some.inj h); exact issues_mcfg s x sp h
  | mma x => obtain rfl : x = w := congrArg Prod.fst (Option.some.inj h); exact issues_mma s x sp h
  | mloop x => obtain rfl : x = w := congrArg Prod.fst (Option.some.inj h); exact issues_mloop s x sp h
  | mzero x => obtain rfl : x = w := congrArg Prod.fst (Option.some.inj h); exact issues_mzero s x sp h
  | mlda x => obtain rfl : x = w := congrArg Prod.fst (Option.some.inj h); exact issues_mlda s x sp h
  | msta x => obtain rfl : x = w := congrArg Prod.fst (Option.some.inj h); exact issues_msta s x sp h
  | mprom x => obtain rfl : x = w := congrArg Prod.fst (Option.some.inj h); exact issues_mprom s x sp h
  | mverRead x => obtain rfl : x = w := congrArg Prod.fst (Option.some.inj h); exact issues_mverRead s x sp h
  | mverAcq x => obtain rfl : x = w := congrArg Prod.fst (Option.some.inj h); exact issues_mverAcq s x sp h
  | mverRel x => obtain rfl : x = w := congrArg Prod.fst (Option.some.inj h); exact issues_mverRel s x sp h
  | mverWait x => obtain rfl : x = w := congrArg Prod.fst (Option.some.inj h); exact issues_mverWait s x sp h
  | mmeta x => obtain rfl : x = w := congrArg Prod.fst (Option.some.inj h); exact issues_mmeta s x sp h
  | trap x => obtain rfl : x = w := congrArg Prod.fst (Option.some.inj h); exact issues_trap s x sp h
  | tret x => obtain rfl : x = w := congrArg Prod.fst (Option.some.inj h); exact issues_tret s x sp h
  | leaseDecl x => obtain rfl : x = w := congrArg Prod.fst (Option.some.inj h); exact issues_leaseDecl s x sp h
  | leaseMeas x => obtain rfl : x = w := congrArg Prod.fst (Option.some.inj h); exact issues_leaseMeas s x sp h
  | czopen x => obtain rfl : x = w := congrArg Prod.fst (Option.some.inj h); exact issues_czopen s x sp h
  | czclose x => obtain rfl : x = w := congrArg Prod.fst (Option.some.inj h); exact issues_czclose s x sp h
  | spawn x => obtain rfl : x = w := congrArg Prod.fst (Option.some.inj h); exact issues_spawn s x sp h
  | sysrd x => obtain rfl : x = w := congrArg Prod.fst (Option.some.inj h); exact issues_sysrd s x sp h
  | syswr x => obtain rfl : x = w := congrArg Prod.fst (Option.some.inj h); exact issues_syswr s x sp h
  | dbgbrk x => obtain rfl : x = w := congrArg Prod.fst (Option.some.inj h); exact issues_dbgbrk s x sp h
  | dturn x => obtain rfl : x = w := congrArg Prod.fst (Option.some.inj h); exact issues_dturn s x sp h
  | _ => cases h

end Sys2Proof.Laws
end

