-- ==== Sys2Proof/Laws/Sched.lean ====
section
/-! SUPPORT. Lists and choices of the scheduler: the least of a list, who is ready, who is admitted. -/
namespace Sys2Proof.Laws
open Sys2Proof Sys2Proof.Machine

theorem coachOf_of_tget {s : State} {k co} (h : tget s.coaches k = some co) : coachOf s k = co := by simp [coachOf, tgetD, h]

theorem modAt_set {α} (f : α → α) (l : List α) (i : Nat) (a : α) (h : l[i]? = some a) : modAt f l i = l.set i (f a) := by
  induction l generalizing i with
  | nil => simp at h
  | cons x l ih => cases i with
    | zero => simp at h; simp [modAt, h]
    | succ i => simp at h; simp [modAt, ih i h]

theorem modCoach_of {s : State} {k co} (h : tget s.coaches k = some co) (f) : modCoach s k f = setCoach s k (f co) := by
  simp [modCoach, setCoach, tmod, h]

theorem leastBy_eq_none (f l) : leastBy f l = none ↔ l = [] := by
  cases l with
  | nil => simp [leastBy]
  | cons a l => simp only [leastBy]; cases h : leastBy f l with
    | none => simp
    | some b => by_cases h' : f a ≤ f b <;> simp [h']

theorem leastBy_spec (f : Nat → Nat) : ∀ (l : List Nat) (a : Nat), leastBy f l = some a → a ∈ l ∧ ∀ x ∈ l, f a ≤ f x := by
  intro l; induction l with
  | nil => intro a h; simp [leastBy] at h
  | cons y l ih =>
    intro a h
    simp only [leastBy] at h
    cases hl : leastBy f l with
    | none =>
      rw [hl] at h; simp at h; subst h
      have := (leastBy_eq_none f l).1 hl; subst this; simp
    | some b =>
      rw [hl] at h; simp only at h
      obtain ⟨hb, hm⟩ := ih b hl
      by_cases hh : f y ≤ f b
      · rw [if_pos hh] at h; cases h
        exact ⟨by simp, fun x hx => by
          rcases List.mem_cons.1 hx with rfl | hx; exact Nat.le_refl _; exact Nat.le_trans hh (hm x hx)⟩
      · rw [if_neg hh] at h; cases h
        exact ⟨by simp [hb], fun x hx => by
          rcases List.mem_cons.1 hx with rfl | hx
          · omega
          · exact hm x hx⟩

theorem fillPop_at {s : State} {k co before after st q sel take} (hc : tget s.coaches k = some co) (h : co.stalls = before ++ st :: after)
    (hk : st.kind = .pop q none) (hs : sel q = true) (hb : ∀ x ∈ before, ∀ p, x.kind = .pop p none → sel p = false) :
    fillPop s k sel take = match take s q with
    | none => s
    | some (e, s) => modCoach s k (fun co => { co with stalls := co.stalls.map (fun x => if x = st then { x with kind := .pop q (some e) } else x) }) := by
  unfold fillPop
  rw [coachOf_of_tget hc]
  have : co.stalls.findSome? (fun st => match st.kind with
    | .pop q none => if sel q then some (st, q) else none
    | _ => none) = some (st, q) := by
    rw [h, List.findSome?_append]
    have : before.findSome? (fun st => match st.kind with
      | .pop q none => if sel q then some (st, q) else none
      | _ => none) = none := by
      rw [List.findSome?_eq_none_iff]
      intro x hx
      split
      · rename_i q' hq; rw [hb x hx q' hq]; rfl
      · rfl
    rw [this]; simp [hk, hs]
  simp only []
  first
  | (erw [this]; done)
  | (erw [this]; cases hh : take s q <;> simp only [hh])

theorem le_foldl_max (l : List Nat) : ∀ a, a ≤ l.foldl (fun a b => if a < b then b else a) a ∧ ∀ x ∈ l, x ≤ l.foldl (fun a b => if a < b then b else a) a := by
  induction l with
  | nil => intro a; simp
  | cons y l ih =>
    intro a
    simp only [List.foldl_cons, List.mem_cons]
    obtain ⟨h1, h2⟩ := ih (if a < y then y else a)
    refine ⟨Nat.le_trans (by split <;> omega) h1, ?_⟩
    rintro x (rfl | hx)
    · exact Nat.le_trans (by split <;> omega) h1
    · exact h2 x hx

theorem isDet_region {s : State} {a b : Coach} (h : a.region = b.region) : isDet s a = isDet s b := by unfold isDet; rw [h]

theorem selectIn_spec {s n i k} (h : selectIn s n = some (i, k)) : (i, k) ∈ readyIn s (n / 4) (n % 4)
   ∧ (isDet s (coachOf s k) = false → ∀ e ∈ readyIn s (n / 4) (n % 4), effectivePrio s (coachOf s e.2) ≤ effectivePrio s (coachOf s k)) := by
  unfold selectIn at h
  simp only [] at h
  split at h
  · cases h
  · rename_i i' hi
    split at h
    · cases h
    · rename_i e he
      have hm := List.mem_of_find?_eq_some he
      rw [List.mem_filter] at hm
      have key : ∀ x ∈ readyIn s (n / 4) (n % 4), effectivePrio s (coachOf s x.2) ≤ effectivePrio s (coachOf s e.2) := by
        intro x hx
        have h1 := (le_foldl_max ((readyIn s (n / 4) (n % 4)).map (fun e => effectivePrio s (coachOf s e.2))) 0).2 _ (List.mem_map_of_mem hx)
        have h2 := hm.2
        simp only [beq_iff_eq] at h2
        rw [h2]; exact h1
      split at h
      · cases h; exact ⟨hm.1, fun _ => key⟩
      · rename_i hd
        split at h
        · rename_i j hj
          cases hx : (readyIn s (n / 4) (n % 4)).find? (fun x => x.1 == j && (coachOf s x.2).region == (coachOf s e.2).region) with
          | none => rw [hx] at h; cases h; exact ⟨hm.1, fun _ => key⟩
          | some x =>
            rw [hx] at h; cases h
            refine ⟨List.mem_of_find?_eq_some hx, fun hh => ?_⟩
            have h2 := List.find?_some hx
            simp only [Bool.and_eq_true, beq_iff_eq] at h2
            rw [isDet_region h2.2] at hh
            simp [hh] at hd
        · cases h; exact ⟨hm.1, fun _ => key⟩

theorem readyIn_ready {s c q i k} (h : (i, k) ∈ readyIn s c q) : coachReady s k = true := by
  unfold readyIn at h
  exact (List.mem_filter.1 h).2

theorem admit_spec {s n k} (h : admitNext s n = some k) : (poolCoaches s n).filter (fun e => e.2.active) = []
   ∨ leaseSum ((poolCoaches s n).filter (fun e => e.2.active)) + (coachOf s k).leaseG ≤ poolCeiling s n := by
  unfold admitNext at h
  simp only [] at h
  have gen : ∀ (l : List Nat) (acc : Option Nat × Bool), (acc.1 = some k → (poolCoaches s n).filter (fun e => e.2.active) = []
     ∨ leaseSum ((poolCoaches s n).filter (fun e => e.2.active)) + (coachOf s k).leaseG ≤ poolCeiling s n) → (l.foldl (fun (acc : Option Nat × Bool) (k : Nat) =>
    if acc.2 then acc
    else
      let co := coachOf s k
      let cap := leaseCap s co.region
      if poolCeiling s n < co.leaseG ∨ cap < co.leaseG then (if ((poolCoaches s n).filter (fun e => e.2.active)).isEmpty then (some k, true) else acc)
      else if leaseSum ((poolCoaches s n).filter (fun e => e.2.active)) + co.leaseG ≤ poolCeiling s n
          ∧ leaseSum (((poolCoaches s n).filter (fun e => e.2.active)).filter (fun e => e.2.region == co.region)) + co.leaseG ≤ cap then (some k, true)
      else (none, true)) acc).1 = some k → (poolCoaches s n).filter (fun e => e.2.active) = []
     ∨ leaseSum ((poolCoaches s n).filter (fun e => e.2.active)) + (coachOf s k).leaseG ≤ poolCeiling s n := by
    intro l; induction l with
    | nil => intro acc h1 h2; exact h1 h2
    | cons x l ih =>
      intro acc h1 h2
      rw [List.foldl_cons] at h2
      refine ih _ ?_ h2
      intro h3
      split at h3
      · exact h1 h3
      · simp only [] at h3
        split at h3
        · split at h3
          · rename_i he; exact Or.inl (by simpa [List.isEmpty_iff] using he)
          · exact h1 h3
        · split at h3
          · rename_i hh; simp at h3; subst h3; exact Or.inr hh.1
          · cases h3
  exact gen _ (none, false) (by simp) h

theorem clockTo_coaches (s u t) : (clockTo s u t).coaches = s.coaches := by unfold clockTo addCycles; split <;> rfl

theorem clockTo_regions (s u t) : (clockTo s u t).regions = s.regions := by unfold clockTo addCycles; split <;> rfl

end Sys2Proof.Laws
end

