-- ==== Sys2Proof/Laws/Traps.lean ====
section
/-! SUPPORT. Taking a trap, step by step: the trap is noted, nothing is outstanding, the frame is written, the handler is entered. -/
namespace Sys2Proof.Laws
open Sys2Proof Sys2Proof.Machine

@[simp] theorem setCoach_setCoach (s k a b) : setCoach (setCoach s k a) k b = setCoach s k b := by simp [setCoach]

@[simp] theorem coachOf_setCoach (s k a) : coachOf (setCoach s k a) k = a := by simp [coachOf, setCoach]

@[simp] theorem tget_setCoach (s k a) : tget (setCoach s k a).coaches k = some a := by simp [setCoach]

theorem modCoach_of_tget {s : State} {k co} (h : tget s.coaches k = some co) (f) : modCoach s k f = setCoach s k (f co) := by simp [modCoach, tmod, h, setCoach]

theorem commitAll_empty {s k co} (h : tget s.coaches k = some co) (hr : co.rbuf = []) : commitAll s k = ([0,0,0,0,0,0], setCoach s k co) := by
  have hc : coachOf s k = co := by simp [coachOf, tgetD, h]
  unfold commitAll; simp only [hc, hr, List.foldl_nil]
  have : flagWord [0,0,0,0,0,0] = 0 := by decide
  rw [this]
  have e : ({ co with rbuf := [], fstat := co.fstat ||| BitVec.ofNat 32 0 } : Coach) = co := by
    cases co; simp at hr; simp [hr]
  rw [e]

theorem takeTrap_empty {s k x t} (hr : x.rbuf = []) (hc : commitWaits x = false) (ht : x.trap = some t) : takeTrap (setCoach s k x) k = enterHandler (setCoach s k x) k t := by
  unfold takeTrap
  simp only [coachOf_setCoach, ht]
  have hd : dropStuck (setCoach s k x) x = x := by
    unfold dropStuck; rw [hr]; cases x; simp at hr; simp [hr]
  rw [hd, setCoach_setCoach]
  have ha : allReturned x = true := by unfold allReturned; simp [hr]
  rw [ha]
  simp only [Bool.not_true, Bool.false_or, hc, Bool.false_eq_true, if_false]
  rw [commitAll_empty (tget_setCoach _ _ _) hr, setCoach_setCoach]
  simp only [coachOf_setCoach]
  have hf : commitFpe x [] [0,0,0,0,0,0] = none := by
    unfold commitFpe; have : flagWord [0,0,0,0,0,0] = 0 := by decide
    unfold enabledBits; rw [show flagWord [(0 : Mask), 0, 0, 0, 0, 0] = 0 from this]; simp
  rw [hr, hf]
  have ht' : ∀ b : Bool, (if b = true then t else afterCommit t none) = t := by intro b; cases b <;> rfl
  rw [ht']
  rw [modCoach_of_tget (tget_setCoach _ _ _), setCoach_setCoach]
  have : ({ x with trap := some t } : Coach) = x := by cases x; simp at ht; simp [ht]
  rw [this, hc]
  simp

theorem raiseTrap_empty {s k co t} (h : tget s.coaches k = some co) (hr : co.rbuf = []) (hc : commitWaits co = false) :
   raiseTrap s k t = enterHandler (setCoach s k { co with trap := some t, pair := none, resume := none }) k t := by
  unfold raiseTrap
  rw [modCoach_of_tget h]
  exact takeTrap_empty hr hc rfl

theorem enterHandler_spec {s k x t c s1 x1} (hx : ctxOf (setCoach s k x) x = some c) (hf : fatalFlags c x t.cls = none)
   (hw : writeFrame (setCoach s k x) k (frameAddr c x) (frameBytes (movePcs x t) t (t.rmask.getD (activeSet x)) (if t.cls = 8 then 2 else 0) 0) = (.ok (), s1))
   (hg : tget s1.coaches k = some x1) :
   ∃ y, enterHandler (setCoach s k x) k t = setCoach s1 k y ∧ y = { movePcs x1 t with
      s := y.s, lanes := y.lanes, trap := none, inHandler := true, rmask := t.rmask.getD (activeSet x), entryLanes := (movePcs x1 t).lanes
      heldStalls := y.heldStalls, stalls := y.stalls, commitPush := t.commit }
   ∧ y.s = (sset (sset (sset (sset (movePcs x1 t) 30 (BitVec.ofNat 32 (frameAddr c x))) 31 (BitVec.ofNat 32 (frameAddr c x / 2 ^ 32))) 28 (BitVec.ofNat 32 (t.cls + 256 * t.sub + 65536 * t.step))) 29 0).s
   ∧ y.lanes = mapFrom (fun l z => if (t.rmask.getD (activeSet x)).getLsbD l then ({ z with state := .running, wait := .none } : Lane).goto (movePcs x1 t).orderNext ((handlerOf c t.cls).extractLsb' 0 57) else z) 0 (movePcs x1 t).lanes := by
  unfold enterHandler
  simp only [coachOf_setCoach, hx, hf, hw]
  rw [modCoach_of_tget hg]
  generalize movePcs x1 t = m0
  simp only [sset, modLanes]
  generalize hP : List.partition _ m0.stalls = P
  obtain ⟨heldTile_held, rest⟩ := P
  simp only []
  generalize hQ : List.partition _ rest = Q
  obtain ⟨a, b⟩ := Q
  simp only []
  exact ⟨_, rfl, rfl, rfl, rfl⟩

theorem mapFrom_get {α β} (f : Nat → α → β) (l : List α) (n i : Nat) (x : α) (h : l[i]? = some x) : (mapFrom f n l)[i]? = some (f (n + i) x) := by
  induction l generalizing n i with
  | nil => simp at h
  | cons a l ih => cases i with
    | zero => simp at h; simp [mapFrom, h]
    | succ i => simp at h; simp [mapFrom, ih (n+1) i h]; congr 1; omega

theorem ctxOf_setCoach (s k co c) (h : ctxOf s co = some c) (a) (x : Coach) (hx : x.ctx = co.ctx) : ctxOf (setCoach s k a) x = some c := by
  unfold ctxOf at *; rw [hx]; exact h

end Sys2Proof.Laws
end

