-- ==== Sys2Proof/Tests/Small.lean ====
section
/-! SUPPORT. Small states for the tests: the machine of log 2 with one coach whose lane 0 has reached an operation, or with
one running dray context, and what its instructions need. -/
namespace Sys2Proof.Tests
open Sys2Proof Sys2Proof.Machine

/-- Lane 0 of coach 0 has reached an operation at 0x4000. -/
def latch : Iss := { coach := 0, group := 1, ga := 0x4000, step := 0, len := 8, count := 1, word := 0, gunit := 0 }
/-- Coach 0 is `co`. -/
def st (co : Coach) : State :=
  { Boot.withNative State.reset 0 with coaches := [(0, co)], iss := latch }
/-- The coach of log 2. -/
def base : State := st Boot.coach
/-- The same with registers: v1 to v6 of lane 0, and s0 to s7. -/
def regs (v : List Word) (s : List Word) : State :=
  st { Boot.coach with v := mapFrom (fun i x => (64 * i, x)) 1 v, s := mapFrom (fun i x => (i, x)) 0 s }
/-- A word in F-R, by its fields; X from TY, RM and OPX (02 R55). -/
def wr (d a b c : BitVec 8) (ty rm opx : Nat) : NOp :=
  { sw := false, pm := 0, pn := false, fmt := .fr d a b c (BitVec.ofNat 17 (ty * 8192 + rm * 1024 + opx)) }
/-- A word in F-I; XS from TY, RM and OPXS. -/
def wi (d a : BitVec 8) (imm : BitVec 24) (ty rm opx : Nat) : NOp :=
  { sw := false, pm := 0, pn := false, fmt := .fi d a (BitVec.ofNat 9 (ty * 32 + rm * 4 + opx)) imm }
/-- A word in F-L with XS zero. -/
def wl (d : BitVec 8) (imm : BitVec 32) : NOp := { sw := false, pm := 0, pn := false, fmt := .fl d 0 imm }
/-- Operand codes (01 R27): scalar register, queue register, z. -/
def sc (n : Nat) : BitVec 8 := BitVec.ofNat 8 (0xC0 + n)
def qc (n : Nat) : BitVec 8 := BitVec.ofNat 8 (0xE0 + n)
def zc : BitVec 8 := 0xF0
/-- Every instruction of the list issues with nothing in its way. -/
def allClear (s : State) (l : List Instr) : Bool := l.all (fun i => clear s i)
/-- The word of the instruction, whose D is no queue register. -/
def noQ (s : State) (l : List Instr) : Bool :=
  l.all (fun i => ((nativeRow s i).map (fun r => noQueue r.1)).getD false)
/-- Lane 0 of register `r` after the instruction. -/
def laneReg (i : Instr) (s : State) (r : Nat) : Option Word :=
  match exec i s with
  | .next t => some (vget (coachOf t 0) r 0)
  | _ => none
/-- FSTAT after the instruction. -/
def fstatOf (i : Instr) (s : State) : Option Word :=
  match exec i s with
  | .next t => some (coachOf t 0).fstat
  | _ => none
/-- The class, subtype and operand byte of the pending or handled trap: what s28 and s29 and the frame take. -/
def haltOfRake (i : Instr) (s : State) : Option (Nat × Nat) :=
  match exec i s with
  | .next t => ((tget t.rakes 0).bind Rake.halt).map (fun h => (h.2.1, h.2.2.1))
  | _ => none
/-- The dray context of log 2, ready, with registers d1 to d4. -/
def dr (d : Dray) : State := { Boot.withDray State.reset 0 with drays := [(0, d)] }
def drayRegs (l : List Dword) : State := dr { Boot.dray with regs := mapFrom (fun i x => (i, x)) 1 l }
/-- Register `r` of the dray context after the instruction. -/
def drayReg (i : Instr) (s : State) (r : BitVec 4) : Option Dword :=
  match exec i s with
  | .next t => some (dget (Sys2Proof.Machine.drayOf t 0) r)
  | _ => none

end Sys2Proof.Tests
end

