-- ==== Sys2Proof/Tests/Dray.lean ====
section
/-! SUPPORT. Tests of dray instructions, and states that meet the hypotheses of the claims about them. -/
namespace Sys2Proof.Tests
open Sys2Proof Sys2Proof.Machine
-- Some of these theorems are long to check: one at a time, so that no thread waits for them.
set_option Elab.async false

/-! ### Registers, branches and accesses (07 R261-R268) -/

/-- 07 R261: ADD wraps; MIN is signed; LUI shifts 14 places and takes the immediate. -/
theorem test_dray_arithmetic : drayReg (.drayAdd 4 1 2) (drayRegs [0xFFFFFFFFFFFFFFFF, 2]) 4 = some 1
    ∧ drayReg (.drayMin 4 1 2) (drayRegs [0xFFFFFFFFFFFFFFFF, 2]) 4 = some 0xFFFFFFFFFFFFFFFF
    ∧ drayReg (.drayLui 4 1 0x3FFF) (drayRegs [1]) 4 = some 0x7FFF ∧ drayReg (.drayShl 4 1 2) (drayRegs [1, 64]) 4 = some 0 := by decide
/-- 07 R249: d0 discards. -/
theorem test_dray_zero : drayReg (.drayLi 0 5) (dr Boot.dray) 0 = some 0 := by decide
/-- 07 R258, R266: LOOP goes back by words from the next instruction while its register is not zero. -/
theorem test_dray_loop : (match exec (.drayLoop 1 0x3FFF) (drayRegs [2]) with
    | .next t => ((Sys2Proof.Machine.drayOf t 0).pc, dget (Sys2Proof.Machine.drayOf t 0) 1) | _ => (0, 0)) = (0x4000, 1) := by decide
/-- 07 R264: LDW of size 2 extends its sign; the address counts words. -/
theorem test_dray_ldw : (match exec (.drayLdw 4 1 2 0 1) { drayRegs [0x4FFC] with mem := memWrite (drayRegs []).mem 0x5000 (leBytes 4 0x80000000) } with
    | .next t => (Sys2Proof.Machine.drayOf t 0).load | _ => none) = some (4, 0xFFFFFFFF80000000) := by decide +kernel

theorem witness_DrayArithmetic : drayReady (dray (drayRegs [8, 2, 4])) = true
    ∧ (let x := dget (dray (drayRegs [8, 2, 4])) 1
       (x.toNat + 16) % 8 = 0 ∧ x.toNat + 16 + 8 ≤ 32 * (dray (drayRegs [8, 2, 4])).nslice ∧ (x.toNat + 20) % 8 ≠ 0
       ∧ (x.toNat + 24) % 8 = 0 ∧ 32 * (dray (drayRegs [8, 2, 4])).nslice < x.toNat + 24 + 8) := by decide

/-- The context has a FILL in progress. -/
def filling : Dray := { Boot.dray with data := some (.fill 0 7 3), rem := 8 }

theorem witness_DrayControl : drayReady (dray (drayRegs [8, 0x0200000000000000])) = true ∧ (dray (dr Boot.dray)).data = none
    ∧ (dget (dray (drayRegs [8, 0x0200000000000000])) 1).toNat < 2 ^ 57 ∧ 2 ^ 57 ≤ (dget (dray (drayRegs [8, 0x0200000000000000])) 2).toNat
    ∧ drayReady (dray (dr filling)) = true ∧ (dray (dr filling)).data ≠ none
    ∧ State.reset.fusedClusters = [] ∧ State.reset.rakes = [] ∧ State.reset.coaches = [] := by decide

/-- 07 R253: no context waits for its timeline, and a data operation holds the next memory operation back. -/
theorem witness_DrayControl_stop : (dr filling).drays.all (fun e => e.2.tlw.isNone) = true ∧ (Sys2Proof.Machine.drayOf (dr filling) 0).data ≠ none
    ∧ (Sys2Proof.Machine.drayOf (dr Boot.dray) 0).data = none ∧ drayReady (dray (dr filling)) = true := by decide

theorem witness_DrayMemory : drayClear (drayRegs [0x5000, 0x5002, 0x0200000000000000, 0x100]) = true
    ∧ (let s := drayRegs [0x5000, 0x5002, 0x0200000000000000, 0x100]
       drayBeyond s (dray s) 0 0x5000 8 = false ∧ drayBeyond s (dray s) 1 0x100 4 = false ∧ drayBeyond s (dray s) 0 (2 ^ 57) 8 = true
       ∧ 0x5000 % 8 = 0 ∧ 0x5002 % 4 ≠ 0
       ∧ (match drayRead s 0 0 0x5000 8 with
          | .ok _ _ => true
          | _ => false) = true
       ∧ (match drayRead s 0 1 0x100 4 with
          | .ok _ _ => true
          | _ => false) = true
       ∧ (match drayTarget s 0 0 0x5000 8 with
          | .ok _ _ => true
          | _ => false) = true
       ∧ (match drayTarget s 0 1 0x100 4 with
          | .ok _ _ => true
          | _ => false) = true)
    ∧ (Sys2Proof.Machine.drayOf (dr { Boot.dray with load := some (4, 9) }) 0).load = some (4, 9)
    ∧ (Sys2Proof.Machine.drayOf (dr { Boot.dray with load := some (4, 9) }) 0).loadGen = none := by decide +kernel

/-! ### Generators and options (07 R269-R273, R282, R283) -/

/-- A generator of runs of `n` bytes from `base`, `c` of them side by side. -/
def genAt (base n c : Nat) : Gen :=
  { base := base, len0 := n, rot := 0, space := 0, dims := 2, counts := [c], strides := [(n : Int)], pos := 0 }
/-- A descriptor in memory: 64 bytes from 0x6000, one dimension. -/
def descriptor : List Byte := leBytes 8 0x6000 ++ leBytes 4 64 ++ leBytes 4 1 ++ List.replicate 48 0
/-- The context has generators 0 to 2, and the descriptor lies at 0x5000. -/
def gens (l : List Dword) : State :=
  let d := { Boot.dray with gens := [(0, genAt 0x20000 64 4), (1, genAt 0x21000 64 4), (2, genAt 0x22000 64 4)], regs := mapFrom (fun i x => (i, x)) 1 l }
  { dr d with mem := memWrite (dr d).mem 0x5000 descriptor }

/-- 07 R272: the generator that GSET loads. -/
theorem test_dray_gset : (match exec (.drayGset 3 1 0 0) (gens [0x5000]) with
    | .next t => (Sys2Proof.Machine.drayOf t 0).loadGen.map (fun g => (g.1, g.2.base, g.2.len0, g.2.dims)) | _ => none)
    = some (3, 0x6000, 64, 1) := by decide +kernel

theorem witness_DrayGenerators :
    let s := gens [0x5000, 0x5004, 0x40, 0x41]
    drayClear s = true ∧ 0x5000 % 64 = 0 ∧ 0x5004 % 64 ≠ 0 ∧ drayBeyond s (dray s) 0 0x5000 64 = false
    ∧ (match drayRead s 0 0 0x5000 64 with
        | .ok bs _ => bs == descriptor && (genOfBytes bs).isSome
        | _ => false) = true
    ∧ (genOf (dray s) 1).isSome ∧ genOf (dray s) 3 = none
    ∧ optOk 0 (dget (dray s) 3).toNat = true ∧ optOk 0 (dget (dray s) 4).toNat = false ∧ optOk 6 (dget (dray s) 3).toNat = true := by decide +kernel

/-- A descriptor that no generator takes lies at 0x5040; the slices end at 0x100; generator numbers, options and registers at the
edges of what they take. -/
theorem witness_DrayGenerators_edges :
    (let s := drayRegs [0x5000, 0x10000]
     drayClear s = true ∧ drayBeyond s (dray s) 1 0x10000 8 = true ∧ 0x10000 % 8 = 0)
    ∧ (let g := gens [0x5040, 0x10000, 0x41]
       let s := { g with mem := memWrite g.mem 0x5040 (List.replicate 64 0xFF) }
       drayClear s = true ∧ drayBeyond s (dray s) 0 0x5040 64 = false ∧ drayBeyond s (dray s) 1 0x10000 64 = true
       ∧ (match drayRead s 0 0 0x5040 64 with
          | .ok bs _ => (genOfBytes bs).isNone
          | _ => false) = true
       ∧ (dget (dray s) 0).toNat = 0 ∧ optOk 0 (dget (dray s) 3).toNat = false) := by decide +kernel

/-! ### Barriers, timelines and promises (07 R284-R289) -/

/-- Barrier 3 of the rake is armed, and barrier 4 is not. -/
def armed3 : Rake :=
  { Boot.rake [] [(1, Boot.launch)] with barriers := [(3, { armed := true, inv := false, exp := 2, cnt := 2, ph := 0 })] }
/-- Two contexts: 0 runs, and 1 is of the same program context, its timeline at 0. -/
def timed (l : List Dword) : State :=
  let d := { Boot.dray with regs := mapFrom (fun i x => (i, x)) 1 l }
  { dr d with drays := [(0, d), (1, { Boot.dray with timeline := 0, gen := 2 })], rakes := [(0, armed3)] }

/-- 07 R285: SIGNAL sets the timeline to T0 and the value. -/
theorem test_dray_signal : (match exec (.draySignal 1 1 1) (timed [5]) with
    | .next t => (Sys2Proof.Machine.drayOf t 0).timeline | _ => 0) = 0x100000005 := by decide

theorem witness_DraySynchronization :
    let s := timed [0, 1, 0x10020002, 0x10000001, 0xF0000000, 0x1000000]
    let x := dray s
    drayClear s = true ∧ (dget x 1).toNat = 0 ∧ 0 < (dget x 2).toNat ∧ 2 ^ 24 ≤ (dget x 6).toNat
    ∧ (barrierOf s x.rake 3).armed = true ∧ (barrierOf s x.rake 3).inv = false ∧ (barrierOf s x.rake 4).armed = false
    ∧ drayScope 0 1 = true ∧ drayScope 2 5 = true ∧ drayScope 3 1 = false ∧ drayScope 0 0 = false ∧ drayScope 0 6 = false
    ∧ checkHandle s (drayCtx x) (loOf (dget x 3)) = some 1 ∧ timelineMet s 1 (loOf (dget x 3)) (dget x 2) = false
    ∧ checkHandle s (drayCtx x) (loOf (dget x 4)) = some 0 ∧ timelineMet s 0 (loOf (dget x 4)) (dget x 2) = true
    ∧ checkHandle s (drayCtx x) (loOf (dget x 5)) = none ∧ (1 : Nat) ≠ s.dcur := by decide

/-- 07 R285, R286: a value of 2^32, and a wait on the context's own timeline that it has not reached. -/
theorem witness_DraySynchronization_own :
    let s := timed [0x10000000, 0x100000000, 0xFFFFFFFFFFFFFFFF]
    let x := dray s
    drayClear s = true ∧ 2 ^ 32 ≤ (dget x 2).toNat ∧ drayScope 0 1 = true
    ∧ (let h := loOf (BitVec.ofNat 64 (drayHandle s.dcur x.gen).toNat)
       checkHandle s (drayCtx x) h = some s.dcur ∧ timelineMet s s.dcur h (dget x 3) = false) := by decide

/-- 07 R289: STAT 3 is the context's handle: kind 1, die 0, cluster 0, dray 0, context 0, generation 1. -/
theorem test_dray_stat : drayReg (.drayStat 4 3) (dr Boot.dray) 4 = some 0x10000001 := by decide

theorem witness_DrayPromises :
    drayReady (dray (dr Boot.dray)) = true ∧ ((launchOf (dr Boot.dray) (0, 1)).map Launch.promise) = some none ∧ Boot.dray.promised = false
    ∧ drayCycles (dr Boot.dray) 0 < 256
    ∧ (let s := { dr Boot.dray with cycles := [(300, 256)] }
       256 ≤ drayCycles s 0 ∧ launchOf s (Boot.dray.rake, Boot.dray.launch) = some Boot.launch ∧ Boot.launch.started = true
       ∧ Boot.launch.promise = none ∧ Boot.dray.done = false ∧ Boot.launch.dray = some (0, Boot.dray.gen)
       ∧ Boot.dray.start + 256 ≤ cycleOf s (drayClock 0)) := by decide

/-! ### Data operations and launches (07 R271-R280, R251) -/

/-- The context of `gens` in a data operation. -/
def moving (op : DataOp) (n : Nat) : State :=
  let s := gens []
  { s with drays := [(0, { dray s with data := some op, rem := n, dataAt := ((dray s).pc, (dray s).regs) })] }
/-- A unit was formed. -/
def formed (g : DGot DUnit) : Bool :=
  match g with
  | .ok _ _ => true
  | _ => false
/-- The count left after the unit. -/
def left (g : DGot DUnit) : Nat :=
  match g with
  | .ok u s => (Sys2Proof.Machine.drayOf (applyUnit s 0 u) 0).rem
  | _ => 1

/-- 07 R280: FILL writes its pattern. -/
theorem test_dray_fill : (match exec (.drayDataUnit 0) (moving (.fill 0 0x1122334455667788 3) 8) with
    | .next t => memRead t.mem 0x20000 8 | _ => []) = leBytes 8 0x1122334455667788 := by decide +kernel

theorem witness_DrayData :
    (let s := gens [0, 8, 9]
     drayClear s = true ∧ (genOf (dray s) 0).isSome ∧ (genOf (dray s) 1).isSome ∧ genOf (dray s) 2 = some (genAt 0x22000 64 4)
     ∧ (genAt 0x22000 64 4).dims = 2 ∧ genOf (dray s) 3 = none ∧ (dget (dray s) 1).toNat = 0 ∧ (dget (dray s) 2).toNat % 8 = 0
     ∧ (dget (dray s) 3).toNat % 2 ≠ 0)
    ∧ (let s := moving (.gather 0 1 2) 2
       (Sys2Proof.Machine.drayOf s 0).data = some (.gather 0 1 2) ∧ (Sys2Proof.Machine.drayOf s 0).parked = none
       ∧ (Sys2Proof.Machine.drayOf s 0).done = false ∧ (Sys2Proof.Machine.drayOf s 0).rem ≠ 0)
    ∧ formed (gatherUnit (moving (.gather 0 1 2) 2) 0 0 1 2) = true
    ∧ formed (scatterUnit (moving (.scatter 2 1 0) 2) 0 2 1 0) = true
    ∧ left (fillUnit (moving (.fill 0 7 3) 8) 0 0 3 7) = 0
    ∧ left (xferUnit (moving (.xfer 0 1 0 0 false 0) 1) 0 0 1 0 0 0 none) = 0
    ∧ 1 ≤ (genAt 0x20000 64 4).len0 ∧ (genAt 0x20000 64 4).space = 0 := by decide +kernel

/-- After the unit the data operation is whole: nothing read ahead, and its generators at the edges of words. -/
def whole (g : DGot DUnit) : Bool :=
  match g with
  | .ok u s => (Sys2Proof.Machine.drayOf (applyUnit s 0 u) 0).ahead.isEmpty && (Sys2Proof.Machine.drayOf (applyUnit s 0 u) 0).rem == 0
  | _ => false
/-- A row of one index ends a GATHER or a SCATTER, and a unit an XFER or a FILL; the context of none of these is held. -/
theorem witness_DrayData_units :
    whole (gatherUnit (moving (.gather 0 1 2) 1) 0 0 1 2) = true ∧ whole (scatterUnit (moving (.scatter 2 1 0) 1) 0 2 1 0) = true
    ∧ whole (fillUnit (moving (.fill 0 7 3) 8) 0 0 3 7) = true ∧ whole (xferUnit (moving (.xfer 0 1 0 0 false 0) 1) 0 0 1 0 0 0 none) = true
    ∧ (let s := moving (.gather 0 1 2) 1
       drayHeld s (dray s) = false ∧ (dray s).parked = none ∧ (dray s).done = false ∧ (dray s).rem ≠ 0 ∧ (dray s).ahead = []) := by decide +kernel

/-- The source of a sealed transfer: a whole block at 0x20000, its options 3 to 6 set, and content key 2, or none, in slot 2. -/
def sealed (space : Nat) (opts : Tbl Dword) (hasKey : Bool) : State :=
  let s := gens [4096, 8, 0]
  let src := { genAt 0x20000 4096 1 with space := space }
  let d := { dray s with gens := [(0, genAt 0x30000 4096 1), (1, src)], opts := opts, dataAt := ((dray s).pc, (dray s).regs)
                         data := none, rem := 0 }
  let key : KeySlot := { kind := 2, state := 2, world := 0, epoch := 0, key := 0, session := 0, policy := [] }
  { s with drays := [(0, d)], keys := if hasKey then [(2, key)] else [] }
def sealOpts : Tbl Dword := [(3, 2), (4, 0x20000), (5, 0), (6, 0x40000)]

/-- 07 R274, R278: the checks of XFER, one that fails after the other: an illegal form, no generator, a sealed source in the
scratchpad, options not set, a count that is no whole block, and no key; then none fails. -/
theorem witness_DrayData_checks :
    (let s := sealed 0 sealOpts true
     let y := dray s
     drayClear s = true ∧ (genOf y 0).isSome ∧ (genOf y 1).isSome ∧ genOf y 2 = none ∧ (dget y 1).toNat = 4096
     ∧ (genOf y 1).map (fun g => (g.space, sealedOk g (optVal y 4) 4096, sealedOk g (optVal y 4) 8)) = some (0, true, false)
     ∧ (tget y.opts 3).isSome ∧ (tget y.opts 4).isSome ∧ (tget y.opts 5).isSome ∧ (tget y.opts 6).isSome ∧ tget y.opts 0 = none
     ∧ (contentKey s y).isSome ∧ contentKey (sealed 0 sealOpts false) (dray (sealed 0 sealOpts false)) = none
     ∧ (dget y 2).toNat = 8 ∧ (dget y 2).toNat % 16 ≠ 0)
    ∧ ((genOf (dray (sealed 1 sealOpts true)) 1).map Gen.space = some 1) ∧ tget (dray (sealed 0 [] true)).opts 3 = none
    ∧ (let y := dray (sealed 0 [(0, 0), (1, 0)] true)
       (tget y.opts 0).isSome ∧ (tget y.opts 1).isSome
       ∧ (genOf y 1).map (fun g => (describedOk g 64, describedOk { g with pos := 8 } 64)) = some (true, false)
       ∧ 4096 % (cvtSize 0x13).1 = 0 ∧ 4096 % (cvtSize 0x19).1 = 0 ∧ 4096 % (cvtSize 0x0F).1 = 0) := by decide +kernel

/-- The block of `sealed` in a sealed transfer; the first byte of its tag is `n`. -/
def opening (hasKey : Bool) (n : Nat) : State :=
  let s := sealed 0 sealOpts hasKey
  { s with drays := [(0, { dray s with data := some (.xfer 0 1 0 0 true 0), rem := 4096, dataAt := ((dray s).pc, (dray s).regs) })]
           mem := memWrite s.mem 0x40000 [BitVec.ofNat 8 n] }
/-- The state after reading the lines, if each holds zeros. -/
def readZeros : List (Nat × Nat) → State → Option State
  | [], s => some s
  | (a, n) :: l, s => match drayRead s 0 0 a n with
    | .ok bs s1 => if bs = List.replicate n 0 then readZeros l s1 else none
    | _ => none
theorem readZeros_reads {l : List (Nat × Nat)} {s t : State} (h : readZeros l s = some t) (acc : List Byte) :
    drayReadAll 0 0 l acc s = .ok (acc ++ l.flatMap (fun e => List.replicate e.2 0)) t := by
  induction l generalizing s acc with
  | nil => simp only [readZeros, Option.some.injEq] at h; simp [drayReadAll, h]
  | cons e l ih =>
    obtain ⟨a, n⟩ := e
    simp only [readZeros] at h
    split at h
    · next bs s1 hr =>
      split at h
      · next hb => simp [drayReadAll, hr, DGot.bind, ih h, hb]
      · exact nomatch h
    · exact nomatch h
/-- The lines of the block, and the tag after them. -/
def sealedLines : List (Nat × Nat) := (List.range 64).map (fun i => (0x20000 + 64 * i, 64))
def sealedTag (n : Nat) : Option (List Byte) :=
  (readZeros sealedLines (opening true n)).bind (fun s => match drayRead s 0 0 0x40000 16 with
    | .ok t _ => some t
    | _ => none)
/-- Both tags are read. -/
theorem sealedTag_reads : ∀ n < 2, sealedTag n = some (leBytes 16 n) := by decide +kernel
/-- What the block holds is not at issue: it is the same for both tags. -/
theorem sealed_reads : ∃ cipher, ∀ n < 2, ∃ s2 s3, drayReadAll 0 0 sealedLines [] (opening true n) = .ok cipher s2
    ∧ drayRead s2 0 0 0x40000 16 = .ok (leBytes 16 n) s3 := by
  refine ⟨[] ++ sealedLines.flatMap (fun e => List.replicate e.2 0), fun n hn => ?_⟩
  obtain ⟨s2, h2, h3⟩ := Option.bind_eq_some_iff.1 (sealedTag_reads n hn)
  split at h3
  · next t s3 he => exact ⟨s2, s3, readZeros_reads h2 [], by rw [he, Option.some.inj h3]⟩
  · exact nomatch h3
/-- 07 R278: with no key; and with one, a block of zeros whose tag does not agree: of two tags one at least does not. -/
theorem witness_DrayData_sealed :
    (let s := opening false 0
     (genOf (dray s) 1).isSome ∧ contentKey s (dray s) = none ∧ (dray s).ahead = [] ∧ (dray s).data = some (.xfer 0 1 0 0 true 0))
    ∧ (∀ n < 2, let s := opening true n
       let d := dray s
       drayHeld s d = false ∧ d.parked = none ∧ d.done = false ∧ d.ahead = [] ∧ d.data = some (.xfer 0 1 0 0 true 0)
       ∧ contentKey s d = some (toNats (List.replicate 32 0)) ∧ optVal d 4 = 0x20000 ∧ optVal d 6 = 0x40000
       ∧ (genOf d 1).map (fun g => (g.logical g.pos, decide (g.pos < g.length))) = some (0x20000, true))
    ∧ ∀ key iv, ∃ n < 2, ∃ cipher tag s2 s3, drayReadAll 0 0 sealedLines [] (opening true n) = .ok cipher s2
        ∧ drayRead s2 0 0 0x40000 16 = .ok tag s3 ∧ gcmOpen key iv [] (toNats cipher) (toNats tag) = none := by
  refine ⟨by decide +kernel, by decide +kernel, fun key iv => ?_⟩
  obtain ⟨cipher, r⟩ := sealed_reads
  obtain ⟨s2, s3, r2, r3⟩ := r 0 (by decide)
  by_cases h0 : gcmTag (roundKeys key) iv [] (toNats cipher) = toNats (leBytes 16 0)
  · obtain ⟨t2, t3, q2, q3⟩ := r 1 (by decide)
    refine ⟨1, by decide, _, _, _, _, q2, q3, ?_⟩
    rw [gcmOpen, if_neg (h0 ▸ by decide)]
  · exact ⟨0, by decide, _, _, _, _, r2, r3, by rw [gcmOpen, if_neg h0]⟩

/-- A launch that waits for a context, of the only coach of the rake. -/
def waitingLaunch : Launch := { Boot.launch with dray := none, started := false }

theorem witness_DrayLaunch :
    let r := Boot.rake [] [(1, waitingLaunch)]
    let s := { dr Boot.dray with rakes := [(0, r)] }
    tget s.rakes 0 = some r ∧ tget r.launches 1 = some waitingLaunch ∧ tget s.regions r.region = some Boot.region ∧ r.cluster = some 0
    ∧ waitingLaunch.started = false ∧ waitingLaunch.finished = false ∧ waitingLaunch.cancelled = false
    ∧ launchFormed s r Boot.region.coaches waitingLaunch = true ∧ tkeys waitingLaunch.slices = [0]
    ∧ tget waitingLaunch.codes 0 = some (0x4000, 0, false) ∧ chooseDray s 0 0 false = some 1 := by decide

end Sys2Proof.Tests
end

