-- ==== Sys2Proof/Tests/Host.lean ====
section
/-! SUPPORT. States that meet the hypotheses of the claims about the hallmark engines, the queues, the host's registers, Portil
and bring-up, and a few results. -/
namespace Sys2Proof.Tests
open Sys2Proof Sys2Proof.Machine
-- Some of these theorems are long to check: one at a time, so that no thread waits for them.
set_option Elab.async false

/-! ### Hallmark engines (12 R454-R464) -/

/-- A port of coach 0 that holds command words. -/
def hallPort (ws : List Word) : Port :=
  { coach := 0, cmds := ws.map (fun w => (w, 0)), resps := [], due := 0, wait := none, failed := false, done := 0 }
/-- The session number 1 of die 0, opened by context 0. -/
def session : Session :=
  { die := 0, number := 1, ctx := 0, world := 0, rake := 0, zone := 0, recAddr := 0x7000, alg := 0, label := 0, debug := false, version := 1
    sig := 0, data := [], void_ := none, closing := none, recorded := false }
/-- Port 3 of die 0 holds the words; one session is open. -/
def hall (ws : List Word) : State := { base with ports := [(3, hallPort ws)], sessions := [(1, session)] }
/-- The head of the port. -/
def head (ws : List Word) : HallCmd := (headCmd (hallPort ws)).getD { cmd := 0, headOk := false, words := [], zone := 0 }

/-- 12 R457: OPEN of a record at 0x7000: status, and the handle of die 0's session 1. -/
theorem test_hall_open : (match exec (.hallmarkOpen 0 3) { hall [0x01030000, 0x7000, 0, 0] with sessions := [] } with
    | .next t => (tget t.ports 3).map Port.resps | _ => none) = some [0x01000000, 0x20000001] := by decide +kernel

theorem witness_HallmarkCommands_open :
    (headCmd (hallPort [0x09000000])).isSome ∧ (head [0x09000000]).headOk = false
    ∧ (let c := head [0x01030000, 0x7000, 0, 0]
       c.headOk = true ∧ c.cmd = 1 ∧ ¬ (c.words.length < 3 ∨ c.pair 0 % 256 ≠ 0 ∨ 2 ^ 57 ≤ c.pair 0 ∨ 1 < c.word 2)
       ∧ hallOptions true (c.words.drop 3) false 0 = some (false, 0)
       ∧ (match xlateProgram (hall []) (dieUnits 0) 0 (c.pair 0) .write with
          | (.ok _ _, _) => true
          | _ => false) = true)
    ∧ (let c := head [0x01030000, 0x7001, 0, 0]
       c.headOk = true ∧ c.cmd = 1 ∧ c.pair 0 % 256 ≠ 0)
    ∧ (let c := head [0x01040000, 0x7000, 0, 0, 0x80000000]
       c.headOk = true ∧ hallOptions true (c.words.drop 3) false 0 = none)
    ∧ ¬ (4096 ≤ sessionsHeld (hall []) 0 ∨ 2 ^ 32 - 1 ≤ tgetD 0 (hall []).hallCount 0)
    ∧ 2 ^ 32 - 1 ≤ tgetD 0 { hall [] with hallCount := [(0, 0xFFFFFFFF)] }.hallCount 0 := by decide +kernel

theorem witness_HallmarkCommands_data :
    (let ws : List Word := [0x02040000, 0x20000001, 0x5000, 0, 100]
     let c := head ws
     c.headOk = true ∧ c.cmd = 2 ∧ ¬ (c.words.length < 4 ∨ 2 ^ 57 < c.pair 1 + c.word 3) ∧ hallOptions false (c.words.drop 4) false 0 = some (false, 0)
     ∧ findSession (hall ws) 0 0 (c.word 0) = some (1, session) ∧ session.void_ = none
     ∧ (match absorbLines 0 0 (100 / 64 + 2) (c.pair 1) 100 [] (hall ws) with
        | .all bs _ => bs.length == 100
        | _ => false) = true)
    ∧ (let c := head [0x02040000, 0x20000002, 0x5000, 0, 100]
       c.headOk = true ∧ findSession (hall []) 0 0 (c.word 0) = none)
    ∧ (let c := head [0x02030000, 0x20000001, 0x5000, 0]
       c.headOk = true ∧ c.cmd = 2 ∧ c.words.length < 4)
    ∧ (let c := head [0x03010000, 0x20000001]
       c.headOk = true ∧ c.cmd = 3 ∧ c.words ≠ [] ∧ hallOptions false (c.words.drop 1) false 0 = some (false, 0))
    ∧ (head [0x03000000]).headOk = true ∧ (head [0x03000000]).words = [] ∧ (tgetD [] (hall []).signing 0).length < 2
    ∧ (let s := { hall [] with signing := [(0, [1, 2])] }
       isSigning s 0 (sessionKey 0 1) = true ∧ isSigning s 0 (sessionKey 0 7) = false ∧ 2 ≤ (tgetD [] s.signing 0).length) := by decide +kernel

/-! ### Messages (10 R361-R364) -/

/-- A queue with a ring of 16 slots at 0x10000 and `n` messages. -/
def ring (n : Word) : HwQueue :=
  { base := 0x10000, k := 4, ridxAddr := 0x11000, widx := n, ridx := 0, state := 0, skipped := 0, waiting := none, fault := none, ridxDue := false, discard := 0 }
/-- Context 0 has that queue, and its next message. -/
def messaging (x : HwQueue) (m : List Byte) : State :=
  { base with ctxs := [(0, { Boot.ctx with queues := [x] })], mem := memWrite base.mem 0x10000 (m ++ List.replicate (64 - m.length) 0) }
/-- A message of a kind, with its address and value. -/
def message (kind addr v : Nat) : List Byte := leBytes 8 kind ++ leBytes 8 addr ++ leBytes 8 v
/-- The message is read and is valid. -/
def readable (m : List Byte) : Bool :=
  match readMsg (messaging (ring 1) m) 0 0 with
  | .msg b _ => msgOk b && msgNum b 0 1 == msgNum m 0 1
  | .stop _ => false

/-- A message of a queue that is torn down is read all the same. -/
theorem witness_Messages_torn : { ring 1 with state := 9 }.torn = true ∧ { ring 1 with state := 9 }.discard = 0
    ∧ (match readMsg (messaging { ring 1 with state := 9 } (message 1 0x9000 0)) 0 0 with
      | .msg b _ => msgOk b && msgNum b 0 1 == 1
      | .stop _ => false) = true := by decide +kernel
/-- 10 R363: NOTE writes its value. -/
theorem test_note : (match exec (.msgNote 0 0) (messaging (ring 1) (message 4 0x7000 9)) with
    | .next t => (memRead t.mem 0x7000 8, (queueAt t 0 0).map HwQueue.ridx) | _ => ([], none)) = (leBytes 8 9, some 1) := by decide +kernel

theorem witness_Messages :
    [message 1 0x9000 0, message 2 0x7000 5, message 3 0x7000 5, message 4 0x7000 5, leBytes 8 5, message 6 0 0, message 6 1 0].all readable = true
    ∧ (ring 1).waiting = none ∧ (ring 1).torn = false ∧ (ring 1).discard = 0 ∧ queueAt (messaging (ring 1) []) 0 0 = some (ring 1)
    ∧ (match ownPieces (messaging (ring 1) []) (dieUnits 0) 0 0x7000 8 .atomic with
        | (.ok ps, s2) => (poisonOwn s2 ps).isNone
        | _ => false) = true
    ∧ (match ownWriteV (messaging (ring 1) []) (dieUnits 0) 0 0x7000 (leBytes 8 5) with
        | (.ok _, _) => true
        | _ => false) = true
    ∧ (match ownReadP (l2System (messaging (ring 1) []) true) (dieUnits 0) 0 0x7000 8 with
        | (.ok bs, s1) => leNat bs == 0 && (match ownReadP s1 (dieUnits 0) 0 0x10000 64 with
          | (.ok _, _) => true
          | _ => false)
        | _ => false) = true := by decide +kernel

/-! ### The host's registers (15 R493-R505) -/

/-- The machine with every feature negotiated. -/
def negotiated (s : State) : State := { s with pf := { s.pf with featDev := BitVec.allOnes 128, featDrv := BitVec.allOnes 128 } }
/-- A context descriptor without queues. -/
def ctxDesc : List Byte :=
  leBytes 8 0x1000 ++ leBytes 2 0 ++ leBytes 1 6 ++ List.replicate 53 0 ++ (List.replicate 16 (leBytes 4 0x000883C0)).flatten ++ List.replicate 384 0
/-- It lies at 0x12000. -/
def described : State := let s := negotiated base; { s with mem := memWrite s.mem 0x12000 ctxDesc }
/-- A world of the key in slot 0, debuggable or not. -/
def world (debuggable covered : Bool) : World := { debuggable := debuggable, exports := 0, covered := covered, slot := 0 }

/-- 15 R496, R503: the created context has the page tables of its descriptor. -/
theorem test_ctx_create : (match exec (.ctxcmdCreate 0x12101) described with
    | .next t => ((tget t.ctxs 1).map Ctx.ptroot, t.pf.ctxstat) | _ => (none, 9)) = (some 0x1000, 0) := by decide +kernel
/-- 15 R495: a doorbell moves WIDX. -/
theorem test_doorbell : (match exec (.doorbell 0 0 3) (messaging (ring 1) []) with
    | .next t => (queueAt t 0 0).map HwQueue.widx | _ => none) = some 3 := by decide

theorem witness_HostWrites_queues :
    State.reset.pf.ready = false ∧ base.pf.ready = true
    ∧ (let s := messaging (ring 1) []
       s.pf.ready = true ∧ (tget s.ctxs 0).isSome ∧ ((tget s.ctxs 0).bind (fun c => c.queues[0]?)) = some (ring 1) ∧ (ring 1).k ≠ 0
       ∧ { ring 1 with state := 9 }.torn = true ∧ (ring 1).torn = false)
    ∧ Boot.ctx.invBusy = false ∧ Boot.ctx.plateBusy = false ∧ Boot.ctx.world = 0
    ∧ worldCovered { base with worlds := [(5, world true false)] } 5 = false
    ∧ worldCovered { base with worlds := [(5, world true true)] } 5 = true := by decide

theorem witness_HostWrites_commands :
    (let v := 2 ^ 58 * 12 + 2 ^ 48 * 895 + 2 ^ 40 * 112 + 2 ^ 8 * 0xC0000 + 3
     field v 4 0 = 3 ∧ field v 39 28 = 0 ∧ 16 ≤ field v 47 40 ∧ field v 47 40 ≤ 128 ∧ 128 ≤ field v 57 48 + 1 ∧ 8 ≤ field v 63 58
     ∧ field v 63 58 ≤ 16 ∧ { base with ctxs := [] }.ctxs = []
     ∧ (let s := { base with parts := [(0, { clusters := 0x3FFFF, ceil := 112, ceilFused := 896, thrLog := 12 })
                                      , (3, { clusters := 0, ceil := 112, ceilFused := 896, thrLog := 12 })] }
        s.ctxs.all (fun e => e.2.part == 0) = true
        ∧ (partOf s 0).clusters &&& BitVec.ofNat 20 (field v 27 8) = 0 ∧ (tget s.parts 0).isSome
        ∧ (partOf s 3).clusters &&& ~~~(BitVec.ofNat 20 (field v 27 8)) = 0))
    ∧ field 20 4 0 = 20
    ∧ (let s := described
       s.pf.ready = true ∧ s.pf.ctxstat ≠ 1 ∧ s.pf.featDrv.getLsbD 0 = true ∧ base.pf.featDrv.getLsbD 0 = false
       ∧ field 0x12101 5 0 = 1 ∧ field 0x12101 9 8 = 1 ∧ field 0x200 9 8 = 2 ∧ field 0x300 9 8 = 3 ∧ tget s.ctxs 1 = none
       ∧ (tget s.ctxs 0).isSome ∧ isBacked 0x12000 = true)
    ∧ (let s := { base with mem := memWrite base.mem 0x80000000000 (leBytes 2 9 ++ leBytes 2 16) }
       s.pf.portBusy = false ∧ isHostWindow 0x80000000000 = true
       ∧ (let raw := ownRead { s with pf := { s.pf with portreq := 1 } } 0x80000000000 1024
          imgNum raw 0 2 = 9 ∧ imgNum raw 2 2 = 16)) := by decide +kernel

/-- The world of the context that CREATE of the page at 0x12000 makes: it is described, backed and not poisoned. -/
def createsIn (s : State) : Option Nat :=
  let s1 := { s with pf := { s.pf with ctxcmd := 0x12101 } }
  let s2 := ownFill s1 0 0x12000 512
  if (potSeen s 0x12000).poison = false ∧ poisonIn s2 0x12000 512 = none then
    (match ownRead s2 0x12000 512 with
      | b => if descOk s2 b then some (blkNum b 8 2) else none)
  else none
/-- CREATE of a context of world 0, and of one of a world that is bound; and of a page that is poisoned, or not there. -/
theorem witness_HostWrites_create :
    createsIn described = some 0
    ∧ (let s := { described with worlds := [(5, world true false)], portil := { Portil.reset with bindings := [(2, 5)] }
                                 mem := memWrite described.mem 0x12008 (leBytes 2 5) }
       createsIn s = some 5 ∧ (tget s.worlds 5).isSome ∧ tget s.portil.bindings 2 = some 5)
    ∧ (potSeen { described with pot := [(0x12, { world := 0, poison := true, state := 0 })] } 0x12000).poison = true
    ∧ isBacked 0x1800000000 = false := by decide +kernel

/-- An image of a plate without planes. -/
def plateBytes (sys : Bool) : List Byte :=
  leBytes 4 0x31504C44 ++ leBytes 2 1 ++ (if sys then [0, 1, 0, 8] else [64, 0, 0, 4]) ++ leBytes 1 1 ++ leBytes 1 0 ++ leBytes 4 0
    ++ (if sys then [184, 0, 28, 0, 1] else [0, 0, 0, 0, 0]) ++ leBytes 1 4 ++ leBytes 2 0 ++ leBytes 4 128
    ++ leBytes 4 64 ++ leBytes 4 128 ++ leBytes 4 128 ++ leBytes 4 128 ++ List.replicate 84 0
/-- Context 0 loads a plate from 0x10000. -/
def plating (cmd : Dword) : State :=
  { base with ctxs := [(0, { Boot.ctx with plateBusy := true, plateCmd := cmd })], mem := memWrite base.mem 0x10000 (plateBytes false) }
/-- The load that is under way holds, or the status. -/
def loads (cmd : Dword) : Option Nat :=
  match (loadPlate (plating cmd) 0 { Boot.ctx with plateBusy := true, plateCmd := cmd } cmd).1 with
  | .ok _ => none
  | .error n => some n

theorem witness_HostCompletions :
    (let s := { base with ctxs := [(0, { Boot.ctx with invBusy := true })] }
     ((tget s.ctxs 0).map Ctx.invBusy) = some true ∧ tilesHold s (fun k p => k / 16384 == 0 && decide (0 ≤ p.1 ∧ p.1 < 1)) = false)
    ∧ loads 0x10001 = none ∧ loads 0x10000 = some 1
    ∧ { base.pf with ctxPending := some (2, 0) }.ctxPending = some (2, 0) ∧ ctxOwes base 0 = false
    ∧ ctxOwes { base with pending := [(7, .complete 1)] } 0 = true
    ∧ isBacked 0x1000 = true ∧ potSeen base 0x1000 = PotE.free ∧ refusedAt base 0x1000 8 = none
    ∧ { base with upsets := [.pot 1] }.upsets.contains (.pot (0x1000 / 4096)) = true ∧ 0x1000 % 64 + min 8 8 ≤ 64 ∧ base.pf.aperbase.toNat + 0x1000 = 0x1000
    ∧ isBacked 0x1800000000 = false ∧ (potOf { base with pot := [(1, { world := 5, poison := false, state := 1 })] } 0x1000).world ≠ 0
    ∧ isDram 0x1000 = true ∧ (negotiated base).pf.featDev.getLsbD 52 = true ∧ base.pf.featDev.getLsbD 52 = false
    ∧ (negotiated base).pf.featDev.getLsbD 44 = true ∧ (negotiated base).pf.featDrv.getLsbD 44 = true
    ∧ tilesHold (negotiated base) (fun _ p => decide (0x80000000 ≤ p.2.1 / 4096 ∧ p.2.1 / 4096 < 0x80000001)) = false := by decide +kernel

/-! ### Portil (12 R439-R453) -/

/-- A request block. -/
def block (code len : Nat) (fields : List Byte) : List Byte :=
  leBytes 2 code ++ leBytes 2 len ++ leBytes 4 7 ++ fields ++ List.replicate (len - 8 - fields.length) 0
/-- VF 1 is bound to world 5, which exists, and an owner's session 4 is open. -/
def portilState : State :=
  { base with worlds := [(5, world true false)], pot := [(0x20, { world := 5, poison := false, state := 1 })]
              portil := { Portil.reset with bindings := [(1, 5)], sessions := [4], nonce := some 0 }
              keys := [(0, { kind := 2, state := 2, world := 5, epoch := 1, key := 0, session := 4, policy := [] })] }

/-- 12 R506: CREATE_WORLD by the function bound to the world takes the lowest free slot. -/
theorem test_create_world : (match exec (.createWorld (.vfSession 1) (block 1 16 (leBytes 2 5 ++ [1]))) { portilState with worlds := [] } with
    | .next t => (tget t.worlds 5).map (fun x => (x.slot, x.debuggable)) | _ => none) = some (1, true) := by decide +kernel

theorem witness_PortilRequests_worlds :
    (let b := block 1 16 (leBytes 2 5 ++ [1])
     imgNum b 0 2 = 1 ∧ blockGood b 16 [(11, 5)] = true ∧ boundTo portilState (.vfSession 1) 5 = true ∧ boundTo portilState .mailbox 5 = false
     ∧ imgNum b 8 2 = 5 ∧ imgNum b 10 1 ≤ 1 ∧ tget { portilState with worlds := [] }.worlds 5 = none ∧ freeSlot portilState = some 1
     ∧ blockGood (block 1 24 (leBytes 2 5 ++ [1])) 16 [(11, 5)] = false)
    ∧ (let b := block 2 16 (leBytes 2 5)
       imgNum b 0 2 = 2 ∧ blockGood b 16 [(10, 6)] = true ∧ (tget portilState.worlds 5).isSome
       ∧ portilState.pot.any (fun e => e.2.world == 5) = true ∧ portilState.ctxs.all (fun e => e.2.world != 5) = true)
    ∧ (let b := block 3 32 (leBytes 8 0x30000 ++ leBytes 2 5)
       imgNum b 0 2 = 3 ∧ blockGood b 32 [(18, 14)] = true ∧ pageOk 0x30000 = true ∧ frameQuiet portilState 0x30000 = true
       ∧ (potOf portilState 0x30000).state = 0 ∧ (potOf portilState 0x30000).world = 0 ∧ imgNum b 16 2 = 5)
    ∧ (let b := block 4 16 (leBytes 8 0x20000)
       imgNum b 0 2 = 4 ∧ blockGood b 16 [] = true ∧ pageOk 0x20000 = true ∧ frameQuiet portilState 0x20000 = true
       ∧ (potOf portilState 0x20000).state = 1
       ∧ (potOf { portilState with pot := [(0x20, { world := 5, poison := false, state := 3 })] } 0x20000) = { world := 5, poison := false, state := 3 }
       ∧ { portilState with upsets := [.pot 0x20] }.upsets.contains (.pot (0x20000 / 4096)) = true)
    ∧ (let b := block 5 32 (leBytes 8 0x20000 ++ leBytes 8 0x80000000000)
       imgNum b 0 2 = 5 ∧ blockGood b 32 [(24, 8)] = true ∧ imgNum b 8 8 = 0x20000 ∧ blobAt (imgNum b 16 8) = true
       ∧ portilState.portil.exports.length < 1048576)
    ∧ (let b := block 6 32 (leBytes 8 0x80000000000 ++ leBytes 8 0x30000 ++ leBytes 2 5)
       imgNum b 0 2 = 6 ∧ blockGood b 32 [(26, 6)] = true ∧ pageOk (imgNum b 16 8) = true ∧ blobAt (imgNum b 8 8) = true
       ∧ imgNum b 24 2 = 5) := by decide +kernel

theorem witness_PortilRequests_keys :
    (let b := block 7 464 (leBytes 2 0 ++ [1, 0, 0, 0, 0, 0, 3] ++ (match measurementOf portilState 3 with
        | some m => m
        | none => []))
     imgNum b 0 2 = 7 ∧ imgNum b 10 1 = 1 ∧ blockGood b 464 [(11, 5), (16 + 49, 49 * 7), (448, 16)] = true ∧ imgNum b 8 2 = 0
     ∧ portilState.portil.sessions = [4] ∧ freeSlot portilState = some 1
     ∧ (policyOf b).all (fun p => measurementOf portilState p.1 == some p.2) = true)
    ∧ (let b := block 8 16 (leBytes 2 0)
       imgNum b 0 2 = 8 ∧ blockGood b 16 [(10, 6)] = true ∧ imgNum b 8 2 = 0 ∧ (tget portilState.keys 0).map (fun k => (k.kind, k.session)) = some (2, 4))
    ∧ (let b := block 9 16 []
       imgNum b 0 2 = 9 ∧ blockGood b 16 [(8, 8)] = true)
    ∧ (let b := block 10 256 (leBytes 2 1 ++ [1, 0] ++ leBytes 2 5)
       imgNum b 0 2 = 10 ∧ imgNum b 8 2 = 1 ∧ imgNum b 10 1 = 1 ∧ blockGood b 256 [(11, 1), (14, 14), (204, 52)] = true) := by decide +kernel
/-- The first bytes of a DEBUG_UNLOCK that lists world 5, and the token's own fields: 28 bytes. -/
def unlockHead : List Byte := leBytes 2 10 ++ leBytes 2 256 ++ leBytes 4 7 ++ leBytes 2 1 ++ [1, 0] ++ leBytes 2 5 ++ List.replicate 14 0
/-- What the authority signs: bytes 8 to 107. -/
def unlockSigned : List Byte := unlockHead.drop 8 ++ (Config.identityDigest ++ leBytes 32 (Config.nonce 0).toNat)
/-- A DEBUG_UNLOCK whose token is this device's, over nonce 0, with the authority's signature. -/
def unlockBlock : List Byte :=
  unlockHead ++ (Config.identityDigest ++ (leBytes 32 (Config.nonce 0).toNat ++ ((Config.tokenSignature unlockSigned).toList ++ List.replicate 52 0)))

/-- 12 R452: that block is a DEBUG_UNLOCK of world 5, and its nonce, its digest and its signature hold. -/
theorem witness_DebugUnlock : imgNum unlockBlock 0 2 = 10 ∧ blockGood unlockBlock 256 [(11, 1), (14, 14), (204, 52)] = true
    ∧ imgNum unlockBlock 8 2 = 1 ∧ imgNum unlockBlock 10 1 = 1 ∧ imgNum unlockBlock 12 2 = 5
    ∧ (unlockBlock.drop 76).take 32 = leBytes 32 (Config.nonce 0).toNat ∧ (unlockBlock.drop 28).take 48 = Config.identityDigest
    ∧ Config.tokenSigned ((unlockBlock.drop 8).take 100) ((unlockBlock.drop 108).take 96) = true := by
  have h1 : unlockHead.length = 28 := by decide
  have h2 : Config.identityDigest.length = 48 := by simp [Config.identityDigest]
  have h3 : (leBytes 32 (Config.nonce 0).toNat).length = 32 := rfl
  have h4 : (Config.tokenSignature unlockSigned).toList.length = 96 := by simp
  have low : ∀ o n, o + n ≤ 28 → imgNum unlockBlock o n = leNat ((unlockHead.drop o).take n) := by
    intro o n h
    simp only [imgNum, unlockBlock]
    rw [List.drop_append_of_le_length (by omega), List.take_append_of_le_length (by simp; omega)]
  refine ⟨by rw [low _ _ (by omega)]; decide, ?_, by rw [low _ _ (by omega)]; decide, by rw [low _ _ (by omega)]; decide,
    by rw [low _ _ (by omega)]; decide, ?_, ?_, ?_⟩
  · have z : imgNum unlockBlock 204 52 = 0 := by
      have : unlockBlock.drop 204 = List.replicate 52 0 := by
        simp (disch := omega) [unlockBlock, List.drop_append, List.drop_eq_nil_of_le, h1, h2, h3]
      rw [imgNum, this]; decide
    have l : unlockBlock.length = 256 := by simp only [unlockBlock, List.length_append, h1, h2, h3, h4, List.length_replicate]
    simp only [blockGood, List.all_cons, List.all_nil, low 2 2 (by omega), low 11 1 (by omega), low 14 14 (by omega), z, l]
    decide
  · have : unlockBlock.drop 76 = leBytes 32 (Config.nonce 0).toNat ++ ((Config.tokenSignature unlockSigned).toList ++ List.replicate 52 0) := by
      simp [unlockBlock, List.drop_append, h1, h2]
    rw [this, List.take_append_of_le_length (by rw [h3])]; exact List.take_of_length_le (by rw [h3])
  · have : unlockBlock.drop 28 = Config.identityDigest ++ (leBytes 32 (Config.nonce 0).toNat ++ ((Config.tokenSignature unlockSigned).toList ++ List.replicate 52 0)) := by
      simp [unlockBlock, h1]
    rw [this, List.take_append_of_le_length (by rw [h2])]; exact List.take_of_length_le (by rw [h2])
  · have hs : (unlockBlock.drop 8).take 100 = unlockSigned := by
      have : unlockBlock.drop 8 = unlockSigned ++ ((Config.tokenSignature unlockSigned).toList ++ List.replicate 52 0) := by
        simp [unlockBlock, unlockSigned, List.drop_append, h1]
      have l : unlockSigned.length = 100 := by simp [unlockSigned, h1, h2, h3]
      rw [this, List.take_append_of_le_length (by rw [l])]; exact List.take_of_length_le (by rw [l])
    have hg : (unlockBlock.drop 108).take 96 = (Config.tokenSignature unlockSigned).toList := by
      have : unlockBlock.drop 108 = (Config.tokenSignature unlockSigned).toList ++ List.replicate 52 0 := by
        simp (disch := omega) [unlockBlock, List.drop_append, List.drop_eq_nil_of_le, h1, h2]
      rw [this, List.take_append_of_le_length (by rw [h4])]; exact List.take_of_length_le (by rw [h4])
    rw [hs, hg]; simp [Config.tokenSigned]

/-- A tile holds a translation of the page. -/
def holding (s : State) (p : Nat) : State :=
  { s with tiles := [(0, { Tile.none with queue := [{ v := 0, kind := .ldG 0 0 [(0, p, 0)], cfg := MCfg.zero, fmts := [], regA := [], regB := [], coach := 0 }] })] }
/-- Nothing is taken, and nothing or something waits; codes that no request has; a world in use, or not; pages in a wrong state, held by
a tile, or in no world. -/
theorem witness_PortilRequests_answers :
    portilState.portil.taken = none ∧ portilState.portil.queue = []
    ∧ { portilState.portil with queue := [(ReqSource.mailbox, block 9 16 [])] }.queue ≠ []
    ∧ imgNum (block 11 16 []) 0 2 = 11 ∧ imgNum (block 0 16 []) 0 2 = 0
    ∧ (portilState.pot.any (fun e => e.2.world == 5) = true ∧ { portilState with pot := [] }.pot.all (fun e => e.2.world != 5) = true)
    ∧ pageOk 0x30001 = false ∧ blockGood (block 3 32 (leBytes 8 0x30001 ++ leBytes 2 5)) 32 [(18, 14)] = true ∧ imgNum (block 3 32 (leBytes 8 0x30001)) 8 8 = 0x30001
    ∧ (potOf portilState 0x20000).world ≠ 0 ∧ (potOf portilState 0x30000).state ≠ 1 ∧ (potOf portilState 0x30000).state ≠ 2
    ∧ (potOf portilState 0x30000).world = 0 ∧ portilState.upsets.contains (.pot (0x30000 / 4096)) = false
    ∧ frameQuiet (holding portilState 0x20000) 0x20000 = false ∧ (potOf (holding portilState 0x20000) 0x20000).state = 1
    ∧ isDram 0x30000 = true ∧ blobAt 0x80000000000 = true ∧ tget portilState.worlds 6 = none := by decide +kernel
/-- A full list of exports, and 2,048 slots in use. -/
theorem witness_PortilRequests_full :
    1048576 ≤ { portilState.portil with exports := List.replicate 1048576 (5, 1) }.exports.length
    ∧ (let key : KeySlot := { kind := 2, state := 2, world := 0, epoch := 1, key := 0, session := 4, policy := [] }
       freeSlot { portilState with keys := (List.range 2048).map (fun i => (i, key)) }) = none := by
  refine ⟨le_of_eq List.length_replicate.symm, ?_⟩
  have h : ∀ n, firstFree n (List.range n) = n := fun n => by
    simp only [firstFree, Option.getD_eq_iff]
    simp
  simp [freeSlot, tkeys, List.filter_map, Function.comp_def, h]

/-! ### Bring-up (15 R500, R501) -/

/-- Bring-up has completed a stage. -/
def staged (n : Nat) : State := { State.reset with pf := { PfRegs.reset with stage := n } }

/-- 15 R501: READY is set after the sixth stage, and partition 0 holds every cluster. -/
theorem test_ready : (match exec .ready (staged 5) with
    | .next t => (t.pf.ready, (tget t.parts 0).map Part.clusters) | _ => (false, none)) = (true, some 0xFFFFF) := by decide +kernel

theorem witness_BringUp :
    (∀ n ∈ [1, 2, 3, 4, 5], (staged n).pf.stage = n ∧ (staged n).pf.fatal = false ∧ (staged n).pf.ready = false)
    ∧ 4 ∉ State.reset.portil.sessions ∧ 4 ∉ State.reset.portil.exchanged ∧ 4 ∈ { State.reset.portil with exchanged := [4] }.exchanged
    ∧ (match checkPlate (plateBytes true) true 0 with
        | .ok _ => true
        | .error _ => false) = true
    ∧ (match checkPlate (plateBytes false) true 0 with
        | .ok _ => false
        | .error _ => true) = true
    ∧ (negotiated base).pf.featDev.getLsbD 43 = true ∧ (negotiated base).pf.featDrv.getLsbD 43 = true := by decide +kernel

end Sys2Proof.Tests
end

