-- ==== Sys2Proof/Tests/Lanes.lean ====
section
/-! SUPPORT. Tests of lane operations, with results from the spec's own rules worked by hand, and states and operands that
meet the hypotheses of the claims about them. -/
namespace Sys2Proof.Tests
open Sys2Proof Sys2Proof.Machine

/-! ### Results (04) -/

/-- R112: 0xFFFFFFFF + 2 wraps to 1; with SAT an SI32 sum clamps to 0x7FFFFFFF. -/
theorem test_iadd : laneReg (.iadd (wr 4 1 2 0 1 0 0)) (regs [0xFFFFFFFF, 2] []) 4 = some 1
    ∧ laneReg (.iadd (wr 4 1 2 0 0 0 1)) (regs [0x7FFFFFF0, 0x20] []) 4 = some 0x7FFFFFFF := by decide
/-- R112: a UI8 difference keeps its width; a source is also the destination. -/
theorem test_isub : laneReg (.isub (wr 1 1 2 0 7 0 0)) (regs [3, 5] []) 1 = some 0xFE := by decide
/-- R112: the high half of a signed product. -/
theorem test_imulh : laneReg (.imulh (wr 4 1 2 0 0 0 0)) (regs [0x80000000, 2] []) 4 = some 0xFFFFFFFF := by decide
/-- R113: the carry out of 0xFFFFFFFF + 0 + 1, with C<0> alone read. -/
theorem test_iaddc : laneReg (.iaddc (wr 4 1 2 3 1 0 1)) (regs [0xFFFFFFFF, 0, 0xFFFFFFFF] []) 4 = some 1 := by decide
/-- R119: a shift by the width gives 0; SAR gives the sign. -/
theorem test_shifts : laneReg (.shl (wr 4 1 2 0 1 0 0)) (regs [1, 32] []) 4 = some 0
    ∧ laneReg (.sar (wr 4 1 2 0 0 0 0)) (regs [0x80000000, 40] []) 4 = some 0xFFFFFFFF := by decide
/-- R121: CLZ and CTZ of zero give the width. -/
theorem test_counts : laneReg (.clz (wr 4 1 0 0 1 0 0)) (regs [0] []) 4 = some 32
    ∧ laneReg (.ctz (wr 4 1 0 0 1 0 0)) (regs [0] []) 4 = some 32 := by decide
/-- R120: four bits from bit 4, signed. -/
theorem test_bfe : laneReg (.bfe (wr 4 1 2 0 0 0 0)) (regs [0xF0, 0x404] []) 4 = some 0xFFFFFFFF := by decide
/-- 03 R92: 1.0 + 2^-24 rounds to even, 1.0, and raises NX; infinity less infinity is the canonical NaN and IV. -/
theorem test_fadd : laneReg (.fadd (wr 4 1 2 0 8 0 0)) (regs [0x3F800000, 0x33800000] []) 4 = some 0x3F800000
    ∧ laneReg (.fadd (wr 4 1 2 0 8 0 0)) (regs [0x7F800000, 0xFF800000] []) 4 = some 0x7FC00000 := by decide
/-- R127: RTE rounds 2.5 to 2.0. -/
theorem test_frnd : laneReg (.frnd (wr 4 1 0 0 8 0 0)) (regs [0x40200000] []) 4 = some 0x40000000 := by decide
/-- R134: 300 clamps to 255 as UI8. -/
theorem test_cvt : laneReg (.cvt (wr 4 1 0 0 7 0 1)) (regs [300] []) 4 = some 255 := by decide
/-- R146: of a mask without a lane, MFIRST gives 0xFFFFFFFF. -/
theorem test_mfirst : laneReg (.mfirst (wr 4 0 0 0 0 0 1)) base 4 = some 0xFFFFFFFF := by decide
/-- R124: LEA adds 3 x 8 to a pair. -/
theorem test_lea : laneReg (.lea (wr 4 2 1 0 1 0 3)) (regs [3, 0x1000, 0] []) 4 = some 0x1018 := by decide
/-- R60-R61: a reserved field, or a lane register beyond the declared ones, is ILLEGAL without effect: class 1, which halts the
rake where the context has no handler (11 R410). -/
theorem test_illegal : haltOfRake (.iadd (wr 4 1 2 0 0 0 2)) base = some (1, 3)
    ∧ haltOfRake (.iadd (wr 4 1 0xBF 0 0 0 0)) (st { Boot.coach with nregs := 8 }) = some (1, 9) := by decide

/-! ### Hypotheses that are met: the operations issue with nothing in their way -/

/-- Integer operations on v registers, with SAT and with an immediate. -/
def intOps : List Instr :=
  [.iadd (wr 4 1 2 0 0 0 1), .iadd (wi 4 1 0xFFFFFF 0 0 1), .isub (wr 4 1 2 0 6 0 0), .imul (wr 4 1 2 0 5 0 1), .imulh (wr 4 1 2 0 1 0 0),
   .imad (wr 4 1 2 3 0 0 1), .imin (wr 4 1 2 0 0 0 0), .imax (wr 4 1 2 0 7 0 0), .iabs (wr 4 1 0 0 0 0 1), .iadd64 (wr 4 2 6 0 2 0 3),
   .imad64 (wr 4 1 2 6 3 0 1), .idp4 (wr 4 1 2 3 0 0 3), .iaddc (wr 4 1 2 3 0 0 0), .iaddc (wr 4 1 2 3 0 0 1), .iaddc (wr 4 1 2 3 1 0 2),
   .iaddc (wr 4 1 2 3 1 0 3)]
theorem witness_IntegerArithmetic : allClear base intOps = true ∧ noQ base intOps = true := by decide

def wordOps : List (NOp → Instr) := [.iadd, .isub, .imul]
theorem witness_WrappedWords : allClear base (wordOps.map (fun f => f (wr 4 1 2 0 1 0 0)) ++ [.imad (wr 4 1 2 3 0 0 0)]) = true
    ∧ noQueue (wr 4 1 2 3 0 0 0) = true ∧ fTy (wr 4 1 2 0 1 0 0) = 1 ∧ fOpx (wr 4 1 2 3 0 0 0) = 0 ∧ fKind (wr 4 1 2 3 0 0 0) = 0 := by decide

def moveOps : List Instr :=
  [.sel (wr 4 1 2 3 0 0 0), .sel (wr 4 1 2 0 1 0 17), .and (wr 4 1 2 0 1 0 0), .or (wr 4 2 6 0 3 0 0), .xor (wi 4 1 0xFFFFFF 0 0 0),
   .andn (wr 4 1 2 0 0 0 0), .mov (wr 4 1 0 0 1 0 0), .mov (wi 4 0 7 0 0 0), .movi (wl 4 0xFFFFFFFF), .lea (wr 4 2 1 0 0 0 7),
   .movhi (wl 4 1)]
theorem witness_MovesAndLogic : allClear base moveOps = true ∧ noQ base moveOps = true := by decide

def shiftOps : List Instr :=
  [.shl (wr 4 1 2 0 1 0 0), .shr (wr 4 2 1 0 3 0 0), .sar (wi 4 1 0xFFFFFF 0 0 0), .rotl (wr 4 1 2 0 1 0 0), .bfe (wr 4 1 2 0 0 0 0),
   .bfi (wr 4 1 2 3 1 0 0), .bfi (wi 4 1 0x101 1 0 0), .popc (wr 4 2 0 0 3 0 0), .clz (wr 4 1 0 0 1 0 0), .ctz (wr 4 1 0 0 0 0 0)]
theorem witness_ShiftsAndFields : allClear base shiftOps = true ∧ noQ base shiftOps = true := by decide

def floatOps : List Instr :=
  [.fadd (wr 4 1 2 0 8 0 0), .fsub (wr 4 1 2 0 11 5 0), .fmul (wi 4 1 0x3F8000 8 4 0), .ffma (wr 4 1 2 3 12 1 0), .fmin (wr 4 1 2 0 8 0 0),
   .fmax (wr 4 1 2 0 8 0 0), .frnd (wr 4 1 0 0 8 2 0), .fclass (wr 4 1 0 0 8 0 0)]
theorem witness_FloatingArithmetic : allClear base floatOps = true ∧ noQ base floatOps = true ∧ field (me base).fmode.toNat 10 5 = 0
    ∧ ((tyFmt 8).value 0x7FC00000).isNan = true ∧ ((tyFmt 8).value 0x3F800000).isNan = false
    ∧ ((tyFmt 8).value 0x3F800000).isInf = false := by decide
/-- A signalling NaN with IV enabled in FMODE, in the last operation of an instruction. -/
theorem witness_FloatingArithmetic_trap :
    let s := st { Boot.coach with fmode := 0x7E0, v := [(64, 0x7F800001), (128, 0xFF800000)] }
    let f := tyFmt 8
    let a := fun w l => fBits 8 (aVal (me s) w false l)
    let b := fun w l => fBits 8 (bVal (me s) w false (immValue 8 (fImm w)) l)
    let w := wr 4 1 2 0 8 0 0
    let x := wr 4 1 2 3 8 0 0
    let u := wr 4 1 0 0 8 0 0
    s.iss.count ≤ s.iss.step + 1 ∧ noQueue w = true ∧ noQueue x = true ∧ noQueue u = true
    ∧ allClear s [.fadd w, .fsub w, .fmul w, .ffma x, .fmin w, .fmax w, .frnd u] = true
    ∧ [fun l => fRes (fAdd f 0 false false (a w l) (b w l)), fun l => fRes (fAdd f 0 false true (a w l) (b w l)),
        fun l => fRes (fMul f 0 false (a w l) (b w l)),
        fun l => fRes (fFma f 0 false (a x l) (b x l) (fBits 8 (cVal (me s) x false l))),
        fun l => fRes (fMinMax f false false (a w l) (b w l)), fun l => fRes (fMinMax f false true (a w l) (b w l)),
        fun l => fRes (fRnd f 0 false (a u l))].all
        (fun r => enabledBits (me s).fmode (laneFlags 1 (fun l => (r l).2)) != 0) = true
    ∧ roundOf (me s) w = 0 ∧ (me s).fmode.getLsbD 3 = false ∧ enOf s w = 1 ∧ fTy w = 8 := by decide

def packedOps : List Instr :=
  [.hadd2 (wr 4 1 2 0 9 0 1), .hmul2 (wr 4 1 2 0 10 0 0), .hfma2 (wr 4 1 2 3 9 0 0), .hmin2 (wr 4 1 2 0 9 0 0), .hmax2 (wi 4 1 0xFFFF 10 0 0),
   .hdot2 (wr 4 1 2 3 9 0 0), .fdp4n (wr 4 1 2 3 13 0 0x01)]
theorem witness_PackedArithmetic : allClear base packedOps = true ∧ noQ base packedOps = true ∧ field (me base).fmode.toNat 10 5 = 0 := by
  decide

def convertOps : List Instr :=
  [.cvt (wr 4 1 0 0 7 0 0), .cvt (wr 4 2 0 0 8 0 3), .cvtn (wr 4 1 2 0 8 0 0x20), .pack (wr 4 1 2 0 7 0 3), .unpack (wr 4 1 0 0 5 0 1),
   .scalex (wr 4 1 2 0 8 0 0), .scalex (wr 4 1 0 0 8 0 1), .scalex (wr 4 1 2 0 9 0 0)]
theorem witness_Conversions : allClear base convertOps = true ∧ noQ base convertOps = true ∧ field (me base).fmode.toNat 10 5 = 0
    ∧ tyIsFloat 0 = false ∧ tyIsFloat 7 = false := by decide

def longOps : List (NOp → Instr) := [.frcp, .frsq, .fsqrt, .fexp2, .flog2, .fsin, .fcos]
theorem witness_LongFunctions : allClear base (longOps.map (fun f => f (wr 4 1 0 0 8 5 0))) = true
    ∧ noQ base (longOps.map (fun f => f (wr 4 1 0 0 11 0 0))) = true
    ∧ fmtF32.read false 0xBF800000 = .fin true 0x800000 (-23) ∧ fmtF16.read true 0x7C01 = .nan true := by decide

def compareOps : List Instr := [.icmp (wr 4 1 2 0 0 0 2), .icmp (wr 0 2 6 0 3 0 0x11D), .fcmp (wr 4 1 2 0 8 0 7), .fcmp (wr 0 1 2 0 8 0 0x21F)]
theorem witness_Comparisons : allClear base compareOps = true
    ∧ noQ base compareOps = true ∧ (fX (wr 4 1 2 0 0 0 2)).testBit 3 = false ∧ (fX (wr 0 2 6 0 3 0 0x11D)).testBit 3 = true
    ∧ (fX (wr 4 1 2 0 8 0 7)).testBit 3 = false ∧ (fX (wr 0 1 2 0 8 0 0x21F)).testBit 3 = true := by decide

def crossOps : List Instr :=
  [.rand (wr 4 0 0 0 8 0 0), .rand (wr 4 0 0 0 1 0 0), .rseed (wr 0 2 1 0 0 0 0), .rseed (wi 0 2 5 0 0 0), .shfl (wr 4 1 2 0 1 0 1),
   .shfl (wi 4 1 31 1 0 3), .vote (wr 4 1 0 0 0 0 2), .ballot (wr 4 1 0 0 0 0 0x13)]
theorem witness_RandomAndCrossLane : allClear base crossOps = true ∧ noQ base crossOps = true
    ∧ lowLane (enOf base (wr 0 2 1 0 0 0 0)) = some 0 := by decide

theorem witness_Reductions : allClear base [.redx (wr 4 1 0 0 1 0 5), .redx (wr 4 2 0 0 2 0 0), .scanx (wr 4 1 0 0 8 0 8)] = true
    ∧ noQ base [.redx (wr 4 1 0 0 1 0 5), .scanx (wr 4 1 0 0 8 0 8)] = true
    ∧ ([some 5, none] : List (Option Dword)).length = 2 ^ 1 ∧ (5 : Dword).toNat < 2 ^ 32 := by decide

def maskOps : List Instr :=
  [.mop (wr 4 0 0 0 0 4 0x213), .mop (wr 0 0 0 0 2 0 0x210), .mpopc (wr 4 0 0 0 0 0 0x21), .mfirst (wr 4 0 0 0 0 0 0x12),
   .mact (wr 0 0 0 0 0 0 0x13), .mmov (wr 4 0 0 0 0 0 0x12), .mmov (wr 0 4 0 0 0 0 3)]
theorem witness_MaskOperations : allClear base maskOps = true
    ∧ noQ base maskOps = true ∧ (fX (wr 4 0 0 0 0 0 0x12)).testBit 4 = true ∧ (fX (wr 0 4 0 0 0 0 3)).testBit 4 = false
    ∧ lowLane (enOf base (wr 0 4 0 0 0 0 3)) = some 0 := by decide

/-- SPR of 0x00 (short), of a long one, of 0x17 (unassigned); writes of FMODE, FSTAT, a read-only one, an unassigned one, and
reserved bits. -/
theorem witness_SpecialRegisters :
    allClear base [.spr (wr 4 0 0 0 0 0 0), .spr (wr 4 0 0 0 0 0 0x15), .spr (wr 4 0 0 0 0 0 0x17), .sprWr (wi 0 0 0x7E4 8 4 3),
      .sprWr (wi 0 0 0x3F 8 5 0), .sprWr (wi 0 0 0 8 0 0), .sprWr (wi 0 0 0 8 5 3), .sprWr (wi 0 0 0x800 8 4 3)] = true
    ∧ noQ base [.spr (wr 4 0 0 0 0 0 0), .spr (wr 4 0 0 0 0 0 0x15), .spr (wr 4 0 0 0 0 0 0x17), .sprWr (wi 0 0 0x7E4 8 4 3),
      .sprWr (wi 0 0 0x3F 8 5 0), .sprWr (wi 0 0 0 8 0 0), .sprWr (wi 0 0 0 8 5 3), .sprWr (wi 0 0 0x800 8 4 3)] = true
    ∧ sprNum (wi 0 0 0x7E4 8 4 3) = 0x13 ∧ sprNum (wi 0 0 0x3F 8 5 0) = 0x14 ∧ sprNum (wi 0 0 0 8 0 0) = 0
    ∧ sprNum (wi 0 0 0 8 5 3) = 0x17 ∧ sprAssigned 0x17 = false ∧ sprAssigned 0x15 = true
    ∧ sprValueOk 0x13 0x7E4 = true ∧ sprValueOk 0x14 0x3F = true ∧ sprValueOk 0x13 0x800 = false
    ∧ sprLong 0 = false ∧ sprLong 0x15 = true ∧ lowLane (enOf base (wi 0 0 0x7E4 8 4 3)) = some 0 := by decide
/-- The coach's rake, region, context and tile, a bound queue and an open port. -/
theorem witness_SpecialRegisters_values :
    (tget base.rakes (me base).rake).isSome ∧ (tget base.regions (me base).region).isSome ∧ (tget base.ctxs (me base).ctx).isSome
    ∧ (let s := { base with tiles := [(2, { Tile.none with holder := some 0 })], regions := [(0, { Boot.region with
          queues := [{ depth := 2, lane := false, ovdepth := 0, ovaddr := 0, entries := [.word 7], ovIn := 0, ovOut := 0, pending := none }]
          stages := [{ regs := 192, entry := 0x4000, min := 1, max := 1, lease := 8, bind := [0], slots := 1 }] })] }
       (boundQueue s (me s) 0).isSome ∧ sprValue s 0 0x20 0 = 1 ∧ sprValue s 0 0x16 0 = 4)
    ∧ (let s := { st { Boot.coach with ports := [(8, 3)] } with
          ports := [(3, { coach := 0, cmds := [(1, 0), (2, 0)], resps := [], due := 0, wait := none, failed := false, done := 0 })] }
       (tget (me s).ports 8) = some 3 ∧ (tget s.ports 3).isSome ∧ sprValue s 0 0x28 0 = 2)
    ∧ boundQueue base (me base) 7 = none ∧ tget (me base).ports 15 = none := by decide

end Sys2Proof.Tests
end

