-- ==== Sys2Proof/Tests/Matrix.lean ====
section
/-! SUPPORT. States that meet the hypotheses of the claims about the matrix engine. -/
namespace Sys2Proof.Tests
open Sys2Proof Sys2Proof.Machine

/-- A configuration in s0-s7: both operands 16-bit floats in the window, rows 32 bytes apart, promotion at every step. -/
def cfg : MCfg := { a0 := 0, a1 := 0x20, b0 := 0x1000, b1 := 0x20, planeA := 0, planeB := 0, fmtw := 0x111, meta_ := 0 }
/-- s8-s11 a loop of one step over 64 rows and columns; s12 the version 0; s13 an offset; s14:s15 an address; s16 a pitch; s18
a version in the past. -/
def scalars : List Word := [0, 0x20, 0x1000, 0x20, 0, 0, 0x111, 0, 0, 0, 1, 0x4040, 0, 0, 0x8000, 0, 256, 0, 0xFFFF, 1]
/-- Coach 0 holds tile 0 of core 0. -/
def tiled (t : Tile) : State :=
  { st { Boot.coach with s := mapFrom (fun i x => (i, x)) 0 scalars, cfgs := [(0, cfg)] } with tiles := [(0, t)] }
def heldT : Tile := { Tile.none with holder := some 0 }
def mop (v : BitVec 16) (k : MKind) : MOp := { v := v, kind := k, cfg := cfg, fmts := [], regA := [], regB := [], coach := 0 }

theorem witness_MatrixIssue :
    let s := tiled heldT
    allClear s [.mcfg (wr 0 (sc 0) 0 0 0 0 0), .mcfg (wr 0 (sc 8) 0 0 0 0 0), .mmeta (wr 0 (sc 0) 0 0 0 0 0), .mzero (wr 0 0 0 (sc 12) 0 0 0),
      .mprom (wr 0 0 0 (sc 12) 0 0 0), .mma (wr 0 (sc 13) (sc 13) (sc 12) 1 0 0), .mloop (wr 0 (sc 8) 0 (sc 12) 0 0 0),
      .mlda (wr 0 8 0 (sc 12) 1 0 0), .msta (wr 8 0 0 (sc 12) 1 0 0), .mlda (wr 0 (sc 13) (sc 16) (sc 12) 0 4 0),
      .msta (wr 0 (sc 13) (sc 16) (sc 12) 0 4 0), .mlda (wr 0 (sc 14) (sc 16) (sc 12) 0 0 0), .msta (wr 0 (sc 14) (sc 16) (sc 12) 0 0 0)] = true
    ∧ settled s 0 = true ∧ isDet s (me s) = false ∧ (tileOf s (tileKey (coreOf (me s)) (xTile (wr 0 0 0 (sc 12) 0 0 0)))).holder = some 0
    ∧ cfgOk cfg = true ∧ cfgOk { cfg with fmtw := 0 } = false ∧ tget (me s).cfgs 0 = some cfg ∧ checkVersion heldT 0 = .accept
    ∧ operandBad (me s) (descSrc cfg.a0) (fA (wr 0 (sc 13) (sc 13) (sc 12) 1 0 0)) 32 = none
    ∧ operandEnd cfg.a0 cfg.a1 cfg.planeA false 32 0 1 64 ≤ windowOf s (me s)
    ∧ operandEnd cfg.b0 cfg.b1 cfg.planeB false 32 0 1 64 ≤ windowOf s (me s)
    ∧ mForm (wr 0 8 0 (sc 12) 1 0 0) = 2 ∧ mForm (wr 0 (sc 13) (sc 16) (sc 12) 0 4 0) = 1 ∧ mForm (wr 0 (sc 14) (sc 16) (sc 12) 0 0 0) = 0
    ∧ 0 + 63 * 256 + 256 ≤ windowOf s (me s) := by decide
/-- The pages of a tile in memory translate for reads and for writes. -/
theorem witness_MatrixIssue_pages :
    let s := tiled heldT
    (match pagesXlate s 0 .read (footprintPages 0x8000 256) [] with
      | (.ok p, _) => p.length == 4
      | _ => false) = true
    ∧ (match pagesXlate s 0 .write (footprintPages 0x8000 256) [] with
      | (.ok _, s1) => !isDet s1 (me s)
      | _ => false) = true := by decide +kernel
/-- A version in the past, a full queue, and a tile that the coach does not hold. -/
theorem witness_MatrixIssue_refused :
    checkVersion heldT 0xFFFF = .illegal
    ∧ checkVersion { heldT with queue := (List.range 16).map (fun i => mop (BitVec.ofNat 16 i) .zero) } 16 = .wait
    ∧ (let s := tiled { heldT with queue := (List.range 16).map (fun i => mop (BitVec.ofNat 16 i) .zero) }
       allClear s [.mzero (wr 0 0 0 (sc 16) 0 0 0), .mprom (wr 0 0 0 (sc 18) 0 0 0)] = true)
    ∧ (let s := tiled Tile.none
       (tileOf s (tileKey (coreOf (me s)) 0)).holder ≠ some s.iss.coach
       ∧ allClear s [.mcfg (wr 0 (sc 0) 0 0 0 0 0), .mmeta (wr 0 (sc 0) 0 0 0 0 0), .mma (wr 0 (sc 13) (sc 13) (sc 12) 1 0 0),
           .mloop (wr 0 (sc 8) 0 (sc 12) 0 0 0), .mzero (wr 0 0 0 (sc 12) 0 0 0), .mprom (wr 0 0 0 (sc 12) 0 0 0),
           .mlda (wr 0 8 0 (sc 12) 1 0 0), .msta (wr 8 0 0 (sc 12) 1 0 0)] = true) := by decide

theorem witness_MatrixVersions :
    (let s := tiled heldT
     allClear s [.mverRead (wr 4 0 0 0 0 0 0), .mverAcq (wr 4 0 0 0 0 0 1), .mverRel (wr 0 0 0 0 0 0 2), .mverWait (wr 0 0 0 (sc 12) 0 0 3),
       .mverWait (wr 0 0 0 (sc 19) 0 0 3)] = true
     ∧ noQueue (wr 4 0 0 0 0 0 0) = true ∧ ((heldTiles s 0).filter (· != 0)).length < 2 ∧ heldT.cur = none ∧ heldT.queue = []
     ∧ settled (releaseTile s 0 0) 0 = true ∧ (heldT.ver - 0).toNat < 2 ^ 15 ∧ 2 ^ 15 ≤ (heldT.ver - 1).toNat ∧ heldT.idle = true)
    ∧ (let t := { heldT with queue := [mop 0 .zero] }
       clear (tiled t) (.mverRel (wr 0 0 0 0 0 0 2)) = true ∧ t.queue ≠ [] ∧ t.idle = false)
    ∧ (let s := tiled Tile.none
       clear s (.mverAcq (wr 4 0 0 0 0 0 1)) = true ∧ settled (modCoach (undefTile (setTile s 0 heldT) 0) 0 (fun co => { co with cfgs := [] })) 0 = true)
    ∧ (let s := tiled { Tile.none with holder := some 7 }
       allClear s [.mverAcq (wr 4 0 0 0 0 0 1), .mverRead (wr 4 0 0 0 0 0 0), .mverRel (wr 0 0 0 0 0 0 2), .mverWait (wr 0 0 0 (sc 12) 0 0 3)] = true)
    ∧ (let s := { tiled Tile.none with tiles := [(0, Tile.none), (1, heldT), (2, heldT)] }
       clear s (.mverAcq (wr 4 0 0 0 0 0 1)) = true ∧ ¬ ((heldTiles s 0).filter (· != 0)).length < 2) := by decide

/-- An operation begins; one K-step of one element; and an operation whose steps are done. -/
theorem witness_MatrixVersions_engine :
    (let s := tiled { heldT with queue := [mop 0 .zero] }
     (tileOf s 0).cur = none ∧ (tileOf s 0).queue.find? (fun o => o.v == (tileOf s 0).ver) = some (mop 0 .zero) ∧ engineRuns s 0 = true)
    ∧ (let o := mop 0 (.mul 1 1 1 0 0 true)
       let s := tiled { heldT with cur := some (o, 0) }
       nextTile s 0 = some 0 ∧ (tget s.rakes (coachOf s o.coach).rake).isSome ∧ s.upsets.contains (.tile (tileKey 0 0)) = false
       ∧ { s with upsets := [.tile 0] }.upsets.contains (.tile (tileKey 0 0)) = true)
    ∧ (let s := tiled { heldT with cur := some (mop 0 (.mul 1 1 1 0 0 true), 1) }
       opDone (tileOf s 0) = true ∧ engineRuns s 0 = true) := by decide
theorem witness_MatrixVersions_step :
    let o := mop 0 (.mul 1 1 1 0 0 true)
    (kStep (Boot.rake [0] []) o 0 (tileEls { heldT with cur := some (o, 0) })).isSome = true := by decide +kernel

end Sys2Proof.Tests
end

