-- ==== Sys2Proof/Tests/Sched.lean ====
section
/-! SUPPORT. States that meet the hypotheses of the claims about the events of coaches, rakes, pools and the memory system, and
a few results. -/
namespace Sys2Proof.Tests
open Sys2Proof Sys2Proof.Machine

/-! ### Results, waits and queues (02 R50, 05 R165, R194, R202-R206) -/

/-- A slot that will write 7 into lane 0 of v4. -/
def slot (fl : List Mask) : Slot :=
  { cost := 1, order := 0, lanes := 1, vw := [(256, 7)], sw := [], push := none, spr := none, flags := fl, returned := true, cpy := none
    tile := none, opword := 0x40, opga := 0x4000, opstep := 0 }
/-- Lane 0 waits at a marked operation. -/
def marking (fmode : Word) (fl : List Mask) : Coach :=
  { Boot.coach with fmode := fmode, rbuf := [slot fl], stalls := [{ lanes := 1, ga := 0x4000, step := 0, kind := .marker }] }
/-- Lane 0 of the coach in a state. -/
def laneIs (x : Lane) : Coach := { Boot.coach with lanes := x :: List.replicate 63 { Lane.absent with state := .exited } }
/-- A stall of lane 0 at 0x4000. -/
def stallAt (k : StallKind) : Stall := { lanes := 1, ga := 0x4000, step := 0, kind := k }
/-- The coach is stalled; q0 is bound to a WORD queue of two entries. -/
def onQueue (k : StallKind) (es : List Entry) : State :=
  { st { Boot.coach with stalls := [stallAt k] } with regions := [(0, { Boot.region with
      queues := [{ depth := 2, lane := false, ovdepth := 0, ovaddr := 0, entries := es, ovIn := 0, ovOut := 0, pending := none }]
      stages := [{ regs := 192, entry := 0x4000, min := 1, max := 1, lease := 8, bind := [0], slots := 1 }] })] }
/-- Queue register 8 is an open port of coach 0. -/
def onPort (k : StallKind) (cmds : List (Word × Nat)) (resps : List Word) : State :=
  { st { Boot.coach with stalls := [stallAt k], ports := [(8, 3)] } with
    ports := [(3, { coach := 0, cmds := cmds, resps := resps, due := 0, wait := none, failed := false, done := 0 })] }

/-- 02 R50: the commit writes the slot's registers. -/
theorem test_commit : (match exec (.returnBufferCommit 0) (st (marking 0 noFlags)) with
    | .next t => (vget (coachOf t 0) 4 0, (coachOf t 0).rbuf.length) | _ => (0, 9)) = (7, 0) := by decide
/-- 05 R204: a pop that waited gets the entry at the front. -/
theorem test_pop : (match exec (.queuePopComplete 0) (onQueue (.pop 0 none) [.word 7, .word 8]) with
    | .next t => (coachOf t 0).stalls.map Stall.kind | _ => []) = [.pop 0 (some (.word 7))] := by decide

theorem witness_CoachResults_slots :
    (let co := { Boot.coach with rbuf := [slot noFlags] }
     tget (st co).coaches 0 = some co ∧ co.rbuf[0]? = some (slot noFlags) ∧ (slot noFlags).cpy = none ∧ (slot noFlags).tile = none)
    ∧ (let co := marking 0 noFlags
       marked co = some (stallAt .marker) ∧ allReturned co = true ∧ co.trap = none
       ∧ commitFpe { coachOf (commitAll (st co) 0).2 0 with stalls := [] } co.rbuf (commitAll (st co) 0).1 = none)
    ∧ (let co := marking 0x3E0 [1, 0, 0, 0, 0, 0]
       (commitFpe { coachOf (commitAll (st co) 0).2 0 with stalls := [] } co.rbuf (commitAll (st co) 0).1).isSome) := by decide

theorem witness_CoachResults_waits :
    (let co := laneIs { Lane.absent with state := .sleeping, wait := .cycles 100 }
     isResident (st co) 0 = true ∧ wakeTimes co = [100])
    ∧ (tget { base with treebars := [(5, { epoch := 1, n := 2, count := 0, closed := [(0, 0, 10)] })] }.treebars 5).isSome := by decide

theorem witness_CoachResults_queues :
    (let s := onQueue (.push 0 (.word 9) 8192) [.word 7]
     isResident s 0 = true ∧ (coachOf s 0).trap = none ∧ isDet s (coachOf s 0) = false
     ∧ pushStall (coachOf s 0) = some (stallAt (.push 0 (.word 9) 8192), 0, .word 9, 8192)
     ∧ (match pushReg s 0 0 (.word 9) with
        | .done _ => true
        | _ => false) = true)
    ∧ (match pushReg (onQueue (.push 0 (.word 9) 8192) [.word 7, .word 8]) 0 0 (.word 9) with
        | .full => true
        | _ => false) = true
    ∧ (let s := onPort (.portPush 8 (.word 9)) [] []
       portPushStall (coachOf s 0) = some (stallAt (.portPush 8 (.word 9)), 8, .word 9)
       ∧ (match pushReg s 0 8 (.word 9) with
          | .done _ => true
          | _ => false) = true)
    ∧ (let s := onQueue (.pop 0 none) [.word 7]
       (coachOf s 0).stalls = [] ++ stallAt (.pop 0 none) :: [] ∧ (boundQueue s (coachOf s 0) 0).map (fun x => x.1) = some 0
       ∧ (popQueue s (coreUnits 0) 0 0).isSome)
    ∧ (let s := onPort (.pop 8 none) [] [5]
       (coachOf s 0).stalls = [] ++ stallAt (.pop 8 none) :: [] ∧ tget (coachOf s 0).ports 8 = some 3
       ∧ (tget s.ports 3).map Port.resps = some [5]) := by decide

/-! ### Issue, admission and leases (10 R380-R386) -/

/-- A second coach of the same rake, in place 1. -/
def second (co : Coach) : State :=
  { st Boot.coach with coaches := [(0, { Boot.coach with active := true }), (1, { co with idx := 1, fslot := 1, place := some (0, 0, 1) })]
                       rakes := [(0, Boot.rake [0, 1] [])] }

/-- 10 R380: MI at 1,024 makes the estimate, here of 600 allocated lines: ceiling of 600/256. -/
theorem test_lease : (match exec (.leaseEstimateUpdate 0) (st { Boot.coach with measured := true, est := 2, mi := 1024, alloc := 600 }) with
    | .next t => (coachOf t 0).leaseG | _ => 0) = 3 := by decide

theorem witness_CoachScheduling :
    (let s := second { Boot.coach with active := true }
     selectIn s 0 = some (0, 0) ∧ isDet s (coachOf s 0) = false)
    ∧ (let s := second { Boot.coach with active := false, leaseG := 8 }
       admitNext s 0 = some 1 ∧ (tget s.coaches 1).isSome)
    ∧ (let s := st { laneIs { Lane.absent with state := .sleeping, wait := .cycles 100 } with active := true }
       isResident s 0 = true ∧ (coachOf s 0).active = true ∧ coachWaits s (coachOf s 0) = true ∧ (coachOf s 0).sliceExpired = false)
    ∧ (let s := { second { Boot.coach with active := true } with poolHits := [(0, 5000)] }
       2 ^ (poolPart s 0).thrLog < tgetD 0 s.poolHits 0 ∧ (holdChoice s 0).isSome
       ∧ ¬ 2 ^ (poolPart (second Boot.coach) 0).thrLog < tgetD 0 (second Boot.coach).poolHits 0) := by decide

/-- 10 R381: a lease that alone exceeds the ceiling is admitted to an empty pool, behind nobody; one that fits is admitted beside
an active coach. -/
theorem witness_CoachScheduling_large :
    (let s := st { Boot.coach with active := false, leaseG := 4000 }
     admitNext s 0 = some 0 ∧ poolCeiling s 0 < 4000 ∧ ((poolCoaches s 0).filter (fun e => e.2.active)).isEmpty = true ∧ askers s 0 = [0])
    ∧ (let s := second { Boot.coach with active := false, leaseG := 8 }
       admitNext s 0 = some 1 ∧ askers s 0 = [1] ∧ ¬ (poolCeiling s 0 < 8) ∧ ¬ (leaseCap s 0 < 8)) := by decide +kernel

/-! ### Placement and stages (10 R375-R377, R386, R396, R397, 11 R434) -/

/-- The context of log 2 with images and slot maps in its mapped gigabyte. -/
def imageCtx : Ctx := { Boot.ctx with imgbase := 0x1000000, rimgbase := 0x8000000 }
/-- A core with 64 coaches whose slice has expired, and a rake that waits. -/
def crowded : State :=
  { st Boot.coach with
    coaches := (List.range 64).map (fun i => (i, { Boot.coach with fslot := i, place := some (0, i / 16, i % 16), sliceExpired := true }))
    rakes := [(0, Boot.rake [] []), (1, { Boot.rake [] [] with idx := 1, slot := none, cluster := none, created := false })] }
/-- Coach 0 has been saved. -/
def savedCoach : State := { st { Boot.coach with place := none } with ctxs := [(0, imageCtx)] }

/-- The same, its image's pages in the die's TLB. -/
def warm : State :=
  { savedCoach with tlbs := [(180, [{ ctx := 0, va := 0, log := 30, pa := 0, leaf := 0x1D, level := 2, world := 0, pages := List.range' 0x1000 44 }])] }
/-- The same with an image that is not mapped. -/
def unmapped : State := { savedCoach with ctxs := [(0, { imageCtx with imgbase := 0x40000000 })] }

/-- The image of a saved coach can be read: its pages translate, and nothing in them is poisoned. -/
theorem witness_Placement_image : (readImage warm 0 0).1 = true := by
  have h : (match areaPieces warm (dieUnits 0) 0 (imageAddr warm (coachOf warm 0)) coachImageSize .read with
    | (some ps, s) => s.poison == [] && s.softErrors == []
        && (imageState ps).all (fun p => (linesOf p.1 p.2.1).all (fun x => (peerLink (x.1 * 64)).isNone))
    | _ => false) = true := by decide +kernel
  have hc : (coachOf warm 0).ctx = 0 := rfl
  unfold readImage
  simp only [hc]
  split
  · next s he => rw [he] at h; exact nomatch h
  · next ps s he =>
    rw [he] at h
    simp only [Bool.and_eq_true, beq_iff_eq] at h
    obtain ⟨⟨h1, h2⟩, h3⟩ := h
    rw [Sys2Proof.Laws.poisonOwn_clean ((Sys2Proof.Laws.fillOwn_clean h2 0 (imageState ps)).1.trans h1) h3]

theorem witness_Placement_seats :
    waitersFor crowded 0 = [8] ∧ 64 ≤ coreCount crowded 0
    ∧ (crowded.coaches.any (fun e => e.2.sliceExpired && !e.2.inHandler && e.2.trap.isNone && decide (prioOf crowded e.2.region ≤ 8))) = true
    ∧ mayRestore warm 0 = true ∧ restorePlace warm 0 = some (0, 0, 0)
    ∧ mayRestore unmapped 0 = true ∧ restorePlace unmapped 0 = some (0, 0, 0) ∧ (readImage unmapped 0 0).1 = false
    ∧ (placeFor crowded 1).isSome
    ∧ (placeFor { st Boot.coach with coaches := [], rakes := [(0, { Boot.rake [0] [] with cluster := none })] } 0).isSome := by decide +kernel

/-- A region of two stages, with its coach at a pop. -/
def twoStages : State :=
  { onQueue (.pop 0 none) [] with regions := [(0, { Boot.region with
      rakes := 2
      queues := [{ depth := 2, lane := false, ovdepth := 0, ovaddr := 0, entries := [], ovIn := 0, ovOut := 0, pending := none }]
      stages := [{ regs := 192, entry := 0x4000, min := 0, max := 1, lease := 8, bind := [0], slots := 1 }
                , { regs := 192, entry := 0x5000, min := 0, max := 2, lease := 8, bind := [0], slots := 0 }] })] }
/-- A deterministic region whose only member is rake 0, and whose coach has an ended bundle. -/
def taking (members joiners : List (Nat × Nat × Nat)) (ended : List Bundle) : State :=
  { st { Boot.coach with ended := ended } with regions := [(0, { Boot.region with det := true, members := members, joiners := joiners })] }

theorem witness_Placement_stages :
    rebalCore twoStages 0 = some 0 ∧ (tget twoStages.regions 0).isSome
    ∧ ((tget twoStages.rakes 0).map (fun k => (k.unslotted, k.cluster, atPopPoint twoStages k))) = some (false, some 0, true)
    ∧ ((tget twoStages.regions 0).bind (fun r => moveTarget twoStages 0 r 0)) = some (1, none) := by decide +kernel

theorem witness_Placement_turns :
    (let s := taking [] [(0, 0, 1)] []
     (match tget s.regions 0 with
      | some r => r.det && !r.completed && r.turnBusy.isNone && (r.members[r.position.1]?).isNone && !(r.members ++ r.joiners).isEmpty
      | none => false) = true)
    ∧ (let s := taking [(0, 0, 1)] [] [{ num := 0, entries := [], served := false }]
       (match tget s.rakes (rakeKey 0 0) with
        | some rk => rk.created && !rk.coaches.isEmpty && rk.cluster.isSome && rk.halt.isNone && nextIdx s rk 0 == some 0 && coachAt s rk 0 == some 0
        | none => false) = true
       ∧ isResident s 0 = true
       ∧ (match visitCoach 0 1 2 s with
          | .wait _ => true
          | .next _ => false) = true)
    ∧ (let s := taking [(0, 0, 1)] [] [{ num := 5, entries := [], served := false }]
       (match visitCoach 0 1 2 s with
          | .next _ => true
          | .wait _ => false) = true) := by decide +kernel

/-! ### The memory system and the monitors (09, 11, 12, 15) -/

/-- An L1 unit with one line. -/
def l1With (dirty : Mask) : State :=
  { base with l1 := [(0, [{ line := 0x1000, ctxs := [0], bytes := List.replicate 64 1, dirty := dirty, since := 0, strm := false }])] }
/-- A counter at its threshold, and a ring of 64 notifications at 0x9000. -/
def counted (n : Nat) : State :=
  { base with ctrs := [(3, { extent := 1, count := n })], pf := { base.pf with ctrRing := 0x9006, ctrThr := 4 } }

/-- 15 R504: the notification lies in the ring. -/
theorem test_notify : (match exec (.accessCounterNotify 0 3) (counted 16) with
    | .next t => memRead t.mem 0x9000 16 | _ => []) = leBytes 8 0x200000 ++ leBytes 4 16 ++ leBytes 4 0 := by decide +kernel
/-- 15 R502: the clock moves by 50 MHz, and not above 1,900. -/
theorem test_clock : (match exec (.thermalThrottle 1) base with
    | .next t => (clockOf t 1, clockOf t 0) | _ => (0, 0)) = (1850, 1900) := by decide

/-- Register line `r` of a coach is in its image alone, with format byte `fm`: whether the fill reads it back. -/
def lineBack (r : Nat) (fm : Byte) : Option Bool :=
  let s := { st { Boot.coach with out := [r] } with ctxs := [(0, imageCtx)] }
  let s := { s with mem := memWrite s.mem (imageAddr s (coachOf s 0) + 0x6000 + r) [fm] }
  match areaPieces s (dieUnits 0) 0 (imageAddr s (coachOf s 0) + lineOffsetOf (coachOf s 0) r) 256 .read with
  | (some ps, s1) => match ownReadV s1 (dieUnits 0) 0 (imageAddr s1 (coachOf s1 0) + 0x6000 + r) 1 with
    | (.ok f, s2) =>
      let s3 := cacheLine s2 0 0 r false
      if (poisonOwn s3 ps).isNone then some (lineOf (coachOf s3 0) r (leNat f) (readOwn s3 ps)).isSome else none
    | _ => none
  | _ => none

theorem witness_MemoryEvents :
    (l1Find (l1With 3) 0 0x1000).isSome ∧ ((l1Find (l1With 3) 0 0x1000).map CLine.dirty) = some 3
    ∧ ((l1Find (l1With 0) 0 0x1000).map CLine.dirty) = some 0
    ∧ (let s := { base with ctxs := [(0, imageCtx)] }
       partKey (coachOf s 0) = some 0 ∧ 4 ≤ (coachOf s 0).nregs ∧ lineEntry s 0 0 4 = none ∧ (coachOf s 0).out.contains 4 = false)
    ∧ lineBack 4 0 = some true ∧ lineBack 4 9 = some false
    ∧ ctrRoom (counted 16) = some 6 ∧ (tget (counted 16).ctrs 3).isSome ∧ 2 ^ (counted 16).pf.ctrThr ≤ 16 ∧ 15 < 2 ^ (counted 15).pf.ctrThr
    ∧ homeDie (0x1000 * 64) = 0 ∧ isDram (0x1000 * 64) = true := by decide +kernel

end Sys2Proof.Tests
end

