-- ==== Sys2Proof/Tests/System.lean ====
section
/-! SUPPORT. States that meet the hypotheses of the claims about traps, faults, system operations and guest code, and a few
results. -/
namespace Sys2Proof.Tests
open Sys2Proof Sys2Proof.Machine

/-! ### Traps (11 R402-R411, 05 R207, R208) -/

/-- A context with a handler at 0x6000 and frames at 0x100000. -/
def trapCtx : Ctx := { Boot.ctx with trapent := 0x6000, framebase := 0x100000 }
/-- The coach of such a context. -/
def withHandler (co : Coach) : State := { st co with ctxs := [(0, trapCtx)] }
/-- A FADD overflow as a trap. -/
def fpe : Trap := { cls := 8, sub := 1, step := 0, tmask := 1, rmask := none, move := 0, moveTo := 0, moveCounts := false
                    opword := 0x40, opaddr := 0x4000, area := [] }
/-- Lane 0 in its handler; at the entry it stood at 0x4000. -/
def handling : Coach :=
  { Boot.coach with inHandler := true, rmask := 1, entryLanes := Boot.coach.lanes, s := [(28, 8)]
                    lanes := { Lane.absent with state := .running, ga := 0x6000 } :: List.replicate 63 { Lane.absent with state := .exited } }
/-- A frame of zeros. -/
def zeroFrame : List Byte := List.replicate 1152 0

/-- R405, R410: the entry writes class and subtype into s28 and the frame's address into s30, and lane 0 is at the handler. -/
theorem test_trap_entry :
    (let co := coachOf (raiseTrap (withHandler Boot.coach) 0 fpe) 0
     co.inHandler && sget co 28 == 0x108 && sget co 30 == 0x100000 && (laneOf co 0).ga == 0x6000) = true := by decide +kernel
/-- 05 R207: TRAP is class 3, taken with the frame at FRAMEBASE. -/
theorem test_trap : (match exec (.trap (wl 0 77)) (withHandler Boot.coach) with
    | .next t => some (sget (coachOf t 0) 28, sget (coachOf t 0) 30) | _ => none) = some (3, 0x100000) := by decide +kernel

theorem witness_TakingTraps_entry :
    let s := withHandler Boot.coach
    tget s.coaches 0 = some Boot.coach ∧ Boot.coach.rbuf = [] ∧ commitWaits Boot.coach = false ∧ ctxOf s Boot.coach = some trapCtx
    ∧ fatalFlags trapCtx Boot.coach 8 = none
    ∧ (let co0 := { Boot.coach with trap := some fpe, pair := none, resume := none }
       match writeFrame (setCoach s 0 co0) 0 (frameAddr trapCtx Boot.coach) (frameBytes (movePcs co0 fpe) fpe (activeSet Boot.coach) 2 0) with
       | (.ok (), s1) => (tget s1.coaches 0).isSome
       | _ => false) = true
    ∧ fatalFlags Boot.ctx Boot.coach 8 = some 4 ∧ ctxOf base Boot.coach = some Boot.ctx ∧ fatalFlags trapCtx handling 8 = some 1 := by decide +kernel

theorem witness_TakingTraps_return :
    (let s := withHandler handling
     let w := wr 0 0 0 0 0 0 0
     clear s (.tret w) = true ∧ (me s).inHandler = true ∧ (me s).rbuf = [] ∧ ctxOf s (me s) = some trapCtx
     ∧ (match readFrame s 0 (frameAddr trapCtx (me s)) with
        | (.ok _, _) => true
        | _ => false) = true
     ∧ tget s.coaches 0 = some handling ∧ handling.heldStalls = [] ∧ frameRetry handling zeroFrame = none)
    ∧ clear base (.tret (wr 0 0 0 0 0 0 0)) = true ∧ (me base).inHandler = false
    ∧ allClear base [.trap (wl 0 77), .trap (wr 0 1 0 0 0 0 0)] = true := by decide +kernel

/-! ### Faults and their service (11 R413-R426, R505) -/

/-- The coach's rake halted with MEM by its coach 0. -/
def haltedRake : Rake := { Boot.rake [0] [] with halt := some (0, 12, 0, 0, 0x100000) }
/-- Coach 0 has stopped, or not. -/
def halting (co : Coach) (r : Rake) (debug : Bool) : State :=
  { st co with rakes := [(0, r)], ctxs := [(0, { trapCtx with dbgen := debug })] }
/-- An entry of cluster 0 for page 0x40000, its record written with sequence number 5. -/
def xlatEntry (seq : Option Word) : FaultEntry :=
  { ctx := 0, page := 0x40000, die := 0, cluster := 0, sub := 0, access := 1, level := 3, pte := 0, region := 0, version := 1
    waiters := 1, cores := [0], opened := 0, seq := seq }

theorem witness_FaultService_entry :
    (let s := withHandler { Boot.coach with trap := some fpe }
     (coachOf s 0).trap = some fpe ∧ isResident s 0 = true ∧ frameParked fpe = false)
    ∧ (let s := halting Boot.coach haltedRake true
       haltOf s (coachOf s 0) = some (12, 0) ∧ isResident s 0 = true ∧ (coachOf s 0).halted = none ∧ (coachOf s 0).trap = none)
    ∧ (let s := halting { Boot.coach with halted := some (12, 0) } haltedRake true
       tget s.rakes 0 = some haltedRake ∧ haltedRake.halt = some (0, 12, 0, 0, 0x100000) ∧ (tget s.regions haltedRake.region).isSome
       ∧ haltedRake.haltRecorded = false ∧ rakeStopped s haltedRake = true
       ∧ (writeFaultRecord s 0 0 (haltRecord s haltedRake (0, 12, 0, 0, 0x100000))).1 = true)
    ∧ (tget base.rakes 0).bind Rake.halt = none ∧ (tget base.rakes 0).isSome := by decide

theorem witness_FaultService_answers :
    (let s := { base with faults := [(0, xlatEntry none)] }
     tget s.faults 0 = some (xlatEntry none) ∧ (xlatEntry none).seq = none
     ∧ (writeFaultRecord (clockTo s (faultClock 0 0) 64) 0 0 (xlatRecord (xlatEntry none))).1 = true)
    ∧ (let s := { base with faults := [(0, xlatEntry (some 5))] }
       entryOf s 0 5 = some (0, xlatEntry (some 5)) ∧ entryOf s 0 6 = none)
    ∧ (let r := { haltedRake with haltRecorded := true }
       let s := halting { Boot.coach with halted := some (12, 0) } r true
       field (BitVec.ofNat 64 (2 ^ 56)).toNat 57 56 = 1 ∧ field (BitVec.ofNat 64 (2 ^ 57)).toNat 57 56 = 2
       ∧ rakeBusy s 0 = false ∧ rakeBusy { s with ctxs := [(0, { trapCtx with rakeBusy := true })] } 0 = true
       ∧ cmdRake s 0 (BitVec.ofNat 64 (2 ^ 56)) = some 0 ∧ cmdRake s 0 (BitVec.ofNat 64 (2 ^ 57)) = some 0 ∧ tget s.rakes 0 = some r) := by decide

/-! ### System operations (05 R209-R218) -/

/-- A zone of the coach. -/
def zone (k : Nat) : Zone := { handler := 0x7000, k := k, rstacks := Boot.coach.lanes.map (fun x => (x.held, x.sp)) }
/-- The same coach in a deterministic region. -/
def inDet (co : Coach) : State := { st co with regions := [(0, { Boot.region with det := true })] }

/-- 05 R216: SYSRD of FRAMEBASE. -/
theorem test_sysrd : (match exec (.sysrd (wr 4 0 0 0 0 0 0x12)) (withHandler Boot.coach) with
    | .next t => (coachOf t 0).rbuf.map (fun sl => (tget sl.vw 256, tget sl.vw 320)) | _ => []) = [(some 0x100000, some 0)] := by decide
/-- 05 R211: CZOPEN takes the handler of A, and number 1. -/
theorem test_czopen : (match exec (.czopen (wr 0 2 0 0 0 0 0)) (regs [0, 0x7000, 0] []) with
    | .next t => (coachOf t 0).zones.map (fun z => (z.handler, z.k)) | _ => []) = [(0x7000, 1)] := by decide

theorem witness_SystemOperations :
    allClear (regs [3, 0x100, 0, 0, 0, 0] []) [.leaseDecl (wi 0 0 5 0 0 0), .leaseDecl (wi 0 0 0 0 0 0), .leaseDecl (wi 0 0 128 0 0 0)
      , .leaseDecl (wi 0 0 129 0 0 0), .leaseDecl (wr 0 1 0 0 0 0 0), .leaseMeas (wr 0 0 0 0 0 0 1), .sysrd (wr 4 0 0 0 0 0 0)
      , .sysrd (wr 4 0 0 0 0 0 0x10), .sysrd (wr 4 0 0 0 0 0 0x22), .sysrd (wr 4 0 0 0 0 0 0x0FF), .syswr (wr 4 1 0 0 0 0 0)
      , .syswr (wr 4 1 0 0 0 0 0x0FF), .syswr (wr 4 1 0 0 0 0 0x20), .czopen (wr 0 2 0 0 0 0 0), .czclose (wr 0 0 0 0 0 0 0)
      , .spawn (wr 0 2 4 0 0 0 0), .dturn (wr 0 0 0 0 0 0 0)] = true
    ∧ sysAssigned 0 = true ∧ sysAssigned 0x22 = true ∧ sysAssigned 0xFF = false ∧ sysAssigned 0x20 = true
    ∧ noQ base [.sysrd (wr 4 0 0 0 0 0 0), .syswr (wr 4 1 0 0 0 0 0)] = true
    ∧ (sysValue base (me base) 0).isSome ∧ (sysValue base (me base) 0x22).isSome
    ∧ ctxOf base (me base) = some Boot.ctx ∧ (sysWrite Boot.ctx 0 0x000883C0).isSome ∧ (sysWrite Boot.ctx 0x12 1 = none)
    ∧ (me base).zones.length < 8 ∧ (me base).zones = [] ∧ isDet base (me base) = false
    ∧ Boot.ctx.dbgen = false := by decide

theorem witness_SystemOperations_zones :
    (let s := st { Boot.coach with zones := List.replicate 8 (zone 1), zoneCount := 8 }
     clear s (.czopen (wr 0 2 0 0 0 0 0)) = true ∧ 8 ≤ (me s).zones.length)
    ∧ (match (me (st { Boot.coach with zones := [zone 1] })).zones with
        | z :: _ => z == zone 1
        | [] => false) = true
    ∧ ((tget base.rakes 0).map Rake.unwound) = some [] := by decide

theorem witness_SystemOperations_turns :
    (let s := regs [0, 0x100, 0] []
     let w := wr 0 2 4 0 0 0 0
     let block := (aVal (me s) w true 0).toNat
     clear s (.spawn w) = true ∧ block < 2 ^ 57 ∧ block % 256 = 0 ∧ settled (releaseGlobal s (l1Unit s (coreOf (me s))) 0 4) 0 = true)
    ∧ (let s := halting Boot.coach (Boot.rake [0] []) true
       clear s (.dbgbrk (wr 0 0 0 0 0 0 0)) = true ∧ ((ctxOf s (me s)).map Ctx.dbgen) = some true)
    ∧ isDet (inDet Boot.coach) (me (inDet Boot.coach)) = true ∧ detRoom Boot.coach 0 true = true := by decide

/-! ### Guest code (08 R308-R324) -/

/-- A plate without planes: 32-bit guest instructions, all of them EMUL. -/
def bare : Plate :=
  { lanes := 64, lenrule := 0, lpos := 0, gunit := 4, epat := 0, tvbase := 0, tvcnt := 0, tsbase := 0, tscnt := 0, needmin := 0
    sysmin := 0, syspat := 0, patterns := [List.replicate 8 0], planes := [], templates := [], image := [] }
/-- The coach runs guest code of that plate. -/
def guest (ga : GAddr) : State :=
  { st { Boot.coach with plate := 1 } with ctxs := [(0, { Boot.ctx with plates := [(1, bare)] })], iss := { latch with ga := ga } }
/-- A system plate with one plane: operation 0xE0 is an IADD. -/
def sysBare : Plate :=
  { bare with lanes := 0, lenrule := 1, gunit := 8, planes := [{ mask := 0xFF00000000000000, value := 0xE000000000000000, tidx := 0, pidx := 0, lenc := 0 }]
              templates := [[(0x1000080204000000, 0x8000000000000000)]] }

theorem witness_GuestCode :
    (match decodeGuest base (me base) 0x4000 with
      | (.ok (.ops _ _ _), _) => true
      | _ => false) = true
    ∧ (match decodeGuest (guest 0x4000) (me (guest 0x4000)) 0x4000 with
      | (.ok (.emul _ _ _), _) => true
      | _ => false) = true
    ∧ (match decodeGuest base (me base) 0x4004 with
      | (.error _, _) => true
      | _ => false) = true
    ∧ systemPlane base 0xE000000000000000 = none
    ∧ systemPlane { base with sysplate := some sysBare } 0xE000000000000000 = some [0x1000080204000000] := by decide

end Sys2Proof.Tests
end

