-- ==== Sys2Proof/Tests/Completions.lean ====
section
/-! SUPPORT. States and operands that meet, each together, the hypotheses of the two claims about what completes, where no other
witness shows them. -/
namespace Sys2Proof.Tests
open Sys2Proof Sys2Proof.Machine

theorem witness_Completions_operations :
    noQueue (wr 4 1 0 0 8 0 0) = true
    ∧ allClear base [.frcp (wr 4 1 0 0 8 0 0), .frsq (wr 4 1 0 0 8 0 0), .fsqrt (wr 4 1 0 0 8 0 0), .fexp2 (wr 4 1 0 0 8 0 0),
        .flog2 (wr 4 1 0 0 8 0 0), .fsin (wr 4 1 0 0 8 0 0), .fcos (wr 4 1 0 0 8 0 0)] = true
    ∧ systemPlane { base with sysplate := some sysBare } 0xE000000000000000 = some [0x1000080204000000] := by decide

theorem witness_Completions_coach :
    (let co := { marking 0 noFlags with rbuf := [] }
     tget (st co).coaches 0 = some co ∧ marked co = some (stallAt .marker) ∧ co.trap = none)
    ∧ (let co := laneIs { Lane.absent with state := .sleeping, wait := .cycles 100 }
       isResident (st co) 0 = true ∧ wakeTimes co = [100])
    ∧ (stallAt (.push 0 (.word 9) 8192)).lanes ≠ BitVec.allOnes 64
    ∧ (let co := { Boot.coach with trap := some { fpe with wait := none } }
       co.trap = some { fpe with wait := none } ∧ isResident (st co) 0 = true)
    ∧ (let co := { Boot.coach with measured := true, mi := 1024 }
       co.measured = true ∧ 1024 ≤ co.mi)
    ∧ mayRestore savedCoach 0 = true := by decide

/-- A commit of a slot that pushes nothing, with no flag enabled. -/
theorem witness_Completions_commit :
    let co := marking 0 noFlags
    tget (st co).coaches 0 = some co ∧ marked co = some (stallAt .marker) ∧ allReturned co = true ∧ co.trap = none
    ∧ co.rbuf.all (fun sl => sl.push.isNone) = true
    ∧ enabledBits (co.rbuf.foldl commitSlot co).fmode (co.rbuf.foldl (fun a sl => orFlags a sl.flags) [0, 0, 0, 0, 0, 0]) = 0 := by decide

/-- A core with 64 coaches, of which one has an expired slice, and a rake that waits. -/
def crowdedOne : State :=
  { crowded with coaches := (List.range 64).map (fun i =>
      (i, { Boot.coach with fslot := i, place := some (0, i / 16, i % 16), sliceExpired := i == 5 })) }
theorem witness_Completions_places :
    64 ≤ coreCount crowdedOne 0
    ∧ (match crowdedOne.coaches.filter (fun x => match x.2.place with
          | some (c, _, _) => c == 0 && x.2.sliceExpired && !x.2.inHandler && x.2.trap.isNone
            && decide (prioOf crowdedOne x.2.region ≤ prioOf crowdedOne 0)
          | none => false) with
        | [e] => waitersFor crowdedOne 0 == [prioOf crowdedOne e.2.region]
        | _ => false) = true
    ∧ (let s := { st Boot.coach with rakes := [(0, { Boot.rake [0] [] with cluster := none })] }
       (tget s.rakes 0).map (fun k => k.created) = some true ∧ (tget s.regions 0).map (fun r => s.fusedClusters.contains 0 == r.fused) = some true
       ∧ (placeFor s 0).map (fun p => p.1) = some 0) := by decide +kernel

theorem witness_Completions_halt :
    (let s := halting { Boot.coach with halted := some (12, 0) } haltedRake true
     rakeStopped s haltedRake = true ∧ (writeFaultRecord s 0 0 (haltRecord s haltedRake (0, 12, 0, 0, 0x100000))).1 = true
     ∧ ((tget (modRake (writeFaultRecord s 0 0 (haltRecord s haltedRake (0, 12, 0, 0, 0x100000))).2 0
          (fun r => { r with haltRecorded := true })).ctxs 0).map Ctx.dbgen) = some true) := by decide +kernel

end Sys2Proof.Tests
end

