-- ==== Sys2Proof/Tests/Control.lean ====
section
/-! SUPPORT. Tests of steps, issue, queues and control flow, and states that meet the hypotheses of the claims about them. -/
namespace Sys2Proof.Tests
open Sys2Proof Sys2Proof.Machine

/-! ### Words, steps and the issue of an operation -/

theorem witness_NativeRoundTrip : (Instr.iadd (wr 0xFF 0xFF 0xFF 0xFF 15 7 1023)).wf = true
    ∧ nativeOf (.iadd (wr 0xFF 0xFF 0xFF 0xFF 15 7 1023)) = some (0x10, wr 0xFF 0xFF 0xFF 0xFF 15 7 1023)
    ∧ opOf 0xE000000000000000 = 0xE0 ∧ opOf 0xFE00000000000000 = 0xFE := by decide
theorem witness_DrayRoundTrip : (Instr.drayXfer 3 3 15 7 15 1 63).wf = true
    ∧ Sys2Proof.drayOf (.drayXfer 3 3 15 7 15 1 63) = some 0x64CFFFFF
    ∧ Sys2Proof.drayOf (.drayIllegal 0x90000000) = some 0x90000000 ∧ decodeDray 0x90000000 = .drayIllegal 0x90000000 := by decide

theorem drayWord_fields (opc : BitVec 6) (rd ra rb : BitVec 4) (imm : BitVec 14) :
    (Sys2Proof.drayWord opc rd ra rb imm).extractLsb' 26 6 = opc ∧ (Sys2Proof.drayWord opc rd ra rb imm).extractLsb' 0 14 = imm := by
  constructor
  · apply BitVec.eq_of_getLsbD_eq; intro i hi
    rw [BitVec.getLsbD_extractLsb', Sys2Proof.drayWord]
    simp only [BitVec.getLsbD_append]
    rw [if_neg (by omega), if_neg (by omega), if_neg (by omega), if_neg (by omega)]
    rw [show 26 + i - 14 - 4 - 4 - 4 = i from by omega]; simp [hi]
  · apply BitVec.eq_of_getLsbD_eq; intro i hi
    rw [BitVec.getLsbD_extractLsb', Sys2Proof.drayWord]
    simp only [BitVec.getLsbD_append]
    rw [if_pos (by omega)]
    simp [hi]
/-- An opcode above the last, and a HALT with a reserved bit: no instruction but the illegal one encodes to them. -/
theorem witness_DrayRoundTrip_illegal (w : BitVec 32) (hw : w = 0x90000000 ∨ w = 0x00000001) (i : Instr)
    (h : Sys2Proof.drayOf i = some w) : ∃ x, i = .drayIllegal x := by
  cases i <;> first | (exact ⟨_, rfl⟩) | (simp only [Sys2Proof.drayOf, reduceCtorEq] at h; done) | (
    exfalso
    have h := Option.some.inj h
    have h1 := congrArg (fun v => v.extractLsb' 26 6) h
    have h2 := congrArg (fun v => v.extractLsb' 0 14) h
    simp only [drayWord_fields] at h1 h2
    rcases hw with rfl | rfl <;> first | (revert h1; decide) | (revert h2; decide))

/-- The word 0x0A... is fetched; an IADD with a reserved OPX bit fails a check with a lane enabled. -/
theorem witness_RefusedEncodings :
    (match fetchOp (Boot.withNative State.reset 0x0A00000000000000) Boot.coach 0x4000 0 with
      | (.op w _ _, _) => opOf w == 0x0A
      | _ => false) = true
    ∧ 0x24 ≤ dOpc 0x90000000 ∧ nativeRow base (.iadd (wr 4 1 2 0 0 0 2)) ≠ none
    ∧ (match nativeRow base (.iadd (wr 4 1 2 0 0 0 2)) with
      | some (w, sp) => decodeCheck sp w (me base).nregs (qBound base (me base)) == some (3, 0xFF) && enOf base w != 0
      | none => false) = true := by decide

theorem witness_StepRunsInstruction :
    (let s := { State.reset with sched := [.ready] }
     stopped s = false ∧ s.upsets.contains .keys = false ∧ s.resets = [] ∧ s.sched = [.ready])
    ∧ (let s := Boot.withNative State.reset 0x1000080204000000
       stopped s = false ∧ s.resets = [] ∧ s.sched = [] ∧ nextWork s = .coach 0
       ∧ (issueCoach s 0).2 = some (.iadd (wr 4 1 2 0 0 0 0)) ∧ s.upsets.contains .keys = false
       ∧ (metError (issueCoach s 0).1 0 (.iadd (wr 4 1 2 0 0 0 0))).isNone
       ∧ (match fetchOp s (coachOf s 0) 0x4000 0 with
          | (.op w _ _, _) => decodeNative w == .instr (.iadd (wr 4 1 2 0 0 0 0))
          | _ => false) = true)
    ∧ (let s := Boot.withDray State.reset 0x31000005
       stopped s = false ∧ s.resets = [] ∧ s.sched = [] ∧ nextWork s = .dray 0
       ∧ s.upsets.contains .keys = false ∧ s.upsets.contains (.dray 0) = false
       ∧ (match Sys2Proof.Machine.drayWord (drayServed { s with turn := 2 } 0 false) 0 with
          | .ok w _ => w == 0x31000005
          | _ => false) = true
       ∧ (Sys2Proof.Machine.drayOf s 0).parked = none ∧ (Sys2Proof.Machine.drayOf s 0).drain = false) := by decide

theorem witness_StepStops : stopped { State.reset with pf := { PfRegs.reset with fatal := true } } = true ∧ stopped State.reset = false := by decide

theorem witness_PassingOver :
    (let w := { wr 4 1 2 0 0 0 0 with pm := 1 }
     (nativeRow base (.iadd w)).isSome ∧ enOf base w = 0 ∧ w.sw = false ∧ (me base).fpeHeld = []
     ∧ tget base.coaches base.iss.coach = some (me base))
    ∧ ((me base).lanes[0]?).isSome ∧ ((me base).lanes[63]?).isSome := by decide

/-! ### Queue registers -/

/-- q0 is bound to a WORD queue of two entries. -/
def queue (es : List Entry) : Queue :=
  { depth := 2, lane := false, ovdepth := 0, ovaddr := 0, entries := es, ovIn := 0, ovOut := 0, pending := none }
def withQueue (es : List Entry) : State :=
  { base with regions := [(0, { Boot.region with
      queues := [queue es]
      stages := [{ regs := 192, entry := 0x4000, min := 1, max := 1, lease := 8, bind := [0], slots := 1 }] })] }

theorem witness_QueueRegisters_push :
    let s := withQueue [.word 7]
    let w := wr (qc 0) 1 0 0 0 0 0
    clear s (.mov w) = true ∧ fKind w = 0 ∧ fTy w = 0 ∧ codeOf (fD w) = .q 0 ∧ isDet s (me s) = false
    ∧ shadowPush s (me s) (fD w) (enOf s w) = false ∧ lowLane (enOf s w) = some 0 ∧ qIsLane s (me s) 0 = false
    ∧ (match pushReg s 0 0 (.word (regWord (me s) (fA w) 0 0)) with
        | .done s1 => (coachOf s1 0).fpeHeld.isEmpty
        | _ => false) = true := by decide

theorem witness_QueueRegisters_pop :
    let s := withQueue [.word 7, .word 8]
    let w := wr 4 (qc 0) 0 0 0 0 0
    (match nativeRow s (.mov w) with
      | some (_, sp) => decodeCheck sp w (me s).nregs (qBound s (me s)) == none && decide (slotsUsed (me s) + costOf sp w ≤ 16)
      | none => false) = true
    ∧ tget s.coaches 0 = some (me s) ∧ enOf s w ≠ 0 ∧ w.sw = false ∧ fKind w = 0 ∧ fTy w = 0 ∧ codeOf (fA w) = .q 0
    ∧ noQueue w = true ∧ isDet s (me s) = false ∧ popState s (me s) s.iss 0 = .ready
    ∧ (match takePop s 0 s.iss 0 with
        | some (e, s1) => e == .word 7 && (coachOf s1 0).fpeHeld.isEmpty
        | none => false) = true := by decide

/-- The operation of the word that pops q0 meets every condition of a pop. -/
def popsFirst (s : State) (i : Instr) : Bool :=
  match nativeRow s i, takePop s 0 s.iss 0 with
  | some (w, sp), some (_, s1) =>
    tget s.coaches 0 == some (me s) && decodeCheck sp w (me s).nregs (qBound s (me s)) == none && sp.own == none && enOf s w != 0
      && !w.sw && !isDet s (me s) && decide (slotsUsed (me s) + costOf sp w ≤ 16) && sourceQueues sp w == [0]
      && popState s (me s) s.iss 0 == .ready && settled s1 0
  | _, _ => false
/-- The operation whose D is q0 pushes `e`. -/
def pushesFirst (s : State) (i : Instr) (e : Entry) : Bool :=
  clear s i && (match nativeRow s i, pushReg s 0 0 e with
    | some (w, _), .done s1 => decide (codeOf (fD w) = .q 0) && !isDet s (me s) && !shadowPush s (me s) (fD w) (enOf s w)
        && lowLane (enOf s w) == some 0 && !qIsLane s (me s) 0 && settled s1 0
    | _, _ => false)
def plainOps (w : NOp) : List Instr := [.iadd w, .isub w, .imul w, .and w, .or w, .xor w, .andn w, .shl w, .shr w]
theorem witness_QueueRegisters_plain :
    let s := withQueue [.word 7]
    (plainOps (wr 4 (qc 0) 2 0 1 0 0)).all (popsFirst s) = true ∧ (plainOps (wr 4 1 (qc 0) 0 0 0 0)).all (popsFirst s) = true
    ∧ (plainOps (wr (qc 0) 1 2 0 1 0 0)).all (fun i => pushesFirst s i (.word 0)) = true
    ∧ fKind (wr 4 (qc 0) 2 0 1 0 0) = 0 ∧ fTy (wr 4 (qc 0) 2 0 1 0 0) ≤ 1 ∧ fOpx (wr 4 (qc 0) 2 0 1 0 0) = 0
    ∧ noQueue (wr 4 (qc 0) 2 0 1 0 0) = true := by decide
theorem witness_QueueRegisters_float :
    let s := withQueue [.word 7]
    let w := wr (qc 0) 1 2 0 8 0 0
    [Instr.fadd w, .fsub w, .fmul w].all (fun i => pushesFirst s i (.word 0)) = true
    ∧ enabledBits (me s).fmode (laneFlags 1 (fun _ => 0)) = 0
    ∧ (let w := wr (qc 0) 1 0 0 8 0 0
       allClear s [.frcp w, .frsq w, .fsqrt w, .fexp2 w, .flog2 w, .fsin w, .fcos w] = true ∧ codeOf (fD w) = .q 0
       ∧ shadowPush s (coachOf s 0) (fD w) (enOf s w) = false ∧ settled s 0 = true) := by decide
theorem witness_QueueRegisters_loads :
    let s := { withQueue [.word 7] with coaches := [(0, { Boot.coach with v := [(128, 0x8000)] })] }
    let w := wr (qc 0) 1 0xF0 0 1 0 0
    let g := wr (qc 0) 2 0xF0 0 1 0 0
    clear s (.lds w) = true ∧ (tget s.rakes (me s).rake).isSome ∧ tyWide (mTy w) = false ∧ fits (localOf s w) 256 4 = true
    ∧ settled (orderCoach s 0 (mOrd w) (mAgt w) (mStg w)) 0 = true ∧ mOrd w = 0
    ∧ clear s (.ld g) = true ∧ (globalOf s g).all (fun a => !inWindow s (me s) a.2) = true ∧ inReach (globalOf s g) 4 = true
    ∧ (match findLanes s 0 .read (globalOf s g) Found.none with
        | (x, s1) => x.err.isNone && x.bad.isEmpty && !x.ok.isEmpty
          && (match readPieces (orderCoach s1 0 (mOrd g) (mAgt g) (mStg g)) 0 4 (mCh g == 2) (mCh g == 1) x.ok [] with
            | (.ok _, s2) => settled s2 0 && !shadowPush s2 (coachOf s2 0) (fD g) (enOf s g)
            | _ => false)) = true := by decide +kernel
/-- 04 R151: a write of FMODE and of FSTAT whose value is popped. -/
theorem witness_SpecialRegisters_popped :
    popsFirst (withQueue [.word 0x7E4]) (.sprWr (wr 0 (qc 0) 0 0 0 0 0x113)) = true ∧ sprNum (wr 0 (qc 0) 0 0 0 0 0x113) = 0x13
    ∧ (0x7E4 &&& 0x7EF = 0x7E4 ∧ 0x7E4 % 8 ≤ 4) ∧ lowLane (enOf (withQueue []) (wr 0 (qc 0) 0 0 0 0 0x113)) = some 0
    ∧ popsFirst (withQueue [.word 0x3F]) (.sprWr (wr 0 (qc 0) 0 0 0 0 0x114)) = true ∧ sprNum (wr 0 (qc 0) 0 0 0 0 0x114) = 0x14
    ∧ 0x3F &&& 0x3F = 0x3F := by decide

theorem witness_QueueRegisters_room : (queue [.word 7]).ovIn = (queue [.word 7]).ovOut
    ∧ (queue [.word 7]).entries.length < (queue [.word 7]).depth
    ∧ (queue [.word 7, .word 8]).depth ≤ (queue [.word 7, .word 8]).entries.length ∧ (queue []).ovdepth = 0
    ∧ (withQueue [.word 7]).regions.length = 1 := by decide

/-! ### Control flow (05 R153-R166) -/

/-- R154: BRA to the next operation but one, the offset counted in 8 bytes from the next. -/
theorem test_bra : (match exec (.bra (wl 0 1)) base with
    | .next t => ((coachOf t 0).lanes.head?).map (fun x => (x.ga, x.step, x.icnt)) | _ => none) = some (0x4010, 0, 1) := by decide
/-- R156: CALL pushes the address after it; RET goes there. -/
theorem test_call : (match exec (.call (wl 0 4)) base with
    | .next t => ((coachOf t 0).lanes.head?).map (fun x => (x.ga, x.held)) | _ => none) = some (0x4028, [0x4008]) := by decide
/-- R162: EXIT of the only lane ends the coach's lanes. -/
theorem test_exit : (match exec (.exit (wr 0 0 0 0 0 0 0)) base with
    | .next t => (tget t.coaches 0).map (fun co => (co.lanes.head?).map Lane.state) | _ => none) ≠ some (some .running) := by decide

/-- A lane that has entries on its return stack. -/
def stacked (held : List GAddr) (sp : Nat) : State :=
  st { Boot.coach with lanes := { Lane.absent with state := .running, ga := 0x4000, held := held, sp := sp }
                                 :: List.replicate 63 { Lane.absent with state := .exited } }

theorem witness_Branches :
    allClear base [.nop (wr 0 0 0 0 0 0 0), .bra (wl 0 0xFFFFFFFF), .brx (wr 0 2 0 0 0 0 0), .call (wl 0 1), .callx (wr 0 2 0 0 0 0 0)] = true
    ∧ maskOf (fun l => (enOf base (wr 0 2 0 0 0 0 0)).getLsbD l && decide (2 ^ 57 ≤ (aVal (me base) (wr 0 2 0 0 0 0 0) true l).toNat)) = 0
    ∧ (let s := regs [0, 0, 0x02000000] []
       let w := wr 0 2 0 0 0 0 0
       clear s (.brx w) = true ∧ (nativeRow s (.brx w)).isSome
       ∧ maskOf (fun l => (enOf s w).getLsbD l && decide (2 ^ 57 ≤ (aVal (me s) w true l).toNat)) ≠ 0)
    ∧ (let w := wr 0 2 0 0 0 0 0
       enOf base w &&& ~~~base.iss.group = 0 ∧ ((me base).lanes[0]?).isSome ∧ base.iss.count ≤ base.iss.step + 1
       ∧ (lanesOf (enOf base w)).all (fun l => decide ((laneOf (me base) l).held.length < 8)) = true
       ∧ (lanesOf (enOf base w)).all (fun l => decide ((aVal (me base) w true l).toNat < 2 ^ 57)) = true) := by decide

theorem witness_Branches_stack :
    let w := wr 0 0 0 0 0 0 0
    (let s := stacked [0x4100] 0
     clear s (.ret w) = true ∧ (lanesOf (enOf s w)).all (fun l => !(laneOf (me s) l).held.isEmpty) = true)
    ∧ (let s := stacked [] (privSize base (me base))
       clear s (.ret w) = true ∧ maskOf (fun l => (enOf s w).getLsbD l && (laneOf (me s) l).held.isEmpty
         && (laneOf (me s) l).sp == privSize s (me s)) ≠ 0)
    ∧ (let s := stacked (List.replicate 8 0x4100) 7
       clear s (.call (wl 0 1)) = true ∧ maskOf (fun l => (enOf s (wl 0 1)).getLsbD l
         && decide ((laneOf (me s) l).held.length = 8 ∧ (laneOf (me s) l).sp < 8)) ≠ 0) := by decide

/-- Lane 1 runs elsewhere, and m1 names it. -/
def twoLanes : State :=
  st { Boot.coach with m := [(1, 2)], lanes := { Lane.absent with state := .running, ga := 0x4000 } :: { Lane.absent with state := .running, ga := 0x5000 }
                                 :: List.replicate 62 { Lane.absent with state := .exited } }

theorem witness_Waiting : isDet twoLanes (me twoLanes) = false
    ∧ allClear twoLanes [.join (wr 0 0 0 0 0 0 2), .join (wr 0 0 0 0 0 0 1), .sleep (wl 0 0), .sleep (wl 0 0xFFFFFFFF), .sleepBar (wr 0 2 0 0 0 0 0)
      , .sleepBar (wr 0 2 1 0 0 0 0x3F), .exit (wr 0 0 0 0 0 0 0), .yield (wr 0 0 0 0 0 0 0)] = true
    ∧ mget (me twoLanes) 2 = 0 ∧ mget (me twoLanes) 1 ≠ 0 ∧ (me twoLanes).place = some (0, 0, 0)
    ∧ lowLane (enOf twoLanes (wr 0 2 0 0 0 0 0)) = some 0
    ∧ (let s := twoLanes
       let w := wr 0 0 0 0 0 0 1
       joinDeadlock (evalJoins (modLanes (passLanes (me s) s.iss (s.iss.group &&& ~~~(enOf s w))) (enOf s w) (fun _ y => { y.count with
         state := .joining, wait := .join (fX w % 16), word := s.iss.word, nga := s.iss.next.1, nstep := s.iss.next.2 }))
         (fun p => p.1 == s.iss.ga && p.2.1 == s.iss.step)) = false) := by decide

end Sys2Proof.Tests
end

