-- ==== Sys2Proof/Tests/Engines.lean ====
section
/-! SUPPORT. Tests of described lines, cache control, synchronization, transfers, ports and the matrix engine, and states that
meet the hypotheses of the claims about them. -/
namespace Sys2Proof.Tests
open Sys2Proof Sys2Proof.Machine

/-! ### Described lines and cache control -/

/-- A line at s0:s1, its plane at s2:s3, its base at s4:s5. -/
def lined : State := regs [] [0x8000, 0, 0x9000, 0, 0x8000, 0]

theorem witness_DescribedLines_load :
    let w := wr 4 (sc 0) (sc 2) (sc 4) 8 0 0
    let r := findLanes lined 0 .read [(0, 0x8000), (1, 0x9000)] Found.none
    isDet lined (me lined) = false ∧ noQueue w = true ∧ clear lined (.ldd w) = true
    ∧ (aVal (me lined) w true 0).toNat = 0x8000 ∧ (bVal (me lined) w true 0 0).toNat = 0x9000 ∧ (cVal (me lined) w true 0).toNat = 0x8000
    ∧ r.1.err = none ∧ r.1.bad = []
    ∧ (match r.1.ok with
        | [p, q] =>
          (match readPieces r.2 0 2 false false [q] [] with
            | (.ok t, s2) =>
              let d := leNat (tgetD [] t q.lane)
              let fmts := (List.range 16).map (fmtReg r.2 (coachOf r.2 0).ctx)
              (match (if lineReadsData fmts (lNf4 w) d then readPieces s2 0 64 false false [p] [] else (.ok [], s2)) with
                | (.ok _, s3) => settled s3 0
                | _ => false)
            | _ => false)
        | _ => false) = true := by decide
theorem witness_DescribedLines_store :
    let w := wr 4 (sc 0) (sc 2) (sc 4) 8 0 0
    let co := me lined
    let form := nfOf (fmtReg lined co.ctx (field (fX w) 8 5))
    let o := stdLine (opCtx lined w (lineSpec w co.width true)) co form
    let r := findLanes lined 0 .write [(0, 0x8000), (1, 0x9000)] Found.none
    clear lined (.std w) = true ∧ (form.cont == 1) = lNf4 w ∧ shadowBad co co.all = 0 ∧ r.1.err = none ∧ r.1.bad = [] ∧ isDet r.2 co = false
    ∧ (match r.1.ok with
        | [p, q] =>
          let s2 := writePieces r.2 0 false false [(p, o.1), (q, leBytes 2 o.2.1)]
          settled s2 0 && enabledBits (coachOf s2 0).fmode o.2.2 == 0
        | _ => false) = true := by decide

/-- What the clause on SCALE asks of the values of STD: one enabled element, which is `x`. -/
def scaleCase (x : Word) (auto : BitVec 1) : List Machine.Num × Bool :=
  let s := regs [0, 0, 0, x] []
  let w := wr 4 (sc 0) (sc 2) (sc 4) 8 0 (16 * auto.toNat)
  (((List.range (if lNf4 w then 128 else 64)).filter (fun i => (enOf s w).getLsbD (i % (me s).width))).map (fun i =>
    (tyFmt (fTy w)).value (fBits (fTy w) ((regWord (me s) (fD w) (i / (me s).width) (i % (me s).width)).setWidth 64))), (fX w).testBit 4)
/-- NaN; 1.0 without AUTO; zero; 1.0 with AUTO, and the least e of its format. -/
theorem witness_DescribedLines_scale :
    (scaleCase 0x7FC00000 0).1 ≠ [] ∧ (scaleCase 0x7FC00000 0).1.all Machine.Num.isNan = true
    ∧ (scaleCase 0x3F800000 0).1.all Machine.Num.isNan = false ∧ (scaleCase 0x3F800000 0).2 = false ∧ (scaleCase 0x3F800000 1).2 = true
    ∧ (scaleCase 0 1).1.all (fun v => match v with
        | .fin _ m _ => m == 0
        | _ => true) = true ∧ (scaleCase 0 1).1.all Machine.Num.isNan = false
    ∧ codeOf (fD (wr 4 (sc 0) (sc 2) (sc 4) 8 0 16)) = .v 4
    ∧ (let w := wr 4 (sc 0) (sc 2) (sc 4) 8 0 16
       let nf := nfOf (fmtReg lined 0 (field (fX w) 8 5))
       match maxMagnitude (scaleCase 0x3F800000 1).1 with
       | some x => (List.range 64).any (fun k => !numLt (scaleNum (nfValue nf nf.maxCode) ((k : Int) - 40)) x
           && numLt (scaleNum (nfValue nf nf.maxCode) ((k : Int) - 41)) x)
       | none => false) = true := by decide +kernel

/-- FENCE, the four forms of CCTL, PREF, and the code operations on 0, 4,096 and more than 65,536 bytes at s0:s1. -/
theorem witness_CacheControl :
    let code := fun (n : Nat) => [Instr.ipref (wi 0 (sc 0) (BitVec.ofNat 24 n) 0 0 0), .ipin (wi 0 (sc 0) (BitVec.ofNat 24 n) 0 0 0),
      .iunpin (wi 0 (sc 0) (BitVec.ofNat 24 n) 0 0 0)]
    allClear lined ([.fence (wr 0 0 0 0 0 4 0x2C0), .cctl (wr 0 (sc 0) 0 0 0 0 0), .cctl (wr 0 (sc 0) 0 0 0 0 1), .cctl (wr 0 0 0 0 0 0 2),
      .cctl (wr 0 (sc 0) 0 0 0 0 3), .pref (wi 0 (sc 0) 0x40 1 0 0)] ++ code 0 ++ code 65536 ++ code 65537) = true
    ∧ mOpm (wr 0 0 0 0 0 0 2) = 2 ∧ mOpm (wr 0 (sc 0) 0 0 0 0 3) = 3 ∧ mOpm (wr 0 (sc 0) 0 0 0 0 1) = 1 ∧ settled lined 0 = true
    ∧ fImm (wi 0 (sc 0) 65537 0 0 0) = 65537 ∧ fI (wi 0 (sc 0) 0 0 0 0) = true := by decide

/-! ### Barriers, timelines, transfers and ports (05 R187-R206) -/

def rakeWith (b : Barrier) (s : State) : State := { s with rakes := [(0, { Boot.rake [0] [] with barriers := [(3, b)] })] }
def armed : Barrier := { armed := true, inv := false, exp := 2, cnt := 0, ph := 5 }

/-- R189: BARI arms with EXP 2 and clears the rest. R190: the last of two arrivals gives phase 6 and moves the barrier there. -/
theorem test_bari : (match exec (.bari (wi 0 0 2 0 0 3)) base with
    | .next t => some (barrierOf t 0 3) | _ => none) = some { armed := true, inv := false, exp := 2, cnt := 0, ph := 0 } := by decide
theorem test_bara : (match exec (.bara (wi 4 0 2 0 0 3)) (rakeWith armed base) with
    | .next t => [(barrierOf t 0 3).ph.toNat, (barrierOf t 0 3).cnt.toNat, (vget (coachOf t 0) 4 0).toNat] | _ => []) = [6, 0, 6] := by decide +kernel
/-- R190, 11 R402: an arrival at a barrier that is not armed is BARMIS, class 10. -/
theorem test_barmis : haltOfRake (.bara (wi 4 0 1 0 0 3)) base = some (10, 0) := by decide

theorem witness_CountedBarriers :
    let s := rakeWith armed base
    let t := (arrive (releaseGlobal s 0 0 2) 0 3 1).2
    allClear s [.bari (wi 0 0 1 0 0 3), .bari (wi 0 0 0xFFFFFF 0 0 3), .bari (wr 0 1 0 0 0 0 3), .bara (wi 4 0 1 0 0 3), .barw (wi 0 0 5 0 0 3),
      .barw (wi 0 0 6 0 0 3), .bars (wr 4 0 0 0 0 0 0x33), .barx (wr 0 0 0 0 0 0 3)] = true
    ∧ barrierWaited s 0 3 = false ∧ noQueue (wi 4 0 1 0 0 3) = true ∧ isDet s (me s) = false ∧ barrierOf s 0 3 = armed
    ∧ isDet t (coachOf t 0) = false ∧ settled t 0 = true ∧ settled s 0 = true
    ∧ (armed.ph - BitVec.ofNat 24 5).toNat < 2 ^ 23 ∧ 2 ^ 23 ≤ (armed.ph - BitVec.ofNat 24 6).toNat
    ∧ barNum (wi 0 0 1 0 0 3) = 3 ∧ (barrierOf s 0 3).cnt.toNat + 1 < (barrierOf s 0 3).exp.toNat ∧ (tget s.rakes 0).isSome := by decide
/-- R190: an arrival of 4 at EXP 2 and CNT 0 completes two phases. -/
theorem witness_CountedBarriers_phases :
    (let x := barrierOf (rakeWith armed base) 0 3
     0 < x.exp.toNat ∧ x.exp.toNat ≤ x.cnt.toNat + 4 ∧ 4 < 2 ^ 24)
    ∧ (arrive (rakeWith armed base) 0 3 4).1 = 7 ∧ (barrierOf (arrive (rakeWith armed base) 0 3 4).2 0 3).ph = 7
    ∧ (barrierOf (arrive (rakeWith armed base) 0 3 4).2 0 3).cnt = 0 := by decide +kernel
/-- A barrier that is not armed; and an operand of 0 or of 2^24 in a register. -/
theorem witness_CountedBarriers_misuse :
    allClear base [.bara (wi 4 0 1 0 0 3), .barw (wi 0 0 1 0 0 3), .bari (wr 0 1 0 0 0 0 3)] = true ∧ (barrierOf base 0 3).armed = false
    ∧ (aVal (me base) (wr 0 1 0 0 0 0 3) false 0).toNat = 0
    ∧ (let s := rakeWith armed (regs [0x1000000] [])
       allClear s [.bari (wr 0 1 0 0 0 0 3), .bara (wr 4 1 0 0 0 0 3)] = true ∧ 2 ^ 24 ≤ (aVal (me s) (wr 0 1 0 0 0 0 3) false 0).toNat) := by decide

/-- Tag 1 is granted; dray context 0 of this context stands at 2^32, and s4 holds its handle. -/
def tagged (d : Dray) (b : TreeBar) : State :=
  { regs [] [0, 0, 0, 1, (drayHandle 0 1), 0, 5, 0, 0, 2] with
    ctxs := [(0, { Boot.ctx with tags := 2 })], drays := [(0, d)], treebars := [(1, b)] }
def noTree : TreeBar := { epoch := 4, n := 0, count := 0, closed := [] }

theorem witness_TreesAndTimelines :
    let s := tagged Boot.dray noTree
    let w := wr 0 (sc 4) (sc 2) 0 0 0 0x280
    let v := wr 0 (sc 4) (sc 8) 0 0 0 0x280
    isDet s (me s) = false ∧ allClear s [.tbar (wi 0 0 1 0 0 1), .tbar (wi 0 0 1 0 0 0), .tbar (wi 0 0 0 0 0 1), .tlwait w, .tlwait v, .tlrd (wr 4 (sc 4) 0 0 0 0 0)
      , .tlrd (wr 4 (sc 4) 0 0 0 0 1), .tlwait (wr 0 (sc 0) (sc 2) 0 0 0 0x280), .tlrd (wr 4 (sc 0) 0 0 0 0 0)] = true
    ∧ checkHandle s 0 (loOf (aVal (me s) w false 0)) = some 0 ∧ timelineMet s 0 (loOf (aVal (me s) w false 0)) (bVal (me s) w true 0 0) = true
    ∧ timelineMet s 0 (loOf (aVal (me s) v false 0)) (bVal (me s) v true 0 0) = false
    ∧ (Sys2Proof.Machine.drayOf (acquireGlobal s 0 0 5) 0).state ≠ 5 ∧ noQueue (wr 4 (sc 4) 0 0 0 0 0) = true
    ∧ checkHandle s 0 (loOf (aVal (me s) (wr 0 (sc 0) (sc 2) 0 0 0 0x280) false 0)) = none
    ∧ settled (releaseGlobal s 0 0 4) 0 = true := by decide
/-- A faulted context; and a tree barrier whose open epoch counts to 2. -/
theorem witness_TreesAndTimelines_faulted :
    let s := tagged { Boot.dray with state := 5 } { noTree with n := 2, count := 1 }
    let w := wr 0 (sc 4) (sc 2) 0 0 0 0x280
    allClear s [.tlwait w, .tbar (wi 0 0 2 0 0 1), .tbar (wi 0 0 3 0 0 1)] = true
    ∧ checkHandle s 0 (loOf (aVal (me s) w false 0)) = some 0 ∧ timelineMet s 0 (loOf (aVal (me s) w false 0)) (bVal (me s) w true 0 0) = true
    ∧ (Sys2Proof.Machine.drayOf (acquireGlobal s 0 0 5) 0).state = 5
    ∧ (loOf (aVal (me s) w false 0)).extractLsb' 0 8 = (Sys2Proof.Machine.drayOf (acquireGlobal s 0 0 5) 0).gen
    ∧ (tgetD TreeBar.none s.treebars 1).count = 1 ∧ (tgetD TreeBar.none s.treebars 1).n = 2 := by decide

/-- Batches: none open; one open; and sixteen sealed ones whose launch has not finished. -/
def batches (l : List LaunchRef) (n : Nat) (d : Dray) : State :=
  { st { Boot.coach with openBatch := l, sealed_ := (List.range n).map (fun i => { num := i + 1, launches := [(0, 1)] }), batchCount := n } with
    rakes := [(0, Boot.rake [0] [(1, { Boot.launch with finished := d.done })])], drays := [(0, d)] }

theorem witness_TransfersAndPorts :
    (let s := batches [] 0 Boot.dray
     allClear s [.cpy (wr 4 (sc 8) (sc 2) 0 0 0 0), .cpseal (wr 4 0 0 0 0 0 0), .cpwait (wi 0 0 0 0 0 0), .qctlOpen (wr 0 1 0 0 0 0 0)] = true
     ∧ unfinished s (me s) < 15 ∧ (me s).openBatch = [] ∧ settled (setCoach s 0 (sealBatch s (me s))) 0 = true ∧ unfinished s (me s) ≤ 0
     ∧ noQueue (wr 4 0 0 0 0 0 0) = true ∧ settled s 0 = true ∧ (loOf (aVal (me s) (wr 0 1 0 0 0 0 0) false 0)).toNat ≤ 2
     ∧ tget (me s).ports 8 = none ∧ freePort s 0 < 256)
    ∧ (let s := batches [(0, 1)] 15 Boot.dray
       clear s (.cpseal (wr 4 0 0 0 0 0 0)) = true ∧ 15 ≤ unfinished s (me s))
    ∧ (let s := batches [] 2 Boot.dray
       clear s (.cpwait (wi 0 0 1 0 0 0)) = true ∧ (me s).openBatch = [] ∧ 1 < unfinished s (me s))
    ∧ (let s := batches [] 1 { Boot.dray with state := 5 }
       clear s (.cpwait (wi 0 0 0 0 0 0)) = true ∧ unfinished s (me s) ≤ 0 ∧ (coachOf (acquireGlobal s 0 0 4) 0).rbuf = []
       ∧ ((((me s).sealed_.filter (fun b => batchDone s b)).flatMap (fun b => b.launches)).findSome? (launchFault s)).isSome) := by decide

/-- Port 0 of die 0 is open as q8, with a command word waiting or with none. -/
def ported (cmds : List (Word × Nat)) (v : List Word) : State :=
  { st { Boot.coach with ports := [(8, 0)], v := mapFrom (fun i x => (64 * i, x)) 1 v } with
    ports := [(0, { newPort 0 with cmds := cmds })] }
theorem witness_TransfersAndPorts_ports :
    (let s := ported [] []
     allClear s [.qctlDrain (wr 0 0 0 0 0 0 0x20), .qctlClose (wr 0 0 0 0 0 0 0x10)] = true ∧ tget (me s).ports 8 = some 0 ∧ portIdle s 0 = true
     ∧ settled (setCoach (dropPort s 0) 0 (me s)) 0 = true)
    ∧ (let s := ported [(1, 0)] [3]
       allClear s [.qctlDrain (wr 0 0 0 0 0 0 0x20), .qctlClose (wr 0 0 0 0 0 0 0x10), .qctlOpen (wr 0 1 0 0 0 0 1)] = true
       ∧ portIdle s 0 = false ∧ 2 < (loOf (aVal (me s) (wr 0 1 0 0 0 0 1) false 0)).toNat) := by decide

end Sys2Proof.Tests
end

