-- ==== Sys2Proof/Tests/Memory.lean ====
section
/-! SUPPORT. Tests of memory accesses, and states that meet the hypotheses of the claims about them. -/
namespace Sys2Proof.Tests
open Sys2Proof Sys2Proof.Machine

/-- v1 holds the window offset 0x100, the pair v2:v3 the address 0x8000, v4 and v5 values, and s0:s1 the address 0x8000. -/
def mem : State := regs [0x100, 0x8000, 0, 0x11223344, 0x55667788] [0x8000, 0]

/-- R172, 01 R4: STS and LDS are little-endian, and a UI8 load takes one byte. -/
theorem test_lds : (match exec (.sts (wr 4 1 0xF0 0 1 0 0)) mem with
    | .next t => ((tget t.rakes 0).map (fun r => memRead r.pad 0x100 4)) | _ => none) = some [0x44, 0x33, 0x22, 0x11] := by decide
/-- R172: ST writes the low byte of D alone under UI8. -/
theorem test_st : (match exec (.st (wr 4 2 0xF0 0 7 0 16)) mem with
    | .next t => [memGet t.mem 0x8000, memGet t.mem 0x8001] | _ => []) = [0x44, 0] := by decide
/-- R171: a 4-byte access at 0x8002 is ALIGN, class 6; an address with a bit above 56 is BOUNDS, class 7. -/
theorem test_align : haltOfRake (.ld (wi 4 2 2 1 0 0)) mem = some (6, 0)
    ∧ haltOfRake (.ld (wr 4 2 0xF0 0 1 0 0)) (regs [0, 0, 0x02000000] []) = some (7, 0) := by decide
/-- R180: ATOMS.ADD gives the old value back and leaves the sum. -/
theorem test_atoms : (match exec (.atoms (wr 6 1 4 0 1 0 0)) mem with
    | .next t => ((tget t.rakes 0).map (fun r => memRead r.pad 0x100 4)) | _ => none) = some [0x44, 0x33, 0x22, 0x11] := by decide

/-- A state with bytes listed and a window, and its next step: the hypotheses of CanonicalMemories hold together. -/
theorem witness_CanonicalMemories :
    let s := { State.reset with mem := [(3, 5), (9, 1)], rakes := [(0, { newRake 0 0 0 none 0 16384 with pad := [(1, 7)] })]
                                sched := [.perstRelease true] }
    Memory.wf s.mem ∧ (∀ e ∈ s.rakes, Memory.wf e.2.pad) ∧ ∃ t, step s = .next t ∧ t.mem = [(3, 5), (9, 1)] :=
  ⟨by decide, by decide, _, rfl, rfl⟩

theorem witness_ByteMemory : Memory.wf [(3, 5), (9, 1)] ∧ ¬ Memory.wf [(3, 0)] ∧ ¬ Memory.wf [(3, 1), (3, 2)] := by decide

/-- A line that L1 0 holds. -/
def line0 : CLine := { line := 0x200, ctxs := [0], bytes := List.replicate 64 7, dirty := 0x0F, since := 0, strm := false }
theorem witness_StoredBytes :
    let s := { base with l1 := [(0, [line0])] }
    0xBFFFFFFFFF + 1 ≤ 0xC000000000 ∧ 0x8000 % 64 + 64 ≤ 64 ∧ l1Find s 0 (0x8000 / 64) = some line0 ∧ line0.bytes.length = 64
    ∧ line0.ctxs.contains 0 = true
    ∧ windowClosed s (0x8000 / 64 * 64) = false ∧ s.upsets.contains (.l1 0 (0x8000 / 64)) = false ∧ line0.line < 0x300000000 := by decide

/-- A load and a store of a word at 0x8000. -/
theorem witness_GlobalAccess :
    let w := wr 6 2 0xF0 0 1 0 0
    isDet mem (me mem) = false ∧ noQueue w = true ∧ allClear mem [.ld w, .st (wr 4 2 0xF0 0 1 2 0x280)] = true
    ∧ (globalOf mem w).all (fun a => !inWindow mem (me mem) a.2) = true
    ∧ maskOf (fun l => (globalOf mem w).any (fun a => a.1 == l && decide (2 ^ 57 ≤ a.2))) = 0
    ∧ maskOf (fun l => (globalOf mem w).any (fun a => a.1 == l && a.2 % 4 != 0)) = 0
    ∧ (let r := findLanes mem 0 .read (globalOf mem w) Found.none
       r.1.err = none ∧ r.1.bad = []
       ∧ (match readPieces (orderCoach r.2 0 (mOrd w) (mAgt w) (mStg w)) 0 4 false false r.1.ok [] with
          | (.ok t, s2) => t == [(0, [0, 0, 0, 0])] && settled s2 0
          | _ => false) = true)
    ∧ (let w := wr 4 2 0xF0 0 1 2 0x280
       let r := findLanes mem 0 .write (globalOf mem w) Found.none
       r.1.err = none ∧ r.1.bad = [] ∧ shadowBad (me mem) (enOf mem w) = 0 ∧ isDet r.2 (me mem) = false
       ∧ settled (orderCoach (writePieces r.2 0 false false (r.1.ok.map (fun p => (p, dataOf mem w p.lane)))) 0 (mOrd w) (mAgt w) (mStg w)) 0 = true) := by
  decide
theorem witness_GlobalAccess_traps :
    (let s := regs [0, 0, 0x02000000] []
     let w := wr 6 2 0xF0 0 1 0 0
     clear s (.ld w) = true ∧ clear s (.st w) = true ∧ (nativeRow s (.ld w)).isSome
     ∧ maskOf (fun l => (globalOf s w).any (fun a => a.1 == l && decide (2 ^ 57 ≤ a.2))) ≠ 0)
    ∧ (let w := wi 6 2 2 1 0 0
       clear mem (.ld w) = true ∧ clear mem (.st w) = true ∧ (nativeRow mem (.st w)).isSome
       ∧ maskOf (fun l => (globalOf mem w).any (fun a => a.1 == l && decide (2 ^ 57 ≤ a.2))) = 0
       ∧ maskOf (fun l => (globalOf mem w).any (fun a => a.1 == l && a.2 % 4 != 0)) ≠ 0) := by decide

theorem witness_WindowAccess :
    let w := wr 4 1 0xF0 0 1 0 0
    (match tget mem.rakes (me mem).rake with
      | some r => fits (localOf mem w) r.window 4 && (localOf mem w).all (fun a => !padBad r a.2 4)
      | none => false) = true
    ∧ noQueue w = true ∧ allClear mem [.lds w, .sts w] = true ∧ mOrd w = 0 ∧ shadowBad (me mem) (enOf mem w) = 0
    ∧ settled (orderCoach mem 0 0 0 0) 0 = true := by decide

/-- Private memory of one slot per lane, its areas inside the mapped gigabyte. -/
def priv : State :=
  { regs [0x100, 0x8000, 0, 0x11223344] [4] with
    ctxs := [(0, { Boot.ctx with privp := 8, privbase := 0x20000000, smapbase := 0x10000000 })] }

theorem witness_PrivateMemory_word :
    let w := wr 4 1 0xF0 0 1 0 0
    let m := mapFound priv w (localOf priv w) .read
    let f := privWords m.2 0 4 .read (localOf priv w)
    isDet priv (me priv) = false ∧ noQueue w = true ∧ allClear priv [.ldl w, .stl w] = true ∧ mV w = false
    ∧ fits (localOf priv w) (privSize priv (me priv)) (mBytes w) = true ∧ m.1 = true ∧ f.1.err = none ∧ f.1.bad = []
    ∧ (match privRead 0 4 (pieceOffsets (localOf priv w) 4 f.1.ok) [] f.2 with
        | (.ok _, s3) => settled s3 0
        | _ => false) = true := by decide
theorem witness_PrivateMemory_store :
    let w := wr 4 1 0xF0 0 1 0 0
    let m := mapFound priv w (localOf priv w) .atomic
    let f := privWords m.2 0 4 .write (localOf priv w)
    m.1 = true ∧ f.1.err = none ∧ f.1.bad = [] ∧ shadowBad (me priv) (enOf priv w) = 0 ∧ isDet f.2 (me priv) = false
    ∧ (match privWrite 0 4 (fun l => (regVal (me priv) (fD w) (mWide w) l).toNat) (pieceOffsets (localOf priv w) 4 f.1.ok) f.2 with
        | (.ok _, s3) => settled s3 0
        | _ => false) = true := by decide
/-- The whole line of v4 at offset s0. -/
theorem witness_PrivateMemory_line :
    let w := wr 4 (sc 0) 0xF0 0 1 0 1
    let off := (((localOf priv w).head?).getD (0, 0)).2
    let m := mapFound priv w [(0, off)] .read
    let p := coachXlate m.2 (coachOf m.2 0) (slotAddr m.2 (coachOf m.2 0) off) .read
    allClear priv [.ldl w, .stl w] = true ∧ mV w = true ∧ off + 4 ≤ privSize priv (me priv) ∧ off % 4 = 0 ∧ m.1 = true
    ∧ shadowBad (me priv) (me priv).all = 0
    ∧ (match p.1 with
        | .ok pa leaf =>
          let f := formatOf p.2 (coachOf p.2 0) off
          decide (f.1 ≤ 3) && (match readPieces f.2 0 256 false false [{ lane := 0, va := slotAddr m.2 (coachOf m.2 0) off, pa := pa, leaf := leaf }] [] with
            | (.ok _, s4) => settled s4 0
            | _ => false)
        | _ => false) = true := by decide
theorem witness_PrivateMemory_bounds :
    let s := regs [0xFFFFFFF0] []
    let w := wr 4 1 0xF0 0 1 0 0
    clear s (.ldl w) = true ∧ clear s (.stl w) = true ∧ (nativeRow s (.ldl w)).isSome ∧ mV w = false
    ∧ maskOf (fun l => (localOf s w).any (fun a => a.1 == l && decide (privSize s (me s) < a.2 + mBytes w))) ≠ 0 := by decide

/-- ATOM.ADD and ATOMS.CAS on 32-bit words. -/
theorem witness_Atomics :
    (let w := wr 6 2 4 0 1 0 0
     let addrs := (lanesOf (enOf mem w)).map (fun l => (l, (aVal (me mem) w true l).toNat))
     let r := findLanes mem 0 .atomic addrs Found.none
     isDet mem (me mem) = false ∧ noQueue w = true ∧ clear mem (.atom w) = true ∧ inReach addrs 4 = true ∧ shadowBad (me mem) (enOf mem w) = 0
     ∧ r.1.err = none ∧ r.1.bad = [] ∧ isDet r.2 (me mem) = false
     ∧ (match atomPieces (opCtx mem w (atomSpec w true)) (me mem) (decide (1 ≤ mAgt w)) r.1.ok [] (orderCoach r.2 0 (mOrd w) (mAgt w) (mStg w)) with
        | (.ok _, s2) => settled s2 0
        | _ => false) = true)
    ∧ (let w := wr 6 1 4 5 1 0 14
       let addrs := (lanesOf (enOf mem w)).map (fun l => (l, (aVal (me mem) w false l).toNat))
       noQueue w = true ∧ clear mem (.atoms w) = true ∧ shadowBad (me mem) (enOf mem w) = 0
       ∧ (match tget mem.rakes (me mem).rake with
          | some r => fits addrs r.window 4 && addrs.all (fun a => !padBad r a.2 4) &&
              settled (modRake (orderCoach mem 0 (mOrd w) (mAgt w) (mStg w)) (me mem).rake (fun _ =>
                (atomsPieces (opCtx mem w (atomSpec w false)) (me mem) addrs [] r).2)) 0
          | none => false) = true) := by decide

end Sys2Proof.Tests
end

