-- ==== Sys2Proof/Tests/Slice0.lean ====
section
/-! SUPPORT. Tests of the syntax: ill-formed terms that the checks refuse, and for every native and dray row a word written
out from the field layout of 02 R41, R42 with the opcode of 02 R62, or from the rows of spec/opcode_table.json for 07 R255;
and that a step runs the word that is placed. -/
namespace Sys2Proof.Tests
open Sys2Proof Sys2Proof.Machine

/-- A native operation in F-R, F-I or F-L. -/
def fr (sw : Bool) (pm : BitVec 4) (pn : Bool) (d a b c : BitVec 8) (x : BitVec 17) : NOp := { sw := sw, pm := pm, pn := pn, fmt := .fr d a b c x }
def fi (sw : Bool) (pm : BitVec 4) (pn : Bool) (d a : BitVec 8) (xs : BitVec 9) (i : BitVec 24) : NOp := { sw := sw, pm := pm, pn := pn, fmt := .fi d a xs i }
def fl (sw : Bool) (pm : BitVec 4) (pn : Bool) (d : BitVec 8) (xs : BitVec 9) (i : BitVec 32) : NOp := { sw := sw, pm := pm, pn := pn, fmt := .fl d xs i }

/-! ### Ill-formed terms: one for each check of WellFormed -/

theorem test_wf_short : (Instr.iadd (fl false 0 false 1 0 0)).wf = false := by decide
theorem test_wf_long : (Instr.bra (fi false 0 false 1 2 0 0)).wf = false := by decide
theorem test_wf_fl : (Instr.sleep (fr false 0 false 0 0 0 0 0)).wf = false := by decide
theorem test_wf_fr : (Instr.sleepBar (fi false 0 false 0 0 0 0)).wf = false := by decide
theorem test_wf_spr : (Instr.spr (fr false 0 false 0 0 0 0 0x113)).wf = false ∧ (Instr.sprWr (fr false 0 false 0 0 0 0 0x013)).wf = false := by
  decide
theorem test_wf_qctl : (Instr.qctlOpen (fr false 0 false 0 0 0 0 0x13)).wf = false ∧ (Instr.qctlClose (fr false 0 false 0 0 0 0 3)).wf = false
    ∧ (Instr.qctlDrain (fr false 0 false 0 0 0 0 0x13)).wf = false := by decide
theorem test_wf_mver : (Instr.mverRead (fr false 0 false 0 0 0 0 1)).wf = false ∧ (Instr.mverAcq (fr false 0 false 0 0 0 0 2)).wf = false
    ∧ (Instr.mverRel (fr false 0 false 0 0 0 0 3)).wf = false ∧ (Instr.mverWait (fr false 0 false 0 0 0 0 0)).wf = false := by decide
theorem test_wf_lease : (Instr.leaseDecl (fi false 0 false 0 0 1 8)).wf = false ∧ (Instr.leaseMeas (fi false 0 false 0 0 0 8)).wf = false := by
  decide
theorem test_wf_plate : (Instr.systemPlateOp 0xDF00000000000000).wf = false ∧ (Instr.systemPlateOp 0xFF00000000000000).wf = false := by decide
theorem test_wf_jump : (Instr.drayJmpLink 0 4).wf = false ∧ (Instr.drayJmpIndirect 1 0).wf = false := by decide

/-! ### Words -/

theorem test_words_1 :
    decodeTableWord 64 0x00980B840BC3B116 = some (.nop (fr true 3 false 0x5 0xc2 0x5 0xe1 0x1b116))
    ∧ decodeTableWord 64 0x01360CA51234567A = some (.bra (fl false 6 true 0x6 0xA5 0x1234567a))
    ∧ decodeTableWord 64 0x02CE0F855AABCDE3 = some (.brx (fi true 9 true 0x7 0xc2 0x15A 0xabcde3))
    ∧ decodeTableWord 64 0x036210A51234567C = some (.call (fl false 12 false 0x8 0xA5 0x1234567c))
    ∧ decodeTableWord 64 0x04F8138433C3F55A = some (.callx (fr true 15 false 0x9 0xc2 0x19 0xe1 0x1f55a))
    ∧ decodeTableWord 64 0x051615855AABCDE6 = some (.ret (fi false 2 true 0xa 0xc2 0x15A 0xabcde6))
    ∧ decodeTableWord 64 0x06AC178447C2177C = some (.join (fr true 5 true 0xb 0xc2 0x23 0xe1 0x177c))
    ∧ decodeTableWord 64 0x0740198451C2288D = some (.exit (fr false 8 false 0xc 0xc2 0x28 0xe1 0x288d))
    ∧ decodeTableWord 64 0x08DA1AA512345681 = some (.sleep (fl true 11 false 0xd 0xA5 0x12345681))
    ∧ decodeTableWord 64 0x08741D8465C24AAF = some (.sleepBar (fr false 14 true 0xe 0xc2 0x32 0xe1 0x4aaf))
    ∧ decodeTableWord 64 0x098C1F846FC25BC0 = some (.yield (fr true 1 true 0xf 0xc2 0x37 0xe1 0x5bc0))
    ∧ decodeTableWord 64 0x102221855AABCDEC = some (.iadd (fi false 4 false 0x10 0xc2 0x15A 0xabcdec))
    ∧ decodeTableWord 64 0x11B8238483C27DE2 = some (.isub (fr true 7 false 0x11 0xc2 0x41 0xe1 0x7de2))
    ∧ decodeTableWord 64 0x125425848DC28EF3 = some (.imul (fr false 10 true 0x12 0xc2 0x46 0xe1 0x8ef3))
    ∧ decodeTableWord 64 0x13EE27855AABCDEF = some (.imulh (fi true 13 true 0x13 0xc2 0x15A 0xabcdef))
    ∧ decodeTableWord 64 0x14002984A1C2B115 = some (.imad (fr false 0 false 0x14 0xc2 0x50 0xe1 0xb115)) := by decide

theorem test_words_2 :
    decodeTableWord 64 0x15982B84ABC2C226 = some (.iaddc (fr true 3 false 0x15 0xc2 0x55 0xe1 0xc226))
    ∧ decodeTableWord 64 0x16362D855AABCDF2 = some (.imin (fi false 6 true 0x16 0xc2 0x15A 0xabcdf2))
    ∧ decodeTableWord 64 0x17CC2F84BFC2E448 = some (.imax (fr true 9 true 0x17 0xc2 0x5f 0xe1 0xe448))
    ∧ decodeTableWord 64 0x18603184C9C2F559 = some (.iabs (fr false 12 false 0x18 0xc2 0x64 0xe1 0xf559))
    ∧ decodeTableWord 64 0x19FA33855AABCDF5 = some (.icmp (fi true 15 false 0x19 0xc2 0x15A 0xabcdf5))
    ∧ decodeTableWord 64 0x1A143584DDC3177B = some (.sel (fr false 2 true 0x1a 0xc2 0x6e 0xe1 0x1177b))
    ∧ decodeTableWord 64 0x1BAC3784E7C3288C = some (.and (fr true 5 true 0x1b 0xc2 0x73 0xe1 0x1288c))
    ∧ decodeTableWord 64 0x1C4239855AABCDF8 = some (.or (fi false 8 false 0x1c 0xc2 0x15A 0xabcdf8))
    ∧ decodeTableWord 64 0x1DD83B84FBC34AAE = some (.xor (fr true 11 false 0x1d 0xc2 0x7d 0xe1 0x14aae))
    ∧ decodeTableWord 64 0x1E743D8505C35BBF = some (.andn (fr false 14 true 0x1e 0xc2 0x82 0xe1 0x15bbf))
    ∧ decodeTableWord 64 0x1F8E3F855AABCDFB = some (.shl (fi true 1 true 0x1f 0xc2 0x15A 0xabcdfb))
    ∧ decodeTableWord 64 0x2020418519C37DE1 = some (.shr (fr false 4 false 0x20 0xc2 0x8c 0xe1 0x17de1))
    ∧ decodeTableWord 64 0x21B8438523C38EF2 = some (.sar (fr true 7 false 0x21 0xc2 0x91 0xe1 0x18ef2))
    ∧ decodeTableWord 64 0x225645855AABCDFE = some (.rotl (fi false 10 true 0x22 0xc2 0x15A 0xabcdfe))
    ∧ decodeTableWord 64 0x23EC478537C3B114 = some (.bfe (fr true 13 true 0x23 0xc2 0x9b 0xe1 0x1b114))
    ∧ decodeTableWord 64 0x2400498541C3C225 = some (.bfi (fr false 0 false 0x24 0xc2 0xa0 0xe1 0x1c225)) := by decide

theorem test_words_3 :
    decodeTableWord 64 0x259A4B855AABCE01 = some (.popc (fi true 3 false 0x25 0xc2 0x15A 0xabce01))
    ∧ decodeTableWord 64 0x26344D8555C3E447 = some (.clz (fr false 6 true 0x26 0xc2 0xaa 0xe1 0x1e447))
    ∧ decodeTableWord 64 0x27CC4F855FC3F558 = some (.ctz (fr true 9 true 0x27 0xc2 0xaf 0xe1 0x1f558))
    ∧ decodeTableWord 64 0x286251855AABCE04 = some (.lea (fi false 12 false 0x28 0xc2 0x15A 0xabce04))
    ∧ decodeTableWord 64 0x29F8538573C2177A = some (.mov (fr true 15 false 0x29 0xc2 0xb9 0xe1 0x177a))
    ∧ decodeTableWord 64 0x2A1654A51234569E = some (.movi (fl false 2 true 0x2a 0xA5 0x1234569e))
    ∧ decodeTableWord 64 0x2BAE56A51234569F = some (.movhi (fl true 5 true 0x2b 0xA5 0x1234569f))
    ∧ decodeTableWord 64 0x2C40598411C24AAD = some (.iadd64 (fr false 8 false 0x2c 0xc2 0x8 0xe1 0x4aad))
    ∧ decodeTableWord 64 0x2DD85B841BC25BBE = some (.imad64 (fr true 11 false 0x2d 0xc2 0xd 0xe1 0x5bbe))
    ∧ decodeTableWord 64 0x2E765D855AABCE0A = some (.idp4 (fi false 14 true 0x2e 0xc2 0x15A 0xabce0a))
    ∧ decodeTableWord 64 0x408C5F842FC27DE0 = some (.fadd (fr true 1 true 0x2f 0xc2 0x17 0xe1 0x7de0))
    ∧ decodeTableWord 64 0x4120618439C28EF1 = some (.fsub (fr false 4 false 0x30 0xc2 0x1c 0xe1 0x8ef1))
    ∧ decodeTableWord 64 0x42BA63855AABCE0D = some (.fmul (fi true 7 false 0x31 0xc2 0x15A 0xabce0d))
    ∧ decodeTableWord 64 0x435465844DC2B113 = some (.ffma (fr false 10 true 0x32 0xc2 0x26 0xe1 0xb113))
    ∧ decodeTableWord 64 0x44EC678457C2C224 = some (.fmin (fr true 13 true 0x33 0xc2 0x2b 0xe1 0xc224))
    ∧ decodeTableWord 64 0x450269855AABCE10 = some (.fmax (fi false 0 false 0x34 0xc2 0x15A 0xabce10)) := by decide

theorem test_words_4 :
    decodeTableWord 64 0x46986B846BC2E446 = some (.fcmp (fr true 3 false 0x35 0xc2 0x35 0xe1 0xe446))
    ∧ decodeTableWord 64 0x47346D8475C2F557 = some (.frnd (fr false 6 true 0x36 0xc2 0x3a 0xe1 0xf557))
    ∧ decodeTableWord 64 0x48CE6F855AABCE13 = some (.frcp (fi true 9 true 0x37 0xc2 0x15A 0xabce13))
    ∧ decodeTableWord 64 0x4960718489C31779 = some (.frsq (fr false 12 false 0x38 0xc2 0x44 0xe1 0x11779))
    ∧ decodeTableWord 64 0x4AF8738493C3288A = some (.fsqrt (fr true 15 false 0x39 0xc2 0x49 0xe1 0x1288a))
    ∧ decodeTableWord 64 0x4B1675855AABCE16 = some (.fexp2 (fi false 2 true 0x3a 0xc2 0x15A 0xabce16))
    ∧ decodeTableWord 64 0x4CAC7784A7C34AAC = some (.flog2 (fr true 5 true 0x3b 0xc2 0x53 0xe1 0x14aac))
    ∧ decodeTableWord 64 0x4D407984B1C35BBD = some (.fsin (fr false 8 false 0x3c 0xc2 0x58 0xe1 0x15bbd))
    ∧ decodeTableWord 64 0x4EDA7B855AABCE19 = some (.fcos (fi true 11 false 0x3d 0xc2 0x15A 0xabce19))
    ∧ decodeTableWord 64 0x4F747D84C5C37DDF = some (.fclass (fr false 14 true 0x3e 0xc2 0x62 0xe1 0x17ddf))
    ∧ decodeTableWord 64 0x508C7F84CFC38EF0 = some (.hadd2 (fr true 1 true 0x3f 0xc2 0x67 0xe1 0x18ef0))
    ∧ decodeTableWord 64 0x512281855AABCE1C = some (.hmul2 (fi false 4 false 0x40 0xc2 0x15A 0xabce1c))
    ∧ decodeTableWord 64 0x52B88384E3C3B112 = some (.hfma2 (fr true 7 false 0x41 0xc2 0x71 0xe1 0x1b112))
    ∧ decodeTableWord 64 0x53548584EDC3C223 = some (.hmin2 (fr false 10 true 0x42 0xc2 0x76 0xe1 0x1c223))
    ∧ decodeTableWord 64 0x54EE87855AABCE1F = some (.hmax2 (fi true 13 true 0x43 0xc2 0x15A 0xabce1f))
    ∧ decodeTableWord 64 0x5500898501C3E445 = some (.hdot2 (fr false 0 false 0x44 0xc2 0x80 0xe1 0x1e445)) := by decide

theorem test_words_5 :
    decodeTableWord 64 0x56988B850BC3F556 = some (.fdp4n (fr true 3 false 0x45 0xc2 0x85 0xe1 0x1f556))
    ∧ decodeTableWord 64 0x70368D855AABCE22 = some (.cvt (fi false 6 true 0x46 0xc2 0x15A 0xabce22))
    ∧ decodeTableWord 64 0x71CC8F851FC21778 = some (.cvtn (fr true 9 true 0x47 0xc2 0x8f 0xe1 0x1778))
    ∧ decodeTableWord 64 0x7260918529C22889 = some (.pack (fr false 12 false 0x48 0xc2 0x94 0xe1 0x2889))
    ∧ decodeTableWord 64 0x73FA93855AABCE25 = some (.unpack (fi true 15 false 0x49 0xc2 0x15A 0xabce25))
    ∧ decodeTableWord 64 0x741495853DC24AAB = some (.scalex (fr false 2 true 0x4a 0xc2 0x9e 0xe1 0x4aab))
    ∧ decodeTableWord 64 0x75AC978547C25BBC = some (.rand (fr true 5 true 0x4b 0xc2 0xa3 0xe1 0x5bbc))
    ∧ decodeTableWord 64 0x764299855AABCE28 = some (.rseed (fi false 8 false 0x4c 0xc2 0x15A 0xabce28))
    ∧ decodeTableWord 64 0x80D89B855BC27DDE = some (.shfl (fr true 11 false 0x4d 0xc2 0xad 0xe1 0x7dde))
    ∧ decodeTableWord 64 0x81749D8565C28EEF = some (.ballot (fr false 14 true 0x4e 0xc2 0xb2 0xe1 0x8eef))
    ∧ decodeTableWord 64 0x828E9F855AABCE2B = some (.vote (fi true 1 true 0x4f 0xc2 0x15A 0xabce2b))
    ∧ decodeTableWord 64 0x8320A18579C2B111 = some (.redx (fr false 4 false 0x50 0xc2 0xbc 0xe1 0xb111))
    ∧ decodeTableWord 64 0x84B8A38403C2C222 = some (.scanx (fr true 7 false 0x51 0xc2 0x1 0xe1 0xc222))
    ∧ decodeTableWord 64 0x8556A5855AABCE2E = some (.mop (fi false 10 true 0x52 0xc2 0x15A 0xabce2e))
    ∧ decodeTableWord 64 0x86ECA78417C2E444 = some (.mpopc (fr true 13 true 0x53 0xc2 0xb 0xe1 0xe444))
    ∧ decodeTableWord 64 0x8700A98421C2F555 = some (.mfirst (fr false 0 false 0x54 0xc2 0x10 0xe1 0xf555)) := by decide

theorem test_words_6 :
    decodeTableWord 64 0x889AAB855AABCE31 = some (.mact (fi true 3 false 0x55 0xc2 0x15A 0xabce31))
    ∧ decodeTableWord 64 0x8934AD8435C31777 = some (.mmov (fr false 6 true 0x56 0xc2 0x1a 0xe1 0x11777))
    ∧ decodeTableWord 64 0x8ACCAF843FC20005 = some (.spr (fr true 9 true 0x57 0xc2 0x1f 0xe1 0x5))
    ∧ decodeTableWord 64 0x8A60B18449C20113 = some (.sprWr (fr false 12 false 0x58 0xc2 0x24 0xe1 0x113))
    ∧ decodeTableWord 64 0x90F8B38453C34AAA = some (.ld (fr true 15 false 0x59 0xc2 0x29 0xe1 0x14aaa))
    ∧ decodeTableWord 64 0x9114B5845DC35BBB = some (.st (fr false 2 true 0x5a 0xc2 0x2e 0xe1 0x15bbb))
    ∧ decodeTableWord 64 0x92AEB7855AABCE37 = some (.lds (fi true 5 true 0x5b 0xc2 0x15A 0xabce37))
    ∧ decodeTableWord 64 0x9340B98471C37DDD = some (.sts (fr false 8 false 0x5c 0xc2 0x38 0xe1 0x17ddd))
    ∧ decodeTableWord 64 0x94D8BB847BC38EEE = some (.ldl (fr true 11 false 0x5d 0xc2 0x3d 0xe1 0x18eee))
    ∧ decodeTableWord 64 0x9576BD855AABCE3A = some (.stl (fi false 14 true 0x5e 0xc2 0x15A 0xabce3a))
    ∧ decodeTableWord 64 0x968CBF848FC3B110 = some (.atom (fr true 1 true 0x5f 0xc2 0x47 0xe1 0x1b110))
    ∧ decodeTableWord 64 0x9720C18499C3C221 = some (.atoms (fr false 4 false 0x60 0xc2 0x4c 0xe1 0x1c221))
    ∧ decodeTableWord 64 0x98BAC3855AABCE3D = some (.fence (fi true 7 false 0x61 0xc2 0x15A 0xabce3d))
    ∧ decodeTableWord 64 0x9954C584ADC3E443 = some (.cctl (fr false 10 true 0x62 0xc2 0x56 0xe1 0x1e443))
    ∧ decodeTableWord 64 0x9AECC784B7C3F554 = some (.pref (fr true 13 true 0x63 0xc2 0x5b 0xe1 0x1f554))
    ∧ decodeTableWord 64 0x9B02C9855AABCE40 = some (.ipref (fi false 0 false 0x64 0xc2 0x15A 0xabce40)) := by decide

theorem test_words_7 :
    decodeTableWord 64 0x9C98CB84CBC21776 = some (.ipin (fr true 3 false 0x65 0xc2 0x65 0xe1 0x1776))
    ∧ decodeTableWord 64 0x9D34CD84D5C22887 = some (.iunpin (fr false 6 true 0x66 0xc2 0x6a 0xe1 0x2887))
    ∧ decodeTableWord 64 0x9ECECF855AABCE43 = some (.ldd (fi true 9 true 0x67 0xc2 0x15A 0xabce43))
    ∧ decodeTableWord 64 0x9F60D184E9C24AA9 = some (.std (fr false 12 false 0x68 0xc2 0x74 0xe1 0x4aa9))
    ∧ decodeTableWord 64 0xB0F8D384F3C25BBA = some (.bari (fr true 15 false 0x69 0xc2 0x79 0xe1 0x5bba))
    ∧ decodeTableWord 64 0xB116D5855AABCE46 = some (.bara (fi false 2 true 0x6a 0xc2 0x15A 0xabce46))
    ∧ decodeTableWord 64 0xB2ACD78507C27DDC = some (.barw (fr true 5 true 0x6b 0xc2 0x83 0xe1 0x7ddc))
    ∧ decodeTableWord 64 0xB340D98511C28EED = some (.bars (fr false 8 false 0x6c 0xc2 0x88 0xe1 0x8eed))
    ∧ decodeTableWord 64 0xB4DADB855AABCE49 = some (.barx (fi true 11 false 0x6d 0xc2 0x15A 0xabce49))
    ∧ decodeTableWord 64 0xB574DD8525C2B10F = some (.tbar (fr false 14 true 0x6e 0xc2 0x92 0xe1 0xb10f))
    ∧ decodeTableWord 64 0xB68CDF852FC2C220 = some (.tlwait (fr true 1 true 0x6f 0xc2 0x97 0xe1 0xc220))
    ∧ decodeTableWord 64 0xB722E1855AABCE4C = some (.tlrd (fi false 4 false 0x70 0xc2 0x15A 0xabce4c))
    ∧ decodeTableWord 64 0xB8B8E38543C2E442 = some (.cpy (fr true 7 false 0x71 0xc2 0xa1 0xe1 0xe442))
    ∧ decodeTableWord 64 0xB954E5854DC2F553 = some (.cpseal (fr false 10 true 0x72 0xc2 0xa6 0xe1 0xf553))
    ∧ decodeTableWord 64 0xBAEEE7855AABCE4F = some (.cpwait (fi true 13 true 0x73 0xc2 0x15A 0xabce4f))
    ∧ decodeTableWord 64 0xBB00E98561C20003 = some (.qctlOpen (fr false 0 false 0x74 0xc2 0xb0 0xe1 0x3)) := by decide

theorem test_words_8 :
    decodeTableWord 64 0xBB98EB856BC20013 = some (.qctlClose (fr true 3 false 0x75 0xc2 0xb5 0xe1 0x13))
    ∧ decodeTableWord 64 0xBB34ED8575C20023 = some (.qctlDrain (fr false 6 true 0x76 0xc2 0xba 0xe1 0x23))
    ∧ decodeTableWord 64 0xC0CCEF857FC34AA8 = some (.mcfg (fr true 9 true 0x77 0xc2 0xbf 0xe1 0x14aa8))
    ∧ decodeTableWord 64 0xC160F18409C35BB9 = some (.mma (fr false 12 false 0x78 0xc2 0x4 0xe1 0x15bb9))
    ∧ decodeTableWord 64 0xC2FAF3855AABCE55 = some (.mloop (fi true 15 false 0x79 0xc2 0x15A 0xabce55))
    ∧ decodeTableWord 64 0xC314F5841DC37DDB = some (.mzero (fr false 2 true 0x7a 0xc2 0xe 0xe1 0x17ddb))
    ∧ decodeTableWord 64 0xC4ACF78427C38EEC = some (.mlda (fr true 5 true 0x7b 0xc2 0x13 0xe1 0x18eec))
    ∧ decodeTableWord 64 0xC542F9855AABCE58 = some (.msta (fi false 8 false 0x7c 0xc2 0x15A 0xabce58))
    ∧ decodeTableWord 64 0xC6D8FB843BC3B10E = some (.mprom (fr true 11 false 0x7d 0xc2 0x1d 0xe1 0x1b10e))
    ∧ decodeTableWord 64 0xC774FD8445C24000 = some (.mverRead (fr false 14 true 0x7e 0xc2 0x22 0xe1 0x4000))
    ∧ decodeTableWord 64 0xC78CFF844FC24001 = some (.mverAcq (fr true 1 true 0x7f 0xc2 0x27 0xe1 0x4001))
    ∧ decodeTableWord 64 0xC721018459C24002 = some (.mverRel (fr false 4 false 0x80 0xc2 0x2c 0xe1 0x4002))
    ∧ decodeTableWord 64 0xC7B9038463C24003 = some (.mverWait (fr true 7 false 0x81 0xc2 0x31 0xe1 0x4003))
    ∧ decodeTableWord 64 0xC85705855AABCE5E = some (.mmeta (fi false 10 true 0x82 0xc2 0x15A 0xabce5e))
    ∧ decodeTableWord 64 0xD0EF06A5123456F7 = some (.trap (fl true 13 true 0x83 0xA5 0x123456f7))
    ∧ decodeTableWord 64 0xD101098481C22885 = some (.tret (fr false 0 false 0x84 0xc2 0x40 0xe1 0x2885)) := by decide

theorem test_words_9 :
    decodeTableWord 64 0xD2990B848BC20000 = some (.leaseDecl (fr true 3 false 0x85 0xc2 0x45 0xe1 0x0))
    ∧ decodeTableWord 64 0xD2350D8495C20001 = some (.leaseMeas (fr false 6 true 0x86 0xc2 0x4a 0xe1 0x1))
    ∧ decodeTableWord 64 0xD3CD0F849FC25BB8 = some (.czopen (fr true 9 true 0x87 0xc2 0x4f 0xe1 0x5bb8))
    ∧ decodeTableWord 64 0xD46311855AABCE64 = some (.czclose (fi false 12 false 0x88 0xc2 0x15A 0xabce64))
    ∧ decodeTableWord 64 0xD5F91384B3C27DDA = some (.spawn (fr true 15 false 0x89 0xc2 0x59 0xe1 0x7dda))
    ∧ decodeTableWord 64 0xD6151584BDC28EEB = some (.sysrd (fr false 2 true 0x8a 0xc2 0x5e 0xe1 0x8eeb))
    ∧ decodeTableWord 64 0xD7AF17855AABCE67 = some (.syswr (fi true 5 true 0x8b 0xc2 0x15A 0xabce67))
    ∧ decodeTableWord 64 0xD8411984D1C2B10D = some (.dbgbrk (fr false 8 false 0x8c 0xc2 0x68 0xe1 0xb10d))
    ∧ decodeTableWord 64 0xD9D91B84DBC2C21E = some (.dturn (fr true 11 false 0x8d 0xc2 0x6d 0xe1 0xc21e))
    ∧ decodeTableWord 32 0x00000000 = some .drayHalt
    ∧ decodeTableWord 32 0x0749C000 = some (.drayAdd 0xd 2 7)
    ∧ decodeTableWord 32 0x09278000 = some (.draySub 4 9 0xe)
    ∧ decodeTableWord 32 0x0EC14000 = some (.drayMul 0xb 0 5)
    ∧ decodeTableWord 32 0x109F0000 = some (.drayAnd 2 7 0xc)
    ∧ decodeTableWord 32 0x1678C000 = some (.drayOr 9 0xe 3)
    ∧ decodeTableWord 32 0x18168000 = some (.drayXor 0 5 0xa) := by decide

theorem test_words_10 :
    decodeTableWord 32 0x1DF04000 = some (.drayShl 7 0xc 1)
    ∧ decodeTableWord 32 0x238E0000 = some (.drayShr 0xe 3 8)
    ∧ decodeTableWord 32 0x256BC000 = some (.drayMin 5 0xa 0xf)
    ∧ decodeTableWord 32 0x2B058000 = some (.drayMax 0xc 1 6)
    ∧ decodeTableWord 32 0x2CE0086D = some (.drayAddi 3 8 0x86d)
    ∧ decodeTableWord 32 0x328005BF = some (.drayLi 0xa 0x5bf)
    ∧ decodeTableWord 32 0x3458087B = some (.drayLui 1 6 0x87b)
    ∧ decodeTableWord 32 0x3A342DEC = some (.drayLdw 8 0xd 2 1 0x5ec)
    ∧ decodeTableWord 32 0x3FD015F3 = some (.drayStw 0xf 4 1 0 0x5f3)
    ∧ decodeTableWord 32 0x401AC890 = some (.drayBeq 6 0xb 0x890)
    ∧ decodeTableWord 32 0x44348897 = some (.drayBne 0xd 2 0x897)
    ∧ decodeTableWord 32 0x4812489E = some (.drayBlt 4 9 0x89e)
    ∧ decodeTableWord 32 0x4C2C08A5 = some (.drayBge 0xb 0 0x8a5)
    ∧ decodeTableWord 32 0x50000342 = some (.drayJmp 0x342)
    ∧ decodeTableWord 32 0x524005FE = some (.drayJmpLink 9 0x5fe)
    ∧ decodeTableWord 32 0x50540000 = some (.drayJmpIndirect 1 5) := by decide

theorem test_words_11 :
    decodeTableWord 32 0x541C060C = some (.drayLoop 7 0x60c)
    ∧ decodeTableWord 32 0x5B8C08C8 = some (.drayArg 0xe 3 0x8c8)
    ∧ decodeTableWord 32 0x5C682B84 = some (.drayGset 1 0xa 1 0xb84)
    ∧ decodeTableWord 32 0x60040000 = some (.drayGadv 0 1 0)
    ∧ decodeTableWord 32 0x64C353B1 = some (.drayXfer 3 0 0xd 2 7 0 0x31)
    ∧ decodeTableWord 32 0x688D0001 = some (.drayGather 2 3 4 1)
    ∧ decodeTableWord 32 0x6C4AC000 = some (.drayScatter 1 2 0xb 0)
    ∧ decodeTableWord 32 0x70348003 = some (.drayFill 0 0xd 2 3)
    ∧ decodeTableWord 32 0x743C2449 = some (.drayArrive 0xf 0x244 9)
    ∧ decodeTableWord 32 0x78180018 = some (.draySignal 6 3 0)
    ∧ decodeTableWord 32 0x7C34801C = some (.drayTlw 0xd 2 3 4)
    ∧ decodeTableWord 32 0x80100659 = some (.drayPromise 4 0x659)
    ∧ decodeTableWord 32 0x840000C5 = some (.drayDfence 3 0 5)
    ∧ decodeTableWord 32 0x88800007 = some (.drayStat 2 7)
    ∧ decodeTableWord 32 0x8C2401D8 = some (.drayOpt 9 0 1 0xd8)
    ∧ decodeTableWord 64 0xE0123456789ABCDE = some (.systemPlateOp 0xE0123456789ABCDE) := by decide

theorem test_words_12 :
    decodeTableWord 64 0xFE00000000000001 = some (.systemPlateOp 0xFE00000000000001)
    ∧ decodeTableWord 32 0x90000000 = some (.drayIllegal 0x90000000)
    ∧ decodeTableWord 32 0x04000001 = some (.drayIllegal 0x04000001)
    ∧ decodeTableWord 64 0xFF00000000000000 = none
    ∧ decodeTableWord 64 0x0A00000000000000 = none := by decide

/-! ### A step runs the word that is placed -/

/-- IADD v4 = v1 + v2 as the first instruction after reset: the lane counts it, and stands 8 bytes on. -/
theorem test_step_native : (match step (State.reset.withFetchWord 64 0x1000080204000000) with
    | .next t => ((coachOf t 0).lanes.head?).map (fun x => (x.ga, x.icnt)) | _ => none) = some (0x4008, 1) := by decide

/-- LI d4, 5 as the first instruction after reset: d4 holds 5. -/
theorem test_step_dray : (match step (State.reset.withFetchWord 32 0x31000005) with
    | .next t => dget (Sys2Proof.Machine.drayOf t 0) 4 | _ => 0) = 5 := by decide

end Sys2Proof.Tests
end

/-! ### The byte memory (01 R37, 09 R334, 15 R501; assumption log 3) -/
section
namespace Sys2Proof.Proofs
open Sys2Proof Sys2Proof.Machine Sys2Proof.Laws

/-- Read after write: the bytes come back in their order. -/
theorem memRead_memWrite (m : List Host.Cell) (a : Nat) (bs : List Byte) :
    memRead (memWrite m a bs) a bs.length = bs := by
  apply List.ext_getElem?
  intro i
  rcases Nat.lt_or_ge i bs.length with hi | hi
  · rw [memRead_getElem _ _ _ _ hi, memGet_memWrite, if_pos (by omega), Nat.add_sub_cancel_left,
      List.getElem?_eq_getElem hi, Option.getD_some]
  · rw [List.getElem?_eq_none (by rwa [memRead_length]), List.getElem?_eq_none hi]

/-- The frame of a write: a byte below its first or past its last stands. -/
theorem memGet_memWrite_outside (m : List Host.Cell) {a x : Nat} {bs : List Byte}
    (hx : x < a ∨ a + bs.length ≤ x) : memGet (memWrite m a bs) x = memGet m x := by
  rw [memGet_memWrite, if_neg (by omega)]

/-- Settles O31: the canonical form is kept byte by byte, and what a write leaves at each address
gives both the read back and the frame. -/
theorem byteMemory : Obligations.ByteMemory := fun m a bs =>
  ⟨fun h => memWrite_wf h a bs, memRead_memWrite m a bs, fun _ => memGet_memWrite_outside m, reset_wf⟩

end Sys2Proof.Proofs
end

/-! ### Every step keeps the byte memories canonical (01 R37, 09 R334; assumption log 3) -/
section
namespace Sys2Proof.Proofs
open Sys2Proof Sys2Proof.Machine Sys2Proof.Laws

/-- Every meaning of the dispatch keeps the canonical form. -/
theorem exec_canon {i : Instr} {s : State} (h : Canon s) : CanonOut (exec i s) :=
  match i with
  | .nop .. => execNop_canon h | .bra .. => execBra_canon h | .brx .. => execBrx_canon h | .call .. => execCall_canon h
  | .callx .. => execCallx_canon h | .ret .. => execRet_canon h | .join .. => execJoin_canon h | .exit .. => execExit_canon h
  | .sleep .. => execSleep_canon h | .sleepBar .. => execSleepBar_canon h | .yield .. => execYield_canon h
  | .iadd .. => execIadd_canon h | .isub .. => execIsub_canon h | .imul .. => execImul_canon h
  | .imulh .. => execImulh_canon h | .imad .. => execImad_canon h | .iaddc .. => execIaddc_canon h
  | .imin .. => execImin_canon h | .imax .. => execImax_canon h | .iabs .. => execIabs_canon h | .icmp .. => execIcmp_canon h
  | .sel .. => execSel_canon h | .and .. => execAnd_canon h | .or .. => execOr_canon h | .xor .. => execXor_canon h
  | .andn .. => execAndn_canon h | .shl .. => execShl_canon h | .shr .. => execShr_canon h | .sar .. => execSar_canon h
  | .rotl .. => execRotl_canon h | .bfe .. => execBfe_canon h | .bfi .. => execBfi_canon h | .popc .. => execPopc_canon h
  | .clz .. => execClz_canon h | .ctz .. => execCtz_canon h | .lea .. => execLea_canon h | .mov .. => execMov_canon h
  | .movi .. => execMovi_canon h | .movhi .. => execMovhi_canon h | .iadd64 .. => execIadd64_canon h
  | .imad64 .. => execImad64_canon h | .idp4 .. => execIdp4_canon h | .fadd .. => execFadd_canon h
  | .fsub .. => execFsub_canon h | .fmul .. => execFmul_canon h | .ffma .. => execFfma_canon h | .fmin .. => execFmin_canon h
  | .fmax .. => execFmax_canon h | .fcmp .. => execFcmp_canon h | .frnd .. => execFrnd_canon h | .frcp .. => execFrcp_canon h
  | .frsq .. => execFrsq_canon h | .fsqrt .. => execFsqrt_canon h | .fexp2 .. => execFexp2_canon h
  | .flog2 .. => execFlog2_canon h | .fsin .. => execFsin_canon h | .fcos .. => execFcos_canon h
  | .fclass .. => execFclass_canon h | .hadd2 .. => execHadd2_canon h | .hmul2 .. => execHmul2_canon h
  | .hfma2 .. => execHfma2_canon h | .hmin2 .. => execHmin2_canon h | .hmax2 .. => execHmax2_canon h
  | .hdot2 .. => execHdot2_canon h | .fdp4n .. => execFdp4n_canon h | .cvt .. => execCvt_canon h
  | .cvtn .. => execCvtn_canon h | .pack .. => execPack_canon h | .unpack .. => execUnpack_canon h
  | .scalex .. => execScalex_canon h | .rand .. => execRand_canon h | .rseed .. => execRseed_canon h
  | .shfl .. => execShfl_canon h | .ballot .. => execBallot_canon h | .vote .. => execVote_canon h
  | .redx .. => execRedx_canon h | .scanx .. => execScanx_canon h | .mop .. => execMop_canon h
  | .mpopc .. => execMpopc_canon h | .mfirst .. => execMfirst_canon h | .mact .. => execMact_canon h
  | .mmov .. => execMmov_canon h | .spr .. => execSpr_canon h | .sprWr .. => execSprWr_canon h | .ld .. => execLd_canon h
  | .st .. => execSt_canon h | .lds .. => execLds_canon h | .sts .. => execSts_canon h | .ldl .. => execLdl_canon h
  | .stl .. => execStl_canon h | .atom .. => execAtom_canon h | .atoms .. => execAtoms_canon h
  | .fence .. => execFence_canon h | .cctl .. => execCctl_canon h | .pref .. => execPref_canon h
  | .ipref .. => execIpref_canon h | .ipin .. => execIpin_canon h | .iunpin .. => execIunpin_canon h
  | .ldd .. => execLdd_canon h | .std .. => execStd_canon h | .bari .. => execBari_canon h | .bara .. => execBara_canon h
  | .barw .. => execBarw_canon h | .bars .. => execBars_canon h | .barx .. => execBarx_canon h | .tbar .. => execTbar_canon h
  | .tlwait .. => execTlwait_canon h | .tlrd .. => execTlrd_canon h | .cpy .. => execCpy_canon h
  | .cpseal .. => execCpseal_canon h | .cpwait .. => execCpwait_canon h | .qctlOpen .. => execQctlOpen_canon h
  | .qctlClose .. => execQctlClose_canon h | .qctlDrain .. => execQctlDrain_canon h | .mcfg .. => execMcfg_canon h
  | .mma .. => execMma_canon h | .mloop .. => execMloop_canon h | .mzero .. => execMzero_canon h
  | .mlda .. => execMlda_canon h | .msta .. => execMsta_canon h | .mprom .. => execMprom_canon h
  | .mverRead .. => execMverRead_canon h | .mverAcq .. => execMverAcq_canon h | .mverRel .. => execMverRel_canon h
  | .mverWait .. => execMverWait_canon h | .mmeta .. => execMmeta_canon h | .trap .. => execTrap_canon h
  | .tret .. => execTret_canon h | .leaseDecl .. => execLeaseDecl_canon h | .leaseMeas .. => execLeaseMeas_canon h
  | .czopen .. => execCzopen_canon h | .czclose .. => execCzclose_canon h | .spawn .. => execSpawn_canon h
  | .sysrd .. => execSysrd_canon h | .syswr .. => execSyswr_canon h | .dbgbrk .. => execDbgbrk_canon h
  | .dturn .. => execDturn_canon h | .systemPlateOp .. => execSystemPlateOp_canon h | .guestDecode => execGuestDecode_canon h
  | .longResultReturn .. => execLongResultReturn_canon h | .returnBufferCommit .. => execReturnBufferCommit_canon h
  | .sleepWake .. => execSleepWake_canon h | .tbarWake .. => execTbarWake_canon h
  | .queuePushComplete .. => execQueuePushComplete_canon h | .qfull .. => execQfull_canon h
  | .queuePopComplete .. => execQueuePopComplete_canon h | .portPushComplete .. => execPortPushComplete_canon h
  | .portPopComplete .. => execPortPopComplete_canon h | .drayContextStart .. => execDrayContextStart_canon h
  | .promiseTimeout .. => execPromiseTimeout_canon h | .trapEntry .. => execTrapEntry_canon h
  | .halted .. => execHalted_canon h | .rakeHaltRecord .. => execRakeHaltRecord_canon h
  | .faultRecordWrite .. => execFaultRecordWrite_canon h | .matrixOpStart .. => execMatrixOpStart_canon h
  | .kStep .. => execKStep_canon h | .matrixOpComplete .. => execMatrixOpComplete_canon h
  | .issueSelect .. => execIssueSelect_canon h | .coachAdmission .. => execCoachAdmission_canon h
  | .longWaitExit .. => execLongWaitExit_canon h | .throttleInterval .. => execThrottleInterval_canon h
  | .leaseEstimateUpdate .. => execLeaseEstimateUpdate_canon h | .timeSliceExpiry .. => execTimeSliceExpiry_canon h
  | .coachEviction .. => execCoachEviction_canon h | .coachRestore .. => execCoachRestore_canon h
  | .rakePlacement .. => execRakePlacement_canon h | .stageRebalance .. => execStageRebalance_canon h
  | .slotMove .. => execSlotMove_canon h | .ticketTurn .. => execTicketTurn_canon h
  | .registerLineFill .. => execRegisterLineFill_canon h | .l1DirtyPropagation .. => execL1DirtyPropagation_canon h
  | .accessCounterNotify .. => execAccessCounterNotify_canon h | .dramScrub .. => execDramScrub_canon h
  | .l2Scrub .. => execL2Scrub_canon h | .flowTagFailure .. => execFlowTagFailure_canon h
  | .thermalThrottle .. => execThermalThrottle_canon h | .thermalRecover .. => execThermalRecover_canon h
  | .thermalFatal => execThermalFatal_canon h | .drayHalt => execDrayHalt_canon h | .drayAdd .. => execDrayAdd_canon h
  | .draySub .. => execDraySub_canon h | .drayMul .. => execDrayMul_canon h | .drayAnd .. => execDrayAnd_canon h
  | .drayOr .. => execDrayOr_canon h | .drayXor .. => execDrayXor_canon h | .drayShl .. => execDrayShl_canon h
  | .drayShr .. => execDrayShr_canon h | .drayMin .. => execDrayMin_canon h | .drayMax .. => execDrayMax_canon h
  | .drayAddi .. => execDrayAddi_canon h | .drayLi .. => execDrayLi_canon h | .drayLui .. => execDrayLui_canon h
  | .drayLdw .. => execDrayLdw_canon h | .drayStw .. => execDrayStw_canon h | .drayBeq .. => execDrayBeq_canon h
  | .drayBne .. => execDrayBne_canon h | .drayBlt .. => execDrayBlt_canon h | .drayBge .. => execDrayBge_canon h
  | .drayJmp .. => execDrayJmp_canon h | .drayJmpLink .. => execDrayJmpLink_canon h
  | .drayJmpIndirect .. => execDrayJmpIndirect_canon h | .drayLoop .. => execDrayLoop_canon h
  | .drayArg .. => execDrayArg_canon h | .drayGset .. => execDrayGset_canon h | .drayGadv .. => execDrayGadv_canon h
  | .drayXfer .. => execDrayXfer_canon h | .drayGather .. => execDrayGather_canon h
  | .drayScatter .. => execDrayScatter_canon h | .drayFill .. => execDrayFill_canon h
  | .drayArrive .. => execDrayArrive_canon h | .draySignal .. => execDraySignal_canon h | .drayTlw .. => execDrayTlw_canon h
  | .drayPromise .. => execDrayPromise_canon h | .drayDfence .. => execDrayDfence_canon h
  | .drayStat .. => execDrayStat_canon h | .drayOpt .. => execDrayOpt_canon h
  | .drayLoadResult .. => execDrayLoadResult_canon h | .drayDataUnit .. => execDrayDataUnit_canon h
  | .hallmarkOpen .. => execHallmarkOpen_canon h | .hallmarkAbsorb .. => execHallmarkAbsorb_canon h
  | .hallmarkClose .. => execHallmarkClose_canon h | .hallmarkRecordWrite .. => execHallmarkRecordWrite_canon h
  | .msgLaunch .. => execMsgLaunch_canon h | .msgWait .. => execMsgWait_canon h | .waitPoll .. => execWaitPoll_canon h
  | .msgSignal .. => execMsgSignal_canon h | .msgNote .. => execMsgNote_canon h | .msgFence .. => execMsgFence_canon h
  | .msgPreemptSave .. => execMsgPreemptSave_canon h | .msgPreemptResume .. => execMsgPreemptResume_canon h
  | .invalidationComplete .. => execInvalidationComplete_canon h | .plateLoadComplete .. => execPlateLoadComplete_canon h
  | .createWorld .. => execCreateWorld_canon h | .destroyWorld .. => execDestroyWorld_canon h
  | .assign .. => execAssign_canon h | .reclaim .. => execReclaim_canon h | .exportPage .. => execExportPage_canon h
  | .importPage .. => execImportPage_canon h | .loadKey .. => execLoadKey_canon h | .revokeKey .. => execRevokeKey_canon h
  | .getNonce .. => execGetNonce_canon h | .debugUnlock .. => execDebugUnlock_canon h
  | .drayIllegal x => execDrayIllegal_canon (x := x) h | .hallmarkBadcmd .. => execHallmarkBadcmd_canon h
  | .ctxcmdComplete => execCtxcmdComplete_canon h | .doorbell .. => execDoorbell_canon h
  | .qerrRearm .. => execQerrRearm_canon h | .qerrTeardown .. => execQerrTeardown_canon h
  | .faultrespRetry .. => execFaultrespRetry_canon h | .faultrespFail .. => execFaultrespFail_canon h
  | .invcmd .. => execInvcmd_canon h | .platecmd .. => execPlatecmd_canon h | .debugWrite .. => execDebugWrite_canon h
  | .rakecmdResume .. => execRakecmdResume_canon h | .rakecmdKill .. => execRakecmdKill_canon h
  | .featdrvWrite .. => execFeatdrvWrite_canon h | .partcmd .. => execPartcmd_canon h
  | .ctxcmdCreate .. => execCtxcmdCreate_canon h | .ctxcmdReset .. => execCtxcmdReset_canon h
  | .ctxcmdDestroy .. => execCtxcmdDestroy_canon h | .ctrassignAssign .. => execCtrassignAssign_canon h
  | .ctrassignUnassign .. => execCtrassignUnassign_canon h | .portreq .. => execPortreq_canon h
  | .registerWrite .. => execRegisterWrite_canon h | .hostApertureAccess .. => execHostApertureAccess_canon h
  | .peerAccess .. => execPeerAccess_canon h | .atsInvalidation .. => execAtsInvalidation_canon h
  | .perstRelease .. => execPerstRelease_canon h | .dramTraining .. => execDramTraining_canon h
  | .systemPlateLoad .. => execSystemPlateLoad_canon h | .clusterSelfTest .. => execClusterSelfTest_canon h
  | .extumLinkTraining .. => execExtumLinkTraining_canon h | .ready => execReady_canon h
  | .spdmRequest .. => execSpdmRequest_canon h | .tdispRequest .. => execTdispRequest_canon h
  | .firmwareRotation => execFirmwareRotation_canon h | .debuggerHaltRequest .. => execDebuggerHaltRequest_canon h
  | .powerCapSet .. => execPowerCapSet_canon h

theorem keepWord_canon {dk : Nat} {w : BitVec 32} {o : Out} (h : CanonOut o) : CanonOut (keepWord dk w o) := by
  cases o with
  | next s =>
    show Canon (if _ then _ else _)
    split
    · exact setDray_canon h
    · exact h
  | fault => trivial
  | refused => trivial

theorem runDray_canon {s : State} {dk : Nat} (h : Canon s) : CanonOut (runDray s dk) := by
  have hserved : Canon (drayServed s dk false) := drayServed_canon h
  have hword : CanonGot (Machine.drayWord (drayServed s dk false) dk) := drayWord_canon hserved
  unfold runDray
  dsimp only
  split
  · exact drayUpset_canon hserved
  · split
    · next heq => exact keepWord_canon (exec_canon (canon_gok heq hword))
    · next heq => exact runDray_behind_canon (canon_gfault heq hword) (drayFault_canon (canon_gfault heq hword))
    · next heq => exact runDray_behind_canon (canon_gpark heq hword) (drayPark_canon (canon_gpark heq hword))
    · next heq => exact runDray_behind_canon (canon_gerror heq hword) (drayBad_canon (canon_gerror heq hword))

theorem runCoach_canon {s : State} {k : Nat} (h : Canon s) : CanonOut (runCoach s k) := by
  have hissue : Canon (issueCoach s k).1 := issueCoach_canon h
  unfold runCoach
  split
  · next heq =>
    have hs := canon_fst heq hissue
    split
    · next hmet => exact turnPast_canon (canon_some hmet (metError_canon hs))
    · exact exec_canon (turnPast_canon (touchLines_canon hs))
  · next heq => exact turnPast_canon (canon_fst heq hissue)

theorem runEvent_canon {s : State} {i : Instr} (h : Canon s) : CanonOut (runEvent s i) := by
  have hturn : Canon (turnAfter s i) := turnAfter_canon h
  unfold runEvent
  dsimp only
  split
  · split
    · exact exec_canon (takeReq_canon hturn)
    · exact exec_canon hturn
  · exact exec_canon hturn

/-- The fields that taking the work sets leave the byte memories alone, so each kind of work keeps them by the lemma of
what it runs. -/
theorem runWork_canon {s : State} {w : Work} (h : Canon s) : CanonOut (runWork s w) :=
  match w with
  | .event _ => runEvent_canon h
  | .coach _ => runCoach_canon h
  | .dray _ => runDray_canon (s := { s with turn := 2 }) h
  | .load dk => exec_canon (i := .drayLoadResult dk) (s := { s with turn := 2, dcur := dk }) h
  | .unit dk => exec_canon (i := .drayDataUnit dk) (drayServed_canon (s := { s with turn := 2 }) h)
  | .wait _ => h
  | .idle => h

theorem step_canon {s : State} (h : Canon s) : CanonOut (step s) := by
  unfold step
  split
  · trivial
  · split
    · exact ticked_canon (keyStoreError_canon h)
    · split
      · exact ticked_canon (contextReset_canon h)
      · split
        · next rest _ => exact ticked_canon (exec_canon (s := { s with sched := rest }) h)
        · exact ticked_canon (runWork_canon h)

/-- Settles O32: the canonical form is an invariant of every meaning, and of what a step does around one. -/
theorem canonicalMemories : Obligations.CanonicalMemories := fun _ _ hmem hpads hstep =>
  canon_next hstep (step_canon ⟨hmem, hpads⟩)

end Sys2Proof.Proofs
end

/-! ### What one step runs (01 R16, R17, 07 R250, R255; assumption logs 1, 9, 13 and 75) -/
section
namespace Sys2Proof.Proofs
open Sys2Proof Sys2Proof.Machine Sys2Proof.Laws

/-- With no fatal device, no error of the key store and no context to reset, the schedule decides the step. -/
theorem step_of_sched {s : State} {i : Instr} {rest : List Instr} (hrun : stopped s = false)
    (hkeys : s.upsets.contains .keys = false) (hresets : s.resets = []) (hsched : s.sched = i :: rest) :
    step s = ticked (exec i { s with sched := rest }) := by
  unfold step
  rw [hrun, hkeys, hresets, hsched]
  rfl

theorem step_of_work {s : State} {w : Work} (hrun : stopped s = false) (hkeys : s.upsets.contains .keys = false)
    (hresets : s.resets = []) (hsched : s.sched = []) (hwork : nextWork s = w) : step s = ticked (runWork s w) := by
  unfold step
  rw [hrun, hkeys, hresets, hsched, hwork]
  rfl

theorem runCoach_of_issue {s s1 : State} {k : Nat} {i : Instr} (hissue : issueCoach s k = (s1, some i))
    (hmet : metError s1 k i = none) : runCoach s k = exec i (turnPast (touchLines s1 k i) k) := by
  unfold runCoach
  rw [hissue]
  dsimp only
  rw [hmet]

theorem runDray_of_word {s s1 : State} {dk : Nat} {w : BitVec 32} (hupset : s.upsets.contains (.dray dk) = false)
    (hword : Machine.drayWord (drayServed s dk false) dk = .ok w s1) :
    runDray s dk = keepWord dk w (exec (decodeDray w) s1) := by
  have hserved : (drayServed s dk false).upsets.contains (.dray dk) = false := hupset
  unfold runDray
  dsimp only
  rw [hserved, hword]
  rfl

theorem keepWord_next_of_runs {t : State} {dk : Nat} {w : BitVec 32} (hpark : (Machine.drayOf t dk).parked = none)
    (hdrain : (Machine.drayOf t dk).drain = false) : keepWord dk w (.next t) = .next t := by
  simp [keepWord, hpark, hdrain]

@[simp] theorem noteIssue_iss (s : State) (k : Nat) : (noteIssue s k).iss = s.iss := by
  unfold noteIssue
  dsimp only
  split <;> rfl

/-- A group that fetches an operation issues the instruction that its word decodes to, and the latch names it. -/
theorem issueGroup_of_fetch {s s1 : State} {k : Nat} {grp : Mask} {ga : GAddr} {st : Nat} {pair : Option Mask} {w : Dword}
    {len n : Nat} {i : Instr} (hfetch : fetchOp s (coachOf s k) ga st = (.op w len n, s1))
    (hdecode : decodeNative w = .instr i) :
    (issueGroup s k grp ga st pair).2 = some i
      ∧ (issueGroup s k grp ga st pair).1.iss = { coach := k, group := grp, ga := ga, step := st, len := len, count := n
                                                  word := w, gunit := unitAt s (coachOf s k) ga st } := by
  unfold issueGroup
  dsimp only
  rw [hfetch]
  dsimp only
  rw [hdecode]
  exact ⟨rfl, noteIssue_iss _ k⟩

/-- Settles O17: each kind of work, from the case of the step that takes it. -/
theorem stepRunsInstruction : Obligations.StepRunsInstruction := by
  intro s hrun hkeys hresets
  refine ⟨fun i rest => step_of_sched hrun hkeys hresets, ?_, ?_, fun dk w t => keepWord_next_of_runs, ?_⟩
  · intro k s1 i hsched hwork hissue hmet
    rw [step_of_work hrun hkeys hresets hsched hwork, ← runCoach_of_issue hissue hmet]
    rfl
  · intro dk s1 w hsched hwork hupset hword
    rw [step_of_work hrun hkeys hresets hsched hwork, ← runDray_of_word (s := { s with turn := 2 }) hupset hword]
    rfl
  · exact fun k grp ga st pair w len n s1 i => issueGroup_of_fetch

end Sys2Proof.Proofs
end

/-! ### Queue registers (01 R23, 02 R49, 05 R202, R203) -/
section
namespace Sys2Proof.Proofs
open Sys2Proof Sys2Proof.Machine Sys2Proof.Laws

/-! #### The word of a 32-bit result -/

theorem loOf_setWidth (x : Word) : loOf (x.setWidth 64) = x := by
  apply BitVec.eq_of_toNat_eq
  simp [loOf]
  omega

theorem loOf_ofNat (n : Nat) : loOf (BitVec.ofNat 64 n) = BitVec.ofNat 32 n := by
  apply BitVec.eq_of_toNat_eq
  simp [loOf]

theorem loOf_and (x y : Dword) : loOf (x &&& y) = loOf x &&& loOf y := BitVec.extractLsb'_and

theorem loOf_or (x y : Dword) : loOf (x ||| y) = loOf x ||| loOf y := BitVec.extractLsb'_or

theorem loOf_xor (x y : Dword) : loOf (x ^^^ y) = loOf x ^^^ loOf y := BitVec.extractLsb'_xor

theorem loOf_not (x : Dword) : loOf (~~~x) = ~~~(loOf x) := by
  apply BitVec.eq_of_getLsbD_eq
  intro i hi
  simp [loOf, hi, show i < 64 by omega]

theorem ofInt_sub (a b : Int) : BitVec.ofInt 32 (a - b) = BitVec.ofInt 32 a - BitVec.ofInt 32 b := by
  rw [Int.sub_eq_add_neg, BitVec.ofInt_add, BitVec.ofInt_neg, BitVec.sub_eq_add_neg]

theorem ofNat_wrapNat (v : Int) : BitVec.ofNat 32 (wrapNat 32 v) = BitVec.ofInt 32 v := by
  apply BitVec.eq_of_toNat_eq
  simp [wrapNat, BitVec.toNat_ofInt]
  omega

/-- A 32-bit type reads the word itself, modulo 2^32, whichever the signedness (02 R57). -/
theorem ofInt_tyInt {ty : Nat} (hty : ty ≤ 1) (x : Word) : BitVec.ofInt 32 (tyInt ty (x.setWidth 64)) = x := by
  have hx : (x.setWidth 64).toNat = x.toNat := by simp; omega
  rcases (by omega : ty = 0 ∨ ty = 1) with rfl | rfl
  · show BitVec.ofInt 32 (sext 32 (x.setWidth 64).toNat) = x
    rw [hx, sext_toNat 32 (by decide), BitVec.ofInt_toInt]
  · show BitVec.ofInt 32 (((x.setWidth 64).toNat % 2 ^ 32 : Nat) : Int) = x
    rw [hx, Nat.mod_eq_of_lt x.isLt, BitVec.ofInt_natCast, BitVec.ofNat_toNat, BitVec.setWidth_eq]

/-- The register form of a 32-bit result is the result modulo 2^32 (02 R57). -/
theorem loOf_tyOut {ty : Nat} (hty : ty ≤ 1) (v : Int) : loOf (tyOut ty v) = BitVec.ofInt 32 v := by
  rcases (by omega : ty = 0 ∨ ty = 1) with rfl | rfl
  · show loOf (BitVec.ofNat 64 (wrapNat 32 (sext 32 (wrapNat 32 v)))) = _
    have hwrap : wrapNat 32 v = (BitVec.ofInt 32 v).toNat := by simp [wrapNat, BitVec.toNat_ofInt]
    rw [loOf_ofNat, ofNat_wrapNat, hwrap, sext_toNat 32 (by decide), BitVec.ofInt_toInt]
  · show loOf (BitVec.ofNat 64 (wrapNat 32 v)) = _
    rw [loOf_ofNat, ofNat_wrapNat]

theorem tyWide_of_le_one {ty : Nat} (hty : ty ≤ 1) : tyWide ty = false := by
  simp only [tyWide, Bool.or_eq_false_iff, beq_eq_false_iff_ne]
  omega

theorem fI_of_register {w : NOp} (hk : fKind w = 0) : fI w = false := by simp [fI, hk]

/-! #### Two-source operations of 32-bit words -/

/-- In F-R, `f` raises no flag, and its word in a lane is `g` of the words of A and B, whatever coach they are read from. -/
def WordResult (w : NOp) (f : OpCtx → Coach → Nat → Dword × Flags) (g : Word → Word → Word) : Prop :=
  ∀ c co l, c.w = w → ∃ d, f c co l = plain d ∧ loOf d = g (readWord c co (fA w) 0 l) (readWord c co (fB w) 0 l)

/-- Instruction `i` is a fixed-latency lane operation that gives each lane one word, `g` of the words of A and B (04 R112,
R118, R119). -/
structure WordOp (s : State) (i : Instr) (w : NOp) (sp : OpSpec) (g : Word → Word → Word) : Prop where
  row : nativeRow s i = some (w, sp)
  short : sp.long = false
  readsA : ∀ r, codeOf (fA w) = .q r → r ∈ sourceQueues sp w
  readsB : ∀ r, codeOf (fB w) = .q r → r ∈ sourceQueues sp w
  runs : ∃ wide f, wide = false ∧ exec i s = .next (laneOp w sp wide f s) ∧ WordResult w f g

theorem mem_sourceQueues {sp : OpSpec} {w : NOp} {field code : Nat} {o : Opnd} {r : Nat} (hmem : (field, o, code) ∈ opnds sp w)
    (hfield : field ≠ 0) (ho : o ≠ .unused) (hr : codeOf code = .q r) : r ∈ sourceQueues sp w := by
  unfold sourceQueues
  rw [List.mem_eraseDups, List.mem_filterMap]
  refine ⟨_, List.mem_filter.2 ⟨hmem, by simp [hfield]⟩, ?_⟩
  cases o with
  | unused => exact absurd rfl ho
  | cls => simp only [hr]

theorem sourceQueues_a {sp : OpSpec} {w : NOp} {r : Nat} (hk : fKind w = 0) (ho : sp.a ≠ .unused) (hr : codeOf (fA w) = .q r) :
    r ∈ sourceQueues sp w :=
  mem_sourceQueues (field := 1) (by simp [opnds, hk]) (by decide) ho hr

theorem sourceQueues_b {sp : OpSpec} {w : NOp} {r : Nat} (hk : fKind w = 0) (ho : sp.b ≠ .unused) (hr : codeOf (fB w) = .q r) :
    r ∈ sourceQueues sp w :=
  mem_sourceQueues (field := 2) (by simp [opnds, hk]) (by decide) ho hr

theorem srcA_word {c : OpCtx} {w : NOp} (hc : c.w = w) (co : Coach) (l : Nat) :
    srcA c co false l = (readWord c co (fA w) 0 l).setWidth 64 := by rw [← hc]; rfl

theorem srcB_word {c : OpCtx} {w : NOp} (hk : fKind w = 0) (hc : c.w = w) (co : Coach) (imm : Dword) (l : Nat) :
    srcB c co false imm l = (readWord c co (fB w) 0 l).setWidth 64 := by
  subst hc
  simp [srcB, fI_of_register hk, readOp]

theorem wordResult_int {w : NOp} {op : Int → Int → Int} {g : Word → Word → Word} (hk : fKind w = 0) (hty : fTy w ≤ 1)
    (hx : fOpx w = 0) (hop : ∀ a b, BitVec.ofInt 32 (op a b) = g (BitVec.ofInt 32 a) (BitVec.ofInt 32 b)) :
    WordResult w (fun c co l => plain (intResult (fTy w) (true && fOpx w % 2 == 1)
      (op (tyInt (fTy w) (srcA c co false l)) (tyInt (fTy w) (srcB c co false (immValue (fTy w) (fImm w)) l))))) g := by
  intro c co l hc
  refine ⟨_, rfl, ?_⟩
  rw [srcA_word hc, srcB_word hk hc, hx]
  show loOf (tyOut (fTy w) _) = _
  rw [loOf_tyOut hty]
  show BitVec.ofInt 32 (op _ _) = _
  rw [hop, ofInt_tyInt hty, ofInt_tyInt hty]

theorem wordResult_bit {w : NOp} {op : Dword → Dword → Dword} {g : Word → Word → Word} (hk : fKind w = 0) (hty : fTy w ≤ 1)
    (hop : ∀ a b, loOf (op a b) = g (loOf a) (loOf b)) :
    WordResult w (fun c co l => plain (op (srcA c co (tyWide (fTy w)) l)
      (srcB c co (tyWide (fTy w)) (immValue (fTy w) (fImm w)) l))) g := by
  intro c co l hc
  refine ⟨_, rfl, ?_⟩
  rw [tyWide_of_le_one hty, srcA_word hc, srcB_word hk hc, hop, loOf_setWidth, loOf_setWidth]

theorem wordResult_shift {w : NOp} {op : Nat → Nat → Nat → Nat} {g : Word → Nat → Word} (hk : fKind w = 0) (hty : fTy w ≤ 1)
    (hop : ∀ (a : Word) n, op 32 a.toNat n = (g a n).toNat) :
    WordResult w (fun c co l => plain (BitVec.ofNat 64 (op (if tyWide (fTy w) then 64 else 32) (srcA c co (tyWide (fTy w)) l).toNat
      (srcB c co false (BitVec.ofNat 64 (fImm w)) l).toNat))) (fun a b => g a b.toNat) := by
  intro c co l hc
  refine ⟨_, rfl, ?_⟩
  have hnat : ∀ x : Word, (x.setWidth 64).toNat = x.toNat := fun x => by simp; omega
  rw [tyWide_of_le_one hty, srcA_word hc, srcB_word hk hc, hnat, hnat, loOf_ofNat]
  show BitVec.ofNat 32 (op 32 _ _) = _
  rw [hop, BitVec.ofNat_toNat, BitVec.setWidth_eq]

theorem oAny_ne_unused : oAny ≠ .unused := by decide

theorem oVar_ne_unused (wide : Bool) : oVar wide ≠ .unused := by cases wide <;> decide

section
variable {s : State} {i : Instr} {w : NOp} {g : Word → Word → Word} (hk : fKind w = 0) (hty : fTy w ≤ 1)
include hk hty

theorem wordOp_of_intRow {op : Int → Int → Int} (hx : fOpx w = 0)
    (hop : ∀ a b, BitVec.ofInt 32 (op a b) = g (BitVec.ofInt 32 a) (BitVec.ofInt 32 b))
    (hrow : nativeRow s i = some (w, nativeRow.intRow w true)) (hrun : exec i s = .next (intOp2 w true (fun _ => op) s)) :
    WordOp s i w (nativeRow.intRow w true) g where
  row := hrow
  short := rfl
  readsA _ := sourceQueues_a hk oAny_ne_unused
  readsB _ := sourceQueues_b hk oAny_ne_unused
  runs := ⟨false, _, rfl, by rw [hrun]; rfl, wordResult_int hk hty hx hop⟩

theorem wordOp_of_bitRow {op : Dword → Dword → Dword} (hop : ∀ a b, loOf (op a b) = g (loOf a) (loOf b))
    (hrow : nativeRow s i = some (w, nativeRow.bitRow w)) (hrun : exec i s = .next (bitOp w op s)) :
    WordOp s i w (nativeRow.bitRow w) g where
  row := hrow
  short := rfl
  readsA _ := sourceQueues_a hk (oVar_ne_unused _)
  readsB _ := sourceQueues_b hk (oVar_ne_unused _)
  runs := ⟨_, _, tyWide_of_le_one hty, by rw [hrun]; rfl, wordResult_bit hk hty hop⟩

theorem wordOp_of_shiftRow {op : Nat → Nat → Nat → Nat} {f : Word → Nat → Word}
    (hop : ∀ (a : Word) n, op 32 a.toNat n = (f a n).toNat)
    (hrow : nativeRow s i = some (w, nativeRow.shiftRow w)) (hrun : exec i s = .next (shiftOp w op s)) :
    WordOp s i w (nativeRow.shiftRow w) (fun a b => f a b.toNat) where
  row := hrow
  short := rfl
  readsA _ := sourceQueues_a hk (oVar_ne_unused _)
  readsB _ := sourceQueues_b hk oAny_ne_unused
  runs := ⟨_, _, tyWide_of_le_one hty, by rw [hrun]; rfl, wordResult_shift hk hty hop⟩

/-- The nine operations, by the shared form of each. -/
theorem wordOp_of_mem (hx : fOpx w = 0) (hmem : (i, g) ∈ [(.iadd w, (· + ·)), (.isub w, (· - ·)), (.imul w, (· * ·)),
      (.and w, (· &&& ·)), (.or w, (· ||| ·)), (.xor w, (· ^^^ ·)), (.andn w, fun a b => a &&& ~~~b),
      (.shl w, fun a b => a <<< b.toNat), (.shr w, fun a b => a >>> b.toNat)]) : ∃ sp, WordOp s i w sp g := by
  simp only [List.mem_cons, Prod.mk.injEq, List.not_mem_nil, or_false] at hmem
  rcases hmem with ⟨rfl, rfl⟩ | ⟨rfl, rfl⟩ | ⟨rfl, rfl⟩ | ⟨rfl, rfl⟩ | ⟨rfl, rfl⟩ | ⟨rfl, rfl⟩ | ⟨rfl, rfl⟩ | ⟨rfl, rfl⟩ | ⟨rfl, rfl⟩
  · exact ⟨_, wordOp_of_intRow hk hty hx (fun a b => BitVec.ofInt_add a b) rfl rfl⟩
  · exact ⟨_, wordOp_of_intRow hk hty hx ofInt_sub rfl rfl⟩
  · exact ⟨_, wordOp_of_intRow hk hty hx BitVec.ofInt_mul rfl rfl⟩
  · exact ⟨_, wordOp_of_bitRow hk hty loOf_and rfl rfl⟩
  · exact ⟨_, wordOp_of_bitRow hk hty loOf_or rfl rfl⟩
  · exact ⟨_, wordOp_of_bitRow hk hty loOf_xor rfl rfl⟩
  · exact ⟨_, wordOp_of_bitRow hk hty (fun a b => by rw [loOf_and, loOf_not]) rfl rfl⟩
  · exact ⟨_, wordOp_of_shiftRow hk hty (fun a n => shiftLeft_toNat 32 a n _ rfl) rfl rfl⟩
  · exact ⟨_, wordOp_of_shiftRow hk hty (fun a n => shiftRight_toNat 32 a n _ rfl) rfl rfl⟩

end

/-! #### The end of an operation whose coach has changed -/

theorem laneFlags_none {en : Mask} {f : Nat → Flags} (h : ∀ l, f l = 0) : laneFlags en f = noFlags := by
  rw [funext h]
  exact laneFlags_zero en

theorem flagWord_noFlags : flagWord noFlags = 0 := by decide

theorem raiseFlags_noFlags (co : Coach) (i : Iss) : raiseFlags co i noFlags = co := by
  rw [raiseFlags_of_none (enabledBits_noFlags _), flagWord_noFlags]
  simp

/-- The coach changes by `f`, where it exists, and the group passes; no FPE is held then. -/
theorem finishGroup_modCoach {c : OpCtx} {t : State} {f : Coach → Coach} (hnone : (coachOf t c.k).fpeHeld = [])
    (hf : (f (coachOf t c.k)).fpeHeld = []) :
    finishGroup c (modCoach t c.k f) = modCoach t c.k (fun co => passLanes (f co) c.i c.grp) := by
  cases hc : tget t.coaches c.k with
  | none =>
    have hmod : ∀ g, modCoach t c.k g = t := fun g => by simp [modCoach, tmod, hc]
    unfold finishGroup
    rw [hmod, hmod, hmod, releaseFpe_nil hnone]
  | some co =>
    have hco : coachOf t c.k = co := coachOf_of_tget hc
    have hmod : ∀ g, modCoach t c.k g = setCoach t c.k (g co) := fun g => modCoach_of_tget hc g
    rw [hmod, hmod, finishGroup_coach (by rw [coachOf_setCoach, ← hco, hf]) (by rw [coachOf_setCoach, tget_setCoach]),
      coachOf_setCoach]
    simp [setCoach]

/-! #### A push of D (05 R202) -/

theorem pushEntry_queue {s : State} {co : Coach} {d r l0 : Nat} {en : Mask} {val : Nat → Nat → Word} (hd : codeOf d = .q r)
    (hlow : lowLane en = some l0) :
    pushEntry s co d en val = some (r, if qIsLane s co r then .lane ((lanesOf en).map (fun l => (l, val l 0))) en
      else .word (val l0 0)) := by
  unfold pushEntry
  rw [hd, hlow]
  dsimp only
  split <;> rfl

/-- The entry is made of the first word of each lane alone. -/
theorem pushEntry_first {s : State} {co : Coach} {d : Nat} {en : Mask} {v v' : Nat → Nat → Word} (h : ∀ l, v l 0 = v' l 0) :
    pushEntry s co d en v = pushEntry s co d en v' := by
  unfold pushEntry
  simp only [h]

theorem deliverTo_pushed {c : OpCtx} {t t1 : State} {n r : Nat} {val : Nat → Nat → Word} {fl : List Mask} {e : Entry}
    (hshort : c.long = false) (hshadow : shadowPush t (coachOf t c.k) (fD c.w) c.en = false)
    (hentry : pushEntry t (coachOf t c.k) (fD c.w) c.en val = some (r, e)) (hpush : pushReg t c.k r e = .done t1) :
    deliverTo c c.en n val fl t = finishGroup c (modCoach t1 c.k (fun co => raiseFlags co c.i fl)) := by
  unfold deliverTo
  dsimp only
  rw [hshadow, hshort, hentry]
  dsimp only
  rw [hpush]
  simp

/-- What `deliverTo_pushed` says of a lane operation that issues with nothing in its way. -/
theorem exec_of_push {s s1 : State} {i : Instr} {w : NOp} {sp : OpSpec} {wide : Bool} {f : OpCtx → Coach → Nat → Dword × Flags}
    {g : Nat → Dword × Flags} {r l0 : Nat} {e : Entry} (hrow : nativeRow s i = some (w, sp)) (hshort : sp.long = false)
    (hrun : exec i s = .next (laneOp w sp wide f s)) (hg : ∀ l, f (opCtx s w sp) (me s) l = g l) (hclear : clear s i = true)
    (hd : codeOf (fD w) = .q r) (hshadow : shadowPush s (me s) (fD w) (enOf s w) = false) (hlow : lowLane (enOf s w) = some l0)
    (he : e = if qIsLane s (me s) r then .lane ((lanesOf (enOf s w)).map (fun l => (l, loOf (g l).1))) (enOf s w)
      else .word (loOf (g l0).1))
    (hpush : pushReg s s.iss.coach r e = .done s1) :
    exec i s = .next (finishGroup (opCtx s w sp)
      (modCoach s1 s.iss.coach (fun co => raiseFlags co s.iss (laneFlags (enOf s w) (fun l => (g l).2))))) := by
  have hfun : f (opCtx s w sp) (me s) = g := funext hg
  rw [hrun, laneOp, native_of_clear hclear hrow]
  show Host.Outcome.next (deliver (opCtx s w sp) wide (f (opCtx s w sp) (me s)) s) = _
  rw [hfun]
  refine congrArg Host.Outcome.next (deliverTo_pushed hshort hshadow ?_ hpush)
  rw [he]
  exact pushEntry_queue hd hlow

/-- A push with flags of which none is enabled: FSTAT takes them, and the group passes. -/
theorem exec_of_pushes {s s1 : State} {i : Instr} {w : NOp} {sp : OpSpec} {wide : Bool}
    {f : OpCtx → Coach → Nat → Dword × Flags} {g : Nat → Dword × Flags} {r : Nat} {e : Entry}
    (h : Pushes s i w (fun l => loOf (g l).1) r e s1) (hrow : nativeRow s i = some (w, sp)) (hshort : sp.long = false)
    (hrun : exec i s = .next (laneOp w sp wide f s)) (hg : ∀ l, f (opCtx s w sp) (me s) l = g l)
    (hoff : enabledBits (coachOf s1 s.iss.coach).fmode (laneFlags (enOf s w) (fun l => (g l).2)) = 0) :
    exec i s = .next { s1 with coaches := tput s1.coaches s.iss.coach (passLanes { coachOf s1 s.iss.coach with
      fstat := (coachOf s1 s.iss.coach).fstat ||| BitVec.ofNat 32 (flagWord (laneFlags (enOf s w) (fun l => (g l).2))) }
      s.iss s.iss.group) } := by
  obtain ⟨l0, hlow, he⟩ := h.entry
  obtain ⟨hcoach, hfpe⟩ := settled_spec h.after
  rw [exec_of_push hrow hshort hrun hg h.issues h.dest h.shadow hlow he h.pushed,
    finishGroup_modCoach (c := opCtx s w sp) hfpe (by rw [raiseFlags_of_none hoff]; exact hfpe), modCoach_of_tget hcoach,
    raiseFlags_of_none hoff]
  rfl

theorem exec_of_wordOp_pushes {s s1 : State} {i : Instr} {w : NOp} {sp : OpSpec} {g : Word → Word → Word} {r : Nat} {e : Entry}
    (hop : WordOp s i w sp g)
    (h : Pushes s i w (fun l => g (regWord (me s) (fA w) 0 l) (regWord (me s) (fB w) 0 l)) r e s1) :
    exec i s = .next (passedAt s1 s.iss) := by
  obtain ⟨wide, f, -, hrun, hres⟩ := hop.runs
  choose d hd hlo using fun l => hres (opCtx s w sp) (me s) l rfl
  have hval : (fun l => g (regWord (me s) (fA w) 0 l) (regWord (me s) (fB w) 0 l)) = fun l => loOf (plain (d l)).1 :=
    funext fun l => by rw [← readWord_opCtx s w sp, ← readWord_opCtx s w sp]; exact (hlo l).symm
  have hflags : laneFlags (enOf s w) (fun l => (plain (d l)).2) = noFlags := laneFlags_none fun _ => rfl
  rw [hval] at h
  rw [exec_of_pushes h hop.row hop.short hrun hd (by rw [hflags]; exact enabledBits_noFlags _), hflags,
    flagWord_noFlags]
  simp [passedAt]

/-! #### The slot of a long operation, and a pop (02 R49, 05 R203) -/

/-- The operation of the latch as a long one, with the entries that it has popped. -/
abbrev longCtx (s : State) (w : NOp) (q : Tbl Entry) : OpCtx :=
  { k := s.iss.coach, w := w, i := s.iss, grp := s.iss.group, en := enOf s w, q := q, long := true, turn := false }

theorem opCtx_long {s : State} {w : NOp} {sp : OpSpec} (hlong : sp.long = true) : opCtx s w sp = longCtx s w [] := by
  rw [opCtx, hlong]

/-- A long operation's results, and the entry that its D pushes at the commit, wait in a slot. -/
theorem deliverTo_long {s t : State} {w : NOp} {q : Tbl Entry} {n : Nat} {val : Nat → Nat → Word} {fl : List Mask}
    (hen : enOf s w ≠ 0) (hshadow : shadowPush t (coachOf t s.iss.coach) (fD w) (enOf s w) = false)
    (hfpe : (coachOf t s.iss.coach).fpeHeld = []) :
    deliverTo (longCtx s w q) (enOf s w) n val fl t = slottedAt t s.iss
      { slotFor s w (slotCost (fD w) n) (laneWrites (fD w) n (enOf s w) val) (scalarWrites (fD w) n (enOf s w) val) fl with
        push := pushEntry t (coachOf t s.iss.coach) (fD w) (enOf s w) val } := by
  have hne : (enOf s w == 0) = false := by simpa using hen
  unfold deliverTo
  dsimp only
  rw [hshadow, hne]
  simp only [Bool.false_eq_true, if_false, Bool.and_false, if_true]
  rw [finishGroup_coach (c := longCtx s w q) (by rw [coachOf_setCoach]; exact hfpe) (by rw [coachOf_setCoach, tget_setCoach]),
    coachOf_setCoach]
  simp [setCoach, slotOf, slottedAt, slotFor]

/-- A queue register among the sources gives the popped entry's word, any other source its register's. -/
theorem readWord_popCtx {s : State} {w : NOp} {sp : OpSpec} {r : Nat} {e : Entry} {co : Coach} {code l : Nat}
    (hcode : ∀ q, codeOf code = .q q → q = r) : readWord (popCtx s w sp r e) co code 0 l = poppedWord co e code l := by
  unfold readWord poppedWord regWord
  cases hc : codeOf code with
  | q q => simp [tget, hcode q hc]
  | v _ => rfl
  | s _ => rfl
  | z => rfl
  | bad => rfl

/-- A lane operation of one word that has popped: its results wait in a slot. -/
theorem deliver_popped {s s1 : State} {w : NOp} {sp : OpSpec} {r : Nat} {e : Entry} {f : Nat → Dword × Flags} {val : Nat → Word}
    (hen : enOf s w ≠ 0) (hq : noQueue w = true) (hfpe : (coachOf s1 s.iss.coach).fpeHeld = [])
    (hf : ∀ l, ∃ d, f l = plain d ∧ loOf d = val l) :
    deliver (popCtx s w sp r e) false f s1 = slottedAt s1 s.iss (slotFor s w (slotCost (fD w) 1)
      (laneWrites (fD w) 1 (enOf s w) (fun l _ => val l)) (scalarWrites (fD w) 1 (enOf s w) (fun l _ => val l)) noFlags) := by
  have hval : ∀ l, loOf (f l).1 = val l := fun l => by obtain ⟨d, hd, hlo⟩ := hf l; rw [hd]; exact hlo
  have hflags : laneFlags (enOf s w) (fun l => (f l).2) = noFlags :=
    laneFlags_none fun l => by obtain ⟨d, hd, -⟩ := hf l; rw [hd]; rfl
  refine (deliverTo_long (q := [(r, e)]) hen (shadowPush_false hq) hfpe).trans ?_
  rw [hflags, pushEntry_none hq]
  refine congrArg (slottedAt s1 s.iss) ?_
  show slotFor s w (slotCost (fD w) 1) (laneWrites (fD w) 1 (enOf s w) _) (scalarWrites (fD w) 1 (enOf s w) _) noFlags = _
  rw [laneWrites_one (v' := fun l _ => val l) ?_, scalarWrites_one (v' := fun l _ => val l) ?_]
  all_goals exact hval

theorem exec_of_wordOp_pops {s s1 : State} {i : Instr} {w : NOp} {sp sp' : OpSpec} {g : Word → Word → Word} {r : Nat} {e : Entry}
    (hop : WordOp s i w sp' g) (h : Pops s i w sp r e s1) (hq : noQueue w = true) :
    let co := coachOf s1 s.iss.coach
    let val : Nat → Nat → Word := fun l _ => g (poppedWord co e (fA w) l) (poppedWord co e (fB w) l)
    exec i s = .next (slottedAt s1 s.iss (slotFor s w (slotCost (fD w) 1) (laneWrites (fD w) 1 (enOf s w) val)
      (scalarWrites (fD w) 1 (enOf s w) val) noFlags)) := by
  intro co val
  obtain rfl : sp' = sp := congrArg Prod.snd (Option.some.inj (hop.row.symm.trans h.row))
  obtain ⟨wide, f, rfl, hrun, hres⟩ := hop.runs
  have hin : ∀ q, q ∈ sourceQueues sp' w → q = r := fun q hmem => by rw [h.queue] at hmem; exact List.mem_singleton.1 hmem
  rw [hrun, laneOp, native_of_pops h]
  refine congrArg Host.Outcome.next (deliver_popped h.lanes hq (settled_spec h.after).2 fun l => ?_)
  obtain ⟨d, hd, hlo⟩ := hres (popCtx s w sp' r e) co l rfl
  rw [readWord_popCtx fun q hc => hin q (hop.readsA q hc), readWord_popCtx fun q hc => hin q (hop.readsB q hc)] at hlo
  exact ⟨d, hd, hlo⟩

/-! #### A move between a queue register and another (04 R122) -/

section
variable {s s1 : State} {w : NOp} {sp : OpSpec} {r : Nat} {e : Entry} (hk : fKind w = 0) (hty : fTy w = 0)
include hk hty

theorem exec_mov (hrow : nativeRow s (.mov w) = some (w, sp)) :
    exec (.mov w) s = .next (laneOp w sp false (fun c co l => plain (srcA c co false l)) s) := by
  cases hrow
  show Host.Outcome.next (laneOp w _ (tyWide (fTy w)) (fun c co l => plain (if fI w then immValue (fTy w) (fImm w)
    else srcA c co (tyWide (fTy w)) l)) s) = _
  simp only [fI_of_register hk, tyWide_of_le_one (by omega : fTy w ≤ 1), Bool.false_eq_true, if_false]

theorem sourceQueues_mov (hrow : nativeRow s (.mov w) = some (w, sp)) (ha : codeOf (fA w) = .q r) : sourceQueues sp w = [r] := by
  cases hrow
  have hwide : tyWide (fTy w) = false := tyWide_of_le_one (by omega)
  simp [sourceQueues, opnds, hk, fI_of_register hk, hwide, oVar, oAny, ha, List.filter_cons, List.eraseDups_cons]

end

/-- `native_of_pops` where nothing is said of the coach that the pop leaves. -/
theorem native_of_pop {s s1 : State} {w : NOp} {sp : OpSpec} {r : Nat} {e : Entry} (body : OpCtx → State → State)
    (hform : decodeCheck sp w (me s).nregs (qBound s (me s)) = none) (hen : enOf s w ≠ 0) (hsw : w.sw = false)
    (hroom : slotsUsed (me s) + costOf sp w ≤ 16) (hqs : sourceQueues sp w = [r]) (hown : sp.own = none)
    (hdet : isDet s (me s) = false) (hready : popState s (me s) s.iss r = .ready)
    (htaken : takePop s s.iss.coach s.iss r = some (e, s1)) :
    native w sp body s = body (popCtx s w sp r e) s1 := by
  have hlong : isLong sp w = true := by simp [isLong, hqs]
  have hfits : decide (16 < slotsUsed (me s) + costOf sp w) = false := by simpa using hroom
  have hen' : ¬ enabledOf (me s) w s.iss.group = 0#64 := hen
  unfold native
  simp [hform, hen', hsw, hfits, hlong, hqs, hown, hdet, hready, htaken, takePops, tput]

section
variable {s s1 : State} {w : NOp} {r : Nat} {e : Entry} (hk : fKind w = 0) (hty : fTy w = 0)
include hk hty

theorem mov_pushes {l0 : Nat} (hclear : clear s (.mov w) = true) (hd : codeOf (fD w) = .q r)
    (hshadow : shadowPush s (me s) (fD w) (enOf s w) = false) (hlow : lowLane (enOf s w) = some l0)
    (he : e = if qIsLane s (me s) r then .lane ((lanesOf (enOf s w)).map (fun l => (l, regWord (me s) (fA w) 0 l))) (enOf s w)
      else .word (regWord (me s) (fA w) 0 l0))
    (hpush : pushReg s s.iss.coach r e = .done s1) (hfpe : (coachOf s1 s.iss.coach).fpeHeld = []) :
    exec (.mov w) s = .next (modCoach s1 s.iss.coach (fun co => passLanes co s.iss s.iss.group)) := by
  have hval : ∀ l, loOf (plain (aVal (me s) w false l)).1 = regWord (me s) (fA w) 0 l := fun l => loOf_setWidth _
  have hflags : laneFlags (enOf s w) (fun l => (plain (aVal (me s) w false l)).2) = noFlags := laneFlags_none fun _ => rfl
  rw [exec_of_push (g := fun l => plain (aVal (me s) w false l)) rfl rfl (exec_mov hk hty rfl)
    (fun l => by rw [srcA_opCtx]) hclear hd hshadow hlow (by simp only [hval]; exact he) hpush, hflags]
  simp only [raiseFlags_noFlags]
  rw [finishGroup_modCoach (c := opCtx s w _) hfpe hfpe]

theorem mov_pops {sp : OpSpec} (hrow : nativeRow s (.mov w) = some (w, sp))
    (hform : decodeCheck sp w (me s).nregs (qBound s (me s)) = none) (hen : enOf s w ≠ 0) (hsw : w.sw = false)
    (ha : codeOf (fA w) = .q r) (hq : noQueue w = true) (hdet : isDet s (me s) = false)
    (hroom : slotsUsed (me s) + costOf sp w ≤ 16) (hready : popState s (me s) s.iss r = .ready)
    (htaken : takePop s s.iss.coach s.iss r = some (e, s1)) (hfpe : (coachOf s1 s.iss.coach).fpeHeld = []) :
    exec (.mov w) s = .next (slottedAt s1 s.iss (slotFor s w (slotCost (fD w) 1)
      (laneWrites (fD w) 1 (enOf s w) (fun l _ => entryLane e l)) (scalarWrites (fD w) 1 (enOf s w) (fun l _ => entryLane e l))
      noFlags)) := by
  have hown : sp.own = none := by cases hrow; rfl
  rw [exec_mov hk hty hrow, laneOp, native_of_pop _ hform hen hsw hroom (sourceQueues_mov hk hty hrow ha) hown hdet hready htaken]
  refine congrArg Host.Outcome.next (deliver_popped hen hq hfpe fun l => ⟨_, rfl, ?_⟩)
  rw [srcA_word rfl, loOf_setWidth, readWord_popCtx fun q hc => Code.q.inj (hc.symm.trans ha), poppedWord, ha]

end

/-! #### FADD, FSUB and FMUL that push (03 R95, 04 R125) -/

theorem floatOp2_pushes {s s1 : State} {i : Instr} {w : NOp} {f : FFmt → Nat → Bool → Nat → Nat → Nat × Flags}
    {g : Nat → Dword × Flags} {r : Nat} {e : Entry} (hrow : nativeRow s i = some (w, nativeRow.floatRow w true))
    (hrun : exec i s = .next (floatOp2 w true f s))
    (hg : g = fun l => fRes (f (tyFmt (fTy w)) (roundOf (me s) w) ((me s).fmode.getLsbD 3) (fBits (fTy w) (aVal (me s) w false l))
      (fBits (fTy w) (bVal (me s) w false (immValue (fTy w) (fImm w)) l))))
    (h : Pushes s i w (fun l => loOf (g l).1) r e s1)
    (hoff : enabledBits (coachOf s1 s.iss.coach).fmode (laneFlags (enOf s w) (fun l => (g l).2)) = 0) :
    exec i s = .next { s1 with coaches := tput s1.coaches s.iss.coach (passLanes { coachOf s1 s.iss.coach with
      fstat := (coachOf s1 s.iss.coach).fstat ||| BitVec.ofNat 32 (flagWord (laneFlags (enOf s w) (fun l => (g l).2))) }
      s.iss s.iss.group) } := by
  have hlane : exec i s = .next (laneOp w (nativeRow.floatRow w true) false (fun c co l => fRes (f (tyFmt (fTy w)) (roundOf co w)
      (ftzOf co) (fBits (fTy w) (srcA c co false l)) (fBits (fTy w) (srcB c co false (immValue (fTy w) (fImm w)) l)))) s) := hrun
  refine exec_of_pushes h hrow rfl hlane (fun l => ?_) hoff
  rw [hg, srcA_opCtx, srcB_opCtx]
  rfl

/-! #### Pushes that wait for the commit (04 R130, 05 R171, R202) -/

/-- The slot of a long operation whose D is a queue register: nothing for the registers, and the entry to push. -/
def heldPush (s t : State) (w : NOp) (val : Nat → Word) (fl : List Mask) : Slot :=
  { slotFor s w 1 [] [] fl with
    push := pushEntry t (coachOf t s.iss.coach) (fD w) (enOf s w) (fun l _ => val l) }

theorem deliverTo_heldPush {s t : State} {w : NOp} {r n : Nat} {val : Nat → Nat → Word} {fl : List Mask}
    (hd : codeOf (fD w) = .q r) (hen : enOf s w ≠ 0)
    (hshadow : shadowPush t (coachOf t s.iss.coach) (fD w) (enOf s w) = false) (hset : settled t s.iss.coach = true) :
    deliverTo (longCtx s w []) (enOf s w) n val fl t = slottedAt t s.iss (heldPush s t w (fun l => val l 0) fl) := by
  have hlane : laneWrites (fD w) n (enOf s w) val = [] := by simp [laneWrites, hd]
  have hscalar : scalarWrites (fD w) n (enOf s w) val = [] := by simp [scalarWrites, hd]
  have hcost : slotCost (fD w) n = 1 := by simp [slotCost, hd]
  rw [deliverTo_long hen hshadow (settled_spec hset).2, hlane, hscalar, hcost,
    pushEntry_first (v' := fun l _ => val l 0) fun _ => rfl]
  rfl

theorem floatOp1_heldPush {s : State} {i : Instr} {w : NOp} {r : Nat} {x : FFun}
    (hrow : nativeRow s i = some (w, nativeRow.float1Row w true true)) (hrun : exec i s = .next (floatOp1 w true true (fFun x) s))
    (hd : codeOf (fD w) = .q r) (hclear : clear s i = true)
    (hshadow : shadowPush s (me s) (fD w) (enOf s w) = false) (hset : settled s s.iss.coach = true) :
    let g := fun l => fRes (fFun x (tyFmt (fTy w)) (roundOf (me s) w) ((me s).fmode.getLsbD 3)
      (fBits (fTy w) (aVal (me s) w false l)))
    exec i s = .next (slottedAt s s.iss (heldPush s s w (fun l => loOf (g l).1) (laneFlags (enOf s w) (fun l => (g l).2)))) := by
  intro g
  have hg : (fun l => fRes (fFun x (tyFmt (fTy w)) (roundOf (me s) w) (ftzOf (me s))
      (fBits (fTy w) (srcA (opCtx s w (nativeRow.float1Row w true true)) (me s) false l)))) = g :=
    funext fun l => by rw [srcA_opCtx]; rfl
  rw [hrun, floatOp1, laneOp]
  refine congrArg Host.Outcome.next ((native_of_clear hclear hrow _).trans ?_)
  show deliver (opCtx s w (nativeRow.float1Row w true true)) false (fun l => fRes (fFun x (tyFmt (fTy w)) (roundOf (me s) w)
    (ftzOf (me s)) (fBits (fTy w) (srcA (opCtx s w (nativeRow.float1Row w true true)) (me s) false l)))) s = _
  rw [hg]
  exact deliverTo_heldPush hd (enabled_of_clear hclear hrow) hshadow hset

theorem deliverLoad_heldPush {s t : State} {w : NOp} {sp : OpSpec} {r : Nat} {tb : Tbl (List Byte)} (hlong : sp.long = true)
    (hd : codeOf (fD w) = .q r) (hen : enOf s w ≠ 0)
    (hshadow : shadowPush t (coachOf t s.iss.coach) (fD w) (enOf s w) = false) (hset : settled t s.iss.coach = true) :
    deliverLoad (opCtx s w sp) (mTy w) tb t
      = slottedAt t s.iss (heldPush s t w (fun l => loOf (tyOut (mTy w) (leNat (tgetD [] tb l) : Nat))) noFlags) := by
  rw [opCtx_long hlong]
  exact deliverTo_heldPush hd hen hshadow hset

theorem lds_heldPush {s : State} {w : NOp} {r : Nat} {rk : Rake} (hd : codeOf (fD w) = .q r) (hclear : clear s (.lds w) = true)
    (hrk : tget s.rakes (me s).rake = some rk) (hfits : fits (localOf s w) rk.window (mBytes w) = true)
    (hgood : (localOf s w).all (fun a => !padBad rk a.2 (mBytes w)) = true) :
    let t := orderCoach s s.iss.coach (mOrd w) (mAgt w) (mStg w)
    let got := (localOf s w).map (fun a => (a.1, memRead rk.pad a.2 (mBytes w)))
    shadowPush t (coachOf t s.iss.coach) (fD w) (enOf s w) = false → settled t s.iss.coach = true →
    exec (.lds w) s = .next (slottedAt t s.iss
      (heldPush s t w (fun l => loOf (tyOut (mTy w) (leNat (tgetD [] got l) : Nat))) noFlags)) := by
  intro t got hshadow hset
  have hwin : windowOf s (me s) = rk.window := by simp [windowOf, hrk]
  have hclean : (localOf s w).any (fun a => padBad rk a.2 (mBytes w)) = false := by
    rw [← Bool.not_eq_true', List.not_any_eq_all_not]
    exact hgood
  show execLds w s = _
  unfold execLds
  refine congrArg Host.Outcome.next ((native_of_clear hclear rfl _).trans ?_)
  simp only [localAddrs_opCtx, hwin, checkAccess_none (fits_check hfits), hrk, hclean, Bool.false_eq_true, if_false]
  exact deliverLoad_heldPush rfl hd (enabled_of_clear hclear rfl) hshadow hset

theorem ld_heldPush {s s1 s2 : State} {w : NOp} {r : Nat} {x : Found} {tb : Tbl (List Byte)} (hd : codeOf (fD w) = .q r)
    (hclear : clear s (.ld w) = true) (hout : (globalOf s w).all (fun a => !inWindow s (me s) a.2) = true)
    (hreach : inReach (globalOf s w) (mBytes w) = true)
    (hfind : findLanes s s.iss.coach .read (globalOf s w) Found.none = (x, s1)) (herr : x.err = none) (hbad : x.bad = [])
    (hok : x.ok ≠ [])
    (hread : readPieces (orderCoach s1 s.iss.coach (mOrd w) (mAgt w) (mStg w)) s.iss.coach (mBytes w) (mCh w == 2) (mCh w == 1)
      x.ok [] = (.ok tb, s2))
    (hshadow : shadowPush s2 (coachOf s2 s.iss.coach) (fD w) (enOf s w) = false) (hset : settled s2 s.iss.coach = true) :
    exec (.ld w) s = .next (slottedAt s2 s.iss
      (heldPush s s2 w (fun l => loOf (tyOut (mTy w) (leNat (tgetD [] tb l) : Nat))) noFlags)) := by
  have hside : sideOf s (me s) (globalOf s w) = .outside := if_pos hout
  have hsome : x.ok.isEmpty = false := by simpa using hok
  show execLd w s = _
  unfold execLd
  refine congrArg Host.Outcome.next ((native_of_clear hclear rfl _).trans ?_)
  simp only [globalAddrs_opCtx, checkAccess_none (inReach_check hreach), hside, loadGlobal, hfind, herr, hsome,
    Bool.false_eq_true, if_false, hread, hbad, parkBad_nil, badMask_nil hbad, without_zero]
  exact deliverLoad_heldPush rfl hd (enabled_of_clear hclear rfl) hshadow hset

/-! #### The order of a stage queue (05 R202, R203) -/

theorem getElem?_setAt {α : Type} {l : List α} {i : Nat} {a b : α} (h : l[i]? = some a) : (setAt l i b)[i]? = some b := by
  induction l generalizing i with
  | nil => simp at h
  | cons x l ih =>
    cases i with
    | zero => rfl
    | succ i => exact ih (by simpa using h)

theorem setQueue_of {s : State} {region qi : Nat} {r : Region} (hr : tget s.regions region = some r) (q : Queue) :
    setQueue s region qi q = { s with regions := tput s.regions region { r with queues := setAt r.queues qi q } } := by
  simp [setQueue, modRegion, tmod, hr]

section
variable {s : State} {units : List Nat} {region qi : Nat} {r : Region} {q : Queue} (hr : tget s.regions region = some r)
  (hq : r.queues[qi]? = some q) (hov : q.ovIn = q.ovOut)
include hr hq hov

/-- A queue without entries in its overflow area has none to bring in. -/
theorem refillQueue_same (fuel : Nat) : refillQueue s units region qi fuel = s := by
  cases fuel with
  | zero => rfl
  | succ fuel =>
    simp only [refillQueue, hr, hq]
    exact if_neg (by omega)

theorem pushQueue_room {e : Entry} (hroom : q.entries.length < q.depth) :
    pushQueue s units region qi e = .done (setQueue s region qi { q with entries := q.entries ++ [e] }) := by
  simp only [pushQueue, refillQueue_same hr hq hov, hr, hq]
  exact if_pos ⟨hroom, hov⟩

theorem pushQueue_full {e : Entry} (hfull : q.depth ≤ q.entries.length) (hdepth : q.ovdepth = 0) :
    pushQueue s units region qi e = .full := by
  simp only [pushQueue, refillQueue_same hr hq hov, hr, hq]
  rw [if_neg (by omega), if_neg (by omega)]

theorem popQueue_head {e : Entry} {es : List Entry} (hes : q.entries = e :: es) :
    popQueue s units region qi = some (e, setQueue s region qi { q with entries := es }) := by
  simp only [popQueue, refillQueue_same hr hq hov, hr, hq, hes]
  rw [setQueue_of hr, refillQueue_same (q := { q with entries := es }) (tget_tput_self _ _ _) (getElem?_setAt hq) hov]

end

/-! #### The obligation -/

theorem function_heldPush {s : State} {i : Instr} {w : NOp} {r : Nat} {x : FFun} (hd : codeOf (fD w) = .q r)
    (hmem : (i, x) ∈ [(.frcp w, .rcp), (.frsq w, .rsq), (.fsqrt w, .sqrt), (.fexp2 w, .exp2), (.flog2 w, .log2), (.fsin w, .sin),
      (.fcos w, .cos)])
    (hclear : clear s i = true) (hshadow : shadowPush s (me s) (fD w) (enOf s w) = false)
    (hset : settled s s.iss.coach = true) :
    let g := fun l => fRes (fFun x (tyFmt (fTy w)) (roundOf (me s) w) ((me s).fmode.getLsbD 3)
      (fBits (fTy w) (aVal (me s) w false l)))
    exec i s = .next (slottedAt s s.iss (heldPush s s w (fun l => loOf (g l).1) (laneFlags (enOf s w) (fun l => (g l).2)))) := by
  simp only [List.mem_cons, Prod.mk.injEq, List.not_mem_nil, or_false] at hmem
  rcases hmem with ⟨rfl, rfl⟩ | ⟨rfl, rfl⟩ | ⟨rfl, rfl⟩ | ⟨rfl, rfl⟩ | ⟨rfl, rfl⟩ | ⟨rfl, rfl⟩ | ⟨rfl, rfl⟩
  all_goals exact floatOp1_heldPush rfl rfl hd hclear hshadow hset

/-- Settles O21: pushes and pops by the shared end of lane operations, held pushes by the slot of a long one, and the order
of a stage queue by its entries. -/
theorem queueRegisters : Obligations.QueueRegisters := by
  refine ⟨?_, ?_, ?_, ?_, ?_, ?_⟩
  · intro s w r l0 e s1 hclear hk hty hd _ hshadow hlow a he hpush hfpe
    exact mov_pushes hk hty hclear hd hshadow hlow he hpush hfpe
  · rintro s _ w sp r e s1 rfl hrow _ hform hen hsw hk hty ha hq hdet hroom hready htaken hfpe val co sl
    exact mov_pops hk hty hrow hform hen hsw ha hq hdet hroom hready htaken hfpe
  · intro w i g hk hty hx hmem
    refine ⟨fun s r e s1 h => ?_, fun s sp r e s1 h hq => ?_⟩
    · obtain ⟨sp, hop⟩ := wordOp_of_mem (s := s) hk hty hx hmem
      exact exec_of_wordOp_pushes hop h
    · obtain ⟨sp', hop⟩ := wordOp_of_mem (s := s) hk hty hx hmem
      exact exec_of_wordOp_pops hop h hq
  · intro s w i g r e s1 rm z f a b hmem h co fl hoff
    simp only [List.mem_cons, Prod.mk.injEq, List.not_mem_nil, or_false] at hmem
    rcases hmem with ⟨rfl, hg⟩ | ⟨rfl, hg⟩ | ⟨rfl, hg⟩
    all_goals exact floatOp2_pushes rfl rfl hg h hoff
  · intro s w r hd
    refine ⟨fun i x hmem hclear ⟨hshadow, hset⟩ => function_heldPush hd hmem hclear hshadow hset, ?_, ?_⟩
    · intro rk hclear hrk _ n addrs t hfits hgood ⟨hshadow, hset⟩
      exact lds_heldPush hd hclear hrk hfits hgood hshadow hset
    · intro x s1 t s2 hclear _ n addrs hout hreach hfind herr hbad hok hread ⟨hshadow, hset⟩
      exact ld_heldPush hd hclear hout hreach hfind herr hbad hok hread hshadow hset
  · intro s units region qi r q e hr hq hov
    refine ⟨fun hroom => ?_, pushQueue_full hr hq hov, fun x xs hes => ?_⟩
    · rw [pushQueue_room hr hq hov hroom, setQueue_of hr]
    · rw [popQueue_head hr hq hov hes, setQueue_of hr]

end Sys2Proof.Proofs
end

/-! ### Native words and their instructions (02 R41, R42, R62, R63) -/
section
namespace Sys2Proof.Proofs
open Sys2Proof Sys2Proof.Machine Sys2Proof.Laws

/-! #### The fields of an encoded word -/

/-- The formats that a major opcode can show (02 R42): F-R, and beside it F-L or F-I. -/
def formatFits (op : Nat) (w : NOp) : Bool := if isLongOp op then longFmt w else shortFmt w

theorem isLongOp_of_fi {op : Nat} {w : NOp} {d a : BitVec 8} {xs : BitVec 9} {imm : BitVec 24} (hfmt : w.fmt = .fi d a xs imm)
    (hfits : formatFits op w = true) : isLongOp op = false := by
  by_contra hlong
  simp [formatFits, hlong, longFmt, hfmt] at hfits

theorem isLongOp_of_fl {op : Nat} {w : NOp} {d : BitVec 8} {xs : BitVec 9} {imm : BitVec 32} (hfmt : w.fmt = .fl d xs imm)
    (hfits : formatFits op w = true) : isLongOp op = true := by
  by_contra hshort
  simp [formatFits, hshort, shortFmt, hfmt] at hfits

/-- A field of a word, from its bits. -/
theorem extractLsb'_eq_of_getLsbD {n : Nat} {x : BitVec 64} {f : BitVec n} {k : Nat}
    (h : ∀ i < n, x.getLsbD (k + i) = f.getLsbD i) : x.extractLsb' k n = f := by
  apply BitVec.eq_of_getLsbD_eq
  intro i hi
  simp [hi, h i hi]

/-- From bit 50 on, an encoded word holds its opcode and the common header, whatever its format (02 R41). -/
theorem nativeWord_header {op k : Nat} {w : NOp} (hk : 50 ≤ k) : (nativeWord op w).getLsbD k
    = (BitVec.ofNat 8 op ++ BitVec.ofBool w.sw ++ w.pm ++ BitVec.ofBool w.pn).getLsbD (k - 50) := by
  obtain ⟨sw, pm, pn, fmt⟩ := w
  cases fmt <;> (simp only [nativeWord, BitVec.getLsbD_append]; grind)

section
variable {op : Nat} {w : NOp}

theorem opcode_nativeWord : (nativeWord op w).extractLsb' 56 8 = BitVec.ofNat 8 op := by
  refine extractLsb'_eq_of_getLsbD fun i hi => ?_
  rw [nativeWord_header (by omega)]
  simp only [BitVec.getLsbD_append]
  grind

theorem opOf_nativeWord (hop : op < 256) : opOf (nativeWord op w) = op := by
  rw [opOf, opcode_nativeWord, BitVec.toNat_ofNat]
  omega

theorem sw_nativeWord : (nativeWord op w).getLsbD 55 = w.sw := by
  rw [nativeWord_header (by omega)]
  simp only [BitVec.getLsbD_append]
  simp

theorem pm_nativeWord : (nativeWord op w).extractLsb' 51 4 = w.pm := by
  refine extractLsb'_eq_of_getLsbD fun i hi => ?_
  rw [nativeWord_header (by omega)]
  simp only [BitVec.getLsbD_append]
  grind

theorem pn_nativeWord : (nativeWord op w).getLsbD 50 = w.pn := by
  rw [nativeWord_header (by omega)]
  simp only [BitVec.getLsbD_append]
  simp

/-- Bit 49, IM, is 0 in F-R alone (02 R42). -/
theorem im_nativeWord : (nativeWord op w).getLsbD 49 = !isFr w := by
  obtain ⟨sw, pm, pn, fmt⟩ := w
  cases fmt <;> (simp only [nativeWord, BitVec.getLsbD_append]; simp [isFr])

theorem fmt_nativeWord (hop : op < 256) (hfits : formatFits op w = true) : (NOp.ofWord (nativeWord op w)).fmt = w.fmt := by
  simp only [NOp.ofWord, im_nativeWord, opOf_nativeWord hop]
  obtain ⟨sw, pm, pn, fmt⟩ := w
  cases fmt
  case' fr =>
    simp only [isFr, Bool.not_true, Bool.false_eq_true, if_false, Fmt.fr.injEq]
    refine ⟨?_, ?_, ?_, ?_, ?_⟩
  case' fi =>
    simp only [isFr, Bool.not_false, if_true, isLongOp_of_fi rfl hfits, Bool.false_eq_true, if_false, Fmt.fi.injEq]
    refine ⟨?_, ?_, ?_, ?_⟩
  case' fl =>
    simp only [isFr, Bool.not_false, if_true, isLongOp_of_fl rfl hfits, Fmt.fl.injEq]
    refine ⟨?_, ?_, ?_⟩
  all_goals
    refine extractLsb'_eq_of_getLsbD fun i hi => ?_
    simp only [nativeWord, BitVec.getLsbD_append]
    grind

theorem ofWord_nativeWord (hop : op < 256) (hfits : formatFits op w = true) : NOp.ofWord (nativeWord op w) = w := by
  have hfmt := fmt_nativeWord hop hfits
  have hhead : NOp.ofWord (nativeWord op w) = { w with fmt := (NOp.ofWord (nativeWord op w)).fmt } := by
    simp only [NOp.ofWord, sw_nativeWord, pm_nativeWord, pn_nativeWord]
  rw [hhead, hfmt]

end

/-! #### The opcode of a well-formed instruction -/

/-- What encoding an instruction gives: an opcode below those of the system plate, with a format that it can show, that the map of
02 R62 takes back to the instruction. -/
structure Encodes (op : Nat) (w : NOp) (i : Instr) : Prop where
  below : op < 0xE0
  format : formatFits op w = true
  back : decodeOp op w = .instr i

theorem fmt_of_isFl {w : NOp} (h : isFl w = true) : ∃ d xs imm, w.fmt = .fl d xs imm := by
  unfold isFl at h
  split at h
  · exact ⟨_, _, _, ‹_›⟩
  · contradiction

theorem fmt_of_isFr {w : NOp} (h : isFr w = true) : ∃ d a b c x, w.fmt = .fr d a b c x := by
  unfold isFr at h
  split at h
  · exact ⟨_, _, _, _, _, ‹_›⟩
  · contradiction

theorem encodes_sleep {w : NOp} (h : isFl w = true) : Encodes 0x08 w (.sleep w) := by
  obtain ⟨d, xs, imm, hfmt⟩ := fmt_of_isFl h
  exact ⟨by decide, show longFmt w = true by simp [longFmt, hfmt], show decodeSleep w = _ by simp [decodeSleep, hfmt]⟩

theorem encodes_sleepBar {w : NOp} (h : isFr w = true) : Encodes 0x08 w (.sleepBar w) := by
  obtain ⟨d, a, b, c, x, hfmt⟩ := fmt_of_isFr h
  exact ⟨by decide, show longFmt w = true by simp [longFmt, hfmt], show decodeSleep w = _ by simp [decodeSleep, hfmt]⟩

/-- One opcode for each row, but for the rows that a format or a sub-function of one opcode tells apart (04 R150, 05 R164, R205,
R209, 06 R243). -/
theorem encodes_of_nativeOf {i : Instr} {op : Nat} {w : NOp} (hwf : i.wf = true) (h : nativeOf i = some (op, w)) :
    Encodes op w i := by
  cases i with
  | sleep v => cases h; exact encodes_sleep hwf
  | sleepBar v => cases h; exact encodes_sleepBar hwf
  | spr v | sprWr v =>
    cases h
    obtain ⟨hfmt, hwr⟩ := Bool.and_eq_true_iff.1 hwf
    exact ⟨by decide, hfmt, show decodeSpr w = _ by simp_all [decodeSpr]⟩
  | leaseDecl v | leaseMeas v =>
    cases h
    obtain ⟨hfmt, hmeas⟩ := Bool.and_eq_true_iff.1 hwf
    exact ⟨by decide, hfmt, show decodeLease w = _ by simp_all [decodeLease]⟩
  | qctlOpen v | qctlClose v | qctlDrain v =>
    cases h
    obtain ⟨hfmt, hfn⟩ := Bool.and_eq_true_iff.1 hwf
    exact ⟨by decide, hfmt, show decodeQctl w = _ by simp [decodeQctl, eq_of_beq hfn]⟩
  | mverRead v | mverAcq v | mverRel v | mverWait v =>
    cases h
    obtain ⟨hfmt, hfn⟩ := Bool.and_eq_true_iff.1 hwf
    exact ⟨by decide, hfmt, show decodeMver w = _ by simp [decodeMver, eq_of_beq hfn]⟩
  | _ => cases h <;> exact ⟨by decide, hwf, rfl⟩

theorem decodeNative_of_lt {x : BitVec 64} (h : opOf x < 0xE0) : decodeNative x = decodeOp (opOf x) (NOp.ofWord x) :=
  if_neg (by omega)

/-- Settles O14: the fields come back from the word, and the opcode from the instruction that the map gives it. -/
theorem nativeRoundTrip : Obligations.NativeRoundTrip := by
  refine ⟨fun i op w hwf hof => ?_, fun w hlo hhi => if_pos ⟨hlo, hhi⟩⟩
  obtain ⟨hbelow, hformat, hback⟩ := encodes_of_nativeOf hwf hof
  have hop : op < 256 := by omega
  have hopc : opOf (nativeWord op w) = op := opOf_nativeWord hop
  refine ⟨hop, ?_⟩
  rw [decodeNative_of_lt (by rwa [hopc]), hopc, ofWord_nativeWord hop hformat, hback]

end Sys2Proof.Proofs
end

/-! ### Words that are refused (02 R61, R62, 07 R256, 11 R403, R404) -/
section
namespace Sys2Proof.Proofs
open Sys2Proof Sys2Proof.Machine Sys2Proof.Laws

/-! #### The dashes of the map -/

/-- The major opcodes that the map of 02 R62 marks with a dash. -/
def isDash (op : Nat) : Bool :=
  decide ((0x0A ≤ op ∧ op ≤ 0x0F) ∨ (0x2F ≤ op ∧ op ≤ 0x3F) ∨ (0x57 ≤ op ∧ op ≤ 0x6F) ∨ (0x77 ≤ op ∧ op ≤ 0x7F)
    ∨ (0x8B ≤ op ∧ op ≤ 0x8F) ∨ (0xA0 ≤ op ∧ op ≤ 0xAF) ∨ (0xBC ≤ op ∧ op ≤ 0xBF) ∨ (0xC9 ≤ op ∧ op ≤ 0xCF)
    ∨ (0xDA ≤ op ∧ op ≤ 0xDF) ∨ op = 0xFF)

/-- The decoder finds no instruction at the opcode. -/
def isUnassigned : Decoded → Bool
  | .unassigned => true
  | _ => false

theorem isUnassigned_iff {d : Decoded} : isUnassigned d = true ↔ d = .unassigned := by
  cases d <;> simp [isUnassigned]

@[simp] theorem isUnassigned_instr (i : Instr) : isUnassigned (.instr i) = false := rfl

@[simp] theorem isUnassigned_decodeSleep (w : NOp) : isUnassigned (decodeSleep w) = false := by
  unfold decodeSleep
  split <;> rfl

@[simp] theorem isUnassigned_decodeSpr (w : NOp) : isUnassigned (decodeSpr w) = false := by
  unfold decodeSpr
  split <;> rfl

@[simp] theorem isUnassigned_decodeQctl (w : NOp) : isUnassigned (decodeQctl w) = false := by
  unfold decodeQctl
  split <;> rfl

@[simp] theorem isUnassigned_decodeMver (w : NOp) : isUnassigned (decodeMver w) = false := by
  unfold decodeMver
  split <;> rfl

@[simp] theorem isUnassigned_decodeLease (w : NOp) : isUnassigned (decodeLease w) = false := by
  unfold decodeLease
  split <;> rfl

/-- Whether an opcode is assigned does not depend on the rest of its word. -/
theorem isUnassigned_decodeOp_congr (op : Nat) (v w : NOp) : isUnassigned (decodeOp op v) = isUnassigned (decodeOp op w) := by
  unfold decodeOp
  split <;> simp

/-- The operation word whose fields are all 0. -/
def zeroOp : NOp := { sw := false, pm := 0, pn := false, fmt := .fr 0 0 0 0 0 }

/-- The map of 02 R62, row by row and column by column; the system plate's opcodes, from 0xE0 to 0xFE, are not of it. -/
theorem isUnassigned_decodeOp_zeroOp : ∀ row < 16, ∀ col < 16, (row < 14 ∨ row = 15 ∧ col = 15) →
    isUnassigned (decodeOp (16 * row + col) zeroOp) = isDash (16 * row + col) := by
  decide

theorem isUnassigned_decodeOp {op : Nat} (hop : op < 256) (hmap : ¬ (0xE0 ≤ op ∧ op ≤ 0xFE)) (w : NOp) :
    isUnassigned (decodeOp op w) = isDash op := by
  have h := isUnassigned_decodeOp_zeroOp (op / 16) (by omega) (op % 16) (by omega) (by omega)
  rw [Nat.div_add_mod] at h
  rw [isUnassigned_decodeOp_congr op w zeroOp, h]

theorem opOf_lt (w : BitVec 64) : opOf w < 256 := (w.extractLsb' 56 8).isLt

theorem isDash_of_system {op : Nat} (hlo : 0xE0 ≤ op) (hhi : op ≤ 0xFE) : isDash op = false := by
  simp only [isDash, decide_eq_false_iff_not]
  omega

theorem decodeNative_unassigned_iff (w : BitVec 64) : decodeNative w = .unassigned ↔ isDash (opOf w) = true := by
  by_cases hsys : 0xE0 ≤ opOf w ∧ opOf w ≤ 0xFE
  · simp [decodeNative, hsys, isDash_of_system hsys.1 hsys.2]
  · rw [decodeNative, if_neg hsys, ← isUnassigned_iff, isUnassigned_decodeOp (opOf_lt w) hsys]

theorem decodeDray_of_le {w : BitVec 32} (h : 0x24 ≤ dOpc w) : decodeDray w = .drayIllegal w := by
  unfold decodeDray
  split
  any_goals omega
  rfl

/-! #### What a refused word does -/

/-- A group that fetches an unassigned word issues nothing: it takes ILLEGAL OPCODE, with the latch naming it. -/
theorem issueGroup_of_unassigned {s s1 : State} {k : Nat} {grp : Mask} {ga : GAddr} {st : Nat} {pair : Option Mask} {w : Dword}
    {len n : Nat} (hfetch : fetchOp s (coachOf s k) ga st = (.op w len n, s1)) (hdecode : decodeNative w = .unassigned) :
    (issueGroup s k grp ga st pair).2 = none ∧ ∃ s2, (issueGroup s k grp ga st pair).1 = rejectWord s2 iOpcode
      ∧ s2.iss = { coach := k, group := grp, ga := ga, step := st, len := len, count := n, word := w
                   gunit := unitAt s (coachOf s k) ga st } := by
  unfold issueGroup
  dsimp only
  rw [hfetch]
  dsimp only
  rw [hdecode]
  exact ⟨rfl, _, rfl, noteIssue_iss _ k⟩

/-- 02 R61: with a lane enabled, a failed decode check is the operation's only effect. -/
theorem native_of_decodeCheck {s : State} {w : NOp} {sp : OpSpec} {sub fieldNo : Nat}
    (hcheck : decodeCheck sp w (me s).nregs (qBound s (me s)) = some (sub, fieldNo)) (hen : enOf s w ≠ 0)
    (body : OpCtx → State → State) : native w sp body s = illegal s (enOf s w) sub fieldNo := by
  unfold native
  dsimp only
  rw [hcheck]
  exact if_pos (.inl hen)

theorem illegal_of_enabled {s : State} {m : Mask} {sub fieldNo : Nat} (hm : m ≠ 0) :
    illegal s m sub fieldNo = raiseTrap s s.iss.coach (opTrap s.iss 1 sub m m [(64, 1, fieldNo)]) := by
  unfold illegal
  rw [if_neg hm]

/-- Settles O16: the map is read opcode by opcode, and every native operation makes its decode checks before anything else. -/
theorem refusedEncodings : Obligations.RefusedEncodings := by
  refine ⟨⟨fun w => ?_, ?_, fun w => decodeDray_of_le⟩, ?_⟩
  · exact (decodeNative_unassigned_iff w).trans decide_eq_true_iff
  · intro s k grp ga st pair w len n s1 hfetch hdash
    have hdecode : decodeNative w = .unassigned := (decodeNative_unassigned_iff w).2 (decide_eq_true hdash)
    obtain ⟨hnone, s2, hreject, hiss⟩ := issueGroup_of_unassigned (grp := grp) (pair := pair) hfetch hdecode
    exact ⟨hnone, s2, hreject, by rw [hiss], by rw [hiss], by rw [hiss], by rw [hiss]⟩
  · intro s i w sp sub fieldNo hrow hcheck hen
    obtain ⟨body, hexec⟩ := issues hrow
    rw [hexec, native_of_decodeCheck hcheck hen, illegal_of_enabled hen]
    rfl

/-! ### An operation that no lane runs (01 R16, R30, 02 R48, R61) -/

/-- 02 R48: whether or not its checks pass, an unmarked operation with no lane enabled is passed. -/
theorem native_of_noLane {s : State} {w : NOp} {sp : OpSpec} (hen : enOf s w = 0) (hsw : w.sw = false)
    (body : OpCtx → State → State) : native w sp body s
      = releaseFpe (modCoach s s.iss.coach (fun co => passLanes co s.iss s.iss.group)) s.iss.coach s.iss := by
  unfold native
  dsimp only
  split
  · exact if_neg (by simp [hen, hsw])
  · rw [hsw]
    exact if_pos hen

theorem releaseFpe_pass {s : State} (hco : tget s.coaches s.iss.coach = some (me s)) (hfpe : (me s).fpeHeld = []) :
    releaseFpe (modCoach s s.iss.coach (fun co => passLanes co s.iss s.iss.group)) s.iss.coach s.iss = passed s := by
  rw [modCoach_of_tget hco]
  exact releaseFpe_nil (by rw [coachOf_setCoach, passLanes_fpeHeld, hfpe])

theorem passLanes_lane {co : Coach} {i : Iss} {m : Mask} {l : Nat} {x : Lane} (hx : co.lanes[l]? = some x) :
    (passLanes co i m).lanes[l]? = some (if m.getLsbD l then x.count.past co.orderNext i else x) := by
  unfold passLanes modLanes
  rw [mapFrom_get _ _ _ _ _ hx, Nat.zero_add]

/-- Settles O20: with no lane enabled `native` comes to the group's passing, and passing is lane by lane. -/
theorem passingOver : Obligations.PassingOver := by
  refine ⟨?_, ?_⟩
  · intro s i w sp hrow hen hsw hfpe hco
    obtain ⟨body, hexec⟩ := issues hrow
    rw [hexec, native_of_noLane hen hsw, releaseFpe_pass hco hfpe]
  · intro co i m l x hx y
    have hy : y = if m.getLsbD l then x.count.past co.orderNext i else x := by
      show ((passLanes co i m).lanes[l]?).getD Lane.absent = _
      rw [passLanes_lane hx, Option.getD_some]
    refine ⟨fun hout => by rw [hy, hout]; rfl, fun hin => ?_⟩
    rw [hin] at hy
    have hpast : y = x.count.past co.orderNext i := hy
    by_cases hstep : i.step + 1 < i.count
    · have hlane : y = { x.count with step := i.step + 1 } := by rw [hpast, Lane.past, if_pos hstep]
      rw [hlane]
      exact ⟨rfl, rfl, rfl, fun _ => ⟨rfl, rfl⟩, fun h => absurd hstep h⟩
    · have hlane : y = x.count.goto co.orderNext (i.ga + BitVec.ofNat 57 i.len) := by rw [hpast, Lane.past, if_neg hstep]
      rw [hlane]
      exact ⟨rfl, rfl, rfl, fun h => absurd h hstep, fun _ => ⟨rfl, rfl⟩⟩

end Sys2Proof.Proofs
end

/-! ### Results, commits, the end of waits, and stalled pushes and pops (02 R50, 05 R165, R194, R202-R206) -/
section
namespace Sys2Proof.Proofs
open Sys2Proof Sys2Proof.Machine Sys2Proof.Laws

/-! #### Long results and the commit (02 R50) -/

/-- The coach after its commit, whose lanes wait at no marked operation any more. -/
def unmarked (s : State) (k : Nat) : Coach :=
  { coachOf (commitAll s k).2 k with stalls := (coachOf (commitAll s k).2 k).stalls.filter (fun x => x.kind != .marker) }

section
variable {s : State} {k : Nat} {co : Coach} (hco : tget s.coaches k = some co)
include hco

theorem longResultReturn_slot {slot : Nat} {sl : Slot} (hsl : co.rbuf[slot]? = some sl) (hcpy : sl.cpy = none)
    (htile : sl.tile = none) : exec (.longResultReturn k slot) s
      = .next (setCoach s k { co with rbuf := co.rbuf.set slot { sl with returned := true } }) := by
  show execLongResultReturn k slot s = _
  unfold execLongResultReturn
  rw [modCoach_of_tget hco, modAt_set _ _ _ _ hsl, hcpy, htile]
  rfl

theorem returnBufferCommit_marked {st : Stall} (hmark : marked co = some st) (hret : allReturned co = true)
    (htrap : co.trap = none) : exec (.returnBufferCommit k) s = .next (
      match commitFpe (unmarked s k) co.rbuf (commitAll s k).1 with
      | none => setCoach (commitAll s k).2 k (unmarked s k)
      | some t => if st.step = 0 then raiseTrap (setCoach (commitAll s k).2 k (unmarked s k)) k t
          else setCoach (commitAll s k).2 k (holdFpe (unmarked s k) st.lanes { t with opaddr := st.ga })) := by
  show execReturnBufferCommit k s = _
  unfold execReturnBufferCommit
  rw [coachOf_of_tget hco]
  dsimp only
  rewrite [hmark, hret, htrap]
  rfl

section
variable {st : Stall} (hmark : marked co = some st) (hret : allReturned co = true) (htrap : co.trap = none)
include hmark hret htrap

theorem returnBufferCommit_of_noFpe (hnone : commitFpe (unmarked s k) co.rbuf (commitAll s k).1 = none) :
    exec (.returnBufferCommit k) s = .next (setCoach (commitAll s k).2 k (unmarked s k)) := by
  rw [returnBufferCommit_marked hco hmark hret htrap]
  simp only [hnone]

/-- An FPE of the commit is taken before the marked operation, or held to the end of its expansion (08 R313). -/
theorem returnBufferCommit_of_fpe {t : Trap} (hsome : commitFpe (unmarked s k) co.rbuf (commitAll s k).1 = some t) :
    exec (.returnBufferCommit k) s = .next (if st.step = 0 then raiseTrap (setCoach (commitAll s k).2 k (unmarked s k)) k t
      else setCoach (commitAll s k).2 k (holdFpe (unmarked s k) st.lanes { t with opaddr := st.ga })) := by
  rw [returnBufferCommit_marked hco hmark hret htrap]
  simp only [hsome]

end

end

/-! #### The end of a wait (05 R165, R194) -/

theorem leastBy_id_of_least {l : List Nat} {t : Nat} (hmem : t ∈ l) (hle : ∀ u ∈ l, t ≤ u) : leastBy id l = some t := by
  cases h : leastBy id l with
  | none => simp [(leastBy_eq_none id l).1 h] at hmem
  | some u =>
    obtain ⟨humem, hule⟩ := leastBy_spec id l u h
    exact congrArg some (Nat.le_antisymm (hule t hmem) (hle u humem))

theorem sleepWake_resident {s : State} {k : Nat} {co : Coach} (hco : tget s.coaches k = some co) {t : Nat}
    (hres : isResident s k = true) (hmem : t ∈ wakeTimes co) (hle : ∀ u ∈ wakeTimes co, t ≤ u) :
    exec (.sleepWake k) s = .next (wakeReady (clockTo s (coreOf co) t) k) := by
  show execSleepWake k s = _
  unfold execSleepWake
  rw [hres, coachOf_of_tget hco]
  dsimp only
  rw [leastBy_id_of_least hmem hle]
  rfl

/-! #### Stalled pushes (05 R202, R206) -/

section
variable {s : State} {k : Nat} {co : Coach} (hco : tget s.coaches k = some co) (hres : isResident s k = true)
include hco hres

theorem queuePushComplete_resident {st : Stall} {q : Nat} {e : Entry} {d : Nat} (hst : pushStall co = some (st, q, e, d)) :
    exec (.queuePushComplete k) s = .next (tryPush s k st q e s) := by
  show execQueuePushComplete k s = _
  unfold execQueuePushComplete
  rw [coachOf_of_tget hco, hst]
  dsimp only
  rw [hres]
  rfl

/-- The state in which a push that has found no space by its deadline `d` takes QFULL (05 R202, 11 R408). -/
def qfullTaken (s : State) (k : Nat) (co : Coach) (st : Stall) (q : Nat) (e : Entry) (d : Nat) : State :=
  let commit := st.lanes == BitVec.allOnes 64
  let m := if commit then st.opLanes else stallLanesNow co st
  let word := if commit then st.opword else ((lowLane m).map (fun l => (laneOf co l).word)).getD 0
  raiseTrap (modCoach (clockTo s (coreOf co) d) k (fun co => { co with stalls := co.stalls.erase st })) k
    { cls := 8, sub := 0, step := st.step, tmask := m, rmask := none, move := 0, moveTo := 0
      moveCounts := false, opword := word, opaddr := st.ga, area := qfullArea q e, commit := commit }

theorem qfull_resident {st : Stall} {q : Nat} {e : Entry} {d : Nat} (hst : pushStall co = some (st, q, e, d))
    (hdet : isDet s co = false) : exec (.qfull k) s = .next (tryPush s k st q e (qfullTaken s k co st q e d)) := by
  show execQfull k s = _
  unfold execQfull
  rw [coachOf_of_tget hco]
  dsimp only
  rw [hst]
  dsimp only
  rw [hres, hdet]
  rfl

theorem portPushComplete_done {st : Stall} {q : Nat} {e : Entry} {s1 : State} (hst : portPushStall co = some (st, q, e))
    (hpush : pushReg s k q e = .done s1) : exec (.portPushComplete k) s = .next (passPush s1 k st) := by
  show execPortPushComplete k s = _
  unfold execPortPushComplete
  rw [coachOf_of_tget hco]
  dsimp only
  rw [hst]
  dsimp only
  rw [hres, hpush]
  rfl

end

section
variable {s : State} {k q : Nat} {st : Stall} {e : Entry} {full : State}

theorem tryPush_done {s1 : State} (h : pushReg s k q e = .done s1) : tryPush s k st q e full = passPush s1 k st := by
  unfold tryPush
  rw [h]

theorem tryPush_full (h : pushReg s k q e = .full) : tryPush s k st q e full = full := by
  unfold tryPush
  rw [h]

theorem tryPush_xlat {x : XErr} {va : Nat} {s1 : State} (h : pushReg s k q e = .xlat x va s1) :
    tryPush s k st q e full = parkLanes s1 k
      (if st.lanes = BitVec.allOnes 64 then activeSet (coachOf s k) else stallLanesNow (coachOf s k) st) va x 2 true := by
  unfold tryPush
  rw [h]

end

/-! #### Stalled pops (05 R203, R204, R206) -/

/-- The stalled pop gets its entry. -/
def popFilled (st : Stall) (q : Nat) (e : Entry) (co : Coach) : Coach :=
  { co with stalls := co.stalls.map (fun x => if x = st then { x with kind := .pop q (some e) } else x) }

section
variable {s : State} {k q : Nat} {co : Coach} {st : Stall} {before after : List Stall} (hco : tget s.coaches k = some co)
  (hres : isResident s k = true) (hstalls : co.stalls = before ++ st :: after) (hkind : st.kind = .pop q none)
include hco hres hstalls hkind

theorem queuePopComplete_filled {qi : Nat} {x : Queue} {e : Entry} {s1 : State} (hq : q < 8)
    (hbefore : ∀ x ∈ before, ∀ p, x.kind = .pop p none → 8 ≤ p) (hbound : boundQueue s co q = some (qi, x))
    (hpop : popQueue s (coreUnits (coreOf co)) co.region qi = some (e, s1)) : exec (.queuePopComplete k) s
      = .next (modCoach (acquireGlobal s1 (l1Unit s1 (coreOf co)) co.ctx 4) k (popFilled st q e)) := by
  show execQueuePopComplete k s = _
  unfold execQueuePopComplete
  rw [hres, fillPop_at hco hstalls hkind (decide_eq_true hq)
    (fun x hx p hp => decide_eq_false (Nat.not_lt.2 (hbefore x hx p hp)))]
  dsimp only
  rw [coachOf_of_tget hco, hbound]
  dsimp only
  rw [hpop]
  rfl

theorem portPopComplete_filled {pk : Nat} {p : Port} {r : Word} {rs : List Word} (hq : 8 ≤ q)
    (hbefore : ∀ x ∈ before, ∀ p, x.kind = .pop p none → p < 8) (hport : tget co.ports q = some pk)
    (hp : tget s.ports pk = some p) (hresps : p.resps = r :: rs) : exec (.portPopComplete k) s
      = .next (modCoach (acquireGlobal { s with ports := tput s.ports pk { p with resps := rs } }
          (l1Unit { s with ports := tput s.ports pk { p with resps := rs } } (coreOf co)) co.ctx 4) k
          (popFilled st q (.word r))) := by
  show execPortPopComplete k s = _
  unfold execPortPopComplete
  rw [hres, fillPop_at hco hstalls hkind (decide_eq_true hq)
    (fun x hx p hp => decide_eq_false (Nat.not_le.2 (hbefore x hx p hp)))]
  dsimp only
  rw [coachOf_of_tget hco, hport, Option.bind_some, hp, Option.map_some]
  dsimp only
  rw [hresps]
  rfl

end

/-- Settles O49: each event by the case that its condition selects. -/
theorem coachResults : Obligations.CoachResults := by
  intro s k co hco
  refine ⟨fun slot sl => longResultReturn_slot hco, ?_, fun t => sleepWake_resident hco, ?_, ?_, ?_⟩
  · intro st hmark hret htrap fl s1 c1
    exact ⟨returnBufferCommit_of_noFpe hco hmark hret htrap, fun t => returnBufferCommit_of_fpe hco hmark hret htrap⟩
  · intro tag b hb
    show execTbarWake tag s = _
    unfold execTbarWake
    rewrite [hb]
    rfl
  · intro hres
    refine ⟨fun st q e d hst => ?_, fun st q e s1 => portPushComplete_done hco hres⟩
    rw [queuePushComplete_resident hco hres hst]
    refine ⟨fun s1 hpush => by rw [tryPush_done hpush], fun hpush => by rw [tryPush_full hpush],
      fun x va s1 hpush => by rw [tryPush_xlat hpush, coachOf_of_tget hco], fun hdet => ?_⟩
    rw [qfull_resident hco hres hst hdet]
    exact ⟨fun s1 hpush => by rw [tryPush_done hpush], fun hpush => by rw [tryPush_full hpush]; rfl⟩
  · intro q st before after hres hstalls hkind filled
    refine ⟨fun qi x e s1 => ?_, fun pk p r rs => ?_⟩
    · exact queuePopComplete_filled hco hres hstalls hkind
    · exact portPopComplete_filled hco hres hstalls hkind

end Sys2Proof.Proofs
end

/-! ### Integer arithmetic (04 R112-R114) -/

section
namespace Sys2Proof.Proofs
open Sys2Proof Sys2Proof.Machine Sys2Proof.Laws

/-! #### What the checks of an issue say of its word (02 R61) -/

/-- A word that passes every decode check passes those of its format, its function fields and its type. -/
theorem fields_of_decodeCheck {sp : OpSpec} {w : NOp} {nregs : Nat} {bound : Nat → Bool} (h : decodeCheck sp w nregs bound = none) :
    sp.fmtOk = true ∧ sp.xOk = true ∧ sp.tyOk = true := by
  unfold decodeCheck at h
  dsimp only at h
  split at h
  · cases h
  · next hfmt =>
    split at h
    · cases h
    · split at h
      · cases h
      · next hx =>
        split at h
        · cases h
        · split at h
          · cases h
          · next hty => exact ⟨by simpa using hfmt, by simpa using hx, by simpa using hty⟩

theorem fields_of_clear {s : State} {i : Instr} {w : NOp} {sp : OpSpec} (h : clear s i = true)
    (hr : nativeRow s i = some (w, sp)) : sp.fmtOk = true ∧ sp.xOk = true ∧ sp.tyOk = true :=
  fields_of_decodeCheck (clear_spec h hr).2.1

theorem kind_of_onlyR {w : NOp} (h : onlyR w = true) : fKind w = 0 := by simpa [onlyR] using h

/-- In F-R, source B has no immediate. -/
theorem bVal_register {w : NOp} (hk : fKind w = 0) (co : Coach) (pair : Bool) (imm : Dword) (l : Nat) :
    bVal co w pair imm l = regVal co (fB w) pair l := by simp [bVal, fI_of_register hk]

theorem onlyBits_le {mask v : Nat} (h : onlyBits mask v = true) : v ≤ mask := by
  have hv : v &&& mask = v := by simpa [onlyBits] using h
  exact hv ▸ Nat.and_le_right

/-! #### The register form of a 32-bit integer result -/

theorem wrapNat_eq (n : Nat) (v : Int) : wrapNat n v = (BitVec.ofInt n v).toNat := by simp [wrapNat, BitVec.toNat_ofInt]

theorem tyOut_word {ty : Nat} (hty : ty ≤ 1) (v : Int) : tyOut ty v = (BitVec.ofInt 32 v).setWidth 64 := by
  rcases (by omega : ty = 0 ∨ ty = 1) with rfl | rfl
  · show BitVec.ofNat 64 (wrapNat 32 (sext 32 (wrapNat 32 v))) = _
    rw [wrapNat_eq, wrapNat_eq, sext_toNat 32 (by decide), BitVec.ofInt_toInt, BitVec.ofNat_toNat]
  · show BitVec.ofNat 64 (wrapNat 32 v) = _
    rw [wrapNat_eq, BitVec.ofNat_toNat]

theorem tyInt_regVal {ty : Nat} (hty : ty ≤ 1) (co : Coach) (code l : Nat) :
    BitVec.ofInt 32 (tyInt ty (regVal co code false l)) = regWord co code 0 l := ofInt_tyInt hty _

/-! #### Integer arithmetic (04 R112-R114) -/

/-- A shared end of the operations of A and B. -/
theorem intOp2_gives {s : State} {i : Instr} {w : NOp} {satOk : Bool} {f : Nat → Int → Int → Int} {g : Nat → Dword}
    (hrow : nativeRow s i = some (w, nativeRow.intRow w satOk)) (hrun : exec i s = .next (intOp2 w satOk f s))
    (hq : noQueue w = true) (hclear : clear s i = true)
    (hg : ∀ l, intResult (fTy w) (satOk && fOpx w % 2 == 1) (f (fTy w) (tyInt (fTy w) (aVal (me s) w false l))
      (tyInt (fTy w) (bVal (me s) w false (immValue (fTy w) (fImm w)) l))) = g l) : Gives s i w false g := by
  have hlane : exec i s = .next (laneOp w (nativeRow.intRow w satOk) false (fun c co l => plain (intResult (fTy w)
      (satOk && fOpx w % 2 == 1) (f (fTy w) (tyInt (fTy w) (srcA c co false l))
        (tyInt (fTy w) (srcB c co false (immValue (fTy w) (fImm w)) l))))) s) := hrun
  refine laneOp_gives hlane hclear hrow rfl hq fun l => ?_
  rw [srcA_opCtx, srcB_opCtx, hg, plain]

theorem intResult_wrap (ty : Nat) (v : Int) : intResult ty false v = tyOut ty v := rfl

theorem dot4_eq (x y : Bool) (a b : Nat) :
    dot4 x y a b = ((List.range 4).map (fun i =>
      (if x then (BitVec.ofNat 8 (a / 2 ^ (8 * i))).toInt else ((a / 2 ^ (8 * i) % 256 : Nat) : Int))
      * (if y then (BitVec.ofNat 8 (b / 2 ^ (8 * i))).toInt else ((b / 2 ^ (8 * i) % 256 : Nat) : Int)))).sum := by
  simp only [toInt_byte, List.range_succ, List.range_zero, List.nil_append, List.cons_append, List.map_cons, List.map_nil,
    List.sum_cons, List.sum_nil, dot4]
  ring

theorem wrapNat_sub {a b k : Nat} (ha : a < 2 ^ 32) (hb : b < 2 ^ 32) (hk : k < 2) :
    wrapNat 32 ((a : Int) - b - (k : Nat)) = (a + 2 ^ 32 + 2 ^ 32 - b - k) % 2 ^ 32 := by
  unfold wrapNat
  omega

/-- IADDC's four functions of 32-bit words (04 R113). -/
theorem addCarry_eq {a b : Nat} (ha : a < 2 ^ 32) (hb : b < 2 ^ 32) (fn c : Nat) : addCarry fn a b c
    = if fn = 0 then (a + b + c % 2) % 2 ^ 32
      else if fn = 1 then (if 2 ^ 32 ≤ a + b + c % 2 then 1 else 0)
      else if fn = 2 then (a + 2 ^ 32 + 2 ^ 32 - b - c % 2) % 2 ^ 32
      else if a < b + c % 2 then 1 else 0 := by
  have hborrow := wrapNat_sub ha hb (Nat.mod_lt c (by decide : 0 < 2))
  match fn with
  | 0 => simp only [addCarry, if_true]
  | 1 => simp only [addCarry, one_ne_zero, if_true, if_false]
  | 2 => simp only [addCarry, hborrow, OfNat.ofNat_ne_zero, OfNat.ofNat_ne_one, if_true, if_false]
  | n + 3 => rw [if_neg (by omega), if_neg (by omega), if_neg (by omega)]; rfl

/-- Settles O1: each value by the exact result of its operation, the words of the 32-bit types by arithmetic modulo 2^32. -/
theorem integerArithmetic : Obligations.IntegerArithmetic := by
  refine ⟨fun s w hq => ?_, fun s w hq => ?_, fun s w hq h => ?_, fun s w hq hty hx hk => ?_⟩
  · intro ty sat a b c wrap out
    refine ⟨fun h => ?_, fun h => ?_, fun h => ?_, fun h => ?_, fun h => ?_, fun h => ?_, fun h => ?_, fun h => ?_⟩
    · exact intOp2_gives rfl rfl hq h fun l => intResult_eq _ _ _
    · exact intOp2_gives rfl rfl hq h fun l => intResult_eq _ _ _
    · exact intOp2_gives rfl rfl hq h fun l => intResult_eq _ _ _
    · exact intOp2_gives rfl rfl hq h fun l => by rw [Bool.false_and, intResult_wrap]; push_cast; rfl
    · have hk := kind_of_onlyR (fields_of_clear h rfl).1
      refine laneOp_gives rfl h rfl rfl hq fun l => ?_
      rw [srcA_opCtx, srcB_opCtx, srcC_opCtx, plain, intResult_eq, bVal_register hk]
      show _ = (out (_ * tyInt ty (bVal (me s) w false _ l) + _), _)
      rw [bVal_register hk]
    · exact intOp2_gives rfl rfl hq h fun l => by rw [Bool.false_and, intResult_wrap, min_comm, min_def_lt]
    · exact intOp2_gives rfl rfl hq h fun l => by rw [Bool.false_and, intResult_wrap, max_def_lt]
    · refine laneOp_gives rfl h rfl rfl hq fun l => ?_
      rw [srcA_opCtx, plain, intResult_eq, Int.natCast_natAbs]
  · intro ty sat half out byte
    refine ⟨fun h => ?_, fun h => ?_, fun h => ?_⟩
    · refine laneOp_gives rfl h rfl rfl hq fun l => ?_
      rw [srcA_opCtx, srcB_opCtx, plain, intResult_eq]
    · refine laneOp_gives rfl h rfl rfl hq fun l => ?_
      rw [srcA_opCtx, srcB_opCtx, srcC_opCtx, plain, intResult_eq]
    · refine laneOp_gives rfl h rfl rfl hq fun l => ?_
      rw [srcA_opCtx, srcB_opCtx, srcC_opCtx, plain, dot4_eq]
  · refine laneOp_gives rfl h rfl rfl hq fun l => ?_
    rw [srcA_opCtx, srcB_opCtx, srcC_opCtx, plain, addCarry_eq (aVal_lt ..) (bVal_lt ..)]
  · intro a b c
    have hsat : (fOpx w % 2 == 1) = false := by rw [hx]; rfl
    have hout : ∀ v, intResult (fTy w) false v = (BitVec.ofInt 32 v).setWidth 64 := fun v => by rw [intResult_wrap, tyOut_word hty]
    have hsrc : ∀ code l, BitVec.ofInt 32 (tyInt (fTy w) (regVal (me s) code false l)) = regWord (me s) code 0 l :=
      tyInt_regVal hty (me s)
    refine ⟨fun h => ?_, fun h => ?_, fun h => ?_, fun h => ?_⟩
    · refine intOp2_gives rfl rfl hq h fun l => ?_
      rw [hsat, Bool.and_false, hout, BitVec.ofInt_add, bVal_register hk, aVal, hsrc, hsrc]
    · refine intOp2_gives rfl rfl hq h fun l => ?_
      rw [hsat, Bool.and_false, hout, ofInt_sub, bVal_register hk, aVal, hsrc, hsrc]
    · refine intOp2_gives rfl rfl hq h fun l => ?_
      rw [hsat, Bool.and_false, hout, BitVec.ofInt_mul, bVal_register hk, aVal, hsrc, hsrc]
    · refine laneOp_gives rfl h rfl rfl hq fun l => ?_
      rw [srcA_opCtx, srcB_opCtx, srcC_opCtx, plain, hsat, hout, BitVec.ofInt_add, BitVec.ofInt_mul,
        bVal_register hk, aVal, cVal, hsrc, hsrc, hsrc]

end Sys2Proof.Proofs
end

/-! ### Moves and logic (04 R117, R118, R122-R124) -/

section
namespace Sys2Proof.Proofs
open Sys2Proof Sys2Proof.Machine Sys2Proof.Laws

/-! #### Moves and addresses (04 R122-R124) -/

theorem bitOp_gives {s : State} {i : Instr} {w : NOp} {f : Dword → Dword → Dword}
    (hrow : nativeRow s i = some (w, nativeRow.bitRow w)) (hrun : exec i s = .next (bitOp w f s)) (hq : noQueue w = true)
    (hclear : clear s i = true) : Gives s i w (tyWide (fTy w)) (fun l => f (aVal (me s) w (tyWide (fTy w)) l)
      (bVal (me s) w (tyWide (fTy w)) (immValue (fTy w) (fImm w)) l)) := by
  have hlane : exec i s = .next (laneOp w (nativeRow.bitRow w) (tyWide (fTy w)) (fun c co l => plain (f
      (srcA c co (tyWide (fTy w)) l) (srcB c co (tyWide (fTy w)) (immValue (fTy w) (fImm w)) l))) s) := hrun
  refine laneOp_gives hlane hclear hrow rfl hq fun l => ?_
  rw [srcA_opCtx, srcB_opCtx, plain]

theorem tyInt_signed_word (d : Dword) : tyInt 0 d = (loOf d).toInt := by
  show sext 32 d.toNat = _
  rw [← sext_toNat 32 (by decide)]
  simp [sext, loOf]

theorem tyInt_unsigned_word (d : Dword) : tyInt 1 d = ((loOf d).toNat : Int) := by
  show ((d.toNat % 2 ^ 32 : Nat) : Int) = _
  simp [loOf]

/-- An address is a sum modulo 2^64 of A and the scaled B, which keeps its sign where the type has one. -/
theorem address_eq {ty : Nat} (hty : ty = 0 ∨ ty = 1) (a b : Dword) (k : Nat) :
    BitVec.ofNat 64 (wrapNat 64 ((a.toNat : Int) + tyInt ty b * ((2 ^ k : Nat) : Int)))
      = a + (if ty = 0 then (loOf b).signExtend 64 else (loOf b).setWidth 64) * 2 ^ k := by
  have hb : BitVec.ofInt 64 (tyInt ty b) = if ty = 0 then (loOf b).signExtend 64 else (loOf b).setWidth 64 := by
    rcases hty with rfl | rfl
    · rw [tyInt_signed_word]; rfl
    · rw [tyInt_unsigned_word, BitVec.ofInt_natCast, BitVec.ofNat_toNat]; rfl
  have hpow : BitVec.ofNat 64 (2 ^ k) = 2 ^ k := by
    exact BitVec.ofNat_pow 64 2 k
  rw [wrapNat_eq, BitVec.ofNat_toNat, BitVec.setWidth_eq, BitVec.ofInt_add, BitVec.ofInt_mul, hb, BitVec.ofInt_natCast,
    BitVec.ofInt_natCast, hpow, BitVec.ofNat_toNat, BitVec.setWidth_eq]

theorem exists_lowLane {m : Mask} (h : m ≠ 0) : ∃ l, lowLane m = some l := by
  rw [← Option.isSome_iff_exists, lowLane, List.find?_isSome]
  obtain ⟨l, hl⟩ := List.exists_mem_of_ne_nil _ (lanesOf_ne_nil h)
  obtain ⟨hlt, hm⟩ := mem_lanesOf.1 hl
  exact ⟨l, List.mem_range.2 hlt, hm⟩

/-- MOVHI writes the second register of its pair and no other (04 R123). -/
theorem movhi_next {s : State} {w : NOp} (hclear : clear s (.movhi w) = true) : ∃ t co', exec (.movhi w) s = .next t
    ∧ t = { s with coaches := tput s.coaches s.iss.coach co' }
    ∧ (∀ r l, l < 64 → vget co' r l =
        if codeOf (fD w + 1) = .v r ∧ (enOf s w).getLsbD l = true then BitVec.ofNat 32 (fImm w) else vget (me s) r l)
    ∧ (∀ r, sget co' r = if codeOf (fD w + 1) = .s r then BitVec.ofNat 32 (fImm w) else sget (me s) r)
    ∧ co' = { me s with v := co'.v, s := co'.s, lanes := (passLanes (me s) s.iss s.iss.group).lanes } := by
  have hfpe := (settled_spec (settled_of_clear hclear rfl)).2
  obtain ⟨l0, hl0⟩ := exists_lowLane (enabled_of_clear hclear rfl)
  obtain ⟨v, x, hput⟩ := putWords_frame (me s) (laneWrites (fD w + 1) 1 (enOf s w) (fun _ _ => BitVec.ofNat 32 (fImm w)))
    (scalarWrites (fD w + 1) 1 (enOf s w) (fun _ _ => BitVec.ofNat 32 (fImm w)))
  refine ⟨_, _, congrArg Host.Outcome.next ((native_of_clear hclear rfl _).trans (finishGroup_setCoach ?_)), rfl, ?_, ?_, ?_⟩
  · rw [hput]; exact hfpe
  · intro r l hl
    refine (vget_laneWrites (me s) (fD w + 1) 1 (enOf s w) _ _ r l hl).trans ?_
    unfold laneAfter
    cases codeOf (fD w + 1) with
    | v k =>
      have honly : (k ≤ r ∧ r < k + 1 ∧ (enOf s w).getLsbD l = true) ↔ (k = r ∧ (enOf s w).getLsbD l = true) := by
        rw [← and_assoc, show (k ≤ r ∧ r < k + 1) ↔ k = r by omega]
      simp only [Code.v.injEq, honly]
    | _ => simp
  · intro r
    refine (sget_scalarWrites (me s) (fD w + 1) 1 (enOf s w) _ _ r).trans ?_
    unfold scalarAfter
    rw [hl0]
    cases codeOf (fD w + 1) with
    | s k => simp only [Code.s.injEq, show (k ≤ r ∧ r < k + 1) ↔ k = r by omega]
    | _ => simp
  · show passLanes (putWords _ _ _) _ _ = _
    rw [hput]
    rfl

/-- Settles O2: selections, bitwise operations and moves as they stand, addresses by their sum modulo 2^64. -/
theorem movesAndLogic : Obligations.MovesAndLogic := by
  intro s w hq wide a b
  refine ⟨fun h => ?_, bitOp_gives (f := (· &&& ·)) rfl rfl hq, bitOp_gives (f := (· ||| ·)) rfl rfl hq,
    bitOp_gives (f := (· ^^^ ·)) rfl rfl hq, bitOp_gives (f := fun x y => x &&& ~~~y) rfl rfl hq, fun h => ?_,
    fun h => ?_, fun h => ?_, movhi_next⟩
  · refine laneOp_gives rfl h rfl rfl hq fun l => ?_
    rw [srcA_opCtx, srcB_opCtx, srcC_opCtx, plain]
  · refine laneOp_gives rfl h rfl rfl hq fun l => ?_
    rw [srcA_opCtx, plain]
  · exact laneOp_gives rfl h rfl rfl hq fun l => rfl
  · have hty : fTy w = 0 ∨ fTy w = 1 := by simpa [tyIn] using (fields_of_clear h rfl).2.2
    refine laneOp_gives rfl h rfl rfl hq fun l => ?_
    rw [srcA_opCtx, srcB_opCtx, plain, address_eq hty]

end Sys2Proof.Proofs
end

/-! ### Shifts, fields and counts (04 R119-R121) -/

section
namespace Sys2Proof.Proofs
open Sys2Proof Sys2Proof.Machine Sys2Proof.Laws

/-! #### Shifts (04 R119) -/

/-- The 64-bit and the 32-bit form of a shift. -/
theorem shiftOp_gives {s : State} {i : Instr} {w : NOp} {op : Nat → Nat → Nat → Nat} {f : Dword → Nat → Dword}
    {g : Word → Nat → Word} (hrow : nativeRow s i = some (w, nativeRow.shiftRow w)) (hrun : exec i s = .next (shiftOp w op s))
    (hwide : ∀ (a : Dword) n, op 64 a.toNat n = (f a n).toNat) (hnarrow : ∀ (a : Word) n, op 32 a.toNat n = (g a n).toNat)
    (hq : noQueue w = true) (hclear : clear s i = true) : Gives s i w (tyWide (fTy w)) (fun l =>
      if tyWide (fTy w) then f (aVal (me s) w (tyWide (fTy w)) l) (bVal (me s) w false (BitVec.ofNat 64 (fImm w)) l).toNat
      else (g (loOf (aVal (me s) w (tyWide (fTy w)) l)) (bVal (me s) w false (BitVec.ofNat 64 (fImm w)) l).toNat).setWidth 64) := by
  have hlane : exec i s = .next (laneOp w (nativeRow.shiftRow w) (tyWide (fTy w)) (fun c co l => plain (BitVec.ofNat 64
      (op (if tyWide (fTy w) then 64 else 32) (srcA c co (tyWide (fTy w)) l).toNat
        (srcB c co false (BitVec.ofNat 64 (fImm w)) l).toNat))) s) := hrun
  refine laneOp_gives hlane hclear hrow rfl hq fun l => ?_
  rw [srcA_opCtx, srcB_opCtx, plain]
  cases tyWide (fTy w) with
  | true => rw [if_pos rfl, if_pos rfl, hwide, BitVec.ofNat_toNat, BitVec.setWidth_eq]
  | false =>
    have hlow : (aVal (me s) w false l).toNat = (loOf (aVal (me s) w false l)).toNat := by
      have hlt := aVal_lt (me s) w l
      simp only [loOf, BitVec.extractLsb'_toNat, Nat.shiftRight_zero]
      omega
    simp only [Bool.false_eq_true, if_false]
    rw [hlow, hnarrow, BitVec.ofNat_toNat]

/-! #### Bit fields (04 R120) -/

/-- The places of a field that lie below the width `w`. -/
theorem fieldWidth_eq (w pos len : Nat) : (if w - pos < len then w - pos else len) = min len (w - pos) := by
  rw [min_comm, min_def_lt]

theorem noField_iff (w pos len : Nat) : (w ≤ pos ∨ len = 0) ↔ min len (w - pos) = 0 := by omega

/-- The sign extension of a field of `n` bits into `w`. -/
theorem wrapNat_sext {n w f : Nat} (hn : n ≠ 0) (hnw : n ≤ w) (hf : f < 2 ^ n) :
    wrapNat w (sext n f) = if 2 ^ (n - 1) ≤ f then f + 2 ^ w - 2 ^ n else f := by
  have hpow : 2 ^ n ≤ 2 ^ w := Nat.pow_le_pow_right (by decide) hnw
  unfold sext wrapNat
  rw [Nat.mod_eq_of_lt hf]
  by_cases hsign : 2 ^ (n - 1) ≤ f
  · have hadd : ((f : Int) - (2 ^ n : Nat)) % (2 ^ w : Nat) = (f + 2 ^ w - 2 ^ n : Nat) := by
      rw [← Int.add_emod_right, Int.emod_eq_of_lt] <;> omega
    rw [if_pos ⟨hn, hsign⟩, if_pos hsign, hadd]
    rfl
  · rw [if_neg (fun h => hsign h.2), if_neg hsign]
    rw [Int.emod_eq_of_lt] <;> omega

theorem bitExtract_eq (sg : Bool) (w a pos len : Nat) : bitExtract sg w a pos len
    = let n := min len (w - pos)
      let f := a / 2 ^ pos % 2 ^ n
      if n = 0 then 0 else if sg = true ∧ 2 ^ (n - 1) ≤ f then f + 2 ^ w - 2 ^ n else f := by
  unfold bitExtract
  dsimp only
  rw [fieldWidth_eq]
  by_cases hnone : min len (w - pos) = 0
  · rw [if_pos ((noField_iff w pos len).2 hnone), if_pos hnone]
  · rw [if_neg (mt (noField_iff w pos len).1 hnone), if_neg hnone]
    cases sg with
    | false => simp
    | true =>
      rw [if_pos rfl, wrapNat_sext hnone (by omega) (Nat.mod_lt _ (Nat.two_pow_pos _))]
      simp

/-- The bits of a number put together of a high part, a field and a low part. -/
theorem testBit_parts {low mid : Nat} (high : Nat) {pos n : Nat} (hlow : low < 2 ^ pos) (hmid : mid < 2 ^ n) (i : Nat) :
    (low + mid * 2 ^ pos + high * 2 ^ (pos + n)).testBit i
      = if i < pos then low.testBit i else if i < pos + n then mid.testBit (i - pos) else high.testBit (i - (pos + n)) := by
  have hfield : 2 ^ pos * mid + low < 2 ^ (pos + n) := by
    have : 2 ^ pos * (mid + 1) ≤ 2 ^ pos * 2 ^ n := Nat.mul_le_mul_left _ hmid
    rw [Nat.pow_add]
    rw [Nat.mul_add] at this
    omega
  rw [show low + mid * 2 ^ pos + high * 2 ^ (pos + n) = 2 ^ (pos + n) * high + (2 ^ pos * mid + low) by ring,
    Nat.testBit_two_pow_mul_add _ hfield, Nat.testBit_two_pow_mul_add _ hlow]
  by_cases hi : i < pos
  · simp only [if_pos hi, if_pos (show i < pos + n by omega)]
  · simp only [if_neg hi]

/-- A field's places, as bits set. -/
theorem getLsbD_fieldMask {n pos i : Nat} (hi : i < 64) :
    ((BitVec.ofNat 64 (2 ^ n - 1) : Dword) <<< pos).getLsbD i = decide (pos ≤ i ∧ i < pos + n) := by
  rw [BitVec.getLsbD_shiftLeft, BitVec.getLsbD_ofNat, Nat.testBit_two_pow_sub_one, Bool.eq_iff_iff]
  simp
  omega

theorem bitInsert_eq {w : Nat} (base a : Dword) (pos len : Nat) :
    BitVec.ofNat 64 (bitInsert w base.toNat a.toNat pos len)
      = (base &&& ~~~((BitVec.ofNat 64 (2 ^ min len (w - pos) - 1) : Dword) <<< pos))
        ||| ((a <<< pos) &&& ((BitVec.ofNat 64 (2 ^ min len (w - pos) - 1) : Dword) <<< pos)) := by
  apply BitVec.eq_of_getLsbD_eq
  intro i hi
  have hbits : (bitInsert w base.toNat a.toNat pos len).testBit i
      = if pos ≤ i ∧ i < pos + min len (w - pos) then a.toNat.testBit (i - pos) else base.toNat.testBit i := by
    unfold bitInsert
    dsimp only
    rw [fieldWidth_eq]
    by_cases hnone : min len (w - pos) = 0
    · rw [if_pos ((noField_iff w pos len).2 hnone), if_neg (by omega)]
    · rw [if_neg (mt (noField_iff w pos len).1 hnone),
        testBit_parts _ (Nat.mod_lt _ (Nat.two_pow_pos _)) (Nat.mod_lt _ (Nat.two_pow_pos _))]
      simp only [Nat.testBit_mod_two_pow, Nat.testBit_div_two_pow]
      by_cases hbelow : i < pos
      · simp [hbelow, show ¬ pos ≤ i by omega]
      · by_cases hin : i < pos + min len (w - pos)
        · simp [hbelow, hin, show pos ≤ i by omega, show i - pos < min len (w - pos) by omega]
        · simp [hbelow, hin, show i - (pos + min len (w - pos)) + (pos + min len (w - pos)) = i by omega]
  rw [BitVec.getLsbD_or, BitVec.getLsbD_and, BitVec.getLsbD_and, BitVec.getLsbD_not, getLsbD_fieldMask hi, BitVec.getLsbD_ofNat,
    hbits, BitVec.getLsbD_shiftLeft]
  by_cases hin : pos ≤ i ∧ i < pos + min len (w - pos)
  · simp [hin, hi, BitVec.getLsbD, show ¬ i < pos by omega]
  · simp [hin, hi, BitVec.getLsbD]

/-! #### Counts of bits (04 R121) -/

/-- The leading elements of a range that satisfy `p`, up to the first that does not. -/
theorem length_takeWhile_range {p : Nat → Bool} {n k : Nat} (hk : k ≤ n) (hbelow : ∀ i < k, p i = true)
    (hat : k < n → p k = false) : ((List.range n).takeWhile p).length = k := by
  obtain ⟨m, rfl⟩ := Nat.exists_eq_add_of_le hk
  rw [List.range_add, List.takeWhile_append_of_pos fun i hi => hbelow i (List.mem_range.1 hi)]
  cases m with
  | zero => simp
  | succ m => simp [List.range_succ_eq_map, hat (by omega)]

theorem popCount_eq (n : Nat) (a : Dword) : popCount n a.toNat = (List.range n).countP (fun i => a.getLsbD i) :=
  List.countP_eq_length_filter.symm

theorem leadZeros_eq {n : Nat} {a : Dword} (ha : a.toNat < 2 ^ n) :
    leadZeros n a.toNat = ((List.range n).takeWhile (fun i => !a.getLsbD (n - 1 - i))).length := by
  have hbit : ∀ i, a.getLsbD i = a.toNat.testBit i := fun _ => rfl
  simp only [hbit]
  unfold leadZeros
  by_cases hzero : a.toNat = 0
  · rw [if_pos hzero, length_takeWhile_range (k := n) (Nat.le_refl n) (fun i _ => by simp [hzero]) (by omega)]
  · have hlog : a.toNat.log2 < n := (Nat.log2_lt hzero).2 ha
    rw [if_neg hzero, length_takeWhile_range (k := n - 1 - a.toNat.log2) (by omega)]
    · intro i hi
      have hhigh : a.toNat < 2 ^ (n - 1 - i) := (Nat.log2_lt hzero).1 (by omega)
      rw [Nat.testBit_lt_two_pow hhigh]
      rfl
    · intro _
      rw [show n - 1 - (n - 1 - a.toNat.log2) = a.toNat.log2 by omega, Nat.testBit_log2 hzero]
      rfl

theorem trailZeros_eq (n : Nat) (a : Dword) :
    trailZeros n a.toNat = ((List.range n).takeWhile (fun i => !a.getLsbD i)).length := by
  have hbit : ∀ i, a.getLsbD i = a.toNat.testBit i := fun _ => rfl
  simp only [hbit]
  unfold trailZeros
  cases hfind : (List.range n).find? (fun i => a.toNat.testBit i) with
  | none =>
    rw [length_takeWhile_range (Nat.le_refl n) (List.find?_range_eq_none.1 hfind) (by omega)]
    rfl
  | some k =>
    obtain ⟨hk, hlt, hbelow⟩ := List.find?_range_eq_some.1 hfind
    rw [length_takeWhile_range (Nat.le_of_lt (List.mem_range.1 hlt)) hbelow (fun _ => by rw [hk]; rfl)]
    rfl

/-- The shared end of the counts. -/
theorem countOp_gives {s : State} {i : Instr} {w : NOp} {op : Nat → Nat → Nat} {g : Nat → Nat}
    (hrow : nativeRow s i = some (w, nativeRow.countRow w)) (hrun : exec i s = .next (countOp w op s)) (hq : noQueue w = true)
    (hclear : clear s i = true) (hg : ∀ l, op (tyBits (fTy w)) (aVal (me s) w (tyWide (fTy w)) l).toNat = g l) :
    Gives s i w false (fun l => BitVec.ofNat 64 (g l)) := by
  have hlane : exec i s = .next (laneOp w (nativeRow.countRow w) false (fun c co l => plain (BitVec.ofNat 64
      (op (tyBits (fTy w)) (srcA c co (tyWide (fTy w)) l).toNat))) s) := hrun
  refine laneOp_gives hlane hclear hrow rfl hq fun l => ?_
  rw [srcA_opCtx, plain, hg]

/-- The types of words, and the width that each has. -/
theorem tyBits_of_word {w : NOp} (h : tyIn w tyWords = true) : tyBits (fTy w) = if tyWide (fTy w) then 64 else 32 := by
  have hty : fTy w = 0 ∨ fTy w = 1 ∨ fTy w = 2 ∨ fTy w = 3 := by simpa [tyIn, tyWords] using h
  rcases hty with hty | hty | hty | hty <;> rw [hty] <;> rfl

theorem aVal_lt_width {w : NOp} (h : tyIn w tyWords = true) (co : Coach) (l : Nat) :
    (aVal co w (tyWide (fTy w)) l).toNat < 2 ^ tyBits (fTy w) := by
  rw [tyBits_of_word h]
  cases tyWide (fTy w) with
  | true => exact (aVal co w true l).isLt
  | false => exact aVal_lt co w l

/-- Settles O3: shifts by those of words of their width, fields by their bits, counts by the first set bit. -/
theorem shiftsAndFields : Obligations.ShiftsAndFields := by
  refine ⟨fun s w hq => ?_, fun s w hq => ?_⟩
  · intro wide a n
    refine ⟨?_, ?_, ?_, ?_⟩
    · exact shiftOp_gives rfl rfl (fun a n => shiftLeft_toNat 64 a n _ rfl) (fun a n => shiftLeft_toNat 32 a n _ rfl) hq
    · intro h
      have hgives := shiftOp_gives rfl rfl (fun a n => shiftRight_toNat 64 a n _ rfl) (fun a n => shiftRight_toNat 32 a n _ rfl)
        hq h
      refine (funext fun l => ?_ : _ = fun l => a l >>> n l) ▸ hgives
      show (if wide then a l >>> n l else (loOf (a l) >>> n l).setWidth 64) = _
      cases hw : wide with
      | true => rfl
      | false =>
        have hlow : a l = (loOf (a l)).setWidth 64 := by
          show aVal (me s) w wide l = (loOf (aVal (me s) w wide l)).setWidth 64
          rw [hw]
          exact aVal_eq_low (me s) w l
        rw [if_neg (by decide), BitVec.setWidth_ushiftRight (by decide), ← hlow]
    · exact shiftOp_gives rfl rfl (fun a n => shiftArith_toNat 64 (by decide) a n _ rfl)
        (fun a n => shiftArith_toNat 32 (by decide) a n _ rfl) hq
    · exact shiftOp_gives rfl rfl (fun a n => rotateLeft_toNat 64 (by decide) a n _ rfl)
        (fun a n => rotateLeft_toNat 32 (by decide) a n _ rfl) hq
  · intro ty wide bits a b pos len base
    refine ⟨fun h => ?_, fun h => ?_, fun h => ?_, fun h => ?_, fun h => ?_⟩
    · refine laneOp_gives rfl h rfl rfl hq fun l => ?_
      rw [srcA_opCtx, srcB_opCtx, plain, bitExtract_eq]
      refine congrArg (·, (0 : Flags)) ?_
      show BitVec.ofNat 64 (if len l = 0 then 0 else _) = _
      rw [apply_ite (BitVec.ofNat 64), apply_ite (BitVec.ofNat 64)]
      rfl
    · refine laneOp_gives rfl h rfl rfl hq fun l => ?_
      rw [srcA_opCtx, srcB_opCtx, srcC_opCtx, readOp_opCtx, plain, bitInsert_eq]
    · exact countOp_gives rfl rfl hq h fun l => popCount_eq _ _
    · exact countOp_gives rfl rfl hq h fun l => leadZeros_eq (aVal_lt_width (fields_of_clear h rfl).2.2 _ _)
    · exact countOp_gives rfl rfl hq h fun l => trailZeros_eq _ _

end Sys2Proof.Proofs
end

/-! ### Floating arithmetic (04 R125-R129) -/

section
namespace Sys2Proof.Proofs
open Sys2Proof Sys2Proof.Machine Sys2Proof.Laws

/-! #### Lane operations that raise flags (03 R93-R95) -/

/-- Instruction `i` is a fixed-latency lane operation whose value and flags in a lane are `r`. -/
def FlaggedOp (s : State) (i : Instr) (w : NOp) (wide : Bool) (r : Nat → Dword × Flags) : Prop :=
  ∃ sp f, nativeRow s i = some (w, sp) ∧ sp.long = false ∧ exec i s = .next (laneOp w sp wide f s)
    ∧ ∀ l, f (opCtx s w sp) (me s) l = r l

/-- With no flag enabled in FMODE, it writes D and adds its flags to FSTAT. -/
theorem FlaggedOp.givesF {s : State} {i : Instr} {w : NOp} {wide : Bool} {r : Nat → Dword × Flags} (h : FlaggedOp s i w wide r)
    (hq : noQueue w = true) (hoff : field (me s).fmode.toNat 10 5 = 0) (hclear : clear s i = true) : GivesF s i w wide r := by
  obtain ⟨sp, f, hrow, hshort, hrun, hr⟩ := h
  exact native_givesF (f := fun c s => f c (coachOf s c.k)) hrun hclear hrow hshort hq hoff hr

/-- The last operation of an expansion that raises an enabled flag makes an FPE pending, for its group at its address. -/
theorem raiseFlags_of_enabled {co : Coach} {i : Iss} {fl : List Mask} {mode stat : Word} (hmode : co.fmode = mode)
    (hstat : co.fstat = stat) (hfpe : co.fpeHeld = []) (hon : enabledBits mode fl ≠ 0) :
    raiseFlags co i fl = { co with
      fstat := stat ||| BitVec.ofNat 32 (flagWord fl)
      fpeHeld := [(i.group, fpeTrap (enabledBits mode fl) (enabledLanes mode fl) i.word i.ga i.step)] } := by
  subst hmode hstat
  unfold raiseFlags
  dsimp only
  rw [if_neg hon]
  unfold holdFpe
  rw [heldFpe_nil (by exact hfpe)]
  rfl

/-- The group passes the last operation of its expansion, and the FPE held for it is taken (11 R409). -/
theorem finishGroup_of_held {s t : State} {w : NOp} {sp : OpSpec} {co : Coach} {x : Trap} (hlast : s.iss.isLast = true)
    (hgroup : s.iss.group ≠ 0) (haddr : x.opaddr = s.iss.ga) (hheld : co.fpeHeld = [(s.iss.group, x)]) :
    finishGroup (opCtx s w sp) (setCoach t s.iss.coach co)
      = raiseTrap (setCoach t s.iss.coach { passLanes co s.iss s.iss.group with fpeHeld := [] }) s.iss.coach x := by
  have hmine : heldFpe (passLanes co s.iss s.iss.group) s.iss.group s.iss.ga = ([(s.iss.group, x)], []) := by
    unfold heldFpe
    rw [passLanes_fpeHeld, hheld]
    have hne : ¬ s.iss.group = 0#64 := hgroup
    simp [haddr, hne]
  unfold finishGroup releaseFpe
  rw [hlast]
  dsimp only
  rw [modCoach_of_tget (tget_setCoach _ _ _), setCoach_setCoach, coachOf_setCoach, hmine]
  dsimp only [Bool.not_true, Bool.false_eq_true, if_false, List.foldl_nil]
  rw [setCoach_setCoach]
  rfl

theorem deliverTo_short {s : State} {w : NOp} {sp : OpSpec} {n : Nat} {val : Nat → Nat → Word} {fl : List Mask}
    (hshort : sp.long = false) (hq : noQueue w = true) : deliverTo (opCtx s w sp) (enOf s w) n val fl s
      = finishGroup (opCtx s w sp) (setCoach s s.iss.coach (raiseFlags (putWords (me s) (laneWrites (fD w) n (enOf s w) val)
          (scalarWrites (fD w) n (enOf s w) val)) s.iss fl)) := by
  unfold deliverTo
  rw [show (opCtx s w sp).w = w from rfl]
  simp only [shadowPush_false hq, pushEntry_none hq, hshort, Bool.false_and, Bool.false_eq_true, if_false]

/-- A result of one register with its flags. -/
theorem deliver_one {s : State} {w : NOp} {sp : OpSpec} (r : Nat → Dword × Flags) (hshort : sp.long = false) (hq : noQueue w = true) :
    deliver (opCtx s w sp) false r s = finishGroup (opCtx s w sp) (setCoach s s.iss.coach (raiseFlags (putWords (me s)
      (laneWrites (fD w) 1 (enOf s w) (fun l _ => loOf (r l).1)) (scalarWrites (fD w) 1 (enOf s w) (fun l _ => loOf (r l).1)))
      s.iss (laneFlags (enOf s w) (fun l => (r l).2)))) := by
  refine (deliverTo_short hshort hq).trans ?_
  rw [if_neg (by decide), laneWrites_one (v' := fun l _ => loOf (r l).1) fun _ => rfl,
    scalarWrites_one (v' := fun l _ => loOf (r l).1) fun _ => rfl]

/-- With an enabled flag, the last operation of an expansion writes D and FSTAT, passes, and then its coach takes FPE. -/
theorem FlaggedOp.takesFpe {s : State} {i : Instr} {w : NOp} {r : Nat → Dword × Flags} (h : FlaggedOp s i w false r)
    (hq : noQueue w = true) (hclear : clear s i = true) (hlast : s.iss.count ≤ s.iss.step + 1)
    (hon : enabledBits (me s).fmode (laneFlags (enOf s w) (fun l => (r l).2)) ≠ 0) :
    let val : Nat → Nat → Word := fun l _ => loOf (r l).1
    let fl := laneFlags (enOf s w) (fun l => (r l).2)
    exec i s = .next (raiseTrap (setCoach s s.iss.coach (passLanes { putWords (me s) (laneWrites (fD w) 1 (enOf s w) val)
        (scalarWrites (fD w) 1 (enOf s w) val) with fstat := (me s).fstat ||| BitVec.ofNat 32 (flagWord fl) } s.iss s.iss.group))
      s.iss.coach (fpeTrap (enabledBits (me s).fmode fl) (enabledLanes (me s).fmode fl) s.iss.word s.iss.ga s.iss.step)) := by
  intro val fl
  obtain ⟨sp, f, hrow, hshort, hrun, hr⟩ := h
  have hfpe : (me s).fpeHeld = [] := (settled_spec (settled_of_clear hclear hrow)).2
  have hgroup : s.iss.group ≠ 0 := by
    intro hzero
    refine enabled_of_clear hclear hrow ?_
    show s.iss.group &&& _ = 0
    rw [hzero]
    exact BitVec.zero_and
  have hfun : f (opCtx s w sp) (me s) = r := funext hr
  obtain ⟨v, x, hput⟩ := putWords_frame (me s) (laneWrites (fD w) 1 (enOf s w) val) (scalarWrites (fD w) 1 (enOf s w) val)
  have hpassed : ∀ co : Coach, co.fpeHeld = [] → ∀ y,
      { passLanes { co with fpeHeld := y } s.iss s.iss.group with fpeHeld := [] } = passLanes co s.iss s.iss.group := by
    intro co hco y
    unfold passLanes modLanes
    simp only [hco]
  rw [hrun, laneOp, native_of_clear hclear hrow]
  refine congrArg Host.Outcome.next ?_
  show deliver (opCtx s w sp) false (f (opCtx s w sp) (me s)) s = _
  rw [hfun, deliver_one r hshort hq]
  rw [raiseFlags_of_enabled (mode := (me s).fmode) (stat := (me s).fstat) (by rw [hput]) (by rw [hput])
    (by rw [hput]; exact hfpe) hon, finishGroup_of_held (decide_eq_true hlast) hgroup rfl rfl]
  refine congrArg (fun co => raiseTrap (setCoach s _ co) _ _) ?_
  exact hpassed { putWords (me s) _ _ with fstat := (me s).fstat ||| BitVec.ofNat 32 (flagWord fl) } (by rw [hput]; exact hfpe) _

/-! #### The rows of floating operations (04 R125-R127) -/

section
variable {s : State} {i : Instr} {w : NOp}

theorem floatOp2_flagged {rounds : Bool} {f : FFmt → Nat → Bool → Nat → Nat → Nat × Flags}
    (hrow : nativeRow s i = some (w, nativeRow.floatRow w rounds)) (hrun : exec i s = .next (floatOp2 w rounds f s)) :
    FlaggedOp s i w false (fun l => fRes (f (tyFmt (fTy w)) (roundOf (me s) w) ((me s).fmode.getLsbD 3)
      (fBits (fTy w) (aVal (me s) w false l)) (fBits (fTy w) (bVal (me s) w false (immValue (fTy w) (fImm w)) l)))) :=
  ⟨nativeRow.floatRow w rounds, fun c co l => fRes (f (tyFmt (fTy w)) (roundOf co w) (ftzOf co) (fBits (fTy w) (srcA c co false l))
    (fBits (fTy w) (srcB c co false (immValue (fTy w) (fImm w)) l))), hrow, rfl, hrun,
    fun l => by dsimp only; rw [srcA_opCtx, srcB_opCtx]; rfl⟩

theorem floatOp1_flagged {rounds : Bool} {f : FFmt → Nat → Bool → Nat → Nat × Flags}
    (hrow : nativeRow s i = some (w, nativeRow.float1Row w rounds false)) (hrun : exec i s = .next (floatOp1 w rounds false f s)) :
    FlaggedOp s i w false (fun l => fRes (f (tyFmt (fTy w)) (roundOf (me s) w) ((me s).fmode.getLsbD 3)
      (fBits (fTy w) (aVal (me s) w false l)))) :=
  ⟨nativeRow.float1Row w rounds false, fun c co l => fRes (f (tyFmt (fTy w)) (roundOf co w) (ftzOf co)
    (fBits (fTy w) (srcA c co false l))), hrow, rfl, hrun, fun l => by dsimp only; rw [srcA_opCtx]; rfl⟩

/-- FFMA has no F-I form: the statement's immediate is never read. -/
theorem ffma_flagged (hclear : clear s (.ffma w) = true) (imm : Dword) : FlaggedOp s (.ffma w) w false (fun l =>
    fRes (fFma (tyFmt (fTy w)) (roundOf (me s) w) ((me s).fmode.getLsbD 3) (fBits (fTy w) (aVal (me s) w false l))
      (fBits (fTy w) (bVal (me s) w false imm l)) (fBits (fTy w) (cVal (me s) w false l)))) := by
  have hk := kind_of_onlyR (fields_of_clear hclear rfl).1
  refine ⟨_, _, rfl, rfl, rfl, fun l => ?_⟩
  rw [srcA_opCtx, srcB_opCtx, srcC_opCtx]
  simp only [bVal_register hk]
  rfl

end

/-! #### NaN sources (03 R80, R93, 04 R126) -/

theorem tyFmt_eb_pos (ty : Nat) : 0 < (tyFmt ty).eb := by
  unfold tyFmt
  split_ifs <;> decide

/-- FTZ changes finite sources alone (03 R92). -/
theorem read_cases (f : FFmt) (hf : 0 < f.eb) (z : Bool) (x : Nat) :
    f.read z x = f.value x ∨ ∃ sg m e, f.read z x = .fin sg 0 0 ∧ f.value x = .fin sg m e := by
  unfold FFmt.read
  split
  · next hsub =>
    have hpow : 1 < 2 ^ f.eb := Nat.one_lt_two_pow (by omega)
    simp only [FFmt.isSubnormal, Bool.and_eq_true, beq_iff_eq] at hsub
    obtain ⟨-, hexp, -⟩ := hsub
    refine .inr ⟨x.testBit (f.p - 1 + f.eb), x % 2 ^ (f.p - 1), f.emin - (f.p - 1 : Nat), rfl, ?_⟩
    unfold FFmt.value
    dsimp only
    rw [hexp, if_neg (by omega), if_pos rfl]
  · exact .inl rfl

section
variable {f : FFmt} (hf : 0 < f.eb) (z : Bool) (x : Nat)
include hf

theorem isNan_read : (f.read z x).isNan = (f.value x).isNan := by
  obtain h | ⟨sg, m, e, hr, hv⟩ := read_cases f hf z x
  · rw [h]
  · rw [hr, hv]; rfl

theorem isSig_read : (f.read z x).isSig = (f.value x).isSig := by
  obtain h | ⟨sg, m, e, hr, hv⟩ := read_cases f hf z x
  · rw [h]
  · rw [hr, hv]; rfl

theorem isInf_read : (f.read z x).isInf = (f.value x).isInf := by
  obtain h | ⟨sg, m, e, hr, hv⟩ := read_cases f hf z x
  · rw [h]
  · rw [hr, hv]; rfl

end

@[simp] theorem isNan_neg (x : Machine.Num) : x.neg.isNan = x.isNan := by cases x <;> rfl

@[simp] theorem isSig_neg (x : Machine.Num) : x.neg.isSig = x.isSig := by cases x <;> rfl

theorem isSig_of_not_nan {x : Machine.Num} (h : x.isNan = false) : x.isSig = false := by
  cases x with
  | nan => cases h
  | fin => rfl
  | inf => rfl

theorem sumExact_of_nan {l : List Machine.Num} (rm : Nat) (h : l.any Num.isNan = true) : sumExact rm l = (.nan false, 0) := by
  unfold sumExact
  rw [if_pos h]

theorem mulExact_of_nan {x y : Machine.Num} (h : x.isNan = true ∨ y.isNan = true) : mulExact x y = (.nan false, 0) := by
  cases x with
  | nan => rfl
  | fin | inf =>
    cases y with
    | nan => rfl
    | fin | inf => simp [Num.isNan] at h

/-- The exact product of two finite values raises nothing and is finite. -/
theorem mulExact_of_finite {x y : Machine.Num} (hx : x.isNan = false) (hy : y.isNan = false) (hx' : x.isInf = false)
    (hy' : y.isInf = false) : (mulExact x y).2 = 0 := by
  cases x with
  | nan => cases hx
  | inf => cases hx'
  | fin =>
    cases y with
    | nan => cases hy
    | inf => cases hy'
    | fin => rfl

section
variable {f : FFmt} (hf : 0 < f.eb) (rm : Nat) (z : Bool) {a b c : Nat}
include hf

theorem fAdd_of_nan (h : (f.value a).isNan = true ∨ (f.value b).isNan = true) (sub : Bool) :
    fAdd f rm z sub a b = (f.nanCode, if [a, b].any (fun x => (f.value x).isSig) then flagIV else 0) := by
  have hsig : ∀ y : Machine.Num, y = (if sub then (f.read z b).neg else f.read z b) →
      y.isNan = (f.value b).isNan ∧ y.isSig = (f.value b).isSig := by
    rintro y rfl
    cases sub <;> simp [isNan_read hf, isSig_read hf]
  obtain ⟨hnan, hsig⟩ := hsig _ rfl
  unfold fAdd
  dsimp only
  rw [sumExact_of_nan rm (by simpa [hnan, isNan_read hf] using h)]
  simp [FFmt.round, sigFlag, flagIf, hsig, isSig_read hf]

theorem fMul_of_nan (h : (f.value a).isNan = true ∨ (f.value b).isNan = true) :
    fMul f rm z a b = (f.nanCode, if [a, b].any (fun x => (f.value x).isSig) then flagIV else 0) := by
  unfold fMul
  dsimp only
  rw [mulExact_of_nan (by simpa [isNan_read hf] using h)]
  simp [FFmt.round, sigFlag, flagIf, isSig_read hf]

theorem fFma_of_nan_factor (h : (f.value a).isNan = true ∨ (f.value b).isNan = true) :
    fFma f rm z a b c = (f.nanCode, if [a, b, c].any (fun x => (f.value x).isSig) then flagIV else 0) := by
  unfold fFma
  dsimp only
  rw [mulExact_of_nan (by simpa [isNan_read hf] using h)]
  dsimp only
  rw [sumExact_of_nan rm rfl]
  simp [FFmt.round, sigFlag, flagIf, isSig_read hf]

theorem fFma_of_nan_addend (hc : (f.value c).isNan = true) (ha : (f.value a).isNan = false) (hb : (f.value b).isNan = false)
    (ha' : (f.value a).isInf = false) (hb' : (f.value b).isInf = false) :
    fFma f rm z a b c = (f.nanCode, if [c].any (fun x => (f.value x).isSig) then flagIV else 0) := by
  unfold fFma
  dsimp only
  rw [sumExact_of_nan rm (by simp [isNan_read hf, hc]), mulExact_of_finite (by rw [isNan_read hf, ha]) (by rw [isNan_read hf, hb])
    (by rw [isInf_read hf, ha']) (by rw [isInf_read hf, hb'])]
  simp [FFmt.round, sigFlag, flagIf, isSig_read hf, isSig_of_not_nan ha, isSig_of_not_nan hb]

theorem fRnd_of_nan (h : (f.value a).isNan = true) :
    fRnd f rm z a = (f.nanCode, if [a].any (fun x => (f.value x).isSig) then flagIV else 0) := by
  rw [← isNan_read hf z] at h
  simp only [← isSig_read hf z]
  unfold fRnd
  cases hr : f.read z a with
  | nan sg => simp [hr, Num.isSig, flagIf]
  | fin | inf => rw [hr] at h; cases h

theorem fMinMax_of_nans (mx : Bool) (ha : (f.value a).isNan = true) (hb : (f.value b).isNan = true) :
    fMinMax f z mx a b = (f.nanCode, if [a, b].any (fun x => (f.value x).isSig) then flagIV else 0) := by
  simp [fMinMax, isNan_read hf, ha, hb, sigFlag, flagIf, isSig_read hf]

/-- FMIN and FMAX return the source that is no NaN, whichever it is. -/
theorem fMinMax_of_nan (mx : Bool) (ha : (f.value a).isNan = true) (hb : (f.value b).isNan = false) :
    fMinMax f z mx a b = ((f.round 0 false (f.read z b)).1, if [a].any (fun x => (f.value x).isSig) then flagIV else 0)
    ∧ fMinMax f z mx b a = ((f.round 0 false (f.read z b)).1, if [a].any (fun x => (f.value x).isSig) then flagIV else 0) := by
  have hsig := isSig_of_not_nan hb
  constructor <;> simp [fMinMax, isNan_read hf, ha, hb, sigFlag, flagIf, isSig_read hf, hsig]

end

/-- Settles O4: the rows by the shared end of lane operations, NaN sources by the exact operation that they make a NaN, and the
FPE by the group's passing of its last operation. -/
theorem floatingArithmetic : Obligations.FloatingArithmetic := by
  refine ⟨fun s w hq hoff => ?_, fun ty rm z a b c => ?_, fun s w i r hq hclear hlast => ?_⟩
  · intro ty f rm z a b c
    refine ⟨fun h => ?_, fun h => ?_, fun h => ?_, fun h => ?_, fun h => ?_, fun h => ?_, fun h => ?_, fun h => ?_⟩
    · exact (floatOp2_flagged (f := fun f rm z => fAdd f rm z false) rfl rfl).givesF hq hoff h
    · exact (floatOp2_flagged (f := fun f rm z => fAdd f rm z true) rfl rfl).givesF hq hoff h
    · exact (floatOp2_flagged (f := fMul) rfl rfl).givesF hq hoff h
    · exact (ffma_flagged h _).givesF hq hoff h
    · exact (floatOp2_flagged (f := fun f _ z => fMinMax f z false) rfl rfl).givesF hq hoff h
    · exact (floatOp2_flagged (f := fun f _ z => fMinMax f z true) rfl rfl).givesF hq hoff h
    · exact (floatOp1_flagged (f := fRnd) rfl rfl).givesF hq hoff h
    · exact (floatOp1_flagged (f := fun f _ _ a => (fClass f a, 0)) rfl rfl).givesF hq hoff h
  · have hf := tyFmt_eb_pos ty
    exact ⟨fun h sub => fAdd_of_nan hf rm z h sub, fMul_of_nan hf rm z, fFma_of_nan_addend hf rm z, fFma_of_nan_factor hf rm z,
      fRnd_of_nan hf rm z, fMinMax_of_nans hf z, fMinMax_of_nan hf z⟩
  · intro f rm z a b c hmem val fl on hon
    have hop : FlaggedOp s i w false r := by
      simp only [List.mem_cons, Prod.mk.injEq, List.not_mem_nil, or_false] at hmem
      rcases hmem with ⟨rfl, rfl⟩ | ⟨rfl, rfl⟩ | ⟨rfl, rfl⟩ | ⟨rfl, rfl⟩ | ⟨rfl, rfl⟩ | ⟨rfl, rfl⟩ | ⟨rfl, rfl⟩
      · exact floatOp2_flagged (f := fun f rm z => fAdd f rm z false) rfl rfl
      · exact floatOp2_flagged (f := fun f rm z => fAdd f rm z true) rfl rfl
      · exact floatOp2_flagged (f := fMul) rfl rfl
      · exact ffma_flagged hclear _
      · exact floatOp2_flagged (f := fun f _ z => fMinMax f z false) rfl rfl
      · exact floatOp2_flagged (f := fun f _ z => fMinMax f z true) rfl rfl
      · exact floatOp1_flagged (f := fRnd) rfl rfl
    exact ⟨_, rfl, hop.takesFpe hq hclear hlast hon⟩

end Sys2Proof.Proofs
end

/-! ### Packed arithmetic (04 R131-R133) -/

section
namespace Sys2Proof.Proofs
open Sys2Proof Sys2Proof.Machine Sys2Proof.Laws

/-! #### Packed operations and dot products (04 R131-R133) -/

theorem packedOp2_flagged {s : State} {i : Instr} {w : NOp} {rounds : Bool} {mask : Nat}
    {f : FFmt → Nat → Bool → Nat → Nat → Nat × Flags} (hrow : nativeRow s i = some (w, nativeRow.packedRow w rounds mask))
    (hrun : exec i s = .next (packedOp2 w rounds mask f s)) : FlaggedOp s i w false (fun l =>
      let g (j : Nat) := f (tyFmt (fTy w)) (roundOf (me s) w) ((me s).fmode.getLsbD 3) (elem2 (aVal (me s) w false l) j)
        (elem2 (bVal (me s) w false (immValue (fTy w) (fImm w)) l) j)
      pack2 (g 0) (g 1)) :=
  ⟨nativeRow.packedRow w rounds mask, fun c co l =>
      let a := srcA c co false l
      let b := srcB c co false (immValue (fTy w) (fImm w)) l
      let g (j : Nat) : Nat × Flags := f (tyFmt (fTy w)) (roundOf co w) (ftzOf co) (elem2 a j) (elem2 b j)
      pack2 (g 0) (g 1), hrow, rfl, hrun, fun l => by dsimp only; rw [srcA_opCtx, srcB_opCtx]; rfl⟩

theorem hfma2_flagged (s : State) (w : NOp) : FlaggedOp s (.hfma2 w) w false (fun l =>
    let g (j : Nat) := fFma (tyFmt (fTy w)) (roundOf (me s) w) ((me s).fmode.getLsbD 3) (elem2 (aVal (me s) w false l) j)
      (elem2 (bVal (me s) w false 0 l) j) (elem2 (cVal (me s) w false l) j)
    pack2 (g 0) (g 1)) :=
  ⟨_, _, rfl, rfl, rfl, fun l => by rw [srcA_opCtx, srcB_opCtx, srcC_opCtx]; rfl⟩

theorem hdot2_flagged (s : State) (w : NOp) : FlaggedOp s (.hdot2 w) w false (fun l =>
    let z := (me s).fmode.getLsbD 3
    let x (j : Nat) := (tyFmt (fTy w)).read z (elem2 (aVal (me s) w false l) j)
    let y (j : Nat) := (tyFmt (fTy w)).read z (elem2 (bVal (me s) w false 0 l) j)
    let d := fmtF32.read z (fBits 8 (cVal (me s) w false l))
    fRes (dotRound (roundOf (me s) w) z [(x 0, y 0), (x 1, y 1)] d (sigFlag [x 0, y 0, x 1, y 1, d]))) :=
  ⟨_, _, rfl, rfl, rfl, fun l => by rw [srcA_opCtx, srcB_opCtx, srcC_opCtx]; rfl⟩

/-- Settles O5: two elements side by side, and dot products rounded once. -/
theorem packedArithmetic : Obligations.PackedArithmetic := by
  intro s w hq hoff ty f rm z a b c pair f32
  refine ⟨fun h => ?_, fun h => ?_, fun h => ?_, fun h => ?_, fun h => ?_, fun h => ?_, fun h => ?_⟩
  · exact (packedOp2_flagged (f := fun f rm z => fAdd f rm z (fOpx w % 2 == 1)) rfl rfl).givesF hq hoff h
  · exact (packedOp2_flagged (f := fMul) rfl rfl).givesF hq hoff h
  · exact (hfma2_flagged s w).givesF hq hoff h
  · exact (packedOp2_flagged (f := fun f _ z => fMinMax f z false) rfl rfl).givesF hq hoff h
  · exact (packedOp2_flagged (f := fun f _ z => fMinMax f z true) rfl rfl).givesF hq hoff h
  · exact (hdot2_flagged s w).givesF hq hoff h
  · refine native_givesF (f := fun c s l => fRes (fDot4 (nfOf (fmtReg s (coachOf s c.k).ctx (fX w % 16)))
      (nfOf (fmtReg s (coachOf s c.k).ctx (field (fX w) 7 4))) (roundOf (coachOf s c.k) w) (ftzOf (coachOf s c.k))
      (fBits 8 (srcA c (coachOf s c.k) false l)) (fBits 8 (srcB c (coachOf s c.k) false 0 l))
      (fBits 8 (srcC c (coachOf s c.k) false l)))) rfl h rfl rfl hq hoff fun l => ?_
    rw [srcA_opCtx, srcB_opCtx, srcC_opCtx]
    rfl

end Sys2Proof.Proofs
end

/-! ### Conversions (04 R134-R137) -/

section
namespace Sys2Proof.Proofs
open Sys2Proof Sys2Proof.Machine Sys2Proof.Laws

/-! #### Conversions, packing and scaling (04 R134-R137) -/

theorem cvt_flagged (s : State) (w : NOp) : FlaggedOp s (.cvt w) w (tyWide (fTy w)) (fun l =>
    convert (fOpx w % 16) (fTy w) (roundOf (me s) w) ((me s).fmode.getLsbD 3) (aVal (me s) w (tyWide (fOpx w % 16)) l)) :=
  ⟨_, _, rfl, rfl, rfl, fun l => by rw [srcA_opCtx]; rfl⟩

/-- The packed types are named, not tested for. -/
theorem mem_tyPacked (ty : Nat) : tyPacked.contains ty = true ↔ ty = 9 ∨ ty = 10 := by simp [tyPacked]

theorem scalex_flagged (s : State) (w : NOp) : FlaggedOp s (.scalex w) w false (fun l =>
    let f := tyFmt (fTy w)
    let rm := roundOf (me s) w
    let z := (me s).fmode.getLsbD 3
    let a := aVal (me s) w false l
    let k := tyInt 0 (bVal (me s) w false (immValue 0 (fImm w)) l)
    if fOpx w % 2 = 1 then exponentOf f z (fBits (fTy w) a)
    else if fTy w = 9 ∨ fTy w = 10 then pack2 (scaleElem f rm z (elem2 a 0) k) (scaleElem f rm z (elem2 a 1) k)
    else fRes (scaleElem f rm z (fBits (fTy w) a) k)) :=
  ⟨_, _, rfl, rfl, rfl, fun l => by
    rw [srcA_opCtx, srcB_opCtx]
    simp only [beq_iff_eq, mem_tyPacked]
    rfl⟩

/-- A narrow element lies whole within its word (04 R136). -/
theorem element_below_word {w : NOp} (hty : tyIn w tyNarrow = true) (hx : posOk w = true) :
    tyBits (fTy w) ≤ 32 - tyBits (fTy w) * (fOpx w % 8) := by
  have hpos : onlyBits 7 (fOpx w) = true ∧ fOpx w * tyBits (fTy w) < 32 := by simpa [posOk, hty] using hx
  obtain ⟨hlow, hlt⟩ := hpos
  have hmod : fOpx w % 8 = fOpx w := Nat.mod_eq_of_lt (Nat.lt_succ_of_le (onlyBits_le hlow))
  have hbits : tyBits (fTy w) = 16 ∨ tyBits (fTy w) = 8 ∨ tyBits (fTy w) = 4 := by
    have hmem : fTy w ∈ tyNarrow := by simpa [tyIn] using hty
    simp only [tyNarrow, List.mem_cons, List.not_mem_nil, or_false] at hmem
    rcases hmem with h | h | h | h | h | h | h | h <;> rw [h] <;> decide
  rw [hmod]
  rcases hbits with h | h | h <;> rw [h] at hlt ⊢ <;> omega

theorem wrapNat_mod (n a : Nat) : wrapNat n ((a % 2 ^ n : Nat) : Int) = wrapNat n (a : Int) := by
  unfold wrapNat
  rw [Int.natCast_mod, Int.emod_emod]

/-- The register form of an integer depends on its low bits alone. -/
theorem tyOut_mod (ty a : Nat) : tyOut ty ((a % 2 ^ tyBits ty : Nat) : Int) = tyOut ty (a : Int) := by
  unfold tyOut
  rw [wrapNat_mod]

theorem convert_int {sty ty : Nat} (hs : tyIsFloat sty = false) (ht : tyIsFloat ty = false) (rm : Nat) (z : Bool) (d : Dword) :
    let u := min (max (tyInt sty d) (tyMin ty)) (tyMax ty)
    convert sty ty rm z d = (tyOut ty u, if u = tyInt sty d then 0 else flagOV) := by
  intro u
  unfold convert
  simp only [hs, ht, Bool.false_eq_true, if_false, clampInt_eq]
  by_cases h : u = tyInt sty d
  · simp [u, h, flagIf]
  · simp [u, h, flagIf]

/-- Settles O6: each conversion as it stands, a packed element by its bits. -/
theorem conversions : Obligations.Conversions := by
  refine ⟨fun s w hq hoff => ?_, fun sty ty rm z d hs ht => convert_int hs ht rm z d⟩
  intro ty rm z bits pos
  refine ⟨(cvt_flagged s w).givesF hq hoff, fun h => ?_, fun h => ?_, fun h => ?_, (scalex_flagged s w).givesF hq hoff⟩
  · refine native_givesF (f := fun c s l => fRes (convertNf (nfOf (fmtReg s (coachOf s c.k).ctx (fX w % 16))) ((fX w).testBit 4)
      (fTy w) (roundOf (coachOf s c.k) w) (srcA c (coachOf s c.k) false l)
      (if (fX w).testBit 5 then tyInt 0 (srcB c (coachOf s c.k) false 0 l) else 0))) rfl h rfl rfl hq hoff fun l => ?_
    rw [srcA_opCtx, srcB_opCtx]
  · obtain ⟨-, hx, hty⟩ := fields_of_clear h rfl
    refine laneOp_gives rfl h rfl rfl hq fun l => ?_
    rw [srcA_opCtx, srcB_opCtx, plain, bitInsert_eq, min_eq_left (element_below_word hty hx)]
  · refine laneOp_gives rfl h rfl rfl hq fun l => ?_
    rw [srcA_opCtx, plain, ← tyOut_mod]

end Sys2Proof.Proofs
end

/-! ### The long functions (04 R130) -/

section
namespace Sys2Proof.Proofs
open Sys2Proof Sys2Proof.Machine Sys2Proof.Laws

/-! #### The seven functions (04 R130) -/

theorem function_givesLong {s : State} {i : Instr} {w : NOp} {k : FFun}
    (hrow : nativeRow s i = some (w, nativeRow.float1Row w true true)) (hrun : exec i s = .next (floatOp1 w true true (fFun k) s))
    (hq : noQueue w = true) (hclear : clear s i = true) : GivesLong s i w false (fun l => fRes (fFun k (tyFmt (fTy w))
      (roundOf (me s) w) ((me s).fmode.getLsbD 3) (fBits (fTy w) (aVal (me s) w false l)))) := by
  have hnative : exec i s = .next (native w (nativeRow.float1Row w true true) (fun c s => deliver c false (fun l => fRes (fFun k
      (tyFmt (fTy w)) (roundOf (coachOf s c.k) w) (ftzOf (coachOf s c.k)) (fBits (fTy w) (srcA c (coachOf s c.k) false l)))) s) s) :=
    hrun
  refine native_givesLong (f := fun c s l => fRes (fFun k (tyFmt (fTy w)) (roundOf (coachOf s c.k) w) (ftzOf (coachOf s c.k))
    (fBits (fTy w) (srcA c (coachOf s c.k) false l)))) hnative hclear hrow rfl hq fun l => ?_
  rw [srcA_opCtx]
  rfl

/-- F32, F16 and BF16, by their type codes. -/
def IsFloatType (ty : Nat) : Prop := ty = 8 ∨ ty = 11 ∨ ty = 12

/-- The code of 1. -/
def oneCode (ty : Nat) : Nat := if ty = 8 then 0x3F800000 else if ty = 11 then 0x3C00 else 0x3F80

/-- The sign of a zero, put before a code. -/
theorem exists_sign {f : FFmt} {sg : Nat} (h : sg = 0 ∨ sg = f.signBit) : ∃ neg, ∀ c, f.signed neg c = sg + c := by
  obtain rfl | rfl := h
  · exact ⟨false, fun c => (Nat.zero_add c).symm⟩
  · exact ⟨true, fun _ => rfl⟩

theorem roundPrec_one {p rm : Nat} {emin : Int} (h : emin ≤ 0) :
    roundPrec p emin rm false 1 0 = ((-emin).toNat * 2 ^ (p - 1) + 2 ^ (p - 1), false, false) := by
  have hlog : floorLog 1 0 = 0 := rfl
  have hexact : roundAt rm false 1 0 (0 - (p - 1 : Nat)) = (2 ^ (p - 1), false) := by
    unfold roundAt
    rw [if_pos (by omega), show (0 - (0 - ((p - 1 : Nat) : Int))).toNat = p - 1 by omega, Nat.one_shiftLeft]
  unfold roundPrec
  dsimp only
  rw [hlog, if_neg (by omega), hexact, if_neg (by omega),
    show (0 - ((p - 1 : Nat) : Int) - (emin - (p - 1 : Nat))).toNat = (-emin).toNat by omega]

section
variable {ty : Nat} (hty : IsFloatType ty) (rm : Nat) (z neg : Bool)
include hty

theorem read_zero : ∃ e, (tyFmt ty).read z ((tyFmt ty).signed neg 0) = .fin neg 0 e := by
  rcases hty with rfl | rfl | rfl <;> cases z <;> cases neg <;> exact ⟨_, rfl⟩

theorem read_infCode : (tyFmt ty).read z ((tyFmt ty).signed neg (tyFmt ty).infCode) = .inf neg := by
  rcases hty with rfl | rfl | rfl <;> cases z <;> cases neg <;> rfl

theorem read_oneCode : (tyFmt ty).read z (oneCode ty) = .fin false (2 ^ ((tyFmt ty).p - 1)) (-((tyFmt ty).p - 1 : Nat)) := by
  rcases hty with rfl | rfl | rfl <;> cases z <;> decide

/-- One is exact in each format, whatever the mode. -/
theorem round_one : (tyFmt ty).round rm z (.fin false 1 0) = (oneCode ty, 0) := by
  have hcode : (-(tyFmt ty).emin).toNat * 2 ^ ((tyFmt ty).p - 1) + 2 ^ ((tyFmt ty).p - 1) = oneCode ty
      ∧ (tyFmt ty).emin ≤ 0 ∧ oneCode ty < (tyFmt ty).infCode ∧ 2 ^ ((tyFmt ty).p - 1) ≤ oneCode ty := by
    rcases hty with rfl | rfl | rfl <;> decide
  obtain ⟨hone, hemin, hfinite, hnormal⟩ := hcode
  unfold FFmt.round
  dsimp only
  rw [if_neg (by decide), roundPrec_one hemin, hone]
  dsimp only
  rw [if_neg (by omega), decide_eq_false (by omega), Bool.and_false, if_neg (by decide)]
  rfl

/-- What the functions give at a zero, whose sign is `sg`. -/
theorem fFun_of_zero {sg : Nat} (hsg : sg = 0 ∨ sg = (tyFmt ty).signBit) :
    fFun .rcp (tyFmt ty) rm z sg = (sg + (tyFmt ty).infCode, flagDZ) ∧ fFun .rsq (tyFmt ty) rm z sg = (sg + (tyFmt ty).infCode, flagDZ)
    ∧ fFun .sqrt (tyFmt ty) rm z sg = (sg, 0) ∧ fFun .exp2 (tyFmt ty) rm z sg = (oneCode ty, 0)
    ∧ fFun .log2 (tyFmt ty) rm z sg = ((tyFmt ty).signBit + (tyFmt ty).infCode, flagDZ)
    ∧ fFun .sin (tyFmt ty) rm z sg = (sg, 0) ∧ fFun .cos (tyFmt ty) rm z sg = (oneCode ty, 0) := by
  obtain ⟨neg, hsign⟩ := exists_sign hsg
  obtain ⟨e, hread⟩ := read_zero hty z neg
  rw [hsign, Nat.add_zero] at hread
  have hneg : ∀ c, (tyFmt ty).signed true c = (tyFmt ty).signBit + c := fun _ => rfl
  simp only [fFun, hread, fExp2, if_true, round_one hty, hsign, hneg, Nat.add_zero, and_self]

theorem fLog2_of_one : fFun .log2 (tyFmt ty) rm z (oneCode ty) = (0, 0) := by
  have hzero : -(((tyFmt ty).p - 1 : Nat) : Int) + ((tyFmt ty).p - 1 : Nat) = 0 := by omega
  have hpos : ¬ 2 ^ ((tyFmt ty).p - 1) = 0 := by simp
  simp only [fFun, read_oneCode hty, hpos, fLog2, Nat.log2_two_pow, hzero, if_true, if_false, Bool.false_eq_true]

end

section
variable {f : FFmt} (rm : Nat) (z : Bool) {x : Nat}

/-- The rows of the table below zero that name NaN. -/
theorem fFun_of_negative {m : Nat} {e : Int} (hread : f.read z x = .fin true m e) (hm : m ≠ 0) :
    ∀ k ∈ [FFun.rsq, .sqrt, .log2], fFun k f rm z x = (f.nanCode, flagIV) := by
  intro k hk
  simp only [List.mem_cons, List.not_mem_nil, or_false] at hk
  rcases hk with rfl | rfl | rfl <;> simp only [fFun, hread, hm, if_true, if_false]

theorem fFun_of_nan {sg : Bool} (hread : f.read z x = .nan sg) (k : FFun) :
    fFun k f rm z x = (f.nanCode, if sg then flagIV else 0) := by
  unfold fFun
  rw [hread]
  rfl

theorem fFun_of_inf (hread : f.read z x = .inf false) : fFun .rcp f rm z x = (0, 0) ∧ fFun .rsq f rm z x = (0, 0)
    ∧ (∀ k ∈ [FFun.sqrt, .exp2, .log2], fFun k f rm z x = (f.infCode, 0))
    ∧ ∀ k ∈ [FFun.sin, .cos], fFun k f rm z x = (f.nanCode, flagIV) := by
  simp [fFun, hread, FFmt.signed]

theorem fFun_of_negInf (hread : f.read z x = .inf true) : fFun .rcp f rm z x = (f.signBit + 0, 0) ∧ fFun .exp2 f rm z x = (0, 0)
    ∧ ∀ k ∈ [FFun.rsq, .sqrt, .log2, .sin, .cos], fFun k f rm z x = (f.nanCode, flagIV) := by
  simp [fFun, hread, FFmt.signed]

end

/-- Settles O7: the functions are long by the shared end of long operations, and their table by what each special code reads as. -/
theorem longFunctions : Obligations.LongFunctions := by
  refine ⟨fun s w hq => ?_, fun ty rm z hty => ?_⟩
  · intro ty r
    exact ⟨function_givesLong rfl rfl hq, function_givesLong rfl rfl hq, function_givesLong rfl rfl hq,
      function_givesLong rfl rfl hq, function_givesLong rfl rfl hq, function_givesLong rfl rfl hq, function_givesLong rfl rfl hq⟩
  · intro f neg one at_
    exact ⟨fun sg hsg => fFun_of_zero hty rm z hsg, fFun_of_inf rm z (read_infCode hty z false),
      fFun_of_negInf rm z (read_infCode hty z true), fun x m e hread hm => fFun_of_negative rm z hread hm,
      fun x sg k hread => fFun_of_nan rm z hread k, fLog2_of_one hty rm z⟩

end Sys2Proof.Proofs
end

/-! ### Comparisons (04 R115, R116) -/

section
namespace Sys2Proof.Proofs
open Sys2Proof Sys2Proof.Machine Sys2Proof.Laws

/-! #### Lane masks (01 R18) -/

theorem testBit_foldl_lanes (f : Nat → Bool) (n : Nat) :
    (List.range n).foldl (fun a l => if f l then a + 2 ^ l else a) 0 < 2 ^ n
    ∧ ∀ i, ((List.range n).foldl (fun a l => if f l then a + 2 ^ l else a) 0).testBit i = (decide (i < n) && f i) := by
  induction n with
  | zero => simp
  | succ n ih =>
    obtain ⟨hlt, hbit⟩ := ih
    rw [List.range_succ, List.foldl_append]
    set a := (List.range n).foldl (fun a l => if f l then a + 2 ^ l else a) 0
    have hstep : (if f n then a + 2 ^ n else a) = 2 ^ n * (f n).toNat + a := by
      cases f n <;> simp [Nat.add_comm]
    refine ⟨?_, fun i => ?_⟩
    · show (if f n then a + 2 ^ n else a) < _
      rw [Nat.pow_succ]
      split <;> omega
    · show (if f n then a + 2 ^ n else a).testBit i = _
      rw [hstep, Nat.testBit_two_pow_mul_add _ hlt]
      by_cases hi : i < n
      · simp [hi, hbit, show i < n + 1 by omega]
      · by_cases heq : i = n
        · subst heq; cases f i <;> simp
        · have hone : 1 < 2 ^ (i - n) := Nat.one_lt_two_pow (by omega)
          have hbig : (f n).toNat.testBit (i - n) = false :=
            Nat.testBit_lt_two_pow (lt_of_le_of_lt (Bool.toNat_le _) hone)
          simp [hi, hbig, show ¬ i < n + 1 by omega]

theorem getLsbD_maskOf (f : Nat → Bool) {l : Nat} (hl : l < 64) : (maskOf f).getLsbD l = f l := by
  rw [maskOf, BitVec.getLsbD_ofNat, (testBit_foldl_lanes f 64).2]
  simp [hl]

/-! #### Comparisons (04 R115, R116) -/

/-- Without MSK a comparison is a lane operation of 0 or 1. -/
theorem cmpOp_value {s : State} {w : NOp} (sp : OpSpec) (f : OpCtx → Coach → Nat → Bool × Flags) (hmsk : (fX w).testBit 3 = false) :
    cmpOp w sp f s = laneOp w sp false (fun c co l => (if (f c co l).1 then 1 else 0, (f c co l).2)) s := by
  have hm : cmpMsk w = false := hmsk
  simp only [cmpOp, laneOp, hm, Bool.false_eq_true, if_false]

theorem raiseFlags_of_off {co : Coach} {i : Iss} {fl : List Mask} (hoff : field co.fmode.toNat 10 5 = 0) :
    raiseFlags co i fl = { co with fstat := co.fstat ||| BitVec.ofNat 32 (flagWord fl) } :=
  raiseFlags_of_none (by simp [enabledBits, hoff])

/-- With MSK it combines its bits into a mask register, and the group passes. -/
theorem cmpOp_mask {s : State} {i : Instr} {w : NOp} {sp : OpSpec} {f : OpCtx → Coach → Nat → Bool × Flags}
    {t : Nat → Bool × Flags} (hrow : nativeRow s i = some (w, sp)) (hrun : exec i s = .next (cmpOp w sp f s)) (hshort : sp.long = false)
    (hmsk : (fX w).testBit 3 = true) (hoff : field (me s).fmode.toNat 10 5 = 0) (hclear : clear s i = true)
    (ht : ∀ l, f (opCtx s w sp) (me s) l = t l) :
    exec i s = .next (become s { mset (me s) (cmpMk w) (cmpMask (mget (me s) (cmpMk w)) (enOf s w)
        (maskOf (fun l => (enOf s w).getLsbD l && (t l).1)) (cmpCmb w)) with
      fstat := (me s).fstat ||| BitVec.ofNat 32 (flagWord (laneFlags (enOf s w) (fun l => (t l).2))) }) := by
  have hm : cmpMsk w = true := hmsk
  have hfpe : (me s).fpeHeld = [] := (settled_spec (settled_of_clear hclear hrow)).2
  obtain rfl : f (opCtx s w sp) (me s) = t := funext ht
  rw [hrun, cmpOp, native_of_clear hclear hrow]
  simp only [hm, if_true, deliverMask, hshort, Bool.false_eq_true, if_false]
  rw [raiseFlags_of_off (by rw [mset_fmode]; exact hoff), finishGroup_setCoach (by simpa using hfpe), mset_fstat]
  rfl

/-- The bits of the new mask, lane by lane. -/
theorem getLsbD_cmpMask {old en : Mask} {t : Nat → Bool} {cmb l : Nat} (hl : l < 64) :
    (cmpMask old en (maskOf (fun l => en.getLsbD l && t l)) cmb).getLsbD l
      = if en.getLsbD l then (if cmb = 0 then t l else if cmb = 1 then old.getLsbD l && t l else old.getLsbD l || t l)
        else decide (cmb ≠ 0) && old.getLsbD l := by
  have ht : (maskOf (fun l => en.getLsbD l && t l)).getLsbD l = (en.getLsbD l && t l) := getLsbD_maskOf _ hl
  unfold cmpMask
  match cmb with
  | 0 => cases he : en.getLsbD l <;> simp [ht, he]
  | 1 =>
    change (old &&& ~~~en ||| old &&& en &&& maskOf fun l => en.getLsbD l && t l).getLsbD l = _
    rw [BitVec.getLsbD_or, BitVec.getLsbD_and, BitVec.getLsbD_and, BitVec.getLsbD_and, BitVec.getLsbD_not, ht]
    cases he : en.getLsbD l <;> simp [hl]
  | n + 2 => cases he : en.getLsbD l <;> simp [ht, he]

theorem intCond_eq (cc : Nat) (x y : Int) : intCond cc x y
    = if cc = 0 then decide (x = y) else if cc = 1 then decide (x ≠ y) else if cc = 2 then decide (x < y)
      else if cc = 3 then decide (x ≤ y) else if cc = 4 then decide (y < x) else decide (y ≤ x) := by
  match cc with
  | 0 | 1 | 2 | 3 | 4 | n + 5 => rfl

/-- The condition of ICMP in a lane. -/
def intCondOf (s : State) (w : NOp) (l : Nat) : Bool :=
  intCond (cmpCc w) (tyInt (fTy w) (aVal (me s) w (tyWide (fTy w)) l)) (tyInt (fTy w) (bVal (me s) w (tyWide (fTy w)) 0 l))

/-- The condition of FCMP in a lane, and its flags. -/
def floatCondOf (s : State) (w : NOp) (l : Nat) : Bool × Flags :=
  fCond (tyFmt (fTy w)) ((me s).fmode.getLsbD 3) (cmpCc w) (fBits (fTy w) (aVal (me s) w false l))
    (fBits (fTy w) (bVal (me s) w false 0 l))

/-- Settles O8: without MSK a comparison is a lane operation, with it a write of a mask register. -/
theorem comparisons : Obligations.Comparisons := by
  intro s w hq hoff ty wide cc mk cmb x y ti tf mask
  have hti : intCondOf s w = ti := funext fun l => intCond_eq _ _ _
  have htf : floatCondOf s w = tf := rfl
  refine ⟨fun h hmsk => ?_, fun h hmsk => ?_, fun h hmsk => ?_, fun h hmsk => ?_⟩
  · rw [← hti]
    refine laneOp_gives (congrArg Host.Outcome.next (cmpOp_value _ _ hmsk)) h rfl rfl hq fun l => ?_
    rw [srcA_opCtx, srcB_opCtx]
    rfl
  · rw [← hti]
    refine ⟨_, (cmpOp_mask (t := fun l => (intCondOf s w l, 0)) rfl rfl rfl hmsk hoff h fun l => ?_).trans ?_,
      fun l hl => getLsbD_cmpMask hl⟩
    · rw [srcA_opCtx, srcB_opCtx]
      rfl
    · rw [laneFlags_zero, flagWord_noFlags]
      rfl
  · rw [← htf]
    refine FlaggedOp.givesF ⟨_, _, rfl, rfl, congrArg Host.Outcome.next (cmpOp_value _ _ hmsk), fun l => ?_⟩ hq hoff h
    rw [srcA_opCtx, srcB_opCtx]
    rfl
  · rw [← htf]
    refine ⟨_, cmpOp_mask (t := floatCondOf s w) rfl rfl rfl hmsk hoff h fun l => ?_, fun l hl => getLsbD_cmpMask hl⟩
    rw [srcA_opCtx, srcB_opCtx]
    rfl

end Sys2Proof.Proofs
end

/-! ### Random draws and values of other lanes (04 R138-R144) -/

section
namespace Sys2Proof.Proofs
open Sys2Proof Sys2Proof.Machine Sys2Proof.Laws

/-! #### Lane operations over a coach that the operation has changed -/

/-- What a lane operation leaves depends only on the words of its registers. -/
theorem laneResult_of_words {s t : State} {w : NOp} {n fl : Nat} {val val' : Nat → Nat → Word} {co' : Coach}
    (h : LaneResult s t w n val fl co') (hval : ∀ l j, j < n → val l j = val' l j) : LaneResult s t w n val' fl co' := by
  obtain ⟨hmachine, hv, hs, hrest⟩ := h
  refine ⟨hmachine, fun r l hl => (hv r l hl).trans ?_, fun r => (hs r).trans ?_, hrest⟩
  · unfold laneAfter
    split
    · next k _ =>
      split
      · next hin => exact hval _ _ (by omega)
      · rfl
    · rfl
  · unfold scalarAfter
    split
    · next k _ _ _ =>
      split
      · next hin => exact hval _ _ (by omega)
      · rfl
    · rfl

/-- A lane operation without flags. -/
theorem deliver_plain {s : State} {i : Instr} {w : NOp} {sp : OpSpec} {wide : Bool} (f : Nat → Dword) (hclear : clear s i = true)
    (hrow : nativeRow s i = some (w, sp)) (hshort : sp.long = false) (hq : noQueue w = true) :
    ∃ co', deliver (opCtx s w sp) wide (fun l => (f l, 0)) s = setCoach s s.iss.coach co'
      ∧ LaneResult s (setCoach s s.iss.coach co') w (regsOf wide) (fun l j => resWord (f l) j) 0 co' := by
  have hz : laneFlags (enOf s w) (fun _ => 0) = noFlags := laneFlags_zero _
  obtain ⟨co', hrun, hres⟩ := deliver_lane (sp := sp) (wide := wide) (f := fun l => (f l, 0)) hshort hq
    (settled_spec (settled_of_clear hclear hrow)).2 (by rw [hz, enabledBits_noFlags])
  have hfl : flagBits (enOf s w) (fun l => (f l, (0 : Flags))) = 0 := by rw [flagBits, hz, flagWord_noFlags]
  exact ⟨co', hrun, hfl ▸ hres⟩

theorem settled_setCoach {s : State} {k : Nat} {co : Coach} (h : co.fpeHeld = []) : settled (setCoach s k co) k = true := by
  simp [settled, h]

theorem writtenAt_setCoach (s : State) (w : NOp) (co : Coach) (n : Nat) (val : Nat → Nat → Word) :
    writtenAt s (setCoach s s.iss.coach co) w n val = written s w co n val := by
  unfold writtenAt written
  rw [coachOf_setCoach]
  simp [setCoach]

/-- A group that passes after its coach has become `co`. -/
theorem finishGroup_become {s : State} {w : NOp} {sp : OpSpec} {co : Coach} (h : co.fpeHeld = []) :
    finishGroup (opCtx s w sp) (setCoach s s.iss.coach co) = become s co := finishGroup_setCoach h

/-! #### Random draws (04 R138-R140) -/

theorem drop_length_stalls {co co' : Coach} (h : co'.stalls = co.stalls) : turnedAway (co'.stalls.drop co.stalls.length) = 0 := by
  rw [h, List.drop_length]
  rfl

/-- What a draw gives in each lane. -/
def drawOf (s : State) (l : Nat) : Word := randWord (laneOf (me s) l).draw (BitVec.ofNat 32 (glaneOf s (me s) l)) (me s).seed

theorem rand_next {s : State} {w : NOp} (hclear : clear s (.rand w) = true) (hq : noQueue w = true) : ∃ t co',
    LaneResult s t w 1 (fun l _ => if fTy w = 8 then BitVec.ofNat 32 (randFloat (drawOf s l)) else drawOf s l) 0 co'
      ∧ exec (.rand w) s = .next { s with coaches := tput s.coaches s.iss.coach (advanceDraws co' s.iss.ga (enOf s w)) } := by
  obtain ⟨co', hrun, hres⟩ := deliver_plain (wide := false)
    (fun l => if fTy w = 8 then BitVec.ofNat 64 (randFloat (drawOf s l)) else (drawOf s l).setWidth 64) hclear rfl rfl hq
  have hstalls : co'.stalls = (me s).stalls := by rw [hres.rest]
  refine ⟨_, co', laneResult_of_words hres fun l j hj => ?_, congrArg Host.Outcome.next ((native_of_clear hclear rfl _).trans ?_)⟩
  · obtain rfl : j = 0 := Nat.lt_one_iff.1 hj
    show loOf (if _ then _ else _) = _
    split
    · exact loOf_ofNat _
    · exact loOf_setWidth _
  · refine (congrArg (fun t => modCoach t s.iss.coach _) hrun).trans ?_
    rw [modCoach_of_tget (tget_setCoach _ _ _), setCoach_setCoach]
    have hnone : turnedAway (co'.stalls.drop (me s).stalls.length) = 0 := drop_length_stalls hstalls
    show setCoach s s.iss.coach (advanceDraws co' s.iss.ga (enOf s w &&& ~~~(turnedAway (co'.stalls.drop (me s).stalls.length)))) = _
    rw [hnone, show enOf s w &&& ~~~(0 : Mask) = enOf s w from BitVec.and_allOnes]
    simp [setCoach]

theorem rseed_next {s : State} {w : NOp} {l0 : Nat} (hclear : clear s (.rseed w) = true) (hlow : lowLane (enOf s w) = some l0) :
    exec (.rseed w) s = .next (become s (modLanes { me s with seed := aVal (me s) w true l0 } (enOf s w)
      (fun l x => { x with draw := loOf (bVal (me s) w false (BitVec.ofNat 64 (fImm w)) l) }))) := by
  refine congrArg Host.Outcome.next ((native_of_clear hclear rfl _).trans ?_)
  simp only [hlow, srcA_opCtx, srcB_opCtx]
  exact finishGroup_become (co := modLanes _ _ _) (settled_spec (settled_of_clear hclear rfl)).2

/-! #### Values of other lanes (04 R141-R143) -/

theorem shflLane_eq (mode seg width l n : Nat) : shflLane mode seg width l n
    = let i := l % seg
      let k : Int := if mode = 0 then n else if mode = 1 then (i : Int) - n
        else if mode = 2 then (i : Int) + n else ((i ^^^ n : Nat) : Int)
      if 0 ≤ k ∧ k < seg ∧ (l - i : Nat) + k < width then (l - i) + k.toNat else l := by
  have hle : ∀ k : Int, (0 ≤ k ∧ k < seg ∧ (l - l % seg) + k.toNat < width)
      ↔ (0 ≤ k ∧ k < seg ∧ ((l - l % seg : Nat) : Int) + k < width) := fun k => by omega
  match mode with
  | 0 | 1 | 2 | m + 3 => exact if_congr (hle _) rfl rfl

/-- Every lane agrees with the lowest one exactly when every two lanes agree. -/
theorem all_head_iff (lanes : List Nat) (a : Nat → Dword) :
    (lanes.map a).all (fun v => some v == (lanes.map a).head?) = lanes.all (fun l => lanes.all (fun k => a l == a k)) := by
  rw [Bool.eq_iff_iff]
  cases lanes with
  | nil => simp
  | cons l0 rest =>
    simp only [List.map_cons, List.head?_cons, List.all_eq_true, List.mem_cons, List.mem_map, beq_iff_eq, Option.some.injEq]
    constructor
    · intro h l hl k hk
      have hhead : ∀ j, j = l0 ∨ j ∈ rest → a j = a l0 := by
        rintro j (rfl | hj)
        · rfl
        · exact h _ (Or.inr ⟨j, hj, rfl⟩)
      rw [hhead l hl, hhead k hk]
    · rintro h v (rfl | ⟨l, hl, rfl⟩)
      · rfl
      · exact h l (Or.inr hl) l0 (Or.inl rfl)

theorem ballot_next {s : State} {w : NOp} (hclear : clear s (.ballot w) = true) (hq : noQueue w = true) :
    exec (.ballot w) s = .next (written s w
      (if (fX w).testBit 4 then mset (me s) (fX w % 16) (maskOf (fun l => (enOf s w).getLsbD l && aVal (me s) w false l != 0))
        else me s) 2
      (fun _ j => resWord (maskOf (fun l => (enOf s w).getLsbD l && aVal (me s) w false l != 0)) j)) := by
  refine congrArg Host.Outcome.next ((native_of_clear hclear rfl _).trans ?_)
  have hfpe : (me s).fpeHeld = [] := (settled_spec (settled_of_clear hclear rfl)).2
  simp only [readOp_opCtx]
  split
  · refine (deliver_written rfl hq (settled_setCoach ?_)).trans (writtenAt_setCoach ..)
    simpa using hfpe
  · exact deliver_written rfl hq (settled_of_clear hclear rfl)

/-- Settles O9: each value is read off the lane operation; a draw moves the counter on after it. -/
theorem randomAndCrossLane : Obligations.RandomAndCrossLane := by
  refine ⟨fun s w hq => ⟨fun h => rand_next h hq, fun l0 h hlow => rseed_next h hlow⟩, ?_⟩
  intro s w hq ty wide width a seg from_ lanes vote
  refine ⟨fun h => ?_, fun h => ?_, fun h => ⟨_, fun l hl => getLsbD_maskOf _ hl, ballot_next h hq⟩⟩
  · refine laneOp_gives rfl h rfl rfl hq fun l => ?_
    simp only [srcA_opCtx, srcB_opCtx, shflLane_eq]
    rfl
  · refine laneOp_gives rfl h rfl rfl hq fun l => ?_
    simp only [srcA_opCtx]
    refine congrArg (fun b : Bool => plain (if b then 1 else 0)) ?_
    show _ = vote
    unfold vote
    split
    · next h0 => rw [if_pos h0, List.all_map]; rfl
    · next h1 => rw [if_neg (by omega), if_pos h1, List.any_map]; rfl
    · next h0 h1 => rw [if_neg h0, if_neg h1]; exact all_head_iff _ _

end Sys2Proof.Proofs
end

/-! ### Reductions (04 R144) -/

section
namespace Sys2Proof.Proofs
open Sys2Proof Sys2Proof.Machine Sys2Proof.Laws

/-! #### The tree over the enabled lanes (04 R144, 03 R100) -/

/-- What REDX or SCANX gives each lane, and its flags. -/
def treeResult (w : NOp) (scan : Bool) (c : OpCtx) (s : State) (l : Nat) : Dword × Flags :=
  let co := coachOf s c.k
  let value := fun l => srcA c co (tyWide (fTy w)) l
  let op := redOp (fTy w) (fOpx w % 8) (roundOf co w) (ftzOf co)
  let tree := treeLevels op (if co.width = 64 then 6 else 5) ((List.range co.width).map
    (fun l => if c.en.getLsbD l then some (redLeaf (fTy w) (ftzOf co) (value l)) else none))
  let node := if scan then scanPrefix op tree.1 (if (fOpx w).testBit 3 then l else l + 1)
    else ((tree.1.getLast?.getD [])[0]?.getD none, 0)
  (redOut (fTy w) (node.1.getD (redIdentity (fTy w) (fOpx w % 8))),
    sigFlag (if tyIsFloat (fTy w) then (lanesOf c.en).map (fun l => (tyFmt (fTy w)).value (fBits (fTy w) (value l))) else [])
      ||| tree.2 ||| node.2)

/-! #### The sum of UI32 values over any tree (04 R144) -/

/-- The number that a node stands for in a sum: an empty one is zero. -/
def nodeSum (n : Node) : Nat := (n.getD 0).toNat

/-- The sum operation of REDX on UI32. -/
def sumOp : Dword → Dword → Dword × Flags := redOp 1 0 0 false

theorem toNat_sumOp {x y : Dword} (hx : x.toNat < 2 ^ 32) (hy : y.toNat < 2 ^ 32) :
    (sumOp x y).1.toNat = (x.toNat + y.toNat) % 2 ^ 32 := by
  have hword : ∀ d : Dword, d.toNat < 2 ^ 32 → tyInt 1 d = (d.toNat : Int) := fun d hd => by
    show ((d.toNat % 2 ^ 32 : Nat) : Int) = _
    rw [Nat.mod_eq_of_lt hd]
  show (tyOut 1 (tyInt 1 x + tyInt 1 y)).toNat = _
  rw [tyOut_word (Nat.le_refl 1), hword x hx, hword y hy, ← Nat.cast_add, BitVec.ofInt_natCast, BitVec.toNat_setWidth,
    BitVec.toNat_ofNat]
  exact Nat.mod_eq_of_lt (by omega)

theorem nodeSum_joinNode {a b : Node} (ha : nodeSum a < 2 ^ 32) (hb : nodeSum b < 2 ^ 32) :
    nodeSum (joinNode sumOp a b).1 = (nodeSum a + nodeSum b) % 2 ^ 32 := by
  match a, b with
  | none, b => simpa [joinNode, nodeSum] using (Nat.mod_eq_of_lt hb).symm
  | some x, none => simpa [joinNode, nodeSum] using (Nat.mod_eq_of_lt ha).symm
  | some x, some y => exact toNat_sumOp ha hb

/-- A level keeps the sum and halves the number of nodes. -/
theorem nextLevel_sum (m : Nat) : ∀ l : List Node, l.length = 2 * m → (∀ v ∈ l, nodeSum v < 2 ^ 32) →
    (nextLevel sumOp l).1.length = m ∧ (∀ v ∈ (nextLevel sumOp l).1, nodeSum v < 2 ^ 32)
      ∧ ((nextLevel sumOp l).1.map nodeSum).sum % 2 ^ 32 = (l.map nodeSum).sum % 2 ^ 32 := by
  induction m with
  | zero =>
    intro l hlen hl
    obtain rfl : l = [] := List.length_eq_zero_iff.1 hlen
    simp [nextLevel]
  | succ m ih =>
    intro l hlen hl
    match l with
    | [] => simp at hlen
    | [a] => simp at hlen; omega
    | a :: b :: rest =>
      have ha : nodeSum a < 2 ^ 32 := hl a (by simp)
      have hb : nodeSum b < 2 ^ 32 := hl b (by simp)
      obtain ⟨hlen', hlt, hsum⟩ := ih rest (by simp at hlen; omega) (fun v hv => hl v (by simp [hv]))
      have hjoin := nodeSum_joinNode ha hb
      refine ⟨by simpa [nextLevel] using hlen', ?_, ?_⟩
      · intro v hv
        rcases List.mem_cons.1 hv with rfl | hv
        · exact hjoin ▸ Nat.mod_lt _ (by decide)
        · exact hlt v hv
      · show (nodeSum (joinNode sumOp a b).1 + ((nextLevel sumOp rest).1.map nodeSum).sum) % 2 ^ 32
          = (nodeSum a + (nodeSum b + (rest.map nodeSum).sum)) % 2 ^ 32
        omega

/-- The node at the top of the tree. -/
def topNode (levels : List (List Node)) : Node := ((levels.getLast?).getD [])[0]?.getD none

theorem topNode_cons (l : List Node) (n : Nat) (op : Dword → Dword → Dword × Flags) (up : List Node) :
    topNode (l :: (treeLevels op n up).1) = topNode (treeLevels op n up).1 := by
  cases n <;> simp [topNode, treeLevels]

theorem nodeSum_topNode (n : Nat) : ∀ l : List Node, l.length = 2 ^ n → (∀ v ∈ l, nodeSum v < 2 ^ 32) →
    nodeSum (topNode (treeLevels sumOp n l).1) = (l.map nodeSum).sum % 2 ^ 32 := by
  induction n with
  | zero =>
    intro l hlen hl
    obtain ⟨v, rfl⟩ := List.length_eq_one_iff.1 hlen
    simpa [topNode, treeLevels] using (Nat.mod_eq_of_lt (hl v (by simp))).symm
  | succ n ih =>
    intro l hlen hl
    obtain ⟨hlen', hlt, hsum⟩ := nextLevel_sum (2 ^ n) l (by rw [hlen, Nat.pow_succ, Nat.mul_comm]) hl
    calc nodeSum (topNode (treeLevels sumOp (n + 1) l).1)
        = nodeSum (topNode (treeLevels sumOp n (nextLevel sumOp l).1).1) := congrArg nodeSum (topNode_cons l n sumOp _)
      _ = ((nextLevel sumOp l).1.map nodeSum).sum % 2 ^ 32 := ih _ hlen' hlt
      _ = (l.map nodeSum).sum % 2 ^ 32 := hsum

/-- Settles O10: the results wait in a slot; every level of a tree of sums keeps the sum modulo 2^32. -/
theorem reductions : Obligations.Reductions := by
  refine ⟨?_, ?_⟩
  · intro s w hq ty wide op leaf sig tree id_
    refine ⟨fun h => ?_, fun h => ?_⟩
    · refine native_givesLong (f := treeResult w false) rfl h rfl rfl hq fun l => ?_
      simp only [treeResult, srcA_opCtx]
      exact Prod.ext rfl (BitVec.or_zero)
    · refine native_givesLong (f := treeResult w true) rfl h rfl rfl hq fun l => ?_
      simp only [treeResult, srcA_opCtx]
      rfl
  · intro vals n hlen hlt tree
    have hnodes : ∀ v ∈ vals, nodeSum v < 2 ^ 32 := fun v hv => by
      cases v with
      | none => decide
      | some x => exact hlt _ hv x rfl
    show (topNode (treeLevels sumOp n vals).1).getD 0 = BitVec.ofNat 64 ((vals.map nodeSum).sum % 2 ^ 32)
    rw [← nodeSum_topNode n vals hlen hnodes, nodeSum, BitVec.ofNat_toNat, BitVec.setWidth_eq]

end Sys2Proof.Proofs
end

/-! ### Operations on mask registers (04 R145-R149) -/

section
namespace Sys2Proof.Proofs
open Sys2Proof Sys2Proof.Machine Sys2Proof.Laws

/-! #### Mask registers (01 R14, R22) -/

theorem mget_zero (co : Coach) : mget co 0 = widthMask co.width := rfl

theorem mset_zero (co : Coach) (v : Mask) : mset co 0 v = co := rfl

/-- No mask register has a bit above the width. -/
theorem mget_within (co : Coach) (k : Nat) : mget co k &&& ~~~(widthMask co.width) = 0 := by
  have hself : widthMask co.width &&& ~~~(widthMask co.width) = 0 := BitVec.and_not_self _
  unfold mget
  split
  · exact hself
  · show tgetD 0 co.m k &&& widthMask co.width &&& ~~~(widthMask co.width) = 0
    rw [BitVec.and_assoc, hself]
    exact BitVec.and_zero

theorem mget_mset_same (co : Coach) {k : Nat} (hk : k ≠ 0) (v : Mask) : mget (mset co k v) k = v &&& widthMask co.width := by
  simp only [mset, mget, if_neg hk, tgetD_tset, if_true, Coach.all]
  rw [BitVec.and_assoc, BitVec.and_self]

theorem mget_mset_other (co : Coach) {j k : Nat} (hjk : j ≠ k) (v : Mask) : mget (mset co k v) j = mget co j := by
  by_cases hk : k = 0
  · rw [hk, mset_zero]
  · simp only [mset, mget, if_neg hk, tgetD_tset, if_neg (Ne.symm hjk), Coach.all]

/-! #### Counting and finding lanes -/

theorem getLsbD_widthMask (n i : Nat) : (widthMask n).getLsbD i = decide (i < 64 ∧ i < n) := by
  rw [widthMask, BitVec.getLsbD_ofNat, Nat.testBit_two_pow_sub_one, Bool.decide_and]

theorem countLanes_and_widthMask (m : Mask) (n : Nat) :
    countLanes (m &&& widthMask n) = (List.range 64).countP (fun i => m.getLsbD i && decide (i < n)) := by
  rw [countLanes, lanesOf, ← List.countP_eq_length_filter]
  refine List.countP_congr fun i hi => ?_
  have hlt : i < 64 := List.mem_range.1 hi
  rw [BitVec.getLsbD_and, getLsbD_widthMask]
  simp [hlt]

/-- MPOPC's limit: every lane, those below `l`, or those to `l` (04 R146). -/
theorem count_limit {fn i l : Nat} {b : Bool} (hne : fn ≠ 3) (hlt : fn < 4) (hi : i < 64) :
    (b && decide (i < if fn = 0 then 64 else if fn = 1 then l else l + 1)) = true
      ↔ (b && (fn == 0 || decide (i < l) || (fn == 2 && i == l))) = true := by
  rcases (by omega : fn = 0 ∨ fn = 1 ∨ fn = 2) with rfl | rfl | rfl
  · simp [hi]
  · simp
  · simp [Nat.le_iff_lt_or_eq]

theorem exists_highLane {m : Mask} (h : m ≠ 0) : ∃ l, highLane m = some l := by
  rw [← Option.isSome_iff_exists, highLane, List.find?_isSome]
  obtain ⟨l, hl⟩ := List.exists_mem_of_ne_nil _ (lanesOf_ne_nil h)
  obtain ⟨hlt, hm⟩ := mem_lanesOf.1 hl
  exact ⟨l, List.mem_reverse.2 (List.mem_range.2 hlt), hm⟩

theorem firstBit_eq (last : Bool) (m : Mask) : firstBit last m
    = if m = 0 then 0xFFFFFFFF else ((if last then highLane m else lowLane m).getD 0) := by
  by_cases h : m = 0
  · subst h; cases last <;> rfl
  · obtain ⟨hi, hhi⟩ := exists_highLane h
    obtain ⟨lo, hlo⟩ := exists_lowLane h
    rw [firstBit, if_neg h, hhi, hlo]
    cases last <;> rfl

/-! #### Operations on mask registers (04 R145-R149) -/

/-- MOP's table, as a ladder. -/
theorem mopValue_eq (fn : Nat) (p q : Mask) : mopValue fn p q
    = if fn = 0 then p &&& q else if fn = 1 then p ||| q else if fn = 2 then p ^^^ q else if fn = 3 then p &&& ~~~q
      else if fn = 4 then p ||| ~~~q else if fn = 5 then ~~~p else if fn = 6 then p else BitVec.allOnes 64 := by
  match fn with
  | 0 | 1 | 2 | 3 | 4 | 5 | 6 | n + 7 => rfl

/-- A result of two registers, after the coach has become `co`. -/
theorem deliver_setCoach {s : State} {w : NOp} {sp : OpSpec} {co : Coach} {wide : Bool} {f : Nat → Dword} (hshort : sp.long = false)
    (hq : noQueue w = true) (hfpe : co.fpeHeld = []) : deliver (opCtx s w sp) wide (fun l => plain (f l)) (setCoach s s.iss.coach co)
      = written s w co (if wide then 2 else 1) (fun l j => resWord (f l) j) :=
  (deliver_written hshort hq (settled_setCoach hfpe)).trans (writtenAt_setCoach ..)

theorem mop_next {s : State} {w : NOp} (hclear : clear s (.mop w) = true) (hq : noQueue w = true) : exec (.mop w) s
    = let r := mopValue (field (fX w) 16 14) (mget (me s) (field (fX w) 7 4)) (mget (me s) (fX w % 16)) &&& widthMask (me s).width
      .next (if (fX w).testBit 12 then written s w (mset (me s) (field (fX w) 11 8) r) 2 (fun _ j => resWord r j)
        else become s (mset (me s) (field (fX w) 11 8) r)) := by
  have hfpe : ∀ v, (mset (me s) (field (fX w) 11 8) v).fpeHeld = [] := fun v => by
    rw [mset_fpeHeld]; exact (settled_spec (settled_of_clear hclear rfl)).2
  refine congrArg Host.Outcome.next ((native_of_clear hclear rfl _).trans ?_)
  exact if_congr Iff.rfl (deliver_setCoach rfl hq (hfpe _)) (finishGroup_become (hfpe _))

/-- Settles O11: the values of the mask operations, and the laws of reads and writes of mask registers. -/
theorem maskOperations : Obligations.MaskOperations := by
  refine ⟨?_, fun co k j v => ⟨mget_zero co, mset_zero co v, mget_within co k, fun hk => mget_mset_same co hk v,
    fun hjk => mget_mset_other co hjk v⟩⟩
  intro s w hq x m fn p q r
  refine ⟨fun h => ?_, fun h => ?_, fun h => ?_, fun h => ?_, fun h hdir => ?_, fun l0 h hdir hlow => ?_⟩
  · rw [mop_next h hq, mopValue_eq]
  · obtain ⟨-, hx, -⟩ := fields_of_clear h rfl
    have hne : field x 5 4 ≠ 3 := bne_iff_ne.1 (Bool.and_eq_true_iff.1 hx).2
    have hlt : field x 5 4 < 4 := Nat.mod_lt _ (by decide)
    refine laneOp_gives rfl h rfl rfl hq fun l => ?_
    refine congrArg (fun n => plain (BitVec.ofNat 64 n)) ((countLanes_and_widthMask _ _).trans ?_)
    refine List.countP_congr fun i hi => ?_
    exact count_limit hne hlt (List.mem_range.1 hi)
  · refine laneOp_gives rfl h rfl rfl hq fun l => ?_
    refine congrArg plain ?_
    rw [firstBit_eq, apply_ite (BitVec.ofNat 64)]
    rfl
  · have hco := modCoach_of_clear h rfl
    refine congrArg Host.Outcome.next ((native_of_clear h rfl _).trans ?_)
    refine (congrArg (finishGroup _) (hco _)).trans (finishGroup_become ?_)
    rw [mset_fpeHeld]
    exact (settled_spec (settled_of_clear h rfl)).2
  · refine laneOp_gives (f := fun _ co _ => plain (mget co (fX w % 16))) ?_ h rfl ?_ hq fun l => rfl
    · refine congrArg Host.Outcome.next (congrFun (congrArg (native w _) ?_) s)
      exact funext fun c => funext fun s => if_pos hdir
    · rfl
  · refine congrArg Host.Outcome.next ((native_of_clear h rfl _).trans ((if_neg (by rw [hdir]; decide)).trans ?_))
    simp only [srcA_opCtx, hlow]
    refine finishGroup_become ?_
    rw [mset_fpeHeld]
    exact (settled_spec (settled_of_clear h rfl)).2

end Sys2Proof.Proofs
end

/-! ### Special registers (04 R150, R151) -/

section
namespace Sys2Proof.Proofs
open Sys2Proof Sys2Proof.Machine Sys2Proof.Laws

/-! #### Numbers of special registers (01 R28) -/

theorem sprWide_of_long {n : Nat} (h : sprLong n = true) : sprWide n = false := by
  simp only [sprLong, sprWide, Bool.or_eq_true, beq_iff_eq, decide_eq_true_eq, Bool.or_eq_false_iff, beq_eq_false_iff_ne] at h ⊢
  omega

theorem sprOwn_writable {n : Nat} (h : n = 0x13 ∨ n = 0x14) : sprOwn n = none := by
  rcases h with rfl | rfl <;> rfl

theorem sprOwn_unassigned {n : Nat} (h : sprAssigned n = false) : sprOwn n = some (13, 0xFF) := by
  rw [sprOwn, h]; rfl

theorem sprOwn_readOnly {n : Nat} (h : sprAssigned n = true) (h13 : n ≠ 0x13) (h14 : n ≠ 0x14) : sprOwn n = some (14, 0xFF) := by
  simp [sprOwn, h, h13, h14, iSprro]

/-! #### Reads (04 R150) -/

/-- The value that SPR gives a lane. -/
def sprRead (s : State) (w : NOp) (l : Nat) : Dword := BitVec.ofNat 64 (sprValue s s.iss.coach (sprNum w) l)

theorem exec_spr {s : State} {w : NOp} {sp : OpSpec} (hrow : nativeRow s (.spr w) = some (w, sp)) (hok : sprAssigned (sprNum w) = true) :
    exec (.spr w) s = .next (native w sp (fun c s => deliver c (sprWide (sprNum w)) (fun l =>
      plain (BitVec.ofNat 64 (sprValue s c.k (sprNum w) l))) s) s) := by
  cases hrow
  exact congrArg Host.Outcome.next (congrFun (congrArg (native w _) (funext fun c => funext fun s => if_pos hok)) s)

theorem spr_refused {s : State} {w : NOp} (hclear : clear s (.spr w) = true) (hok : sprAssigned (sprNum w) = false) :
    exec (.spr w) s = .next (illegal s (enOf s w) 13 0xFF) := by
  refine congrArg Host.Outcome.next ((native_of_clear hclear rfl _).trans ((if_neg ?_).trans rfl))
  rw [hok]; decide

theorem spr_short {s : State} {w : NOp} (hclear : clear s (.spr w) = true) (hq : noQueue w = true)
    (hok : sprAssigned (sprNum w) = true) (hshort : sprLong (sprNum w) = false) :
    Gives s (.spr w) w (sprWide (sprNum w)) (sprRead s w) := by
  obtain ⟨co', hrun, hres⟩ := deliver_plain (wide := sprWide (sprNum w)) (sprRead s w) hclear rfl hshort hq
  exact ⟨_, co', (exec_spr rfl hok).trans (congrArg Host.Outcome.next ((native_of_clear hclear rfl _).trans hrun)), hres⟩

theorem spr_long {s : State} {w : NOp} (hclear : clear s (.spr w) = true) (hq : noQueue w = true)
    (hok : sprAssigned (sprNum w) = true) (hlong : sprLong (sprNum w) = true) :
    GivesLong s (.spr w) w false (fun l => (sprRead s w l, 0)) := by
  obtain ⟨sp, hrow, hslot⟩ : ∃ sp, nativeRow s (.spr w) = some (w, sp) ∧ sp.long = true := ⟨_, rfl, hlong⟩
  have hrun := exec_spr hrow hok
  rw [sprWide_of_long hlong] at hrun
  exact native_givesLong (f := fun c s l => plain (BitVec.ofNat 64 (sprValue s c.k (sprNum w) l))) hrun hclear hrow hslot hq fun l => rfl

/-! #### Writes (04 R151) -/

/-- The value that SPR.WR takes from a lane. -/
def sprTaken (s : State) (w : NOp) (l : Nat) : Nat := if fI w then fImm w else (aVal (me s) w false l).toNat

theorem sprValueOk_eq (n v : Nat) : sprValueOk n v
    = if n = 0x13 then decide (v &&& 0x7EF = v) && decide (v % 8 ≤ 4) else decide (v &&& 0x3F = v) := by
  unfold sprValueOk onlyBits
  split
  · exact congrArg (· && _) (Bool.beq_eq_decide_eq _ _)
  · exact Bool.beq_eq_decide_eq _ _

/-- A write that its number alone refuses. -/
theorem sprWr_refused {s : State} {w : NOp} {sub fieldNo : Nat} (hclear : clear s (.sprWr w) = true)
    (hown : sprOwn (sprNum w) = some (sub, fieldNo)) : exec (.sprWr w) s = .next (illegal s (enOf s w) sub fieldNo) := by
  refine congrArg Host.Outcome.next ((native_of_clear hclear rfl _).trans ?_)
  dsimp only
  rw [hown]
  rfl

/-- A write of FMODE or FSTAT: its value goes there, unless it has reserved bits. -/
theorem sprWr_next {s : State} {w : NOp} {l0 : Nat} (hclear : clear s (.sprWr w) = true) (hlow : lowLane (enOf s w) = some l0)
    (hn : sprNum w = 0x13 ∨ sprNum w = 0x14) : exec (.sprWr w) s = .next (
      if sprValueOk (sprNum w) (sprTaken s w l0) then
        become s (if sprNum w = 0x13 then { me s with fmode := BitVec.ofNat 32 (sprTaken s w l0) }
          else { me s with fstat := BitVec.ofNat 32 (sprTaken s w l0) })
      else illegal s (enOf s w) 3 (if fI w then 4 else 1)) := by
  have hfpe : (me s).fpeHeld = [] := (settled_spec (settled_of_clear hclear rfl)).2
  refine congrArg Host.Outcome.next ((native_of_clear hclear rfl _).trans ?_)
  simp only [hlow, srcA_opCtx, sprOwn_writable hn, Option.isSome_none, Bool.false_eq_true, if_false]
  change (if (!sprValueOk (sprNum w) (sprTaken s w l0)) = true then _ else _) = _
  cases sprValueOk (sprNum w) (sprTaken s w l0)
  · rfl
  · refine finishGroup_become ?_
    split <;> exact hfpe

theorem sprWr_fmode {s : State} {w : NOp} {l0 : Nat} (hclear : clear s (.sprWr w) = true) (hlow : lowLane (enOf s w) = some l0)
    (hn : sprNum w = 0x13) (hok : sprValueOk (sprNum w) (sprTaken s w l0) = true) :
    exec (.sprWr w) s = .next (become s { me s with fmode := BitVec.ofNat 32 (sprTaken s w l0) }) := by
  rw [sprWr_next hclear hlow (Or.inl hn), if_pos hok, if_pos hn]

theorem sprWr_fstat {s : State} {w : NOp} {l0 : Nat} (hclear : clear s (.sprWr w) = true) (hlow : lowLane (enOf s w) = some l0)
    (hn : sprNum w = 0x14) (hok : sprValueOk (sprNum w) (sprTaken s w l0) = true) :
    exec (.sprWr w) s = .next (become s { me s with fstat := BitVec.ofNat 32 (sprTaken s w l0) }) := by
  rw [sprWr_next hclear hlow (Or.inr hn), if_pos hok, if_neg (by rw [hn]; decide)]

/-- The row of SPR.WR. -/
def sprWrSpec (w : NOp) : OpSpec :=
  { fmtOk := shortForm w, xOk := fI w || onlyBits 0x1FF (fX w), a := if fI w then .unused else oAny, own := sprOwn (sprNum w)
    slots := some 1 }

theorem mem_opnds {sp : OpSpec} {w : NOp} {x : Nat × Opnd × Nat} (h : x ∈ opnds sp w) :
    x = (0, sp.d, fD w) ∨ x = (1, sp.a, fA w) ∨ x = (2, sp.b, fB w) ∨ x = (3, sp.c, fC w) := by
  unfold opnds at h
  split at h <;> simp only [List.mem_cons, List.not_mem_nil, or_false] at h <;> tauto

/-- A queue register among the sources is an operand that the operation has. -/
theorem operand_of_mem_sourceQueues {sp : OpSpec} {w : NOp} {r : Nat} (h : r ∈ sourceQueues sp w) :
    ∃ x ∈ opnds sp w, (x.1 ≠ 0 ∨ sp.dSrc = true) ∧ x.2.1 ≠ .unused ∧ codeOf x.2.2 = .q r := by
  unfold sourceQueues at h
  rw [List.mem_eraseDups, List.mem_filterMap] at h
  obtain ⟨x, hx, hr⟩ := h
  obtain ⟨hmem, hsrc⟩ := List.mem_filter.1 hx
  refine ⟨x, hmem, by simpa using hsrc, ?_⟩
  split at hr
  · next hcls hcode =>
    rw [hcls, hcode, Option.some.inj hr]
    exact ⟨Opnd.noConfusion, rfl⟩
  · cases hr

/-- The one queue register among the sources of SPR.WR is A. -/
theorem sprWr_source {s : State} {w : NOp} {sp : OpSpec} {r : Nat} (hrow : nativeRow s (.sprWr w) = some (w, sp))
    (hqueue : sourceQueues sp w = [r]) : fI w = false ∧ codeOf (fA w) = .q r := by
  cases hrow
  obtain ⟨x, hx, hsrc, hused, hcode⟩ := operand_of_mem_sourceQueues (hqueue ▸ List.mem_singleton_self r)
  rcases mem_opnds hx with rfl | rfl | rfl | rfl
  · simp at hsrc
  · cases hI : fI w with
    | true => exact absurd (if_pos hI) hused
    | false => exact ⟨rfl, hcode⟩
  · exact absurd rfl hused
  · exact absurd rfl hused

/-- A write whose value is popped waits in a slot with its register and its value. -/
theorem sprWr_popped {s s1 : State} {w : NOp} {sp : OpSpec} {r l0 : Nat} {e : Entry} (h : Pops s (.sprWr w) w sp r e s1)
    (hlow : lowLane (enOf s w) = some l0) (hn : sprNum w = 0x13 ∨ sprNum w = 0x14)
    (hok : sprValueOk (sprNum w) (entryLane e l0).toNat = true) :
    exec (.sprWr w) s
      = .next (slottedAt s1 s.iss { slotFor s w 1 [] [] noFlags with spr := some (sprNum w, entryLane e l0) }) := by
  obtain ⟨hcoach, hfpe⟩ := settled_spec h.after
  obtain ⟨hform, ha⟩ := sprWr_source h.row h.queue
  have hsrc : ∀ l, srcA (popCtx s w sp r e) (coachOf s1 s.iss.coach) false l = (entryLane e l).setWidth 64 := fun l => by
    rw [srcA_word rfl, readWord_popCtx fun q hc => Code.q.inj (hc.symm.trans ha), poppedWord, ha]
  have hval : ((entryLane e l0).setWidth 64).toNat = (entryLane e l0).toNat := by
    rw [BitVec.toNat_setWidth]; omega
  have hrun : ∀ body, native w (sprWrSpec w) body s = body (popCtx s w sp r e) s1 := by
    obtain rfl : sprWrSpec w = sp := congrArg Prod.snd (Option.some.inj h.row)
    exact native_of_pops h
  refine congrArg Host.Outcome.next ((hrun _).trans ?_)
  simp only [hlow, hform, hsrc, hval, hok, sprOwn_writable hn, Option.isSome_none, Bool.false_eq_true, if_false, Bool.not_true,
    if_true, BitVec.ofNat_toNat, BitVec.setWidth_eq]
  rw [finishGroup_coach (c := popCtx s w sp r e) (by rw [coachOf_setCoach]; exact hfpe) (by rw [coachOf_setCoach, tget_setCoach]),
    coachOf_setCoach]
  simp [setCoach, slotOf, slottedAt, slotFor]

/-! #### What each special register reads (01 R28, R32) -/

theorem sprValue_depth (s : State) (k l : Nat) {j : Nat} (hj : j < 16) : sprValue s k (0x20 + j) l = queueDepth s (coachOf s k) j := by
  rw [Nat.add_comm]
  show (if j + 0x20 < 0x30 then queueDepth s (coachOf s k) (j + 0x20 - 0x20) else _) = _
  rw [if_pos (by omega), Nat.add_sub_cancel]

theorem sprValue_fmt (s : State) (k l j : Nat) : sprValue s k (0x30 + j) l = (fmtReg s (coachOf s k).ctx j).toNat := by
  rw [Nat.add_comm]
  show (if j + 0x30 < 0x30 then queueDepth s (coachOf s k) (j + 0x30 - 0x20) else (fmtReg s (coachOf s k).ctx (j + 0x30 - 0x30)).toNat) = _
  rw [if_neg (by omega), Nat.add_sub_cancel]

theorem queueDepth_bound {s : State} {co : Coach} {j qi : Nat} {q : Queue} (hj : j < 8) (h : boundQueue s co j = some (qi, q)) :
    queueDepth s co j = q.entries.length := by
  rw [queueDepth, if_pos hj, h]

theorem queueDepth_unbound {s : State} {co : Coach} {j : Nat} (hj : j < 8) (h : boundQueue s co j = none) : queueDepth s co j = 0 := by
  rw [queueDepth, if_pos hj, h]

theorem queueDepth_port {s : State} {co : Coach} {j pk : Nat} {p : Port} (hj : 8 ≤ j) (h : tget co.ports j = some pk)
    (hp : tget s.ports pk = some p) : queueDepth s co j = p.cmds.length := by
  rw [queueDepth, if_neg (by omega), h]
  show (match tget s.ports pk with | some p => p.cmds.length | none => 0) = _
  rw [hp]

theorem queueDepth_noPort {s : State} {co : Coach} {j : Nat} (hj : 8 ≤ j) (h : tget co.ports j = none) : queueDepth s co j = 0 := by
  rw [queueDepth, if_neg (by omega), h]
  rfl

/-- HOLDS as a set of bits, one per tile of the core. -/
theorem holdsWord_eq (s : State) (k : Nat) : holdsWord s k = (List.range 8).foldl (fun a t =>
    if decide (((tget s.tiles (tileKey (coreOf (coachOf s k)) t)).bind Tile.holder) = some k) then a + 2 ^ t else a) 0 := by
  unfold holdsWord
  rw [List.foldl_map]
  refine congrArg (fun f => List.foldl f 0 (List.range 8)) (funext fun a => funext fun t => ?_)
  cases tget s.tiles (tileKey (coreOf (coachOf s k)) t) with
  | none => rfl
  | some x =>
    show a + (if x.holder = some k then 2 ^ t else 0) = if decide (x.holder = some k) then a + 2 ^ t else a
    by_cases h : x.holder = some k <;> simp [h]

theorem modeWord_eq (s : State) (co : Coach) :
    let bit := fun (n : Nat) (b : Bool) => if b then 2 ^ n else 0
    modeWord s co = bit 0 co.prot + bit 1 (decide (co.width = 32) && !co.prot) + bit 2 (isDet s co)
      + bit 3 (s.fusedClusters.contains (clusterOf co)) + bit 4 (decide (((tget s.ctxs co.ctx).map Ctx.world).getD 0 ≠ 0)) := by
  intro bit
  have h1 : (if co.width = 32 ∧ co.prot = false then 2 else 0) = bit 1 (decide (co.width = 32) && !co.prot) := by
    simp [bit]
  have h4 : (if ((tget s.ctxs co.ctx).map Ctx.world).getD 0 ≠ 0 then 16 else 0)
      = bit 4 (decide (((tget s.ctxs co.ctx).map Ctx.world).getD 0 ≠ 0)) := by
    simp [bit]
  rw [modeWord, h1, h4]
  rfl

theorem sprValue_rake {s : State} {k : Nat} {r : Rake} (l : Nat) (h : tget s.rakes (coachOf s k).rake = some r) :
    sprValue s k 0x03 l = r.idx ∧ sprValue s k 0x04 l = r.stage
      ∧ sprValue s k 0x0C l = r.idx * 2048 + (coachOf s k).idx * 64 + l := by
  simp [sprValue, glaneOf, h]

theorem sprValue_region {s : State} {k : Nat} {r : Region} (l : Nat) (h : tget s.regions (coachOf s k).region = some r) :
    sprValue s k 0x02 l = r.coaches ∧ sprValue s k 0x05 l = r.number ∧ sprValue s k 0x12 l = r.sig.toNat := by
  simp [sprValue, h]

/-- Settles O12: reads as lane operations, writes by their checks in order, and the table of values row by row. -/
theorem specialRegisters : Obligations.SpecialRegisters := by
  refine ⟨?_, ?_, ?_⟩
  · intro s w hq n k ok v good
    have hgood : ∀ v, good v = sprValueOk n v := fun v => (sprValueOk_eq n v).symm
    refine ⟨fun h hok hshort => spr_short h hq hok hshort, fun h hok hlong => spr_long h hq hok hlong, fun h hok => spr_refused h hok,
      fun l0 h hlow hn hv => sprWr_fmode h hlow hn ((hgood _).symm.trans hv),
      fun l0 h hlow hn hv => sprWr_fstat h hlow hn ((hgood _).symm.trans hv), fun h hok => sprWr_refused h (sprOwn_unassigned hok),
      fun h hok h13 h14 => sprWr_refused h (sprOwn_readOnly hok h13 h14), fun l0 h hlow hn hv => ?_⟩
    have hbad : sprValueOk (sprNum w) (sprTaken s w l0) = false := (hgood _).symm.trans hv
    rw [sprWr_next h hlow hn, hbad]
    rfl
  · intro s w sp r l0 e s1 h hlow n v hv
    have hn : n = 0x13 ∨ n = 0x14 := hv.imp And.left And.left
    refine sprWr_popped h hlow hn ?_
    rw [sprValueOk_eq]
    rcases hv with ⟨h13, hbits, hrm⟩ | ⟨h14, hbits⟩
    · rw [if_pos h13]
      exact Bool.and_eq_true_iff.2 ⟨decide_eq_true hbits, decide_eq_true hrm⟩
    · rw [if_neg (by rw [show sprNum w = 0x14 from h14]; decide)]
      exact decide_eq_true hbits
  · intro s k l co core bit
    have hholds := testBit_foldl_lanes
      (fun t => decide (((tget s.tiles (tileKey core t)).bind Tile.holder) = some k)) 8
    have hword : sprValue s k 0x16 l = _ := holdsWord_eq s k
    refine ⟨rfl, rfl, rfl, rfl, rfl, rfl, modeWord_eq s co, rfl, rfl, rfl, rfl, rfl, rfl, rfl, rfl, fun j hj => ?_, ?_,
      fun r h => sprValue_rake l h, fun r h => sprValue_region l h,
      fun j qi q hj h => (sprValue_depth s k l (by omega)).trans (queueDepth_bound hj h),
      fun j pk p h8 hj h hp => (sprValue_depth s k l hj).trans (queueDepth_port h8 h hp),
      fun j hj h => (sprValue_depth s k l (by omega)).trans (queueDepth_unbound hj h),
      fun j h8 hj h => (sprValue_depth s k l hj).trans (queueDepth_noPort h8 h), fun c j hc => ⟨?_, fun hj => ?_⟩⟩
    · rw [hword]
      refine (hholds.2 j).trans ?_
      rw [decide_eq_true hj, Bool.true_and]
    · rw [hword]
      exact hholds.1
    · exact congrArg (fun x => (Option.map Ctx.world x).getD 0) hc
    · rw [sprValue_fmt, fmtReg, hc]

end Sys2Proof.Proofs
end

/-! ### Where operations and the events of a coach complete -/

section
namespace Sys2Proof.Proofs
open Sys2Proof Sys2Proof.Machine Sys2Proof.Laws

/-! #### Long functions and special registers (04 R130, R150, R151) -/

theorem slotted_of_givesLong {s : State} {i : Instr} {w : NOp} {f : Nat → Dword × Flags} (h : GivesLong s i w false f) :
    ∃ vw sw fl, exec i s = .next (slotted s (slotFor s w (slotCost (fD w) 1) vw sw fl)) := ⟨_, _, _, h⟩

theorem function_slotted {s : State} {i : Instr} {w : NOp} {k : FFun} (hrow : nativeRow s i = some (w, nativeRow.float1Row w true true))
    (hrun : exec i s = .next (floatOp1 w true true (fFun k) s)) (hq : noQueue w = true) (hclear : clear s i = true) :
    ∃ vw sw fl, exec i s = .next (slotted s (slotFor s w (slotCost (fD w) 1) vw sw fl)) :=
  slotted_of_givesLong (function_givesLong hrow hrun hq hclear)

theorem spr_short_written {s : State} {w : NOp} (hclear : clear s (.spr w) = true) (hq : noQueue w = true)
    (hok : sprAssigned (sprNum w) = true) (hshort : sprLong (sprNum w) = false) :
    exec (.spr w) s = .next (written s w (me s) (regsOf (sprWide (sprNum w))) (fun l j => resWord (sprRead s w l) j)) := by
  refine (exec_spr rfl hok).trans (congrArg Host.Outcome.next ((native_of_clear hclear rfl _).trans ?_))
  exact deliver_written hshort hq (settled_of_clear hclear rfl)

/-! #### Impressions (02 R63, 08 R308, R324) -/

theorem systemPlateOp_impression {s : State} {w : BitVec 64} {ops : List Dword} (h : systemPlane s w = some ops) :
    exec (.systemPlateOp w) s = .next (addImp s (me s) s.iss.ga (.ops ops 8 true) false) := by
  show execSystemPlateOp w s = _
  unfold execSystemPlateOp
  rw [h]

theorem guestDecode_impression {s s1 : State} {ops : List Dword} {n : Nat} {b : Bool}
    (h : decodeGuest s (me s) s.iss.ga.toNat = (.ok (.ops ops n b), s1)) :
    exec .guestDecode s = .next (addImp s1 (me s) s.iss.ga (.ops ops n b) false) := by
  show execGuestDecode s = _
  unfold execGuestDecode
  dsimp only
  rw [show decodeGuest s (coachOf s s.iss.coach) s.iss.ga.toNat = _ from h]

/-! #### Events of a coach -/

/-- A lease's estimate before it is clamped: what the allocations ask for, no less than one below the last estimate, and a
share of the victim hits (10 R380). -/
def leaseWanted (co : Coach) : Nat :=
  let a := (co.alloc + 255) / 256
  (if a < co.est - 1 then co.est - 1 else a) + co.vh / 32

/-- An estimate is clamped to 1..128. -/
theorem clampLease (e : Nat) : 1 ≤ (if e < 1 then 1 else if 128 < e then 128 else e)
    ∧ (if e < 1 then 1 else if 128 < e then 128 else e) ≤ 128 := by
  split
  · omega
  · split <;> omega

theorem coachRestore_seats {s s1 : State} {k : Nat} {p : Nat × Nat × Nat} (hmay : mayRestore s k = true)
    (hplace : restorePlace s k = some p) (himage : readImage s k (p.1 / 80) = (true, s1)) : exec (.coachRestore k) s = .next (seatCoach s1 k p) := by
  show execCoachRestore k s = _
  unfold execCoachRestore
  rw [hmay, hplace]
  dsimp only
  rw [himage]
  rfl

section
variable {s : State} {k : Nat} {co : Coach} (hco : tget s.coaches k = some co)
include hco

/-- A commit without pushes writes the slots and adds their flags. -/
theorem commitAll_of_noPush (hpush : ∀ sl ∈ co.rbuf, sl.push = none) :
    let fl := co.rbuf.foldl (fun a sl => orFlags a sl.flags) [0, 0, 0, 0, 0, 0]
    commitAll s k = (fl, setCoach s k { co.rbuf.foldl commitSlot co with
      rbuf := [], fstat := (co.rbuf.foldl commitSlot co).fstat ||| BitVec.ofNat 32 (flagWord fl) }) := by
  intro fl
  have hkeep : ∀ (f : State → Slot → State) (l : List Slot) (t : State), (∀ sl ∈ l, ∀ t, f t sl = t) → l.foldl f t = t := by
    intro f l t h
    induction l with
    | nil => rfl
    | cons a l ih => rw [List.foldl_cons, h a (by simp), ih fun sl hsl => h sl (by simp [hsl])]
  unfold commitAll
  rw [coachOf_of_tget hco]
  refine Prod.ext rfl (hkeep _ _ _ fun sl hsl t => ?_)
  dsimp only
  rw [hpush sl hsl]

theorem returnBufferCommit_plain {st : Stall} (hmark : marked co = some st) (hret : allReturned co = true) (htrap : co.trap = none)
    (hpush : ∀ sl ∈ co.rbuf, sl.push = none) :
    let c := co.rbuf.foldl commitSlot co
    let fl := co.rbuf.foldl (fun a sl => orFlags a sl.flags) [0, 0, 0, 0, 0, 0]
    enabledBits c.fmode fl = 0 → exec (.returnBufferCommit k) s = .next (setCoach s k { c with
      rbuf := [], fstat := c.fstat ||| BitVec.ofNat 32 (flagWord fl), stalls := c.stalls.filter (fun x => x.kind != .marker) }) := by
  intro c fl hoff
  have hcommit : commitAll s k = (fl, setCoach s k { c with rbuf := [], fstat := c.fstat ||| BitVec.ofNat 32 (flagWord fl) }) :=
    commitAll_of_noPush hco hpush
  have hunmarked : unmarked s k = { c with rbuf := [], fstat := c.fstat ||| BitVec.ofNat 32 (flagWord fl)
                                           stalls := c.stalls.filter (fun x => x.kind != .marker) } := by
    unfold unmarked
    rw [hcommit, coachOf_setCoach]
  have hnone : commitFpe (unmarked s k) co.rbuf (commitAll s k).1 = none := by
    rw [hunmarked, hcommit, commitFpe]
    exact if_pos hoff
  rw [returnBufferCommit_of_noFpe hco hmark hret htrap hnone, hunmarked, hcommit, setCoach_setCoach]

theorem trapEntry_taken {t : Trap} (htrap : co.trap = some t) (hres : isResident s k = true) (hwait : t.wait = none) :
    exec (.trapEntry k) s = .next (takeTrap s k) := by
  show execTrapEntry k s = _
  unfold execTrapEntry
  rw [coachOf_of_tget hco]
  dsimp only
  rw [htrap]
  dsimp only
  rw [hres, frameParked, hwait]
  rfl

theorem halted_raised {cls idx : Nat} (hhalt : haltOf s co = some (cls, idx)) (hres : isResident s k = true) (hnot : co.halted = none)
    (htrap : co.trap = none) : exec (.halted k) s = .next (raiseTrap s k
      { cls := 16, sub := 0, step := 0, tmask := 0, rmask := none, move := 0, moveTo := 0, moveCounts := false
        opword := 0, opaddr := 0, area := [(64, 1, cls), (66, 2, idx)] }) := by
  show execHalted k s = _
  unfold execHalted
  rw [coachOf_of_tget hco]
  dsimp only
  rw [hhalt]
  dsimp only
  rw [hres, hnot, htrap]
  rfl

theorem longWaitExit_leaves (hres : isResident s k = true) (hactive : co.active = true) (hwaits : coachWaits s co = true) :
    exec (.longWaitExit k) s = .next (leaveActive (clockTo s (coreOf co) (co.idleSince + 2049)) k true false) := by
  show execLongWaitExit k s = _
  unfold execLongWaitExit
  rw [coachOf_of_tget hco]
  dsimp only
  rw [hres, hactive, hwaits]
  rfl

theorem leaseEstimateUpdate_measured (hmeasured : co.measured = true) (hmi : 1024 ≤ co.mi) : ∃ e, 1 ≤ e ∧ e ≤ 128
    ∧ exec (.leaseEstimateUpdate k) s
      = .next (setLease s k (fun co => { co with est := e, leaseG := e, mi := 0, alloc := 0, vh := 0 })) := by
  refine ⟨_, (clampLease (leaseWanted co)).1, (clampLease (leaseWanted co)).2, ?_⟩
  show execLeaseEstimateUpdate k s = _
  unfold execLeaseEstimateUpdate
  rw [coachOf_of_tget hco]
  exact congrArg Host.Outcome.next (if_pos ⟨hmeasured, hmi⟩)

theorem timeSliceExpiry_expires (hres : isResident s k = true) (hslice : co.sliceExpired = false) : exec (.timeSliceExpiry k) s
    = .next (setCoach (clockTo s (coreOf co) (co.sliceStart + sliceOf s co.ctx)) k { co with sliceExpired := true }) := by
  have hlater : tget (clockTo s (coreOf co) (co.sliceStart + sliceOf s co.ctx)).coaches k = some co := by rw [clockTo_coaches, hco]
  show execTimeSliceExpiry k s = _
  unfold execTimeSliceExpiry
  rw [coachOf_of_tget hco]
  dsimp only
  rw [hres, hslice, modCoach_of_tget hlater]
  rfl

theorem registerLineFill_fresh {part line : Nat} (hpart : partKey co = some part) (hline : line ≤ co.nregs)
    (hentry : lineEntry s part k line = none) (hout : co.out.contains line = false) :
    exec (.registerLineFill k line) s = .next (cacheLine s part k line true) := by
  show execRegisterLineFill k line s = _
  unfold execRegisterLineFill
  rw [coachOf_of_tget hco]
  dsimp only
  rw [hpart]
  dsimp only
  rw [hentry, hout, decide_eq_false (Nat.not_lt.2 hline)]
  rfl

/-- A push that has waited to its deadline for space takes QFULL, unless it is of a commit. -/
theorem qfull_taken {st : Stall} {q : Nat} {e : Entry} {d : Nat} (hres : isResident s k = true)
    (hst : pushStall co = some (st, q, e, d)) (hdet : isDet s co = false) (hlanes : st.lanes ≠ BitVec.allOnes 64)
    (hpush : pushReg s k q e = .full) : exec (.qfull k) s
      = .next (raiseTrap (modCoach (clockTo s (coreOf co) d) k (fun co => { co with stalls := co.stalls.erase st })) k
        { cls := 8, sub := 0, step := st.step, tmask := stallLanesNow co st, rmask := none, move := 0, moveTo := 0
          moveCounts := false
          opword := ((lowLane (stallLanesNow co st)).map (fun l => (laneOf co l).word)).getD 0
          opaddr := st.ga, area := qfullArea q e, commit := false }) := by
  rw [qfull_resident hco hres hst hdet, tryPush_full hpush, qfullTaken, beq_eq_false_iff_ne.2 hlanes]
  rfl

end

end Sys2Proof.Proofs
end

/-! ### Writes of the Damith leave the regions alone -/

section
namespace Sys2Proof.Proofs
open Sys2Proof Sys2Proof.Machine Sys2Proof.Laws

/-! #### The Damith's own writes leave the regions alone -/

theorem foldl_regions {α : Type} {f : State → α → State} (hf : ∀ s a, (f s a).regions = s.regions) (l : List α) (s : State) :
    (l.foldl f s).regions = s.regions := by
  induction l generalizing s with
  | nil => rfl
  | cons a l ih => rw [List.foldl_cons, ih, hf]

theorem foldl_snd_regions {α β : Type} {f : β × State → α → β × State} (hf : ∀ x a, (f x a).2.regions = x.2.regions)
    (l : List α) (x : β × State) : (l.foldl f x).2.regions = x.2.regions := by
  induction l generalizing x with
  | nil => rfl
  | cons a l ih => rw [List.foldl_cons, ih, hf]

theorem raiseVector_regions (s : State) (fn vec : Nat) : (raiseVector s fn vec).regions = s.regions := by
  unfold raiseVector
  split <;> rfl

theorem logError_regions (s : State) (source sev die pa : Nat) (ctx world cluster : Option Nat) :
    (logError s source sev die pa ctx world cluster).regions = s.regions := by
  unfold logError
  extract_lets
  split
  · rfl
  · split
    · rfl
    · exact raiseVector_regions _ _ _

theorem correctedError_regions (s : State) (source die pa : Nat) : (correctedError s source die pa).regions = s.regions := by
  unfold correctedError
  dsimp only
  split
  · exact logError_regions ..
  · rfl

theorem setPoison_regions (s : State) (line : Nat) : (setPoison s line).regions = s.regions := by
  unfold setPoison
  split <;> rfl

theorem meetSoftError_regions (s : State) (line : Nat) : (meetSoftError s line).regions = s.regions := by
  unfold meetSoftError
  split
  · rfl
  · dsimp only
    split
    · exact correctedError_regions ..
    · rw [logError_regions, setPoison_regions]

theorem l2Evict_regions (s : State) (c : CLine) : (l2Evict s c).regions = s.regions := by
  unfold l2Evict l2WriteBack
  dsimp only
  split <;> rfl

theorem l2Room_regions (s : State) (line : Nat) : (l2Room s line).regions = s.regions := by
  unfold l2Room
  dsimp only
  split
  · rfl
  · split
    · exact l2Evict_regions _ _
    · rfl

theorem countAccess_regions (s : State) (pa : Nat) : (countAccess s pa).regions = s.regions := by
  unfold countAccess
  dsimp only
  split <;> rfl

theorem l2Read_regions (s : State) (line ctx : Nat) : (l2Read s line ctx).regions = s.regions := by
  unfold l2Read l2Fill
  split
  · exact meetSoftError_regions s line
  · exact (l2Room_regions _ _).trans ((countAccess_regions _ _).trans (meetSoftError_regions s line))

theorem homeWriteLine_regions (s : State) (line off : Nat) (bs : List Byte) (ctx : Nat) (cacheable : Bool) :
    (homeWriteLine s line off bs ctx cacheable).regions = s.regions := by
  unfold homeWriteLine
  split
  · split
    · exact l2Read_regions s line ctx
    · rfl
  · exact l2Read_regions s line ctx

theorem tlbFillAll_regions (e : TlbE) (units : List Nat) (s : State) : (tlbFillAll s e units).regions = s.regions := by
  induction units generalizing s with
  | nil => rfl
  | cons u us ih => exact (ih _).trans rfl

theorem walkReads_regions (s : State) (ctx va : Nat) : (walkReads s ctx va).regions = s.regions := by
  unfold walkReads
  dsimp only
  split
  · exact foldl_regions (fun s line => l2Read_regions s line ctx) _ _
  · rfl

theorem atsFill_regions (s : State) (units : List Nat) (pa : Nat) : (atsFill s units pa).regions = s.regions := by
  unfold atsFill
  split
  · split <;> rfl
  · rfl

theorem xlate_regions (s : State) (units : List Nat) (ctx va : Nat) (a : Acc) : (xlate s units ctx va a).2.regions = s.regions := by
  have hfill : ∀ t e miss pa, (atsFill (tlbFillAll t e miss) units pa).regions = t.regions := fun t e miss pa => by
    rw [atsFill_regions, tlbFillAll_regions]
  have hwalk := walkReads_regions s ctx va
  unfold xlate
  obtain ⟨hit, miss⟩ := tlbLook s ctx va a units []
  cases hit with
  | some e =>
    dsimp only
    split
    · rfl
    · split <;> exact hfill _ _ _ _
  | none =>
    dsimp only
    split
    · exact hwalk
    · split
      · exact hwalk
      · split <;> exact (hfill _ _ _ _).trans hwalk

theorem ownPieces_regions (s : State) (units : List Nat) (ctx va n : Nat) (a : Acc) :
    (ownPieces s units ctx va n a).2.regions = s.regions := by
  have hgo : ∀ fuel va n s acc, (ownPieces.go units ctx a fuel va n s acc).2.regions = s.regions := by
    intro fuel
    induction fuel with
    | zero => intro va n s acc; rfl
    | succ fuel ih =>
      intro va n s acc
      have hx := xlate_regions s units ctx va a
      unfold ownPieces.go
      split
      · rfl
      · dsimp only
        split
        · next heq => rw [ih]; rw [heq] at hx; exact hx
        · next heq => rw [heq] at hx; exact hx
  exact hgo _ _ _ _ _

theorem ownWrite_regions (s : State) (ctx a : Nat) (bs : List Byte) (uc : Bool) : (ownWrite s ctx a bs uc).regions = s.regions :=
  foldl_snd_regions (fun _ _ => homeWriteLine_regions ..) _ _

theorem writeOwn_regions (s : State) (ctx : Nat) (ps : List OwnPiece) (bs : List Byte) : (writeOwn s ctx ps bs).regions = s.regions := by
  unfold writeOwn
  exact foldl_snd_regions (fun _ _ => by dsimp only; rw [ownWrite_regions]) ps (bs, s)

theorem ownWriteV_regions (s : State) (units : List Nat) (ctx va : Nat) (bs : List Byte) :
    (ownWriteV s units ctx va bs).2.regions = s.regions := by
  have hp := ownPieces_regions s units ctx va bs.length .write
  unfold ownWriteV
  split
  · next heq => rw [heq] at hp; exact (writeOwn_regions ..).trans hp
  · next heq => rw [heq] at hp; exact hp

theorem markReset_regions (s : State) (ctx : Nat) : (markReset s ctx).regions = s.regions := by
  unfold markReset
  split <;> rfl

theorem writeArea_regions (s : State) (ctx die base size : Nat) (parts : List (Nat × List Byte)) :
    (writeArea s ctx die base size parts).regions = s.regions := by
  have hp := ownPieces_regions s (dieUnits die) ctx base size .atomic
  have ha : (areaPieces s (dieUnits die) ctx base size .atomic).2.regions = s.regions := by
    unfold areaPieces
    split
    · next heq => rw [heq] at hp; split <;> exact hp
    · next heq => rw [heq] at hp; exact hp
  unfold writeArea
  split
  · next heq => rw [heq] at ha; exact (markReset_regions _ _).trans ha
  · next heq => rw [heq] at ha; exact (foldl_regions (fun _ _ => ownWriteV_regions ..) _ _).trans ha

theorem detAreaWrite_regions (s : State) (rg off n : Nat) (vals : List Nat) : (detAreaWrite s rg off n vals).regions = s.regions := by
  unfold detAreaWrite
  split
  · rfl
  · exact writeArea_regions ..

end Sys2Proof.Proofs
end

/-! ### Dray contexts, records, engines, and choices of coaches and places -/

section
namespace Sys2Proof.Proofs
open Sys2Proof Sys2Proof.Machine Sys2Proof.Laws

theorem tget_tmod_of {α : Type} {t : Tbl α} {k : Nat} {x : α} (h : tget t k = some x) (f : α → α) :
    tget (tmod t k f) k = some (f x) := by
  rw [tget_tmod, if_pos rfl, h]
  rfl

theorem clockTo_of_reached {s : State} {u t : Nat} (h : t ≤ cycleOf s u) : clockTo s u t = s := if_neg (by omega)

/-! #### Waits, promises and dray contexts (05 R194, R198, R199) -/

theorem tbarWake_closes {s : State} {n : Nat} {b : TreeBar} (h : tget s.treebars n = some b) : ∃ t, exec (.tbarWake n) s = .next t
    ∧ tget t.treebars n = some { b with closed := [] } := by
  refine ⟨_, rfl, ?_⟩
  rw [h]
  exact tget_tput_self _ _ _

theorem promiseTimeout_delivers {s : State} {n : Nat} {la : Launch}
    (hla : launchOf s ((Machine.drayOf s n).rake, (Machine.drayOf s n).launch) = some la) (hpromise : la.promise = none)
    (hstarted : la.started = true) (hdone : (Machine.drayOf s n).done = false) (hdray : la.dray = some (n, (Machine.drayOf s n).gen))
    (hlate : (Machine.drayOf s n).start + 256 ≤ cycleOf s (drayClock n)) :
    exec (.promiseTimeout n) s = .next (deliverPromise s (Machine.drayOf s n).rake (Machine.drayOf s n).launch none) := by
  show execPromiseTimeout n s = _
  unfold execPromiseTimeout
  dsimp only
  rw [hla]
  dsimp only
  rw [hpromise, hstarted, hdone, hdray, clockTo_of_reached hlate]
  simp

/-- The dray context that a launch starts, from the code of its lead coach. -/
def startedDray (s : State) (n line lead dk : Nat) (code : Dword) (la : Launch) (rg : Region) : Dray :=
  startDray (Machine.drayOf s dk) code n line rg.ctx (tgetD 0 la.zones lead) rg.coaches (cycleOf s (drayClock dk))
    ((List.range rg.coaches).flatMap (fun i => tgetD (List.replicate 8 (0 : Word)) la.slices i))

/-- The launch has started in its context. -/
def startedAt (s : State) (n line dk : Nat) (la : Launch) (d : Dray) (start : Tbl Nat) : State :=
  setDray (modRake s n (fun r => { r with
    launches := tput r.launches line { la with dray := some (dk, d.gen), started := true, start := start } })) dk d

theorem drayOf_startedAt (s : State) (n line dk : Nat) (la : Launch) (d : Dray) (start : Tbl Nat) :
    Machine.drayOf (startedAt s n line dk la d start) dk = d := tgetD_tput_self _ _ _ _

theorem drayContextStart_starts {s : State} {n line : Nat} {r : Rake} {la : Launch} {rg : Region} {cl lead : Nat} {ks : List Nat}
    {code : Dword} {dn : Nat} {any : Bool} {dk : Nat} (hr : tget s.rakes n = some r) (hla : tget r.launches line = some la)
    (hrg : tget s.regions r.region = some rg) (hcl : r.cluster = some cl) (hstarted : la.started = false)
    (hfinished : la.finished = false) (hcancelled : la.cancelled = false) (hformed : launchFormed s r rg.coaches la = true)
    (hlead : tkeys la.slices = lead :: ks) (hcode : tget la.codes lead = some (code, dn, any)) (hdk : chooseDray s cl dn any = some dk) :
    ∃ t, exec (.drayContextStart n line) s = .next (drayAcquire t dk 4) ∧ (Machine.drayOf t dk).pc = code.setWidth 57
      ∧ (Machine.drayOf t dk).state = 1 := by
  have hcodeD : tgetD (0, 0, false) la.codes lead = (code, dn, any) := by rw [tgetD, hcode]; rfl
  refine ⟨startedAt s n line dk la (startedDray s n line lead dk code la rg) (startCounters s r line cl), ?_, ?_, ?_⟩
  · show execDrayContextStart n line s = _
    unfold execDrayContextStart
    rw [hr]
    dsimp only
    rw [hla, hrg, hcl]
    dsimp only
    rw [if_neg (by rw [hstarted, hfinished, hcancelled, hformed]; decide), hlead, List.head?_cons]
    dsimp only
    rw [hcodeD]
    dsimp only
    rw [hdk]
    rfl
  · rw [drayOf_startedAt]
    exact BitVec.eq_of_toNat_eq (by simp [startedDray, startDray])
  · rw [drayOf_startedAt]
    rfl

/-! #### Records (11 R415, R423) -/

theorem rakeHaltRecord_written {s s1 : State} {n : Nat} {r : Rake} {h : Nat × Nat × Nat × Nat × Nat} {rg : Region}
    (hr : tget s.rakes n = some r) (hh : r.halt = some h) (hrg : tget s.regions r.region = some rg) (hnot : r.haltRecorded = false) (hstop : rakeStopped s r = true)
    (hwrite : writeFaultRecord s rg.ctx ((r.cluster).getD 0 / 10) (haltRecord s r h) = (true, s1)) :
    let s2 := modRake s1 n (fun r => { r with haltRecorded := true })
    ((tget s2.ctxs rg.ctx).map Ctx.dbgen) = some true → exec (.rakeHaltRecord n) s = .next s2 := by
  intro s2 hdb
  show execRakeHaltRecord n s = _
  unfold execRakeHaltRecord
  simp only [hr, hh, hrg, hnot, hstop, hwrite, Bool.false_or, Bool.not_true, Bool.false_eq_true, if_false]
  have hdbg : ((tget s2.ctxs rg.ctx).map Ctx.dbgen).getD false = true := by rw [hdb]; rfl
  exact congrArg Host.Outcome.next (if_pos hdbg)

theorem faultRecordWrite_written {s s2 : State} {n : Nat} {f : FaultEntry} (hf : tget s.faults n = some f) (hseq : f.seq = none) :
    let s1 := clockTo s (faultClock f.die f.cluster) (f.opened + 64)
    writeFaultRecord s1 f.ctx f.die (xlatRecord f) = (true, s2) →
    ∃ seq, exec (.faultRecordWrite n) s = .next { s2 with faults := tput s2.faults n { f with seq := some seq } } := by
  intro s1 hwrite
  refine ⟨((tget s1.ctxs f.ctx).map Ctx.faultSeq).getD 0, ?_⟩
  show execFaultRecordWrite n s = _
  unfold execFaultRecordWrite
  rw [hf]
  dsimp only
  rw [hseq, hwrite]
  rfl

/-! #### The matrix engines (06 R224, R227) -/

theorem matrixOpStart_starts {s : State} {n : Nat} {o : MOp} (hcur : (tileOf s n).cur = none)
    (hnext : (tileOf s n).queue.find? (fun o => o.v == (tileOf s n).ver) = some o) (hruns : engineRuns s o.coach = true) :
    exec (.matrixOpStart n) s = .next (startOp (setTile s n { tileOf s n with
      queue := (tileOf s n).queue.filter (fun x => x.v != o.v), cur := some (o, 0) }) n o) := by
  show execMatrixOpStart n s = _
  unfold execMatrixOpStart
  dsimp only
  rw [hcur, hnext]
  exact congrArg Host.Outcome.next (if_pos hruns)

theorem kStep_advances {s : State} {n i j : Nat} {o : MOp} {r : Rake} {es : List El} (hnext : nextTile s n = some i)
    (hcur : (tileOf s (tileKey n i)).cur = some (o, j)) (hupsets : s.upsets = []) (hr : tget s.rakes (coachOf s o.coach).rake = some r)
    (hstep : Machine.kStep r o j (tileEls (tileOf s (tileKey n i))) = some es) : exec (.kStep n) s
      = .next (setTile { s with lastTile := tput s.lastTile n i } (tileKey n i)
          { setEls (tileOf s (tileKey n i)) es with cur := some (o, j + 1) }) := by
  show execKStep n s = _
  unfold execKStep
  rw [hnext]
  dsimp only
  rw [hcur]
  dsimp only
  rw [hupsets, hr]
  dsimp only
  rw [hstep]
  rfl

theorem matrixOpComplete_completes {s : State} {n j : Nat} {o : MOp} (hcur : (tileOf s n).cur = some (o, j))
    (hdone : opDone (tileOf s n) = true) (hruns : engineRuns s o.coach = true) :
    ∃ t, exec (.matrixOpComplete n) s = .next (checkCoach (wakeReady t o.coach) o.coach) ∧ (tileOf t n).cur = none
      ∧ (tileOf t n).ver = (tileOf s n).ver + 1 := by
  let done := setTile s n { tileOf s n with cur := none, ver := (tileOf s n).ver + 1 }
  let t := modCoach done o.coach (fun co => { co with rbuf := co.rbuf.map (fun sl =>
    if sl.tile = some (n, o.v.toNat) then { sl with returned := true } else sl) })
  have htile : tileOf t n = { tileOf s n with cur := none, ver := (tileOf s n).ver + 1 } := tgetD_tput_self _ _ _ _
  refine ⟨t, ?_, by rw [htile], by rw [htile]⟩
  show execMatrixOpComplete n s = _
  unfold execMatrixOpComplete
  dsimp only
  rw [hcur]
  exact congrArg Host.Outcome.next (if_pos (by rw [hdone, hruns]; rfl))

/-! #### Choices of coaches, leases and places (10 R375-R386) -/

theorem issueSelect_picks {s : State} {n i k : Nat} (h : selectIn s n = some (i, k)) :
    exec (.issueSelect n) s = .next { s with picked := some k, turn := 0 } := by
  show execIssueSelect n s = _
  unfold execIssueSelect
  rw [h]

theorem coachAdmission_admits {s : State} {n k : Nat} {co : Coach} (h : admitNext s n = some k) (hco : tget s.coaches k = some co) :
    exec (.coachAdmission n) s = .next (setCoach s k { co with
      active := true, atHead := false, returned := none, admitted := cycleOf s (coreOf co), idleSince := cycleOf s (coreOf co) }) := by
  show execCoachAdmission n s = _
  unfold execCoachAdmission
  rw [h]
  dsimp only
  rw [modCoach_of_tget hco]

theorem throttleInterval_closes (s : State) (n : Nat) : ∃ t, exec (.throttleInterval n) s = .next t
    ∧ tgetD 0 t.poolIntervals n = tgetD 0 s.poolIntervals n + 1 ∧ tget t.poolHits n = none := by
  have hcount : ∀ t : Tbl Nat, tgetD 0 (tput t n (tgetD 0 s.poolIntervals n + 1)) n = tgetD 0 s.poolIntervals n + 1 :=
    fun t => tgetD_tput_self _ _ _ _
  have hhits : ∀ t : Tbl Nat, tget (tdel t n) n = none := fun t => (tget_tdel _ _ _).trans (if_pos rfl)
  refine ⟨_, rfl, ?_⟩
  split
  · split <;> exact ⟨hcount _, hhits _⟩
  · exact ⟨hcount _, hhits _⟩

/-- A coach of the core that may be evicted for a waiter of priority `top` (10 R386). -/
def mayEvict (s : State) (core top : Nat) (x : Nat × Coach) : Bool :=
  match x.2.place with
  | some (c, _, _) => c == core && x.2.sliceExpired && !x.2.inHandler && x.2.trap.isNone && decide (prioOf s x.2.region ≤ top)
  | none => false

/-- The coach of the lowest priority, the oldest of them, is saved. -/
def evictLeast (s : State) (l : List (Nat × Coach)) : State :=
  match leastBy id (l.map (fun e => prioOf s e.2.region)) with
  | none => s
  | some p =>
    let low := l.filter (fun e => prioOf s e.2.region == p)
    match leastBy id (low.map (fun e => e.2.sliceStart)) with
    | none => s
    | some t => match low.find? (fun e => e.2.sliceStart == t) with
      | some e => saveCoach s e.1
      | none => s

theorem exec_coachEviction (s : State) (n : Nat) : exec (.coachEviction n) s
    = .next (if (waitersFor s (n / 8)).isEmpty ∨ coreCount s n < 64 then s else evictLeast s (s.coaches.filter
        (mayEvict s n ((waitersFor s (n / 8)).foldl (fun a b => if a < b then b else a) 0)))) := rfl

theorem evictLeast_one (s : State) (e : Nat × Coach) : evictLeast s [e] = saveCoach s e.1 := by simp [evictLeast, leastBy]

theorem coachEviction_saves {s : State} {n : Nat} {e : Nat × Coach} (hwait : waitersFor s (n / 8) = [prioOf s e.2.region])
    (hfull : 64 ≤ coreCount s n) (hone : s.coaches.filter (mayEvict s n (prioOf s e.2.region)) = [e]) :
    exec (.coachEviction n) s = .next (saveCoach s e.1) := by
  have htop : [prioOf s e.2.region].foldl (fun a b => if a < b then b else a) 0 = prioOf s e.2.region := by
    show (if 0 < _ then _ else 0) = _
    split <;> omega
  rw [exec_coachEviction, hwait, htop, hone, evictLeast_one]
  exact congrArg Host.Outcome.next (if_neg (by simpa using hfull))

theorem modRake_of_tget {s : State} {k : Nat} {r : Rake} (h : tget s.rakes k = some r) (f : Rake → Rake) :
    modRake s k f = { s with rakes := tput s.rakes k (f r) } := by
  simp [modRake, tmod, h]

theorem rakePlacement_places {s : State} {n : Nat} {k : Rake} {r : Region} {cl base : Nat} {seats : List (Nat × Nat × Nat)}
    (hk : tget s.rakes n = some k) (hr : tget s.regions k.region = some r) (hplace : placeFor s n = some (cl, base, seats))
    (hcreated : k.created = true) (hfused : s.fusedClusters.contains cl = r.fused) :
    let s0 := modRegion s k.region (fun r => { r with lastCluster := some cl })
    exec (.rakePlacement n) s = .next (readRakeImage (modRake s0 n (fun k =>
      { k with cluster := some cl, padBase := base, pinned := none, created := true
               rslot := (takenRslot s0 k r.ctx).getD k.rslot })) n) := by
  intro s0
  show execRakePlacement n s = _
  unfold execRakePlacement
  rw [hplace, hk]
  dsimp only
  rw [hr]
  dsimp only
  rw [hfused, beq_self_eq_true, if_pos rfl, if_pos hcreated, modRake_of_tget (by exact hk), modRake_of_tget (by exact hk)]

end Sys2Proof.Proofs
end

/-! ### Stages, turns, the memory system and clocks; where each step completes -/

section
namespace Sys2Proof.Proofs
open Sys2Proof Sys2Proof.Machine Sys2Proof.Laws

/-! #### Stages, slots and turns (10 R375, R377, R396) -/

theorem stageRebalance_rebalances {s : State} {n core : Nat} {r : Region} (hr : tget s.regions n = some r)
    (hcore : rebalCore s n = some core) (hdet : r.det = false) (hcompleted : r.completed = false) :
    ∃ t c, exec (.stageRebalance n) s = .next t ∧ tget t.regions n = some { r with
      queues := mapFrom (fun i (q : Queue) => { q with pending := pendingMove r i q }) 0 r.queues
      rebalLeft := 8192, rebalSeen := some (core, c) } := by
  let s1 := clockTo s core (cycleOf s core + (r.rebalLeft - rebalElapsed s r core))
  let after := fun (r : Region) => { r with
    queues := mapFrom (fun i (q : Queue) => { q with pending := pendingMove r i q }) 0 r.queues
    rebalLeft := 8192, rebalSeen := some (core, cycleOf s1 core) }
  refine ⟨modRegion s1 n after, cycleOf s1 core, ?_, tget_tmod_of (by rw [clockTo_regions, hr]) after⟩
  show execStageRebalance n s = _
  unfold execStageRebalance
  rw [hr, hcore]
  exact congrArg Host.Outcome.next (if_neg (by rw [hdet, hcompleted]; decide))

theorem slotMove_moves {s : State} {n : Nat} {k : Rake} {r : Region} {y : Nat} {qi : Option Nat} (hk : tget s.rakes n = some k)
    (hr : tget s.regions k.region = some r) (hdet : r.det = false) (hslotted : k.unslotted = false) (hcluster : k.cluster ≠ none)
    (hpop : atPopPoint s k = true) (htarget : moveTarget s k.region r k.stage = some (y, qi)) :
    let s1 := modRake (saveRake s n) n (fun k => { k with unslotted := true, slot := none })
    exec (.slotMove n) s = .next (fillSlot (modRegion s1 k.region (fun r => shiftSlot r k.stage y (qi.getD r.queues.length)))
      k.region y k.slot qi.isNone) := by
  intro s1
  have hplaced : k.cluster.isNone = false := by cases h : k.cluster <;> simp_all
  show execSlotMove n s = _
  unfold execSlotMove
  rw [hk]
  dsimp only
  rw [hr]
  dsimp only
  rw [if_neg (by rw [hdet, hslotted, hplaced, hpop]; decide), htarget]

/-- A turn's end changes the region, and its record in the deterministic area leaves it so. -/
theorem tget_turnMoves {s : State} {rg : Nat} {r : Region} (h : tget s.regions rg = some r) (f : Region → Region) :
    tget (turnMoves s rg f).regions rg = some (f r) := by
  unfold turnMoves
  dsimp only
  rw [detAreaWrite_regions]
  exact tget_tmod_of h f

theorem ticketTurn_endsRound {s : State} {n : Nat} {r : Region} (hr : tget s.regions n = some r) (hdet : r.det = true)
    (hcompleted : r.completed = false) (hbusy : r.turnBusy = none) (hsome : r.members ++ r.joiners ≠ [])
    (hend : r.members[r.position.1]? = none) : ∃ t, exec (.ticketTurn n) s = .next t ∧ tget t.regions n = some { r with
      members := r.members ++ r.joiners, joiners := [], position := (0, 0), round := r.round + 1 } := by
  let free := modRegion s n (fun r => { r with turnBusy := none })
  let next := fun (x : Region) => { x with
    members := r.members ++ r.joiners, joiners := [], position := (0, 0), round := r.round + 1 }
  have hfree : tget free.regions n = some { r with turnBusy := none } := tget_tmod_of hr _
  have hmany : (r.members.isEmpty && r.joiners.isEmpty) = false := by
    rw [Bool.eq_false_iff]
    intro h
    obtain ⟨hm, hj⟩ := Bool.and_eq_true_iff.1 h
    exact hsome (by rw [List.isEmpty_iff.1 hm, List.isEmpty_iff.1 hj]; rfl)
  refine ⟨turnMoves free n (fun x => { x with members := x.members ++ x.joiners, joiners := [], position := (0, 0)
                                              round := x.round + 1 }), ?_, (tget_turnMoves hfree _).trans ?_⟩
  · show execTicketTurn n s = _
    unfold execTicketTurn
    rw [hr]
    dsimp only
    rw [hbusy]
    dsimp only
    rw [if_neg (by rw [hdet, hcompleted, hmany]; decide), hend]
  · rw [← hbusy]

/-! #### The memory system's own steps (09 R336, 11 R427, 12 R445, R465, R466) -/

theorem l1DirtyPropagation_cleans {s : State} {n line : Nat} {c : CLine} (hc : l1Find s n line = some c) (hdirty : c.dirty ≠ 0) :
    exec (.l1DirtyPropagation n line) s = .next (l1Clean s n c) := by
  show execL1DirtyPropagation n line s = _
  unfold execL1DirtyPropagation
  rw [hc]
  exact congrArg Host.Outcome.next (if_neg hdirty)

theorem accessCounterNotify_notes {s : State} {n line b : Nat} {c : Ctr} (hc : tget s.ctrs (n * 1024 + line) = some c)
    (hroom : ctrRoom s = some b) (hcount : 2 ^ s.pf.ctrThr ≤ c.count) : ∃ t, exec (.accessCounterNotify n line) s = .next t
      ∧ tget t.ctrs (n * 1024 + line) = some { c with count := 0 } ∧ t.pf.ctrWidx = s.pf.ctrWidx + 1 := by
  refine ⟨_, rfl, ?_⟩
  rw [hc, hroom]
  dsimp only
  rw [if_neg (Nat.not_lt.2 hcount), raiseVector_ctrs, raiseVector_pf]
  exact ⟨tget_tput_self _ _ _, rfl⟩

/-- A soft error that the scrub of a die meets is gone, and it brings no other. -/
theorem scrub_softErrors (sel : Nat → Bool) (lines : List Nat) (s : State) (l : Nat) :
    tget (lines.foldl (fun s line => if sel line then meetSoftError s line else s) s).softErrors l
      = if l ∈ lines ∧ sel l = true then none else tget s.softErrors l := by
  induction lines generalizing s with
  | nil => simp
  | cons line lines ih =>
    rw [List.foldl_cons, ih]
    by_cases hsel : sel line = true
    · rw [if_pos hsel, meetSoftError_softErrors, tget_tdel]
      by_cases hl : line = l
      · subst hl; simp [hsel]
      · simp [hl, Ne.symm hl]
    · rw [if_neg hsel]
      by_cases hl : l = line
      · subst hl; simp [hsel]
      · simp [hl]

theorem tget_eq_none_of_not_mem {α : Type} {t : Tbl α} {k : Nat} (h : k ∉ tkeys t) : tget t k = none := by
  induction t with
  | nil => rfl
  | cons e t ih =>
    obtain ⟨a, x⟩ := e
    obtain ⟨hne, hrest⟩ := not_or.1 (fun hor => h (List.mem_cons.2 hor))
    exact (if_neg (by simpa using Ne.symm hne)).trans (ih hrest)

theorem dramScrub_cleans (s : State) (n : Nat) : ∃ t, exec (.dramScrub n) s = .next t
    ∧ ∀ l, isDram (l * 64) = true → homeDie (l * 64) = n → tget t.softErrors l = none := by
  refine ⟨_, rfl, fun l hdram hdie => ?_⟩
  rw [scrub_softErrors (fun line => isDram (line * 64) && homeDie (line * 64) == n)]
  by_cases hmem : l ∈ tkeys s.softErrors
  · exact if_pos ⟨hmem, by rw [hdram, hdie]; simp⟩
  · rw [if_neg fun h => hmem h.1]
    exact tget_eq_none_of_not_mem hmem

theorem mem_setPoison (s : State) (line : Nat) : line ∈ (setPoison s line).poison := by
  unfold setPoison
  split
  · next h => simpa using h
  · simp

theorem fatalDevice_poison (s : State) (source die : Nat) : (fatalDevice s source die).poison = s.poison := by
  unfold fatalDevice
  dsimp only
  rw [raiseVector_poison]
  exact logError_poison ..

theorem flowTagFailure_replayed (s : State) (n line : Nat) : ∃ t, exec (.flowTagFailure n line true) s = .next t
    ∧ (n % 2 = 0 → line ∈ t.poison) := by
  refine ⟨_, rfl, fun heven => ?_⟩
  dsimp only [Bool.not_true]
  rw [if_neg (by decide), if_pos heven]
  split
  · rw [fatalDevice_poison]
    exact (logError_poison ..).symm ▸ mem_setPoison s line
  · exact (logError_poison ..).symm ▸ mem_setPoison s line

/-! #### Clocks (12 R470, 15 R502) -/

theorem clockOf_tset (s : State) (n mhz : Nat) : clockOf { s with clockMHz := tset 1900 s.clockMHz n mhz } n = mhz :=
  (tgetD_tset _ _ _ _ _).trans (if_pos rfl)

theorem thermalThrottle_slows (s : State) (n : Nat) : ∃ t, exec (.thermalThrottle n) s = .next t
    ∧ clockOf t n = max 800 (clockOf s n - 50) := by
  refine ⟨_, rfl, (clockOf_tset s n _).trans ?_⟩
  split <;> omega

theorem thermalRecover_speeds (s : State) (n : Nat) : ∃ t, exec (.thermalRecover n) s = .next t
    ∧ clockOf t n = min 1900 (clockOf s n + 50) := by
  refine ⟨_, rfl, (clockOf_tset s n _).trans ?_⟩
  split <;> omega

/-- Settles O59: each clause by the case of its operation or event that its conditions select. -/
theorem operationAndEventCompletions : Obligations.OperationAndEventCompletions := by
  refine ⟨?_, ?_, ?_, ?_⟩
  · intro s w hq
    refine ⟨?_, fun h hok hlong => slotted_of_givesLong (spr_long h hq hok hlong), fun h hok hshort => spr_short_written h hq hok hshort,
      fun l0 h hlow => ?_⟩
    · simp only [List.forall_mem_cons]
      exact ⟨function_slotted rfl rfl hq, function_slotted rfl rfl hq, function_slotted rfl rfl hq, function_slotted rfl rfl hq,
        function_slotted rfl rfl hq, function_slotted rfl rfl hq, function_slotted rfl rfl hq,
        fun _ hnone => absurd hnone List.not_mem_nil⟩
    · exact ⟨fun hn hok => sprWr_fmode h hlow hn (hn.symm ▸ hok), fun hn hok => sprWr_fstat h hlow hn (hn.symm ▸ hok)⟩
  · exact fun s => ⟨fun w ops => systemPlateOp_impression, fun ops n b s1 => guestDecode_impression⟩
  · intro s k co hco
    refine ⟨fun j sl => longResultReturn_slot hco, fun st => returnBufferCommit_plain hco, fun t hres htimes => ?_,
      fun st q e d s1 hres hst hpush => ?_,
      fun st q e d => qfull_taken hco, fun st q e s1 hres => portPushComplete_done hco hres,
      fun st q qi x e s1 hres hstalls hkind hq => ?_,
      fun st q pk p r rs hres hstalls hkind hq => ?_, fun t => trapEntry_taken hco, fun cls idx => halted_raised hco,
      longWaitExit_leaves hco,
      leaseEstimateUpdate_measured hco, timeSliceExpiry_expires hco, fun p s1 => coachRestore_seats,
      fun part line => registerLineFill_fresh hco⟩
    · exact sleepWake_resident hco hres (by simp [htimes]) (by simp [htimes])
    · rw [queuePushComplete_resident hco hres hst, tryPush_done hpush]
    · exact queuePopComplete_filled (before := []) (after := []) hco hres hstalls hkind hq (by simp)
    · exact portPopComplete_filled (before := []) (after := []) hco hres hstalls hkind hq (by simp)
  · intro s n line
    exact ⟨fun b => tbarWake_closes, fun la => promiseTimeout_delivers, fun r la rg cl lead ks code dn any dk => drayContextStart_starts,
      fun r h rg s1 => rakeHaltRecord_written, fun f s2 => faultRecordWrite_written, fun o => matrixOpStart_starts,
      fun i j o r es => kStep_advances, fun j o => matrixOpComplete_completes, fun i k => issueSelect_picks,
      fun k co => coachAdmission_admits, throttleInterval_closes s n, fun e => coachEviction_saves,
      fun k r cl base seats => rakePlacement_places, fun r core => stageRebalance_rebalances, fun k r y qi => slotMove_moves,
      fun r => ticketTurn_endsRound, fun c => l1DirtyPropagation_cleans, fun c b => accessCounterNotify_notes, dramScrub_cleans s n,
      fun hdie => congrArg Host.Outcome.next (if_pos hdie), ⟨rfl, flowTagFailure_replayed s n line⟩, thermalThrottle_slows s n,
      thermalRecover_speeds s n, rfl⟩

end Sys2Proof.Proofs
end

/-! ### Operations with nothing in their way, and operands of barriers and handles (02 R59-R63, 05 R187, R195) -/
section
namespace Sys2Proof.Proofs
open Sys2Proof Sys2Proof.Machine Sys2Proof.Laws

/-! #### Operations that issue with nothing in their way -/

/-- An operation with nothing in its way leaves what its own effect leaves. -/
theorem exec_of_effect {s t : State} {i : Instr} {w : NOp} {sp : OpSpec} {effect : OpCtx → State → State}
    (hclear : clear s i = true) (hrow : nativeRow s i = some (w, sp)) (hrun : exec i s = .next (native w sp effect s))
    (h : effect (opCtx s w sp) s = t) : exec i s = .next t := by
  rw [hrun, native_of_clear hclear hrow, h]

/-- An operation whose effect ends in its group's passing passes. -/
theorem passes_of_effect {s t : State} {i : Instr} {w : NOp} {sp : OpSpec} {effect : OpCtx → State → State}
    (hrow : nativeRow s i = some (w, sp)) (hrun : exec i s = .next (native w sp effect s))
    (h : effect (opCtx s w sp) s = finishGroup (opCtx s w sp) t) : Passes s i t := fun hclear hset =>
  exec_of_effect hclear hrow hrun (h.trans (finishGroup_settled hset))

/-- The group passes from a state whose coach has changed. -/
theorem finishGroup_becomes {s t u : State} {w : NOp} {sp : OpSpec} {co : Coach} (h : u = setCoach t s.iss.coach co)
    (hfpe : co.fpeHeld = []) :
    finishGroup (opCtx s w sp) u = { t with coaches := tput t.coaches s.iss.coach (passLanes co s.iss s.iss.group) } := by
  rw [h, finishGroup_setCoach hfpe]

/-- The operand of a barrier operation: the immediate, or A in the lowest enabled lane (05 R187). -/
def barOperand (s : State) (w : NOp) : Nat :=
  if fI w then fImm w else (aVal (me s) w false ((lowLane (enOf s w)).getD 0)).toNat

theorem barValue_operand (s : State) (w : NOp) (sp : OpSpec) : barValue (opCtx s w sp) (me s) = barOperand s w :=
  barValue_opCtx s w sp

/-- The handle that TLWAIT and TLRD name (05 R195). -/
def handleOf (s : State) (w : NOp) : Word := loOf (aVal (me s) w false ((lowLane (enOf s w)).getD 0))

theorem handleA_of (s : State) (w : NOp) (sp : OpSpec) : handleA (opCtx s w sp) (me s) = handleOf s w := handleA_opCtx s w sp

end Sys2Proof.Proofs
end

/-! ### What the memory system leaves of the coaches and the rakes (09 R334-R338, 11 R420) -/
section
namespace Sys2Proof.Proofs
open Sys2Proof Sys2Proof.Machine Sys2Proof.Laws

/-! #### What the memory system leaves alone: coaches and rakes (09 R334-R338, 11 R420) -/

/-- The coaches and the rakes of two states are the same. -/
structure SameCoaches (s t : State) : Prop where
  coaches : t.coaches = s.coaches
  rakes : t.rakes = s.rakes

theorem SameCoaches.refl (s : State) : SameCoaches s s := ⟨rfl, rfl⟩

theorem SameCoaches.trans {s t u : State} (h : SameCoaches s t) (h' : SameCoaches t u) : SameCoaches s u :=
  ⟨h'.coaches.trans h.coaches, h'.rakes.trans h.rakes⟩

/-- A change elsewhere before the steps. -/
theorem SameCoaches.after {s t u : State} (h : SameCoaches t u) (hc : t.coaches = s.coaches) (hr : t.rakes = s.rakes) :
    SameCoaches s u :=
  ⟨h.coaches.trans hc, h.rakes.trans hr⟩

theorem SameCoaches.coachOf {s t : State} (h : SameCoaches s t) (k : Nat) : coachOf t k = coachOf s k := by
  unfold Machine.coachOf
  rw [h.coaches]

/-- A choice between two such states. -/
theorem SameCoaches.ite {s t u : State} {p : Prop} [Decidable p] (h : SameCoaches s t) (h' : SameCoaches s u) :
    SameCoaches s (if p then t else u) := by
  split
  · exact h
  · exact h'

/-- A fold of steps that leave the coaches and the rakes leaves them. -/
theorem SameCoaches.foldl {α : Type} {f : State → α → State} (hf : ∀ s a, SameCoaches s (f s a)) (l : List α) (s : State) :
    SameCoaches s (l.foldl f s) := by
  induction l generalizing s with
  | nil => exact .refl s
  | cons a l ih => exact (hf s a).trans (ih _)

/-! Errors and poison. -/

theorem sameCoaches_raiseVector (s : State) (fn vec : Nat) : SameCoaches s (raiseVector s fn vec) := by
  unfold raiseVector
  split <;> exact ⟨rfl, rfl⟩

theorem sameCoaches_logError (s : State) (source sev die pa : Nat) (ctx world cluster : Option Nat) :
    SameCoaches s (logError s source sev die pa ctx world cluster) := by
  unfold logError
  extract_lets
  split
  · exact .refl s
  · split
    · exact ⟨rfl, rfl⟩
    · exact (sameCoaches_raiseVector _ _ _).after rfl rfl

theorem sameCoaches_correctedError (s : State) (source die pa : Nat) : SameCoaches s (correctedError s source die pa) := by
  unfold correctedError
  dsimp only
  split
  · exact (sameCoaches_logError ..).after rfl rfl
  · exact ⟨rfl, rfl⟩

theorem sameCoaches_setPoison (s : State) (line : Nat) : SameCoaches s (setPoison s line) := .ite (.refl s) ⟨rfl, rfl⟩

theorem sameCoaches_meetSoftError (s : State) (line : Nat) : SameCoaches s (meetSoftError s line) := by
  unfold meetSoftError
  split
  · exact .refl s
  · dsimp only
    split
    · exact (sameCoaches_correctedError ..).after rfl rfl
    · exact ((sameCoaches_setPoison _ _).trans (sameCoaches_logError ..)).after rfl rfl

/-! The home slices. -/

theorem sameCoaches_storeDirty (s : State) (c : CLine) : SameCoaches s (storeDirty s c) := ⟨rfl, rfl⟩

theorem sameCoaches_l2WriteBack (s : State) (c : CLine) : SameCoaches s (l2WriteBack s c) :=
  .ite (sameCoaches_storeDirty s c) (.refl s)

theorem sameCoaches_l2Evict (s : State) (c : CLine) : SameCoaches s (l2Evict s c) := (sameCoaches_l2WriteBack s c).trans ⟨rfl, rfl⟩

theorem sameCoaches_l2Room (s : State) (line : Nat) : SameCoaches s (l2Room s line) := by
  unfold l2Room
  dsimp only
  split
  · exact .refl s
  · split
    · exact (sameCoaches_l2Evict _ _).after rfl rfl
    · exact ⟨rfl, rfl⟩

theorem sameCoaches_countAccess (s : State) (pa : Nat) : SameCoaches s (countAccess s pa) := .ite ⟨rfl, rfl⟩ (.refl s)

theorem sameCoaches_l2Fill (s : State) (line ctx : Nat) : SameCoaches s (l2Fill s line ctx) := by
  unfold l2Fill
  split
  · exact .refl s
  · exact ((sameCoaches_countAccess s _).trans (sameCoaches_l2Room _ _)).trans ⟨rfl, rfl⟩

theorem sameCoaches_l2Read (s : State) (line ctx : Nat) : SameCoaches s (l2Read s line ctx) :=
  (sameCoaches_meetSoftError s line).trans (sameCoaches_l2Fill _ line ctx)

theorem sameCoaches_l2System (s : State) (drop : Bool) : SameCoaches s (l2System s drop) :=
  (SameCoaches.foldl sameCoaches_l2WriteBack s.l2 s).trans ⟨rfl, rfl⟩

/-! The L1 caches, and a release. -/

theorem sameCoaches_writeDirty (s : State) (c : CLine) : SameCoaches s (writeDirty s c) := by
  have hpoison : SameCoaches s
      (if c.poisoned then setPoison s c.line else if c.dirty = BitVec.allOnes 64 then clearPoison s c.line else s) :=
    .ite (sameCoaches_setPoison _ _) (.ite ⟨rfl, rfl⟩ (.refl s))
  exact .ite (.refl s) (.ite (.refl s) (.ite ((hpoison.trans (sameCoaches_l2Fill _ _ _)).trans ⟨rfl, rfl⟩)
    (hpoison.trans (sameCoaches_storeDirty _ c))))

theorem sameCoaches_l1Clean (s : State) (unit : Nat) (c : CLine) : SameCoaches s (l1Clean s unit c) :=
  (sameCoaches_writeDirty s c).trans ⟨rfl, rfl⟩

theorem sameCoaches_l1WriteBackAll (s : State) (unit ctx : Nat) : SameCoaches s (l1WriteBackAll s unit ctx) :=
  .foldl (fun s c => .ite (sameCoaches_l1Clean s unit c) (.refl s)) _ s

theorem sameCoaches_releaseGlobal (s : State) (unit ctx agt : Nat) : SameCoaches s (releaseGlobal s unit ctx agt) := by
  unfold releaseGlobal
  extract_lets moves t
  have ht : SameCoaches s t := .ite (sameCoaches_l1WriteBackAll s unit ctx) (.refl s)
  exact .ite (ht.trans (sameCoaches_l2System t false)) ht

/-! Translation. -/

theorem sameCoaches_tlbFillAll (e : TlbE) (units : List Nat) (s : State) : SameCoaches s (tlbFillAll s e units) := by
  induction units generalizing s with
  | nil => exact .refl s
  | cons u us ih => exact (ih _).after rfl rfl

theorem sameCoaches_walkReads (s : State) (ctx va : Nat) : SameCoaches s (walkReads s ctx va) :=
  .ite (.foldl (fun s line => sameCoaches_l2Read s line ctx) _ s) (.refl s)

theorem sameCoaches_atsFill (s : State) (units : List Nat) (pa : Nat) : SameCoaches s (atsFill s units pa) := by
  unfold atsFill
  split
  · exact .ite ⟨rfl, rfl⟩ (.refl s)
  · exact .refl s

theorem sameCoaches_xlate (s : State) (units : List Nat) (ctx va : Nat) (a : Acc) : SameCoaches s (xlate s units ctx va a).2 := by
  have hfill : ∀ t e miss pa, SameCoaches t (atsFill (tlbFillAll t e miss) units pa) := fun t e miss pa =>
    (sameCoaches_tlbFillAll e miss t).trans (sameCoaches_atsFill _ units pa)
  have hwalk := sameCoaches_walkReads s ctx va
  unfold xlate
  obtain ⟨hit, miss⟩ := tlbLook s ctx va a units []
  cases hit with
  | some e =>
    dsimp only
    split
    · exact .refl s
    · split <;> exact hfill _ _ _ _
  | none =>
    dsimp only
    split
    · exact hwalk
    · split
      · exact hwalk
      · split <;> exact hwalk.trans (hfill _ _ _ _)

theorem sameCoaches_coachXlate (s : State) (co : Coach) (va : Nat) (a : Acc) : SameCoaches s (coachXlate s co va a).2 := by
  unfold coachXlate xlateProgram
  split
  · exact .refl s
  · exact sameCoaches_xlate ..

theorem sameCoaches_findLanes (k : Nat) (a : Acc) (addrs : List (Nat × Nat)) (s : State) (f : Found) :
    SameCoaches s (findLanes s k a addrs f).2 := by
  induction addrs generalizing s f with
  | nil => exact .refl s
  | cons x addrs ih =>
    obtain ⟨l, va⟩ := x
    have hx := sameCoaches_coachXlate s (coachOf s k) va a
    unfold findLanes
    split <;> next heq => rw [heq] at hx; exact hx.trans (ih _ _)

end Sys2Proof.Proofs
end

/-! ### Tree barriers and timelines (05 R194-R196) -/
section
namespace Sys2Proof.Proofs
open Sys2Proof Sys2Proof.Machine Sys2Proof.Laws

section
variable {s : State} {w : NOp}

/-! #### Tree barriers (05 R194) -/

/-- The route tag that TBAR names (05 R194). -/
def tbarTag (w : NOp) : Nat := if fKind w = 0 then fX w % 8 else fXS w % 8
/-- The operation's context holds a grant of the tag. -/
def tbarGranted (s : State) (w : NOp) : Bool :=
  ((tget s.ctxs (me s).ctx).map (fun c => c.tags.getLsbD (tbarTag w))).getD false
/-- The tree barrier of the tag in the operation's context. -/
def tbarOf (s : State) (w : NOp) : TreeBar := tgetD TreeBar.none s.treebars ((me s).ctx * 8 + tbarTag w)
/-- The operand breaks the agreement on the number of arrivals. -/
def tbarMisuse (s : State) (w : NOp) : Prop :=
  barOperand s w = 0 ∨ (0 < (tbarOf s w).count ∧ barOperand s w ≠ (tbarOf s w).n)
/-- The tree barrier after one more arrival: its epoch is closed with the last. -/
def tbarArrived (s t : State) (w : NOp) : TreeBar :=
  let b := tbarOf s w
  if b.count + 1 = barOperand s w then
    { b with epoch := b.epoch + 1, n := 0, count := 0, closed := (b.epoch, coreOf (me s), cycleOf t (coreOf (me s))) :: b.closed }
  else { b with n := barOperand s w, count := b.count + 1 }

theorem tbar_ungranted (hclear : clear s (.tbar w) = true) (hgrant : tbarGranted s w = false) :
    exec (.tbar w) s = .next (illegal s (enOf s w) 24 0xFF) :=
  exec_of_effect hclear rfl rfl (if_pos (by rw [Bool.not_eq_true']; exact hgrant))

theorem tbar_misused (hclear : clear s (.tbar w) = true) (hgrant : tbarGranted s w = true) (hbad : tbarMisuse s w) :
    exec (.tbar w) s = .next (raiseTrap s s.iss.coach (opTrap s.iss 10 0 (enOf s w) (enOf s w)
      [(64, 1, tbarTag w), (65, 1, 0xB5)])) := by
  refine exec_of_effect hclear rfl rfl ?_
  simp only [barValue_operand]
  exact (if_neg (by rw [Bool.not_eq_true', Bool.not_eq_false]; exact hgrant)).trans (if_pos hbad)

theorem tbar_arrives (hclear : clear s (.tbar w) = true) (hdet : isDet s (me s) = false) (hgrant : tbarGranted s w = true)
    (hgood : ¬ tbarMisuse s w) :
    let s1 := releaseGlobal s (l1Unit s (coreOf (me s))) (me s).ctx 4
    let t := { s1 with treebars := tput s1.treebars ((me s).ctx * 8 + tbarTag w) (tbarArrived s s1 w) }
    isDet t (coachOf t s.iss.coach) = false → settled t s.iss.coach = true →
    exec (.tbar w) s = .next (sleptAt s t w (.tbar (tbarTag w) (tbarOf s w).epoch)) := by
  intro s1 t hdet' hset
  refine exec_of_effect hclear rfl rfl ?_
  simp only [barValue_operand]
  refine (if_neg (by rw [Bool.not_eq_true', Bool.not_eq_false]; exact hgrant)).trans ((if_neg hgood).trans ?_)
  rw [withRoom_go hdet]
  exact (congrArg (sleepIn _ _) (endsBundle_same hdet')).trans (sleepIn_settled hset)

/-! #### Timelines (05 R195, R196) -/

/-- The state after the acquire of a TLWAIT, which one of stage 1 does not make. -/
def tlwaitAcquired (s : State) (w : NOp) : State :=
  if field (fX w) 6 5 = 1 then s else acquireGlobal s (l1Unit s (coreOf (me s))) (me s).ctx (field (fX w) 9 7)

/-- TLWAIT's operand: the point of the timeline. -/
def tlwaitPoint (s : State) (w : NOp) : Dword := bVal (me s) w true 0 ((lowLane (enOf s w)).getD 0)

/-- The context of the handle has faulted in the generation that it names (07 R292). -/
def handleFaulted (t : State) (dk : Nat) (h : Word) : Prop :=
  (Machine.drayOf t dk).state = 5 ∧ h.extractLsb' 0 8 = (Machine.drayOf t dk).gen

theorem tlwait_refused (hclear : clear s (.tlwait w) = true) (hbad : checkHandle s (me s).ctx (handleOf s w) = none) :
    exec (.tlwait w) s = .next (illegal s (enOf s w) 12 1) := by
  refine exec_of_effect hclear rfl rfl ?_
  simp only [handleA_of, hbad]
  rfl

theorem tlrd_refused (hclear : clear s (.tlrd w) = true) (hbad : checkHandle s (me s).ctx (handleOf s w) = none) :
    exec (.tlrd w) s = .next (illegal s (enOf s w) 12 1) := by
  refine exec_of_effect hclear rfl rfl ?_
  simp only [handleA_of, hbad]
  rfl

section
variable {dk : Nat} (hdk : checkHandle s (me s).ctx (handleOf s w) = some dk)
include hdk

theorem tlwait_sleeps (hclear : clear s (.tlwait w) = true) (hmet : timelineMet s dk (handleOf s w) (tlwaitPoint s w) = false) :
    exec (.tlwait w) s = .next (sleptAt s s w
      (.timeline (handleOf s w) (tlwaitPoint s w) (field (fX w) 9 7) (field (fX w) 6 5))) := by
  refine exec_of_effect hclear rfl rfl ?_
  simp only [handleA_of, srcB_opCtx, hdk]
  exact (if_neg (by rw [Bool.not_eq_true]; exact hmet)).trans (sleepIn_settled (settled_of_clear hclear rfl))

theorem tlwait_passes (hmet : timelineMet s dk (handleOf s w) (tlwaitPoint s w) = true)
    (hsound : ¬ handleFaulted (tlwaitAcquired s w) dk (handleOf s w)) : Passes s (.tlwait w) (tlwaitAcquired s w) := by
  refine passes_of_effect rfl rfl ?_
  simp only [handleA_of, srcB_opCtx, hdk]
  exact (if_pos hmet).trans (if_neg hsound)

theorem tlwait_faulted (hclear : clear s (.tlwait w) = true) (hmet : timelineMet s dk (handleOf s w) (tlwaitPoint s w) = true)
    (hfault : handleFaulted (tlwaitAcquired s w) dk (handleOf s w)) : exec (.tlwait w) s
      = .next (passTrap s.iss.coach s.iss s.iss.group (tlwaitAcquired s w)
        (drayTrap (tlwaitAcquired s w) dk (handleOf s w) (enOf s w) s.iss.word s.iss.ga s.iss.step)) := by
  refine exec_of_effect hclear rfl rfl ?_
  simp only [handleA_of, srcB_opCtx, hdk]
  exact (if_pos hmet).trans (if_pos hfault)

theorem tlrd_reads (hclear : clear s (.tlrd w) = true) (hq : noQueue w = true) :
    GivesLong s (.tlrd w) w (fX w % 2 == 0) (fun _ =>
      (if fX w % 2 = 0 then (Machine.drayOf s dk).timeline else (Machine.drayOf s dk).status.setWidth 64, 0)) := by
  refine congrArg Host.Outcome.next ((native_of_clear hclear rfl _).trans ?_)
  simp only [handleA_of, hdk]
  exact deliverTo_slot rfl (enabled_of_clear hclear rfl) hq (settled_of_clear hclear rfl)
end
end

/-- Settles O41: one rule per operation, with the cases of its tag, its handle and its timeline. -/
theorem treesAndTimelines : Obligations.TreesAndTimelines := by
  intro s w hdet k co l0 core unit x tag granted b n s1 closed t h v agt stg acquired
  refine ⟨fun hclear hgrant hn hagree => tbar_arrives hclear hdet hgrant ?_, tbar_ungranted, tbar_misused,
    fun dk hdk hmet hsound => tlwait_passes hdk hmet ?_,
    fun dk hclear hdk hmet hstate hgen => tlwait_faulted hdk hclear hmet ⟨hstate, hgen⟩,
    fun dk hclear hdk hmet => tlwait_sleeps hdk hclear hmet, fun dk hclear hq hdk => tlrd_reads hdk hclear hq,
    fun hbad => ⟨fun hclear => tlwait_refused hclear hbad, fun hclear => tlrd_refused hclear hbad⟩⟩
  · rintro (hzero | ⟨hcount, hne⟩)
    · exact hn hzero
    · rcases hagree with hnone | hsame
      · exact absurd hcount (by rw [show (tbarOf s w).count = 0 from hnone]; decide)
      · exact hne hsame
  · rintro ⟨hstate, hgen⟩
    rcases hsound with hne | hne
    · exact hne hstate
    · exact hne hgen

end Sys2Proof.Proofs
end

/-! ### Counted barriers (05 R187-R193) -/
section
namespace Sys2Proof.Proofs
open Sys2Proof Sys2Proof.Machine Sys2Proof.Laws

section
variable {s : State} {w : NOp}

/-! #### Counted barriers (05 R187-R193) -/

/-- The barrier that the operation names, in its rake. -/
abbrev barOf (s : State) (w : NOp) : Barrier := barrierOf s (me s).rake (barNum w)

/-- BARMIS at the operation: no effect but the trap (05 R189-R193). -/
def barMisuse (s : State) (w : NOp) : State :=
  raiseTrap s s.iss.coach { barmisTrap s (me s).rake (barNum w) (enOf s w) s.iss.word s.iss.ga s.iss.step with
    move := if s.iss.step = 0 then 0 else enOf s w, moveTo := s.iss.ga }

theorem not_armed_iff (x : Barrier) : ¬ (x.armed = false ∨ x.inv = true) ↔ x.armed = true ∧ x.inv = false := by
  simp only [not_or, Bool.not_eq_false, Bool.not_eq_true]

theorem bari_arms (hn : barOperand s w ≠ 0) (hlt : barOperand s w < 2 ^ 24)
    (hfree : barrierWaited s (me s).rake (barNum w) = false) :
    Passes s (.bari w) (setBarrier s (me s).rake (barNum w)
      { armed := true, inv := false, exp := BitVec.ofNat 24 (barOperand s w), cnt := 0, ph := 0 }) := by
  refine passes_of_effect rfl rfl ?_
  simp only [barValue_operand]
  exact if_neg (by rintro (h | h | h); exacts [hn h, by omega, absurd (h.symm.trans hfree) (by decide)])

theorem bari_misused (hclear : clear s (.bari w) = true)
    (hbad : barOperand s w = 0 ∨ 2 ^ 24 ≤ barOperand s w ∨ barrierWaited s (me s).rake (barNum w) = true) :
    exec (.bari w) s = .next (barMisuse s w) := by
  refine exec_of_effect hclear rfl rfl ?_
  simp only [barValue_operand]
  exact if_pos hbad

theorem bara_arrives (hclear : clear s (.bara w) = true) (hq : noQueue w = true) (hdet : isDet s (me s) = false)
    (harmed : (barOf s w).armed = true) (hvalid : (barOf s w).inv = false) (hlt : barOperand s w < 2 ^ 24) :
    let a := arrive (releaseGlobal s (l1Unit s (coreOf (me s))) (me s).ctx 2) (me s).rake (barNum w) (barOperand s w)
    isDet a.2 (coachOf a.2 s.iss.coach) = false → settled a.2 s.iss.coach = true →
    exec (.bara w) s = .next (writtenAt s a.2 w 1 (fun _ _ => a.1.setWidth 32)) := by
  intro a hdet' hset
  refine exec_of_effect hclear rfl rfl ?_
  have hgood : ¬ ((barOf s w).armed = false ∨ (barOf s w).inv = true ∨ 2 ^ 24 ≤ barOperand s w) := by
    rintro (h | h | h)
    exacts [absurd (h.symm.trans harmed) (by decide), absurd (h.symm.trans hvalid) (by decide), by omega]
  rw [withRoom_go hdet]
  simp only [barValue_operand]
  refine (if_neg hgood).trans ?_
  refine (congrArg (deliver _ false _) (endsBundle_same hdet')).trans ?_
  refine (deliver_written (f := fun _ => BitVec.ofNat 64 a.1.toNat) rfl hq hset).trans (written_one fun l => ?_)
  show loOf (BitVec.ofNat 64 a.1.toNat) = a.1.setWidth 32
  rw [loOf_ofNat, BitVec.ofNat_toNat]

theorem bara_misused (hclear : clear s (.bara w) = true) (hdet : isDet s (me s) = false)
    (hbad : (barOf s w).armed = false ∨ (barOf s w).inv = true ∨ 2 ^ 24 ≤ barOperand s w) :
    exec (.bara w) s = .next (barMisuse s w) := by
  refine exec_of_effect hclear rfl rfl ?_
  rw [withRoom_go hdet]
  simp only [barValue_operand]
  exact if_pos hbad

theorem barw_passes (harmed : (barOf s w).armed = true) (hvalid : (barOf s w).inv = false)
    (hreached : ((barOf s w).ph - BitVec.ofNat 24 (barOperand s w)).toNat < 2 ^ 23) :
    Passes s (.barw w) (acquireGlobal s (l1Unit s (coreOf (me s))) (me s).ctx 2) := by
  refine passes_of_effect rfl rfl ?_
  simp only [barValue_operand]
  exact (if_neg ((not_armed_iff _).2 ⟨harmed, hvalid⟩)).trans (if_pos (decide_eq_true hreached))

theorem barw_sleeps (hclear : clear s (.barw w) = true) (harmed : (barOf s w).armed = true) (hvalid : (barOf s w).inv = false)
    (hahead : 2 ^ 23 ≤ ((barOf s w).ph - BitVec.ofNat 24 (barOperand s w)).toNat) :
    exec (.barw w) s = .next (sleptAt s s w (.barrier (barNum w) (BitVec.ofNat 24 (barOperand s w)))) := by
  refine exec_of_effect hclear rfl rfl ?_
  simp only [barValue_operand]
  refine (if_neg ((not_armed_iff _).2 ⟨harmed, hvalid⟩)).trans ((if_neg ?_).trans (sleepIn_settled (settled_of_clear hclear rfl)))
  rw [phaseReached, decide_eq_true_eq]
  exact Nat.not_lt.2 hahead

theorem barw_misused (hclear : clear s (.barw w) = true) (hbad : (barOf s w).armed = false ∨ (barOf s w).inv = true) :
    exec (.barw w) s = .next (barMisuse s w) :=
  exec_of_effect hclear rfl rfl (if_pos hbad)

theorem barNum_register (hkind : fKind w = 0) : fX w % 16 = barNum w := by rw [barNum, if_pos hkind]

/-- What BARS reads of the barrier (05 R192). -/
def barsValue (s : State) (w : NOp) : Dword :=
  let sel := field (fX w) 5 4
  if sel = 0 then (barOf s w).ph.setWidth 64 else if sel = 1 then (barOf s w).cnt.setWidth 64
  else if sel = 2 then (barOf s w).exp.setWidth 64
  else BitVec.ofNat 64 (barrierFlags s (me s).rake (barNum w))

theorem bars_reads (hclear : clear s (.bars w) = true) (hq : noQueue w = true) (hkind : fKind w = 0) :
    Gives s (.bars w) w false (fun _ => barsValue s w) := by
  obtain ⟨co', hrun, hres⟩ := deliver_plain (wide := false) (fun _ => barsValue s w) hclear rfl rfl hq
  refine ⟨_, co', exec_of_effect hclear rfl rfl (Eq.trans ?_ hrun), hres⟩
  simp only [barNum_register hkind]
  refine congrArg (fun v => deliver _ false (fun _ => (v, 0)) s) ?_
  unfold barsValue
  dsimp only
  generalize field (fX w) 5 4 = sel
  match sel with
  | 0 => exact BitVec.ofNat_toNat ..
  | 1 => exact BitVec.ofNat_toNat ..
  | 2 => exact BitVec.ofNat_toNat ..
  | _ + 3 => rfl

theorem settled_mapWaits (s : State) (rake k : Nat) (f : Wait → Wait) : settled (mapWaits s rake f) k = settled s k := by
  have hget : ∀ t : Tbl Coach, tget (t.map (fun e => if e.2.rake = rake then
        (e.1, { e.2 with lanes := e.2.lanes.map (fun x => { x with wait := f x.wait }) }) else e)) k
      = (tget t k).map (fun co => if co.rake = rake then
        { co with lanes := co.lanes.map (fun x => { x with wait := f x.wait }) } else co) := by
    intro t
    induction t with
    | nil => rfl
    | cons e t ih =>
      obtain ⟨j, co⟩ := e
      by_cases hrake : co.rake = rake <;> by_cases hj : j = k <;> simp [tget, hrake, hj, ih]
  unfold settled mapWaits
  rw [hget]
  cases tget s.coaches k with
  | none => rfl
  | some co => by_cases hrake : co.rake = rake <;> simp [hrake]

theorem barx_ends (hclear : clear s (.barx w) = true) (hkind : fKind w = 0) :
    exec (.barx w) s = .next (wakeCoaches (passedAt (mapWaits (setBarrier s (me s).rake (barNum w)
      { barOf s w with inv := true, armed := false }) (me s).rake (barxWait (barNum w))) s.iss) (fun y => y.rake == (me s).rake)) := by
  refine exec_of_effect hclear rfl rfl ?_
  simp only [barNum_register hkind]
  refine congrArg (wakeCoaches · _) (finishGroup_settled ?_)
  rw [settled_mapWaits]
  exact settled_of_clear (s := s) hclear rfl
end

/-! #### Arrivals (05 R190) -/

section
variable (s : State) (rk b n : Nat)

theorem barrierOf_setBarrier {s : State} {rk : Nat} (hrake : (tget s.rakes rk).isSome) (b : Nat) (x : Barrier) :
    barrierOf (setBarrier s rk b x) rk b = x := by
  obtain ⟨r, hr⟩ := Option.isSome_iff_exists.1 hrake
  have hget : tget (setBarrier s rk b x).rakes rk = some { r with barriers := tput r.barriers b x } := by
    show tget (tmod s.rakes rk _) rk = _
    rw [tget_tmod_of hr]
  rw [barrierOf, hget]
  exact tgetD_tput_self _ _ _ _

theorem arrive_below (hrake : (tget s.rakes rk).isSome)
    (hlt : (barrierOf s rk b).cnt.toNat + n < (barrierOf s rk b).exp.toNat) :
    barrierOf (arrive s rk b n).2 rk b = { barrierOf s rk b with cnt := (barrierOf s rk b).cnt + BitVec.ofNat 24 n }
    ∧ (arrive s rk b n).1 = (barrierOf s rk b).ph + (if n = 0 then 0 else 1) := by
  have hdiv : ((barrierOf s rk b).cnt.toNat + n) / (barrierOf s rk b).exp.toNat = 0 := Nat.div_eq_of_lt hlt
  have hcnt : BitVec.ofNat 24 (((barrierOf s rk b).cnt.toNat + n) % (barrierOf s rk b).exp.toNat)
      = (barrierOf s rk b).cnt + BitVec.ofNat 24 n := by
    rw [Nat.mod_eq_of_lt hlt]
    exact BitVec.eq_of_toNat_eq (by simp)
  unfold arrive
  dsimp only
  rw [hdiv, hcnt]
  refine ⟨?_, ?_⟩
  · rw [if_pos rfl, barrierOf_setBarrier hrake]
    simp
  · by_cases hn : n = 0
    · simp [hn]
    · have hlow : ((barrierOf s rk b).cnt.toNat + n - 1) / (barrierOf s rk b).exp.toNat = 0 := Nat.div_eq_of_lt (by omega)
      simp [hn, hlow]

/-- The barrier after `j` completions by `n` arrivals. -/
def completed (x : Barrier) (n j : Nat) : Barrier :=
  { x with cnt := BitVec.ofNat 24 ((x.cnt.toNat + n) % x.exp.toNat), ph := x.ph + BitVec.ofNat 24 j }

theorem cnt_completed {x : Barrier} (hexp : 0 < x.exp.toNat) (n j : Nat) :
    (completed x n j).cnt.toNat = (x.cnt.toNat + n) % x.exp.toNat := by
  have hmod := Nat.mod_lt (x.cnt.toNat + n) hexp
  have hlt := x.exp.isLt
  rw [completed, BitVec.toNat_ofNat, Nat.mod_eq_of_lt (by omega)]

theorem arrive_completes (hexp : 0 < (barrierOf s rk b).exp.toNat) (hn : 1 ≤ n)
    (hge : (barrierOf s rk b).exp.toNat ≤ (barrierOf s rk b).cnt.toNat + n) :
    let x := barrierOf s rk b
    let j := (x.cnt.toNat + n) / x.exp.toNat
    1 ≤ j ∧ arrive s rk b n = (x.ph + BitVec.ofNat 24 ((x.cnt.toNat + n - 1) / x.exp.toNat + 1),
      wakeCoaches (mapWaits (setBarrier s rk b (completed x n j)) rk (passPhase b x.ph j)) (fun co => co.rake == rk)) := by
  intro x j
  have hj : 1 ≤ j := (Nat.one_le_div_iff hexp).2 hge
  refine ⟨hj, ?_⟩
  unfold arrive
  dsimp only
  rw [if_neg (by omega), if_neg (show ¬ j = 0 by omega)]
  rfl
end

theorem passPhase_eq (b : Nat) (ph : BitVec 24) (j : Nat) (wt : Wait) : passPhase b ph j wt
    = match wt with
      | .barrier c t => if c = b ∧ (t - ph).toNat ≤ j then .ended (some 2) else wt
      | .sleepBar _ bar c t _ => if bar = true ∧ c = b ∧ (t - ph).toNat ≤ j then .ended none else wt
      | _ => wt := by
  cases wt <;> simp only [passPhase, decide_eq_true_eq]

/-- Settles O40: one rule per operation, with the cases of its barrier. -/
theorem countedBarriers : Obligations.CountedBarriers := by
  intro s w k co b x n unit a put mis
  refine ⟨bari_arms, bari_misused, bara_arrives, bara_misused, barw_passes, barw_sleeps, barw_misused, bars_reads, barx_ends,
    fun s rk b n => arrive_below s rk b n, ?_⟩
  intro s rk b n x hexp hlt hn hge
  obtain ⟨hj, harrive⟩ := arrive_completes s rk b n hexp hn hge
  refine ⟨_, completed x n _, hj, ?_, ?_, rfl, rfl, ?_⟩
  · rw [cnt_completed hexp]
    exact Nat.mod_lt _ hexp
  · rw [cnt_completed hexp, Nat.mod_add_div]
  · rw [harrive]
    refine congrArg (fun f => (_, wakeCoaches (mapWaits _ rk f) _)) (funext fun wt => ?_)
    exact passPhase_eq b x.ph _ wt

end Sys2Proof.Proofs
end

/-! ### Transfers and engine ports (05 R197-R206) -/
section
namespace Sys2Proof.Proofs
open Sys2Proof Sys2Proof.Machine Sys2Proof.Laws

section
variable {s : State} {w : NOp}

/-! #### CPY (05 R197-R199, R201) -/

/-- The state after CPY's release of the global storage at device scope (05 R198). -/
abbrev cpyReleased (s : State) : State := orderGlobal s (l1Unit s (coreOf (me s))) (me s).ctx 2 4 0

/-- The number of the coach's next launch. -/
abbrev cpyNext (s : State) : Nat := (me s).cpyCount + 1

/-- This coach's slice, code and zone in its rake's next launch (05 R197, R198). -/
def cpySlice (s : State) (w : NOp) (r : Rake) : Rake :=
  let co := me s
  let la := tgetD execCpy.newLaunch r.launches (cpyNext s)
  { r with launches := tput r.launches (cpyNext s) { la with
      slices := tput la.slices co.idx ((List.range 8).map (fun i => regWord co (fA w) i 0))
      codes := tput la.codes co.idx (bVal co w true 0 0, fX w % 4, (fX w).testBit 2)
      zones := tput la.zones co.idx (((co.zones.head?).map Zone.k).getD 0) } }

/-- The recorded launch is cancelled when it was so before. -/
theorem cancelled_cpySlice (s t : State) (w : NOp) (rake : Nat) (h : t.rakes = s.rakes) :
    ((launchOf (modRake t rake (cpySlice s w)) (rake, cpyNext s)).map Launch.cancelled).getD false
      = ((launchOf s (rake, cpyNext s)).map Launch.cancelled).getD false := by
  unfold launchOf
  dsimp only
  show (Option.map _ (Option.bind (tget (tmod t.rakes rake _) rake) _)).getD false = _
  rw [h]
  cases hr : tget s.rakes rake with
  | none => simp [tmod, hr]
  | some r =>
    rw [tget_tmod_of hr]
    cases hla : tget r.launches (cpyNext s) <;> simp [cpySlice, tgetD, hla, execCpy.newLaunch]

/-- CPY's slot, which its launch's results fill (05 R199). -/
def cpySlot (s : State) (w : NOp) : Slot :=
  let offs : Nat → Nat → Word := fun _ i => BitVec.ofNat 32 i
  { slotFor s w 1 (laneWrites (fD w) 4 (enOf s w) offs) (scalarWrites (fD w) 4 (enOf s w) offs) noFlags with
    cpy := some (cpyNext s, coreOf (me s)) }

/-- The coach after CPY: the launch is in its open batch, and its results wait in a slot, unless it is cancelled (05 R201). -/
def cpyCoach (s : State) (w : NOp) : Coach :=
  let co := { me s with cpyCount := cpyNext s, openBatch := (me s).openBatch ++ [((me s).rake, cpyNext s)] }
  if ((launchOf s ((me s).rake, cpyNext s)).map Launch.cancelled).getD false then co else addSlot co (cpySlot s w)

theorem cpy_records (hclear : clear s (.cpy w) = true) :
    let t := modRake (cpyReleased s) (me s).rake (cpySlice s w)
    exec (.cpy w) s = .next { t with coaches := tput t.coaches s.iss.coach (passLanes (cpyCoach s w) s.iss s.iss.group) } := by
  intro t
  have hfpe : (cpyCoach s w).fpeHeld = [] := by
    have hnone := (settled_spec (settled_of_clear hclear rfl)).2
    unfold cpyCoach
    dsimp only
    split <;> exact hnone
  have hdead := cancelled_cpySlice s (cpyReleased s) w (me s).rake (by simp [orderGlobal, (sameCoaches_releaseGlobal s _ _ _).rakes])
  refine exec_of_effect hclear rfl rfl (finishGroup_becomes ?_ hfpe)
  simp only [readWord_opCtx, srcB_opCtx]
  unfold cpyCoach
  rw [← hdead]
  rfl

/-! #### CPSEAL (05 R200) -/

theorem cpseal_seals (hclear : clear s (.cpseal w) = true) (hq : noQueue w = true) (hroom : unfinished s (me s) < 15)
    (hset : settled (setCoach s s.iss.coach (sealBatch s (me s))) s.iss.coach = true) :
    exec (.cpseal w) s = .next (writtenAt s (setCoach s s.iss.coach (sealBatch s (me s))) w 1
      (fun _ _ => BitVec.ofNat 32 (((me s).batchCount + 1) % 2 ^ 32))) := by
  refine exec_of_effect hclear rfl rfl ((if_neg (Nat.not_le.2 hroom)).trans ?_)
  exact (deliver_written (f := fun _ => BitVec.ofNat 64 (((me s).batchCount + 1) % 2 ^ 32)) rfl hq hset).trans
    (written_one fun _ => loOf_ofNat _)

theorem cpseal_waits (hclear : clear s (.cpseal w) = true) (hfull : 15 ≤ unfinished s (me s)) :
    exec (.cpseal w) s = .next (stalledAt s s (.batches 14 false)) :=
  exec_of_effect hclear rfl rfl ((if_pos hfull).trans (stallLanes_settled (settled_of_clear hclear rfl) _))

/-! #### QCTL (05 R205, R206) -/

/-- The die whose engine QCTL.OPEN selects. -/
def qctlDie (s : State) (w : NOp) : Nat :=
  if handleOf s w = 0 then coreOf (me s) / 80 else if handleOf s w = 1 then 0 else 1

theorem qctlOpen_selects (c : OpCtx) (t : State) (q own : Nat) {h : Word} (hle : h.toNat ≤ 2) :
    (match h.toNat with
      | 0 => execQctlOpen.openAt c t q own
      | 1 => execQctlOpen.openAt c t q 0
      | 2 => execQctlOpen.openAt c t q 1
      | _ => reject c t iEngine 1)
    = execQctlOpen.openAt c t q (if h = 0 then own else if h = 1 then 0 else 1) := by
  have hcase : h = 0 ∨ h = 1 ∨ h = 2 := by
    have : h.toNat = 0 ∨ h.toNat = 1 ∨ h.toNat = 2 := by omega
    rcases this with h0 | h1 | h2
    exacts [.inl (BitVec.eq_of_toNat_eq h0), .inr (.inl (BitVec.eq_of_toNat_eq h1)), .inr (.inr (BitVec.eq_of_toNat_eq h2))]
  rcases hcase with rfl | rfl | rfl <;> rfl

theorem qctlOpen_opens (hle : (handleOf s w).toNat ≤ 2) (hfree : tget (me s).ports (8 + fX w % 8) = none)
    (hport : freePort s (qctlDie s w) < 256) :
    let key := qctlDie s w * 256 + freePort s (qctlDie s w)
    Passes s (.qctlOpen w) (setCoach { s with ports := tput s.ports key (newPort s.iss.coach) } s.iss.coach
      { me s with ports := tput (me s).ports (8 + fX w % 8) key }) := by
  intro key
  refine passes_of_effect rfl rfl ?_
  simp only [handleA_of]
  refine (qctlOpen_selects _ _ _ _ hle).trans ?_
  unfold execQctlOpen.openAt
  refine (if_neg (by rw [Bool.not_eq_true, Option.isSome_eq_false_iff, Option.isNone_iff_eq_none]; exact hfree)).trans ?_
  exact if_neg (Nat.not_le.2 hport)

theorem qctlOpen_refused (hclear : clear s (.qctlOpen w) = true) (hgt : 2 < (handleOf s w).toNat) :
    exec (.qctlOpen w) s = .next (illegal s (enOf s w) 25 1) := by
  refine exec_of_effect hclear rfl rfl ?_
  simp only [handleA_of]
  obtain ⟨n, hn⟩ : ∃ n, (handleOf s w).toNat = n + 3 := ⟨(handleOf s w).toNat - 3, by omega⟩
  rw [hn]
  rfl

section
variable {key : Nat} (hkey : tget (me s).ports (8 + fX w % 8) = some key)
include hkey

theorem qctlDrain_passes (hidle : portIdle s key = true) : Passes s (.qctlDrain w) s := by
  refine passes_of_effect rfl rfl ?_
  simp only [qctlReg, hkey]
  exact if_pos hidle

theorem qctlClose_passes (hidle : portIdle s key = true) : Passes s (.qctlClose w)
    (setCoach (dropPort s key) s.iss.coach { me s with ports := tdel (me s).ports (8 + fX w % 8) }) := by
  refine passes_of_effect rfl rfl ?_
  simp only [qctlReg, hkey]
  exact if_pos hidle

theorem qctlDrain_waits (hbusy : portIdle s key = false) (hclear : clear s (.qctlDrain w) = true) :
    exec (.qctlDrain w) s = .next (stalledAt s s (.port (8 + fX w % 8))) := by
  refine exec_of_effect hclear rfl rfl ?_
  simp only [qctlReg, hkey]
  exact (if_neg (by rw [Bool.not_eq_true]; exact hbusy)).trans (stallLanes_settled (settled_of_clear hclear rfl) _)

theorem qctlClose_waits (hbusy : portIdle s key = false) (hclear : clear s (.qctlClose w) = true) :
    exec (.qctlClose w) s = .next (stalledAt s s (.port (8 + fX w % 8))) := by
  refine exec_of_effect hclear rfl rfl ?_
  simp only [qctlReg, hkey]
  exact (if_neg (by rw [Bool.not_eq_true]; exact hbusy)).trans (stallLanes_settled (settled_of_clear hclear rfl) _)
end
end

section
variable {s : State} {w : NOp}

/-! #### CPWAIT (05 R200, 07 R292) -/

/-- The stall in which the operation of the latch has sealed its batch already. -/
def cpwaitAgain (s : State) (st : Stall) : Bool :=
  st.ga == s.iss.ga && st.step == s.iss.step && (st.lanes &&& s.iss.group) != 0
    && match st.kind with
      | .batches _ last => last
      | _ => false

/-- The operation of the latch seals the open batch. -/
def cpwaitSeals (s : State) : Bool := !(me s).stalls.any (cpwaitAgain s) && decide ((me s).openBatch ≠ [])

/-- The coach after the seal. -/
def cpwaitCoach (s : State) : Coach :=
  let co := { me s with stalls := (me s).stalls.filter (fun st => !cpwaitAgain s st) }
  if cpwaitSeals s then sealBatch s co else co

/-- The coach's finished batches are forgotten. -/
def forgetDone (s : State) (k : Nat) : State :=
  modCoach s k (fun co => { co with sealed_ := co.sealed_.filter (fun b => !batchDone s b) })

/-- A faulted context of the coach's finished batches. -/
def batchFault (s : State) (co : Coach) : Option (Nat × Word) :=
  ((co.sealed_.filter (fun b => batchDone s b)).flatMap (fun b => b.launches)).findSome? (launchFault s)

/-- The rest of CPWAIT, after the seal. -/
def cpwaitRest (c : OpCtx) (n : Nat) (co : Coach) (s : State) : State :=
  if n < unfinished s co then stallHolding c s (.batches n true)
  else
    let t := acquireGlobal s (l1Unit s (coreOf co)) co.ctx 4
    match batchFault t co with
    | some (dk, h) =>
      match markerCommit t c.k c.i c.grp with
      | .stop t => t
      | .go t => passTrap c.k c.i c.grp (forgetDone t c.k) (drayTrap t dk h c.en c.i.word c.i.ga c.i.step)
    | none => finishGroup c (forgetDone t c.k)

theorem cpwaitSeals_iff (s : State) :
    ((me s).stalls.filter (cpwaitAgain s)).isEmpty = true ∧ (me s).openBatch ≠ [] ↔ cpwaitSeals s = true := by
  simp [cpwaitSeals]

theorem cpwait_effect : ∃ sp effect, nativeRow s (.cpwait w) = some (w, sp) ∧ exec (.cpwait w) s = .next (native w sp effect s)
    ∧ effect (opCtx s w sp) s = if cpwaitSeals s = true ∧ 15 ≤ unfinished s (me s)
      then stallLanes s s.iss.coach s.iss s.iss.group (.batches 14 false)
      else cpwaitRest (opCtx s w sp) (barValue (opCtx s w sp) (me s)) (cpwaitCoach s) (setCoach s s.iss.coach (cpwaitCoach s)) := by
  refine ⟨_, _, rfl, rfl, ?_⟩
  dsimp only
  rw [List.partition_eq_filter_filter]
  dsimp only
  refine if_ctx_congr ?_ (fun _ => rfl) fun _ => ?_
  · rw [← cpwaitSeals_iff, and_assoc]
    rfl
  · have hco : (if ((me s).stalls.filter (cpwaitAgain s)).isEmpty = true ∧ (me s).openBatch ≠ []
        then sealBatch s { me s with stalls := (me s).stalls.filter (not ∘ cpwaitAgain s) }
        else { me s with stalls := (me s).stalls.filter (not ∘ cpwaitAgain s) }) = cpwaitCoach s :=
      if_congr (cpwaitSeals_iff s) rfl rfl
    exact congrArg (fun co => cpwaitRest _ _ co (setCoach s s.iss.coach co)) hco

@[simp] theorem cpwaitCoach_place (s : State) : (cpwaitCoach s).place = (me s).place := by
  unfold cpwaitCoach
  dsimp only
  split <;> rfl

@[simp] theorem cpwaitCoach_ctx (s : State) : (cpwaitCoach s).ctx = (me s).ctx := by
  unfold cpwaitCoach
  dsimp only
  split <;> rfl

@[simp] theorem cpwaitCoach_fpeHeld (s : State) : (cpwaitCoach s).fpeHeld = (me s).fpeHeld := by
  unfold cpwaitCoach
  dsimp only
  split <;> rfl

theorem coreOf_cpwaitCoach (s : State) : coreOf (cpwaitCoach s) = coreOf (me s) := by simp [coreOf]

/-- The state after the seal and the acquire. -/
abbrev cpwaitAcquired (s : State) : State :=
  acquireGlobal (setCoach s s.iss.coach (cpwaitCoach s)) (l1Unit s (coreOf (me s))) (me s).ctx 4

theorem acquired_cpwaitCoach (s : State) : acquireGlobal (setCoach s s.iss.coach (cpwaitCoach s))
    (l1Unit (setCoach s s.iss.coach (cpwaitCoach s)) (coreOf (cpwaitCoach s))) (cpwaitCoach s).ctx 4 = cpwaitAcquired s := by
  rw [coreOf_cpwaitCoach, cpwaitCoach_ctx]
  rfl

section
variable {c : OpCtx} {n : Nat} {co : Coach} {s t : State} (hdone : unfinished s co ≤ n)
  (ht : acquireGlobal s (l1Unit s (coreOf co)) co.ctx 4 = t)
include hdone ht

theorem cpwaitRest_done (hbad : batchFault t co = none) : cpwaitRest c n co s = finishGroup c (forgetDone t c.k) := by
  unfold cpwaitRest
  rw [if_neg (Nat.not_lt.2 hdone), ht]
  dsimp only
  rw [hbad]

theorem cpwaitRest_faulted {dk : Nat} {h : Word} (hbad : batchFault t co = some (dk, h)) (hbuf : (coachOf t c.k).rbuf = []) :
    cpwaitRest c n co s = passTrap c.k c.i c.grp (forgetDone t c.k) (drayTrap t dk h c.en c.i.word c.i.ga c.i.step) := by
  have hgo : markerCommit t c.k c.i c.grp = .go t := by simp [markerCommit, hbuf]
  unfold cpwaitRest
  rw [if_neg (Nat.not_lt.2 hdone), ht]
  dsimp only
  rw [hbad]
  dsimp only
  rw [hgo]
end

theorem cpwait_waitsToSeal (hclear : clear s (.cpwait w) = true) (hseal : cpwaitSeals s = true) (hfull : 15 ≤ unfinished s (me s)) :
    exec (.cpwait w) s = .next (stalledAt s s (.batches 14 false)) := by
  obtain ⟨sp, effect, hrow, hrun, heffect⟩ := cpwait_effect (s := s) (w := w)
  refine exec_of_effect hclear hrow hrun ?_
  rw [heffect, if_pos ⟨hseal, hfull⟩]
  exact stallLanes_settled (settled_of_clear hclear hrow) _

section
variable (hseal : cpwaitSeals s = false ∨ unfinished s (me s) < 15)
include hseal

/-- CPWAIT that need not wait to seal goes on to its second wait. -/
theorem cpwait_goesOn : ∃ sp effect, nativeRow s (.cpwait w) = some (w, sp) ∧ exec (.cpwait w) s = .next (native w sp effect s)
    ∧ effect (opCtx s w sp) s
      = cpwaitRest (opCtx s w sp) (barOperand s w) (cpwaitCoach s) (setCoach s s.iss.coach (cpwaitCoach s)) := by
  obtain ⟨sp, effect, hrow, hrun, heffect⟩ := cpwait_effect (s := s) (w := w)
  refine ⟨sp, effect, hrow, hrun, ?_⟩
  rw [heffect, barValue_operand]
  refine if_neg ?_
  rintro ⟨hseals, hfull⟩
  rcases hseal with hnot | hroom
  · exact absurd (hseals.symm.trans hnot) (by decide)
  · exact absurd hroom (Nat.not_lt.2 hfull)

theorem cpwait_waits (hclear : clear s (.cpwait w) = true)
    (hwait : barOperand s w < unfinished (setCoach s s.iss.coach (cpwaitCoach s)) (cpwaitCoach s)) :
    exec (.cpwait w) s = .next (stalledAt s (setCoach s s.iss.coach (cpwaitCoach s)) (.batches (barOperand s w) true)) := by
  obtain ⟨sp, effect, hrow, hrun, heffect⟩ := cpwait_goesOn (w := w) hseal
  refine exec_of_effect hclear hrow hrun (heffect.trans ((if_pos hwait).trans ?_))
  refine stallLanes_settled (settled_setCoach ?_) _
  rw [cpwaitCoach_fpeHeld, (settled_spec (settled_of_clear hclear hrow)).2]

theorem cpwait_passes (hdone : unfinished (setCoach s s.iss.coach (cpwaitCoach s)) (cpwaitCoach s) ≤ barOperand s w)
    (hbad : batchFault (cpwaitAcquired s) (cpwaitCoach s) = none) :
    Passes s (.cpwait w) (forgetDone (cpwaitAcquired s) s.iss.coach) := by
  obtain ⟨sp, effect, hrow, hrun, heffect⟩ := cpwait_goesOn (w := w) hseal
  exact passes_of_effect hrow hrun (heffect.trans (cpwaitRest_done hdone (acquired_cpwaitCoach s) hbad))

theorem cpwait_faulted {dk : Nat} {h : Word} (hclear : clear s (.cpwait w) = true)
    (hdone : unfinished (setCoach s s.iss.coach (cpwaitCoach s)) (cpwaitCoach s) ≤ barOperand s w)
    (hbad : batchFault (cpwaitAcquired s) (cpwaitCoach s) = some (dk, h))
    (hbuf : (coachOf (cpwaitAcquired s) s.iss.coach).rbuf = []) :
    exec (.cpwait w) s = .next (passTrap s.iss.coach s.iss s.iss.group (forgetDone (cpwaitAcquired s) s.iss.coach)
      (drayTrap (cpwaitAcquired s) dk h (enOf s w) s.iss.word s.iss.ga s.iss.step)) := by
  obtain ⟨sp, effect, hrow, hrun, heffect⟩ := cpwait_goesOn (w := w) hseal
  exact exec_of_effect hclear hrow hrun (heffect.trans (cpwaitRest_faulted hdone (acquired_cpwaitCoach s) hbad hbuf))
end
end

/-- Settles O42: one rule per operation; CPWAIT by the number of its unfinished batches. -/
theorem transfersAndPorts : Obligations.TransfersAndPorts := by
  intro s w k co l0 unit x j s1 launch offs sl dead coNew coCpy n again fresh coWait seals co2 s2 s3 bad forgot q own die p
  exact ⟨cpy_records, cpseal_seals, cpseal_waits, fun hseal hdone hbad => cpwait_passes hseal hdone hbad,
    fun dk h hclear hseal hdone hbad hbuf => cpwait_faulted hseal hclear hdone hbad hbuf,
    fun hclear hseal hwait => cpwait_waits hseal hclear hwait, cpwait_waitsToSeal,
    qctlOpen_opens, qctlOpen_refused, fun key hkey hidle => ⟨qctlDrain_passes hkey hidle, qctlClose_passes hkey hidle⟩,
    fun key hkey hbusy => ⟨qctlDrain_waits hkey hbusy, qctlClose_waits hkey hbusy⟩⟩

end Sys2Proof.Proofs
end

/-! ### Leases, system registers, zones, SPAWN, DBGBRK and DTURN (05 R209-R218) -/
section
namespace Sys2Proof.Proofs
open Sys2Proof Sys2Proof.Machine Sys2Proof.Laws

section
variable {s : State} {w : NOp}

/-! #### Leases (05 R209) -/

theorem leaseDecl_takes (hlow : 1 ≤ barOperand s w) (hhigh : barOperand s w ≤ 128) :
    Passes s (.leaseDecl w) (setLease s s.iss.coach (fun co => { co with leaseG := barOperand s w, measured := false })) := by
  refine passes_of_effect rfl rfl ?_
  simp only [barValue_operand]
  exact if_neg (by omega)

theorem leaseDecl_refused (hclear : clear s (.leaseDecl w) = true) (hbad : barOperand s w = 0 ∨ 128 < barOperand s w) :
    exec (.leaseDecl w) s = .next (illegal s (enOf s w) iLease (if fI w then 4 else 1)) := by
  refine exec_of_effect hclear rfl rfl ?_
  simp only [barValue_operand]
  exact if_pos hbad

/-! #### System registers (05 R210) -/

/-- The number of the system register that the operation names. -/
abbrev sysNum (w : NOp) : Nat := fX w % 4096

/-- The value that SYSWR writes. -/
abbrev syswrTaken (s : State) (w : NOp) : Dword := aVal (me s) w (sysWide (sysNum w)) ((lowLane (enOf s w)).getD 0)

theorem sysrd_reads {x : Dword} (hclear : clear s (.sysrd w) = true) (hq : noQueue w = true) (hok : sysAssigned (sysNum w) = true)
    (hx : sysValue s (me s) (sysNum w) = some x) : GivesLong s (.sysrd w) w (sysWide (sysNum w)) (fun _ => (x, 0)) := by
  refine congrArg Host.Outcome.next ((native_of_clear hclear rfl _).trans ?_)
  simp only [hok, hx, if_true]
  exact deliverTo_slot rfl (enabled_of_clear hclear rfl) hq (settled_of_clear hclear rfl)

theorem sysrd_refused (hclear : clear s (.sysrd w) = true) (hbad : sysAssigned (sysNum w) = false) :
    exec (.sysrd w) s = .next (illegal s (enOf s w) iSysreg 0xFF) := by
  refine exec_of_effect hclear rfl rfl ?_
  simp only [hbad, Bool.false_eq_true, if_false]
  rfl

theorem sysOwn_writable {n : Nat} (h : n ≤ 0x12) : sysOwn n = none := by simp [sysOwn, sysAssigned, sysReadOnly, h]

theorem sysOwn_unassigned {n : Nat} (h : sysAssigned n = false) : sysOwn n = some (iSysreg, 0xFF) := by simp [sysOwn, h]

theorem sysOwn_readOnly {n : Nat} (h : sysAssigned n = true) (hn : 0x12 < n) : sysOwn n = some (iSprro, 0xFF) := by
  simp [sysOwn, sysReadOnly, h, hn]

theorem sysValue_context {c : Ctx} (hc : ctxOf s (me s) = some c) :
    (∀ m < 16, sysValue s (me s) m = some ((fmtReg s (me s).ctx m).setWidth 64))
    ∧ sysValue s (me s) 0x10 = some c.trapent ∧ sysValue s (me s) 0x11 = some c.emulent
    ∧ sysValue s (me s) 0x12 = some c.framebase ∧ sysValue s (me s) 0x20 = some ((me s).zcause.setWidth 64)
    ∧ sysValue s (me s) 0x21 = some (me s).zinfo ∧ sysValue s (me s) 0x22 = some (BitVec.ofNat 64 (me s).zones.length) := by
  unfold sysValue
  rw [hc]
  exact ⟨fun m hm => if_pos hm, rfl, rfl, rfl, rfl, rfl, rfl⟩

theorem syswr_refused {sub fieldNo : Nat} (hclear : clear s (.syswr w) = true) (hown : sysOwn (sysNum w) = some (sub, fieldNo)) :
    exec (.syswr w) s = .next (illegal s (enOf s w) sub fieldNo) := by
  refine exec_of_effect hclear rfl rfl ?_
  simp only [hown]
  rfl

theorem syswr_accepted {c c' : Ctx} (hclear : clear s (.syswr w) = true) (hq : noQueue w = true) (hn : sysNum w ≤ 0x12)
    (hc : ctxOf s (me s) = some c) (hw : sysWrite c (sysNum w) (syswrTaken s w) = some c') :
    exec (.syswr w) s = .next (writtenAt s { s with ctxs := tput s.ctxs (me s).ctx c' } w 1 (fun _ _ => 0)) := by
  refine exec_of_effect hclear rfl rfl ?_
  simp only [sysOwn_writable hn, srcA_opCtx, hc, Option.bind_some, hw, Option.isSome_none, Bool.false_eq_true, if_false]
  have hset : settled { s with ctxs := tput s.ctxs (me s).ctx c' } s.iss.coach = true := settled_of_clear (s := s) hclear rfl
  exact (deliver_written (f := fun _ => 0) rfl hq hset).trans (written_one fun _ => rfl)

theorem syswr_rejected {c : Ctx} (hclear : clear s (.syswr w) = true) (hq : noQueue w = true) (hn : sysNum w ≤ 0x12)
    (hc : ctxOf s (me s) = some c) (hw : sysWrite c (sysNum w) (syswrTaken s w) = none) :
    exec (.syswr w) s = .next (writtenAt s s w 1 (fun _ _ => 1)) := by
  refine exec_of_effect hclear rfl rfl ?_
  simp only [sysOwn_writable hn, srcA_opCtx, hc, Option.bind_some, hw, Option.isSome_none, Bool.false_eq_true, if_false]
  exact (deliver_written (f := fun _ => 1) rfl hq (settled_of_clear hclear rfl)).trans (written_one fun _ => rfl)

/-! #### Containment zones (05 R211-R214) -/

/-- The zone that CZOPEN opens. -/
def czZone (s : State) (w : NOp) : Zone :=
  { handler := (aVal (me s) w true ((lowLane (enOf s w)).getD 0)).extractLsb' 0 57, k := (me s).zoneCount + 1
    rstacks := (me s).lanes.map (fun x => (x.held, x.sp)) }

/-- The rake knows the parent of the coach's next zone. -/
def czParented (s : State) : State := modRake s (me s).rake (fun r =>
  match (me s).zones with
  | p :: _ => if (tget r.zoneParent ((me s).zoneCount + 1)).isSome then r
    else { r with zoneParent := tput r.zoneParent ((me s).zoneCount + 1) p.k }
  | [] => r)

/-- The state with the zone open. -/
def czOpened (s : State) (w : NOp) : State := setCoach (czParented s) s.iss.coach
  { me s with zones := czZone s w :: (me s).zones, zoneCount := (me s).zoneCount + 1 }

/-- What CZOPEN does with a zone that has unwound already: the coach unwinds to it (05 R213). -/
def unwindsInto (t : State) (k rake n : Nat) : State :=
  match (tget t.rakes rake).bind (fun r => r.unwound.find? (fun u => u.1 == n)) with
  | some (_, cause, info) => unwindCoach t k n cause.toNat info.toNat
  | none => t

theorem unwindsInto_same {t : State} {k rake n : Nat}
    (h : ∀ r, tget t.rakes rake = some r → r.unwound.find? (fun u => u.1 == n) = none) : unwindsInto t k rake n = t := by
  unfold unwindsInto
  rw [Option.bind_eq_none_iff.2 h]

theorem czopen_opens (hclear : clear s (.czopen w) = true) (hroom : (me s).zones.length < 8)
    (hsound : ∀ r, tget (czParented s).rakes (me s).rake = some r →
      r.unwound.find? (fun u => u.1 == (me s).zoneCount + 1) = none) :
    exec (.czopen w) s = .next (passedAt (czOpened s w) s.iss) := by
  have hpass : ∀ sp, finishGroup (opCtx s w sp) (modCoach (czParented s) s.iss.coach (fun co =>
      { co with zones := czZone s w :: co.zones, zoneCount := (me s).zoneCount + 1 })) = passedAt (czOpened s w) s.iss := by
    intro sp
    have hco : tget (czParented s).coaches s.iss.coach = some (me s) := coach_of_clear (s := s) hclear rfl
    rw [modCoach_of_tget hco]
    exact finishGroup_settled (settled_setCoach (settled_spec (settled_of_clear hclear rfl)).2)
  refine exec_of_effect hclear rfl rfl ((if_neg (Nat.not_le.2 hroom)).trans ?_)
  simp only [srcA_opCtx]
  exact (congrArg (fun t => unwindsInto t s.iss.coach (me s).rake ((me s).zoneCount + 1)) (hpass _)).trans (unwindsInto_same hsound)

theorem czopen_refused (hclear : clear s (.czopen w) = true) (hfull : 8 ≤ (me s).zones.length) :
    exec (.czopen w) s = .next (illegal s (enOf s w) iZone 0xFF) :=
  exec_of_effect hclear rfl rfl (if_pos hfull)

theorem czclose_closes {z : Zone} {zs : List Zone} (hz : (me s).zones = z :: zs) :
    Passes s (.czclose w) (setCoach s s.iss.coach { me s with zones := zs }) := fun hclear hset => by
  refine exec_of_effect hclear rfl rfl ?_
  have hne : (me s).zones.isEmpty = false := by rw [hz]; rfl
  refine (if_neg (by rw [Bool.not_eq_true]; exact hne)).trans ?_
  rw [modCoach_of_tget (coach_of_clear hclear rfl), hz]
  exact finishGroup_settled hset

theorem czclose_refused (hclear : clear s (.czclose w) = true) (hz : (me s).zones = []) :
    exec (.czclose w) s = .next (illegal s (enOf s w) iZone 0xFF) :=
  exec_of_effect hclear rfl rfl (if_pos (List.isEmpty_iff.2 hz))

/-! #### SPAWN, DBGBRK and DTURN (05 R216-R218) -/

/-- The release of a SPAWN, at device scope. -/
abbrev spawnReleased (s t : State) : State := releaseGlobal t (l1Unit t (coreOf (me s))) (me s).ctx 4

theorem spawn_launches {block pa : Nat} {leaf : Dword} {s1 : State} (hclear : clear s (.spawn w) = true)
    (hdet : isDet s (me s) = false)
    (hblock : (aVal (me s) w true ((lowLane (enOf s w)).getD 0)).toNat = block) (hlt : block < 2 ^ 57) (halign : block % 256 = 0)
    (hxlate : coachXlate s (me s) block .read = (.ok pa leaf, s1)) (hset : settled (spawnReleased s s1) s.iss.coach = true) :
    exec (.spawn w) s = .next (spawnRegion (passedAt (spawnReleased s s1) s.iss) (me s).region block
      (bVal (me s) w true 0 ((lowLane (enOf s w)).getD 0)).toNat) := by
  have hcheck : ((lanesOf (enOf s w)).map (fun l => (l, block))).all (fun a => !outOfGlobal a.2 && a.2 % 256 == 0) = true := by
    have hout : outOfGlobal block = false := decide_eq_false (Nat.not_le.2 hlt)
    simp [hout, halign]
  refine exec_of_effect hclear rfl rfl ?_
  simp only [srcA_opCtx, srcB_opCtx, hblock, checkAccess_none hcheck, hdet, Bool.false_eq_true, if_false]
  unfold togetherAt
  rw [hxlate]
  exact congrArg (fun t => spawnRegion t (me s).region block _) (finishGroup_settled hset)

theorem dbgbrk_halts {c : Ctx} (hclear : clear s (.dbgbrk w) = true) (hc : ctxOf s (me s) = some c) (hdbg : c.dbgen = true) :
    exec (.dbgbrk w) s = .next (raiseTrap s s.iss.coach (opTrap s.iss 14 0 (enOf s w) 0 [(64, 1, fX w % 256)])) := by
  refine exec_of_effect hclear rfl rfl ?_
  simp only [hc, Option.map_some, Option.getD_some]
  exact if_pos hdbg

theorem dbgbrk_passes {c : Ctx} (hc : ctxOf s (me s) = some c) (hdbg : c.dbgen = false) : Passes s (.dbgbrk w) s := by
  refine passes_of_effect rfl rfl ?_
  simp only [hc, Option.map_some, Option.getD_some]
  exact if_neg (by rw [Bool.not_eq_true]; exact hdbg)

theorem dturn_passes (hdet : isDet s (me s) = false) : Passes s (.dturn w) s :=
  passes_of_effect rfl rfl ((withRoom_go hdet).trans (congrArg (finishGroup _) (endsBundle_same hdet)))

theorem dturn_ends (hdet : isDet s (me s) = true) (hroom : detRoom (me s) 0 true = true) :
    Passes s (.dturn w) (setCoach s s.iss.coach (endBundle (me s) false)) := fun hclear hset => by
  have hends : endsBundle s s.iss.coach = setCoach s s.iss.coach (endBundle (me s) false) :=
    (if_pos hdet).trans (modCoach_of_tget (coach_of_clear hclear rfl) _)
  refine exec_of_effect hclear rfl rfl ?_
  refine (if_neg ?_).trans ((congrArg (finishGroup _) hends).trans (finishGroup_settled hset))
  simp [endRoom, hroom]
end

/-- Settles O47: one rule per operation, with the value or the state that it refuses. -/
theorem systemOperations : Obligations.SystemOperations := by
  intro s w k co l0 g n v zone parented opened block released
  exact ⟨leaseDecl_takes, leaseDecl_refused, passes_of_effect rfl rfl rfl, fun x => sysrd_reads, fun c => sysValue_context,
    fun c c' => syswr_accepted, fun c => syswr_rejected,
    fun hbad => ⟨fun hclear => sysrd_refused hclear hbad, fun hclear => syswr_refused hclear (sysOwn_unassigned hbad)⟩,
    fun hclear hok hn => syswr_refused hclear (sysOwn_readOnly hok hn), czopen_opens, czopen_refused,
    fun z zs => czclose_closes, czclose_refused, fun pa leaf s1 hclear hdet => spawn_launches hclear hdet rfl,
    fun c => dbgbrk_halts, fun c => dbgbrk_passes, dturn_passes, dturn_ends⟩

end Sys2Proof.Proofs
end

/-! ### Cache control and prefetch (05 R181-R184) -/
section
namespace Sys2Proof.Proofs
open Sys2Proof Sys2Proof.Machine Sys2Proof.Laws

section
variable {s : State} {w : NOp}

/-! #### FENCE and CCTL (05 R181, R182) -/

theorem fence_orders : Passes s (.fence w) (orderCoach s s.iss.coach (mOrd w) (mAgt w) (mStg w)) := passes_of_effect rfl rfl rfl

/-- CCTL on the line of an address in the L1: it is cleaned, or written back and dropped. -/
def cctlNear (s0 : State) (w : NOp) (s : State) (line : Nat) : State :=
  match l1Find s (l1Unit s0 (coreOf (me s0))) line with
  | some x => if mOpm w = 0 then l1Clean s (l1Unit s0 (coreOf (me s0))) x
      else l1Drop (writeDirty s x) (l1Unit s0 (coreOf (me s0))) line
  | none => s

/-- CCTL on the line of an address in the L2: it is written back and stays there clean. -/
def cctlHome (s : State) (line : Nat) : State :=
  match s.l2.find? (fun x => x.line == line) with
  | some x => { l2WriteBack s x with l2 := (l2WriteBack s x).l2.map (fun y => if y.line = line then { y with dirty := 0 } else y) }
  | none => s

/-- The lines that the lanes of CCTL name. -/
def cctlLines (s : State) (w : NOp) : List Nat × State :=
  (lanesOf (enOf s w)).foldl (fun (acc : List Nat × State) l =>
    let va := (aVal (me s) w true l).toNat
    if outOfGlobal va || inWindow s (me s) va then acc
    else match coachXlate acc.2 (me s) va .read with
      | (.ok pa _, s1) => (acc.1 ++ [pa / 64], s1)
      | (_, s1) => (acc.1, s1)) ([], s)

theorem lanesLines_opCtx (s : State) (w : NOp) (sp : OpSpec) : lanesLines (opCtx s w sp) s = cctlLines s w := by
  unfold lanesLines
  simp only [srcA_opCtx]
  rfl

theorem cctl_all (hop : mOpm w = 2) : Passes s (.cctl w) (l1WriteBackAll s (l1Unit s (coreOf (me s))) (me s).ctx) :=
  passes_of_effect rfl rfl (if_pos (by rw [hop]))

theorem cctl_home (hop : mOpm w = 3) : Passes s (.cctl w) ((cctlLines s w).1.foldl cctlHome (cctlLines s w).2) := by
  refine passes_of_effect rfl rfl ?_
  simp only [lanesLines_opCtx, hop]
  rfl

theorem cctl_near (hop : mOpm w < 2) : Passes s (.cctl w) ((cctlLines s w).1.foldl (cctlNear s w) (cctlLines s w).2) := by
  have hcop : mOpm w % 8 = mOpm w := Nat.mod_eq_of_lt (by omega)
  refine passes_of_effect rfl rfl ?_
  simp only [lanesLines_opCtx, hcop, Nat.ne_of_lt hop, Nat.ne_of_lt (Nat.lt_succ_of_lt hop), if_false]
  rfl

/-! #### PREF (05 R183) -/

/-- PREF brings the line of an address, when it translates. -/
def prefTouch (s0 : State) (w : NOp) (s : State) (va : Nat) : State :=
  if outOfGlobal va || inWindow s (me s0) va then s else
    match coachXlate s (me s0) va .read with
    | (.ok pa leaf, s1) => if leaf.getLsbD 6 then s1 else
        if mOpm w % 2 == 0 && mCh w != 2 then (coachRead s1 s0.iss.coach pa 1 leaf false (mCh w == 1)).2
        else l2Read s1 (pa / 64) (me s0).ctx
    | (_, s1) => s1

/-- The lines of an access: one, or two where the bytes cross. -/
def prefLines (s0 : State) (w : NOp) (s : State) (a : Nat × Nat) : State :=
  if (a.2 + mBytes w - 1) / 64 = a.2 / 64 then prefTouch s0 w s a.2
  else prefTouch s0 w (prefTouch s0 w s a.2) (a.2 + mBytes w - 1)

theorem pref_brings : Passes s (.pref w) ((globalOf s w).foldl (prefLines s w) s) := by
  refine passes_of_effect rfl rfl ?_
  simp only [globalAddrs_opCtx]
  rfl

/-! #### Guest code in the impression cache (05 R184) -/

/-- The length of the range that IPREF, IPIN and IUNPIN name. -/
def codeLength (s : State) (w : NOp) : Nat := if fI w then fImm w else (bVal (me s) w false 0 ((lowLane (enOf s w)).getD 0)).toNat

/-- The guest address at which the range begins. -/
def codeFrom (s : State) (w : NOp) : Nat := (aVal (me s) w true ((lowLane (enOf s w)).getD 0)).toNat % 2 ^ 57

/-- What the three operations check and operands they take. -/
abbrev codeSpec (w : NOp) : OpSpec :=
  { fmtOk := shortForm w, xOk := fX w == 0 && fXS w == 0, a := .cls false true false false 2 true
    b := if fKind w = 0 then .cls true true false true 1 false else .unused }

/-- The effect that IPREF, IPIN and IUNPIN share, around their own work `f` on the range. -/
def codeEffect (w : NOp) (f : OpCtx → Nat → Nat → State → State) (c : OpCtx) (s : State) : State :=
  let l := (lowLane c.en).getD 0
  let n := if fI w then fImm w else (srcB c (coachOf s c.k) false 0 l).toNat
  if 65536 < n then reject c s iRsvd (if fI w then 4 else 2)
  else if n = 0 then finishGroup c s
  else finishGroup c (f c ((srcA c (coachOf s c.k) true l).toNat % 2 ^ 57) n s)

/-- An operation on a range of guest code is native, and its effect is `codeEffect`. -/
def CodeOp (s : State) (w : NOp) (i : Instr) (f : OpCtx → Nat → Nat → State → State) : Prop :=
  nativeRow s i = some (w, codeSpec w) ∧ exec i s = .next (native w (codeSpec w) (codeEffect w f) s)

theorem codeOp_ipref : CodeOp s w (.ipref w) (fun c ga n t => prefetchCode (coachOf t c.k) false n ga n t) := ⟨rfl, rfl⟩
theorem codeOp_ipin : CodeOp s w (.ipin w) (fun c ga n t => prefetchCode (coachOf t c.k) true n ga n t) := ⟨rfl, rfl⟩
theorem codeOp_iunpin : CodeOp s w (.iunpin w) (fun c ga n t =>
    let co := coachOf t c.k
    let sel (i : Impression) : Bool := i.cluster == clusterOf co && i.ctx == co.ctx && i.slot == decodeSlot co
      && i.version == co.version && decide ((i.ga.toNat + 2 ^ 57 - ga) % 2 ^ 57 < n)
    { t with imps := t.imps.map (fun i => if sel i then { i with pinned := false } else i) }) := ⟨rfl, rfl⟩

theorem codeEffect_opCtx (f : OpCtx → Nat → Nat → State → State) (sp : OpSpec) :
    codeEffect w f (opCtx s w sp) s =
      if 65536 < codeLength s w then reject (opCtx s w sp) s iRsvd (if fI w then 4 else 2)
      else if codeLength s w = 0 then finishGroup (opCtx s w sp) s
      else finishGroup (opCtx s w sp) (f (opCtx s w sp) (codeFrom s w) (codeLength s w) s) := by
  unfold codeEffect
  simp only [srcA_opCtx, srcB_opCtx]
  rfl

theorem code_works {i : Instr} {f : OpCtx → Nat → Nat → State → State} (hop : CodeOp s w i f) (hmax : codeLength s w ≤ 65536)
    (hne : codeLength s w ≠ 0) : Passes s i (f (opCtx s w (codeSpec w)) (codeFrom s w) (codeLength s w) s) := by
  refine passes_of_effect hop.1 hop.2 ?_
  rw [codeEffect_opCtx, if_neg (Nat.not_lt.2 hmax), if_neg hne]

theorem code_empty {i : Instr} {f : OpCtx → Nat → Nat → State → State} (hop : CodeOp s w i f) (hn : codeLength s w = 0) :
    Passes s i s := by
  refine passes_of_effect hop.1 hop.2 ?_
  rw [codeEffect_opCtx, if_neg (by omega), if_pos hn]

theorem code_refused {i : Instr} {f : OpCtx → Nat → Nat → State → State} (hop : CodeOp s w i f) (hclear : clear s i = true)
    (hn : 65536 < codeLength s w) : exec i s = .next (illegal s (enOf s w) 3 (if fI w then 4 else 2)) := by
  refine exec_of_effect hclear hop.1 hop.2 ?_
  rw [codeEffect_opCtx, if_pos hn]
  rfl
end

/-- Settles O39: one rule per operation; the three on guest code share their range's check. -/
theorem cacheControl : Obligations.CacheControl := by
  intro s w k co unit clean home lines toL1 touch last l n from_ mine
  refine ⟨fence_orders, cctl_all, cctl_home, cctl_near, pref_brings,
    fun hmax hne => ⟨code_works codeOp_ipref hmax hne, code_works codeOp_ipin hmax hne, code_works codeOp_iunpin hmax hne⟩,
    fun hn => ⟨code_empty codeOp_ipref hn, code_empty codeOp_ipin hn, code_empty codeOp_iunpin hn⟩, ?_⟩
  rintro i (rfl | rfl | rfl) hclear hn
  · exact code_refused codeOp_ipref hclear hn
  · exact code_refused codeOp_ipin hclear hn
  · exact code_refused codeOp_iunpin hclear hn

end Sys2Proof.Proofs
end

/-! ### The scratchpad window (05 R171, R172, 01 R37) -/
section
namespace Sys2Proof.Proofs
open Sys2Proof Sys2Proof.Machine Sys2Proof.Laws

section
variable {s : State} {w : NOp}

theorem storeBytes_opCtx (s : State) (w : NOp) (sp : OpSpec) (l : Nat) :
    storeBytes (opCtx s w sp) (me s) (mTy w) l = dataOf s w l := by
  unfold storeBytes dataOf
  rw [show (opCtx s w sp).w = w from rfl, readOp_opCtx]

theorem windowOf_of {r : Rake} (hr : tget s.rakes (me s).rake = some r) : windowOf s (me s) = r.window := by
  simp [windowOf, hr]

theorem any_padBad_false {addrs : List (Nat × Nat)} {r : Rake} {n : Nat} (h : addrs.all (fun a => !padBad r a.2 n) = true) :
    addrs.any (fun a => padBad r a.2 n) = false := by
  rw [← Bool.not_eq_true', List.not_any_eq_all_not]
  exact h

/-- A relaxed access orders nothing. -/
theorem orderCoach_relaxed (s : State) (k agt stg : Nat) : orderCoach s k 0 agt stg = s := by
  simp [orderCoach, orderGlobal]

theorem lds_reads {r : Rake} (hr : tget s.rakes (me s).rake = some r) (hfits : fits (localOf s w) r.window (mBytes w) = true)
    (hq : noQueue w = true) (hclear : clear s (.lds w) = true) (hgood : (localOf s w).all (fun a => !padBad r a.2 (mBytes w)) = true)
    (hset : settled (orderCoach s s.iss.coach (mOrd w) (mAgt w) (mStg w)) s.iss.coach = true) :
    exec (.lds w) s = .next (slottedAt (orderCoach s s.iss.coach (mOrd w) (mAgt w) (mStg w)) s.iss
      (loadedSlot s w ((localOf s w).map (fun a => (a.1, memRead r.pad a.2 (mBytes w)))))) := by
  refine exec_of_effect hclear rfl rfl ?_
  simp only [localAddrs_opCtx, windowOf_of hr, checkAccess_none (fits_check hfits), hr, any_padBad_false hgood, Bool.false_eq_true,
    if_false]
  exact deliverLoad_slot rfl (enabled_of_clear hclear rfl) hq hset

/-- The window of the rake with the lanes' bytes stored. -/
abbrev windowStored (s : State) (w : NOp) (r : Rake) : State :=
  { s with rakes := tput s.rakes (me s).rake ((localOf s w).foldl (fun r a => padWrite r a.2 (dataOf s w a.1)) r) }

theorem sts_writes {r : Rake} (hr : tget s.rakes (me s).rake = some r) (hfits : fits (localOf s w) r.window (mBytes w) = true)
    (hclear : clear s (.sts w) = true) (hshadow : shadowBad (me s) (enOf s w) = 0)
    (hset : settled (orderCoach (windowStored s w r) s.iss.coach (mOrd w) (mAgt w) (mStg w)) s.iss.coach = true) :
    exec (.sts w) s = .next (passedAt (orderCoach (windowStored s w r) s.iss.coach (mOrd w) (mAgt w) (mStg w)) s.iss) := by
  refine exec_of_effect hclear rfl rfl ?_
  simp only [localAddrs_opCtx, windowOf_of hr, checkAccess_none (fits_check hfits), shadowStop_none (c := opCtx s w _) hshadow,
    storeBytes_opCtx, modRake_of_tget hr]
  exact finishGroup_settled hset
end

/-- A write of the window leaves poisoned the words that it does not cover. -/
theorem mem_padPoison_padWrite {r : Rake} {o k : Nat} {bs : List Byte} :
    k ∈ (padWrite r o bs).padPoison ↔ k ∈ r.padPoison ∧ ¬(o ≤ 8 * k ∧ 8 * k + 8 ≤ o + bs.length) := by
  simp only [padWrite, List.mem_filter, Bool.not_eq_true', decide_eq_false_iff_not]

/-- Settles O35: one rule for the load and one for the store; what a write of the window leaves is read off the byte memory. -/
theorem windowAccess : Obligations.WindowAccess := by
  refine ⟨fun s w r hr => ?_, fun r o bs => ⟨fun x => memGet_memWrite r.pad o x bs, fun k => mem_padPoison_padWrite, rfl⟩⟩
  intro n addrs ordered stored hfits
  refine ⟨fun hord => ?_, lds_reads hr hfits, sts_writes hr hfits⟩
  simp only [ordered, hord]
  exact ⟨orderCoach_relaxed .., orderCoach_relaxed ..⟩

end Sys2Proof.Proofs
end

/-! ### Global accesses (05 R171, R172, R185) -/
section
namespace Sys2Proof.Proofs
open Sys2Proof Sys2Proof.Machine Sys2Proof.Laws

/-! #### The checks of an access (05 R185) -/

section
variable {c : OpCtx} {s : State} {addrs : List (Nat × Nat)} {out : Nat → Bool} {n : Nat}

theorem checkAccess_bounds (hout : lanesWhere addrs out ≠ 0) :
    checkAccess c s addrs out n = some (accessTrap c s 7 (lanesWhere addrs out) 1 addrs) := if_pos hout

theorem checkAccess_align (hin : lanesWhere addrs out = 0) (hodd : lanesWhere addrs (fun x => x % n != 0) ≠ 0) :
    checkAccess c s addrs out n = some (accessTrap c s 6 (lanesWhere addrs (fun x => x % n != 0)) 1 addrs) :=
  (if_neg (by rw [hin]; exact not_not_intro rfl)).trans (if_pos hodd)

theorem checkAccess_passes (hin : lanesWhere addrs out = 0) (hodd : lanesWhere addrs (fun x => x % n != 0) = 0) :
    checkAccess c s addrs out n = none :=
  (if_neg (by rw [hin]; exact not_not_intro rfl)).trans (if_neg (by rw [hodd]; exact not_not_intro rfl))
end

section
variable {s s1 : State} {w : NOp} {f : Found}

/-- The lanes whose address is above 57 bits. -/
abbrev globalHigh (s : State) (w : NOp) : Mask := lanesWhere (globalOf s w) outOfGlobal

/-- The lanes whose address is misaligned. -/
abbrev globalOdd (s : State) (w : NOp) : Mask := lanesWhere (globalOf s w) (fun x => x % mBytes w != 0)

/-- The ordering of an access that has a lane. -/
abbrev orderedFound (s : State) (w : NOp) (f : Found) (t : State) : State :=
  if f.ok.isEmpty then t else orderCoach t s.iss.coach (mOrd w) (mAgt w) (mStg w)

theorem ld_reads {s2 : State} {t : Tbl (List Byte)} (hq : noQueue w = true) (hclear : clear s (.ld w) = true)
    (hout : (globalOf s w).all (fun a => !inWindow s (me s) a.2) = true) (hhigh : globalHigh s w = 0) (hodd : globalOdd s w = 0)
    (hfind : findLanes s s.iss.coach .read (globalOf s w) Found.none = (f, s1)) (herr : f.err = none) (hbad : f.bad = [])
    (hread : readPieces (orderedFound s w f s1) s.iss.coach (mBytes w) (mCh w == 2) (mCh w == 1) f.ok [] = (.ok t, s2))
    (hset : settled s2 s.iss.coach = true) : exec (.ld w) s = .next (slottedAt s2 s.iss (loadedSlot s w t)) := by
  have hside : sideOf s (me s) (globalOf s w) = .outside := if_pos hout
  refine exec_of_effect hclear rfl rfl ?_
  simp only [globalAddrs_opCtx, checkAccess_passes hhigh hodd, hside, loadGlobal, hfind, herr, hread, hbad, parkBad_nil,
    badMask_nil hbad, without_zero]
  exact deliverLoad_slot rfl (enabled_of_clear hclear rfl) hq hset

/-- An access that meets no error meets no poisoned page. -/
theorem poisoned_of_err (herr : f.err = none) : f.poisoned = false := by simp [Found.poisoned, herr]

/-- The state after the stores of the lanes that translate, and their ordering. -/
abbrev globalStored (s : State) (w : NOp) (f : Found) (t : State) : State :=
  orderedFound s w f (writePieces t s.iss.coach (mCh w == 2) (mCh w == 1) (f.ok.map (fun p => (p, dataOf s w p.lane))))

theorem st_writes (hclear : clear s (.st w) = true) (hdet : isDet s (me s) = false) (hhigh : globalHigh s w = 0)
    (hodd : globalOdd s w = 0) (hshadow : shadowBad (me s) (enOf s w) = 0)
    (hfind : findLanes s s.iss.coach .write (globalOf s w) Found.none = (f, s1)) (herr : f.err = none) (hbad : f.bad = [])
    (hdet1 : isDet s1 (me s) = false) (hset : settled (globalStored s w f s1) s.iss.coach = true) :
    exec (.st w) s = .next (passedAt (globalStored s w f s1) s.iss) := by
  refine exec_of_effect hclear rfl rfl ?_
  simp only [globalAddrs_opCtx, checkAccess_passes hhigh hodd, shadowStop_none (c := opCtx s w _) hshadow, sideOf_outside hdet,
    ownerStop_none (c := opCtx s w _) hdet, storeGlobal, hfind, poisoned_of_err herr, herr, claimLines_same hdet1,
    storeBytes_opCtx, hbad, parkBad_nil, badMask_nil hbad, without_zero, Bool.false_eq_true, if_false]
  exact finishGroup_settled hset

theorem ldst_bounds {i : Instr} {sp : OpSpec} (hi : i = .ld w ∨ i = .st w) (hclear : clear s i = true)
    (hrow : nativeRow s i = some (w, sp)) (hhigh : globalHigh s w ≠ 0) :
    exec i s = .next (accessTrap (opCtx s w sp) s 7 (globalHigh s w) 1 (globalOf s w)) := by
  obtain rfl | rfl := hi
  all_goals
    cases hrow
    refine exec_of_effect hclear rfl rfl ?_
    simp only [globalAddrs_opCtx, checkAccess_bounds hhigh]

theorem ldst_align {i : Instr} {sp : OpSpec} (hi : i = .ld w ∨ i = .st w) (hclear : clear s i = true)
    (hrow : nativeRow s i = some (w, sp)) (hhigh : globalHigh s w = 0) (hodd : globalOdd s w ≠ 0) :
    exec i s = .next (accessTrap (opCtx s w sp) s 6 (globalOdd s w) 1 (globalOf s w)) := by
  obtain rfl | rfl := hi
  all_goals
    cases hrow
    refine exec_of_effect hclear rfl rfl ?_
    simp only [globalAddrs_opCtx, checkAccess_align hhigh hodd]
end

/-- Settles O34: the load and the store whose lanes all translate, and the two checks that come before anything happens. -/
theorem globalAccess : Obligations.GlobalAccess := by
  intro s w f s1 k n addrs nol1 strm high odd ordered outside
  exact ⟨fun t s2 => ld_reads, st_writes, fun i sp => ldst_bounds, fun i sp => ldst_align⟩

end Sys2Proof.Proofs
end

/-! ### Atomics (05 R179, R180) -/
section
namespace Sys2Proof.Proofs
open Sys2Proof Sys2Proof.Machine Sys2Proof.Laws

section
variable {s : State} {w : NOp}

/-! #### ATOM and ATOMS (05 R179, R180) -/

/-- What the atomics of a coach leave after their old values have come: nothing for D unused, and else a slot. -/
abbrev atomEnds (s : State) (w : NOp) (t : State) (old : Tbl Dword) : State :=
  if fD w = 0xF0 then passedAt t s.iss else slottedAt t s.iss (valueSlot s w (fun l => (tgetD 0 old l).toNat))

/-- The addresses of the enabled lanes, or their offsets in the window. -/
abbrev atomAddrs (s : State) (w : NOp) (global : Bool) : List (Nat × Nat) :=
  (lanesOf (enOf s w)).map (fun l => (l, (aVal (me s) w global l).toNat))

/-- The global atomic of lanes that all translate, in a region that is not deterministic. -/
theorem atomGlobal_done {f : Found} {s1 s2 : State} {old : Tbl Dword} (ends : Bool) (hen : enOf s w ≠ 0) (hq : noQueue w = true)
    (hfind : findLanes s s.iss.coach .atomic (atomAddrs s w true) Found.none = (f, s1)) (herr : f.err = none) (hbad : f.bad = [])
    (hdet1 : isDet s1 (me s) = false)
    (hpieces : atomPieces (opCtx s w (atomSpec w true)) (me s) (decide (1 ≤ mAgt w)) f.ok []
      (if f.ok.isEmpty then s1 else orderCoach s1 s.iss.coach (mOrd w) (mAgt w) (mStg w)) = (.ok old, s2))
    (hset : settled s2 s.iss.coach = true) :
    atomGlobal (opCtx s w (atomSpec w true)) s false ends (atomAddrs s w true) = atomEnds s w s2 old := by
  have hsame : SameCoaches s s1 := by
    have h := sameCoaches_findLanes s.iss.coach .atomic (atomAddrs s w true) s Found.none
    rwa [hfind] at h
  have hbundle : endsBundle s1 s.iss.coach = s1 := endsBundle_same (by rw [hsame.coachOf]; exact hdet1)
  unfold atomGlobal
  simp only [hfind, herr, claimLines_same hdet1, hbundle, ite_self, Bool.false_or, hpieces, hbad, parkBad_nil, badMask_nil hbad,
    without_zero]
  exact deliverOld_ends hen hq hset

theorem atom_performs {f : Found} {s1 s2 : State} {old : Tbl Dword} (hdet : isDet s (me s) = false) (hq : noQueue w = true)
    (hclear : clear s (.atom w) = true) (hreach : inReach (atomAddrs s w true) (mBytes w) = true)
    (hshadow : shadowBad (me s) (enOf s w) = 0)
    (hfind : findLanes s s.iss.coach .atomic (atomAddrs s w true) Found.none = (f, s1)) (herr : f.err = none) (hbad : f.bad = [])
    (hdet1 : isDet s1 (me s) = false)
    (hpieces : atomPieces (opCtx s w (atomSpec w true)) (me s) (decide (1 ≤ mAgt w)) f.ok []
      (if f.ok.isEmpty then s1 else orderCoach s1 s.iss.coach (mOrd w) (mAgt w) (mStg w)) = (.ok old, s2))
    (hset : settled s2 s.iss.coach = true) : exec (.atom w) s = .next (atomEnds s w s2 old) := by
  have hdone := fun ends => atomGlobal_done ends (enabled_of_clear hclear rfl) hq hfind herr hbad hdet1 hpieces hset
  refine exec_of_effect hclear rfl rfl ?_
  simp only [srcA_opCtx, checkAccess_none (inReach_check hreach), shadowStop_none (c := opCtx s w _) hshadow, sideOf_outside hdet,
    ownerStop_none (c := opCtx s w _) hdet, withRoom_go (c := opCtx s w _) hdet, hdone, ite_self]

theorem atoms_performs {r r' : Rake} {old : Tbl Dword} (hdet : isDet s (me s) = false) (hq : noQueue w = true)
    (hclear : clear s (.atoms w) = true) (hr : tget s.rakes (me s).rake = some r)
    (hfits : fits (atomAddrs s w false) r.window (mBytes w) = true)
    (hgood : (atomAddrs s w false).all (fun a => !padBad r a.2 (mBytes w)) = true) (hshadow : shadowBad (me s) (enOf s w) = 0)
    (hpieces : atomsPieces (opCtx s w (atomSpec w false)) (me s) (atomAddrs s w false) [] r = (old, r')) :
    let t := modRake (orderCoach s s.iss.coach (mOrd w) (min (mAgt w) 2) (mStg w)) (me s).rake (fun _ => r')
    settled t s.iss.coach = true → exec (.atoms w) s = .next (atomEnds s w t old) := by
  intro t hset
  have hscope : (if mAgt w ≤ 2 then mAgt w else 2) = min (mAgt w) 2 := (Nat.min_def ..).symm
  refine exec_of_effect hclear rfl rfl ?_
  simp only [srcA_opCtx, windowOf_of hr, checkAccess_none (fits_check hfits), shadowStop_none (c := opCtx s w _) hshadow, hr,
    any_padBad_false hgood, Bool.false_eq_true, if_false, hscope, hpieces, endingBundle, withRoom_go (c := opCtx s w _) hdet,
    endsBundle_same hdet, ite_self]
  exact deliverOld_ends (enabled_of_clear hclear rfl) hq hset
end

/-! #### The values of the integer atomics (05 R179) -/

/-- The words of the atomics are at most 64 bits. -/
theorem tyBits_le {ty : Nat} (hty : ty ≤ 3) : tyBits ty ≤ 64 := by
  interval_cases ty <;> decide

/-- ADD wraps at the word of the type. -/
theorem atomValue_add {ty : Nat} (o b c : Dword) (hty : ty ≤ 3) :
    (atomValue 0 ty o b c).toNat = (o.toNat + b.toNat) % 2 ^ tyBits ty := by
  have hdvd : 2 ^ tyBits ty ∣ 2 ^ 64 := Nat.pow_dvd_pow 2 (tyBits_le hty)
  have hlt : (o + b).toNat % 2 ^ tyBits ty < 2 ^ 64 :=
    (Nat.mod_lt _ (Nat.two_pow_pos _)).trans_le (Nat.pow_le_pow_right (by decide) (tyBits_le hty))
  show (BitVec.ofNat 64 ((o + b).toNat % 2 ^ tyBits ty)).toNat = _
  rw [BitVec.toNat_ofNat, Nat.mod_eq_of_lt hlt, BitVec.toNat_add, Nat.mod_mod_of_dvd _ hdvd]

/-- Settles O37: one rule for the atomics of each memory; the values of the integer operations are those of their cases. -/
theorem atomics : Obligations.Atomics := by
  intro s w hdet hq k n ends ordered gaddrs laddrs
  exact ⟨fun f s1 s2 old => atom_performs hdet hq, fun r r' old => atoms_performs hdet hq,
    fun ty o b c hty ho hb => ⟨atomValue_add o b c hty, rfl, rfl, rfl, rfl, rfl, rfl, rfl, rfl, rfl⟩⟩

end Sys2Proof.Proofs
end

/-! ### Private memory (05 R174, R175, 09 R341, R342) -/
section
namespace Sys2Proof.Proofs
open Sys2Proof Sys2Proof.Machine Sys2Proof.Laws

section
variable {s s1 s2 s3 : State} {w : NOp} {f : Found}

/-! #### Private words (05 R174) -/

theorem privDet_outside {sp : OpSpec} {addrs : List (Nat × Nat)} {g : State → State} (hdet : isDet s (me s) = false) :
    privDet (opCtx s w sp) s addrs g = g s := by
  unfold privDet
  rw [sideOf_outside (co := coachOf s (opCtx s w sp).k) hdet]

theorem ldl_reads {t : Tbl Nat} (hdet : isDet s (me s) = false) (hq : noQueue w = true) (hclear : clear s (.ldl w) = true)
    (hv : mV w = false) (hfits : fits (localOf s w) (privSize s (me s)) (mBytes w) = true)
    (hmap : mapFound s w (localOf s w) .read = (true, s1))
    (hwords : privWords s1 s.iss.coach (mBytes w) .read (localOf s w) = (f, s2)) (herr : f.err = none) (hbad : f.bad = [])
    (hread : privRead s.iss.coach (mBytes w) (pieceOffsets (localOf s w) (mBytes w) f.ok) [] s2 = (.ok t, s3))
    (hset : settled s3 s.iss.coach = true) :
    exec (.ldl w) s = .next (slottedAt s3 s.iss (loadedSlot s w (t.map (fun e => (e.1, leBytes (mBytes w) e.2))))) := by
  have hlong : (localSpec w false).long = true := by simp [localSpec, hv, memSpec]
  refine exec_of_effect hclear rfl rfl ?_
  simp only [hv, localAddrs_opCtx, checkAccess_none (fits_check hfits), privDet_outside hdet, withMap_eq hmap, hwords, herr,
    wholeLanes_nil hbad, hread, hbad, parkBad_nil, badMask_nil hbad, without_zero, Bool.false_eq_true, if_false]
  exact deliverLoad_slot hlong (enabled_of_clear hclear rfl) hq hset

theorem stl_writes (hdet : isDet s (me s) = false) (hclear : clear s (.stl w) = true) (hv : mV w = false)
    (hfits : fits (localOf s w) (privSize s (me s)) (mBytes w) = true) (hshadow : shadowBad (me s) (enOf s w) = 0)
    (hmap : mapFound s w (localOf s w) .atomic = (true, s1))
    (hwords : privWords s1 s.iss.coach (mBytes w) .write (localOf s w) = (f, s2)) (herr : f.err = none) (hbad : f.bad = [])
    (hdet2 : isDet s2 (me s) = false)
    (hwrite : privWrite s.iss.coach (mBytes w) (fun l => (regVal (me s) (fD w) (mWide w) l).toNat)
      (pieceOffsets (localOf s w) (mBytes w) f.ok) s2 = (.ok (), s3))
    (hset : settled s3 s.iss.coach = true) : exec (.stl w) s = .next (passedAt s3 s.iss) := by
  refine exec_of_effect hclear rfl rfl ?_
  simp only [hv, localAddrs_opCtx, checkAccess_none (fits_check hfits), privDet_outside hdet,
    shadowStop_none (c := opCtx s w _) hshadow, ownerStop_none (c := opCtx s w _) hdet, withMap_eq hmap, hwords, herr,
    wholeLanes_nil hbad, claimLines_same hdet2, readOp_opCtx, hwrite, hbad, parkBad_nil, badMask_nil hbad, without_zero,
    Bool.false_eq_true, if_false]
  exact finishGroup_settled hset

theorem local_bounds {i : Instr} {sp : OpSpec} (hi : i = .ldl w ∨ i = .stl w) (hclear : clear s i = true)
    (hrow : nativeRow s i = some (w, sp)) (hv : mV w = false)
    (hout : lanesWhere (localOf s w) (outOfLocal (privSize s (me s)) (mBytes w)) ≠ 0) :
    exec i s = .next (accessTrap (opCtx s w sp) s 7 (lanesWhere (localOf s w) (outOfLocal (privSize s (me s)) (mBytes w))) 1
      (localOf s w)) := by
  obtain rfl | rfl := hi
  all_goals
    cases hrow
    refine exec_of_effect hclear rfl rfl ?_
    simp only [hv, localAddrs_opCtx, checkAccess_bounds hout, Bool.false_eq_true, if_false]

/-! #### Register lines (05 R175) -/

/-- The offset of a whole-line access: that of its lowest enabled lane. -/
def lineOff (s : State) (w : NOp) : Nat := (((localOf s w).head?).getD (0, 0)).2

theorem lineOffset_within {sp : OpSpec} {g : Nat → State} (hen : enOf s w ≠ 0) (hin : lineOff s w + 4 ≤ privSize s (me s))
    (halign : lineOff s w % 4 = 0) : lineOffset (opCtx s w sp) s g = g (lineOff s w) := by
  have hne : localOf s w ≠ [] := fun h => lanesOf_ne_nil hen (List.map_eq_nil_iff.1 h)
  obtain ⟨⟨l, o⟩, rest, hlist⟩ := List.exists_cons_of_ne_nil hne
  have ho : lineOff s w = o := by rw [lineOff, hlist]; rfl
  rw [ho] at hin halign ⊢
  have haddrs : localAddrs (opCtx s w sp) (coachOf s (opCtx s w sp).k) = (l, o) :: rest := (localAddrs_opCtx ..).trans hlist
  unfold lineOffset
  simp only [haddrs]
  refine (if_neg ?_).trans (if_neg (not_not_intro halign))
  simpa [outOfLocal] using hin

/-- The whole line of a slot that translates. -/
abbrev linePiece (va pa : Nat) (leaf : Dword) : Piece := { lane := 0, va := va, pa := pa, leaf := leaf }

theorem slotAt_found {sp : OpSpec} {o pa : Nat} {leaf : Dword} {a : Acc} {g : Piece → State → State}
    (hx : coachXlate s1 (coachOf s1 s.iss.coach) (slotAddr s1 (coachOf s1 s.iss.coach) o) a = (.ok pa leaf, s2)) :
    slotAt (opCtx s w sp) s1 o a g = g (linePiece (slotAddr s1 (coachOf s1 s.iss.coach) o) pa leaf) s2 := by
  unfold slotAt togetherAt
  rw [show (opCtx s w sp).k = s.iss.coach from rfl, hx]

/-- The slot of LDL.V: the words of the line in every lane of the coach's width. -/
abbrev lineSlot (s t : State) (w : NOp) (form : Nat) (bytes : List Byte) : Slot :=
  { slotFor s w 1 (laneWrites (fD w) 1 (coachOf t s.iss.coach).all (fun l _ => (slotWord form bytes l).getD 0)) [] noFlags with
    lanes := (coachOf t s.iss.coach).all }

theorem ldlV_reads {pa form : Nat} {leaf : Dword} {s4 : State} {t : Tbl (List Byte)} (hdet : isDet s (me s) = false)
    (hclear : clear s (.ldl w) = true) (hv : mV w = true) (hin : lineOff s w + 4 ≤ privSize s (me s)) (halign : lineOff s w % 4 = 0)
    (hmap : mapFound s w [(0, lineOff s w)] .read = (true, s1))
    (hx : coachXlate s1 (coachOf s1 s.iss.coach) (slotAddr s1 (coachOf s1 s.iss.coach) (lineOff s w)) .read = (.ok pa leaf, s2))
    (hform : formatOf s2 (coachOf s2 s.iss.coach) (lineOff s w) = (form, s3)) (hle : form ≤ 3)
    (hread : readPieces s3 s.iss.coach 256 false false [linePiece (slotAddr s1 (coachOf s1 s.iss.coach) (lineOff s w)) pa leaf] []
      = (.ok t, s4))
    (hset : settled s4 s.iss.coach = true) :
    exec (.ldl w) s = .next (slottedAt s4 s.iss (lineSlot s s4 w form (tgetD [] t 0))) := by
  refine exec_of_effect hclear rfl rfl ?_
  simp only [hv, if_true, lineOffset_within (enabled_of_clear hclear rfl) hin halign, privDet_outside hdet, loadLine, withMap_eq hmap,
    slotAt_found hx, hform, hread, if_neg (Nat.not_lt.2 hle)]
  exact finishGroup_setCoach (settled_spec hset).2

theorem stlV_writes {pa : Nat} {leaf : Dword} (hdet : isDet s (me s) = false)
    (hclear : clear s (.stl w) = true) (hv : mV w = true) (hin : lineOff s w + 4 ≤ privSize s (me s)) (halign : lineOff s w % 4 = 0)
    (hshadow : shadowBad (me s) (me s).all = 0)
    (hmap : mapFound s w [(0, lineOff s w)] .atomic = (true, s1))
    (hx : coachXlate s1 (coachOf s1 s.iss.coach) (slotAddr s1 (coachOf s1 s.iss.coach) (lineOff s w)) .write = (.ok pa leaf, s2)) :
    let form := slotForm (lineWords (coachOf s2 s.iss.coach) (fD w))
    let s3 := writePieces s2 s.iss.coach false false
      [(linePiece (slotAddr s1 (coachOf s1 s.iss.coach) (lineOff s w)) pa leaf, form.2)]
    let s4 := setFormat s3 (coachOf s2 s.iss.coach) (lineOff s w) form.1
    settled s4 s.iss.coach = true → exec (.stl w) s = .next (passedAt s4 s.iss) := by
  intro form s3 s4 hset
  refine exec_of_effect hclear rfl rfl ?_
  simp only [hv, if_true, lineOffset_within (enabled_of_clear hclear rfl) hin halign, privDet_outside hdet,
    shadowStop_none (c := opCtx s w _) hshadow, ownerStop_none (c := opCtx s w _) hdet, claimLines_same hdet, storeLine,
    withMap_eq hmap, slotAt_found hx]
  exact finishGroup_settled hset
end

/-- Settles O36: one rule for the words and one for the lines of each operation, and the bounds check that they share. -/
theorem privateMemory : Obligations.PrivateMemory := by
  intro s w f s1 s2 s3 hdet k n addrs size off at_
  exact ⟨fun t => ldl_reads hdet, stl_writes hdet, fun pa leaf form s4 t => ldlV_reads hdet, fun pa leaf => stlV_writes hdet,
    fun i sp => local_bounds⟩

end Sys2Proof.Proofs
end

/-! ### Branches, calls and returns (05 R153-R157) -/
section
namespace Sys2Proof.Proofs
open Sys2Proof Sys2Proof.Machine Sys2Proof.Laws

/-! #### CALL where the regions are listed out of order (05 R155, 10 R391) -/

/-- A coach of region 0, which is deterministic, has reached an operation; region 1 is listed before it. -/
def unsortedRegions : State :=
  { State.reset with
    coaches := [(0, Boot.coach)]
    regions := [(1, Boot.region), (0, { Boot.region with det := true })]
    iss := { coach := 0, group := 1, ga := 0x4000, step := 0, len := 8, count := 1, word := 0, gunit := 0 } }

/-- CALL to the next operation but one, without a predicate. -/
def callWord : NOp := { sw := false, pm := 0, pn := false, fmt := .fl 0 0 1 }

/-- The keys under which a step leaves regions listed. -/
def regionKeys (o : Out) : List Nat :=
  match o with
  | .next t => tkeys t.regions
  | _ => []

/-- CALL with room on every return stack spills nothing, and still enters its region again among the regions. -/
theorem regionKeys_call : regionKeys (exec (.call callWord) unsortedRegions) = [0, 1, 0] := by decide

/-- Refutes O29: a CALL with room on its return stacks claims the lines of an empty spill, which lists its deterministic region
anew; where the regions are listed out of order, they are not the regions that stood before, as `branched` leaves them. -/
theorem not_branches : ¬ Obligations.Branches := by
  rintro ⟨-, hcalls⟩
  have hcall := (hcalls unsortedRegions callWord).1 (by decide) (by decide)
  have hkeys := congrArg regionKeys hcall
  rw [regionKeys_call] at hkeys
  exact absurd hkeys (by decide)

end Sys2Proof.Proofs
end

/-! ### Waits (05 R158-R166) -/
section
namespace Sys2Proof.Proofs
open Sys2Proof Sys2Proof.Machine Sys2Proof.Laws

section
variable {s : State} {w : NOp}

/-! #### The coach of the latch as an operation leaves it -/

theorem releaseFpe_setCoach {t : State} {k : Nat} {i : Iss} {co : Coach} (hfpe : co.fpeHeld = []) :
    releaseFpe (setCoach t k co) k i = setCoach t k co := by
  refine releaseFpe_nil ?_
  rw [coachOf_setCoach]
  exact hfpe

/-- JOINs move lanes alone. -/
theorem evalJoins_fpeHeld (co : Coach) (sel : GAddr × Nat × Nat → Bool) : (evalJoins co sel).fpeHeld = co.fpeHeld := by
  unfold evalJoins
  generalize joinPoints co = points
  induction points generalizing co with
  | nil => rfl
  | cons p points ih =>
    rw [List.foldl_cons, ih]
    split <;> rfl

theorem checkJoins_setCoach {t : State} {k : Nat} {co : Coach} (hlive : joinDeadlock co = false) :
    checkJoins (setCoach t k co) k = setCoach t k co := by
  unfold checkJoins
  simp only [coachOf_setCoach, hlive, Bool.false_eq_true, if_false]

theorem fpeHeld_of_clear {i : Instr} {sp : OpSpec} (hclear : clear s i = true) (hrow : nativeRow s i = some (w, sp)) :
    (me s).fpeHeld = [] := (settled_spec (settled_of_clear hclear hrow)).2

/-- The lanes of the group that the operation does not enable have passed it. -/
abbrev othersPassed (s : State) (w : NOp) : Coach := passLanes (me s) s.iss (s.iss.group &&& ~~~(enOf s w))

/-! #### JOIN (05 R159-R161) -/

/-- The JOIN that the latch has reached. -/
abbrev joinHere (s : State) (p : GAddr × Nat × Nat) : Bool := p.1 == s.iss.ga && p.2.1 == s.iss.step

theorem join_empty (hclear : clear s (.join w) = true) (hm : mget (me s) (fX w % 16) = 0) :
    exec (.join w) s = .next (setCoach s s.iss.coach (passLanes (evalJoins (me s) (joinHere s)) s.iss s.iss.group)) := by
  refine exec_of_effect hclear rfl rfl ((if_pos hm).trans ?_)
  refine finishGroup_becomes (modCoach_of_tget (coach_of_clear hclear rfl) _) ?_
  exact (evalJoins_fpeHeld _ _).trans (fpeHeld_of_clear hclear rfl)

/-- The coach whose enabled lanes wait at the JOIN of the latch. -/
abbrev joinedHere (s : State) (w : NOp) : Coach :=
  evalJoins (modLanes (othersPassed s w) (enOf s w) (fun _ y => { y.count with
    state := .joining, wait := .join (fX w % 16), word := s.iss.word, nga := s.iss.next.1, nstep := s.iss.next.2 })) (joinHere s)

theorem join_waits (hclear : clear s (.join w) = true) (hm : mget (me s) (fX w % 16) ≠ 0)
    (hlive : joinDeadlock (joinedHere s w) = false) :
    exec (.join w) s = .next (setCoach s s.iss.coach (joinedHere s w)) := by
  refine exec_of_effect hclear rfl rfl ((if_neg hm).trans ?_)
  rw [modCoach_of_tget (coach_of_clear hclear rfl)]
  exact (congrArg (fun t => releaseFpe t s.iss.coach s.iss) (checkJoins_setCoach hlive)).trans
    (releaseFpe_setCoach ((evalJoins_fpeHeld _ _).trans (fpeHeld_of_clear hclear rfl)))

/-! #### SLEEP and SLEEP.BAR (05 R164-R166) -/

theorem sleep_zero (hclear : clear s (.sleep w) = true) (hn : fImm w = 0) : exec (.sleep w) s = .next (passed s) :=
  exec_of_effect hclear rfl rfl ((if_pos hn).trans (finishGroup_settled (settled_of_clear hclear rfl)))

theorem sleep_cycles (hclear : clear s (.sleep w) = true) (hn : fImm w ≠ 0) :
    exec (.sleep w) s = .next (sleptAt s s w (.cycles (cycleOf s (coreOf (me s)) + fImm w))) :=
  exec_of_effect hclear rfl rfl ((if_neg hn).trans (sleepIn_settled (settled_of_clear hclear rfl)))

theorem sleepBar_sleeps {l0 : Nat} (hclear : clear s (.sleepBar w) = true) (hlow : lowLane (enOf s w) = some l0) :
    exec (.sleepBar w) s = .next (wakeReady (sleptAt s s w (.sleepBar (aVal (me s) w true l0) ((fX w).testBit 4) (fX w % 16)
      ((bVal (me s) w false 0 l0).setWidth 24) ((fX w).testBit 5))) s.iss.coach) := by
  refine exec_of_effect hclear rfl rfl ?_
  simp only [hlow, srcA_opCtx, srcB_opCtx]
  exact congrArg (fun t => wakeReady t s.iss.coach) (sleepIn_settled (settled_of_clear hclear rfl))

/-! #### EXIT and YIELD (05 R158, R162, R163) -/

theorem exit_ends (hdet : isDet s (me s) = false) (hclear : clear s (.exit w) = true) :
    exec (.exit w) s = .next (exitLanes (setCoach s s.iss.coach (modLanes (othersPassed s w) (enOf s w) (fun _ y => y.count)))
      s.iss.coach (enOf s w)) := by
  refine exec_of_effect hclear rfl rfl ((withRoom_go hdet).trans ?_)
  rw [modCoach_of_tget (coach_of_clear hclear rfl)]
  exact congrArg (fun t => exitLanes t s.iss.coach (enOf s w)) (releaseFpe_setCoach (fpeHeld_of_clear hclear rfl))

/-- What YIELD asks of the partition's next issue. -/
def yieldTo (s : State) (place : Option (Nat × Nat × Nat)) : State :=
  match place with
  | some (core, p, j) =>
    { s with sched := .issueSelect (core * 4 + p) :: s.sched, lastPlace := tput s.lastPlace (core * 4 + p) j }
  | none => s

theorem yield_passes {core p j : Nat} (hdet : isDet s (me s) = false) (hclear : clear s (.yield w) = true)
    (hplace : (me s).place = some (core, p, j)) : exec (.yield w) s = .next { passed s with
      sched := .issueSelect (core * 4 + p) :: s.sched, lastPlace := tput s.lastPlace (core * 4 + p) j } := by
  have hco : coachOf (passed s) s.iss.coach = passLanes (me s) s.iss s.iss.group := coachOf_setCoach ..
  have hdet' : ¬ isDet (passed s) (passLanes (me s) s.iss s.iss.group) = true := by rw [Bool.not_eq_true]; exact hdet
  refine exec_of_effect hclear rfl rfl ?_
  rw [finishGroup_settled (s := s) (t := s) (settled_of_clear hclear rfl)]
  show (if isDet (passed s) (coachOf (passed s) s.iss.coach) then passed s
    else yieldTo (passed s) (coachOf (passed s) s.iss.coach).place) = _
  rw [hco, if_neg hdet', passLanes_place, hplace]
  rfl
end

/-- Settles O30: one rule per operation; JOIN by its mask, SLEEP by its count. -/
theorem waiting : Obligations.Waiting := by
  intro s w hdet others put now x
  exact ⟨join_empty, join_waits, sleep_zero, sleep_cycles, fun l0 => sleepBar_sleeps, exit_ends hdet,
    fun core p j => yield_passes hdet⟩

end Sys2Proof.Proofs
end

/-! ### Described lines (05 R176-R178) -/
section
namespace Sys2Proof.Proofs
open Sys2Proof Sys2Proof.Machine Sys2Proof.Laws

/-! #### The exact order of finite values (03 R99) -/

/-- The magnitude of a finite value. -/
def magnitude (man : Nat) (exp : Int) : ℚ := man * 2 ^ exp

theorem magnitude_add (man : Nat) (exp k : Int) : magnitude man (exp + k) = magnitude man exp * 2 ^ k := by
  unfold magnitude
  rw [zpow_add₀ two_ne_zero, mul_assoc]

/-- In multiples of 2^q, a magnitude is exact for every q at or below its exponent. -/
theorem atUnit_magnitude {q : Int} {man : Nat} {exp : Int} (hq : q ≤ exp) :
    ((atUnit q false man exp : Int) : ℚ) * 2 ^ q = magnitude man exp := by
  obtain ⟨n, hn⟩ := Int.eq_ofNat_of_zero_le (Int.sub_nonneg_of_le hq)
  obtain rfl : exp = n + q := by omega
  simp only [atUnit, Bool.false_eq_true, if_false, Int.add_sub_cancel, Int.toNat_natCast, Nat.shiftLeft_eq, magnitude]
  rw [zpow_add₀ two_ne_zero, zpow_natCast]
  push_cast
  ring

theorem numLt_magnitude {m n : Nat} {a b : Int} :
    numLt (.fin false m a) (.fin false n b) = true ↔ magnitude m a < magnitude n b := by
  have hmin : (if a < b then a else b) = min a b := by split <;> omega
  unfold numLt
  simp only [hmin, decide_eq_true_eq]
  rw [← atUnit_magnitude (man := m) (min_le_left a b), ← atUnit_magnitude (man := n) (min_le_right a b),
    mul_lt_mul_iff_left₀ (zpow_pos two_pos _), Int.cast_lt]

/-- A positive magnitude lies in the binade of its logarithm. -/
theorem magnitude_binade {man : Nat} {exp : Int} (hman : 0 < man) :
    (2 : ℚ) ^ floorLog man exp ≤ magnitude man exp ∧ magnitude man exp < 2 ^ (floorLog man exp + 1) := by
  have hlow : 2 ^ man.log2 ≤ man := Nat.log2_self_le hman.ne'
  have hhigh : man < 2 ^ (man.log2 + 1) := Nat.lt_log2_self
  have hpow : (0 : ℚ) < 2 ^ exp := zpow_pos two_pos exp
  unfold magnitude floorLog
  constructor
  · rw [add_comm exp, zpow_add₀ two_ne_zero, zpow_natCast]
    exact mul_le_mul_of_nonneg_right (by exact_mod_cast hlow) hpow.le
  · rw [show exp + man.log2 + 1 = ((man.log2 + 1 : Nat) : Int) + exp by push_cast; ring, zpow_add₀ two_ne_zero, zpow_natCast]
    exact mul_lt_mul_of_pos_right (by exact_mod_cast hhigh) hpow

/-- A scale within ±8192 moves the exponent. -/
theorem scaleNum_within {sg : Bool} {m : Nat} {a k : Int} (hlow : -8192 ≤ k) (hhigh : k ≤ 8192) :
    scaleNum (.fin sg m a) k = .fin sg m (a + k) := by
  unfold scaleNum
  dsimp only
  rw [if_neg (not_lt.2 hlow), if_neg (not_lt.2 hhigh)]

/-! #### The least scale (05 R178) -/

/-- The least scale lies at the difference of the logarithms, or one above it. -/
theorem least_between {m n : Nat} {a b e : Int} (hm : 0 < m) (hn : 0 < n) (hreach : magnitude n b ≤ magnitude m (a + e))
    (hbelow : magnitude m (a + (e - 1)) < magnitude n b) :
    let d := floorLog n b - floorLog m a
    e = d ∨ e = d + 1 := by
  intro d
  obtain ⟨hmLow, hmHigh⟩ := magnitude_binade (exp := a) hm
  obtain ⟨hnLow, hnHigh⟩ := magnitude_binade (exp := b) hn
  rw [magnitude_add] at hreach hbelow
  have hpow : ∀ k : Int, (0 : ℚ) < 2 ^ k := fun k => zpow_pos two_pos k
  have hge : d < e + 1 := by
    have h : (2 : ℚ) ^ floorLog n b < 2 ^ (floorLog m a + 1 + e) :=
      calc (2 : ℚ) ^ floorLog n b ≤ magnitude n b := hnLow
        _ ≤ magnitude m a * 2 ^ e := hreach
        _ < 2 ^ (floorLog m a + 1) * 2 ^ e := mul_lt_mul_of_pos_right hmHigh (hpow e)
        _ = 2 ^ (floorLog m a + 1 + e) := (zpow_add₀ two_ne_zero _ _).symm
    have := (zpow_lt_zpow_iff_right₀ one_lt_two).1 h
    omega
  have hle : e < d + 2 := by
    have h : (2 : ℚ) ^ (floorLog m a + (e - 1)) < 2 ^ (floorLog n b + 1) :=
      calc (2 : ℚ) ^ (floorLog m a + (e - 1)) = 2 ^ floorLog m a * 2 ^ (e - 1) := zpow_add₀ two_ne_zero _ _
        _ ≤ magnitude m a * 2 ^ (e - 1) := mul_le_mul_of_nonneg_right hmLow (hpow _).le
        _ < magnitude n b := hbelow
        _ < 2 ^ (floorLog n b + 1) := hnHigh
    have := (zpow_lt_zpow_iff_right₀ one_lt_two).1 h
    omega
  omega

/-- Scales beyond ±8192 are all the same. -/
theorem scaleNum_beyond {x : Machine.Num} {e : Int} (h : e ≤ -8192 ∨ 8192 < e) : scaleNum x e = scaleNum x (e - 1) := by
  cases x with
  | fin sg m a =>
    have hclamp : (if e < -8192 then (-8192 : Int) else if 8192 < e then 8192 else e)
        = if e - 1 < -8192 then -8192 else if 8192 < e - 1 then 8192 else e - 1 := by
      split <;> split <;> (try split) <;> (try split) <;> omega
    simp only [scaleNum, hclamp]
  | inf sg => rfl
  | nan g => rfl

/-- A zero or a negative value is below a positive one. -/
theorem numLt_positive {sg : Bool} {m n : Nat} {a b : Int} (hn : 0 < n) (h : sg = true ∨ m = 0) :
    numLt (.fin sg m a) (.fin false n b) = true := by
  have hleft : ∀ q, atUnit q sg m a ≤ 0 := fun q => by
    rcases h with rfl | rfl
    · exact neg_nonpos.2 (Int.natCast_nonneg _)
    · simp [atUnit]
  have hright : ∀ q, 0 < atUnit q false n b := fun q => by
    simp only [atUnit, Bool.false_eq_true, if_false, Nat.shiftLeft_eq]
    exact_mod_cast Nat.mul_pos hn (Nat.two_pow_pos _)
  exact decide_eq_true ((hleft _).trans_lt (hright _))

/-- A scale that reaches a positive value where the one below it does not is within ±8192, and scales a positive value. -/
theorem scale_positive {maxf : Machine.Num} {n : Nat} {b e : Int} (hn : 0 < n)
    (hreach : numLt (scaleNum maxf e) (.fin false n b) = false) (hbelow : numLt (scaleNum maxf (e - 1)) (.fin false n b) = true) :
    ∃ m a, maxf = .fin false m a ∧ 0 < m ∧ -8192 < e ∧ e ≤ 8192 := by
  have hnear : -8192 < e ∧ e ≤ 8192 := by
    by_contra hfar
    rw [scaleNum_beyond (by omega), hbelow] at hreach
    exact absurd hreach (by decide)
  cases maxf with
  | nan g => exact absurd hbelow (by simp [scaleNum, numLt])
  | inf sg => cases sg <;> simp [scaleNum, numLt] at hreach hbelow
  | fin sg m a =>
    by_cases hneg : sg = true ∨ m = 0
    · exact absurd ((numLt_positive hn hneg).symm.trans hreach) (by decide)
    · obtain ⟨hsg, hm⟩ := not_or.1 hneg
      obtain rfl := Bool.eq_false_of_not_eq_true hsg
      exact ⟨m, a, rfl, Nat.pos_of_ne_zero hm, hnear⟩

/-- `leastScale` finds the least scale. -/
theorem leastScale_eq {maxf : Machine.Num} {n : Nat} {b e : Int} (hn : 0 < n)
    (hreach : numLt (scaleNum maxf e) (.fin false n b) = false) (hbelow : numLt (scaleNum maxf (e - 1)) (.fin false n b) = true) :
    leastScale maxf (.fin false n b) = e := by
  obtain ⟨m, a, rfl, hm, hlow, hhigh⟩ := scale_positive hn hreach hbelow
  rw [scaleNum_within (by omega) (by omega), numLt_magnitude] at hbelow
  rw [scaleNum_within (by omega) (by omega), ← Bool.not_eq_true, numLt_magnitude, not_lt] at hreach
  have hcase := least_between hm hn hreach hbelow
  unfold leastScale
  dsimp only
  generalize floorLog n b - floorLog m a = d at hcase ⊢
  rw [scaleNum_within (by omega) (by omega)]
  show (if numLt (.fin false m (a + d)) (.fin false n b) = true then d + 1 else d) = e
  obtain rfl | rfl := hcase
  · exact if_neg fun h => not_lt.2 hreach (numLt_magnitude.1 h)
  · rw [add_sub_cancel_right] at hbelow
    exact if_pos (numLt_magnitude.2 hbelow)

/-- The greatest magnitude is a positive finite value. -/
theorem maxMagnitude_positive {vs : List Machine.Num} {x : Machine.Num} (h : maxMagnitude vs = some x) :
    ∃ n b, x = .fin false n b ∧ 0 < n := by
  have hall : ∀ y, maxMagnitude vs = some y → ∃ n b, y = .fin false n b ∧ 0 < n := by
    refine List.foldlRecOn (motive := fun (o : Option Machine.Num) => ∀ y, o = some y → ∃ n b, y = .fin false n b ∧ 0 < n) vs _
      (fun y hy => nomatch hy) (fun o ho v _ => ?_)
    cases v with
    | nan g => exact ho
    | inf sg => exact ho
    | fin sg man ex =>
      by_cases hman : man = 0
      · simpa only [hman, if_true] using ho
      · have hnew : ∀ y, some (Machine.Num.fin false man ex) = some y → ∃ n b, y = .fin false n b ∧ 0 < n := fun y hy =>
          ⟨man, ex, (Option.some.inj hy).symm, Nat.pos_of_ne_zero hman⟩
        simp only [hman, if_false]
        cases o with
        | none => exact hnew
        | some z =>
          dsimp only
          split
          · exact hnew
          · exact ho
  exact hall x h

/-- Among zeros, infinities and NaNs there is no greatest magnitude. -/
theorem maxMagnitude_none {vs : List Machine.Num} (h : ∀ v ∈ vs, ∀ sg m e, v = .fin sg m e → m = 0) :
    maxMagnitude vs = none := by
  refine List.foldlRecOn (motive := fun (o : Option Machine.Num) => o = none) vs _ rfl (fun o ho v hv => ?_)
  cases v with
  | nan g => exact ho
  | inf sg => exact ho
  | fin sg man ex => exact (if_pos (h _ hv sg man ex rfl)).trans ho

/-! #### The SCALE of STD (05 R178) -/

section
variable {f : NfFmt} {auto : Bool} {vs : List Machine.Num}

theorem stdScale_nan (h : vs ≠ [] ∧ ∀ v ∈ vs, v.isNan = true) : stdScale f auto vs = 255 :=
  if_pos ⟨h.1, List.all_eq_true.2 h.2⟩

/-- Where an element is no NaN, the scale follows the greatest magnitude that AUTO looks for. -/
theorem stdScale_of_max {o : Option Machine.Num} (h : ¬(vs ≠ [] ∧ ∀ v ∈ vs, v.isNan = true))
    (hmax : (if auto then maxMagnitude vs else none) = o) :
    stdScale f auto vs = o.elim 127 (fun m => (clampInt 0 254 (127 + leastScale (nfValue f f.maxCode) m)).toNat) := by
  refine (if_neg fun hnan => h ⟨hnan.1, List.all_eq_true.1 hnan.2⟩).trans ?_
  rw [hmax]
  cases o <;> rfl

theorem stdScale_fixed (h : ¬(vs ≠ [] ∧ ∀ v ∈ vs, v.isNan = true)) (hauto : auto = false) : stdScale f auto vs = 127 :=
  stdScale_of_max (o := none) h (by rw [hauto]; rfl)

theorem stdScale_zeros (h : ¬(vs ≠ [] ∧ ∀ v ∈ vs, v.isNan = true))
    (hzero : ∀ v ∈ vs, ∀ sg m e, v = .fin sg m e → m = 0) :
    stdScale f auto vs = 127 :=
  stdScale_of_max (o := none) h (by rw [maxMagnitude_none hzero, ite_self])

theorem stdScale_least {x : Machine.Num} {e : Int} (h : ¬(vs ≠ [] ∧ ∀ v ∈ vs, v.isNan = true)) (hauto : auto = true)
    (hmax : maxMagnitude vs = some x) (hreach : numLt (scaleNum (nfValue f f.maxCode) e) x = false)
    (hbelow : numLt (scaleNum (nfValue f f.maxCode) (e - 1)) x = true) :
    stdScale f auto vs = (min (max (127 + e) 0) 254).toNat := by
  obtain ⟨n, b, rfl, hn⟩ := maxMagnitude_positive hmax
  have hclamp : clampInt 0 254 (127 + e) = min (max (127 + e) 0) 254 := by
    unfold clampInt
    split
    · omega
    · split <;> omega
  rw [stdScale_of_max h ((if_pos hauto).trans hmax), Option.elim_some, leastScale_eq hn hreach hbelow, hclamp]
end

section
variable {s s1 : State} {w : NOp} {f : Found} {p q : Piece}

/-! #### The line and its descriptor (05 R176, 03 R86) -/

/-- The address of the line, the plane of its descriptors, and the base of the tensor. -/
abbrev lineLa (s : State) (w : NOp) : Nat := (aVal (me s) w true 0).toNat
abbrev linePlane (s : State) (w : NOp) : Nat := (bVal (me s) w true 0 0).toNat
abbrev lineBase (s : State) (w : NOp) : Nat := (cVal (me s) w true 0).toNat

/-- The address of the descriptor. -/
abbrev lineDesc (s : State) (w : NOp) : Nat := (linePlane s w + (lineLa s w - lineBase s w) / 64 * 2) % 2 ^ 64

/-- The line and its descriptor are within bounds and aligned. -/
def lineFits (s : State) (w : NOp) : Bool :=
  decide (lineLa s w < 2 ^ 57) && decide (lineBase s w ≤ lineLa s w) && decide (lineDesc s w < 2 ^ 57) && lineLa s w % 64 == 0
    && lineBase s w % 64 == 0 && linePlane s w % 2 == 0

theorem lineAddrs_opCtx (s : State) (w : NOp) (sp : OpSpec) :
    lineAddrs (opCtx s w sp) (me s) = (lineLa s w, linePlane s w, lineBase s w, lineDesc s w) := by
  unfold lineAddrs
  simp only [srcA_opCtx, srcB_opCtx, srcC_opCtx]

theorem lineCheck_fits {sp : OpSpec} (hfits : lineFits s w = true) : lineCheck (opCtx s w sp) s = none := by
  simp only [lineFits, Bool.and_eq_true, decide_eq_true_eq, beq_iff_eq] at hfits
  obtain ⟨⟨⟨⟨⟨hla, hbase⟩, hdesc⟩, hlaAlign⟩, hbaseAlign⟩, hplane⟩ := hfits
  unfold lineCheck
  rw [lineAddrs_opCtx]
  refine (if_neg ?_).trans (if_neg ?_)
  · simp only [outOfGlobal, Bool.or_eq_true, decide_eq_true_eq]
    omega
  · simp [hlaAlign, hbaseAlign, hplane]

theorem lineAt_found {sp : OpSpec} {a : Acc} {g : Piece → Piece → State → State}
    (hfind : findLanes s s.iss.coach a [(0, lineLa s w), (1, lineDesc s w)] Found.none = (f, s1)) (herr : f.err = none)
    (hbad : f.bad = []) (hok : f.ok = [p, q]) : lineAt (opCtx s w sp) s a g = g p q s1 := by
  unfold lineAt
  simp only [lineAddrs_opCtx, hfind, herr, hbad, hok]

/-! #### LDD (05 R176, R177) -/

/-- The formats of the coach's context. -/
abbrev lineFmts (t : State) (k : Nat) : List Word := (List.range 16).map (fmtReg t (coachOf t k).ctx)

/-- The elements of the line, and the flags of each lane, as LDD delivers them: `c1` is the coach that the translation leaves. -/
abbrev lineValue (t : State) (c1 : Coach) (w : NOp) (bytes : List Byte) (d : Nat) : Nat → Nat → Nat × Flags :=
  elemValue t c1.ctx (lNf4 w) (fTy w) (roundOf c1 w) c1.width bytes d

/-- The flags that LDD raises in each lane. -/
abbrev lineFlags (s : State) (w : NOp) (n : Nat) (val : Nat → Nat → Nat × Flags) (malformed : Bool) : List Mask :=
  laneFlags (enOf s w) (fun l => (List.range n).foldl (fun f j => f ||| (val l j).2) (flagIf malformed flagIV))

/-- The slot of LDD. -/
abbrev describedSlot (s : State) (w : NOp) (n : Nat) (res : Nat → Nat → Word) (fl : List Mask) : Slot :=
  slotFor s w (slotCost (fD w) n) (laneWrites (fD w) n (enOf s w) res) (scalarWrites (fD w) n (enOf s w) res) fl

theorem ldd_reads {t t' : Tbl (List Byte)} {s2 s3 : State} (hdet : isDet s (me s) = false) (hclear : clear s (.ldd w) = true)
    (hq : noQueue w = true) (hfits : lineFits s w = true)
    (hfind : findLanes s s.iss.coach .read [(0, lineLa s w), (1, lineDesc s w)] Found.none = (f, s1)) (herr : f.err = none)
    (hbad : f.bad = []) (hok : f.ok = [p, q]) (hdesc : readPieces s1 s.iss.coach 2 false false [q] [] = (.ok t, s2)) :
    let c1 := coachOf s1 s.iss.coach
    let d := leNat (tgetD [] t q.lane)
    let fmts := lineFmts s1 s.iss.coach
    (if lineReadsData fmts (lNf4 w) d then readPieces s2 s.iss.coach 64 false false [p] [] else (.ok [], s2)) = (.ok t', s3) →
    settled s3 s.iss.coach = true →
    let n := lGroup w c1.width
    let val := lineValue s3 c1 w (tgetD [] t' p.lane) d
    exec (.ldd w) s = .next (slottedAt s3 s.iss (describedSlot s w n (fun l j => BitVec.ofNat 32 (val l j).1)
      (lineFlags s w n val (lineMalformed fmts (lNf4 w) d)))) := by
  intro c1 d fmts hdata hset n val
  simp only [fmts, d] at hdata
  refine exec_of_effect hclear rfl rfl ?_
  simp only [lineCheck_fits hfits, sideOf_outside hdet, lineAddrs_opCtx, loadDescribed, lineAt_found hfind herr hbad hok, hdesc, hdata]
  exact deliverTo_slot rfl (enabled_of_clear hclear rfl) hq hset

/-! #### STD (05 R176-R178) -/

/-- The format that STD stores in. -/
abbrev stdFormat (s : State) (w : NOp) : NfFmt := nfOf (fmtReg s (me s).ctx (field (fX w) 8 5))

/-- The line, the descriptor and the flags of STD. -/
abbrev stdOut (s : State) (w : NOp) : List Byte × Nat × List Mask :=
  stdLine (opCtx s w (lineSpec w (me s).width true)) (me s) (stdFormat s w)

theorem std_writes {bs : List Byte} {d : Nat} {fl : List Mask} (hdet : isDet s (me s) = false) (hclear : clear s (.std w) = true)
    (hfits : lineFits s w = true) (hform : ((stdFormat s w).cont == 1) = lNf4 w) (hshadow : shadowBad (me s) (me s).all = 0)
    (hline : stdOut s w = (bs, d, fl))
    (hfind : findLanes s s.iss.coach .write [(0, lineLa s w), (1, lineDesc s w)] Found.none = (f, s1)) (herr : f.err = none)
    (hbad : f.bad = []) (hok : f.ok = [p, q]) (hdet1 : isDet s1 (me s) = false) :
    let s2 := writePieces s1 s.iss.coach false false [(p, bs), (q, leBytes 2 d)]
    let c2 := coachOf s2 s.iss.coach
    settled s2 s.iss.coach = true → enabledBits c2.fmode fl = 0 → exec (.std w) s = .next { s2 with
      coaches := tput s2.coaches s.iss.coach
        (passLanes { c2 with fstat := c2.fstat ||| BitVec.ofNat 32 (flagWord fl) } s.iss s.iss.group) } := by
  intro s2 c2 hset hquiet
  obtain ⟨hco, hfpe⟩ := settled_spec hset
  have hcont : (((stdFormat s w).cont == 1) != lNf4 w) = false := by rw [hform]; exact bne_self_eq_false _
  refine exec_of_effect hclear rfl rfl ((if_neg (by rw [Bool.not_eq_true]; exact hcont)).trans ?_)
  simp only [lineCheck_fits hfits, lineAddrs_opCtx, shadowStop_none (c := opCtx s w _) hshadow, hline, sideOf_outside hdet,
    ownerStop_none (c := opCtx s w _) hdet, lineAt_found hfind herr hbad hok, claimLines_same hdet1]
  rw [modCoach_of_tget hco, raiseFlags_of_none hquiet]
  exact finishGroup_setCoach hfpe

/-- The elements that STD stores, where a lane is enabled (05 R178). -/
abbrev stdElems (s : State) (w : NOp) : List Machine.Num :=
  ((List.range (if lNf4 w then 128 else 64)).filter (fun i => (enOf s w).getLsbD (i % (me s).width))).map (fun i =>
    (tyFmt (fTy w)).value (fBits (fTy w) ((regWord (me s) (fD w) (i / (me s).width) (i % (me s).width)).setWidth 64)))

/-- The descriptor names SCALE and the format. -/
theorem stdOut_descriptor :
    (stdOut s w).2.1 = stdScale (stdFormat s w) ((fX w).testBit 4) (stdElems s w) * 256 + field (fX w) 8 5 := by
  unfold stdOut stdLine
  simp only [readWord_opCtx]
end

/-- Settles O38: one rule per operation; SCALE by the elements that STD looks at, and by the order of their exact values. -/
theorem describedLines : Obligations.DescribedLines := by
  intro s w f p q s1 hdet k co la plane tbase desc ok
  refine ⟨fun t s2 t' s3 hclear hq hok hfind herr hbad hpq hread => ldd_reads hdet hclear hq hok hfind herr hbad hpq hread,
    fun bs d fl hclear hok hform hshadow hline hfind herr hbad hpq hdet1 =>
      std_writes hdet hclear hok hform hshadow hline hfind herr hbad hpq hdet1, ?_⟩
  intro fx nf value vs auto scaled allNan
  have hscaled : ∀ {sc}, stdScale nf auto vs = sc → scaled sc := fun hsc n _ => by
    rw [← hsc]
    exact stdOut_descriptor
  exact ⟨fun h => hscaled (stdScale_nan h), fun h hauto => hscaled (stdScale_fixed h hauto),
    fun h hzero => hscaled (stdScale_zeros h hzero),
    fun x e h hauto hmax hreach hbelow => hscaled (stdScale_least h hauto hmax hreach hbelow)⟩

end Sys2Proof.Proofs
end

/-! ### Issue of matrix operations (06 R221, R225, R229-R242) -/
section
namespace Sys2Proof.Proofs
open Sys2Proof Sys2Proof.Machine Sys2Proof.Laws

section
variable {s : State} {w : NOp}

/-! #### The tile that an operation names, and its coach's hold of it (06 R221) -/

/-- The key of the tile that the operation names, in its coach's core. -/
abbrev opTile (s : State) (w : NOp) : Nat := tileKey (coreOf (me s)) (xTile w)

/-- The version that the operation names. -/
abbrev opVersion (s : State) (w : NOp) : BitVec 16 := (regWord (me s) (fC w) 0 0).extractLsb' 0 16

/-- The operation's coach holds its tile. -/
abbrev TileHeld (s : State) (w : NOp) : Prop := (tileOf s (opTile s w)).holder = some s.iss.coach

section
variable {i : Instr} {sp : OpSpec} {f : OpCtx → State → Nat → State} (hrow : nativeRow s i = some (w, sp))
  (hrun : exec i s = .next (native w sp (fun c s => heldTile c s (f c s)) s))
include hrow hrun

theorem exec_of_held {t : State} (hheld : TileHeld s w) (hclear : clear s i = true) (h : f (opCtx s w sp) s (opTile s w) = t) :
    exec i s = .next t :=
  exec_of_effect hclear hrow hrun ((heldTile_held hheld).trans h)

theorem passes_of_held {t : State} (hheld : TileHeld s w)
    (h : f (opCtx s w sp) s (opTile s w) = finishGroup (opCtx s w sp) t) : Passes s i t :=
  passes_of_effect hrow hrun ((heldTile_held hheld).trans h)

theorem exec_of_unheld (hfree : ¬ TileHeld s w) (hclear : clear s i = true) :
    exec i s = .next (illegal s (enOf s w) iTile 0xFF) :=
  exec_of_effect hclear hrow hrun (heldTile_unheld hfree)
end

/-! #### Configurations (06 R229-R236) -/

/-- The configuration that MCFG reads from its eight scalars. -/
def mcfgRead (s : State) (w : NOp) : MCfg :=
  let r := fun j => regWord (me s) (fA w) j 0
  { a0 := r 0, a1 := r 1, b0 := r 2, b1 := r 3, planeA := r 4, planeB := r 5, fmtw := r 6, meta_ := r 7 }

/-- The configuration after MMETA: the metadata's base and the sparsity are new. -/
def mmetaChanged (s : State) (w : NOp) (old : MCfg) : MCfg :=
  { old with meta_ := regWord (me s) (fA w) 0 0
             fmtw := BitVec.ofNat 32 (old.fmtw.toNat - field old.fmtw.toNat 17 16 * 65536 + fX w % 4 * 65536) }

/-- The coach with a configuration of its tile. -/
abbrev tileConfigured (s : State) (w : NOp) (c : MCfg) : State :=
  setCoach s s.iss.coach { me s with cfgs := tput (me s).cfgs (xTile w) c }

theorem mcfg_sets (hheld : TileHeld s w) (hok : cfgOk (mcfgRead s w) = true) :
    Passes s (.mcfg w) (tileConfigured s w (mcfgRead s w)) := by
  refine passes_of_held rfl rfl hheld ?_
  simp only [readWord_opCtx]
  exact if_pos hok

theorem mcfg_refused (hheld : TileHeld s w) (hclear : clear s (.mcfg w) = true) (hbad : cfgOk (mcfgRead s w) = false) :
    exec (.mcfg w) s = .next (illegal s (enOf s w) iMdesc 1) := by
  refine exec_of_held rfl rfl hheld hclear ?_
  simp only [readWord_opCtx]
  exact if_neg (by rw [Bool.not_eq_true]; exact hbad)

theorem mmeta_sets {old : MCfg} (hheld : TileHeld s w) (hold : tget (me s).cfgs (xTile w) = some old)
    (hok : cfgOk (mmetaChanged s w old) = true) : Passes s (.mmeta w) (tileConfigured s w (mmetaChanged s w old)) := by
  refine passes_of_held rfl rfl hheld ?_
  simp only [hold, readWord_opCtx]
  exact if_pos hok

/-! #### The queue of a tile (06 R221, R225) -/

/-- The version check accepts the operation. -/
abbrev VersionGood (s : State) (w : NOp) : Prop := checkVersion (tileOf s (opTile s w)) (opVersion s w) = .accept

/-- The operation stands last in its tile's queue, with what it has read; `t` is the state in which it joins. -/
def tileQueued (s t : State) (w : NOp) (kind : MKind) (cfg : MCfg) (ra rb : Tbl Word) : State :=
  setTile t (opTile s w) { tileOf t (opTile s w) with
    queue := (tileOf t (opTile s w)).queue ++ [{ v := (regWord (coachOf t s.iss.coach) (fC w) 0 0).extractLsb' 0 16, kind := kind
                                                 cfg := cfg, fmts := fmtList t (coachOf t s.iss.coach), regA := ra, regB := rb
                                                 coach := s.iss.coach }] }

theorem acceptOp_queued (t : State) (sp : OpSpec) (kind : MKind) (cfg : MCfg) (ra rb : Tbl Word) :
    acceptOp (opCtx s w sp) t (opTile s w) kind cfg ra rb = finishGroup (opCtx s w sp) (tileQueued s t w kind cfg ra rb) := by
  unfold acceptOp
  simp only [xVersion_opCtx]
  rfl

theorem withVersion_illegal {sp : OpSpec} {g : State → State}
    (h : checkVersion (tileOf s (opTile s w)) (opVersion s w) = .illegal) :
    withVersion (opCtx s w sp) s (opTile s w) g = illegal s (enOf s w) iVersion 3 := by
  unfold withVersion
  rw [xVersion_opCtx, h]
  rfl

theorem withVersion_wait {sp : OpSpec} {g : State → State} (hset : settled s s.iss.coach = true)
    (h : checkVersion (tileOf s (opTile s w)) (opVersion s w) = .wait) :
    withVersion (opCtx s w sp) s (opTile s w) g = stalledAt s s (.tileQueue (opTile s w)) := by
  unfold withVersion
  rw [xVersion_opCtx, h]
  exact stallLanes_settled hset _

/-! #### MZERO and MPROM (06 R240) -/

/-- Operation `i` is MZERO or MPROM: it checks its tile's version and joins as `kind`. -/
def SimpleTileOp (w : NOp) (i : Instr) (kind : MKind) : Prop :=
  (i = .mzero w ∧ kind = .zero) ∨ (i = .mprom w ∧ kind = .prom)

section
variable {i : Instr} {kind : MKind} (hop : SimpleTileOp w i kind)
include hop

theorem simpleTileOp_joins (hheld : TileHeld s w) (hgood : VersionGood s w) :
    Passes s i (tileQueued s s w kind MCfg.zero [] []) := by
  obtain ⟨rfl, rfl⟩ | ⟨rfl, rfl⟩ := hop <;>
    exact passes_of_held rfl rfl hheld ((withVersion_accept hgood).trans (acceptOp_queued ..))

theorem simpleTileOp_illegal (hheld : TileHeld s w) (hclear : clear s i = true)
    (h : checkVersion (tileOf s (opTile s w)) (opVersion s w) = .illegal) :
    exec i s = .next (illegal s (enOf s w) iVersion 3) := by
  obtain ⟨rfl, -⟩ | ⟨rfl, -⟩ := hop <;> exact exec_of_held rfl rfl hheld hclear (withVersion_illegal h)

theorem simpleTileOp_waits (hheld : TileHeld s w) (hclear : clear s i = true)
    (h : checkVersion (tileOf s (opTile s w)) (opVersion s w) = .wait) :
    exec i s = .next (stalledAt s s (.tileQueue (opTile s w))) := by
  obtain ⟨rfl, -⟩ | ⟨rfl, -⟩ := hop <;>
    exact exec_of_held rfl rfl hheld hclear (withVersion_wait (settled_of_clear hclear rfl) h)
end

/-! #### MMA and MLOOP (06 R237-R239) -/

/-- An operand is captured at issue, or its rows lie in the window from an aligned offset. -/
def OperandFits (s : State) (src : Bool) (w0 w1 plane : Word) (f n off steps rows : Nat) : Prop :=
  src = true ∨ (off % (if mfNf f then 64 else 32) = 0 ∧ off < 2 ^ 24
    ∧ operandEnd w0 w1 plane (mfNf f) n off steps rows ≤ windowOf s (me s))

/-- Both operands of a multiplication fit, and so does its metadata. -/
def MulFits (s : State) (cfg : MCfg) (offA offB steps rows cols : Nat) : Prop :=
  OperandFits s (descSrc cfg.a0) cfg.a0 cfg.a1 cfg.planeA (cfgFa cfg) (rowBytesA (cfgFa cfg) (cfgSpn cfg)) offA steps rows
  ∧ OperandFits s (descSrc cfg.b0) cfg.b0 cfg.b1 cfg.planeB (cfgFb cfg) (rowBytesB (cfgFa cfg) (cfgSpn cfg)) offB steps cols
  ∧ (cfgSpn cfg = 0 ∨ cfg.meta_.toNat + (steps - 1) * 2048 + (rows - 1) * 32 + 32 ≤ windowOf s (me s))

/-- The lane registers that an operand brings. -/
def operandRegs (co : Coach) (src : Bool) (code n : Nat) : Tbl Word :=
  match src, codeOf code with
  | true, .v j => captureRegs co j n
  | _, _ => []

theorem operandRegs_window (co : Coach) (code n : Nat) : operandRegs co false code n = [] := rfl

section
variable {src : Bool} {w0 w1 plane : Word} {f n off steps rows : Nat} (h : OperandFits s src w0 w1 plane f n off steps rows)
include h

theorem operandFits_aligned : (!src && off % (if mfNf f then 64 else 32) != 0) = false := by
  obtain rfl | ⟨halign, -⟩ := h
  · rfl
  · simp [halign]

theorem operandFits_within : (!src && (decide (2 ^ 24 ≤ off)
    || decide (windowOf s (me s) < operandEnd w0 w1 plane (mfNf f) n off steps rows))) = false := by
  obtain rfl | ⟨-, hoff, hend⟩ := h
  · rfl
  · rw [decide_eq_false (Nat.not_le.2 hoff), decide_eq_false (Nat.not_lt.2 hend), Bool.or_false, Bool.and_false]
end

theorem issueMul_accepts {sp : OpSpec} {cfg : MCfg} {steps rows cols offA offB : Nat} (last : Bool) (hgood : VersionGood s w)
    (hfits : MulFits s cfg offA offB steps rows cols) :
    issueMul (opCtx s w sp) s (opTile s w) cfg steps rows cols offA offB last
      = finishGroup (opCtx s w sp) (tileQueued s s w
        (.mul steps rows cols (if descSrc cfg.a0 then 0 else offA) (if descSrc cfg.b0 then 0 else offB) last) cfg
        (operandRegs (me s) (descSrc cfg.a0) (fA w) (rowBytesA (cfgFa cfg) (cfgSpn cfg)))
        (operandRegs (me s) (descSrc cfg.b0) (fB w) (rowBytesB (cfgFa cfg) (cfgSpn cfg)))) := by
  obtain ⟨hA, hB, hmeta⟩ := hfits
  have hmeta' : ¬ (cfgSpn cfg ≠ 0 ∧ windowOf s (me s) < cfg.meta_.toNat + (steps - 1) * 2048 + (rows - 1) * 32 + 32) := by omega
  unfold issueMul
  refine (withVersion_accept hgood).trans ?_
  simp only [operandFits_aligned hA, operandFits_aligned hB, operandFits_within hA, operandFits_within hB, hmeta',
    Bool.false_eq_true, if_false]
  exact acceptOp_queued ..

theorem mma_joins {cfg : MCfg} (hheld : TileHeld s w) (hcfg : tget (me s).cfgs (xTile w) = some cfg) (hgood : VersionGood s w)
    (hA : operandBad (me s) (descSrc cfg.a0) (fA w) (rowBytesA (cfgFa cfg) (cfgSpn cfg)) = none)
    (hB : operandBad (me s) (descSrc cfg.b0) (fB w) (rowBytesB (cfgFa cfg) (cfgSpn cfg)) = none)
    (hfits : MulFits s cfg (regWord (me s) (fA w) 0 0).toNat (regWord (me s) (fB w) 0 0).toNat 1 64 64) :
    Passes s (.mma w) (tileQueued s s w
      (.mul 1 64 64 (if descSrc cfg.a0 then 0 else (regWord (me s) (fA w) 0 0).toNat)
        (if descSrc cfg.b0 then 0 else (regWord (me s) (fB w) 0 0).toNat) ((fX w).testBit 13)) cfg
      (operandRegs (me s) (descSrc cfg.a0) (fA w) (rowBytesA (cfgFa cfg) (cfgSpn cfg)))
      (operandRegs (me s) (descSrc cfg.b0) (fB w) (rowBytesB (cfgFa cfg) (cfgSpn cfg)))) := by
  refine passes_of_held rfl rfl hheld ?_
  simp only [hcfg, hA, hB, readWord_opCtx]
  exact issueMul_accepts _ hgood hfits

/-- The loop that MLOOP reads is within its limits: 1 to 65,535 steps of 1 to 64 rows and columns. -/
def LoopOk (n : Nat) (shape : Word) : Prop :=
  1 ≤ n ∧ n ≤ 65535 ∧ 1 ≤ field shape.toNat 6 0 ∧ field shape.toNat 6 0 ≤ 64 ∧ 1 ≤ field shape.toNat 14 8
  ∧ field shape.toNat 14 8 ≤ 64 ∧ shape.getLsbD 7 = false ∧ field shape.toNat 31 15 = 0

theorem mloop_joins {cfg : MCfg} (hheld : TileHeld s w) (hcfg : tget (me s).cfgs (xTile w) = some cfg) (hgood : VersionGood s w)
    (ha : descSrc cfg.a0 = false) (hb : descSrc cfg.b0 = false)
    (hloop : LoopOk (regWord (me s) (fA w) 2 0).toNat (regWord (me s) (fA w) 3 0))
    (hfits : MulFits s cfg (regWord (me s) (fA w) 0 0).toNat (regWord (me s) (fA w) 1 0).toNat (regWord (me s) (fA w) 2 0).toNat
      (field (regWord (me s) (fA w) 3 0).toNat 6 0) (field (regWord (me s) (fA w) 3 0).toNat 14 8)) :
    Passes s (.mloop w) (tileQueued s s w
      (.mul (regWord (me s) (fA w) 2 0).toNat (field (regWord (me s) (fA w) 3 0).toNat 6 0)
        (field (regWord (me s) (fA w) 3 0).toNat 14 8) (regWord (me s) (fA w) 0 0).toNat (regWord (me s) (fA w) 1 0).toNat true)
      cfg [] []) := by
  obtain ⟨hn, hnmax, hrows, hrowsMax, hcols, hcolsMax, hbit, hhigh⟩ := hloop
  have hA : (regWord (me s) (fA w) 0 0).toNat < 2 ^ 24 := by
    obtain ⟨hA | ⟨-, hA, -⟩, -⟩ := hfits
    · exact absurd (ha.symm.trans hA) (by decide)
    · exact hA
  have hB : (regWord (me s) (fA w) 1 0).toNat < 2 ^ 24 := by
    obtain ⟨-, hB | ⟨-, hB, -⟩, -⟩ := hfits
    · exact absurd (hb.symm.trans hB) (by decide)
    · exact hB
  refine passes_of_held rfl rfl hheld ?_
  simp only [hcfg, readWord_opCtx]
  refine (if_neg ?_).trans ((issueMul_accepts true hgood hfits).trans ?_)
  · have hbit' : bitOf (regWord (me s) (fA w) 3 0).toNat 7 = false := hbit
    have hcount : ¬ ((regWord (me s) (fA w) 2 0).toNat = 0 ∨ 65535 < (regWord (me s) (fA w) 2 0).toNat) := by omega
    simpa [ha, hb, hcount, hbit', hhigh, hrowsMax, hcolsMax, Nat.ne_of_gt hrows, Nat.ne_of_gt hcols] using And.intro hA hB
  · simp only [ha, hb, operandRegs_window, Bool.false_eq_true, if_false]

/-! #### MLDA and MSTA (06 R241, R242) -/

/-- The registers of a block of 8 columns. -/
abbrev blockRegs (s : State) : Nat := 8 * (64 / (me s).width)

theorem withGroup_fits {sp : OpSpec} {n code : Nat} {g : State → State} (halign : code % blockRegs s = 0)
    (hroom : code + blockRegs s ≤ (me s).nregs) : withGroup (opCtx s w sp) s n code g = g s := by
  unfold withGroup
  split
  · rfl
  · exact (if_neg (not_not_intro halign)).trans (if_neg (Nat.not_lt.2 hroom))

theorem withGroup_memory {sp : OpSpec} {n code : Nat} {g : State → State} (hform : mForm w ≠ 2) :
    withGroup (opCtx s w sp) s n code g = g s := if_pos hform

/-- The block that MLDA.REG captures, in the columns where it goes. -/
abbrev mldaBlock (s : State) (w : NOp) : Tbl Word := (captureBlock (me s) (fA w)).map (fun e => (e.1 + 8 * mCb w, e.2))

/-- The slot that waits for the block of MSTA.REG. -/
abbrev mstaSlot (s : State) (w : NOp) : Slot :=
  { slotFor s w ((blockRegs s + 3) / 4) [] [] noFlags with
    lanes := (me s).all, tile := some (opTile s w, (opVersion s w).toNat) }

theorem mlda_block (hheld : TileHeld s w) (hgood : VersionGood s w) (hform : mForm w = 2) (halign : fA w % blockRegs s = 0)
    (hroom : fA w + blockRegs s ≤ (me s).nregs) :
    Passes s (.mlda w) (tileQueued s s w (.ldR (mCb w) (mldaBlock s w)) MCfg.zero [] []) := by
  refine passes_of_held rfl rfl hheld ((withGroup_fits halign hroom).trans ((withVersion_accept hgood).trans ?_))
  exact (if_pos hform).trans (acceptOp_queued ..)

theorem msta_block (hheld : TileHeld s w) (hgood : VersionGood s w) (hform : mForm w = 2) (halign : fD w % blockRegs s = 0)
    (hroom : fD w + blockRegs s ≤ (me s).nregs) :
    Passes s (.msta w) (tileQueued s (setCoach s s.iss.coach (addSlot (me s) (mstaSlot s w))) w (.stR (mCb w)) MCfg.zero [] []) := by
  refine passes_of_held rfl rfl hheld ((withGroup_fits halign hroom).trans ((withVersion_accept hgood).trans ?_))
  refine (if_pos hform).trans ?_
  simp only [xVersion_opCtx]
  exact acceptOp_queued ..

/-- The global address of the first row. -/
abbrev moveVa (s : State) (w : NOp) : Nat := (aVal (me s) w true 0).toNat
/-- The offset of the first row in the window. -/
abbrev moveOff (s : State) (w : NOp) : Nat := (aVal (me s) w false 0).toNat
/-- The distance between two rows. -/
abbrev movePitch (s : State) (w : NOp) : Nat := (bVal (me s) w false 0 0).toNat

section
variable (hpitch : movePitch s w % 4 = 0)
include hpitch

theorem moveMemory_window {sp : OpSpec} (store : Bool) (hform : mForm w = 1) (hoff : moveOff s w % 4 = 0)
    (hend : moveOff s w + 63 * movePitch s w + 256 ≤ windowOf s (me s)) :
    moveMemory (opCtx s w sp) s (opTile s w) store = finishGroup (opCtx s w sp) (tileQueued s s w
      (if store then .stS (moveOff s w) (movePitch s w) else .ldS (moveOff s w) (movePitch s w)) MCfg.zero [] []) := by
  have hwindow : (mForm w == 0) = false := by rw [hform]; rfl
  unfold moveMemory
  simp only [hwindow, srcA_opCtx, srcB_opCtx, hoff, hpitch, Nat.not_lt.2 hend, Bool.false_eq_true, ne_eq, not_true_eq_false, if_false]
  exact acceptOp_queued ..

theorem moveMemory_global {sp : OpSpec} {pages : List (Nat × Nat × Dword)} {s1 : State} (store : Bool) (hform : mForm w = 0)
    (hva : moveVa s w % 4 = 0) (hend : moveVa s w + 63 * movePitch s w + 256 ≤ 2 ^ 57) (hdet : isDet s (me s) = false)
    (hpages : pagesXlate s s.iss.coach (if store then .write else .read) (footprintPages (moveVa s w) (movePitch s w)) []
      = (.ok pages, s1)) (hclaim : store = true → isDet s1 (me s) = false) :
    moveMemory (opCtx s w sp) s (opTile s w) store = finishGroup (opCtx s w sp) (tileQueued s s1 w
      (if store then .stG (moveVa s w) (movePitch s w) pages else .ldG (moveVa s w) (movePitch s w) pages) MCfg.zero [] []) := by
  have hglobal : (mForm w == 0) = true := by rw [hform]; rfl
  unfold moveMemory
  simp only [hglobal, srcA_opCtx, srcB_opCtx, hva, hpitch, Nat.not_lt.2 hend, hdet, ownerStop_none (c := opCtx s w sp) hdet,
    hpages, Bool.false_and, Bool.false_eq_true, ne_eq, not_true_eq_false, if_false, if_true]
  cases store with
  | false => exact acceptOp_queued ..
  | true =>
    simp only [if_true, claimLines_same (hclaim rfl)]
    exact acceptOp_queued ..
end

/-- Operation `i` is MLDA or MSTA; `store` says which. -/
def MoveOp (w : NOp) (i : Instr) (store : Bool) : Prop := (i = .mlda w ∧ store = false) ∨ (i = .msta w ∧ store = true)

theorem move_passes {i : Instr} {store : Bool} {t : State} (hop : MoveOp w i store) (hheld : TileHeld s w) (hgood : VersionGood s w)
    (hform : mForm w ≠ 2)
    (h : ∀ sp, moveMemory (opCtx s w sp) s (opTile s w) store = finishGroup (opCtx s w sp) t) : Passes s i t := by
  obtain ⟨rfl, rfl⟩ | ⟨rfl, rfl⟩ := hop
  all_goals
    refine passes_of_held rfl rfl hheld ((withGroup_memory hform).trans ((withVersion_accept hgood).trans ?_))
    exact (if_neg hform).trans (h _)
end

/-- Settles O43: one rule per operation, from its tile's hold, its version, and what it reads. -/
theorem matrixIssue : Obligations.MatrixIssue := by
  intro s w k co tk v r cfgNew configured joined good fits1 fitsAll captured g goff loff pitch block slot
  refine ⟨fun hheld => ⟨mcfg_sets hheld, mcfg_refused hheld, fun old hold => mmeta_sets hheld hold,
    fun hgood => ⟨simpleTileOp_joins (.inl ⟨rfl, rfl⟩) hheld hgood, simpleTileOp_joins (.inr ⟨rfl, rfl⟩) hheld hgood⟩, ?simple,
    fun cfg hcfg hgood hA hB hfits => mma_joins hheld hcfg hgood hA hB hfits,
    fun cfg hcfg hgood ha hb hn hnmax hrows hrowsMax hcols hcolsMax hbit hhigh hfits =>
      mloop_joins hheld hcfg hgood ha hb ⟨hn, hnmax, hrows, hrowsMax, hcols, hcolsMax, hbit, hhigh⟩ hfits,
    fun hform hgood => ⟨mlda_block hheld hgood hform, msta_block hheld hgood hform⟩, ?window, ?global⟩, ?unheld⟩
  case simple =>
    rintro i (rfl | rfl) hclear
    · exact ⟨simpleTileOp_illegal (.inl ⟨rfl, rfl⟩) hheld hclear, simpleTileOp_waits (.inl ⟨rfl, rfl⟩) hheld hclear⟩
    · exact ⟨simpleTileOp_illegal (.inr ⟨rfl, rfl⟩) hheld hclear, simpleTileOp_waits (.inr ⟨rfl, rfl⟩) hheld hclear⟩
  case window =>
    intro hform hgood hoff hpitch hend
    have hmemory : mForm w ≠ 2 := by omega
    exact ⟨move_passes (.inl ⟨rfl, rfl⟩) hheld hgood hmemory fun _ => moveMemory_window hpitch false hform hoff hend,
      move_passes (.inr ⟨rfl, rfl⟩) hheld hgood hmemory fun _ => moveMemory_window hpitch true hform hoff hend⟩
  case global =>
    intro pages s1 hform hgood hva hpitch hend hdet
    have hmemory : mForm w ≠ 2 := by omega
    exact ⟨fun hpages => move_passes (.inl ⟨rfl, rfl⟩) hheld hgood hmemory fun _ =>
        moveMemory_global hpitch false hform hva hend hdet hpages (fun h => nomatch h),
      fun hpages hdet1 => move_passes (.inr ⟨rfl, rfl⟩) hheld hgood hmemory fun _ =>
        moveMemory_global hpitch true hform hva hend hdet hpages (fun _ => hdet1)⟩
  case unheld =>
    intro hfree
    simp only [List.forall_mem_cons]
    exact ⟨exec_of_unheld rfl rfl hfree, exec_of_unheld rfl rfl hfree, exec_of_unheld rfl rfl hfree, exec_of_unheld rfl rfl hfree,
      exec_of_unheld rfl rfl hfree, exec_of_unheld rfl rfl hfree, exec_of_unheld rfl rfl hfree, exec_of_unheld rfl rfl hfree,
      fun _ hnone => absurd hnone List.not_mem_nil⟩

end Sys2Proof.Proofs
end

/-! ### Tile versions, and the steps of the matrix engine (06 R222-R227, R238, R243) -/
section
namespace Sys2Proof.Proofs
open Sys2Proof Sys2Proof.Machine Sys2Proof.Laws

section
variable {s : State} {w : NOp}

/-- The tile that the operation names. -/
abbrev tileNamed (s : State) (w : NOp) : Tile := tileOf s (opTile s w)

/-! #### MVER.READ, MVER.REL and MVER.WAIT (06 R226, R243) -/

theorem mverRead_reads (hheld : TileHeld s w) (hclear : clear s (.mverRead w) = true) (hq : noQueue w = true) :
    GivesLong s (.mverRead w) w false (fun _ => ((tileNamed s w).ver.setWidth 64, 0)) :=
  exec_of_held rfl rfl hheld hclear
    (deliverTo_slot rfl (enabled_of_clear hclear rfl) hq (settled_of_clear hclear rfl))

theorem mverRel_releases (hheld : TileHeld s w) (hcur : (tileNamed s w).cur = none) (hqueue : (tileNamed s w).queue = []) :
    Passes s (.mverRel w) (releaseTile s s.iss.coach (xTile w)) :=
  passes_of_held rfl rfl hheld (if_pos (by rw [hcur, hqueue]; rfl))

theorem mverRel_sleeps (hheld : TileHeld s w) (hclear : clear s (.mverRel w) = true)
    (hbusy : (tileNamed s w).cur ≠ none ∨ (tileNamed s w).queue ≠ []) :
    exec (.mverRel w) s = .next (sleptAt s s w (.release (xTile w))) := by
  refine exec_of_held rfl rfl hheld hclear ((if_neg ?_).trans (sleepIn_settled (settled_of_clear hclear rfl)))
  rw [Bool.and_eq_true, Option.isNone_iff_eq_none, List.isEmpty_iff]
  exact not_and_or.2 hbusy

theorem mverWait_passes (hheld : TileHeld s w) (hreached : ((tileNamed s w).ver - opVersion s w).toNat < 2 ^ 15) :
    Passes s (.mverWait w) s := by
  refine passes_of_held rfl rfl hheld ?_
  simp only [xVersion_opCtx]
  exact if_pos (decide_eq_true hreached)

section
variable (hheld : TileHeld s w) (hclear : clear s (.mverWait w) = true)
  (hahead : 2 ^ 15 ≤ ((tileNamed s w).ver - opVersion s w).toNat)
include hheld hclear hahead

theorem mverWait_sleeps (hbusy : (tileNamed s w).idle = false) :
    exec (.mverWait w) s = .next (sleptAt s s w (.version (xTile w) (opVersion s w))) := by
  have hpassed : versionPassed (tileNamed s w) (opVersion s w) = false := decide_eq_false (Nat.not_lt.2 hahead)
  refine exec_of_held rfl rfl hheld hclear ?_
  simp only [xVersion_opCtx, hpassed, hbusy, Bool.false_eq_true, if_false]
  exact sleepIn_settled (settled_of_clear hclear rfl)

theorem mverWait_traps (hidle : (tileNamed s w).idle = true) :
    exec (.mverWait w) s = .next (raiseTrap s s.iss.coach
      (opTrap s.iss 1 iVersion (enOf s w) (enOf s w) (versionArea s (opTile s w)))) := by
  have hpassed : versionPassed (tileNamed s w) (opVersion s w) = false := decide_eq_false (Nat.not_lt.2 hahead)
  refine exec_of_held rfl rfl hheld hclear ?_
  simp only [xVersion_opCtx, hpassed, hidle, Bool.false_eq_true, if_false, if_true]
  rfl
end

/-! #### MVER.ACQ (06 R222, R243) -/

/-- The other tiles that the operation's coach holds. -/
abbrev otherTiles (s : State) (w : NOp) : List Nat := (heldTiles s s.iss.coach).filter (· != opTile s w)

/-- The tile once its coach holds it: zero after another context, and undefined otherwise (log 6). -/
def tileGranted (s : State) (w : NOp) : State :=
  let taken := { tileNamed s w with holder := some s.iss.coach, queue := [], cur := none }
  if (tileNamed s w).lastCtx.isSome ∧ (tileNamed s w).lastCtx ≠ some (me s).ctx then
    setTile s (opTile s w) { taken with t := [], p := [], steps := [], undef := none }
  else undefTile (setTile s (opTile s w) taken) (opTile s w)

/-- The coach that holds a new tile has no configuration of it yet. -/
def tileAcquired (s : State) (w : NOp) : State :=
  modCoach (tileGranted s w) s.iss.coach (fun co => { co with cfgs := tdel co.cfgs (xTile w) })

theorem loOf_setWidth_version (v : BitVec 16) : loOf (v.setWidth 64) = v.setWidth 32 := by
  apply BitVec.eq_of_toNat_eq
  simp [loOf]

theorem mverAcq_refused (hclear : clear s (.mverAcq w) = true) (hfull : 2 ≤ (otherTiles s w).length) :
    exec (.mverAcq w) s = .next (illegal s (enOf s w) iTile 0xFF) :=
  exec_of_effect hclear rfl rfl (if_pos hfull)

section
variable (hclear : clear s (.mverAcq w) = true) (hq : noQueue w = true) (hroom : (otherTiles s w).length < 2)
include hclear hq hroom

theorem mverAcq_holds (hheld : TileHeld s w) :
    Gives s (.mverAcq w) w false (fun _ => (tileNamed s w).ver.setWidth 64) := by
  obtain ⟨co', hrun, hres⟩ := deliver_plain (wide := false) (fun _ => (tileNamed s w).ver.setWidth 64) hclear rfl rfl hq
  exact ⟨_, co', exec_of_effect hclear rfl rfl ((if_neg (Nat.not_le.2 hroom)).trans ((if_pos hheld).trans hrun)), hres⟩

theorem mverAcq_taken (hother : ¬ TileHeld s w) (hheld : (tileNamed s w).holder ≠ none) :
    Gives s (.mverAcq w) w false (fun _ => 0xFFFFFFFF) := by
  obtain ⟨co', hrun, hres⟩ := deliver_plain (wide := false) (fun _ => 0xFFFFFFFF) hclear rfl rfl hq
  refine ⟨_, co', exec_of_effect hclear rfl rfl ((if_neg (Nat.not_le.2 hroom)).trans ((if_neg hother).trans ?_)), hres⟩
  exact (if_pos (Option.isSome_iff_ne_none.2 hheld)).trans hrun

theorem mverAcq_grants (hfree : (tileNamed s w).holder = none) (hset : settled (tileAcquired s w) s.iss.coach = true) :
    exec (.mverAcq w) s = .next (writtenAt s (tileAcquired s w) w 1 (fun _ _ => (tileNamed s w).ver.setWidth 32)) := by
  have hother : ¬ TileHeld s w := fun h => Option.some_ne_none _ (h.symm.trans hfree)
  have hnone : ¬ (tileNamed s w).holder.isSome = true := by rw [hfree]; decide
  refine exec_of_effect hclear rfl rfl ((if_neg (Nat.not_le.2 hroom)).trans ((if_neg hother).trans ((if_neg hnone).trans ?_)))
  refine (deliver_written (f := fun _ => (tileNamed s w).ver.setWidth 64) rfl hq hset).trans (written_one fun _ => loOf_setWidth_version _)
end
end

/-! #### The engine's steps (06 R224, R227, R238) -/

theorem startOp_sound {s : State} {tk : Nat} (o : MOp) (h : s.upsets.contains (.tile tk) = false) :
    startOp s tk o = engineOp s tk o := if_pos (by rw [h]; rfl)

theorem startOp_upset {s : State} {tk : Nat} (o : MOp) (h : s.upsets.contains (.tile tk) = true) :
    startOp s tk o = if readsTile o.kind then tileError s tk
      else engineOp { s with upsets := s.upsets.filter (· != .tile tk) } tk o := if_neg (by rw [h]; decide)

section
variable {s : State} {core i n : Nat} {o : MOp} (hnext : nextTile s core = some i)
  (hcur : (tileOf s (tileKey core i)).cur = some (o, n))
include hnext hcur

theorem kStep_upset (hupset : s.upsets.contains (.tile (tileKey core i)) = true) :
    exec (.kStep core) s = .next (tileError s (tileKey core i)) := by
  show execKStep core s = _
  unfold execKStep
  simp only [hnext, hcur, hupset, if_true]

theorem kStep_steps {r : Rake} {es : List El} (hrake : tget s.rakes (coachOf s o.coach).rake = some r)
    (hsound : s.upsets.contains (.tile (tileKey core i)) = false)
    (hstep : Machine.kStep r o n (tileEls (tileOf s (tileKey core i))) = some es) : exec (.kStep core) s
      = .next (setTile { s with lastTile := tput s.lastTile core i } (tileKey core i)
          { setEls (tileOf s (tileKey core i)) es with cur := some (o, n + 1) }) := by
  show execKStep core s = _
  unfold execKStep
  simp only [hnext, hcur, hsound, hrake, hstep, Bool.false_eq_true, if_false]
end

/-- VER has advanced past the operation in progress, and the slot that waited for it has returned. -/
def opRetired (s : State) (tk : Nat) (o : MOp) : State :=
  modCoach (setTile s tk { tileOf s tk with cur := none, ver := (tileOf s tk).ver + 1 }) o.coach (fun co =>
    { co with rbuf := co.rbuf.map (fun sl => if sl.tile = some (tk, o.v.toNat) then { sl with returned := true } else sl) })

theorem matrixOpComplete_advances {s : State} {tk n : Nat} {o : MOp} (hcur : (tileOf s tk).cur = some (o, n))
    (hdone : opDone (tileOf s tk) = true) (hruns : engineRuns s o.coach = true) :
    exec (.matrixOpComplete tk) s = .next (checkCoach (wakeReady (opRetired s tk o) o.coach) o.coach) := by
  show execMatrixOpComplete tk s = _
  unfold execMatrixOpComplete
  simp only [hcur, hdone, hruns, Bool.and_self, if_true]
  rfl

/-- Settles O44: one rule per version operation, with the cases of its tile, and one per step of the engine. -/
theorem matrixVersions : Obligations.MatrixVersions := by
  refine ⟨?ops, ?start, ?step, fun s tk n o => matrixOpComplete_advances⟩
  case ops =>
    intro s w k co tk t v room taken s1 s2
    refine ⟨fun hq => ⟨fun hclear hheld => mverRead_reads hheld hclear hq,
        fun hclear hroom => mverAcq_holds hclear hq (of_decide_eq_true hroom),
        fun hclear hroom => mverAcq_taken hclear hq (of_decide_eq_true hroom),
        fun hclear hroom => mverAcq_grants hclear hq (of_decide_eq_true hroom)⟩,
      fun hclear hfull => mverAcq_refused hclear (Nat.not_lt.1 (of_decide_eq_false hfull)),
      mverRel_releases, fun hclear hheld => mverRel_sleeps hheld hclear, mverWait_passes,
      fun hclear hheld => mverWait_sleeps hheld hclear, fun hclear hheld => mverWait_traps hheld hclear, ?_⟩
    rintro hfree i (rfl | rfl | rfl) <;> exact exec_of_unheld rfl rfl hfree
  case start =>
    intro s tk o hcur hnext hruns s1
    have hrun : exec (.matrixOpStart tk) s = .next (startOp s1 tk o) := matrixOpStart_starts hcur hnext hruns
    exact ⟨fun hsound => hrun.trans (congrArg _ (startOp_sound o hsound)),
      fun hupset => hrun.trans (congrArg _ (startOp_upset o hupset))⟩
  case step =>
    exact fun s core i n o r es hnext hcur hrake => ⟨kStep_upset hnext hcur, kStep_steps hnext hcur hrake⟩

end Sys2Proof.Proofs
end

/-! ### The words of the drays (07 R255-R257, R261-R289) -/
section
namespace Sys2Proof.Proofs
open Sys2Proof

/-! #### Fields of a word -/

/-- A field of a word of any width, from its bits. -/
theorem field_eq_of_getLsbD {m n k : Nat} {x : BitVec m} {f : BitVec n} (h : ∀ i < n, x.getLsbD (k + i) = f.getLsbD i) :
    x.extractLsb' k n = f := by
  apply BitVec.eq_of_getLsbD_eq
  intro i hi
  simp [hi, h i hi]

/-- A field and the one below it, side by side, are one field. -/
theorem append_field {n k m l : Nat} {w : BitVec n} {x : BitVec l} (hx : x = w.extractLsb' (k + m) l) :
    x ++ w.extractLsb' k m = w.extractLsb' k (l + m) := by
  rw [hx]
  exact BitVec.extractLsb'_append_extractLsb'_eq_extractLsb' rfl

/-- The bits of a field that is zero are zero. -/
theorem field_zero_of_within {n k l : Nat} {w : BitVec n} (hz : w.extractLsb' k l = 0) {j m : Nat} (hlo : k ≤ j) (hhi : j + m ≤ k + l) :
    w.extractLsb' j m = 0 := by
  refine field_eq_of_getLsbD fun i hi => ?_
  have hbit := congrArg (fun x => x.getLsbD (j - k + i)) hz
  simpa [show j - k + i < l by omega, show k + (j - k + i) = j + i by omega] using hbit

section
variable (opc : BitVec 6) (rd ra rb : BitVec 4) (imm : BitVec 14)

theorem dOpc_drayWord : dOpc (drayWord opc rd ra rb imm) = opc.toNat := by
  refine congrArg BitVec.toNat (field_eq_of_getLsbD fun i hi => ?_)
  simp only [drayWord, BitVec.getLsbD_append]
  grind

theorem rdField_drayWord {k n : Nat} (hlo : 22 ≤ k) (hhi : k + n ≤ 26) :
    (drayWord opc rd ra rb imm).extractLsb' k n = rd.extractLsb' (k - 22) n := by
  simp (disch := omega) only [drayWord, BitVec.extractLsb'_append_eq_of_le, BitVec.extractLsb'_append_eq_of_add_le, Nat.sub_sub]

theorem raField_drayWord {k n : Nat} (hlo : 18 ≤ k) (hhi : k + n ≤ 22) :
    (drayWord opc rd ra rb imm).extractLsb' k n = ra.extractLsb' (k - 18) n := by
  simp (disch := omega) only [drayWord, BitVec.extractLsb'_append_eq_of_le, BitVec.extractLsb'_append_eq_of_add_le, Nat.sub_sub]

theorem immField_drayWord {k n : Nat} (h : k + n ≤ 14) : (drayWord opc rd ra rb imm).extractLsb' k n = imm.extractLsb' k n :=
  BitVec.extractLsb'_append_eq_of_add_le h

theorem dRd_drayWord : dRd (drayWord opc rd ra rb imm) = rd :=
  (rdField_drayWord opc rd ra rb imm (by omega) (by omega)).trans BitVec.extractLsb'_eq_self

theorem dRa_drayWord : dRa (drayWord opc rd ra rb imm) = ra :=
  (raField_drayWord opc rd ra rb imm (by omega) (by omega)).trans BitVec.extractLsb'_eq_self

theorem dRb_drayWord : dRb (drayWord opc rd ra rb imm) = rb := by
  refine field_eq_of_getLsbD fun i hi => ?_
  simp only [drayWord, BitVec.getLsbD_append]
  grind

theorem dImm_drayWord : dImm (drayWord opc rd ra rb imm) = imm :=
  (immField_drayWord opc rd ra rb imm (by omega)).trans BitVec.extractLsb'_eq_self

end

/-- A word is its opcode, its three register fields and its immediate (07 R255). -/
theorem drayWord_fields_self (w : BitVec 32) : drayWord (w.extractLsb' 26 6) (dRd w) (dRa w) (dRb w) (dImm w) = w := by
  apply BitVec.eq_of_getLsbD_eq
  intro i hi
  simp only [drayWord, dRd, dRa, dRb, dImm, BitVec.getLsbD_append, BitVec.getLsbD_extractLsb']
  grind

theorem drayWord_of_fields {w : BitVec 32} {opc : BitVec 6} {rd ra rb : BitVec 4} {imm : BitVec 14} (hopc : dOpc w = opc.toNat)
    (hrd : rd = dRd w) (hra : ra = dRa w) (hrb : rb = dRb w) (himm : imm = dImm w) : drayWord opc rd ra rb imm = w := by
  have hopc' : opc = w.extractLsb' 26 6 := (BitVec.eq_of_toNat_eq hopc).symm
  rw [hrd, hra, hrb, himm, hopc', drayWord_fields_self]

/-- A field above the low part of a word is one of its high part. -/
theorem field_above {v w k n : Nat} {x : BitVec v} {y : BitVec w} (h : w ≤ k) :
    (x ++ y).extractLsb' k n = x.extractLsb' (k - w) n := BitVec.extractLsb'_append_eq_of_le h

/-! #### The shapes of register fields and immediates -/

theorem generatorField (x y : BitVec 2) : (x ++ y : BitVec 4).extractLsb' 2 2 = x ∧ (x ++ y : BitVec 4).extractLsb' 0 2 = y :=
  ⟨BitVec.extractLsb'_append_eq_left, BitVec.extractLsb'_append_eq_right⟩

theorem accessImm (z : BitVec 2) (p : BitVec 1) (o : BitVec 11) : (z ++ p ++ o : BitVec 14).extractLsb' 12 2 = z
    ∧ (z ++ p ++ o : BitVec 14).extractLsb' 11 1 = p ∧ (z ++ p ++ o : BitVec 14).extractLsb' 0 11 = o :=
  ⟨(field_above (by decide)).trans BitVec.extractLsb'_append_eq_left,
    (field_above (by decide)).trans BitVec.extractLsb'_append_eq_right, BitVec.extractLsb'_append_eq_right⟩

theorem gsetImm (s : BitVec 1) (o : BitVec 13) : (s ++ o : BitVec 14).extractLsb' 13 1 = s ∧ (s ++ o : BitVec 14).extractLsb' 0 13 = o :=
  ⟨BitVec.extractLsb'_append_eq_left, BitVec.extractLsb'_append_eq_right⟩

theorem gadvImm (x : BitVec 13) (r : BitVec 1) : (x ++ r : BitVec 14).extractLsb' 1 13 = x ∧ (x ++ r : BitVec 14).extractLsb' 0 1 = r :=
  ⟨BitVec.extractLsb'_append_eq_left, BitVec.extractLsb'_append_eq_right⟩

theorem xferImm (m : BitVec 3) (f : BitVec 4) (u : BitVec 1) (c : BitVec 6) : (m ++ f ++ u ++ c : BitVec 14).extractLsb' 11 3 = m
    ∧ (m ++ f ++ u ++ c : BitVec 14).extractLsb' 7 4 = f ∧ (m ++ f ++ u ++ c : BitVec 14).extractLsb' 6 1 = u
    ∧ (m ++ f ++ u ++ c : BitVec 14).extractLsb' 0 6 = c :=
  ⟨(field_above (by decide)).trans ((field_above (by decide)).trans BitVec.extractLsb'_append_eq_left),
    (field_above (by decide)).trans ((field_above (by decide)).trans BitVec.extractLsb'_append_eq_right),
    (field_above (by decide)).trans BitVec.extractLsb'_append_eq_right, BitVec.extractLsb'_append_eq_right⟩

theorem rowsImm (x : BitVec 12) (t : BitVec 2) : (x ++ t : BitVec 14).extractLsb' 2 12 = x ∧ (x ++ t : BitVec 14).extractLsb' 0 2 = t :=
  ⟨BitVec.extractLsb'_append_eq_left, BitVec.extractLsb'_append_eq_right⟩

theorem arriveImm (c : BitVec 10) (k : BitVec 4) : (c ++ k : BitVec 14).extractLsb' 4 10 = c ∧ (c ++ k : BitVec 14).extractLsb' 0 4 = k :=
  ⟨BitVec.extractLsb'_append_eq_left, BitVec.extractLsb'_append_eq_right⟩

theorem scopeImm (x : BitVec 9) (s : BitVec 2) (g : BitVec 3) : (x ++ s ++ g : BitVec 14).extractLsb' 5 9 = x
    ∧ (x ++ s ++ g : BitVec 14).extractLsb' 3 2 = s ∧ (x ++ s ++ g : BitVec 14).extractLsb' 0 3 = g :=
  ⟨(field_above (by decide)).trans BitVec.extractLsb'_append_eq_left,
    (field_above (by decide)).trans BitVec.extractLsb'_append_eq_right, BitVec.extractLsb'_append_eq_right⟩

theorem fenceImm (x : BitVec 6) (s : BitVec 2) (g o : BitVec 3) : (x ++ s ++ g ++ o : BitVec 14).extractLsb' 8 6 = x
    ∧ (x ++ s ++ g ++ o : BitVec 14).extractLsb' 6 2 = s ∧ (x ++ s ++ g ++ o : BitVec 14).extractLsb' 3 3 = g
    ∧ (x ++ s ++ g ++ o : BitVec 14).extractLsb' 0 3 = o :=
  ⟨(field_above (by decide)).trans ((field_above (by decide)).trans BitVec.extractLsb'_append_eq_left),
    (field_above (by decide)).trans ((field_above (by decide)).trans BitVec.extractLsb'_append_eq_right),
    (field_above (by decide)).trans BitVec.extractLsb'_append_eq_right, BitVec.extractLsb'_append_eq_right⟩

theorem optImm (x : BitVec 4) (c m : BitVec 1) (n : BitVec 8) : (x ++ c ++ m ++ n : BitVec 14).extractLsb' 10 4 = x
    ∧ (x ++ c ++ m ++ n : BitVec 14).extractLsb' 9 1 = c ∧ (x ++ c ++ m ++ n : BitVec 14).extractLsb' 8 1 = m
    ∧ (x ++ c ++ m ++ n : BitVec 14).extractLsb' 0 8 = n :=
  ⟨(field_above (by decide)).trans ((field_above (by decide)).trans BitVec.extractLsb'_append_eq_left),
    (field_above (by decide)).trans ((field_above (by decide)).trans BitVec.extractLsb'_append_eq_right),
    (field_above (by decide)).trans BitVec.extractLsb'_append_eq_right, BitVec.extractLsb'_append_eq_right⟩

/-- What DFENCE reserves reaches over the register fields (07 R287). -/
theorem fenceReserved (opc : BitVec 6) (s : BitVec 2) (g o : BitVec 3) :
    (drayWord opc 0#4 0#4 0#4 (0#6 ++ s ++ g ++ o)).extractLsb' 8 18 = 0#18 := by
  refine field_eq_of_getLsbD fun i hi => ?_
  simp only [drayWord, BitVec.getLsbD_append]
  grind

/-- What STAT reserves reaches over two of the register fields (07 R289). -/
theorem statReserved (opc : BitVec 6) (d s : BitVec 4) : (drayWord opc d 0#4 0#4 (0#10 ++ s)).extractLsb' 4 18 = 0#18 := by
  refine field_eq_of_getLsbD fun i hi => ?_
  simp only [drayWord, BitVec.getLsbD_append]
  grind

/-! #### Encode and decode -/

theorem decodeJmp_drayJmpIndirect {l a : BitVec 4} (ha : a ≠ 0) :
    decodeJmp (drayWord 0x14 l a 0 0) = .drayJmpIndirect l a := by
  rw [decodeJmp, dRa_drayWord, if_neg ha, dRd_drayWord, dImm_drayWord]
  rfl

theorem decodeJmp_drayJmpLink {l : BitVec 4} (hl : l ≠ 0) (i : BitVec 14) :
    decodeJmp (drayWord 0x14 l 0 0 i) = .drayJmpLink l i := by
  rw [decodeJmp, dRa_drayWord, if_pos rfl, dRd_drayWord, if_neg hl, dImm_drayWord]

theorem decodeJmp_drayJmp (i : BitVec 14) : decodeJmp (drayWord 0x14 0 0 0 i) = .drayJmp i := by
  rw [decodeJmp, dRa_drayWord, if_pos rfl, dRd_drayWord, if_pos rfl, dImm_drayWord]

theorem decodeDray_jmp {rd ra : BitVec 4} {imm : BitVec 14} :
    decodeDray (drayWord 0x14 rd ra 0 imm) = decodeJmp (drayWord 0x14 rd ra 0 imm) := by
  simp [decodeDray, dWhen, dOpc_drayWord, dRb_drayWord]

/-- The word of a well-formed dray instruction decodes to it: the opcode by the map of 07 R256, and each field by its place. -/
theorem decodeDray_drayOf {i : Instr} {w : BitVec 32} (hwf : i.wf = true) (hof : drayOf i = some w)
    (hill : ∀ x, i = .drayIllegal x → decodeDray x = .drayIllegal x) : decodeDray w = i := by
  cases i with
  | drayIllegal x =>
    cases hof
    exact hill w rfl
  | drayHalt => cases hof; rfl
  | drayJmp i => cases hof; exact decodeDray_jmp.trans (decodeJmp_drayJmp i)
  | drayJmpLink l i => cases hof; exact decodeDray_jmp.trans (decodeJmp_drayJmpLink (bne_iff_ne.1 hwf) i)
  | drayJmpIndirect l a => cases hof; exact decodeDray_jmp.trans (decodeJmp_drayJmpIndirect (bne_iff_ne.1 hwf))
  | _ =>
    cases hof <;>
    simp (disch := omega) [decodeDray, dWhen, dOpc_drayWord, dRd_drayWord, dRa_drayWord, dRb_drayWord, dImm_drayWord,
      immField_drayWord, rdField_drayWord, raField_drayWord, fenceReserved, statReserved,
      generatorField, accessImm, gsetImm, gadvImm, xferImm, rowsImm, arriveImm, scopeImm, fenceImm, optImm]

theorem drayOf_dWhen {w : BitVec 32} {z : Bool} {i : Instr} (h : z = true → drayOf i = some w) : drayOf (dWhen w z i) = some w := by
  unfold dWhen
  split
  · exact h ‹_›
  · rfl

theorem drayOf_decodeJmp {w : BitVec 32} (hopc : dOpc w = 0x14) (hrb : dRb w = 0) : drayOf (decodeJmp w) = some w := by
  unfold decodeJmp
  split
  · next hra =>
    split
    · next hrd => exact congrArg some (drayWord_of_fields hopc hrd.symm hra.symm hrb.symm rfl)
    · exact congrArg some (drayWord_of_fields hopc rfl hra.symm hrb.symm rfl)
  · exact drayOf_dWhen fun hz => congrArg some (drayWord_of_fields hopc rfl rfl hrb.symm (eq_of_beq hz).symm)

/-- Every word is that of the instruction it decodes to. -/
theorem drayOf_decodeDray (w : BitVec 32) : drayOf (decodeDray w) = some w := by
  unfold decodeDray
  split
  case h_37 => rfl
  all_goals 
    refine drayOf_dWhen fun hz => ?_
    simp only [Bool.and_eq_true, beq_iff_eq] at hz
  case h_21 h => exact drayOf_decodeJmp h hz
  all_goals refine congrArg some ?_
  case h_1 h => exact hz.symm
  case h_2 h | h_3 h | h_4 h | h_5 h | h_6 h | h_7 h | h_8 h | h_9 h | h_10 h | h_11 h =>
    exact drayWord_of_fields h rfl rfl rfl hz.symm
  case h_12 h | h_14 h | h_23 h => exact drayWord_of_fields h rfl rfl hz.symm rfl
  case h_13 h => exact drayWord_of_fields h rfl hz.1.symm hz.2.symm rfl
  case h_15 h | h_16 h => exact drayWord_of_fields h rfl rfl hz.symm (append_field (append_field rfl))
  case h_17 h | h_18 h | h_19 h | h_20 h => exact drayWord_of_fields h hz.symm rfl rfl rfl
  case h_22 h | h_33 h => exact drayWord_of_fields h hz.1.symm rfl hz.2.symm rfl
  case h_24 h => exact drayWord_of_fields h (append_field hz.2.symm) rfl hz.1.symm (append_field rfl)
  case h_25 h =>
    obtain ⟨⟨hrb, hrd⟩, himm⟩ := hz
    exact drayWord_of_fields h (append_field hrd.symm) rfl hrb.symm (append_field himm.symm)
  case h_26 h =>
    exact drayWord_of_fields h (append_field hz.1.symm) (append_field hz.2.symm) rfl (append_field (append_field (append_field rfl)))
  case h_27 h | h_28 h =>
    obtain ⟨⟨hrd, hra⟩, himm⟩ := hz
    exact drayWord_of_fields h (append_field hrd.symm) (append_field hra.symm) rfl (append_field himm.symm)
  case h_29 h => exact drayWord_of_fields h (append_field hz.1.symm) rfl rfl (append_field hz.2.symm)
  case h_30 h => exact drayWord_of_fields h hz.1.symm rfl hz.2.symm (append_field rfl)
  case h_31 h =>
    obtain ⟨⟨hrd, hrb⟩, himm⟩ := hz
    exact drayWord_of_fields h hrd.symm rfl hrb.symm (append_field (append_field himm.symm))
  case h_32 h => exact drayWord_of_fields h hz.1.symm rfl rfl (append_field (append_field hz.2.symm))
  case h_34 h =>
    exact drayWord_of_fields h (field_zero_of_within hz (by decide) (by decide)).symm (field_zero_of_within hz (by decide) (by decide)).symm
      (field_zero_of_within hz (by decide) (by decide)).symm
      (append_field (append_field (append_field (field_zero_of_within hz (by decide) (by decide)).symm)))
  case h_35 h =>
    exact drayWord_of_fields h rfl (field_zero_of_within hz (by decide) (by decide)).symm
      (field_zero_of_within hz (by decide) (by decide)).symm (append_field (field_zero_of_within hz (by decide) (by decide)).symm)
  case h_36 h =>
    obtain ⟨⟨hrd, hrb⟩, himm⟩ := hz
    exact drayWord_of_fields h hrd.symm rfl hrb.symm (append_field (append_field (append_field himm.symm)))

theorem dWhen_wf {w : BitVec 32} {z : Bool} {i : Instr} (h : i.wf = true) : (dWhen w z i).wf = true := by
  unfold dWhen
  split
  · exact h
  · rfl

theorem decodeJmp_wf (w : BitVec 32) : (decodeJmp w).wf = true := by
  unfold decodeJmp
  split
  · split
    · rfl
    · exact bne_iff_ne.2 ‹_›
  · exact dWhen_wf (bne_iff_ne.2 ‹_›)

theorem decodeDray_wf (w : BitVec 32) : (decodeDray w).wf = true := by
  unfold decodeDray
  split
  case h_21 => exact dWhen_wf (decodeJmp_wf w)
  case h_37 => rfl
  all_goals exact dWhen_wf rfl

/-- Settles O15: decoding is a left inverse of encoding field by field, and every word is that of the instruction it decodes to. -/
theorem drayRoundTrip : Obligations.DrayRoundTrip := by
  refine ⟨fun i w => decodeDray_drayOf, fun w hnone => ?_⟩
  obtain ⟨x, hx⟩ := hnone _ (decodeDray_wf w) (drayOf_decodeDray w)
  have hword := drayOf_decodeDray w
  rw [hx] at hword ⊢
  rw [Option.some.inj hword]

end Sys2Proof.Proofs
end

/-! ### The issue of a dray instruction (07 R249, R250, R281, R290) -/
section
namespace Sys2Proof.Proofs
open Sys2Proof Sys2Proof.Machine Sys2Proof.Laws

section
variable {s : State}

/-- A context that is ready issues. -/
theorem next_drayOp {f : Nat → Dray → State} (hready : drayReady (dray s) = true) {t : State} (ht : f s.dcur (dray s) = t) :
    (.next (drayOp s f) : Out) = .next t := congrArg Host.Outcome.next ((if_pos hready).trans ht)

theorem drayReady_of_drayClear (hclear : drayClear s = true) : drayReady (dray s) = true := (Bool.and_eq_true_iff.1 hclear).1

theorem data_of_drayClear (hclear : drayClear s = true) : (dray s).data = none :=
  Option.isNone_iff_eq_none.1 (Bool.and_eq_true_iff.1 hclear).2

/-- With no data operation in progress it runs what waits for the end of one. -/
theorem next_drayIdleOp {f : State → Nat → Dray → State} (hclear : drayClear s = true) {t : State} (ht : f s s.dcur (dray s) = t) :
    (.next (drayIdleOp s f) : Out) = .next t :=
  next_drayOp (drayReady_of_drayClear hclear) ((if_neg (by rw [data_of_drayClear hclear]; decide)).trans ht)

/-- With one in progress it waits. -/
theorem next_drayIdleOp_of_data {f : State → Nat → Dray → State} (hready : drayReady (dray s) = true)
    (hdata : (dray s).data ≠ none) :
    (.next (drayIdleOp s f) : Out) = .next (drayDrains s s.dcur) :=
  next_drayOp hready (if_pos (Option.isSome_iff_ne_none.2 hdata))

theorem drayFail_of_none {dk code : Nat} (hdata : (Machine.drayOf s dk).data = none) : drayFail s dk code = drayFault s dk code :=
  if_neg (by rw [hdata]; decide)

theorem drayFail_of_data {dk code : Nat} (hdata : (Machine.drayOf s dk).data ≠ none) : drayFail s dk code = drayDrains s dk :=
  if_pos (Option.isSome_iff_ne_none.2 hdata)

theorem drayFault_of_none {dk code : Nat} (hdata : (Machine.drayOf s dk).data = none) : drayFault s dk code = stopDray s dk 5 code := by
  unfold drayFault
  dsimp only
  rw [hdata]

/-- A check of an instruction that fails, with nothing in progress. -/
theorem drayFail_of_clear (hclear : drayClear s = true) (code : Nat) : drayFail s s.dcur code = drayFault s s.dcur code :=
  drayFail_of_none (data_of_drayClear hclear)

end

/-! ### Registers, register and immediate arithmetic, ARG (07 R249, R261-R263) -/

theorem dget_zero (x : Dray) : dget x 0 = 0 := rfl

theorem dset_zero (x : Dray) (v : Dword) : dset x 0 v = x := rfl

theorem dget_dset_same (x : Dray) {r : BitVec 4} (hr : r ≠ 0) (v : Dword) : dget (dset x r v) r = v := by
  rw [dset, if_neg hr, dget, if_neg hr, tgetD_tset, if_pos rfl]

theorem dget_dset_other (x : Dray) {q r : BitVec 4} (hq : q ≠ r) (v : Dword) : dget (dset x r v) q = dget x q := by
  have hkey : ¬ r.toNat = q.toNat := fun h => hq (BitVec.eq_of_toNat_eq h).symm
  unfold dset
  split
  · rfl
  · simp only [dget, tgetD_tset, if_neg hkey]

section
variable {s : State} {d a b : BitVec 4} (hready : drayReady (dray s) = true)
include hready

/-- An instruction on two registers writes its value to D and goes on. -/
theorem next_drayReg (f : Dword → Dword → Dword) {v : Dword} (hv : f (dget (dray s) a) (dget (dray s) b) = v) :
    (.next (drayReg d a b f s) : Out) = .next (drayAfter s (dset (dray s) d v)) :=
  next_drayOp hready (by rw [hv]; rfl)

end

theorem shiftLeft_of_bound (x y : Dword) : (if 64 ≤ y.toNat then 0 else x <<< y.toNat) = x <<< y.toNat := by
  split
  · rw [BitVec.shiftLeft_eq_zero ‹_›]; rfl
  · rfl

theorem shiftRight_of_bound (x y : Dword) : (if 64 ≤ y.toNat then 0 else x >>> y.toNat) = x >>> y.toNat := by
  split
  · rw [BitVec.ushiftRight_eq_zero ‹_›]; rfl
  · rfl

theorem min_of_slt (x y : Dword) : (if x.slt y then x else y) = if x.toInt ≤ y.toInt then x else y := by
  have heq := @BitVec.eq_of_toInt_eq 64 x y
  simp only [BitVec.slt, decide_eq_true_eq]
  grind

theorem max_of_slt (x y : Dword) : (if x.slt y then y else x) = if y.toInt ≤ x.toInt then x else y := by
  simp only [BitVec.slt, decide_eq_true_eq]
  grind

/-- Settles O22: each instruction by the register and the program counter that it writes, ARG by its two checks. -/
theorem drayArithmetic : Obligations.DrayArithmetic := by
  refine ⟨fun x r q v => ⟨dget_zero x, dset_zero x v, fun hr => dget_dset_same x hr v, fun hq => dget_dset_other x hq v⟩, ?_⟩
  intro s d a b i hready x y to_ arg word
  refine ⟨next_drayReg hready _ rfl, next_drayReg hready _ rfl, next_drayReg hready _ rfl, next_drayReg hready _ rfl,
    next_drayReg hready _ rfl, next_drayReg hready _ rfl, next_drayReg hready _ (shiftLeft_of_bound x y),
    next_drayReg hready _ (shiftRight_of_bound x y), next_drayReg hready _ (min_of_slt x y), next_drayReg hready _ (max_of_slt x y),
    next_drayOp hready rfl, next_drayOp hready rfl, next_drayOp hready rfl, fun halign hwithin => ?_, fun halign => ?_,
    fun halign hbeyond => ?_⟩
  · exact next_drayOp hready ((if_neg (not_not.2 halign)).trans (if_neg (Nat.not_lt.2 hwithin)))
  · exact next_drayOp hready (if_pos halign)
  · exact next_drayOp hready ((if_neg (not_not.2 halign)).trans (if_pos hbeyond))

end Sys2Proof.Proofs
end

/-! ### Branches, LOOP, jumps, HALT, and what a fault leaves (07 R253, R254, R258, R265-R268, R281, R290) -/
section
namespace Sys2Proof.Proofs
open Sys2Proof Sys2Proof.Machine Sys2Proof.Laws

section
variable {s : State} (hready : drayReady (dray s) = true)
include hready

/-- A branch goes to its target or on. -/
theorem next_drayBranch {a b : BitVec 4} {i : BitVec 14} {f : Dword → Dword → Bool} {t : Bool}
    (ht : f (dget (dray s) a) (dget (dray s) b) = t) :
    (.next (drayBranch a b i f s) : Out)
      = .next (drayBecomes s { dray s with pc := if t then drayTo (dray s).pc i else (dray s).pc + 4 }) := by
  refine next_drayOp hready ?_
  rw [ht]
  cases t <;> rfl

theorem exec_drayIllegal (w : BitVec 32) : exec (.drayIllegal w) s = .next (drayFail s s.dcur 0x01) := next_drayOp hready rfl

end

theorem extractLsb'_zero_eq_setWidth (x : Dword) : x.extractLsb' 0 57 = x.setWidth 57 :=
  (BitVec.setWidth_eq_extractLsb' (by decide)).symm

theorem bge_of_slt (x y : Dword) : (!x.slt y) = decide (y.toInt ≤ x.toInt) := by
  rw [BitVec.slt, ← decide_not, decide_eq_decide.2 Int.not_lt]

@[simp] theorem dset_pc (x : Dray) (r : BitVec 4) (v : Dword) : (dset x r v).pc = x.pc := by
  unfold dset
  split <;> rfl

/-- A flag of the status word (07 R253) is set, or nothing is. -/
theorem flag_eq (x : Dray) (bit : Nat) (on : Bool) :
    x.flag bit on = { x with bits := x.bits ||| if on then BitVec.ofNat 20 (2 ^ bit) else 0 } := by
  cases on with
  | false => exact congrArg (fun b => { x with bits := b }) BitVec.or_zero.symm
  | true => rfl

/-- LATEH (07 R268): the promise that the context holds has passed. -/
theorem latehBits (p : Option Nat) (n : Nat) :
    (if (match p with | some c => decide (c < n) | none => false) then BitVec.ofNat 20 (2 ^ 19) else 0)
      = (match p with | some c => if c < n then 0x80000#20 else 0 | none => 0) := by
  cases p with
  | none => rfl
  | some c => exact if_congr decide_eq_true_iff rfl rfl

/-- Settles O23: the instructions of control by their cases, and the stop of a context by what its record becomes. -/
theorem drayControl : Obligations.DrayControl := by
  refine ⟨?control, ?stop, ?fail, ?busy, ?illegal⟩
  case control =>
    intro s l a b i hready d x y to_ branch
    refine ⟨next_drayBranch hready rfl, next_drayBranch hready rfl, next_drayBranch hready rfl, next_drayBranch hready (bge_of_slt x y),
      next_drayOp hready rfl, next_drayOp hready rfl, fun hlow => next_drayOp hready ?_, fun hhigh => next_drayOp hready (if_pos hhigh),
      fun ha => next_drayOp hready ((if_neg ha).trans ?_), fun ha => next_drayOp hready (if_pos ha), fun hdata => ?_⟩
    · exact (if_neg (Nat.not_le.2 hlow)).trans (by rw [extractLsb'_zero_eq_setWidth]; rfl)
    · simp only [Dray.next, dset_pc]
      split <;> rfl
    · refine next_drayIdleOp (Bool.and_eq_true_iff.2 ⟨hready, Option.isNone_iff_eq_none.2 hdata⟩) ?_
      have hbits := latehBits (dray s).promise (drayCycles s s.dcur)
      exact congrArg (fun y => stopDray (setDray s s.dcur y) s.dcur 4 0)
        ((flag_eq _ _ _).trans (congrArg (fun b => { dray s with bits := (dray s).bits ||| b }) hbits))
  case stop =>
    intro s dk st code htlw
    rw [stopDray_dray s dk st code htlw]
    exact ⟨rfl, rfl, rfl, rfl, rfl, rfl, rfl, rfl, rfl, rfl, rfl, rfl, rfl⟩
  case fail =>
    exact fun s dk code => ⟨fun hdata => (drayFail_of_none hdata).trans (drayFault_of_none hdata), drayFail_of_data⟩
  case busy =>
    intro s i a b z p m o g x o3 k8 c10 sc f3 c6 hready hdata hi
    simp only [List.mem_cons, List.not_mem_nil, or_false] at hi
    rcases hi with rfl | rfl | rfl | rfl | rfl | rfl | rfl | rfl | rfl | rfl | rfl | rfl | rfl | rfl
    all_goals exact next_drayIdleOp_of_data hready hdata
  case illegal =>
    intro s w hready
    refine ⟨fun hdata => ?_, fun hdata => ?_⟩
    · rw [exec_drayIllegal hready, drayFail_of_none hdata, drayFault_of_none hdata]
    · rw [exec_drayIllegal hready, drayFail_of_data hdata]
      rfl

end Sys2Proof.Proofs
end

/-! ### Loads and stores of words, arrivals, generators and options (07 R264, R272, R273, R282, R283) -/
section
namespace Sys2Proof.Proofs
open Sys2Proof Sys2Proof.Machine Sys2Proof.Laws

/-- An access that meets nothing goes on with what it read. -/
theorem drayEnd_ok {α : Type} {dk : Nat} {g : DGot α} {f : α → State → State} {v : α} {t : State} (hg : g = .ok v t) :
    drayEnd dk g f = f v t := by
  rw [hg]
  rfl

/-- The sign of a word read is that of its 32 bits. -/
theorem ofNat_wrapNat_sext (n : Nat) : BitVec.ofNat 64 (wrapNat 64 (sext 32 n)) = (BitVec.ofNat 32 n).signExtend 64 := by
  have hsext : sext 32 n = (BitVec.ofNat 32 n).toInt := by
    rw [← sext_toNat 32 (by decide), BitVec.toNat_ofNat, sext, sext, Nat.mod_mod]
  rw [hsext, wrapNat_eq, BitVec.ofNat_toNat, BitVec.setWidth_eq, BitVec.signExtend]

theorem storeSize_legal {z : BitVec 2} (hz : z.toNat < 2) : ¬ (z = 2 ∨ z = 3) := by
  rintro (rfl | rfl) <;> exact absurd hz (by decide)

theorem storeSize_illegal {z : BitVec 2} (hz : 2 ≤ z.toNat) : z = 2 ∨ z = 3 := by
  have hcases : ∀ y : BitVec 2, 2 ≤ y.toNat → y = 2 ∨ y = 3 := by decide
  exact hcases z hz

/-- GADV and OPT: the form that resets names no register. -/
theorem resets_legal {r : BitVec 1} {a : BitVec 4} (h : r = 0 ∨ a = 0) : ¬ (r = 1 ∧ a ≠ 0) := by
  rintro ⟨rfl, ha⟩
  exact h.elim (by decide) ha

theorem optBit (k : Nat) : BitVec.ofNat 7 (2 ^ k) = 1#7 <<< k := by
  apply BitVec.eq_of_toNat_eq
  simp [Nat.shiftLeft_eq]

section
variable {s : State} (hclear : drayClear s = true)
include hclear

/-- A check that fails before anything happens. -/
theorem next_drayFault {f : State → Nat → Dray → State} {code : Nat} (hf : f s s.dcur (dray s) = drayFail s s.dcur code) :
    (.next (drayIdleOp s f) : Out) = .next (drayFault s s.dcur code) :=
  next_drayIdleOp hclear (hf.trans (drayFail_of_clear hclear code))

section
variable {d a : BitVec 4} {z : BitVec 2} {p : BitVec 1} {o : BitVec 11}

theorem drayLdw_loads {bs : List Byte} {s1 : State} (hz : z ≠ 3) (halign : drayAddr (dray s) a o % drayBytes z = 0)
    (hwithin : drayBeyond s (dray s) p.toNat (drayAddr (dray s) a o) (drayBytes z) = false)
    (hread : drayRead s s.dcur p.toNat (drayAddr (dray s) a o) (drayBytes z) = .ok bs s1) :
    exec (.drayLdw d a z p o) s = .next (setDray s1 s.dcur { Machine.drayOf s1 s.dcur with
      pc := (Machine.drayOf s1 s.dcur).pc + 4
      load := some (d.toNat, if z = 2 then (BitVec.ofNat 32 (leNat bs)).signExtend 64 else BitVec.ofNat 64 (leNat bs)) }) := by
  refine next_drayIdleOp hclear ((if_neg hz).trans ((if_neg (not_not.2 halign)).trans ((if_neg (ne_true_of_eq_false hwithin)).trans
    ((drayEnd_ok hread).trans ?_))))
  dsimp only
  rw [ofNat_wrapNat_sext]
  rfl

theorem drayStw_stores {t : DPut} {s1 : State} (hz : z.toNat < 2) (halign : drayAddr (dray s) a o % drayBytes z = 0)
    (hwithin : drayBeyond s (dray s) p.toNat (drayAddr (dray s) a o) (drayBytes z) = false)
    (htarget : drayTarget s s.dcur p.toNat (drayAddr (dray s) a o) (drayBytes z) = .ok t s1) :
    let s2 := drayWrite s1 s.dcur t (leBytes (drayBytes z) (dget (dray s) d).toNat)
    exec (.drayStw d a z p o) s
      = .next (setDray s2 s.dcur { Machine.drayOf s2 s.dcur with pc := (Machine.drayOf s2 s.dcur).pc + 4 }) :=
  next_drayIdleOp hclear ((if_neg (storeSize_legal hz)).trans ((if_neg (not_not.2 halign)).trans
    ((if_neg (ne_true_of_eq_false hwithin)).trans (drayEnd_ok htarget))))

end

section
variable {n : BitVec 2} {a : BitVec 4} {r : BitVec 1} {o : BitVec 13} {bs : List Byte} {s1 : State}
  (halign : ((dget (dray s) a).toNat + 64 * o.toNat) % 2 ^ 64 % 64 = 0)
  (hwithin : drayBeyond s (dray s) r.toNat (((dget (dray s) a).toNat + 64 * o.toNat) % 2 ^ 64) 64 = false)
  (hread : drayRead s s.dcur r.toNat (((dget (dray s) a).toNat + 64 * o.toNat) % 2 ^ 64) 64 = .ok bs s1)
include halign hwithin hread

/-- GSET reads its descriptor and takes it or not. -/
theorem drayGset_reads : exec (.drayGset n a r o) s = .next (match genOfBytes bs with
    | some g => setDray s1 s.dcur { (Machine.drayOf s1 s.dcur).next with loadGen := some (n.toNat, g) }
    | none => drayFail s1 s.dcur fcGdesc) :=
  next_drayIdleOp hclear ((if_neg (not_not.2 halign)).trans ((if_neg (ne_true_of_eq_false hwithin)).trans (drayEnd_ok hread)))

end

section
variable {n : BitVec 2} {a : BitVec 4} {r : BitVec 1}

theorem drayGadv_moves {g : Gen} (hlegal : ¬ (r = 1 ∧ a ≠ 0)) (hgen : genOf (dray s) n.toNat = some g) {p : Nat}
    (hp : (if r = 1 then 0 else if g.pos + (dget (dray s) a).toNat < g.length then g.pos + (dget (dray s) a).toNat else g.length) = p) :
    exec (.drayGadv n a r) s
      = .next (drayAfter s { dray s with gens := tput (dray s).gens n.toNat { g with pos := p } }) := by
  refine next_drayIdleOp hclear ((if_neg hlegal).trans ?_)
  rw [hgen]
  dsimp only
  rw [hp]
  rfl

theorem drayGadv_faults (hlegal : ¬ (r = 1 ∧ a ≠ 0)) (hgen : genOf (dray s) n.toNat = none) :
    exec (.drayGadv n a r) s = .next (drayFault s s.dcur 0x02) := by
  refine next_drayFault hclear ((if_neg hlegal).trans ?_)
  rw [hgen]
  rfl

end

section
variable {a : BitVec 4} {c m : BitVec 1} {k : BitVec 8}

theorem drayOpt_sets (hk : k.toNat ≤ 6) (hc : c = 0) (hok : optOk k.toNat (dget (dray s) a).toNat = true) :
    exec (.drayOpt a c m k) s = .next (drayAfter s { dray s with
      opts := tput (dray s).opts k.toNat (dget (dray s) a)
      optM := if m = 1 then (dray s).optM ||| 1#7 <<< k.toNat else (dray s).optM &&& ~~~(1#7 <<< k.toNat) }) := by
  subst hc
  rw [← optBit]
  exact next_drayIdleOp hclear ((if_neg (by simp)).trans ((if_neg (Nat.not_lt.2 hk)).trans ((if_neg (by decide)).trans
    (if_neg (by rw [hok]; decide)))))

theorem drayOpt_clears (hk : k.toNat ≤ 6) (hc : c = 1) (ha : a = 0) : exec (.drayOpt a c m k) s = .next (drayAfter s { dray s with
      opts := tdel (dray s).opts k.toNat, optM := (dray s).optM &&& ~~~(1#7 <<< k.toNat) }) := by
  rw [← optBit]
  exact next_drayIdleOp hclear ((if_neg (by simp [ha])).trans ((if_neg (Nat.not_lt.2 hk)).trans (if_pos hc)))

theorem drayOpt_beyond (hc : c = 0) (hk : k.toNat ≤ 6) (hok : optOk k.toNat (dget (dray s) a).toNat = false) :
    exec (.drayOpt a c m k) s = .next (drayFault s s.dcur 0x09) := by
  subst hc
  exact next_drayFault hclear ((if_neg (by simp)).trans ((if_neg (Nat.not_lt.2 hk)).trans ((if_neg (by decide)).trans
    (if_pos (by rw [hok]; rfl)))))

theorem drayOpt_unknown (hk : 7 ≤ k.toNat) (hlegal : ¬ (c = 1 ∧ a ≠ 0)) (hm : m = 0) :
    exec (.drayOpt a c m k) s = .next (drayAfter s { dray s with bits := (dray s).bits ||| 0x10000 }) := by
  subst hm
  exact next_drayIdleOp hclear ((if_neg hlegal).trans ((if_pos hk).trans (if_neg (by decide))))

end
end

theorem dset_loadGen (x : Dray) (r : BitVec 4) (v : Dword) : (dset x r v).loadGen = x.loadGen := by
  unfold dset
  split <;> rfl

/-- A loaded value arrives in its register, and a loaded generator in its place. -/
theorem drayLoadResult_register {s : State} {dk r : Nat} {v : Dword} (hload : (Machine.drayOf s dk).load = some (r, v))
    (hgen : (Machine.drayOf s dk).loadGen = none) : exec (.drayLoadResult dk) s
      = .next (setDray s dk { dset (Machine.drayOf s dk) (BitVec.ofNat 4 r) v with load := none }) := by
  show execDrayLoadResult dk s = _
  unfold execDrayLoadResult
  simp [hload, dset_loadGen, hgen]

theorem drayLoadResult_generator {s : State} {dk n : Nat} {g : Gen} (hload : (Machine.drayOf s dk).load = none)
    (hgen : (Machine.drayOf s dk).loadGen = some (n, g)) : exec (.drayLoadResult dk) s = .next (setDray s dk
      { Machine.drayOf s dk with gens := tput (Machine.drayOf s dk).gens n g, loadGen := none }) := by
  show execDrayLoadResult dk s = _
  unfold execDrayLoadResult
  simp [hload, hgen]

/-- Settles O24: each instruction by its checks in order, and each arrival by what is on its way. -/
theorem drayMemory : Obligations.DrayMemory := by
  refine ⟨?words, fun s dk => ⟨fun r v => drayLoadResult_register, fun n g => drayLoadResult_generator⟩, ?generators⟩
  case words =>
    intro s d a z p o hclear n at_ value
    refine ⟨fun bs s1 => drayLdw_loads hclear, fun hz halign => ?_, fun hz halign hbeyond => ?_,
      fun hz => next_drayFault hclear (if_pos hz), fun t s1 => drayStw_stores hclear, fun hz halign hbeyond => ?_,
      fun hz => next_drayFault hclear (if_pos (storeSize_illegal hz)), fun hz halign => ?_⟩
    · exact next_drayFault hclear ((if_neg hz).trans (if_pos halign))
    · exact next_drayFault hclear ((if_neg hz).trans ((if_neg (not_not.2 halign)).trans (if_pos hbeyond)))
    · exact next_drayFault hclear ((if_neg (storeSize_legal hz)).trans ((if_neg (not_not.2 halign)).trans (if_pos hbeyond)))
    · exact next_drayFault hclear ((if_neg (storeSize_legal hz)).trans (if_pos halign))
  case generators =>
    intro s n a r c m o k hclear d x at_
    refine ⟨fun bs g s1 halign hwithin hread hgen => ?_, fun halign => next_drayFault hclear (if_pos halign),
      fun halign hbeyond => ?_, fun bs s1 halign hwithin hread hgen => ?_, fun hr ha => next_drayFault hclear (if_pos ⟨hr, ha⟩),
      fun g hgen hr => drayGadv_moves hclear (resets_legal (.inl hr)) hgen ?_,
      fun g hgen hr ha => drayGadv_moves hclear (resets_legal (.inr ha)) hgen (if_pos hr),
      fun hgen hlegal => drayGadv_faults hclear (resets_legal hlegal) hgen, drayOpt_sets hclear, drayOpt_clears hclear,
      fun hk hc => drayOpt_beyond hclear hc hk, fun hc ha => next_drayFault hclear (if_pos ⟨hc, ha⟩),
      fun hk hlegal hm => next_drayFault hclear ((if_neg (resets_legal hlegal)).trans ((if_pos hk).trans (if_pos hm))),
      fun hk hlegal => drayOpt_unknown hclear hk (resets_legal hlegal)⟩
    · rw [drayGset_reads hclear halign hwithin hread, hgen]; rfl
    · exact next_drayFault hclear ((if_neg (not_not.2 halign)).trans (if_pos hbeyond))
    · rw [drayGset_reads hclear halign hwithin hread, hgen]; rfl
    · rw [if_neg (by simp [hr])]
      show _ = min (g.pos + (dget (dray s) a).toNat) g.length
      split <;> omega
end Sys2Proof.Proofs
end

/-! ### Barriers, timelines, fences, promises and STAT (05 R199, 07 R284-R289) -/
section
namespace Sys2Proof.Proofs
open Sys2Proof Sys2Proof.Machine Sys2Proof.Laws

section
variable {s : State} (hclear : drayClear s = true)
include hclear

section
variable {a k : BitVec 4} {c : BitVec 10}

theorem drayArrive_none (hn : (dget (dray s) a).toNat + c.toNat = 0) :
    exec (.drayArrive a c k) s = .next (drayBecomes s (dray s).next) :=
  next_drayIdleOp hclear ((if_neg (by omega)).trans (if_pos hn))

theorem drayArrive_arrives (hpos : 0 < (dget (dray s) a).toNat + c.toNat) (hlow : (dget (dray s) a).toNat + c.toNat < 2 ^ 24)
    (harmed : (barrierOf s (dray s).rake k.toNat).armed = true) (hinv : (barrierOf s (dray s).rake k.toNat).inv = false) :
    exec (.drayArrive a c k) s = .next
      (arrive (drayBecomes s (dray s).next) (dray s).rake k.toNat ((dget (dray s) a).toNat + c.toNat)).2 :=
  next_drayIdleOp hclear ((if_neg (by omega)).trans ((if_neg (by omega)).trans (if_pos (by rw [harmed, hinv]; rfl))))

/-- A barrier that is not armed, or is invalid, sets a flag (07 R284). -/
theorem drayArrive_misses (hpos : 0 < (dget (dray s) a).toNat + c.toNat) (hlow : (dget (dray s) a).toNat + c.toNat < 2 ^ 24)
    (hbad : (barrierOf s (dray s).rake k.toNat).armed = false ∨ (barrierOf s (dray s).rake k.toNat).inv = true) :
    exec (.drayArrive a c k) s = .next (drayBecomes s { (dray s).next with bits := (dray s).bits ||| 0x20000 }) := by
  refine next_drayIdleOp hclear ((if_neg (by omega)).trans ((if_neg (by omega)).trans (if_neg ?_)))
  rcases hbad with h | h <;> simp [h]

end

section
variable {a h : BitVec 4} {sg : BitVec 2} {g : BitVec 3}

theorem draySignal_moves (hscope : drayScope sg g = true) (hlow : (dget (dray s) a).toNat < 2 ^ 32) :
    let t := (dray s).t0 + dget (dray s) a
    exec (.draySignal a sg g) s = .next (timelineMoved (setDray (if sg = 1 then s else drayRelease s s.dcur g.toNat) s.dcur
      { (dray s).next with timeline := if (dray s).timeline.toNat < t.toNat then t else (dray s).timeline }) s.dcur) := by
  have hlegal : ¬ ((!drayScope sg g) = true ∨ 2 ^ 32 ≤ (dget (dray s) a).toNat) :=
    not_or_intro (ne_true_of_eq_false (congrArg not hscope)) (Nat.not_le.2 hlow)
  refine next_drayIdleOp hclear ((if_neg hlegal).trans ?_)
  simp only [BitVec.ult, decide_eq_true_eq]

theorem draySignal_faults (hbad : drayScope sg g = false ∨ 2 ^ 32 ≤ (dget (dray s) a).toNat) :
    exec (.draySignal a sg g) s = .next (drayFault s s.dcur 0x01) :=
  next_drayFault hclear (if_pos (hbad.imp_left (congrArg not)))

/-- What TLW does with a handle (07 R286; log 77). -/
theorem exec_drayTlw (hscope : drayScope sg g = true) : exec (.drayTlw h a sg g) s = .next
    (match checkHandle s (drayCtx (dray s)) (loOf (dget (dray s) h)) with
      | none => drayFail s s.dcur fcHandle
      | some t =>
        if timelineMet s t (loOf (dget (dray s) h)) (dget (dray s) a) then
          setDray (if sg = 1 then s else drayAcquire s s.dcur g.toNat) s.dcur (dray s).next
        else if t = s.dcur then drayFail s s.dcur fcHandle
        else setDray s s.dcur { dray s with
          state := 3, tlw := some (loOf (dget (dray s) h), dget (dray s) a, g.toNat, sg.toNat) }) :=
  next_drayIdleOp hclear (if_neg (ne_true_of_eq_false (congrArg not hscope)))

end
end

/-- Settles O25: each instruction by its checks in order. -/
theorem draySynchronization : Obligations.DraySynchronization := by
  intro s a h c k sg g o hclear x y n b inScope
  refine ⟨drayArrive_none hclear, drayArrive_arrives hclear, drayArrive_misses hclear, fun hn => next_drayFault hclear (if_pos hn),
    draySignal_moves hclear, draySignal_faults hclear, fun t hscope hcheck hmet => ?_, fun t hscope hcheck hne hmet => ?_,
    fun hscope hcheck hmet => ?_, fun hscope => next_drayFault hclear (if_pos (congrArg not hscope)),
    fun hscope hcheck => ?_, fun hscope hlow hhigh => next_drayIdleOp hclear (if_neg ?_),
    fun hbad => next_drayFault hclear (if_pos (hbad.imp_left (congrArg not)))⟩
  · rw [exec_drayTlw hclear hscope, hcheck]
    exact congrArg _ (if_pos hmet)
  · rw [exec_drayTlw hclear hscope, hcheck]
    exact congrArg _ ((if_neg (ne_true_of_eq_false hmet)).trans (if_neg hne))
  · rw [exec_drayTlw hclear hscope, hcheck]
    exact congrArg _ ((if_neg (ne_true_of_eq_false hmet)).trans ((if_pos rfl).trans (drayFail_of_clear hclear _)))
  · rw [exec_drayTlw hclear hscope, hcheck]
    exact congrArg _ (drayFail_of_clear hclear _)
  · exact not_or_intro (ne_true_of_eq_false (congrArg not hscope)) (not_or_intro hlow (Nat.not_lt.2 hhigh))

/-! #### PROMISE and STAT -/

/-- The context after a PROMISE of `c` cycles (07 R288). -/
def promising (x : Dray) (c : Nat) : Dray :=
  { x with pc := x.pc + 4, bits := if x.promised then x.bits ||| 0x40000 else x.bits, promise := some c, promised := true }

/-- The promise is the launch's first, and comes in time (05 R199). -/
def keepsPromise (s : State) (x : Dray) : Bool :=
  !x.promised && decide (drayCycles s s.dcur < 256)
    && ((launchOf s (x.rake, x.launch)).map (fun la => la.promise.isNone)).getD false

theorem flag_promised (x : Dray) (c : Nat) :
    { x.next.flag 18 x.promised with promise := some c, promised := true } = promising x c := by
  unfold Dray.flag promising
  split <;> rfl

section
variable {s : State} (hready : drayReady (dray s) = true)
include hready

theorem exec_drayPromise (a : BitVec 4) (i : BitVec 14) :
    let y := promising (dray s) (min ((dget (dray s) a).toNat + i.toNat) (2 ^ 32 - 1))
    exec (.drayPromise a i) s = .next (if keepsPromise s (dray s) then
        deliverPromise (drayBecomes s y) (dray s).rake (dray s).launch (some (min ((dget (dray s) a).toNat + i.toNat) (2 ^ 32 - 1)))
      else drayBecomes s y) := by
  refine next_drayOp hready ?_
  have hcount : (if (dget (dray s) a).toNat + i.toNat < 2 ^ 32 then (dget (dray s) a).toNat + i.toNat else 2 ^ 32 - 1)
      = min ((dget (dray s) a).toNat + i.toNat) (2 ^ 32 - 1) := by
    split <;> omega
  dsimp only
  rw [hcount, flag_promised]
  rfl

theorem drayStat_unknown {d sel : BitVec 4} (hsel : 8 ≤ sel.toNat) : exec (.drayStat d sel) s = .next (drayFail s s.dcur 0x01) := by
  refine next_drayOp hready ?_
  split
  any_goals omega
  rfl

end

/-- Settles O26: PROMISE by whether it is kept, STAT by its selector, and the time-out by what it waits for. -/
theorem drayPromises : Obligations.DrayPromises := by
  intro s d a sel i hready x sum c y to_
  refine ⟨fun la hlaunch hnone hfirst hearly => ?_, fun hlate => ?_, ?_, ?_, ?_, ?_, ?_, ?_, ?_, ?_, drayStat_unknown hready,
    fun dk la => promiseTimeout_delivers⟩
  · have hkept : keepsPromise s x = true := by simp [keepsPromise, hlaunch, hnone, hfirst, hearly]
    rw [exec_drayPromise hready, if_pos hkept]
    rfl
  · have hkept : ¬ keepsPromise s x = true := by
      rcases hlate with h | h <;> simp [keepsPromise, h]
    rw [exec_drayPromise hready, if_neg hkept]
    rfl
  all_goals
    rintro rfl
    exact next_drayOp hready rfl

end Sys2Proof.Proofs
end

/-! ### Data operations: their checks (07 R271, R274, R278-R280) -/
section
namespace Sys2Proof.Proofs
open Sys2Proof Sys2Proof.Machine Sys2Proof.Laws

/-! #### XFER -/

/-- XFER's code, rounding and format register are those of its row (07 R274, R275). -/
def XferLegal (d t : BitVec 2) (m : BitVec 3) (f : BitVec 4) (cv : Nat) : Prop :=
  d ≠ t ∧ m.toNat ≤ 4 ∧ cv ≤ 0x1E ∧ ((0x0F ≤ cv ∧ cv ≤ 0x12) ∨ 0x19 ≤ cv ∨ f = 0)

/-- The options that it needs are set (07 R277, R278). -/
def XferOptions (y : Dray) (u : BitVec 1) (cv : Nat) : Prop :=
  (decide (0x13 ≤ cv) = true → (tget y.opts 0).isSome = true ∧ (tget y.opts 1).isSome = true)
    ∧ (u = 1 → (tget y.opts 3).isSome = true ∧ (tget y.opts 4).isSome = true ∧ (tget y.opts 5).isSome = true
      ∧ (tget y.opts 6).isSome = true)

/-- Its count is of whole units, lines and blocks (07 R276-R278). -/
def XferWhole (y : Dray) (gd gs : Gen) (u : BitVec 1) (cv cnt : Nat) : Prop :=
  cnt % (cvtSize cv).1 = 0 ∧ (decide (0x13 ≤ cv ∧ cv ≤ 0x18) = true → describedOk gs cnt = true)
    ∧ (decide (0x13 ≤ cv) = true → decide (0x13 ≤ cv ∧ cv ≤ 0x18) = false →
      describedOk gd (cnt / (cvtSize cv).1 * (cvtSize cv).2) = true)
    ∧ (u = 1 → sealedOk gs (optVal y 4) cnt = true)

theorem xferIllegal_iff {d t : BitVec 2} {m : BitVec 3} {f : BitVec 4} {cv : Nat} :
    (d = t ∨ 4 < m.toNat ∨ 0x1E < cv ∨ (cvtNamesFmt cv = false ∧ f ≠ 0)) ↔ ¬ XferLegal d t m f cv := by
  simp only [XferLegal, cvtNamesFmt, Bool.or_eq_false_iff, decide_eq_false_iff_not]
  grind

theorem xferOptmiss_iff {y : Dray} {u : BitVec 1} {cv : Nat} :
    ((cvtDescribed cv && !(optSet y 0 && optSet y 1)) || ((u == 1) && !(optSet y 3 && optSet y 4 && optSet y 5 && optSet y 6))) = true
      ↔ ¬ XferOptions y u cv := by
  simp only [XferOptions, cvtDescribed, optSet]
  grind

theorem xferCut_iff {y : Dray} {gd gs : Gen} {u : BitVec 1} {cv cnt : Nat} :
    (cnt % (cvtSize cv).1 ≠ 0 ∨ (cvtUnpacks cv && !describedOk gs cnt) = true
        ∨ (cvtDescribed cv && !cvtUnpacks cv && !describedOk gd (cnt / (cvtSize cv).1 * (cvtSize cv).2)) = true
        ∨ ((u == 1) && !sealedOk gs (optVal y 4) cnt) = true)
      ↔ ¬ XferWhole y gd gs u cv cnt := by
  simp only [XferWhole, cvtDescribed, cvtUnpacks]
  grind

theorem xferSealedPad_iff {gs : Gen} {u : BitVec 1} : ((u == 1) && gs.space != 0) = true ↔ u = 1 ∧ gs.space ≠ 0 := by
  simp

theorem xferKeyless_iff {s : State} {y : Dray} {u : BitVec 1} {cnt : Nat} :
    ((u == 1) && cnt != 0 && (contentKey s y).isNone) = true ↔ u = 1 ∧ cnt ≠ 0 ∧ contentKey s y = none := by
  simp [and_assoc]

theorem not_sealed_of_or {u : BitVec 1} {p : Prop} (h : u = 0 ∨ p) : ¬ (u = 1 ∧ ¬ p) := by
  rintro ⟨rfl, hp⟩
  exact h.elim (by decide) hp

theorem not_isNone {α : Type} {o : Option α} (h : o.isSome = true) : ¬ o.isNone = true := by
  cases o <;> simp_all

theorem none_of_isSome {α : Type} {o : Option α} (h : o.isSome = false) : o = none :=
  Option.not_isSome_iff_eq_none.1 (ne_true_of_eq_false h)

theorem rows_apart {t x o : BitVec 2} (htx : t ≠ x) (hto : t ≠ o) (hxo : x ≠ o) :
    ¬ (t.toNat = x.toNat ∨ t.toNat = o.toNat ∨ x.toNat = o.toNat) := by
  simp [BitVec.toNat_inj, htx, hto, hxo]

section
variable {s : State} (hclear : drayClear s = true)
include hclear

section
variable {d t : BitVec 2} {n : BitVec 4} {m : BitVec 3} {f : BitVec 4} {u : BitVec 1} {c : BitVec 6}

theorem drayXfer_illegal (hlegal : ¬ XferLegal d t m f c.toNat) : exec (.drayXfer d t n m f u c) s = .next (drayFault s s.dcur 0x01) :=
  next_drayFault hclear (if_pos (xferIllegal_iff.2 hlegal))

variable (hlegal : XferLegal d t m f c.toNat)
include hlegal

theorem drayXfer_unloaded (hnone : genOf (dray s) d.toNat = none ∨ genOf (dray s) t.toNat = none) :
    exec (.drayXfer d t n m f u c) s = .next (drayFault s s.dcur 0x02) := by
  refine next_drayFault hclear ((if_neg (mt xferIllegal_iff.1 (not_not.2 hlegal))).trans ?_)
  rcases hnone with h | h
  · rw [h]; rfl
  · rw [h]; cases genOf (dray s) d.toNat <;> rfl

section
variable {gd gs : Gen} (hgd : genOf (dray s) d.toNat = some gd) (hgs : genOf (dray s) t.toNat = some gs)
include hgd hgs

/-- With both generators loaded XFER makes the rest of its checks, in their order. -/
theorem exec_drayXfer : exec (.drayXfer d t n m f u c) s = .next (
    let y := dray s
    let cnt := (dget y n).toNat
    let cv := c.toNat
    if (u == 1) && gs.space != 0 then drayFail s s.dcur fcGdesc
    else if (cvtDescribed cv && !(optSet y 0 && optSet y 1))
        || ((u == 1) && !(optSet y 3 && optSet y 4 && optSet y 5 && optSet y 6)) then drayFail s s.dcur fcOptmiss
    else if cnt % (cvtSize cv).1 ≠ 0 ∨ (cvtUnpacks cv && !describedOk gs cnt) = true
        ∨ (cvtDescribed cv && !cvtUnpacks cv && !describedOk gd (cnt / (cvtSize cv).1 * (cvtSize cv).2)) = true
        ∨ ((u == 1) && !sealedOk gs (optVal y 4) cnt) = true then drayFail s s.dcur fcAlign
    else if (u == 1) && cnt != 0 && (contentKey s y).isNone then drayFail s s.dcur fcKey
    else startData s s.dcur cnt (.xfer d.toNat t.toNat m.toNat f.toNat (u == 1) cv)) := by
  refine next_drayIdleOp hclear ((if_neg (mt xferIllegal_iff.1 (not_not.2 hlegal))).trans ?_)
  rw [hgd, hgs]

theorem drayXfer_sealedPad (hspace : u = 1 ∧ gs.space ≠ 0) : exec (.drayXfer d t n m f u c) s = .next (drayFault s s.dcur 0x02) :=
  (exec_drayXfer hclear hlegal hgd hgs).trans
    (congrArg _ ((if_pos (xferSealedPad_iff.2 hspace)).trans (drayFail_of_clear hclear _)))

variable (hspace : u = 0 ∨ gs.space = 0)
include hspace

theorem drayXfer_optmiss (hopts : ¬ XferOptions (dray s) u c.toNat) :
    exec (.drayXfer d t n m f u c) s = .next (drayFault s s.dcur 0x08) :=
  (exec_drayXfer hclear hlegal hgd hgs).trans (congrArg _ ((if_neg (mt xferSealedPad_iff.1 (not_sealed_of_or hspace))).trans
    ((if_pos (xferOptmiss_iff.2 hopts)).trans (drayFail_of_clear hclear _))))

variable (hopts : XferOptions (dray s) u c.toNat)
include hopts

theorem drayXfer_cut (hcut : ¬ XferWhole (dray s) gd gs u c.toNat (dget (dray s) n).toNat) :
    exec (.drayXfer d t n m f u c) s = .next (drayFault s s.dcur 0x04) :=
  (exec_drayXfer hclear hlegal hgd hgs).trans (congrArg _ ((if_neg (mt xferSealedPad_iff.1 (not_sealed_of_or hspace))).trans
    ((if_neg (mt xferOptmiss_iff.1 (not_not.2 hopts))).trans ((if_pos (xferCut_iff.2 hcut)).trans (drayFail_of_clear hclear _)))))

variable (hwhole : XferWhole (dray s) gd gs u c.toNat (dget (dray s) n).toNat)
include hwhole

theorem drayXfer_keyless (hkey : u = 1 ∧ (dget (dray s) n).toNat ≠ 0 ∧ contentKey s (dray s) = none) :
    exec (.drayXfer d t n m f u c) s = .next (drayFault s s.dcur 0x0B) :=
  (exec_drayXfer hclear hlegal hgd hgs).trans (congrArg _ ((if_neg (mt xferSealedPad_iff.1 (not_sealed_of_or hspace))).trans
    ((if_neg (mt xferOptmiss_iff.1 (not_not.2 hopts))).trans ((if_neg (mt xferCut_iff.1 (not_not.2 hwhole))).trans
      ((if_pos (xferKeyless_iff.2 hkey)).trans (drayFail_of_clear hclear _))))))

theorem drayXfer_starts (hkey : ¬ (u = 1 ∧ (dget (dray s) n).toNat ≠ 0 ∧ contentKey s (dray s) = none)) :
    exec (.drayXfer d t n m f u c) s = .next (startData s s.dcur (dget (dray s) n).toNat
      (.xfer d.toNat t.toNat m.toNat f.toNat (u == 1) c.toNat)) :=
  (exec_drayXfer hclear hlegal hgd hgs).trans (congrArg _ ((if_neg (mt xferSealedPad_iff.1 (not_sealed_of_or hspace))).trans
    ((if_neg (mt xferOptmiss_iff.1 (not_not.2 hopts))).trans ((if_neg (mt xferCut_iff.1 (not_not.2 hwhole))).trans
      (if_neg (mt xferKeyless_iff.1 hkey))))))

end
end

/-! #### GATHER, SCATTER and FILL -/

section
variable {t x o : BitVec 2} {n : BitVec 4} {op : DataOp}
  (htx : t ≠ x) (hto : t ≠ o) (hxo : x ≠ o)
include htx hto hxo

theorem startRows_starts {gt : Gen} (ho : (genOf (dray s) o.toNat).isSome = true) (hx : (genOf (dray s) x.toNat).isSome = true)
    (ht : genOf (dray s) t.toNat = some gt) (hdims : gt.dims = 2) :
    (.next (startRows t.toNat x.toNat o.toNat n op s) : Out) = .next (startData s s.dcur (dget (dray s) n).toNat op) := by
  obtain ⟨go, ho⟩ := Option.isSome_iff_exists.1 ho
  obtain ⟨gx, hx⟩ := Option.isSome_iff_exists.1 hx
  refine next_drayIdleOp hclear ((if_neg (rows_apart htx hto hxo)).trans ?_)
  rw [ht, hx, ho]
  exact if_neg (by simp [tableOk, hdims])

theorem startRows_unloaded (ht : genOf (dray s) t.toNat = none) :
    (.next (startRows t.toNat x.toNat o.toNat n op s) : Out) = .next (drayFault s s.dcur 0x02) := by
  refine next_drayFault hclear ((if_neg (rows_apart htx hto hxo)).trans ?_)
  rw [ht]
  rfl

end

section
variable {d p : BitVec 2} {v n : BitVec 4} (hd : (genOf (dray s) d.toNat).isSome = true)
include hd

theorem drayFill_starts (hwhole : (dget (dray s) n).toNat % 2 ^ p.toNat = 0) : exec (.drayFill d v n p) s
    = .next (startData s s.dcur (dget (dray s) n).toNat (.fill d.toNat (dget (dray s) v) p.toNat)) :=
  next_drayIdleOp hclear ((if_neg (not_isNone hd)).trans (if_neg (not_not.2 hwhole)))

theorem drayFill_cut (hcut : (dget (dray s) n).toNat % 2 ^ p.toNat ≠ 0) : exec (.drayFill d v n p) s = .next (drayFault s s.dcur 0x04) :=
  next_drayFault hclear ((if_neg (not_isNone hd)).trans (if_pos hcut))

end
end

theorem keyed_of_or {u : BitVec 1} {cnt : Nat} {k : Option (List Nat)} (h : u = 0 ∨ cnt = 0 ∨ k ≠ none) :
    ¬ (u = 1 ∧ cnt ≠ 0 ∧ k = none) := by
  rintro ⟨rfl, hcnt, hkey⟩
  exact h.elim (by decide) (·.elim hcnt (· hkey))

/-! ### Units (07 R271, R276-R279) -/

theorem clearCovered_same_drays {s : State} {D : Tbl Dray} {ws : List (Nat × Nat)} (h : Drays D s) :
    Drays D (clearCovered s none ws) := by
  refine drays_foldl h fun s line h => ?_
  split
  · exact clearPoison_same_drays h
  · exact h

theorem drayOf_clearCovered (s : State) (ws : List (Nat × Nat)) (dk : Nat) :
    Machine.drayOf (clearCovered s none ws) dk = Machine.drayOf s dk := by
  rw [Machine.drayOf, Machine.drayOf, show (clearCovered s none ws).drays = s.drays from clearCovered_same_drays rfl]

section
variable {dk : Nat} {gs : List Nat} {s : State}

/-- The end of the units keeps what was read ahead when it is the same. -/
theorem moveUnits_stop_eq {p : List Byte} (hahead : (Machine.drayOf s dk).ahead = p) (ws : List (Nat × Nat)) :
    moveUnits.stop dk s p ws = clearCovered s none ws :=
  if_pos (by rw [drayOf_clearCovered, hahead])

/-- Nothing remains, or enough units have moved and the generators stand at the edges of words: the units stop here. -/
theorem moveUnits_stops {unit : State → List Byte → DGot (DUnit × List Byte)} {p : List Byte} {ws : List (Nat × Nat)} {k : Nat}
    (hstop : (Machine.drayOf s dk).rem = 0 ∨ (k = 0 ∧ gs.all (wordEdge (Machine.drayOf s dk)) = true)) (fuel : Nat) :
    moveUnits dk gs unit fuel k p ws s = moveUnits.stop dk s p ws := by
  cases fuel with
  | zero => rfl
  | succ fuel => exact if_pos hstop

/-- One unit that brings its operation to a place where it stops. -/
theorem movePlain_one {n : Nat} {unit : State → DGot DUnit} {u : DUnit} {s1 : State} (hrem : (Machine.drayOf s dk).rem ≠ 0)
    (hn : n ≠ 0) (hunit : unit s = .ok u s1) (hahead : (Machine.drayOf (applyUnit s1 dk u) dk).ahead = [])
    (hstop : (Machine.drayOf (applyUnit s1 dk u) dk).rem = 0
      ∨ (n = 1 ∧ gs.all (wordEdge (Machine.drayOf (applyUnit s1 dk u) dk)) = true)) :
    movePlain s dk gs n unit = clearCovered (applyUnit s1 dk u) none (putRanges u.puts) := by
  unfold movePlain
  obtain ⟨fuel, hfuel⟩ := Nat.exists_eq_succ_of_ne_zero hrem
  rw [hfuel, moveUnits, if_neg (by simp [hrem, hn]), hunit]
  have hstop' : (Machine.drayOf (applyUnit s1 dk u) dk).rem = 0
      ∨ (n - 1 = 0 ∧ gs.all (wordEdge (Machine.drayOf (applyUnit s1 dk u) dk)) = true) :=
    hstop.imp_right (fun ⟨hn, hedge⟩ => ⟨by omega, hedge⟩)
  exact (moveUnits_stops hstop' fuel).trans (moveUnits_stop_eq hahead _)

end

/-- The context moves units (07 R271). -/
structure Moves (s : State) (dk : Nat) (op : DataOp) : Prop where
  unparked : (Machine.drayOf s dk).parked = none
  running : (Machine.drayOf s dk).done = false
  free : drayHeld s (Machine.drayOf s dk) = false
  data : (Machine.drayOf s dk).data = some op

theorem cvtSize_pos (c : Nat) : 0 < (cvtSize c).1 := by
  unfold cvtSize
  split <;> decide

section
variable {s : State} {dk dn xn tn p rm fi cv : Nat} {pat : Dword}

theorem moves_ready {op : DataOp} (h : Moves s dk op) :
    ¬ ((Machine.drayOf s dk).parked.isSome = true ∨ (Machine.drayOf s dk).done = true ∨ drayHeld s (Machine.drayOf s dk) = true) := by
  simp [h.unparked, h.running, h.free]

theorem dataUnit_gather (h : Moves s dk (.gather dn xn tn)) :
    dataUnit s dk = endData (movePlain s dk [dn, xn] 1 (fun s => gatherUnit s dk dn xn tn)) dk := by
  refine (if_neg (moves_ready h)).trans ?_
  rw [h.data]

theorem dataUnit_scatter (h : Moves s dk (.scatter tn xn dn)) :
    dataUnit s dk = endData (movePlain s dk [dn, xn] 1 (fun s => scatterUnit s dk tn xn dn)) dk := by
  refine (if_neg (moves_ready h)).trans ?_
  rw [h.data]

theorem dataUnit_fill (h : Moves s dk (.fill dn pat p)) :
    dataUnit s dk = endData (movePlain s dk [dn] (64 / 2 ^ p) (fun s => fillUnit s dk dn p pat)) dk := by
  refine (if_neg (moves_ready h)).trans ?_
  rw [h.data]

theorem dataUnit_xfer (h : Moves s dk (.xfer dn xn rm fi false cv)) : dataUnit s dk = endData (movePlain s dk [dn, xn]
    (if (cvtSize cv).1 < 64 then 64 / (cvtSize cv).1 else 1) (fun s => xferUnit s dk dn xn rm fi cv none)) dk := by
  refine (if_neg (moves_ready h)).trans ?_
  rw [h.data]

/-- A sealed block that does not open faults. -/
theorem dataUnit_unopened (h : Moves s dk (.xfer dn xn rm fi true cv)) (hahead : (Machine.drayOf s dk).ahead = []) {code : Nat}
    {s1 : State} (hopen : openBlock s dk xn = .fault code s1) : dataUnit s dk = drayFault s1 dk code := by
  refine (if_neg (moves_ready h)).trans ?_
  rw [h.data]
  have hblock : blockAhead s dk xn = .fault code s1 := (if_pos (by rw [hahead]; rfl)).trans hopen
  dsimp only
  rw [hblock]
  rfl

/-- One unit, and the end of the operation when nothing remains. -/
theorem drayDataUnit_one {gs : List Nat} {n : Nat} {unit : State → DGot DUnit} {u : DUnit} {s1 : State}
    (hdata : dataUnit s dk = endData (movePlain s dk gs n unit) dk) (hrem : (Machine.drayOf s dk).rem ≠ 0)
    (hn : n ≠ 0) (hunit : unit s = .ok u s1) (hahead : (Machine.drayOf (applyUnit s1 dk u) dk).ahead = [])
    (hstop : (Machine.drayOf (applyUnit s1 dk u) dk).rem = 0
      ∨ (n = 1 ∧ ∀ g ∈ gs, wordEdge (Machine.drayOf (applyUnit s1 dk u) dk) g = true)) :
    exec (.drayDataUnit dk) s
      = .next (clearRevoked (endData (clearCovered (applyUnit s1 dk u) none (putRanges u.puts)) dk)) := by
  have hmoved := movePlain_one hrem hn hunit hahead (hstop.imp_right (.imp_right List.all_eq_true.2))
  exact congrArg (fun t => Host.Outcome.next (clearRevoked t)) (hdata.trans (congrArg (endData · dk) hmoved))

theorem drayDataUnit_unopened (h : Moves s dk (.xfer dn xn rm fi true cv)) (hahead : (Machine.drayOf s dk).ahead = []) {code : Nat}
    {s1 : State} (hopen : openBlock s dk xn = .fault code s1) :
    exec (.drayDataUnit dk) s = .next (clearRevoked (drayFault s1 dk code)) :=
  congrArg (fun t => Host.Outcome.next (clearRevoked t)) (dataUnit_unopened h hahead hopen)

end

theorem bind_of_ok {α β : Type} {g : DGot α} {f : α → State → DGot β} {v : α} {t : State} (hg : g = .ok v t) :
    g.bind f = f v t := by
  rw [hg]
  rfl

section
variable {s : State} {dk xn : Nat} {gs : Gen} (hgs : genOf (Machine.drayOf s dk) xn = some gs)
include hgs

theorem openBlock_keyless (hkey : contentKey s (Machine.drayOf s dk) = none) : openBlock s dk xn = .fault fcKey s := by
  unfold openBlock
  dsimp only
  rw [hgs, hkey]

/-- 07 R278: the block that holds the source's position is read, and then its tag. -/
theorem openBlock_untrue {key : List Nat} {cipher tag : List Byte} {s2 s3 : State}
    (hkey : contentKey s (Machine.drayOf s dk) = some key) (hleft : gs.pos < gs.length) :
    let base := optVal (Machine.drayOf s dk) 4
    let j := (gs.logical gs.pos - base) / 4096
    base ≤ gs.logical gs.pos →
    drayReadAll dk 0 ((List.range 64).map (fun i => (base + 4096 * j + 64 * i, 64))) [] s = .ok cipher s2 →
    drayRead s2 dk 0 (optVal (Machine.drayOf s dk) 6 + 16 * j) 16 = .ok tag s3 →
    gcmOpen key ((leBytes 8 (optVal (Machine.drayOf s dk) 5) ++ leBytes 4 j).map BitVec.toNat) [] (toNats cipher) (toNats tag) = none →
    openBlock s dk xn = .fault fcTag s3 := by
  intro base j hbase hcipher htag hgcm
  unfold openBlock
  dsimp only
  rw [hgs, hkey]
  refine (if_neg (Nat.not_le.2 hleft)).trans ((if_neg (Nat.not_lt.2 hbase)).trans ?_)
  refine (bind_of_ok hcipher).trans ((bind_of_ok htag).trans ?_)
  rw [hgcm]

end

/-! ### The pieces of a stream (07 R270, R271) -/

/-- The bytes of a stream in global storage are cut into pieces that add up, none empty, none across a line. -/
theorem pieces_cut (g : Gen) (hlen : 1 ≤ g.len0) (hspace : g.space = 0) (fuel j n : Nat) (hfuel : n ≤ fuel) :
    ((g.pieces fuel j n).map (fun p => p.2)).sum = n ∧ ∀ p ∈ g.pieces fuel j n, 0 < p.2 ∧ p.1 % 64 + p.2 ≤ 64 := by
  induction fuel generalizing j n with
  | zero =>
    obtain rfl : n = 0 := by omega
    simp [Gen.pieces]
  | succ fuel ih =>
    unfold Gen.pieces
    split
    · next hn => simp [hn]
    · next hn =>
      have haddr : g.addr j = g.logical j := by simp [Gen.addr, hspace]
      have hrun : j % g.len0 < g.len0 := Nat.mod_lt _ hlen
      have hline : g.logical j % 64 < 64 := Nat.mod_lt _ (by decide)
      extract_lets run line m
      have hpos : 0 < m := Nat.lt_min.2 ⟨by omega, Nat.lt_min.2 ⟨by omega, by omega⟩⟩
      have hle : m ≤ n := Nat.min_le_left _ _
      have hin : m ≤ line := (Nat.min_le_right _ _).trans (Nat.min_le_right _ _)
      obtain ⟨hsum, hrest⟩ := ih (j + m) (n - m) (by omega)
      refine ⟨?_, ?_⟩
      · rw [List.map_cons, List.sum_cons, hsum]
        omega
      · rw [List.forall_mem_cons]
        exact ⟨⟨hpos, by rw [haddr]; omega⟩, hrest⟩

/-! ### The codes of conversions (07 R275-R277) -/

/-- The codes between the copy and the format registers convert from one type to another. -/
theorem cvtPlain_converts {c : Nat} (hlo : 0x01 ≤ c) (hhi : c ≤ 0x0E) (rm : Nat) (f : NfFmt) (bs : List Byte) :
    cvtPlain c rm f bs
      = .ok (leBytes (cvtSize c).2 (convert (cvtTypes c).1 (cvtTypes c).2 rm false (BitVec.ofNat 64 (leNat bs))).1.toNat,
          (convert (cvtTypes c).1 (cvtTypes c).2 rm false (BitVec.ofNat 64 (leNat bs))).2) := by
  unfold cvtPlain
  split
  any_goals omega
  rfl

theorem plainTypes : ∀ e ∈ [(0x01, 8, 12), (0x02, 8, 11), (0x03, 12, 8), (0x04, 11, 8), (0x05, 11, 12), (0x06, 12, 11), (0x07, 6, 0),
    (0x08, 7, 1), (0x09, 4, 0), (0x0A, 5, 1), (0x0B, 0, 6), (0x0C, 0, 4), (0x0D, 0, 8), (0x0E, 8, 0)],
    (0x01 ≤ e.1 ∧ e.1 ≤ 0x0E) ∧ cvtTypes e.1 = e.2 := by decide

/-- The elements that a described line unpacks to. -/
theorem cvtUnpack_elements (fmts : List Word) (c rm d : Nat) (line : List Byte) :
    (cvtUnpack fmts c rm d line).1 = (List.range (if cvtNf4 c then 128 else 64)).flatMap (fun i =>
      leBytes (tyBits (cvtType c) / 8) ((tyFmt (cvtType c)).round rm false (describedValue fmts (cvtNf4 c) line i d)).1) := rfl

theorem unpackedTypes : ∀ e ∈ [(0x13, 8, false), (0x14, 12, false), (0x15, 11, false), (0x16, 8, true), (0x17, 12, true),
    (0x18, 11, true)], cvtType e.1 = e.2.1 ∧ cvtNf4 e.1 = e.2.2 := by decide

/-! ### The claim -/

theorem fillUnits_pos {p : Nat} (hp : p ≤ 3) : 64 / 2 ^ p ≠ 0 := by
  interval_cases p <;> decide

theorem xferUnits_pos (cv : Nat) : (if (cvtSize cv).1 < 64 then 64 / (cvtSize cv).1 else 1) ≠ 0 := by
  have hpos := cvtSize_pos cv
  split
  · exact (Nat.div_pos (by omega) hpos).ne'
  · decide

/-- Settles O27: the checks of each operation in their order, a unit by what it brings its context to, and the pieces of a stream by
induction on what is left of it. -/
theorem drayData : Obligations.DrayData := by
  refine ⟨?starts, ?units, ⟨?sizes, ?plain, ?unpacked⟩, fun g j n hlen hspace => pieces_cut g hlen hspace n j n le_rfl⟩
  case starts =>
    intro s d t x v n m p hclear y cnt goes has
    refine ⟨?xfer, ?rows, ?tables, drayFill_starts hclear, drayFill_cut hclear⟩
    case xfer =>
      intro f u c cv i faults legal lines unpacks set options
      refine ⟨drayXfer_illegal hclear, fun hlegal hnone => drayXfer_unloaded hclear hlegal (hnone.imp none_of_isSome none_of_isSome),
        fun gd gs hlegal hgd hgs => ?_⟩
      refine ⟨fun hu hspace => drayXfer_sealedPad hclear hlegal hgd hgs ⟨hu, hspace⟩, drayXfer_optmiss hclear hlegal hgd hgs,
        drayXfer_cut hclear hlegal hgd hgs, ?_, ?_⟩
      · exact fun hu hspace hopts hwhole hcnt hkey =>
          drayXfer_keyless hclear hlegal hgd hgs (.inr hspace) hopts hwhole ⟨hu, hcnt, hkey⟩
      · exact fun hspace hopts hwhole hkey => drayXfer_starts hclear hlegal hgd hgs hspace hopts hwhole (keyed_of_or hkey)
    case rows =>
      intro g htx htd hxd hd hx ht hdims
      exact ⟨startRows_starts hclear htx htd hxd hd hx ht hdims, startRows_starts hclear htx htd hxd hd hx ht hdims⟩
    case tables =>
      intro htx htd hxd ht
      exact ⟨startRows_unloaded hclear htx htd hxd (none_of_isSome ht), startRows_unloaded hclear htx htd hxd (none_of_isSome ht)⟩
  case units =>
    intro s dk dn xn tn p pat u s1 d ends hparked hdone hheld whole
    refine ⟨fun hdata hrem hunit hwhole => ?_, fun hdata hrem hunit hwhole => ?_, fun hdata hp hrem hunit hend hwhole => ?_,
      fun rm fi cv hdata hrem hunit hend hwhole => ?_, fun rm fi cv hdata hahead => ⟨fun gs hgs hkey => ?_, ?_⟩⟩
    · exact drayDataUnit_one (dataUnit_gather ⟨hparked, hdone, hheld, hdata⟩) hrem one_ne_zero hunit hwhole.1
        (hwhole.2.imp_right (⟨rfl, ·⟩))
    · exact drayDataUnit_one (dataUnit_scatter ⟨hparked, hdone, hheld, hdata⟩) hrem one_ne_zero hunit hwhole.1
        (hwhole.2.imp_right (⟨rfl, ·⟩))
    · exact drayDataUnit_one (dataUnit_fill ⟨hparked, hdone, hheld, hdata⟩) hrem (fillUnits_pos hp) hunit hwhole.1 (.inl hend)
    · exact drayDataUnit_one (dataUnit_xfer ⟨hparked, hdone, hheld, hdata⟩) hrem (xferUnits_pos cv) hunit hwhole.1 (.inl hend)
    · exact drayDataUnit_unopened ⟨hparked, hdone, hheld, hdata⟩ hahead (openBlock_keyless hgs hkey)
    · intro gs key cipher tag s2 s3 hgs hkey hleft base at_ j hbase hcipher htag hgcm
      exact drayDataUnit_unopened ⟨hparked, hdone, hheld, hdata⟩ hahead (openBlock_untrue hgs hkey hleft hbase hcipher htag hgcm)
  case sizes => decide
  case plain =>
    intro e he rm f bs
    obtain ⟨⟨hlo, hhi⟩, htypes⟩ := plainTypes e he
    rw [cvtPlain_converts hlo hhi, htypes]
  case unpacked =>
    intro e he fmts rm d line
    obtain ⟨hty, hnf4⟩ := unpackedTypes e he
    rw [cvtUnpack_elements, hty, hnf4]

end Sys2Proof.Proofs
end

/-! ### The start of a launch (05 R198, 07 R251, R260) -/
section
namespace Sys2Proof.Proofs
open Sys2Proof Sys2Proof.Machine Sys2Proof.Laws

/-- A formed launch starts in the context that it takes, and its start is an acquire. -/
theorem drayContextStart_startedAt {s : State} {n line : Nat} {r : Rake} {la : Launch} {rg : Region} {cl lead : Nat} {ks : List Nat}
    {code : Dword} {dn : Nat} {any : Bool} {dk : Nat} (hr : tget s.rakes n = some r) (hla : tget r.launches line = some la)
    (hrg : tget s.regions r.region = some rg) (hcl : r.cluster = some cl) (hstarted : la.started = false)
    (hfinished : la.finished = false) (hcancelled : la.cancelled = false) (hformed : launchFormed s r rg.coaches la = true)
    (hlead : tkeys la.slices = lead :: ks) (hcode : tget la.codes lead = some (code, dn, any)) (hdk : chooseDray s cl dn any = some dk) :
    exec (.drayContextStart n line) s = .next (drayAcquire
      (startedAt s n line dk la (startedDray s n line lead dk code la rg) (startCounters s r line cl)) dk 4) := by
  show execDrayContextStart n line s = _
  unfold execDrayContextStart
  have hcode' : tgetD (0, 0, false) la.codes lead = (code, dn, any) := congrArg (·.getD (0, 0, false)) hcode
  have hwaits : ¬ (la.started || la.finished || la.cancelled || !launchFormed s r rg.coaches la) = true := by
    simp [hstarted, hfinished, hcancelled, hformed]
  simp only [hr, hla, hrg, hcl, hwaits, hlead, hcode', hdk, List.head?_cons]
  rfl

theorem modRake_congr {s : State} {n : Nat} {r : Rake} {f g : Rake → Rake} (hr : tget s.rakes n = some r) (hfg : f r = g r) :
    modRake s n f = modRake s n g := by
  rw [modRake_of_tget hr, modRake_of_tget hr, hfg]

/-- Settles O28: the launch's context is the one of `startedDray`, and its rake is the one that the counters are taken of. -/
theorem drayLaunch : Obligations.DrayLaunch := by
  intro s rake launch lead r la rg cl dk ks code dn any hr hla hrg hcl hstarted hfinished hcancelled hformed hlead hcode hdk old t0 x
  have hx : startedDray s rake launch lead dk code la rg = x := by
    rw [startedDray, startDray, extractLsb'_zero_eq_setWidth]
  rw [drayContextStart_startedAt hr hla hrg hcl hstarted hfinished hcancelled hformed hlead hcode hdk, hx]
  exact congrArg (fun t => Host.Outcome.next (drayAcquire (setDray t dk x) dk 4)) (modRake_congr hr rfl)

end Sys2Proof.Proofs
end

/-! ### Guest instructions and words of the system plate (08 R308, R316, R317, R324, 02 R63) -/
section
namespace Sys2Proof.Proofs
open Sys2Proof Sys2Proof.Machine Sys2Proof.Laws

/-- The impression of the word that EMUL names is kept before EMUL is raised. -/
theorem guestDecode_emul {s s1 : State} {word n : Nat} {fs : List Word}
    (h : decodeGuest s (me s) s.iss.ga.toNat = (.ok (.emul word n fs), s1)) :
    exec .guestDecode s = .next (raiseEmul (addImp s1 (me s) s.iss.ga (.emul word n fs) false)
      s.iss.coach s.iss.group s.iss.ga (BitVec.ofNat 64 word) n fs) := by
  show execGuestDecode s = _
  unfold execGuestDecode
  dsimp only
  rw [show decodeGuest s (coachOf s s.iss.coach) s.iss.ga.toNat = _ from h]

/-- Code that cannot be fetched leaves no impression. -/
theorem guestDecode_noFetch {s s1 : State} {e : NoFetch}
    (h : decodeGuest s (me s) s.iss.ga.toNat = (.error e, s1)) :
    exec .guestDecode s = .next (noFetch s1 s.iss.coach s.iss.group s.iss.ga e) := by
  show execGuestDecode s = _
  unfold execGuestDecode
  dsimp only
  rw [show decodeGuest s (coachOf s s.iss.coach) s.iss.ga.toNat = _ from h]

/-- A word without an expansion is rejected as the word of the latch. -/
theorem systemPlateOp_rejected {s : State} {w : BitVec 64} (h : systemPlane s w = none) :
    exec (.systemPlateOp w) s = .next (rejectWord { s with iss := { s.iss with word := w } } iOpcode) := by
  show execSystemPlateOp w s = _
  unfold execSystemPlateOp
  rw [h]

/-- Settles O48: one rule per answer of the guest decoder, and one per answer of the system plate. -/
theorem guestCode : Obligations.GuestCode := fun _ =>
  ⟨fun _ _ _ _ => guestDecode_impression, fun _ _ _ _ => guestDecode_emul, fun _ _ => guestDecode_noFetch,
    fun _ _ => systemPlateOp_impression, fun _ => systemPlateOp_rejected⟩

end Sys2Proof.Proofs
end

/-! ### Writes at the home of DRAM (09 R333-R335, R338) -/
section
namespace Sys2Proof.Proofs
open Sys2Proof Sys2Proof.Machine Sys2Proof.Laws

/-! #### The physical map and the parts of a range (09 R334) -/

theorem windowClosed_dram (s : State) {pa : Nat} (h : pa < 0xC000000000) : windowClosed s pa = false := by
  have hpeer : peerLink pa = none := if_neg (by omega)
  unfold windowClosed
  rw [hpeer]

theorem isWindow_dram {pa : Nat} (h : pa < 0xC000000000) : isWindow pa = false := decide_eq_false (by omega)

/-- A range of some bytes within one line has one part. -/
theorem linesOf_within {a n : Nat} (hpos : 0 < n) (hline : a % 64 + n ≤ 64) : linesOf a n = [(a / 64, a % 64, n)] := by
  have hone : (a % 64 + n + 63) / 64 = 1 := by omega
  have hstop : (if a % 64 + n < 64 * (0 + 1) then a % 64 + n - 64 * 0 else 64) = a % 64 + n := by split <;> omega
  unfold linesOf
  rw [hone, List.range_one, List.map_singleton, hstop]
  simp

/-- The part of a range in line `i` of those that it touches. -/
def partOf (a n i : Nat) : Nat × Nat × Nat :=
  let start := if i = 0 then a % 64 else 0
  let stop := if a % 64 + n < 64 * (i + 1) then a % 64 + n - 64 * i else 64
  (a / 64 + i, start, stop - start)

/-- How many bytes of a range the first `m` lines that it touches hold. -/
def bytesDone (a n m : Nat) : Nat := min n (64 * m - a % 64)

/-- The parts follow one another. -/
theorem partOf_follows {a n m : Nat} (hm : m < (a % 64 + n + 63) / 64) :
    (partOf a n m).1 * 64 + (partOf a n m).2.1 = a + bytesDone a n m
      ∧ bytesDone a n (m + 1) = bytesDone a n m + (partOf a n m).2.2 := by
  unfold bytesDone partOf
  dsimp only
  split <;> split <;> omega

theorem bytesDone_all (a n : Nat) : bytesDone a n ((a % 64 + n + 63) / 64) = n := by
  unfold bytesDone
  omega

/-! #### What a write at the home of DRAM leaves (09 R335, R338) -/

/-- From `s` to `t` the bytes `bs` at address `b` have been stored below the windows, and what else has changed of the machine is
the home slices, the counts of their misses and the free choices. -/
structure WritesHome (s t : State) (b : Nat) (bs : List Byte) : Prop where
  mem : ∀ x, x < 0x80000000000 → memGet t.mem x = if b ≤ x ∧ x < b + bs.length then (bs[x - b]?).getD 0 else memGet s.mem x
  frame : t = { s with mem := t.mem, l2 := t.l2, ctrs := t.ctrs, free := t.free }

namespace WritesHome

/-- A step that stores nothing below the windows. -/
theorem of_mem {s t : State} {b : Nat} (hmem : ∀ x, x < 0x80000000000 → memGet t.mem x = memGet s.mem x)
    (hframe : t = { s with mem := t.mem, l2 := t.l2, ctrs := t.ctrs, free := t.free }) : WritesHome s t b [] :=
  ⟨fun x hx => (hmem x hx).trans (if_neg (by simp)).symm, hframe⟩

theorem refl (s : State) (b : Nat) : WritesHome s s b [] := of_mem (fun _ _ => rfl) rfl

/-- Bytes stored one run after the other are stored as one run. -/
theorem append {s t u : State} {b : Nat} {bs cs : List Byte} (h : WritesHome s t b bs) (h' : WritesHome t u (b + bs.length) cs) :
    WritesHome s u b (bs ++ cs) := by
  refine ⟨fun x hx => ?_, h'.frame.trans (congrArg
    (fun y : State => { y with mem := u.mem, l2 := u.l2, ctrs := u.ctrs, free := u.free }) h.frame)⟩
  rw [h'.mem x hx, h.mem x hx, List.length_append]
  by_cases hcs : b + bs.length ≤ x ∧ x < b + bs.length + cs.length
  · rw [if_pos hcs, if_pos (by omega), List.getElem?_append_right (by omega), Nat.sub_add_eq]
  · rw [if_neg hcs]
    by_cases hbs : b ≤ x ∧ x < b + bs.length
    · rw [if_pos hbs, if_pos (by omega), List.getElem?_append_left (by omega)]
    · rw [if_neg hbs, if_neg (by omega)]

end WritesHome

/-- Byte `i` of a line, into the memory behind it where it is dirty. -/
def putDirty (c : CLine) (m : List Host.Cell) (i : Nat) : List Host.Cell :=
  if c.dirty.getLsbD i then memPut m (c.line * 64 + i) ((c.bytes[i]?).getD 0) else m

theorem storeDirty_mem (s : State) (c : CLine) : (storeDirty s c).mem = (List.range 64).foldl (putDirty c) s.mem := by
  unfold storeDirty putDirty
  rfl

theorem memGet_putDirty (c : CLine) (m : List Host.Cell) (i x : Nat) : memGet (putDirty c m i) x
    = if c.line * 64 + i = x ∧ c.dirty.getLsbD i = true then (c.bytes[i]?).getD 0 else memGet m x := by
  unfold putDirty
  split
  · next hd => simp only [memGet_memPut, hd, and_true]
  · next hd => rw [if_neg fun h => hd h.2]

/-- The first `n` bytes of a line, seen at one address behind it. -/
theorem memGet_foldl_putDirty (c : CLine) (m : List Host.Cell) (x : Nat) {n : Nat} (hn : n ≤ 64) :
    memGet ((List.range n).foldl (putDirty c) m) x
      = if x / 64 = c.line ∧ x % 64 < n ∧ c.dirty.getLsbD (x % 64) = true then (c.bytes[x % 64]?).getD 0 else memGet m x := by
  induction n with
  | zero => simp
  | succ n ih =>
    rw [List.range_succ, List.foldl_append, List.foldl_cons, List.foldl_nil, memGet_putDirty, ih (by omega)]
    by_cases hx : c.line * 64 + n = x
    · obtain ⟨hline, hoff⟩ : x / 64 = c.line ∧ x % 64 = n := by omega
      simp [hx, hline, hoff]
    · have hlt : (x / 64 = c.line ∧ x % 64 < n + 1) ↔ (x / 64 = c.line ∧ x % 64 < n) := by omega
      rw [if_neg fun h => hx h.1]
      simp only [← and_assoc, hlt]

/-- The dirty bytes of a line, seen at one address behind it. -/
theorem memGet_storeDirty (s : State) (c : CLine) (x : Nat) : memGet (storeDirty s c).mem x
    = if x / 64 = c.line ∧ c.dirty.getLsbD (x % 64) = true then (c.bytes[x % 64]?).getD 0 else memGet s.mem x := by
  rw [storeDirty_mem, memGet_foldl_putDirty c s.mem x (Nat.le_refl 64)]
  simp only [Nat.mod_lt x (by decide : 64 > 0), true_and]

/-- A window line's bytes go above DRAM. -/
theorem l2WriteBack_writesHome (s : State) (c : CLine) (b : Nat) : WritesHome s (l2WriteBack s c) b [] := by
  unfold l2WriteBack
  split
  · next hwin =>
    have habove : 0x80000000000 ≤ c.line * 64 := (of_decide_eq_true hwin).1
    refine .of_mem (fun x hx => ?_) rfl
    rw [memGet_storeDirty, if_neg (by omega)]
  · exact .refl s b

theorem l2Evict_writesHome (s : State) (c : CLine) (b : Nat) : WritesHome s (l2Evict s c) b [] :=
  (l2WriteBack_writesHome s c b).append (.of_mem (fun _ _ => rfl) rfl)

theorem l2Room_writesHome (s : State) (line b : Nat) : WritesHome s (l2Room s line) b [] := by
  have hfree : WritesHome s { s with free := s.free + 1 } b [] := .of_mem (fun _ _ => rfl) rfl
  unfold l2Room
  dsimp only
  split
  · exact .refl s b
  · split
    · exact hfree.append (l2Evict_writesHome _ _ _)
    · exact hfree

theorem countAccess_writesHome (s : State) (pa b : Nat) : WritesHome s (countAccess s pa) b [] := by
  unfold countAccess
  dsimp only
  split
  · exact .of_mem (fun _ _ => rfl) rfl
  · exact .refl s b

theorem l2Fill_writesHome (s : State) (line ctx b : Nat) : WritesHome s (l2Fill s line ctx) b [] := by
  unfold l2Fill
  split
  · exact .refl s b
  · exact ((countAccess_writesHome s (line * 64) b).append (l2Room_writesHome _ line _)).append (.of_mem (fun _ _ => rfl) rfl)

/-- A line without an error that nothing has met is brought in. -/
theorem l2Read_writesHome {s : State} {line : Nat} (hline : tget s.softErrors line = none) (ctx b : Nat) :
    WritesHome s (l2Read s line ctx) b [] := by
  have hmeet : meetSoftError s line = s := by
    unfold meetSoftError
    rw [hline]
  unfold l2Read
  rw [hmeet]
  exact l2Fill_writesHome s line ctx b

theorem physWrite_writesHome (s : State) (b : Nat) (bs : List Byte) : WritesHome s (physWrite s b bs) b bs :=
  ⟨fun x _ => memGet_memWrite s.mem b x bs, rfl⟩

/-- A write of a part of a DRAM line at its home. -/
theorem writePart_writesHome {s : State} {p : Path} {line : Nat} (hp : p.unit = none) (hdram : line * 64 < 0xC000000000)
    (hline : tget s.softErrors line = none) (off : Nat) (bs : List Byte) :
    WritesHome s (writePart s p line off bs).2 (line * 64 + off) bs := by
  have hwrite : (writePart s p line off bs).2 = physWrite (l2Read s line p.ctx) (line * 64 + off) bs := by
    unfold writePart homeWriteLine
    rw [windowClosed_dram s hdram, isWindow_dram hdram, hp]
    rfl
  rw [hwrite]
  exact (l2Read_writesHome hline p.ctx _).append (physWrite_writesHome _ _ bs)

/-- A write of one part of a range: the bytes that are left, the counts, and the state. -/
def writeStep (p : Path) (acc : List Byte × Counts × State) (part : Nat × Nat × Nat) : List Byte × Counts × State :=
  let w := writePart acc.2.2 p part.1 part.2.1 (acc.1.take part.2.2)
  (acc.1.drop part.2.2, (acc.2.1.1 + w.1.1, acc.2.1.2 + w.1.2), w.2)

theorem writePath_eq_foldl (s : State) (p : Path) (a : Nat) (bs : List Byte) :
    writePath s p a bs = ((linesOf a bs.length).foldl (writeStep p) (bs, (0, 0), s)).2 := rfl

/-- The same after the parts in the first `m` lines of the range. -/
def writeSteps (s : State) (p : Path) (a : Nat) (bs : List Byte) (m : Nat) : List Byte × Counts × State :=
  ((List.range m).map (partOf a bs.length)).foldl (writeStep p) (bs, (0, 0), s)

theorem writeSteps_succ (s : State) (p : Path) (a : Nat) (bs : List Byte) (m : Nat) :
    writeSteps s p a bs (m + 1) = writeStep p (writeSteps s p a bs m) (partOf a bs.length m) := by
  simp [writeSteps, List.range_succ]

theorem writePath_eq_writeSteps (s : State) (p : Path) (a : Nat) (bs : List Byte) :
    writePath s p a bs = (writeSteps s p a bs ((a % 64 + bs.length + 63) / 64)).2 := rfl

section
variable {s : State} {p : Path} {a : Nat} {bs : List Byte}

/-- After the parts in the first `m` lines, the bytes that those hold are stored and the others are left. -/
theorem writeSteps_writesHome (hp : p.unit = none) (hdram : a + bs.length ≤ 0xC000000000)
    (herr : ∀ l, a / 64 ≤ l → l * 64 < a + bs.length → tget s.softErrors l = none) {m : Nat}
    (hm : m ≤ (a % 64 + bs.length + 63) / 64) :
    let done := writeSteps s p a bs m
    done.1 = bs.drop (bytesDone a bs.length m) ∧ WritesHome s done.2.2 a (bs.take (bytesDone a bs.length m)) := by
  induction m with
  | zero => simpa [bytesDone, writeSteps] using WritesHome.refl s a
  | succ m ih =>
    obtain ⟨hrest, hstored⟩ := ih (by omega)
    obtain ⟨hat, hnext⟩ := partOf_follows (n := bs.length) (m := m) hm
    have hlen : (bs.take (bytesDone a bs.length m)).length = bytesDone a bs.length m :=
      List.length_take.trans (by unfold bytesDone; omega)
    have hline : (partOf a bs.length m).1 = a / 64 + m := rfl
    have hpart := writePart_writesHome (p := p) hp (line := (partOf a bs.length m).1) (by omega)
      ((congrArg (fun x : State => tget x.softErrors (partOf a bs.length m).1) hstored.frame).trans (herr _ (by omega) (by omega)))
      (partOf a bs.length m).2.1 ((writeSteps s p a bs m).1.take (partOf a bs.length m).2.2)
    rw [hat] at hpart
    rw [writeSteps_succ, hnext, List.take_add, ← List.drop_drop, ← hrest]
    exact ⟨rfl, hstored.append (by rwa [hlen])⟩

/-- A write at the home of DRAM stores its bytes. -/
theorem writePath_writesHome (hp : p.unit = none) (hdram : a + bs.length ≤ 0xC000000000)
    (herr : ∀ l, a / 64 ≤ l → l * 64 < a + bs.length → tget s.softErrors l = none) :
    WritesHome s (writePath s p a bs).2 a bs := by
  have h := (writeSteps_writesHome hp hdram herr (Nat.le_refl _)).2
  rwa [bytesDone_all, List.take_length, ← writePath_eq_writeSteps] at h

end

end Sys2Proof.Proofs
end

/-! ### A write within a line that an L1 holds, and a line's write-back (09 R336) -/
section
namespace Sys2Proof.Proofs
open Sys2Proof Sys2Proof.Machine Sys2Proof.Laws

/-! #### A write within a line that an L1 holds (09 R336) -/

/-- The bytes before the patch, the patch, and the bytes after it. -/
theorem patch_eq_append {α : Type} {l bs : List α} {o : Nat} (h : o + bs.length ≤ l.length) :
    patch l o bs = l.take o ++ (bs ++ l.drop (o + bs.length)) := by
  induction l generalizing o bs with
  | nil =>
    obtain ⟨rfl, rfl⟩ : o = 0 ∧ bs = [] := by simpa using h
    rfl
  | cons x l ih =>
    cases bs with
    | nil => simp [patch]
    | cons b bs =>
      cases o with
      | zero => simpa [patch] using ih (o := 0) (bs := bs) (by simpa using h)
      | succ o =>
        have hrest := ih (o := o) (bs := b :: bs) (by simp only [List.length_cons] at h ⊢; omega)
        rw [Nat.add_right_comm]
        exact congrArg (x :: ·) hrest

theorem getElem?_patch {α : Type} {l bs : List α} {o : Nat} (h : o + bs.length ≤ l.length) (i : Nat) :
    (patch l o bs)[i]? = if o ≤ i ∧ i < o + bs.length then bs[i - o]? else l[i]? := by
  have htake : (l.take o).length = o := List.length_take.trans (by omega)
  rw [patch_eq_append h]
  by_cases hlow : i < o
  · rw [List.getElem?_append_left (by omega), List.getElem?_take_of_lt hlow, if_neg (by omega)]
  · rw [List.getElem?_append_right (by omega), htake]
    by_cases hin : i - o < bs.length
    · rw [List.getElem?_append_left hin, if_pos (by omega)]
    · rw [List.getElem?_append_right (by omega), List.getElem?_drop, if_neg (by omega)]
      congr 1
      omega

theorem read_patch {α : Type} {l bs : List α} {o : Nat} (h : o + bs.length ≤ l.length) :
    ((patch l o bs).drop o).take bs.length = bs := by
  rw [patch_eq_append h, List.drop_left' (List.length_take.trans (by omega)), List.take_left]

theorem line_of_l1Find {s : State} {u line : Nat} {c : CLine} (h : l1Find s u line = some c) : c.line = line := by
  simpa using List.find?_some h

/-- A copy that is put into a unit is the unit's copy of its line; the other copies stand. -/
theorem l1Find_l1Put (s : State) (u : Nat) (c : CLine) (v line : Nat) :
    l1Find (l1Put s u c) v line = if v = u ∧ line = c.line then some c else l1Find s v line := by
  unfold l1Find l1Put
  by_cases hv : v = u
  · subst hv
    rw [tgetD_tput_self]
    by_cases hl : c.line = line
    · simp [hl]
    · have hother : ∀ x : CLine, decide (((x.line != c.line) = true) ∧ ((x.line == line) = true)) = (x.line == line) := by
        intro x
        by_cases hx : x.line = line <;> simp [hx, Ne.symm hl]
      rw [if_neg fun h => hl h.2.symm, List.find?_cons_of_neg (by simpa using hl), List.find?_filter]
      exact congrArg (fun f => List.find? f _) (funext hother)
  · rw [if_neg (fun h => hv h.1), tgetD, tget_tput_ne _ _ (Ne.symm hv), tgetD]

section
variable {s : State} {p : Path} {u a line : Nat} {bs : List Byte} {c : CLine}

/-- A line that the unit holds for the context, and whose structure has no error, is there. -/
theorem l1Fill_held {ctx : Nat} (hfind : l1Find s u line = some c) (hctx : c.ctxs.contains ctx = true)
    (hup : s.upsets.contains (.l1 u line) = false) (strm : Bool) : l1Fill s u line ctx strm = (c, false, false, s) := by
  have hmeet : meetL1 s u line = s := by
    unfold meetL1
    rw [hup]
    rfl
  unfold l1Fill
  dsimp only
  rw [hmeet, hfind]
  exact if_pos hctx

/-- The copy of a line with bytes written from an offset. -/
def writtenLine (s : State) (u off : Nat) (bs : List Byte) (c : CLine) : CLine :=
  { c with bytes := patch c.bytes off bs, dirty := c.dirty ||| (widthMask bs.length <<< off)
           since := if c.dirty = 0 then cycleOf s (poolClock u) else c.since }

theorem writePart_held (hunit : p.unit = some u) (hfind : l1Find s u line = some c) (hctx : c.ctxs.contains p.ctx = true)
    (hopen : windowClosed s (line * 64) = false) (hup : s.upsets.contains (.l1 u line) = false) (off : Nat) (bs : List Byte) :
    writePart s p line off bs = ((0, 0), l1Put s u (writtenLine s u off bs c)) := by
  unfold writePart
  rw [hopen, hunit]
  dsimp only
  rw [l1Fill_held hfind hctx hup]
  rfl

theorem readPart_held (hunit : p.unit = some u) (hfind : l1Find s u line = some c) (hctx : c.ctxs.contains p.ctx = true)
    (hopen : windowClosed s (line * 64) = false) (hup : s.upsets.contains (.l1 u line) = false) (off n : Nat) :
    readPart s p line off n = ((c.bytes.drop off).take n, (0, 0), s) := by
  unfold readPart
  rw [hopen, hunit]
  dsimp only
  rw [l1Fill_held hfind hctx hup]
  rfl

theorem writePath_within (hne : bs ≠ []) (hline : a % 64 + bs.length ≤ 64) :
    (writePath s p a bs).2 = (writePart s p (a / 64) (a % 64) bs).2 := by
  rw [writePath_eq_foldl, linesOf_within (List.length_pos_iff.2 hne) hline, List.foldl_cons, List.foldl_nil]
  dsimp only [writeStep]
  rw [List.take_length]

/-- A write within a line that the unit holds for the context puts its copy. -/
theorem writePath_held (hunit : p.unit = some u) (hne : bs ≠ []) (hline : a % 64 + bs.length ≤ 64)
    (hfind : l1Find s u (a / 64) = some c) (hctx : c.ctxs.contains p.ctx = true)
    (hopen : windowClosed s (a / 64 * 64) = false) (hup : s.upsets.contains (.l1 u (a / 64)) = false) :
    (writePath s p a bs).2 = l1Put s u (writtenLine s u (a % 64) bs c) := by
  rw [writePath_within hne hline, writePart_held hunit hfind hctx hopen hup]

theorem readPath_within {n : Nat} (hpos : 0 < n) (hline : a % 64 + n ≤ 64) :
    (readPath s p a n).1 = (readPart s p (a / 64) (a % 64) n).1 := by
  unfold readPath
  rw [linesOf_within hpos hline]
  rfl

/-- What the readers of a unit see once a copy has been put into it. -/
theorem seen_l1Put (s : State) (u : Nat) (c : CLine) (v x : Nat) : seen (l1Put s u c) v x
    = if v = u ∧ x / 64 = c.line then (c.bytes[x % 64]?).getD 0 else seen s v x := by
  have hhome : homeLine (l1Put s u c) (x / 64) = homeLine s (x / 64) := rfl
  unfold seen
  rw [l1Find_l1Put, hhome]
  by_cases h : v = u ∧ x / 64 = c.line
  · rw [if_pos h, if_pos h]
  · rw [if_neg h, if_neg h]

theorem seen_of_held {x : Nat} (hfind : l1Find s u (x / 64) = some c) : seen s u x = (c.bytes[x % 64]?).getD 0 := by
  unfold seen
  rw [hfind]

/-- The readers of the unit see the bytes that its copy has been given, and those that it held. -/
theorem seen_writtenLine (hfind : l1Find s u (a / 64) = some c) (hline : a % 64 + bs.length ≤ 64) (hlen : c.bytes.length = 64)
    (x : Nat) : seen (l1Put s u (writtenLine s u (a % 64) bs c)) u x
      = if a ≤ x ∧ x < a + bs.length then (bs[x - a]?).getD 0 else seen s u x := by
  have hc : c.line = a / 64 := line_of_l1Find hfind
  rw [seen_l1Put]
  by_cases hx : x / 64 = a / 64
  · have hin : (a % 64 ≤ x % 64 ∧ x % 64 < a % 64 + bs.length) ↔ (a ≤ x ∧ x < a + bs.length) := by omega
    rw [if_pos ⟨rfl, hx.trans hc.symm⟩, writtenLine, getElem?_patch (by omega), seen_of_held (hx ▸ hfind), if_congr hin rfl rfl]
    split
    · rw [show x % 64 - a % 64 = x - a by omega]
    · rfl
  · rw [if_neg (fun h => hx (h.2.trans hc)), if_neg (by omega)]

end

/-! #### Writing a line back (09 R336) -/

/-- The poison and the waiting error of a line's home copy once the line's dirty bytes have come (12 R467). -/
def poisonHome (s : State) (c : CLine) : State :=
  if c.poisoned then setPoison s c.line else if c.dirty = BitVec.allOnes 64 then clearPoison s c.line else s

theorem poisonHome_frame (s : State) (c : CLine) :
    poisonHome s c = { s with poison := (poisonHome s c).poison, softErrors := (poisonHome s c).softErrors } := by
  unfold poisonHome setPoison
  split
  · split <;> rfl
  · split <;> rfl

theorem writeDirty_dram (s : State) {c : CLine} (h : c.line < 0x300000000) :
    writeDirty s c = if c.dirty = 0 then s else storeDirty (poisonHome s c) c := by
  unfold writeDirty
  rw [windowClosed_dram s (by omega), isWindow_dram (by omega)]
  rfl

/-- Settles O33: a write at the home is a run of parts, a write within an L1 line puts one copy, and a write-back stores byte by byte. -/
theorem storedBytes : Obligations.StoredBytes := by
  refine ⟨fun s p a bs hp hdram herr => ?_, fun s p u a bs c hunit hline hne hfind hlen hctx hopen hup => ?_, fun s c hdram => ?_⟩
  · have h := writePath_writesHome hp hdram herr
    exact ⟨h.mem, (congrArg State.l1 h.frame :), (congrArg State.coaches h.frame :), (congrArg State.rakes h.frame :),
      (congrArg State.drays h.frame :)⟩
  · have hthere : l1Find (l1Put s u (writtenLine s u (a % 64) bs c)) u (a / 64) = some (writtenLine s u (a % 64) bs c) :=
      (l1Find_l1Put ..).trans (if_pos ⟨rfl, (line_of_l1Find hfind).symm⟩)
    dsimp only
    rw [writePath_held hunit hne hline hfind hctx hopen hup]
    refine ⟨seen_writtenLine hfind hline hlen, fun v x hv => (seen_l1Put ..).trans (if_neg fun h => hv h.1), rfl, rfl, ?_⟩
    rw [readPath_within (List.length_pos_iff.2 hne) hline, readPart_held hunit hthere hctx hopen hup]
    exact read_patch (by omega)
  · dsimp only
    rw [writeDirty_dram s hdram]
    have hframe := poisonHome_frame s c
    split
    · next hclean => simp [hclean]
    · refine ⟨fun x => ?_, (congrArg State.l1 hframe :), (congrArg State.l2 hframe :), (congrArg State.coaches hframe :)⟩
      rw [memGet_storeDirty, (congrArg State.mem hframe :)]

end Sys2Proof.Proofs
end

/-! ### The memory system's own events, and the monitors (09 R336, 11 R427, R433, 12 R445, R465-R470, 15 R502, R504) -/
section
namespace Sys2Proof.Proofs
open Sys2Proof Sys2Proof.Machine Sys2Proof.Laws

/-! #### A register line's fill (11 R433) -/

/-- A coach that has a place is listed. -/
theorem tget_of_partKey {s : State} {k part : Nat} (h : partKey (coachOf s k) = some part) :
    tget s.coaches k = some (coachOf s k) := by
  unfold coachOf tgetD at h ⊢
  cases hk : tget s.coaches k with
  | some co => rfl
  | none => rw [hk] at h; exact absurd h (by simp [partKey, Coach.none])

/-- What a fill leaves once the line has been read: the coach that the format byte gives, or without one the line lost and an
error of the coach (05 R175). -/
def lineFilled (s : State) (k line off : Nat) : Option Coach → State
  | some y => setCoach s k y
  | none => coachError (modCoach s k (fun co => { co with v := co.v.filter (fun e => e.1 / 64 != line) })) k 5 off

/-- A line that an image holds is read at its home, and decoded by its format byte. -/
theorem registerLineFill_back {s s1 s2 : State} {k line part : Nat} {ps : List OwnPiece} {f : List Byte}
    (hpart : partKey (coachOf s k) = some part) (hline : line ≤ (coachOf s k).nregs)
    (hentry : lineEntry s part k line = none) (hout : (coachOf s k).out.contains line = true)
    (hps : areaPieces s (dieUnits (coreOf (coachOf s k) / 80)) (coachOf s k).ctx
      (imageAddr s (coachOf s k) + lineOffsetOf (coachOf s k) line) 256 .read = (some ps, s1))
    (hf : ownReadP s1 (dieUnits (coreOf (coachOf s k) / 80)) (coachOf s k).ctx
      (imageAddr s1 (coachOf s k) + 0x6000 + line) 1 = (.ok f, s2))
    (hclean : poisonOwn (fillOwn (cacheLine s2 part k line false) (coachOf s k).ctx ps) ps = none) :
    let s3 := fillOwn (cacheLine s2 part k line false) (coachOf s k).ctx ps
    exec (.registerLineFill k line) s = .next (lineFilled s3 k line (lineOffsetOf (coachOf s k) line)
      (lineOf (coachOf s3 k) line (leNat f) (readOwn s3 ps))) := by
  show execRegisterLineFill k line s = _
  unfold execRegisterLineFill
  dsimp only
  rw [hpart]
  dsimp only
  rw [hentry, hout, decide_eq_false (Nat.not_lt.2 hline), hps]
  dsimp only [Option.isSome_none]
  rw [if_neg (by decide), if_neg (by decide), hf]
  dsimp only
  rw [hclean]
  dsimp only
  cases lineOf (coachOf (fillOwn (cacheLine s2 part k line false) (coachOf s k).ctx ps) k) line (leNat f)
    (readOwn (fillOwn (cacheLine s2 part k line false) (coachOf s k).ctx ps) ps) <;> rfl

/-! #### L1 propagation and access counters (09 R336, 11 R427) -/

theorem l1DirtyPropagation_clean {s : State} {n line : Nat} {c : CLine} (hc : l1Find s n line = some c) (hdirty : c.dirty = 0) :
    exec (.l1DirtyPropagation n line) s = .next s := by
  show execL1DirtyPropagation n line s = _
  unfold execL1DirtyPropagation
  rw [hc]
  exact congrArg Host.Outcome.next (if_pos hdirty)

section
variable {s : State} {n line b : Nat} {c : Ctr}

theorem accessCounterNotify_below (hc : tget s.ctrs (n * 1024 + line) = some c) (hroom : ctrRoom s = some b)
    (hcount : c.count < 2 ^ s.pf.ctrThr) : exec (.accessCounterNotify n line) s = .next s := by
  show execAccessCounterNotify n line s = _
  unfold execAccessCounterNotify
  dsimp only
  rw [hc, hroom]
  exact congrArg Host.Outcome.next (if_pos hcount)

/-- What a counter at its threshold leaves: the notification, the counter at 0, and the vector. -/
def notified (s : State) (n line b : Nat) (c : Ctr) : State :=
  raiseVector { physWrite s (field s.pf.ctrRing.toNat 51 12 * 4096 + 16 * (s.pf.ctrWidx.toNat % 2 ^ b))
      (leBytes 8 (c.extent * 2 ^ 21) ++ leBytes 4 c.count ++ leBytes 1 n ++ List.replicate 3 0) with
    ctrs := tput s.ctrs (n * 1024 + line) { c with count := 0 }, pf := { s.pf with ctrWidx := s.pf.ctrWidx + 1 } } 0 2

theorem accessCounterNotify_notified (hc : tget s.ctrs (n * 1024 + line) = some c) (hroom : ctrRoom s = some b)
    (hcount : 2 ^ s.pf.ctrThr ≤ c.count) : exec (.accessCounterNotify n line) s = .next (notified s n line b c) := by
  show execAccessCounterNotify n line s = _
  unfold execAccessCounterNotify
  dsimp only
  rw [hc, hroom]
  exact congrArg Host.Outcome.next (if_neg (Nat.not_lt.2 hcount))

end

theorem notified_fields (s : State) (n line b : Nat) (c : Ctr) :
    tget (notified s n line b c).ctrs (n * 1024 + line) = some { c with count := 0 }
      ∧ (notified s n line b c).pf.ctrWidx = s.pf.ctrWidx + 1
      ∧ (notified s n line b c).mem = memWrite s.mem (field s.pf.ctrRing.toNat 51 12 * 4096 + 16 * (s.pf.ctrWidx.toNat % 2 ^ b))
          (leBytes 8 (c.extent * 2 ^ 21) ++ leBytes 4 c.count ++ leBytes 1 n ++ List.replicate 3 0) := by
  unfold notified
  rw [raiseVector_ctrs, raiseVector_pf, raiseVector_mem]
  exact ⟨tget_tput_self _ _ _, rfl, rfl⟩

/-! #### Scrubbing (12 R465, R466) -/

theorem scrubLine_softErrors (s : State) (line : Nat) : tget (scrubLine s line).softErrors line = none := by
  unfold scrubLine
  split
  · assumption
  · dsimp only
    split
    · rw [correctedError_softErrors, tget_tdel, if_pos rfl]
    · rw [logError_softErrors, setPoison_softErrors, tget_tdel, if_pos rfl]

theorem scrubLine_of_none {s : State} {line : Nat} (h : tget s.softErrors line = none) : scrubLine s line = s := by
  unfold scrubLine
  rw [h]

theorem l2Scrub_scrubs (s : State) (n line : Nat) : ∃ t, exec (.l2Scrub n line) s = .next t
    ∧ (homeDie (line * 64) = n → tget t.softErrors line = none) ∧ (tget s.softErrors line = none → t = s) := by
  refine ⟨_, rfl, fun hdie => ?_, fun hnone => ?_⟩
  · rw [if_pos hdie]
    exact scrubLine_softErrors s line
  · rw [scrubLine_of_none hnone, ite_self]

/-! #### The fatal device and flows (12 R445, R470) -/

theorem raiseVector_frame (s : State) (fn vec : Nat) : raiseVector s fn vec = { s with msix := (raiseVector s fn vec).msix } := by
  unfold raiseVector
  split <;> rfl

/-- From `s` to `t` the memory, the registers of the error logs and the vectors may have changed, and nothing else. -/
def OnlyLogged (s t : State) : Prop :=
  t = { s with mem := t.mem, msix := t.msix
               pf := { s.pf with errLost := t.pf.errLost, errWidx := t.pf.errWidx, errCount := t.pf.errCount } }

theorem logError_onlyLogged (s : State) (source sev die pa : Nat) (ctx world cluster : Option Nat) :
    OnlyLogged s (logError s source sev die pa ctx world cluster) := by
  unfold logError
  extract_lets
  split
  · exact rfl
  · split
    · exact rfl
    · unfold raiseVector
      split <;> exact rfl

/-- A fatal device: its record is in the log, and it has no keys and no caches. -/
theorem fatalDevice_frame (s : State) (source die : Nat) :
    let t := logError s source 5 die 0 none none none
    fatalDevice s source die = { t with keys := [], flowKey := none, l1 := [], l2 := [], pf := { t.pf with fatal := true }
                                        aer := t.aer + 1, msix := (fatalDevice s source die).msix } :=
  raiseVector_frame _ 0 0

theorem mem_fatalDevice_msix (s : State) (source die : Nat) : (0, 0) ∈ (fatalDevice s source die).msix := mem_raiseVector _ 0 0

/-- What a transaction leaves whose replay fails too: its line poisoned at the slice or where it arrives, the record, and the
flow's failures within 2^20 cycles. -/
def flowFailed (s : State) (n line : Nat) : State :=
  let die := homeDie (line * 64)
  let now := cycleOf s (200 + die)
  let t := logError (if n % 2 = 0 then setPoison s line else poisonCopies s (n / 2 % 20) line) srcFlow 1 die (line * 64) none none none
  { t with flowFails := tput t.flowFails n (now :: (tgetD [] s.flowFails n).filter (fun t => decide (now < t + 2 ^ 20))) }

theorem flowTagFailure_fails (s : State) (n line : Nat) : exec (.flowTagFailure n line true) s = .next
    (if 16 ≤ (tgetD [] (flowFailed s n line).flowFails n).length then fatalDevice (flowFailed s n line) srcFlow (homeDie (line * 64))
     else flowFailed s n line) := by
  rw [flowFailed, tgetD_tput_self]
  rfl

theorem flowFailed_poisons {s : State} {n line : Nat} (heven : n % 2 = 0) : line ∈ (flowFailed s n line).poison := by
  unfold flowFailed
  rw [if_pos heven]
  exact (logError_poison ..).symm ▸ mem_setPoison s line

theorem poisonCopies_poisons {s : State} {cl line : Nat} {e : Nat × List CLine} {c : CLine} (he : e ∈ (poisonCopies s cl line).l1)
    (hunit : e.1 = 160 + cl) (hc : c ∈ e.2) (hline : c.line = line) : c.poisoned = true := by
  obtain ⟨e, -, rfl⟩ := List.mem_map.1 he
  obtain ⟨c, -, rfl⟩ := List.mem_map.1 hc
  split at hline <;> simp_all

theorem flowFailed_poisonsCopies {s : State} {n line : Nat} (hodd : n % 2 = 1) {e : Nat × List CLine} {c : CLine}
    (he : e ∈ (flowFailed s n line).l1) (hunit : e.1 = 160 + n / 2 % 20) (hc : c ∈ e.2) (hline : c.line = line) :
    c.poisoned = true := by
  unfold flowFailed at he
  rw [if_neg (by omega)] at he
  exact poisonCopies_poisons ((congrArg (e ∈ ·.l1) (logError_onlyLogged ..)).mp he) hunit hc hline

theorem fatalDevice_l1 (s : State) (source die : Nat) : (fatalDevice s source die).l1 = [] :=
  congrArg State.l1 (fatalDevice_frame s source die)

theorem fatalDevice_fatal (s : State) (source die : Nat) : (fatalDevice s source die).pf.fatal = true :=
  congrArg (fun t : State => t.pf.fatal) (fatalDevice_frame s source die)

/-- A transaction whose replay fails too, whether or not it is the flow's sixteenth in 2^20 cycles. -/
theorem flowTagFailure_leaves (s : State) (n line : Nat) : ∃ t, exec (.flowTagFailure n line true) s = .next t
    ∧ (n % 2 = 0 → line ∈ t.poison) ∧ (16 ≤ (tgetD [] t.flowFails n).length → t.pf.fatal = true)
    ∧ (n % 2 = 1 → t.pf.fatal = s.pf.fatal → ∀ e ∈ t.l1, e.1 = 160 + n / 2 % 20 → ∀ c ∈ e.2, c.line = line → c.poisoned = true) := by
  by_cases hmany : 16 ≤ (tgetD [] (flowFailed s n line).flowFails n).length
  · refine ⟨_, (flowTagFailure_fails s n line).trans (congrArg Host.Outcome.next (if_pos hmany)), fun heven => ?_,
      fun _ => fatalDevice_fatal _ _ _, fun _ _ e he => ?_⟩
    · rw [fatalDevice_poison]
      exact flowFailed_poisons heven
    · rw [fatalDevice_l1] at he
      exact absurd he List.not_mem_nil
  · exact ⟨_, (flowTagFailure_fails s n line).trans (congrArg Host.Outcome.next (if_neg hmany)), flowFailed_poisons,
      fun h => absurd h hmany, fun hodd _ e he hunit c hc hline => flowFailed_poisonsCopies hodd he hunit hc hline⟩

theorem thermalFatal_fatal (s : State) : ∃ t, exec .thermalFatal s = .next t ∧ t.pf.fatal = true ∧ t.keys = [] ∧ t.flowKey = none
    ∧ t.l1 = [] ∧ t.l2 = [] ∧ t.mem = (logError s 0 5 0 0 none none none).mem ∧ (0, 0) ∈ t.msix := by
  have h := fatalDevice_frame s 0 0
  exact ⟨_, rfl, fatalDevice_fatal s 0 0, (congrArg State.keys h :), (congrArg State.flowKey h :), fatalDevice_l1 s 0 0,
    (congrArg State.l2 h :), (congrArg State.mem h :), mem_fatalDevice_msix s 0 0⟩

/-! #### Clocks and the power cap (15 R502) -/

theorem thermalThrottle_leaves (s : State) (n : Nat) : ∃ t, exec (.thermalThrottle n) s = .next t
    ∧ clockOf t n = max 800 (clockOf s n - 50) ∧ t = { s with clockMHz := t.clockMHz } := by
  obtain ⟨t, ht, hclock⟩ := thermalThrottle_slows s n
  refine ⟨t, ht, hclock, ?_⟩
  obtain rfl := Host.Outcome.next.inj ht
  rfl

theorem thermalRecover_leaves (s : State) (n : Nat) : ∃ t, exec (.thermalRecover n) s = .next t
    ∧ clockOf t n = min 1900 (clockOf s n + 50) ∧ t = { s with clockMHz := t.clockMHz } := by
  obtain ⟨t, ht, hclock⟩ := thermalRecover_speeds s n
  refine ⟨t, ht, hclock, ?_⟩
  obtain rfl := Host.Outcome.next.inj ht
  rfl

theorem powerCapSet_within {s : State} {n : Nat} (hlow : 600 ≤ n) (hhigh : n ≤ 1500) :
    exec (.powerCapSet n) s = .next { s with powerCap := n } :=
  congrArg Host.Outcome.next (if_pos ⟨hlow, hhigh⟩)

theorem powerCapSet_outside {s : State} {n : Nat} (h : n < 600 ∨ 1500 < n) : exec (.powerCapSet n) s = .next s :=
  congrArg Host.Outcome.next (if_neg (by omega))

/-- Settles O52: each clause by the case of its event that the clause's conditions select. -/
theorem memoryEvents : Obligations.MemoryEvents := by
  intro s n line
  refine ⟨fun c hc => ⟨l1DirtyPropagation_cleans hc, l1DirtyPropagation_clean hc⟩, fun part hpart hline hentry => ⟨fun hout => ?_, ?_⟩,
    fun c b hc hroom => ⟨accessCounterNotify_below hc hroom, fun hcount => ?_⟩, dramScrub_cleans s n, l2Scrub_scrubs s n line, rfl,
    flowTagFailure_leaves s n line, thermalThrottle_leaves s n, thermalRecover_leaves s n, thermalFatal_fatal s, powerCapSet_within,
    powerCapSet_outside⟩
  · exact registerLineFill_fresh (tget_of_partKey hpart) hpart hline hentry hout
  · intro ps s1 f s2 hout hps hf s3 hclean
    have hfill := registerLineFill_back hpart hline hentry hout hps hf hclean
    exact ⟨fun y hy => hfill.trans (congrArg (fun o => Host.Outcome.next (lineFilled s3 n line _ o)) hy),
      fun hy => hfill.trans (congrArg (fun o => Host.Outcome.next (lineFilled s3 n line _ o)) hy)⟩
  · obtain ⟨hctrs, hpf, hmem⟩ := notified_fields s n line b c
    exact ⟨_, accessCounterNotify_notified hc hroom hcount, hctrs, hpf, mem_raiseVector _ 0 2, hmem⟩

end Sys2Proof.Proofs
end

/-! ### Messages of the hardware queues (10 R361-R364, 11 R436) -/
section
namespace Sys2Proof.Proofs
open Sys2Proof Sys2Proof.Machine Sys2Proof.Laws

/-- A queue is at message `m`, which may be performed, as the read of its slot leaves the state (10 R361-R363). -/
structure AtMessage (s : State) (ctx q : Nat) (x : HwQueue) (m : List Byte) (s1 : State) : Prop where
  queue : queueAt s ctx q = some x
  idle : x.waiting = none
  standing : x.torn = false
  kept : x.discard = 0
  read : readMsg s ctx q = .msg m s1
  good : msgOk m = true

section
variable {s s1 : State} {ctx q : Nat} {x : HwQueue} {m : List Byte} (h : AtMessage s ctx q x m s1)
include h

/-- A message of the step's own kind is performed. -/
theorem AtMessage.takes {kind : Nat} (hkind : msgNum m 0 1 = kind) (f : HwQueue → List Byte → State → State) :
    takeMsg s ctx q kind f = f x m s1 := takeMsg_of h.queue h.idle h.standing h.kept h.read h.good hkind

theorem msgLaunch_launches (hkind : msgNum m 0 1 = 1) : exec (.msgLaunch ctx q) s
    = .next (completeMsg (launchRegion s1 ctx none (some q) 1 (msgNum m 8 8) (msgNum m 16 8)) ctx q m) := by
  refine congrArg Host.Outcome.next ((h.takes hkind _).trans ?_)
  dsimp only
  rw [h.standing, if_neg (by decide)]

theorem msgWait_polls (hkind : msgNum m 0 1 = 2) : exec (.msgWait ctx q) s = .next (pollWait (modQueue s1 ctx q (fun y =>
    { y with waiting := some (msgNum m 8 8, BitVec.ofNat 64 (msgNum m 16 8)) })) ctx q) :=
  congrArg Host.Outcome.next (h.takes hkind _)

theorem msgSignal_raises {ps : List OwnPiece} {s2 : State} (hkind : msgNum m 0 1 = 3)
    (hps : ownPieces s1 (dieUnits 0) ctx (msgNum m 8 8) 8 .atomic = (.ok ps, s2)) (hclean : poisonOwn (fillOwn s2 ctx ps) ps = none) :
    exec (.msgSignal ctx q) s = .next (completeMsg (l2System (writeOwn (fillOwn s2 ctx ps) ctx ps
      (leBytes 8 (max (leNat (readOwn (fillOwn s2 ctx ps) ps)) (msgNum m 16 8)))) false) ctx q m) := by
  have hmax : ∀ a b : Nat, (if a < b then b else a) = max a b := fun a b => by split <;> omega
  refine congrArg Host.Outcome.next ((h.takes hkind _).trans ?_)
  dsimp only
  rw [hps]
  dsimp only
  rw [hclean]
  exact congrArg (fun v => completeMsg (l2System (writeOwn (fillOwn s2 ctx ps) ctx ps (leBytes 8 v)) false) ctx q m) (hmax _ _)

theorem msgNote_writes {r : Unit} {s2 : State} (hkind : msgNum m 0 1 = 4)
    (hwrite : ownWriteV s1 (dieUnits 0) ctx (msgNum m 8 8) (leBytes 8 (msgNum m 16 8)) = (.ok r, s2)) :
    exec (.msgNote ctx q) s = .next (completeMsg (l2System s2 false) ctx q m) := by
  refine congrArg Host.Outcome.next ((h.takes hkind _).trans ?_)
  rw [hwrite]

theorem msgFence_waits (hkind : msgNum m 0 1 = 5) : exec (.msgFence ctx q) s
    = .next (if queueQuiet s1 ctx q then completeMsg (l2System s1 false) ctx q m else s1) :=
  congrArg Host.Outcome.next (h.takes hkind _)

theorem msgPreemptSave_saves (hkind : msgNum m 0 1 = 6) (hop : msgNum m 8 1 = 0) : exec (.msgPreemptSave ctx q) s
    = .next (completeMsg (modCtx ((ctxRakes s1 ctx).foldl saveRake s1) ctx (fun c => { c with saved := true })) ctx q m) :=
  congrArg Host.Outcome.next ((h.takes hkind _).trans (if_neg (not_not.2 hop)))

theorem msgPreemptResume_resumes (hkind : msgNum m 0 1 = 6) (hop : msgNum m 8 1 = 1) : exec (.msgPreemptResume ctx q) s
    = .next (completeMsg (modCtx s1 ctx (fun c => { c with saved := false })) ctx q m) :=
  congrArg Host.Outcome.next ((h.takes hkind _).trans (if_neg (not_not.2 hop)))

end

/-! #### A queue that is torn down (11 R436) -/

/-- A torn-down queue performs LAUNCH, which it refuses, and skips every other message. -/
theorem takeMsg_of_torn {s s1 : State} {ctx q kind : Nat} {x : HwQueue} {m : List Byte} (hx : queueAt s ctx q = some x)
    (hidle : x.waiting = none) (htorn : x.torn = true) (hkept : x.discard = 0) (hread : readMsg s ctx q = .msg m s1)
    (hgood : msgOk m = true) (hkind : msgNum m 0 1 = kind) (f : HwQueue → List Byte → State → State) :
    takeMsg s ctx q kind f = if kind = 1 then f x m s1 else skipMsg s1 ctx q := by
  unfold takeMsg
  rw [hx]
  dsimp only
  rw [hidle, hread]
  dsimp only
  rw [if_neg (by decide), if_neg (fun h => h.1 hkind), if_neg (not_not.2 hkept), hgood, htorn, if_neg (by decide)]
  by_cases h : kind = 1 <;> simp [h]

/-! #### WAIT (10 R363) -/

section
variable {s s1 : State} {ctx q va : Nat} {x : HwQueue} {n : Dword} {bs : List Byte} (hx : queueAt s ctx q = some x)
  (hwait : x.waiting = some (va, n)) (hfault : x.fault = none) (htorn : x.torn = false)
  (hread : ownReadP (l2System s true) (dieUnits 0) ctx va 8 = (.ok bs, s1))
include hx hwait hfault htorn hread

theorem waitPoll_below (hlt : leNat bs < n.toNat) : exec (.waitPoll ctx q) s = .next s1 := by
  show Host.Outcome.next (pollWait s ctx q) = _
  unfold pollWait
  rw [hx]
  dsimp only
  rw [hwait]
  dsimp only
  rw [hfault, htorn, hread]
  exact congrArg Host.Outcome.next (if_pos hlt)

theorem waitPoll_reached {m : List Byte} {s2 : State} (hle : n.toNat ≤ leNat bs)
    (hslot : ownReadP s1 (dieUnits 0) ctx (x.base + 64 * x.slot) 64 = (.ok m, s2)) :
    exec (.waitPoll ctx q) s = .next (completeMsg s2 ctx q m) := by
  show Host.Outcome.next (pollWait s ctx q) = _
  unfold pollWait
  rw [hx]
  dsimp only
  rw [hwait]
  dsimp only
  rw [hfault, htorn, hread]
  dsimp only
  rw [if_neg (Nat.not_lt.2 hle), hslot]
  rfl

end

/-- Settles O54: the message at RIDX by its kind, the same of a torn-down queue, and the word of a WAIT. -/
theorem messages : Obligations.Messages := by
  intro s ctx q x hx
  refine ⟨fun m s1 hidle hstanding hkept hread hgood => ?_, fun m s1 hidle htorn hkept hread hgood => ⟨fun hkind => ?_, fun hkind => ?_⟩,
    fun va n bs s1 hwait hfault htorn hread => ⟨waitPoll_below hx hwait hfault htorn hread,
      fun m s2 => waitPoll_reached hx hwait hfault htorn hread⟩⟩
  · have h : AtMessage s ctx q x m s1 := ⟨hx, hidle, hstanding, hkept, hread, hgood⟩
    exact ⟨msgLaunch_launches h, msgWait_polls h, fun ps s2 => msgSignal_raises h, fun r s2 => msgNote_writes h, msgFence_waits h,
      msgPreemptSave_saves h, msgPreemptResume_resumes h⟩
  · refine congrArg Host.Outcome.next ((takeMsg_of_torn hx hidle htorn hkept hread hgood hkind _).trans ((if_pos rfl).trans ?_))
    dsimp only
    rw [if_pos htorn]
  · exact congrArg Host.Outcome.next ((takeMsg_of_torn hx hidle htorn hkept hread hgood hkind _).trans (if_neg (by decide)))

end Sys2Proof.Proofs
end

/-! ### The scheduler's choices and deadlines (10 R380-R386) -/
section
namespace Sys2Proof.Proofs
open Sys2Proof Sys2Proof.Machine Sys2Proof.Laws

/-! #### The order in which waiting coaches are considered (10 R381) -/

/-- Coach `a` is considered no later than `b`: those at the head of the order first, by their return, then by priority, then by
the start of the wait. -/
def Before (s : State) (a b : Coach) : Prop :=
  (a.atHead = true ∧ (b.atHead = true → a.returned.getD a.waitSince ≤ b.returned.getD b.waitSince))
  ∨ (a.atHead = false ∧ b.atHead = false
    ∧ (prioOf s b.region < prioOf s a.region ∨ (prioOf s a.region = prioOf s b.region ∧ a.waitSince ≤ b.waitSince)))

theorem admitsBefore_iff {s : State} {a b : Coach} : admitsBefore s a b = true ↔ Before s a b := by
  cases ha : a.atHead <;> cases hb : b.atHead
  · simp [admitsBefore, Before, ha, hb, prioOf]
    omega
  · simp [admitsBefore, Before, ha, hb]
  · simp [admitsBefore, Before, ha, hb]
  · simp [admitsBefore, Before, ha, hb]

theorem Before.total (s : State) (a b : Coach) : Before s a b ∨ Before s b a := by
  unfold Before
  cases a.atHead <;> cases b.atHead <;> simp <;> omega

theorem Before.trans {s : State} {a b c : Coach} (hab : Before s a b) (hbc : Before s b c) : Before s a c := by
  unfold Before at *
  cases ha : a.atHead <;> cases hb : b.atHead <;> cases hc : c.atHead <;> simp_all <;> omega

theorem insertBy_eq_orderedInsert (s : State) (k : Nat) (l : List Nat) :
    insertBy (fun a b => admitsBefore s (coachOf s a) (coachOf s b)) k l
      = List.orderedInsert (fun a b => admitsBefore s (coachOf s a) (coachOf s b) = true) k l := by
  induction l with
  | nil => rfl
  | cons y l ih => rw [insertBy, ih]; rfl

/-- The waiting coaches stand in the order of R381. -/
theorem askers_sorted (s : State) (n : Nat) : (askers s n).Pairwise (fun j k => Before s (coachOf s j) (coachOf s k)) := by
  let r : Nat → Nat → Prop := fun a b => admitsBefore s (coachOf s a) (coachOf s b) = true
  have htotal : Std.Total r := ⟨fun a b => (Before.total s _ _).imp admitsBefore_iff.2 admitsBefore_iff.2⟩
  have htrans : IsTrans Nat r := ⟨fun a b c hab hbc => admitsBefore_iff.2 ((admitsBefore_iff.1 hab).trans (admitsBefore_iff.1 hbc))⟩
  have hfold : ∀ (l acc : List Nat), acc.Pairwise r →
      (l.foldl (fun acc k => insertBy (fun a b => admitsBefore s (coachOf s a) (coachOf s b)) k acc) acc).Pairwise r := by
    intro l
    induction l with
    | nil => exact fun acc h => h
    | cons k l ih => exact fun acc h => ih _ (by simpa only [insertBy_eq_orderedInsert] using h.orderedInsert k acc)
  exact (hfold _ [] .nil).imp admitsBefore_iff.1

/-! #### The coach that a pool admits (10 R381, R383) -/

/-- The active coaches of a pool. -/
def activeIn (s : State) (n : Nat) : List (Nat × Coach) := (poolCoaches s n).filter (fun e => e.2.active)

/-- The coach's lease alone exceeds the pool's ceiling or its region's LEASECAP. -/
def TooBig (s : State) (n : Nat) (co : Coach) : Prop := poolCeiling s n < co.leaseG ∨ leaseCap s co.region < co.leaseG

/-- The coach's lease keeps the pool within its ceiling, and its region within LEASECAP. -/
def LeaseFits (s : State) (n : Nat) (co : Coach) : Prop := leaseSum (activeIn s n) + co.leaseG ≤ poolCeiling s n
  ∧ leaseSum ((activeIn s n).filter (fun e => e.2.region == co.region)) + co.leaseG ≤ leaseCap s co.region

/-- One coach is considered: the first that fits is admitted, the first that does not ends the search, and one whose lease
alone is too big joins an empty pool or is passed by. -/
def considered (s : State) (n : Nat) (acc : Option Nat × Bool) (k : Nat) : Option Nat × Bool :=
  if acc.2 then acc
  else if poolCeiling s n < (coachOf s k).leaseG ∨ leaseCap s (coachOf s k).region < (coachOf s k).leaseG then
    (if (activeIn s n).isEmpty then (some k, true) else acc)
  else if leaseSum (activeIn s n) + (coachOf s k).leaseG ≤ poolCeiling s n
      ∧ leaseSum ((activeIn s n).filter (fun e => e.2.region == (coachOf s k).region)) + (coachOf s k).leaseG
        ≤ leaseCap s (coachOf s k).region then (some k, true)
  else (none, true)

theorem admitNext_eq (s : State) (n : Nat) : admitNext s n = ((askers s n).foldl (considered s n) (none, false)).1 := rfl

theorem foldl_considered_ended (s : State) (n : Nat) (o : Option Nat) (l : List Nat) :
    l.foldl (considered s n) (o, true) = (o, true) := by
  induction l with
  | nil => rfl
  | cons k l ih => exact ih

/-- The coach that is admitted fits, or is alone where its lease is too big; all that come before it are too big. -/
theorem considered_admits {s : State} {n k : Nat} {l : List Nat} (h : (l.foldl (considered s n) (none, false)).1 = some k) :
    (TooBig s n (coachOf s k) → activeIn s n = []) ∧ (¬ TooBig s n (coachOf s k) → LeaseFits s n (coachOf s k))
      ∧ ∃ before after, l = before ++ k :: after ∧ ∀ j ∈ before, TooBig s n (coachOf s j) := by
  induction l with
  | nil => cases h
  | cons x l ih =>
    rw [List.foldl_cons] at h
    have hended : ∀ {o : Option Nat}, considered s n (none, false) x = (o, true) → o = some k := fun hx => by
      rw [hx, foldl_considered_ended] at h
      exact h
    by_cases hbig : TooBig s n (coachOf s x)
    · by_cases hempty : activeIn s n = []
      · obtain rfl := Option.some.inj (hended (o := some x) ((if_neg (by decide)).trans ((if_pos hbig).trans (if_pos (by rw [hempty]; rfl)))))
        exact ⟨fun _ => hempty, fun hnot => absurd hbig hnot, [], l, rfl, fun j hj => absurd hj List.not_mem_nil⟩
      · have hx : considered s n (none, false) x = (none, false) :=
          (if_neg (by decide)).trans ((if_pos hbig).trans (if_neg (by simpa using hempty)))
        rw [hx] at h
        obtain ⟨halone, hfits, before, after, rfl, hbefore⟩ := ih h
        exact ⟨halone, hfits, x :: before, after, rfl, List.forall_mem_cons.2 ⟨hbig, hbefore⟩⟩
    · by_cases hfits : LeaseFits s n (coachOf s x)
      · obtain rfl := Option.some.inj (hended (o := some x) ((if_neg (by decide)).trans ((if_neg hbig).trans (if_pos hfits))))
        exact ⟨fun h => absurd h hbig, fun _ => hfits, [], l, rfl, fun j hj => absurd hj List.not_mem_nil⟩
      · exact absurd (hended (o := none) ((if_neg (by decide)).trans ((if_neg hbig).trans (if_neg hfits)))) (by simp)

theorem admitNext_first {s : State} {n k : Nat} {co : Coach} (h : admitNext s n = some k) (hco : tget s.coaches k = some co) :
    (TooBig s n co → activeIn s n = []) ∧ (¬ TooBig s n co → LeaseFits s n co)
      ∧ ∃ before after, askers s n = before ++ k :: after ∧ (∀ j ∈ before, TooBig s n (coachOf s j) ∧ Before s (coachOf s j) co)
        ∧ ∀ j ∈ after, Before s co (coachOf s j) := by
  have hsorted := askers_sorted s n
  rw [admitNext_eq] at h
  obtain ⟨halone, hfits, before, after, hsplit, hbefore⟩ := considered_admits h
  rw [coachOf_of_tget hco] at halone hfits
  rw [hsplit, List.pairwise_append, List.pairwise_cons, coachOf_of_tget hco] at hsorted
  obtain ⟨_, ⟨hafter, _⟩, hacross⟩ := hsorted
  refine ⟨halone, hfits, before, after, hsplit, fun j hj => ⟨hbefore j hj, ?_⟩, hafter⟩
  have := hacross j hj k (List.mem_cons_self ..)
  rwa [coachOf_of_tget hco] at this

/-! #### Deadlines (10 R380, R382, R383, R386) -/

theorem leaveActive_of_tget {s : State} {k : Nat} {co : Coach} (hco : tget s.coaches k = some co) (head held : Bool) :
    leaveActive s k head held = setCoach s k { co with
      active := false, waitSince := cycleOf s (coreOf co), atHead := head, heldBack := held } := modCoach_of_tget hco _

theorem clampLease_eq (e : Nat) : (if e < 1 then 1 else if 128 < e then 128 else e) = min (max e 1) 128 := by
  split
  · omega
  · split <;> omega

theorem leaseWanted_eq (co : Coach) : leaseWanted co = max ((co.alloc + 255) / 256) (co.est - 1) + co.vh / 32 := by
  unfold leaseWanted
  dsimp only
  split <;> omega

theorem leaseEstimateUpdate_estimates {s : State} {k : Nat} {co : Coach} (hco : tget s.coaches k = some co)
    (hmeasured : co.measured = true) (hmi : 1024 ≤ co.mi) :
    let e := min (max (max ((co.alloc + 255) / 256) (co.est - 1) + co.vh / 32) 1) 128
    exec (.leaseEstimateUpdate k) s
      = .next (setLease s k (fun co => { co with est := e, leaseG := e, mi := 0, alloc := 0, vh := 0 })) := by
  intro e
  have he : (if leaseWanted co < 1 then 1 else if 128 < leaseWanted co then 128 else leaseWanted co) = e := by
    rw [clampLease_eq, leaseWanted_eq]
  show execLeaseEstimateUpdate k s = _
  unfold execLeaseEstimateUpdate
  rw [coachOf_of_tget hco]
  refine congrArg Host.Outcome.next ((if_pos ⟨hmeasured, hmi⟩).trans ?_)
  rw [← he]
  rfl

/-- A pool's interval has ended: no coach is held back, and the hits start again from none (10 R383). -/
def intervalEnded (s : State) (n : Nat) : State :=
  (poolCoaches (clockTo s (poolClock n) ((tgetD 0 s.poolIntervals n + 1) * 4096)) n).foldl
    (fun s e => modCoach s e.1 (fun co => { co with heldBack := false }))
    (clockTo s (poolClock n) ((tgetD 0 s.poolIntervals n + 1) * 4096))

/-- The pool has met more victims than its threshold. -/
abbrev PoolHot (s : State) (n : Nat) : Prop := 2 ^ (poolPart s n).thrLog < tgetD 0 s.poolHits n

/-- The interval is counted. -/
def intervalCounted (s : State) (n i : Nat) : State :=
  { s with poolIntervals := tput s.poolIntervals n (i + 1), poolHits := tdel s.poolHits n }

/-- A throttled pool holds back the coach of its choice, if it has one. -/
def holdBack (s : State) : Option Nat → State
  | some k => leaveActive s k false true
  | none => s

theorem exec_throttleInterval (s : State) (n : Nat) :
    let t := intervalCounted (intervalEnded s n) n (tgetD 0 s.poolIntervals n)
    exec (.throttleInterval n) s = .next (if decide (PoolHot (intervalEnded s n) n) then holdBack t (holdChoice t n) else t) := rfl

theorem throttleInterval_cool {s : State} {n : Nat} (h : ¬ PoolHot (intervalEnded s n) n) :
    exec (.throttleInterval n) s = .next (intervalCounted (intervalEnded s n) n (tgetD 0 s.poolIntervals n)) := by
  rw [exec_throttleInterval, decide_eq_false h]
  rfl

theorem throttleInterval_hot {s : State} {n k : Nat} (h : PoolHot (intervalEnded s n) n)
    (hk : holdChoice (intervalCounted (intervalEnded s n) n (tgetD 0 s.poolIntervals n)) n = some k) :
    exec (.throttleInterval n) s
      = .next (leaveActive (intervalCounted (intervalEnded s n) n (tgetD 0 s.poolIntervals n)) k false true) := by
  rw [exec_throttleInterval, decide_eq_true h, hk]
  rfl

/-- Settles O50: the partition's choice, the pool's, and the deadlines. -/
theorem coachScheduling : Obligations.CoachScheduling := by
  intro s n
  refine ⟨fun i k hsel => ?_, fun k co hadmit hco => ?_, fun co hco => ⟨fun hres hactive hwaits => ?_, leaseEstimateUpdate_estimates hco,
    timeSliceExpiry_expires hco⟩, throttleInterval_cool, fun k => throttleInterval_hot⟩
  · obtain ⟨hmem, htop⟩ := selectIn_spec hsel
    exact ⟨readyIn_ready hmem, hmem, htop, issueSelect_picks hsel⟩
  · obtain ⟨halone, hfits, hfirst⟩ := admitNext_first hadmit hco
    exact ⟨halone, hfits, hfirst, coachAdmission_admits hadmit hco⟩
  · rw [longWaitExit_leaves hco hres hactive hwaits]
    exact congrArg Host.Outcome.next (leaveActive_of_tget (by rw [clockTo_coaches, hco]) true false)

end Sys2Proof.Proofs
end

/-! ### Eviction, restore, placement, slot moves, rebalancing and turns (10 R375-R377, R386, R396, R397, 11 R434) -/
section
namespace Sys2Proof.Proofs
open Sys2Proof Sys2Proof.Machine Sys2Proof.Laws

/-! #### Eviction and restore (10 R386, 11 R434) -/

theorem mayEvict_iff {s : State} {core top : Nat} {x : Nat × Coach} : mayEvict s core top x = true ↔
    (∃ q i, x.2.place = some (core, q, i)) ∧ x.2.sliceExpired = true ∧ x.2.inHandler = false ∧ x.2.trap = none
      ∧ prioOf s x.2.region ≤ top := by
  unfold mayEvict
  cases x.2.place with
  | none => simp
  | some p =>
    obtain ⟨c, q, i⟩ := p
    simp only [Bool.and_eq_true, beq_iff_eq, Bool.not_eq_true', Option.isNone_iff_eq_none, decide_eq_true_eq, and_assoc,
      Option.some.injEq, Prod.mk.injEq, exists_and_left, exists_eq', and_true]

/-- A coach of the lowest priority leaves, where one may. -/
theorem evictLeast_saves {l : List (Nat × Coach)} (hne : l ≠ []) (s : State) :
    ∃ e ∈ l, (∀ x ∈ l, prioOf s e.2.region ≤ prioOf s x.2.region) ∧ evictLeast s l = saveCoach s e.1 := by
  unfold evictLeast
  cases hp : leastBy id (l.map (fun e => prioOf s e.2.region)) with
  | none => exact absurd (List.map_eq_nil_iff.1 ((leastBy_eq_none _ _).1 hp)) hne
  | some p =>
    obtain ⟨hmem, hleast⟩ := leastBy_spec _ _ _ hp
    obtain ⟨y, hy, hyp⟩ := List.mem_map.1 hmem
    dsimp only
    cases ht : leastBy id ((l.filter (fun e => prioOf s e.2.region == p)).map (fun e => e.2.sliceStart)) with
    | none =>
      have hlow : y ∈ l.filter (fun e => prioOf s e.2.region == p) := List.mem_filter.2 ⟨hy, beq_iff_eq.2 hyp⟩
      rw [List.map_eq_nil_iff.1 ((leastBy_eq_none _ _).1 ht)] at hlow
      exact absurd hlow List.not_mem_nil
    | some t =>
      obtain ⟨z, hz, hzt⟩ := List.mem_map.1 (leastBy_spec _ _ _ ht).1
      dsimp only
      cases he : (l.filter (fun e => prioOf s e.2.region == p)).find? (fun e => e.2.sliceStart == t) with
      | none => exact absurd (beq_iff_eq.2 hzt) (List.find?_eq_none.1 he z hz)
      | some e =>
        obtain ⟨hel, hep⟩ := List.mem_filter.1 (List.mem_of_find?_eq_some he)
        exact ⟨e, hel, fun x hx => beq_iff_eq.1 hep ▸ hleast _ (List.mem_map_of_mem hx), rfl⟩

theorem coachEviction_least {s : State} {n top : Nat}
    (htop : (waitersFor s (n / 8)).foldl (fun a b => if a < b then b else a) 0 = top) (hwait : waitersFor s (n / 8) ≠ [])
    (hfull : 64 ≤ coreCount s n) (hsome : ∃ e ∈ s.coaches, mayEvict s n top e = true) :
    ∃ e ∈ s.coaches, mayEvict s n top e = true
      ∧ (∀ x ∈ s.coaches, mayEvict s n top x = true → prioOf s e.2.region ≤ prioOf s x.2.region)
      ∧ exec (.coachEviction n) s = .next (saveCoach s e.1) := by
  obtain ⟨y, hy, hleaves⟩ := hsome
  obtain ⟨e, he, hleast, hsave⟩ := evictLeast_saves (List.ne_nil_of_mem (List.mem_filter.2 ⟨hy, hleaves⟩)) s
  obtain ⟨hmem, hmay⟩ := List.mem_filter.1 he
  refine ⟨e, hmem, hmay, fun x hx hxl => hleast x (List.mem_filter.2 ⟨hx, hxl⟩), ?_⟩
  rw [exec_coachEviction, htop, if_neg (by simpa [hwait] using hfull), hsave]

theorem coachRestore_waits {s s1 : State} {k : Nat} {p : Nat × Nat × Nat} (hmay : mayRestore s k = true)
    (hplace : restorePlace s k = some p) (himage : readImage s k (p.1 / 80) = (false, s1)) : exec (.coachRestore k) s = .next s1 := by
  show execCoachRestore k s = _
  unfold execCoachRestore
  rw [hmay, hplace]
  dsimp only
  rw [himage]
  rfl

/-! #### Placement (10 R375) -/

theorem sameCoaches_l1Flush (s : State) (unit : Nat) : SameCoaches s (l1Flush s unit) :=
  (SameCoaches.foldl sameCoaches_writeDirty _ s).trans ⟨rfl, rfl⟩

theorem sameCoaches_setFused (s : State) (cl : Nat) (on : Bool) : SameCoaches s (setFused s cl on) := by
  unfold setFused
  extract_lets units t
  have ht : SameCoaches s t := .foldl sameCoaches_l1Flush units s
  clear_value t
  exact ht.trans ⟨rfl, rfl⟩

/-- The cluster is fused as the region asks, and is the region's latest. -/
def clusterTaken (s : State) (rg : Nat) (r : Region) (cl : Nat) : State :=
  modRegion (if s.fusedClusters.contains cl == r.fused then s else setFused s cl r.fused) rg
    (fun r => { r with lastCluster := some cl })

theorem clusterTaken_rakes (s : State) (rg : Nat) (r : Region) (cl : Nat) : (clusterTaken s rg r cl).rakes = s.rakes :=
  (SameCoaches.ite (.refl s) (sameCoaches_setFused s cl r.fused)).rakes

/-- The rake takes its cluster, its window and its slot. -/
def rakeTaken (s : State) (n ctx cl base : Nat) : State :=
  modRake s n (fun k => { k with cluster := some cl, padBase := base, pinned := none, created := true
                                 rslot := (takenRslot s k ctx).getD k.rslot })

/-- The coaches of a placed rake: read back where it had been created, else made where its stage exists. -/
def coachesPlaced (s : State) (n : Nat) (k : Rake) (r : Region) (seats : List (Nat × Nat × Nat)) : State :=
  if k.created then readRakeImage s n
  else match r.stages[k.stage]? with
    | some st => makeCoaches ((seats.map (fun p => p.1)).eraseDups.foldl (fun s c => acquireGlobal s (l1Unit s c) r.ctx 4) s)
        r n k.idx r.ctx st seats
    | none => s

theorem rakePlacement_placed {s : State} {n cl base : Nat} {k : Rake} {r : Region} {seats : List (Nat × Nat × Nat)}
    (hk : tget s.rakes n = some k) (hr : tget s.regions k.region = some r) (hplace : placeFor s n = some (cl, base, seats)) :
    exec (.rakePlacement n) s
      = .next (coachesPlaced (rakeTaken (clusterTaken s k.region r cl) n r.ctx cl base) n k r seats) := by
  have hk' : tget (clusterTaken s k.region r cl).rakes n = some k := by rw [clusterTaken_rakes, hk]
  rw [rakeTaken, modRake_congr hk' (g := fun x => { x with
    cluster := some cl, padBase := base, pinned := none, created := true
    rslot := (takenRslot (clusterTaken s k.region r cl) k r.ctx).getD k.rslot }) rfl]
  show execRakePlacement n s = _
  unfold execRakePlacement
  rw [hplace, hk]
  dsimp only
  rw [hr]
  rfl

/-! #### Stages and slots (10 R376, R377) -/

theorem modRegion_of_tget {s : State} {n : Nat} {r : Region} (h : tget s.regions n = some r) (f : Region → Region) :
    modRegion s n f = { s with regions := tput s.regions n (f r) } := by
  simp [modRegion, tmod, h]

theorem stageRebalance_counted {s : State} {n core : Nat} {r : Region} (hr : tget s.regions n = some r)
    (hcore : rebalCore s n = some core) (hdet : r.det = false) (hcompleted : r.completed = false) :
    let s1 := clockTo s core (cycleOf s core + (r.rebalLeft - rebalElapsed s r core))
    exec (.stageRebalance n) s = .next { s1 with regions := tput s1.regions n { r with
      queues := mapFrom (fun i (q : Queue) => { q with pending := pendingMove r i q }) 0 r.queues
      rebalLeft := 8192, rebalSeen := some (core, cycleOf s1 core) } } := by
  intro s1
  show execStageRebalance n s = _
  unfold execStageRebalance
  rw [hr, hcore]
  refine congrArg Host.Outcome.next ((if_neg (by rw [hdet, hcompleted]; decide)).trans ?_)
  exact modRegion_of_tget (by rw [clockTo_regions, hr]) _

/-! #### The turn of a deterministic region (10 R396, R397) -/

/-- The turn goes on to coach index `x + 1` of the rake after a visit that is over, and stays at a visit that waits. -/
def visited (n i x k : Nat) : Visit → State
  | .wait s => s
  | .next s => checkCoach (turnMoves s n (fun y => { y with position := (i, x + 1) })) k

theorem ticketTurn_visits {s : State} {n : Nat} {r : Region} (hr : tget s.regions n = some r) (hdet : r.det = true)
    (hcompleted : r.completed = false) (hbusy : r.turnBusy = none) {m : Nat × Nat × Nat} {rk : Rake} {x k : Nat}
    (hm : r.members[r.position.1]? = some m) (hrk : tget s.rakes (rakeKey n m.1) = some rk) (hcreated : rk.created = true) :
    let s1 := { s with regions := tput s.regions n { r with turnBusy := none } }
    rk.coaches.all (fun k => coachLeft (coachOf s1 k)) = false → rk.cluster ≠ none → rk.halt = none →
      nextIdx s1 rk r.position.2 = some x → coachAt s1 rk x = some k → isResident s1 k = true →
      exec (.ticketTurn n) s = .next (visited n r.position.1 x k
        (visitCoach k (r.round - m.2.2 + 1) ((coachOf s1 k).ended.length + 1) s1)) := by
  intro s1 hleft hcluster hhalt hidx hat hres
  have hfree : modRegion s n (fun r => { r with turnBusy := none }) = s1 := modRegion_of_tget hr _
  have hmany : r.members.isEmpty = false := by
    cases h : r.members with
    | nil => rw [h] at hm; cases hm
    | cons _ _ => rfl
  have hplaced : rk.cluster.isNone = false := Option.isNone_eq_false_iff.2 (Option.isSome_iff_ne_none.2 hcluster)
  show execTicketTurn n s = _
  unfold execTicketTurn
  rw [hr]
  dsimp only
  rw [hbusy, hfree]
  dsimp only
  rw [if_neg (by simp [hdet, hcompleted, hmany]), hm]
  dsimp only
  rw [show tget s1.rakes (rakeKey n m.1) = some rk from hrk]
  dsimp only
  rw [if_neg (by rw [hleft, hcreated]; decide), if_neg (by rw [hcreated, hplaced, hhalt]; decide), hidx]
  dsimp only [Option.bind_some]
  rw [hat]
  dsimp only [Option.map_some]
  rw [if_neg (by rw [hres]; decide)]
  cases visitCoach k (r.round - m.2.2 + 1) ((coachOf s1 k).ended.length + 1) s1 <;> rfl

/-- Settles O51: who leaves a core, who comes back and where, and what a region's slots and turns come to. -/
theorem placement : Obligations.Placement := by
  intro s n
  refine ⟨?_, fun p s1 hmay hplace => ⟨coachRestore_seats hmay hplace, coachRestore_waits hmay hplace⟩,
    fun k r cl base seats hk hr hplace => ?_, fun r core => stageRebalance_counted, fun k r y qi => slotMove_moves,
    fun r hr hdet hcompleted hbusy => ⟨ticketTurn_endsRound hr hdet hcompleted hbusy,
      fun m rk x k hm hrk hcreated hleft hcluster hhalt hidx hat hres => ?_⟩⟩
  · intro top leaves hwait hfull hsome
    have hleaves : ∀ e, leaves e ↔ mayEvict s n top e = true := fun e => mayEvict_iff.symm
    simp only [hleaves] at hsome ⊢
    exact coachEviction_least rfl hwait hfull hsome
  · have hplaced := rakePlacement_placed hk hr hplace
    refine ⟨fun hcreated => ?_, fun st hcreated hst => ?_⟩
    · rw [hplaced, coachesPlaced, if_pos hcreated]
      rfl
    · rw [hplaced, coachesPlaced, if_neg (by rw [hcreated]; decide), hst]
      rfl
  · have hvisit := ticketTurn_visits hr hdet hcompleted hbusy hm hrk hcreated hleft hcluster hhalt hidx hat hres
    exact ⟨fun s2 hs2 => by rw [hvisit, hs2]; rfl, fun s2 hs2 => by rw [hvisit, hs2]; rfl⟩

end Sys2Proof.Proofs
end

/-! ### The host's register writes (08 R331, 10 R361, 11 R422, R435, R436, 15 R493-R500, R503-R505) -/
section
namespace Sys2Proof.Proofs
open Sys2Proof Sys2Proof.Machine Sys2Proof.Laws

/-- What the host writes before READY is dropped (15 R501). -/
theorem next_whenReady_not {s : State} (hready : s.pf.ready = false) (t : State) :
    (Host.Outcome.next (whenReady s t) : Out) = .next s := congrArg Host.Outcome.next (whenReady_not hready)

theorem next_whenReady {s : State} (hready : s.pf.ready = true) (t : State) :
    (Host.Outcome.next (whenReady s t) : Out) = .next t := congrArg Host.Outcome.next (whenReady_of hready)

/-! #### Queues (10 R361, 11 R436, 15 R495) -/

theorem hiOf_of_lt {v : Dword} (h : v.toNat < 2 ^ 32) : hiOf v = 0 := by
  apply BitVec.eq_of_toNat_eq
  rw [hiOf, BitVec.extractLsb'_toNat, Nat.shiftRight_eq_div_pow, Nat.div_eq_of_lt h]
  rfl

/-- A queue of a context becomes `y`. -/
def putQueue (s : State) (n q : Nat) (c : Ctx) (y : HwQueue) : State :=
  { s with ctxs := tput s.ctxs n { c with queues := c.queues.set q y } }

section
variable {s : State} {n q : Nat} {c : Ctx} {x : HwQueue} (hc : tget s.ctxs n = some c) (hx : c.queues[q]? = some x)
include hc hx

theorem queueAt_of_tget : queueAt s n q = some x := by rw [queueAt, hc, Option.bind_some, hx]

theorem modQueue_of_tget (f : HwQueue → HwQueue) : modQueue s n q f = putQueue s n q c (f x) := by
  rw [modQueue, modCtx_some hc, modAt_set f _ _ _ hx, putQueue]

omit hc in
theorem queueAt_putQueue (y : HwQueue) : queueAt (putQueue s n q c y) n q = some y := by
  have hq : q < c.queues.length := (List.getElem?_eq_some_iff.1 hx).1
  rw [queueAt, putQueue, tget_tput_self, Option.bind_some]
  exact List.getElem?_set_self hq

variable {v : BitVec 64} (hready : s.pf.ready = true)
include hready

theorem doorbell_moves (hv : v.toNat < 2 ^ 32) (hon : x.k ≠ 0) : exec (.doorbell n q v) s = .next (
    if 2 ^ 31 ≤ (loOf v - x.widx).toNat then overrunQueue (putQueue s n q c { x with widx := loOf v }) n q
    else putQueue s n q c { x with widx := loOf v }) := by
  have hok : ¬ (hiOf v ≠ 0 ∨ x.on = false) := by simp [hiOf_of_lt hv, HwQueue.on, hon]
  refine (next_whenReady hready _).trans (congrArg Host.Outcome.next ?_)
  rw [queueAt_of_tget hc hx]
  dsimp only
  rw [if_neg hok, modQueue_of_tget hc hx]
  by_cases h : 2 ^ 31 ≤ (loOf v - x.widx).toNat
  · rw [if_pos h, decide_eq_true h, if_pos rfl]
  · rw [if_neg h, decide_eq_false h, if_neg (by decide)]

theorem qerrRearm_rearms (htorn : x.torn = true) : exec (.qerrRearm n q) s = .next (putQueue s n q c { x with state := 0 }) := by
  refine (next_whenReady hready _).trans (congrArg Host.Outcome.next ((modQueue_of_tget hc hx _).trans ?_))
  rw [if_pos htorn]

theorem qerrTeardown_torn (htorn : x.torn = true) : exec (.qerrTeardown n q) s = .next s := by
  refine (next_whenReady hready _).trans (congrArg Host.Outcome.next ?_)
  rw [queueAt_of_tget hc hx]
  exact if_pos htorn

theorem qerrTeardown_tears (htorn : x.torn = false) : exec (.qerrTeardown n q) s = .next (tearQueue s n q 9) := by
  refine (next_whenReady hready _).trans (congrArg Host.Outcome.next ?_)
  rw [queueAt_of_tget hc hx]
  exact if_neg (by rw [htorn]; decide)

end

/-! #### Invalidations, plates and DEBUG (08 R331, 11 R422, 15 R505) -/

/-- Context `n` becomes `c`. -/
def putCtx (s : State) (n : Nat) (c : Ctx) : State := { s with ctxs := tput s.ctxs n c }

section
variable {s : State} {n : Nat} {c : Ctx} {v : BitVec 64} (hready : s.pf.ready = true) (hc : tget s.ctxs n = some c)
include hready hc

/-- A write to a register of a context changes that context alone. -/
theorem next_modCtx {f : Ctx → Ctx} {d : Ctx} (h : f c = d) : (Host.Outcome.next (whenReady s (modCtx s n f)) : Out) = .next (putCtx s n d) := by
  rw [next_whenReady hready, modCtx_some hc, h, putCtx]

theorem invcmd_starts (hidle : c.invBusy = false) : exec (.invcmd n v) s
    = .next (putCtx s n { c with invCmd := v &&& 0x3F, invFirst := field c.invAddr.toNat 56 12, invBusy := true }) :=
  next_modCtx hready hc (if_neg (by rw [hidle]; decide))

theorem invcmd_busy (hbusy : c.invBusy = true) : exec (.invcmd n v) s = .next (putCtx s n c) :=
  next_modCtx hready hc (if_pos hbusy)

theorem platecmd_starts (hidle : c.plateBusy = false) : exec (.platecmd n v) s
    = .next (putCtx s n { c with plateCmd := v &&& 0xFFFFFFFFFFFFF, plateBusy := true }) :=
  next_modCtx hready hc (if_neg (by rw [hidle]; decide))

theorem platecmd_busy (hbusy : c.plateBusy = true) : exec (.platecmd n v) s = .next (putCtx s n c) :=
  next_modCtx hready hc (if_pos hbusy)

theorem debugWrite_clears (hv : v.getLsbD 0 = false) : exec (.debugWrite n v) s = .next (putCtx s n { c with dbgen := false }) :=
  next_modCtx hready hc (if_neg (by rw [hv]; decide))

theorem debugWrite_sets (hv : v.getLsbD 0 = true) (hworld : c.world = 0 ∨ worldCovered s c.world = true) :
    exec (.debugWrite n v) s = .next (putCtx s n { c with dbgen := true }) :=
  next_modCtx hready hc ((if_pos hv).trans (if_pos hworld))

theorem debugWrite_refused (hv : v.getLsbD 0 = true) (hworld : c.world ≠ 0) (hbare : worldCovered s c.world = false) :
    exec (.debugWrite n v) s = .next (putCtx s n c) :=
  next_modCtx hready hc ((if_pos hv).trans (if_neg (by simp [hworld, hbare])))

theorem registerWrite_vf (off : Nat) : exec (.registerWrite (n + 1) off v) s = .next (putCtx s n (writeVf c off v)) :=
  (next_whenReady hready _).trans (congrArg Host.Outcome.next ((if_neg (Nat.succ_ne_zero n)).trans (modCtx_some hc _)))

end

/-! #### The feature word (15 R500) -/

theorem featRw_bit {i : Nat} : featRw.getLsbD i = true ↔ i = 0 ∨ (41 ≤ i ∧ i ≤ 44) := by
  have hbits : ∀ j < 128, featRw.getLsbD j = true ↔ j = 0 ∨ (41 ≤ j ∧ j ≤ 44) := by decide
  rcases Nat.lt_or_ge i 128 with h | h
  · exact hbits i h
  · rw [BitVec.getLsbD_of_ge _ _ h]
    exact ⟨fun h => (nomatch h), by omega⟩

theorem featRo_bit {i : Nat} : featRo.getLsbD i = true ↔ 1 ≤ i ∧ i ≤ 40 := by
  have hbits : ∀ j < 128, featRo.getLsbD j = true ↔ 1 ≤ j ∧ j ≤ 40 := by decide
  rcases Nat.lt_or_ge i 128 with h | h
  · exact hbits i h
  · rw [BitVec.getLsbD_of_ge _ _ h]
    exact ⟨fun h => (nomatch h), by omega⟩

/-- FEATDRV after a write: what the device offers of the writable bits, and the read-only bits as the device has them. -/
def featWritten (s : State) (f : BitVec 128) : BitVec 128 := (f &&& s.pf.featDev &&& featRw) ||| (s.pf.featDev &&& featRo)

theorem featWritten_bit (s : State) (f : BitVec 128) (i : Nat) : (featWritten s f).getLsbD i = true ↔
    s.pf.featDev.getLsbD i = true ∧ ((1 ≤ i ∧ i ≤ 40) ∨ (f.getLsbD i = true ∧ (i = 0 ∨ (41 ≤ i ∧ i ≤ 44)))) := by
  rw [featWritten, BitVec.getLsbD_or, BitVec.getLsbD_and, BitVec.getLsbD_and, BitVec.getLsbD_and, Bool.or_eq_true, Bool.and_eq_true,
    Bool.and_eq_true, Bool.and_eq_true, featRw_bit, featRo_bit]
  tauto

theorem featdrvWrite_writes {s : State} (hready : s.pf.ready = true) (f : BitVec 128) :
    let t := { s with pf := { s.pf with featDrv := featWritten s f } }
    exec (.featdrvWrite f) s = .next (if (featWritten s f).getLsbD 41 = s.pf.featDrv.getLsbD 41 then t else revokeIndex t 4) :=
  next_whenReady hready _

/-! #### Partitions (15 R499) -/

theorem tget_map {α β : Type} (f : α → β) (t : Tbl α) (k : Nat) : tget (t.map (fun e => (e.1, f e.2))) k = (tget t k).map f := by
  induction t with
  | nil => rfl
  | cons e t ih =>
    obtain ⟨a, x⟩ := e
    simp only [List.map_cons, tget, ih]
    split <;> rfl

/-- A partition without the clusters of a mask. -/
def withoutClusters (x : Part) (mask : BitVec 20) : Part := { x with clusters := x.clusters &&& ~~~mask }

/-- The clusters that a mask drops from partition `p`. -/
def droppedBy (s : State) (p : Nat) (mask : BitVec 20) : BitVec 20 := (Machine.partOf s p).clusters &&& ~~~mask

/-- The partitions once `p` is `x`: the others lose its clusters, and partition 0 takes those that it drops. -/
def partsAfter (s : State) (p : Nat) (x : Part) : Tbl Part :=
  let parts := tput (s.parts.map (fun e => (e.1, withoutClusters e.2 x.clusters))) p x
  let zero := tgetD Machine.Part.none parts 0
  tput parts 0 { zero with clusters := zero.clusters ||| droppedBy s p x.clusters }

theorem partsAfter_self (s : State) (p : Nat) (x : Part) : tget (partsAfter s p x) p
    = some { x with clusters := if p = 0 then x.clusters ||| droppedBy s p x.clusters else x.clusters } := by
  unfold partsAfter
  dsimp only
  by_cases hp : p = 0
  · subst hp
    rw [tget_tput_self, tgetD_tput_self, if_pos rfl]
  · rw [tget_tput_ne _ _ (Ne.symm hp), tget_tput_self, if_neg hp]

theorem partsAfter_other {s : State} {p q : Nat} {x y : Part} (hqp : q ≠ p) (hq : q ≠ 0) (hy : tget s.parts q = some y) :
    tget (partsAfter s p x) q = some (withoutClusters y x.clusters) := by
  unfold partsAfter
  dsimp only
  rw [tget_tput_ne _ _ (Ne.symm hq), tget_tput_ne _ _ (Ne.symm hqp), tget_map (fun e => withoutClusters e x.clusters), hy]
  rfl

theorem partsAfter_zero {s : State} {p : Nat} {x y : Part} (hp : p ≠ 0) (hy : tget s.parts 0 = some y) :
    tget (partsAfter s p x) 0 = some { y with clusters := y.clusters &&& ~~~x.clusters ||| droppedBy s p x.clusters } := by
  unfold partsAfter
  dsimp only
  rw [tget_tput_self, tgetD, tget_tput_ne _ _ hp, tget_map (fun e => withoutClusters e x.clusters), hy]
  rfl

/-- The partition that PARTCMD asks for. -/
def askedPart (v : Nat) : Part :=
  { clusters := BitVec.ofNat 20 (field v 27 8), ceil := field v 47 40, ceilFused := field v 57 48 + 1, thrLog := field v 63 58 }

/-- A change of partition `p` with a mask leaves the clusters of the contexts of partition `q` alone. -/
def Unaffected (s : State) (p : Nat) (mask : BitVec 20) (q : Nat) : Prop :=
  q ≠ p ∧ (Machine.partOf s q).clusters &&& mask = 0 ∧ (q = 0 → droppedBy s p mask = 0)

/-- The limits of PARTCMD. -/
def PartAllowed (s : State) (v : Nat) : Prop :=
  let p := field v 4 0
  let x := askedPart v
  p ≤ 19 ∧ field v 39 28 = 0 ∧ 16 ≤ x.ceil ∧ x.ceil ≤ 128 ∧ 128 ≤ x.ceilFused ∧ 8 ≤ x.thrLog ∧ x.thrLog ≤ 16
    ∧ ∀ e ∈ s.ctxs, Unaffected s p x.clusters e.2.part

/-- The model's test of an affected partition. -/
def affects (s : State) (p : Nat) (mask : BitVec 20) (q : Nat) : Bool :=
  q == p || ((Machine.partOf s q).clusters &&& mask) != 0 || (q == 0 && (Machine.partOf s p).clusters &&& ~~~mask != 0)

theorem affects_eq_false {s : State} {p q : Nat} {mask : BitVec 20} : affects s p mask q = false ↔ Unaffected s p mask q := by
  simp only [affects, Unaffected, droppedBy, Bool.or_eq_false_iff, Bool.and_eq_false_iff, beq_eq_false_iff_ne, bne_eq_false_iff_eq, ne_eq,
    and_assoc, imp_iff_not_or]

theorem partAllowed_iff {s : State} {v : Nat} : PartAllowed s v ↔ ¬ (19 < field v 4 0 ∨ field v 39 28 ≠ 0 ∨ field v 47 40 < 16
    ∨ 128 < field v 47 40 ∨ field v 57 48 + 1 < 128 ∨ field v 63 58 < 8 ∨ 16 < field v 63 58
    ∨ s.ctxs.any (fun e => affects s (field v 4 0) (BitVec.ofNat 20 (field v 27 8)) e.2.part) = true) := by
  simp only [PartAllowed, askedPart, not_or, not_lt, not_not, Bool.not_eq_true, List.any_eq_false, ← affects_eq_false, ne_eq]

theorem revokeIndex_parts (s : State) (i : Nat) : (revokeIndex s i).parts = s.parts := revokeSlot_parts _ _

theorem partcmd_changes {s : State} {v : BitVec 64} (hready : s.pf.ready = true) (h : PartAllowed s v.toNat) :
    exec (.partcmd v) s = .next (revokeIndex { s with
      parts := partsAfter s (field v.toNat 4 0) (askedPart v.toNat), pf := { s.pf with partcmd := v } } 4) :=
  (next_whenReady hready _).trans (congrArg Host.Outcome.next (if_neg (partAllowed_iff.1 h)))

theorem partcmd_refused {s : State} {v : BitVec 64} (hready : s.pf.ready = true) (h : ¬ PartAllowed s v.toNat) :
    exec (.partcmd v) s = .next s :=
  (next_whenReady hready _).trans (congrArg Host.Outcome.next (if_pos (not_not.1 (fun hn => h (partAllowed_iff.2 hn)))))

/-! #### Commands of contexts (11 R435, 15 R496, R497, R503) -/

/-- CTXCMD holds the command. -/
def ctxCommanded (s : State) (v : BitVec 64) : State := { s with pf := { s.pf with ctxcmd := v } }

section
variable {s : State} {v : BitVec 64} {op : Nat} (hready : s.pf.ready = true) (hop : field v.toNat 9 8 = op)
include hready hop

omit hop in
theorem ctxCommand_busy (hbusy : s.pf.ctxstat = 1) (f : Nat → State → State) : ctxCommand s v op f = s :=
  (whenReady_of hready).trans (if_pos (Or.inl hbusy))

theorem ctxCommand_unnegotiated (hidle : s.pf.ctxstat ≠ 1) (hfeat : s.pf.featDrv.getLsbD 0 = false) (f : Nat → State → State) :
    ctxCommand s v op f = ctxStat (ctxCommanded s v) 5 :=
  (whenReady_of hready).trans ((if_neg (by simp [hidle, hop])).trans (if_pos (by rw [hfeat]; rfl)))

theorem ctxCommand_runs (hidle : s.pf.ctxstat ≠ 1) (hfeat : s.pf.featDrv.getLsbD 0 = true) (f : Nat → State → State) :
    ctxCommand s v op f = f (field v.toNat 5 0) (ctxCommanded s v) :=
  (whenReady_of hready).trans ((if_neg (by simp [hidle, hop])).trans (if_neg (by rw [hfeat]; decide)))

end

/-- A command of context `n` is under way. -/
def ctxPends (op n : Nat) (s : State) : State := { s with pf := { s.pf with ctxPending := some (op, n), ctxstat := 1 } }

/-- A reset or a destruction of a context starts with the reset. -/
def resetStarts (op n : Nat) (s : State) : State :=
  if (tget s.ctxs n).isNone then ctxStat s 3
  else
    let s := contextReset s n
    ctxStat { s with pf := { s.pf with ctxPending := some (op, n) } } 1

/-- The creation of a context from the descriptor at `pa`. -/
def contextCreates (pa n : Nat) (s : State) : State :=
  if (tget s.ctxs n).isSome then ctxStat s 3
  else if !isBacked pa || (potSeen s pa).poison then ctxStat s 2
  else
    let s := ownFill s 0 pa 512
    if (poisonIn s pa 512).isSome then ctxStat s 2
    else
      let b := ownRead s pa 512
      if !descOk s b then ctxStat s 2
      else if !worldOk s n (blkNum b 8 2) then ctxStat s 4
      else ctxStat { s with ctxs := tput s.ctxs n (ctxOfDesc b) } 0

/-- A command of a context is its operation's effect under the port's checks. -/
theorem exec_ctxcmd {s : State} {v : BitVec 64} {op : Nat} {i : Instr}
    (hmem : (op, i) ∈ [(1, .ctxcmdCreate v), (2, .ctxcmdReset v), (3, .ctxcmdDestroy v)]) :
    exec i s = .next (ctxCommand s v op (if op = 1 then contextCreates (field v.toNat 63 12 * 4096) else resetStarts op)) := by
  simp only [List.mem_cons, Prod.mk.injEq, List.not_mem_nil, or_false] at hmem
  obtain ⟨rfl, rfl⟩ | ⟨rfl, rfl⟩ | ⟨rfl, rfl⟩ := hmem <;> rfl

theorem resetStarts_missing {op n : Nat} {s : State} (h : tget s.ctxs n = none) : resetStarts op n s = ctxStat s 3 :=
  if_pos (by rw [h]; rfl)

theorem resetStarts_resets {op n : Nat} {s : State} (h : (tget s.ctxs n).isSome = true) : resetStarts op n s
    = ctxPends op n (contextReset s n) := by
  unfold resetStarts
  rw [if_neg (by rw [Option.isNone_eq_false_iff.2 h]; decide)]
  generalize contextReset s n = t
  rfl

theorem contextCreates_taken {pa n : Nat} {s : State} (h : (tget s.ctxs n).isSome = true) : contextCreates pa n s = ctxStat s 3 :=
  if_pos h

section
variable {pa n : Nat} {s : State} (hfree : tget s.ctxs n = none)
include hfree

theorem contextCreates_unreadable (h : isBacked pa = false ∨ (potSeen s pa).poison = true) : contextCreates pa n s = ctxStat s 2 :=
  (if_neg (by rw [hfree]; decide)).trans (if_pos (by rcases h with h | h <;> simp [h]))

theorem contextCreates_creates (hback : isBacked pa = true) (hpage : (potSeen s pa).poison = false)
    (hline : poisonIn (ownFill s 0 pa 512) pa 512 = none)
    (hdesc : descOk (ownFill s 0 pa 512) (ownRead (ownFill s 0 pa 512) pa 512) = true)
    (hworld : worldOk (ownFill s 0 pa 512) n (blkNum (ownRead (ownFill s 0 pa 512) pa 512) 8 2) = true) :
    contextCreates pa n s = { ownFill s 0 pa 512 with
      ctxs := tput (ownFill s 0 pa 512).ctxs n (ctxOfDesc (ownRead (ownFill s 0 pa 512) pa 512))
      pf := { (ownFill s 0 pa 512).pf with ctxstat := 0 } } := by
  unfold contextCreates
  dsimp only
  rw [if_neg (by rw [hfree]; decide), if_neg (by rw [hback, hpage]; decide), if_neg (by rw [hline]; decide),
    if_neg (by rw [hdesc]; decide), if_neg (by rw [hworld]; decide)]
  rfl

end

theorem worldOk_of {s : State} {n w : Nat} (h : w = 0 ∨ ((tget s.worlds w).isSome = true ∧ tget s.portil.bindings (n + 1) = some w)) :
    worldOk s n w = true := by
  unfold worldOk
  rcases h with h | ⟨hw, hb⟩
  · simp [h]
  · simp [hw, hb]

section
variable {s : State} {v : BitVec 64} {op : Nat} {i : Instr}
  (hmem : (op, i) ∈ [(1, .ctxcmdCreate v), (2, .ctxcmdReset v), (3, .ctxcmdDestroy v)]) (hready : s.pf.ready = true)
  (hop : field v.toNat 9 8 = op) (hidle : s.pf.ctxstat ≠ 1) (hfeat : s.pf.featDrv.getLsbD 0 = true)
include hmem hready hop hidle hfeat

theorem ctxcmd_resetStarts (hop1 : op ≠ 1) : exec i s = .next (resetStarts op (field v.toNat 5 0) (ctxCommanded s v)) := by
  rw [exec_ctxcmd hmem, ctxCommand_runs hready hop hidle hfeat, if_neg hop1]

theorem ctxcmd_contextCreates (hop1 : op = 1) :
    exec i s = .next (contextCreates (field v.toNat 63 12 * 4096) (field v.toNat 5 0) (ctxCommanded s v)) := by
  rw [exec_ctxcmd hmem, ctxCommand_runs hready hop hidle hfeat, if_pos hop1]

end

/-! #### Requests to Portil (15 R508) -/

theorem portreq_hands {s : State} {v : BitVec 64} (hready : s.pf.ready = true) (hidle : s.pf.portBusy = false) (hv : v.getLsbD 0 = true) :
    let buf := field v.toNat 63 11 * 2048
    let raw := ownRead { s with pf := { s.pf with portreq := v } } (0x80000000000 + buf) 1024
    let len := imgNum raw 2 2
    isHostWindow (0x80000000000 + buf) = true → 16 ≤ len → len ≤ 1024 → len % 16 = 0 →
    exec (.portreq v) s = .next { s with
      pf := { s.pf with portreq := v, portBusy := true }
      portil := { s.portil with pending := some (buf, raw.take len), queue := s.portil.queue ++ [(.mailbox, raw.take len)] } } := by
  intro buf raw len hwindow hlow hhigh hwhole
  refine (next_whenReady hready _).trans (congrArg Host.Outcome.next ((if_neg (by rw [hidle]; decide)).trans
    ((if_neg (by rw [hv]; decide)).trans ?_)))
  dsimp only
  rw [if_pos (show isHostWindow (hostAddr (field v.toNat 63 11 * 2048)) = true from hwindow)]
  exact congrArg (fun block : List Byte => ({ s with
    pf := { s.pf with portreq := v, portBusy := true }
    portil := { s.portil with pending := some (buf, block), queue := s.portil.queue ++ [(.mailbox, block)] } } : State))
    (if_pos ⟨hlow, hhigh, hwhole⟩)

theorem ctrassignAssign_assigns {s : State} {v : BitVec 64} (hready : s.pf.ready = true) (hv : v.getLsbD 63 = true) :
    exec (.ctrassignAssign v) s = .next { s with ctrs := tput s.ctrs (ctrKey v) { extent := field v.toNat 51 21, count := 0 } } :=
  (next_whenReady hready _).trans (congrArg Host.Outcome.next (if_neg (by rw [hv]; decide)))

theorem ctrassignUnassign_removes {s : State} {v : BitVec 64} (hready : s.pf.ready = true) (hv : v.getLsbD 63 = false) :
    exec (.ctrassignUnassign v) s = .next { s with ctrs := tdel s.ctrs (ctrKey v) } :=
  (next_whenReady hready _).trans (congrArg Host.Outcome.next (if_neg (by rw [hv]; decide)))

/-- Settles O55: a write does nothing before READY, and each register's effect after it. -/
theorem hostWrites : Obligations.HostWrites := by
  intro s v
  refine ⟨fun n q f hready i hi => ?_, fun hready => ⟨fun n q c x hc hx =>
      ⟨doorbell_moves hc hx hready, fun htorn => ⟨qerrRearm_rearms hc hx hready htorn, qerrTeardown_torn hc hx hready htorn⟩,
        qerrTeardown_tears hc hx hready⟩,
    fun n c hc => ⟨invcmd_starts hready hc, invcmd_busy hready hc, platecmd_busy hready hc, platecmd_starts hready hc,
      debugWrite_clears hready hc, debugWrite_sets hready hc, fun hv hworld hbare =>
        ⟨_, debugWrite_refused hready hc hv hworld hbare, tget_tput_self _ _ _⟩⟩,
    fun f => ⟨featWritten s f, featWritten_bit s f, featdrvWrite_writes hready f⟩,
    ⟨fun hinside => ⟨_, partcmd_changes hready hinside, ?_⟩, partcmd_refused hready⟩,
    fun op i hmem hop => ⟨fun hbusy => ?_, fun hidle => ⟨fun hfeat => ?_, fun hfeat h1 hsome => ?_, fun hfeat h1 hnone => ?_,
      fun hfeat h1 hsome => ?_, ?_⟩⟩,
    ctrassignAssign_assigns hready, ctrassignUnassign_removes hready,
    fun off => next_whenReady hready _, fun n off c hc => registerWrite_vf hready hc off, fun hidle hv => portreq_hands hready hidle hv⟩⟩
  · simp only [List.mem_cons, List.not_mem_nil, or_false] at hi
    rcases hi with rfl | rfl | rfl | rfl | rfl | rfl | rfl | rfl | rfl | rfl | rfl | rfl | rfl | rfl | rfl <;>
      exact next_whenReady_not hready _
  · rw [revokeIndex_parts]
    exact ⟨partsAfter_self s _ _, fun q x hqp hq hx => partsAfter_other hqp hq hx, fun x hp hx => partsAfter_zero hp hx⟩
  · rw [exec_ctxcmd hmem, ctxCommand_busy hready hbusy]
  · rw [exec_ctxcmd hmem, ctxCommand_unnegotiated hready hop hidle hfeat]
    rfl
  · rw [ctxcmd_contextCreates hmem hready hop hidle hfeat h1]
    exact congrArg Host.Outcome.next (contextCreates_taken hsome)
  · rw [ctxcmd_resetStarts hmem hready hop hidle hfeat h1]
    exact congrArg Host.Outcome.next (resetStarts_missing hnone)
  · intro t
    change _ = Host.Outcome.next (ctxPends op _ t)
    rw [ctxcmd_resetStarts hmem hready hop hidle hfeat h1]
    exact congrArg Host.Outcome.next (resetStarts_resets (s := ctxCommanded s v) hsome)
  · intro pa s1 s2 b hfeat h1 hnone
    rw [ctxcmd_contextCreates hmem hready hop hidle hfeat h1]
    exact ⟨fun h => congrArg Host.Outcome.next (contextCreates_unreadable hnone h),
      fun hback hpage hline hdesc hworld => congrArg Host.Outcome.next
        (contextCreates_creates hnone hback hpage hline hdesc (worldOk_of hworld))⟩

end Sys2Proof.Proofs
end

/-! ### Commands of the hallmark engines that complete (12 R454-R464) -/
section
namespace Sys2Proof.Proofs
open Sys2Proof Sys2Proof.Machine Sys2Proof.Laws

section
variable {s : State} {die port : Nat} {p : Port} {c : HallCmd} (hp : tget s.ports (portKey die port) = some p)
  (hc : headCmd p = some c)
include hp hc

theorem hallmarkBadcmd_fails (hhead : c.headOk = false) :
    exec (.hallmarkBadcmd die port) s = .next (failCmd s (portKey die port) c false 1) := by
  show execHallmarkBadcmd die port s = _
  unfold execHallmarkBadcmd
  dsimp only
  rw [hp, Option.bind_some, hc]
  exact congrArg Host.Outcome.next (if_neg (by rw [hhead]; decide))

variable (hhead : c.headOk = true)
include hhead

theorem hallmarkOpen_opens {ign : Bool} {label pa : Nat} {leaf : Dword} {s1 : State} (hcmd : c.cmd = 1) (hlen : 3 ≤ c.words.length)
    (halign : c.pair 0 % 256 = 0) (haddr : c.pair 0 < 2 ^ 57) (halg : c.word 2 ≤ 1)
    (hopt : hallOptions true (c.words.drop 3) false 0 = some (ign, label)) (hheld : sessionsHeld s die < 4096)
    (hcount : tgetD 0 s.hallCount die < 2 ^ 32 - 1) (hfailed : p.failed = false)
    (hxlate : xlateProgram s (dieUnits die) (coachOf s p.coach).ctx (c.pair 0) .write = (.ok pa leaf, s1)) :
    exec (.hallmarkOpen die port) s = .next (openSession s1 (portKey die port) die (coachOf s p.coach) c ign label) := by
  show execHallmarkOpen die port s = _
  unfold execHallmarkOpen
  dsimp only
  rw [cmdAt_of hp hc hhead hcmd]
  dsimp only
  rw [if_neg (by omega), hopt]
  dsimp only
  rw [if_neg (by omega), hfailed, if_neg (by decide), hxlate]

theorem hallmarkAbsorb_absorbs {o : Bool × Nat} {key : Nat} {se : Session} {bs : List Byte} {s1 : State} (hcmd : c.cmd = 2)
    (hlen : 4 ≤ c.words.length) (haddr : c.pair 1 + c.word 3 ≤ 2 ^ 57) (hopt : hallOptions false (c.words.drop 4) false 0 = some o)
    (hse : findSession s die (coachOf s p.coach).ctx (c.word 0) = some (key, se)) (hvoid : se.void_ = none) (hfailed : p.failed = false)
    (hall : absorbLines die (coachOf s p.coach).ctx ((c.word 3 - p.done) / 64 + 2) (c.pair 1 + p.done) (c.word 3 - p.done) [] s
      = .all bs s1) :
    exec (.hallmarkAbsorb die port) s
      = .next (answerCmd (takeBytes s1 key bs) (portKey die port) c [statusWord 2 o.1 0] 0) := by
  show execHallmarkAbsorb die port s = _
  unfold execHallmarkAbsorb
  dsimp only
  rw [cmdAt_of hp hc hhead hcmd]
  dsimp only
  rw [if_neg (by omega), hopt]
  dsimp only
  rw [hse]
  dsimp only
  rw [hvoid, if_neg (by decide), if_neg (by decide), hfailed, if_neg (by decide), hall]
  rfl

theorem hallmarkClose_signs {o : Bool × Nat} {key : Nat} {se : Session} (hcmd : c.cmd = 3) (hlen : c.words ≠ [])
    (hopt : hallOptions false (c.words.drop 1) false 0 = some o)
    (hse : findSession s die (coachOf s p.coach).ctx (c.word 0) = some (key, se)) (hvoid : se.void_ = none)
    (hroom : (tgetD [] s.signing die).length < 2) :
    ∃ t, exec (.hallmarkClose die port) s = .next (answerCmd t (portKey die port) c [] 1) ∧ key ∈ tgetD [] t.signing die := by
  refine ⟨{ s with sessions := tput s.sessions key { se with closing := some (portKey die port, o.1) }
                   signing := tput s.signing die (tgetD [] s.signing die ++ [key]) }, ?_, ?_⟩
  · have hwords : ¬ c.words.length < 1 := Nat.not_lt.2 (List.length_pos_iff.2 hlen)
    show execHallmarkClose die port s = _
    unfold execHallmarkClose
    dsimp only
    rw [cmdAt_of hp hc hhead hcmd]
    dsimp only
    rw [if_neg hwords, hopt]
    dsimp only
    rw [hse]
    dsimp only
    rw [hvoid, if_neg (by decide), if_neg (by decide), if_neg (Nat.not_le.2 hroom)]
  · show key ∈ tgetD [] (tput s.signing die (tgetD [] s.signing die ++ [key])) die
    rw [tgetD_tput_self]
    exact List.mem_append_right _ (List.mem_singleton_self key)

end

theorem hallmarkRecordWrite_finishes {s : State} {die n : Nat} (h : isSigning s die (sessionKey die n) = true) :
    exec (.hallmarkRecordWrite die n) s = .next (finishClose s die (sessionKey die n)) := congrArg Host.Outcome.next (if_pos h)

end Sys2Proof.Proofs
end

/-! ### Requests that Portil answers DONE (12 R439-R453, 15 R508) -/
section
namespace Sys2Proof.Proofs
open Sys2Proof Sys2Proof.Machine Sys2Proof.Laws

/-- A state that the DONE answer to a request leaves. -/
def AnsweredDone (src : ReqSource) (block : List Byte) (t : State) : Prop := ∃ u r, t = answerReq u src block 0 r

/-- It is this request's turn: Portil has taken it, or none waits before it (12 R440). -/
def HasTurn (s : State) (src : ReqSource) (block : List Byte) : Prop :=
  s.portil.taken = some (src, block) ∨ (s.portil.queue = [] ∧ s.portil.taken = none)

/-- Portil has begun the request that it had taken. -/
def begun (s : State) : State := { s with portil := { s.portil with taken := none } }

/-- The block asks for request `code`: its length is the request's, and the bytes of the given spans are zero. -/
def Asks (block : List Byte) (code len : Nat) (zeros : List (Nat × Nat)) : Prop :=
  imgNum block 0 2 = code ∧ blockGood block len zeros = true

section
variable {s : State} {src : ReqSource} {block : List Byte} (hturn : HasTurn s src block)
include hturn

/-- A request whose turn it is, whose block is good and whose path is given, is performed. -/
theorem request_begins {code len : Nat} {zeros : List (Nat × Nat)} {path : Bool} (hasks : Asks block code len zeros)
    (hlow : 1 ≤ code) (hhigh : code ≤ 10) (hpath : path = true) (f : State → State) :
    request s src block code len path zeros f = f (begun s) := by
  have hbegun : request s src block code len path zeros f = perform (begun s) src block code len path zeros f := by
    rcases hturn with htaken | ⟨hqueue, hnone⟩
    · rw [request, if_pos htaken, begun]
    · have hsame : begun s = s := by rw [begun, ← hnone]
      rw [request, if_neg (by rw [hnone]; exact fun h => nomatch h), hqueue, hsame]
      rfl
  rw [hbegun, hpath, perform_good hasks.1 hlow hhigh hasks.2]

/-- An instruction that makes a request completes when what the request does is answered DONE. -/
theorem completes_of_done {i : Instr} {code len : Nat} {zeros : List (Nat × Nat)} {path : Bool} {f : State → State}
    (hrun : exec i s = .next (request s src block code len path zeros f)) (hasks : Asks block code len zeros)
    (hlow : 1 ≤ code) (hhigh : code ≤ 10) (hpath : path = true) (hdone : AnsweredDone src block (f (begun s))) :
    ∃ t r, exec i s = .next (answerReq t src block 0 r) := by
  obtain ⟨t, r, ht⟩ := hdone
  exact ⟨t, r, by rw [hrun, request_begins hturn hasks hlow hhigh hpath, ht]⟩

/-! #### Worlds (12 R440) -/

theorem createWorld_done (hasks : Asks block 1 16 [(11, 5)]) (hbound : boundTo s src (imgNum block 8 2) = true)
    (hlow : 1 ≤ imgNum block 8 2) (hhigh : imgNum block 8 2 ≤ 2047) (hflags : imgNum block 10 1 ≤ 1)
    (hnew : tget s.worlds (imgNum block 8 2) = none) (hslot : freeSlot s ≠ none) :
    ∃ t r, exec (.createWorld src block) s = .next (answerReq t src block 0 r) := by
  obtain ⟨slot, hfree⟩ := Option.ne_none_iff_exists'.1 hslot
  have hfine : ¬ (imgNum block 8 2 = 0 ∨ 2047 < imgNum block 8 2 ∨ 1 < imgNum block 10 1
      ∨ (tget (begun s).worlds (imgNum block 8 2)).isSome = true) := by
    rw [show tget (begun s).worlds (imgNum block 8 2) = none from hnew]
    simp
    omega
  refine completes_of_done hturn rfl hasks (by decide) (by decide) hbound ?_
  dsimp only
  rw [if_neg hfine, show freeSlot (begun s) = some slot from hfree]
  exact ⟨_, _, rfl⟩

theorem destroyWorld_done (hasks : Asks block 2 16 [(10, 6)]) (hbound : boundTo s src (imgNum block 8 2) = true)
    (hworld : (tget s.worlds (imgNum block 8 2)).isSome = true) (hctxs : ∀ e ∈ s.ctxs, e.2.world ≠ imgNum block 8 2)
    (hpot : ∀ e ∈ s.pot, e.2.world ≠ imgNum block 8 2) :
    ∃ t r, exec (.destroyWorld src block) s = .next (answerReq t src block 0 r) := by
  have hunused : ¬ (((begun s).ctxs.any (fun e => e.2.world == imgNum block 8 2)
      || (begun s).pot.any (fun e => e.2.world == imgNum block 8 2)) = true) := by
    simp only [Bool.or_eq_true, List.any_eq_true, beq_iff_eq, not_or, not_exists, not_and]
    exact ⟨hctxs, hpot⟩
  refine completes_of_done hturn rfl hasks (by decide) (by decide) hbound ?_
  dsimp only
  rw [if_neg (by rw [Option.isNone_eq_false_iff.2 (show (tget (begun s).worlds _).isSome = true from hworld)]; decide), if_neg hunused]
  exact ⟨_, _, rfl⟩

/-! #### Pages (12 R441-R443, R446, R447) -/

theorem assign_done (hasks : Asks block 3 32 [(18, 14)]) (hsrc : src = .mailbox) (hpage : pageOk (imgNum block 8 8) = true)
    (hdram : isDram (imgNum block 8 8) = true) (hquiet : frameQuiet s (imgNum block 8 8) = true)
    (hstate : (potOf s (imgNum block 8 8)).state = 0 ∨ (potOf s (imgNum block 8 8)).state = 3)
    (hfree : (potOf s (imgNum block 8 8)).world = 0) (hworld : (tget s.worlds (imgNum block 16 2)).isSome = true) :
    ∃ t r, exec (.assign src block) s = .next (answerReq t src block 0 r) := by
  have hfine : ¬ (((potOf (begun s) (imgNum block 8 8)).state ≠ 0 ∧ (potOf (begun s) (imgNum block 8 8)).state ≠ 3)
      ∨ (potOf (begun s) (imgNum block 8 8)).world ≠ 0 ∨ (tget (begun s).worlds (imgNum block 16 2)).isNone = true) := by
    rintro (⟨h0, h3⟩ | hw | hnone)
    · exact hstate.elim h0 h3
    · exact hw hfree
    · rw [Option.isNone_eq_false_iff.2 (show (tget (begun s).worlds _).isSome = true from hworld)] at hnone
      exact Bool.noConfusion hnone
  refine completes_of_done hturn rfl hasks (by decide) (by decide) (by rw [hsrc]; rfl) ?_
  dsimp only
  rw [if_neg (by rw [hpage]; decide), if_neg hfine, if_neg (by rw [hdram]; decide),
    if_neg (by rw [show frameQuiet (begun s) _ = true from hquiet]; decide)]
  exact ⟨_, _, rfl⟩

theorem reclaim_done (hasks : Asks block 4 16 []) (hsrc : src = .mailbox) (hpage : pageOk (imgNum block 8 8) = true)
    (hquiet : frameQuiet s (imgNum block 8 8) = true) (hstate : (potOf s (imgNum block 8 8)).state = 1) :
    ∃ t r, exec (.reclaim src block) s = .next (answerReq t src block 0 r) := by
  refine completes_of_done hturn rfl hasks (by decide) (by decide) (by rw [hsrc]; rfl) ?_
  dsimp only
  rw [if_neg (by rw [hpage]; decide), if_neg (fun h => h.1 hstate),
    if_neg (by rw [show frameQuiet (begun s) _ = true from hquiet]; decide)]
  exact ⟨_, _, rfl⟩

theorem exportPage_done (hasks : Asks block 5 32 [(24, 8)]) (hsrc : src = .mailbox) (hpage : pageOk (imgNum block 8 8) = true)
    (hquiet : frameQuiet s (imgNum block 8 8) = true) (hstate : (potOf s (imgNum block 8 8)).state = 1)
    (hblob : blobAt (imgNum block 16 8) = true) (hroom : s.portil.exports.length < 1048576) :
    ∃ t r, exec (.exportPage src block) s = .next (answerReq t src block 0 r) := by
  refine completes_of_done hturn rfl hasks (by decide) (by decide) (by rw [hsrc]; rfl) ?_
  dsimp only
  rw [if_neg (by rw [hpage]; decide), if_neg (fun h => h.1 hstate), if_neg (by rw [hblob]; decide),
    if_neg (show ¬ 1048576 ≤ (begun s).portil.exports.length from Nat.not_le.2 hroom),
    if_neg (by rw [show frameQuiet (begun s) _ = true from hquiet]; decide)]
  exact ⟨_, _, rfl⟩

theorem importPage_done (hasks : Asks block 6 32 [(26, 6)]) (hsrc : src = .mailbox) (hpage : pageOk (imgNum block 16 8) = true)
    (hdram : isDram (imgNum block 16 8) = true) (hat : blobAt (imgNum block 8 8) = true) (hquiet : frameQuiet s (imgNum block 16 8) = true)
    (hstate : (potOf s (imgNum block 16 8)).state = 0) (hfree : (potOf s (imgNum block 16 8)).world = 0)
    (hworld : (tget s.worlds (imgNum block 24 2)).isSome = true)
    (howner : imgNum (ownRead s (imgNum block 8 8) 4160) 4104 2 = imgNum block 24 2)
    (hlisted : (imgNum block 24 2, imgNum (ownRead s (imgNum block 8 8) 4160) 4096 8) ∈ s.portil.exports)
    (htag : ((ownRead s (imgNum block 8 8) 4160).drop 4112).take 16 = blobTag (memoryKey s (imgNum block 24 2))
      (imgNum (ownRead s (imgNum block 8 8) 4160) 4096 8) ((ownRead s (imgNum block 8 8) 4160).take 4112)) :
    ∃ t r, exec (.importPage src block) s = .next (answerReq t src block 0 r) := by
  have hread : ownRead (begun s) (imgNum block 8 8) 4160 = ownRead s (imgNum block 8 8) 4160 := rfl
  have hkey : memoryKey (begun s) (imgNum block 24 2) = memoryKey s (imgNum block 24 2) := rfl
  have hgood : (imgNum (ownRead s (imgNum block 8 8) 4160) 4104 2 == imgNum block 24 2
      && (begun s).portil.exports.contains (imgNum block 24 2, imgNum (ownRead s (imgNum block 8 8) 4160) 4096 8)
      && ((ownRead s (imgNum block 8 8) 4160).drop 4112).take 16 == blobTag (memoryKey s (imgNum block 24 2))
        (imgNum (ownRead s (imgNum block 8 8) 4160) 4096 8) ((ownRead s (imgNum block 8 8) 4160).take 4112)) = true := by
    rw [htag, howner, List.contains_iff_mem.2 (show _ ∈ (begun s).portil.exports from hlisted)]
    simp
  refine completes_of_done hturn rfl hasks (by decide) (by decide) (by rw [hsrc]; rfl) ?_
  dsimp only
  rw [if_neg (by rw [hpage]; decide), if_neg (show ¬ ((potOf (begun s) _).state ≠ 0 ∨ (potOf (begun s) _).world ≠ 0) from
      fun h => h.elim (fun h => h hstate) (fun h => h hfree)),
    if_neg (by rw [Option.isNone_eq_false_iff.2 (show (tget (begun s).worlds _).isSome = true from hworld)]; decide),
    if_neg (by rw [hdram, hat]; decide), if_neg (by rw [show frameQuiet (begun s) _ = true from hquiet]; decide), hread, hkey,
    if_pos hgood]
  exact ⟨_, _, rfl⟩

/-! #### Content keys (12 R439, R449, R451) -/

theorem loadKey_done {n : Nat} {key : List Nat} (hsrc : src = .ownerSession n) (hn : n ∈ s.portil.sessions)
    (hcount : imgNum block 10 1 ≤ 8)
    (hasks : Asks block 7 464 [(11, 5), (16 + 49 * imgNum block 10 1, 49 * (8 - imgNum block 10 1)), (448, 16)])
    (hworld : imgNum block 8 2 = 0 ∨ (tget s.worlds (imgNum block 8 2)).isSome = true) (hslot : freeSlot s ≠ none)
    (hpolicy : (policyOf block).all (fun p => measurementOf s p.1 == some p.2) = true)
    (hkey : keyUnwrap (hkdf384 (toNats (Config.sessionSecret n)) []) (toNats ((block.drop 408).take 40)) = some key) :
    ∃ t r, exec (.loadKey src block) s = .next (answerReq t src block 0 r) := by
  subst hsrc
  obtain ⟨slot, hfree⟩ := Option.ne_none_iff_exists'.1 hslot
  have hfine : ¬ (8 < imgNum block 10 1 ∨ (imgNum block 8 2 ≠ 0 ∧ (tget (begun s).worlds (imgNum block 8 2)).isNone = true)) := by
    rintro (h8 | ⟨h0, hnone⟩)
    · omega
    · rw [Option.isNone_eq_false_iff.2 (show (tget (begun s).worlds _).isSome = true from hworld.resolve_left h0)] at hnone
      exact Bool.noConfusion hnone
  have hmeasured : ¬ ((policyOf block).any (fun p => measurementOf (begun s) p.1 != some p.2) = true) := by
    rw [Bool.not_eq_true, List.any_eq_false]
    intro p hp
    rw [bne, show (measurementOf (begun s) p.1 == some p.2) = true from List.all_eq_true.1 hpolicy p hp]
    decide
  refine completes_of_done hturn rfl hasks (by decide) (by decide) (List.contains_iff_mem.2 hn) ?_
  dsimp only
  rw [if_neg hfine, if_neg hmeasured, show freeSlot (begun s) = some slot from hfree, hkey]
  exact ⟨_, _, rfl⟩

theorem revokeKey_done {n : Nat} {k : KeySlot} (hsrc : src = .ownerSession n) (hn : n ∈ s.portil.sessions)
    (hk : tget s.keys (imgNum block 8 2) = some k) (hkind : k.kind = 2) (hsession : k.session = n) (hasks : Asks block 8 16 [(10, 6)]) :
    ∃ t r, exec (.revokeKey src block) s = .next (answerReq t src block 0 r) := by
  subst hsrc
  refine completes_of_done hturn rfl hasks (by decide) (by decide) ?_ ⟨_, _, rfl⟩
  rw [hk]
  dsimp only
  rw [hasSession, List.contains_iff_mem.2 hn, hkind, hsession]
  simp

/-! #### Debug unlock (12 R452, R453) -/

omit hturn in
/-- The driver and management may ask. -/
theorem managed_path (hsrc : src = .mailbox ∨ src = .mctp) : (src == .mailbox || src == .mctp) = true := by
  rcases hsrc with rfl | rfl <;> rfl

theorem getNonce_done (hsrc : src = .mailbox ∨ src = .mctp) (hasks : Asks block 9 16 [(8, 8)]) :
    ∃ t r, exec (.getNonce src block) s = .next (answerReq t src block 0 r) :=
  completes_of_done hturn rfl hasks (by decide) (by decide) (managed_path hsrc) ⟨_, _, rfl⟩

theorem debugUnlock_done {k : Nat} (hsrc : src = .mailbox ∨ src = .mctp) (hversion : imgNum block 8 2 = 1) (hlow : 1 ≤ imgNum block 10 1)
    (hhigh : imgNum block 10 1 ≤ 8)
    (hasks : Asks block 10 256 [(11, 1), (12 + 2 * imgNum block 10 1, 2 * (8 - imgNum block 10 1)), (204, 52)])
    (hnonce : s.portil.nonce = some k) (hfresh : (block.drop 76).take 32 = leBytes 32 (Config.nonce k).toNat)
    (hdevice : (block.drop 28).take 48 = Config.identityDigest)
    (hsigned : Config.tokenSigned ((block.drop 8).take 100) ((block.drop 108).take 96) = true) :
    ∃ t r, exec (.debugUnlock src block) s = .next (answerReq t src block 0 r) := by
  have hgood : ((block.drop 76).take 32 == leBytes 32 (Config.nonce k).toNat && (block.drop 28).take 48 == Config.identityDigest
      && Config.tokenSigned ((block.drop 8).take 100) ((block.drop 108).take 96)) = true := by
    rw [hfresh, hdevice, hsigned]
    simp
  refine completes_of_done hturn rfl hasks (by decide) (by decide) (managed_path hsrc) ?_
  dsimp only
  rw [if_neg (by omega), show (begun s).portil.nonce = some k from hnonce]
  dsimp only
  rw [if_neg (by rw [hgood]; decide)]
  exact ⟨_, _, rfl⟩

end

end Sys2Proof.Proofs
end

/-! ### The driver's answers, what the host's commands come to, management, and bring-up (11 R415, R422-R426, 12 R441, R449, R450,
15 R493, R498-R505) -/
section
namespace Sys2Proof.Proofs
open Sys2Proof Sys2Proof.Machine Sys2Proof.Laws

/-! #### The driver's answers and RAKECMD (11 R415, R425, R426, 15 R505) -/

section
variable {s : State} {n f : Nat} {seq : Word} {e : FaultEntry} (he : entryOf s n seq = some (f, e))
include he

theorem faultrespRetry_reruns : exec (.faultrespRetry n seq) s = .next
    ((takePending (serviceWaiters (closeEntry s f) f) f).1.foldl rerun (takePending (serviceWaiters (closeEntry s f) f) f).2) := by
  show execFaultrespRetry n seq s = _
  unfold execFaultrespRetry
  rw [he]

theorem faultrespFail_fails : ∃ t, exec (.faultrespFail n seq) s
    = .next ((takePending (closeEntry s f) f).1.foldl failPending t) := by
  show ∃ t, execFaultrespFail n seq s = _
  unfold execFaultrespFail
  rw [he]
  exact ⟨_, rfl⟩

end

theorem closeEntry_closes (s : State) (f : Nat) : tget (closeEntry s f).faults f = none := (tget_tdel _ _ _).trans (if_pos rfl)

section
variable {s : State} {n rk : Nat} {v : BitVec 64} (hidle : rakeBusy s n = false) (hrk : cmdRake s n v = some rk)
include hidle hrk

theorem rakecmdResume_resumes (hop : field v.toNat 57 56 = 1) :
    ∃ t, exec (.rakecmdResume n v) s = .next (settleResume (rakeStat t n 0) n) := by
  show ∃ t, execRakecmdResume n v s = _
  unfold execRakecmdResume
  dsimp only
  rw [hop, hidle, if_neg (by decide), if_neg (by decide), hrk]
  exact ⟨_, rfl⟩

theorem rakecmdKill_kills (hop : field v.toNat 57 56 = 2) : ∃ t, exec (.rakecmdKill n v) s = .next (rakeStat t n 0) := by
  show ∃ t, execRakecmdKill n v s = _
  unfold execRakecmdKill
  dsimp only
  rw [hop, hidle, if_neg (by decide), if_neg (by decide), hrk]
  exact ⟨_, rfl⟩

end

theorem foldl_modCoach_rakes (f : Coach → Coach) (l : List Nat) (s : State) : (l.foldl (fun s k => modCoach s k f) s).rakes = s.rakes := by
  induction l generalizing s with
  | nil => rfl
  | cons k l ih => rw [List.foldl_cons, ih, modCoach_rakes]

theorem debuggerHaltRequest_halts {s : State} {n : Nat} {r : Rake} (hr : tget s.rakes n = some r) (hhalt : r.halt = none) :
    ∃ t, exec (.debuggerHaltRequest n) s = .next t ∧ (tget t.rakes n).map Rake.halt = some (some (0, 14, 0, 0, 0)) := by
  let stop : Coach → Coach := fun co => if co.trap.isSome then { co with skid := 33 } else co
  let halt : Rake → Rake := fun r => { r with halt := some (0, 14, 0, 0, 0) }
  refine ⟨modRake (r.coaches.foldl (fun s k => modCoach s k stop) s) n halt, ?_, ?_⟩
  · show execDebuggerHaltRequest n s = _
    unfold execDebuggerHaltRequest
    rw [hr]
    exact congrArg Host.Outcome.next (if_neg (by rw [hhalt]; decide))
  · rw [show tget (modRake (r.coaches.foldl (fun s k => modCoach s k stop) s) n halt).rakes n = some (halt r) from
      tget_tmod_of ((congrArg (tget · n) (foldl_modCoach_rakes stop r.coaches s)).trans hr) halt]
    rfl

/-! #### Invalidations, plates and contexts (08 R331, 11 R422, R435, 15 R503) -/

theorem invalidationComplete_raises {s : State} {n : Nat} {c : Ctx} (hc : tget s.ctxs n = some c) (hbusy : c.invBusy = true)
    (hfree : tilesHold s (fun k p => k / 16384 == n
      && decide ((invRange c).1 ≤ p.1 ∧ p.1 < (invRange c).1 + (invRange c).2)) = false) :
    ∃ t, exec (.invalidationComplete n) s = .next t ∧ (n + 1, 17) ∈ t.msix := by
  have hrun : ¬ ((!c.invBusy || tilesHold s (fun k p => k / 16384 == n
      && decide ((invRange c).1 ≤ p.1 ∧ p.1 < (invRange c).1 + (invRange c).2))) = true) := by
    rw [hbusy, hfree]
    decide
  show ∃ t, execInvalidationComplete n s = _ ∧ _
  unfold execInvalidationComplete
  rw [hc]
  exact ⟨_, congrArg Host.Outcome.next (if_neg hrun), mem_raiseVector _ _ _⟩

theorem plateLoadComplete_loads {s s1 : State} {n : Nat} {c : Ctx} {p : Plate} (hc : tget s.ctxs n = some c) (hbusy : c.plateBusy = true)
    (hload : loadPlate s n c c.plateCmd = (.ok p, s1)) :
    ∃ t, exec (.plateLoadComplete n) s = .next (raiseVector t (n + 1) 17) := by
  show ∃ t, execPlateLoadComplete n s = _
  unfold execPlateLoadComplete
  rw [hc]
  dsimp only
  rw [hbusy, if_neg (by decide), hload]
  exact ⟨_, rfl⟩

theorem ctxcmdComplete_reset {s : State} {n : Nat} (hpending : s.pf.ctxPending = some (2, n)) (hpaid : ctxOwes s n = false) :
    exec .ctxcmdComplete s = .next { s with pf := { s.pf with ctxPending := none, ctxstat := 0 } } := by
  show execCtxcmdComplete s = _
  unfold execCtxcmdComplete
  rw [hpending]
  dsimp only
  rw [hpaid, if_neg (by decide), if_neg (by decide)]
  rfl

/-! #### Accesses from outside (15 R493, R498) -/

theorem hostApertureAccess_writes {s : State} {off size : Nat} {v : BitVec 64} (hready : s.pf.ready = true) :
    let pa := s.pf.aperbase.toNat + off % 2 ^ 36
    isBacked pa = true → potSeen s pa = PotE.free → pa % 64 + min size 8 ≤ 64 →
    exec (.hostApertureAccess true off size v) s
      = .next (ownWrite (ownFill s 0 pa (min size 8)) 0 pa (leBytes (min size 8) v.toNat)) := by
  intro pa hback hfree hline
  show execHostApertureAccess true off size v s = _
  unfold execHostApertureAccess
  dsimp only
  rw [hready, if_neg (by decide), if_lt_eq_min, if_pos (show isBacked (s.pf.aperbase.toNat + off % 2 ^ 36) = true from hback),
    refusedAt_open hfree hline]
  rfl

theorem peerAccess_writes {s : State} {n pa size : Nat} {v : BitVec 64} (hn : n < 12) (hup : s.pf.featDev.getLsbD (52 + n) = true)
    (hdram : isDram pa = true) (hfree : potSeen s pa = PotE.free) (hline : pa % 64 + min size 8 ≤ 64) :
    exec (.peerAccess n true pa size v) s
      = .next (ownWrite (ownFill s 0 pa (min size 8)) 0 pa (leBytes (min size 8) v.toNat)) := by
  show execPeerAccess n true pa size v s = _
  unfold execPeerAccess
  dsimp only
  rw [if_lt_eq_min, if_neg (by simp [hup]; omega), hdram, refusedAt_open hfree hline]
  rfl

theorem atsInvalidation_drops {s : State} {n pages : Nat} (hdev : s.pf.featDev.getLsbD 44 = true) (hdrv : s.pf.featDrv.getLsbD 44 = true)
    (hfree : tilesHold s (fun _ p => decide (0x80000000 + n ≤ p.2.1 / 4096 ∧ p.2.1 / 4096 < 0x80000000 + n + pages)) = false) :
    ∃ t, exec (.atsInvalidation n pages) s = .next t
      ∧ ∀ c ∈ t.l2, ¬ (0x80000000 + n ≤ c.line / 64 ∧ c.line / 64 < 0x80000000 + n + pages) := by
  have hrun : ¬ ((!atsOn s || tilesHold s (fun _ p =>
      decide (0x80000000 + n ≤ p.2.1 / 4096 ∧ p.2.1 / 4096 < 0x80000000 + n + pages))) = true) := by
    rw [hfree, atsOn, hdev, hdrv]
    decide
  refine ⟨_, congrArg Host.Outcome.next (if_neg hrun), fun c hc => ?_⟩
  have hkept := (List.mem_filter.1 hc).2
  exact of_decide_eq_false ((Bool.not_eq_true' _) ▸ hkept)

/-! #### Sessions, bindings and rotation (12 R449, R450, 15 R493) -/

theorem spdmRequest_finishes {s : State} {n transport : Nat} (htransport : transport ≤ 1) (hn : n ∈ s.portil.exchanged) :
    ∃ t, exec (.spdmRequest n 0xE5 transport) s = .next t ∧ n ∈ t.portil.sessions := by
  refine ⟨_, congrArg Host.Outcome.next ((if_neg (Nat.not_lt.2 htransport)).trans ((if_neg (by decide)).trans ((if_pos rfl).trans
    (if_neg (by rw [List.contains_iff_mem.2 hn]; decide))))), ?_⟩
  exact List.mem_append_right _ (List.mem_singleton_self n)

theorem tdispRequest_binds {s : State} {n world : Nat} (hdev : s.pf.featDev.getLsbD 43 = true) (hdrv : s.pf.featDrv.getLsbD 43 = true)
    (hlow : 1 ≤ n) (hhigh : n ≤ 64) : ∃ t, exec (.tdispRequest n world true) s = .next t ∧ tget t.portil.bindings n = some world := by
  have hrun : ¬ ((!(s.pf.featDev.getLsbD 43 && s.pf.featDrv.getLsbD 43) || decide (n = 0) || decide (64 < n)) = true) := by
    rw [hdev, hdrv]
    simp
    omega
  exact ⟨_, congrArg Host.Outcome.next ((if_neg hrun).trans (if_pos rfl)), tget_tput_self _ _ _⟩

/-! #### Bring-up (15 R500, R501) -/

section
variable {s : State} (hfatal : s.pf.fatal = false) (hready : s.pf.ready = false)
include hfatal hready

/-- A stage runs when the one before it has completed. -/
theorem next_afterStage {k : Nat} (hstage : s.pf.stage = k) (f : State → State) :
    (Host.Outcome.next (afterStage s k f) : Out) = .next (f s) := congrArg Host.Outcome.next (if_pos ⟨hstage, hfatal, hready⟩)

theorem dramTraining_trains (hstage : s.pf.stage = 1) : ∃ t, exec (.dramTraining true) s = .next t ∧ t.pf.stage = 2 :=
  ⟨_, next_afterStage hfatal hready hstage _, rfl⟩

theorem systemPlateLoad_loads {image : List Byte} {p : Plate} (hstage : s.pf.stage = 2) (hplate : checkPlate image true 0 = .ok p) :
    ∃ t, exec (.systemPlateLoad image true) s = .next t ∧ t.sysplate = some p := by
  refine ⟨_, next_afterStage hfatal hready hstage _, ?_⟩
  dsimp only
  rw [hplate]
  rfl

theorem clusterSelfTest_tests (passed : BitVec 20) (hstage : s.pf.stage = 3) :
    ∃ t, exec (.clusterSelfTest passed) s = .next t ∧ t.pf.stage = 4 := ⟨_, next_afterStage hfatal hready hstage _, rfl⟩

theorem extumLinkTraining_trains (up : BitVec 12) (hstage : s.pf.stage = 4) :
    ∃ t, exec (.extumLinkTraining up) s = .next t ∧ t.pf.stage = 5 := ⟨_, next_afterStage hfatal hready hstage _, rfl⟩

theorem ready_raises (hstage : s.pf.stage = 5) : ∃ t, exec .ready s = .next t ∧ t.pf.ready = true := by
  refine ⟨_, next_afterStage hfatal hready hstage _, ?_⟩
  dsimp only
  rw [raiseVector_pf]
  rfl

end

end Sys2Proof.Proofs
end

/-! ### Where the host's side completes -/
section
namespace Sys2Proof.Proofs
open Sys2Proof Sys2Proof.Machine Sys2Proof.Laws

/-- A partition changes within its limits when no context exists. -/
theorem partcmd_ceil {s : State} {v : BitVec 64} (hready : s.pf.ready = true) (hallowed : PartAllowed s v.toNat) :
    ∃ t, exec (.partcmd v) s = .next t ∧ (tget t.parts (field v.toNat 4 0)).map Part.ceil = some (field v.toNat 47 40) := by
  refine ⟨_, partcmd_changes hready hallowed, ?_⟩
  rw [revokeIndex_parts, partsAfter_self]
  rfl

theorem revokeIndex_pf (s : State) (i : Nat) : (revokeIndex s i).pf = s.pf := by
  unfold revokeIndex
  induction tkeys (s.keys.filter (fun e => e.2.kind == 2 && e.2.policy.any (fun p => p.1 == i))) generalizing s with
  | nil => rfl
  | cons k l ih => rw [List.foldl_cons, ih]; rfl

theorem featdrvWrite_offers {s : State} (hready : s.pf.ready = true) (f : BitVec 128) : ∃ t, exec (.featdrvWrite f) s = .next t
    ∧ ∀ i, t.pf.featDrv.getLsbD i = true → s.pf.featDev.getLsbD i = true ∧ (f.getLsbD i = true ∨ (1 ≤ i ∧ i ≤ 40)) := by
  have hoffers : ∀ i, (featWritten s f).getLsbD i = true → s.pf.featDev.getLsbD i = true ∧ (f.getLsbD i = true ∨ (1 ≤ i ∧ i ≤ 40)) :=
    fun i hi => by
      obtain ⟨hdev, hro | ⟨hf, _⟩⟩ := (featWritten_bit s f i).1 hi
      · exact ⟨hdev, .inr hro⟩
      · exact ⟨hdev, .inl hf⟩
  refine ⟨_, featdrvWrite_writes hready f, ?_⟩
  split
  · exact hoffers
  · rw [revokeIndex_pf]
    exact hoffers

/-- Settles O60: each clause by the case of its message, command, request or write that its conditions select. -/
theorem hostSideCompletions : Obligations.HostSideCompletions := by
  refine ⟨fun s s1 ctx q x m hx hidle hstanding hkept hread hgood => ?_,
    fun s s1 s2 ctx q x va v bs m hx hwait hfault htorn hread => waitPoll_reached hx hwait hfault htorn hread,
    fun s s1 die port p c ign => ?_, fun s src block => ?_, fun s v n q hready => ?_, fun s n => ?_⟩
  · have h : AtMessage s ctx q x m s1 := ⟨hx, hidle, hstanding, hkept, hread, hgood⟩
    exact ⟨fun hkind => ⟨_, msgLaunch_launches h hkind⟩, msgWait_polls h,
      fun ps s2 hkind hps hclean => ⟨_, msgSignal_raises h hkind hps hclean⟩, fun r s2 hkind hwrite => ⟨_, msgNote_writes h hkind hwrite⟩,
      fun hkind hquiet => ⟨_, (msgFence_waits h hkind).trans (congrArg Host.Outcome.next (if_pos hquiet))⟩,
      fun hkind hop => ⟨_, msgPreemptSave_saves h hkind hop⟩, fun hkind hop => ⟨_, msgPreemptResume_resumes h hkind hop⟩⟩
  · intro pk co hp hc
    exact ⟨hallmarkBadcmd_fails hp hc, fun label pa leaf hhead => hallmarkOpen_opens hp hc hhead,
      fun o key se bs hhead => hallmarkAbsorb_absorbs hp hc hhead, fun o key se hhead => hallmarkClose_signs hp hc hhead,
      fun n => hallmarkRecordWrite_finishes⟩
  · intro asked w p done hturn
    exact ⟨createWorld_done hturn, destroyWorld_done hturn, assign_done hturn, reclaim_done hturn, exportPage_done hturn,
      importPage_done hturn, fun n key => loadKey_done hturn, fun n k hsrc hn hk hkind hsession => revokeKey_done hturn hsrc hn hk hkind hsession,
      getNonce_done hturn, fun k => debugUnlock_done hturn⟩
  · refine ⟨fun c x hc hx => ⟨fun hv hon hnear => ⟨_, doorbell_moves hc hx hready hv hon, ?_⟩,
        fun htorn => ⟨_, qerrRearm_rearms hc hx hready htorn, ?_⟩, qerrTeardown_tears hc hx hready⟩,
      fun c hc => ⟨fun hidle => ⟨_, invcmd_starts hready hc hidle, ?_⟩, fun hidle => ⟨_, platecmd_starts hready hc hidle, ?_⟩,
        fun hworld => ?_, registerWrite_vf hready hc⟩,
      featdrvWrite_offers hready,
      fun hnone hpart hzero hlow hhigh hfused hthr hthr' => partcmd_ceil hready
        ⟨hpart, hzero, hlow, hhigh, Nat.succ_le_succ hfused, hthr, hthr', hnone ▸ fun e he => absurd he List.not_mem_nil⟩,
      fun i hi hidle hfeat hsome => ?_, ?_,
      fun hv => ⟨_, ctrassignAssign_assigns hready hv, ?_⟩, fun hv => ⟨_, ctrassignUnassign_removes hready hv, ?_⟩,
      fun hidle hv hwindow hlow hhigh hwhole => ⟨_, portreq_hands hready hidle hv hwindow hlow hhigh hwhole, rfl⟩,
      fun off size => hostApertureAccess_writes hready⟩
    · rw [if_neg (Nat.not_le.2 hnear), queueAt_putQueue hx]
      rfl
    · rw [queueAt_putQueue hx]
      rfl
    · rw [putCtx, tget_tput_self]
      rfl
    · rw [putCtx, tget_tput_self]
      rfl
    · cases hv : v.getLsbD 0 with
      | false => exact ⟨_, debugWrite_clears hready hc hv, by rw [putCtx, tget_tput_self]; rfl⟩
      | true => exact ⟨_, debugWrite_sets hready hc hv (.inl hworld), by rw [putCtx, tget_tput_self]; rfl⟩
    · obtain ⟨rfl, hop⟩ | ⟨rfl, hop⟩ := hi <;>
        exact ⟨_, (ctxcmd_resetStarts (by simp) hready hop hidle hfeat (by decide)).trans
          (congrArg Host.Outcome.next (resetStarts_resets hsome)), by rw [hop]; rfl⟩
    · intro s2 b hop hidle hfeat hfree hback hpage hline hdesc hworld
      exact ⟨_, (ctxcmd_contextCreates (by simp) hready hop hidle hfeat rfl).trans (congrArg Host.Outcome.next
        (contextCreates_creates hfree hback hpage hline hdesc (worldOk_of (.inl hworld)))), tget_tput_self _ _ _, rfl⟩
    · rw [tget_tput_self]
      rfl
    · exact (tget_tdel _ _ _).trans (if_pos rfl)
  · exact ⟨fun seq f e he => ⟨closeEntry_closes s f, faultrespRetry_reruns he, faultrespFail_fails he⟩,
      fun v rk r hidle hrk _ => ⟨rakecmdResume_resumes hidle hrk, rakecmdKill_kills hidle hrk⟩, fun r => debuggerHaltRequest_halts,
      fun c => invalidationComplete_raises, fun c p s1 => plateLoadComplete_loads, ctxcmdComplete_reset,
      fun pa size v => peerAccess_writes, fun pages => atsInvalidation_drops, powerCapSet_within, fun transport => spdmRequest_finishes,
      fun world => tdispRequest_binds, ⟨_, rfl, rfl⟩, ⟨_, rfl, rfl⟩,
      fun k hstage hfatal hready => ⟨fun h => dramTraining_trains hfatal hready (hstage.trans h),
        fun image p h => systemPlateLoad_loads hfatal hready (hstage.trans h),
        fun passed h => clusterSelfTest_tests hfatal hready passed (hstage.trans h),
        fun up h => extumLinkTraining_trains hfatal hready up (hstage.trans h), fun h => ready_raises hfatal hready (hstage.trans h)⟩⟩

end Sys2Proof.Proofs
end

/-! ### Taking a trap, TRAP and TRET (11 R405-R411, 05 R207, R208) -/
section
namespace Sys2Proof.Proofs
open Sys2Proof Sys2Proof.Machine Sys2Proof.Laws

/-! #### Taking a trap (11 R405-R410) -/

/-- The coach with a trap noted: no second group of a pair issues, and none issues again first (11 R409). -/
def trapNoted (co : Coach) (t : Trap) : Coach := { co with trap := some t, pair := none, resume := none }

/-- A lane that enters the handler (11 R409, step 4). -/
def enteredLane (m : Coach) (c : Ctx) (t : Trap) (x : Lane) : Lane :=
  ({ x with state := .running, wait := .none } : Lane).goto m.orderNext ((handlerOf c t.cls).extractLsb' 0 57)

/-- What a handler finds in s28 to s31: class, subtype and step, zero, and the frame's address (11 R409, step 3). -/
def handlerRegs (m : Coach) (t : Trap) (va : Nat) : Coach :=
  sset (sset (sset (sset m 30 (BitVec.ofNat 32 va)) 31 (BitVec.ofNat 32 (va / 2 ^ 32))) 28
    (BitVec.ofNat 32 (t.cls + 256 * t.sub + 65536 * t.step))) 29 0

theorem sget_sset_of_lt {co : Coach} {r q : Nat} {x : Word} (h : q < r) : sget (sset co r x) q = sget co q := by
  rw [sget_sset, if_neg (Nat.ne_of_lt h)]

theorem sget_handlerRegs (m : Coach) (t : Trap) (va : Nat) :
    sget (handlerRegs m t va) 28 = BitVec.ofNat 32 (t.cls + 256 * t.sub + 65536 * t.step) ∧ sget (handlerRegs m t va) 29 = 0
    ∧ sget (handlerRegs m t va) 30 = BitVec.ofNat 32 va ∧ sget (handlerRegs m t va) 31 = BitVec.ofNat 32 (va / 2 ^ 32)
    ∧ ∀ r < 28, sget (handlerRegs m t va) r = sget m r := by
  refine ⟨?_, ?_, ?_, ?_, fun r hr => ?_⟩
  · simp [handlerRegs, sget_sset]
  · simp [handlerRegs, sget_sset]
  · simp [handlerRegs, sget_sset]
  · simp [handlerRegs, sget_sset]
  · rw [handlerRegs, sget_sset_of_lt (by omega), sget_sset_of_lt (by omega), sget_sset_of_lt (by omega), sget_sset_of_lt (by omega)]

section
variable {s : State} {k : Nat} {t : Trap} {co : Coach} {c : Ctx} (hco : tget s.coaches k = some co) (hrbuf : co.rbuf = [])
  (hcommit : commitWaits co = false) (hctx : ctxOf s co = some c)
include hco hrbuf hcommit hctx

/-- A trap that no handler may take, with nothing outstanding, is a fatal one (11 R410). -/
theorem raiseTrap_fatal {fl : Nat} (hfatal : fatalFlags c co t.cls = some fl) :
    raiseTrap s k t = fatalTrap (setCoach s k (trapNoted co t)) k t fl := by
  have hctx' : ctxOf (setCoach s k (trapNoted co t)) (trapNoted co t) = some c := ctxOf_setCoach s k co c hctx _ _ rfl
  rw [raiseTrap_empty hco hrbuf hcommit]
  show enterHandler (setCoach s k (trapNoted co t)) k t = _
  unfold enterHandler
  simp only [coachOf_setCoach, hctx']
  rw [show fatalFlags c (trapNoted co t) t.cls = some fl from hfatal]

/-- With nothing outstanding and a handler to take the trap, the coach that the frame's write leaves enters the handler. -/
theorem raiseTrap_enters {s1 : State} (htake : fatalFlags c co t.cls = none)
    (hwrite : writeFrame (setCoach s k (trapNoted co t)) k (frameAddr c co) (frameBytes (movePcs (trapNoted co t) t) t
      ((t.rmask).getD (activeSet co)) (if t.cls = 8 then 2 else 0) 0) = (.ok (), s1)) (hthere : (tget s1.coaches k).isSome) :
    let rm := (t.rmask).getD (activeSet co)
    let va := frameAddr c co
    let m := movePcs (coachOf s1 k) t
    ∃ y, raiseTrap s k t = setCoach s1 k y
      ∧ y = { m with s := y.s, lanes := y.lanes, trap := none, inHandler := true, rmask := rm, entryLanes := m.lanes
                     commitPush := t.commit, heldStalls := y.heldStalls, stalls := y.stalls }
      ∧ sget y 28 = BitVec.ofNat 32 (t.cls + 256 * t.sub + 65536 * t.step) ∧ sget y 29 = 0
      ∧ sget y 30 = BitVec.ofNat 32 va ∧ sget y 31 = BitVec.ofNat 32 (va / 2 ^ 32) ∧ (∀ r < 28, sget y r = sget m r)
      ∧ ∀ l x, m.lanes[l]? = some x → (rm.getLsbD l = false → y.lanes[l]? = some x)
        ∧ (rm.getLsbD l = true → ∃ x', y.lanes[l]? = some x' ∧ x'.state = .running ∧ x'.step = 0
          ∧ x'.ga = (if t.cls = 2 then c.emulent else c.trapent).extractLsb' 0 57) := by
  intro rm va m
  obtain ⟨x1, hx1⟩ := Option.isSome_iff_exists.1 hthere
  have hm : movePcs x1 t = m := by simp only [m, coachOf, tgetD, hx1, Option.getD_some]
  obtain ⟨y, hentered, hframe, hregs, hlanes⟩ := enterHandler_spec (x := trapNoted co t)
    (ctxOf_setCoach s k co c hctx _ _ rfl) htake hwrite hx1
  rw [hm] at hframe hregs hlanes
  have hreg : ∀ r, sget y r = sget (handlerRegs m t va) r := fun r => congrArg (tgetD 0 · r) hregs
  obtain ⟨h28, h29, h30, h31, hlow⟩ := sget_handlerRegs m t va
  refine ⟨y, (raiseTrap_empty hco hrbuf hcommit).trans hentered, hframe, (hreg 28).trans h28, (hreg 29).trans h29,
    (hreg 30).trans h30, (hreg 31).trans h31, fun r hr => (hreg r).trans (hlow r hr), fun l x hx => ?_⟩
  have hget : y.lanes[l]? = some (if rm.getLsbD l then enteredLane m c t x else x) := by
    rw [hlanes, mapFrom_get _ _ 0 l x hx, Nat.zero_add]
    rfl
  refine ⟨fun hout => ?_, fun hin => ?_⟩
  · rw [hget, hout]
    rfl
  · rw [hget, hin]
    exact ⟨_, rfl, rfl, rfl, rfl⟩

end

/-! #### TRAP and TRET (05 R207, R208) -/

section
variable {s : State} {w : NOp}

/-- TRAP raises TRAPI past its group, with each lane's code in the trap area. -/
theorem trap_raises (hclear : clear s (.trap w) = true) :
    let code := fun l => if fKind w = 2 then fImm w else (aVal (me s) w false l).toNat % 2 ^ 32
    exec (.trap w) s = .next (passTrap s.iss.coach s.iss s.iss.group s
      (opTrap s.iss 3 0 (enOf s w) 0 ((lanesOf (enOf s w)).map (fun l => (640 + 4 * l, 4, code l))))) := by
  refine exec_of_effect hclear rfl rfl ?_
  simp only [srcA_opCtx]

theorem tret_illegal (hclear : clear s (.tret w) = true) (hout : (me s).inHandler = false) :
    exec (.tret w) s = .next (illegal s (enOf s w) iTret 0xFF) :=
  exec_of_effect hclear rfl rfl (if_pos (by rw [show (coachOf s s.iss.coach).inHandler = false from hout]; rfl))

/-- TRET in a handler, with nothing outstanding, applies the frame in the state that reading the frame has left. -/
theorem tret_applies {s1 : State} {c : Ctx} {bs : List Byte} (hclear : clear s (.tret w) = true)
    (hin : (me s).inHandler = true) (hrbuf : (me s).rbuf = []) (hctx : ctxOf s (me s) = some c)
    (hread : readFrame s s.iss.coach (frameAddr c (me s)) = (.ok bs, s1)) :
    exec (.tret w) s
      = .next (applyFrame (modCoach s1 s.iss.coach (fun co => modLanes co s.iss.group (fun _ x => x.count))) s.iss.coach bs) := by
  have hmarker : markerCommit s s.iss.coach s.iss s.iss.group = .go s := by
    rw [markerCommit, show (coachOf s s.iss.coach).rbuf = [] from hrbuf]
    rfl
  have hread' : readFrame s s.iss.coach (((ctxOf s (me s)).map (fun x => frameAddr x (me s))).getD 0) = (.ok bs, s1) := by
    rw [hctx]
    exact hread
  refine exec_of_effect hclear rfl rfl ?_
  dsimp only [opCtx]
  rw [show (coachOf s s.iss.coach).inHandler = true from hin, if_neg (by decide), hmarker]
  dsimp only
  rw [show coachOf s s.iss.coach = me s from rfl, hread']

end

/-! #### Applying a frame (11 R411) -/

/-- A stall that belongs to a commit, and not to lanes. -/
def ofCommit (st : Stall) : Bool := st.lanes == BitVec.allOnes 64

theorem partition_filter_ofCommit (l : List Stall) : (l.filter ofCommit).partition ofCommit = (l.filter ofCommit, []) := by
  rw [List.partition_eq_filter_filter, List.filter_filter, List.filter_filter]
  simp

/-- Word `n` of the frame's header. -/
def frameWord (bs : List Byte) (n : Nat) : Word := BitVec.ofNat 32 (leNat ((bs.drop n).take 4))

/-- The coach with s28 to s31 of the frame. -/
def frameRegs (co : Coach) (bs : List Byte) : Coach :=
  sset (sset (sset (sset co 28 (frameWord bs 40)) 29 (frameWord bs 44)) 30 (frameWord bs 48)) 31 (frameWord bs 52)

theorem sget_frameRegs (co : Coach) (bs : List Byte) :
    sget (frameRegs co bs) 28 = frameWord bs 40 ∧ sget (frameRegs co bs) 29 = frameWord bs 44
    ∧ sget (frameRegs co bs) 30 = frameWord bs 48 ∧ sget (frameRegs co bs) 31 = frameWord bs 52
    ∧ ∀ r < 28, sget (frameRegs co bs) r = sget co r := by
  refine ⟨?_, ?_, ?_, ?_, fun r hr => ?_⟩
  · simp [frameRegs, sget_sset]
  · simp [frameRegs, sget_sset]
  · simp [frameRegs, sget_sset]
  · simp [frameRegs, sget_sset]
  · rw [frameRegs, sget_sset_of_lt (by omega), sget_sset_of_lt (by omega), sget_sset_of_lt (by omega), sget_sset_of_lt (by omega)]

/-- The coach out of its handler: s28 to s31 are the frame's, and the stalls of the handler's lanes are gone. -/
def outOfHandler (co : Coach) (bs : List Byte) : Coach :=
  { frameRegs co bs with inHandler := false, rmask := 0, stalls := co.stalls.filter ofCommit }

section
variable (co : Coach) (bs : List Byte)

theorem entryLanes_outOfHandler : (outOfHandler co bs).entryLanes = co.entryLanes := by
  dsimp only [outOfHandler, frameRegs, sset_entryLanes]

theorem heldStalls_outOfHandler : (outOfHandler co bs).heldStalls = co.heldStalls := by
  dsimp only [outOfHandler, frameRegs, sset_heldStalls]

end

/-- The coach with the lanes of the frame, where the handler's entry held no stall back. -/
def lanesReturned (x : Coach) (bs : List Byte) : Coach :=
  { applyEntries x (frameEntries bs) with pair := none, resume := none, heldStalls := [] }

section
variable (co : Coach) (bs : List Byte)

theorem v_lanesReturned : (lanesReturned (outOfHandler co bs) bs).v = co.v := by
  dsimp only [lanesReturned, applyEntries, outOfHandler, frameRegs, sset_v]

theorem m_lanesReturned : (lanesReturned (outOfHandler co bs) bs).m = co.m := by
  dsimp only [lanesReturned, applyEntries, outOfHandler, frameRegs, sset_m]

theorem sget_lanesReturned (r : Nat) : sget (lanesReturned (outOfHandler co bs) bs) r = sget (frameRegs co bs) r := by
  dsimp only [sget, lanesReturned, applyEntries, outOfHandler]

end

theorem resumeStalls_none {s : State} {k : Nat} {x : Coach} (hheld : x.heldStalls = []) :
    resumeStalls (setCoach s k x) k = setCoach s k x := by
  have hsame : ({ x with heldStalls := [] } : Coach) = x := by rw [← hheld]
  unfold resumeStalls
  rw [coachOf_setCoach, modCoach_of_tget (tget_setCoach s k x), setCoach_setCoach, hsame]
  dsimp only
  rw [hheld]
  rfl

/-- Lanes take their entries; with no stall held back and no push to retry, nothing is left but the ends of expansions. -/
theorem applyLanes_setCoach {s : State} {k : Nat} {x : Coach} {bs : List Byte} (hheld : x.heldStalls = [])
    (hstalls : x.stalls.partition ofCommit = (x.stalls, [])) (hretry : frameRetry x bs = none) :
    applyLanes (setCoach s k x) k bs = flushFpe (lanesSet (setCoach s k (lanesReturned x bs)) k) k := by
  have hsplit : x.stalls.partition (fun st => st.lanes == BitVec.allOnes 64) = (x.stalls, []) := hstalls
  unfold applyLanes
  rw [coachOf_setCoach, hretry, modCoach_of_tget (tget_setCoach s k x), setCoach_setCoach, hsplit, hheld]
  exact congrArg (fun u => flushFpe (lanesSet u k) k) (resumeStalls_none (x := lanesReturned x bs) rfl)

theorem frameRetry_congr {x y : Coach} (bs : List Byte) (h : x.entryLanes = y.entryLanes) : frameRetry x bs = frameRetry y bs := by
  unfold frameRetry
  rw [h]

theorem applyFrame_returns {s : State} {k : Nat} {co : Coach} {bs : List Byte} (hco : tget s.coaches k = some co)
    (hheld : co.heldStalls = []) (hretry : frameRetry co bs = none) :
    applyFrame s k bs = flushFpe (lanesSet (setCoach s k (lanesReturned (outOfHandler co bs) bs)) k) k := by
  show applyLanes (modCoach s k _) k bs = _
  rw [modCoach_of_tget hco]
  exact applyLanes_setCoach ((heldStalls_outOfHandler co bs).trans hheld) (partition_filter_ofCommit co.stalls)
    ((frameRetry_congr bs (entryLanes_outOfHandler co bs)).trans hretry)

/-- Settles O45: a trap enters its handler or is fatal, TRAP raises its trap, and TRET applies its frame; what a frame leaves is
read off the coach that it gives back. -/
theorem takingTraps : Obligations.TakingTraps := by
  refine ⟨fun s k t co c s1 hco hrbuf hcommit hctx =>
      ⟨raiseTrap_enters hco hrbuf hcommit hctx, fun fl => raiseTrap_fatal hco hrbuf hcommit hctx⟩,
    fun s w => trap_raises, fun s w c bs s1 => tret_applies, fun s w => tret_illegal, fun s k co bs hco hheld hretry => ?_⟩
  obtain ⟨h28, h29, h30, h31, hlow⟩ := sget_frameRegs co bs
  have hreg := sget_lanesReturned co bs
  exact ⟨lanesReturned (outOfHandler co bs) bs, applyFrame_returns hco hheld hretry, rfl, rfl, v_lanesReturned co bs,
    m_lanesReturned co bs, (hreg 28).trans h28, (hreg 29).trans h29, (hreg 30).trans h30, (hreg 31).trans h31,
    fun r hr => (hreg r).trans (hlow r hr)⟩

end Sys2Proof.Proofs
end

/-! ### Trap entry, halts of rakes, fault records and the driver's answers (11 R409-R415, R423-R426, 15 R505) -/
section
namespace Sys2Proof.Proofs
open Sys2Proof Sys2Proof.Machine Sys2Proof.Laws

/-! #### Entries and stops (11 R409, R413, R415) -/

section
variable {s : State} {n : Nat}

theorem trapEntry_takes {t : Trap} (htrap : (coachOf s n).trap = some t) (hres : isResident s n = true)
    (hframe : frameParked t = false) : exec (.trapEntry n) s = .next (takeTrap s n) := by
  show execTrapEntry n s = _
  unfold execTrapEntry
  dsimp only
  rw [htrap]
  exact congrArg Host.Outcome.next (if_neg (by rw [hres, hframe]; decide))

/-- The trap with which a sibling of a halted coach stops (11 R413, R415). -/
def haltedTrap (cls idx : Nat) : Trap :=
  { cls := 16, sub := 0, step := 0, tmask := 0, rmask := none, move := 0, moveTo := 0, moveCounts := false
    opword := 0, opaddr := 0, area := [(64, 1, cls), (66, 2, idx)] }

theorem halted_stops {cls idx : Nat} (hhalt : haltOf s (coachOf s n) = some (cls, idx)) (hres : isResident s n = true)
    (hfirst : (coachOf s n).halted = none) (hfree : (coachOf s n).trap = none) :
    exec (.halted n) s = .next (raiseTrap s n (haltedTrap cls idx)) := by
  show execHalted n s = _
  unfold execHalted
  dsimp only
  rw [hhalt]
  exact congrArg Host.Outcome.next (if_neg (by rw [hres, hfirst, hfree]; decide))

/-- The record of a rake whose coaches have all stopped is written; without a debugger the rake's region is uncontained. -/
theorem rakeHaltRecord_writes {r : Rake} {h : Nat × Nat × Nat × Nat × Nat} {rg : Region} {s1 : State}
    (hr : tget s.rakes n = some r) (hhalt : r.halt = some h)
    (hrg : tget s.regions r.region = some rg) (hfirst : r.haltRecorded = false) (hstopped : rakeStopped s r = true)
    (hwrite : writeFaultRecord s rg.ctx ((r.cluster).getD 0 / 10) (haltRecord s r h) = (true, s1)) :
    let s2 := modRake s1 n (fun r => { r with haltRecorded := true })
    exec (.rakeHaltRecord n) s
      = .next (if ((tget s2.ctxs rg.ctx).map Ctx.dbgen).getD false then s2 else uncontained s2 r.region) := by
  show execRakeHaltRecord n s = _
  unfold execRakeHaltRecord
  rw [hr]
  dsimp only
  rw [hhalt, hrg]
  dsimp only
  rw [if_neg (by rw [hfirst, hstopped]; decide), hwrite]

/-- A debugger's halt marks the rake and holds off the handlers that are being entered; nothing else changes. -/
theorem debuggerHaltRequest_marks {r : Rake} (hr : tget s.rakes n = some r) (hhalt : r.halt = none) :
    exec (.debuggerHaltRequest n) s
      = .next { r.coaches.foldl (fun s k => modCoach s k (fun co => if co.trap.isSome then { co with skid := 33 } else co)) s with
          rakes := tput s.rakes n { r with halt := some (0, 14, 0, 0, 0) } } := by
  show execDebuggerHaltRequest n s = _
  unfold execDebuggerHaltRequest
  rw [hr]
  dsimp only
  rw [if_neg (by rw [hhalt]; decide), modRake, foldl_modCoach_rakes, tmod_of_tget _ _ _ _ hr]

end

/-! #### Fault records (11 R423, R424) -/

theorem faultRecordWrite_records {s s2 : State} {n : Nat} {f : FaultEntry} (hf : tget s.faults n = some f) (hfirst : f.seq = none) :
    let s1 := clockTo s (faultClock f.die f.cluster) (f.opened + 64)
    let seq := ((tget s1.ctxs f.ctx).map Ctx.faultSeq).getD 0
    writeFaultRecord s1 f.ctx f.die (xlatRecord f) = (true, s2) →
    exec (.faultRecordWrite n) s = .next { s2 with faults := tput s2.faults n { f with seq := some seq } } := by
  intro s1 seq hwrite
  show execFaultRecordWrite n s = _
  unfold execFaultRecordWrite
  rw [hf]
  dsimp only
  rw [if_neg (by rw [hfirst]; decide), hwrite]

/-! #### The driver's answers (11 R415, R426) -/

section
variable {s : State} {n : Nat} {seq : Word}

/-- FAIL closes the entry, fails what waits for it (ports, coaches, dray contexts, queues), and then what is pending on it. -/
theorem faultrespFail_closes {f : Nat} {e : FaultEntry} (he : entryOf s n seq = some (f, e)) :
    let s1 := (takePending (closeEntry s f) f).2
    let s2 := { s1 with ports := s1.ports.map (fun x =>
      (x.1, if x.2.wait = some f then { x.2 with wait := none, failed := true } else x.2)) }
    let s3 := (tkeys (s2.coaches.filter (fun x => parkedOn x.2 f != 0 || x.2.trap.any (fun t => t.wait == some f)))).foldl
      (fun s k => failCoach s f e k) s2
    let s4 := (tkeys (s3.drays.filter (fun x => x.2.parked == some f))).foldl (fun s k => drayFault s k fcXlat) s3
    let s5 := (List.range (((tget s4.ctxs n).map (fun c => c.queues.length)).getD 0)).foldl (fun s q =>
      if (queueAt s n q).bind HwQueue.fault = some f then failQueue s n q e else s) s4
    exec (.faultrespFail n seq) s = .next ((takePending (closeEntry s f) f).1.foldl failPending s5) := by
  show execFaultrespFail n seq s = _
  unfold execFaultrespFail
  rw [he]

theorem faultresp_unknown (hnone : entryOf s n seq = none) :
    exec (.faultrespRetry n seq) s = .next s ∧ exec (.faultrespFail n seq) s = .next s := by
  constructor
  · show execFaultrespRetry n seq s = _
    unfold execFaultrespRetry
    rw [hnone]
  · show execFaultrespFail n seq s = _
    unfold execFaultrespFail
    rw [hnone]

end

/-! #### RAKECMD (11 R414, 15 R505) -/

section
variable {s : State} {n : Nat} {v : BitVec 64}

theorem rakecmd_busy (hbusy : rakeBusy s n = true) :
    exec (.rakecmdResume n v) s = .next s ∧ exec (.rakecmdKill n v) s = .next s :=
  ⟨congrArg Host.Outcome.next (if_pos (.inr hbusy)), congrArg Host.Outcome.next (if_pos (.inr hbusy))⟩

variable {rk : Nat} {r : Rake} (hidle : rakeBusy s n = false) (hrk : cmdRake s n v = some rk) (hr : tget s.rakes rk = some r)
include hidle hrk hr

theorem rakecmdResume_continues (hop : field v.toNat 57 56 = 1) :
    exec (.rakecmdResume n v) s = .next (settleResume (rakeStat (r.coaches.foldl resumeCoach
      { s with rakes := tput s.rakes rk { r with halt := none, haltRecorded := false } }) n 0) n) := by
  show execRakecmdResume n v s = _
  unfold execRakecmdResume
  dsimp only
  rw [hop, hidle, if_neg (by decide), if_neg (by decide), hrk]
  dsimp only
  rw [hr, modRake, tmod_of_tget _ _ _ _ hr]
  rfl

theorem rakecmdKill_uncontains (hop : field v.toNat 57 56 = 2) :
    exec (.rakecmdKill n v) s = .next (rakeStat (uncontained s r.region) n 0) := by
  show execRakecmdKill n v s = _
  unfold execRakecmdKill
  dsimp only
  rw [hop, hidle, if_neg (by decide), if_neg (by decide), hrk]
  dsimp only
  rw [hr]
  rfl

end

/-- Settles O46: one rule for each event of a trap or halt, for the record of an entry, for each answer of the driver, and for
each command of RAKECMD. -/
theorem faultService : Obligations.FaultService := fun _ _ =>
  ⟨fun _ => trapEntry_takes, fun _ _ => halted_stops, fun _ _ _ _ => rakeHaltRecord_writes, fun _ => debuggerHaltRequest_marks,
    fun _ _ => faultRecordWrite_records, fun _ _ _ => faultrespRetry_reruns, fun _ _ _ => faultrespFail_closes,
    fun _ => faultresp_unknown, fun _ _ _ hop hidle hrk hr => rakecmdResume_continues hidle hrk hr hop,
    fun _ _ _ hop hidle hrk hr => rakecmdKill_uncontains hidle hrk hr hop, fun _ => rakecmd_busy⟩

end Sys2Proof.Proofs
end

/-! ### What the host's commands come to, and accesses from outside (08 R331, 11 R422, R435, 15 R493, R498, R503) -/
section
namespace Sys2Proof.Proofs
open Sys2Proof Sys2Proof.Machine Sys2Proof.Laws

/-- What a filter keeps of every unit's list meets the filter's test: the form in which translations are dropped. -/
theorem kept_of_mem_mapFilter {α : Type} {t : Tbl (List α)} {keep : α → Bool} {u : Nat × List α} {e : α}
    (hu : u ∈ t.map (fun x => (x.1, x.2.filter keep))) (he : e ∈ u.2) : keep e = true := by
  obtain ⟨x, -, rfl⟩ := List.mem_map.1 hu
  exact (List.mem_filter.1 he).2

/-! #### Invalidations and plates (08 R331, 11 R422) -/

section
variable {s : State} {n : Nat} {c : Ctx} (hc : tget s.ctxs n = some c)
include hc

/-- An invalidation that has not begun, or whose pages a tile's operation still holds, does not complete. -/
theorem invalidationComplete_waits (hwait : c.invBusy = false ∨ tilesHold s (fun k p => k / 16384 == n
      && decide ((invRange c).1 ≤ p.1 ∧ p.1 < (invRange c).1 + (invRange c).2)) = true) :
    exec (.invalidationComplete n) s = .next s := by
  have hrun : (!c.invBusy || tilesHold s (fun k p => k / 16384 == n
      && decide ((invRange c).1 ≤ p.1 ∧ p.1 < (invRange c).1 + (invRange c).2))) = true := by
    rcases hwait with hidle | hheld
    · rw [hidle]
      rfl
    · rw [hheld, Bool.or_true]
  show execInvalidationComplete n s = _
  unfold execInvalidationComplete
  rw [hc]
  exact congrArg Host.Outcome.next (if_pos hrun)

/-- An invalidation that completes leaves no translation of the context that overlaps its range, and raises its vector. -/
theorem invalidationComplete_drops (hbusy : c.invBusy = true) (hfree : tilesHold s (fun k p => k / 16384 == n
      && decide ((invRange c).1 ≤ p.1 ∧ p.1 < (invRange c).1 + (invRange c).2)) = false) :
    ∃ t, exec (.invalidationComplete n) s = .next t ∧ (n + 1, 17) ∈ t.msix
      ∧ ∀ u ∈ t.tlbs, ∀ e ∈ u.2, e.ctx = n →
        ¬ (e.va / 4096 < (invRange c).1 + (invRange c).2 ∧ (invRange c).1 < e.va / 4096 + 2 ^ (e.log - 12)) := by
  have hrun : ¬ ((!c.invBusy || tilesHold s (fun k p => k / 16384 == n
      && decide ((invRange c).1 ≤ p.1 ∧ p.1 < (invRange c).1 + (invRange c).2))) = true) := by
    rw [hbusy, hfree]
    decide
  show ∃ t, execInvalidationComplete n s = _ ∧ _
  unfold execInvalidationComplete
  rw [hc]
  refine ⟨_, congrArg Host.Outcome.next (if_neg hrun), mem_raiseVector _ _ _, fun u hu e he hctx => ?_⟩
  rw [raiseVector_tlbs, modCtx_tlbs] at hu
  have hkept := kept_of_mem_mapFilter hu he
  rw [hctx, bne_self_eq_false, Bool.false_or, Bool.not_eq_true'] at hkept
  exact of_decide_eq_false hkept

variable (hbusy : c.plateBusy = true)
include hbusy

/-- A plate that loads takes its slot, and the slot's impressions go. -/
theorem plateLoadComplete_takes {s1 : State} {p : Plate} (hload : loadPlate s n c c.plateCmd = (.ok p, s1)) :
    let slot := field c.plateCmd.toNat 2 0
    let s2 := modCtx s1 n (fun c => { c with plates := tput c.plates slot p })
    let s3 := { s2 with imps := s2.imps.filter (fun i => i.ctx != n || i.slot != slot) }
    exec (.plateLoadComplete n) s
      = .next (raiseVector (modCtx s3 n (fun c => { c with plateBusy := false, plateStat := 0 })) (n + 1) 17) := by
  show execPlateLoadComplete n s = _
  unfold execPlateLoadComplete
  rw [hc]
  dsimp only
  rw [hbusy, if_neg (by decide), hload]

/-- A plate that does not load leaves the reason. -/
theorem plateLoadComplete_reports {s1 : State} {e : Nat} (hload : loadPlate s n c c.plateCmd = (.error e, s1)) :
    exec (.plateLoadComplete n) s
      = .next (raiseVector (modCtx s1 n (fun c => { c with plateBusy := false, plateStat := e })) (n + 1) 17) := by
  show execPlateLoadComplete n s = _
  unfold execPlateLoadComplete
  rw [hc]
  dsimp only
  rw [hbusy, if_neg (by decide), hload]

end

/-! #### Commands of contexts (11 R435, 15 R503) -/

theorem ctxcmdComplete_waits {s : State} {n op : Nat} (hpending : s.pf.ctxPending = some (op, n)) (howes : ctxOwes s n = true) :
    exec .ctxcmdComplete s = .next s := by
  show execCtxcmdComplete s = _
  unfold execCtxcmdComplete
  rw [hpending]
  exact congrArg Host.Outcome.next (if_pos howes)

theorem ctxcmdComplete_destroys {s : State} {n : Nat} (hpending : s.pf.ctxPending = some (3, n)) (hpaid : ctxOwes s n = false) :
    exec .ctxcmdComplete s = .next (ctxStat { forgetCtx s n with pf := { s.pf with ctxPending := none } } 0) := by
  show execCtxcmdComplete s = _
  unfold execCtxcmdComplete
  rw [hpending]
  dsimp only
  rw [hpaid, if_neg (by decide), if_pos rfl]

section
variable (s : State) (n : Nat)

theorem forgetCtx_ctxs : tget (forgetCtx s n).ctxs n = none := (tget_tdel s.ctxs n n).trans (if_pos rfl)

theorem forgetCtx_coaches : ∀ e ∈ (forgetCtx s n).coaches, e.2.ctx ≠ n := fun _ he => bne_iff_ne.1 (List.mem_filter.1 he).2

theorem forgetCtx_regions : ∀ e ∈ (forgetCtx s n).regions, e.2.ctx ≠ n := fun _ he => bne_iff_ne.1 (List.mem_filter.1 he).2

theorem forgetCtx_tlbs : ∀ u ∈ (forgetCtx s n).tlbs, ∀ e ∈ u.2, e.ctx ≠ n :=
  fun _ hu e he => bne_iff_ne.1 (kept_of_mem_mapFilter (e := e) hu he)

end

/-! #### Accesses from outside (15 R493, R498) -/

/-- The first byte of an access whose page's entry cannot be read, or is another world's, refuses it (15 R493, log 46). -/
theorem refusedAt_closed {s : State} {pa n : Nat} (h : (potOf s pa).world ≠ 0 ∨ s.upsets.contains (.pot (pa / 4096)) = true) :
    refusedAt s pa n = some pa := by
  rcases h with hworld | hupset
  · exact refusedAt_world hworld
  · have hshut : shared s pa = false := by rw [shared, potSeen, if_pos hupset]; rfl
    rw [refusedAt, List.find?_cons_of_pos (by rw [hshut]; rfl)]

section
variable {s : State} {off size : Nat} {v : BitVec 64}

theorem hostApertureAccess_notReady (hready : s.pf.ready = false) :
    exec (.hostApertureAccess true off size v) s = .next s
      ∧ exec (.hostApertureAccess false off size v) s = .next { s with hostRead := BitVec.allOnes 64 } := by
  have hrun : (!s.pf.ready) = true := by rw [hready]; rfl
  exact ⟨congrArg Host.Outcome.next (if_pos hrun), congrArg Host.Outcome.next (if_pos hrun)⟩

/-- The host's access is refused at its first byte where that is not backed, or its page is closed. -/
theorem hostRefusal_closed {pa n : Nat}
    (h : isBacked pa = false ∨ (potOf s pa).world ≠ 0 ∨ s.upsets.contains (.pot (pa / 4096)) = true) :
    (if isBacked pa then refusedAt s pa n else some pa) = some pa := by
  split
  · next hback => exact refusedAt_closed (h.resolve_left (by rw [hback]; decide))
  · rfl

variable (w : Bool) (hready : s.pf.ready = true) {pa : Nat} (hpa : s.pf.aperbase.toNat + off % 2 ^ 36 = pa)
include hready hpa

theorem hostApertureAccess_reaches (hback : isBacked pa = true) (hopen : refusedAt s pa (min size 8) = none) :
    exec (.hostApertureAccess w off size v) s = .next (outsideAccess s w pa (min size 8) v) := by
  subst hpa
  show execHostApertureAccess w off size v s = _
  unfold execHostApertureAccess
  dsimp only
  rw [hready, if_neg (by decide), if_lt_eq_min, if_pos hback, hopen]

/-- A refused access of the host is logged, and a refused read gives all ones. -/
theorem hostApertureAccess_refused
    (h : isBacked pa = false ∨ (potOf s pa).world ≠ 0 ∨ s.upsets.contains (.pot (pa / 4096)) = true) :
    let s1 := logError s srcDram 1 (homeDie pa) pa none (some (potOf s pa).world) none
    exec (.hostApertureAccess w off size v) s = .next (if w then s1 else { s1 with hostRead := BitVec.allOnes 64 }) := by
  subst hpa
  show execHostApertureAccess w off size v s = _
  unfold execHostApertureAccess
  dsimp only
  rw [hready, if_neg (by decide), if_lt_eq_min, hostRefusal_closed h]

end

section
variable {s : State} {n pa size : Nat} {v : BitVec 64}

theorem peerAccess_noLink (w : Bool) (hdown : 12 ≤ n ∨ s.pf.featDev.getLsbD (52 + n) = false) :
    exec (.peerAccess n w pa size v) s = .next s := congrArg Host.Outcome.next (if_pos hdown)

variable (hn : n < 12) (hup : s.pf.featDev.getLsbD (52 + n) = true)
include hn hup

/-- What an access through a link that is up comes to. -/
theorem peerAccess_eq (w : Bool) :
    exec (.peerAccess n w pa size v) s
      = .next (if isDram pa && (refusedAt s pa (min size 8)).isNone then outsideAccess s w pa (min size 8) v
        else if w then s
        else { (freshSeed s).2 with hostRead := Config.freeWord (freshSeed s).1 1 ++ Config.freeWord (freshSeed s).1 0 }) := by
  have hlink : ¬ (12 ≤ n ∨ s.pf.featDev.getLsbD (52 + n) = false) := by
    rw [hup]
    simp
    omega
  show execPeerAccess n w pa size v s = _
  unfold execPeerAccess
  dsimp only
  rw [if_neg hlink, if_lt_eq_min]

theorem peerAccess_reaches (w : Bool) (hdram : isDram pa = true) (hopen : refusedAt s pa (min size 8) = none) :
    exec (.peerAccess n w pa size v) s = .next (outsideAccess s w pa (min size 8) v) := by
  rw [peerAccess_eq hn hup, hdram, hopen]
  rfl

/-- A refused access of a peer is dropped: a write changes nothing, and a read gives a free value (log 46). -/
theorem peerAccess_refused (h : isDram pa = false ∨ (potOf s pa).world ≠ 0 ∨ s.upsets.contains (.pot (pa / 4096)) = true) :
    exec (.peerAccess n true pa size v) s = .next s ∧ ∃ t, exec (.peerAccess n false pa size v) s = .next t ∧ t.mem = s.mem := by
  have hshut : ¬ ((isDram pa && (refusedAt s pa (min size 8)).isNone) = true) := by
    rcases h with hdram | hclosed
    · rw [hdram, Bool.false_and]
      decide
    · rw [refusedAt_closed hclosed, Option.isNone_some, Bool.and_false]
      decide
  exact ⟨(peerAccess_eq hn hup true).trans (congrArg Host.Outcome.next ((if_neg hshut).trans (if_pos rfl))),
    _, (peerAccess_eq hn hup false).trans (congrArg Host.Outcome.next ((if_neg hshut).trans (if_neg (by decide)))), rfl⟩

end

/-- An invalidation of the host's own translations leaves none of its frames in a TLB, in the device's answers, or in L2. -/
theorem atsInvalidation_leaves {s : State} {n pages : Nat} (hdev : s.pf.featDev.getLsbD 44 = true) (hdrv : s.pf.featDrv.getLsbD 44 = true) :
    let base := 0x80000000 + n
    tilesHold s (fun _ p => decide (base ≤ p.2.1 / 4096 ∧ p.2.1 / 4096 < base + pages)) = false →
    ∃ t, exec (.atsInvalidation n pages) s = .next t
      ∧ (∀ u ∈ t.tlbs, ∀ e ∈ u.2, ¬ (e.pa / 4096 < base + pages ∧ base < e.pa / 4096 + 2 ^ (e.log - 12)))
      ∧ (∀ u ∈ t.ats, ∀ p ∈ u.2, ¬ (base ≤ p ∧ p < base + pages))
      ∧ (∀ c ∈ t.l2, ¬ (base ≤ c.line / 64 ∧ c.line / 64 < base + pages)) := by
  intro base hfree
  have hrun : ¬ ((!atsOn s || tilesHold s (fun _ p => decide (base ≤ p.2.1 / 4096 ∧ p.2.1 / 4096 < base + pages))) = true) := by
    rw [hfree, atsOn, hdev, hdrv]
    decide
  refine ⟨_, congrArg Host.Outcome.next (if_neg hrun), fun u hu e he => ?_, fun u hu p hp => ?_, fun c hc => ?_⟩
  · exact of_decide_eq_false ((Bool.not_eq_true' _) ▸ kept_of_mem_mapFilter (e := e) hu he)
  · exact of_decide_eq_false ((Bool.not_eq_true' _) ▸ kept_of_mem_mapFilter (e := p) hu hp)
  · exact of_decide_eq_false ((Bool.not_eq_true' _) ▸ (List.mem_filter.1 hc).2)

/-- Settles O56: invalidations and plates, commands of contexts, then accesses by whether each reaches its page. -/
theorem hostCompletions : Obligations.HostCompletions := by
  intro s n
  refine ⟨fun c hc => ⟨fun hidle => invalidationComplete_waits hc (.inl hidle),
      fun _ hheld => invalidationComplete_waits hc (.inr hheld), invalidationComplete_drops hc⟩,
    fun c p s1 hc hbusy => plateLoadComplete_takes hc hbusy, fun c e s1 hc hbusy => plateLoadComplete_reports hc hbusy,
    fun op => ctxcmdComplete_waits, ctxcmdComplete_reset,
    fun hpending hpaid => ⟨_, ctxcmdComplete_destroys hpending hpaid, rfl, rfl, forgetCtx_ctxs s n, forgetCtx_coaches s n,
      forgetCtx_regions s n, forgetCtx_tlbs s n, rfl⟩,
    fun off size v hready => ⟨fun ⟨hback, hfree, hline⟩ => hostApertureAccess_writes hready hback hfree hline,
      fun ⟨hback, hfree, hline⟩ => hostApertureAccess_reaches false hready rfl hback (refusedAt_open hfree hline),
      fun w => hostApertureAccess_reaches w hready rfl,
      fun h => ⟨hostApertureAccess_refused true hready rfl h, hostApertureAccess_refused false hready rfl h⟩⟩,
    fun off size v => hostApertureAccess_notReady, fun pa size v => peerAccess_writes,
    fun pa size v hn hup hdram hfree hline => peerAccess_reaches hn hup false hdram (refusedAt_open hfree hline),
    fun w pa size v hn hup => peerAccess_reaches hn hup w, fun pa size v => peerAccess_refused,
    fun w pa size v => peerAccess_noLink w, fun pages => atsInvalidation_leaves⟩

end Sys2Proof.Proofs
end

/-! ### Worked words, reset, and the outcome of every step (01, 02, 12 R470, 15 R501; assumption logs 1, 2 and 3) -/
section
namespace Sys2Proof.Proofs
open Sys2Proof Sys2Proof.Machine Sys2Proof.Laws

/-- Settles O13: the decoders evaluated on the spec's own words. -/
theorem workedWords : Obligations.WorkedWords := by
  unfold Obligations.WorkedWords
  decide

/-- Settles O19: the reset state field by field. -/
theorem resetState : Obligations.ResetState :=
  ⟨rfl, rfl, rfl, rfl, rfl, rfl, rfl, rfl, rfl, rfl, rfl, rfl, rfl, rfl, rfl⟩

/-- The outcome is a state. -/
def Completes (o : Out) : Prop := ∃ t, o = .next t

/-- The meaning of every instruction is a state: what an operation cannot do it answers in that state (log 1). -/
theorem exec_completes (i : Instr) (s : State) : Completes (exec i s) := by
  cases i <;> exact ⟨_, rfl⟩

theorem ticked_completes {o : Out} (h : Completes o) : Completes (ticked o) := by
  obtain ⟨t, rfl⟩ := h
  exact ⟨_, rfl⟩

theorem keepWord_completes {dk : Nat} {w : BitVec 32} {o : Out} (h : Completes o) : Completes (keepWord dk w o) := by
  obtain ⟨t, rfl⟩ := h
  exact ⟨_, rfl⟩

theorem runDray_completes (s : State) (dk : Nat) : Completes (runDray s dk) := by
  unfold runDray
  dsimp only
  split
  · exact ⟨_, rfl⟩
  · split
    · exact keepWord_completes (exec_completes _ _)
    · exact ⟨_, rfl⟩
    · exact ⟨_, rfl⟩
    · exact ⟨_, rfl⟩

theorem runCoach_completes (s : State) (k : Nat) : Completes (runCoach s k) := by
  unfold runCoach
  split
  · split
    · exact ⟨_, rfl⟩
    · exact exec_completes _ _
  · exact ⟨_, rfl⟩

theorem runEvent_completes (s : State) (i : Instr) : Completes (runEvent s i) := by
  unfold runEvent
  dsimp only
  split
  · split <;> exact exec_completes _ _
  · exact exec_completes _ _

theorem runWork_completes (s : State) : ∀ w, Completes (runWork s w)
  | .event i => runEvent_completes s i
  | .coach k => runCoach_completes s k
  | .dray dk => runDray_completes { s with turn := 2 } dk
  | .load dk => exec_completes (.drayLoadResult dk) _
  | .unit dk => exec_completes (.drayDataUnit dk) _
  | .wait _ => ⟨_, rfl⟩
  | .idle => ⟨_, rfl⟩

theorem step_completes {s : State} (hrun : stopped s = false) : Completes (step s) := by
  unfold step
  rw [hrun, if_neg (by decide)]
  split
  · exact ⟨_, rfl⟩
  · split
    · exact ⟨_, rfl⟩
    · split
      · exact ticked_completes (exec_completes _ _)
      · exact ticked_completes (runWork_completes s _)

/-- Settles O18: a stopped device faults, and what any other step runs completes. -/
theorem stepStops : Obligations.StepStops := fun _ => ⟨fun hstop => if_pos hstop, step_completes⟩

end Sys2Proof.Proofs
end

/-! ### Commands of the hallmark engines (12 R454-R464; assumption log 59) -/
section
namespace Sys2Proof.Proofs
open Sys2Proof Sys2Proof.Machine Sys2Proof.Laws

section
variable {s : State} {die port : Nat} {p : Port} {c : HallCmd} (hp : tget s.ports (portKey die port) = some p)
  (hc : headCmd p = some c) (hhead : c.headOk = true)
include hp hc hhead

/-- The checks of OPEN, in their order (12 R457). -/
theorem hallmarkOpen_refuses (hcmd : c.cmd = 1) :
    let bad := c.words.length < 3 ∨ c.pair 0 % 256 ≠ 0 ∨ 2 ^ 57 ≤ c.pair 0 ∨ 1 < c.word 2
    let options := hallOptions true (c.words.drop 3) false 0
    let busy := 4096 ≤ sessionsHeld s die ∨ 2 ^ 32 - 1 ≤ tgetD 0 s.hallCount die
    let fails := fun ign code => exec (.hallmarkOpen die port) s = .next (failCmd s (portKey die port) c ign code)
    (bad → fails false 2) ∧ (¬ bad → options = none → fails false 3)
      ∧ ∀ ign label, ¬ bad → options = some (ign, label) → busy → fails ign 6 := by
  intro bad options busy fails
  have hrun : exec (.hallmarkOpen die port) s = execHallmarkOpen die port s := rfl
  unfold execHallmarkOpen at hrun
  dsimp only at hrun
  rw [cmdAt_of hp hc hhead hcmd] at hrun
  dsimp only at hrun
  refine ⟨fun hbad => ?_, fun hgood hopt => ?_, fun ign label hgood hopt hbusy => ?_⟩
  · rw [if_pos hbad] at hrun
    exact hrun
  · rw [if_neg hgood, show hallOptions _ _ _ _ = _ from hopt] at hrun
    exact hrun
  · rw [if_neg hgood, show hallOptions _ _ _ _ = _ from hopt] at hrun
    exact hrun.trans (congrArg Host.Outcome.next (if_pos hbusy))

/-- The checks of ABSORB that come before its session, in their order (12 R456, R458). -/
theorem hallmarkAbsorb_refuses (hcmd : c.cmd = 2) :
    let bad := c.words.length < 4 ∨ 2 ^ 57 < c.pair 1 + c.word 3
    let fails := fun ign code => exec (.hallmarkAbsorb die port) s = .next (failCmd s (portKey die port) c ign code)
    (bad → fails false 2) ∧ ∀ o, ¬ bad → hallOptions false (c.words.drop 4) false 0 = some o →
      findSession s die (coachOf s p.coach).ctx (c.word 0) = none → fails o.1 4 := by
  intro bad fails
  have hrun : exec (.hallmarkAbsorb die port) s = execHallmarkAbsorb die port s := rfl
  unfold execHallmarkAbsorb at hrun
  dsimp only at hrun
  rw [cmdAt_of hp hc hhead hcmd] at hrun
  dsimp only at hrun
  refine ⟨fun hbad => ?_, fun o hgood hopt hnone => ?_⟩
  · rw [if_pos hbad] at hrun
    exact hrun
  · rw [if_neg hgood, hopt] at hrun
    dsimp only at hrun
    rw [hnone] at hrun
    exact hrun

theorem hallmarkClose_empty (hcmd : c.cmd = 3) (hwords : c.words = []) :
    exec (.hallmarkClose die port) s = .next (failCmd s (portKey die port) c false 2) := by
  show execHallmarkClose die port s = _
  unfold execHallmarkClose
  dsimp only
  rw [cmdAt_of hp hc hhead hcmd]
  dsimp only
  rw [if_pos (by rw [hwords]; decide)]
  rfl

/-- The CLOSE of an open session waits for one of the die's two signing units, then starts it (12 R459). -/
theorem hallmarkClose_serves {o : Bool × Nat} {key : Nat} {se : Session} (hcmd : c.cmd = 3) (hwords : c.words ≠ [])
    (hopt : hallOptions false (c.words.drop 1) false 0 = some o)
    (hse : findSession s die (coachOf s p.coach).ctx (c.word 0) = some (key, se)) (hvoid : se.void_ = none) :
    exec (.hallmarkClose die port) s = .next (if 2 ≤ (tgetD [] s.signing die).length then s else answerCmd
      { s with sessions := tput s.sessions key { se with closing := some (portKey die port, o.1) }
               signing := tput s.signing die (tgetD [] s.signing die ++ [key]) } (portKey die port) c [] 1) := by
  show execHallmarkClose die port s = _
  unfold execHallmarkClose
  dsimp only
  rw [cmdAt_of hp hc hhead hcmd]
  dsimp only
  rw [if_neg (Nat.not_lt.2 (List.length_pos_iff.2 hwords)), hopt]
  dsimp only
  rw [hse]
  dsimp only
  rw [hvoid, if_neg (by decide), if_neg (by decide)]

end

/-- Settles O53: each command by its checks in order, then by what it does once they hold. -/
theorem hallmarkCommands : Obligations.HallmarkCommands := by
  intro s die port p c pk co hp hc
  refine ⟨hallmarkBadcmd_fails hp hc, fun hhead hcmd => ?_, fun hhead hcmd => ?_, fun hhead hcmd => ?_,
    fun n => hallmarkRecordWrite_finishes, fun n hidle => congrArg Host.Outcome.next (if_neg (by rw [hidle]; decide))⟩
  · obtain ⟨hbad, hoptions, hbusy⟩ := hallmarkOpen_refuses hp hc hhead hcmd
    refine ⟨hbad, hoptions, hbusy, fun ign label pa leaf s1 hgood hopt hfree hfailed hxlate => ?_⟩
    obtain ⟨hlen, halign, haddr, halg⟩ : 3 ≤ c.words.length ∧ c.pair 0 % 256 = 0 ∧ c.pair 0 < 2 ^ 57 ∧ c.word 2 ≤ 1 := by omega
    obtain ⟨hheld, hcount⟩ : sessionsHeld s die < 4096 ∧ tgetD 0 s.hallCount die < 2 ^ 32 - 1 := by omega
    exact hallmarkOpen_opens hp hc hhead hcmd hlen halign haddr halg hopt hheld hcount hfailed hxlate
  · obtain ⟨hbad, hnosess⟩ := hallmarkAbsorb_refuses hp hc hhead hcmd
    refine ⟨hbad, hnosess, fun o key se bs s1 hgood hopt hse hvoid hfailed hall => ?_⟩
    obtain ⟨hlen, haddr⟩ : 4 ≤ c.words.length ∧ c.pair 1 + c.word 3 ≤ 2 ^ 57 := by omega
    exact hallmarkAbsorb_absorbs hp hc hhead hcmd hlen haddr hopt hse hvoid hfailed hall
  · refine ⟨hallmarkClose_empty hp hc hhead hcmd, fun o key se hwords hopt hse hvoid => ?_⟩
    have hserves := hallmarkClose_serves hp hc hhead hcmd hwords hopt hse hvoid
    exact ⟨fun hfull => hserves.trans (congrArg Host.Outcome.next (if_pos hfull)),
      fun hroom => hserves.trans (congrArg Host.Outcome.next (if_neg (Nat.not_le.2 hroom)))⟩

end Sys2Proof.Proofs
end

/-! ### Portil's requests (12 R439-R453, R506-R508; assumption logs 11, 12, 61 and 94) -/
section
namespace Sys2Proof.Proofs
open Sys2Proof Sys2Proof.Machine Sys2Proof.Laws

/-! #### Whether a request is performed, and what it answers before it does anything (12 R440, R507) -/

/-- The world or the key slot that a request names first (12 R507). -/
abbrev worldArg (block : List Byte) : Nat := imgNum block 8 2

/-- The address that a request on pages names first (12 R507). -/
abbrev firstAddr (block : List Byte) : Nat := imgNum block 8 8

/-- The address that it names second. -/
abbrev secondAddr (block : List Byte) : Nat := imgNum block 16 8

/-- The ten requests with one block. -/
def blockRequests (src : ReqSource) (block : List Byte) : List Instr :=
  [.createWorld src block, .destroyWorld src block, .assign src block, .reclaim src block, .exportPage src block,
    .importPage src block, .loadKey src block, .revokeKey src block, .getNonce src block, .debugUnlock src block]

theorem exec_blockRequest {src : ReqSource} {block : List Byte} {i : Instr} (hi : i ∈ blockRequests src block) (s : State) :
    ∃ code len path zeros f, exec i s = .next (request s src block code len path zeros f) := by
  simp only [blockRequests, List.mem_cons, List.not_mem_nil, or_false] at hi
  rcases hi with rfl | rfl | rfl | rfl | rfl | rfl | rfl | rfl | rfl | rfl <;> exact ⟨_, _, _, _, _, rfl⟩

/-- The requests on pages, with their codes, lengths and zero bytes (12 R507). -/
def pageRequests (src : ReqSource) (block : List Byte) : List (Instr × Nat × Nat × List (Nat × Nat)) :=
  [(.assign src block, 3, 32, [(18, 14)]), (.reclaim src block, 4, 16, []), (.exportPage src block, 5, 32, [(24, 8)]),
    (.importPage src block, 6, 32, [(26, 6)])]

theorem exec_pageRequest {src : ReqSource} {block : List Byte} {i : Instr} {code len : Nat} {zeros : List (Nat × Nat)}
    (hi : (i, code, len, zeros) ∈ pageRequests src block) (s : State) :
    1 ≤ code ∧ code ≤ 10 ∧ ∃ f, exec i s = .next (request s src block code len (src == .mailbox) zeros f) := by
  simp only [pageRequests, List.mem_cons, Prod.mk.injEq, List.not_mem_nil, or_false] at hi
  obtain ⟨rfl, rfl, rfl, rfl⟩ | ⟨rfl, rfl, rfl, rfl⟩ | ⟨rfl, rfl, rfl, rfl⟩ | ⟨rfl, rfl, rfl, rfl⟩ := hi <;>
    exact ⟨by decide, by decide, _, rfl⟩

/-- In `s0` the request is performed, on the state `s`: Portil has taken it, or none waits (12 R440). -/
def Performs (s0 s : State) (src : ReqSource) (block : List Byte) : Prop :=
  s.portil.taken = none
    ∧ ((s0 = s ∧ s.portil.queue = []) ∨ s0 = { s with portil := { s.portil with taken := some (src, block) } })

theorem perform_denied {s : State} {src : ReqSource} {block : List Byte} {code : Nat} (hcode : imgNum block 0 2 = code) (hlow : 1 ≤ code)
    (hhigh : code ≤ 10) (len : Nat) (zeros : List (Nat × Nat)) (f : State → State) :
    perform s src block code len false zeros f = answerReq s src block 4 [] :=
  (if_neg (by omega)).trans ((if_neg (not_not_intro hcode)).trans (if_pos rfl))

theorem perform_malformed {s : State} {src : ReqSource} {block : List Byte} {code len : Nat} {zeros : List (Nat × Nat)}
    (hcode : imgNum block 0 2 = code) (hlow : 1 ≤ code) (hhigh : code ≤ 10) (hform : blockGood block len zeros = false)
    (f : State → State) : perform s src block code len true zeros f = answerReq s src block 1 [] :=
  (if_neg (by omega)).trans ((if_neg (not_not_intro hcode)).trans ((if_neg (by decide)).trans (if_pos (by rw [hform]; rfl))))

theorem next_of_eq {o : Out} {a b : State} (hrun : o = .next a) (hab : a = b) : o = .next b := hrun.trans (congrArg _ hab)

theorem not_not_eq_true {b : Bool} (hb : b = true) : ¬ (!b) = true := by rw [hb]; decide

section
variable {s0 s : State} {src : ReqSource} {block : List Byte} (h : Performs s0 s src block)
include h

theorem Performs.boundTo_eq (w : Nat) : boundTo s0 src w = boundTo s src w := by
  obtain ⟨-, ⟨rfl, -⟩ | rfl⟩ := h <;> rfl

theorem Performs.keys_eq : s0.keys = s.keys := by
  obtain ⟨-, ⟨rfl, -⟩ | rfl⟩ := h <;> rfl

theorem Performs.hasSession_eq (n : Nat) : hasSession s0 n = hasSession s n := by
  obtain ⟨-, ⟨rfl, -⟩ | rfl⟩ := h <;> rfl

section
variable {i : Instr} {code len : Nat} {path : Bool} {zeros : List (Nat × Nat)} {f : State → State}
  (hrun : exec i s0 = .next (request s0 src block code len path zeros f))
include hrun

theorem Performs.performed : exec i s0 = .next (perform s src block code len path zeros f) :=
  hrun.trans (congrArg Host.Outcome.next (request_runs h.1 h.2 ..))

/-- A request of its own code, with a good block on its own path, does what it does. -/
theorem Performs.asked (hasks : Asks block code len zeros) (hpath : path = true)
    (hlow : 1 ≤ code := by decide) (hhigh : code ≤ 10 := by decide) : exec i s0 = .next (f s) := by
  rw [h.performed hrun, hpath, perform_good hasks.1 hlow hhigh hasks.2]

theorem Performs.denied (hcode : imgNum block 0 2 = code) (hpath : path = false)
    (hlow : 1 ≤ code := by decide) (hhigh : code ≤ 10 := by decide) : exec i s0 = .next (answerReq s src block 4 []) := by
  rw [h.performed hrun, hpath, perform_denied hcode hlow hhigh]

theorem Performs.malformed (hcode : imgNum block 0 2 = code) (hpath : path = true) (hform : blockGood block len zeros = false)
    (hlow : 1 ≤ code := by decide) (hhigh : code ≤ 10 := by decide) : exec i s0 = .next (answerReq s src block 1 []) := by
  rw [h.performed hrun, hpath, perform_malformed hcode hlow hhigh hform]

end

theorem Performs.unknown {i : Instr} (hi : i ∈ blockRequests src block) (hcode : imgNum block 0 2 = 0 ∨ 10 < imgNum block 0 2) :
    exec i s0 = .next (answerReq s src block 1 []) := by
  obtain ⟨code, len, path, zeros, f, hrun⟩ := exec_blockRequest hi s0
  rw [h.performed hrun, perform_unknown hcode]

theorem Performs.pageRequest_refused {i : Instr} {code len : Nat} {zeros : List (Nat × Nat)}
    (hi : (i, code, len, zeros) ∈ pageRequests src block) (hcode : imgNum block 0 2 = code) :
    (src ≠ .mailbox → exec i s0 = .next (answerReq s src block 4 []))
      ∧ (src = .mailbox → blockGood block len zeros = false → exec i s0 = .next (answerReq s src block 1 [])) := by
  obtain ⟨hlow, hhigh, f, hrun⟩ := exec_pageRequest hi s0
  exact ⟨fun hsrc => h.denied hrun hcode (beq_eq_false_iff_ne.2 hsrc) hlow hhigh,
    fun hsrc hform => h.malformed hrun hcode (beq_iff_eq.2 hsrc) hform hlow hhigh⟩

/-! #### Worlds (12 R440) -/

/-- A world that is new, under a number that a world can have. -/
theorem Performs.createWorld_new (hasks : Asks block 1 16 [(11, 5)]) (hbound : boundTo s src (worldArg block) = true)
    (hlow : 1 ≤ worldArg block) (hhigh : worldArg block ≤ 2047) (hflags : imgNum block 10 1 ≤ 1)
    (hnew : tget s.worlds (worldArg block) = none) :
    (freeSlot s = none → exec (.createWorld src block) s0 = .next (answerReq s src block 3 []))
    ∧ ∀ slot, freeSlot s = some slot →
      let s1 := loadSlot { s with portil := { s.portil with keys := s.portil.keys + 1 } } slot 1 (worldArg block) s.portil.keys 0 []
      let x : World := { debuggable := imgNum block 10 1 == 1, exports := 0, covered := false, slot := slot }
      exec (.createWorld src block) s0
        = .next (answerReq { s1 with worlds := tput s.worlds (worldArg block) x } src block 0 []) := by
  have hfine : ¬ (worldArg block = 0 ∨ 2047 < worldArg block ∨ 1 < imgNum block 10 1
      ∨ (tget s.worlds (worldArg block)).isSome = true) := by
    rw [hnew]
    simp
    omega
  have hpath : boundTo s0 src (worldArg block) = true := (h.boundTo_eq _).trans hbound
  have hrun := h.asked (i := .createWorld src block) rfl hasks hpath
  dsimp only at hrun
  rw [if_neg hfine] at hrun
  refine ⟨fun hfull => ?_, fun slot hslot => ?_⟩
  · rw [hfull] at hrun
    exact hrun
  · rw [hslot] at hrun
    exact hrun

/-- A world that a context or a page still has stays; another goes, with its keys and its exports. -/
theorem Performs.destroyWorld_old (hasks : Asks block 2 16 [(10, 6)]) (hbound : boundTo s src (worldArg block) = true)
    (hworld : (tget s.worlds (worldArg block)).isSome = true) :
    let w := worldArg block
    let used := (∃ e ∈ s.ctxs, e.2.world = w) ∨ ∃ e ∈ s.pot, e.2.world = w
    let s1 := (tkeys (s.keys.filter (fun e => e.2.world == w))).foldl revokeSlot s
    (used → exec (.destroyWorld src block) s0 = .next (answerReq s src block 2 []))
    ∧ (¬ used → exec (.destroyWorld src block) s0 = .next (answerReq { s1 with
        worlds := tdel s1.worlds w
        portil := { s1.portil with exports := s1.portil.exports.filter (fun e => e.1 != w) } } src block 0 [])) := by
  intro w used s1
  have hany : (s.ctxs.any (fun e => e.2.world == w) || s.pot.any (fun e => e.2.world == w)) = true ↔ used := by
    simp [used]
  have hpath : boundTo s0 src w = true := (h.boundTo_eq _).trans hbound
  have hold : ¬ (tget s.worlds w).isNone = true := by rw [Option.isNone_eq_false_iff.2 hworld]; decide
  have hrun := h.asked (i := .destroyWorld src block) rfl hasks hpath
  exact ⟨fun hused => next_of_eq hrun ((if_neg hold).trans (if_pos (hany.2 hused))),
    fun hunused => next_of_eq hrun ((if_neg hold).trans (if_neg (mt hany.1 hunused)))⟩

/-! #### Pages (12 R441-R443, R446-R448) -/

theorem Performs.assign_refuses (hasks : Asks block 3 32 [(18, 14)]) (hsrc : src = .mailbox) :
    (pageOk (firstAddr block) = false → exec (.assign src block) s0 = .next (answerReq s src block 1 []))
    ∧ (pageOk (firstAddr block) = true → ((potOf s (firstAddr block)).state ≠ 0 ∧ (potOf s (firstAddr block)).state ≠ 3)
        ∨ (potOf s (firstAddr block)).world ≠ 0 ∨ tget s.worlds (imgNum block 16 2) = none →
      exec (.assign src block) s0 = .next (answerReq s src block 2 [])) := by
  have hrun := h.asked (i := .assign src block) rfl hasks (beq_iff_eq.2 hsrc)
  refine ⟨fun hpage => next_of_eq hrun (if_pos (by rw [hpage]; rfl)),
    fun hpage hstate => next_of_eq hrun ((if_neg (not_not_eq_true hpage)).trans (if_pos ?_))⟩
  rwa [Option.isNone_iff_eq_none]

theorem Performs.assign_assigns (hasks : Asks block 3 32 [(18, 14)]) (hsrc : src = .mailbox) (hpage : pageOk (firstAddr block) = true)
    (hdram : isDram (firstAddr block) = true) (hquiet : frameQuiet s (firstAddr block) = true)
    (hstate : (potOf s (firstAddr block)).state = 0 ∨ (potOf s (firstAddr block)).state = 3)
    (hfree : (potOf s (firstAddr block)).world = 0) (hworld : (tget s.worlds (imgNum block 16 2)).isSome = true) :
    exec (.assign src block) s0 = .next (answerReq (potSet (scrubFrame (takeFrame s (firstAddr block)) (firstAddr block))
      (firstAddr block) { potOf s (firstAddr block) with world := imgNum block 16 2, state := 1 }) src block 0 []) := by
  have hrun := h.asked (i := .assign src block) rfl hasks (beq_iff_eq.2 hsrc)
  have hfine : ¬ (((potOf s (firstAddr block)).state ≠ 0 ∧ (potOf s (firstAddr block)).state ≠ 3)
      ∨ (potOf s (firstAddr block)).world ≠ 0 ∨ (tget s.worlds (imgNum block 16 2)).isNone = true) := by
    rw [Option.isNone_eq_false_iff.2 hworld]
    simp
    omega
  exact next_of_eq hrun ((if_neg (not_not_eq_true hpage)).trans ((if_neg hfine).trans
    ((if_neg (not_not_eq_true hdram)).trans (if_neg (not_not_eq_true hquiet)))))

theorem Performs.reclaim_refuses (hasks : Asks block 4 16 []) (hsrc : src = .mailbox) :
    (pageOk (firstAddr block) = false → exec (.reclaim src block) s0 = .next (answerReq s src block 1 []))
    ∧ (pageOk (firstAddr block) = true → (potOf s (firstAddr block)).state ≠ 1 →
        (potOf s (firstAddr block)).state ≠ 3 ∨ (potOf s (firstAddr block)).world = 0 →
        s.upsets.contains (.pot (firstAddr block / 4096)) = false →
      exec (.reclaim src block) s0 = .next (answerReq s src block 2 [])) := by
  have hrun := h.asked (i := .reclaim src block) rfl hasks (beq_iff_eq.2 hsrc)
  exact ⟨fun hpage => next_of_eq hrun (if_pos (by rw [hpage]; rfl)),
    fun hpage hstate hscrub hgood => next_of_eq hrun ((if_neg (not_not_eq_true hpage)).trans
      (if_pos ⟨hstate, hscrub, hgood⟩))⟩

theorem Performs.reclaim_waits (hasks : Asks block 4 16 []) (hsrc : src = .mailbox) (hpage : pageOk (firstAddr block) = true)
    (hheld : frameQuiet s (firstAddr block) = false) (hstate : (potOf s (firstAddr block)).state = 1) :
    exec (.reclaim src block) s0 = .next (waitReq (dropFrame (potSet s (firstAddr block) { potOf s (firstAddr block) with state := 3 })
      (firstAddr block)) src block) := by
  have hrun := h.asked (i := .reclaim src block) rfl hasks (beq_iff_eq.2 hsrc)
  exact next_of_eq hrun ((if_neg (not_not_eq_true hpage)).trans ((if_neg (fun hbad => hbad.1 hstate)).trans
    (if_pos (by rw [hheld]; rfl))))

theorem Performs.reclaim_reclaims (hasks : Asks block 4 16 []) (hsrc : src = .mailbox) (hpage : pageOk (firstAddr block) = true)
    (hquiet : frameQuiet s (firstAddr block) = true) (hstate : (potOf s (firstAddr block)).state = 1
      ∨ ((potOf s (firstAddr block)).state = 3 ∧ (potOf s (firstAddr block)).world ≠ 0)
      ∨ s.upsets.contains (.pot (firstAddr block / 4096)) = true) :
    let s1 := scrubFrame (takeFrame s (firstAddr block)) (firstAddr block)
    exec (.reclaim src block) s0 = .next (answerReq (potSet { s1 with upsets := s1.upsets.filter (· != .pot (firstAddr block / 4096)) }
      (firstAddr block) PotE.free) src block 0 []) := by
  have hrun := h.asked (i := .reclaim src block) rfl hasks (beq_iff_eq.2 hsrc)
  have hfine : ¬ ((potOf s (firstAddr block)).state ≠ 1 ∧ ((potOf s (firstAddr block)).state ≠ 3
      ∨ (potOf s (firstAddr block)).world = 0) ∧ s.upsets.contains (.pot (firstAddr block / 4096)) = false) := by
    rintro ⟨hstate1, hscrub, hgood⟩
    rcases hstate with hone | ⟨hthree, hworld⟩ | hupset
    · exact hstate1 hone
    · exact hscrub.elim (fun hne => hne hthree) hworld
    · exact Bool.noConfusion (hupset.symm.trans hgood)
  exact next_of_eq hrun ((if_neg (not_not_eq_true hpage)).trans ((if_neg hfine).trans
    (if_neg (not_not_eq_true hquiet))))

theorem Performs.exportPage_refuses (hasks : Asks block 5 32 [(24, 8)]) (hsrc : src = .mailbox) :
    (pageOk (firstAddr block) = false → exec (.exportPage src block) s0 = .next (answerReq s src block 1 []))
    ∧ (pageOk (firstAddr block) = true → (potOf s (firstAddr block)).state ≠ 1 → (potOf s (firstAddr block)).state ≠ 2 →
      exec (.exportPage src block) s0 = .next (answerReq s src block 2 []))
    ∧ (pageOk (firstAddr block) = true → (potOf s (firstAddr block)).state = 1 → 1048576 ≤ s.portil.exports.length →
        blobAt (secondAddr block) = true → exec (.exportPage src block) s0 = .next (answerReq s src block 3 [])) := by
  have hrun := h.asked (i := .exportPage src block) rfl hasks (beq_iff_eq.2 hsrc)
  exact ⟨fun hpage => next_of_eq hrun (if_pos (by rw [hpage]; rfl)),
    fun hpage h1 h2 => next_of_eq hrun ((if_neg (not_not_eq_true hpage)).trans (if_pos ⟨h1, h2⟩)),
    fun hpage hstate hfull hblob => next_of_eq hrun ((if_neg (not_not_eq_true hpage)).trans
      ((if_neg (fun hbad => hbad.1 hstate)).trans ((if_neg (not_not_eq_true hblob)).trans (if_pos hfull))))⟩

theorem Performs.exportPage_waits (hasks : Asks block 5 32 [(24, 8)]) (hsrc : src = .mailbox) (hpage : pageOk (firstAddr block) = true)
    (hstate : (potOf s (firstAddr block)).state = 1) (hroom : s.portil.exports.length < 1048576)
    (hblob : blobAt (secondAddr block) = true) (hheld : frameQuiet s (firstAddr block) = false) :
    exec (.exportPage src block) s0 = .next (waitReq (dropFrame (potSet s (firstAddr block)
      { potOf s (firstAddr block) with state := 2 }) (firstAddr block)) src block) := by
  have hrun := h.asked (i := .exportPage src block) rfl hasks (beq_iff_eq.2 hsrc)
  exact next_of_eq hrun ((if_neg (not_not_eq_true hpage)).trans ((if_neg (fun hbad => hbad.1 hstate)).trans
    ((if_neg (not_not_eq_true hblob)).trans ((if_neg (Nat.not_le.2 hroom)).trans (if_pos (by rw [hheld]; rfl))))))

theorem Performs.exportPage_exports (hasks : Asks block 5 32 [(24, 8)]) (hsrc : src = .mailbox)
    (hpage : pageOk (firstAddr block) = true) (hquiet : frameQuiet s (firstAddr block) = true)
    (hstate : (potOf s (firstAddr block)).state = 1 ∨ (potOf s (firstAddr block)).state = 2)
    (hblob : blobAt (secondAddr block) = true) (hroom : s.portil.exports.length < 1048576) :
    let a := secondAddr block
    let w := (potOf s (firstAddr block)).world
    let version := ((tget s.worlds w).map World.exports).getD 0 + 1
    let s1 := takeFrame { s with worlds := tmod s.worlds w (fun x => { x with exports := version }) } (firstAddr block)
    let head := cipherPage xtsEnc (memoryKey s1 w) version (physRead s1 (firstAddr block) 4096)
      ++ leBytes 8 version ++ leBytes 2 w ++ leBytes 6 0
    let s2 := physWrite (dropWhere s1 (fun l => decide (a / 64 ≤ l ∧ l < a / 64 + 65))) a
      (head ++ blobTag (memoryKey s1 w) version head ++ List.replicate 32 0)
    exec (.exportPage src block) s0 = .next (answerReq (potSet (scrubFrame { s2 with portil :=
      { s2.portil with exports := (w, version) :: s2.portil.exports } } (firstAddr block)) (firstAddr block)
      { potOf s (firstAddr block) with world := 0, state := 0 }) src block 0 (leBytes 8 version)) := by
  have hrun := h.asked (i := .exportPage src block) rfl hasks (beq_iff_eq.2 hsrc)
  exact next_of_eq hrun ((if_neg (not_not_eq_true hpage)).trans
    ((if_neg (fun hbad => hstate.elim hbad.1 hbad.2)).trans ((if_neg (not_not_eq_true hblob)).trans
      ((if_neg (Nat.not_le.2 hroom)).trans (if_neg (not_not_eq_true hquiet))))))

theorem Performs.importPage_refuses (hasks : Asks block 6 32 [(26, 6)]) (hsrc : src = .mailbox)
    (hpage : pageOk (secondAddr block) = true)
    (hstate : (potOf s (secondAddr block)).state ≠ 0 ∨ (potOf s (secondAddr block)).world ≠ 0) :
    exec (.importPage src block) s0 = .next (answerReq s src block 2 []) := by
  have hrun := h.asked (i := .importPage src block) rfl hasks (beq_iff_eq.2 hsrc)
  exact next_of_eq hrun ((if_neg (not_not_eq_true hpage)).trans (if_pos hstate))

theorem Performs.importPage_imports (hasks : Asks block 6 32 [(26, 6)]) (hsrc : src = .mailbox)
    (hpage : pageOk (secondAddr block) = true) (hdram : isDram (secondAddr block) = true) (hblob : blobAt (firstAddr block) = true)
    (hquiet : frameQuiet s (secondAddr block) = true) (hstate : (potOf s (secondAddr block)).state = 0)
    (hfree : (potOf s (secondAddr block)).world = 0) (hworld : (tget s.worlds (imgNum block 24 2)).isSome = true) :
    let q := secondAddr block
    let w := imgNum block 24 2
    let blob := ownRead s (firstAddr block) 4160
    let version := imgNum blob 4096 8
    let key := memoryKey s w
    let good := imgNum blob 4104 2 = w ∧ (w, version) ∈ s.portil.exports
      ∧ (blob.drop 4112).take 16 = blobTag key version (blob.take 4112)
    let s1 := takeFrame s q
    let s2 := { s1 with portil := { s1.portil with exports := s1.portil.exports.filter (· != (w, version)) } }
    exec (.importPage src block) s0 = .next (if good then answerReq (potSet (writeFrameBytes s2 q
        (cipherPage xtsDec key version (blob.take 4096))) q { world := w, poison := false, state := 1 }) src block 0 []
      else answerReq (potSet (scrubFrame s2 q) q { world := w, poison := true, state := 1 }) src block 5 []) := by
  intro q w blob version key good s1 s2
  have hrun := h.asked (i := .importPage src block) rfl hasks (beq_iff_eq.2 hsrc)
  have hfine : ¬ ((potOf s q).state ≠ 0 ∨ (potOf s q).world ≠ 0) := fun hbad => hbad.elim (· hstate) (· hfree)
  have hknown : ¬ (tget s.worlds w).isNone = true := by rw [Option.isNone_eq_false_iff.2 hworld]; decide
  have hwhere : ¬ (!isDram q || !blobAt (firstAddr block)) = true := by rw [show isDram q = true from hdram, hblob]; decide
  have hgood : (imgNum blob 4104 2 == w && s.portil.exports.contains (w, version)
      && (blob.drop 4112).take 16 == blobTag key version (blob.take 4112)) = true ↔ good := by
    rw [Bool.and_eq_true, Bool.and_eq_true, beq_iff_eq, beq_iff_eq, List.contains_iff_mem, and_assoc]
  exact next_of_eq hrun ((if_neg (not_not_eq_true hpage)).trans ((if_neg hfine).trans
    ((if_neg hknown).trans ((if_neg hwhere).trans ((if_neg (not_not_eq_true hquiet)).trans (if_congr hgood rfl rfl))))))

/-! #### Content keys (12 R439, R449, R451) -/

theorem Performs.loadKey_loads {n slot : Nat} (hsrc : src = .ownerSession n) (hn : n ∈ s.portil.sessions)
    (hcount : imgNum block 10 1 ≤ 8)
    (hasks : Asks block 7 464 [(11, 5), (16 + 49 * imgNum block 10 1, 49 * (8 - imgNum block 10 1)), (448, 16)])
    (hworld : worldArg block = 0 ∨ (tget s.worlds (worldArg block)).isSome = true) (hslot : freeSlot s = some slot)
    (hpolicy : (policyOf block).all (fun p => measurementOf s p.1 == some p.2) = true) :
    let unwrapped := keyUnwrap (hkdf384 (toNats (Config.sessionSecret n)) []) (toNats ((block.drop 408).take 40))
    (unwrapped = none → exec (.loadKey src block) s0 = .next (answerReq s src block 4 []))
    ∧ ∀ key, unwrapped = some key → exec (.loadKey src block) s0
      = .next (answerReq (loadSlot s slot 2 (worldArg block) (leNat (toBytes key)) n (policyOf block)) src block 0 (leBytes 2 slot)) := by
  subst hsrc
  have hfine : ¬ (8 < imgNum block 10 1 ∨ (worldArg block ≠ 0 ∧ (tget s.worlds (worldArg block)).isNone = true)) := by
    rintro (h8 | ⟨h0, hnone⟩)
    · omega
    · rw [Option.isNone_eq_false_iff.2 (hworld.resolve_left h0)] at hnone
      exact Bool.noConfusion hnone
  have hmeasured : ¬ ((policyOf block).any (fun p => measurementOf s p.1 != some p.2) = true) := by
    rw [Bool.not_eq_true, List.any_eq_false]
    intro p hp
    rw [bne, show (measurementOf s p.1 == some p.2) = true from List.all_eq_true.1 hpolicy p hp]
    decide
  have hrun := h.asked (i := .loadKey (.ownerSession n) block) rfl hasks ((h.hasSession_eq n).trans (List.contains_iff_mem.2 hn))
  dsimp only at hrun
  rw [if_neg hfine, if_neg hmeasured, hslot] at hrun
  refine ⟨fun hkey => ?_, fun key hkey => ?_⟩
  · rw [hkey] at hrun
    exact hrun
  · rw [hkey] at hrun
    exact hrun

theorem Performs.revokeKey_revokes {n : Nat} {k : KeySlot} (hsrc : src = .ownerSession n) (hn : n ∈ s.portil.sessions)
    (hk : tget s.keys (worldArg block) = some k) (hkind : k.kind = 2) (hsession : k.session = n) (hasks : Asks block 8 16 [(10, 6)]) :
    exec (.revokeKey src block) s0 = .next (answerReq (revokeSlot s (worldArg block)) src block 0 []) := by
  subst hsrc
  refine next_of_eq (h.asked (i := .revokeKey (.ownerSession n) block) rfl hasks ?_) rfl
  rw [h.keys_eq, hk]
  dsimp only
  rw [h.hasSession_eq, hasSession, List.contains_iff_mem.2 hn, hkind, hsession]
  simp

/-! #### Debug unlock (12 R452, R453) -/

theorem Performs.getNonce_draws (hsrc : src = .mailbox ∨ src = .mctp) (hasks : Asks block 9 16 [(8, 8)]) :
    exec (.getNonce src block) s0 = .next (answerReq
      { s with portil := { s.portil with nonce := some s.portil.nonces, nonces := s.portil.nonces + 1 } } src block 0
      (leBytes 32 (Config.nonce s.portil.nonces).toNat)) :=
  next_of_eq (h.asked (i := .getNonce src block) rfl hasks (managed_path hsrc)) rfl

end

/-- The token names the nonce outstanding. -/
def tokenFresh (s : State) (block : List Byte) : Bool :=
  match s.portil.nonce with
  | some k => (block.drop 76).take 32 == leBytes 32 (Config.nonce k).toNat
  | none => false

/-- The token is of this device, over the nonce outstanding, and its signature holds. -/
def tokenHolds (s : State) (block : List Byte) : Bool :=
  tokenFresh s block && (block.drop 28).take 48 == Config.identityDigest
    && Config.tokenSigned ((block.drop 8).take 100) ((block.drop 108).take 96)

/-- A token spends the nonce that it names. -/
def nonceSpent (s : State) (block : List Byte) : State :=
  if tokenFresh s block then { s with portil := { s.portil with nonce := none } } else s

/-- The worlds that the token lists. -/
def listedWorlds (block : List Byte) : List Nat := (List.range (imgNum block 10 1)).map (fun i => imgNum block (12 + 2 * i) 2)

/-- The listed worlds that exist and were created debuggable. -/
def coverable (s : State) (block : List Byte) : List Nat :=
  (listedWorlds block).filter (fun w => ((tget s.worlds w).map World.debuggable).getD false)

/-- The worlds of the list are marked covered. -/
def markCovered (ws : List Nat) (s : State) : State :=
  ws.foldl (fun s w => { s with worlds := tmod s.worlds w (fun x => { x with covered := true }) }) s

/-- What a token that holds leaves: its worlds covered, and the keys revoked whose policy names the list (12 R451). -/
def unlocked (s : State) (block : List Byte) : State :=
  let t := markCovered (coverable s block) s
  revokeIndex { t with portil := { t.portil with covered := t.portil.covered ++ coverable s block } } 5

section
variable {s : State} {block : List Byte}

theorem tokenFresh_of_holds (h : tokenHolds s block = true) : tokenFresh s block = true := by
  simp only [tokenHolds, Bool.and_eq_true] at h
  obtain ⟨⟨hfresh, -⟩, -⟩ := h
  exact hfresh

theorem tokenHolds_nonce (h : tokenHolds s block = true) : s.portil.nonce ≠ none := by
  intro hnone
  have hfresh := tokenFresh_of_holds h
  rw [tokenFresh, hnone] at hfresh
  exact Bool.noConfusion hfresh

theorem tokenHolds_of {k : Nat} (hnonce : s.portil.nonce = some k) (hfresh : (block.drop 76).take 32 = leBytes 32 (Config.nonce k).toNat)
    (hdevice : (block.drop 28).take 48 = Config.identityDigest)
    (hsigned : Config.tokenSigned ((block.drop 8).take 100) ((block.drop 108).take 96) = true) : tokenHolds s block = true := by
  rw [tokenHolds, tokenFresh, hnonce]
  dsimp only
  rw [hfresh, hdevice, hsigned]
  simp

theorem nonceSpent_worlds : (nonceSpent s block).worlds = s.worlds := by
  unfold nonceSpent
  split <;> rfl

theorem nonceSpent_covered : (nonceSpent s block).portil.covered = s.portil.covered := by
  unfold nonceSpent
  split <;> rfl

theorem nonceSpent_nonce (h : tokenFresh s block = true) : (nonceSpent s block).portil.nonce = none := by
  rw [nonceSpent, if_pos h]

theorem revokeSlot_worlds (l : List Nat) (s : State) : (l.foldl revokeSlot s).worlds = s.worlds := by
  induction l generalizing s with
  | nil => rfl
  | cons a l ih => rw [List.foldl_cons, ih]; rfl

theorem unlocked_worlds : (unlocked s block).worlds = (markCovered (coverable s block) s).worlds := revokeSlot_worlds _ _

theorem unlocked_portil : (unlocked s block).portil = { s.portil with covered := s.portil.covered ++ coverable s block } := by
  rw [unlocked, revokeIndex, revokes_portil, markCovered, cover_portil]

theorem tget_unlocked {w : Nat} {x : World} (hlisted : w ∈ listedWorlds block) (hx : tget s.worlds w = some x)
    (hdebug : x.debuggable = true) : (tget (unlocked s block).worlds w).map World.covered = some true := by
  have hmem : w ∈ coverable s block := List.mem_filter.2 ⟨hlisted, by rw [hx]; exact hdebug⟩
  rw [unlocked_worlds, markCovered, tget_cover, hx, Option.map_some, if_pos hmem]
  rfl

end

section
variable {s0 s : State} {src : ReqSource} {block : List Byte} (h : Performs s0 s src block) (hsrc : src = .mailbox ∨ src = .mctp)
  (hversion : imgNum block 8 2 = 1) (hlow : 1 ≤ imgNum block 10 1) (hhigh : imgNum block 10 1 ≤ 8)
  (hasks : Asks block 10 256 [(11, 1), (12 + 2 * imgNum block 10 1, 2 * (8 - imgNum block 10 1)), (204, 52)])
include h hsrc hversion hlow hhigh hasks

theorem Performs.debugUnlock_answers :
    exec (.debugUnlock src block) s0 = .next (if tokenHolds s block = true
      then answerReq (unlocked (nonceSpent s block) block) src block 0 [] else answerReq (nonceSpent s block) src block 4 []) := by
  have hrun := h.asked (i := .debugUnlock src block) rfl hasks (managed_path hsrc)
  refine next_of_eq hrun ((if_neg (by omega)).trans ?_)
  by_cases hholds : tokenHolds s block = true
  · exact (if_neg (not_not_eq_true hholds)).trans (if_pos hholds).symm
  · have hfails : (!tokenHolds s block) = true := by rw [Bool.eq_false_iff.2 hholds]; rfl
    exact (if_pos hfails).trans (if_neg hholds).symm

theorem Performs.debugUnlock_unlocks :
    ∃ t status, exec (.debugUnlock src block) s0 = .next (answerReq t src block status [])
      ∧ (status = 4 → t.worlds = s.worlds ∧ t.portil.covered = s.portil.covered)
      ∧ (s.portil.nonce = none → status = 4)
      ∧ (status ≠ 4 → status = 0 ∧ t.portil.nonce = none ∧ t.portil.covered = s.portil.covered ++ coverable s block)
      ∧ (∀ k, s.portil.nonce = some k → (block.drop 76).take 32 = leBytes 32 (Config.nonce k).toNat →
          (block.drop 28).take 48 = Config.identityDigest →
          Config.tokenSigned ((block.drop 8).take 100) ((block.drop 108).take 96) = true →
          status = 0 ∧ ∀ w ∈ listedWorlds block, ∀ x, tget s.worlds w = some x → x.debuggable = true →
            (tget t.worlds w).map World.covered = some true) := by
  have hrun := h.debugUnlock_answers hsrc hversion hlow hhigh hasks
  cases hholds : tokenHolds s block with
  | false =>
    rw [hholds, if_neg (by decide)] at hrun
    refine ⟨_, 4, hrun, fun _ => ⟨nonceSpent_worlds, nonceSpent_covered⟩, fun _ => rfl, fun hne => absurd rfl hne,
      fun k hnonce hfresh hdevice hsigned => ?_⟩
    rw [tokenHolds_of hnonce hfresh hdevice hsigned] at hholds
    exact Bool.noConfusion hholds
  | true =>
    rw [hholds, if_pos rfl] at hrun
    have hsame : coverable (nonceSpent s block) block = coverable s block := by rw [coverable, nonceSpent_worlds, coverable]
    refine ⟨_, 0, hrun, fun h0 => absurd h0 (by decide), fun hnone => absurd hnone (tokenHolds_nonce hholds),
      fun _ => ⟨rfl, ?_, ?_⟩, fun k _ _ _ _ => ⟨rfl, fun w hw x hx => tget_unlocked hw (by rw [nonceSpent_worlds, hx])⟩⟩
    · rw [unlocked_portil]
      exact nonceSpent_nonce (tokenFresh_of_holds hholds)
    · rw [unlocked_portil, hsame]
      exact congrArg (· ++ _) nonceSpent_covered

end

/-- Settles O57: a request joins those that wait or is performed; then each request by its checks in order and by what it does. -/
theorem portilRequests : Obligations.PortilRequests := by
  intro s0 s src block htaken
  refine ⟨fun hwaiting i hi => ?_, fun hturn => ?_⟩
  · obtain ⟨code, len, path, zeros, f, hrun⟩ := exec_blockRequest hi s
    rw [hrun, request_joins htaken hwaiting]
  · intro asked w p answers quiet put
    have h : Performs s0 s src block := ⟨htaken, hturn⟩
    refine ⟨fun hcode i hi => h.unknown hi hcode,
      fun hcode hbound => h.denied (i := .createWorld src block) rfl hcode ((h.boundTo_eq w).trans hbound),
      fun hcode hbound => h.malformed (i := .createWorld src block) rfl hcode ((h.boundTo_eq w).trans hbound),
      fun i c len z hi => h.pageRequest_refused hi, h.createWorld_new, h.destroyWorld_old, h.assign_refuses,
      fun hasks hsrc => ?_, fun hasks hsrc => ?_, h.importPage_refuses, h.assign_assigns, h.reclaim_reclaims,
      h.exportPage_exports, h.importPage_imports, fun n slot hsrc hn hcount hasks hworld hslot hpolicy => ?_,
      fun n k => h.revokeKey_revokes, h.getNonce_draws, h.debugUnlock_unlocks⟩
    · obtain ⟨hpage, hstate⟩ := h.reclaim_refuses hasks hsrc
      exact ⟨hpage, hstate, h.reclaim_waits hasks hsrc⟩
    · obtain ⟨hpage, hstate, hfull⟩ := h.exportPage_refuses hasks hsrc
      exact ⟨hpage, hstate, hfull, h.exportPage_waits hasks hsrc⟩
    · obtain ⟨hlost, hkept⟩ := h.loadKey_loads hsrc hn hcount hasks hworld hslot hpolicy
      show exec (.loadKey src block) s0 = _
      split
      · next hkey => exact hlost hkey
      · next key hkey => exact hkept key hkey

end Sys2Proof.Proofs
end

/-! ### SPDM, TDISP, rotation and the stages of bring-up (08 R323-R325, 12 R441, R449, R450, 15 R493, R500-R502; assumption logs
11, 15, 47, 63 and 94) -/
section
namespace Sys2Proof.Proofs
open Sys2Proof Sys2Proof.Machine Sys2Proof.Laws

/-! #### Fields of FEATDEV (15 R495) -/

/-- Setting a field leaves the fields that share no bit with it. -/
theorem field_setFeat_apart {f : BitVec 128} {hi lo hi' lo' : Nat} (v : Nat) (hle : lo ≤ hi) (hlt : hi < 128)
    (hapart : hi' < lo ∨ hi < lo') : field (setFeat f hi lo v).toNat hi' lo' = field f.toNat hi' lo' := by
  refine Nat.eq_of_testBit_eq fun i => ?_
  rw [bit_field, bit_field, bit_setFeat f hi lo v hle hlt]
  by_cases hin : i < hi' + 1 - lo'
  · rw [if_neg (by omega)]
  · simp [hin]

theorem getLsbD_setFeat {f : BitVec 128} {hi lo i : Nat} (v : Nat) (hle : lo ≤ hi) (hlt : hi < 128) :
    (setFeat f hi lo v).getLsbD i = if lo ≤ i ∧ i ≤ hi then v.testBit (i - lo) else f.getLsbD i := bit_setFeat f hi lo v hle hlt i

/-- The lanes of a mask of `n` bits are counted among its bits. -/
theorem countLanes_setWidth {n : Nat} (m : BitVec n) (hn : n ≤ 64) :
    countLanes (m.setWidth 64) = (List.range n).countP (fun i => m.getLsbD i) := by
  obtain ⟨k, hk⟩ := Nat.exists_eq_add_of_le hn
  have habove : ((List.range k).map (n + ·)).countP (fun i => (m.setWidth 64).getLsbD i) = 0 := by
    rw [List.countP_eq_zero]
    intro i hi
    obtain ⟨j, -, rfl⟩ := List.mem_map.1 hi
    rw [BitVec.getLsbD_setWidth, BitVec.getLsbD_of_ge m _ (Nat.le_add_right n j), Bool.and_false]
    decide
  rw [countLanes, lanesOf, ← List.countP_eq_length_filter, hk, List.range_add, List.countP_append, ← hk, habove, Nat.add_zero]
  refine List.countP_congr fun i hi => ?_
  have hlt : i < 64 := Nat.lt_of_lt_of_le (List.mem_range.1 hi) hn
  rw [BitVec.getLsbD_setWidth, decide_eq_true hlt, Bool.true_and]

/-! #### Sessions, bindings and rotation (12 R449, R450, 15 R493) -/

section
variable {s : State} {n transport : Nat} (htransport : transport ≤ 1)
include htransport

theorem spdmRequest_exchanges (hn : n ∉ s.portil.exchanged) : exec (.spdmRequest n 0xE4 transport) s
      = .next { s with portil := { s.portil with exchanged := s.portil.exchanged ++ [n] } }
    ∧ exec (.spdmRequest n 0xE5 transport) s = .next s := by
  have hnew : ¬ s.portil.exchanged.contains n = true := mt List.contains_iff_mem.1 hn
  exact ⟨congrArg Host.Outcome.next ((if_neg (Nat.not_lt.2 htransport)).trans ((if_pos rfl).trans (if_neg hnew))),
    congrArg Host.Outcome.next ((if_neg (Nat.not_lt.2 htransport)).trans ((if_neg (by decide)).trans ((if_pos rfl).trans
      (if_pos (by rw [Bool.eq_false_iff.2 hnew]; rfl)))))⟩

theorem spdmRequest_opens (hn : n ∈ s.portil.exchanged) : exec (.spdmRequest n 0xE5 transport) s
    = .next { s with portil := { s.portil with
        exchanged := s.portil.exchanged.filter (· != n), sessions := s.portil.sessions.filter (· != n) ++ [n] } } :=
  congrArg Host.Outcome.next ((if_neg (Nat.not_lt.2 htransport)).trans ((if_neg (by decide)).trans ((if_pos rfl).trans
    (if_neg (not_not_eq_true (List.contains_iff_mem.2 hn))))))

theorem spdmRequest_ends : exec (.spdmRequest n 0xEC transport) s
    = .next { s with portil := { s.portil with sessions := s.portil.sessions.filter (· != n) } } :=
  congrArg Host.Outcome.next ((if_neg (Nat.not_lt.2 htransport)).trans ((if_neg (by decide)).trans ((if_neg (by decide)).trans
    (if_pos rfl))))

theorem spdmRequest_answers {code : Nat} {a : List Byte} (h4 : code ≠ 0xE4) (h5 : code ≠ 0xE5) (hC : code ≠ 0xEC)
    (ha : spdmAnswer s code = some a) : exec (.spdmRequest n code transport) s
      = .next { s with portil := { s.portil with responses := s.portil.responses ++ [a] } } := by
  show execSpdmRequest n code transport s = _
  unfold execSpdmRequest
  dsimp only
  rw [if_neg (Nat.not_lt.2 htransport), if_neg h4, if_neg h5, if_neg hC, ha]

end

section
variable {s : State} {n : Nat} (hdev : s.pf.featDev.getLsbD 43 = true) (hdrv : s.pf.featDrv.getLsbD 43 = true)
  (hlow : 1 ≤ n) (hhigh : n ≤ 64)
include hdev hdrv hlow hhigh

theorem tdispRequest_offered : ¬ (!(s.pf.featDev.getLsbD 43 && s.pf.featDrv.getLsbD 43) || decide (n = 0) || decide (64 < n)) = true := by
  rw [hdev, hdrv]
  simp
  omega

theorem tdispRequest_bindings (world : Nat) :
    exec (.tdispRequest n world true) s = .next { s with portil := { s.portil with bindings := tput s.portil.bindings n world } }
    ∧ exec (.tdispRequest n world false) s = .next { s with portil := { s.portil with bindings := tdel s.portil.bindings n } } := by
  have hoffered := tdispRequest_offered hdev hdrv hlow hhigh
  exact ⟨congrArg Host.Outcome.next ((if_neg hoffered).trans (if_pos rfl)),
    congrArg Host.Outcome.next ((if_neg hoffered).trans (if_neg (by decide)))⟩

end

/-! #### Device reset and training (12 R441, 15 R501) -/

theorem perstRelease_resets (s : State) : ∃ t, exec (.perstRelease true) s = .next t ∧ t.pf = { State.reset.pf with stage := 1 }
    ∧ t.mem = (lockPages s).mem ∧ t.ctxs = [] ∧ t.coaches = [] ∧ t.regions = [] ∧ t.rakes = [] ∧ t.keys = [] ∧ t.l1 = [] ∧ t.l2 = []
    ∧ t.portil.keyid = s.portil.keyid :=
  ⟨_, rfl, rfl, rfl, rfl, rfl, rfl, rfl, rfl, rfl, rfl, rfl⟩

/-- Nothing is listed under a key that a filter drops. -/
theorem tget_filter_dropped {α : Type} (t : Tbl α) {q : Nat → Bool} {k : Nat} (h : q k = false) :
    tget (t.filter (fun e => q e.1)) k = none := by
  refine tget_eq_none_of_not_mem fun hk => ?_
  obtain ⟨e, he, rfl⟩ := List.mem_map.1 hk
  rw [(List.mem_filter.1 he).2] at h
  exact Bool.noConfusion h

/-- FEATDEV once READY: FUSE, IDE, TDISP and ATS (log 47), the system plate and its version, and MAJOR 4. -/
def readyFeat (f : BitVec 128) (plate : Option Plate) : BitVec 128 :=
  setFeat (setFeat (setFeat (setFeat (setFeat (setFeat f 44 41 15) 40 40 (if plate.isSome then 1 else 0))
    39 24 ((plate.map Plate.syspat).getD 0)) 23 8 ((plate.map Plate.sysmin).getD 0)) 7 1 4) 0 0 1

/-- The device that READY leaves with the feature word `f`, before its vector. -/
def readied (s : State) (f : BitVec 128) : State :=
  stageDone { s with pf := { s.pf with featDev := f, featDrv := f &&& featRo, ready := true }
                     parts := [(0, { Machine.Part.none with clusters := BitVec.allOnes 20 })] } 6

section
variable {s : State} (hfatal : s.pf.fatal = false) (hready : s.pf.ready = false)
include hfatal hready

theorem dramTraining_zeroes (hstage : s.pf.stage = 1) : ∃ t, exec (.dramTraining true) s = .next t ∧ t.pf = { s.pf with stage := 2 }
    ∧ t.pot = [] ∧ (∀ a, isDram a = true → memGet t.mem a = 0) ∧ ∀ l ∈ t.poison, isDram (l * 64) = false := by
  refine ⟨_, next_afterStage hfatal hready hstage _, rfl, rfl, fun a ha => ?_, fun l hl => ?_⟩
  · exact congrArg (Option.getD · 0) (tget_filter_dropped s.mem (q := fun k => !isDram k) (by rw [ha]; rfl))
  · exact Bool.not_eq_true' _ ▸ (List.mem_filter.1 hl).2

theorem systemPlateLoad_takes {image : List Byte} {p : Plate} (hstage : s.pf.stage = 2) (hplate : checkPlate image true 0 = .ok p) :
    exec (.systemPlateLoad image true) s = .next { s with pf := { s.pf with stage := 3 }, sysplate := some p } := by
  refine next_of_eq (next_afterStage hfatal hready hstage _) ?_
  dsimp only
  rw [hplate]
  rfl

/-- A plate that is not signed, or whose checks fail, is not loaded (08 R325). -/
theorem systemPlateLoad_fails {image : List Byte} {signed : Bool} (hstage : s.pf.stage = 2)
    (hbad : signed = false ∨ ∃ e, checkPlate image true 0 = .error e) :
    exec (.systemPlateLoad image signed) s = .next { s with pf := { s.pf with stage := 3, sysplateFailed := true } } := by
  refine next_of_eq (next_afterStage hfatal hready hstage _) ?_
  dsimp only
  rcases hbad with rfl | ⟨e, he⟩
  · split <;> rfl
  · rw [he]
    rfl

theorem clusterSelfTest_counts (passed : BitVec 20) (hstage : s.pf.stage = 3) : ∃ t, exec (.clusterSelfTest passed) s = .next t
    ∧ t.pf.stage = 4 ∧ field t.pf.featDev.toNat 71 64 = (List.range 20).countP (fun i => passed.getLsbD i)
    ∧ field t.pf.featDev.toNat 63 0 = field s.pf.featDev.toNat 63 0 := by
  have hcount : (List.range 20).countP (fun i => passed.getLsbD i) ≤ 20 := List.countP_le_length.trans_eq List.length_range
  refine ⟨_, next_afterStage hfatal hready hstage _, rfl, ?_, field_setFeat_apart _ (by decide) (by decide) (by decide)⟩
  exact (field_setFeat _ 71 64 _ (by decide) (by decide)).trans
    ((congrArg (· % 2 ^ 8) (countLanes_setWidth passed (by decide))).trans (Nat.mod_eq_of_lt (by omega)))

theorem extumLinkTraining_names (up : BitVec 12) (hstage : s.pf.stage = 4) : ∃ t, exec (.extumLinkTraining up) s = .next t
    ∧ t.pf.stage = 5 ∧ field t.pf.featDev.toNat 63 52 = up.toNat ∧ field t.pf.featDev.toNat 51 0 = field s.pf.featDev.toNat 51 0
    ∧ field t.pf.featDev.toNat 127 64 = field s.pf.featDev.toNat 127 64 :=
  ⟨_, next_afterStage hfatal hready hstage _, rfl,
    (field_setFeat _ 63 52 _ (by decide) (by decide)).trans (Nat.mod_eq_of_lt up.isLt),
    field_setFeat_apart _ (by decide) (by decide) (by decide), field_setFeat_apart _ (by decide) (by decide) (by decide)⟩

theorem ready_readies (hstage : s.pf.stage = 5) :
    exec .ready s = .next (raiseVector (readied s (readyFeat s.pf.featDev s.sysplate)) 0 3) := by
  refine next_of_eq (next_afterStage hfatal hready hstage _) ?_
  unfold readied readyFeat
  cases s.sysplate <;> rfl

end

section
variable (f : BitVec 128) (plate : Option Plate)

theorem readyFeat_fuse : field (readyFeat f plate).toNat 44 41 = 15 := by
  unfold readyFeat
  rw [field_setFeat_apart, field_setFeat_apart, field_setFeat_apart, field_setFeat_apart, field_setFeat_apart, field_setFeat] <;> decide

theorem readyFeat_major : field (readyFeat f plate).toNat 7 1 = 4 := by
  unfold readyFeat
  rw [field_setFeat_apart, field_setFeat] <;> decide

theorem readyFeat_above : field (readyFeat f plate).toNat 127 45 = field f.toNat 127 45 := by
  unfold readyFeat
  rw [field_setFeat_apart, field_setFeat_apart, field_setFeat_apart, field_setFeat_apart, field_setFeat_apart, field_setFeat_apart] <;>
    decide

theorem readyFeat_ctx : (readyFeat f plate).getLsbD 0 = true := by
  unfold readyFeat
  rw [getLsbD_setFeat _ (by decide) (by decide), if_pos (by decide)]
  rfl

theorem readyFeat_plate : (readyFeat f plate).getLsbD 40 = plate.isSome := by
  unfold readyFeat
  rw [getLsbD_setFeat _ (by decide) (by decide), if_neg (by decide), getLsbD_setFeat _ (by decide) (by decide), if_neg (by decide),
    getLsbD_setFeat _ (by decide) (by decide), if_neg (by decide), getLsbD_setFeat _ (by decide) (by decide), if_neg (by decide),
    getLsbD_setFeat _ (by decide) (by decide), if_pos (by decide)]
  cases plate <;> simp

theorem readyFeat_minor (p : Plate) : field (readyFeat f (some p)).toNat 23 8 = p.sysmin % 65536 := by
  unfold readyFeat
  rw [field_setFeat_apart _ (by decide) (by decide) (by decide), field_setFeat_apart _ (by decide) (by decide) (by decide),
    field_setFeat _ _ _ _ (by decide) (by decide)]
  rfl

theorem readyFeat_patch (p : Plate) : field (readyFeat f (some p)).toNat 39 24 = p.syspat % 65536 := by
  unfold readyFeat
  rw [field_setFeat_apart _ (by decide) (by decide) (by decide), field_setFeat_apart _ (by decide) (by decide) (by decide),
    field_setFeat_apart _ (by decide) (by decide) (by decide), field_setFeat _ _ _ _ (by decide) (by decide)]
  rfl

end

/-- Settles O58: each request, and each stage of bring-up with the fields of FEATDEV that it sets and leaves. -/
theorem bringUp : Obligations.BringUp := by
  intro s n after
  refine ⟨fun transport htransport => ⟨spdmRequest_exchanges htransport, spdmRequest_opens htransport, fun code a hmem => ?_,
      _, spdmRequest_ends htransport, fun hn => ?_, rfl⟩,
    fun world hdev hdrv hlow hhigh => tdispRequest_bindings hdev hdrv hlow hhigh world, rfl, perstRelease_resets s,
    ⟨_, rfl, fatalDevice_fatal _ _ _⟩, fun ⟨hstage, hfatal, hready⟩ => dramTraining_zeroes hfatal hready hstage,
    fun ⟨hstage, hfatal, hready⟩ => next_afterStage hfatal hready hstage _,
    fun image p ⟨hstage, hfatal, hready⟩ => systemPlateLoad_takes hfatal hready hstage,
    fun image signed ⟨hstage, hfatal, hready⟩ => systemPlateLoad_fails hfatal hready hstage,
    fun passed ⟨hstage, hfatal, hready⟩ => clusterSelfTest_counts hfatal hready passed hstage,
    fun up ⟨hstage, hfatal, hready⟩ => extumLinkTraining_names hfatal hready up hstage,
    fun ⟨hstage, hfatal, hready⟩ => ⟨_, ready_readies hfatal hready hstage, ?_⟩⟩
  · simp only [List.mem_cons, Prod.mk.injEq, List.not_mem_nil, or_false] at hmem
    obtain ⟨rfl, rfl⟩ | ⟨rfl, rfl⟩ | ⟨rfl, rfl⟩ | ⟨rfl, rfl⟩ := hmem <;>
      exact spdmRequest_answers htransport (by decide) (by decide) (by decide) rfl
  · exact absurd (List.mem_filter.1 hn).2 (by simp)
  · rw [raiseVector_pf, raiseVector_parts, show ∀ f, (readied s f).pf.featDev = f from fun _ => rfl]
    exact ⟨rfl, rfl, mem_raiseVector _ 0 3, rfl, readyFeat_ctx .., readyFeat_major .., readyFeat_fuse .., readyFeat_plate ..,
      readyFeat_above .., fun p hp => hp ▸ ⟨readyFeat_minor .., readyFeat_patch ..⟩⟩

end Sys2Proof.Proofs
end
